-- ==== Sys2Proof/Word.lean ====
section
/-!
DEFINITION. The word types: a byte of memory and the FP32 register value.
-/

namespace Sys2Proof

/-- One byte (R8, R10). -/
abbrev Byte := BitVec 8

/-- An FP32 value as its 32 bits (Table 2.2). -/
abbrev F32 := BitVec 32

end Sys2Proof
end

