-- ==== Sys2Proof/Syntax.lean ====
section
/-!
DEFINITION. The commands of the block, and the records that some of them carry.
-/

namespace Sys2Proof

/-- A transfer header (Table 10.4). -/
structure Hdr where
  /-- Operation code. -/
  op : Nat := 0
  /-- 0 tensor address, 1 core and shelf offset. -/
  space : Nat := 0
  /-- Data bytes. -/
  length : Nat := 0
  /-- Destination rank. -/
  dest : Nat := 0
  /-- Source rank. -/
  src : Nat := 0
  /-- Address in the space. -/
  address : Nat := 0
  /-- Chosen by the source. -/
  tag : Nat := 0
  /-- Epoch of the source's view. -/
  epoch : Nat := 0
  /-- Multicast or push key. -/
  key : Nat := 0
  /-- Status of ACK and READ_DATA. -/
  status : Nat := 0
  /-- Bytes a READ requests. -/
  reqLength : Nat := 0
  deriving DecidableEq, Repr, Inhabited

/-- A RoCE v2 packet as received (R325): the queue pair it names, the operation (0 SEND, 1 RDMA WRITE, 2 RDMA WRITE
WITH IMMEDIATE, 3 RDMA READ, 4 atomic or other refused request, 5 ACK, 6 NAK with its code in the first byte of data, 0 for
a sequence error, 7 RNR NAK, 8 READ RESPONSE), whether the
invariant CRC and the MACsec protection hold, its PSN, and its fields. -/
structure RocePacket where
  /-- Destination queue pair. -/
  qp : Nat := 0
  /-- Operation, as listed above. -/
  op : Nat := 0
  /-- The invariant CRC checks. -/
  icrcOk : Bool := true
  /-- The frame carried a valid SecTAG and ICV. -/
  secOk : Bool := false
  /-- Packet number of its SecTAG. -/
  pn : Nat := 0
  /-- Packet sequence number. -/
  psn : Nat := 0
  /-- Virtual address of a write's first packet. -/
  va : Nat := 0
  /-- rkey of a write's first packet. -/
  rkey : Nat := 0
  /-- Bytes of the whole message, in a first or only packet; 0 in a middle or last packet. -/
  dmaLen : Nat := 0
  /-- Marked CE. -/
  ce : Bool := false
  /-- Payload. -/
  data : List Byte := []
  deriving DecidableEq, Repr, Inhabited

/-- An Ethernet frame that is no RoCE packet (R324): its length with FCS, its VLAN (none: untagged), its kind (0 ARP or
neighbour solicitation, 1 ARP or neighbour reply, 2 ICMP or ICMPv6 echo request, 3 other ICMP, 4 unsupported, 5 PTP,
6 MKA), the IP address asked for or carried, the sender's MAC address, and whether MACsec protection holds. -/
structure EthFrame where
  /-- Length, FCS included. -/
  len : Nat := 64
  /-- VLAN identifier of its tag. -/
  vlan : Option Nat := none
  /-- Kind, as listed above. -/
  kind : Nat := 4
  /-- IP address asked for, or carried. -/
  ip : List Byte := []
  /-- Sender's MAC address. -/
  mac : List Byte := []
  /-- Packet number of its SecTAG. -/
  pn : Nat := 0
  /-- The frame carried a valid SecTAG and ICV. -/
  secOk : Bool := false
  deriving DecidableEq, Repr, Inhabited

/-- The commands: one constructor per row of spec/opcode_table.json. m and n are the mailbox and number of a taken
order, t a run tag, i a macro-instruction index, p a team position, l a link, q a queue pair, u a sub-port, ch a DDR
channel; d holds bytes that the command brings in (none: the read from host memory failed, R335). -/
inductive Instr where
  /-- CREATE_TENSOR (R17): served tells whether the ZERO_ON_CREATE writes to PEER and HOST pages are acknowledged. -/
  | createTensor (m n : Nat) (served : Bool)
  /-- DESTROY_TENSOR (R18). -/
  | destroyTensor (m n : Nat)
  /-- LOAD_PROGRAM (R24). -/
  | loadProgram (m n : Nat) (d : Option (List Byte))
  /-- RUN (R27). -/
  | run (m n : Nat)
  /-- CANCEL (R192). -/
  | cancel (m n : Nat)
  /-- QUERY (R361). -/
  | query (m n : Nat)
  /-- MAP_PAGES (R186). -/
  | mapPages (m n : Nat) (d : Option (List Byte))
  /-- RESUME_STREAM (R191). -/
  | resumeStream (m n : Nat)
  /-- BEGIN_TXN (R365). -/
  | beginTxn (m n : Nat)
  /-- SET (R364). -/
  | set (m n : Nat) (d : Option (List Byte))
  /-- COMMIT_TXN (R367). -/
  | commitTxn (m n : Nat)
  /-- ROLLBACK_TXN (R368). -/
  | rollbackTxn (m n : Nat)
  /-- FORM_GROUP (R237). -/
  | formGroup (m n : Nat) (d : Option (List Byte))
  /-- LEAVE_GROUP (R266). -/
  | leaveGroup (m n : Nat)
  /-- OPEN_SESSION (R399). -/
  | openSession (m n : Nat) (d : Option (List Byte))
  /-- CLOSE_SESSION (R401). -/
  | closeSession (m n : Nat)
  /-- CLOSE_SESSION_COMPLETE (R401). -/
  | closeSessionComplete
  /-- ATTEST (R394): the flags are what the checks of the three writes of R390 find, when the signing begins in
  this command. -/
  | attest (m n : Nat) (ok0 ok1 okC : Bool)
  /-- READ_COUNTERS (R362). -/
  | readCounters (m n : Nat)
  /-- READ_COFFER (R431). -/
  | readCoffer (m n : Nat)
  /-- UPDATE_FIRMWARE (R403). -/
  | updateFirmware (m n : Nat) (d : Option (List Byte))
  /-- ORDER_WINDOW_WRITE (R331): an RDMA WRITE of the host: virtual address, rkey, bytes. -/
  | orderWindowWrite (q addr rkey : Nat) (d : List Byte)
  /-- MAILBOX_SWEEP (R351). -/
  | mailboxSweep
  /-- ORDER_TAKE (R349). -/
  | orderTake (m : Nat)
  /-- CONNECTION_REQ (R327): service identifier, first PSN, path MTU in bytes. -/
  | connectionReq (u service psn mtu : Nat)
  /-- CONNECTION_RECORD (R329): d is the record that the host sends. -/
  | connectionRecord (q : Nat) (d : List Byte)
  /-- DISCONNECT_REQUEST (R335). -/
  | disconnectRequest (q : Nat)
  /-- COMPLETION_WRITE (R333). -/
  | completionWrite (q : Nat)
  /-- CONSUMER_INDEX_READ (R333): c is the index read. -/
  | consumerIndexRead (q c : Nat)
  /-- RUN_START (R28). -/
  | runStart (t : Nat)
  /-- MACRO_START (R22). -/
  | macroStart (t i p : Nat)
  /-- RUN_END (R29). -/
  | runEnd (t : Nat)
  /-- RUN_STOP_COMPLETE (R192). -/
  | runStopComplete (t : Nat)
  /-- MATMUL (R32). -/
  | matmul (t i p : Nat)
  /-- MATMUL_S24 (R110). -/
  | matmulS24 (t i p : Nat)
  /-- SPMM_X (R117). -/
  | spmmX (t i p : Nat)
  /-- CONV_W (R173). -/
  | convW (t i p : Nat)
  /-- PREDICT (R127). -/
  | predict (t i p : Nat)
  /-- ROWOP (R220). -/
  | rowop (t i p : Nat)
  /-- ROWOP_BWD (R222). -/
  | rowopBwd (t i p : Nat)
  /-- GATHER (R170). -/
  | gather (t i p : Nat)
  /-- SCATTER_ADD (R172). -/
  | scatterAdd (t i p : Nat)
  /-- COPY (R166). -/
  | copy (t i p : Nat)
  /-- TRANSPOSE (R168). -/
  | transpose (t i p : Nat)
  /-- PERMUTE (R166). -/
  | permute (t i p : Nat)
  /-- COMPRESS (R106). -/
  | compress (t i p : Nat)
  /-- BWD_DATA (R203). -/
  | bwdData (t i p : Nat)
  /-- BWD_WEIGHT (R225). -/
  | bwdWeight (t i p : Nat)
  /-- GRAD_PUSH (R227). -/
  | gradPush (t i p : Nat)
  /-- ROTATE (R194). -/
  | rotate (t i p : Nat)
  /-- MCAST (R285). -/
  | mcast (t i p : Nat)
  /-- WAIT_BEAT (R21). -/
  | waitBeat (t i p : Nat)
  /-- FENCE (R22). -/
  | fence (t i p : Nat)
  /-- TILE_FIRST_READ (R69). -/
  | tileFirstRead (t i p : Nat)
  /-- PRELOAD_START (R69). -/
  | preloadStart (t i p : Nat)
  /-- TILE_DRAIN (R68). -/
  | tileDrain (t i p : Nat)
  /-- OUTPUT_COMPRESSOR (R105). -/
  | outputCompressor (t i p : Nat)
  /-- CRATE_EXPAND (R108): operand op, 0 A or 1 B, and crate slot of the strip. -/
  | crateExpand (t i p op slot : Nat)
  /-- MERGE_KTILE (R118). -/
  | mergeKtile (core : Nat)
  /-- LIST_STORE_LOAD (R118). -/
  | listStoreLoad (core lane : Nat)
  /-- BROADCASTER_PUSH (R119). -/
  | broadcasterPush (core : Nat)
  /-- LANE_ACTION (R120). -/
  | laneAction (core lane : Nat)
  /-- MERGE_ROW_ADD (R121). -/
  | mergeRowAdd (core : Nat)
  /-- PREDICTOR_GROUP (R130). -/
  | predictorGroup (t i p : Nat)
  /-- ZERO_ROW_WRITE (R133). -/
  | zeroRowWrite (t i p : Nat)
  /-- PACKED_TILE (R134). -/
  | packedTile (t i p : Nat)
  /-- GOVERNED_RELEASE (R137). -/
  | governedRelease (t i p : Nat)
  /-- HALF_FILL (R178): operand op: 0 A, 1 B, 2 C, 3 D. -/
  | halfFill (t i p op : Nat)
  /-- TRANSFER_LAND (R178): transfer id; d holds the bytes of a PEER or HOST read, none when it was not served. -/
  | transferLand (id : Nat) (d : Option (List Byte))
  /-- WRITE_COMPLETE (R179): write id of a core; ok when the peer or host served it. -/
  | writeComplete (core id : Nat) (ok : Bool)
  /-- TURNED_LOAD (R204): operand k of the unit. -/
  | turnedLoad (t i p k : Nat)
  /-- ROTATE_STEP (R195). -/
  | rotateStep (t i p : Nat)
  /-- ROTATE_RECEIVE (R195): the slice that is due comes in; the predecessor's rank (0xFFFF for this device) and core, and the
  slice's step modulo 256. -/
  | rotateReceive (t i p rank core step : Nat)
  /-- ROTATE_STALL_LIMIT (R196). -/
  | rotateStallLimit (t i p : Nat)
  /-- ROTATE_BUFFER_READ (R197): a read or write of len bytes at a shelf offset. -/
  | rotateBufferRead (t i p off len : Nat) (write : Bool)
  /-- UPDATE_SLICE (R231). -/
  | updateSlice (t i p : Nat)
  /-- FORMATION_END (R239). -/
  | formationEnd
  /-- FORM_TIMEOUT (R239). -/
  | formTimeout
  /-- IDENTITY_SEND (R240). -/
  | identitySend (l : Nat)
  /-- IDENTITY (R255): d is the record received (Table 9.4). -/
  | identity (l : Nat) (d : List Byte)
  /-- BEAT_BOUNDARY (R243). -/
  | beatBoundary
  /-- BEAT_MARK (R251): the mark that the last frame of the link brought is used: its low 16 bits of the beat number, and its
  offset. -/
  | beatMark (l number offset : Nat)
  /-- HOLDOVER_LIMIT_FENCE (R252). -/
  | holdoverLimitFence
  /-- SOURCE_LOST (R246). -/
  | sourceLost
  /-- SOURCE_RELOCKED (R247): err is the keeper's error against its source in cc. -/
  | sourceRelocked (err : Int)
  /-- STAMP (R249): d is the record received (Table 10.3). -/
  | stamp (l : Nat) (d : List Byte)
  /-- BEAT_FULL (R278): d is the record received. -/
  | beatFull (l : Nat) (d : List Byte)
  /-- LINK_STATE (R279): width and reason of the record received. -/
  | linkState (l width reason : Nat)
  /-- VIEW_ANNOUNCEMENT (R234): epoch, ranks, keeper, view beat, and, of a view in HOLD, the lowest rank whose digest differs
  from the keeper's. -/
  | viewAnnouncement (epoch : Nat) (ranks : List Nat) (keeper beat : Nat) (hold : Option Nat)
  /-- VIEW_BEAT (R234). -/
  | viewBeat
  /-- SPLIT_SIDE (R256): edges are the links in service as the side knows them: two ranks and the link. -/
  | splitSide (edges : List (Nat × Nat × Nat))
  /-- FENCE_BEAT (R256). -/
  | fenceBeat
  /-- REJOIN (R260): the announced device: rank, hops, firmware major version, beats locked, digest. -/
  | rejoin (rank hops major : Nat) (lockedBt : Nat) (digest : List Byte)
  /-- REFORM (R261): ranks of the side that forms again, and the epoch in which it does. -/
  | reform (ranks : List Nat) (epoch : Nat)
  /-- PREPARE (R262): coordinator, staged keys with values, commit beat C or 0. -/
  | prepare (coord : Nat) (staged : List (Nat × List Byte)) (beat : Nat)
  /-- READY_REPLY (R262): replying rank and its status, E_OK for READY. -/
  | readyReply (rank : Nat) (status : Byte)
  /-- DECISION (R264): coordinator and commit beat C. -/
  | decision (coord beat : Nat)
  /-- ABORT (R262): coordinator. -/
  | abort (coord : Nat)
  /-- TXN_REPLY_TIMEOUT (R262). -/
  | txnReplyTimeout
  /-- COMMIT_BEAT (R264). -/
  | commitBeat
  /-- LOCAL_COMMIT_BEAT (R367). -/
  | localCommitBeat
  /-- FRAME_RECEIVE (R273): d is the frame; the codeword that begins in it had symbols corrected, or was not
  correctable. -/
  | frameReceive (l : Nat) (d : List Byte) (fixed bad : Bool)
  /-- FRAME_SEND (R273). -/
  | frameSend (l : Nat)
  /-- REPLAY_TIMEOUT (R276). -/
  | replayTimeout (l : Nat)
  /-- LANE_SIGNAL_LOSS (R277): lane 0 or 1 of the link. -/
  | laneSignalLoss (l lane : Nat)
  /-- LINK_RETRAIN (R277): whether each lane passed. -/
  | linkRetrain (l : Nat) (pass0 pass1 : Bool)
  /-- LINK_DOWN_RETRY (R277). -/
  | linkDownRetry (l : Nat)
  /-- TRANSFER_FORWARD (R283): a transfer for another rank. -/
  | transferForward (h : Hdr) (d : List Byte)
  /-- READ (R280): a READ received. -/
  | readTransfer (h : Hdr)
  /-- READ_DATA (R280): a READ_DATA received. -/
  | readData (h : Hdr) (d : List Byte)
  /-- WRITE (R280): a WRITE received. -/
  | writeTransfer (h : Hdr) (d : List Byte)
  /-- ADD (R284): an ADD received: FP32 addends. -/
  | add (h : Hdr) (d : List Byte)
  /-- ACK (R284): an ACK received. -/
  | ack (h : Hdr)
  /-- MGMT (R274): a management message received. -/
  | mgmt (h : Hdr) (d : List Byte)
  /-- JOIN (R286): multicast key, epoch, joining rank. -/
  | join (key epoch rank : Nat)
  /-- MC_DATA (R286): bytes of a chunk received; the header, with the place that its address and tag name. -/
  | mcData (h : Hdr) (address tag : Nat) (d : List Byte)
  /-- MC_ACK (R286): a child's acknowledgement of a chunk: key, epoch, child rank, and the address that names the chunk. -/
  | mcAck (key epoch rank address : Nat)
  /-- MCAST_DETACH (R287): key, team position of a ROTATE send or 0, child rank. -/
  | mcastDetach (key pos rank : Nat)
  /-- DETACH (R287): the parent's rank, and the message: the key, and of a ROTATE send the receiving core and the step modulo
  256. -/
  | detach (rank : Nat) (d : List Byte)
  /-- CATCHUP_LIMIT (R288): key, team position of a ROTATE send or 0, child rank. -/
  | catchupLimit (key pos rank : Nat)
  /-- MCAST_COMPLETE (R288): run and record of the MCAST. -/
  | mcastComplete (t i : Nat)
  /-- RED_STATUS (R292): a child's count for a push. -/
  | redStatus (h : Hdr) (d : List Byte)
  /-- RED_PART (R291): bytes of a child's partial of a slice; the header, with the place that its address names and the count
  that its tag holds. -/
  | redPart (h : Hdr) (address count : Nat) (d : List Byte)
  /-- REDUCER_COMBINE (R291): push key, rank whose node is served, slice. -/
  | reducerCombine (key node slice : Nat)
  /-- RED_RESULT (R294): bytes of a slice's result; the header, with the place that its address names and the count that its
  tag holds. -/
  | redResult (h : Hdr) (address count : Nat) (d : List Byte)
  /-- PUSH_DEADLINE (R293): push key. -/
  | pushDeadline (key : Nat)
  /-- PUSH_COMPLETE (R294): push key. -/
  | pushComplete (key : Nat)
  /-- DDR_QUEUE_ENTRY (R305): requester of Table 14.1, operation 0 read, 1 write, 2 atomic add, frame address, bytes. -/
  | ddrQueueEntry (ch req op addr len : Nat) (d : List Byte)
  /-- BURST_READ (R307): devices in error as a whole, and erroneous bytes in others. -/
  | burstRead (ch : Nat) (errs : List Nat) (extra : Nat)
  /-- BURST_WRITE (R304): as BURST_READ, for the read of a read-modify-write. -/
  | burstWrite (ch : Nat) (errs : List Nat) (extra : Nat)
  /-- ATOMIC_ADD_BURST (R306): as BURST_READ. -/
  | atomicAddBurst (ch : Nat) (errs : List Nat) (extra : Nat)
  /-- FRESH_FILL (R314): frame of 2 MiB. -/
  | freshFill (frame : Nat)
  /-- SCRUB (R309): as BURST_READ. -/
  | scrub (ch : Nat) (errs : List Nat) (extra : Nat)
  /-- LINK_RETRY (R311). -/
  | linkRetry (ch : Nat)
  /-- CHANNEL_RETRAIN (R311): ok when the channel trained. -/
  | channelRetrain (ch : Nat) (ok : Bool)
  /-- BACKGROUND_ZEROING (R315). -/
  | backgroundZeroing
  /-- ROCE_PACKET (R325). -/
  | rocePacket (u : Nat) (k : RocePacket)
  /-- ACK_TIMEOUT (R326). -/
  | ackTimeout (q : Nat)
  /-- ETH_FRAME_RECEIVE (R324). -/
  | ethFrameReceive (u : Nat) (k : EthFrame)
  /-- PORT_UP (R323). -/
  | portUp (u : Nat)
  /-- PORT_DOWN (R344). -/
  | portDown (u : Nat)
  /-- PAUSE_FRAME (R339): priority and quanta. -/
  | pauseFrame (u prio quanta : Nat)
  /-- PFC_STORM (R339). -/
  | pfcStorm (u : Nat)
  /-- PFC_STORM_END (R339). -/
  | pfcStormEnd (u : Nat)
  /-- CNP (R340). -/
  | cnp (q : Nat)
  /-- RATE_RECOVERY (R340). -/
  | rateRecovery (q : Nat)
  /-- MKA (R341): the SAK agreed, none when key agreement failed. -/
  | mka (u : Nat) (sak : Option (List Byte))
  /-- PTP_TIME_UPDATE (R343): PTP time in ns, measured and predicted offset in ns, whether the port is slave and
  its delay measured. -/
  | ptpTimeUpdate (u time : Nat) (offset predicted : Int) (slave measured : Bool)
  /-- ARBITER_ROUND (R374): class and instance of Table 14.1, requesters whose request is raised. -/
  | arbiterRound (cls inst : Nat) (raised : List Nat)
  /-- WATCHDOG_CHECK (R378): kind 0 core or 1 segment, its number, whether it made progress in the interval,
  whether the interval does not count. -/
  | watchdogCheck (kind unit : Nat) (progress : Bool) (excused : Bool)
  /-- SHELF_SCRUB (R411): err 0 clean, 1 corrected, 2 uncorrectable. -/
  | shelfScrub (core err : Nat)
  /-- LOCKSTEP_MISMATCH (R414). -/
  | lockstepMismatch
  /-- IMION_RESTARTED (R414). -/
  | imionRestarted
  /-- GOVERNOR_BUDGET (R415): demand of each core in steps for 10 µs, energy of a step in pJ, power of all else in W. -/
  | governorBudget (demands : List (Nat × List Nat)) (perStep : Nat) (idle : Nat)
  /-- POWER_SAMPLE (R415): package power in W. -/
  | powerSample (watts : Nat)
  /-- CURRENT_LIMIT (R416): estimate of the VDD_CORE current in A. -/
  | currentLimit (amps : Nat)
  /-- THERMAL_SAMPLE (R417): readings of the 64 sensors in °C. -/
  | thermalSample (temps : List Nat)
  /-- THERMTRIP (R418): the sensor at 115 °C. -/
  | thermtrip (sensor : Nat)
  /-- MARGIN_SAMPLE (R420): slack of the 112 monitors in ps. -/
  | marginSample (slacks : List Nat)
  /-- MARGIN_TRIP (R421): monitor and its slack in ps. -/
  | marginTrip (mon slack : Nat)
  /-- MARGIN_DAILY (R422). -/
  | marginDaily
  /-- COFFER_WRITE (R428): whether each copy's write checks. -/
  | cofferWrite (ok0 ok1 : Bool)
  /-- HOLD_UP (R428). -/
  | holdUp
  /-- VDD_STBY_APPLIED (R435). -/
  | vddStbyApplied
  /-- VDD_STBY_FALL (R437). -/
  | vddStbyFall
  /-- RAIL_RISE (R436): rail 0 VDD_AUX, 1 CORE, 2 SRAM, 3 SER_A, 4 SER_B, 5 DDRIO. -/
  | railRise (r : Nat)
  /-- RAIL_LOW (R436): rail as in RAIL_RISE. -/
  | railLow (r : Nat)
  /-- RAIL_HIGH (R464): rail as in RAIL_RISE, 6 VDD_STBY. -/
  | railHigh (r : Nat)
  /-- RESET_N_ASSERT (R444). -/
  | resetNAssert
  /-- RESET_N_RELEASE (R438). -/
  | resetNRelease
  /-- STAGE_ROM (R388). -/
  | stageRom
  /-- STAGE_IMION (R438). -/
  | stageImion
  /-- STAGE_MEMORY (R301): highest rate in MT/s that every module declares, channels unpopulated or unsupported,
  and (rate, channel) that fail training. -/
  | stageMemory (declared : Nat) (unsupported : List Nat) (fails : List (Nat × Nat))
  /-- EPHEMERAL_KEY_GENERATION (R395): the flags are those of ATTEST, for a signing that waited for the pair. -/
  | ephemeralKeyGeneration (ok0 ok1 okC : Bool)
  /-- FILTERED_PULSE (R440): pin 0 RESET_N, 1 HALT_N, 2 LADDER_IN. -/
  | filteredPulse (pin : Nat)
  /-- HALT_N_ASSERT (R443). -/
  | haltNAssert
  /-- HALT_N_RELEASE (R443). -/
  | haltNRelease
  /-- BEAT_IN_EDGE (R442). -/
  | beatInEdge
  /-- LADDER_IN_CHANGE (R447): level true: asserted. -/
  | ladderInChange (level : Bool)
  /-- LADDER_CLAIM (R447): ack: the address is acknowledged and the claim is in flight; else its STOP, with the
  bytes written. -/
  | ladderClaim (ack : Bool) (d : List Byte)
  /-- GETPID (R447). -/
  | getpid
  /-- GETBCR (R447). -/
  | getbcr
  /-- GETDCR (R447). -/
  | getdcr
  /-- GETSTATUS (R447). -/
  | getstatus
  /-- I3C_PRIVATE_WRITE (R449): d holds the 2-byte offset and the data. -/
  | i3cPrivateWrite (d : List Byte)
  /-- I3C_PRIVATE_READ (R449): n bytes. -/
  | i3cPrivateRead (n : Nat)
  /-- STATUS_WORD_CLEAR (R449). -/
  | statusWordClear (mask : BitVec 32)
  /-- SUBPORT_COMMIT (R450): sub-port and the flags byte written. -/
  | subportCommit (u : Nat) (flags : Byte)
  /-- THERMTRIP_RELEASE (R446). -/
  | thermtripRelease
  /-- REFCLK_CORE_DETECT (R466). -/
  | refclkCoreDetect
  /-- REFCLK_CORE_LOSS (R466). -/
  | refclkCoreLoss
  /-- AVS_SETPOINT (R462): acked when the regulator acknowledges. -/
  | avsSetpoint (acked : Bool)
  /-- DISCONNECT_AFTER_REPLY (R329). -/
  | disconnectAfterReply (q : Nat)
  /-- FIRMWARE_STAGED (R404): ok when the write and its read-back hold. -/
  | firmwareStaged (ok : Bool)
  /-- SIGNATURE_RELEASE (R394): the flags are those of ATTEST, for the next queued signing. -/
  | signatureRelease (ok0 ok1 okC : Bool)
  /-- BACK_IN_SERVICE (R382): kind 0 core or 1 segment, and its number. -/
  | backInService (kind unit : Nat)
  /-- REFCLK_SER_CHANGE (R466): clock n; ok when it is within its limits. -/
  | refclkSerChange (n : Nat) (ok : Bool)
  /-- BOUNDARY_SCAN (R461): levels of TMS, TDI and TRST_N at a rising edge of TCK. -/
  | boundaryScan (tms tdi trstN : Bool)
  deriving DecidableEq, Repr, Inhabited

end Sys2Proof
end

