-- ==== Sys2Proof/Decode.lean ====
section
/-!
DEFINITION. Words as the opcode table numbers their bits. The table of this block gives no row any bits: a command comes
over a bus or from an event, not as a word, so no word spells one.
-/

namespace Sys2Proof

/-- The command that a word spells by the table's bits: none, for the table gives no row any. -/
def decodeTableWord (_nbits _w : Nat) : Option Instr := none

end Sys2Proof
end

