-- ==== Sys2Proof/Config.lean ====
section
/-!
DEFINITION. The free values: constants without a body for what the spec leaves open (log 2). Nothing in Lean can
evaluate one, so a claim about the model holds for every value of each.
-/

namespace Sys2Proof.Config

/-- The dither generator of R46: seed, output plane, tile row, tile column, row within the tile, step index.
Its circuit is not published; its output is determined by the key. -/
opaque dither : Nat → Nat → Nat → Nat → Nat → Nat → BitVec 1024

/-- Which of the FP32 values within 1 ulp exp takes (R219): the choice, as a function of the input only. -/
opaque expChoice : BitVec 32 → Nat

/-- The trust block's random bit generator (R385, R313): byte k of draw c. -/
opaque randomByte : Nat → Nat → BitVec 8

/-- ML-KEM-1024 key generation (FIPS 203, R395): seed to (encapsulation key, decapsulation key). -/
opaque mlkemKeyGen : List (BitVec 8) → List (BitVec 8) × List (BitVec 8)

/-- ML-KEM-1024 decapsulation (FIPS 203, R398): decapsulation key, ciphertext to shared secret. -/
opaque mlkemDecaps : List (BitVec 8) → List (BitVec 8) → List (BitVec 8)

/-- XMSS-SHAKE256_20_256 verification under the public key of a firmware key slot, the match of that key's digest
with the fuses included (R387): slot, message, signature. -/
opaque xmssVerify : Nat → List (BitVec 8) → List (BitVec 8) → Bool

/-- XMSS^MT-SHAKE256_40/4_256 signature under the identity key (R390): index, message. -/
opaque xmssMtSign : Nat → List (BitVec 8) → List (BitVec 8)

/-- The new handle that CREATE_TENSOR assigns (R14 leaves the number open, from 1 to 65,535 and unique): a hint. -/
opaque handleHint : Nat → Nat

/-- Which free queue pair number a connection takes (R329 leaves it open): a hint. -/
opaque qpnHint : Nat → Nat

/-- window_va and window_rkey of a connection reply (R329 leaves them open). -/
opaque windowVa : Nat → Nat

/-- See windowVa. -/
opaque windowRkey : Nat → Nat

/-- Which run of consecutive free mailboxes a connection takes (R329 leaves it open): a hint. -/
opaque mailboxHint : Nat → Nat

/-- The two high bytes of GETPID (Zhevium's manufacturer identifier), and the GETBCR, GETDCR and GETSTATUS bytes:
R447's chapter names the answers without giving these bits. -/
opaque getPidHigh : Nat → BitVec 8

/-- See getPidHigh. -/
opaque getBcr : BitVec 8

/-- See getPidHigh. -/
opaque getDcr : BitVec 8

/-- See getPidHigh. -/
opaque getStatus : Nat → BitVec 16

/-- The identity public key of the device (R385, R393): generated at manufacture. -/
opaque identityPk : List (BitVec 8)

/-- The provisioning key identifier of the device certificate (Table 15.4). -/
opaque provSlot : Nat

/-- The provisioning key's signature over bytes 0x000-0x05F of the device certificate (Table 15.4). -/
opaque certSignature : List (BitVec 8) → List (BitVec 8)

/-- V_base in mV that the fused voltage table gives for a temperature in °C and a load in W (R420): the table is the
device's. -/
opaque fusedVoltage : Nat → Nat → Nat

/-- The class byte of the FAULT entry that a thermal trip writes (R418): Table 16.1 has no class for it. -/
opaque tripClass : BitVec 8

/-- The bytes after fw_major of an image of manufacture, copy A (0) or B (1): R469 gives only major version 1. -/
opaque factoryImage : Nat → List (BitVec 8)

/-- The detail of HOLD_ENTERED (Table 9.8) on a member that knows of no digest that differs: no message tells it the rank
(log 9). Epoch. -/
opaque holdRank : Nat → Nat

/-- The byte that a peer or host holds at an address of which a write of the device takes only part (R37): transfer number,
kind and number of the peer or queue pair, target. -/
opaque remoteByte : Nat → Nat → Nat → BitVec 8

/-- Which entry of a core's full translation cache gives way (R182 names no order), a draw. -/
opaque xlateVictim : Nat → Nat

/-- The rank of a module (0 or 1) that holds a line of a channel: R302 calls the assignment Zhevium's own. Channel, line. -/
opaque ddrRank : Nat → Nat → Nat

/-- The level TDO and the scan registers show for the boundary-scan cells (R461 gives no order of the chain). -/
opaque scanCell : Nat → Bool

end Sys2Proof.Config
end

