-- ==== Sys2Proof/Machine/State.lean ====
section
/-!
DEFINITION. The state of the device as plain data, the reasons a step can stop, and the state right after reset.
Each field names the rule of the spec that gives it; INVENTORY.md lists widths and reset values.
-/

namespace Sys2Proof.Machine

/-- Something the device sends out of the package (an output of the model, not state the device reads). -/
structure Out where
  /-- 0 RDMA WRITE, 1 RDMA READ, 2 SEND, 3 connection reply, 4 NAK (data: 0 PSN sequence, 1 invalid request, 2 remote access error), 5 ACK, 6 Ethernet frame, 7 link frame, 8 I3C bytes, 9 AVSBus write, 10 CNP, 11 PAUSE, 12 management message, 13 connection management (addr 0 reply, 1 no resources, 2 invalid service ID, 3 invalid path MTU), 14 RDMA WRITE WITH IMMEDIATE (the immediate leads data) (R325). -/
  kind : Nat := 0
  /-- queue pair, link, sub-port or rank (R325). -/
  dest : Nat := 0
  /-- address (R325). -/
  addr : Nat := 0
  /-- rkey (R325). -/
  rkey : Nat := 0
  /-- bytes (R325). -/
  data : List Byte := []
  /-- packets at the front of a request acknowledged before, not sent again (R326). -/
  skip : Nat := 0
  deriving DecidableEq, Repr, Inhabited

/-- A tensor descriptor as Table 1.1 gives it (R14); the kept copy of CREATE_TENSOR. -/
structure Desc where
  /-- 8 bits (R14). -/
  rank : Nat := 0
  /-- 8 bits (R15). -/
  format : Nat := 0
  /-- 8 bits (R16). -/
  form : Nat := 0
  /-- 8 bits (R16). -/
  layout : Nat := 0
  /-- 8 bits (R14). -/
  placement : Nat := 0
  /-- 8 bits (R14). -/
  flags : Nat := 0
  /-- 64 bits (R14). -/
  base : Nat := 0
  /-- 64 bits (R14). -/
  length : Nat := 0
  /-- 6 x 32 bits (R14). -/
  size : List Nat := []
  /-- 6 x 64 bits (R14). -/
  stride : List Nat := []
  /-- 6 x 32 bits (R14). -/
  bound : List Nat := []
  /-- 64 bits (R14). -/
  scaleOffset : Nat := 0
  deriving DecidableEq, Repr, Inhabited

/-- The push record of Table 10.6 (R296). -/
structure PushRec where
  /-- 32 bits (R296). -/
  key : Nat := 0
  /-- 64 bits (R296). -/
  deadline : Nat := 0
  /-- 16 bits (R296). -/
  countMin : Nat := 0
  /-- 16 bits (R296). -/
  countMax : Nat := 0
  /-- 1 bit (R296). -/
  ownLate : Bool := false
  /-- 1 bit (R296). -/
  viewChanged : Bool := false
  /-- set of ranks (128 bytes) (R296). -/
  included : List Nat := []
  deriving DecidableEq, Repr, Inhabited

/-- A live tensor handle: the descriptor and what the spec keeps beside it. -/
structure Tensor where
  /-- 16 bits, 1-65,535 (R14). -/
  handle : Nat := 0
  /-- 128 bytes (R14). -/
  desc : Desc := {}
  /-- 32 bits (R227). -/
  stepCount : Nat := 0
  /-- 160 bytes (R296). -/
  push : Option PushRec := none
  /-- push key per slice last written (R294). -/
  sliceKeys : List (Nat × Nat) := []
  /-- cores whose instance is lost (R75). -/
  lostOn : List Nat := []
  /-- tiles of a lost instance that a macro-instruction has written: (run, macro index, core) (R75). -/
  rewritten : List ((Nat × Nat × Nat) × List Nat) := []
  deriving DecidableEq, Repr, Inhabited

/-- A tensor reference entry (Table 1.6). -/
structure Ref where
  /-- 32 bits (R19). -/
  handle : Nat := 0
  /-- 8 bits (R19). -/
  format : Nat := 0
  /-- 8 bits (R19). -/
  form : Nat := 0
  /-- 8 bits (R19). -/
  layout : Nat := 0
  /-- 8 bits (R19). -/
  access : Nat := 0
  deriving DecidableEq, Repr, Inhabited

/-- A macro-instruction record (Table 1.7). -/
structure MRec where
  /-- 8 bits (R19). -/
  opcode : Nat := 0
  /-- 8 bits (R19). -/
  flags : Nat := 0
  /-- 8 bits (R19). -/
  cellarBase : Nat := 0
  /-- 8 bits (R19). -/
  cellarCount : Nat := 0
  /-- 16 bits (R19). -/
  opA : Nat := 0xFFFF
  /-- 16 bits (R19). -/
  opB : Nat := 0xFFFF
  /-- 16 bits (R19). -/
  opC : Nat := 0xFFFF
  /-- 16 bits (R19). -/
  opD : Nat := 0xFFFF
  /-- 32 bits (R19). -/
  imm0 : Nat := 0
  /-- 64 bits (R19). -/
  imm1 : Nat := 0
  /-- 64 bits (R19). -/
  beat : Nat := 0
  deriving DecidableEq, Repr, Inhabited

/-- A program installed in a slot (Tables 1.5 to 1.7, R26). -/
structure Program where
  /-- 128-bit mask, as ascending cores (R24). -/
  team : List Nat := []
  /-- header bytes 0x00-0x1F (R241). -/
  header : List Byte := []
  /-- 32 bytes (R19). -/
  digest : List Byte := []
  /-- 8 bits (R19). -/
  mode : Nat := 0
  /-- 32 bits (R19). -/
  scratchBytes : Nat := 0
  /-- 32 bits (R19). -/
  loftBytes : Nat := 0
  /-- 8 bits (R19). -/
  cellarPeak : Nat := 0
  /-- 1-1,024 entries (R19). -/
  refs : List Ref := []
  /-- 1-16,384 records (R19). -/
  recs : List MRec := []
  /-- pushes begun per GRAD_PUSH record, mod 16,384 (R290). -/
  pushes : List (Nat × Nat) := []
  deriving DecidableEq, Repr, Inhabited

/-- A tile status log entry (Table 2.6). -/
structure LogEntry where
  /-- 16 bits (R59). -/
  mi : Nat := 0
  /-- 8 bits (R59). -/
  position : Nat := 0
  /-- 32 bits (R59). -/
  tile : Nat := 0
  /-- 32 bits, Table 2.5 (R58). -/
  status : BitVec 32 := 0
  /-- cc in which its word was written (R59). -/
  wrote : Nat := 0
  deriving DecidableEq, Repr, Inhabited

/-- A halt entry (Table 13.9, R190). -/
structure Halt where
  /-- 16 bits (R361). -/
  mi : Nat := 0
  /-- 8 bits (R361). -/
  position : Nat := 0
  /-- 8 bits (R361). -/
  operand : Nat := 0
  /-- 32 bits (R361). -/
  page : Nat := 0
  /-- 8 bits, Table 7.6 (R188). -/
  reason : Nat := 0
  deriving DecidableEq, Repr, Inhabited

/-- A predicted layer of a run: the values in effect (R145) and its audit results (R144). -/
structure LayerUse where
  /-- 16 bits (R145). -/
  mi : Nat := 0
  /-- 8 bits (R145). -/
  slot : Nat := 0
  /-- FP32 (R145). -/
  theta : BitVec 32 := 0
  /-- FP32 (R145). -/
  g : BitVec 32 := 0
  /-- count (R144). -/
  audited : Nat := 0
  /-- count (R144). -/
  missed : Nat := 0
  deriving DecidableEq, Repr, Inhabited

/-- A finished tile waiting in an output compressor buffer (R102, R105). -/
structure TileBuf where
  /-- 32 bits (R102). -/
  tile : Nat := 0
  /-- tile row (R102). -/
  row : Nat := 0
  /-- tile column (R102). -/
  col : Nat := 0
  /-- plane index (R102). -/
  plane : Nat := 0
  /-- tile buffer words by 64*row+col (R102). -/
  vals : List (Nat × BitVec 32) := []
  /-- words that carry the saturation mark (R102). -/
  marks : List Nat := []
  /-- status word so far (R103). -/
  status : BitVec 32 := 0
  /-- cc w of R105 (R105). -/
  readyAt : Nat := 0
  deriving DecidableEq, Repr, Inhabited

/-- The predictor's state for one predicted layer on one position (R127 to R137). -/
structure PredState where
  /-- 4-bit integers by token*2^32+k (R127). -/
  q : List (Nat × Int) := []
  /-- block exponents by token*2^32+b (R127). -/
  e : List (Nat × Int) := []
  /-- unusable blocks by token*2^32+b (R127). -/
  bad : List Nat := []
  /-- predictor groups not yet decided (R130). -/
  groups : List Nat := []
  /-- kept rows of decided groups (R134). -/
  kept : List Nat := []
  /-- skipped rows that are not audited (R133). -/
  toZero : List Nat := []
  /-- skipped rows that an audit or exact tile walks (R134). -/
  audit : List Nat := []
  /-- rows written, by governed*2^32+row (R133). -/
  written : List Nat := []
  /-- detected misses of the first governed record (R136). -/
  found : List Nat := []
  /-- rows of an MX output whose block is not yet whole, by (governed*2^32+row)*64+token: value and mark (R133). -/
  held : List (Nat × BitVec 32 × Bool) := []
  /-- flags and saturated elements of true tiles, by governed*2^32+tile column (R135). -/
  status : List (Nat × Nat × Nat) := []
  deriving DecidableEq, Repr, Inhabited

/-- The work of one macro-instruction on one team position (R31, R32). -/
structure Walk where
  /-- macro index (R32). -/
  mi : Nat := 0
  /-- team position (R31). -/
  pos : Nat := 0
  /-- 7 bits (R31). -/
  core : Nat := 0
  /-- the opcode's own walk has been formed (R32). -/
  set : Bool := false
  /-- work units not yet begun, in order (R31). -/
  units : List Nat := []
  /-- units begun (i of R32) (R32). -/
  count : Nat := 0
  /-- (work item, cellar tile) in FILLING (R32). -/
  filling : List (Nat × Nat) := []
  /-- (work item, cellar tile) in DRAINING (R32). -/
  draining : List (Nat × Nat) := []
  /-- at most 2 tile buffers per core (R105). -/
  bufs : List TileBuf := []
  /-- cc of its latest tile's first streaming read, after lastRead while it has read none (R69). -/
  readFrom : Nat := 1
  /-- cc of the last streaming read (R69). -/
  lastRead : Nat := 0
  /-- flags set by copy-class or row work (R163). -/
  flags : BitVec 32 := 0
  /-- predictor state (R127). -/
  pred : PredState := {}
  /-- the position has made all its issues (R29). -/
  done : Bool := false
  /-- cc of the start (R177). -/
  startAt : Nat := 0
  /-- beats begun before the start (R21). -/
  beatAt : Nat := 0
  /-- its loft copy is written (R213). -/
  loftDone : Bool := false
  /-- its producer waits for the write path (R179). -/
  held : Bool := false
  /-- the shelf range (offset, bytes) that its latest read waited for in a rotation buffer (R197). -/
  rotWait : Option (Nat × Nat) := none
  deriving DecidableEq, Repr, Inhabited

/-- A run, from acceptance until its log is released (R27 to R29, R59). -/
structure Run where
  /-- 64 bits (R353). -/
  tag : Nat := 0
  /-- queue pair of the RUN (R358). -/
  qp : Nat := 0
  /-- 6 bits (R357). -/
  mailbox : Nat := 0
  /-- 32 bits (R348). -/
  number : Nat := 0
  /-- 4 bits (R27). -/
  slot : Nat := 0
  /-- the slot's program at acceptance (R26). -/
  prog : Program := {}
  /-- (reference, dimension, extent) (R27). -/
  extents : List (Nat × Nat × Nat) := []
  /-- beat, 0 none (R28). -/
  launch : Nat := 0
  /-- 0 queued, 1 running, 2 paused, 3 ended (R361). -/
  state : Nat := 0
  /-- status of a stop under R192 not yet completed (R192). -/
  stopping : Option (BitVec 8) := none
  /-- final status (R361). -/
  status : BitVec 8 := 0
  /-- failing macro index (R358). -/
  failMi : Nat := 0xFFFF
  /-- beat (R361). -/
  startBeat : Nat := 0
  /-- beat (R361). -/
  endBeat : Nat := 0
  /-- 32 bits (R21). -/
  lateWaits : Nat := 0
  /-- 1 bit (R28). -/
  lateLaunch : Bool := false
  /-- at most 4,096 (R59). -/
  log : List LogEntry := []
  /-- entries appended, kept or not (R59). -/
  logCount : Nat := 0
  /-- OR of bits 7-0 (R59). -/
  logOr : BitVec 8 := 0
  /-- halt list (R190). -/
  halts : List Halt := []
  /-- an interim completion was posted since start or resume (R190). -/
  interim : Bool := false
  /-- predicted layers (R145). -/
  layers : List LayerUse := []
  /-- slot keys the run started with (R83). -/
  keys : List (Nat × List Byte) := []
  /-- theta and g of the slots at acceptance (R144). -/
  adapt : List (Nat × BitVec 32 × BitVec 32) := []
  /-- c1, c2 per optimiser slot (R230). -/
  optC : List (Nat × BitVec 32 × BitVec 32) := []
  /-- macro indexes started (R22). -/
  started : List Nat := []
  /-- per (macro, position) (R32). -/
  walks : List Walk := []
  /-- latest WAIT_BEAT passed (R197). -/
  waitBeat : Option Nat := none
  /-- optimiser slots whose update wrote weights (R229). -/
  updated : List Nat := []
  /-- (mailbox, number) of CANCEL or LEAVE_GROUP orders waiting (R192). -/
  cancelBy : List (Nat × Nat) := []
  deriving DecidableEq, Repr, Inhabited

/-- One cellar tile of one core (R61, R63). -/
structure CTile where
  /-- 0 FREE, 1 FILLING, 2 DRAINING, 3 TENSOR (R63). -/
  state : Nat := 0
  /-- cell format INT32 (R40). -/
  isInt : Bool := false
  /-- retry count n, 0-2 (R51). -/
  retry : Nat := 0
  /-- elements holding a saturated value (R50, 03 R84). -/
  sat : List Nat := []
  /-- status word forming (R58). -/
  status : BitVec 32 := 0
  /-- h, rows in extent (R67). -/
  rows : Nat := 0
  /-- cc of the last product (R67). -/
  lastLand : Nat := 0
  /-- cc of the release (R68). -/
  releasedAt : Nat := 0
  /-- its last product has landed (R63). -/
  filled : Bool := false
  /-- cc its preload started (R69). -/
  preloadAt : Option Nat := none
  deriving DecidableEq, Repr, Inhabited

/-- One core's merge unit (R117 to R122). -/
structure MergeState where
  /-- works on an output tile (R117). -/
  active : Bool := false
  /-- run (R117). -/
  tag : Nat := 0
  /-- macro index (R117). -/
  mi : Nat := 0
  /-- team position (R117). -/
  pos : Nat := 0
  /-- work item (output tile and part) (R117). -/
  item : Nat := 0
  /-- cellar tile (R117). -/
  ctile : Nat := 0
  /-- next K tile to be read (R118). -/
  kt : Nat := 0
  /-- K tiles of the work item (R118). -/
  ktEnd : Nat := 0
  /-- items to push: (kind 0 entry, 1 row end, 2 K tile end), position, value code (R119). -/
  feed : List (Nat × Nat × Nat) := []
  /-- K tile of each merged K tile, in order (R121). -/
  rowsAt : List Nat := []
  /-- 64 queues of 64 items (R120). -/
  hampers : List (List (Nat × Nat × Nat)) := []
  /-- current list store per lane (position, value code) (R118). -/
  lists : List (Option (List (Nat × Nat))) := []
  /-- next list store per lane (R118). -/
  nextLists : List (Option (List (Nat × Nat))) := []
  /-- r per lane (R120). -/
  laneRow : List Nat := []
  /-- j per lane (R120). -/
  laneJ : List Nat := []
  /-- merged K tiles finished per lane (R120). -/
  laneKt : List Nat := []
  /-- kept products per lane as code pairs (R120). -/
  kept : List (List (Nat × Nat)) := []
  /-- per lane: (merged K tile, row, products) (R121). -/
  results : List (List (Nat × Nat × List (Nat × Nat))) := []
  /-- merged K tile of the next row add (R121). -/
  addKt : Nat := 0
  /-- row of the next row add (R121). -/
  addRow : Nat := 0
  /-- an infinite input ruled retries out (R55). -/
  noRetry : Bool := false
  /-- cc of the pass's first read (R60). -/
  startAt : Nat := 0
  deriving DecidableEq, Repr, Inhabited

/-- One half of a stream's larder share (R178). -/
structure Half where
  /-- 0 free, 1 filling, 2 ready (R178). -/
  state : Nat := 0
  /-- transfers issued and not landed (R178). -/
  waiting : List Nat := []
  /-- its transfers: the work item that reads each, and its bytes (R178). -/
  parts : List (Nat × Nat) := []
  /-- bytes landed while it is not ready, each transfer with its tensor address (R178). -/
  blocks : List (Nat × List Byte) := []
  /-- transfers of its batch to be issued on a resume (item, tensor address, bytes) (R188). -/
  todo : List (Nat × Nat × Nat) := []
  deriving DecidableEq, Repr, Inhabited

/-- A transfer issued and not yet returned (R180, R192). -/
structure Xfer where
  /-- tag of the transfer (R280). -/
  id : Nat := 0
  /-- run (R180). -/
  tag : Nat := 0
  /-- macro index (R180). -/
  mi : Nat := 0
  /-- core (R180). -/
  core : Nat := 0
  /-- operand (R180). -/
  operand : Nat := 0
  /-- half it fills (R178). -/
  half : Nat := 0
  /-- a write or an atomic add (R179). -/
  write : Bool := false
  /-- an atomic add (R185). -/
  add : Bool := false
  /-- tensor address (R180). -/
  addr : Nat := 0
  /-- bytes, 32-4,096 (R180). -/
  len : Nat := 0
  /-- page kind of its entry (R185). -/
  kind : Nat := 0
  /-- target of its entry (R187). -/
  target : Nat := 0
  /-- rank or queue pair (R185). -/
  peer : Nat := 0
  /-- rkey (R185). -/
  rkey : Nat := 0
  /-- bytes to write, by tensor address (R179). -/
  cells : List Host.Cell := []
  /-- bytes are discarded on return (R192). -/
  discard : Bool := false
  /-- bytes of which only some bits, or none, are written, with a mask of them (R37, 07 R180). -/
  part : List (Nat × Nat) := []
  /-- the work item that reads it (R180). -/
  item : Nat := 0
  deriving DecidableEq, Repr, Inhabited

/-- One read or write stream of one operand on one core (R176). -/
structure Stream where
  /-- run (R176). -/
  tag : Nat := 0
  /-- macro index (R176). -/
  mi : Nat := 0
  /-- team position (R176). -/
  pos : Nat := 0
  /-- core (R176). -/
  core : Nat := 0
  /-- 0 A, 1 B, 2 C, 3 D (R176). -/
  operand : Nat := 0
  /-- write stream (R176). -/
  write : Bool := false
  /-- larder 0 or 1 (R177). -/
  larder : Nat := 0
  /-- half filled last (R178). -/
  last : Nat := 1
  /-- bytes of a half (R177). -/
  halfSize : Nat := 0
  /-- transfers not yet issued, of a crated stream its headers (work item, tensor address, bytes) (R180). -/
  plan : List (Nat × Nat × Nat) := []
  /-- two halves, and the header store's batch (R178, R181). -/
  halves : List Half := []
  /-- bytes of halves that became ready and of headers, by tensor address (R178). -/
  landed : List Host.Cell := []
  /-- the consumer has begun to read every work item below it (R178, R192). -/
  upto : Nat := 0
  /-- headers fetched whose payload is not cut yet (work item, tensor address, payload bytes once landed) (R181). -/
  heads : List (Nat × Nat × Option Nat) := []
  /-- work items of the other headers in the header store (R181). -/
  kept : List Nat := []
  /-- payload transfers not yet issued (work item, tensor address, bytes) (R181). -/
  pay : List (Nat × Nat × Nat) := []
  /-- slices of a gradient store already planned (R231). -/
  slices : Nat := 0
  /-- the plan is made; a plan that depends on landed indices is made later (R180). -/
  planned : Bool := true
  /-- writes formed and not yet issued, in order (R179). -/
  toWrite : List Xfer := []
  /-- the halt, with the saved position at the head of a batch's todo or of toWrite (R188). -/
  halted : Option Halt := none
  deriving DecidableEq, Repr, Inhabited

/-- A ROTATE in flight on one position (R193 to R198). -/
structure Rot where
  /-- run (R195). -/
  tag : Nat := 0
  /-- macro index (R195). -/
  mi : Nat := 0
  /-- team position (R195). -/
  pos : Nat := 0
  /-- core (R195). -/
  core : Nat := 0
  /-- B (R195). -/
  startBeat : Nat := 0
  /-- step_count (R193). -/
  steps : Nat := 0
  /-- beats (R193). -/
  period : Nat := 0
  /-- bytes (R193). -/
  sliceBytes : Nat := 0
  /-- buf0, buf1 (R193). -/
  buf : List Nat := []
  /-- beats (R193). -/
  stallLimit : Nat := 0
  /-- (rank, core) (R193). -/
  succ : List (Nat × Nat) := []
  /-- (rank, core) (R193). -/
  pred : Option (Nat × Nat) := none
  /-- next step s (R195). -/
  step : Nat := 0
  /-- tag of each buffer (R195). -/
  tags : List (Option Nat) := []
  /-- the tag is complete (R195). -/
  complete : List Bool := []
  /-- buffers with a send in progress (R195). -/
  sending : List Nat := []
  /-- (buffer, macro, beat of its first access) of reads in progress (R197). -/
  readers : List (Nat × Nat × Nat) := []
  /-- (run, macro, beat of its first access) of readers that had to wait (R197). -/
  firsts : List (Nat × Nat × Nat) := []
  /-- slices received (R195). -/
  received : Nat := 0
  /-- pieces landed of the slice being received (offset, bytes) (R195). -/
  got : List (Nat × Nat) := []
  /-- key of the send that brings it (R289). -/
  key : Option Nat := none
  /-- sends of which this device was detached and has not begun to catch up (key, step modulo 256) (R289). -/
  catchUp : List (Nat × Nat) := []
  /-- catch-up reads not returned (transfer, byte offset) (R289). -/
  reads : List (Nat × Nat) := []
  deriving DecidableEq, Repr, Inhabited

/-- One core (R61, R147, R177, R200, R378, R382). -/
structure Core where
  /-- 64 cellar tiles, unlisted tile FREE (R61). -/
  tiles : List (Nat × CTile) := []
  /-- cc the epilogue accepted its last row (R68). -/
  epiLast : Nat := 0
  /-- merge unit (R117). -/
  merge : MergeState := {}
  /-- the output tile after it, whose items follow (R119). -/
  mergeNext : MergeState := {}
  /-- holder (run, macro) of larder 0 and 1 (R177). -/
  larders : List (Option (Nat × Nat)) := [none, none]
  /-- cc of the last release (R177). -/
  larderFreeAt : Nat := 0
  /-- write path, issued writes awaiting completion, at most 64 KiB (R179). -/
  writes : List Xfer := []
  /-- translation cache, 64 entries (page, kind) (R182). -/
  xcache : List (Nat × Nat) := []
  /-- blocks or crates in the turning buffer (R204). -/
  turn : List Nat := []
  /-- in reset after a bite (R382). -/
  outOfService : Bool := false
  /-- retired under R412 (R412). -/
  retired : Bool := false
  /-- times of bites within 10 s (R412). -/
  bites : List Nat := []
  /-- cc of the last progress (R378). -/
  lastProgress : Nat := 0
  /-- steps it may issue in the 10 us window (R415). -/
  budget : Nat := 30000
  /-- steps withheld in the window from the weight unit, the data unit and the forward engine (R202). -/
  withheld : List Nat := []
  /-- side memory contents lost (R221). -/
  sideLost : Bool := false
  /-- ranges of the shelf loft whose contents are lost (offset, bytes) (R214). -/
  loftLost : List (Nat × Nat) := []
  /-- cc in which the output compressor last freed a buffer while both were held (R105). -/
  bufFree : Nat := 0
  /-- cc in which each block path (requester) last lost a shelf bank (R113). -/
  blockLost : List (Nat × Nat) := []
  /-- the start held by a shared cellar tile and counted (run, macro) (R72). -/
  conflictOf : Option (Nat × Nat) := none
  /-- next shelf word to scrub (R411). -/
  scrubAt : Nat := 0
  deriving DecidableEq, Repr, Inhabited

/-- A completion record (Table 13.6). -/
structure Completion where
  /-- 64 bits (R357). -/
  tag : Nat := 0
  /-- 32 bits (R357). -/
  number : Nat := 0
  /-- 8 bits: 0 FINAL, 1 INTERIM, 2 EVENT (R357). -/
  kind : Nat := 0
  /-- 8 bits (R357). -/
  code : Nat := 0
  /-- 8 bits (R357). -/
  status : BitVec 8 := 0
  /-- 8 bits (R357). -/
  mailbox : Nat := 0
  /-- 64 bits (R357). -/
  beat : Nat := 0
  /-- 40 bytes (R358). -/
  detail : List Byte := []
  /-- its first wait was counted in CQ_FULL_WAITS (R333). -/
  counted : Bool := false
  deriving DecidableEq, Repr, Inhabited

/-- A host region entry (Table 12.6). -/
structure Region where
  /-- 64 bits (R336). -/
  addr : Nat := 0
  /-- 64 bits, 1 to 2^40 (R336). -/
  length : Nat := 0
  /-- 32 bits (R336). -/
  rkey : Nat := 0
  /-- 8 bits (R336). -/
  access : Nat := 0
  deriving DecidableEq, Repr, Inhabited

/-- A mailbox's control state (R348, R350); its 16 slots are in State.window. -/
structure Mailbox where
  /-- queue pair it is assigned to (R330). -/
  qp : Option Nat := none
  /-- slot 0-15 (R348). -/
  head : Nat := 0
  /-- 32 bits, never 0 (R348). -/
  expected : Nat := 1
  /-- a sequence fault stands (R350). -/
  faulted : Bool := false
  deriving DecidableEq, Repr, Inhabited

/-- An order taken and not completed: Imion's copy (R349). -/
structure Order where
  /-- 6 bits (R349). -/
  mailbox : Nat := 0
  /-- 32 bits (R349). -/
  number : Nat := 0
  /-- 12 bits (R332). -/
  qp : Nat := 0
  /-- 256 bytes (R349). -/
  bytes : List Byte := []
  /-- Imion has begun it; it waits to complete (R352). -/
  begun : Bool := false
  deriving DecidableEq, Repr, Inhabited

/-- A Reliable Connection queue pair (R325 to R335). -/
structure Qp where
  /-- 4 bits (R326). -/
  subport : Nat := 0
  /-- 0 connected, 1 replied E_OK, 2 to be disconnected, 3 error (R329, R335). -/
  phase : Nat := 0
  /-- EVENTS (R328). -/
  events : Bool := false
  /-- MODE (R328). -/
  modeImm : Bool := false
  /-- 6 bits (R329). -/
  firstMailbox : Nat := 0
  /-- 0-64 (R329). -/
  mailboxCount : Nat := 0
  /-- 64 bits (R328). -/
  cqAddr : Nat := 0
  /-- 32 bits (R328). -/
  cqRkey : Nat := 0
  /-- 32 bits (R328). -/
  cqEntries : Nat := 16
  /-- at most 8 (R336). -/
  regions : List Region := []
  /-- bound to the open session (R337). -/
  bound : Bool := false
  /-- 64 bits (R329). -/
  windowVa : Nat := 0
  /-- 32 bits (R329). -/
  windowRkey : Nat := 0
  /-- p, free-running (R332). -/
  producer : Nat := 0
  /-- c, last index read (R333). -/
  consumer : Nat := 0
  /-- waiting completions (R333). -/
  waiting : List Completion := []
  /-- cc of the last read of the consumer index (R333). -/
  lastIndexRead : Nat := 0
  /-- cc of the reply that ends in a disconnect (R329). -/
  disconnectAt : Option Nat := none
  /-- 24 bits, next PSN expected (R326). -/
  epsn : Nat := 0
  /-- 24 bits, next PSN to send (R326). -/
  npsn : Nat := 0
  /-- messages sent and not acknowledged (first PSN, packets, message) (R326). -/
  unacked : List (Nat × Nat × Out) := []
  /-- messages waiting behind 16 outstanding RDMA READs (R325). -/
  sendQ : List Out := []
  /-- retry count used, at most 7 (R326). -/
  retries : Nat := 0
  /-- cc of the oldest unacknowledged packet (R326). -/
  sentAt : Nat := 0
  /-- 1,024, 2,048 or 4,096 (R325). -/
  mtu : Nat := 1024
  /-- send rate in kbit/s (R340). -/
  rate : Nat := 0
  /-- target rate in kbit/s (R340). -/
  target : Nat := 0
  /-- alpha in units of 2^-16 (R340). -/
  alpha : Nat := 65536
  /-- recovery steps since the last CNP (R340). -/
  steps : Nat := 0
  /-- cc of the last decrease (R340). -/
  lastCut : Option Nat := none
  /-- cc of the last CNP received (R340). -/
  lastCnp : Nat := 0
  /-- cc of the last CNP sent (R340). -/
  lastCnpSent : Option Nat := none
  /-- (window offset next, bytes left) of a write in progress (R331). -/
  partialWrite : Option (Nat × Nat) := none
  deriving DecidableEq, Repr, Inhabited

/-- The transaction (R365 to R369, R262 to R264). -/
structure Txn where
  /-- 0 none, 1 open, 2 commit pending (R361). -/
  state : Nat := 0
  /-- scope GROUP (R365). -/
  group : Bool := false
  /-- queue pair (R365). -/
  owner : Nat := 0
  /-- staged SETs in order (R366). -/
  staged : List (Nat × List Byte) := []
  /-- beat C, 0 none (R367). -/
  commitBeat : Nat := 0
  /-- COMMIT_TXN waiting (mailbox, number) (R367). -/
  order : Option (Nat × Nat) := none
  /-- ranks asked by PREPARE (R262). -/
  asked : List Nat := []
  /-- ranks that replied READY (R262). -/
  ready : List Nat := []
  /-- beat of the PREPARE (R262). -/
  prepareBeat : Nat := 0
  /-- DECISION sent (R262). -/
  decided : Bool := false
  deriving DecidableEq, Repr, Inhabited

/-- A group transaction of another coordinator this member answered READY to (R262, R264). -/
structure Prepared where
  /-- rank (R262). -/
  coordinator : Nat := 0
  /-- its changes (R262). -/
  staged : List (Nat × List Byte) := []
  /-- beat C, 0 until known (R264). -/
  beat : Nat := 0
  /-- ranks of the view at the PREPARE (R262). -/
  ranks : List Nat := []
  /-- DECISION received (R264). -/
  decided : Bool := false
  deriving DecidableEq, Repr, Inhabited

/-- A view announcement (R234). -/
structure ViewAnn where
  /-- 32 bits (R234). -/
  epoch : Nat := 0
  /-- ranks of the view (R234). -/
  ranks : List Nat := []
  /-- rank (R257). -/
  keeper : Nat := 0
  /-- view beat (R234). -/
  beat : Nat := 0
  /-- the digests differ (R242). -/
  hold : Bool := false
  /-- lowest rank whose digest differs from the keeper's, in HOLD (R267). -/
  differs : Nat := 0
  deriving DecidableEq, Repr, Inhabited

/-- Group membership and the view (R233 to R242, R255 to R261, R268). -/
structure Group where
  /-- 0 SOLO, 1 FORMING, 2 HOLD, 3 ACTIVE, 4 FENCED (R233). -/
  state : Nat := 0
  /-- 16 bits (R240). -/
  rank : Nat := 0xFFFF
  /-- 16 bits (R240). -/
  keeper : Nat := 0xFFFF
  /-- 64 bits (R240). -/
  groupId : Nat := 0
  /-- 32 bits (R234). -/
  epoch : Nat := 0
  /-- ranks of the current view (R268). -/
  view : List Nat := []
  /-- ranks of the last view (R261). -/
  lastView : List Nat := []
  /-- member list (rank, serial) (R236). -/
  members : List (Nat × Nat) := []
  /-- 0 FREE, 1 PTP, 2 BEAT_IN BEAT, 3 BEAT_IN PPS (R235). -/
  source : Nat := 0
  /-- 8 bits (R235). -/
  ptpPorts : Nat := 0
  /-- 64 bits (R235). -/
  origin : Nat := 0
  /-- a beat number, and under PTP the time at which that beat begins (next field) (R265). -/
  ptpBeat : Nat := 0
  /-- ns; origin, or T_C after a change of BEAT_LOG2 (R265). -/
  ptpTime : Nat := 0
  /-- ms (R235). -/
  formTimeout : Nat := 0
  /-- cc at which FORM_GROUP was accepted (R239). -/
  formAt : Nat := 0
  /-- 32 bytes, the block's digest (R235). -/
  expDigest : List Byte := []
  /-- FORM_GROUP waiting (R239). -/
  formOrder : Option (Nat × Nat) := none
  /-- LEAVE_GROUP waiting (R266). -/
  leaveOrder : Option (Nat × Nat) := none
  /-- the coordinator has been asked to leave the device out (R266). -/
  leaveAsked : Bool := false
  /-- ranks that reported lock, with digest (R238). -/
  reports : List (Nat × List Byte) := []
  /-- a view announced and not yet in effect (R234). -/
  next : Option ViewAnn := none
  /-- ranks to be left out of the view after the one announced (R234). -/
  drops : List Nat := []
  /-- ranks to be taken into the view after the one announced (R260). -/
  adds : List Nat := []
  /-- beat at which the current view took effect (R234). -/
  viewBeat : Nat := 0
  /-- keeper of the last view in effect (R257). -/
  viewKeeper : Nat := 0xFFFF
  /-- digests reported in earlier beats are those before a group commit (R264). -/
  digestFrom : Nat := 0
  /-- number of the device's last report of its group links (R282). -/
  reportNo : Nat := 0
  /-- number of each rank's last report of its group links (R282). -/
  linkSeen : List (Nat × Nat) := []
  /-- own fence beat (R256). -/
  fenceBeat : Option Nat := none
  /-- cc of the link loss a side is being formed for (R256). -/
  lossAt : Option Nat := none
  /-- group links reported (rank, rank, own link or 96) (R282). -/
  edges : List (Nat × Nat × Nat) := []
  deriving DecidableEq, Repr, Inhabited

/-- The beat (R243 to R254). -/
structure Beat where
  /-- 64 bits (R243). -/
  number : Nat := 0
  /-- cc of the last boundary (R243). -/
  startAt : Nat := 0
  /-- cc of the boundary before it (R251). -/
  prevAt : Nat := 0
  /-- cc added to the present beat (R251). -/
  adjust : Int := 0
  /-- cc to be added to the beat that begins next (R251). -/
  adjustNext : Int := 0
  /-- LOCKED (R251). -/
  locked : Bool := false
  /-- SLEWING (R240). -/
  slewing : Bool := false
  /-- HOLDOVER (R240). -/
  holdover : Bool := false
  /-- SOURCE_LOCKED (R245). -/
  sourceLocked : Bool := false
  /-- last error e, 1/16 cc (R268). -/
  error : Int := 0
  /-- 0-8 (R268). -/
  depth : Nat := 0
  /-- beat parent (rank, link) (R250). -/
  parent : Option (Nat × Nat) := none
  /-- up to two (R250). -/
  alternates : List (Nat × Nat) := []
  /-- a usable mark arrived in this beat (R252). -/
  markSeen : Bool := false
  /-- consecutive expected marks missed (R252). -/
  missed : Nat := 0
  /-- beats in the current holdover (R268). -/
  holdoverBt : Nat := 0
  /-- consecutive beats LOCKED (R260). -/
  lockedBt : Nat := 0
  /-- keeper's error against its source, cc (R247). -/
  srcErr : Int := 0
  /-- error removed so far by slewing (R247). -/
  srcRemoved : Int := 0
  /-- consecutive good updates or edges (R245). -/
  good : Nat := 0
  /-- cc of the last usable update or edge (R246). -/
  lastUpdate : Nat := 0
  /-- cc of the last accepted BEAT_IN edge (R442). -/
  lastEdge : Option Nat := none
  /-- cc at which the window of the last accepted edge ends (R442). -/
  windowEnd : Nat := 0
  /-- BEAT_OUT level (R253). -/
  beatOut : Bool := false
  /-- learnt rate correction, cc per 10^9 cc (R246). -/
  rateCorr : Int := 0
  /-- cc and time of the source at which the learning began (R246). -/
  rateFrom : Option (Nat × Nat) := none
  /-- correction not yet put into a beat, 10^-9 cc (R246). -/
  rateAcc : Int := 0
  deriving DecidableEq, Repr, Inhabited

/-- A link frame kept in the replay buffer (R272, R276). -/
structure Frame where
  /-- CONTROL rather than DATA (R272). -/
  ctl : Bool := false
  /-- class 0-3 (R272). -/
  cls : Nat := 0
  /-- 16 bits (R272). -/
  seq : Nat := 0
  /-- up to 512 bytes (R272). -/
  payload : List Byte := []
  /-- times it was sent again without the ack moving past it (R277). -/
  replays : Nat := 0
  /-- bytes of its first transfer framed before it, kept so that a transfer can take another route (R277). -/
  before : List Byte := []
  deriving DecidableEq, Repr, Inhabited

/-- One end of a chip link (R270 to R281). -/
structure Link where
  /-- 0 down, 1 training, 2 up (R277). -/
  state : Nat := 0
  /-- lanes in use, 0-2 (R277). -/
  width : Nat := 0
  /-- width in the last LINK_STATE received (R279). -/
  peerWidth : Nat := 0
  /-- reason in the last LINK_STATE received (R279). -/
  peerReason : Nat := 0
  /-- bit per lane lost (R277). -/
  laneLost : Nat := 0
  /-- reason of LINK_STATE (R279). -/
  reason : Nat := 0
  /-- 16 bits, next sequence number (R272). -/
  txSeq : Nat := 0
  /-- replay buffer, at most 64 (R276). -/
  kept : List Frame := []
  /-- kept frames still to be sent again (R276). -/
  resend : List Frame := []
  /-- cc the oldest kept frame was last sent (R276). -/
  sentAt : Nat := 0
  /-- frames received since training, modulo 1,285: the place in the codewords (R271). -/
  fecAt : Nat := 0
  /-- the codeword in progress was uncorrectable (R271). -/
  fecBad : Bool := false
  /-- last accepted sequence number (R276). -/
  rxSeq : Nat := 65535
  /-- NAK is set in frames sent (R276). -/
  nak : Bool := false
  /-- reserved credits per class (R275). -/
  credits : List Nat := [4, 4, 4, 4]
  /-- shared credits (R275). -/
  shared : Nat := 48
  /-- receive slots filled per class: bytes still held of each (R275). -/
  slots : List (List Nat) := [[], [], [], []]
  /-- bytes framed so far of the transfer under way per class (R280). -/
  part : List (List Byte) := [[], [], [], []]
  /-- credits to return in the next frame (R275). -/
  giveBack : List Nat := [0, 0, 0, 0]
  /-- CONTROL records ready (R274). -/
  ctlQ : List (List Byte) := []
  /-- transfer stream to send per class (R280). -/
  streams : List (List Byte) := [[], [], [], []]
  /-- transfer stream received per class (R280). -/
  rxStreams : List (List Byte) := [[], [], [], []]
  /-- a beat mark is due in the next frame (R278). -/
  markDue : Bool := false
  /-- a mark received and not yet used: 16 bits of the beat number, offset, arrival in cc (R278). -/
  markIn : Option (Nat × Nat × Nat) := none
  /-- cc of the last retraining of a link that is down (R277). -/
  downAt : Nat := 0
  /-- exchanges measured, 1/16 cc (R249). -/
  exch : List Int := []
  /-- measured delay, 1/16 cc (R249). -/
  delay : Option Int := none
  /-- a group link (R238). -/
  isGroup : Bool := false
  /-- in service: up at the last view beat and since (R277). -/
  inService : Bool := false
  /-- rank at the far end (R240). -/
  peerRank : Nat := 0xFFFF
  /-- serial at the far end (R240). -/
  peerSerial : Nat := 0
  /-- last identity record received (R255). -/
  peer : List Byte := []
  /-- identity record last sent (beat field zero) (R240). -/
  idSent : List Byte := []
  /-- beat of the last identity record sent (R240). -/
  idBeat : Nat := 0
  deriving DecidableEq, Repr, Inhabited

/-- A child of a multicast (R286 to R288). -/
structure Child where
  /-- rank, 0xFFFF this device (R286). -/
  rank : Nat := 0
  /-- chunks acknowledged (R286). -/
  acked : List Nat := []
  /-- beat of the detach (R287). -/
  detachedAt : Option Nat := none
  /-- failed or refused (R288). -/
  failed : Bool := false
  /-- beat of its JOIN (R287). -/
  joinedAt : Nat := 0
  /-- receiving core, for a ROTATE send (R289). -/
  core : Nat := 0
  deriving DecidableEq, Repr, Inhabited

/-- A multicast in flight on this device, or one ROTATE send of a position (R285 to R289). A chunk is named by its team position times 2^40 and its number in the footprint. -/
structure Mc where
  /-- 32 bits (R285). -/
  key : Nat := 0
  /-- run (R285). -/
  tag : Nat := 0
  /-- macro index (R285). -/
  mi : Nat := 0
  /-- team position of a ROTATE send; 0 for an MCAST (R289). -/
  pos : Nat := 0
  /-- core of a ROTATE send (R289). -/
  core : Nat := 0
  /-- positions whose MCAST has started (position, core) (R285). -/
  places : List (Nat × Nat) := []
  /-- rank of the parent; none at the root (R285). -/
  parent : Option Nat := none
  /-- start beat (R286). -/
  startBeat : Nat := 0
  /-- stall limit (R287). -/
  stall : Nat := 0
  /-- chunks of the positions started (R285). -/
  chunks : List Nat := []
  /-- bytes of each chunk (R285). -/
  chunkLens : List Nat := []
  /-- at most 64 (R286). -/
  children : List Child := []
  /-- chunks sent (R286). -/
  sent : List Nat := []
  /-- chunks received whole (R286). -/
  got : List Nat := []
  /-- pieces of chunks not yet whole (chunk, byte offset in it, bytes) (R286). -/
  parts : List (Nat × Nat × List Byte) := []
  /-- chunks received whose bytes are not yet sent on, or lie in pages of C that are not LOCAL (log 43) (R286). -/
  kept : List (Nat × List Byte) := []
  /-- chunks written into C and acknowledged (R286). -/
  written : List Nat := []
  /-- beat the present hold began (R286). -/
  holdSince : Option Nat := none
  /-- this device was detached (R287). -/
  detached : Bool := false
  /-- a ROTATE send (R289) (R289). -/
  rotate : Bool := false
  /-- this device's own MCAST has started (R286). -/
  begun : Bool := false
  /-- shelf offset of a ROTATE send's buffer (R289). -/
  base : Nat := 0
  /-- step of a ROTATE send (R289). -/
  step : Nat := 0
  /-- shelf offset of the receiving buffer as the sender's schedule has it (R289). -/
  target : Nat := 0
  /-- catch-up reads not returned (transfer, chunk, byte offset) (R287). -/
  reads : List (Nat × Nat × Nat) := []
  deriving DecidableEq, Repr, Inhabited

/-- A transfer of a slice that travels in several (R280, log 9). -/
structure Piece where
  /-- from the left (0) or right (1) child, or a result (2) (R291). -/
  side : Nat := 0
  /-- slice (R291). -/
  slice : Nat := 0
  /-- c (R291). -/
  count : Nat := 0
  /-- its place among the transfers of the slice (R280). -/
  at0 : Nat := 0
  /-- the last of its slice (R280). -/
  last : Bool := false
  /-- bytes (R280). -/
  data : List Byte := []
  deriving DecidableEq, Repr, Inhabited

/-- A push at one reducer node (R290 to R295). -/
structure Push where
  /-- 32 bits (R290). -/
  key : Nat := 0
  /-- rank whose node is served (R291). -/
  node : Nat := 0
  /-- run, once begun (R290). -/
  tag : Nat := 0
  /-- macro index (R290). -/
  mi : Nat := 0
  /-- handle of A (R290). -/
  store : Nat := 0
  /-- handle of C (R290). -/
  cHandle : Nat := 0
  /-- slices of the push (R291). -/
  slices : Nat := 0
  /-- beat D, 0 none (R290). -/
  deadline : Nat := 0
  /-- the rank's push has begun (R290). -/
  begun : Bool := false
  /-- own contribution on time, once settled (R290). -/
  onTime : Option Bool := none
  /-- left child's count (R292). -/
  left : Option Nat := none
  /-- right child's count (R292). -/
  right : Option Nat := none
  /-- count sent to the parent (R292). -/
  settled : Option Nat := none
  /-- transfers of slices not yet whole (R280). -/
  pieces : List Piece := []
  /-- child partials (child 0 left 1 right, slice, count, values) (R291). -/
  parts : List (Nat × Nat × Nat × List (BitVec 32)) := []
  /-- own slices taken (R291). -/
  taken : List Nat := []
  /-- own partials formed (slice, count, values) (R295). -/
  combined : List (Nat × Nat × List (BitVec 32)) := []
  /-- slices whose partial the parent has acknowledged (R295). -/
  acked : List Nat := []
  /-- results passed (slice, count) (R294). -/
  results : List (Nat × Nat) := []
  /-- slices of C whose writes are formed (R294). -/
  written : List Nat := []
  /-- results written into pages of C that are not LOCAL (slice, values) (log 43) (R294). -/
  kept : List (Nat × List (BitVec 32)) := []
  /-- ranks announced late (log 42) (R293). -/
  late : List Nat := []
  /-- ranks of the view when the push became known (R290). -/
  ranks : List Nat := []
  /-- extents of C in the push's run (R294). -/
  extents : List Nat := []
  /-- missed slices being read: slice, ancestor, reads not returned (transfer, byte offset) (R294). -/
  reread : List (Nat × Nat × List (Nat × Nat)) := []
  /-- ranks dropped during the push (R295). -/
  dropped : List Nat := []
  /-- R295 applied (R296). -/
  viewChanged : Bool := false
  deriving DecidableEq, Repr, Inhabited

/-- An entry of a channel queue (R305). -/
structure DdrEntry where
  /-- 32 bits (R305). -/
  id : Nat := 0
  /-- 0 read, 1 write, 2 atomic add (R305). -/
  op : Nat := 0
  /-- frame address, within one burst (R302). -/
  addr : Nat := 0
  /-- bytes, 1-64 (R304). -/
  len : Nat := 0
  /-- bytes or addends (R305). -/
  data : List Byte := []
  /-- index of Table 14.1, class 3 (R372). -/
  requester : Nat := 0
  deriving DecidableEq, Repr, Inhabited

/-- A DDR channel (R300 to R311). -/
structure Chan where
  /-- entries in order (R305). -/
  queue : List DdrEntry := []
  /-- read replies; none when poisoned or lost (R307). -/
  replies : List (Nat × Option (List Byte)) := []
  /-- marked lost (R311). -/
  lost : Bool := false
  /-- retraining (R311). -/
  training : Bool := false
  /-- devices marked failed (rank, subchannel, device) (R308). -/
  marked : List (Nat × Nat × Nat) := []
  /-- (device, burst) corrected in this scrub pass (R308). -/
  fixes : List (Nat × Nat) := []
  /-- CRC or parity retries of the access (R311). -/
  retries : Nat := 0
  /-- next burst of the scrub pass (R309). -/
  scrubAt : Nat := 0
  deriving DecidableEq, Repr, Inhabited

/-- A sub-port Pn:s (R322 to R345). -/
structure SubPort where
  /-- linked up (R324). -/
  up : Bool := false
  /-- cc the RoCE priority was paused (R339). -/
  pausedSince : Option Nat := none
  /-- cc at which the quanta end (R339). -/
  pausedUntil : Nat := 0
  /-- cc at which the storm guard ends (R339). -/
  stormUntil : Option Nat := none
  /-- RoCE messages waiting for the end of a pause (R339). -/
  held : List Out := []
  /-- MACsec SAK installed (R341). -/
  sak : Option (List Byte) := none
  /-- lowest acceptable packet number (R341). -/
  nextPn : Nat := 1
  /-- cc of echo replies in the last second (R324). -/
  echoes : List Nat := []
  /-- learnt neighbours (IP, MAC) (R324). -/
  neighbours : List (List Byte × List Byte) := []
  deriving DecidableEq, Repr, Inhabited

/-- One arbiter or sub-arbiter (R374). -/
structure Arb where
  /-- rotating order, highest first (R374). -/
  order : List Nat := []
  /-- wait counter per requester (R374). -/
  wait : List (Nat × Nat) := []
  /-- age per requester, 0-15 (R374). -/
  age : List (Nat × Nat) := []
  /-- cc each raised request was raised (R384). -/
  raisedAt : List (Nat × Nat) := []
  /-- holder of a grant that lasts (R375). -/
  holder : Option Nat := none
  deriving DecidableEq, Repr, Inhabited

/-- One fabric segment (R378 to R383). -/
structure Seg where
  /-- cc of the last progress (R380). -/
  lastProgress : Nat := 0
  /-- times of bites within 10 s (R412). -/
  bites : List Nat := []
  /-- in reset after a bite (R383). -/
  outOfService : Bool := false
  deriving DecidableEq, Repr, Inhabited

/-- A firmware image copy in NOR flash (R386 to R388). -/
structure FwCopy where
  /-- 0 EMPTY, 1 PENDING, 2 GOOD, 3 BAD (R388). -/
  state : Nat := 2
  /-- up to 16,781,312 bytes (R386). -/
  image : List Byte := []
  deriving DecidableEq, Repr, Inhabited

/-- The open session (R398, R399). -/
structure Session where
  /-- 32 bytes (R398). -/
  id : List Byte := []
  /-- 32 bytes (R398). -/
  binding : List Byte := []
  /-- 32 bytes (R385). -/
  secret : List Byte := []
  /-- 256 bits (R312). -/
  k1 : List Byte := []
  /-- 256 bits (R312). -/
  k2 : List Byte := []
  deriving DecidableEq, Repr, Inhabited

/-- A quote being signed (R394). -/
structure Sign where
  /-- ATTEST (mailbox, number) (R394). -/
  order : Nat × Nat := (0, 0)
  /-- bytes 0x0000-0x06DF (R393). -/
  quote : List Byte := []
  /-- XMSS index (R390). -/
  index : Nat := 0
  deriving DecidableEq, Repr, Inhabited

/-- A coffer entry (Table 16.5). -/
structure CofferEntry where
  /-- 64 bits (R425). -/
  seq : Nat := 0
  /-- 64 bits (R425). -/
  beat : Nat := 0
  /-- 32 bits (R425). -/
  boot : Nat := 0
  /-- 16 bits (R426). -/
  kind : Nat := 0
  /-- 0 ledger, 1 journal, 2 ring (R424). -/
  part : Nat := 0
  /-- 36 bytes (R426). -/
  payload : List Byte := []
  deriving DecidableEq, Repr, Inhabited

/-- The coffer and its write path (R424 to R430). -/
structure Coffer where
  /-- 262,144 positions, position numbered over the parts (R424). -/
  copy0 : List (Nat × CofferEntry) := []
  /-- as copy 0 (R424). -/
  copy1 : List (Nat × CofferEntry) := []
  /-- 64 bits (R425). -/
  nextSeq : Nat := 1
  /-- ledger position, 0-63 (R424). -/
  ledgerNext : Nat := 0
  /-- journal positions written (R431). -/
  journalUsed : Nat := 0
  /-- ring entries written (R424). -/
  ringNext : Nat := 0
  /-- entries formed and not yet written (R428). -/
  queue : List CofferEntry := []
  /-- entries unreadable in both copies (kind LOST) (R429). -/
  lost : List CofferEntry := []
  /-- copies degraded (R430). -/
  degraded : List Nat := []
  /-- resets since manufacture (R425). -/
  boot : Nat := 0
  deriving DecidableEq, Repr, Inhabited

/-- The trust block (R385 to R406). -/
structure Trust where
  /-- 64 bits (R393). -/
  serial : Nat := 0
  /-- copy A (R386). -/
  copyA : FwCopy := {}
  /-- copy B (R386). -/
  copyB : FwCopy := {}
  /-- 0 A, 1 B (R388). -/
  preferred : Nat := 0
  /-- copy that boot ran (R389). -/
  running : Nat := 0
  /-- boot used the non-preferred copy (R393). -/
  fallback : Bool := false
  /-- 0-63 (R389). -/
  fusedSvn : Nat := 0
  /-- 4 fuses (R389). -/
  revoked : Nat := 0
  /-- 32 bytes (R389). -/
  fwDigest : List Byte := []
  /-- index store copy 0; none when its CRC fails (R390). -/
  index0 : Option Nat := some 0
  /-- index store copy 1 (R390). -/
  index1 : Option Nat := some 0
  /-- next unused index (R390). -/
  next : Nat := 0
  /-- signing is disabled (R391). -/
  signDisabled : Bool := false
  /-- XMSS_LOW posted since reset (R392). -/
  lowPosted : Bool := false
  /-- 1,568 bytes (R395). -/
  ek : List Byte := []
  /-- decapsulation key (R395). -/
  dk : List Byte := []
  /-- a pair is being generated (R395). -/
  generating : Bool := false
  /-- the open session (R399). -/
  session : Option Session := none
  /-- 68 bytes (R393). -/
  identityPk : List Byte := []
  /-- ATTEST orders waiting to be signed (R394). -/
  signQ : List (Nat × Nat) := []
  /-- the signing in progress (R394). -/
  signing : Option Sign := none
  /-- UPDATE_FIRMWARE in progress (mailbox, number, copy) (R404). -/
  update : Option (Nat × Nat × Nat) := none
  /-- CLOSE_SESSION in progress (mailbox, number, cc of take) (R401). -/
  closing : Option (Nat × Nat × Nat) := none
  /-- ended orders and their status, held until the close completes (R401). -/
  closeStatus : List (Nat × Nat × BitVec 8) := []
  deriving DecidableEq, Repr, Inhabited

/-- Power, thermal, margin and Imion restart (R414 to R423). -/
structure Health where
  /-- mean package power over 1 ms, W (R415). -/
  meanMs : Nat := 0
  /-- mean package power over 10 us, W (R415). -/
  mean10 : Nat := 0
  /-- samples of the present 1 ms (R415). -/
  samples : List Nat := []
  /-- L_th, W (R417). -/
  lth : Nat := 1100
  /-- hottest reading, C (R417). -/
  temp : Nat := 0
  /-- THERMAL_ALERT (Table 17.6). -/
  alertT : Bool := false
  /-- the current limiter withholds (R416). -/
  limiting : Bool := false
  /-- cc the governor last withheld (R416). -/
  lastHold : Option Nat := none
  /-- cc of the last POWER_LIMITING (R416). -/
  lastPost : Option Nat := none
  /-- last ms in which the governor withheld (R433). -/
  holdMs : Option Nat := none
  /-- last ms counted with L_th below 1,100 W (R433). -/
  throttleMs : Option Nat := none
  /-- G in mV (R423). -/
  guard : Nat := 15
  /-- V_max in mV, fused (R420). -/
  vmax : Nat := 815
  /-- V_base in mV (R420). -/
  vbase : Nat := 750
  /-- last acknowledged setpoint, mV (R462). -/
  setpoint : Nat := 750
  /-- setpoint requested and not acknowledged (R462). -/
  wanted : Option Nat := none
  /-- cc of the last rise of G (R421). -/
  lastRise : Option Nat := none
  /-- MARGIN_LOW posted since reset (R422). -/
  lowPosted : Bool := false
  /-- MARGIN_EXHAUSTED (Table 17.6). -/
  exhausted : Bool := false
  /-- smallest S of the day (R426). -/
  dayMinS : Nat := 65535
  /-- monitor of that S (R426). -/
  dayMon : Nat := 0
  /-- largest T of the day (R426). -/
  dayMaxT : Nat := 0
  /-- restarting under R414 (R414). -/
  imionStopped : Bool := false
  /-- cc of the last mismatch (R414). -/
  lastMismatch : Option Nat := none
  /-- events that fell due during a restart (R414). -/
  fellDue : List Completion := []
  /-- management messages that fell due during a restart (R414). -/
  dueOut : List Out := []
  /-- events posted once per reset (0x52, 0x53) (R430). -/
  postedOnce : List Nat := []
  deriving DecidableEq, Repr, Inhabited

/-- The standby domain, rails, clocks and pins (R434 to R452, R461 to R466). -/
structure Pins where
  /-- the standby domain is out of reset (R435). -/
  stby : Bool := true
  /-- main rails at 90 % or more, in the order reached (0 VDD_AUX, 1 CORE, 2 SRAM, 3 SER_A, 4 SER_B, 5 DDRIO) (R436). -/
  rails : List Nat := []
  /-- RAIL_ORDER (Table 17.6). -/
  railOrder : Bool := false
  /-- APPLY_REFUSED (Table 17.6). -/
  applyRefused : Bool := false
  /-- filtered RESET_N asserted (R440). -/
  resetN : Bool := true
  /-- filtered HALT_N asserted (R440). -/
  haltN : Bool := false
  /-- filtered LADDER_IN asserted (R440). -/
  ladderIn : Bool := false
  /-- claimed (R447). -/
  claimed : Bool := false
  /-- a claim is in flight: its address is acknowledged, its STOP has not come (R447). -/
  claiming : Bool := false
  /-- 8 bits (R449). -/
  ladderAddr : Nat := 0
  /-- 8 bits (R449). -/
  dynAddr : Nat := 0
  /-- LADDER_OUT (R448). -/
  ladderOut : Bool := false
  /-- THERMTRIP_N latched (R446). -/
  thermtrip : Bool := false
  /-- code of Table 17.3 (R438). -/
  stage : Nat := 0
  /-- 8 bits (R445). -/
  bootCause : Nat := 0
  /-- causes standing for the next BOOT entry (R445). -/
  causes : List Nat := []
  /-- 16 bits (R449). -/
  i3cOffset : Nat := 0
  /-- staged bytes 0x00-0x1B of 16 sub-port records (R450). -/
  staged : List (List Byte) := []
  /-- 16 committed sub-port records of 32 bytes (R450). -/
  subports : List (List Byte) := []
  /-- REFCLK_CORE detected (R466). -/
  refCore : Bool := true
  /-- REFCLK_SER0-3 within limits (R466). -/
  refSer : Nat := 15
  /-- cc HALT_N was asserted (R451). -/
  haltAt : Nat := 0
  /-- cc each pin event was last posted (R451). -/
  pinPosts : List (Nat × Nat) := []
  /-- the running copy is a PENDING copy on trial (R388). -/
  triedPending : Bool := false
  /-- a PENDING copy failed to reach READY in this reset (R388). -/
  trialFailed : Bool := false
  /-- cc at which Imion was started (R388). -/
  imionAt : Nat := 0
  /-- events to post once READY (R388, 11 R301). -/
  bootEvents : List (Nat × List Byte) := []
  /-- TAP controller state, 16 states (R461). -/
  tap : Nat := 0
  /-- instruction register, 4 bits (R461). -/
  tapIr : Nat := 2
  /-- shift register (R461). -/
  tapShift : Nat := 0
  /-- TDO (R461). -/
  tdo : Bool := false
  deriving DecidableEq, Repr, Inhabited

/-- The memories of bytes, each in canonical form (no entry equal to 0). -/
structure Memory where
  /-- 128 x 12 MiB, key core x 12,582,912 + offset (R147). -/
  shelf : List Host.Cell := []
  /-- 128 x 1 MiB, key core x 1,048,576 + byte address (R61). -/
  cellar : List Host.Cell := []
  /-- 128 x 256 KiB, key core x 262,144 + offset (R221). -/
  side : List Host.Cell := []
  /-- 3,072,000,000,000 bytes as delivered (R302). -/
  ddr : List Host.Cell := []
  /-- 256 KiB order window (R330). -/
  window : List Host.Cell := []
  /-- poisoned 32-byte words, by core x 393,216 + word (R411). -/
  shelfPoison : List Nat := []
  /-- uncorrectable words: (0, core x 262,144 + cellar cell) or (1, core x 32,768 + side memory word) (R409). -/
  bad : List (Nat × Nat) := []
  /-- poisoned 64-byte bursts (R310). -/
  ddrPoison : List Nat := []
  /-- frames that are not fresh (R314). -/
  filled : List Nat := []
  /-- bursts zeroed by background zeroing, of 48,000,000,000 (R315). -/
  zeroAt : Nat := 0
  /-- background zeroing runs (R315). -/
  zeroing : Bool := false
  /-- MT/s (R301). -/
  ddrRate : Nat := 8800
  /-- translation store: page to (kind, flags, peer_or_qp, target, rkey) (R316). -/
  xlate : List (Nat × (Nat × Nat × Nat × Nat × Nat)) := []
  deriving DecidableEq, Repr, Inhabited

/-- The adapted state of a layer slot (Table 5.4, R143 to R145). -/
structure LayerState where
  /-- FP32 (R145). -/
  theta : BitVec 32 := 0
  /-- FP32 (R145). -/
  g : BitVec 32 := 0
  /-- 32 bits (R144). -/
  accAudited : Nat := 0
  /-- 32 bits (R144). -/
  accMissed : Nat := 0
  /-- FP32, the value it started from (R143). -/
  theta0 : BitVec 32 := 0
  /-- FP32, the value it started from (R143). -/
  g0 : BitVec 32 := 0
  /-- 32 bits (R144). -/
  changes : Nat := 0
  /-- its current values are in use (R143). -/
  live : Bool := false
  deriving DecidableEq, Repr, Inhabited

/-- A route table entry (Table 10.5) of a rank that is not unreachable. -/
structure Route where
  /-- rank (R282). -/
  rank : Nat := 0
  /-- 0-16 (R282). -/
  hops : Nat := 0
  /-- 0 unreachable, 1 self, 2 routed (R282). -/
  state : Nat := 0
  /-- rank of the next hop (R282). -/
  next : Nat := 0xFFFF
  /-- links of the bundle to next (R281). -/
  links : List Nat := []
  deriving DecidableEq, Repr, Inhabited

/-- The PTP servo (R342, R343). -/
structure Ptp where
  /-- last accepted offset, ns (R343). -/
  offset : Int := 0
  /-- sub-port the best master clock algorithm made slave (R343). -/
  slave : Option Nat := none
  /-- sub-ports whose path delay has been measured (R343). -/
  delayMeasured : List Nat := []
  deriving DecidableEq, Repr, Inhabited

/-- A management message of which pieces have arrived (R274, R280). -/
structure MgmtIn where
  /-- rank that sends it (R280). -/
  src : Nat := 0
  /-- its number (R280). -/
  tag : Nat := 0
  /-- bytes of it (R280). -/
  total : Nat := 0
  /-- pieces, each with its offset (R280). -/
  got : List (Nat × List Byte) := []
  deriving DecidableEq, Repr, Inhabited

/-- The whole device. -/
structure State where
  /-- cc since power-up (the model's clock) (R8). -/
  now : Nat := 0
  /-- the model's queue of waiting commands (model). -/
  pending : List Instr := []
  /-- the model's counter of free values drawn (model). -/
  free : Nat := 0
  /-- all byte memories (R147). -/
  mem : Memory := {}
  /-- 128 cores, an unlisted core is at its reset state (R2). -/
  cores : List (Nat × Core) := []
  /-- live handles (R14). -/
  tensors : List Tensor := []
  /-- 16 program slots (R26). -/
  slots : List (Nat × Program) := []
  /-- runs held or whose log is kept (R28). -/
  runs : List Run := []
  /-- streams in flight (R176). -/
  streams : List Stream := []
  /-- reads issued and not returned (R180). -/
  xfers : List Xfer := []
  /-- tag of the next transfer (R280). -/
  nextXfer : Nat := 0
  /-- ROTATEs in flight (R195). -/
  rots : List Rot := []
  /-- multicasts in flight (R285). -/
  mcs : List Mc := []
  /-- multicasts that have ended here: key, beat (log 88) (R288). -/
  mcOver : List (Nat × Nat) := []
  /-- pieces of rotation slices that wait for their buffer (R195). -/
  rotHeld : List (Hdr × List Byte) := []
  /-- pushes at the nodes served (R290). -/
  pushes : List Push := []
  /-- 64 mailboxes, unlisted unassigned (R348). -/
  mailboxes : List (Nat × Mailbox) := []
  /-- orders taken and not completed, oldest first (R349). -/
  orders : List Order := []
  /-- 4,096 queue pairs, unlisted free (R325). -/
  qps : List (Nat × Qp) := []
  /-- committed configuration values that differ from reset (R363). -/
  keys : List (Nat × List Byte) := []
  /-- adapted layer slots (R143). -/
  layers : List (Nat × LayerState) := []
  /-- t0 per optimiser slot (R229). -/
  optCount : List (Nat × Nat) := []
  /-- the transaction (R365). -/
  txn : Txn := {}
  /-- another coordinator's transaction (R361). -/
  prepared : Option Prepared := none
  /-- group state (R233). -/
  group : Group := {}
  /-- the beat (R243). -/
  beat : Beat := {}
  /-- 96 links (R270). -/
  links : List (Nat × Link) := []
  /-- route table, unlisted rank unreachable (R282). -/
  routes : List Route := []
  /-- per bundle (its neighbour) the link that carried the last transfer (R281). -/
  turns : List (Nat × Nat) := []
  /-- transfers of links that wait for DDR, in order of arrival (R305 R311). -/
  linkWait : List (Hdr × List Byte) := []
  /-- management messages of which pieces are missing (R280). -/
  mgmtIn : List MgmtIn := []
  /-- number of the next management message (R280). -/
  nextMgmt : Nat := 0
  /-- 24 DDR channels (R300). -/
  chans : List (Nat × Chan) := []
  /-- 16 sub-ports (R322). -/
  ports : List (Nat × SubPort) := []
  /-- per port, cc of a PORT_MODE commit not yet followed by PORT_UP (R323). -/
  portDownUntil : List (Nat × Nat) := []
  /-- the PTP servo (R343). -/
  ptp : Ptp := {}
  /-- arbiters by class x 2^20 + instance (R372). -/
  arbs : List (Nat × Arb) := []
  /-- 22 fabric segments (R378). -/
  segs : List (Nat × Seg) := []
  /-- trust block (R385). -/
  trust : Trust := {}
  /-- the coffer (R424). -/
  coffer : Coffer := {}
  /-- health state (R415). -/
  health : Health := {}
  /-- standby domain and pins (R434). -/
  pins : Pins := {}
  /-- every counter, 64 bits, saturating, key (table x 2^16 + row) x 2^16 + unit; unlisted 0 (R60). -/
  counters : List (Nat × Nat) := []
  /-- what the device has sent, newest first (model). -/
  out : List Out := []
  deriving DecidableEq, Repr, Inhabited

/-- Why a step stops with a fault. The spec gives the block no stop of this kind: every failure it describes is a
state the device goes on from. The one reason is raised by nothing and is safe. -/
inductive Fault where
  /-- Raised by no command (safe: it stands for no behaviour of the device). -/
  | none
  deriving DecidableEq, Repr, Inhabited

/-- Why a step is refused. -/
inductive Refusal where
  /-- Raised by an arm of exec whose command has no meaning yet, with its mnemonic (safe: the machine stops). -/
  | notModelled (mnemonic : String)
  deriving DecidableEq, Repr, Inhabited

/-- The entry that a device leaves manufacture with (R423, R469): MARGIN_STEP with G = 15 mV, as the worked example of
R433 has it (log 3). -/
def factoryEntry : CofferEntry := { seq := 1, kind := 0x014F, part := 1, payload := 15 :: List.replicate 35 0 }

/-- An image of manufacture (R469): firmware of major version 1; all else of it is open (log 2). -/
def factoryCopy (c : Nat) : FwCopy :=
  { state := 2, image := [0x57, 0x46, 0x51, 0x5A, 1, 0, 1, 0] ++ Config.factoryImage c }

/-- The device right after a reset of its main domain, rails and clocks in range and RESET_N still held: stage
STANDBY (R438, R444). Every field at the value the spec states for reset, or at the one log 3 and log 4 name. -/
def State.reset : State :=
  { mem := { zeroing := true }
    pins := { rails := [0, 1, 2, 3, 4, 5]
              causes := [0]
              staged := List.replicate 16 (List.replicate 28 0)
              subports := List.replicate 16 (List.replicate 32 0) }
    coffer := { copy0 := [(64, factoryEntry)], copy1 := [(64, factoryEntry)], nextSeq := 2, journalUsed := 1 }
    trust := { copyA := factoryCopy 0, copyB := factoryCopy 1, identityPk := Config.identityPk } }

end Sys2Proof.Machine
end

