-- ==== Sys2Proof/Machine/Bytes.lean ====
section
/-!
DEFINITION. Little-endian fields of byte records (R10), lists keyed by numbers, and memories of bytes in one
canonical form: addresses strictly rising, no entry equal to 0, the value of an unlisted byte (log 6).
-/

namespace Sys2Proof.Machine

/-- The value of bytes read as one little-endian number (R10). -/
def leNat : List Byte → Nat
  | [] => 0
  | b :: bs => b.toNat + 256 * leNat bs

/-- `n` little-endian bytes of a number (R10). -/
def leBytes : Nat → Nat → List Byte
  | 0, _ => []
  | n + 1, v => BitVec.ofNat 8 v :: leBytes n (v / 256)

/-- Bytes off to off + n - 1 of a record; bytes beyond its end read as zero. -/
def slice (l : List Byte) (off n : Nat) : List Byte :=
  let got := (l.drop off).take n
  got ++ List.replicate (n - got.length) 0

/-- The n-byte field at an offset of a record. -/
def field (l : List Byte) (off n : Nat) : Nat := leNat ((l.drop off).take n)

/-- The record with bytes written at an offset; the record keeps its length. -/
def patch (l : List Byte) (off : Nat) (d : List Byte) : List Byte :=
  (l.take off ++ d ++ l.drop (off + d.length)).take l.length

/-- Bit k of a number. -/
def bit (v k : Nat) : Bool := Nat.testBit v k

/-- Bits lo to lo + n - 1 of a number. -/
def bits (v lo n : Nat) : Nat := (v >>> lo) % 2 ^ n

/-- 1 for true, 0 for false. -/
def b2n (b : Bool) : Nat := if b then 1 else 0

/-- a divided by b, rounded up. -/
def cdiv (a b : Nat) : Nat := (a + b - 1) / b

/-- a rounded up to a multiple of b. -/
def roundUp (a b : Nat) : Nat := cdiv a b * b

/-- A signed number of n bits as its two's complement code. -/
def encInt (n : Nat) (v : Int) : Nat := (v % (2 ^ n : Nat)).toNat

/-- The signed number of an n-bit two's complement code. -/
def decInt (n v : Nat) : Int := if v % 2 ^ n < 2 ^ (n - 1) then (v % 2 ^ n : Nat) else (v % 2 ^ n : Nat) - (2 ^ n : Nat)

/-- Eight-bit sum of a list of flags. -/
def orAll (l : List Nat) : Nat := l.foldl (· ||| ·) 0

/-- Entry of a keyed list. -/
def look {α : Type} (k : Nat) : List (Nat × α) → Option α
  | [] => none
  | (j, v) :: r => if j = k then some v else look k r

/-- A keyed list, keys ascending, with one entry replaced or added. -/
def put {α : Type} (k : Nat) (v : α) : List (Nat × α) → List (Nat × α)
  | [] => [(k, v)]
  | (j, w) :: r => if k < j then (k, v) :: (j, w) :: r else if k = j then (k, v) :: r else (j, w) :: put k v r

/-- A keyed list without one key. -/
def erase {α : Type} (k : Nat) (l : List (Nat × α)) : List (Nat × α) := l.filter (fun p => p.1 != k)

/-- A set of numbers, ascending, with one added. -/
def insertN (k : Nat) : List Nat → List Nat
  | [] => [k]
  | j :: r => if k < j then k :: j :: r else if k = j then j :: r else j :: insertN k r

/-- Numbers 0 to n - 1 for which a test holds, ascending. -/
def below (n : Nat) (p : Nat → Bool) : List Nat := (List.range n).filter p

/-- The numbers of the bits set in a mask. -/
def maskBits (n v : Nat) : List Nat := below n (fun k => Nat.testBit v k)

/-- The mask whose set bits are the numbers listed. -/
def bitsMask (l : List Nat) : Nat := l.foldl (fun a k => a ||| 2 ^ k) 0

/-- The place of the first element that passes a test. -/
def placeOf {α : Type} (p : α → Bool) : List α → Option Nat
  | [] => none
  | a :: r => if p a then some 0 else (placeOf p r).map (· + 1)

/-- Every element that passes a test replaced. -/
def mapIf {α : Type} (p : α → Bool) (f : α → α) (l : List α) : List α := l.map (fun a => if p a then f a else a)

/-- The byte a memory holds at an address: an unlisted one holds 0 (log 6). -/
def memGet (k : Nat) : List Host.Cell → Byte
  | [] => 0
  | (j, b) :: r => if j = k then b else memGet k r

/-- A memory with one byte written: writing 0 removes the entry. -/
def memPut (k : Nat) (b : Byte) : List Host.Cell → List Host.Cell
  | [] => if b = 0 then [] else [(k, b)]
  | (j, c) :: r =>
    if k < j then (if b = 0 then (j, c) :: r else (k, b) :: (j, c) :: r)
    else if k = j then (if b = 0 then r else (k, b) :: r)
    else (j, c) :: memPut k b r

/-- The canonical form of a memory: addresses strictly rising from a bound, no zero entry. -/
def memWf (lo : Nat) : List Host.Cell → Bool
  | [] => true
  | (j, b) :: r => decide (lo ≤ j) && decide (b ≠ 0) && memWf (j + 1) r

/-- `n` bytes of a memory from an address. -/
def memRead (m : List Host.Cell) (a : Nat) : Nat → List Byte
  | 0 => []
  | n + 1 => memGet a m :: memRead m (a + 1) n

/-- Bytes put at their addresses, one after another. -/
def memPuts : List Host.Cell → List Host.Cell → List Host.Cell
  | [], m => m
  | c :: l, m => memPuts l (memPut c.1 c.2 m)

/-- A memory with bytes written from an address on. -/
def memWrite (m : List Host.Cell) (a : Nat) : List Byte → List Host.Cell
  | [] => m
  | b :: bs => memWrite (memPut a b m) (a + 1) bs

/-- A memory with n bytes from an address zeroed: their entries are dropped. -/
def memZero (m : List Host.Cell) (a n : Nat) : List Host.Cell :=
  m.filter (fun c => !(decide (a ≤ c.1) && decide (c.1 < a + n)))

/-- Every memory of bytes is in its canonical form. -/
def Memory.wf (m : Memory) : Bool :=
  memWf 0 m.shelf && memWf 0 m.cellar && memWf 0 m.side && memWf 0 m.ddr && memWf 0 m.window

end Sys2Proof.Machine
end

