-- ==== Sys2Proof/Machine/Fp.lean ====
section
/-!
DEFINITION. Exact values and their roundings: the element encodings of Table 2.2, the tree format (R42), the
stochastic rounding of the running sum (R45), FP32 operations rounded to nearest (R82, R86, R219) and the narrowing
conversion (R57).
-/

namespace Sys2Proof.Machine

/-- A value: a NaN, an infinity, or (-1)^neg × m × 2^e exactly. -/
inductive Val where
  | nan
  | inf (neg : Bool)
  | fin (neg : Bool) (m : Nat) (e : Int)
  deriving DecidableEq, Repr, Inhabited

/-- +0. -/
def Val.zero : Val := .fin false 0 0

/-- An integer as a value. -/
def Val.ofInt (v : Int) : Val := .fin (decide (v < 0)) v.natAbs 0

/-- The sign of a value; a NaN has none. -/
def Val.neg : Val → Bool
  | .nan => false
  | .inf n => n
  | .fin n _ _ => n

/-- The value is a NaN. -/
def Val.isNan : Val → Bool
  | .nan => true
  | _ => false

/-- The value is an infinity. -/
def Val.isInf : Val → Bool
  | .inf _ => true
  | _ => false

/-- The value is +0 or -0. -/
def Val.isZero : Val → Bool
  | .fin _ 0 _ => true
  | _ => false

/-- The value with its sign exchanged. -/
def Val.negate : Val → Val
  | .nan => .nan
  | .inf n => .inf (!n)
  | .fin n m e => .fin (!n) m e

/-- A number shifted by a signed count of bits, low bits dropped. -/
def shiftI (m : Nat) (k : Int) : Nat := if k < 0 then m >>> (-k).toNat else m <<< k.toNat

/-- The power of two just not above m × 2^e, as its exponent (m not 0). -/
def expOf (m : Nat) (e : Int) : Int := e + (Nat.log2 m : Int)

/-- The signed integer with which a value is that integer times 2^b, for b at most its own exponent. -/
def scaledTo (neg : Bool) (m : Nat) (e b : Int) : Int :=
  let v : Int := (m <<< (e - b).toNat : Nat)
  if neg then -v else v

/-- The exact sum of two values; the sum of zeros is -0 only when both are -0 (R43, R45). -/
def Val.add : Val → Val → Val
  | .nan, _ => .nan
  | _, .nan => .nan
  | .inf a, .inf b => if a = b then .inf a else .nan
  | .inf a, _ => .inf a
  | _, .inf b => .inf b
  | .fin n1 m1 e1, .fin n2 m2 e2 =>
    if m1 = 0 then (if m2 = 0 then .fin (n1 && n2) 0 0 else .fin n2 m2 e2)
    else if m2 = 0 then .fin n1 m1 e1
    else
      let b := min e1 e2
      let s := scaledTo n1 m1 e1 b + scaledTo n2 m2 e2 b
      .fin (decide (s < 0)) s.natAbs b

/-- The exact product of two values; an infinity times a zero is a NaN (R55). -/
def Val.mul : Val → Val → Val
  | .nan, _ => .nan
  | _, .nan => .nan
  | .inf a, .inf b => .inf (a != b)
  | .inf a, .fin b m _ => if m = 0 then .nan else .inf (a != b)
  | .fin a m _, .inf b => if m = 0 then .nan else .inf (a != b)
  | .fin n1 m1 e1, .fin n2 m2 e2 => .fin (n1 != n2) (m1 * m2) (e1 + e2)

/-- A value times 2^k. -/
def Val.scale (v : Val) (k : Int) : Val :=
  match v with
  | .fin n m e => .fin n m (e + k)
  | w => w

/-- a is below b; neither a NaN. -/
def Val.lt (a b : Val) : Bool :=
  match a, b with
  | .nan, _ => false
  | _, .nan => false
  | .inf n, .inf m => n && !m
  | .inf n, _ => n
  | _, .inf m => !m
  | .fin n1 m1 e1, .fin n2 m2 e2 =>
    let c := min e1 e2
    decide (scaledTo n1 m1 e1 c < scaledTo n2 m2 e2 c)

/-- The magnitude m × 2^e is at least 2^k. -/
def magGe (m : Nat) (e k : Int) : Bool := m != 0 && decide (k ≤ expOf m e)

/-- A magnitude rounded toward zero to p significant bits, none below 2^q: (significand, exponent, discarded part,
bits discarded). -/
def chop (p : Nat) (q : Int) (m : Nat) (e : Int) : Nat × Int × Nat × Nat :=
  let u := max (expOf m e - (p : Int) + 1) q
  if u ≤ e then (m, e, 0, 0)
  else
    let k := (u - e).toNat
    (m >>> k, u, m % 2 ^ k, k)

/-- A magnitude rounded to nearest, ties to even, to p significant bits, none below 2^q. -/
def nearest (p : Nat) (q : Int) (m : Nat) (e : Int) : Nat × Int :=
  let (t, u, r, k) := chop p q m e
  if k = 0 then (t, u)
  else if 2 * r > 2 ^ k ∨ (2 * r = 2 ^ k ∧ t % 2 = 1) then (t + 1, u) else (t, u)

/-- A value rounded to nearest even with p bits and a least bit of 2^q; exponents are not bounded above. -/
def Val.round (p : Nat) (q : Int) : Val → Val
  | .fin n m e => if m = 0 then .fin n 0 0 else let (t, u) := nearest p q m e; .fin n t u
  | v => v

/-- A value rounded to FP32 precision, subnormals honoured; overflow is left to the caller (over32). -/
def Val.r32 (v : Val) : Val := v.round 24 (-149)

/-- The largest finite magnitude of FP32 with a sign (R50). -/
def max32 (neg : Bool) : Val := .fin neg (2 ^ 24 - 1) 104

/-- A rounded value exceeds the FP32 largest finite magnitude. -/
def Val.over32 : Val → Bool
  | .nan => false
  | .inf _ => true
  | .fin _ m e => magGe m e 128

/-- FP32 rounding in which a value beyond the largest finite magnitude becomes an infinity. -/
def Val.f32 (v : Val) : Val := let r := v.r32; if r.over32 then .inf r.neg else r

/-- FP32 rounding in which a value beyond the largest finite magnitude takes that magnitude (R84, R86). -/
def Val.sat32 (v : Val) : Val := let r := v.r32; if r.over32 then max32 r.neg else r

/-- FP32 sum, rounded once to nearest even. -/
def add32 (a b : Val) : Val := (a.add b).f32

/-- FP32 product, rounded once to nearest even. -/
def mul32 (a b : Val) : Val := (a.mul b).f32

/-- FP32 difference. -/
def sub32 (a b : Val) : Val := add32 a b.negate

/-- The exact quotient of two magnitudes to some 80 bits, the last bit set when more follow. -/
def quot (m1 m2 : Nat) : Nat × Int :=
  let k := 80 + Nat.log2 m2
  let n := m1 <<< k
  (2 * (n / m2) + b2n (n % m2 != 0), -(k : Int) - 1)

/-- A quotient ready for rounding. -/
def Val.div : Val → Val → Val
  | .nan, _ => .nan
  | _, .nan => .nan
  | .inf _, .inf _ => .nan
  | .inf a, .fin b _ _ => .inf (a != b)
  | .fin a _ _, .inf b => .fin (a != b) 0 0
  | .fin n1 m1 e1, .fin n2 m2 e2 =>
    if m2 = 0 then (if m1 = 0 then .nan else .inf (n1 != n2))
    else let (t, k) := quot m1 m2; .fin (n1 != n2) t (k + e1 - e2)

/-- FP32 quotient, correctly rounded (R219). -/
def div32 (a b : Val) : Val := (a.div b).f32

/-- The integer square root, one bit at a time from bit k down. -/
def isqrt (n : Nat) : Nat → Nat → Nat
  | 0, r => r
  | k + 1, r => let t := r + 2 ^ k; isqrt n k (if t * t ≤ n then t else r)

/-- The square root of a value, with some 64 bits and a last bit that says whether more follow. -/
def Val.sqrt : Val → Val
  | .nan => .nan
  | .inf n => if n then .nan else .inf false
  | .fin n m e =>
    if m = 0 then .fin n 0 0
    else if n then .nan
    else
      let sh := 130 + (Nat.log2 m % 2) + (if (e - (Nat.log2 m % 2 : Nat)) % 2 = 0 then 0 else 1)
      let x := m <<< sh
      let r := isqrt x (Nat.log2 x / 2 + 1) 0
      .fin false (2 * r + b2n (r * r != x)) ((e - (sh : Int)) / 2 - 1)

/-- FP32 square root, correctly rounded (R219). -/
def sqrt32 (a : Val) : Val := a.sqrt.f32

/-- A Taylor sum of the exponential in fixed point with 2^-p units. -/
def expSeries (p t : Nat) : Nat → Nat → Nat → Nat → Nat
  | 0, _, _, acc => acc
  | k + 1, i, term, acc => let nt := ((term * t) >>> p) / i; expSeries p t k (i + 1) nt (acc + nt)

/-- Squared k times in fixed point with 2^-p units. -/
def squares (p : Nat) : Nat → Nat → Nat
  | 0, v => v
  | k + 1, v => squares p k ((v * v) >>> p)

/-- e^x of a finite x to far more than FP32's precision. -/
def expExact (n : Bool) (m : Nat) (e : Int) : Val :=
  if m = 0 then .fin false 1 0
  else if magGe m e 7 then (if n then .fin false 1 (-190) else .fin false 1 190)
  else
    let t := shiftI m (e + 393)
    let y := squares 400 7 (expSeries 400 t 80 1 (2 ^ 400) (2 ^ 400))
    if n then .fin false (2 ^ 1000 / y) (-600) else .fin false y (-400)

/-- The distance of two finite magnitudes is at most 2^u. -/
def within (m1 : Nat) (e1 : Int) (m2 : Nat) (e2 u : Int) : Bool :=
  let b := min (min e1 e2) u
  decide ((scaledTo false m1 e1 b - scaledTo false m2 e2 b).natAbs ≤ (scaledTo false 1 u b).natAbs)

/-- An FP32 code as a value (Table 2.2). -/
def dec32 (c : Nat) : Val :=
  let n := bit c 31
  let x := bits c 23 8
  let f := bits c 0 23
  if x = 255 then (if f = 0 then .inf n else .nan)
  else if x = 0 then .fin n f (-149)
  else .fin n (2 ^ 23 + f) ((x : Int) - 150)

/-- A value that FP32 holds exactly as its code; a NaN as the canonical NaN (R56). -/
def enc32 : Val → Nat
  | .nan => 0x7FC00000
  | .inf n => b2n n * 2 ^ 31 + 0x7F800000
  | .fin n m e =>
    let s := b2n n * 2 ^ 31
    if m = 0 then s
    else
      let x := expOf m e
      if x < -126 then s + shiftI m (e + 149)
      else s + ((x + 126).toNat <<< 23) + shiftI m (e - x + 23)

/-- FP32 code as a bit vector. -/
def enc (v : Val) : F32 := BitVec.ofNat 32 (enc32 v)

/-- FP32 bit vector as a value. -/
def dec (c : F32) : Val := dec32 c.toNat

/-- The FP32 values within 1 ulp of an exact positive magnitude, ascending. -/
def withinUlp (m : Nat) (e : Int) : List Val :=
  let (t, u, _, _) := chop 24 (-149) m e
  let c := enc32 (.fin false t u)
  (([c - 2, c - 1, c, c + 1, c + 2].filter (fun k => match dec32 k with
    | .fin false a b => within a b m e u
    | _ => false)).eraseDups).map dec32

/-- exp of R219: a fixed FP32 value within 1 ulp of the exact result; which one is a free value (log 2). -/
def exp32 (x : Val) : Val :=
  match x with
  | .nan => .nan
  | .inf n => if n then .zero else .inf false
  | .fin n m e =>
    match expExact n m e with
    | .fin _ a b =>
      if magGe a b 128 then .inf false else
      let l := withinUlp a b
      l.getD (Config.expChoice (enc x) % l.length) ((Val.fin false a b).f32)
    | v => v

/-- Element formats of Table 1.2 by code: (element bits, exponent bits, mantissa bits, bias); 0 for other codes. -/
def fmtInfo : Nat → Nat × Nat × Nat × Nat
  | 0x01 => (4, 2, 1, 1)
  | 0x02 => (8, 4, 3, 7)
  | 0x03 => (8, 5, 2, 15)
  | 0x04 => (8, 4, 3, 7)
  | 0x05 => (8, 5, 2, 15)
  | 0x06 => (16, 8, 7, 127)
  | 0x07 => (16, 5, 10, 15)
  | 0x08 => (8, 0, 0, 0)
  | 0x09 => (4, 0, 0, 0)
  | 0x0A => (8, 0, 0, 0)
  | 0x0B => (2, 0, 0, 0)
  | 0x10 => (32, 8, 23, 127)
  | 0x11 => (32, 0, 0, 0)
  | 0x12 => (1, 0, 0, 0)
  | _ => (0, 0, 0, 0)

/-- The format code is one of Table 1.2. -/
def fmtOk (f : Nat) : Bool := (fmtInfo f).1 != 0

/-- Bits per element. -/
def fmtBits (f : Nat) : Nat := (fmtInfo f).1

/-- The format has a block scale of 32 elements (MXFP4, MXFP8, MXINT8). -/
def fmtMx (f : Nat) : Bool := f == 0x01 || f == 0x02 || f == 0x03 || f == 0x0A

/-- Operand formats of the float class (R35). -/
def fmtFloatClass (f : Nat) : Bool := (1 ≤ f && f ≤ 7) || f == 0x0A

/-- Operand formats of the integer class (R35). -/
def fmtIntClass (f : Nat) : Bool := f == 0x08 || f == 0x09

/-- Integer formats: INT8, INT4 and INT32. -/
def fmtInt (f : Nat) : Bool := f == 0x08 || f == 0x09 || f == 0x11

/-- A code of a floating format with the given fields: E5M2, BF16, FP16 and FP32 have infinities and NaNs, E4M3 the
NaN S.1111.111 only, E2M1 neither (Table 2.2). -/
def decFloat (f c : Nat) : Val :=
  let (w, x, k, bias) := fmtInfo f
  let n := bit c (w - 1)
  let ex := bits c k x
  let fr := bits c 0 k
  let top := 2 ^ x - 1
  if (f == 0x02 || f == 0x04) && ex == top && fr == 7 then .nan
  else if (f == 0x03 || f == 0x05 || f == 0x06 || f == 0x07 || f == 0x10) && ex == top then
    (if fr == 0 then .inf n else .nan)
  else if ex == 0 then .fin n fr (1 - (bias : Int) - k)
  else .fin n (2 ^ k + fr) ((ex : Int) - bias - k)

/-- An element code as a value, its block scale aside (Tables 2.2 to 2.4). -/
def decElem (f c : Nat) : Val :=
  match f with
  | 0x08 => .ofInt (decInt 8 c)
  | 0x09 => .ofInt (decInt 4 c)
  | 0x11 => .ofInt (decInt 32 c)
  | 0x0A => (Val.ofInt (decInt 8 c)).scale (-6)
  | 0x0B => .ofInt (if c % 4 = 1 then 1 else if c % 4 = 3 then -1 else 0)
  | 0x12 => .ofInt (c % 2 : Nat)
  | _ => decFloat f c

/-- An element of an MX block with its scale byte (R38): a scale of 0xFF makes it a NaN. -/
def decMx (f c s : Nat) : Val := if s = 0xFF then .nan else (decElem f c).scale ((s : Int) - 127)

/-- An element of any format: with its scale byte in an MX format, with its FP16 scale in a sketch (R38, R39). -/
def decVal (f c s : Nat) : Val :=
  if fmtMx f then decMx f c s else if f = 0x0B then (decElem f c).mul (decFloat 0x07 s) else decElem f c

/-- The largest finite magnitude of a format, an MX format's at element scale 1 (Table 2.2). -/
def fmtMax (f : Nat) (neg : Bool) : Val :=
  match f with
  | 0x01 => .fin neg 6 0
  | 0x02 => .fin neg 448 0
  | 0x04 => .fin neg 448 0
  | 0x03 => .fin neg 57344 0
  | 0x05 => .fin neg 57344 0
  | 0x06 => .fin neg 255 120
  | 0x07 => .fin neg 65504 0
  | 0x08 => .ofInt (if neg then -128 else 127)
  | 0x09 => .ofInt (if neg then -8 else 7)
  | 0x0A => .fin neg (if neg then 128 else 127) (-6)
  | 0x11 => .ofInt (if neg then -2147483648 else 2147483647)
  | _ => max32 neg

/-- |a| exceeds |b|. -/
def Val.magGt (a b : Val) : Bool :=
  match a, b with
  | .fin _ m1 e1, .fin _ m2 e2 => Val.lt (.fin false m2 e2) (.fin false m1 e1)
  | .inf _, .fin _ _ _ => true
  | _, _ => false

/-- A finite value of a floating format, held exactly by it, as its code. -/
def encFloat (f : Nat) (v : Val) : Nat :=
  let (w, x, k, bias) := fmtInfo f
  match v with
  | .fin n m e =>
    let s := b2n n * 2 ^ (w - 1)
    if m = 0 then s
    else
      let p := expOf m e
      if p < 1 - (bias : Int) then s + shiftI m (e + bias - 1 + k)
      else s + ((((p + bias).toNat) % 2 ^ x) <<< k) + (shiftI m (e - p + k) - 2 ^ k)
  | .inf n => b2n n * 2 ^ (w - 1) + ((2 ^ x - 1) <<< k)
  | .nan => 2 ^ w - 1

/-- The nearest integer of a finite value, ties to even. -/
def Val.toInt (v : Val) : Int :=
  match v with
  | .fin n m e =>
    if m = 0 then 0
    else
      let (t, u) := nearest (m.log2 + e.toNat + 2) 0 m e
      let r : Int := (t <<< u.toNat : Nat)
      if n then -r else r
  | _ => 0

/-- Flags of Table 2.5 as bits of a number. -/
def flSat : Nat := 1
/-- See flSat. -/
def flSatFinal : Nat := 2
/-- See flSat. -/
def flNan : Nat := 4
/-- See flSat. -/
def flClamp : Nat := 32
/-- See flSat. -/
def flFell : Nat := 64
/-- See flSat. -/
def flMiss : Nat := 128

/-- The code of a format's largest finite magnitude with a sign (R57). -/
def topCode (f : Nat) (neg : Bool) : Nat :=
  match f with
  | 0x08 => if neg then 128 else 127
  | 0x09 => if neg then 8 else 7
  | 0x11 => if neg then 2147483648 else 2147483647
  | _ => encFloat f (fmtMax f neg)

/-- The NaN codes of Table 2.8. -/
def nanCode : Nat → Nat
  | 0x10 => 0x7FC00000
  | 0x06 => 0x7FC0
  | 0x07 => 0x7E00
  | 0x04 => 0x7F
  | 0x05 => 0x7E
  | _ => 0

/-- Narrowing to a format without block scales (R57): the code and the flags set. A marked value is a saturated sum
and takes the largest finite magnitude. -/
def narrow (f : Nat) (mark : Bool) (v : Val) : Nat × Nat :=
  match v with
  | .nan => (nanCode f, flNan)
  | .inf n =>
    if mark then (topCode f n, 0)
    else if f = 0x10 then (encFloat f (.inf n), 0)
    else (topCode f n, flSat)
  | .fin n m e =>
    if mark then (topCode f n, 0)
    else if (Val.fin n m e).magGt (fmtMax f n) then (topCode f n, flSat)
    else if fmtInt f then (encInt (fmtBits f) (Val.fin n m e).toInt, 0)
    else
      let (_, _, k, bias) := fmtInfo f
      (encFloat f ((Val.fin n m e).round (k + 1) (1 - (bias : Int) - k)), 0)

/-- Exponent of the largest power of two of an MX element format. -/
def mxEmax : Nat → Int
  | 0x01 => 2
  | 0x02 => 8
  | 0x03 => 15
  | _ => 0

/-- A magnitude's code in an MX element format after division by its scale, clamped to the largest magnitude (R57). -/
def mxElem (f : Nat) (v : Val) : Nat :=
  if f = 0x0A then
    let r := (v.scale 6).toInt
    if r > 127 then 127 else if r < -128 then 128 else encInt 8 r
  else
    let (_, _, k, bias) := fmtInfo f
    let r := v.round (k + 1) (1 - (bias : Int) - k)
    if r.magGt (fmtMax f r.neg) then topCode f r.neg else encFloat f r

/-- The largest magnitude an MX format can hold, with a sign (R57): the element maximum times 2^127. -/
def mxTop (f : Nat) (neg : Bool) : Val := (fmtMax f neg).scale 127

/-- Conversion of the 32 values of an MX block (R57, OCP Microscaling Formats): scale byte, codes and flags. Each value
comes with its saturation mark. -/
def narrowMx (f : Nat) (vs : List (Val × Bool)) : Nat × List Nat × Nat :=
  if vs.any (fun v => v.1.isNan) then (0xFF, vs.map (fun _ => 0), flNan)
  else
    let beyond := fun (v : Val × Bool) => v.2 || v.1.isInf || v.1.magGt (mxTop f v.1.neg)
    let xs := vs.map (fun v => if beyond v then mxTop f v.1.neg else v.1)
    let big := xs.foldl (fun a v => if v.magGt a then v else a) Val.zero
    let s : Nat := match big with
      | .fin _ m e => if m = 0 then 127 else (min 254 (max 0 (expOf m e - mxEmax f + 127))).toNat
      | _ => 127
    (s, xs.map (fun v => mxElem f (v.scale (127 - (s : Int)))),
      if vs.any (fun v => beyond v && !v.2) then flSat else 0)

/-! The running sum of an engine column (R40 to R45, R50 to R56). -/

/-- One element's accumulation: its value, held at a bound, or a NaN. -/
structure Acc where
  /-- Running sum: FP32 in the float class, INT32 in the integer class. -/
  v : Val := .zero
  /-- It saturated and is held (R44, R50). -/
  sat : Bool := false
  /-- It is the canonical NaN (R56). -/
  nan : Bool := false
  deriving DecidableEq, Repr, Inhabited

/-- What one reduction step does to an element. -/
inductive StepRes where
  | sum (t : Val)
  | above (neg : Bool)
  | overInf (neg : Bool)
  | nan
  deriving DecidableEq, Repr, Inhabited

/-- A product placed in the tree format (R41): a zero of its sign below 2^-126. R43 gives the zero that a sum of the tree
becomes no sign: the model keeps the sum's (DESIGN CHOICE, log 90). -/
def toTree (v : Val) : Val :=
  match v with
  | .fin n m e => if magGe m e (-126) then .fin n m e else .fin n 0 0
  | w => w

/-- The product is 2^128 or more (R41). -/
def prodOver : Val → Bool
  | .fin _ m e => magGe m e 128
  | .inf _ => true
  | .nan => false

/-- One adder of the tree (R43): the exact sum rounded to 30 bits. -/
def treeAdd (a b : Val) : Val := toTree ((a.add b).round 30 (-155))

/-- Adjacent values of a level added, an odd last value passed on. -/
def treeLevel : List Val → List Val
  | a :: b :: r => treeAdd a b :: treeLevel r
  | l => l

/-- The tree of R43 level by level: the first overflow, level by level and by ascending position, ends it. -/
def treeSum : Nat → List Val → StepRes
  | 0, l => .sum (l.headD .zero)
  | k + 1, l =>
    match l with
    | [] => .sum .zero
    | [a] => .sum a
    | l =>
      let n := treeLevel l
      match n.find? prodOver with
      | some v => .above v.neg
      | none => treeSum k n

/-- The products of one step reduced (R41, R43, R50, R55, R56): a NaN first, then the first overflowing product, then
the tree. -/
def stepFloat (ps : List Val) : StepRes :=
  let infP := ps.any (fun v => v == .inf false)
  let infN := ps.any (fun v => v == .inf true)
  if ps.any (·.isNan) || (infP && infN) then .nan
  else match ps.find? prodOver with
    | some v => if infP || infN then .overInf v.neg else .above v.neg
    | none => treeSum (ps.length + 1) (ps.map toTree)

/-- Stochastic rounding of R45: the sum of the running sum a and t with dither d, before the overflow test. -/
def stochastic (a t : Val) (d : Nat) : Val :=
  match a.add t with
  | .fin n m e =>
    if m = 0 then .fin n 0 0
    else
      let (q, u, r, k) := chop 24 (-149) m e
      if k = 0 then .fin n q u
      else
        let f16 := (r <<< 16) >>> k
        if f16 + d < 65536 then .fin n q u else .fin n (q + 1) u
  | v => v

/-- An element after one float step with its dither; an element that saturated or holds a NaN takes no more
(R50, R56). The flags returned: an overflow of this step, and one caused by an infinite input. -/
def accFloat (c : Acc) (r : StepRes) (d : Nat) : Acc × Bool × Bool :=
  if c.sat || c.nan then (c, false, false)
  else match r with
    | .nan => ({ v := .nan, nan := true }, false, false)
    | .above n => ({ v := max32 n, sat := true }, true, false)
    | .overInf n => ({ v := max32 n, sat := true }, true, true)
    | .sum t =>
      let w := stochastic c.v t d
      if w.over32 then ({ v := max32 w.neg, sat := true }, true, false) else ({ c with v := w }, false, false)

/-- An element after one integer step (R44): 32-bit tree sum, saturating running sum. -/
def accInt (c : Acc) (ps : List Int) : Acc × Bool × Bool :=
  if c.sat then (c, false, false)
  else
    let t := decInt 32 (encInt 32 (ps.foldl (· + ·) 0))
    let cur := match c.v with
      | .fin n m e => scaledTo n m e (min e 0)
      | _ => 0
    let s := cur + t
    if s > 2147483647 then ({ v := .ofInt 2147483647, sat := true }, true, false)
    else if s < -2147483648 then ({ v := .ofInt (-2147483648), sat := true }, true, false)
    else ({ c with v := .ofInt s }, false, false)

/-- Products added into a running sum one at a time, each addition rounded to nearest even (R208). -/
def addBroeth (c : Acc) : List Val → Acc × Bool × Bool
  | [] => (c, false, false)
  | p :: ps =>
    let w := (c.v.add p).r32
    if w.over32 then ({ v := max32 w.neg, sat := true }, true, false) else addBroeth { c with v := w } ps

/-- One step in the forerunner's order of Broeth mode (R208): each product rounded to FP32, honouring subnormals, then
added in ascending order; NaN and overflow as R50, R55 and R56 order them. -/
def accBroeth (c : Acc) (ps : List Val) : Acc × Bool × Bool :=
  if c.sat || c.nan then (c, false, false)
  else
    let infP := ps.any (fun v => v == .inf false)
    let infN := ps.any (fun v => v == .inf true)
    let rs := ps.map Val.r32
    if ps.any (·.isNan) || (infP && infN) then ({ v := .nan, nan := true }, false, false)
    else match rs.find? Val.over32 with
      | some v => ({ v := max32 v.neg, sat := true }, true, infP || infN)
      | none => addBroeth c rs

/-- A preload value into a float accumulation on retry n (R51, R55, R56): scaled toward zero. -/
def preFloat (n : Nat) (v : Val) : Acc :=
  match v with
  | .nan => { v := .nan, nan := true }
  | .inf s => { v := max32 s, sat := true }
  | .fin s m e =>
    if m = 0 then { v := .fin s 0 0 }
    else
      let (t, u, _, _) := chop 24 (-149) m (e - 16 * (n : Int))
      { v := .fin s t u }

/-- A preload value into an integer accumulation (R40): nearest even, a NaN becomes 0, a value beyond the range is held
at its bound. The flag: it was a NaN. -/
def preInt (v : Val) : Acc × Bool :=
  match v with
  | .nan => ({ v := .zero }, true)
  | .inf s => ({ v := .ofInt (if s then -2147483648 else 2147483647), sat := true }, false)
  | w =>
    let r := w.toInt
    if r > 2147483647 then ({ v := .ofInt 2147483647, sat := true }, false)
    else if r < -2147483648 then ({ v := .ofInt (-2147483648), sat := true }, false)
    else ({ v := .ofInt r }, false)

/-- The atomic FP32 add of R86: rounded once, saturating, never an infinity. -/
def atomicAdd (c p : F32) : F32 :=
  let a := dec c
  let b := dec p
  match a, b with
  | .inf x, .inf y => if x = y then enc (max32 x) else enc .nan
  | _, _ =>
    match a.add b with
    | .nan => enc .nan
    | v => enc v.sat32

/-- The dither of column j (R46) for a key. -/
def ditherAt (seed plane trow tcol row k j : Nat) : Nat :=
  bits (Config.dither seed plane trow tcol row k).toNat (16 * j) 16

end Sys2Proof.Machine
end

