-- ==== Sys2Proof/Machine/Counters.lean ====
section
/-!
DEFINITION. The counters by name: (table, row) as READ_COUNTERS numbers them (R362).
-/

namespace Sys2Proof.Machine

/-! Table 2.7 (R60). -/
/-- SAT_TILES. -/
abbrev Ctr.satTiles : Nat × Nat := (0x0207, 0)
/-- SAT_FINAL_TILES. -/
abbrev Ctr.satFinalTiles : Nat × Nat := (0x0207, 1)
/-- NAN_TILES. -/
abbrev Ctr.nanTiles : Nat × Nat := (0x0207, 2)
/-- RETRY_PASSES. -/
abbrev Ctr.retryPasses : Nat × Nat := (0x0207, 3)
/-- RETRY_CC. -/
abbrev Ctr.retryCc : Nat × Nat := (0x0207, 4)
/-- STATUS_LOG_DROPS. -/
abbrev Ctr.statusLogDrops : Nat × Nat := (0x0207, 5)
/-- SKETCH_RESERVED. -/
abbrev Ctr.sketchReserved : Nat × Nat := (0x0207, 6)
/-- Rows of table 0x0207. -/
abbrev Ctr.rows0207 : Nat := 7

/-! Table 3.7 (R87). -/
/-- CELLAR_WAIT_CC. -/
abbrev Ctr.cellarWaitCc : Nat × Nat := (0x0307, 0)
/-- EPILOGUE_WAIT_CC. -/
abbrev Ctr.epilogueWaitCc : Nat × Nat := (0x0307, 1)
/-- PRELOAD_WAIT_CC. -/
abbrev Ctr.preloadWaitCc : Nat × Nat := (0x0307, 2)
/-- TILE_CONFLICT_STALLS. -/
abbrev Ctr.tileConflictStalls : Nat × Nat := (0x0307, 3)
/-- TILE_CONFLICT_CC. -/
abbrev Ctr.tileConflictCc : Nat × Nat := (0x0307, 4)
/-- EPILOGUE_SAT. -/
abbrev Ctr.epilogueSat : Nat × Nat := (0x0307, 5)
/-- ACT_LEFT. -/
abbrev Ctr.actLeft : Nat × Nat := (0x0307, 6)
/-- ACT_RIGHT. -/
abbrev Ctr.actRight : Nat × Nat := (0x0307, 7)
/-- SPLIT_PARTIALS. -/
abbrev Ctr.splitPartials : Nat × Nat := (0x0307, 8)
/-- Rows of table 0x0307. -/
abbrev Ctr.rows0307 : Nat := 9

/-! Table 4.9 (R123). -/
/-- CRATES_WRITTEN. -/
abbrev Ctr.cratesWritten : Nat × Nat := (0x0409, 0)
/-- CRATES_FELL_BACK. -/
abbrev Ctr.cratesFellBack : Nat × Nat := (0x0409, 1)
/-- COMPRESS_WAIT_CC. -/
abbrev Ctr.compressWaitCc : Nat × Nat := (0x0409, 2)
/-- CRATE_ERRORS. -/
abbrev Ctr.crateErrors : Nat × Nat := (0x0409, 3)
/-- EXPAND_WAIT_CC. -/
abbrev Ctr.expandWaitCc : Nat × Nat := (0x0409, 4)
/-- BLOCK_WAIT_CC. -/
abbrev Ctr.blockWaitCc : Nat × Nat := (0x0409, 5)
/-- S24_STEPS. -/
abbrev Ctr.s24Steps : Nat × Nat := (0x0409, 6)
/-- S24_DENSE_STEPS. -/
abbrev Ctr.s24DenseSteps : Nat × Nat := (0x0409, 7)
/-- S24_BANK_LOST_CC. -/
abbrev Ctr.s24BankLostCc : Nat × Nat := (0x0409, 8)
/-- MERGE_STEPS. -/
abbrev Ctr.mergeSteps : Nat × Nat := (0x0409, 9)
/-- MERGE_MATCHES. -/
abbrev Ctr.mergeMatches : Nat × Nat := (0x0409, 10)
/-- MERGE_STARVE_CC. -/
abbrev Ctr.mergeStarveCc : Nat × Nat := (0x0409, 11)
/-- MERGE_FULL_CC. -/
abbrev Ctr.mergeFullCc : Nat × Nat := (0x0409, 12)
/-- MERGE_FEED_CC. -/
abbrev Ctr.mergeFeedCc : Nat × Nat := (0x0409, 13)
/-- MERGE_LIST_WAIT_CC. -/
abbrev Ctr.mergeListWaitCc : Nat × Nat := (0x0409, 14)
/-- MERGE_SKIPPED_KTILES. -/
abbrev Ctr.mergeSkippedKtiles : Nat × Nat := (0x0409, 15)
/-- Rows of table 0x0409. -/
abbrev Ctr.rows0409 : Nat := 16

/-! Table 5.5 (R146). -/
/-- PRED_ROWS. -/
abbrev Ctr.predRows : Nat × Nat := (0x0505, 0)
/-- PRED_KEPT. -/
abbrev Ctr.predKept : Nat × Nat := (0x0505, 1)
/-- PRED_SKIPPED. -/
abbrev Ctr.predSkipped : Nat × Nat := (0x0505, 2)
/-- PRED_FORCED. -/
abbrev Ctr.predForced : Nat × Nat := (0x0505, 3)
/-- PRED_CC. -/
abbrev Ctr.predCc : Nat × Nat := (0x0505, 4)
/-- PRED_WAIT_CC. -/
abbrev Ctr.predWaitCc : Nat × Nat := (0x0505, 5)
/-- PRED_GATHER_CC. -/
abbrev Ctr.predGatherCc : Nat × Nat := (0x0505, 6)
/-- AUDIT_ROWS. -/
abbrev Ctr.auditRows : Nat × Nat := (0x0505, 7)
/-- AUDIT_MISSES. -/
abbrev Ctr.auditMisses : Nat × Nat := (0x0505, 8)
/-- EXACT_MISSES. -/
abbrev Ctr.exactMisses : Nat × Nat := (0x0505, 9)
/-- ZERO_ROWS. -/
abbrev Ctr.zeroRows : Nat × Nat := (0x0505, 10)
/-- Rows of table 0x0505. -/
abbrev Ctr.rows0505 : Nat := 11

/-! Table 6.7 (R164). -/
/-- COPY_BYTES_READ. -/
abbrev Ctr.copyBytesRead : Nat × Nat := (0x0607, 0)
/-- COPY_BYTES_WRITTEN. -/
abbrev Ctr.copyBytesWritten : Nat × Nat := (0x0607, 1)
/-- CLAMP_READS. -/
abbrev Ctr.clampReads : Nat × Nat := (0x0607, 2)
/-- GATHER_INDICES. -/
abbrev Ctr.gatherIndices : Nat × Nat := (0x0607, 3)
/-- GATHER_REPEATS. -/
abbrev Ctr.gatherRepeats : Nat × Nat := (0x0607, 4)
/-- GATHER_REFETCH. -/
abbrev Ctr.gatherRefetch : Nat × Nat := (0x0607, 5)
/-- SCATTER_UPDATES. -/
abbrev Ctr.scatterUpdates : Nat × Nat := (0x0607, 6)
/-- SCATTER_REPEATS. -/
abbrev Ctr.scatterRepeats : Nat × Nat := (0x0607, 7)
/-- TILE_SWAPS. -/
abbrev Ctr.tileSwaps : Nat × Nat := (0x0607, 8)
/-- WINDOW_SLICES. -/
abbrev Ctr.windowSlices : Nat × Nat := (0x0607, 9)
/-- WINDOW_CLAMPED_SLICES. -/
abbrev Ctr.windowClampedSlices : Nat × Nat := (0x0607, 10)
/-- Rows of table 0x0607. -/
abbrev Ctr.rows0607 : Nat := 11

/-! Table 7.11 (R199). -/
/-- STREAM_BYTES_READ. -/
abbrev Ctr.streamBytesRead : Nat × Nat := (0x070B, 0)
/-- STREAM_BYTES_WRITTEN. -/
abbrev Ctr.streamBytesWritten : Nat × Nat := (0x070B, 1)
/-- STREAM_BATCHES. -/
abbrev Ctr.streamBatches : Nat × Nat := (0x070B, 2)
/-- STREAM_TRANSFERS. -/
abbrev Ctr.streamTransfers : Nat × Nat := (0x070B, 3)
/-- STREAM_WAIT_CC. -/
abbrev Ctr.streamWaitCc : Nat × Nat := (0x070B, 4)
/-- LARDER_WAIT_CC. -/
abbrev Ctr.larderWaitCc : Nat × Nat := (0x070B, 5)
/-- WRITE_WAIT_CC. -/
abbrev Ctr.writeWaitCc : Nat × Nat := (0x070B, 6)
/-- XLATE_MISSES. -/
abbrev Ctr.xlateMisses : Nat × Nat := (0x070B, 7)
/-- STREAM_HALTS. -/
abbrev Ctr.streamHalts : Nat × Nat := (0x070B, 8)
/-- HALT_CC. -/
abbrev Ctr.haltCc : Nat × Nat := (0x070B, 9)
/-- CANCEL_WASTED_BYTES. -/
abbrev Ctr.cancelWastedBytes : Nat × Nat := (0x070B, 10)
/-- ROTATE_STEPS. -/
abbrev Ctr.rotateSteps : Nat × Nat := (0x070B, 11)
/-- ROTATE_LATE_STEPS. -/
abbrev Ctr.rotateLateSteps : Nat × Nat := (0x070B, 12)
/-- ROTATE_READ_WAIT_CC. -/
abbrev Ctr.rotateReadWaitCc : Nat × Nat := (0x070B, 13)
/-- ROTATE_HOLD_CC. -/
abbrev Ctr.rotateHoldCc : Nat × Nat := (0x070B, 14)
/-- ROTATE_REFUSED. -/
abbrev Ctr.rotateRefused : Nat × Nat := (0x070B, 15)
/-- Rows of table 0x070B. -/
abbrev Ctr.rows070B : Nat := 16

/-! Table 8.9 (R232). -/
/-- BWD_DATA_STEPS. -/
abbrev Ctr.bwdDataSteps : Nat × Nat := (0x0809, 0)
/-- BWD_WEIGHT_STEPS. -/
abbrev Ctr.bwdWeightSteps : Nat × Nat := (0x0809, 1)
/-- BWD_UNIT_WAIT_CC. -/
abbrev Ctr.bwdUnitWaitCc : Nat × Nat := (0x0809, 2)
/-- TURN_WAIT_CC. -/
abbrev Ctr.turnWaitCc : Nat × Nat := (0x0809, 3)
/-- ENGINE_OVERLAP_CC. -/
abbrev Ctr.engineOverlapCc : Nat × Nat := (0x0809, 4)
/-- GOV_HOLD_CC. -/
abbrev Ctr.govHoldCc : Nat × Nat := (0x0809, 5)
/-- LOFT_BYTES_WRITTEN. -/
abbrev Ctr.loftBytesWritten : Nat × Nat := (0x0809, 6)
/-- LOFT_BYTES_READ. -/
abbrev Ctr.loftBytesRead : Nat × Nat := (0x0809, 7)
/-- LOFT_WAIT_CC. -/
abbrev Ctr.loftWaitCc : Nat × Nat := (0x0809, 8)
/-- DERIV_LEFT. -/
abbrev Ctr.derivLeft : Nat × Nat := (0x0809, 9)
/-- DERIV_RIGHT. -/
abbrev Ctr.derivRight : Nat × Nat := (0x0809, 10)
/-- ROW_NAN_ROWS. -/
abbrev Ctr.rowNanRows : Nat × Nat := (0x0809, 11)
/-- STORE_ADDS. -/
abbrev Ctr.storeAdds : Nat × Nat := (0x0809, 12)
/-- MASKED_TILES. -/
abbrev Ctr.maskedTiles : Nat × Nat := (0x0809, 13)
/-- MASKED_ROWS. -/
abbrev Ctr.maskedRows : Nat × Nat := (0x0809, 14)
/-- STORE_DISCARDED_SLICES. -/
abbrev Ctr.storeDiscardedSlices : Nat × Nat := (0x0809, 15)
/-- UPDATE_SEGMENTS. -/
abbrev Ctr.updateSegments : Nat × Nat := (0x0809, 16)
/-- UPDATE_SKIPPED_SEGMENTS. -/
abbrev Ctr.updateSkippedSegments : Nat × Nat := (0x0809, 17)
/-- UPDATE_NAN_SEGMENTS. -/
abbrev Ctr.updateNanSegments : Nat × Nat := (0x0809, 18)
/-- Rows of table 0x0809. -/
abbrev Ctr.rows0809 : Nat := 19

/-! Table 9.10 (R269). -/
/-- BEAT_MARKS_USED. -/
abbrev Ctr.beatMarksUsed : Nat × Nat := (0x090A, 0)
/-- BEAT_MARKS_UNUSED. -/
abbrev Ctr.beatMarksUnused : Nat × Nat := (0x090A, 1)
/-- SLEWING_BT. -/
abbrev Ctr.slewingBt : Nat × Nat := (0x090A, 2)
/-- HOLDOVER_ENTRIES. -/
abbrev Ctr.holdoverEntries : Nat × Nat := (0x090A, 3)
/-- HOLDOVER_BT. -/
abbrev Ctr.holdoverBt : Nat × Nat := (0x090A, 4)
/-- IDENTITY_RECORDS. -/
abbrev Ctr.identityRecords : Nat × Nat := (0x090A, 5)
/-- FOREIGN_RECORDS. -/
abbrev Ctr.foreignRecords : Nat × Nat := (0x090A, 6)
/-- VIEW_CHANGES. -/
abbrev Ctr.viewChanges : Nat × Nat := (0x090A, 7)
/-- FENCES. -/
abbrev Ctr.fences : Nat × Nat := (0x090A, 8)
/-- FENCED_DROPS. -/
abbrev Ctr.fencedDrops : Nat × Nat := (0x090A, 9)
/-- TXN_PREPARED. -/
abbrev Ctr.txnPrepared : Nat × Nat := (0x090A, 10)
/-- TXN_ABORTED. -/
abbrev Ctr.txnAborted : Nat × Nat := (0x090A, 11)
/-- Rows of table 0x090A. -/
abbrev Ctr.rows090A : Nat := 12

/-! Table 10.7 (R298). -/
/-- FRAMES_SENT. -/
abbrev Ctr.framesSent : Nat × Nat := (0x0A07, 0)
/-- FRAMES_RECEIVED. -/
abbrev Ctr.framesReceived : Nat × Nat := (0x0A07, 1)
/-- FEC_CORRECTED. -/
abbrev Ctr.fecCorrected : Nat × Nat := (0x0A07, 2)
/-- FEC_UNCORRECTABLE. -/
abbrev Ctr.fecUncorrectable : Nat × Nat := (0x0A07, 3)
/-- CRC_ERRORS. -/
abbrev Ctr.crcErrors : Nat × Nat := (0x0A07, 4)
/-- REPLAYED_FRAMES. -/
abbrev Ctr.replayedFrames : Nat × Nat := (0x0A07, 5)
/-- RETRAINS. -/
abbrev Ctr.retrains : Nat × Nat := (0x0A07, 6)
/-- WIDTH_DROPS. -/
abbrev Ctr.widthDrops : Nat × Nat := (0x0A07, 7)
/-- LINK_DOWNS. -/
abbrev Ctr.linkDowns : Nat × Nat := (0x0A07, 8)
/-- CREDIT_WAIT_CC_0. -/
abbrev Ctr.creditWaitCc0 : Nat × Nat := (0x0A07, 9)
/-- CREDIT_WAIT_CC_1. -/
abbrev Ctr.creditWaitCc1 : Nat × Nat := (0x0A07, 10)
/-- CREDIT_WAIT_CC_2. -/
abbrev Ctr.creditWaitCc2 : Nat × Nat := (0x0A07, 11)
/-- CREDIT_WAIT_CC_3. -/
abbrev Ctr.creditWaitCc3 : Nat × Nat := (0x0A07, 12)
/-- Rows of table 0x0A07. -/
abbrev Ctr.rows0A07 : Nat := 13

/-! Table 10.8 (R299). -/
/-- ROUTE_UNREACHABLE. -/
abbrev Ctr.routeUnreachable : Nat × Nat := (0x0A08, 0)
/-- ADD_ELEMENTS. -/
abbrev Ctr.addElements : Nat × Nat := (0x0A08, 1)
/-- ADD_REFUSED. -/
abbrev Ctr.addRefused : Nat × Nat := (0x0A08, 2)
/-- MCAST_BYTES_SENT. -/
abbrev Ctr.mcastBytesSent : Nat × Nat := (0x0A08, 3)
/-- MCAST_HOLD_BT. -/
abbrev Ctr.mcastHoldBt : Nat × Nat := (0x0A08, 4)
/-- MCAST_DETACHED. -/
abbrev Ctr.mcastDetached : Nat × Nat := (0x0A08, 5)
/-- MCAST_LATE. -/
abbrev Ctr.mcastLate : Nat × Nat := (0x0A08, 6)
/-- MCAST_CATCHUP_BYTES. -/
abbrev Ctr.mcastCatchupBytes : Nat × Nat := (0x0A08, 7)
/-- GRAD_PUSHES. -/
abbrev Ctr.gradPushes : Nat × Nat := (0x0A08, 8)
/-- GRAD_SLICES_REDUCED. -/
abbrev Ctr.gradSlicesReduced : Nat × Nat := (0x0A08, 9)
/-- GRAD_LATE_SLICES. -/
abbrev Ctr.gradLateSlices : Nat × Nat := (0x0A08, 10)
/-- GRAD_LATE_DROPS. -/
abbrev Ctr.gradLateDrops : Nat × Nat := (0x0A08, 11)
/-- GRAD_VIEW_RESENDS. -/
abbrev Ctr.gradViewResends : Nat × Nat := (0x0A08, 12)
/-- Rows of table 0x0A08. -/
abbrev Ctr.rows0A08 : Nat := 13

/-! Table 11.5 (R320). -/
/-- BYTES_READ. -/
abbrev Ctr.bytesRead : Nat × Nat := (0x0B05, 0)
/-- BYTES_WRITTEN. -/
abbrev Ctr.bytesWritten : Nat × Nat := (0x0B05, 1)
/-- RMW_WRITES. -/
abbrev Ctr.rmwWrites : Nat × Nat := (0x0B05, 2)
/-- CORRECTED. -/
abbrev Ctr.corrected : Nat × Nat := (0x0B05, 3)
/-- UNCORRECTABLE. -/
abbrev Ctr.uncorrectable : Nat × Nat := (0x0B05, 4)
/-- POISONED_BURSTS. -/
abbrev Ctr.poisonedBursts : Nat × Nat := (0x0B05, 5)
/-- DEVICE_FAILURES. -/
abbrev Ctr.deviceFailures : Nat × Nat := (0x0B05, 6)
/-- SCRUB_PASSES. -/
abbrev Ctr.scrubPasses : Nat × Nat := (0x0B05, 7)
/-- LINK_RETRIES. -/
abbrev Ctr.linkRetries : Nat × Nat := (0x0B05, 8)
/-- CHANNEL_RETRAINS. -/
abbrev Ctr.channelRetrains : Nat × Nat := (0x0B05, 9)
/-- Rows of table 0x0B05. -/
abbrev Ctr.rows0B05 : Nat := 10

/-! Table 12.10 (R345). -/
/-- TX_BYTES. -/
abbrev Ctr.txBytes : Nat × Nat := (0x0C0A, 0)
/-- RX_BYTES. -/
abbrev Ctr.rxBytes : Nat × Nat := (0x0C0A, 1)
/-- RX_OVERSIZE. -/
abbrev Ctr.rxOversize : Nat × Nat := (0x0C0A, 2)
/-- RX_UNSUPPORTED. -/
abbrev Ctr.rxUnsupported : Nat × Nat := (0x0C0A, 3)
/-- ICRC_ERRORS. -/
abbrev Ctr.icrcErrors : Nat × Nat := (0x0C0A, 4)
/-- RETRANSMITS. -/
abbrev Ctr.retransmits : Nat × Nat := (0x0C0A, 5)
/-- QP_ERRORS. -/
abbrev Ctr.qpErrors : Nat × Nat := (0x0C0A, 6)
/-- PFC_RX_XOFF. -/
abbrev Ctr.pfcRxXoff : Nat × Nat := (0x0C0A, 7)
/-- PFC_TX_XOFF. -/
abbrev Ctr.pfcTxXoff : Nat × Nat := (0x0C0A, 8)
/-- PFC_STORMS. -/
abbrev Ctr.pfcStorms : Nat × Nat := (0x0C0A, 9)
/-- ECN_MARKED. -/
abbrev Ctr.ecnMarked : Nat × Nat := (0x0C0A, 10)
/-- CNP_SENT. -/
abbrev Ctr.cnpSent : Nat × Nat := (0x0C0A, 11)
/-- CNP_RECEIVED. -/
abbrev Ctr.cnpReceived : Nat × Nat := (0x0C0A, 12)
/-- MACSEC_DROPS. -/
abbrev Ctr.macsecDrops : Nat × Nat := (0x0C0A, 13)
/-- PTP_OUTLIERS. -/
abbrev Ctr.ptpOutliers : Nat × Nat := (0x0C0A, 14)
/-- Rows of table 0x0C0A. -/
abbrev Ctr.rows0C0A : Nat := 15

/-! Table 13.13 (R371). -/
/-- ORDERS_TAKEN. -/
abbrev Ctr.ordersTaken : Nat × Nat := (0x0D0D, 0)
/-- ORDERS_REFUSED. -/
abbrev Ctr.ordersRefused : Nat × Nat := (0x0D0D, 1)
/-- MAILBOX_SEQ_FAULTS. -/
abbrev Ctr.mailboxSeqFaults : Nat × Nat := (0x0D0D, 2)
/-- EVENTS_POSTED. -/
abbrev Ctr.eventsPosted : Nat × Nat := (0x0D0D, 3)
/-- TXN_COMMITS. -/
abbrev Ctr.txnCommits : Nat × Nat := (0x0D0D, 4)
/-- LATE_WAITS. -/
abbrev Ctr.lateWaits : Nat × Nat := (0x0D0D, 5)
/-- LATE_LAUNCHES. -/
abbrev Ctr.lateLaunches : Nat × Nat := (0x0D0D, 6)
/-- Rows of table 0x0D0D. -/
abbrev Ctr.rows0D0D : Nat := 7

/-! Table 15.9 (R406). -/
/-- ATTESTS. -/
abbrev Ctr.attests : Nat × Nat := (0x0F09, 0)
/-- INDICES_SPENT. -/
abbrev Ctr.indicesSpent : Nat × Nat := (0x0F09, 1)
/-- SESSIONS_OPENED. -/
abbrev Ctr.sessionsOpened : Nat × Nat := (0x0F09, 2)
/-- SESSION_AUTH_FAILURES. -/
abbrev Ctr.sessionAuthFailures : Nat × Nat := (0x0F09, 3)
/-- FW_UPDATES. -/
abbrev Ctr.fwUpdates : Nat × Nat := (0x0F09, 4)
/-- FW_UPDATE_FAILURES. -/
abbrev Ctr.fwUpdateFailures : Nat × Nat := (0x0F09, 5)
/-- Rows of table 0x0F09. -/
abbrev Ctr.rows0F09 : Nat := 6

/-! Table 16.9 (R433). -/
/-- SHELF_CORRECTED. -/
abbrev Ctr.shelfCorrected : Nat × Nat := (0x1009, 0)
/-- SHELF_POISONED_WORDS. -/
abbrev Ctr.shelfPoisonedWords : Nat × Nat := (0x1009, 1)
/-- CELLAR_CORRECTED. -/
abbrev Ctr.cellarCorrected : Nat × Nat := (0x1009, 2)
/-- BUFFER_CORRECTED. -/
abbrev Ctr.bufferCorrected : Nat × Nat := (0x1009, 3)
/-- XLATE_CORRECTED. -/
abbrev Ctr.xlateCorrected : Nat × Nat := (0x1009, 4)
/-- UNCORRECTABLE_ONCHIP. -/
abbrev Ctr.uncorrectableOnchip : Nat × Nat := (0x1009, 5)
/-- IMION_CORRECTED. -/
abbrev Ctr.imionCorrected : Nat × Nat := (0x1009, 6)
/-- IMION_RESTARTS. -/
abbrev Ctr.imionRestarts : Nat × Nat := (0x1009, 7)
/-- CORES_RETIRED. -/
abbrev Ctr.coresRetired : Nat × Nat := (0x1009, 8)
/-- SHELF_SCRUB_PASSES. -/
abbrev Ctr.shelfScrubPasses : Nat × Nat := (0x1009, 9)
/-- GOV_LIMIT_MS. -/
abbrev Ctr.govLimitMs : Nat × Nat := (0x1009, 10)
/-- THROTTLE_MS. -/
abbrev Ctr.throttleMs : Nat × Nat := (0x1009, 11)
/-- MARGIN_STEPS. -/
abbrev Ctr.marginSteps : Nat × Nat := (0x1009, 12)
/-- MARGIN_TRIPS. -/
abbrev Ctr.marginTrips : Nat × Nat := (0x1009, 13)
/-- MARGIN_DENIED. -/
abbrev Ctr.marginDenied : Nat × Nat := (0x1009, 14)
/-- COFFER_ENTRIES. -/
abbrev Ctr.cofferEntries : Nat × Nat := (0x1009, 15)
/-- COFFER_LOST_ENTRIES. -/
abbrev Ctr.cofferLostEntries : Nat × Nat := (0x1009, 16)
/-- Rows of table 0x1009. -/
abbrev Ctr.rows1009 : Nat := 17

/-! Table 17.9 (R452). -/
/-- RESET_N_FILTERED. -/
abbrev Ctr.resetNFiltered : Nat × Nat := (0x1109, 0)
/-- HALT_N_FILTERED. -/
abbrev Ctr.haltNFiltered : Nat × Nat := (0x1109, 1)
/-- LADDER_IN_FILTERED. -/
abbrev Ctr.ladderInFiltered : Nat × Nat := (0x1109, 2)
/-- LADDER_IN_IGNORED. -/
abbrev Ctr.ladderInIgnored : Nat × Nat := (0x1109, 3)
/-- BEAT_IN_ACCEPTED. -/
abbrev Ctr.beatInAccepted : Nat × Nat := (0x1109, 4)
/-- BEAT_IN_DISCARDS. -/
abbrev Ctr.beatInDiscards : Nat × Nat := (0x1109, 5)
/-- HALT_ASSERTIONS. -/
abbrev Ctr.haltAssertions : Nat × Nat := (0x1109, 6)
/-- Rows of table 0x1109. -/
abbrev Ctr.rows1109 : Nat := 7
/-- FRESH_FILLS (R320). -/
abbrev Ctr.freshFills : Nat × Nat := (0x0B00, 0)
/-- CQ_FULL_WAITS (R345). -/
abbrev Ctr.cqFullWaits : Nat × Nat := (0x0C00, 0)
/-- COMPLETIONS_DROPPED (R345). -/
abbrev Ctr.completionsDropped : Nat × Nat := (0x0C00, 1)
/-- WATCHDOG_CORE_RESETS (R384). -/
abbrev Ctr.watchdogCoreResets : Nat × Nat := (0x0E04, 0)
/-- WATCHDOG_SEGMENT_RESETS (R384). -/
abbrev Ctr.watchdogSegmentResets : Nat × Nat := (0x0E04, 1)

end Sys2Proof.Machine
end

