-- ==== Sys2Proof/Machine/Hash.lean ====
section
/-!
DEFINITION. SHAKE256 (FIPS 202), the CRC-16 of crates (R93) and the CRC-32 of coffer entries and Ethernet frames.
-/

namespace Sys2Proof.Machine

/-- A 64-bit lane rotated left. -/
def laneTurn (v k : Nat) : Nat := (v &&& (2 ^ (64 - k) - 1)) <<< k ||| v >>> (64 - k)

/-- The lane to which rho and pi carry lane x + 5y: that at (y, 2x + 3y). -/
def laneNext (i : Nat) : Nat := i / 5 + 5 * ((2 * (i % 5) + 3 * (i / 5)) % 5)

/-- By lane, how far rho turns it: the walk of laneNext from lane 1 meets the other 24 lanes, the one of step t turning by the
triangular number of t + 1. -/
def laneTurns : List Nat :=
  ((List.range 24).foldl (fun (w : Nat × List Nat) t => (laneNext w.1, w.2.set w.1 ((t + 1) * (t + 2) / 2 % 64)))
    (1, List.replicate 25 0)).2

/-- One step of the shift register that gives iota its bits: polynomial x^8 + x^6 + x^5 + x^4 + 1. -/
def iotaStep (x : Nat) : Nat := if x < 128 then 2 * x else (2 * x) ^^^ 0x171

/-- A round's iota constant from the register's state, seven steps of it giving the bits at 2^j - 1; and the state after it. -/
def iotaBits (x : Nat) : Nat × Nat :=
  (List.range 7).foldl (fun (p : Nat × Nat) j => (iotaStep p.1, p.2 + p.1 % 2 * 2 ^ (2 ^ j - 1))) (x, 0)

/-- The five lanes of row y. -/
def laneRow (a : List Nat) (y : Nat) : List Nat := (a.drop (5 * y)).take 5

/-- theta: every lane takes the parity of the column to its left and, turned by one, of that to its right. -/
def theta (a : List Nat) : List Nat :=
  let par := (List.range 5).foldl (fun p y => List.zipWith (· ^^^ ·) p (laneRow a y)) (List.replicate 5 0)
  let mix := List.zipWith (· ^^^ ·) (par.drop 4 ++ par.take 4) ((par.drop 1 ++ par.take 1).map (laneTurn · 1))
  (List.range 5).flatMap fun y => List.zipWith (· ^^^ ·) (laneRow a y) mix

/-- By place, the lane that laneNext carries to it. -/
def laneFrom : List Nat :=
  (List.range 25).map fun j => ((List.range 25).find? (fun i => laneNext i == j)).getD 0

/-- rho and pi together: every lane turned and carried to its place. -/
def rhoPi (a : List Nat) : List Nat :=
  let b := List.zipWith laneTurn a laneTurns
  laneFrom.map fun i => b.getD i 0

/-- chi on one row: a lane takes the bits of the lane two to its right where the next one has none. -/
def chiRow (r : List Nat) : List Nat :=
  List.zipWith (· ^^^ ·) r (List.zipWith (fun p q => q - (p &&& q)) (r.drop 1 ++ r.take 1) (r.drop 2 ++ r.take 2))

/-- One round on the register's state and 25 lanes. -/
def permRound (w : Nat × List Nat) : Nat × List Nat :=
  let (x, rc) := iotaBits w.1
  let b := rhoPi (theta w.2)
  (x, match (List.range 5).flatMap (fun y => chiRow (laneRow b y)) with
    | l :: r => (l ^^^ rc) :: r
    | [] => [])

/-- The permutation of FIPS 202 on 1,600 bits: 24 rounds. -/
def keccakF (a : List Nat) : List Nat := ((List.range 24).foldl (fun w _ => permRound w) (1, a)).2

/-- The 8-byte lanes of a block, little-endian. -/
def lanesOf : Nat → List Byte → List Nat
  | 0, _ => []
  | n + 1, l => leNat (l.take 8) :: lanesOf n (l.drop 8)

/-- The message cut into blocks of 136 bytes absorbed in turn. -/
def absorb : Nat → List Nat → List Byte → List Nat
  | 0, st, _ => st
  | n + 1, st, l =>
    absorb n (keccakF (List.zipWith (· ^^^ ·) st (lanesOf 17 (l.take 136) ++ List.replicate 8 0))) (l.drop 136)

/-- Output blocks of 136 bytes. -/
def squeeze : Nat → List Nat → List Byte
  | 0, _ => []
  | n + 1, st => (st.take 17).flatMap (leBytes 8) ++ squeeze n (keccakF st)

/-- SHAKE256 of a message, n bytes (R19). -/
def shake256 (m : List Byte) (n : Nat) : List Byte :=
  let blocks := m.length / 136 + 1
  let pad := blocks * 136 - m.length
  let tail : List Byte := if pad = 1 then [0x9F] else 0x1F :: (List.replicate (pad - 2) 0 ++ [0x80])
  (squeeze (cdiv n 136) (absorb blocks (List.replicate 25 0) (m ++ tail))).take n

/-- A checksum over bytes, its value settled at each byte. -/
def crcFold (step : Nat → Byte → Nat) : Nat → List Byte → Nat
  | c, [] => c
  | c, b :: l =>
    match step c b with
    | 0 => crcFold step 0 l
    | k + 1 => crcFold step (k + 1) l

/-- One byte into the CRC-16 of R93: polynomial 0x1021, bit 7 first. -/
def crc16Byte (c : Nat) (b : Byte) : Nat :=
  (List.range 8).foldl (fun c _ => let t := (c <<< 1) % 2 ^ 16; if bit c 15 then t ^^^ 0x1021 else t)
    (c ^^^ (b.toNat <<< 8))

/-- The CRC-16 of R93. -/
def crc16 (l : List Byte) : Nat := crcFold crc16Byte 0xFFFF l

/-- One byte into the reflected CRC-32 with polynomial 0xEDB88320. -/
def crc32Byte (c : Nat) (b : Byte) : Nat :=
  (List.range 8).foldl (fun c _ => if c % 2 = 1 then (c >>> 1) ^^^ 0xEDB88320 else c >>> 1) (c ^^^ b.toNat)

/-- The CRC-32 of IEEE 802.3. -/
def crc32 (l : List Byte) : Nat := crcFold crc32Byte 0xFFFFFFFF l ^^^ 0xFFFFFFFF

end Sys2Proof.Machine
end

