-- ==== Sys2Proof/Machine/Ops.lean ====
section
/-!
DEFINITION. The named operations over the state that many commands share: access to the units by number, counters,
completions and events, the coffer's queue, and what goes out of the package.
-/

namespace Sys2Proof.Machine

/-! Status codes (Table 13.8). -/

/-- E_OK. -/
abbrev eOk : BitVec 8 := 0x00#8
/-- E_PLAN. -/
abbrev ePlan : BitVec 8 := 0x01#8
/-- E_RANGE. -/
abbrev eRange : BitVec 8 := 0x02#8
/-- E_SHAPE_OVER. -/
abbrev eShapeOver : BitVec 8 := 0x03#8
/-- E_CELLAR_CAP. -/
abbrev eCellarCap : BitVec 8 := 0x04#8
/-- E_OVERLAP. -/
abbrev eOverlap : BitVec 8 := 0x05#8
/-- E_STREAM_HALTED. -/
abbrev eStreamHalted : BitVec 8 := 0x06#8
/-- E_CANCELLED. -/
abbrev eCancelled : BitVec 8 := 0x07#8
/-- E_GROUP_VERSION. -/
abbrev eGroupVersion : BitVec 8 := 0x08#8
/-- E_GROUP_CONFIG. -/
abbrev eGroupConfig : BitVec 8 := 0x09#8
/-- E_FENCED. -/
abbrev eFenced : BitVec 8 := 0x0A#8
/-- E_TXN_CONFLICT. -/
abbrev eTxnConflict : BitVec 8 := 0x0B#8
/-- E_AUTH. -/
abbrev eAuth : BitVec 8 := 0x0C#8
/-- E_WATCHDOG. -/
abbrev eWatchdog : BitVec 8 := 0x0D#8
/-- E_DATA_LOST. -/
abbrev eDataLost : BitVec 8 := 0x0E#8
/-- E_LATE. -/
abbrev eLate : BitVec 8 := 0x0F#8

/-! Units by number: an unlisted one is as at reset. -/

namespace State

/-- Core c. -/
def core (s : State) (c : Nat) : Core := (look c s.cores).getD {}
/-- The state with core c replaced. -/
def setCore (s : State) (c : Nat) (v : Core) : State := { s with cores := put c v s.cores }
/-- The state with core c changed. -/
def onCore (s : State) (c : Nat) (f : Core → Core) : State := s.setCore c (f (s.core c))
/-- Mailbox m. -/
def mailbox (s : State) (m : Nat) : Mailbox := (look m s.mailboxes).getD {}
/-- The state with mailbox m replaced. -/
def setMailbox (s : State) (m : Nat) (v : Mailbox) : State := { s with mailboxes := put m v s.mailboxes }
/-- Queue pair q, when the number is in use. -/
def qp (s : State) (q : Nat) : Option Qp := look q s.qps
/-- The state with queue pair q replaced. -/
def setQp (s : State) (q : Nat) (v : Qp) : State := { s with qps := put q v s.qps }
/-- The state with queue pair q changed, when it is in use. -/
def onQp (s : State) (q : Nat) (f : Qp → Qp) : State :=
  match s.qp q with
  | some v => s.setQp q (f v)
  | none => s
/-- Link l. -/
def link (s : State) (l : Nat) : Link := (look l s.links).getD {}
/-- The state with link l replaced. -/
def setLink (s : State) (l : Nat) (v : Link) : State := { s with links := put l v s.links }
/-- The state with link l changed. -/
def onLink (s : State) (l : Nat) (f : Link → Link) : State := s.setLink l (f (s.link l))
/-- DDR channel c. -/
def chan (s : State) (c : Nat) : Chan := (look c s.chans).getD {}
/-- The state with DDR channel c replaced. -/
def setChan (s : State) (c : Nat) (v : Chan) : State := { s with chans := put c v s.chans }
/-- The state with DDR channel c changed. -/
def onChan (s : State) (c : Nat) (f : Chan → Chan) : State := s.setChan c (f (s.chan c))
/-- Sub-port u. -/
def port (s : State) (u : Nat) : SubPort := (look u s.ports).getD {}
/-- The state with sub-port u replaced. -/
def setPort (s : State) (u : Nat) (v : SubPort) : State := { s with ports := put u v s.ports }
/-- The state with sub-port u changed. -/
def onPort (s : State) (u : Nat) (f : SubPort → SubPort) : State := s.setPort u (f (s.port u))
/-- Fabric segment g. -/
def seg (s : State) (g : Nat) : Seg := (look g s.segs).getD {}
/-- The state with fabric segment g replaced. -/
def setSeg (s : State) (g : Nat) (v : Seg) : State := { s with segs := put g v s.segs }
/-- The live tensor of a handle. -/
def tensor (s : State) (h : Nat) : Option Tensor := s.tensors.find? (fun t => t.handle == h)
/-- The state with the tensor of a handle changed. -/
def onTensor (s : State) (h : Nat) (f : Tensor → Tensor) : State :=
  { s with tensors := mapIf (fun t => t.handle == h) f s.tensors }
/-- The run held under a tag: the one not ended when there is one, else the newest whose log is kept. -/
def run (s : State) (t : Nat) : Option Run :=
  match s.runs.find? (fun r => r.tag == t && r.state != 3) with
  | some r => some r
  | none => s.runs.reverse.find? (fun r => r.tag == t)
/-- The run under a tag that has not ended. -/
def live (s : State) (t : Nat) : Option Run := s.runs.find? (fun r => r.tag == t && r.state != 3)
/-- The state with the run of a tag that has not ended changed. -/
def onRun (s : State) (t : Nat) (f : Run → Run) : State :=
  { s with runs := mapIf (fun r => r.tag == t && r.state != 3) f s.runs }

/-- The value of a counter of a unit (R60). -/
def counter (s : State) (k : Nat × Nat) (unit : Nat) : Nat :=
  (look ((k.1 * 65536 + k.2) * 65536 + unit) s.counters).getD 0

/-- A counter of a unit set to a value. -/
def setCounter (s : State) (k : Nat × Nat) (unit v : Nat) : State :=
  { s with counters := put ((k.1 * 65536 + k.2) * 65536 + unit) v s.counters }

/-- A counter of a unit grown by n, saturating at 2^64 - 1 (R60). -/
def bump (s : State) (k : Nat × Nat) (unit n : Nat) : State :=
  if n = 0 then s else s.setCounter k unit (min (s.counter k unit + n) (2 ^ 64 - 1))

/-- Every counter of the tables that a test names set to zero. -/
def zeroTables (s : State) (p : Nat → Bool) : State :=
  { s with counters := s.counters.filter (fun c => !p (c.1 / 2 ^ 32)) }

/-- A counter of one unit set to zero. -/
def zeroCounter (s : State) (k : Nat × Nat) (unit : Nat) : State :=
  { s with counters := erase ((k.1 * 65536 + k.2) * 65536 + unit) s.counters }

/-- Something sent out of the package. -/
def emit (s : State) (o : Out) : State := { s with out := o :: s.out }

/-- The memories changed. -/
def onMem (s : State) (f : Memory → Memory) : State := { s with mem := f s.mem }

/-- The next value of the counter of free values, and the state that has drawn it (log 2). -/
def draw (s : State) : State := { s with free := s.free + 1 }

end State

/-- The main domain has reached READY: in READY, or with Imion halted (R414, R438). -/
def mainUp (s : State) : Bool := s.pins.stage == 4 || s.pins.stage == 10

/-- A live entry of the device: the queue pair is connected and not in the error state (R335). -/
def qpUp (s : State) (q : Nat) : Bool :=
  match s.qp q with
  | some v => v.phase != 3
  | none => false

/-- The epoch an event carries: the view's, or 0 when the device is in no group (Table 13.7). -/
def eventEpoch (s : State) : Nat := if s.group.state = 0 then 0 else s.group.epoch

/-- Which part of the coffer an event goes to (R426): 2 ring, 1 journal. -/
def eventPart (code : Nat) : Nat :=
  if (0x01 ≤ code ∧ code ≤ 0x0D) ∨ (0x30 ≤ code ∧ code ≤ 0x34) ∨ code = 0x46 ∨ code = 0x47 ∨ code = 0x4B ∨ code = 0x4D
  then 2 else 1

/-- A journal or ring entry formed and queued for writing (R425, R428). -/
def cofferAdd (s : State) (kind part : Nat) (payload : List Byte) : State :=
  let e : CofferEntry :=
    { seq := s.coffer.nextSeq, beat := s.beat.number, boot := s.coffer.boot, kind := kind, part := part,
      payload := slice payload 0 36 }
  { s with coffer := { s.coffer with nextSeq := s.coffer.nextSeq + 1, queue := s.coffer.queue ++ [e] } }

/-- A FAULT entry (Table 16.6): class, unit kind, unit, detail. -/
def faultEntry (s : State) (cls kind unit : Nat) (detail : List Byte) : State :=
  cofferAdd s 0x0006 1 (leBytes 1 cls ++ leBytes 1 kind ++ leBytes 2 unit ++ slice detail 0 32)

/-- A completion handed to a queue pair: it joins the waiting ones, or is dropped when the queue pair has failed
(R333, R335). -/
def deliver (s : State) (q : Nat) (c : Completion) : State :=
  if qpUp s q then s.onQp q (fun v => { v with waiting := v.waiting ++ [c] })
  else s.bump Ctr.completionsDropped q 1

/-- An event completion handed to every queue pair that takes events (R334). -/
def deliverEvent (s : State) (c : Completion) : State :=
  s.qps.foldl (fun s p => if p.2.events && p.2.phase != 3 then (deliver s p.1 c).bump Ctr.eventsPosted 0 1 else s) s

/-- An event posted (R334, R357, Table 13.7): to the queue pairs and to the coffer. During an Imion restart it falls due
at its end (R414). -/
def postEvent (s : State) (code : Nat) (detail : List Byte) : State :=
  let c : Completion :=
    { kind := 2, code := code, mailbox := 0xFF, beat := s.beat.number,
      detail := leBytes 4 (eventEpoch s) ++ slice detail 0 36 }
  let s := cofferAdd s (0x0100 + code) (eventPart code) detail
  if s.health.imionStopped then { s with health := { s.health with fellDue := s.health.fellDue ++ [c] } }
  else deliverEvent s c

/-- The items of an event's detail field, each in four little-endian bytes in the order its table lists them (log 8). -/
def items (l : List Nat) : List Byte := l.flatMap (leBytes 4)

/-- The order of a mailbox and number that is taken and not completed. -/
def State.order (s : State) (m n : Nat) : Option Order :=
  s.orders.find? (fun o => o.mailbox == m && o.number == n)

/-- The order was ended by a CLOSE_SESSION that is not yet complete: its completion is held (R401). -/
def held (s : State) (o : Order) : Bool := s.trust.closeStatus.any (fun x => x.1 == o.mailbox && x.2.1 == o.number)

/-- What a final completion counts: ORDERS_REFUSED (R371); SESSION_AUTH_FAILURES, FW_UPDATES and FW_UPDATE_FAILURES
(R406). -/
def countEnd (s : State) (code : Nat) (st : BitVec 8) : State :=
  let s := if st = eOk ∨ st = eCancelled ∨ st = eLate then s else s.bump Ctr.ordersRefused 0 1
  let s := if code = 0x0F ∧ st = eAuth then s.bump Ctr.sessionAuthFailures 0 1 else s
  if code = 0x14 then s.bump (if st = eOk then Ctr.fwUpdates else Ctr.fwUpdateFailures) 0 1 else s

/-- The final completion of an order (R357): its copy is given up, and the record joins its queue pair's ring. -/
def complete (s : State) (o : Order) (st : BitVec 8) (detail : List Byte) : State :=
  if held s o then s
  else
    let c : Completion :=
      { tag := field o.bytes 8 8, number := o.number, kind := 0, code := field o.bytes 4 1, status := st,
        mailbox := o.mailbox, beat := s.beat.number, detail := slice detail 0 40 }
    let s := { s with orders := s.orders.filter (fun x => !(x.mailbox == o.mailbox && x.number == o.number)) }
    deliver (countEnd s (field o.bytes 4 1) st) o.qp c

/-- The detail of a refusal by a check (Table 13.7). -/
def checkDetail (letter check index : Nat) : List Byte :=
  leBytes 1 letter ++ leBytes 1 check ++ leBytes 2 0 ++ leBytes 4 index

/-- An order ended by a check: its status and the check's letter and number. -/
def refuse (s : State) (o : Order) (st : BitVec 8) (letter check index : Nat) : State :=
  complete s o st (checkDetail letter check index)

/-- The detail of an order with a result: bytes written and bytes needed (Table 13.7). -/
def resultDetail (written needed : Nat) : List Byte := leBytes 4 written ++ leBytes 4 needed

/-- A committed configuration value; the empty list stands for the reset value of a slot key. -/
def keyVal (s : State) (k : Nat) : Option (List Byte) := look k s.keys

/-- A committed configuration value as a number, with its reset value (Table 13.11). -/
def keyNat (s : State) (k reset : Nat) : Nat :=
  match keyVal s k with
  | some v => leNat v
  | none => reset

/-- Cycles of one beat: 2^BEAT_LOG2 cc (R243). -/
def beatLen (s : State) : Nat := 2 ^ keyNat s 0x0001 10

/-! RoCE messages (R325, R326, R339). -/

/-- The committed sub-port record (Table 17.7). -/
def portRec (s : State) (u : Nat) : List Byte := s.pins.subports.getD u []

/-- Flags of the committed record: bit 0 MAC_VALID, bit 1 V4_VALID, bit 2 V6_VALID. -/
def portFlags (s : State) (u : Nat) : Nat := field (portRec s u) 0x1C 1

/-- Bytes of one RoCE packet on the wire, FCS included (R325, R341, R345): Ethernet, VLAN tag, IP, UDP, BTH, an extended
header, payload, ICRC, FCS, and with MACsec SecTAG, SCI and ICV. A sub-port with both addresses is taken to use IPv4
(log 63). -/
def roceFrame (s : State) (u payload ext : Nat) : Nat :=
  14 + (if bit (field (portRec s u) 6 2) 15 then 4 else 0) + (if bit (portFlags s u) 1 then 20 else 40) + 8 + 12 + ext
    + roundUp payload 4 + 4 + 4 + (if keyNat s (0x0520 + u) 0 = 1 then 32 else 0)

/-- Payload bytes of a message (an RDMA WRITE WITH IMMEDIATE holds its immediate value in its first four bytes). -/
def msgLen (o : Out) : Nat :=
  match o.kind with
  | 0 => o.data.length
  | 2 => o.data.length
  | 14 => o.data.length - 4
  | _ => 0

/-- Packet numbers that a request takes: its own packets, or those of an RDMA READ's response. -/
def msgPackets (mtu : Nat) (o : Out) : Nat :=
  max 1 (cdiv (if o.kind = 1 then field o.data 0 4 else msgLen o) mtu)

/-- Bytes of frames by which a message leaves, without the packets it need not send again; its first packet has an address,
a key and a length. -/
def msgBytes (s : State) (v : Qp) (o : Out) : Nat :=
  let u := v.subport
  let body := (max 1 (cdiv (msgLen o) v.mtu) - o.skip) * roceFrame s u 0 0 + roundUp (msgLen o - o.skip * v.mtu) 4
  let reth := if o.skip = 0 then 16 else 0
  match o.kind with
  | 0 => body + reth
  | 1 => roceFrame s u 0 16
  | 2 => body
  | 14 => body + reth + 4
  | 10 => roceFrame s u 16 0
  | _ => roceFrame s u 0 4

/-- The sub-port's RoCE priority is paused (R339). -/
def paused (s : State) (u : Nat) : Bool := (s.port u).pausedSince.isSome && decide (s.now < (s.port u).pausedUntil)

/-- A sub-port that requires MACsec and has no SAK yet: it carries MKA frames and nothing else (R341). -/
def noSak (s : State) (u : Nat) : Bool := keyNat s (0x0520 + u) 0 == 1 && (s.port u).sak.isNone

/-- A message leaves through its queue pair's sub-port: not at all while that is down or has no SAK (R341), and later while
it is paused. -/
def txMsg (s : State) (q : Nat) (o : Out) : State :=
  match s.qp q with
  | none => s
  | some v =>
    let u := v.subport
    if !(s.port u).up ∨ noSak s u then s
    else if paused s u then s.onPort u (fun p => { p with held := p.held ++ [o] })
    else (s.emit o).bump Ctr.txBytes u (msgBytes s v o)

/-- Requests wait behind 16 outstanding RDMA READs (Table 12.3). -/
def mayRequest (v : Qp) (o : Out) : Bool := o.kind != 1 || decide ((v.unacked.filter (fun x => x.2.2.kind == 1)).length < 16)

/-- Waiting requests of a queue pair sent in order (R325, R326). -/
def pumpQp : Nat → State → Nat → State
  | 0, s, _ => s
  | f + 1, s, q =>
    match s.qp q with
    | none => s
    | some v =>
      match v.sendQ with
      | [] => s
      | o :: rest =>
        if !mayRequest v o then s
        else
          let n := msgPackets v.mtu o
          let s := s.setQp q { v with
            sendQ := rest, npsn := (v.npsn + n) % 2 ^ 24, unacked := v.unacked ++ [(v.npsn, n, o)]
            sentAt := if v.unacked.isEmpty then s.now else v.sentAt }
          pumpQp f (txMsg s q o) q

/-- A request message of a queue pair: it is sent as soon as it may be, and kept until it is acknowledged (R326). -/
def roce (s : State) (q : Nat) (o : Out) : State :=
  match s.qp q with
  | none => s
  | some v =>
    if v.phase = 3 then s else pumpQp (v.sendQ.length + 1) (s.setQp q { v with sendQ := v.sendQ ++ [o] }) q

/-- An order with a result (R356): the result is sent by RDMA WRITE into its range before the completion. The host
region of the order grants it (O3). -/
def sendResult (s : State) (o : Order) (d : List Byte) : State :=
  match s.qp o.qp with
  | some q =>
    let r := q.regions.getD (field o.bytes 0x18 1) {}
    if d.isEmpty then s
    else roce s o.qp { kind := 0, dest := o.qp, addr := r.addr + field o.bytes 0x20 8, rkey := r.rkey, data := d }
  | none => s

/-- The mode and number of an arbiter's instance as one key. -/
def arbKey (cls inst : Nat) : Nat := cls * 2 ^ 20 + inst

end Sys2Proof.Machine
end

