-- ==== Sys2Proof/Machine/Layout.lean ====
section
/-!
DEFINITION. Where a tensor's elements lie: footprints (R16), the interleaves IL-A, IL-B and IL-C (R150 to R156), crate
slots (R157), distributed tensors (R158) and the assignment of tiles to team positions (R31).
-/

namespace Sys2Proof.Machine

/-- Bytes of a shelf (R147). -/
abbrev shelfBytes : Nat := 12582912

/-- The share of team position p of T units over S positions (R31): first unit and count. -/
def share (t s p : Nat) : Nat × Nat :=
  let q := t / s
  let r := t % s
  (p * q + min p r, if p < r then q + 1 else q)

/-- The units of team position p of T over S positions, in order (R31). -/
def shareList (t s p : Nat) : List Nat := let (a, n) := share t s p; (List.range n).map (a + ·)

/-- The team position that holds unit u of T over S positions (R31). -/
def holderOf (t s u : Nat) : Nat :=
  let q := t / s
  let r := t % s
  if u < r * (q + 1) then u / (q + 1) else if q = 0 then 0 else r + (u - r * (q + 1)) / q

/-- Extent i of a list of extents, 1 at or above the rank. -/
def ext (rank : Nat) (l : List Nat) (i : Nat) : Nat := if i < rank then l.getD i 0 else 1

/-- Plan bound i, 1 at or above the rank. -/
def Desc.bnd (d : Desc) (i : Nat) : Nat := ext d.rank d.bound i

/-- Product of the extents of dimensions 2 to 5. -/
def planesOf (rank : Nat) (l : List Nat) : Nat := ext rank l 2 * ext rank l 3 * ext rank l 4 * ext rank l 5

/-- Linear index over dimensions 2 to 5 of coordinates, over the given extents (R152). -/
def planeIdx (rank : Nat) (l x : List Nat) : Nat :=
  let c := fun i => if i < rank then x.getD i 0 else 0
  c 2 + ext rank l 2 * (c 3 + ext rank l 3 * (c 4 + ext rank l 4 * c 5))

/-- Coordinates 2 to 5 of a plane index over the given extents. -/
def planeCoords (rank : Nat) (l : List Nat) (p : Nat) : List Nat :=
  let a := ext rank l 2
  let b := ext rank l 3
  let c := ext rank l 4
  [p % max a 1, p / max a 1 % max b 1, p / max (a * b) 1 % max c 1, p / max (a * b * c) 1]

/-- Dense payload length P_D of a format (Table 4.3). -/
def densePayload (f : Nat) : Nat := fmtBits f * 512 + (if fmtMx f then 128 else 0)

/-- Slot size of a crated tensor (R89). -/
def slotSize (f : Nat) : Nat := 32 + densePayload f

/-- Bytes of an interleave block of depth db (Table 6.4). -/
def blockBytes (f db : Nat) : Nat := 8 * db * fmtBits f + (if fmtMx f || f == 0x0B then 2 * db else 0)

/-- Depth d of an interleave block (R150). -/
def blockDepth (f : Nat) : Nat := 512 / fmtBits f

/-- Bytes of a strip of `pr` positions (R152). -/
def stripBytes (f pr : Nat) : Nat :=
  let d := blockDepth f
  pr / d * blockBytes f d + (if pr % d = 0 then 0 else blockBytes f (pr % d))

/-- The dimension along which positions run (Table 4.1). -/
def Desc.posDim (d : Desc) : Nat := if d.layout = 2 then 1 else 0

/-- The dimension along which lanes run (Table 4.1). -/
def Desc.laneDim (d : Desc) : Nat := if d.layout = 2 then 0 else 1

/-- Tile rows over the plan bounds of dimension 1. -/
def Desc.trows (d : Desc) : Nat := cdiv (d.bnd 1) 64

/-- Tile columns over the plan bounds of dimension 0. -/
def Desc.tcols (d : Desc) : Nat := cdiv (d.bnd 0) 64

/-- Planes over the plan bounds. -/
def Desc.planes (d : Desc) : Nat := planesOf d.rank d.bound

/-- Stored as plain row-major elements. -/
def Desc.isRm (d : Desc) : Bool := d.form == 0 && d.layout == 0

/-- Split over the team (R158); a RAW RM tensor is held whole. -/
def Desc.split (d : Desc) : Bool := d.placement == 0 && bit d.flags 0 && !d.isRm

/-- Bytes of one unit of a distributed tensor (R158), or of one tile row or tile column of any other tiled tensor. -/
def Desc.unitBytes (d : Desc) : Nat :=
  if d.form ≠ 0 then (if d.layout = 2 then d.trows else d.tcols) * slotSize d.format
  else if d.layout = 3 then d.tcols * (512 * fmtBits d.format)
  else stripBytes d.format (roundUp (d.bnd d.posDim) 64)

/-- Units per plane (R158): tile rows, or tile columns in IL-B. -/
def Desc.unitsPerPlane (d : Desc) : Nat := if d.layout = 2 then d.tcols else d.trows

/-- Bytes of one tile of a tiled tensor as stored (Tables 4.3, 6.4). -/
def Desc.tileBytes (d : Desc) : Nat := if d.form ≠ 0 then slotSize d.format else densePayload d.format

/-- Units of the tensor (R158). -/
def Desc.units (d : Desc) : Nat := d.planes * d.unitsPerPlane

/-- Bytes of the scale array of a RAW RM tensor of an MX format (R16). -/
def Desc.scaleArray (d : Desc) : Nat :=
  cdiv (d.bnd 0) 32 * (d.bnd 1 * d.planes)

/-- The element index of the last element of a RAW RM tensor over some extents (R16). -/
def Desc.lastIndex (d : Desc) (e : List Nat) : Nat :=
  (List.range d.rank).foldl (fun a i => a + (e.getD i 0 - 1) * d.stride.getD i 0) 0

/-- The footprint for a team of S positions (R16, R158). -/
def Desc.footprint (d : Desc) (team : Nat) : Nat :=
  if d.placement = 2 then 16384 * cdiv (d.planes * d.trows * d.tcols) team
  else if d.isRm then
    let span := cdiv ((d.lastIndex d.bound + 1) * fmtBits d.format) 8
    if fmtMx d.format then max span (d.scaleOffset + d.scaleArray) else span
  else if d.split then cdiv d.units team * d.unitBytes
  else d.units * d.unitBytes

/-- Where a byte of a tensor lies: a shelf, the tensor address space or a cellar, with a bit offset for elements
narrower than a byte. -/
structure Loc where
  /-- 0 shelf, 1 tensor address space, 2 cellar. -/
  space : Nat := 0
  /-- Core of a shelf or cellar. -/
  core : Nat := 0
  /-- Shelf offset, tensor address or cellar byte address. -/
  addr : Nat := 0
  /-- Bit within the byte. -/
  bit : Nat := 0
  deriving DecidableEq, Repr, Inhabited

/-- How one team position sees one operand of a macro-instruction. -/
structure View where
  /-- The descriptor, a SHELF loft tensor's base moved into the loft (R211). -/
  d : Desc := {}
  /-- Current extents (R27). -/
  e : List Nat := []
  /-- Cores of the team. -/
  team : List Nat := []
  /-- The team position. -/
  pos : Nat := 0
  /-- Run tag. -/
  tag : Nat := 0
  /-- Macro-instruction index. -/
  mi : Nat := 0
  /-- Operand: 0 A, 1 B, 2 C, 3 D. -/
  op : Nat := 0
  /-- The macro-instruction enumerates tiles column-major. -/
  col : Bool := false
  /-- It is a loft tensor (R211). -/
  loft : Bool := false
  /-- Of a CELLAR preload, the place of the output tile among those assigned to the position (R73). -/
  own : Option Nat := none
  deriving DecidableEq, Repr, Inhabited

namespace View

/-- The core of a team position. -/
def coreAt (v : View) (p : Nat) : Nat := v.team.getD p 0

/-- The position's own core. -/
def core (v : View) : Nat := v.coreAt v.pos

/-- Current extent of dimension i. -/
def ex (v : View) (i : Nat) : Nat := ext v.d.rank v.e i

/-- Coordinates lie within the current extents. -/
def inside (v : View) (x : List Nat) : Bool :=
  (List.range 6).all (fun i => if i < v.d.rank then decide (x.getD i 0 < v.ex i) else x.getD i 0 == 0)

/-- Tile rows, tile columns and planes over the current extents. -/
def trows (v : View) : Nat := cdiv (v.ex 1) 64
/-- See trows. -/
def tcols (v : View) : Nat := cdiv (v.ex 0) 64
/-- See trows. -/
def planes (v : View) : Nat := planesOf v.d.rank v.e

/-- A tile's place in the enumeration of tiles over the current extents (R31): planes outermost. -/
def tileIdx (v : View) (plane trow tcol : Nat) : Nat :=
  plane * (v.trows * v.tcols) + (if v.col then tcol * v.trows + trow else trow * v.tcols + tcol)

/-- The location of a tile's base in a cellar (R73): the instance of the position the tile is assigned to, or of a preload
the place among the position's own tiles. -/
def cellarTile (v : View) (plane trow tcol : Nat) : Nat × Nat :=
  match v.own with
  | some i => (v.core, v.d.base + i)
  | none =>
    let t := v.planes * v.trows * v.tcols
    let k := v.tileIdx plane trow tcol
    let p := holderOf t v.team.length k
    (v.coreAt p, v.d.base + (k - (share t v.team.length p).1))

/-- The unit of a tile, its holder's core and its start (R158, R73). -/
def unitBase (v : View) (plane u : Nat) : Nat × Nat :=
  let k := plane * v.d.unitsPerPlane + u
  if v.d.split then
    let p := holderOf v.d.units v.team.length k
    (v.coreAt p, v.d.base + (k - (share v.d.units v.team.length p).1) * v.d.unitBytes)
  else (v.core, v.d.base + k * v.d.unitBytes)

/-- The space of the tensor's placement. -/
def space (v : View) : Nat := v.d.placement

/-- The slot of a crate (R157). -/
def slot (v : View) (plane trow tcol : Nat) : Loc :=
  let (c, b) := v.unitBase plane (if v.d.layout = 2 then tcol else trow)
  { space := v.space, core := c, addr := b + (if v.d.layout = 2 then trow else tcol) * slotSize v.d.format }

/-- The location of an element of a RAW tensor (R14, R150 to R156, R61). -/
def elem (v : View) (x : List Nat) : Loc :=
  let w := fmtBits v.d.format
  let x0 := x.getD 0 0
  let x1 := if 1 < v.d.rank then x.getD 1 0 else 0
  let pl := planeIdx v.d.rank v.d.bound x
  if v.d.placement = 2 then
    let (c, t) := v.cellarTile (planeIdx v.d.rank v.e x) (x1 / 64) (x0 / 64)
    { space := 2, core := c, addr := t * 16384 + x1 % 64 * 256 + x0 % 64 * 4 }
  else if v.d.layout = 0 then
    let k := (List.range v.d.rank).foldl (fun a i => a + x.getD i 0 * v.d.stride.getD i 0) 0
    { space := v.space, core := v.core, addr := v.d.base + k * w / 8, bit := k * w % 8 }
  else if v.d.layout = 3 then
    let (c, b) := v.unitBase pl (x1 / 64)
    let k := 64 * (x1 % 64) + x0 % 64
    { space := v.space, core := c, addr := b + x0 / 64 * (512 * w) + k * w / 8, bit := k * w % 8 }
  else
    let lane := if v.d.layout = 2 then x0 else x1
    let p := if v.d.layout = 2 then x1 else x0
    let pr := roundUp (v.d.bnd v.d.posDim) 64
    let d := blockDepth v.d.format
    let db := min d (pr - p / d * d)
    let (c, b) := v.unitBase pl (lane / 64)
    let k := db * (lane % 64) + p % d
    { space := v.space, core := c, addr := b + p / d * blockBytes v.d.format d + k * w / 8, bit := k * w % 8 }

/-- The location of an element's block scale in a RAW tensor (R38, R151): its scale byte, or the sketch's FP16 scale. -/
def scaleLoc (v : View) (x : List Nat) : Loc :=
  let w := fmtBits v.d.format
  let x0 := x.getD 0 0
  let x1 := if 1 < v.d.rank then x.getD 1 0 else 0
  let pl := planeIdx v.d.rank v.d.bound x
  if v.d.layout = 0 then
    { space := v.space, core := v.core,
      addr := v.d.base + v.d.scaleOffset + x0 / 32 + cdiv (v.d.bnd 0) 32 * (x1 + v.d.bnd 1 * pl) }
  else
    let lane := if v.d.layout = 2 then x0 else x1
    let p := if v.d.layout = 2 then x1 else x0
    let pr := roundUp (v.d.bnd v.d.posDim) 64
    let d := blockDepth v.d.format
    let db := min d (pr - p / d * d)
    let (c, b) := v.unitBase pl (lane / 64)
    let k := db / 32 * (lane % 64) + (if v.d.format = 0x0B then 2 * (p % d / 64) else p % d / 32)
    { space := v.space, core := c, addr := b + p / d * blockBytes v.d.format d + 8 * db * w + k }

/-- The coordinates of element (row, column) of a tile of a plane given by coordinates 2 to 5. -/
def coords (trow tcol : Nat) (hi : List Nat) (r c : Nat) : List Nat := [64 * tcol + c, 64 * trow + r] ++ hi

/-- Rows of a tile within the current extents. -/
def rowsIn (v : View) (trow : Nat) : Nat := min 64 (v.ex 1 - 64 * trow)
/-- Columns of a tile within the current extents. -/
def colsIn (v : View) (tcol : Nat) : Nat := min 64 (v.ex 0 - 64 * tcol)

/-- Element n of the tensor's sequence within its current extents, dimension 0 fastest (R169). -/
def seqCoord (v : View) (n : Nat) : List Nat :=
  ((List.range v.d.rank).foldl (fun (a : Nat × List Nat) i =>
    (a.1 / max (v.ex i) 1, a.2 ++ [a.1 % max (v.ex i) 1])) (n, [])).2

/-- How many elements the current extents hold. -/
def count (v : View) : Nat := (List.range v.d.rank).foldl (fun a i => a * v.ex i) 1

end View

end Sys2Proof.Machine
end

