-- ==== Sys2Proof/Machine/Crate.lean ====
section
/-!
DEFINITION. Crates: packing a tile into a form (R94 to R99, R102), and opening one under the checks X1 to X7 (R100).
-/

namespace Sys2Proof.Machine

/-- x rounded up to a multiple of 32 (R97). -/
def pad32 (x : Nat) : Nat := roundUp x 32

/-- Zero bytes appended up to a length. -/
def padTo (n : Nat) (l : List Byte) : List Byte := l ++ List.replicate (n - l.length) 0

/-- A section padded to a multiple of 32 bytes (R94). -/
def section32 (l : List Byte) : List Byte := padTo (pad32 l.length) l

/-- Elements of w bits packed from bit 0 upward, eight at a time (R37). -/
def packAux (w : Nat) : Nat → List Nat → List Byte
  | 0, _ => []
  | k + 1, l => leBytes w ((l.take 8).foldr (fun c a => c % 2 ^ w + 2 ^ w * a) 0) ++ packAux w k (l.drop 8)

/-- Elements of w bits packed from bit 0 upward into as few bytes as hold them (R37). -/
def packElems (w : Nat) (l : List Nat) : List Byte := (packAux w (cdiv l.length 8) l).take (cdiv (l.length * w) 8)

/-- Element i of w bits in packed bytes (R37). -/
def elemOf (w : Nat) (b : List Byte) (i : Nat) : Nat :=
  bits (field b (i * w / 8) (max 1 (w / 8))) (if w < 8 then i * w % 8 else 0) w

/-- Elements lo to lo + n - 1 of w bits in packed bytes. -/
def unpackElems (w : Nat) (b : List Byte) (n : Nat) : List Nat := (List.range n).map (elemOf w b)

/-- A crate opened: header fields, element codes lane by lane, scale bytes (two per lane), and the codes of its S24
groups lane by lane. -/
structure Crate where
  /-- Form as stored. -/
  form : Nat := 1
  /-- Format. -/
  format : Nat := 0
  /-- Signed exponent applied to the stored values. -/
  adj : Nat := 0
  /-- Header flags. -/
  flags : Nat := 0
  /-- Payload length. -/
  len : Nat := 0
  /-- Nonzero elements in extent. -/
  nnz : Nat := 0
  /-- Lanes in extent. -/
  lanes : Nat := 0
  /-- Positions in extent. -/
  positions : Nat := 0
  /-- Codes by 64 × lane + position. -/
  codes : List Nat := []
  /-- Scale bytes by 2 × lane + block. -/
  scales : List Nat := []
  /-- S24 group codes by 16 × lane + group. -/
  groups : List Nat := []
  deriving DecidableEq, Repr, Inhabited

/-- An element is zero (R92). -/
def codeZero (f c s : Nat) : Bool :=
  if fmtMx f && s == 0xFF then false else (decElem f c).isZero

/-- Kept positions of an S24 code (Table 4.4). -/
def s24Pair : Nat → Nat × Nat
  | 0 => (0, 1)
  | 1 => (0, 2)
  | 2 => (0, 3)
  | 3 => (1, 2)
  | 4 => (1, 3)
  | _ => (2, 3)

/-- The S24 code of a pair of positions. -/
def s24Code (i j : Nat) : Nat :=
  match i, j with
  | 0, 1 => 0
  | 0, 2 => 1
  | 0, 3 => 2
  | 1, 2 => 3
  | 1, 3 => 4
  | _, _ => 5

/-- The pair a group keeps (R96): its nonzero positions, made up with its lowest zero positions; none when it holds
three or four nonzero elements. -/
def s24Keep (nz : List Bool) : Option (Nat × Nat) :=
  let n := below 4 (fun i => nz.getD i false)
  let z := below 4 (fun i => !nz.getD i false)
  match n with
  | [] => some (0, 1)
  | [a] => let b := z.headD 0; some (min a b, max a b)
  | [a, b] => some (a, b)
  | _ => none

/-- Scale section of an MX format: byte 2l + b (R94). -/
def scaleSection (f : Nat) (scales : List Nat) : List Byte :=
  if fmtMx f then scales.map (BitVec.ofNat 8) else []

/-- Payload length of a form with nnz nonzero elements (R95 to R98). -/
def payloadLen (form f nnz : Nat) : Nat :=
  let w := fmtBits f
  let sc := if fmtMx f then 128 else 0
  match form with
  | 1 => densePayload f
  | 2 => 256 * w + 512 + sc
  | 3 => 512 + pad32 (cdiv (nnz * w) 8) + sc
  | 4 => pad32 (2 * nnz) + pad32 (cdiv (nnz * w) 8) + sc
  | _ => 0

/-- Places (64 × lane + position) of the nonzero elements in extent, ascending. -/
def nzPlaces (f : Nat) (codes scales : List Nat) (lanes positions : Nat) : List Nat :=
  below 4096 (fun k => decide (k / 64 < lanes) && decide (k % 64 < positions) &&
    !codeZero f (codes.getD k 0) (scales.getD (k / 32) 0))

/-- The payload of a form (R95 to R98), none when S24 is not feasible. -/
def payload (form f : Nat) (codes scales nz : List Nat) : Option (List Byte) :=
  let w := fmtBits f
  let sc := scaleSection f scales
  match form with
  | 1 => some (packElems w codes ++ sc)
  | 2 =>
    let keep := (List.range 1024).map fun g => s24Keep ((List.range 4).map fun i => nz.contains (4 * g + i))
    if keep.any (fun k => k.isNone) then none
    else
      let ps := keep.map (fun k => k.getD (0, 1))
      let vals := ((List.range 1024).zip ps).flatMap fun g =>
        [codes.getD (4 * g.1 + g.2.1) 0, codes.getD (4 * g.1 + g.2.2) 0]
      some (packElems w vals ++ packElems 4 (ps.map fun p => s24Code p.1 p.2) ++ sc)
  | 3 =>
    let masks := (List.range 64).map fun l => bitsMask (below 64 (fun p => nz.contains (64 * l + p)))
    some (masks.flatMap (leBytes 8) ++ section32 (packElems w (nz.map fun k => codes.getD k 0)) ++ sc)
  | 4 => some (section32 (nz.flatMap (leBytes 2)) ++ section32 (packElems w (nz.map fun k => codes.getD k 0)) ++ sc)
  | _ => none

/-- A tile packed into one crate (R91, R102, R103): the named form, or form D when it is not feasible or longer. The
codes of out-of-extent elements are zero. The second component: it fell back. -/
def packCrate (form f adj lanes positions tile plane : Nat) (codes scales : List Nat) : List Byte × Bool :=
  let nz := nzPlaces f codes scales lanes positions
  let named := match payload form f codes scales nz with
    | some p => if payloadLen form f nz.length ≤ densePayload f then some p else none
    | none => none
  let fell := named.isNone
  let p := named.getD ((payload 1 f codes scales nz).getD [])
  let h := leBytes 1 (if fell then 1 else form) ++ leBytes 1 f ++ leBytes 1 adj ++ leBytes 1 (b2n fell) ++
    leBytes 4 p.length ++ leBytes 2 nz.length ++ leBytes 2 (crc16 p) ++ leBytes 1 lanes ++ leBytes 1 positions ++
    leBytes 2 0 ++ leBytes 4 tile ++ leBytes 4 plane ++ leBytes 8 0
  (h ++ p, fell)

/-- Codes placed at places of a tile, zero elsewhere. -/
def scatterCodes (places codes : List Nat) : List Nat :=
  let m := places.zip codes
  (List.range 4096).map fun k => (look k m).getD 0

/-- A crate opened: its codes, scales and groups, checks aside. -/
def openPayload (form f nnz : Nat) (p : List Byte) : List Nat × List Nat × List Nat × List Nat :=
  let w := fmtBits f
  let scAt := fun (o : Nat) => if fmtMx f then (slice p o 128).map (·.toNat) else []
  match form with
  | 1 => (unpackElems w p 4096, scAt (512 * w), [], [])
  | 2 =>
    let vals := unpackElems w p 2048
    let gs := unpackElems 4 (p.drop (256 * w)) 1024
    let codes := (List.range 4096).map fun k =>
      let (i, j) := s24Pair (gs.getD (k / 4) 0)
      if k % 4 = i then vals.getD (2 * (k / 4)) 0 else if k % 4 = j then vals.getD (2 * (k / 4) + 1) 0 else 0
    (codes, scAt (256 * w + 512), gs, [])
  | 3 =>
    let ps := below 4096 (fun k => bit (field p (8 * (k / 64)) 8) (k % 64))
    (scatterCodes ps (unpackElems w (p.drop 512) ps.length), scAt (512 + pad32 (cdiv (nnz * w) 8)), [], ps)
  | 4 =>
    let ps := (List.range nnz).map fun i => field p (2 * i) 2
    (scatterCodes ps (unpackElems w (p.drop (pad32 (2 * nnz))) nnz),
      scAt (pad32 (2 * nnz) + pad32 (cdiv (nnz * w) 8)), [], ps)
  | _ => ([], [], [], [])

/-- Numbers strictly ascending. -/
def ascending : List Nat → Bool
  | a :: b :: r => decide (a < b) && ascending (b :: r)
  | _ => true

/-- A crate's header passes the checks of R100 that need no payload. -/
def crateHead (form f tile plane : Nat) (h : List Byte) : Bool :=
  let hf := field h 0 1
  let len := field h 4 4
  let nnz := field h 8 2
  let lanes := field h 0x0C 1
  let positions := field h 0x0D 1
  !decide ((hf ≠ form ∧ hf ≠ 1) ∨ field h 1 1 ≠ f ∨ nnz > 4096 ∨ len ≠ payloadLen hf f nnz ∨ len > densePayload f
      ∨ lanes = 0 ∨ lanes > 64 ∨ positions = 0 ∨ positions > 64 ∨ field h 0x10 4 ≠ tile ∨ field h 0x14 4 ≠ plane)

/-- A crate opened under the checks X1 to X7 (R100): none when it fails one. -/
def openCrate (form f tile plane : Nat) (h p : List Byte) : Option Crate :=
  let hf := field h 0 1
  let len := field h 4 4
  let nnz := field h 8 2
  let lanes := field h 0x0C 1
  let positions := field h 0x0D 1
  if !crateHead form f tile plane h then none
  else
    let p := slice p 0 len
    let (codes, scales, groups, places) := openPayload hf f nnz p
    let inExt := fun (k : Nat) => decide (k / 64 < lanes) && decide (k % 64 < positions)
    let x5 := groups.all (fun g => decide (g ≤ 5)) && ascending places && places.all inExt
    let x6 := (nzPlaces f codes scales lanes positions).length == nnz
    if x5 && x6 && field h 0x0A 2 == crc16 p then
      some { form := hf, format := f, adj := field h 2 1, flags := field h 3 1, len := len, nnz := nnz, lanes := lanes,
             positions := positions, codes := codes, scales := scales, groups := groups }
    else none

/-- Code and scale of element (lane, position) of a crate. -/
def Crate.at (c : Crate) (lane p : Nat) : Nat × Nat :=
  (c.codes.getD (64 * lane + p) 0, c.scales.getD (2 * lane + p / 32) 127)

end Sys2Proof.Machine
end

