-- ==== Sys2Proof/Machine/Operands.lean ====
section
/-!
DEFINITION. Operand access: shelves, cellars and DDR as memories with poison, the translation of tensor addresses
(R185), the checks on rotation buffers (R197), and reading and writing tensors tile by tile in every layout and form.
-/

namespace Sys2Proof.Machine

/-! Memories. -/

/-- 32-byte words or 64-byte bursts that a range touches. -/
def unitsOf (size a n : Nat) : List Nat := (List.range (cdiv (a % size + n) size)).map (fun k => a / size + k)

/-- Bytes of a shelf, none when a word is poisoned (R411). -/
def shelfRead (s : State) (core off n : Nat) : Option (List Byte) :=
  if (unitsOf 32 off n).any (fun w => s.mem.shelfPoison.contains (core * 393216 + w)) then none
  else some (memRead s.mem.shelf (core * shelfBytes + off) n)

/-- Lost ranges (first byte, bytes) without the bytes of a range written (R214). -/
def stillLost (off n : Nat) (l : List (Nat × Nat)) : List (Nat × Nat) :=
  l.flatMap (fun r => ([(r.1, min (r.1 + r.2) off - r.1), (max r.1 (off + n), r.1 + r.2 - max r.1 (off + n))]).filter
    (fun x => x.2 != 0))

/-- A range of a core's shelf written: what it held of a lost loft is lost no more (R214). -/
def foundAgain (s : State) (core off n : Nat) : State :=
  if (s.core core).loftLost.isEmpty then s
  else s.onCore core (fun c => { c with loftLost := stillLost off n c.loftLost })

/-- Bytes written into a shelf (R411): a whole word clears its poison, a partial write of a poisoned word is not applied
and answers false. -/
def shelfWrite (s : State) (core off : Nat) (d : List Byte) : State × Bool :=
  let ws := unitsOf 32 off d.length
  let whole := fun (w : Nat) => decide (off ≤ w * 32) && decide (w * 32 + 32 ≤ off + d.length)
  let bad := ws.filter (fun w => s.mem.shelfPoison.contains (core * 393216 + w) && !whole w)
  let cells := (List.range d.length).zip d
  let keep := cells.filter (fun c => !bad.contains ((off + c.1) / 32))
  let mem := keep.foldl (fun m c => memPut (core * shelfBytes + off + c.1) c.2 m) s.mem.shelf
  let s := foundAgain s core off d.length
  ({ s with mem := { s.mem with
      shelf := mem
      shelfPoison := s.mem.shelfPoison.filter (fun p => !(ws.any (fun w => p == core * 393216 + w && whole w))) } },
    bad.isEmpty)

/-- Bytes of a cellar (R61). -/
def cellarRead (s : State) (core a n : Nat) : List Byte := memRead s.mem.cellar (core * 1048576 + a) n

/-- Words of an on-chip memory that are written whole hold no error any more: the n words from lo (R410). -/
def mendWords (m : Memory) (k lo n : Nat) : Memory :=
  { m with bad := m.bad.filter (fun x => x.1 != k || decide (x.2 < lo) || decide (lo + n ≤ x.2)) }

/-- One of the n words of an on-chip memory from lo holds an uncorrectable error (R409 classes 3 and 4, R410). -/
def badWords (s : State) (k lo n : Nat) : Bool := s.mem.bad.any (fun x => x.1 == k && decide (lo ≤ x.2) && decide (x.2 < lo + n))

/-- Bytes written into a cellar (R61). -/
def cellarWrite (s : State) (core a : Nat) (d : List Byte) : State :=
  s.onMem (fun m => mendWords { m with cellar := memWrite m.cellar (core * 1048576 + a) d } 0
    (core * 262144 + cdiv a 4) ((a + d.length) / 4 - cdiv a 4))

/-- A cell among n bytes of a cellar is uncorrectable (R75). -/
def cellarBad (s : State) (core a n : Nat) : Bool := badWords s 0 (core * 262144 + a / 4) (cdiv (a + n) 4 - a / 4)

/-- Bytes of a side memory (R221). -/
def sideRead (s : State) (core a n : Nat) : List Byte := memRead s.mem.side (core * 262144 + a) n

/-- Bytes written into a side memory (R221). -/
def sideWrite (s : State) (core a : Nat) (d : List Byte) : State :=
  s.onMem (fun m => mendWords { m with side := memWrite m.side (core * 262144 + a) d } 1
    (core * 32768 + cdiv a 8) ((a + d.length) / 8 - cdiv a 8))

/-- A word among n bytes of a side memory is uncorrectable (R409 class 4). -/
def sideBad (s : State) (core a n : Nat) : Bool := badWords s 1 (core * 32768 + a / 8) (cdiv (a + n) 8 - a / 8)

/-! DDR (R302 to R316). -/

/-- The channel of a frame address (R302). -/
def chanOf (a : Nat) : Nat := a / 4096 % 24

/-- The frame of a frame address (R303). -/
def frameOf (a : Nat) : Nat := a / 2097152

/-- The burst at an address is lost or poisoned (R310, R311); a fresh frame holds zeros whatever DRAM holds (R314). -/
def burstBad (s : State) (b : Nat) : Bool :=
  (s.chan (chanOf (64 * b))).lost || (s.mem.filled.contains (frameOf (64 * b)) && s.mem.ddrPoison.contains b)

/-- The byte that DDR delivers at a frame address: a fresh frame's is zero, whatever DRAM holds (R314). -/
def ddrByte (s : State) (a : Nat) : Byte := if s.mem.filled.contains (frameOf a) then memGet a s.mem.ddr else 0

/-- Bytes of DDR as delivered, none when a burst is poisoned or its channel lost. A fresh frame reads as zeros without
an access to DRAM (R314). -/
def ddrRead (s : State) (a n : Nat) : Option (List Byte) :=
  if (unitsOf 64 a n).any (burstBad s) then none
  else if (unitsOf 2097152 a n).all (fun f => s.mem.filled.contains f) then some (memRead s.mem.ddr a n)
  else some ((List.range n).map (fun i => ddrByte s (a + i)))

/-- The channel of a burst is lost (R311). -/
def chanLost (s : State) (b : Nat) : Bool := (s.chan (chanOf (64 * b))).lost

/-- BYTES_READ of each burst of a range that is read from DRAM (R320); a lost channel moves no bytes (R311). -/
def countRead (s : State) (a n : Nat) : State :=
  (unitsOf 64 a n).foldl (fun s b =>
    if s.mem.filled.contains (frameOf (64 * b)) && !chanLost s b then s.bump Ctr.bytesRead (chanOf (64 * b)) 64 else s) s

/-- The first lines of a frame written as zeros (R314, R315): poison in it is cleared, but that of a lost channel, which no
write clears (R311), and each line counts as written on its channel (R320). -/
def zeroLines (s : State) (frame lines : Nat) : State :=
  let s := { s with mem := { s.mem with
    ddrPoison := s.mem.ddrPoison.filter (fun b => frameOf (64 * b) != frame || chanLost s b)
    ddr := memZero s.mem.ddr (frame * 2097152) 2097152 } }
  (List.range 24).foldl (fun s c =>
    if (s.chan c).lost then s
    else s.bump Ctr.bytesWritten c (4096 * ((List.range lines).filter (fun k => (frame * 512 + k) % 24 == c)).length)) s

/-- A fresh frame filled with zeros before its first write (R314): FRESH_FILLS grows. -/
def freshFill (s : State) (frame : Nat) : State :=
  if s.mem.filled.contains frame then s
  else (zeroLines (s.onMem (fun m => { m with filled := insertN frame m.filled })) frame 512).bump Ctr.freshFills 0 1

/-- One burst's part of a write (R304, R310): a whole burst is written and clears poison, a part by read-modify-write; a
part of a poisoned burst, which the read finds, or any of a lost channel, is not applied and answers false. -/
def burstWrite (s : State) (b : Nat) (cells : List Host.Cell) : State × Bool :=
  let ch := chanOf (64 * b)
  let whole := decide (64 ≤ cells.length)
  if (s.chan ch).lost then (s, false)
  else if !whole && s.mem.ddrPoison.contains b then (s.bump Ctr.bytesRead ch 64, false)
  else
    let s := { s with mem := { s.mem with
      ddr := memPuts cells s.mem.ddr
      ddrPoison := s.mem.ddrPoison.filter (fun p => p != b) } }
    let s := s.bump Ctr.bytesWritten ch 64
    (if whole then s else (s.bump Ctr.bytesRead ch 64).bump Ctr.rmwWrites ch 1, true)

/-- Bytes written to DDR (R304, R314): the frame is filled first when it is fresh. -/
def ddrWriteCells (s : State) (cells : List Host.Cell) : State × Bool :=
  let frames := (cells.map (fun c => frameOf c.1)).eraseDups
  let s := frames.foldl freshFill s
  let bs := (cells.map (fun c => c.1 / 64)).eraseDups
  bs.foldl (fun a b => let (s, ok) := burstWrite a.1 b (cells.filter (fun c => c.1 / 64 == b)); (s, a.2 && ok)) (s, true)

/-- Bytes as cells from an address. -/
def cellsAt (a : Nat) (d : List Byte) : List Host.Cell := ((List.range d.length).map (a + ·)).zip d

/-- FP32 values as their bytes. -/
def f32Bytes (l : List F32) : List Byte := l.flatMap (fun v => leBytes 4 v.toNat)

/-- Bytes as FP32 values. -/
def bytesF32 : Nat → List Byte → List F32
  | 0, _ => []
  | n + 1, l => BitVec.ofNat 32 (leNat (l.take 4)) :: bytesF32 n (l.drop 4)

/-- Atomic adds into a memory of bytes (R86), addend by addend from an address. -/
def memAdd (m : List Host.Cell) (a : Nat) : List F32 → List Host.Cell
  | [] => m
  | v :: vs =>
    memAdd (memWrite m a (leBytes 4 (atomicAdd (BitVec.ofNat 32 (leNat (memRead m a 4))) v).toNat)) (a + 4) vs

/-- Atomic adds into DDR (R306): burst by burst, each one read-modify-write; those of a poisoned burst or a lost channel
are not applied and answer false. -/
def ddrAdd (s : State) (a : Nat) (vs : List F32) : State × Bool :=
  let s := ((unitsOf 2097152 a (4 * vs.length))).foldl freshFill s
  let idx := (List.range vs.length).zip vs
  (unitsOf 64 a (4 * vs.length)).foldl (fun acc b =>
    let (s, ok) := acc
    if burstBad s b then (countRead s (64 * b) 64, false)
    else
      let part := idx.filter (fun p => (a + 4 * p.1) / 64 == b)
      let ch := chanOf (64 * b)
      let mem := part.foldl (fun m p => memAdd m (a + 4 * p.1) [p.2]) s.mem.ddr
      ((((s.onMem (fun m => { m with ddr := mem })).bump Ctr.rmwWrites ch 1).bump Ctr.bytesRead ch 64).bump
        Ctr.bytesWritten ch 64, ok)) (s, true)

/-- Atomic adds into a shelf (R86): a poisoned word takes none and answers false (R411). -/
def shelfAdd (s : State) (core off : Nat) (vs : List F32) : State × Bool :=
  if (unitsOf 32 off (4 * vs.length)).any (fun w => s.mem.shelfPoison.contains (core * 393216 + w)) then (s, false)
  else (s.onMem (fun m => { m with shelf := memAdd m.shelf (core * shelfBytes + off) vs }), true)

/-! Translation (R182 to R185). -/

/-- The entry of a page: kind, flags, peer or queue pair, target, rkey. -/
abbrev XEntry := Nat × Nat × Nat × Nat × Nat

/-- The entry of a page, ABSENT when none is stored (R183). -/
def xlate (s : State) (page : Nat) : XEntry := (look page s.mem.xlate).getD (0, 0, 0, 0, 0)

/-- The page of a tensor address. -/
def pageOf (a : Nat) : Nat := a / 2097152

/-- A peer rank is a live, unfenced member of the group this device is in (R185). -/
def peerLive (s : State) (r : Nat) : Bool :=
  (s.group.state == 2 || s.group.state == 3) && s.group.view.contains r

/-- Why a transfer may not use a page (Table 7.6), none when it may (R185). -/
def haltReason (s : State) (page : Nat) (write add : Bool) : Option Nat :=
  let (k, f, p, _, _) := xlate s page
  if k = 0 then some 0
  else if k = 3 ∧ add then some 4
  else if write ∧ !bit f 0 then some 1
  else if k = 2 ∧ !peerLive s p then some 2
  else if k = 3 ∧ !qpUp s p then some 3
  else none

/-! Waiting for DDR (R305, R311, R314). -/

/-- Pieces of a range of tensor addresses, each within one page: (address, bytes, offset in the range). -/
def pagePieces (a n : Nat) : List (Nat × Nat × Nat) :=
  (unitsOf 2097152 a n).map (fun p =>
    let lo := max a (2097152 * p)
    (lo, min (a + n) (2097152 * p + 2097152) - lo, lo - a))

/-- Every page of a range has a LOCAL entry, WRITABLE where the access writes (R185). -/
def allLocal (s : State) (a n : Nat) (write : Bool) : Bool :=
  (pagePieces a n).all (fun p =>
    let (k, f, _, _, _) := xlate s (pageOf p.1)
    k == 1 && (!write || bit f 0))

/-- The frame address of a tensor address in a LOCAL page. -/
def localAt (s : State) (a : Nat) : Nat :=
  let (_, _, _, t, _) := xlate s (pageOf a)
  t + a % 2097152

/-- Ranges a..a+n and b..b+m share a byte. -/
def overlap (a n b m : Nat) : Bool := decide (a < b + m) && decide (b < a + n)

/-- Two ranges of DDR share a burst. -/
def sameBurst (a n b m : Nat) : Bool := overlap (a / 64) (cdiv (a % 64 + n) 64) (b / 64) (cdiv (b % 64 + m) 64)

/-- Bytes of DDR that a transfer of a link is for; none of a read of a chunk or slice, which nothing waits for. -/
def ddrLen (h : Hdr) : Nat := if h.op ≠ 1 then h.length else if h.tag < 2 ^ 31 then h.reqLength else 0

/-- A channel retrains (R311). -/
def anyTraining (s : State) : Bool := s.chans.any (fun c => c.2.training)

/-- An access to a range of DDR waits: a channel that it touches retrains (R311), for a write into a fresh frame any channel,
since it fills the frame first (R314); or what came before it, an entry of a queue or a transfer of a link, is still to be
served in a burst of its own (R305). -/
def ddrBusy (s : State) (a n : Nat) (write : Bool) : Bool :=
  let fresh := write && (unitsOf 2097152 a n).any (fun f => !s.mem.filled.contains f)
  s.chans.any (fun c =>
      (c.2.training && (fresh || (unitsOf 4096 a n).any (fun l => l % 24 == c.1))) ||
        c.2.queue.any (fun e => sameBurst a n e.addr e.len)) ||
    s.linkWait.any (fun y => (pagePieces y.1.address (ddrLen y.1)).any (fun p => sameBurst a n (localAt s p.1) p.2.1))

/-- An access to a range of tensor addresses waits for DDR. -/
def rangeBusy (s : State) (a n : Nat) (write : Bool) : Bool :=
  (pagePieces a n).any (fun p => (xlate s (pageOf p.1)).1 == 1 && ddrBusy s (localAt s p.1) p.2.1 write)

/-- BYTES_READ of a range of tensor addresses read in LOCAL pages (R320). -/
def countRange (s : State) (a n : Nat) : State :=
  (pagePieces a n).foldl (fun s p => if (xlate s (pageOf p.1)).1 = 1 then countRead s (localAt s p.1) p.2.1 else s) s

/-! What a run's operands are. -/

/-- Opcodes of Table 1.8. -/
abbrev opMatmul : Nat := 0x01
/-- MATMUL_S24. -/
abbrev opS24 : Nat := 0x02
/-- SPMM_X. -/
abbrev opSpmm : Nat := 0x03
/-- CONV_W. -/
abbrev opConv : Nat := 0x04
/-- PREDICT. -/
abbrev opPredict : Nat := 0x05
/-- ROWOP. -/
abbrev opRowop : Nat := 0x06
/-- ROWOP_BWD. -/
abbrev opRowopBwd : Nat := 0x07
/-- GATHER. -/
abbrev opGather : Nat := 0x08
/-- SCATTER_ADD. -/
abbrev opScatter : Nat := 0x09
/-- COPY. -/
abbrev opCopy : Nat := 0x0A
/-- TRANSPOSE. -/
abbrev opTranspose : Nat := 0x0B
/-- PERMUTE. -/
abbrev opPermute : Nat := 0x0C
/-- COMPRESS. -/
abbrev opCompress : Nat := 0x0D
/-- BWD_DATA. -/
abbrev opBwdData : Nat := 0x0E
/-- BWD_WEIGHT. -/
abbrev opBwdWeight : Nat := 0x0F
/-- GRAD_PUSH. -/
abbrev opGradPush : Nat := 0x10
/-- ROTATE. -/
abbrev opRotate : Nat := 0x11
/-- MCAST. -/
abbrev opMcast : Nat := 0x12
/-- WAIT_BEAT. -/
abbrev opWaitBeat : Nat := 0x13
/-- FENCE. -/
abbrev opFence : Nat := 0x14

/-- The engine opcodes. -/
def isEngine (o : Nat) : Bool := o == 1 || o == 2 || o == 3 || o == 4 || o == 0x0E || o == 0x0F

/-- The copy-class opcodes (R161). -/
def isCopy (o : Nat) : Bool := 0x08 ≤ o && o ≤ 0x0D

/-- Operand reference k of a record: 0 A, 1 B, 2 C, 3 D. -/
def MRec.opnd (r : MRec) (k : Nat) : Nat :=
  match k with
  | 0 => r.opA
  | 1 => r.opB
  | 2 => r.opC
  | _ => r.opD

/-- A flag of a record (Table 1.7): 0 RETRY, 1 PRELOAD, 2 BEAT_REL, 3 RES_B, 4 COLMAJOR, 5 SPLIT. -/
def MRec.flag (r : MRec) (k : Nat) : Bool := bit r.flags k

/-- The loft use of a record: (operand, kind, source), when LOFT_KIND is not 0 (R210). -/
def MRec.loftUse (r : MRec) : Option (Nat × Nat × Nat) :=
  let k := bits r.imm0 14 2
  let src := bits r.imm0 0 14
  if k = 0 then none
  else if r.opcode = opBwdData then some (3, k, src)
  else if r.opcode = opBwdWeight ∨ r.opcode = opRowopBwd then some (1, k, src)
  else none

/-- References of a program that are loft tensors. -/
def Program.loftRefs (p : Program) : List Nat :=
  p.recs.filterMap (fun r => match r.loftUse with
    | some (k, _, _) => some (r.opnd k)
    | none => none)

/-- The loft tensors that a record of a program writes as a source: (reference, kind) (R213). -/
def Program.loftDest (p : Program) (mi : Nat) : List (Nat × Nat) :=
  (p.recs.filterMap (fun r => match r.loftUse with
    | some (k, kind, src) => if src = mi then some (r.opnd k, kind) else none
    | none => none)).eraseDups

/-- The record of a run at an index. -/
def Run.mrec (r : Run) (mi : Nat) : MRec := r.prog.recs.getD mi {}

/-- Current extents of a reference: the run's, where it gives one, else the descriptor's (R27). Of several that a RUN gives
for one reference and dimension the first applies (DESIGN CHOICE, log 91). -/
def Run.extentsOf (r : Run) (ref : Nat) (d : Desc) : List Nat :=
  (List.range 6).map fun i =>
    match r.extents.find? (fun x => x.1 == ref && x.2.1 == i) with
    | some (_, _, e) => e
    | none => d.size.getD i 0

/-- The handle a reference names. -/
def Run.handle (r : Run) (ref : Nat) : Nat := (r.prog.refs.getD ref {}).handle

/-- A descriptor placed for a program: a SHELF loft tensor's base counts from the loft's start (R211). -/
def placeDesc (p : Program) (ref : Nat) (d : Desc) : Desc :=
  if p.loftRefs.contains ref && d.placement == 0 then { d with base := d.base + (shelfBytes - p.loftBytes) } else d

/-- The view of a reference by a team position. -/
def viewRef (s : State) (r : Run) (mi pos op ref : Nat) : Option View :=
  match s.tensor (r.handle ref) with
  | some t =>
    if ref < r.prog.refs.length then
      some { d := placeDesc r.prog ref t.desc, e := r.extentsOf ref t.desc, team := r.prog.team, pos := pos, tag := r.tag,
             mi := mi, op := op, col := (r.mrec mi).flag 4, loft := r.prog.loftRefs.contains ref }
    else none
  | none => none

/-- The view of operand k of a macro-instruction by a team position. -/
def viewOp (s : State) (r : Run) (mi pos k : Nat) : Option View := viewRef s r mi pos k ((r.mrec mi).opnd k)

/-! Reading. -/

/-- Why a read gives no bytes. -/
inductive RdErr where
  /-- A word or burst is lost or poisoned: E_DATA_LOST. -/
  | lost
  /-- A crate fails a check: E_DATA_LOST, CRATE_ERRORS (R100). -/
  | crate
  /-- A word of the cellar or the side memory is uncorrectable: E_DATA_LOST, and a fault of this class (R409). -/
  | bad (cls : Nat)
  /-- The bytes have not landed: the read waits. -/
  | wait
  /-- A rotation buffer in this range of the core's shelf does not yet hold the slice: the read waits (R197). -/
  | rot (off n : Nat)
  /-- A rotation buffer already holds a later slice: E_LATE (R197). -/
  | late
  deriving DecidableEq, Repr, Inhabited

/-- The beat of a reader's first access to a rotation's buffers: that of a read in progress or of one that had to wait, else
the beat now (R197). -/
def firstAccess (s : State) (tag mi : Nat) (x : Rot) : Nat :=
  match x.firsts.find? (fun y => y.1 == tag && y.2.1 == mi), x.readers.find? (fun y => y.2.1 == mi) with
  | some y, _ => y.2.2
  | none, some y => y.2.2
  | none, none => s.beat.number

/-- The step of record of a reader against a rotation (R197). -/
def stepOfRecord (s : State) (tag mi : Nat) (x : Rot) : Nat :=
  let w := match s.run tag with
    | some r => r.waitBeat.getD (firstAccess s tag mi x)
    | none => s.beat.number
  if w < x.startBeat then 0 else min x.steps ((w - x.startBeat) / max x.period 1)

/-- Rotations in flight on a core, of other macro-instructions, one of whose buffers a range touches. -/
def rotsOn (s : State) (tag mi core off n : Nat) : List Rot :=
  s.rots.filter (fun x => x.core == core && !(x.tag == tag && x.mi == mi) &&
    x.buf.any (fun b => overlap off n b x.sliceBytes))

/-- The outcome of a read of a rotation buffer (Table 7.9): none when it proceeds. -/
def rotRead (s : State) (tag mi : Nat) (x : Rot) : Option RdErr :=
  let r := stepOfRecord s tag mi x
  if x.pred.isNone then none
  else
    match x.tags.getD (r % 2) none with
    | some t => if t = r then (if x.complete.getD (r % 2) false then none else some .wait)
                else if t < r then some .wait else some .late
    | none => some .wait

/-- Bytes of the shelf as a macro-instruction reads them (R197, R214, R411). -/
def shelfFor (s : State) (v : View) (core off n : Nat) : Except RdErr (List Byte) :=
  if v.loft && (s.core core).loftLost.any (fun r => overlap off n r.1 r.2) then .error .lost
  else
    match (rotsOn s v.tag v.mi core off n).findSome? (rotRead s v.tag v.mi) with
    | some .wait => .error (.rot off n)
    | some e => .error e
    | none =>
      match shelfRead s core off n with
      | some d => .ok d
      | none => .error .lost

/-- Bytes that land at a tensor address, among those landed in ascending order. -/
def landAt (l : List Host.Cell) (a : Nat) (b : List Byte) : List Host.Cell :=
  l.takeWhile (fun c => decide (c.1 < a)) ++ cellsAt a b ++ l.dropWhile (fun c => decide (c.1 < a + b.length))

/-- The landed bytes of a range: none while one is missing. -/
def landedAt (l : List Host.Cell) (a n : Nat) : Option (List Byte) :=
  let r := (l.dropWhile (fun c => decide (c.1 < a))).take n
  if r.map (fun c => c.1) = (List.range n).map (a + ·) then some (r.map (fun c => c.2)) else none

/-- Bytes of the tensor address space as a consumer takes them from its larder: those that landed (R176, R178). -/
def landedFor (s : State) (v : View) (a n : Nat) : Except RdErr (List Byte) :=
  match s.streams.find? (fun x => x.tag == v.tag && x.mi == v.mi && x.pos == v.pos && x.operand == v.op && !x.write) with
  | none => .error .wait
  | some st =>
    match landedAt st.landed a n with
    | some d => .ok d
    | none => .error .wait

/-- A CELLAR tensor's instance on a core is marked lost (R75). -/
def instanceLost (s : State) (d : Desc) (core : Nat) : Bool :=
  s.tensors.any (fun t => t.desc == d && t.lostOn.contains core)

/-- Bytes at a location as a macro-instruction reads them. -/
def rdBytes (s : State) (v : View) (l : Loc) (n : Nat) : Except RdErr (List Byte) :=
  match l.space with
  | 0 => shelfFor s v l.core l.addr n
  | 1 => landedFor s v l.addr n
  | _ =>
    if instanceLost s v.d l.core then .error .lost
    else if cellarBad s l.core l.addr n then .error (.bad 3)
    else .ok (cellarRead s l.core l.addr n)

/-- Code and block scale of an element of a RAW tensor. -/
def rawElem (s : State) (v : View) (x : List Nat) : Except RdErr (Nat × Nat) := do
  let w := fmtBits v.d.format
  let l := v.elem x
  let b ← rdBytes s v l (max 1 (w / 8))
  let c := bits (leNat b) (if w < 8 then l.bit else 0) w
  if fmtMx v.d.format then
    let sb ← rdBytes s v (v.scaleLoc x) 1
    .ok (c, leNat sb)
  else if v.d.format = 0x0B then
    let sb ← rdBytes s v (v.scaleLoc x) 2
    .ok (c, leNat sb)
  else .ok (c, 127)

/-- The tile index that a crate header carries: over the plan bounds (Table 4.2). -/
def crateTile (d : Desc) (trow tcol : Nat) : Nat := trow * d.tcols + tcol

/-- The crate of a tile, opened under R100. -/
def crateAt (s : State) (v : View) (plane trow tcol : Nat) : Except RdErr Crate := do
  let l := v.slot plane trow tcol
  let h ← rdBytes s v l 32
  let n := min (field h 4 4) (densePayload v.d.format)
  let p ← rdBytes s v { l with addr := l.addr + 32 } n
  match openCrate v.d.form v.d.format (crateTile v.d trow tcol) plane h p with
  | some c => .ok c
  | none => .error .crate

/-- Lane and position of element (row, column) of a tile (Table 4.1). -/
def lanePos (d : Desc) (r c : Nat) : Nat × Nat := if d.layout = 2 then (c, r) else (r, c)

/-- Code and scale of an element at coordinates inside the current extents, RAW or crated. -/
def elemAt (s : State) (v : View) (x : List Nat) : Except RdErr (Nat × Nat) := do
  if v.d.form = 0 then rawElem s v x
  else
    let x1 := if 1 < v.d.rank then x.getD 1 0 else 0
    let c ← crateAt s v (planeIdx v.d.rank v.d.bound x) (x1 / 64) (x.getD 0 0 / 64)
    let (l, p) := lanePos v.d (x1 % 64) (x.getD 0 0 % 64)
    .ok (c.at l p)

/-- The value of an element; one outside the operand's own extents reads as +0 (R30, R471). -/
def valAt (s : State) (v : View) (x : List Nat) : Except RdErr Val := do
  if v.inside x then
    let (c, sc) ← elemAt s v x
    .ok (decVal v.d.format c sc)
  else .ok .zero

/-- Codes and scales of a tile as 64 rows of 64, elements outside the current extents (0, 127): whole tiles of a crated
tensor are opened once. -/
def tileCodes (s : State) (v : View) (hi : List Nat) (trow tcol : Nat) : Except RdErr (List (List (Nat × Nat))) := do
  let h := v.rowsIn trow
  let w := v.colsIn tcol
  if h = 0 ∨ w = 0 ∨ !v.inside (View.coords trow tcol hi 0 0) then .ok (List.replicate 64 (List.replicate 64 (0, 127)))
  else if v.d.form = 0 then
    (List.range 64).mapM fun r => (List.range 64).mapM fun c =>
      if r < h ∧ c < w then rawElem s v (View.coords trow tcol hi r c) else .ok (0, 127)
  else
    let cr ← crateAt s v (planeIdx v.d.rank v.d.bound (View.coords trow tcol hi 0 0)) trow tcol
    .ok ((List.range 64).map fun r => (List.range 64).map fun c =>
      if r < h ∧ c < w then (let (l, p) := lanePos v.d r c; cr.at l p) else (0, 127))

/-- Values of a tile. -/
def tileVals (s : State) (v : View) (hi : List Nat) (trow tcol : Nat) : Except RdErr (List (List Val)) := do
  let t ← tileCodes s v hi trow tcol
  .ok (t.map (fun r => r.map (fun c => decVal v.d.format c.1 c.2)))

/-! Writing. -/

/-- Bytes to write at an address of a space. -/
abbrev ByteRun := Nat × List Byte

/-- Adjacent byte runs joined. -/
def joinRuns : List ByteRun → List ByteRun
  | [] => []
  | (a, d) :: rest =>
    match joinRuns rest with
    | (b, e) :: r => if a + d.length = b then (a, d ++ e) :: r else (a, d) :: (b, e) :: r
    | [] => [(a, d)]

/-- Element codes at bit addresses as runs of codes whose bit addresses follow one another. -/
def codeRuns (w : Nat) : List (Nat × Nat) → List (Nat × List Nat)
  | [] => []
  | (a, c) :: rest =>
    match codeRuns w rest with
    | (b, e) :: r => if a + w = b then (a, c :: e) :: r else (a, [c]) :: (b, e) :: r
    | [] => [(a, [c])]

/-- A run of codes as bytes; bits of a shared byte that no code covers keep what the byte holds (R37). -/
def runBytes (w : Nat) (old : Nat → Byte) (r : Nat × List Nat) : ByteRun :=
  let a := r.1 / 8
  if w ≥ 8 then (a, packElems w r.2)
  else
    let lead := (List.range (r.1 % 8 / w)).map (fun i => bits (old a).toNat (w * i) w)
    let n := r.1 % 8 / w + r.2.length
    let per := 8 / w
    let fill := (per - n % per) % per
    let z := a + cdiv n per - 1
    let tail := (List.range fill).map (fun i => bits (old z).toNat (w * (per - fill + i)) w)
    (a, packElems w (lead ++ r.2 ++ tail))

/-- The codes of a RAW tensor at coordinates by bit address. -/
def rawCodes (v : View) (l : List (List Nat × Nat × Nat)) : List (Nat × Nat) :=
  let es := l.map (fun e => let o := v.elem e.1; (8 * o.addr + o.bit, e.2.1))
  if fmtBits v.d.format < 8 then es.foldl (fun a e => put e.1 e.2 a) [] else es

/-- Bytes of which codes at bit addresses cover some bits and not others, with a mask of the covered ones (R37). -/
def partMasks (w : Nat) (es : List (Nat × Nat)) : List (Nat × Nat) :=
  if 8 ≤ w then []
  else
    (es.foldl (fun a e => put (e.1 / 8) (((look (e.1 / 8) a).getD 0) ||| ((2 ^ w - 1) * 2 ^ (e.1 % 8))) a) []).filter
      (fun p => p.2 != 255)

/-- The bytes of a RAW tensor that codes and scales at coordinates are written to. -/
def rawRuns (v : View) (old : Nat → Byte) (l : List (List Nat × Nat × Nat)) : List ByteRun :=
  let w := fmtBits v.d.format
  let es := rawCodes v l
  let elems := (codeRuns w es).map (runBytes w old)
  let sc : List (Nat × Nat) :=
    if fmtMx v.d.format || v.d.format == 0x0B then (l.map (fun e => ((v.scaleLoc e.1).addr, e.2.2))).eraseDups else []
  elems ++ joinRuns (sc.map (fun p => (p.1, leBytes (if v.d.format = 0x0B then 2 else 1) p.2)))

/-- Cores whose shelves a macro-instruction's write reaches (R473): every team core of a tensor held whole. -/
def copyCores (v : View) (core : Nat) : List Nat := if v.d.split then [core] else v.team

/-- The byte that the latest of some writes leaves at a tensor address, where one of them writes it. -/
def lastWritten (l : List Xfer) (a : Nat) : Option Byte :=
  l.reverse.findSome? (fun (f : Xfer) =>
    if !f.add && decide (f.addr ≤ a) && decide (a < f.addr + f.len) && look a f.part != some 0 then
      (f.cells[a - f.addr]?).map (fun c => c.2)
    else none)

/-- The byte that the latest of a core's writes not yet acknowledged leaves at a tensor address. -/
def pendingByte (s : State) (core a : Nat) : Option Byte :=
  let queued := (s.streams.filter (fun x => x.write && x.core == core)).flatMap (fun x => x.toWrite)
  lastWritten ((s.core core).writes ++ queued) a

/-- A core's write stream of an operand of a macro-instruction still has writes into a range, queued or not acknowledged. -/
def writing (s : State) (tag mi op a n : Nat) : Bool :=
  let hits := fun (f : Xfer) => f.tag == tag && f.mi == mi && f.operand == op && overlap a n f.addr f.len
  s.streams.any (fun x => x.write && x.toWrite.any hits) || s.cores.any (fun c => c.2.writes.any hits)

/-- The byte that a peer or host holds at the target of a page: a free value, for no rule tells the device (log 34). -/
def remoteByte (s : State) (kind peer target : Nat) : Byte := Config.remoteByte s.nextXfer (kind * 65536 + peer) target

/-- A byte of the tensor as it stands, for a write of part of what it holds: the core's own writes under way included. -/
def oldByte (s : State) (v : View) (core a : Nat) : Byte :=
  match v.d.placement with
  | 0 => memGet (core * shelfBytes + a) s.mem.shelf
  | 1 =>
    match pendingByte s core a with
    | some b => b
    | none =>
      let (k, _, p, t, _) := xlate s (pageOf a)
      if k = 1 then ddrByte s (t + a % 2097152) else if k = 0 then 0 else remoteByte s k p (t + a % 2097152)
  | _ => memGet (core * 1048576 + a) s.mem.cellar

/-- Byte runs that follow one another within the same or the next 32-byte word, in groups. -/
def groupRuns : List ByteRun → List (List ByteRun)
  | [] => []
  | r :: rest =>
    match groupRuns rest with
    | (q :: g) :: gs =>
      if r.1 + r.2.length ≤ q.1 ∧ q.1 / 32 * 32 ≤ roundUp (r.1 + r.2.length) 32 then (r :: q :: g) :: gs else [r] :: (q :: g) :: gs
    | gs => [r] :: gs

/-- Every byte of a range, from cells in ascending order: those of no cell are marked as not written. -/
def fillCells : Nat → Nat → List Host.Cell → List Host.Cell × List (Nat × Nat)
  | 0, _, _ => ([], [])
  | n + 1, a, l =>
    match l with
    | c :: r =>
      if c.1 = a then let (x, m) := fillCells n (a + 1) r; (c :: x, m)
      else let (x, m) := fillCells n (a + 1) l; ((a, 0#8) :: x, (a, 0) :: m)
    | [] => let (x, m) := fillCells n (a + 1) []; ((a, 0#8) :: x, (a, 0) :: m)

/-- A byte range cut at every 4,096 bytes and at page boundaries (R180). -/
def cutRun : Nat → ByteRun → List ByteRun
  | 0, _ => []
  | k + 1, (a, d) =>
    if d.isEmpty then []
    else
      let n := min d.length (min 4096 (2097152 - a % 2097152))
      (a, d.take n) :: cutRun k (a + n, d.drop n)

/-- Ascending ranges that touch, joined. -/
def joinRanges : List (Nat × Nat) → List (Nat × Nat)
  | [] => []
  | (a, n) :: rest =>
    match joinRanges rest with
    | (b, k) :: r => if a ≤ b ∧ b ≤ a + n then (a, max n (b + k - a)) :: r else (a, n) :: (b, k) :: r
    | [] => [(a, n)]

/-- A range of bytes cut into transfers: within one page, on 32-byte boundaries, at most 4,096 bytes (R180). -/
def cutRange : Nat → Nat → Nat → List (Nat × Nat)
  | 0, _, _ => []
  | k + 1, a, n =>
    if n = 0 then []
    else
      let m := min n (min 4096 (2097152 - a % 2097152))
      (a, m) :: cutRange k (a + m) (n - m)

/-- A range widened to 32-byte boundaries and cut into transfers (R180). -/
def transfersOf (a n : Nat) : List (Nat × Nat) :=
  let lo := a / 32 * 32
  let hi := roundUp (a + n) 32
  if n = 0 then [] else cutRange ((hi - lo) / 4096 + (hi - lo) / 2097152 + 3) lo (hi - lo)

/-- The write stream of an operand: the one in flight, or a new one (R176). -/
def writeStream (s : State) (v : View) : Stream :=
  (s.streams.find? (fun x => x.tag == v.tag && x.mi == v.mi && x.pos == v.pos && x.operand == v.op && x.write)).getD
    { tag := v.tag, mi := v.mi, pos := v.pos, core := v.core, operand := v.op, write := true }

/-- Streams with one added or replaced. -/
def setStream (s : State) (x : Stream) : State :=
  let same := fun (y : Stream) => y.tag == x.tag && y.mi == x.mi && y.pos == x.pos && y.operand == x.operand && y.write == x.write
  { s with streams := if s.streams.any same then mapIf same (fun _ => x) s.streams else s.streams ++ [x] }

/-- The write transfers of some byte runs (R180): on 32-byte boundaries, within one page, at most 4,096 bytes; a byte of such a
range that no run names is not written, and of some bytes only the bits of a mask are. -/
def writeXfers (v : View) (runs : List ByteRun) (part : List (Nat × Nat)) : List Xfer :=
  (groupRuns (runs.filter (fun r => !r.2.isEmpty))).flatMap (fun g =>
    let cells := g.flatMap (fun r => cellsAt r.1 r.2)
    let lo := (cells.headD (0, 0)).1
    let hi := (cells.getLast?.getD (0, 0)).1 + 1
    (transfersOf lo (hi - lo)).map (fun x =>
      let (all, out) := fillCells x.2 x.1 (cells.filter (fun c => decide (x.1 ≤ c.1) && decide (c.1 < x.1 + x.2)))
      { tag := v.tag, mi := v.mi, core := v.core, operand := v.op, write := true, addr := x.1, len := x.2, cells := all
        part := part.filter (fun p => decide (x.1 ≤ p.1) && decide (p.1 < x.1 + x.2)) ++ out }))

/-- The transfers of some runs of FP32 addends (R284): within one page, at most 4,096 bytes. -/
def addXfers (v : View) (runs : List ByteRun) : List Xfer :=
  (runs.flatMap (fun r => cutRun (r.2.length / 4096 + r.2.length / 2097152 + 3) r)).map (fun r =>
    { tag := v.tag, mi := v.mi, core := v.core, operand := v.op, write := true, add := true, addr := r.1, len := r.2.length
      cells := cellsAt r.1 r.2 })

/-- Writes or atomic adds formed for the tensor address space: they join the operand's write stream (R176, R179). Of some
bytes only the bits of a mask are written. -/
def queueParts (s : State) (v : View) (add : Bool) (runs : List ByteRun) (part : List (Nat × Nat)) : State :=
  let xs := if add then addXfers v runs else writeXfers v runs part
  if xs.isEmpty then s
  else let st := writeStream s v; setStream s { st with toWrite := st.toWrite ++ xs }

/-- Writes or atomic adds of whole bytes. -/
def queueWrites (s : State) (v : View) (add : Bool) (runs : List ByteRun) : State := queueParts s v add runs []

/-- A rotation buffer in flight on one of the cores is touched by a write of another macro-instruction (R197). -/
def rotHit (s : State) (v : View) (cores : List Nat) (runs : List ByteRun) : Bool :=
  cores.any (fun c => runs.any (fun r => !(rotsOn s v.tag v.mi c r.1 r.2.length).isEmpty))

/-- Why a write is not made. -/
inductive WrErr where
  /-- Part of a poisoned word: E_DATA_LOST (R411). -/
  | lost
  /-- Into a rotation buffer in flight: E_OVERLAP (R197). -/
  | overlap
  deriving DecidableEq, Repr, Inhabited

/-- Tiles of a core's instance of a CELLAR tensor that a team's macro-instruction writes: those assigned to the core's
position (R73). -/
def instanceTiles (v : View) (core : Nat) : List Nat :=
  let t := v.planes * v.trows * v.tcols
  match placeOf (· == core) v.team with
  | some p => (List.range (share t v.team.length p).2).map (v.d.base + ·)
  | none => []

/-- Tiles of lost instances written by a macro-instruction (R75): once one macro-instruction has written every tile of an
instance, the instance is lost no more. -/
def clearLost (s : State) (v : View) (core : Nat) (runs : List ByteRun) : State :=
  if s.tensors.any (fun t => t.lostOn.contains core) then
    { s with tensors := s.tensors.map (fun t =>
        if t.desc = v.d ∧ t.lostOn.contains core then
          let done := runs.foldl (fun l r => insertN (r.1 / 16384) l)
            (match t.rewritten.find? (fun x => x.1 == (v.tag, v.mi, core)) with
             | some x => x.2
             | none => [])
          if (instanceTiles v core).all (fun k => done.contains k) then
            { t with lostOn := t.lostOn.filter (· != core), rewritten := t.rewritten.filter (fun x => x.1.2.2 != core) }
          else { t with rewritten := t.rewritten.filter (fun x => x.1 != (v.tag, v.mi, core)) ++ [((v.tag, v.mi, core), done)] }
        else t) }
  else s

/-- Byte runs written where a tensor lies (R73, R179, R473): a shelf write into every copy, a cellar write directly, a
write of the tensor address space into the write stream. -/
def writeRuns (s : State) (v : View) (core : Nat) (runs : List ByteRun) : Except WrErr State :=
  match v.d.placement with
  | 0 =>
    let cores := copyCores v core
    if rotHit s v cores runs then .error .overlap
    else
      let (s, ok) := cores.foldl (fun a c => runs.foldl (fun a r =>
        let (s, ok) := shelfWrite a.1 c r.1 r.2; (s, a.2 && ok)) a) (s, true)
      if ok then .ok s else .error .lost
  | 1 => .ok (queueWrites s v false runs)
  | _ => .ok (clearLost (runs.foldl (fun s r => cellarWrite s core r.1 r.2) s) v core runs)

/-- FP32 addends added by atomic add where a RAW tensor lies (R86, R473). -/
def addRuns (s : State) (v : View) (core : Nat) (runs : List ByteRun) : Except WrErr State :=
  match v.d.placement with
  | 0 =>
    let cores := copyCores v core
    if rotHit s v cores runs then .error .overlap
    else
      let (s, ok) := cores.foldl (fun a c => runs.foldl (fun a r =>
        let (s, ok) := shelfAdd a.1 c r.1 (bytesF32 (r.2.length / 4) r.2); (s, a.2 && ok)) a) (s, true)
      if ok then .ok s else .error .lost
  | _ => .ok (queueWrites s v true runs)

/-- Items whose elements lie in several cores' memories, core by core (R73, R158): a distributed tensor is written in the
share of the position that holds each element, a CELLAR tensor in each tile's own instance. -/
def byCore {α : Type} (v : View) (at0 : α → List Nat) (l : List α) : List (Nat × List α) :=
  let cs := l.map (fun e => ((v.elem (at0 e)).core, e))
  ((cs.map (fun x => x.1)).eraseDups).map (fun c => (c, (cs.filter (fun x => x.1 == c)).map (fun x => x.2)))

/-- Elements of a RAW tensor written: coordinates, code and scale, in an order that keeps runs together. -/
def writeElems (s : State) (v : View) (l : List (List Nat × Nat × Nat)) : Except WrErr State :=
  if l.isEmpty then .ok s
  else if v.d.placement = 1 then .ok (queueParts s v false (rawRuns v (fun _ => 0) l) (partMasks (fmtBits v.d.format) (rawCodes v l)))
  else (byCore v (fun e => e.1) l).foldlM (fun s x => writeRuns s v x.1 (rawRuns v (oldByte s v x.1) x.2)) s

/-- (row, column) pairs of a tile's elements in extent, in the order in which its layout stores them. -/
def storeOrder (d : Desc) (h w : Nat) : List (Nat × Nat) :=
  if d.layout = 2 then (List.range w).flatMap (fun c => (List.range h).map (fun r => (r, c)))
  else (List.range h).flatMap (fun r => (List.range w).map (fun c => (r, c)))

end Sys2Proof.Machine
end

