-- ==== Sys2Proof/Machine/Flags.lean ====
section
/-!
DEFINITION. The flags of tiles and runs: the tile status word (R58), the run's tile status log (R59, R163), and what a
failing or cancelled macro-instruction does to its run (R29, R74, R192).
-/

namespace Sys2Proof.Machine

/-- The tile status word (Table 2.5): flags, retry count n, elements holding a saturated value. -/
def statusWord (flags n sat : Nat) : BitVec 32 :=
  BitVec.ofNat 32 (min sat 4095 * 65536 + encInt 8 (-16 * (n : Int)) * 256 + (flags ||| (n * 8)))

/-- The core of a team position of a run. -/
def Run.coreAt (r : Run) (pos : Nat) : Nat := r.prog.team.getD pos 0

/-- An entry put into a log (R59): after all those written before, and among those of its own cc in ascending team position,
then macro index. -/
def insertEntry (e : LogEntry) (l : List LogEntry) : List LogEntry :=
  let after := fun (x : LogEntry) =>
    x.wrote == e.wrote && (decide (e.position < x.position) || (e.position == x.position && decide (e.mi < x.mi)))
  l.filter (fun x => !after x) ++ [e] ++ l.filter after

/-- One entry appended to a run's tile status log (R59): one beyond the 4,096th is not kept and counts on the core of its
team position. -/
def appendLog (s : State) (tag : Nat) (e : LogEntry) : State :=
  match s.live tag with
  | none => s
  | some r =>
    let l := insertEntry { e with wrote := s.now } r.log
    let s := s.onRun tag (fun r => { r with
      log := l.take 4096
      logCount := r.logCount + 1
      logOr := r.logOr ||| (e.status.setWidth 8) })
    (l.drop 4096).foldl (fun s x => s.bump Ctr.statusLogDrops (r.coreAt x.position) 1) s

/-- The flags that copy-class or row work of a team position set, as one log entry (R163, R223). -/
def logFlags (s : State) (tag mi pos flags : Nat) : State :=
  if flags = 0 then s
  else appendLog s tag { mi := mi, position := pos, tile := 0xFFFFFFFF, status := BitVec.ofNat 32 flags }

/-- Cellar tile k of a core. -/
def Core.tile (c : Core) (k : Nat) : CTile := (look k c.tiles).getD {}

/-- The state with a cellar tile of a core changed. -/
def State.onTile (s : State) (core k : Nat) (f : CTile → CTile) : State :=
  s.onCore core (fun c => { c with tiles := put k (f (c.tile k)) c.tiles })

/-- The walk of a macro-instruction on a team position. -/
def Run.walk (r : Run) (mi pos : Nat) : Option Walk := r.walks.find? (fun w => w.mi == mi && w.pos == pos)

/-- A macro-instruction has made all its writes on every team position (R22, R29, R179). -/
def macroDone (s : State) (r : Run) (mi : Nat) : Bool :=
  (List.range r.prog.team.length).all (fun p => match r.walk mi p with
    | some w => w.done
    | none => false) &&
    r.prog.team.all (fun c => (s.core c).writes.all (fun w => !(w.tag == r.tag && w.mi == mi))) &&
    s.streams.all (fun x => !(x.write && x.tag == r.tag && x.mi == mi) || x.toWrite.isEmpty)

/-- The state with a walk of a run changed. -/
def State.onWalk (s : State) (tag mi pos : Nat) (f : Walk → Walk) : State :=
  s.onRun tag (fun r => { r with walks := mapIf (fun w => w.mi == mi && w.pos == pos) f r.walks })

/-- Larders of a core held for a macro-instruction given up. -/
def freeLarders (s : State) (core tag mi : Nat) : State :=
  s.onCore core (fun c =>
    if c.larders.any (fun l => l == some (tag, mi)) then
      { c with larders := c.larders.map (fun l => if l = some (tag, mi) then none else l), larderFreeAt := s.now }
    else c)

/-- Bytes of a read stream that landed in a half or in the header store and were not yet read by their consumer (R192). -/
def Stream.wasted (x : Stream) : Nat :=
  let unread := fun (w : Nat) => decide (x.upto ≤ w)
  ((x.halves.take 2).map (fun h =>
    if h.state = 2 then ((h.parts.filter (fun p => unread p.1)).map (fun p => p.2)).sum else (h.blocks.map (fun b => b.2.length)).sum)).sum +
    32 * ((x.heads.filter (fun h => h.2.2.isSome && unread h.1)).length + (x.kept.filter unread).length)

/-- Reads in flight of a run, their bytes counted as wasted and to be discarded on return (R192, steps 2 and 5). -/
def discardReads (s : State) (tag : Nat) : State :=
  let s := s.xfers.foldl (fun s x =>
    if x.tag == tag && !x.discard then s.bump Ctr.cancelWastedBytes x.core x.len else s) s
  { s with xfers := mapIf (fun x => x.tag == tag) (fun x => { x with discard := true }) s.xfers }

/-- Streams of a run given up: larder contents discarded, writes not yet issued never issued (R192, steps 1 and 3). -/
def dropStreams (s : State) (tag : Nat) : State :=
  let s := s.streams.foldl (fun s x =>
    if x.tag == tag && !x.write then s.bump Ctr.cancelWastedBytes x.core x.wasted else s) s
  { s with streams := s.streams.filter (fun x => x.tag != tag) }

/-- Cellar tiles of a run's walks in FILLING are abandoned and become FREE (R74). -/
def abandonTiles (s : State) (r : Run) : State :=
  r.walks.foldl (fun s w => w.filling.foldl (fun s p =>
    s.onTile w.core p.2 (fun _ => { releasedAt := s.now })) s) s

/-- The rows of a store's slice k, as coordinates of their first elements (R225): tile row k over planes and rows. -/
def sliceRows (v : View) (k : Nat) : List (List Nat) :=
  let n := max v.trows 1
  (List.range (v.rowsIn (k % n))).map (fun i => [0, 64 * (k % n) + i] ++ planeCoords v.d.rank v.e (k / n))

/-- Slices of a store (R225). -/
def sliceCount (v : View) : Nat := v.planes * v.trows

/-- The address ranges of the elements of a slice of an FP32 tensor of form RAW and layout RM, at current extents. -/
def sliceRanges (v : View) (k : Nat) : List (Nat × Nat) :=
  if v.ex 0 = 0 then [] else joinRanges ((sliceRows v k).map (fun x => ((v.elem x).addr, 4 * v.ex 0)))

/-- Lost sides of a run's end on its cores: larders free, merge units idle. -/
def releaseCores (s : State) (r : Run) : State :=
  r.prog.team.foldl (fun s c => s.onCore c (fun k => { k with
    larders := k.larders.map (fun l => match l with
      | some (t, i) => if t = r.tag then none else some (t, i)
      | none => none)
    writes := k.writes.filter (fun w => !(w.tag == r.tag && w.discard))
    merge := if k.merge.tag == r.tag then {} else k.merge
    mergeNext := if k.mergeNext.tag == r.tag then {} else k.mergeNext })) s

/-- A run stopped (R192 steps 1 to 5, R29, R74, R140): no macro-instruction, transfer, step or rotation step of it
begins any more. The first status given stands. -/
def stopRun (s : State) (tag : Nat) (st : BitVec 8) (mi : Nat) : State :=
  match s.live tag with
  | none => s
  | some r =>
    if r.stopping.isSome then s
    else
      let s := discardReads s tag
      let s := dropStreams s tag
      let s := abandonTiles s r
      let s := releaseCores s r
      s.onRun tag (fun r => { r with
        stopping := some st
        failMi := mi
        state := 1
        walks := r.walks.map (fun w => { w with units := [], filling := [], pred := {}, done := true }) })

/-- A macro-instruction fails (R29): its run is stopped with its status and index. -/
def failMacro (s : State) (tag mi : Nat) (st : BitVec 8) : State := stopRun s tag st mi

/-- A read of a rotation buffer that has to wait (R197): the beat of the reader's first access and the range it waits for are
noted. -/
def noteRotWait (s : State) (tag mi core off n : Nat) : State :=
  let hit := (rotsOn s tag mi core off n).filter (fun x => !x.firsts.any (fun y => y.1 == tag && y.2.1 == mi))
  let s := if hit.isEmpty then s
    else
      let note := fun (x : Rot) => { x with firsts := x.firsts ++ [(tag, mi, firstAccess s tag mi x)] }
      { s with rots := mapIf (fun x => hit.contains x) note s.rots }
  if s.runs.any (fun r => r.tag == tag && r.walks.any (fun w => w.mi == mi && w.core == core && w.rotWait != some (off, n))) then
    s.onRun tag (fun r => { r with walks := mapIf (fun w => w.mi == mi && w.core == core) (fun w => { w with rotWait := some (off, n) }) r.walks })
  else s

/-- A read that found an uncorrectable word (R409): UNCORRECTABLE_ONCHIP counts it, and a FAULT entry names the core. -/
def noteBad (s : State) (core : Nat) (e : RdErr) : State :=
  match e with
  | .bad cls => faultEntry (s.bump Ctr.uncorrectableOnchip 0 1) cls 0 core []
  | _ => s

/-- A macro-instruction whose read failed (R75, R100, R197, R411): it fails with E_DATA_LOST or E_LATE; a read that has to
wait changes nothing of it. -/
def failRead (s : State) (tag mi core : Nat) (e : RdErr) : State :=
  match e with
  | .lost => failMacro s tag mi eDataLost
  | .crate => (failMacro s tag mi eDataLost).bump Ctr.crateErrors core 1
  | .bad cls => failMacro (noteBad s core (.bad cls)) tag mi eDataLost
  | .late => failMacro s tag mi eLate
  | .wait => s
  | .rot off n => noteRotWait s tag mi core off n

/-- A macro-instruction whose write was not applied (R197, R411). -/
def failWrite (s : State) (tag mi : Nat) (e : WrErr) : State :=
  match e with
  | .lost => failMacro s tag mi eDataLost
  | .overlap => failMacro s tag mi eOverlap

/-- A completion of a run goes to the queue pair of its RUN (R358). -/
def runOrder (r : Run) : Nat × Nat := (r.mailbox, r.number)

/-- The detail of a run's final completion (Table 13.7). -/
def runDetail (r : Run) (st : BitVec 8) : List Byte :=
  let mi := if st = eOk ∨ st = eCancelled then 0xFFFF else r.failMi
  leBytes 2 mi ++ [r.logOr] ++ [0#8] ++ leBytes 4 r.logCount ++ leBytes 8 r.startBeat ++ leBytes 8 r.endBeat

end Sys2Proof.Machine
end

