-- ==== Sys2Proof/Machine/Keys.lean ====
section
/-!
DEFINITION. The configuration keys: which exist and what values they take (R363, R83, R142, R217, R229), the
configuration digest (R241), what a committed change does, the transaction's end (R368, R369), and what the error state
of a queue pair does (R335).
-/

namespace Sys2Proof.Machine

/-- Size of a key's value, none when there is no such key (Table 13.11). -/
def keySize (k : Nat) : Option Nat :=
  if k = 0x0001 then some 1
  else if k = 0x0002 then some 4
  else if 0x0100 ≤ k ∧ k < 0x0120 then some 4128
  else if 0x0200 ≤ k ∧ k < 0x0220 then some 4128
  else if 0x0300 ≤ k ∧ k < 0x0400 then some 64
  else if 0x0400 ≤ k ∧ k < 0x0410 then some 64
  else if 0x0500 ≤ k ∧ k < 0x0504 then some 1
  else if k = 0x0510 then some 1
  else if 0x0520 ≤ k ∧ k < 0x0530 then some 1
  else if 0x0530 ≤ k ∧ k < 0x0540 then some 32
  else if 0x0540 ≤ k ∧ k < 0x0544 then some 1
  else if k = 0x0550 ∨ k = 0x0551 ∨ k = 0x0552 then some 1
  else if k = 0x0600 ∨ k = 0x0610 then some 2
  else if 0x0700 ≤ k ∧ k < 0x0705 then some 2
  else if 0x0710 ≤ k ∧ k < 0x0715 then some 1
  else none

/-- Keys of the slot classes, which need a bound session and end with it (R363). -/
def keySlot (k : Nat) : Bool := decide (0x0100 ≤ k) && decide (k < 0x0410) && (keySize k).isSome

/-- Keys marked D (Table 13.11). -/
def keyDigested (k : Nat) : Bool := k == 0x0001 || k == 0x0002 || keySlot k

/-- Write-only keys (Table 13.11). -/
def keyWriteOnly (k : Nat) : Bool := decide (0x0530 ≤ k) && decide (k < 0x0540)

/-- The reset value of a key that is no slot (Tables 13.11, 14.1). -/
def keyReset (k : Nat) : Nat :=
  match k with
  | 0x0001 => 10
  | 0x0002 => 65536
  | 0x0510 => 3
  | 0x0550 => 128
  | 0x0551 => 128
  | 0x0600 => 200
  | 0x0610 => 1100
  | 0x0700 => 16
  | 0x0701 => 8
  | 0x0702 => 64
  | 0x0703 => 32
  | 0x0704 => 16
  | 0x0712 => 1
  | 0x0713 => 1
  | _ => 0

/-- The FP32 field at an offset. -/
def f32At (v : List Byte) (o : Nat) : Val := dec32 (field v o 4)

/-- The FP32 field is finite. -/
def f32Fin (v : List Byte) (o : Nat) : Bool := !(f32At v o).isNan && !(f32At v o).isInf

/-- The field rules of Table 3.6 (R81). -/
def tableOk (v : List Byte) : Bool :=
  field v 0 2 == 1 && decide (field v 2 1 ≤ 3) && decide (field v 3 1 ≤ 3) && f32Fin v 4 && f32Fin v 8 && f32Fin v 0x0C
    && (f32At v 4).lt (f32At v 8) && Val.zero.lt (f32At v 0x0C)

/-- The conditions of R142 on a layer slot record. DESIGN CHOICE (log 91): a version other than 1 is refused as well, which
R142's list of refusals does not name. -/
def layerOk (v : List Byte) : Bool :=
  let one : Val := .fin false 1 0
  field v 0 2 == 1 && f32Fin v 4 && f32Fin v 8 && f32Fin v 0x10 && f32Fin v 0x14
    && f32Fin v 0x1C && f32Fin v 0x20
    && !(f32At v 4).lt .zero && !(f32At v 8).lt (f32At v 4) && !(f32At v 0x14).lt (f32At v 0x10)
    && Val.zero.lt (f32At v 0x0C) && Val.zero.lt (f32At v 0x18)
    && !(f32At v 0x1C).lt .zero && (f32At v 0x1C).lt (f32At v 0x20) && !one.lt (f32At v 0x20)
    && decide (1 ≤ field v 0x24 4) && decide (field v 0x24 4 ≤ 2 ^ 24)

/-- The conditions of R229 on an optimiser slot record. -/
def optOk (v : List Byte) : Bool :=
  let one : Val := .fin false 1 0
  field v 0 2 == 1 && [4, 8, 0x0C, 0x10, 0x14, 0x18].all (f32Fin v)
    && [8, 0x0C].all (fun o => !(f32At v o).lt .zero && (f32At v o).lt one) && !(f32At v 0x10).lt .zero

/-- A value lies in its key's range (Table 13.11 and the home chapters). -/
def keyRange (k : Nat) (v : List Byte) : Bool :=
  let n := leNat v
  let within := fun (a b : Nat) => decide (a ≤ n) && decide (n ≤ b)
  if k = 0x0001 then within 8 16
  else if k = 0x0002 then within 1024 1048576
  else if k < 0x0300 then tableOk v
  else if k < 0x0400 then layerOk v
  else if k < 0x0500 then optOk v
  else if k < 0x0510 then within 0 3
  else if k = 0x0510 then within 0 6
  else if k < 0x0530 then within 0 1
  else if k < 0x0540 then true
  else if k < 0x0550 then within 0 1
  else if k = 0x0552 then within 0 127
  else if k < 0x0600 then true
  else if k = 0x0600 then within 20 10000
  else if k = 0x0610 then within 300 1100
  else if k < 0x0710 then within 1 1023
  else within 0 1

/-- Length and value are the key's (R363). -/
def keyOk (k : Nat) (v : List Byte) : Bool := keySize k == some v.length && keyRange k v

/-- A record's reserved fields zeroed, as they read back (R11). -/
def keyStored (k : Nat) (v : List Byte) : List Byte :=
  let z := fun (o n : Nat) (v : List Byte) => patch v o (List.replicate n 0)
  if 0x0100 ≤ k ∧ k < 0x0300 then z 0x10 16 v
  else if 0x0300 ≤ k ∧ k < 0x0400 then patch (z 3 1 (z 0x28 24 v)) 2 (leBytes 1 (field v 2 1 % 4))
  else if 0x0400 ≤ k ∧ k < 0x0500 then z 2 2 (z 0x1C 36 v)
  else v

/-- The committed value of a key: as written, or the reset value; a slot never written is empty. -/
def keyNow (s : State) (k : Nat) : List Byte :=
  match keyVal s k with
  | some v => v
  | none => if keySlot k || keyWriteOnly k then [] else leBytes ((keySize k).getD 0) (keyReset k)

/-- A numeric key's committed value. -/
def keyNum (s : State) (k : Nat) : Nat := keyNat s k (keyReset k)

/-- One program slot's part of the digest (R241). -/
def digestSlot (s : State) (k : Nat) : List Byte :=
  match look k s.slots with
  | some p => leBytes 16 (bitsMask p.team) ++ p.header ++ p.digest
  | none => List.replicate 80 0

/-- One key's part of the digest. -/
def digestKey (k : Nat) (v : List Byte) : List Byte := leBytes 4 k ++ leBytes 4 v.length ++ v

/-- The byte string of the configuration digest (R241): slot keys appear once written in the session. -/
def digestInput (s : State) : List Byte :=
  digestKey 1 (keyNow s 1) ++ digestKey 2 (keyNow s 2) ++
    ((s.keys.filter (fun e => keySlot e.1)).flatMap (fun e => digestKey e.1 e.2)) ++
    ((List.range 16).flatMap (digestSlot s))

/-- The configuration digest (R241). -/
def configDigest (s : State) : List Byte := shake256 (digestInput s) 32

/-- The detail of COMMIT_TXN (Table 13.7). -/
def commitDetail (rank keys beat : Nat) : List Byte := leBytes 2 rank ++ leBytes 2 keys ++ leBytes 4 0 ++ leBytes 8 beat

/-- The COMMIT_TXN that waits completes with a status. -/
def endCommit (s : State) (st : BitVec 8) (rank keys beat : Nat) : State :=
  match s.txn.order with
  | none => s
  | some (m, n) =>
    let s := { s with txn := { s.txn with order := none } }
    match s.order m n with
    | some o => complete s o st (commitDetail rank keys beat)
    | none => s

/-- The transaction is rolled back (R368, R369): every stage is discarded, it closes, and a COMMIT_TXN that waits
completes with the status given. -/
def rollback (s : State) (st : BitVec 8) : State :=
  let s := endCommit s st 0xFFFF 0 0
  { s with txn := {} }

/-- A queue pair enters the error state and is destroyed (R335): mailboxes and ring are given up (its host
regions stay named only for the orders already taken, whose reads of them fail), waiting
completions are discarded and counted, QP_FAILED is posted, and its local transaction is rolled back (R369). -/
def qpError (s : State) (q cause : Nat) : State :=
  match s.qp q with
  | none => s
  | some v =>
    if v.phase = 3 then s
    else
      let s := s.setQp q { v with
        phase := 3, waiting := [], mailboxCount := 0, unacked := [], sendQ := [], disconnectAt := none, partialWrite := none }
      let s := (s.bump Ctr.completionsDropped q v.waiting.length).bump Ctr.qpErrors v.subport 1
      let s := { s with mailboxes := s.mailboxes.filter (fun m => m.2.qp != some q) }
      let s := if s.txn.state ≠ 0 ∧ s.txn.owner = q ∧ !(s.txn.state = 2 ∧ s.txn.group) then rollback s eCancelled else s
      postEvent s 0x33 (items [q, cause])

/-- Sub-ports of a port. -/
def portSubs (n : Nat) : List Nat := (List.range 4).map (4 * n + ·)

/-- A committed change of PORT_MODE takes the port down at once and every queue pair of it into the error state
(R323). -/
def portModeChange (s : State) (n : Nat) : State :=
  let s := (s.qps.filter (fun p => (portSubs n).contains p.2.subport)).foldl (fun s p => qpError s p.1 3) s
  let s := (portSubs n).foldl (fun s u =>
    if (s.port u).up then
      postEvent (s.onPort u (fun v => { v with up := false, sak := none, pausedSince := none, held := [] })) 0x30 (items [u])
    else s) s
  { s with portDownUntil := put n s.now s.portDownUntil }

/-- A key committed (R363): its value, its CONFIG entry (R426), and what the change does at once. A new BEAT_LOG2 keeps the
time at which its first beat began (R265). -/
def applyKey (s : State) (k : Nat) (v : List Byte) : State :=
  let old := keyNow s k
  let s := { s with keys := put k (keyStored k v) s.keys }
  let s := cofferAdd s 0x0003 2 (leBytes 4 k ++ (if keyWriteOnly k then [] else shake256 (keyStored k v) 32))
  if 0x0300 ≤ k ∧ k < 0x0400 then
    let l := (look (k - 0x0300) s.layers).getD {}
    { s with layers := put (k - 0x0300) { l with live := false, changes := 0 } s.layers }
  else if 0x0400 ≤ k ∧ k < 0x0500 then { s with optCount := put (k - 0x0400) 0 s.optCount }
  else if 0x0500 ≤ k ∧ k < 0x0504 then (if old = v then s else portModeChange s (k - 0x0500))
  else if 0x0710 ≤ k ∧ k < 0x0715 then
    if old = v then s
    else { s with arbs := mapIf (fun a => a.1 / 2 ^ 20 == k - 0x0710) (fun a => (a.1, { a.2 with age := [] })) s.arbs }
  else if k = 1 then
    let g := s.group
    let begins := g.ptpTime + (s.beat.number - g.ptpBeat) * 2 ^ leNat old
    { s with group := { g with ptpBeat := s.beat.number, ptpTime := begins }, beat := { s.beat with rateFrom := none } }
  else s

/-- Staged keys committed in one cc (R367). -/
def applyAll (s : State) (l : List (Nat × List Byte)) : State := l.foldl (fun s e => applyKey s e.1 e.2) s

/-- The device is a member of a view (R365, R265). -/
def isMember (s : State) : Bool := s.group.state == 2 || s.group.state == 3 || s.group.state == 4

/-- The refusal of a SET's key and value, 0 when admitted: R363, R365 and R265 for the given scope. -/
def setStatus (s : State) (group : Bool) (k : Nat) (v : List Byte) : BitVec 8 :=
  if !keyOk k v then ePlan
  else if group && !keyDigested k then ePlan
  else if !group && isMember s && (k == 1 || k == 2) then ePlan
  else if group && k == 1 && s.group.source == 2 && leNat v != keyNum s 1 then ePlan
  else eOk

end Sys2Proof.Machine
end

