-- ==== Sys2Proof/Machine/Send.lean ====
section
/-!
DEFINITION. What leaves the device on its own account: transfers over the links (R280 to R282), management messages
(R274) and requests to a host (R325).
-/

namespace Sys2Proof.Machine

/-- A transfer header's 32 bytes (Table 10.4). -/
def hdrBytes (h : Hdr) : List Byte :=
  leBytes 1 h.op ++ leBytes 1 h.space ++ leBytes 2 h.length ++ leBytes 2 h.dest ++ leBytes 2 h.src ++ leBytes 8 h.address
    ++ leBytes 4 h.tag ++ leBytes 4 h.epoch ++ leBytes 4 h.key ++ leBytes 1 h.status ++ leBytes 2 h.reqLength ++ [0#8]

/-- The header that 32 bytes spell (Table 10.4). -/
def parseHdr (b : List Byte) : Hdr :=
  { op := field b 0 1, space := field b 1 1, length := field b 2 2, dest := field b 4 2, src := field b 6 2
    address := field b 8 8, tag := field b 0x10 4, epoch := field b 0x14 4, key := field b 0x18 4
    status := field b 0x1C 1, reqLength := field b 0x1D 2 }

/-- The traffic class of an operation (Table 10.2). A READ and its data travel in class 3, multicast catch-up included;
acknowledgements travel in the class of what they acknowledge, an ACK of an ADD (tag bit 31 in this model) in class 1. -/
def opClass (op : Nat) : Nat :=
  match op with
  | 0x04 => 1
  | 0x06 => 2
  | 0x07 => 2
  | 0x08 => 1
  | 0x09 => 1
  | 0x0A => 1
  | 0x0B => 0
  | _ => 3

/-- The class has a credit on a link: a reserved one, or a shared one (R275). -/
def hasCredit (k : Link) (c : Nat) : Bool := decide (0 < k.credits.getD c 0) || decide (0 < k.shared)

/-- The link of a bundle that carries the next transfer of a class: the next in rotation after the one that carried the
bundle's last, among the up links whose class has a credit, else among the up links (R281). -/
def pickLink (s : State) (r : Route) (c : Nat) : Option Nat :=
  let order := match look r.next s.turns with
    | some last => r.links.filter (fun l => decide (last < l)) ++ r.links.filter (fun l => decide (l ≤ last))
    | none => r.links
  let up := order.filter (fun l => (s.link l).state == 2)
  match up.find? (fun l => hasCredit (s.link l) c) with
  | some l => some l
  | none => up.head?

/-- The route to a rank (R282). -/
def routeTo (s : State) (dest : Nat) : Option Route := s.routes.find? (fun r => r.rank == dest && r.state == 2)

/-- A transfer's bytes in its stream: header and data, filled up with zeros to whole 32-byte words, of which a frame's fill
field counts (R272, R280, log 61). -/
def streamBytes (h : Hdr) (d : List Byte) : List Byte :=
  hdrBytes h ++ d ++ List.replicate (roundUp d.length 32 - d.length) 0

/-- A transfer put into its class's stream on the way to a rank; none when the rank is unreachable (R282). -/
def sendOn (s : State) (cls : Nat) (h : Hdr) (d : List Byte) : Option State :=
  match routeTo s h.dest with
  | none => none
  | some r =>
    match pickLink s r cls with
    | none => none
    | some l =>
      some ({ s with turns := put r.next l s.turns }.onLink l (fun k => { k with
        streams := k.streams.set cls (k.streams.getD cls [] ++ streamBytes h d) }))

/-- A transfer sent, or counted in ROUTE_UNREACHABLE and not sent (R282): whether it was sent. -/
def sendTransfer (s : State) (cls : Nat) (h : Hdr) (d : List Byte) : State × Bool :=
  match sendOn s cls h d with
  | some t => (t, true)
  | none => (s.bump Ctr.routeUnreachable 0 1, false)

/-- A header of the device's own, with the epoch of its view. -/
def ownHdr (s : State) (op dest : Nat) : Hdr := { op := op, dest := dest, src := s.group.rank, epoch := s.group.epoch }

/-- The device is a member of a view (R233). -/
def inView (s : State) : Bool := s.group.state == 2 || s.group.state == 3

/-- A transfer that arrives here: one whose epoch is older than the view's is discarded and counted (R280, R259). -/
def arrive (s : State) (h : Hdr) (f : State → State) : State :=
  if h.epoch < s.group.epoch then s.bump Ctr.fencedDrops 0 1 else f s

/-- A transfer for this device of the current view or a later one, of a length that its operation may have (R280). -/
def served (s : State) (h : Hdr) (ok : Bool) (f : State → State) : State :=
  if h.dest ≠ s.group.rank then s else arrive s h (fun s => if ok then f s else s)

/-- A transfer that asks for something of this device as a member: it is served in a view, and refused in any other state
(R233, Table 9.1). -/
def servedIn (s : State) (h : Hdr) (ok : Bool) (refuse f : State → State) : State :=
  served s h ok (fun s => if inView s then f s else refuse s)

/-- What a message of a rank does (R259): one of a rank that the view does not have is discarded and counted. -/
def fromView (s : State) (rank : Nat) (f : State → State) : State :=
  if !inView s then s else if s.group.view.contains rank then f s else s.bump Ctr.fencedDrops 0 1

/-- A management message sent as transfers of class 0, each with at most 512 of its bytes (R274, R280): its code, then its
body. The tag numbers the message; the address gives a piece's offset and the message's bytes (log 9). -/
def sendMgmtNow (s : State) (dest code : Nat) (body : List Byte) : State :=
  let b := leBytes 1 code ++ body
  let s := { s with nextMgmt := (s.nextMgmt + 1) % 2 ^ 32 }
  (List.range (cdiv b.length 512)).foldl (fun s i =>
    let d := slice b (512 * i) (min 512 (b.length - 512 * i))
    (sendTransfer s 0 { ownHdr s 0x0B dest with
      tag := s.nextMgmt, address := 512 * i + b.length * 2 ^ 24, length := d.length } d).1) s

/-- A management message to a rank (R274): what it says, in the model's own encoding (log 9). Imion's own, which all but
JOIN, DETACH, a refusal of a JOIN and a reducer's announcement are, wait for the end of an Imion restart (R414). -/
def sendMgmt (s : State) (dest code : Nat) (body : List Byte) : State :=
  if s.health.imionStopped ∧ code ≠ 7 ∧ code ≠ 8 ∧ code ≠ 11 ∧ code ≠ 14 then
    { s with health := { s.health with dueOut := s.health.dueOut ++ [{ kind := 12, dest := dest, addr := code, data := body }] } }
  else sendMgmtNow s dest code body

/-- A management message to every other rank of the view. -/
def mgmtAll (s : State) (code : Nat) (body : List Byte) : State :=
  (s.group.view.filter (fun r => r != s.group.rank)).foldl (fun s r => sendMgmt s r code body) s

/-- A request to host memory by RDMA WRITE (kind 0) or READ (kind 1). -/
def hostReq (s : State) (kind q addr rkey : Nat) (d : List Byte) : State :=
  roce s q { kind := kind, dest := q, addr := addr, rkey := rkey, data := d }

end Sys2Proof.Machine
end

