-- ==== Sys2Proof/Machine/Runs.lean ====
section
/-!
DEFINITION. The life of a run: its end (R29, R192), the adaptation of layer slots (R144), its start (R28), and the order
in which runs of one core go (R28).
-/

namespace Sys2Proof.Machine

/-- One slot's adaptation at the end of a run (R144): accumulate, and past the window move g or θ, with an ADAPT entry (R426).
DESIGN CHOICE (log 93): a θ line that applies with θ already at its bound counts as a change (R144 does not say). -/
def adaptSlot (s : State) (slot audited missed : Nat) : State :=
  let v := keyNow s (0x0300 + slot)
  if !bit (field v 2 1) 0 then s
  else
    let l := (look slot s.layers).getD {}
    let a := l.accAudited + audited
    let m := l.accMissed + missed
    let set := fun (l : LayerState) => { s with layers := put slot l s.layers }
    let moved := fun (l : LayerState) =>
      cofferAdd (set l) 0x0004 2 (leBytes 1 slot ++ leBytes 3 0 ++ leBytes 4 l.theta.toNat ++ leBytes 4 l.g.toNat
        ++ leBytes 4 l.changes)
    if a < field v 0x24 4 then set { l with accAudited := a, accMissed := m }
    else
      let l := { l with accAudited := 0, accMissed := 0 }
      let miss := Val.fin false m 0
      let above := (Val.mul (f32At v 0x20) (.fin false a 0)).lt miss
      let under := miss.lt (Val.mul (f32At v 0x1C) (.fin false a 0))
      let g := dec l.g
      let th := dec l.theta
      let up := fun (x st hi : Val) => let y := add32 x st; if hi.lt y then hi else y
      let down := fun (x st lo : Val) => let y := sub32 x st; if y.lt lo then lo else y
      let gmin := f32At v 4
      let gmax := f32At v 8
      let th2 := bit (field v 2 1) 1
      if above && g.lt gmax then moved { l with g := enc (up g (f32At v 0x0C) gmax), changes := l.changes + 1 }
      else if above && th2 && !gmax.lt g && !g.lt gmax then
        moved { l with theta := enc (up th (f32At v 0x18) (f32At v 0x14)), changes := l.changes + 1 }
      else if under && gmin.lt g then moved { l with g := enc (down g (f32At v 0x0C) gmin), changes := l.changes + 1 }
      else if under && th2 && !gmin.lt g && !g.lt gmin then
        moved { l with theta := enc (down th (f32At v 0x18) (f32At v 0x10)), changes := l.changes + 1 }
      else set l

/-- The slots a run used are adapted (R144): audited rows and misses of all its predicted layers of one slot together. -/
def adaptRun (s : State) (r : Run) : State :=
  let slots := ((r.layers.map (fun l => l.slot)).filter (fun k => bit (field ((look (0x0300 + k) r.keys).getD []) 2 1) 0)).eraseDups
  slots.foldl (fun s k =>
    let ls := r.layers.filter (fun l => l.slot == k)
    adaptSlot s k ((ls.map (fun l => l.audited)).sum) ((ls.map (fun l => l.missed)).sum)) s

/-- Zeros written into a range of DDR, burst by burst; false when one was not applied. -/
def ddrZero (s : State) (a n : Nat) : State × Bool :=
  let s := (unitsOf 2097152 a n).foldl freshFill s
  (unitsOf 64 a n).foldl (fun acc b =>
    let lo := max a (64 * b)
    let (s, ok) := burstWrite acc.1 b (cellsAt lo (List.replicate (min (a + n) (64 * b + 64) - lo) 0))
    (s, acc.2 && ok)) (s, true)

/-- One page's part of the zeroing of a MEM footprint (R187); false when the write could not be served. -/
def zeroPage (s : State) (served : Bool) (a n : Nat) : State × Bool :=
  let (k, f, p, t, key) := xlate s (pageOf a)
  let o := a % 2097152
  if !bit f 0 then (s, true)
  else
    match k with
    | 1 => ddrZero s (t + o) n
    | 2 =>
      if !peerLive s p || !served then (s, false)
      else
        (cutRange (n / 4096 + 2) (t + o) n).foldl (fun acc r =>
          let (s, ok) := sendTransfer acc.1 3 { ownHdr acc.1 3 p with address := r.1, length := r.2 }
            (List.replicate r.2 0)
          (s, acc.2 && ok)) (s, true)
    | 3 =>
      if !qpUp s p || !served then (s, false) else (hostReq s 0 p (t + o) key (List.replicate n 0), true)
    | _ => (s, true)

/-- A range of the tensor address space set to zero, page by page (R187, R227); false when a write could not be served. -/
def zeroPages (s : State) (served : Bool) (a n : Nat) : State × Bool :=
  (unitsOf 2097152 a n).foldl (fun acc pg =>
    if acc.2 then
      let lo := max a (2097152 * pg)
      zeroPage acc.1 served lo (min (a + n) (2097152 * pg + 2097152) - lo)
    else acc) (s, true)

/-- Slices that a stopped run's pushes have not yet taken are set to +0 and counted on the core of team position 0 (R227). -/
def discardSlices (s : State) (r : Run) : State :=
  (s.pushes.filter (fun p => p.tag == r.tag && p.begun)).foldl (fun s p =>
    let left := below p.slices (fun k => !(p.taken.contains k))
    let v := (viewOp s r p.mi 0 0).getD {}
    let s := left.foldl (fun s k => (sliceRanges v k).foldl (fun s x => (zeroPages s true x.1 x.2).1) s) s
    s.bump Ctr.storeDiscardedSlices (r.coreAt 0) left.length) s

/-- A run's completion, on the queue pair of its RUN (R29). -/
def completeRun (s : State) (r : Run) (st : BitVec 8) : State :=
  match s.order r.mailbox r.number with
  | some o => complete s o st (runDetail r st)
  | none => s

/-- An order that waited for a run completes with E_OK (R192 step 6). -/
def completeWaiter (s : State) (m n : Nat) : State :=
  match s.order m n with
  | some o => if field o.bytes 4 1 = 0x05 then complete s o eOk [] else s
  | none => s

/-- A multicast that has ended here takes no further child (R288, log 88). -/
def closeMcast (s : State) (key : Nat) : State :=
  { s with mcOver := s.mcOver.filter (fun x => x.1 != key && decide (s.beat.number < x.2 + 8192)) ++ [(key, s.beat.number)] }

/-- The children that a multicast of a run that ends has not settled are detached: their catch-up reads are refused (R287,
R288, log 88). -/
def leaveChildren (s : State) (m : Mc) : State :=
  if m.rotate then s
  else
    (m.children.filter (fun c => !c.failed && c.detachedAt.isNone && !m.chunks.all (fun k => c.acked.contains k))).foldl
      (fun s c => sendMgmt (s.bump Ctr.mcastDetached 0 1) c.rank 8 (leBytes 4 m.key)) (closeMcast s m.key)

/-- The multicasts and rotations of a run that ends are over. -/
def endMcasts (s : State) (tag : Nat) : State :=
  let mine := s.mcs.filter (fun x => x.tag == tag && x.begun)
  mine.foldl leaveChildren { s with
    rots := s.rots.filter (fun x => x.tag != tag), mcs := s.mcs.filter (fun x => x.tag != tag || !x.begun) }

/-- A run ends (R28, R29, R144, R229): its entry frees, its record keeps status and log, slots adapt, its completion is
posted, and the CANCEL orders that named it complete. -/
def endRun (s : State) (tag : Nat) (st : BitVec 8) : State :=
  match s.live tag with
  | none => s
  | some r0 =>
    let mi := if st = eOk ∨ st = eCancelled then 0xFFFF else r0.failMi
    let r := { r0 with state := 3, status := st, failMi := mi, endBeat := s.beat.number, stopping := none, walks := []
                       cancelBy := [] }
    let s := s.onRun tag (fun _ => r)
    let s := endMcasts { s with streams := s.streams.filter (fun x => x.tag != tag) } tag
    let s := if st = eOk then
        r.updated.foldl (fun s k => { s with optCount := put k ((look k s.optCount).getD 0 + 1) s.optCount }) s
      else s
    let s := adaptRun s r
    let s := releaseCores s r
    let s := completeRun s r st
    r0.cancelBy.foldl (fun s o => completeWaiter s o.1 o.2) s

/-- A run that has not started (R192) is removed with a status; one in progress or paused is stopped. -/
def cancelRun (s : State) (tag : Nat) (st : BitVec 8) : State :=
  match s.live tag with
  | none => s
  | some r => if r.state = 0 then endRun s tag st else stopRun s tag st 0xFFFF

/-- The opcodes that only a group member runs (R233, check L14). -/
def groupOp (o : Nat) : Bool := o == opRotate || o == opMcast || o == opGradPush

/-- The program holds one. -/
def Program.needsGroup (p : Program) : Bool := p.recs.any (fun r => groupOp r.opcode)

/-- The status with which Table 9.1 refuses a program that holds group opcodes; none when ACTIVE. -/
def groupRefusal (s : State) : Option (BitVec 8) :=
  match s.group.state with
  | 3 => none
  | 2 => some eGroupConfig
  | 4 => some eFenced
  | _ => some ePlan

/-- An earlier run, queued or in progress, shares a core (R28): runs are kept in the order of acceptance. -/
def teamBusy (s : State) (r : Run) : Bool :=
  ((s.runs.takeWhile (fun x => !(x.tag == r.tag && x.state != 3))).any (fun x =>
    x.state != 3 && x.prog.team.any (fun c => r.prog.team.contains c)))

/-- The beat from which BEAT_REL records count (R28). -/
def Run.launchBeat (r : Run) : Nat := if r.launch = 0 then r.startBeat else r.launch

/-- The beat field of a record as an absolute beat (Table 1.7). -/
def beatOf (r : Run) (m : MRec) : Nat := if m.flag 2 then r.launchBeat + m.beat else m.beat

/-- RUN_START (R28, R233, R412): the run at the head of its team starts, at its launch beat or later; one with a retired
core in its team ends before its first macro-instruction. One without a launch beat waits for the end of an Imion restart
(R414). -/
def execRunStart (t : Nat) (s : State) : Host.Outcome State Fault Refusal :=
  .next <|
    match s.live t with
    | none => s
    | some r =>
      if r.state ≠ 0 ∨ teamBusy s r ∨ s.beat.number < r.launch ∨ (s.health.imionStopped ∧ r.launch = 0) then s
      else if r.prog.team.any (fun c => (s.core c).retired) then endRun s t eWatchdog
      else if r.prog.team.any (fun c => (s.core c).outOfService) then s
      else
        match (if r.prog.needsGroup then groupRefusal s else none) with
        | some st => endRun s t st
        | none =>
          let late := decide (r.launch ≠ 0 ∧ r.launch < s.beat.number)
          let s := if late then s.bump Ctr.lateLaunches 0 1 else s
          s.onRun t (fun r => { r with state := 1, lateLaunch := late })

/-- Every record of the run has started and made all its writes (R29). -/
def runDone (s : State) (r : Run) : Bool :=
  (List.range r.prog.recs.length).all (macroDone s r) && r.stopping.isNone && r.state == 1

/-- RUN_END (R29): the last macro-instruction has made all its writes. -/
def execRunEnd (t : Nat) (s : State) : Host.Outcome State Fault Refusal :=
  .next <|
    match s.live t with
    | none => s
    | some r => if runDone s r then endRun s t eOk else s

/-- Everything a stopped run had issued has returned (R192 step 6); stores to be set to zero wait while a channel retrains
(R227, R311). -/
def stopSettled (s : State) (r : Run) : Bool :=
  s.xfers.all (fun x => x.tag != r.tag) &&
    r.prog.team.all (fun c => (s.core c).writes.all (fun w => w.tag != r.tag || (w.discard && s.trust.closing.isNone))) &&
    r.walks.all (fun w => w.draining.isEmpty && w.bufs.isEmpty) &&
    s.rots.all (fun x => x.tag != r.tag || x.sending.isEmpty) &&
    !(anyTraining s && s.pushes.any (fun p => p.tag == r.tag && p.begun))

/-- RUN_STOP_COMPLETE (R192 step 6): every issued read and write has returned. -/
def execRunStopComplete (t : Nat) (s : State) : Host.Outcome State Fault Refusal :=
  .next <|
    match s.live t with
    | none => s
    | some r =>
      match r.stopping with
      | none => s
      | some st => if stopSettled s r then endRun (discardSlices s r) t st else s

end Sys2Proof.Machine
end

