-- ==== Sys2Proof/Machine/Admit.lean ====
section
/-!
DEFINITION. What every order passes before its own meaning: the order in which orders are handled (R352), the checks O1
to O4 (R355), and the reads of host memory it names (R336).
-/

namespace Sys2Proof.Machine

/-- Order code of a record. -/
def Order.code (o : Order) : Nat := field o.bytes 4 1
/-- Tag of a record. -/
def Order.tag (o : Order) : Nat := field o.bytes 8 8
/-- Beat field of a record. -/
def Order.beat (o : Order) : Nat := field o.bytes 0x10 8
/-- Result length of a record. -/
def Order.resultLen (o : Order) : Nat := field o.bytes 0x1C 4

/-- Used fields of an order's body (Table 13.5, R353): (offset, bytes). Everything else from 0x28 on is reserved. -/
def bodyFields (b : List Byte) : List (Nat × Nat) :=
  match field b 4 1 with
  | 0x01 => [(0x28, 128)]
  | 0x02 => [(0x28, 4)]
  | 0x03 => [(0x28, 2), (0x2C, 4), (0x30, 8), (0x38, 16)]
  | 0x04 => (0x28, 2) :: (List.range (field b 0x29 1)).flatMap (fun i => [(0x30 + 8 * i, 3), (0x34 + 8 * i, 4)])
  | 0x05 => [(0x28, 8)]
  | 0x06 => [(0x28, 1), (0x30, 8)]
  | 0x07 => [(0x28, 1), (0x2A, 2), (0x30, 8)]
  | 0x08 => [(0x28, 8)]
  | 0x09 => [(0x28, 1)]
  | 0x0A => [(0x28, 4), (0x2C, 4), (0x30, 1)] ++
      (if field b 0x30 1 = 1 then [(0x31, 1), (0x38, 8)] else [(0x40, min 192 (field b 0x2C 4))])
  | 0x0D => [(0x28, 64), (0x68, 1), (0x70, 8)]
  | 0x0F => [(0x28, 1), (0x2C, 4), (0x30, 8)]
  | 0x11 => [(0x28, 32)]
  | 0x12 => [(0x28, 1), (0x2A, 2), (0x2C, 2)]
  | 0x13 => [(0x28, 8), (0x30, 4)]
  | 0x14 => [(0x28, 1), (0x2C, 4), (0x30, 8)]
  | _ => []

/-- Reserved bytes of header and body are zero (R353). -/
def reservedZero (b : List Byte) : Bool :=
  let used := bodyFields b
  field b 6 2 == 0 && field b 0x19 3 == 0 &&
    (((b.drop 0x28).take 216).zipIdx 0x28).all (fun x =>
      x.1 == 0 || used.any (fun f => decide (f.1 ≤ x.2) && decide (x.2 < f.1 + f.2)))

/-- Check O1 (Table 13.4). -/
def checkO1 (b : List Byte) : Bool :=
  let c := field b 4 1
  decide (1 ≤ c) && decide (c ≤ 0x14) && field b 5 1 == 1 && reservedZero b &&
    (c == 0x04 || c == 0x0B || field b 0x10 8 == 0) && (c != 0x04 || decide (field b 0x29 1 ≤ 26)) &&
    (c != 0x0A || decide (field b 0x30 1 ≤ 1)) && (c != 0x0A || field b 0x30 1 == 1 || decide (field b 0x2C 4 ≤ 192))

/-- A session is open (R399); one being closed is open no more for orders taken after (R401). -/
def sessionOpen (s : State) : Bool := s.trust.session.isSome && s.trust.closing.isNone

/-- The queue pair is bound to the open session. -/
def qpBound (s : State) (q : Nat) : Bool :=
  match s.qp q with
  | some v => sessionOpen s && v.bound
  | none => false

/-- Check O2: the session column of Table 13.3. -/
def checkO2 (s : State) (o : Order) : Bool :=
  let c := o.code
  let needs := [0x01, 0x02, 0x03, 0x04, 0x05, 0x07, 0x08, 0x10].contains c || (c == 0x0A && keySlot (field o.bytes 0x28 4))
  if needs then qpBound s o.qp else !sessionOpen s || qpBound s o.qp || c == 0x11

/-- A range lies in a region of a queue pair that grants an access bit (R336). -/
def inRegion (s : State) (q reg off len acc : Nat) : Bool :=
  match s.qp q with
  | some v =>
    match v.regions[reg]? with
    | some r => bit r.access acc && decide (off + len ≤ r.length)
    | none => false
  | none => false

/-- The host range that an order's body names: (region, offset, bytes). -/
def hostRange (b : List Byte) : Option (Nat × Nat × Nat) :=
  match field b 4 1 with
  | 0x03 => if field b 0x2C 4 = 0 then none else some (field b 0x29 1, field b 0x30 8, field b 0x2C 4)
  | 0x07 => some (field b 0x28 1, field b 0x30 8, 32 * field b 0x2A 2)
  | 0x0A => if field b 0x30 1 = 1 then some (field b 0x31 1, field b 0x38 8, field b 0x2C 4) else none
  | 0x0D => some (field b 0x68 1, field b 0x70 8, 16 * field b 0x2A 2)
  | 0x0F => some (field b 0x28 1, field b 0x30 8, field b 0x2C 4)
  | 0x14 => some (field b 0x28 1, field b 0x30 8, field b 0x2C 4)
  | _ => none

/-- Check O3 (Table 13.4). -/
def checkO3 (s : State) (o : Order) : Bool :=
  (o.resultLen == 0 || inRegion s o.qp (field o.bytes 0x18 1) (field o.bytes 0x20 8) o.resultLen 1) &&
    (match hostRange o.bytes with
     | some (r, off, n) => inRegion s o.qp r off n 0
     | none => true)

/-- Check O4: a RUN's tag is that of no run accepted and not completed. -/
def checkO4 (s : State) (o : Order) : Bool := o.code != 0x04 || (s.live o.tag).isNone

/-- The first of O1 to O4 that fails: status and check number. -/
def firstCheck (s : State) (o : Order) : Option (BitVec 8 × Nat) :=
  if !checkO1 o.bytes then some (ePlan, 1)
  else if !checkO2 s o then some (eAuth, 2)
  else if !checkO3 s o then some (eRange, 3)
  else if !checkO4 s o then some (ePlan, 4)
  else none

/-- The objects an order names (R352): (kind, number). Kinds: 0 slot, 1 handle, 2 run tag, 3 key, 4 transaction, 5 group,
6 session, 7 firmware copy. -/
def objects (o : Order) : List (Nat × Nat) :=
  let b := o.bytes
  match field b 4 1 with
  | 0x02 => [(1, field b 0x28 4)]
  | 0x03 => [(0, field b 0x28 1)]
  | 0x04 => [(0, field b 0x28 1), (2, field b 8 8)]
  | 0x05 => [(2, field b 0x28 8)]
  | 0x06 =>
    match field b 0x28 1 with
    | 1 => [(2, field b 0x30 8)]
    | 2 => [(1, field b 0x30 8)]
    | 3 => [(3, 0x0300 + field b 0x30 8)]
    | 4 => [(3, 0x0400 + field b 0x30 8)]
    | 5 => [(5, 0)]
    | 8 => [(3, field b 0x30 8)]
    | 9 => [(0, field b 0x30 8)]
    | 11 => [(4, 0)]
    | _ => []
  | 0x08 => [(2, field b 0x28 8)]
  | 0x09 => [(4, 0)]
  | 0x0A => [(3, field b 0x28 4), (4, 0)]
  | 0x0B => [(4, 0)]
  | 0x0C => [(4, 0)]
  | 0x0D => [(5, 0)]
  | 0x0E => [(5, 0)]
  | 0x0F => [(6, 0)]
  | 0x10 => [(6, 0)]
  | 0x14 => [(7, 0)]
  | _ => []

/-- The objects that an order taken and not completed still holds back: a RUN accepted and a COMMIT_TXN that waits for
its beat or its replies hold none (log 10). -/
def heldObjects (o : Order) : List (Nat × Nat) :=
  if o.begun && (o.code == 0x04 || o.code == 0x0B) then [] else objects o

/-- Imion can handle an order now (R352): no earlier order of its mailbox is still to be begun, and none earlier names
the same object. -/
def handleable (s : State) (o : Order) : Bool :=
  let before := s.orders.takeWhile (fun x => !(x.mailbox == o.mailbox && x.number == o.number))
  before.all (fun x => (x.begun || x.mailbox != o.mailbox) && !(heldObjects x).any (fun a => (objects o).contains a))

/-- The order of a mailbox and number with the given code, taken, not begun and at its turn. -/
def orderReady (s : State) (m n code : Nat) : Option Order :=
  match s.order m n with
  | some o => if !o.begun && o.code == code && handleable s o && !s.health.imionStopped then some o else none
  | none => none

/-- The common part of every order's meaning: an order that is not at its turn changes nothing (log 1); one that fails
O1 to O4 ends there (R355); else its own meaning runs. -/
def orderCmd (s : State) (m n code : Nat) (f : State → Order → State) : State :=
  match orderReady s m n code with
  | none => s
  | some o =>
    match firstCheck s o with
    | some (st, k) => refuse s o st 0x4F k 0
    | none => f s o

/-- The order begun: it waits to complete. -/
def beginOrder (s : State) (o : Order) : State :=
  let here := fun (x : Order) => x.mailbox == o.mailbox && x.number == o.number
  { s with orders := mapIf here (fun x => { x with begun := true }) s.orders }

/-- Bytes an order reads from host memory (R335): none when its queue pair has failed or the read did. -/
def hostRead (s : State) (o : Order) (d : Option (List Byte)) (n : Nat) : Option (List Byte) :=
  if !qpUp s o.qp then none else d.map (fun b => slice b 0 n)

/-- The request by which an order's host range is read. -/
def hostAsk (s : State) (o : Order) : State :=
  match hostRange o.bytes, s.qp o.qp with
  | some (r, off, n), some q =>
    let g := q.regions.getD r {}
    hostReq s 1 o.qp (g.addr + off) g.rkey (leBytes 4 n)
  | _, _ => s

end Sys2Proof.Machine
end

