-- ==== Sys2Proof/Machine/Orders.lean ====
section
/-!
DEFINITION. The orders on tensors, runs and pages: CREATE_TENSOR (R14 to R17), DESTROY_TENSOR (R18), RUN (R27, R233),
CANCEL (R192), MAP_PAGES (R186, R187), QUERY (R361), READ_COUNTERS (R362) and READ_COFFER (R431).
-/

namespace Sys2Proof.Machine

/-! CREATE_TENSOR and DESTROY_TENSOR. -/

/-- The n numbers of w bytes each from an offset. -/
def fieldList (b : List Byte) (off w n : Nat) : List Nat := (List.range n).map (fun i => field b (off + w * i) w)

/-- A descriptor from its 128 bytes (Table 1.1); reserved flag bits read as zero (R11). -/
def parseDesc (b : List Byte) : Desc :=
  { rank := field b 2 1, format := field b 3 1, form := field b 4 1, layout := field b 5 1, placement := field b 6 1
    flags := field b 7 1 % 8, base := field b 8 8, length := field b 0x10 8, size := fieldList b 0x18 4 6
    stride := fieldList b 0x30 8 6, bound := fieldList b 0x60 4 6, scaleOffset := field b 0x78 8 }

/-- A descriptor's 128 bytes. -/
def descBytes (d : Desc) : List Byte :=
  leBytes 2 1 ++ leBytes 1 d.rank ++ leBytes 1 d.format ++ leBytes 1 d.form ++ leBytes 1 d.layout ++ leBytes 1 d.placement
    ++ leBytes 1 d.flags ++ leBytes 8 d.base ++ leBytes 8 d.length ++ d.size.flatMap (leBytes 4)
    ++ d.stride.flatMap (leBytes 8) ++ d.bound.flatMap (leBytes 4) ++ leBytes 8 d.scaleOffset

/-- Check C9 with a shelf limit, and C8 for a team (R17, L6). -/
def rangeOk (d : Desc) (team shelfLimit : Nat) : Option Nat :=
  if d.length < d.footprint team then some 8
  else
    let ok := match d.placement with
      | 0 => decide (d.base + d.length ≤ shelfLimit)
      | 1 => decide (d.base + d.length ≤ 2 ^ 52)
      | _ => decide (d.base + d.length / 16384 ≤ 64)
    if ok then none else some 9

/-- The checks C1 to C9 (Table 1.4): the number of the first that fails. -/
def descCheck (b : List Byte) (d : Desc) : Option Nat :=
  let raw := d.form == 0
  let hi := fun (l : List Nat) => (List.range 6).all (fun i => decide (i < d.rank) || l.getD i 0 == 0)
  if !(field b 0 2 == 1 && decide (d.placement ≤ 2) && fmtOk d.format && decide (d.form ≤ 4) && decide (d.layout ≤ 3)) then
    some 1
  else if !(decide (1 ≤ d.rank) && decide (d.rank ≤ 6) && hi d.size && hi d.bound) then some 2
  else if (d.form == 2 || d.form == 3 || d.form == 4) && !(decide (1 ≤ d.format) && decide (d.format ≤ 0x0A)) then some 3
  else if d.format == 0x0B && !(raw && d.layout == 2) then some 3
  else if d.format == 0x12 && !(raw && d.layout == 0) then some 3
  else if d.placement == 2 && !(d.format == 0x10 && raw && d.layout == 3) then some 4
  else if d.layout == 3 && d.placement == 0 then some 4
  else if !((List.range d.rank).all (fun i => decide (1 ≤ d.bound.getD i 0) && decide (d.bound.getD i 0 ≤ 2 ^ 31) &&
      decide (d.size.getD i 0 ≤ d.bound.getD i 0))) then some 5
  else if d.isRm && !(d.stride.getD 0 0 == 1 && (List.range d.rank).all (fun i => decide (1 ≤ d.stride.getD i 0))) then some 6
  else if !d.isRm && !(d.stride.all (fun x => x == 0)) then some 6
  else if d.placement != 2 && !(d.base % (if d.isRm then 64 else 4096) == 0) then some 7
  else rangeOk d 128 shelfBytes

/-- A number from a preferred one on that a list of used numbers leaves free; one more try than there are numbers used
always finds one. -/
def freeFrom (lo n : Nat) (used : List Nat) : Nat → Nat → Nat
  | 0, c => c
  | k + 1, c => if used.contains c then freeFrom lo n used k (lo + (c + 1 - lo) % n) else c

/-- The handle a new tensor takes: unique among the live ones, otherwise a free value (R14). -/
def newHandle (s : State) : Nat :=
  freeFrom 1 65535 (s.tensors.map (fun t => t.handle)) (s.tensors.length + 1) (1 + Config.handleHint s.free % 65535)

/-- Zeros written into a range of one shelf (R17): whole words lose their poison. -/
def shelfZero (s : State) (core off n : Nat) : State :=
  { s with mem := { s.mem with
      shelf := memZero s.mem.shelf (core * shelfBytes + off) n
      shelfPoison := s.mem.shelfPoison.filter (fun p =>
        !(decide (core * 393216 + cdiv off 32 ≤ p) && decide (p < core * 393216 + (off + n) / 32))) } }

/-- ZERO_ON_CREATE (R17, R187): false when a mapped, writable page could not be written. -/
def zeroOnCreate (s : State) (d : Desc) (served : Bool) : State × Bool :=
  let n := d.footprint 128
  match d.placement with
  | 0 => ((List.range 128).foldl (fun s c => shelfZero s c d.base n) s, true)
  | 1 => zeroPages s served d.base n
  | _ =>
    let tiles := (List.range (d.length / 16384)).map (d.base + ·)
    let s := (List.range 128).foldl (fun s c => s.onMem (fun m =>
      mendWords { m with cellar := memZero m.cellar (c * 1048576 + d.base * 16384) n } 0
        (c * 262144 + d.base * 4096) (n / 4))) s
    ({ s with cores := s.cores.map (fun c => (c.1, { c.2 with
        tiles := mapIf (fun t => tiles.contains t.1) (fun t => (t.1, { t.2 with sat := [] })) c.2.tiles })) }, true)

/-- CREATE_TENSOR's own part: C1 to C10, zeroing, and the new handle; zeroing in DDR waits while a channel retrains (R311). -/
def createTensor (served : Bool) (s : State) (o : Order) : State :=
  let b := slice o.bytes 0x28 128
  let d := parseDesc b
  match descCheck b d with
  | some k => refuse s o (if k = 8 ∨ k = 9 then eRange else ePlan) 0x43 k 0
  | none =>
    if 65535 ≤ s.tensors.length then refuse s o ePlan 0x43 10 0
    else
      if bit d.flags 2 ∧ d.placement = 1 ∧ anyTraining s then s
      else
      let (s, ok) := if bit d.flags 2 then zeroOnCreate s d served else (s, true)
      if !ok then complete s o eDataLost []
      else
        let h := newHandle s
        let s := { s.draw with tensors := s.tensors ++ [{ handle := h, desc := d }] }
        complete s o eOk (leBytes 4 h)

/-- CREATE_TENSOR (R17). -/
def execCreateTensor (m n : Nat) (served : Bool) (s : State) : Host.Outcome State Fault Refusal :=
  .next (orderCmd s m n 0x01 (createTensor served))

/-- A loaded program names the handle in its reference table (R18). -/
def handleNamed (s : State) (h : Nat) : Bool := s.slots.any (fun p => p.2.refs.any (fun r => r.handle == h))

/-- DESTROY_TENSOR's own part (R18). -/
def destroyTensor (s : State) (o : Order) : State :=
  let h := field o.bytes 0x28 4
  match s.tensor h with
  | none => complete s o ePlan []
  | some _ =>
    if handleNamed s h then complete s o ePlan []
    else complete { s with tensors := s.tensors.filter (fun t => t.handle != h) } o eOk []

/-- DESTROY_TENSOR (R18). -/
def execDestroyTensor (m n : Nat) (s : State) : Host.Outcome State Fault Refusal :=
  .next (orderCmd s m n 0x02 destroyTensor)

/-! RUN and CANCEL. -/

/-- The run extents of a RUN record. -/
def runExtents (b : List Byte) : List (Nat × Nat × Nat) :=
  (List.range (field b 0x29 1)).map (fun i =>
    (field b (0x30 + 8 * i) 2, field b (0x32 + 8 * i) 1, field b (0x34 + 8 * i) 4))

/-- The first extent above its plan bound, in reference order (R27): every run extent is compared, and the size taken where
a run gives none. -/
def shapeOver (s : State) (r : Run) : Option (Nat × Nat) :=
  (List.range r.prog.refs.length).findSome? (fun k =>
    match s.tensor (r.handle k) with
    | some t =>
      ((List.range 6).find? (fun i =>
        let given := (r.extents.filter (fun x => x.1 == k && x.2.1 == i)).map (fun x => x.2.2)
        (if given.isEmpty then [t.desc.size.getD i 0] else given).any (fun e => decide (t.desc.bound.getD i 0 < e)))).map (fun i => (k, i))
    | none => none)

/-- A value rounded to binary64 (R230). -/
def Val.f64 (v : Val) : Val := v.round 53 (-1074)

/-- β to the power t, exactly. -/
def Val.pow (v : Val) (t : Nat) : Val :=
  match v with
  | .fin n m e => .fin (n && t % 2 == 1) (m ^ t) (e * t)
  | w => w

/-- 1 / (1 - β^t) in binary64, rounded to FP32 (R230). -/
def biasCorr (beta : Val) (t : Nat) : F32 :=
  let one : Val := .fin false 1 0
  enc ((one.div ((one.add (beta.pow t).f64.negate).f64)).f64.f32)

/-- c1 and c2 of every optimiser slot written (R230). -/
def optConsts (s : State) : List (Nat × F32 × F32) :=
  (s.keys.filter (fun k => decide (0x0400 ≤ k.1) && decide (k.1 < 0x0410))).map (fun k =>
    let t := (look (k.1 - 0x0400) s.optCount).getD 0 + 1
    (k.1 - 0x0400, biasCorr (f32At k.2 8) t, biasCorr (f32At k.2 0x0C) t))

/-- The values of slots as a run takes them at acceptance (R83, R143, R144). -/
def slotKeys (s : State) : List (Nat × List Byte) := s.keys.filter (fun k => keySlot k.1)

/-- RUN's own part: the slot holds a program, the group state admits it (R233), every extent lies within its bound
(R27), no core of its team is retired (R412); then the run is accepted (R28). -/
def runOwn (s : State) (o : Order) : State :=
  let slot := field o.bytes 0x28 1
  match look slot s.slots with
  | none => complete s o ePlan []
  | some p =>
    let r : Run :=
      { tag := o.tag, qp := o.qp, mailbox := o.mailbox, number := o.number, slot := slot, prog := p
        extents := runExtents o.bytes, launch := o.beat, keys := slotKeys s, optC := optConsts s
        adapt := (s.layers.filter (fun l => l.2.live)).map (fun l => (l.1, l.2.theta, l.2.g)) }
    match (if p.needsGroup then groupRefusal s else none) with
    | some st => complete s o st []
    | none =>
      if r.extents.any (fun x => decide (p.refs.length ≤ x.1) || decide (6 ≤ x.2.1)) then complete s o ePlan []
      else
        match shapeOver s r with
        | some (k, i) => complete s o eShapeOver (leBytes 2 k ++ leBytes 1 i)
        | none =>
          let s := { s with runs := s.runs.filter (fun x => !(x.state == 3 && x.slot == slot)) ++ [r] }
          let s := beginOrder s o
          if p.team.any (fun c => (s.core c).retired) then endRun s r.tag eWatchdog else s

/-- RUN (R27). -/
def execRun (m n : Nat) (s : State) : Host.Outcome State Fault Refusal := .next (orderCmd s m n 0x04 runOwn)

/-- CANCEL's own part (R192). -/
def cancelOwn (s : State) (o : Order) : State :=
  let t := field o.bytes 0x28 8
  match s.live t with
  | none => complete s o ePlan []
  | some r =>
    if r.state = 0 then complete (endRun s t eCancelled) o eOk []
    else
      let s := beginOrder s o
      let s := stopRun s t eCancelled 0xFFFF
      s.onRun t (fun r => { r with cancelBy := r.cancelBy ++ [(o.mailbox, o.number)] })

/-- CANCEL (R192). -/
def execCancel (m n : Nat) (s : State) : Host.Outcome State Fault Refusal := .next (orderCmd s m n 0x05 cancelOwn)

/-! MAP_PAGES. -/

/-- Installed DDR (R302). -/
abbrev ddrBytes : Nat := 3072000000000

/-- The checks M1 to M3 on one 32-byte entry (Table 7.5): status and number of the first that fails. -/
def entryCheck (s : State) (e : List Byte) : Option (BitVec 8 × Nat) :=
  let k := field e 4 1
  let p := field e 6 2
  let t := field e 8 8
  let key := field e 0x10 4
  let m1 := decide (k ≤ 3) && !bit (field e 0 4) 31 && decide (field e 5 1 ≤ 1) && field e 0x14 12 == 0 &&
    (match k with
     | 0 => t == 0 && key == 0 && p == 0
     | 1 => key == 0 && p == 0
     | 2 => key == 0
     | _ => true)
  let m2 := match k with
    | 1 => t % 2097152 == 0 && decide (t + 2097152 ≤ ddrBytes)
    | 2 => decide (p ≤ 1023) && t % 2097152 == 0 && decide (t < 2 ^ 52)
    | 3 => t % 4096 == 0
    | _ => true
  if !m1 then some (ePlan, 1)
  else if !m2 then some (eRange, 2)
  else if k = 3 ∧ !(qpUp s p && qpBound s p) then some (ePlan, 3)
  else none

/-- One entry applied to the translation store (R187). -/
def mapEntry (x : List (Nat × XEntry)) (e : List Byte) : List (Nat × XEntry) :=
  let page := field e 0 4
  if field e 4 1 = 0 then erase page x
  else put page (field e 4 1, field e 5 1, field e 6 2, field e 8 8, field e 0x10 4) x

/-- The 32-byte entries of a list. -/
def entriesOf (n : Nat) (d : List Byte) : List (List Byte) := (List.range n).map (fun i => slice d (32 * i) 32)

/-- MAP_PAGES' own part (R186, R187). -/
def mapPagesOwn (d : Option (List Byte)) (s : State) (o : Order) : State :=
  let n := field o.bytes 0x2A 2
  if n = 0 ∨ 4096 < n then complete s o ePlan []
  else
    let s := hostAsk s o
    match hostRead s o d (32 * n) with
    | none => complete s o eDataLost []
    | some d =>
      let es := entriesOf n d
      match ((List.range n).zip es).findSome? (fun e => (entryCheck s e.2).map (fun c => (c, e.1))) with
      | some ((st, k), i) => refuse s o st 0x4D k i
      | none =>
        let x := es.foldl mapEntry s.mem.xlate
        if 2097152 < x.length then refuse s o eRange 0x4D 4 0
        else
          let pages := es.map (fun e => field e 0 4)
          let s := { s with
            mem := { s.mem with xlate := x }
            cores := s.cores.map (fun c => (c.1, { c.2 with xcache := c.2.xcache.filter (fun e => !pages.contains e.1) })) }
          complete s o eOk []

/-- MAP_PAGES (R186). -/
def execMapPages (m n : Nat) (d : Option (List Byte)) (s : State) : Host.Outcome State Fault Refusal :=
  .next (orderCmd s m n 0x07 (mapPagesOwn d))

/-! QUERY. -/

/-- A halt entry (R361). -/
def haltBytes (h : Halt) : List Byte :=
  leBytes 2 h.mi ++ leBytes 1 h.position ++ leBytes 1 h.operand ++ leBytes 1 h.reason ++ leBytes 3 0 ++ leBytes 4 h.page
    ++ leBytes 4 0

/-- A tile status log entry (Table 2.6). -/
def logBytes (e : LogEntry) : List Byte :=
  leBytes 2 e.mi ++ leBytes 1 e.position ++ leBytes 1 0 ++ leBytes 4 e.tile ++ leBytes 4 e.status.toNat ++ leBytes 4 0

/-- A predicted-layer entry (R361). -/
def layerBytes (l : LayerUse) : List Byte :=
  leBytes 2 l.mi ++ leBytes 1 l.slot ++ leBytes 1 0 ++ leBytes 4 l.theta.toNat ++ leBytes 4 l.g.toNat ++ leBytes 4 0

/-- The record of a run (Table 13.9 and what follows it). -/
def runRecord (r : Run) : List Byte :=
  let ended := r.state == 3
  leBytes 1 r.state ++ [if ended then r.status else 0] ++ leBytes 2 (if ended then r.failMi else 0xFFFF)
    ++ leBytes 4 r.log.length ++ leBytes 4 r.halts.length ++ leBytes 4 r.layers.length ++ leBytes 8 r.startBeat
    ++ leBytes 8 (if ended then r.endBeat else 0) ++ leBytes 4 r.lateWaits ++ leBytes 1 (b2n r.lateLaunch)
    ++ leBytes 11 0 ++ r.log.flatMap logBytes ++ r.halts.flatMap haltBytes ++ r.layers.flatMap layerBytes

/-- The push record (Table 10.6); zero bytes when there has been no push. -/
def pushBytes (p : Option PushRec) : List Byte :=
  match p with
  | none => leBytes 160 0
  | some p =>
    leBytes 4 p.key ++ leBytes 8 p.deadline ++ leBytes 2 p.countMin ++ leBytes 2 p.countMax
      ++ leBytes 1 (b2n p.ownLate + 2 * b2n p.viewChanged) ++ leBytes 15 0 ++ leBytes 128 (bitsMask p.included)

/-- The group state record (Table 9.9). -/
def groupFlags (s : State) : Nat :=
  b2n (s.group.rank = s.group.keeper ∧ s.group.rank ≠ 0xFFFF) + 2 * b2n s.beat.holdover + 4 * b2n s.beat.slewing
    + 8 * b2n s.beat.sourceLocked

/-- See groupFlags. -/
def groupRecord (s : State) : List Byte :=
  let g := s.group
  leBytes 1 g.state ++ leBytes 1 (groupFlags s) ++ leBytes 2 g.rank ++ leBytes 2 g.keeper ++ leBytes 2 g.view.length
    ++ leBytes 4 g.epoch ++ leBytes 4 s.beat.holdoverBt ++ leBytes 8 s.beat.number ++ leBytes 4 (encInt 32 s.beat.error)
    ++ leBytes 1 s.beat.depth ++ leBytes 3 0 ++ configDigest s ++ leBytes 128 (bitsMask g.view)

/-- Whole frames of DDR (R303). -/
abbrev wholeFrames : Nat := 1464843

/-- Progress of background zeroing in thousandths (R318). -/
def zeroPermille (s : State) : Nat := if s.mem.zeroing then s.mem.zeroAt * 1000 / 48000000000 else 1000

/-- The devices of a channel marked failed (Table 11.3). -/
def markedBits (c : Chan) : Nat := bitsMask (c.marked.map (fun x => 20 * x.1 + 10 * x.2.1 + x.2.2))

/-- The memory state record (Table 11.3). -/
def memoryRecord (s : State) : List Byte :=
  leBytes 2 s.mem.ddrRate ++ leBytes 2 0 ++ leBytes 4 (bitsMask (below 24 (fun c => (s.chan c).lost)))
    ++ leBytes 4 (if sessionOpen s then wholeFrames - s.mem.filled.length else wholeFrames)
    ++ leBytes 4 (zeroPermille s) ++ (List.range 24).flatMap (fun c => leBytes 8 (markedBits (s.chan c)))

/-- One route entry (Table 10.5): the device itself, a routed rank, or an unreachable one. -/
def routeBytes (s : State) (rank : Nat) : List Byte :=
  match s.routes.find? (fun r => r.rank == rank) with
  | some r => leBytes 1 r.hops ++ leBytes 1 r.state ++ leBytes 2 r.next ++ leBytes 12 (bitsMask r.links)
  | none =>
    if rank = s.group.rank then leBytes 1 0 ++ leBytes 1 1 ++ leBytes 2 0xFFFF ++ leBytes 12 0
    else leBytes 2 0 ++ leBytes 2 0xFFFF ++ leBytes 12 0

/-- The image header of the running copy (R386). -/
def runningImage (s : State) : List Byte := if s.trust.running = 0 then s.trust.copyA.image else s.trust.copyB.image

/-- fw_major, fw_minor, fw_patch of the running image (R386), 2 bytes each. -/
def fwVersion (s : State) : List Byte := slice (runningImage s) 6 6

/-- The device record (Table 13.10, kind 10). -/
def deviceRecord (s : State) : List Byte :=
  leBytes 8 s.trust.serial ++ fwVersion s ++ leBytes 1 s.pins.ladderAddr ++ leBytes 1 (b2n (sessionOpen s))
    ++ leBytes 8 s.beat.number ++ configDigest s ++ leBytes 8 0

/-- Bytes of the staged values. -/
def stagedBytes (l : List (Nat × List Byte)) : Nat := (l.map (fun e => e.2.length)).sum

/-- The transaction record (Table 13.10, kind 11). -/
def txnRecord (s : State) : List Byte :=
  match s.txn.state, s.prepared with
  | 0, some p =>
    leBytes 1 3 ++ leBytes 1 1 ++ leBytes 2 p.staged.length ++ leBytes 4 (stagedBytes p.staged) ++ leBytes 8 p.beat
      ++ leBytes 2 p.coordinator ++ leBytes 14 0
  | st, _ =>
    leBytes 1 st ++ leBytes 1 (b2n s.txn.group) ++ leBytes 2 s.txn.staged.length ++ leBytes 4 (stagedBytes s.txn.staged)
      ++ leBytes 8 s.txn.commitBeat ++ leBytes 2 (if s.txn.group then s.group.rank else 0) ++ leBytes 14 0

/-- The record that QUERY returns (Table 13.10), none for an unknown kind or an object that does not exist. -/
def queryRecord (s : State) (kind obj : Nat) : Option (List Byte) :=
  match kind with
  | 1 => (s.run obj).map runRecord
  | 2 => (s.tensor obj).map (fun t => descBytes t.desc ++ leBytes 4 t.stepCount ++ leBytes 28 0 ++ pushBytes t.push)
  | 3 =>
    if 256 ≤ obj then none
    else
      let l := (look obj s.layers).getD {}
      some (leBytes 4 l.theta.toNat ++ leBytes 4 l.g.toNat ++ leBytes 4 l.accAudited ++ leBytes 4 l.accMissed
        ++ leBytes 4 l.changes ++ leBytes 12 0)
  | 4 => if 16 ≤ obj then none else some (leBytes 4 ((look obj s.optCount).getD 0) ++ leBytes 28 0)
  | 5 => if obj ≠ 0 then none else some (groupRecord s)
  | 6 => if obj ≠ 0 then none else some (memoryRecord s)
  | 7 => if obj ≠ 0 then none else some ((List.range 1024).flatMap (routeBytes s))
  | 8 =>
    match keySize obj with
    | none => none
    | some _ => let v := if keyWriteOnly obj then [] else keyNow s obj; some (leBytes 4 v.length ++ v)
  | 9 =>
    if 16 ≤ obj then none
    else match look obj s.slots with
      | some p => some (leBytes 16 (bitsMask p.team) ++ p.digest ++ leBytes 2 p.recs.length ++ leBytes 1 1 ++ leBytes 13 0)
      | none => some (leBytes 64 0)
  | 10 => if obj ≠ 0 then none else some (deviceRecord s)
  | 11 => if obj ≠ 0 then none else some (txnRecord s)
  | _ => none

/-- QUERY's own part (R361, R356). -/
def queryOwn (s : State) (o : Order) : State :=
  match queryRecord s (field o.bytes 0x28 1) (field o.bytes 0x30 8) with
  | none => complete s o ePlan []
  | some d =>
    if o.resultLen < d.length then complete s o eRange (resultDetail 0 d.length)
    else complete (sendResult s o d) o eOk (resultDetail d.length d.length)

/-- QUERY (R361). -/
def execQuery (m n : Nat) (s : State) : Host.Outcome State Fault Refusal := .next (orderCmd s m n 0x06 queryOwn)

/-! READ_COUNTERS and READ_COFFER. -/

/-- The tables of a scope (R362, R384): table number and first and last row + 1, ascending. -/
def scopeTables : Nat → List (Nat × Nat)
  | 0 => [(0x090A, Ctr.rows090A), (0x0A08, Ctr.rows0A08), (0x0B00, 1), (0x0D0D, Ctr.rows0D0D), (0x0E04, 2),
          (0x0F09, Ctr.rows0F09), (0x1009, Ctr.rows1009), (0x1109, Ctr.rows1109)]
  | 1 => [(0x0207, Ctr.rows0207), (0x0307, Ctr.rows0307), (0x0409, Ctr.rows0409), (0x0505, Ctr.rows0505),
          (0x0607, Ctr.rows0607), (0x070B, Ctr.rows070B), (0x0809, Ctr.rows0809), (0x0E03, 68)]
  | 2 => [(0x0A07, Ctr.rows0A07), (0x0E03, 16)]
  | 3 => [(0x0B05, Ctr.rows0B05), (0x0E03, 20)]
  | 4 => [(0x0C0A, Ctr.rows0C0A)]
  | 5 => [(0x0C00, 2)]
  | 6 => [(0x0E03, 20)]
  | _ => []

/-- Units of a scope (Table 13.5). -/
def scopeUnits : Nat → Nat
  | 0 => 1
  | 1 => 128
  | 2 => 96
  | 3 => 24
  | 4 => 16
  | 5 => 4096
  | 6 => 22
  | _ => 0

/-- Table 0x0E03 of each scope is kept apart in the store of counters: rows of classes 0 and 1, 2, 3 and 4. -/
def arbTable (scope : Nat) : Nat := 0x0E03 + 0x10000 * scope

/-- The store's number for a table of a scope. -/
def storeTable (scope t : Nat) : Nat := if t = 0x0E03 then arbTable scope else t

/-- The entries of one unit (R362). -/
def unitEntries (s : State) (scope unit : Nat) : List (List Byte) :=
  (scopeTables scope).flatMap (fun t => (List.range t.2).map (fun r =>
    leBytes 2 t.1 ++ leBytes 2 r ++ leBytes 2 unit ++ leBytes 2 0 ++ leBytes 8 (s.counter (storeTable scope t.1, r) unit)))

/-- READ_COUNTERS' own part (R362, R356). -/
def readCountersOwn (s : State) (o : Order) : State :=
  let scope := field o.bytes 0x28 1
  let first := field o.bytes 0x2A 2
  let n := field o.bytes 0x2C 2
  if 6 < scope then complete s o ePlan []
  else if n = 0 ∨ scopeUnits scope < first + n then complete s o eRange []
  else
    let es := (List.range n).flatMap (fun i => unitEntries s scope (first + i))
    let fit := (es.take (o.resultLen / 16)).flatten
    complete (sendResult s o fit) o eOk (resultDetail fit.length (16 * es.length))

/-- READ_COUNTERS (R362). -/
def execReadCounters (m n : Nat) (s : State) : Host.Outcome State Fault Refusal :=
  .next (orderCmd s m n 0x12 readCountersOwn)

/-- A coffer entry's 64 bytes (Table 16.5): its CRC-32 over bytes 0x00 to 0x3B ends it. -/
def cofferBytes (e : CofferEntry) : List Byte :=
  let b := leBytes 8 e.seq ++ leBytes 8 e.beat ++ leBytes 4 e.boot ++ leBytes 2 e.kind ++ leBytes 2 0 ++ slice e.payload 0 36
  b ++ leBytes 4 (crc32 b)

/-- Entries of a part that either copy holds, copy 0 first (R424), and those unreadable in both, as LOST (R429). -/
def cofferPart (s : State) (part : Nat) : List CofferEntry :=
  let pick := fun (l : List (Nat × CofferEntry)) => (l.filter (fun e => e.2.part == part)).map (·.2)
  let a := pick s.coffer.copy0
  a ++ (pick s.coffer.copy1).filter (fun e => !a.any (fun x => x.seq == e.seq)) ++ s.coffer.lost.filter (fun e => e.part == part)

/-- Entries in ascending sequence number. -/
def sortSeq (l : List CofferEntry) : List CofferEntry :=
  ((l.map (fun e => (e.seq, e))).foldl (fun m p => put p.1 p.2 m) []).map (·.2)

/-- READ_COFFER's own part (R431, R356). -/
def readCofferOwn (s : State) (o : Order) : State :=
  let first := field o.bytes 0x28 8
  let max := field o.bytes 0x30 4
  if max = 0 ∨ 65536 < max then complete s o ePlan []
  else
    let all := (sortSeq ((cofferPart s 1 ++ cofferPart s 2).filter (fun e => decide (first ≤ e.seq)))).take max
    let fit := all.take ((o.resultLen - 32) / 64)
    let oldest := ((cofferPart s 2).map (fun e => e.seq)).foldl Nat.min s.coffer.nextSeq
    let hd := leBytes 8 s.coffer.nextSeq ++ leBytes 8 oldest ++ leBytes 4 s.coffer.journalUsed ++ leBytes 4 fit.length
      ++ leBytes 8 s.trust.next
    let need := 32 + 64 * all.length
    if o.resultLen < 32 then complete s o eOk (resultDetail 0 need)
    else
      let d := hd ++ fit.flatMap cofferBytes
      complete (sendResult s o d) o eOk (resultDetail d.length need)

/-- READ_COFFER (R431). -/
def execReadCoffer (m n : Nat) (s : State) : Host.Outcome State Fault Refusal :=
  .next (orderCmd s m n 0x13 readCofferOwn)

end Sys2Proof.Machine
end

