-- ==== Sys2Proof/Machine/Geometry.lean ====
section
/-!
DEFINITION. The geometry of macro-instructions: reduction steps (R34, R110), which operand element meets which output
element (R32, R117, R173, R203, R470, R472), output tiles and work items (R31, R86), and copy-class work units (R161).
-/

namespace Sys2Proof.Machine

/-- The reduction step of the wider of two operand formats (Table 2.1). -/
def stepDepth (fa fb : Nat) : Nat :=
  let w := max (fmtBits fa) (fmtBits fb)
  if w ≤ 4 then 128 else if w ≤ 8 then 64 else 32

/-- Kernel width of a window geometry word (Table 6.11). -/
def MRec.kw (m : MRec) : Nat := bits m.imm0 0 4 + 1
/-- Kernel height. -/
def MRec.kh (m : MRec) : Nat := bits m.imm0 4 4 + 1
/-- Stride along x. -/
def MRec.sx (m : MRec) : Nat := bits m.imm0 8 4 + 1
/-- Stride along y. -/
def MRec.sy (m : MRec) : Nat := bits m.imm0 12 4 + 1
/-- Dilation along x. -/
def MRec.dx (m : MRec) : Nat := bits m.imm0 16 4 + 1
/-- Dilation along y. -/
def MRec.dy (m : MRec) : Nat := bits m.imm0 20 4 + 1
/-- Padding along x. -/
def MRec.px (m : MRec) : Nat := bits m.imm0 24 4
/-- Padding along y. -/
def MRec.py (m : MRec) : Nat := bits m.imm0 28 4

/-- TURN of a BWD_DATA (Table 8.4). -/
def MRec.turn (m : MRec) : Bool := bit m.imm0 23

/-- The epilogue selection word of a record (R77, Tables 3.5, 8.4, 8.7): imm0, but for CONV_W, whose imm0 is its
window geometry (R173) and whose epilogue is that of a word of zero (DEDUCED, log 50). -/
def MRec.epiWord (m : MRec) : Nat := if m.opcode = opConv then 0 else m.imm0

/-- SCALE_EXP of an engine record's word (Tables 3.5, 8.4, 8.7). -/
def MRec.scaleExp (m : MRec) : Int := decInt 8 (bits m.epiWord 24 8)

/-- Group size of GATHER and SCATTER_ADD (Table 6.10). -/
def MRec.group (m : MRec) : Nat := bits m.imm0 0 24

/-- The split factor of a record: 1 without SPLIT (Table 1.7). -/
def MRec.split (m : MRec) : Nat := if m.flag 5 then m.beat % 256 else 1

/-- S24 crates of B pass the selector (R109). -/
def selects (m : MRec) (b : Desc) : Bool := m.opcode == opS24 || (m.opcode == opBwdData && !m.turn && b.form == 2)

/-- The reduction step of a record: a logical step where S24 crates pass the selector, a K tile of the merge path. -/
def redStep (m : MRec) (a b : Desc) : Nat :=
  if m.opcode = opSpmm then 64 else stepDepth a.format b.format * (if selects m b then 2 else 1)

/-- Cq of CONV_W (R173). -/
def convCq (a b : Desc) : Nat := roundUp (a.bnd 0) (stepDepth a.format b.format)

/-- The reduction extent for some extents of A (R470, R117, R173, R203). -/
def redExtent (m : MRec) (a b : Desc) (ea : List Nat) : Nat :=
  if m.opcode = opConv then m.kh * m.kw * convCq a b
  else if m.opcode = opBwdWeight then ext a.rank ea 1
  else ext a.rank ea 0

/-- Plane coordinates of an operand of some rank for output plane coordinates (R472). -/
def hiFor (rank crank : Nat) (hi : List Nat) : List Nat :=
  (List.range 4).map (fun i => if i + 2 < rank ∧ i + 2 < crank then hi.getD i 0 else 0)

/-- A coordinate clamped into an extent (R165), and whether it clamped. -/
def clampTo (e : Nat) (x : Int) : Nat × Bool :=
  if x < 0 then (0, true) else if (e : Int) ≤ x then (e - 1, true) else (x.toNat, false)

/-- The input element of CONV_W for output pixel x i, plane (oy, nb), and reduction index k (R173, R174). -/
def convIn (m : MRec) (a b : Desc) (ea hi : List Nat) (i k : Nat) : List Nat × Bool :=
  let cq := max (convCq a b) 1
  let tap := k / cq
  let x := clampTo (ext a.rank ea 1) ((i * m.sx + tap % m.kw * m.dx : Nat) - (m.px : Nat))
  let y := clampTo (ext a.rank ea 2) ((hi.getD 0 0 * m.sy + tap / m.kw * m.dy : Nat) - (m.py : Nat))
  let n := clampTo (ext a.rank ea 3) (hi.getD 1 0 : Nat)
  ([k % cq, x.1, y.1, n.1, 0, 0], x.2 || y.2 || n.2)

/-- Coordinates of A's element for output (row i, column j) of a plane and reduction index k, CONV_W aside. -/
def aCoord (m : MRec) (a c : Desc) (hi : List Nat) (i k : Nat) : List Nat :=
  (if m.opcode = opBwdWeight then [i, k] else [k, i]) ++ hiFor a.rank c.rank hi

/-- Coordinates of B's element for output column j of a plane and reduction index k. -/
def bCoord (m : MRec) (b c : Desc) (hi : List Nat) (j k : Nat) : List Nat :=
  (if m.opcode = opSpmm ∨ (m.opcode = opBwdData ∧ m.turn) then [k, j] else [j, k]) ++
    (if m.opcode = opConv then [0, 0, 0, 0] else hiFor b.rank c.rank hi)

/-- Plane, tile row and tile column of tile k of an enumeration (R31). -/
def tileOf (col : Bool) (trows tcols k : Nat) : Nat × Nat × Nat :=
  let r := k % max (trows * tcols) 1
  if col then (k / max (trows * tcols) 1, r % max trows 1, r / max trows 1)
  else (k / max (trows * tcols) 1, r / max tcols 1, r % max tcols 1)

/-- Output tiles of a tensor over some extents. -/
def tileCount (d : Desc) (e : List Nat) : Nat := planesOf d.rank e * cdiv (ext d.rank e 1) 64 * cdiv (ext d.rank e 0) 64

/-- The destination coordinate's source (R166): COPY, COMPRESS, TRANSPOSE, PERMUTE. -/
def srcCoord (m : MRec) (rank : Nat) (x : List Nat) : List Nat :=
  if m.opcode = opTranspose then
    let a := bits m.imm0 0 3
    let b := bits m.imm0 3 3
    (List.range 6).map (fun i => if i = a then x.getD b 0 else if i = b then x.getD a 0 else x.getD i 0)
  else if m.opcode = opPermute then
    (List.range 6).map (fun i =>
      match (List.range rank).find? (fun j => bits m.imm0 (3 * j) 3 == i) with
      | some j => x.getD j 0
      | none => 0)
  else x

/-- Whether two footprints share a byte or a tile (R167). -/
def footprintsMeet (a c : Desc) (team : Nat) : Bool :=
  a.placement == c.placement &&
    (if a.placement = 2 then overlap a.base (a.footprint team / 16384) c.base (c.footprint team / 16384)
     else overlap a.base (a.footprint team) c.base (c.footprint team))

/-- An in-place TRANSPOSE that L12 accepts (R168). -/
def inPlaceOk (m : MRec) (a c : Desc) : Bool :=
  let x := bits m.imm0 0 3
  let y := bits m.imm0 3 3
  m.opcode == opTranspose && a.placement == c.placement && a.base == c.base && a.length == c.length
    && a.format == c.format && a.form == c.form && a.layout == c.layout && a.stride == c.stride
    && a.bound == c.bound && a.bound.getD x 0 == a.bound.getD y 0 && (a.form == 0 || (x == 0 && y == 1))

/-- A record is an in-place TRANSPOSE. -/
def inPlace (m : MRec) (a c : Desc) (team : Nat) : Bool := footprintsMeet a c team && inPlaceOk m a c

/-- The dimensions of a tensor other than a pair, ascending. -/
def otherDims (rank x y : Nat) : List Nat := below rank (fun i => i != x && i != y)

/-- Coordinates of plane k over some dimensions, the first fastest (R168). -/
def dimCoords (e : List Nat) : List Nat → Nat → List (Nat × Nat)
  | [], _ => []
  | d :: r, k => (d, k % max (e.getD d 0) 1) :: dimCoords e r (k / max (e.getD d 0) 1)

/-- The tile pairs (u, v), u ≤ v, of n tiles a side, in row-major order (R168). -/
def tilePairs (n : Nat) : List (Nat × Nat) :=
  (List.range n).flatMap (fun u => (List.range (n - u)).map (fun k => (u, u + k)))

/-- The work units of an in-place TRANSPOSE (R168): fixed coordinates of the plane, u and v. -/
def inPlaceUnits (m : MRec) (d : Desc) (e : List Nat) : List (List (Nat × Nat) × Nat × Nat) :=
  let x := bits m.imm0 0 3
  let y := bits m.imm0 3 3
  let os := otherDims d.rank x y
  let planes := os.foldl (fun p i => p * ext d.rank e i) 1
  (List.range planes).flatMap (fun p => (tilePairs (cdiv (ext d.rank e x) 64)).map (fun q => (dimCoords e os p, q.1, q.2)))

/-- Coordinates of element (r along DIM_A, c along DIM_B) of tile (u, v) of an in-place TRANSPOSE. -/
def pairCoord (m : MRec) (fixed : List (Nat × Nat)) (u v r c : Nat) : List Nat :=
  let x := bits m.imm0 0 3
  let y := bits m.imm0 3 3
  (List.range 6).map (fun i => if i = x then 64 * u + r else if i = y then 64 * v + c else (look i fixed).getD 0)

/-- Rows of a tensor: lines along dimension 0 (R219). -/
def rowCount (d : Desc) (e : List Nat) : Nat := ext d.rank e 1 * planesOf d.rank e

/-- Coordinates of element k of row r. -/
def rowCoord (d : Desc) (e : List Nat) (r k : Nat) : List Nat :=
  let n := max (ext d.rank e 1) 1
  [k, r % n] ++ planeCoords d.rank e (r / n)

/-- Tiles (plane coordinates, tile row, tile column) of operand k that an output tile of an engine record needs, for
operands with some extents, over reduction indexes lo to top - 1. -/
def tilesNeeded (m : MRec) (d : Nat → Desc) (e : Nat → List Nat) (lo top k : Nat) (hi : List Nat) (r t : Nat) :
    List (List Nat × Nat × Nat) :=
  let part := fun (n : Nat) => below n (fun u => decide (64 * u < top) && decide (lo < 64 * u + 64))
  let rows := fun (k : Nat) => cdiv (ext (d k).rank (e k) 1) 64
  let cols := fun (k : Nat) => cdiv (ext (d k).rank (e k) 0) 64
  let c := d 2
  match k with
  | 0 =>
    if m.opcode = opConv then
      let cq := convCq (d 0) (d 1)
      let taps := below (m.kh * m.kw) (fun q => decide (q * cq < top) && decide (lo < (q + 1) * cq))
      let xs := (List.range (min 64 (ext c.rank (e 2) 1 - 64 * r))).flatMap (fun i =>
        taps.map (fun q => (convIn m (d 0) (d 1) (e 0) hi (64 * r + i) (q * cq)).1))
      (xs.flatMap (fun x => (List.range (cols 0)).map (fun u => (x.drop 2, x.getD 1 0 / 64, u)))).eraseDups
    else if m.opcode = opBwdWeight then (part (rows 0)).map (fun u => (hiFor (d 0).rank c.rank hi, u, r))
    else (part (cols 0)).map (fun u => (hiFor (d 0).rank c.rank hi, r, u))
  | 1 =>
    let h := if m.opcode = opConv then [0, 0, 0, 0] else hiFor (d 1).rank c.rank hi
    if m.opcode = opSpmm ∨ (m.opcode = opBwdData ∧ m.turn) then (part (cols 1)).map (fun u => (h, t, u))
    else (part (rows 1)).map (fun u => (h, u, t))
  | 2 => [(hi, r, t)]
  | _ => if m.flag 1 ∨ (m.opcode = opBwdData ∧ bits m.imm0 16 6 ≠ 0) then
           [(hiFor (d 3).rank c.rank hi, if ext (d 3).rank (e 3) 1 = 1 then 0 else r, t)] else []

/-- The tile that holds an element. -/
def tileOfCoord (x : List Nat) : List Nat × Nat × Nat := (x.drop 2, x.getD 1 0 / 64, x.getD 0 0 / 64)

/-- Every tile of a tensor over some extents. -/
def allTiles (d : Desc) (e : List Nat) : List (List Nat × Nat × Nat) :=
  (List.range (planesOf d.rank e)).flatMap (fun pl =>
    (List.range (cdiv (ext d.rank e 1) 64)).flatMap (fun r =>
      (List.range (cdiv (ext d.rank e 0) 64)).map (fun t => (planeCoords d.rank e pl, r, t))))

/-- The tiles of group j of a tensor's element sequence over some extents (R169). -/
def groupTiles (d : Desc) (e : List Nat) (g j : Nat) : List (List Nat × Nat × Nat) :=
  let v : View := { d := d, e := e }
  ((below g (fun i => decide (j * g + i < v.count))).map (fun i => tileOfCoord (v.seqCoord (j * g + i) ++ [0, 0, 0, 0]))).eraseDups

/-- Groups of g elements of one sequence moved to places of groups of another keep blocks of n elements along a dimension
whole, whatever the indexes (R162, R169): extents of dimensions 0 and 1 of the source and of the destination. -/
def groupsKeepBlocks (g n dim a0 a1 c0 c1 : Nat) : Bool :=
  if dim = 0 then (g % n == 0 && a0 % n == 0 && c0 % n == 0) || (a0 == c0 && g % a0 == 0)
  else a0 == c0 && ((g % (n * a0) == 0 && a1 % n == 0 && c1 % n == 0) || (a1 == c1 && g % (a0 * a1) == 0))

/-- Coordinates clamped into some extents (R165). -/
def clampCoord (rank : Nat) (e x : List Nat) : List Nat :=
  (List.range 6).map (fun i => if i < rank then (clampTo (ext rank e i) (x.getD i 0 : Nat)).1 else 0)

/-- The tiles of operand k that work unit w of a record needs, over the enumeration of R31 and R161, for operands with
some extents, a team of some size, and gcols tile columns of the first record that a PREDICT governs. The groups that a
GATHER reads and a SCATTER_ADD adds into are named by indexes, so that each may be any (DEDUCED, log 91). -/
def unitNeeds (m : MRec) (d : Nat → Desc) (e : Nat → List Nat) (lo top gcols team w k : Nat) : List (List Nat × Nat × Nat) :=
  let a := d 0
  let c := d 2
  let o := m.opcode
  if isEngine o then
    let (pl, r, t) := tileOf (m.flag 4) (cdiv (ext c.rank (e 2) 1) 64) (cdiv (ext c.rank (e 2) 0) 64) w
    tilesNeeded m d e lo top k (planeCoords c.rank (e 2) pl) r t
  else if o = opPredict then
    if k = 0 then allTiles (d 0) (e 0)
    else if k = 1 ∧ w < gcols then (List.range (cdiv (ext (d 1).rank (e 1) 1) 64)).map (fun u => ([0, 0, 0, 0], u, w)) else []
  else if o = opRowop ∨ o = opRowopBwd then
    if k = 3 then [] else [tileOfCoord (rowCoord (d k) (e k) w 0)]
  else if o = opGather then
    if k = 0 then allTiles a (e 0) else if k = 2 then groupTiles c (e 2) m.group w else []
  else if o = opScatter then
    if k = 0 then groupTiles a (e 0) m.group w else if k = 2 then allTiles c (e 2) else []
  else if inPlace m a c team then
    match (inPlaceUnits m c (e 2))[w]? with
    | some (fx, u, v) =>
      if k = 3 then []
      else ((List.range 64).flatMap (fun r => (List.range 64).flatMap (fun q =>
        [tileOfCoord (pairCoord m fx u v r q), tileOfCoord (pairCoord m fx v u r q)]))).eraseDups
    | none => []
  else
    let (pl, r, t) := tileOf false (cdiv (ext c.rank (e 2) 1) 64) (cdiv (ext c.rank (e 2) 0) 64) w
    let hi := planeCoords c.rank (e 2) pl
    if k = 2 then [(hi, r, t)]
    else if k = 0 then
      ((List.range (min 64 (ext c.rank (e 2) 1 - 64 * r))).flatMap (fun i =>
        (List.range (min 64 (ext c.rank (e 2) 0 - 64 * t))).map (fun j =>
          tileOfCoord (clampCoord a.rank (e 0) (srcCoord m a.rank (View.coords r t hi i j)))))).eraseDups
    else []

/-- The number of work units of a record for some extents. -/
def unitCount (m : MRec) (d : Nat → Desc) (e : Nat → List Nat) (gtiles team : Nat) : Nat :=
  let c := d 2
  let o := m.opcode
  if isEngine o then tileCount c (e 2)
  else if o = opPredict then gtiles
  else if o = opRowop ∨ o = opRowopBwd then rowCount (d 0) (e 0)
  else if o = opGather ∨ o = opScatter then ext (d 3).rank (e 3) 0
  else if isCopy o then
    if inPlace m (d 0) c team then (inPlaceUnits m c (e 2)).length else tileCount c (e 2)
  else 0

/-- GOVERNED of a PREDICT (Table 5.1). -/
def MRec.governed (m : MRec) : Nat := bits m.imm0 10 2
/-- MODE of a PREDICT. -/
def MRec.pmode (m : MRec) : Nat := bits m.imm0 0 4
/-- TEST of a PREDICT. -/
def MRec.ptest (m : MRec) : Nat := bits m.imm0 4 4

/-- The PREDICT that governs a record, if one does (R125). -/
def Program.governor (p : Program) (mi : Nat) : Option Nat :=
  [1, 2].findSome? (fun k =>
    if k ≤ mi ∧ (p.recs.getD (mi - k) {}).opcode = opPredict ∧ k ≤ (p.recs.getD (mi - k) {}).governed then some (mi - k)
    else none)

/-- FUNC of a row word (Table 8.5). -/
def MRec.func (m : MRec) : Nat := bits m.imm0 24 8
/-- PARAM of a row word. -/
def MRec.param (m : MRec) : Nat := bits m.imm0 16 5

/-- A normalisation function. -/
def funcNorm (f : Nat) : Bool := f == 1 || f == 2
/-- An update function. -/
def funcUpdate (f : Nat) : Bool := f == 0x10 || f == 0x11 || f == 0x12

/-- The ROWOPs whose statistics go to the side memory (R221), in program order. -/
def Program.statSources (p : Program) : List Nat :=
  below p.recs.length (fun i =>
    let m := p.recs.getD i {}
    m.opcode == opRowop && !funcUpdate m.func && m.opD == 0xFFFF &&
      p.recs.any (fun c => c.opcode == opRowopBwd && match c.loftUse with
        | some (_, _, src) => src == i
        | none => false))

end Sys2Proof.Machine
end

