-- ==== Sys2Proof/Machine/Loader.lean ====
section
/-!
DEFINITION. LOAD_PROGRAM: the program image (R19), the loader's checks L1 to L14 (R24 and the rules that add to it), the
bits of R25, and the slot's new contents (R26).
-/

namespace Sys2Proof.Machine

/-! The image. -/

/-- A reference entry (Table 1.6). -/
def parseRef (b : List Byte) : Ref :=
  { handle := field b 0 4, format := field b 4 1, form := field b 5 1, layout := field b 6 1, access := field b 7 1 }

/-- A macro-instruction record (Table 1.7). -/
def parseRec (b : List Byte) : MRec :=
  { opcode := field b 0 1, flags := field b 1 1, cellarBase := field b 2 1, cellarCount := field b 3 1
    opA := field b 4 2, opB := field b 6 2, opC := field b 8 2, opD := field b 0x0A 2
    imm0 := field b 0x0C 4, imm1 := field b 0x10 8, beat := field b 0x18 8 }

/-- A program from its image, bound to a team (Tables 1.5 to 1.7). -/
def parseProgram (b : List Byte) (team : List Nat) : Program :=
  let nr := field b 0x0A 2
  { team := team, header := slice b 0 32, digest := slice b 0x20 32, mode := field b 0x0C 1
    scratchBytes := field b 0x10 4, loftBytes := field b 0x14 4, cellarPeak := field b 0x18 1
    refs := (List.range nr).map (fun i => parseRef (slice b (0x40 + 16 * i) 16))
    recs := (List.range (field b 6 2)).map (fun i => parseRec (slice b (0x40 + 16 * nr + 32 * i) 32)) }

/-- Check L1 (Table 1.9). -/
def checkL1 (b : List Byte) : Bool :=
  let mc := field b 6 2
  let ts := field b 8 2
  let nr := field b 0x0A 2
  let sc := field b 0x10 4
  let lf := field b 0x14 4
  let pk := field b 0x18 1
  decide (64 ≤ b.length) && field b 0 4 == 0x46524E31 && field b 4 2 == 1 && decide (1 ≤ mc) && decide (mc ≤ 16384)
    && decide (1 ≤ ts) && decide (ts ≤ 128) && decide (1 ≤ nr) && decide (nr ≤ 1024) && decide (1 ≤ pk)
    && decide (pk ≤ 64) && sc % 4096 == 0 && lf % 4096 == 0 && decide (lf ≤ 4194304) && decide (field b 0x0C 1 ≤ 1)
    && field b 0x0D 3 == 0 && field b 0x19 7 == 0 && b.length == 64 + 16 * nr + 32 * mc

/-! Operand presence (Table 1.8): 0 absent, 1 required, 2 optional. -/

/-- What Table 1.8 says of operands A to D of an opcode; none for an unknown opcode. -/
def presence (o : Nat) : Option (List Nat) :=
  if o = 0 ∨ 0x14 < o then none
  else if o ≤ 4 ∨ o = 0x0E ∨ o = 0x0F ∨ o = 7 then some [1, 1, 1, 2]
  else if o = 5 then some [1, 1, 1, 0]
  else if o = 6 then some [1, 0, 1, 2]
  else if o = 8 ∨ o = 9 then some [1, 0, 1, 1]
  else if o ≤ 0x0D ∨ o = 0x10 ∨ o = 0x12 then some [1, 0, 1, 0]
  else if o = 0x11 then some [1, 0, 0, 0]
  else some [0, 0, 0, 0]

/-- Opcodes whose operand D may be a preload (Table 1.8). -/
def hasPreload (o : Nat) : Bool := (1 ≤ o && o ≤ 4) || o == opBwdData

/-- Opcodes that take a beat (Table 1.8). -/
def takesBeat (o : Nat) : Bool := 0x10 ≤ o && o ≤ 0x13

/-- The descriptor of operand k of a record, when the record names one that the table holds. -/
def opDesc (ds : List Desc) (m : MRec) (k : Nat) : Option Desc := if m.opnd k = 0xFFFF then none else ds[m.opnd k]?

/-- A test on operand k, met when the record names none. -/
def onOp (ds : List Desc) (m : MRec) (k : Nat) (p : Desc → Bool) : Bool :=
  match opDesc ds m k with
  | some d => p d
  | none => true

/-- FP32, RAW, RM. -/
def isF32Rm (d : Desc) : Bool := d.format == 0x10 && d.isRm

/-- Equal rank and equal plan bounds. -/
def sameDims (a b : Desc) : Bool := a.rank == b.rank && (List.range a.rank).all (fun i => a.bnd i == b.bnd i)

/-- Format 0x0B or 0x12. -/
def special (f : Nat) : Bool := f == 0x0B || f == 0x12

/-- Operand formats of one class (R35). -/
def classesMeet (a b : Desc) : Bool :=
  (fmtFloatClass a.format && fmtFloatClass b.format) || (fmtIntClass a.format && fmtIntClass b.format)

/-- The preload port (Table 1.10, R156). -/
def preloadPort (d : Desc) : Bool :=
  (d.layout == 3 || d.placement == 2) && (d.format == 0x10 || d.format == 6 || d.format == 7)
    && (d.format != 0x10 || d.form ≤ 1)

/-- The vector port (R78). -/
def vectorPort (d : Desc) : Bool := isF32Rm d && decide (d.placement ≤ 1) && d.rank == 2

/-- VEC of an epilogue selection word (Table 3.5). -/
def MRec.vec (m : MRec) : Nat := bits m.epiWord 22 2
/-- ACT of an epilogue selection word, DERIV of a derivative selection word (Tables 3.5, 8.4). -/
def MRec.act (m : MRec) : Nat := bits m.epiWord 16 6

/-- Copy pairs that R162 admits: formats 0x0B and 0x12 go to their own format only. -/
def copyFormats (a c : Desc) : Bool := !(special a.format || special c.format) || a.format == c.format

/-- Sketch to sketch keeps its blocks: they run along dimension 1 (R162). -/
def sketchKeeps (m : MRec) (a c : Desc) : Bool :=
  if m.opcode = opTranspose then bits m.imm0 0 3 != 1 && bits m.imm0 3 3 != 1
  else if m.opcode = opPermute then bits m.imm0 3 3 == 1
  else m.opcode != opGather ||
    (groupsKeepBlocks m.group 64 1 (a.bnd 0) (a.bnd 1) (c.bnd 0) (c.bnd 1) && planesOf a.rank a.bound * a.bnd 0 * a.bnd 1 % max m.group 1 == 0)

/-- The engine ports' part of check L7. -/
def portsEngine (ds : List Desc) (m : MRec) : Bool :=
  match opDesc ds m 0, opDesc ds m 1 with
  | some a, some b =>
    let o := m.opcode
    let shape := if o = opSpmm then a.form == 4 && a.layout == 0 && b.form == 4 && b.layout == 0
      else a.layout == 1 && b.layout == 2
    let own := if o = opS24 then b.form == 2
      else if o = opConv then a.form == 0
      else if o = opBwdWeight then a.form != 2 && b.form != 2
      else true
    let c := onOp ds m 2 (fun c => if o = opBwdWeight then isF32Rm c && c.placement == 1 else !special c.format)
    let d := onOp ds m 3 (fun d =>
      if o = opBwdWeight then
        bits m.imm0 22 2 == 0 || (d.format == 0x12 && d.isRm && d.placement == 0)
      else if o = opBwdData then
        if m.act ≠ 0 then d.form == 0 && d.layout == 3 && (d.format == 0x10 || d.format == 6 || d.format == 7)
        else !m.flag 1 || preloadPort d
      else if m.vec ≠ 0 then vectorPort d
      else !m.flag 1 || preloadPort d)
    shape && classesMeet a b && own && c && d
  | _, _ => true

/-- The predictor's part of check L7 (R125): the sketch, the mask and the governed records that follow. -/
def portsPredict (p : Program) (ds : List Desc) (mi : Nat) (m : MRec) : Bool :=
  onOp ds m 0 (fun a => a.layout == 1 && (fmtFloatClass a.format || fmtIntClass a.format))
    && onOp ds m 1 (fun b => b.format == 0x0B)
    && onOp ds m 2 (fun c => c.format == 0x12 && c.isRm)
    && (List.range m.governed).all (fun k =>
      let g := p.recs.getD (mi + 1 + k) {}
      onOp ds g 1 (fun b => b.placement == 0 && b.layout == 2 && b.form ≤ 2) && onOp ds g 2 (fun c => c.form == 0))

/-- The row port's part of check L7 (Table 1.10, R162, R221, R228). -/
def portsRow (ds : List Desc) (m : MRec) : Bool :=
  let port := fun (d : Desc) => d.layout == 0 && d.form ≤ 1 && !special d.format
  (List.range 4).all (fun k => onOp ds m k port) &&
    (if funcUpdate m.func then [0, 2, 3].all (fun k => onOp ds m k isF32Rm)
     else onOp ds m 3 isF32Rm)

/-- The copy port's part of check L7 (Table 1.10, R106, R162, R169, R172). -/
def portsCopy (ds : List Desc) (m : MRec) : Bool :=
  let pair := match opDesc ds m 0, opDesc ds m 2 with
    | some a, some c =>
      if m.opcode = opScatter then !special a.format
      else copyFormats a c && (a.format != 0x0B || sketchKeeps m a c) && (m.opcode != opCompress || (a.form == 0 && c.form != 0))
    | _, _ => true
  let idx := if m.opcode = opGather ∨ m.opcode = opScatter then
      onOp ds m 3 (fun d => d.format == 0x11 && d.isRm && d.rank == 1) else true
  pair && idx

/-- A loft tensor lies in the shelf or in the tensor address space (R211; DEDUCED, log 91: a placement is L7's). -/
def loftPlaced (ds : List Desc) (m : MRec) : Bool :=
  match m.loftUse with
  | some (k, _, _) => onOp ds m k (fun d => decide (d.placement ≤ 1))
  | none => true

/-- Check L7 on one record (Table 1.9). -/
def recL7 (p : Program) (ds : List Desc) (mi : Nat) (m : MRec) : Bool :=
  let o := m.opcode
  loftPlaced ds m && if isEngine o then portsEngine ds m
  else if o = opPredict then portsPredict p ds mi m
  else if o = opRowop ∨ o = opRowopBwd then portsRow ds m
  else if isCopy o then portsCopy ds m
  else if o = opRotate then
    onOp ds m 0 (fun a => a.format == 0x11 && a.isRm && a.rank == 1 && decide (a.placement ≤ 1))
  else if o = opMcast then
    (match opDesc ds m 0, opDesc ds m 2 with
     | some a, some c => a.format == c.format && a.form == c.form && a.layout == c.layout
     | _, _ => true)
  else if o = opGradPush then
    (match opDesc ds m 0, opDesc ds m 2 with
     | some a, some c => isF32Rm a && a.placement == 1 && isF32Rm c && decide (c.placement ≤ 1) && sameDims a c
     | _, _ => true)
  else true

/-! Check L8. -/

/-- Operands that a record writes (R20, R221, R228, R290). -/
def MRec.writes (m : MRec) : List Nat :=
  (if m.opC = 0xFFFF then [] else [m.opC]) ++ (if m.opcode = opGradPush then [m.opA] else []) ++
    (if m.opcode = opRowop ∧ m.opD ≠ 0xFFFF then [m.opD] else [])

/-- Operands present and absent, in range, and writable where written (R20, L8). -/
def l8Operands (p : Program) (ds : List Desc) (m : MRec) : Bool :=
  match presence m.opcode with
  | none => false
  | some ps =>
    ((List.range 4).all fun k =>
      let x := m.opnd k
      let q := ps.getD k 0
      (q != 0 || x == 0xFFFF) && (q != 1 || x != 0xFFFF) && (x == 0xFFFF || decide (x < p.refs.length)))
    && m.writes.all (fun x => bit (p.refs.getD x {}).access 1 && !bit (ds.getD x {}).flags 1)

/-- Flags and beat field (R20, R86, L8). -/
def l8Flags (m : MRec) : Bool :=
  let o := m.opcode
  (!m.flag 1 || (hasPreload o && m.opD != 0xFFFF)) &&
    (if m.flag 5 then
       isEngine o && o != opBwdWeight && !m.flag 2 && decide (2 ≤ m.beat % 256) && decide (m.beat ≤ 128)
     else (!m.flag 2 || decide (m.beat < 2 ^ 32)) && (takesBeat o || m.beat == 0)) &&
    (if isEngine o then decide (1 ≤ m.cellarCount) && decide (m.cellarCount ≤ 64) else m.cellarCount == 0)

/-- The epilogue selection word (R77), and what SPLIT asks (R86). -/
def l8Epilogue (ds : List Desc) (m : MRec) : Bool :=
  bits m.epiWord 0 16 == 0 && decide (m.vec ≤ 2) && decide (m.act ≤ 32) && (m.vec == 0 || (!m.flag 1 && m.opD != 0xFFFF)) &&
    (!m.flag 5 || (m.epiWord == 0 && !m.flag 0 && onOp ds m 2 (fun c => c.format == 0x10 && c.form == 0 && c.placement ≤ 1)))

/-- The loft source of a record (R212): it precedes the consumer and Table 8.3 admits it. -/
def l8Loft (p : Program) (mi : Nat) (m : MRec) : Bool :=
  match m.loftUse with
  | none => true
  | some (_, kind, src) =>
    let q := p.recs.getD src {}
    let product := q.opcode == opMatmul || q.opcode == opS24
    decide (src < mi) &&
      (match kind with
       | 1 => if m.opcode = opBwdWeight then product || (q.opcode == opRowop && funcNorm q.func)
              else q.opcode == opRowop && funcNorm q.func
       | 2 => product && !q.flag 0 && !q.flag 5 && (p.governor src).isNone
       | 3 => q.opcode == opRowop && q.func == 3
       | _ => false)

/-- A loft tensor has the dimensions and plan bounds of its source operand (R211). -/
def l8LoftDims (p : Program) (ds : List Desc) (m : MRec) : Bool :=
  match m.loftUse with
  | none => true
  | some (k, kind, src) =>
    let q := p.recs.getD src {}
    match opDesc ds m k, opDesc ds q (if kind = 1 then 0 else 2) with
    | some l, some o => sameDims l o
    | _, _ => true

/-- BWD_DATA's own part of check L8 (R203, R215, R216). -/
def l8BwdData (ds : List Desc) (m : MRec) : Bool :=
  let kind := bits m.imm0 14 2
  !m.flag 3 && !bit m.imm0 22 && decide (m.act ≤ 32) && (kind == 0 || kind == 2) && (kind != 0 || bits m.imm0 0 14 == 0)
    && (m.act == 0 || (m.opD != 0xFFFF && !m.flag 1)) && (!m.flag 5 || (m.imm0 == 0 && !m.flag 0 &&
      onOp ds m 2 (fun c => c.format == 0x10 && c.form == 0 && c.placement ≤ 1)))
    && (match opDesc ds m 0, opDesc ds m 1, opDesc ds m 2 with
        | some a, some b, some c =>
          let bn := if m.turn then b.bnd 0 else b.bnd 1
          let bk := if m.turn then b.bnd 1 else b.bnd 0
          a.bnd 0 == bn && a.bnd 1 == c.bnd 1 && bk == c.bnd 0 && (m.act == 0 || onOp ds m 3 (fun d => sameDims d c))
        | _, _, _ => true)

/-- BWD_WEIGHT's own part of check L8 (R203, R224, R226). -/
def l8BwdWeight (ds : List Desc) (m : MRec) : Bool :=
  let g := bits m.imm0 22 2
  let kind := bits m.imm0 14 2
  !m.flag 3 && !m.flag 0 && !m.flag 5 && bits m.imm0 16 6 == 0 && g != 3 && decide (kind ≤ 1)
    && (g == 0 || m.opD != 0xFFFF)
    && (match opDesc ds m 0, opDesc ds m 1, opDesc ds m 2 with
        | some a, some b, some c => a.bnd 0 == c.bnd 1 && a.bnd 1 == b.bnd 1 && b.bnd 0 == c.bnd 0
            && (g == 0 || (onOp ds m 3 (fun d => d.rank == g) && !a.split && !b.split))
        | _, _, _ => true)

/-- PREDICT's own part of check L8 (R125). DESIGN CHOICE (log 91): a set reserved bit of Table 5.1 (23–20, 15–12, 9–8) is a
field without a defined value and fails L8; R125 and R11 leave open whether it is ignored instead. -/
def l8Predict (p : Program) (ds : List Desc) (mi : Nat) (m : MRec) : Bool :=
  let w := m.imm0
  let a2 := bits w 16 4
  let th := dec32 (m.imm1 % 2 ^ 32)
  let g := dec32 (m.imm1 / 2 ^ 32)
  let govs := (List.range m.governed).map (fun k => p.recs.getD (mi + 1 + k) {})
  bits w 20 4 == 0 && bits w 12 4 == 0 && bits w 8 2 == 0 && (m.governed == 1 || m.governed == 2)
    && decide (m.ptest ≤ 2) && decide (m.pmode ≤ 3) && (if m.pmode = 2 then decide (1 ≤ a2) else a2 == 0)
    && (m.ptest == 2) == (m.governed == 2) && !th.isNan && !th.isInf && !g.isNan && !g.isInf && !g.lt .zero
    && decide (mi + m.governed < p.recs.length)
    && govs.all (fun q => (q.opcode == opMatmul || q.opcode == opS24) && q.opA == m.opA && !q.flag 3 && !q.flag 0 && !q.flag 5
      && (match opDesc ds q 1, opDesc ds m 1 with
          | some b, some k => b.bnd 0 == k.bnd 0 && b.bnd 1 == k.bnd 1
          | _, _ => true)
      && onOp ds q 2 (fun c => decide (c.rank ≤ 2) && decide (c.bnd 1 ≤ 64))
      && (match opDesc ds q 2, opDesc ds m 2 with
          | some c, some k => k.rank == 1 && decide (c.bnd 0 ≤ k.bnd 0)
          | _, _ => true))
    && (match govs with
        | [x, y] => (match opDesc ds x 1, opDesc ds y 1 with
          | some b, some c => sameDims b c
          | _, _ => true)
        | _ => true)

/-- Two references are both absent, or name one tensor. -/
def sameTensor (p : Program) (i j : Nat) : Bool :=
  if i = 0xFFFF ∨ j = 0xFFFF then i == j else (p.refs.getD i {}).handle == (p.refs.getD j {}).handle

/-- The row opcodes' own part of check L8 (R218, R219, R221, R228). -/
def l8Row (p : Program) (ds : List Desc) (m : MRec) : Bool :=
  let f := m.func
  let kind := bits m.imm0 14 2
  let src := bits m.imm0 0 14
  let bwd := m.opcode == opRowopBwd
  let word := bits m.imm0 22 2 == 0 && (funcNorm f || f == 3 || (funcUpdate f && !bwd))
    && (funcUpdate f || !bit m.imm0 21) && (!funcUpdate f || decide (m.param ≤ 15))
    && (if bwd then (kind == 0 || (kind == 1 && funcNorm f) || (kind == 3 && f == 3)) else kind == 0)
    && (kind != 0 || src == 0)
  let long := (List.range 4).all (fun k => onOp ds m k (fun d => decide (d.bnd 0 ≤ 2 ^ 24)))
  let stats := fun (d : Desc) => d.rank == 2 && d.bnd 0 == 2 && onOp ds m 0 (fun a => decide (rowCount a a.bound ≤ d.bnd 1))
  let dOk :=
    if funcUpdate f then
      (match opDesc ds m 0, opDesc ds m 2 with
       | some a, some c => sameDims a c
       | _, _ => true) &&
      (if f = 0x10 then m.opD == 0xFFFF
       else m.opD != 0xFFFF && onOp ds m 3 (fun d => onOp ds m 2 (fun c =>
         d.rank == c.rank + 1 && (List.range c.rank).all (fun i => d.bnd i == c.bnd i)
           && d.bnd c.rank == (if f = 0x11 then 1 else 2))))
    else if !bwd then onOp ds m 3 stats
    else if f = 3 then true
    else if kind = 0 then m.opD != 0xFFFF && onOp ds m 3 stats
    else
      sameTensor p (p.recs.getD src {}).opD m.opD
  word && long && dOk

/-- The copy-class opcodes' own part of check L8 (R106, R166, R169, R172). -/
def l8Copy (ds : List Desc) (m : MRec) : Bool :=
  let w := m.imm0
  match opDesc ds m 0, opDesc ds m 2 with
  | some a, some c =>
    if m.opcode = opGather then decide (1 ≤ m.group)
    else if m.opcode = opScatter then decide (1 ≤ m.group) && c.format == 0x10 && c.form == 0 && decide (c.placement ≤ 1)
    else
      a.rank == c.rank &&
      (if m.opcode = opTranspose then
         decide (bits w 0 3 < bits w 3 3) && decide (bits w 3 3 < a.rank)
       else if m.opcode = opPermute then
         (List.range a.rank).all (fun i => (List.range a.rank).any (fun j => bits w (3 * j) 3 == i)) &&
           (List.range 6).all (fun j => decide (j < a.rank) || bits w (3 * j) 3 == 0)
       else true)
  | _, _ => true

/-- Check L8 on one record (Table 1.9). -/
def recL8 (p : Program) (ds : List Desc) (mi : Nat) (m : MRec) : Bool :=
  let o := m.opcode
  l8Operands p ds m && l8Flags m && l8Loft p mi m && l8LoftDims p ds m &&
    (if o ≤ 4 then l8Epilogue ds m else true) &&
    (if o = opConv then
       (match opDesc ds m 0, opDesc ds m 1, opDesc ds m 2 with
        | some a, some b, some c => a.rank == 4 && b.rank == 2 && c.rank == 4
            && b.bnd 1 == m.kh * m.kw * convCq a b
        | _, _, _ => true)
     else if o = opPredict then l8Predict p ds mi m
     else if o = opRowop ∨ o = opRowopBwd then l8Row p ds m
     else if isCopy o then l8Copy ds m
     else if o = opBwdData then l8BwdData ds m
     else if o = opBwdWeight then l8BwdWeight ds m
     else if o = opGradPush then decide (1 ≤ m.imm0) && decide (m.imm0 ≤ 256)
     else if o = opMcast then decide (1 ≤ m.imm0) && decide (m.imm0 ≤ 65535) &&
       (match opDesc ds m 0, opDesc ds m 2 with
        | some a, some c => sameDims a c
        | _, _ => true)
     else if o = opFence then decide (m.imm0 < 16)
     else true)

/-- A record names a handle other than as the loft tensor of its own loft source. -/
def namesPlainly (p : Program) (m : MRec) (h : Nat) : Bool :=
  let plain := (List.range 4).filter (fun k => match m.loftUse with
    | some (j, _, _) => j != k
    | none => true)
  plain.any (fun k => m.opnd k != 0xFFFF && (p.refs.getD (m.opnd k) {}).handle == h)

/-- The rules of R212 across records (L8): one source for a loft tensor, whose handle is named in no other way. -/
def loftRulesOk (p : Program) (m : MRec) : Bool :=
  match m.loftUse with
  | none => true
  | some (k, kind, src) =>
    let h := (p.refs.getD (m.opnd k) {}).handle
    p.recs.all (fun q => !namesPlainly p q h && (match q.loftUse with
      | some (j, kind2, src2) => (p.refs.getD (q.opnd j) {}).handle != h || (src2 == src && kind2 == kind)
      | none => true))

/-- Handles that a program names as gradient accumulation stores (R225, R227). -/
def Program.stores (p : Program) : List Nat :=
  p.recs.filterMap (fun m =>
    if m.opcode = opGradPush then some (p.refs.getD m.opA {}).handle
    else if m.opcode = opBwdWeight then some (p.refs.getD m.opC {}).handle
    else none)

/-- Handles that a program names in any way. -/
def Program.handles (p : Program) : List Nat := p.refs.map (fun r => r.handle)

/-- A store shared with a program of another slot and a different team (R227): the record that names it as a store, or
the reference entry that names the other program's store. -/
def storesShared (s : State) (slot : Nat) (p : Program) : Option Nat :=
  let others := s.slots.filter (fun x => x.1 != slot && x.2.team != p.team)
  let theirs := others.flatMap (fun x => x.2.handles)
  let stores := others.flatMap (fun x => x.2.stores)
  match (List.range p.recs.length).find? (fun i =>
      ({ p with recs := [p.recs.getD i {}] } : Program).stores.any (fun h => theirs.contains h)) with
  | some i => some i
  | none => (List.range p.refs.length).find? (fun i => stores.contains (p.refs.getD i {}).handle)

/-! Check L9. -/

/-- The unit of R158 that a tile belongs to, none outside the plan bounds. -/
def unitOfTile (d : Desc) (x : List Nat × Nat × Nat) : Option Nat :=
  let (hi, r, t) := x
  if r < d.trows ∧ t < d.tcols ∧ (List.range 4).all (fun i => decide (hi.getD i 0 < max 1 (d.bnd (i + 2)))) then
    some (planeIdx d.rank d.bound ([0, 0] ++ hi) * d.unitsPerPlane + (if d.layout = 2 then t else r))
  else none

/-- A position of a team holds the unit of a tile of a split tensor (R158). -/
def holdsTile (d : Desc) (team p : Nat) (x : List Nat × Nat × Nat) : Bool :=
  match unitOfTile d x with
  | some u => holderOf d.units team u == p
  | none => true

/-- The operands of a record at plan bounds. -/
def planOps (ds : List Desc) (m : MRec) (k : Nat) : Desc := (opDesc ds m k).getD {}

/-- The output of the first record that a PREDICT governs. -/
def planGov (p : Program) (ds : List Desc) (mi : Nat) : Desc := (opDesc ds (p.recs.getD (mi + 1) {}) 2).getD {}

/-- The tiles of operand k that work unit w of a record needs at plan bounds, over the enumeration of R31 and R161. -/
def planNeeds (p : Program) (ds : List Desc) (mi : Nat) (m : MRec) (w k : Nat) : List (List Nat × Nat × Nat) :=
  let d := planOps ds m
  let g := planGov p ds mi
  unitNeeds m d (fun k => (d k).bound) 0 (redExtent m (d 0) (d 1) (d 0).bound) (cdiv (g.bnd 0) 64) p.team.length w k

/-- The number of work units of a record at plan bounds. -/
def planUnits (p : Program) (ds : List Desc) (mi : Nat) (m : MRec) : Nat :=
  let d := planOps ds m
  let g := planGov p ds mi
  unitCount m d (fun k => (d k).bound) (tileCount g g.bound) p.team.length

/-- Every unit of a split operand that some position's work needs is held there (R158, L9). -/
def covered (p : Program) (ds : List Desc) (mi : Nat) (m : MRec) : Bool :=
  let f := m.split
  let n := p.team.length
  (List.range 4).all (fun k =>
    match opDesc ds m k with
    | some d =>
      !d.split || (List.range (planUnits p ds mi m * f)).all (fun i =>
        (planNeeds p ds mi m (i / f) k).all (holdsTile d n (holderOf (planUnits p ds mi m * f) n i)))
    | none => true)

/-- Shelf bytes below an offset that the SHELF tensors of a program use (loft tensors apart), counted once each. -/
def shelfUnion (p : Program) (ds : List Desc) : Nat :=
  let rs := ((List.range ds.length).filter (fun i => (ds.getD i {}).placement == 0 && !p.loftRefs.contains i)).map (fun i =>
    ((ds.getD i {}).base, (ds.getD i {}).base + (ds.getD i {}).footprint p.team.length))
  let ends := ((rs.map (·.1)) ++ (rs.map (·.2))).foldl (fun l x => insertN x l) []
  ((ends.zip (ends.drop 1)).map (fun q =>
    if rs.any (fun r => decide (r.1 ≤ q.1) && decide (q.2 ≤ r.2)) then q.2 - q.1 else 0)).sum

/-- Tiles of CONV_W's input that its largest output tile's windows span at plan bounds (R174): the strips of one input line
times the lines. -/
def windowTiles (m : MRec) (a b c : Desc) : Nat :=
  let cq := convCq a b
  let strips := fun (r : Nat) => (((List.range (min 64 (c.bnd 1 - 64 * r))).flatMap (fun i =>
    (List.range m.kw).map (fun q => (convIn m a b a.bound [] (64 * r + i) (q * cq)).1.getD 1 0 / 64))).eraseDups).length
  let lines := fun (y : Nat) =>
    (((List.range m.kh).map (fun q => (convIn m a b a.bound [y] 0 (q * m.kw * cq)).1.getD 2 0)).eraseDups).length
  a.tcols * ((List.range (cdiv (c.bnd 1) 64)).map strips).foldl max 0 * ((List.range (c.bnd 2)).map lines).foldl max 0

/-- Tiles of the resident operand that an engine record's largest output tile needs at plan bounds (R33): those along the
reduction. -/
def residentTiles (m : MRec) (a b c : Desc) : Nat :=
  if m.flag 3 then (if m.opcode = opSpmm then b.tcols else b.trows)
  else if m.opcode = opConv then windowTiles m a b c
  else if m.opcode = opBwdWeight then a.trows
  else a.tcols

/-- The resident operand block of a record's largest tile at plan bounds, when it does not lie in the shelf (R33, L9). -/
def residentBlock (ds : List Desc) (m : MRec) : Nat :=
  match opDesc ds m 0, opDesc ds m 1, opDesc ds m 2 with
  | some a, some b, some c =>
    let d := if m.flag 3 then b else a
    if isEngine m.opcode ∧ d.placement ≠ 0 then residentTiles m a b c * d.tileBytes else 0
  | _, _, _ => 0

/-- Last consumer of a loft tensor. -/
def lastUse (p : Program) (ref : Nat) : Nat :=
  (List.range p.recs.length).foldl (fun a i => match (p.recs.getD i {}).loftUse with
    | some (k, _, _) => if (p.recs.getD i {}).opnd k = ref then i else a
    | none => a) 0

/-- Source of a loft tensor. -/
def loftSource (p : Program) (ref : Nat) : Nat :=
  (p.recs.findSome? (fun m => match m.loftUse with
    | some (k, _, src) => if m.opnd k = ref then some src else none
    | none => none)).getD 0

/-- Two SHELF loft tensors share bytes only when every consumer of one precedes the source of the other (R212, L9). -/
def loftsApart (p : Program) (ds : List Desc) : Bool :=
  let ls := (p.loftRefs.eraseDups).filter (fun i => (ds.getD i {}).placement == 0)
  ls.all (fun i => ls.all (fun j => i == j || (p.refs.getD i {}).handle == (p.refs.getD j {}).handle
    || !footprintsMeet (ds.getD i {}) (ds.getD j {}) p.team.length
    || decide (lastUse p i < loftSource p j) || decide (lastUse p j < loftSource p i)))

/-- Bytes of side memory that a program's statistics take on the fullest position (R221). -/
def statBytes (p : Program) (ds : List Desc) : Nat :=
  (p.statSources.map (fun i =>
    let a := (opDesc ds (p.recs.getD i {}) 0).getD {}
    8 * cdiv (rowCount a a.bound) p.team.length)).sum

/-- Check L9: none when met, else the record at fault (0 for the program as a whole). -/
def checkL9 (p : Program) (ds : List Desc) : Option Nat :=
  let room := shelfBytes - p.loftBytes - p.scratchBytes
  if shelfBytes < p.loftBytes + p.scratchBytes then some 0
  else if 262144 < statBytes p ds ∨ !loftsApart p ds then some 0
  else
    (List.range p.recs.length).find? (fun i =>
      let m := p.recs.getD i {}
      decide (room < shelfUnion p ds + residentBlock ds m) || !covered p ds i m)

/-! Checks L10 to L14. -/

/-- Output tiles that a team position is assigned at plan bounds (R31): of an opcode whose work is not divided by tiles,
those of its output tensor. -/
def planShare (p : Program) (ds : List Desc) (mi : Nat) (m : MRec) (pos : Nat) : Nat :=
  let o := m.opcode
  let (t, f) := if isEngine o ∨ o = opPredict ∨ (isCopy o ∧ o ≠ opGather ∧ o ≠ opScatter) then (planUnits p ds mi m, m.split)
    else match opDesc ds m 2 with
      | some c => (tileCount c c.bound, 1)
      | none => (0, 1)
  let (a, n) := share (t * f) p.team.length pos
  if n = 0 then 0 else (a + n - 1) / f - a / f + 1

/-- Check L10 on one record (Table 1.9, R64, R73). -/
def recL10 (p : Program) (ds : List Desc) (mi : Nat) (m : MRec) : Bool :=
  decide (m.cellarBase + m.cellarCount ≤ 64) &&
    ds.all (fun d => d.placement != 2 || m.cellarCount == 0 || !overlap m.cellarBase m.cellarCount d.base (d.length / 16384)) &&
    (List.range 4).all (fun k => onOp ds m k (fun d => d.placement != 2 ||
      (List.range p.team.length).all (fun pos => decide (planShare p ds mi m pos ≤ d.length / 16384))))

/-- Check L11 on one record (R86). -/
def recL11 (p : Program) (ds : List Desc) (mi : Nat) (m : MRec) : Bool :=
  (List.range p.team.length).all (fun pos => decide (planShare p ds mi m pos ≤ 2 ^ 24)) &&
    (!(isEngine m.opcode && m.flag 5) ||
      (match opDesc ds m 0, opDesc ds m 1 with
       | some a, some b => decide (m.split ≤ p.team.length) &&
           cdiv (redExtent m a b a.bound) (redStep m a b) % m.split == 0
       | _, _ => true))

/-- Check L12 on one record (R167, R168). -/
def recL12 (p : Program) (ds : List Desc) (m : MRec) : Bool :=
  if 0x0A ≤ m.opcode ∧ m.opcode ≤ 0x0D then
    (match opDesc ds m 0, opDesc ds m 2 with
     | some a, some c => !footprintsMeet a c p.team.length || inPlaceOk m a c
     | _, _ => true)
  else true

/-- Check L13 on one record (R209). -/
def recL13 (ds : List Desc) (m : MRec) : Bool :=
  let o := m.opcode
  let f := fun (d : Desc) => (d.format == 4 || d.format == 5 || d.format == 6 || d.format == 7 || d.format == 8) && d.form ≤ 1
  [1, 4, 6, 7, 8, 9, 0x0A, 0x0B, 0x0C, 0x0E, 0x0F, 0x10, 0x13, 0x14].contains o &&
    (!isEngine o || (!m.flag 0 && !m.flag 5 && onOp ds m 0 f && onOp ds m 1 f))

/-- The first record that fails a check. -/
def firstRec (p : Program) (f : Nat → MRec → Bool) : Option Nat :=
  (List.range p.recs.length).find? (fun i => !f i (p.recs.getD i {}))

/-- The limits of check L6 for a reference of a program. -/
def refL6 (p : Program) (i : Nat) (d : Desc) : Bool :=
  let limit := if p.loftRefs.contains i then p.loftBytes else shelfBytes - p.loftBytes - p.scratchBytes
  (rangeOk d p.team.length limit).isNone

/-- The first of the checks L1 to L14 that fails: status, check number, index (R24). -/
def loaderCheck (s : State) (slot : Nat) (p : Program) (b : List Byte) : Option (BitVec 8 × Nat × Nat) :=
  if !checkL1 b then some (ePlan, 1, 0)
  else if slice b 0x20 32 ≠ shake256 (b.drop 0x40) 32 then some (ePlan, 2, 0)
  else if s.runs.any (fun r => r.slot == slot && r.state != 3) then some (ePlan, 3, 0)
  else if p.team.length ≠ field b 8 2 ∨ p.team.any (fun c => (s.core c).outOfService || (s.core c).retired) then
    some (ePlan, 4, 0)
  else
    match (List.range p.refs.length).find? (fun i => (s.tensor (p.refs.getD i {}).handle).isNone) with
    | some i => some (ePlan, 5, i)
    | none =>
      let ds := p.refs.map (fun r => match s.tensor r.handle with
        | some t => t.desc
        | none => {})
      match (List.range ds.length).find? (fun i => !refL6 p i (ds.getD i {})) with
      | some i => some (eRange, 6, i)
      | none =>
        match (List.range ds.length).find? (fun i =>
          let d := ds.getD i {}
          let r := p.refs.getD i {}
          !(d.format == r.format && d.form == r.form && d.layout == r.layout)) with
        | some i => some (ePlan, 7, i)
        | none =>
          match firstRec p (recL7 p ds) with
          | some i => some (ePlan, 7, i)
          | none =>
            match firstRec p (fun i m => recL8 p ds i m && loftRulesOk p m) with
            | some i => some (ePlan, 8, i)
            | none =>
              match storesShared s slot p with
              | some i => some (ePlan, 8, i)
              | none =>
                match checkL9 p ds with
                | some i => some (ePlan, 9, i)
                | none =>
                  match firstRec p (recL10 p ds) with
                  | some i => some (eCellarCap, 10, i)
                  | none =>
                    match firstRec p (recL11 p ds) with
                    | some i => some (ePlan, 11, i)
                    | none =>
                      match firstRec p (fun _ m => recL12 p ds m) with
                      | some i => some (eOverlap, 12, i)
                      | none =>
                        match (if bit p.mode 0 then firstRec p (fun _ m => recL13 ds m) else none) with
                        | some i => some (ePlan, 13, i)
                        | none =>
                          if isMember s then none
                          else (firstRec p (fun _ m => !groupOp m.opcode)).map (fun i => (ePlan, 14, i))

/-- The bits of R25 (R114), one per MATMUL_S24 in record order. -/
def s24Bits (s : State) (p : Program) : List Bool :=
  (p.recs.filter (fun m => m.opcode == opS24)).map (fun m =>
    let get := fun (k : Nat) => match s.tensor (p.refs.getD (m.opnd k) {}).handle with
      | some t => t.desc
      | none => ({} : Desc)
    (get 1).placement == 0 && (get 0).placement == 0 && decide ((get 0).form ≤ 1) && decide (2 ≤ (get 2).bnd 1))

/-- Bits packed from bit 0 upward. -/
def packBits (l : List Bool) : List Byte := packElems 1 (l.map b2n)

/-- The detail of a successful LOAD_PROGRAM (Table 13.7). -/
def loadDetail (bs : List Bool) : List Byte := leBytes 2 bs.length ++ leBytes 6 0 ++ slice (packBits (bs.take 256)) 0 32

/-- LOAD_PROGRAM's own part (R24 to R26, R356): an empty image empties the slot, subject to L3. -/
def loadOwn (d : Option (List Byte)) (s : State) (o : Order) : State :=
  let slot := field o.bytes 0x28 1
  let len := field o.bytes 0x2C 4
  let busy := s.runs.any (fun r => r.slot == slot && r.state != 3)
  if 16 ≤ slot then complete s o ePlan []
  else if len = 0 then
    if busy then refuse s o ePlan 0x4C 3 0
    else complete { s with slots := erase slot s.slots } o eOk (loadDetail [])
  else if 1048576 < len then refuse s o ePlan 0x4C 1 0
  else
    let s := hostAsk s o
    match hostRead s o d len with
    | none => complete s o eDataLost []
    | some b =>
      let p := parseProgram b (maskBits 128 (field o.bytes 0x38 16))
      match loaderCheck s slot p b with
      | some (st, k, i) => refuse s o st 0x4C k i
      | none =>
        let bs := s24Bits s p
        let more := packBits (bs.drop 256)
        if o.resultLen < more.length then complete s o eRange (resultDetail 0 more.length)
        else
          let s := { s with slots := put slot p s.slots, pushes := s.pushes.filter (fun x => x.key / 2 ^ 28 != slot) }
          complete (sendResult s o more) o eOk (loadDetail bs)

/-- LOAD_PROGRAM (R24). -/
def execLoadProgram (m n : Nat) (d : Option (List Byte)) (s : State) : Host.Outcome State Fault Refusal :=
  .next (orderCmd s m n 0x03 (loadOwn d))

end Sys2Proof.Machine
end

