-- ==== Sys2Proof/Machine/Plan.lean ====
section
/-!
DEFINITION. What a macro-instruction of a run reads: its work units on a team position (R31, R161, R226), the operands
that form streams (R176, R177), and the transfers of a read stream's plan (R180, R181).
-/

namespace Sys2Proof.Machine

/-- Operands that a record reads, in the order B, A, C, D in which R177 takes its read streams (log 33). -/
def MRec.readOps (m : MRec) : List Nat :=
  let o := m.opcode
  let d := if m.opD = 0xFFFF then [] else [3]
  if o = opBwdWeight then [1, 0, 2] ++ (if bits m.imm0 22 2 ≠ 0 then d else [])
  else if o = opBwdData then [1, 0] ++ (if m.flag 1 ∨ m.act ≠ 0 then d else [])
  else if isEngine o then [1, 0] ++ (if m.flag 1 ∨ m.vec ≠ 0 then d else [])
  else if o = opPredict then (if m.pmode = 0 then [] else [1, 0])
  else if o = opRowop then (if funcUpdate m.func then [0, 2] ++ d else [0])
  else if o = opRowopBwd then [1, 0] ++ (if funcNorm m.func then d else [])
  else if o = opGather ∨ o = opScatter then [0, 3]
  else if isCopy o ∨ o = opMcast ∨ o = opRotate ∨ o = opGradPush then [0]
  else []

/-- Handles that a record reads (R22). -/
def Run.readHandles (r : Run) (mi : Nat) : List Nat := ((r.mrec mi).readOps.map (fun k => (r.mrec mi).opnd k)).map r.handle

/-- Handles that a record writes (R22), the loft tensors it is the source of included (R213). -/
def Run.writeHandles (r : Run) (mi : Nat) : List Nat :=
  let m := r.mrec mi
  (m.writes ++ (r.prog.loftDest mi).map (fun p => p.1)).map r.handle

/-- The view of an operand, the empty view when the record names none. -/
def getView (s : State) (r : Run) (mi pos k : Nat) : View := (viewOp s r mi pos k).getD {}

/-- Current extents that the first record governed by a PREDICT gives its output. -/
def govView (s : State) (r : Run) (mi pos : Nat) : View := getView s r (mi + 1) pos 2

/-- Work units of a record before its assignment to positions: output tiles, rows, indices or tile pairs. -/
def unitsOfRec (s : State) (r : Run) (mi pos : Nat) : Nat :=
  let v := getView s r mi pos
  let g := govView s r mi pos
  unitCount (r.mrec mi) (fun k => (v k).d) (fun k => (v k).e) (tileCount g.d g.e) r.prog.team.length

/-! The mask of BWD_WEIGHT (R226). -/

/-- Granule of a mask: 0 none, 1 row, 2 block (Table 8.7). -/
def MRec.granule (m : MRec) : Nat := if m.opcode = opBwdWeight then bits m.imm0 22 2 else 0

/-- The mask bit of row i of a tile. -/
def maskBit (s : State) (v : View) (g row trow tcol : Nat) : Except RdErr Bool := do
  if g = 0 then .ok true
  else
    let x ← valAt s v (if g = 1 then [row] else [tcol, trow])
    .ok (!x.isZero)

/-- Rows of an output tile that are issued (R67, R226). -/
def tileRows (s : State) (r : Run) (mi pos trow tcol : Nat) : Except RdErr (List Nat) := do
  let c := getView s r mi pos 2
  let m := r.mrec mi
  let n := c.rowsIn trow
  if m.granule = 0 then .ok (List.range n)
  else
    let d := getView s r mi pos 3
    let bs ← (List.range n).mapM (fun i => maskBit s d m.granule (64 * trow + i) trow tcol)
    .ok (below n (fun i => bs.getD i false))

/-- Plane, tile row and tile column of output tile k of a record's enumeration (R31). -/
def outTile (s : State) (r : Run) (mi pos k : Nat) : Nat × Nat × Nat :=
  let c := getView s r mi pos 2
  tileOf ((r.mrec mi).flag 4) c.trows c.tcols k

/-- The tiles of a record's enumeration, fully masked ones left out (R226). -/
def liveTiles (s : State) (r : Run) (mi pos : Nat) : Except RdErr (List Nat) := do
  let n := unitsOfRec s r mi pos
  if (r.mrec mi).granule = 0 then .ok (List.range n)
  else
    let ok ← (List.range n).mapM (fun k => do
      let (_, t, c) := outTile s r mi pos k
      let rows ← tileRows s r mi pos t c
      .ok (!rows.isEmpty))
    .ok (below n (fun k => ok.getD k false))

/-- The work items of a team position, in order (R31, R86, R161): tile × parts + part for a record with SPLIT. -/
def walkUnits (s : State) (r : Run) (mi pos : Nat) : Except RdErr (List Nat) := do
  let m := r.mrec mi
  let f := m.split
  let ts ← liveTiles s r mi pos
  let items := ts.flatMap (fun t => (List.range f).map (fun q => t * f + q))
  let (a, n) := share items.length r.prog.team.length pos
  .ok ((items.drop a).take n)

/-- Reduction steps of a record at current extents (R32, R470). -/
def ksteps (s : State) (r : Run) (mi pos : Nat) : Nat :=
  let m := r.mrec mi
  let a := getView s r mi pos 0
  let b := getView s r mi pos 1
  cdiv (redExtent m a.d b.d a.e) (redStep m a.d b.d)

/-- The reduction steps at plan bounds (R86). -/
def planSteps (s : State) (r : Run) (mi pos : Nat) : Nat :=
  let m := r.mrec mi
  let a := getView s r mi pos 0
  let b := getView s r mi pos 1
  cdiv (redExtent m a.d b.d a.d.bound) (redStep m a.d b.d)

/-- The reduction steps of part q of a record (R86), those beyond the current extent not issued: first and the one after
the last. -/
def partSteps (s : State) (r : Run) (mi pos q : Nat) : Nat × Nat :=
  let f := (r.mrec mi).split
  let n := ksteps s r mi pos
  if f = 1 then (0, n)
  else let sp := planSteps s r mi pos; (min n (q * sp / f), min n ((q + 1) * sp / f))

/-! Plans. -/

/-- Coordinates that stand for all bytes of a tile as a reader fetches it (R30): one per crate, IL-C tile or block, every
element in extent of a plain row-major tensor. -/
def tileReps (v : View) (x : List Nat × Nat × Nat) : List (List Nat) :=
  let (hi, r, t) := x
  let at0 := View.coords r t hi 0 0
  if !v.inside at0 then []
  else if v.d.form ≠ 0 ∨ v.d.layout = 3 then [at0]
  else if v.d.layout = 0 then
    (List.range (v.rowsIn r)).flatMap (fun i => (List.range (v.colsIn t)).map (fun j => View.coords r t hi i j))
  else
    let d := blockDepth v.d.format
    (List.range (max 1 (64 / d))).map (fun j =>
      if v.d.layout = 2 then View.coords r t hi (j * d) 0 else View.coords r t hi 0 (j * d))

/-- Byte ranges that hold an element as a reader fetches it (R180, R181): its crate's header, its tile or block, or its
own bytes and its block scale. -/
def elemRanges (v : View) (x : List Nat) : List (Nat × Nat) :=
  let w := fmtBits v.d.format
  let x0 := x.getD 0 0
  let x1 := if 1 < v.d.rank then x.getD 1 0 else 0
  if v.d.form ≠ 0 then [((v.slot (planeIdx v.d.rank v.d.bound x) (x1 / 64) (x0 / 64)).addr, 32)]
  else if v.d.layout = 0 then
    ((v.elem x).addr, max 1 (w / 8)) :: (if fmtMx v.d.format then [((v.scaleLoc x).addr, 1)] else [])
  else if v.d.layout = 3 then [((v.elem ([x0 / 64 * 64, x1 / 64 * 64] ++ x.drop 2)).addr, 512 * w)]
  else
    let d := blockDepth v.d.format
    let p := if v.d.layout = 2 then x1 else x0
    let pr := roundUp (v.d.bnd v.d.posDim) 64
    let y := if v.d.layout = 2 then [x0 / 64 * 64, x1 / d * d] else [x0 / d * d, x1 / 64 * 64]
    [((v.elem (y ++ x.drop 2)).addr, blockBytes v.d.format (min d (pr - p / d * d)))]

/-- The transfers that fetch the elements at some coordinates (R180); a crated tensor's headers stay apart (R181). -/
def planFor (v : View) (xs : List (List Nat)) : List (Nat × Nat) :=
  let rs := (xs.flatMap (elemRanges v)).eraseDups
  if v.d.form ≠ 0 then rs else ((joinRanges rs).flatMap (fun r => transfersOf r.1 r.2)).eraseDups

/-- The payload of a crate cut into transfers: after every 4,096 bytes and at page boundaries (R181). -/
def cutPayload : Nat → Nat → Nat → Nat → List (Nat × Nat)
  | 0, _, _, _ => []
  | k + 1, a, n, off =>
    if n = 0 then []
    else
      let m := min n (min (4096 - off % 4096) (2097152 - a % 2097152))
      (a, m) :: cutPayload k (a + m) (n - m) (off + m)

/-- The source groups' coordinates of GATHER and SCATTER_ADD: element n of the sequence (R169). -/
def seqGroup (v : View) (g grp : Nat) : List (List Nat) :=
  ((List.range g).filter (fun i => decide (grp * g + i < v.count))).map (fun i => v.seqCoord (grp * g + i))

/-- A clamped index (R170, R172), and whether it clamped. -/
def clampIdx (q : Nat) (i : Int) : Nat × Bool := clampTo q i

/-- The index that operand D holds at a place. -/
def indexAt (s : State) (v : View) (j : Nat) : Except RdErr Int := do
  let x ← valAt s v [j]
  .ok x.toInt

/-- Coordinates of the vector elements that an output tile's epilogue takes (R78). -/
def vecCoords (m : MRec) (c d : View) (trow tcol : Nat) : List (List Nat) :=
  let e := d.ex 0
  if e = 0 then []
  else
    let idx := if m.vec = 1 then (List.range (c.colsIn tcol)).map (fun j => min (64 * tcol + j) (e - 1))
      else (List.range (c.rowsIn trow)).map (fun i => min (64 * trow + i) (e - 1))
    idx.eraseDups.flatMap (fun i => [[i, 0], [i, 1]])

/-- A destination coordinate's source, clamped (R165, R166), and how many dimensions' clamping made it. -/
def srcClamped (m : MRec) (a : View) (x : List Nat) : List Nat × Bool :=
  let y := srcCoord m a.d.rank x
  let cl := (List.range 6).map (fun i => if i < a.d.rank then clampTo (a.ex i) (y.getD i 0 : Nat) else (0, false))
  (cl.map (fun c => c.1), cl.any (fun c => c.2))

/-- Coordinates of an optimiser tensor for element k of a row: dimension R of D selects the moment (R228). -/
def optCoord (c : View) (r k sel : Nat) : List Nat := (rowCoord c.d c.e r k).set c.d.rank sel

/-- Coordinates that operand k needs for one work item of a position, in the order of the walk; `first`: it is the
position's first. -/
def itemCoords (s : State) (r : Run) (mi pos k w : Nat) (first : Bool) : Except RdErr (List (List Nat)) := do
  let m := r.mrec mi
  let v := getView s r mi pos
  let o := m.opcode
  let f := m.split
  let need := fun (k lo top w : Nat) =>
    unitNeeds m (fun k => (v k).d) (fun k => (v k).e) lo top (govView s r mi pos).tcols r.prog.team.length w k
  if isEngine o then
    let (_, tr, tc) := outTile s r mi pos (w / f)
    if k = 3 ∧ m.granule ≠ 0 then .ok []
    else if k = 3 ∧ o ≤ 4 ∧ m.vec ≠ 0 then .ok (vecCoords m (v 2) (v 3) tr tc)
    else
      let e := redStep m (v 0).d (v 1).d
      let (a, b) := partSteps s r mi pos (w % f)
      .ok ((need k (a * e) (min (b * e) (redExtent m (v 0).d (v 1).d (v 0).e)) (w / f)).flatMap (tileReps (v k)))
  else if o = opPredict then
    if k = 0 then
      .ok (if first then (List.range (v 0).tcols).flatMap (fun t => tileReps (v 0) ([0, 0, 0, 0], 0, t)) else [])
    else .ok ((need k 0 (2 ^ 64) w).flatMap (tileReps (v k)))
  else if o = opRowop ∨ o = opRowopBwd then
    let row := fun (v : View) => (List.range (v.ex 0)).map (rowCoord v.d v.e w)
    if k ≠ 3 then .ok (row (v k))
    else if funcUpdate m.func then
      .ok ((List.range ((v 2).ex 0)).flatMap (fun i =>
        [optCoord (v 2) w i 0] ++ (if m.func = 0x12 then [optCoord (v 2) w i 1] else [])))
    else .ok [[0, w], [1, w]]
  else if o = opGather then
    if k = 3 then .ok [[w]]
    else
      let i ← indexAt s (v 3) w
      .ok (seqGroup (v 0) m.group (clampIdx (cdiv (v 0).count m.group) i).1)
  else if o = opScatter then .ok (if k = 3 then [[w]] else seqGroup (v 0) m.group w)
  else if inPlace m (v 0).d (v 2).d r.prog.team.length then .ok ((need 0 0 (2 ^ 64) w).flatMap (tileReps (v 0)))
  else if isCopy o then
    let (pl, tr, tc) := tileOf false (v 2).trows (v 2).tcols w
    let hi := planeCoords (v 2).d.rank (v 2).e pl
    .ok ((List.range ((v 2).rowsIn tr)).flatMap (fun i => (List.range ((v 2).colsIn tc)).map (fun j =>
      (srcClamped m (v 0) (View.coords tr tc hi i j)).1)))
  else .ok []

/-- Bytes of a multicast: A's footprint at current extents (R285); a tensor with an extent of 0 has none. -/
def mcBytes (v : View) : Nat :=
  if (List.range v.d.rank).any (fun i => v.ex i == 0) then 0 else ({ v.d with bound := v.e } : Desc).footprint v.team.length

/-- The chunks of a position (R285): number, first byte, bytes. Of a tensor split over the team, each position has all of
its own share's (log 46). -/
def mcChunks (v : View) : List (Nat × Nat × Nat) :=
  let n := mcBytes v
  let l := if v.d.split then List.range (cdiv n 65536) else shareList (cdiv n 65536) v.team.length v.pos
  l.map (fun c => (c, 65536 * c, min 65536 (n - 65536 * c)))

/-- Record i is an update chained to the GRAD_PUSH j (R231): its A is that push's C. -/
def chained (r : Run) (j i : Nat) : Bool :=
  let m := r.mrec i
  let g := r.mrec j
  m.opcode == opRowop && funcUpdate m.func && g.opcode == opGradPush && decide (j < i) && r.handle m.opA == r.handle g.opC

/-- The GRAD_PUSH that an update is chained to: the latest. -/
def chainOf (r : Run) (i : Nat) : Option Nat := (List.range i).reverse.find? (fun j => chained r j i)

/-- The push of a run's GRAD_PUSH record at this device's own node. -/
def ownPush (s : State) (tag mi : Nat) : Option Push :=
  s.pushes.find? (fun p => p.tag == tag && p.mi == mi && p.begun && p.node == s.group.rank)

/-- A slice of a push's C is written (R231, R294): its writes are formed, and on a tensor in MEM acknowledged. -/
def sliceDone (s : State) (g : Push) (v : View) (k : Nat) : Bool :=
  g.written.contains k && (v.d.placement != 1 || !(sliceRanges v k).any (fun x => writing s g.tag g.mi 2 x.1 x.2))

/-- The rows of a slice, numbered as rows of the tensor. -/
def sliceRowNos (v : View) (k : Nat) : List Nat :=
  let n := max v.trows 1
  (List.range (v.rowsIn (k % n))).map (fun i => k / n * max (v.ex 1) 1 + 64 * (k % n) + i)

/-- A record copies a source operand into a loft tensor: (reference, operand copied), of kind INPUT (Table
8.3). -/
def loftCopies (r : Run) (mi : Nat) : List (Nat × Nat) :=
  (r.prog.loftDest mi).filterMap (fun x => if x.2 = 1 then some (x.1, 0) else none)

/-- Every coordinate inside the current extents of one tile, in the order in which the layout stores them (R166). -/
def tileCoords (v : View) (hi : List Nat) (tr tc : Nat) : List (List Nat) :=
  (storeOrder v.d (v.rowsIn tr) (v.colsIn tc)).map (fun q => View.coords tr tc hi q.1 q.2)

/-- The loft tensor of a copy as a position sees it: its source's extents (R211). -/
def loftView (s : State) (r : Run) (mi pos : Nat) (x : Nat × Nat) : View :=
  { (viewRef s r mi pos (8 + x.1) x.1).getD {} with e := (getView s r mi pos x.2).e }

/-- The elements that a position copies into a loft tensor: its share of the units of Table 6.6 (R161, R213). -/
def loftShare (c : View) (team pos : Nat) : List (List Nat) :=
  (shareList (c.planes * c.trows * c.tcols) team pos).flatMap (fun u =>
    let (pl, tr, tc) := tileOf false c.trows c.tcols u
    tileCoords c (planeCoords c.d.rank c.e pl) tr tc)

/-- Transfers with the work item that reads them. -/
def forItem (w : Nat) (l : List (Nat × Nat)) : List (Nat × Nat × Nat) := l.map (fun x => (w, x))

/-- The mark of what only a record's loft copies read, after every work item. -/
abbrev loftItem : Nat := 2 ^ 40

/-- The transfers that some work items of a record read of an operand, in the order of its consumer's walk (R180). -/
def itemsPlan (s : State) (r : Run) (mi pos k : Nat) (us : List Nat) : Except RdErr (List (Nat × Nat × Nat)) := do
  let v := getView s r mi pos k
  let first := us.headD 0
  let ps ← us.mapM (fun w => do
    let xs ← itemCoords s r mi pos k w (w == first)
    .ok (forItem w (planFor v xs)))
  .ok ps.flatten

/-- The plan of an update's gradient (R231): the rows of slices, from slice number `from0` of the position's on, that the
reducer has written; how many slices are planned then, and whether they are all. -/
def chainPlan (s : State) (r : Run) (mi pos j from0 : Nat) : Except RdErr (List (Nat × Nat × Nat) × Nat × Bool) := do
  let v := getView s r mi pos 0
  let ks := shareList (sliceCount v) r.prog.team.length pos
  let got := (ks.drop from0).takeWhile (fun k => match ownPush s r.tag j with
    | some g => sliceDone s g (getView s r j 0 2) k
    | none => false)
  let l ← itemsPlan s r mi pos 0 (got.flatMap (sliceRowNos v))
  .ok (l, from0 + got.length, decide (ks.length ≤ from0 + got.length))

/-- The transfers of a read stream in the order of its consumer's walk (R180); those that only the record's loft copies
read follow (R213, DEDUCED, log 51). -/
def readPlan (s : State) (r : Run) (mi pos k : Nat) : Except RdErr (List (Nat × Nat × Nat)) := do
  let m := r.mrec mi
  let v := getView s r mi pos k
  if m.opcode = opMcast then .ok ((mcChunks v).flatMap (fun c => forItem c.1 (transfersOf (v.d.base + c.2.1) c.2.2)))
  else if m.opcode = opGradPush then
    match ownPush s r.tag mi with
    | none => .error .wait
    | some g =>
      .ok (if g.onTime = some true then
        (shareList (sliceCount v) r.prog.team.length pos).flatMap (fun k =>
          forItem k ((sliceRanges v k).flatMap (fun x => transfersOf x.1 x.2))) else [])
  else if m.opcode = opRotate then
    .ok (forItem 0 (planFor v ((List.range 8).map (fun i => [i])) ++ planFor v ((List.range 8).map (fun i => [8 + 8 * pos + i]))))
  else
    let us ← if (chainOf r mi).isSome then
        .ok ((shareList (sliceCount (getView s r mi pos 0)) r.prog.team.length pos).flatMap (sliceRowNos (getView s r mi pos 0)))
      else walkUnits s r mi pos
    let ps ← itemsPlan s r mi pos k us
    let l := ((loftCopies r mi).filter (fun x => x.2 == k)).flatMap (fun x =>
      planFor v (loftShare (loftView s r mi pos x) r.prog.team.length pos))
    .ok (ps ++ forItem loftItem (l.filter (fun x => !ps.any (fun y => y.2 == x))))

end Sys2Proof.Machine
end

