-- ==== Sys2Proof/Machine/Arbiter.lean ====
section
/-!
DEFINITION. Arbitration (R372 to R377, R384), the progress watchdog with the resets it makes (R378 to R383), and the
retirement of cores (R412).
-/

namespace Sys2Proof.Machine

/-- Sub-arbiters of a class by their requesters (Table 14.1): those of a shelf bank column are wide reads, narrow reads and
writes. -/
def arbGroups : Nat → List (List Nat)
  | 0 => [[0, 1, 2], [3, 4, 5, 6, 7, 8, 9, 10], [11, 12, 13, 14]]
  | 1 => [[0, 1]]
  | 2 => [[0, 1, 2, 3, 4]]
  | 3 => [[0, 1, 2, 3, 4]]
  | 4 => [[0, 1, 2, 3]]
  | _ => []

/-- Instances of a class (Table 14.1). Router output ports are numbered router × 5 + port, routers 0 to 127 by core and 128
to 133 for the hub segments M0 to H1 (log 60). -/
def arbInstances : Nat → Nat
  | 0 => 16384
  | 1 => 128
  | 2 => 670
  | 3 => 24
  | 4 => 96
  | _ => 0

/-- The fabric segment of a core's router (Table 14.2). -/
def coreSeg (c : Nat) : Nat := c / 8

/-- The fabric segment of an arbiter of classes 2 to 4 (Table 14.2). -/
def arbSeg (cls inst : Nat) : Option Nat :=
  match cls with
  | 2 => some (if inst / 5 < 128 then coreSeg (inst / 5) else 16 + (inst / 5 - 128))
  | 3 => some (if inst < 12 then 16 else 17)
  | 4 => some (if inst < 48 then 18 else 19)
  | _ => none

/-- Scope, unit and first row of a requester's counters (R384). -/
def arbUnit (cls inst r : Nat) : Nat × Nat × Nat :=
  match cls with
  | 0 => (1, inst / 128, 4 * r)
  | 1 => (1, inst, 60 + 4 * r)
  | 2 => (6, (arbSeg 2 inst).getD 0, 4 * r)
  | 3 => (3, inst, 4 * r)
  | _ => (2, inst, 4 * r)

/-- The counter of a requester: place 0 GRANTS, 1 WAIT_CC, 2 LONGEST_WAIT_CC, 3 FORCED_WINS (Table 14.3). -/
def arbCtr (cls inst r place : Nat) : (Nat × Nat) × Nat :=
  let (scope, unit, row) := arbUnit cls inst r
  ((arbTable scope, row + place), unit)

/-- An arbiter's state. -/
def State.arb (s : State) (cls inst : Nat) : Arb := (look (arbKey cls inst) s.arbs).getD {}

/-- The state with an arbiter replaced. -/
def State.setArb (s : State) (cls inst : Nat) (a : Arb) : State := { s with arbs := put (arbKey cls inst) a s.arbs }

/-- The rotating order, ascending at reset (R374). -/
def Arb.rot (a : Arb) (members : List Nat) : List Nat := if a.order.isEmpty then members else a.order

/-- The first of the highest-ranked raised requests: forced ones, else the greatest age under AGE, ties by the rotating
order (R374). The flag says that it won by force. -/
def arbPick (a : Arb) (order : List Nat) (limit : Nat) (age : Bool) (raised : List Nat) : Option (Nat × Bool) :=
  let up := order.filter (fun r => raised.contains r)
  match up.find? (fun r => decide (limit ≤ (look r a.wait).getD 0)) with
  | some r => some (r, true)
  | none =>
    if age then
      let top := (up.map (fun r => (look r a.age).getD 0)).foldl max 0
      (up.find? (fun r => (look r a.age).getD 0 == top)).map (fun r => (r, false))
    else up.head?.map (fun r => (r, false))

/-- The arbiter after a round (R374): the winners go lowest with wait counter and age 0; every loser waits one more, and
under AGE is one older, up to 15. The full order holds all members. -/
def arbAfter (a : Arb) (members raised winners : List Nat) (age : Bool) (now : Nat) : Arb :=
  let losers := raised.filter (fun r => !winners.contains r)
  let order := a.rot members
  { a with
    order := order.filter (fun r => !winners.contains r) ++ order.filter (fun r => winners.contains r)
    wait := losers.foldl (fun l r => put r ((look r l).getD 0 + 1) l) (winners.foldl (fun l r => put r 0 l) a.wait)
    age := if age then
        losers.foldl (fun l r => put r (min 15 ((look r l).getD 0 + 1)) l) (winners.foldl (fun l r => put r 0 l) a.age)
      else winners.foldl (fun l r => put r 0 l) a.age
    raisedAt := losers.foldl (fun l r => if (look r l).isSome then l else put r now l)
      (a.raisedAt.filter (fun p => raised.contains p.1 && !winners.contains p.1)) }

/-- A cc of the requests raised and not granted of an arbiter, in WAIT_CC (Table 14.3). -/
def tickArb (s : State) (p : Nat × Arb) : State :=
  p.2.raisedAt.foldl (fun s x => let (k, u) := arbCtr (p.1 / 2 ^ 20) (p.1 % 2 ^ 20) x.1 1; s.bump k u 1) s

/-- The wait of a requester that ends now, in LONGEST_WAIT_CC (Table 14.3). -/
def arbWaited (s : State) (cls inst : Nat) (p : Nat × Nat) : State :=
  let (k, u) := arbCtr cls inst p.1 2
  s.setCounter k u (max (min (s.now - p.2) (2 ^ 64 - 1)) (s.counter k u))

/-- One round of an arbiter: the state after it and the requesters granted. -/
def arbRound (s : State) (cls inst : Nat) (raised : List Nat) : State × List Nat :=
  let groups := arbGroups cls
  let members := groups.flatten
  let a := s.arb cls inst
  let raised := members.filter (fun r => raised.contains r)
  let limit := keyNum s (0x0700 + cls)
  let age := keyNum s (0x0710 + cls) == 1
  let picks := groups.map (fun g => arbPick a ((a.rot members).filter (fun r => g.contains r)) limit age raised)
  let wins :=
    if cls = 0 then
      let reads := (picks.take 2).filterMap id
      let write := picks.getD 2 none
      if write.isNone || reads.any (fun x => x.2) then reads else write.toList
    else picks.filterMap id
  let winners := wins.map (fun x => x.1)
  let s := (a.raisedAt.filter (fun p => winners.contains p.1 || !raised.contains p.1)).foldl (fun s p => arbWaited s cls inst p) s
  let s := wins.foldl (fun s x =>
    let (k, u) := arbCtr cls inst x.1 0
    let (f, _) := arbCtr cls inst x.1 3
    (s.bump k u 1).bump f u (b2n x.2)) s
  let b := arbAfter a members raised winners age s.now
  (s.setArb cls inst { b with holder := if cls = 2 then winners.head? else none }, winners)

/-- The engine opcodes whose block path is a wide-read requester of a shelf bank column (Table 14.1). -/
def pathOps (q o : Nat) : Bool :=
  if q = 0 then o ≤ 5 else if q = 1 then o == opBwdData else o == opBwdWeight

/-- A block path's engine passes S24 crates through its selector (R113, R205). -/
def selectorBusy (s : State) (core q : Nat) : Bool :=
  s.runs.any (fun r => r.state != 3 && r.walks.any (fun w => w.core == core && !w.done && pathOps q (r.mrec w.mi).opcode &&
    selects (r.mrec w.mi) ((s.tensor (r.handle (r.mrec w.mi).opB)).getD {}).desc))

/-- A block path loses a shelf bank (R108, R113, R148): each such cc counts once for the engine. -/
def blockLoses (s : State) (core : Nat) (q : Nat) : State :=
  if (s.core core).blockLost.contains (q, s.now) then s
  else
    let s := (s.onCore core (fun c => { c with blockLost := put q s.now c.blockLost })).bump Ctr.blockWaitCc core 1
    if selectorBusy s core q then s.bump Ctr.s24BankLostCc core 1 else s

/-- ARBITER_ROUND (R374): one round of an arbiter with the requests raised. At a shelf bank column the block paths that lose
count it (R148). -/
def execArbiterRound (cls inst : Nat) (raised : List Nat) (s : State) : Host.Outcome State Fault Refusal :=
  .next (if arbInstances cls ≤ inst then s
    else
      let (s, wins) := arbRound s cls inst raised
      if cls = 0 then (below 3 (fun q => raised.contains q && !wins.contains q)).foldl (fun s q => blockLoses s (inst / 128) q) s else s)

/-! The watchdog. -/

/-- WATCHDOG_US in cc (Table 13.11). -/
def watchdogCc (s : State) : Nat := 1000 * keyNum s 0x0600

/-- Macro-instructions in flight on a core, of one run. -/
def inFlight (s : State) (r : Run) (c : Nat) : List Nat :=
  ((r.walks.filter (fun w => w.core == c && r.started.contains w.mi && !macroDone s r w.mi)).map (fun w => w.mi))

/-- The core has no macro-instruction in flight (R379). -/
def coreIdle (s : State) (c : Nat) : Bool :=
  s.runs.all (fun r => r.state == 0 || r.state == 3 || (inFlight s r c).isEmpty)

/-- A run ended by a bite (R382, R383): every run named is stopped, or removed when it has not started, with the macro index
given for it. -/
def biteRun (s : State) (tag mi : Nat) : State :=
  match s.live tag with
  | none => s
  | some r => if r.state = 0 then endRun s tag eWatchdog else stopRun s tag eWatchdog mi

/-- Bites of the last 10 s, this one included (R412). -/
def recentBites (s : State) (l : List Nat) : List Nat := l.filter (fun t => decide (s.now < t + 10000000000)) ++ [s.now]

/-- WATCHDOG_BITE and its FAULT entry (R409, R432). -/
def postBite (s : State) (kind unit n : Nat) : State :=
  faultEntry (postEvent s 0x4A (items [kind, unit, n])) (if kind = 0 then 12 else 13) kind unit (items [kind, unit, n])

/-- The instances of CELLAR tensors on a core are lost (R75). -/
def loseCellar (s : State) (c : Nat) : State :=
  { s with tensors := mapIf (fun t => t.desc.placement == 2) (fun t =>
      { t with lostOn := insertN c t.lostOn, rewritten := t.rewritten.filter (fun x => x.1.2.2 != c) }) s.tensors }

/-- A core is retired (R412). -/
def retireCore (s : State) (c : Nat) : State :=
  if (s.core c).retired then s
  else (postEvent (s.onCore c (fun k => { k with outOfService := true, retired := true })) 0x48 (items [c])).bump Ctr.coresRetired 0 1

/-- A core bitten by the watchdog (R382, R412). -/
def biteCore (s : State) (c : Nat) : State :=
  let bites := recentBites s (s.core c).bites
  let hit := (s.runs.filter (fun r => r.state != 3 && r.prog.team.contains c)).map (fun r =>
    (r.tag, (inFlight s r c).foldl min 0xFFFF))
  let s := hit.foldl (fun s x => biteRun s x.1 x.2) s
  let s := loseCellar s c
  let s := s.onMem (fun m => mendWords { m with cellar := memZero m.cellar (c * 1048576) 1048576 } 0 (c * 262144) 262144)
  let s := s.onCore c (fun k => { k with
    tiles := [], merge := {}, mergeNext := {}, larders := [none, none], larderFreeAt := s.now, turn := [], xcache := [], conflictOf := none
    outOfService := true, bites := bites, lastProgress := s.now, loftLost := [(8388608, 4194304)], sideLost := true })
  let s := (postBite s 0 c bites.length).bump Ctr.watchdogCoreResets 0 1
  if 3 ≤ bites.length then retireCore s c else s

/-- A transfer in flight passes through a segment (Table 14.2): the router of its core, the DDR channel of a LOCAL page, the
links to a PEER, or the host port of a HOST page. -/
def xferThrough (s : State) (g : Nat) (x : Xfer) : Bool :=
  if g < 16 then coreSeg x.core == g
  else if g < 18 then x.kind == 1 && (if chanOf x.target < 12 then 16 else 17) == g
  else if g < 20 then
    x.kind == 2 && (match s.routes.find? (fun r => r.rank == x.peer) with
      | some r => r.links.any (fun l => (if l < 48 then 18 else 19) == g)
      | none => false)
  else
    x.kind == 3 && (match s.qp x.peer with
      | some q => (if q.subport < 8 then 20 else 21) == g
      | none => false)

/-- Runs with a transfer or stream passing through a segment. -/
def runsThrough (s : State) (g : Nat) : List Nat :=
  ((s.runs.filter (fun r => r.state != 3 && r.state != 0 &&
    (s.xfers.any (fun x => x.tag == r.tag && xferThrough s g x)
      || r.prog.team.any (fun c => (s.core c).writes.any (fun x => x.tag == r.tag && xferThrough s g x))
      || (decide (g < 16) && s.streams.any (fun x => x.tag == r.tag && coreSeg x.core == g))))).map (fun r => r.tag))

/-- The arbiters of a segment return to reset; the waits they end are counted (R383, Table 14.3). -/
def resetArbs (s : State) (g : Nat) : State :=
  let here := fun (p : Nat × Arb) => arbSeg (p.1 / 2 ^ 20) (p.1 % 2 ^ 20) == some g
  let s := (s.arbs.filter here).foldl (fun s p =>
    p.2.raisedAt.foldl (fun s w => arbWaited s (p.1 / 2 ^ 20) (p.1 % 2 ^ 20) w) s) s
  { s with arbs := s.arbs.filter (fun p => !here p) }

/-- Requests held in a segment's buffers are dropped (R383): reads that pass through it are given up, and writes are waited for
no more, though one that has entered its DDR channel's queue may still complete (log 69). -/
def dropThrough (s : State) (g : Nat) : State :=
  { s with
    xfers := s.xfers.filter (fun x => !xferThrough s g x)
    cores := s.cores.map (fun (c : Nat × Core) => (c.1, { c.2 with
      writes := mapIf (xferThrough s g) (fun x => { x with discard := true }) c.2.writes })) }

/-- Links of the segments L0 and L1 send their kept frames again (R383, R276). -/
def resendLinks (s : State) (g : Nat) : State :=
  if g = 18 ∨ g = 19 then
    let here := fun (l : Nat × Link) => (if l.1 < 48 then 18 else 19) == g
    let again := fun (l : Nat × Link) => (l.1, { l.2 with resend := l.2.kept })
    { s with links := mapIf here again s.links }
  else s

/-- A fabric segment bitten by the watchdog (R383, R412). -/
def biteSeg (s : State) (g : Nat) : State :=
  let bites := recentBites s (s.seg g).bites
  let hit := (runsThrough s g).map (fun t => (t, match s.live t with
    | some r => (r.prog.team.flatMap (inFlight s r)).foldl min 0xFFFF
    | none => 0xFFFF))
  let s := hit.foldl (fun s x => biteRun s x.1 x.2) s
  let s := resendLinks (resetArbs (dropThrough s g) g) g
  let s := s.setSeg g { (s.seg g) with bites := bites, outOfService := true, lastProgress := s.now }
  let s := (postBite s 1 g bites.length).bump Ctr.watchdogSegmentResets 0 1
  if 3 ≤ bites.length ∧ g < 16 then ((List.range 8).map (8 * g + ·)).foldl retireCore s else s

/-- A macro-instruction in flight on a core waits on what R379 names: a halted stream, a beat, a rotation, a multicast, the
gradient reducer, or a transfer to or from a peer or a host. -/
def waitsAway (s : State) (r : Run) (c mi : Nat) : Bool :=
  let o := (r.mrec mi).opcode
  o == opWaitBeat || o == opRotate || o == opMcast || o == opGradPush || (chainOf r mi).isSome ||
    s.streams.any (fun x => x.tag == r.tag && x.mi == mi && x.core == c && x.halted.isSome) ||
    s.xfers.any (fun x => x.tag == r.tag && x.mi == mi && x.core == c && x.kind != 1) ||
    (s.core c).writes.any (fun x => x.tag == r.tag && x.mi == mi && x.kind != 1)

/-- Every macro-instruction in flight on a core waits on what R379 names. -/
def coreExcused (s : State) (c : Nat) : Bool :=
  s.runs.all (fun r => r.state == 0 || r.state == 3 || (inFlight s r c).all (waitsAway s r c))

/-- WATCHDOG_CHECK (R378 to R380, R443): one check of a unit, a core (kind 0) or a segment (kind 1): whether it made progress
since the last check, or its cc counted toward neither. -/
def execWatchdogCheck (kind unit : Nat) (progress : Bool) (excused : Bool) (s : State) : Host.Outcome State Fault Refusal :=
  .next <|
    if s.health.imionStopped then s
    else
      let gap := watchdogCc s / 4
      if kind = 0 ∧ unit < 128 then
        let c := s.core unit
        if c.outOfService then s
        else if progress ∨ coreIdle s unit then s.setCore unit { c with lastProgress := s.now }
        else if excused ∨ coreExcused s unit ∨ s.pins.haltN then s.setCore unit { c with lastProgress := min s.now (c.lastProgress + gap) }
        else if c.lastProgress + watchdogCc s ≤ s.now then biteCore s unit
        else s
      else if kind = 1 ∧ unit < 22 then
        let g := s.seg unit
        if g.outOfService then s
        else if progress then s.setSeg unit { g with lastProgress := s.now }
        else if excused then s.setSeg unit { g with lastProgress := min s.now (g.lastProgress + gap) }
        else if g.lastProgress + watchdogCc s ≤ s.now then biteSeg s unit
        else s
      else s

/-- BACK_IN_SERVICE (R382, R383): a unit reset by the watchdog returns; a retired core does not. -/
def execBackInService (kind unit : Nat) (s : State) : Host.Outcome State Fault Refusal :=
  .next <|
    if kind = 0 then
      if (s.core unit).outOfService ∧ !(s.core unit).retired then
        s.onCore unit (fun c => { c with outOfService := false, lastProgress := s.now })
      else s
    else if kind = 1 ∧ (s.seg unit).outOfService then
      s.setSeg unit { (s.seg unit) with outOfService := false, lastProgress := s.now }
    else s

end Sys2Proof.Machine
end

