-- ==== Sys2Proof/Machine/Fence.lean ====
section
/-!
DEFINITION. What groups, transactions and the beat share: beats ahead (R234), becoming SOLO, and the fence (R258).
-/

namespace Sys2Proof.Machine

/-- The first beat that begins at least k bt from now (R234, R256). -/
def beatAfter (s : State) (k : Nat) : Nat := if s.now = s.beat.startAt then s.beat.number + k else s.beat.number + k + 1

/-- The coordinator of the view (R234): the keeper while the view has it, else its lowest rank. -/
def coordinator (s : State) : Nat :=
  if s.group.view.contains s.group.keeper then s.group.keeper else s.group.view.headD s.group.keeper

/-- Every run that has not ended is ended with a status (R258, R266): queued ones are removed, others stopped. -/
def endAllRuns (s : State) (st : BitVec 8) : State :=
  ((s.runs.filter (fun r => r.state != 3)).map (fun r => r.tag)).foldl (fun s t => cancelRun s t st) s

/-- The device becomes SOLO: no rank, no view (R266). Its beat runs on under R244. -/
def becomeSolo (s : State) : State :=
  { s with
    group := { epoch := s.group.epoch, formOrder := s.group.formOrder, leaveOrder := s.group.leaveOrder }
    routes := []
    beat := { s.beat with locked := false, slewing := false, holdover := false, sourceLocked := false, parent := none
                          alternates := [], depth := 0, holdoverBt := 0, lockedBt := 0, missed := 0, good := 0
                          lastEdge := none, rateFrom := none, beatOut := false }
    links := s.links.map (fun l => (l.1, { l.2 with isGroup := false })) }

/-- The order that a LEAVE_GROUP or FORM_GROUP kept waiting completes. -/
def endWaiting (s : State) (w : Option (Nat × Nat)) (st : BitVec 8) (detail : List Byte) : State :=
  match w with
  | some (m, n) =>
    match s.order m n with
    | some o => complete s o st detail
    | none => s
  | none => s

/-- The detail of FORM_GROUP (Table 13.7). -/
def formDetail (absent rank epoch : Nat) : List Byte := leBytes 2 absent ++ leBytes 2 rank ++ leBytes 4 epoch

/-- LEAVE_GROUP that waits completes with E_OK. -/
def endLeave (s : State) : State :=
  let w := s.group.leaveOrder
  endWaiting { s with group := { s.group with leaveOrder := none } } w eOk []

/-- A member fences itself, or is fenced (R258), for a cause of Table 9.8. A LEAVE_GROUP that waits then makes it SOLO
(R266). -/
def fenceSelf (s : State) (cause : Nat) : State :=
  if !inView s then s
  else
    let s := endAllRuns s eFenced
    let s := if s.txn.state ≠ 0 ∧ s.txn.group then rollback s eFenced else s
    let s := { s with
      prepared := none
      group := { s.group with
        state := 4, view := [], lastView := s.group.view, next := none, drops := [], adds := [], fenceBeat := none, lossAt := none }
      beat := { s.beat with lockedBt := 0 } }
    let s := (postEvent s 0x04 (items [cause])).bump Ctr.fences 0 1
    if s.group.leaveOrder.isSome then becomeSolo (endLeave s) else s

end Sys2Proof.Machine
end

