-- ==== Sys2Proof/Machine/Stream.lean ====
section
/-!
DEFINITION. The start of macro-instructions (R22, R72, R126, R177, R200, R207), read streams and their halves (R178 to
R182), the write path (R179), halts and their end (R188 to R191), WAIT_BEAT (R21) and FENCE (R22).
-/

namespace Sys2Proof.Machine

/-! Starting. -/

/-- Two records of a run conflict by handle (R22): the earlier writes what the later reads or writes, or reads what the
later writes. -/
def conflict (r : Run) (early late : Nat) : Bool :=
  let lr := r.readHandles late
  let lw := r.writeHandles late
  (r.writeHandles early).any (fun h => lr.contains h || lw.contains h) || (r.readHandles early).any (fun h => lw.contains h)

/-- The cellar tiles that two records share. -/
def sharedTiles (r : Run) (i j : Nat) : List Nat :=
  let a := r.mrec i
  let b := r.mrec j
  below 64 (fun t => decide (a.cellarBase ≤ t) && decide (t < a.cellarBase + a.cellarCount) &&
    decide (b.cellarBase ≤ t) && decide (t < b.cellarBase + b.cellarCount))

/-- A walk has released every one of some cellar tiles for good (R72). -/
def Walk.released (w : Walk) (ts : List Nat) : Bool :=
  w.done || (w.set && w.units.isEmpty && (w.filling ++ w.draining).all (fun p => !ts.contains p.2))

/-- An earlier record's walk on a position still holds, or has yet to use, a cellar tile that a later one names (R72). -/
def tileHeld (r : Run) (i p : Nat) : Bool :=
  (List.range i).any (fun j =>
    let ts := sharedTiles r j i
    !ts.isEmpty && !(match r.walk j p with
      | some w => w.released ts
      | none => false))

/-- A GRAD_PUSH that pushes nothing in its run (R227), as far as the run has come, reads nothing. -/
def idlePush (s : State) (r : Run) (i : Nat) : Bool :=
  let m := r.mrec i
  m.opcode == opGradPush && (ownPush s r.tag i).isNone && (match s.tensor (r.handle m.opA) with
    | some t => r.walks.any (fun w => w.mi == i && w.set) || decide (t.stepCount + 1 < m.imm0)
    | none => false)

/-- An MCAST whose A lies in MEM with its first page PEER receives (R285): it reads no A. -/
def mcReceives (s : State) (op : Nat) (a : View) : Bool :=
  op == opMcast && a.d.placement == 1 && (xlate s (pageOf a.d.base)).1 == 2

/-- Operands of a record that form read streams (R176), in the order of R177. -/
def memReads (s : State) (r : Run) (i p : Nat) : List Nat :=
  if idlePush s r i || mcReceives s (r.mrec i).opcode (getView s r i p 0) then []
  else (r.mrec i).readOps.filter (fun k => (getView s r i p k).d.placement == 1)

/-- The larder that each read stream takes, with the bytes of its halves (Table 7.1); none while it must wait. -/
def larderPlan (c : Core) (n : Nat) : Option (List (Nat × Nat)) :=
  let free := fun (l : Nat) => (c.larders.getD l none).isNone
  match n with
  | 0 => some []
  | 1 => if free 0 then some [(0, 131072)] else if free 1 then some [(1, 131072)] else none
  | 2 => if free 0 && free 1 then some [(0, 131072), (1, 131072)] else none
  | _ => if free 0 && free 1 then some [(0, 131072), (1, 65536), (1, 65536)] else none

/-- Another BWD_DATA, or BWD_WEIGHT, is at work on the core (R200). -/
def unitBusy (s : State) (core op : Nat) : Bool :=
  (op == opBwdData || op == opBwdWeight) &&
    s.runs.any (fun r => r.state != 3 && r.walks.any (fun w => w.core == core && !w.done && (r.mrec w.mi).opcode == op))

/-- An earlier WAIT_BEAT or FENCE of the run is not done on every position. -/
def barred (s : State) (r : Run) (i : Nat) : Bool :=
  (List.range i).any (fun j =>
    ((r.mrec j).opcode == opWaitBeat || (r.mrec j).opcode == opFence) && !macroDone s r j)

/-- What keeps a macro-instruction from starting on a position, by kind: 1 handles (R22), 2 WAIT_BEAT or FENCE, 3 its
PREDICT (R126), 4 Broeth mode (R207), 5 its backward unit (R200), 6 a shared cellar tile (R72), 7 larders (R177). -/
def startBlocks (s : State) (r : Run) (i p : Nat) : List Nat :=
  let m := r.mrec i
  let core := r.coreAt p
  (if (List.range i).any (fun j => conflict r j i && (if chained r j i then (r.walk j p).isNone else !macroDone s r j)) then [1] else []) ++
    (if barred s r i || (m.opcode == opWaitBeat && !(List.range i).all (fun j => (r.walk j p).isSome)) then [2] else []) ++
    (match r.prog.governor i with
     | some g => if (r.walk g p).isNone then [3] else []
     | none => []) ++
    (if bit r.prog.mode 0 && !(List.range i).all (macroDone s r) then [4] else []) ++
    (if unitBusy s core m.opcode then [5] else []) ++
    (if tileHeld r i p then [6] else []) ++
    (if (larderPlan (s.core core) (memReads s r i p).length).isNone then [7] else [])

/-- A run's cores issue: it runs, nothing stops it, HALT_N is released and the position's core is in service. -/
def runIssues (s : State) (r : Run) (p : Nat) : Bool :=
  (r.state == 1 || r.state == 2) && r.stopping.isNone && !s.pins.haltN && !(s.core (r.coreAt p)).outOfService

/-- A macro-instruction of a run may be asked to start on a position: the run is in progress and not paused (R189), and
it has not started there. -/
def startable (s : State) (r : Run) (i p : Nat) : Bool :=
  r.state == 1 && runIssues s r p && decide (i < r.prog.recs.length) && decide (p < r.prog.team.length)
    && (r.walk i p).isNone

/-- A stream whose plan depends on what has not happened yet, planned as far as it can be: once indices have landed (R169,
R180), and slice by slice as the reducer writes an update's gradient (R231). -/
def planned (s : State) (r : Run) (x : Stream) : Stream :=
  if x.planned then x
  else
    match (if x.operand = 0 then chainOf r x.mi else none) with
    | some j =>
      match chainPlan s r x.mi x.pos j x.slices with
      | .ok (l, n, all) => { x with plan := x.plan ++ l, slices := n, planned := all }
      | .error _ => x
    | none =>
      match readPlan s r x.mi x.pos x.operand with
      | .ok l => { x with plan := l, planned := true }
      | .error _ => x

/-- The read streams of a start (R176 to R178). -/
def newStreams (s : State) (r : Run) (i p : Nat) (ls : List (Nat × Nat)) : List Stream :=
  ((memReads s r i p).zip ls).map (fun (k, l, h) =>
    planned s r { tag := r.tag, mi := i, pos := p, core := r.coreAt p, operand := k, larder := l, halfSize := h
                  planned := false, halves := [{}, {}, {}] })

/-- The consumer of some operands of a walk begins to read a work item, and with it all that come before (R178): the headers
of those are read from the header store. -/
def reach (s : State) (tag mi pos : Nat) (ops : List Nat) (item : Nat) : State :=
  let due := fun (x : Stream) =>
    x.tag == tag && x.mi == mi && x.pos == pos && !x.write && ops.contains x.operand && decide (x.upto ≤ item)
  if s.streams.any due then
    { s with streams := mapIf due (fun x => { x with upto := item + 1, kept := x.kept.filter (fun w => decide (item < w)) }) s.streams }
  else s

/-- Every work item of a record is begun at once, as copy-class and row work does, its loft copies included. -/
abbrev allItems : Nat := 2 ^ 41

/-- A write stream of a walk has transfers that the write path has not taken, for want of room (R179). -/
def pathFull (s : State) (tag mi pos : Nat) : Bool :=
  s.streams.any (fun x => x.write && x.tag == tag && x.mi == mi && x.pos == pos && !x.toWrite.isEmpty && x.halted.isNone)

/-- Some transfers of a walk's write streams are not issued, for want of room or because of a halt. -/
def unissued (s : State) (tag mi pos : Nat) : Bool :=
  s.streams.any (fun x => x.write && x.tag == tag && x.mi == mi && x.pos == pos && !x.toWrite.isEmpty)

/-- The work of a producer on a core (R179, R189): it waits while the write path has not taken what came before, and while the
path holds writes and has no room for all that it would write. -/
def produce (s u : State) (tag : Nat) (w : Walk) : State :=
  if unissued s tag w.mi w.pos || (pathFull u tag w.mi w.pos && !(s.core w.core).writes.isEmpty) then
    if w.held then s else s.onWalk tag w.mi w.pos (fun w => { w with held := true })
  else u.onWalk tag w.mi w.pos (fun w => { w with held := false })

/-- The effects of a start: its walk, its larders and its read streams. -/
def startMacro (s : State) (r : Run) (i p : Nat) (ls : List (Nat × Nat)) : State :=
  let core := r.coreAt p
  let s := { s with streams := s.streams ++ newStreams s r i p ls }
  let s := s.onCore core (fun c => { c with
    larders := (List.range 2).map (fun l => if ls.any (fun x => x.1 == l) then some (r.tag, i) else c.larders.getD l none)
    conflictOf := none })
  s.onRun r.tag (fun r => { r with
    startBeat := if r.started.isEmpty then s.beat.number else r.startBeat
    started := insertN i r.started
    walks := r.walks ++ [({ mi := i, pos := p, core := core, startAt := s.now, beatAt := beatAfter s 0 } : Walk)] })

/-- MACRO_START (R22): a macro-instruction starts on a team position. -/
def execMacroStart (t i p : Nat) (s : State) : Host.Outcome State Fault Refusal :=
  .next <|
    match s.live t with
    | none => s
    | some r =>
      if !startable s r i p || !(startBlocks s r i p).isEmpty then s
      else
        match larderPlan (s.core (r.coreAt p)) (memReads s r i p).length with
        | none => s
        | some ls => startMacro s r i p ls

/-- The last reads of a macro-instruction on a position are made: its larders are released (R177). -/
def endReads (s : State) (tag mi pos core : Nat) : State :=
  freeLarders { s with streams := s.streams.filter (fun x => x.write || !(x.tag == tag && x.mi == mi && x.pos == pos)) }
    core tag mi

/-- A position has made all its issues of a macro-instruction. -/
def endWalk (s : State) (tag mi pos core : Nat) : State :=
  (endReads s tag mi pos core).onWalk tag mi pos (fun w => { w with done := true, set := true })

/-- The walk of a macro-instruction of an opcode on a position that is started and whose run issues. -/
def walkOf (s : State) (t i p : Nat) : Option (Run × Walk) :=
  match s.live t with
  | none => none
  | some r =>
    match r.walk i p with
    | some w => if runIssues s r p then some (r, w) else none
    | none => none

/-- The common form of an opcode's command: it acts on a walk of that opcode, started and not done. -/
def opCmd (s : State) (t i p op : Nat) (f : State → Run → Walk → State) : State :=
  match walkOf s t i p with
  | some (r, w) => if (r.mrec i).opcode = op ∧ !w.done then f s r w else s
  | none => s

/-- A macro-instruction has begun reads that touch a rotation's buffers on its core: it holds the buffer of its step of
record until they are finished (R195, R197). -/
def beginReads (s : State) (tag mi core off n : Nat) : State :=
  let hit := rotsOn s tag mi core off n
  if hit.isEmpty then s
  else
    { s with rots := mapIf (fun x => hit.contains x) (fun x =>
        let y := (stepOfRecord s tag mi x % 2, mi, firstAccess s tag mi x)
        if x.readers.contains y then x else { x with readers := x.readers ++ [y] }) s.rots }

/-- The shelf operands of a macro-instruction that goes on reading (R195, R197). -/
def noteReaders (s : State) (r : Run) (mi pos : Nat) : State :=
  if s.rots.isEmpty then s
  else
    (r.mrec mi).readOps.foldl (fun s k =>
      let v := getView s r mi pos k
      if v.d.placement = 0 then beginReads s r.tag mi (r.coreAt pos) v.d.base (v.d.footprint r.prog.team.length) else s) s

/-! WAIT_BEAT and FENCE. -/

/-- WAIT_BEAT (R21): the position passes once the named beat has begun. The first position to pass settles whether the
run was late. -/
def execWaitBeat (t i p : Nat) (s : State) : Host.Outcome State Fault Refusal :=
  .next <| opCmd s t i p opWaitBeat fun s r w =>
    let b := beatOf r (r.mrec i)
    if s.beat.number < b then s
    else
      let first := !r.walks.any (fun x => x.mi == i && x.done)
      let late := first && decide (b < w.beatAt)
      let s := endWalk s t i p w.core
      let s := if first then s.onRun t (fun r => { r with waitBeat := some b }) else s
      if late then (s.onRun t (fun r => { r with lateWaits := r.lateWaits + 1 })).bump Ctr.lateWaits 0 1 else s

/-- The kinds of write that a record makes, as bits of a FENCE scope: 0 shelf, 1 tensor address space, 2 link operation,
3 CELLAR (R20). -/
def scopeOf (s : State) (r : Run) (j : Nat) : Nat :=
  let m := r.mrec j
  let refs := m.writes ++ (r.prog.loftDest j).map (fun p => p.1)
  let places := refs.filterMap (fun x => (viewRef s r j 0 2 x).map (fun v => v.d.placement))
  orAll (places.map (fun k => if k = 0 then 1 else if k = 1 then 2 else 8)) ||| (if groupOp m.opcode then 4 else 0)

/-- FENCE (R22): the position passes once every earlier macro-instruction's writes within its scope are made. -/
def execFence (t i p : Nat) (s : State) : Host.Outcome State Fault Refusal :=
  .next <| opCmd s t i p opFence fun s r w =>
    let want := if (r.mrec i).imm0 = 0 then 15 else (r.mrec i).imm0
    if (List.range i).all (fun j => scopeOf s r j &&& want == 0 || macroDone s r j) then endWalk s t i p w.core else s

/-! Halts (R188 to R190). -/

/-- The detail of an interim completion (Table 13.7). -/
def haltDetail (h : Halt) : List Byte :=
  leBytes 2 h.mi ++ leBytes 1 h.position ++ leBytes 1 h.operand ++ leBytes 4 h.page ++ leBytes 1 h.reason

/-- The interim completion of a run's first halt (R190). -/
def postInterim (s : State) (r : Run) (h : Halt) : State :=
  deliver s r.qp { tag := r.tag, number := r.number, kind := 1, code := 0x04, status := eStreamHalted, mailbox := r.mailbox
                   beat := s.beat.number, detail := haltDetail h ++ List.replicate 31 0 }

/-- A stream halts (R188): its run pauses, and the halt is reported (R189, R190). -/
def haltStream (s : State) (x : Stream) (page reason : Nat) : State :=
  match s.live x.tag with
  | none => s
  | some r =>
    if r.stopping.isSome ∨ x.halted.isSome then s
    else
      let h : Halt := { mi := x.mi, position := x.pos, operand := x.operand, page := page, reason := reason }
      let s := (setStream s { x with halted := some h }).bump Ctr.streamHalts x.core 1
      let s := s.onRun x.tag (fun r => { r with state := 2, halts := r.halts ++ [h], interim := true })
      if r.interim then s else postInterim s r h

/-! Filling a half. -/

/-- A page looked up by a core (R182): XLATE_MISSES when its translation cache does not hold it. Which of 64 entries gives
way to a new one is a free value (log 84). -/
def lookupPage (s : State) (core page : Nat) : State :=
  let c := s.core core
  if c.xcache.any (fun x => x.1 == page) then s
  else
    let e := (page, (xlate s page).1)
    if c.xcache.length < 64 then (s.setCore core { c with xcache := c.xcache ++ [e] }).bump Ctr.xlateMisses core 1
    else
      let l := c.xcache.eraseIdx (Config.xlateVictim s.free % 64)
      (s.draw.setCore core { c with xcache := l ++ [e] }).bump Ctr.xlateMisses core 1

/-- One transfer issued as its page's entry directs (Table 7.4), or the halt reason. -/
def issueRead (s : State) (x : Stream) (half item a n : Nat) : State × Option Nat :=
  let page := pageOf a
  match haltReason s page false false with
  | some why => (s, some why)
  | none =>
    let (kind, _, peer, target, rkey) := xlate s page
    let id := s.nextXfer
    let dst := target + a % 2097152
    let f : Xfer := { id := id, tag := x.tag, mi := x.mi, core := x.core, operand := x.operand, half := half, addr := a
                      len := n, kind := kind, target := dst, peer := peer, rkey := rkey, item := item }
    let put := fun (s : State) => ({ s with xfers := s.xfers ++ [f], nextXfer := (id + 1) % 2 ^ 31 }).bump Ctr.streamTransfers x.core 1
    match kind with
    | 1 => (put s, none)
    | 2 =>
      let (s, ok) := sendTransfer s 3 { ownHdr s 1 peer with address := dst, tag := id, reqLength := n } []
      if ok then (put s, none) else (s, some 2)
    | _ => (put (hostReq s 1 peer dst rkey (leBytes 4 n)), none)

/-- Half k of a stream changed; 2 is its header store's batch. -/
def Stream.onHalf (x : Stream) (k : Nat) (f : Half → Half) : Stream := { x with halves := x.halves.modify k f }

/-- The transfers of a batch issued one by one (R180); a page that serves none halts the stream at its transfer, which is
kept with the later ones (R188). -/
def issueList (half : Nat) : List (Nat × Nat × Nat) → State → Stream → State × Stream
  | [], s, x => (s, x)
  | (w, a, n) :: r, s, x =>
    let (s, why) := issueRead s x half w a n
    match why with
    | none => issueList half r s (x.onHalf half (fun h => { h with waiting := h.waiting ++ [s.nextXfer - 1] }))
    | some reason =>
      let y := x.onHalf half (fun h => { h with todo := h.todo ++ (w, a, n) :: r })
      (haltStream (setStream s y) y (pageOf a) reason,
        { y with halted := some { mi := x.mi, position := x.pos, operand := x.operand, page := pageOf a, reason := reason } })

/-- One batch (R180): each distinct page of it is looked up once, then its transfers are issued; of a stream that is halted
they are kept. -/
def issueBatch (half : Nat) (l : List (Nat × Nat × Nat)) (a : State × Stream) : State × Stream :=
  let (s, x) := a
  if x.halted.isSome then (s, x.onHalf half (fun h => { h with todo := h.todo ++ l }))
  else
    let s := ((l.map (fun t => pageOf t.2.1)).eraseDups).foldl (fun s p => lookupPage s x.core p) s
    issueList half l s x

/-- The batches of at most 512 transfers that some transfers form (R180). -/
def batches (l : List (Nat × Nat × Nat)) : List (List (Nat × Nat × Nat)) :=
  (List.range (cdiv l.length 512)).map (fun k => (l.drop (512 * k)).take 512)

/-- Transfers issued into a half, batch by batch, of a stream that stands among the streams. -/
def issueInto (s : State) (x : Stream) (half : Nat) (l : List (Nat × Nat × Nat)) : State :=
  let (s, x) := (batches l).foldl (fun a b => issueBatch half b a) (setStream s x, x)
  setStream s x

/-- The transfers at the head of a list that a half has room for. -/
def takeFill (room : Nat) : List (Nat × Nat × Nat) → List (Nat × Nat × Nat) × List (Nat × Nat × Nat)
  | [] => ([], [])
  | x :: r => if room < x.2.2 then ([], x :: r) else let (a, b) := takeFill (room - x.2.2) r; (x :: a, b)

/-- A free half of a stream filled with the transfers at the head of a list (R178, R180). -/
def fillHalf (s : State) (x : Stream) (half : Nat) (l : List (Nat × Nat × Nat)) : State :=
  let s := s.bump Ctr.streamBatches x.core (cdiv l.length 512)
  let y := { x with last := half }
  issueInto s (y.onHalf half (fun _ => { state := 1, parts := l.map (fun t => (t.1, t.2.2)) })) half l

/-- A half of a stream is free (R178): it was never filled, or its consumer has read all of it. -/
def Stream.freeHalf (x : Stream) (k : Nat) : Bool :=
  let h := x.halves.getD k {}
  h.state == 0 || (h.state == 2 && h.parts.all (fun p => decide (p.1 < x.upto)))

/-- The half that the next fill takes: a free one, that which was filled before the other first. -/
def nextHalf (x : Stream) : Option Nat :=
  if x.freeHalf (1 - x.last) then some (1 - x.last) else if x.freeHalf x.last then some x.last else none

/-- The read stream of an operand of a walk. -/
def readStream (s : State) (t i p op : Nat) : Option Stream :=
  s.streams.find? (fun x => x.tag == t && x.mi == i && x.pos == p && x.operand == op && !x.write)

/-- Headers that a stream's header store has room for (R181). -/
def Stream.headRoom (x : Stream) : Nat := 512 - x.heads.length - x.kept.length

/-- The next batch of a crated stream (R181): the headers of the slots that follow, while the payload known does not fill the
half; else the payload of the headers that have landed. -/
def fillCrated (s : State) (x : Stream) (half : Nat) : State :=
  let (take, rest) := takeFill x.halfSize x.pay
  let heads := x.plan.take x.headRoom
  if !x.heads.isEmpty && rest.isEmpty then s
  else if rest.isEmpty && !heads.isEmpty then
    issueInto (s.bump Ctr.streamBatches x.core 1)
      { x with plan := x.plan.drop heads.length, heads := x.heads ++ heads.map (fun t => (t.1, t.2.1, none)) } 2 heads
  else if take.isEmpty then s
  else fillHalf s { x with pay := rest } half take

/-- HALF_FILL (R178): a half that is free is filled. -/
def execHalfFill (t i p op : Nat) (s : State) : Host.Outcome State Fault Refusal :=
  .next <|
    match s.live t with
    | none => s
    | some r =>
      match readStream s t i p op with
      | none => s
      | some x0 =>
        let x := planned s r x0
        if !runIssues s r p || x.halted.isSome then s
        else
          match nextHalf x with
          | none => s
          | some h =>
            if (getView s r i p op).d.form ≠ 0 then fillCrated s x h
            else
              let (take, rest) := takeFill x.halfSize x.plan
              if take.isEmpty then s else fillHalf s { x with plan := rest } h take

/-! Landing. -/

/-- The payload transfers of the headers at the head of the header store that have landed, in order (R181). -/
def cutHeads : List (Nat × Nat × Option Nat) → List (Nat × Nat × Nat) × List Nat × List (Nat × Nat × Option Nat)
  | (w, a, some n) :: r =>
    let (l, k, rest) := cutHeads r
    ((cutPayload (n / 4096 + 3) (a + 32) n 0).map (fun t => (w, t)) ++ l, w :: k, rest)
  | l => ([], [], l)

/-- A header placed in the header store (R181). -/
def landHeader (d : Desc) (x : Stream) (f : Xfer) (b : List Byte) : Stream :=
  let n := roundUp (min (field b 4 4) (densePayload d.format)) 32
  let hs := x.heads.map (fun h => if h.2.1 = f.addr ∧ h.2.2.isNone ∧ h.1 = f.item then (h.1, h.2.1, some n) else h)
  let (l, k, rest) := cutHeads hs
  { x with heads := rest, pay := x.pay ++ l, kept := x.kept ++ k.filter (fun w => decide (x.upto ≤ w)) }

/-- Bytes of a transfer placed in its half (R178): the half is ready, and its bytes can be read, when every byte of its batch
has landed. -/
def landBytes (s : State) (d : Desc) (x : Stream) (f : Xfer) (b : List Byte) : State :=
  let x := x.onHalf f.half (fun h => { h with waiting := h.waiting.filter (fun k => k != f.id) })
  let h := x.halves.getD f.half {}
  let x :=
    if f.half = 2 then { landHeader d x f b with landed := landAt x.landed f.addr b }
    else if h.waiting.isEmpty && h.todo.isEmpty then
      { x.onHalf f.half (fun h => { h with state := 2, blocks := [] }) with
        landed := landAt (h.blocks.foldl (fun l k => landAt l k.1 k.2) x.landed) f.addr b }
    else x.onHalf f.half (fun h => { h with blocks := h.blocks ++ [(f.addr, b)] })
  (setStream s x).bump Ctr.streamBytesRead f.core b.length

/-- A read that returns (R178, R188, R192): its bytes land; a peer or host that did not serve it halts its stream; lost
data fails its macro-instruction. -/
def returnRead (s : State) (f : Xfer) (d : Option (List Byte)) (lost : Bool) : State :=
  let s := { s with xfers := s.xfers.filter (fun y => y.id != f.id) }
  if f.discard then s
  else
    match s.streams.find? (fun x => x.tag == f.tag && x.mi == f.mi && x.core == f.core && x.operand == f.operand && !x.write) with
    | none => s
    | some x =>
      match s.live f.tag with
      | none => s
      | some r =>
        if lost then failMacro s f.tag f.mi eDataLost
        else
          match d with
          | some b => landBytes s (getView s r f.mi x.pos f.operand).d x f (slice b 0 f.len)
          | none =>
            let x := x.onHalf f.half (fun h => { h with
              todo := (f.item, f.addr, f.len) :: h.todo, waiting := h.waiting.filter (fun k => k != f.id) })
            haltStream (setStream s x) x (pageOf f.addr) (if f.kind = 2 then 2 else 3)

/-- TRANSFER_LAND (R178): an issued read returns. A LOCAL one carries the bytes that DDR holds, once it serves them (R305,
R311); for a PEER or HOST one the command brings them, or says that it was not served; a failed queue pair brings none (R335). -/
def execTransferLand (id : Nat) (d : Option (List Byte)) (s : State) : Host.Outcome State Fault Refusal :=
  .next <|
    match s.xfers.find? (fun f => f.id == id) with
    | none => s
    | some f =>
      if f.kind = 1 then
        if ddrBusy s f.target f.len false then s
        else
        let b := ddrRead s f.target f.len
        returnRead (countRead s f.target f.len) f b b.isNone
      else returnRead s f (if f.kind = 3 ∧ !qpUp s f.peer then none else d) false

/-! The write path (R179). -/

/-- Bytes of issued writes that await completion on a core. -/
def pathBytes (c : Core) : Nat := (c.writes.map (fun w => w.len)).sum

/-- A byte of a write: where only some of its bits are written, the others are those of the byte that stands there (R37). -/
def mergePart (f : Xfer) (c : Host.Cell) (old : Nat → Byte) : Byte :=
  match look c.1 f.part with
  | some m => (c.2 &&& BitVec.ofNat 8 m) ||| (old c.1 &&& BitVec.ofNat 8 (255 - m))
  | none => c.2

/-- One write issued as its page's entry directs, or the halt reason (R185, R188). To the host go the bytes that the write
names; a WRITE to a peer carries its whole 32-byte words (R180, R280), and what the device does not know of them is free
(log 34). -/
def issueWrite (s : State) (x : Stream) (f : Xfer) : State × Option Nat :=
  let page := pageOf f.addr
  let s := lookupPage s x.core page
  match haltReason s page true f.add with
  | some why => (s, some why)
  | none =>
    let (kind, _, peer, target, rkey) := xlate s page
    let id := s.nextXfer
    let dst := target + f.addr % 2097152
    let data := f.cells.map (fun c => mergePart f c (fun a =>
      (lastWritten (s.core x.core).writes a).getD (remoteByte s kind peer (target + a % 2097152))))
    let f := { f with id := id, kind := kind, target := dst, peer := peer, rkey := rkey }
    let put := fun (s : State) =>
      ((({ s with nextXfer := (id + 1) % 2 ^ 31 }).onCore x.core (fun c => { c with writes := c.writes ++ [f] })).bump
        Ctr.streamTransfers x.core 1).bump Ctr.streamBytesWritten x.core f.len
    match kind with
    | 1 => (put s, none)
    | 2 =>
      let h := { ownHdr s (if f.add then 4 else 3) peer with
        address := dst, tag := id + (if f.add then 2 ^ 31 else 0), length := data.length }
      let (s, ok) := sendTransfer s (if f.add then 1 else 3) h data
      if ok then (put s, none) else (s, some 2)
    | _ =>
      let named := ((f.cells.zip data).filter (fun c => look c.1.1 f.part != some 0)).map (fun c => (c.1.1, [c.2]))
      (put ((joinRuns named).foldl (fun s r => hostReq s 0 peer (target + r.1 % 2097152) rkey r.2) s), none)

/-- Writes of one stream issued in order while the write path has room and the cores are not held (R179, R443). -/
def issueStream : Nat → State → Stream → State
  | 0, s, _ => s
  | k + 1, s, x =>
    match x.toWrite with
    | [] => s
    | f :: rest =>
      if x.halted.isSome ∨ s.pins.haltN ∨ 65536 < pathBytes (s.core x.core) + f.len then s
      else
        let (s, why) := issueWrite s x f
        match why with
        | some reason => haltStream s x (pageOf f.addr) reason
        | none => let x := { x with toWrite := rest }; issueStream k (setStream s x) x

/-- Every write stream issues what it can. -/
def issueWrites (s : State) : State :=
  (s.streams.filter (fun x => x.write && !x.toWrite.isEmpty)).foldl (fun s x => issueStream x.toWrite.length s x) s

/-- A local write or atomic add made in DDR: false when some of it was not applied (R310, R311). Of the bytes of its range
that it does not name nothing is written, and a burst of which it writes some bits only is written in part. -/
def applyWrite (s : State) (f : Xfer) : State × Bool :=
  if f.add then
    let data := f.cells.map (fun c => c.2)
    ddrAdd s f.target (bytesF32 (data.length / 4) data)
  else
    let at0 := fun (a : Nat) => f.target + (a - f.addr)
    let bad := ((f.part.filter (fun p => p.2 != 0 && s.mem.ddrPoison.contains (at0 p.1 / 64))).map (fun p => at0 p.1 / 64)).eraseDups
    let cells := (f.cells.filter (fun c => look c.1 f.part != some 0)).map (fun c =>
      (at0 c.1, mergePart f c (fun a => ddrByte s (at0 a))))
    let (s, ok) := ddrWriteCells s (cells.filter (fun c => !bad.contains (c.1 / 64)))
    (s, ok && bad.isEmpty)

/-- A write that returns (R179, R185, R188): served, lost, or not served, which halts its stream with the write at its
head again. -/
def returnWrite (s : State) (core : Nat) (f : Xfer) (ok lost : Bool) : State :=
  let s := s.onCore core (fun c => { c with writes := c.writes.filter (fun y => y.id != f.id) })
  if lost then failMacro s f.tag f.mi eDataLost
  else if ok then issueWrites s
  else
    match s.streams.find? (fun x => x.tag == f.tag && x.mi == f.mi && x.core == f.core && x.operand == f.operand && x.write) with
    | none => s
    | some x =>
      let x := { x with toWrite := f :: x.toWrite }
      haltStream (setStream s x) x (pageOf f.addr) (if f.kind = 2 then 2 else 3)

/-- WRITE_COMPLETE (R179): an issued write of a core is acknowledged by the memory subsystem, once it serves it (R305,
R311), the peer or the host.
Writes that overlap complete in the order in which they were issued (R172). -/
def execWriteComplete (core id : Nat) (ok : Bool) (s : State) : Host.Outcome State Fault Refusal :=
  .next <|
    match (s.core core).writes.find? (fun f => f.id == id) with
    | none => s
    | some f =>
      let before := (s.core core).writes.takeWhile (fun y => y.id != id)
      if before.any (fun y => y.kind == f.kind && y.peer == f.peer && overlap y.target y.len f.target f.len) then s
      else if f.kind = 1 ∧ ddrBusy s f.target f.len true then s
      else if f.kind = 1 then let (s, done) := applyWrite s f; returnWrite s core f true (!done)
      else returnWrite s core f (ok && (f.kind != 3 || qpUp s f.peer)) false

/-! RESUME_STREAM (R191). -/

/-- A halted stream continues from its saved position (R191): what its batches have not issued is issued. -/
def resumeOne (s : State) (x0 : Stream) : State :=
  let x := { x0 with halted := none }
  let s := setStream s x
  if x.write then issueStream x.toWrite.length s x
  else
    let (s, x) := [2, 0, 1].foldl (fun (a : State × Stream) k =>
      let l := (a.2.halves.getD k {}).todo
      (batches l).foldl (fun a b => issueBatch k b a) (a.1, a.2.onHalf k (fun h => { h with todo := [] }))) (s, x)
    setStream s x

/-- RESUME_STREAM (R191): the halted streams of a paused run go on. -/
def execResumeStream (m n : Nat) (s : State) : Host.Outcome State Fault Refusal :=
  .next <| orderCmd s m n 0x08 fun s o =>
    match s.live (field o.bytes 0x28 8) with
    | none => complete s o ePlan []
    | some r =>
      if r.state ≠ 2 ∨ r.stopping.isSome then complete s o ePlan []
      else
        let s := s.onRun r.tag (fun r => { r with state := 1, halts := [], interim := false })
        let s := (s.streams.filter (fun x => x.tag == r.tag && x.halted.isSome)).foldl (fun s x => resumeOne s x) s
        complete s o eOk []

end Sys2Proof.Machine
end

