-- ==== Sys2Proof/Machine/Tiles.lean ====
section
/-!
DEFINITION. Elements read and written by macro-instructions in every format, form and layout: values at coordinates
(R30, R471), the conversions of R162 and R57, tiles packed into crates (R102 to R104), and the bytes they move.
-/

namespace Sys2Proof.Machine

/-- The tile that holds an element: plane over the plan bounds, tile row, tile column. -/
def View.tileAt (v : View) (x : List Nat) : Nat × Nat × Nat :=
  (planeIdx v.d.rank v.d.bound x, (if 1 < v.d.rank then x.getD 1 0 else 0) / 64, x.getD 0 0 / 64)

/-- Codes and scales at coordinates, each crate opened once; an element outside the current extents gives none. -/
def codesAt (s : State) (v : View) (xs : List (List Nat)) : Except RdErr (List (Option (Nat × Nat))) := do
  if v.d.form = 0 then
    xs.mapM (fun x => if v.inside x then (rawElem s v x).map some else .ok none)
  else
    let ts := ((xs.filter v.inside).map v.tileAt).eraseDups
    let cs ← ts.mapM (fun t => do let c ← crateAt s v t.1 t.2.1 t.2.2; .ok (t, c))
    .ok (xs.map (fun x =>
      if v.inside x then
        match cs.find? (fun c => c.1 == v.tileAt x) with
        | some (_, c) => let (l, p) := lanePos v.d ((if 1 < v.d.rank then x.getD 1 0 else 0) % 64) (x.getD 0 0 % 64); some (c.at l p)
        | none => none
      else none))

/-- The value of a code and scale; none reads as +0 (R471). -/
def valOf (f : Nat) (c : Option (Nat × Nat)) : Val :=
  match c with
  | some c => decVal f c.1 c.2
  | none => .zero

/-- Values at coordinates (R471). -/
def valsAt (s : State) (v : View) (xs : List (List Nat)) : Except RdErr (List Val) := do
  let cs ← codesAt s v xs
  .ok (cs.map (valOf v.d.format))

/-- Bytes as stored that hold some elements (R160): of a RAW tensor their bits and block scales, of a crated one the
crates with their headers. -/
def storedBytes (s : State) (v : View) (xs : List (List Nat)) : Nat :=
  let ins := xs.filter v.inside
  if v.d.form = 0 then
    cdiv (ins.length * fmtBits v.d.format) 8 +
      (if fmtMx v.d.format || v.d.format == 0x0B then ((ins.map (fun x => (v.scaleLoc x).addr)).eraseDups).length * (if v.d.format = 0x0B then 2 else 1) else 0)
  else
    (((ins.map v.tileAt).eraseDups).map (fun t => match crateAt s v t.1 t.2.1 t.2.2 with
      | .ok c => 32 + c.len
      | .error _ => 32)).sum

/-! Conversion (R162). -/

/-- A cell to write: coordinates, code and block scale. -/
abbrev OutCell := List Nat × Nat × Nat

/-- The dimension along which a tensor's scale blocks run (R38, R94): that of its positions. -/
def blockDim (d : Desc) : Nat := d.posDim

/-- The block of an element and its place within it. -/
def blockOf (sd : Nat) (x : List Nat) : List Nat × Nat := (x.set sd (x.getD sd 0 / 32), x.getD sd 0 % 32)

/-- Values narrowed into a format (R57): cells, flags, and how many elements were taken to the largest magnitude. -/
def narrowCells (f sd : Nat) (l : List (List Nat × Val × Bool)) : List OutCell × Nat × Nat :=
  if fmtMx f then
    let keys := (l.map (fun e => (blockOf sd e.1).1)).eraseDups
    keys.foldl (fun a key =>
      let mem := l.filter (fun e => (blockOf sd e.1).1 == key)
      let vs := (List.range 32).map (fun k =>
        match mem.find? (fun e => (blockOf sd e.1).2 == k) with
        | some e => (e.2.1, e.2.2)
        | none => (Val.zero, false))
      let (sc, cs, fl) := narrowMx f vs
      let big := mem.filter (fun e => !e.2.2 && (e.2.1.isInf || e.2.1.magGt (mxTop f e.2.1.neg)))
      (a.1 ++ mem.map (fun e => (e.1, cs.getD (blockOf sd e.1).2 0, sc)), a.2.1 ||| fl,
        a.2.2 + (if bit fl 0 then big.length else 0))) ([], 0, 0)
  else
    l.foldr (fun e a => let (c, fl) := narrow f e.2.2 e.2.1; ((e.1, c, 127) :: a.1, a.2.1 ||| fl, a.2.2 + fl % 2)) ([], 0, 0)

/-- The code and scale that an element of a RAW tensor holds as it stands. -/
def standingElem (s : State) (v : View) (x : List Nat) : Nat × Nat :=
  let w := fmtBits v.d.format
  let l := v.elem x
  let q := v.scaleLoc x
  let b := leNat ((List.range (max 1 (w / 8))).map (fun k => oldByte s v l.core (l.addr + k)))
  (bits b (if w < 8 then l.bit else 0) w, if fmtMx v.d.format then (oldByte s v q.core q.addr).toNat else 127)

/-- Cells of a copy (R162): codes kept where the format and the blocks are the same, else converted. -/
def convertCells (fa fc sd : Nat) (keep : Bool) (l : List (List Nat × Option (Nat × Nat))) : List OutCell × Nat :=
  if fa = fc ∧ (keep ∨ !fmtMx fc) then (l.map (fun e => (e.1, (e.2.getD (0, 127)).1, (e.2.getD (0, 127)).2)), 0)
  else
    let (c, fl, _) := narrowCells fc sd (l.map (fun e => (e.1, valOf fa e.2, false)))
    (c, fl)

/-! Writing. -/

/-- A tile's cells as the crate that holds them (R102, R103): the crate and whether it fell back. -/
def cellsCrate (v : View) (adj : Nat) (hi : List Nat) (tr tc : Nat) (cells : List OutCell) : List Byte × Bool :=
  let h := v.rowsIn tr
  let w := v.colsIn tc
  let at0 := fun (x : List Nat) => lanePos v.d ((if 1 < v.d.rank then x.getD 1 0 else 0) % 64) (x.getD 0 0 % 64)
  let codes : List (Nat × Nat) := cells.foldl (fun a e => let (l, p) := at0 e.1; put (64 * l + p) e.2.1 a) []
  let scales : List (Nat × Nat) := cells.foldl (fun a e => let (l, p) := at0 e.1; put (2 * l + p / 32) e.2.2 a) []
  let (lanes, pos) := if v.d.layout = 2 then (w, h) else (h, w)
  packCrate v.d.form v.d.format adj lanes pos (crateTile v.d tr tc) (planeIdx v.d.rank v.d.bound ([0, 0] ++ hi))
    ((List.range 4096).map (fun k => (look k codes).getD 0)) ((List.range 128).map (fun k => (look k scales).getD 127))

/-- A crate written into its slot (R157). -/
def writeCrate (s : State) (v : View) (hi : List Nat) (tr tc : Nat) (b : List Byte) : Except WrErr State :=
  let l := v.slot (planeIdx v.d.rank v.d.bound ([0, 0] ++ hi)) tr tc
  writeRuns s v l.core [(l.addr, b)]

/-- The cells of the crate that a tile's slot holds, for work that writes part of the tile; none when it holds no intact
crate (log 40). -/
def slotCells (s : State) (v : View) (t : List Nat × Nat × Nat) : List OutCell :=
  let (hi, tr, tc) := t
  let pl := planeIdx v.d.rank v.d.bound ([0, 0] ++ hi)
  let l := v.slot pl tr tc
  let b := (List.range (slotSize v.d.format)).map (fun k => oldByte s v l.core (l.addr + k))
  match openCrate v.d.form v.d.format (crateTile v.d tr tc) pl (b.take 32) (b.drop 32) with
  | none => []
  | some c => (tileCoords v hi tr tc).map (fun x =>
      let (l, p) := lanePos v.d ((if 1 < v.d.rank then x.getD 1 0 else 0) % 64) (x.getD 0 0 % 64)
      (x, c.at l p))

/-- The tile of a cell: plane coordinates, tile row, tile column. -/
def cellTile (v : View) (x : List Nat) : List Nat × Nat × Nat :=
  (x.drop 2, (if 1 < v.d.rank then x.getD 1 0 else 0) / 64, x.getD 0 0 / 64)

/-- Bytes that cells of a RAW tensor take as stored: their bits and the block scales that go with them (R160). -/
def rawBytes (v : View) (cells : List OutCell) : Nat :=
  let scales := ((cells.map (fun e => (v.scaleLoc e.1).addr)).eraseDups).length
  cdiv (cells.length * fmtBits v.d.format) 8 +
    (if fmtMx v.d.format then scales else if v.d.format = 0x0B then 2 * scales else 0)

/-- The cells written that complete the MX blocks of which some cells write a part only (R162, R170): the block's scale is
chosen from all its 32 values, and of those not written the values that stand there are kept (DESIGN CHOICE, log 92). -/
def fillBlocks (s : State) (v : View) (l : List (List Nat × Val × Bool)) : List (List Nat × Val × Bool) :=
  let sd := blockDim v.d
  let keys := (l.map (fun e => (blockOf sd e.1).1)).eraseDups
  l ++ keys.flatMap (fun key =>
    let mem := (l.filter (fun e => (blockOf sd e.1).1 == key)).map (fun e => e.1)
    let rest := ((List.range 32).map (fun k => key.set sd (32 * key.getD sd 0 + k))).filter (fun x => v.inside x && !mem.contains x)
    if rest.isEmpty then []
    else if v.d.form = 0 then rest.map (fun x => (x, valOf v.d.format (some (standingElem s v x)), false))
    else
      let old := (((rest.map (cellTile v)).eraseDups).flatMap (slotCells s v))
      rest.filterMap (fun x => (old.find? (fun e => e.1 == x)).map (fun e => (x, valOf v.d.format (some e.2), false))))

/-- Cells of some tiles written where a tensor lies: RAW elements, or each tile packed into one crate. The numbers: the
crates written, those that fell back, and the bytes as stored. -/
def writeCells (s : State) (v : View) (adj : Nat) (cells : List OutCell) : Except WrErr (State × Nat × Nat × Nat) := do
  if v.d.form = 0 then
    let s ← writeElems s v cells
    .ok (s, 0, 0, rawBytes v cells)
  else
    let ts := (cells.map (fun e => cellTile v e.1)).eraseDups
    ts.foldlM (fun (a : State × Nat × Nat × Nat) t =>
      let mem := cells.filter (fun e => cellTile v e.1 == t)
      let all := if mem.length < v.rowsIn t.2.1 * v.colsIn t.2.2 then slotCells a.1 v t ++ mem else mem
      let (b, fell) := cellsCrate v adj t.1 t.2.1 t.2.2 all
      do
        let s ← writeCrate a.1 v t.1 t.2.1 t.2.2 b
        .ok (s, a.2.1 + 1, a.2.2.1 + b2n fell, a.2.2.2 + b.length)) (s, 0, 0, 0)

/-- The reads, the writes and the crates of copy work counted on a core (R164, R123). A write that R473 makes into every
team copy counts once (DESIGN CHOICE, log 92). -/
def countCopy (s : State) (core rd wr crates fell : Nat) : State :=
  (((s.bump Ctr.copyBytesRead core rd).bump Ctr.copyBytesWritten core wr).bump Ctr.cratesWritten core crates).bump
    Ctr.cratesFellBack core fell

/-! Loft copies (R213). -/

/-- The scale blocks of a copy hold the same elements in the same order on both sides (R162): the source of the
destination's block dimension is the source's own, and the destination does not reach beyond it there. -/
def blocksKept (m : MRec) (a c : View) : Bool :=
  let probe := srcCoord m a.d.rank ((List.replicate 6 0).set (blockDim c.d) 1)
  probe.getD (blockDim a.d) 0 == 1 && decide (c.ex (blockDim c.d) ≤ a.ex (blockDim a.d))

/-- The elements of some tiles of C copied from A through a coordinate map with clamping (R165, R166): cells, flags and
clamped reads. -/
def copyCells (s : State) (m : MRec) (a c : View) (xs : List (List Nat)) : Except RdErr (List OutCell × Nat × Nat) := do
  let src := xs.map (srcClamped m a)
  let cs ← codesAt s a (src.map (fun x => x.1))
  let (cells, fl) := convertCells a.d.format c.d.format (blockDim c.d) (blocksKept m a c) (xs.zip cs)
  let n := (src.filter (fun x => x.2)).length
  .ok (cells, fl ||| (if n = 0 then 0 else flClamp), n)

/-- A copy under COPY's map of the source operand into a loft tensor, by way of FP32 (R213). -/
def loftCells (s : State) (a c : View) (xs : List (List Nat)) : Except RdErr (List OutCell × Nat) := do
  let src := xs.map (srcClamped { opcode := opCopy } a)
  let vs ← valsAt s a (src.map (fun x => x.1))
  let same := a.d.format == c.d.format && !fmtMx c.d.format
  if same then
    let cs ← codesAt s a (src.map (fun x => x.1))
    let (cells, fl) := convertCells a.d.format c.d.format (blockDim c.d) true (xs.zip cs)
    .ok (cells, fl)
  else
    let (cells, fl, _) := narrowCells c.d.format (blockDim c.d) ((xs.zip vs).map (fun e => (e.1, e.2, false)))
    .ok (cells, fl)

end Sys2Proof.Machine
end

