-- ==== Sys2Proof/Machine/Copy.lean ====
section
/-!
DEFINITION. The copy-class opcodes (R160 to R172): COPY, TRANSPOSE, PERMUTE, COMPRESS, GATHER and SCATTER_ADD. A command
does all of a team position's work once every byte that it reads has landed.
-/

namespace Sys2Proof.Machine

/-- A source dimension has extent 0 (R165). -/
def emptySource (a : View) : Bool := (List.range a.d.rank).any (fun i => a.ex i == 0)

/-- The end of a walk whose work is done: it ends when the write path has taken all its writes (R179). -/
def endUnit (s : State) (tag mi pos core : Nat) : State :=
  if unissued s tag mi pos then s.onWalk tag mi pos (fun w => { w with set := true }) else endWalk s tag mi pos core

/-- The end of copy work on a position: the flags it logs (R163), and its walk's end. -/
def endCopy (s : State) (r : Run) (w : Walk) (flags : Nat) : State :=
  endUnit (logFlags s r.tag w.mi w.pos flags) r.tag w.mi w.pos w.core

/-- A position's copy-class or row work: done once, on every work item at once, and over when its writes are issued. -/
def unitWork (f : State → Run → Walk → State) (s : State) (r : Run) (w : Walk) : State :=
  if w.set then (if unissued s r.tag w.mi w.pos then s else endWalk s r.tag w.mi w.pos w.core) else f (reach s r.tag w.mi w.pos [0, 1, 2, 3] allItems) r w

/-- The destination coordinates of a position's work units, in order (R161, R168). -/
def copyTargets (s : State) (r : Run) (w : Walk) : Except RdErr (List (List Nat) × Nat) := do
  let m := r.mrec w.mi
  let a := getView s r w.mi w.pos 0
  let c := getView s r w.mi w.pos 2
  let us ← walkUnits s r w.mi w.pos
  if inPlace m a.d c.d r.prog.team.length then
    let ps := us.filterMap (fun u => (inPlaceUnits m c.d c.e)[u]?)
    let xs := ps.flatMap (fun q =>
      let (fx, u, v) := q
      let tile := fun (u v : Nat) => (List.range 64).flatMap (fun i => (List.range 64).map (fun j => pairCoord m fx u v i j))
      (tile u v ++ (if u = v then [] else tile v u)).filter c.inside)
    .ok (xs, (ps.filter (fun q => q.2.1 != q.2.2)).length)
  else
    .ok (us.flatMap (fun u =>
      let (pl, tr, tc) := tileOf false c.trows c.tcols u
      tileCoords c (planeCoords c.d.rank c.e pl) tr tc), 0)

/-- COPY, TRANSPOSE, PERMUTE and COMPRESS on one position (R106, R162, R165 to R168). -/
def copyWork (s : State) (r : Run) (w : Walk) : State :=
  let m := r.mrec w.mi
  let a := getView s r w.mi w.pos 0
  let c := getView s r w.mi w.pos 2
  let own := inPlace m a.d c.d r.prog.team.length
  let x := bits m.imm0 0 3
  let y := bits m.imm0 3 3
  if own && ((List.range c.d.rank).any (fun i => a.ex i != c.ex i) || c.ex x != c.ex y) then failMacro s r.tag w.mi eOverlap
  else
    match copyTargets s r w with
    | .error e => failRead s r.tag w.mi w.core e
    | .ok (xs, swaps) =>
      if xs.isEmpty then endCopy s r w 0
      else if emptySource a then endCopy s r w flClamp
      else
        match copyCells s m a c xs with
        | .error e => failRead s r.tag w.mi w.core e
        | .ok (cells, fl, n) =>
          match writeCells s c 0 cells with
          | .error e => failWrite s r.tag w.mi e
          | .ok (t, crates, fell, bytes) =>
            let t := countCopy t w.core (storedBytes s a (xs.map (fun x => (srcClamped m a x).1))) bytes crates fell
            let t := (t.bump Ctr.clampReads w.core n).bump Ctr.tileSwaps w.core swaps
            endCopy (issueWrites t) r w (fl ||| (if fell = 0 then 0 else flFell))

/-- COPY (R166). -/
def execCopy (t i p : Nat) (s : State) : Host.Outcome State Fault Refusal := .next <| opCmd s t i p opCopy (unitWork copyWork)

/-- TRANSPOSE (R166, R168). -/
def execTranspose (t i p : Nat) (s : State) : Host.Outcome State Fault Refusal := .next <| opCmd s t i p opTranspose (unitWork copyWork)

/-- PERMUTE (R166). -/
def execPermute (t i p : Nat) (s : State) : Host.Outcome State Fault Refusal := .next <| opCmd s t i p opPermute (unitWork copyWork)

/-- COMPRESS (R106). -/
def execCompress (t i p : Nat) (s : State) : Host.Outcome State Fault Refusal := .next <| opCmd s t i p opCompress (unitWork copyWork)

/-! GATHER (R170, R171). -/

/-- Scale blocks that GATHER moves whole, whatever the indexes (R162). -/
def gatherKept (g : Nat) (a c : View) : Bool :=
  blockDim a.d == blockDim c.d && groupsKeepBlocks g 32 (blockDim c.d) (a.ex 0) (a.ex 1) (c.ex 0) (c.ex 1) && a.count % g == 0

/-- The cells of a GATHER (R162, R170): codes kept where the blocks are, else narrowed, MX blocks as wholes. -/
def gatherCells (s : State) (g : Nat) (a c : View) (l : List (List Nat × Option (Nat × Nat))) : List OutCell × Nat :=
  if fmtMx c.d.format ∧ !(a.d.format == c.d.format && gatherKept g a c) then
    let (cells, fl, _) := narrowCells c.d.format (blockDim c.d)
      (fillBlocks s c (l.map (fun e => (e.1, valOf a.d.format e.2, false))))
    (cells, fl)
  else convertCells a.d.format c.d.format (blockDim c.d) (gatherKept g a c) l

/-- What the directory of first occurrences does with the clamped indexes of a position, in order (R171): the values it
holds, the repeats served, and the values read from the source at occurrences that it could not hold, each of which counts
in GATHER_REFETCH. -/
def directory (cap : Nat) : List Nat → List Nat → Nat → List Nat → Nat × List Nat
  | [], _, rep, again => (rep, again)
  | v :: r, held, rep, again =>
    if held.contains v then directory cap r held (rep + 1) again
    else if held.length < cap then directory cap r (v :: held) rep again
    else directory cap r held rep (v :: again)

/-- The output elements of one index: destination and source coordinates, and whether the source was clamped (R170). -/
def gatherGroup (g : Nat) (a c : View) (j : Nat) (idx : Int) : List (List Nat × List Nat × Bool) :=
  let q := clampIdx (cdiv a.count g) idx
  (below g (fun i => decide (j * g + i < c.count))).map (fun i =>
    let n := q.1 * g + i
    (c.seqCoord (j * g + i), a.seqCoord (min n (a.count - 1)), q.2 || decide (a.count ≤ n)))

/-- GATHER on one position. With an empty source it counts no index (DESIGN CHOICE, log 92). -/
def gatherWork (s : State) (r : Run) (w : Walk) : State :=
  let m := r.mrec w.mi
  let g := m.group
  let a := getView s r w.mi w.pos 0
  let c := getView s r w.mi w.pos 2
  let d := getView s r w.mi w.pos 3
  let got : Except RdErr (List (Nat × Int)) := do
    let us ← walkUnits s r w.mi w.pos
    us.mapM (fun j => do let x ← indexAt s d j; .ok (j, x))
  match got with
  | .error e => failRead s r.tag w.mi w.core e
  | .ok js =>
    if js.isEmpty then endCopy s r w 0
    else if a.count = 0 then endCopy s r w flClamp
    else
      let es := js.flatMap (fun j => gatherGroup g a c j.1 j.2)
      match codesAt s a (es.map (fun e => e.2.1)) with
      | .error e => failRead s r.tag w.mi w.core e
      | .ok cs =>
        let (cells, fl) := gatherCells s g a c ((es.map (fun e => e.1)).zip cs)
        match writeCells s c 0 cells with
        | .error e => failWrite s r.tag w.mi e
        | .ok (t, crates, fell, bytes) =>
          let n := (es.filter (fun e => e.2.2)).length
          let vals := js.map (fun j => (clampIdx (cdiv a.count g) j.2).1)
          let clampedIdx := js.any (fun j => (clampIdx (cdiv a.count g) j.2).2)
          let (rep, again) := directory (4096 + r.prog.scratchBytes / 16) vals [] 0 []
          let first := vals.eraseDups.filter (fun q => !again.contains q)
          let rd := ((first ++ again).map (fun q => storedBytes s a (seqGroup a g q))).sum
          let t := countCopy t w.core (rd + 4 * js.length) bytes crates fell
          let t := (((t.bump Ctr.clampReads w.core n).bump Ctr.gatherIndices w.core js.length).bump Ctr.gatherRepeats w.core rep).bump
            Ctr.gatherRefetch w.core again.length
          endCopy (issueWrites t) r w (fl ||| (if n = 0 ∧ !clampedIdx then 0 else flClamp) ||| (if fell = 0 then 0 else flFell))

/-- GATHER (R170). -/
def execGather (t i p : Nat) (s : State) : Host.Outcome State Fault Refusal := .next <| opCmd s t i p opGather (unitWork gatherWork)

/-! SCATTER_ADD (R172). -/

/-- The additions of one index: destination coordinate and update coordinate, with how many destination elements lie
beyond C. -/
def scatterGroup (g : Nat) (a c : View) (j q : Nat) : List (List Nat × List Nat) × Bool :=
  let us := below g (fun i => decide (j * g + i < a.count))
  ((us.filter (fun i => decide (q * g + i < c.count))).map (fun i => (c.seqCoord (q * g + i), a.seqCoord (j * g + i))),
    us.any (fun i => decide (c.count ≤ q * g + i)))

/-- Additions to elements of C in order, neighbouring ones joined into one run. -/
def addPairs (s : State) (c : View) (l : List (List Nat × F32)) : Except WrErr State :=
  (byCore c (fun e => e.1) l).foldlM (fun s x =>
    addRuns s c x.1 (joinRuns (x.2.map (fun e => ((c.elem e.1).addr, leBytes 4 e.2.toNat))))) s

/-- How many of a list's values occur before in it. -/
def repeats : List Nat → List Nat → Nat
  | [], _ => 0
  | v :: r, met => b2n (met.contains v) + repeats r (v :: met)

/-- SCATTER_ADD on one position. Every index counts in SCATTER_UPDATES, one whose update group adds nothing too; an empty C
takes nothing, sets CLAMP and counts no index (DESIGN CHOICE, log 92). -/
def scatterWork (s : State) (r : Run) (w : Walk) : State :=
  let m := r.mrec w.mi
  let g := m.group
  let a := getView s r w.mi w.pos 0
  let c := getView s r w.mi w.pos 2
  let d := getView s r w.mi w.pos 3
  let q := cdiv c.count g
  let got : Except RdErr (List (Nat × Int)) := do
    let us ← walkUnits s r w.mi w.pos
    us.mapM (fun j => do let x ← indexAt s d j; .ok (j, x))
  match got with
  | .error e => failRead s r.tag w.mi w.core e
  | .ok js =>
    if js.isEmpty then endCopy s r w 0
    else if q = 0 then endCopy s r w flClamp
    else
      let gs := js.map (fun j => (scatterGroup g a c j.1 (clampIdx q j.2).1, clampIdx q j.2))
      let es := gs.flatMap (fun x => x.1.1)
      match valsAt s a (es.map (fun e => e.2)) with
      | .error e => failRead s r.tag w.mi w.core e
      | .ok vs =>
        let cs := vs.map (fun v => narrow 0x10 false v)
        match addPairs s c ((es.map (fun e => e.1)).zip (cs.map (fun x => BitVec.ofNat 32 x.1))) with
        | .error e => failWrite s r.tag w.mi e
        | .ok t =>
          let clamped := gs.any (fun x => x.1.2 || x.2.2)
          let t := countCopy t w.core (storedBytes s a (es.map (fun e => e.2)) + 4 * js.length) (4 * es.length) 0 0
          let t := (t.bump Ctr.scatterUpdates w.core js.length).bump Ctr.scatterRepeats w.core (repeats (gs.map (fun x => x.2.1)) [])
          endCopy (issueWrites t) r w (orAll (cs.map (fun x => x.2)) ||| (if clamped then flClamp else 0))

/-- SCATTER_ADD (R172). -/
def execScatterAdd (t i p : Nat) (s : State) : Host.Outcome State Fault Refusal :=
  .next <| opCmd s t i p opScatter (unitWork scatterWork)

end Sys2Proof.Machine
end

