-- ==== Sys2Proof/Machine/Engine.lean ====
section
/-!
DEFINITION. The engines (R32 to R56, R61 to R72, R109 to R111, R173 to R175, R200 to R208): the walks of MATMUL,
MATMUL_S24, CONV_W, BWD_DATA and BWD_WEIGHT, preloads, the reduction of a tile with its retries, loft copies (R213),
CRATE_EXPAND and TURNED_LOAD.
-/

namespace Sys2Proof.Machine

/-! Reduction steps. -/

/-- One issued reduction step: through the selector, its index k (R46), first reduction index, reduction indexes. -/
abbrev KStep := Bool × Nat × Nat × Nat

/-- Crates of an S24 operand along the reduction for an output tile, those within its extent (R110). -/
def s24Crates (s : State) (b : View) (hi : List Nat) (tc n : Nat) : Except RdErr (List (Nat × Crate)) :=
  (below n (fun k => decide (64 * k < b.ex 1))).mapM (fun k => do
    let c ← crateAt s b (planeIdx b.d.rank b.d.bound ([0, 0] ++ hi)) k tc
    .ok (k, c))

/-- The steps of a reduction in order (R32, R111): a logical step with a crate of form D becomes two dense steps. -/
def stepList (sel : Bool) (e n kk : Nat) (cs : List (Nat × Crate)) : List (Nat × Bool × Nat × Nat) :=
  (List.range n).flatMap (fun k =>
    let p := k * e
    if sel && (below (cdiv kk 64) (fun u => decide (p / 64 ≤ u) && decide (64 * u < p + e))).any (fun u => match look u cs with
      | some c => c.form == 1
      | none => false) then [(k, false, p, e / 2), (k, false, p + e / 2, e / 2)]
    else [(k, sel, p, e)])

/-- Numbers given to a list in order. -/
def numbered {α : Type} (l : List α) : List (Nat × α) := (List.range l.length).zip l

/-- Lists of products' factors: the places of a step's leaves (R43, R110) relative to a first index. -/
def leafPlaces (cs : List (Nat × Crate)) (st : KStep) (lane first : Nat) : List Nat :=
  let (sel, _, p, n) := st
  if sel then
    (List.range (n / 4)).flatMap (fun g =>
      let q := p + 4 * g
      let (i, j) := match look (q / 64) cs with
        | some c => s24Pair (c.groups.getD (16 * lane + q % 64 / 4) 0)
        | none => (0, 1)
      [q + i - first, q + j - first])
  else (List.range n).map (fun k => p + k - first)

/-- What accumulating one tile needs to know. -/
structure EngineJob where
  /-- Integer class (R44). -/
  isInt : Bool := false
  /-- Broeth mode (R208). -/
  broeth : Bool := false
  /-- 64-bit seed. -/
  seed : Nat := 0
  /-- Output plane index over current extents (R46). -/
  plane : Nat := 0
  /-- Tile row and column. -/
  trow : Nat := 0
  /-- See trow. -/
  tcol : Nat := 0
  /-- Rows issued. -/
  rows : List Nat := []
  /-- Columns. -/
  cols : Nat := 0
  /-- Steps in order. -/
  steps : List KStep := []
  /-- First reduction index of the values. -/
  first : Nat := 0
  /-- A's values by issued row. -/
  a : List (List Val) := []
  /-- B's values by column. -/
  b : List (List Val) := []
  /-- Preload values by issued row, none without a preload. -/
  pre : Option (List (List Val)) := none
  /-- S24 crates of B. -/
  crates : List (Nat × Crate) := []
  deriving Inhabited

/-- An element before its first step (R40, R51, R55, R65): the accumulation and whether a NaN preload became 0. -/
def EngineJob.start (j : EngineJob) (n ri c : Nat) : Acc × Bool :=
  match j.pre with
  | none => ({}, false)
  | some p =>
    let v := (p.getD ri []).getD c .zero
    if j.isInt then preInt v else (preFloat n v, false)

/-- The integer of an integer value. -/
def Val.int : Val → Int
  | .fin n m e => scaledTo n m e (min e 0)
  | _ => 0

/-- One element's walk over the steps: its accumulation, and the place (step × rows + row) of its first overflow with
whether an infinite input caused it (R50, R53, R55). -/
def EngineJob.elem (j : EngineJob) (n ri row c : Nat) : Acc × Option (Nat × Bool) :=
  let ar := (j.a.getD ri []).toArray
  let bc := (j.b.getD c []).toArray
  (numbered j.steps).foldl (fun (st : Acc × Option (Nat × Bool)) k =>
    if st.1.sat || st.1.nan then st
    else
      let ps := (leafPlaces j.crates k.2 (c % 64) j.first).map (fun q =>
        ((ar[q]?.getD .zero).mul (bc[q]?.getD .zero)).scale (-16 * (n : Int)))
      let (acc, sat, inf) :=
        if j.isInt then accInt st.1 (ps.map Val.int)
        else if j.broeth then accBroeth st.1 ps
        else accFloat st.1 (stepFloat ps) (ditherAt j.seed j.plane j.trow j.tcol row k.2.2.1 c)
      (acc, if sat then some (k.1 * j.rows.length + ri, inf) else st.2)) ((j.start n ri c).1, none)

/-- A tile's pass with retry count n: its elements row by row. -/
def EngineJob.pass (j : EngineJob) (n : Nat) : List (List (Acc × Option (Nat × Bool))) :=
  (numbered j.rows).map (fun r => (List.range j.cols).map (fun c => j.elem n r.1 r.2 c))

/-- The outcome of a tile's accumulation. -/
structure TileRes where
  /-- Elements by issued row. -/
  accs : List (List Acc) := []
  /-- Retry count n. -/
  n : Nat := 0
  /-- Flags of Table 2.5. -/
  flags : Nat := 0
  /-- Place of the overflow that abandoned each pass. -/
  stops : List Nat := []
  deriving Inhabited

/-- A tile accumulated with its retries (R50 to R56): at most `fuel` further passes. -/
def EngineJob.run (j : EngineJob) (retry : Bool) : Nat → Nat → List Nat → TileRes
  | fuel, n, stops =>
    let t := j.pass n
    let accs := t.map (fun r => r.map (fun e => e.1))
    let overs := (t.flatten).filterMap (fun e => e.2)
    let preSat := (numbered j.rows).any (fun r => (List.range j.cols).any (fun c => (j.start n r.1 c).1.sat))
    let preNan := (numbered j.rows).any (fun r => (List.range j.cols).any (fun c => (j.start n r.1 c).2))
    let key := overs.foldl (fun a o => min a o.1) (2 ^ 80)
    let inf := overs.any (fun o => o.1 == key && o.2)
    let nan := (accs.flatten).any (fun a => a.nan) || preNan
    let done : TileRes :=
      { accs := accs, n := n, stops := stops
        flags := (if overs.isEmpty && !preSat && stops.isEmpty then 0 else flSat) |||
          (if overs.isEmpty && !preSat then 0 else flSatFinal) ||| (if nan then flNan else 0) }
    match fuel with
    | 0 => done
    | fuel + 1 =>
      if retry && !j.isInt && decide (n < 2) && !overs.isEmpty && !preSat && !inf then
        j.run retry fuel (n + 1) (stops ++ [key])
      else done

/-! What a tile reads. -/

/-- Inputs of the integer class accumulate as integers (R40, R44), but in Broeth mode, which sums every class in FP32
(R208). -/
def Run.intClass (r : Run) (f : Nat) : Bool := fmtIntClass f && !bit r.prog.mode 0

/-- Plane coordinates of output plane pl. -/
def hiOf (c : View) (pl : Nat) : List Nat := planeCoords c.d.rank c.e pl

/-- The preload values of a tile by row (R66, R471). -/
def preloadVals (s : State) (c d : View) (hi : List Nat) (tr tc : Nat) (rows : List Nat) (cols : Nat) :
    Except RdErr (List (List Val)) :=
  let h := hiFor d.d.rank c.d.rank hi
  let bias := d.ex 1 == 1 && decide (1 < c.ex 1)
  rows.mapM (fun i => valsAt s d ((List.range cols).map (fun j =>
    [64 * tc + j, if bias then 0 else 64 * tr + i] ++ h)))

/-- Operand D as a work item's preload reads it (R66, R73): a CELLAR D is copied within the position's own core, from the
place that the output tile has among those assigned to the position. -/
def preView (s : State) (r : Run) (mi pos item : Nat) : View :=
  let d := getView s r mi pos 3
  let c := getView s r mi pos 2
  let f := (r.mrec mi).split
  if d.d.placement = 2 then
    { d with own := some (item / f - (share (c.planes * c.trows * c.tcols * f) r.prog.team.length pos).1 / f) }
  else d

/-- The job of one work item: everything its accumulation reads, and of the window slices formed for it, step by step and
row by row, which clamped (R175). Elements at or beyond the reduction extent are not read (R470). Of B it reads the columns
that a test names. -/
def engineJobOn (want : Nat → Bool) (s : State) (r : Run) (w : Walk) (item : Nat) : Except RdErr (EngineJob × List Bool) := do
  let m := r.mrec w.mi
  let a := getView s r w.mi w.pos 0
  let b := getView s r w.mi w.pos 1
  let c := getView s r w.mi w.pos 2
  let d := preView s r w.mi w.pos item
  let (pl, tr, tc) := outTile s r w.mi w.pos (item / m.split)
  let hi := hiOf c pl
  let rows ← tileRows s r w.mi w.pos tr tc
  let cols := c.colsIn tc
  let kk := redExtent m a.d b.d a.e
  let e := redStep m a.d b.d
  let sel := selects m b.d
  let bh := if m.opcode = opConv then [0, 0, 0, 0] else hiFor b.d.rank c.d.rank hi
  let crates ← if sel then s24Crates s b bh tc (cdiv kk 64) else .ok []
  let (lo, top) := partSteps s r w.mi w.pos (item % m.split)
  let all := numbered (stepList sel e (cdiv kk e) kk crates)
  let steps : List KStep := (all.filter (fun x => decide (lo ≤ x.2.1) && decide (x.2.1 < top))).map (fun x => (x.2.2.1, x.1, x.2.2.2))
  let first := lo * e
  let ks := (List.range (min (top * e) kk - first)).map (first + ·)
  let av ← rows.mapM (fun i => valsAt s a (ks.map (fun k =>
    if m.opcode = opConv then (convIn m a.d b.d a.e hi (64 * tr + i) k).1 else aCoord m a.d c.d hi (64 * tr + i) k)))
  let bv ← (List.range cols).mapM (fun j =>
    if want j then valsAt s b (ks.map (fun k => bCoord m b.d c.d hi (64 * tc + j) k)) else .ok [])
  let pre ← if m.flag 1 && item % m.split == 0 then (do let p ← preloadVals s c d hi tr tc rows cols; .ok (some p)) else .ok none
  let slices := if m.opcode = opConv then steps.flatMap (fun k => rows.map (fun i => (convIn m a.d b.d a.e hi (64 * tr + i) k.2.2.1).2)) else []
  .ok ({ isInt := r.intClass a.d.format, broeth := bit r.prog.mode 0, seed := m.imm1, plane := pl, trow := tr, tcol := tc
         rows := rows, cols := cols, steps := steps, first := first, a := av, b := bv, pre := pre, crates := crates }, slices)

/-- The job of one work item. -/
def engineJob (s : State) (r : Run) (w : Walk) (item : Nat) : Except RdErr (EngineJob × List Bool) :=
  engineJobOn (fun _ => true) s r w item

/-! How long a tile reads. -/

/-- The operand that a backward unit reads turned (R203, R204). -/
def MRec.turnedOp (m : MRec) : Option Nat :=
  if m.opcode = opBwdWeight then some 0 else if m.opcode = opBwdData ∧ m.turn then some 1 else none

/-- Crates of operand k that a work item reads; none of a RAW operand. -/
def itemCrates (s : State) (r : Run) (mi pos k item : Nat) : Except RdErr (List Crate) := do
  let m := r.mrec mi
  let v := getView s r mi pos
  if (v k).d.form = 0 then .ok []
  else
    let e := redStep m (v 0).d (v 1).d
    let (lo, top) := partSteps s r mi pos (item % m.split)
    let (pl, tr, tc) := outTile s r mi pos (item / m.split)
    let ts := (tilesNeeded m (fun k => (v k).d) (fun k => (v k).e) (lo * e) (min (top * e) (redExtent m (v 0).d (v 1).d (v 0).e))
      k (hiOf (v 2) pl) tr tc).filter (fun x => (v k).inside (View.coords x.2.1 x.2.2 x.1 0 0))
    ts.mapM (fun x => crateAt s (v k) (planeIdx (v k).d.rank (v k).d.bound ([0, 0] ++ x.1)) x.2.1 x.2.2)

/-- How many cc one pass over a work item's steps needs of each part of the machine (R67, R108, R112, R204). -/
structure Pace where
  /-- Places: a step for one row. -/
  places : Nat := 0
  /-- Its steps, row by row. -/
  steps : Nat := 0
  /-- The bytes of B over the block path. -/
  block : Nat := 0
  /-- The expansion of B's crates. -/
  expand : Nat := 0
  /-- The loads of the turned operand. -/
  turn : Nat := 0
  deriving DecidableEq, Repr, Inhabited

/-- The cc that a pass reads: what needs most paces the others (R115; log 30). -/
def Pace.span (p : Pace) : Nat := max (max p.steps p.block) (max p.expand p.turn)

/-- The cc from a pass's first read to the read of place o, both included. -/
def Pace.upTo (p : Pace) (o : Nat) : Nat := cdiv ((o + 1) * p.span) (max p.places 1)

/-- Places that an abandoned pass reads before the retry pass begins (R53), its overflow at place o. -/
def Pace.readBy (p : Pace) (o : Nat) : Nat := min p.places ((p.upTo o + 16) * p.places / max p.span 1)

/-- Of the cc that n places took beyond their steps, those waited for the block path, for turned loads and for expansion
(R108, R204). -/
def Pace.waits (p : Pace) (cc n : Nat) : Nat × Nat × Nat :=
  let rest := cc - n * p.steps / max p.places 1
  let b := min rest (p.block - p.steps)
  let t := min (rest - b) (p.turn - p.steps)
  (b, t, rest - b - t)

/-- Bytes of n reduction indexes of a RAW operand's tile as the block path carries them (Table 4.7). -/
def blockPathBytes (f n : Nat) : Nat := 8 * n * fmtBits f + (if fmtMx f then 2 * n else 0)

/-- Bytes of the whole blocks of a RAW operand that n reduction indexes load turned (Table 8.2). -/
def turnedBytes (f n : Nat) : Nat := n * cdiv 64 (blockDepth f) * blockBytes f (blockDepth f) / 64

/-- The cc that expanding some crates takes (R108). -/
def expandCc (cs : List Crate) : Nat :=
  (cs.filter (fun c => c.form != 4)).length + cdiv ((cs.filter (fun c => c.form == 4)).map (fun c => c.nnz)).sum 1024

/-- The pace of a work item (R112, R204): the crates that the selector takes are not expanded, and those of form D it
uses as they are (R110, R111). -/
def itemPace (s : State) (r : Run) (w : Walk) (j : EngineJob) (item : Nat) : Except RdErr Pace := do
  let m := r.mrec w.mi
  let b := getView s r w.mi w.pos 1
  let n := (j.steps.map (fun k => k.2.2.2)).sum
  let bs ← itemCrates s r w.mi w.pos 1 item
  let hs := j.steps.length * j.rows.length
  let dense := j.steps.filter (fun k => !k.1)
  let through := if selects m b.d then
      (j.crates.filter (fun c => c.2.form == 2 && dense.any (fun k => decide (k.2.2.1 / 64 ≤ c.1) &&
        decide (64 * c.1 < k.2.2.1 + k.2.2.2)))).map (fun c => c.2)
    else bs
  let pace : Pace := { places := hs, steps := if j.broeth then 4 * hs else hs }
  let ofB := if b.d.form = 0 then blockPathBytes b.d.format n else (bs.map (fun c => c.len)).sum
  match m.turnedOp with
  | none => .ok { pace with block := cdiv ofB 4096, expand := expandCc through }
  | some k =>
    let v := getView s r w.mi w.pos k
    let ts ← itemCrates s r w.mi w.pos k item
    let bytes := if v.d.form = 0 then turnedBytes v.d.format n else (ts.map (fun c => c.len)).sum
    let turned := { pace with turn := max (cdiv bytes 4096) (expandCc ts) }
    .ok (if k = 1 then turned else { turned with block := cdiv ofB 4096, expand := expandCc through })

/-- Cc of an interval that lie in two others. -/
def meetCc (a b : Nat × Nat) : Nat × Nat := (max a.1 b.1, min a.2 b.2)

/-- How many cc some intervals of cc cover. -/
def coverCc : Nat → List (Nat × Nat) → Nat
  | 0, _ => 0
  | k + 1, l =>
    match l with
    | [] => 0
    | x :: r => (x.2 + 1 - x.1) + coverCc k r - coverCc k ((r.map (meetCc x)).filter (fun y => decide (y.1 ≤ y.2)))

/-- Intervals in which the walks of a core other than one record's read their latest tiles, with their opcodes. -/
def readTimes (s : State) (core tag mi : Nat) : List (Nat × Nat × Nat) :=
  s.runs.flatMap (fun r => (r.walks.filter (fun w => w.core == core && !(r.tag == tag && w.mi == mi))).map (fun w =>
    ((r.mrec w.mi).opcode, w.readFrom, w.lastRead)))

/-- Cc of a new tile's reads in which the forward engine and a backward unit both issue steps (R206), those not counted with
an earlier tile. -/
def overlapCc (s : State) (core tag mi op : Nat) (iv : Nat × Nat) : Nat :=
  let back := fun (o : Nat) => o == opBwdData || o == opBwdWeight
  let l := (readTimes s core tag mi).map (fun x => (x.1, meetCc iv x.2)) |>.filter (fun x => decide (x.2.1 ≤ x.2.2))
  let fwd := (l.filter (fun x => !back x.1)).map (fun x => x.2)
  let bwd := (l.filter (fun x => back x.1)).map (fun x => x.2)
  if back op then
    let both := fwd.flatMap (fun x => (bwd.map (meetCc x)).filter (fun y => decide (y.1 ≤ y.2)))
    coverCc 16 fwd - coverCc 16 both
  else coverCc 16 bwd

/-! The walk. -/

/-- The cellar tile of a walk's next work item (R32, R64). -/
def nextTile (m : MRec) (w : Walk) : Nat := m.cellarBase + w.count % (if m.cellarCount = 1 then 1 else 2)

/-- The loft tensors of a record written from their source operand by one position (R213): none while bytes are still to
land. Flags convert as COPY's do (R163). -/
def loftCopy (s : State) (r : Run) (w : Walk) (x : Nat × Nat) : Except RdErr (Except WrErr (State × Nat)) := do
  let a := getView s r w.mi w.pos x.2
  let c := loftView s r w.mi w.pos x
  let (cells, fl) ← loftCells s a c (loftShare c r.prog.team.length w.pos)
  .ok (do
    let (t, n, fell, bytes) ← writeCells s c 0 cells
    let t := (t.bump Ctr.loftBytesWritten w.core bytes).bump Ctr.cratesWritten w.core n
    .ok (t.bump Ctr.cratesFellBack w.core fell, fl ||| (if fell = 0 then 0 else flFell)))

/-- All loft copies of a record on one position, once: a copy whose source has not landed is left for later. -/
def doLoft (s : State) (r : Run) (w : Walk) : State :=
  if w.loftDone then s
  else
    let s := if w.set && w.units.isEmpty && w.filling.isEmpty then
        (loftCopies r w.mi).foldl (fun s x => reach s r.tag w.mi w.pos [x.2] allItems) s
      else s
    let go := (loftCopies r w.mi).foldl (fun (acc : Except RdErr (Except WrErr (State × Nat))) x =>
      match acc with
      | .ok (.ok (s, fl)) =>
        match loftCopy s r w x with
        | .ok (.ok (t, f)) => .ok (.ok (t, fl ||| f))
        | y => y
      | y => y) (.ok (.ok (s, 0)))
    match go with
    | .error e => failRead s r.tag w.mi w.core e
    | .ok (.error e) => failWrite s r.tag w.mi e
    | .ok (.ok (t, fl)) =>
      (issueWrites (logFlags t r.tag w.mi w.pos fl)).onWalk r.tag w.mi w.pos (fun w => { w with loftDone := true })

/-- A walk has made all its issues: nothing is left to begin, fill, drain or pack, and its loft is written. -/
def Walk.spent (w : Walk) : Bool :=
  w.set && w.units.isEmpty && w.filling.isEmpty && w.draining.isEmpty && w.bufs.isEmpty && w.loftDone && w.pred == {}

/-- The walk of a macro-instruction on a position of a run that has not ended. -/
def findWalk (s : State) (t i p : Nat) : Option (Run × Walk) :=
  match s.live t with
  | none => none
  | some r => (r.walk i p).map (fun w => (r, w))

/-- A walk that is spent ends. -/
def settle (s : State) (t i p : Nat) : State :=
  match findWalk s t i p with
  | some (_, w) => if w.spent && !w.done then endWalk s t i p w.core else s
  | none => s

/-- An empty window source (R165): CONV_W then writes nothing. -/
def emptyWindow (m : MRec) (a : View) : Bool := m.opcode == opConv && emptySource a

/-- An engine opcode's walk formed on a position (R31, R32): its work items, its masked work counted (R226), and its
loft copy made (R213). -/
def formWalk (s : State) (r : Run) (w : Walk) : State :=
  if w.set then settle (doLoft s r w) r.tag w.mi w.pos
  else
    let m := r.mrec w.mi
    match walkUnits s r w.mi w.pos with
    | .error e => failRead s r.tag w.mi w.core e
    | .ok us0 =>
      let none0 := emptyWindow m (getView s r w.mi w.pos 0)
      let us := if none0 then [] else us0
      let s := if none0 && !us0.isEmpty then logFlags s r.tag w.mi w.pos flClamp else s
      let s := if m.granule ≠ 0 ∧ w.pos = 0 then
          match liveTiles s r w.mi 0 with
          | .ok live =>
            let all := unitsOfRec s r w.mi 0
            let part := live.map (fun k =>
              let (_, tr, tc) := outTile s r w.mi 0 k
              match tileRows s r w.mi 0 tr tc with
              | .ok rows => (getView s r w.mi 0 2).rowsIn tr - rows.length
              | .error _ => 0)
            (s.bump Ctr.maskedTiles w.core (all - live.length)).bump Ctr.maskedRows w.core part.sum
          | .error _ => s
        else s
      let w := { w with set := true, units := us, loftDone := (loftCopies r w.mi).isEmpty }
      let s := s.onWalk r.tag w.mi w.pos (fun _ => w)
      settle (doLoft s r w) r.tag w.mi w.pos

/-- MATMUL (R32): the walk of its output tiles is formed. -/
def execMatmul (t i p : Nat) (s : State) : Host.Outcome State Fault Refusal := .next <| opCmd s t i p opMatmul formWalk

/-- MATMUL_S24 (R110): as MATMUL, with B through the selector. -/
def execMatmulS24 (t i p : Nat) (s : State) : Host.Outcome State Fault Refusal := .next <| opCmd s t i p opS24 formWalk

/-- CONV_W (R173). -/
def execConvW (t i p : Nat) (s : State) : Host.Outcome State Fault Refusal := .next <| opCmd s t i p opConv formWalk

/-- BWD_DATA (R203). -/
def execBwdData (t i p : Nat) (s : State) : Host.Outcome State Fault Refusal := .next <| opCmd s t i p opBwdData formWalk

/-- BWD_WEIGHT (R225). -/
def execBwdWeight (t i p : Nat) (s : State) : Host.Outcome State Fault Refusal := .next <| opCmd s t i p opBwdWeight formWalk

/-! Preload and reduction. -/

/-- A row of values written into a cellar tile as FP32 or INT32 codes. -/
def putRow (s : State) (core ctile row : Nat) (codes : List Nat) : State :=
  cellarWrite s core (ctile * 16384 + row * 256) (codes.flatMap (leBytes 4))

/-- The code of a running sum in its cell (R40). -/
def accCode (isInt : Bool) (a : Acc) : Nat :=
  if isInt then encInt 32 a.v.int else if a.nan then 0x7FC00000 else enc32 a.v

/-- Rows of accumulations written into a cellar tile. -/
def putAccs (s : State) (core ctile : Nat) (isInt : Bool) (rows : List Nat) (accs : List (List Acc)) : State :=
  (rows.zip accs).foldl (fun s r => putRow s core ctile r.1 (r.2.map (accCode isInt))) s

/-- A cellar tile belongs to a CELLAR tensor that lives (Table 3.2, R73). -/
def tileOfTensor (s : State) (k : Nat) : Bool :=
  s.tensors.any (fun t => t.desc.placement == 2 && decide (t.desc.base ≤ k) && decide (k < t.desc.base + t.desc.length / 16384))

/-- A cellar tile is FREE (Table 3.2). -/
def tileFree (s : State) (core k : Nat) : Bool := ((s.core core).tile k).state == 0 && !tileOfTensor s k

/-- A record is governed in a mode that walks packed tiles (R134). -/
def packedWalk (r : Run) (i : Nat) : Bool :=
  match r.prog.governor i with
  | some g => (r.mrec g).pmode != 0
  | none => false

/-- The record is not an SPMM_X and walks no packed tiles: its tiles pass the engine in full. -/
def plainEngine (r : Run) (i : Nat) : Bool :=
  let o := (r.mrec i).opcode
  isEngine o && o != opSpmm && !packedWalk r i

/-- A core's merge unit works on a work item of a walk (R117). -/
def merging (s : State) (tag : Nat) (w : Walk) (item : Nat) : Bool :=
  [(s.core w.core).merge, (s.core w.core).mergeNext].any (fun u =>
    u.active && u.tag == tag && u.mi == w.mi && u.pos == w.pos && u.item == item)

/-- A walk's tile that is preloaded and whose reads have not begun. -/
def preloaded (s : State) (tag : Nat) (w : Walk) : List (Nat × Nat) := w.filling.filter (fun x => !merging s tag w x.1)

/-- The work item of the next tile and its place: the one being preloaded, or the next unit. -/
def upNext (s : State) (tag : Nat) (m : MRec) (w : Walk) : Option (Nat × Nat) :=
  match preloaded s tag w with
  | x :: _ => some x
  | [] => w.units.head?.map (fun u => (u, nextTile m w))

/-- PRELOAD_START (R66, R69): operand D is loaded into the next tile's cellar tile. -/
def execPreloadStart (t i p : Nat) (s : State) : Host.Outcome State Fault Refusal :=
  .next <|
    match walkOf s t i p with
    | none => s
    | some (r, w) =>
      let m := r.mrec i
      match w.units with
      | [] => s
      | u :: us =>
        let k := nextTile m w
        if !w.set || !(plainEngine r i || m.opcode == opSpmm) || !m.flag 1 || u % m.split != 0 || !(preloaded s t w).isEmpty || !tileFree s w.core k then s
        else
          let a := getView s r i p 0
          let c := getView s r i p 2
          let (pl, tr, tc) := outTile s r i p (u / m.split)
          let rows := List.range (c.rowsIn tr)
          let s := reach s t i p [3] u
          match preloadVals s c (preView s r i p u) (hiOf c pl) tr tc rows (c.colsIn tc) with
          | .error e => failRead s t i w.core e
          | .ok vs =>
            let isInt := r.intClass a.d.format
            let free := ((s.core w.core).tile k).releasedAt
            let s := (s.bump Ctr.cellarWaitCc w.core (if w.count = 0 then 0 else free - w.lastRead)).bump Ctr.preloadWaitCc w.core
              (s.now - max w.startAt (max w.lastRead free + 1))
            let accs := vs.map (fun r => r.map (fun v => if isInt then (preInt v).1 else preFloat 0 v))
            let s := putAccs s w.core k isInt rows accs
            let s := s.onTile w.core k (fun c => { c with state := 1, isInt := isInt, rows := rows.length, preloadAt := some s.now, retry := 0, filled := false, sat := [] })
            s.onWalk t i p (fun w => { w with units := us, count := w.count + 1, filling := w.filling ++ [(u, k)] })

/-- Bytes as stored of the elements of B that a backward weight tile reads: n reduction indexes, or the crates. -/
def passBytes (v : View) (cols n : Nat) (cs : List Crate) : Nat :=
  if v.d.form ≠ 0 then (cs.map (fun c => 32 + c.len)).sum
  else cdiv (cols * n * fmtBits v.d.format) 8 +
    (if fmtMx v.d.format then (if blockDim v.d = 0 then n * cdiv cols 32 else cols * cdiv n 32) else 0)

/-- Reduction steps issued for one of some places of a pass: whole steps, row by row. -/
def stepsBy (j : EngineJob) (places : Nat) : Nat := min j.steps.length (cdiv places (max j.rows.length 1))

/-- What the read of a tile counts, abandoned passes included: retries (R53), waits (R108, R204), S24 steps (R111), window
slices (R164, R175), steps of the backward units (R232) and the loft bytes that they read (R213). -/
def countTile (s : State) (r : Run) (w : Walk) (j : EngineJob) (res : TileRes) (p : Pace) (slices : List Bool) (cs : List Crate) :
    State :=
  let m := r.mrec w.mi
  let a := getView s r w.mi w.pos 0
  let b := getView s r w.mi w.pos 1
  let e := redStep m a.d b.d
  let passes := res.stops.map p.readBy ++ [p.places]
  let steps := passes.map (stepsBy j)
  let sel := (steps.map (fun q => ((j.steps.take q).filter (fun k => k.1)).length)).sum
  let dense := (steps.map (fun q => ((j.steps.take q).filter (fun k => !k.1)).length)).sum
  let waits := res.stops.map (fun o => p.waits (p.upTo o) (o + 1)) ++ [p.waits p.span p.places]
  let seen := passes.flatMap (fun n => slices.take n)
  let clamped := (seen.filter (fun x => x)).length
  let s := (s.bump Ctr.retryPasses w.core res.stops.length).bump Ctr.retryCc w.core (res.stops.map (fun o => p.upTo o + 16)).sum
  let s := ((s.bump Ctr.blockWaitCc w.core (waits.map (fun x => x.1)).sum).bump Ctr.turnWaitCc w.core
    (waits.map (fun x => x.2.1)).sum).bump Ctr.expandWaitCc w.core (waits.map (fun x => x.2.2)).sum
  let s := if selects m b.d then (s.bump Ctr.s24Steps w.core sel).bump Ctr.s24DenseSteps w.core dense else s
  let s := (s.bump Ctr.windowSlices w.core seen.length).bump Ctr.windowClampedSlices w.core clamped
  let s := (s.bump Ctr.clampReads w.core (clamped * e)).bump Ctr.copyBytesRead w.core
    (seen.length * (e * fmtBits a.d.format / 8 + (if fmtMx a.d.format then e / 32 else 0)))
  if m.opcode = opBwdData then s.bump Ctr.bwdDataSteps w.core passes.sum
  else if m.opcode = opBwdWeight then
    (s.bump Ctr.bwdWeightSteps w.core passes.sum).bump Ctr.loftBytesRead w.core
      (if m.loftUse.isSome then (steps.map (fun q => passBytes b j.cols (min (q * e) (j.b.headD []).length) cs)).sum else 0)
  else s

/-- TILE_FIRST_READ (R69): the next tile's reduction is read and accumulated in its cellar tile, retries and all; the
tile then awaits its drain. One without a step reads nothing (R71). -/
def execTileFirstRead (t i p : Nat) (s : State) : Host.Outcome State Fault Refusal :=
  .next <|
    match walkOf s t i p with
    | none => s
    | some (r, w) =>
      let m := r.mrec i
      match upNext s t m w with
      | none => s
      | some (u, k) =>
        let fresh := w.filling.isEmpty
        if !w.set || !plainEngine r i || (fresh && (!tileFree s w.core k || (m.flag 1 && u % m.split == 0))) then s
        else
          let s := reach s t i p [0, 1] u
          let got : Except RdErr (EngineJob × List Bool × Pace × List Crate) := do
            let (j, slices) ← engineJob s r w u
            let pace ← itemPace s r w j u
            let cs ← itemCrates s r i p 1 u
            .ok (j, slices, pace, cs)
          match got with
          | .error e => failRead s t i w.core e
          | .ok (j, slices, pace, cs) =>
            let res := j.run (m.flag 0) 2 0 []
            let c := (s.core w.core).tile k
            let none0 := j.steps.isEmpty
            let last := s.now + (res.stops.map (fun o => pace.upTo o + 16)).sum + pace.span - 1
            let s := countTile s r w j res pace slices cs
            let s := if fresh && w.count != 0 then s.bump Ctr.cellarWaitCc w.core (c.releasedAt - w.lastRead) else s
            let s := if none0 then s else s.bump Ctr.engineOverlapCc w.core (overlapCc s w.core t i m.opcode (s.now, last))
            let s := putAccs s w.core k j.isInt j.rows res.accs
            let sat := (j.rows.zip res.accs).flatMap (fun x => (below j.cols (fun c => (x.2.getD c {}).sat)).map (64 * x.1 + ·))
            let s := s.onTile w.core k (fun c => { c with
              state := 2, isInt := j.isInt, retry := res.n, sat := sat, rows := j.rows.length, filled := true
              status := BitVec.ofNat 32 (res.flags ||| (if slices.any (fun x => x) then flClamp else 0))
              lastLand := if !none0 then last + 16 else match c.preloadAt with
                | some p => p + (j.rows.length - 1) / 4
                | none => s.now - 1 })
            let s := s.onCore w.core (fun c => { c with turn := [] })
            let s := s.onWalk t i p (fun w => { w with
              units := if fresh then w.units.drop 1 else w.units
              count := if fresh then w.count + 1 else w.count
              filling := [], draining := w.draining ++ [(u, k)]
              readFrom := if none0 then w.readFrom else s.now
              lastRead := if none0 then w.lastRead else last })
            let left := if fresh then w.units.drop 1 else w.units
            let inDrain := (m.opcode ≤ 4 && m.vec != 0) || (m.opcode == opBwdData && m.act != 0) || m.opcode == opBwdWeight
            if left.isEmpty && !inDrain && w.loftDone then endReads s t i p w.core else noteReaders s r i p

/-- CRATE_EXPAND (R108): the expander opens a crate of an operand; one that fails a check fails the macro-instruction
(R100). -/
def execCrateExpand (t i p op slot : Nat) (s : State) : Host.Outcome State Fault Refusal :=
  .next <|
    match walkOf s t i p with
    | none => s
    | some (r, w) =>
      let v := getView s r i p op
      if v.d.form = 0 ∨ v.d.planes * v.d.trows * v.d.tcols ≤ slot then s
      else
        let pl := slot / max (v.d.trows * v.d.tcols) 1
        let q := slot % max (v.d.trows * v.d.tcols) 1
        match crateAt s v pl (q / max v.d.tcols 1) (q % max v.d.tcols 1) with
        | .error e => failRead s t i w.core e
        | .ok _ => s

/-- Blocks or crates of a turned operand that reduction step k loads (R204): tiles along the reduction. -/
def turnedTiles (m : MRec) (a b : Desc) (k : Nat) : List Nat :=
  let e := redStep m a b
  below (k * e / 64 + 3) (fun u => decide (64 * u < (k + 1) * e) && decide (k * e < 64 * u + 64))

/-- TURNED_LOAD (R204): the blocks of a step are loaded into the turning buffer, which holds at most two steps' loads. -/
def execTurnedLoad (t i p k : Nat) (s : State) : Host.Outcome State Fault Refusal :=
  .next <|
    match walkOf s t i p with
    | none => s
    | some (r, w) =>
      let m := r.mrec i
      if !((m.opcode == opBwdData && m.turn) || m.opcode == opBwdWeight) || ksteps s r i p ≤ k then s
      else
        let ts := turnedTiles m (getView s r i p 0).d (getView s r i p 1).d k
        s.onCore w.core (fun c => { c with turn := let l := c.turn.filter (fun x => !ts.contains x) ++ ts; l.drop (l.length - 4) })

end Sys2Proof.Machine
end

