-- ==== Sys2Proof/Machine/Epilogue.lean ====
section
/-!
DEFINITION. The epilogue (R76 to R86, R216, R225), activation tables (R81, R82), and the drain of a tile into its output,
its loft tensor or the output compressor (R68, R102 to R105, R213).
-/

namespace Sys2Proof.Machine

/-! Tables. -/

/-- The quadratic of a segment at z (R82). DESIGN CHOICE (log 90): R82 saturates only a result; an intermediate operation
that overflows gives an infinity here, so that an infinity times a coefficient of zero is a NaN. -/
def tablePoly (t : List Byte) (i : Nat) (z : Val) : Val :=
  let o := 0x20 + 16 * i
  let d := sub32 z (f32At t o)
  add32 (f32At t (o + 4)) (mul32 d (add32 (f32At t (o + 8)) (mul32 d (f32At t (o + 12)))))

/-- A table evaluated at a number (R82): the value, and 1 when the input lies below lo, 2 when at or above hi. -/
def tableEval (t : List Byte) (x : Val) : Val × Nat :=
  let lo := f32At t 4
  let hi := f32At t 8
  let edge := fun (mode i : Nat) (e : Val) =>
    match mode with
    | 0 => tablePoly t i x
    | 1 => tablePoly t i e
    | 2 => x
    | _ => Val.zero
  if x.isNan then (.nan, 0)
  else if x.lt lo then (edge (field t 2 1) 0 lo, 1)
  else if !x.lt hi then (edge (field t 3 1) 255 hi, 2)
  else
    let u := mul32 (sub32 x lo) (f32At t 0x0C)
    let i := match u with
      | .fin _ m e => min 255 (shiftI m e)
      | _ => 255
    (tablePoly t i x, 0)

/-- The contents of a slot that a run started with (R83, R217); empty when the slot was never written. -/
def slotOf (r : Run) (key : Nat) : List Byte := (look key r.keys).getD []

/-! One element. -/

/-- An element on its way through the epilogue. -/
structure Epi where
  /-- Its value. -/
  v : Val := .zero
  /-- It carries the saturation mark (R84). -/
  mark : Bool := false
  /-- Flags set (Table 2.5). -/
  flags : Nat := 0
  /-- Times a stage saturated it (EPILOGUE_SAT). -/
  sats : Nat := 0
  /-- Its value after the bias stage (R213). -/
  pre : Val := .zero
  /-- That value carried the mark. -/
  preMark : Bool := false
  /-- Evaluated below lo. -/
  left : Nat := 0
  /-- Evaluated at or above hi. -/
  right : Nat := 0
  deriving Inhabited

/-- The end of a stage (R84): a NaN, a saturation, or the value. -/
def Epi.stage (x : Epi) (y : Val) : Epi :=
  match y with
  | .nan => { x with v := .nan, mark := false, flags := x.flags ||| flNan }
  | y =>
    if y.over32 then { x with v := max32 y.neg, mark := true, flags := x.flags ||| flSat, sats := x.sats + 1 }
    else { x with v := y }

/-- The scale stage (R79, R84). -/
def Epi.scale (x : Epi) (e : Int) (sc : Val) : Epi :=
  if x.v.isNan then { x with flags := x.flags ||| flNan }
  else if x.mark then (if sc.isNan then x.stage .nan else { x with v := max32 (x.v.neg != sc.neg) })
  else x.stage (((x.v.scale e).mul sc).r32)

/-- The bias stage (R80, R84). -/
def Epi.bias (x : Epi) (b : Val) (n : Nat) : Epi :=
  let y :=
    if x.v.isNan then x
    else if x.mark then (if b.isNan then x.stage .nan else x)
    else x.stage ((x.v.add (b.scale (-16 * (n : Int)))).r32)
  { y with pre := y.v, preMark := y.mark }

/-- The activation stage with a table (R82, R84); an empty one is the identity. -/
def Epi.act (x : Epi) (t : List Byte) : Epi :=
  if t.isEmpty ∨ x.v.isNan ∨ x.mark then x
  else
    let (y, side) := tableEval t x.v
    { x.stage y with left := b2n (side == 1), right := b2n (side == 2) }

/-- The activation stage of BWD_DATA (R216): times the derivative at z; an empty table is the constant 1 (R217). -/
def Epi.deriv (x : Epi) (t : List Byte) (z : Val) : Epi :=
  if x.v.isNan ∨ x.mark then x
  else
    let (d, side) := if t.isEmpty then (Val.fin false 1 0, 0) else tableEval t z
    { x.stage ((x.v.mul d).r32) with left := b2n (side == 1), right := b2n (side == 2) }

/-! A set of elements of one tile. -/

/-- The vector scale and bias of an element, and whether the vector clamped (R78). -/
def vecOf (s : State) (d : View) (k : Nat) : Except RdErr (Val × Val × Bool) := do
  let e := d.ex 0
  if e = 0 then .ok (.fin false 1 0, .zero, true)
  else
    let i := min k (e - 1)
    let a ← valAt s d [i, 0]
    let b ← valAt s d [i, 1]
    .ok (a, b, decide (e ≤ k))

/-- The epilogue of some elements (R76, R216, R225): coordinates, cell value, mark; the elements after their stages before
narrowing. One whose vector clamped has that flag (R78). -/
def epilogue (s : State) (r : Run) (mi pos n : Nat) (l : List (List Nat × Val × Bool)) :
    Except RdErr (List (List Nat × Epi)) := do
  let m := r.mrec mi
  let c := getView s r mi pos 2
  let d := getView s r mi pos 3
  let e := m.scaleExp
  let one := Val.fin false 1 0
  if m.split ≠ 1 then .ok (l.map (fun x => (x.1, { v := x.2.1, mark := x.2.2, flags := if x.2.1.isNan then flNan else 0 })))
  else if m.opcode = opBwdWeight then
    .ok (l.map (fun x => (x.1, ({ v := x.2.1, mark := x.2.2 } : Epi).scale e one)))
  else if m.opcode = opBwdData then
    let zs ← if m.act = 0 then .ok (l.map (fun _ => Val.zero))
      else valsAt s d (l.map (fun x => x.1.take 2 ++ hiFor d.d.rank c.d.rank (x.1.drop 2)))
    .ok ((l.zip zs).map (fun x =>
      let y := ({ v := x.1.2.1, mark := x.1.2.2 } : Epi).scale e one
      (x.1.1, if m.act = 0 then y else y.deriv (slotOf r (0x0200 + m.act - 1)) x.2)))
  else
    let ks := (l.map (fun x => x.1.getD (if m.vec = 2 then 1 else 0) 0)).eraseDups
    let vs ← if m.vec = 0 then .ok [] else ks.mapM (fun k => do let v ← vecOf s d k; .ok (k, v))
    let t := if m.act = 0 then [] else slotOf r (0x0100 + m.act - 1)
    .ok (l.map (fun x =>
      let (a, b, clamped) := (look (x.1.getD (if m.vec = 2 then 1 else 0) 0) vs).getD (one, .zero, false)
      let y : Epi := { v := x.2.1, mark := x.2.2, flags := if clamped then flClamp else 0 }
      (x.1, ((y.scale e a).bias b n).act t)))

/-- What the stages of some elements count (R87, R216). -/
def countEpi (s : State) (core op : Nat) (l : List (List Nat × Epi)) : State :=
  let sum := fun (f : Epi → Nat) => (l.map (fun x => f x.2)).sum
  let s := s.bump Ctr.epilogueSat core (sum (·.sats))
  if op = opBwdData then (s.bump Ctr.derivLeft core (sum (·.left))).bump Ctr.derivRight core (sum (·.right))
  else (s.bump Ctr.actLeft core (sum (·.left))).bump Ctr.actRight core (sum (·.right))

/-- The PREACT loft tensor of a source, written for some elements (R213): the state and the flags of conversions. -/
def writePreact (s : State) (r : Run) (w : Walk) (l : List (List Nat × Epi)) : Except WrErr (State × Nat) :=
  ((r.prog.loftDest w.mi).filter (fun x => x.2 == 2)).foldlM (fun (acc : State × Nat) x => do
    let c := (viewRef acc.1 r w.mi w.pos (8 + x.1) x.1).getD {}
    let c := { c with e := (getView acc.1 r w.mi w.pos 2).e }
    let (cells, fl, _) := narrowCells c.d.format (blockDim c.d) (l.map (fun e => (e.1, e.2.pre, e.2.preMark)))
    let (t, _, _, bytes) ← writeCells acc.1 c 0 cells
    .ok (t.bump Ctr.loftBytesWritten w.core bytes, acc.2 ||| fl)) (s, 0)

/-- BWD_WEIGHT's fourth stage (R225): each element added into the store, which a reduction of no step leaves unchanged
(Table 1.8). -/
def addStore (s : State) (r : Run) (w : Walk) (l : List (List Nat × Epi)) : Except RdErr (Except WrErr State) := do
  if ksteps s r w.mi w.pos = 0 then return .ok s
  let c := getView s r w.mi w.pos 2
  let old ← codesAt s c (l.map (fun x => x.1))
  let cells := (l.zip old).map (fun x =>
    (x.1.1, (atomicAdd (BitVec.ofNat 32 (x.2.getD (0, 0)).1) (enc x.1.2.v)).toNat, 127))
  .ok (do
    let (t, _) ← writeCells s c 0 cells
    .ok (t.bump Ctr.storeAdds w.core cells.length))

/-- A status word logged, and the counters of Table 2.7 that follow it (R58 to R60). -/
def logTile (s : State) (r : Run) (w : Walk) (tile : Nat) (word : BitVec 32) : State :=
  let s := ((s.bump Ctr.satTiles w.core (b2n (bit word.toNat 0))).bump Ctr.satFinalTiles w.core (b2n (bit word.toNat 1))).bump
    Ctr.nanTiles w.core (b2n (bit word.toNat 2))
  if word = 0 then s else appendLog s r.tag { mi := w.mi, position := w.pos, tile := tile, status := word }

/-- Elements with a saturation mark. -/
def marked (l : List (List Nat × Epi)) : Nat := (l.filter (fun x => x.2.mark)).length

/-- Elements narrowed into C and written where it lies, RAW (R57, R85): the state, the flags and the count for
SAT_COUNT. -/
def writeRaw (s : State) (r : Run) (w : Walk) (l : List (List Nat × Epi)) : Except WrErr (State × Nat × Nat) := do
  let c := getView s r w.mi w.pos 2
  let (cells, fl, n) := narrowCells c.d.format (blockDim c.d) (l.map (fun x => (x.1, x.2.v, x.2.mark)))
  let (t, _) ← writeCells s c 0 cells
  .ok (t, fl, n)

/-- A SPLIT item's partial sums added at C (R86). -/
def addPartials (s : State) (r : Run) (w : Walk) (l : List (List Nat × Epi)) : Except WrErr State := do
  let t ← addPairs s (getView s r w.mi w.pos 2) (l.map (fun x => (x.1, enc x.2.v)))
  .ok (t.bump Ctr.splitPartials w.core 1)

/-! The drain. -/

/-- The order among units whose tiles' last products landed in one cc (R201). -/
def unitRank (o : Nat) : Nat := if o = opBwdData then 1 else if o = opBwdWeight then 2 else 0

/-- Tiles on a core whose last product has landed, with the priority of their drain (R201): landing time, unit. -/
def waitingTiles (s : State) (core : Nat) : List (Nat × Nat × Nat × Nat × Nat) :=
  s.runs.flatMap (fun r => if r.state = 3 then [] else r.walks.flatMap (fun w =>
    if w.core = core then w.draining.map (fun x =>
      (((s.core core).tile x.2).lastLand, unitRank (r.mrec w.mi).opcode, r.tag, w.mi, x.2)) else []))

/-- The epilogue takes a tile next: no other waiting tile of the core landed its last product earlier (R201). -/
def drainsNext (s : State) (core tag mi k : Nat) : Bool :=
  let l := waitingTiles s core
  match l.find? (fun x => x.2.2.1 == tag && x.2.2.2.1 == mi && x.2.2.2.2 == k) with
  | some x => l.all (fun y => decide (x.1 < y.1) || (y.1 == x.1 && decide (x.2.1 ≤ y.2.1)))
  | none => false

/-- The cellar address of an element's cell in tile k (R61). -/
def cellAddr (k : Nat) (x : List Nat) : Nat := k * 16384 + x.getD 1 0 % 64 * 256 + x.getD 0 0 % 64 * 4

/-- The elements of a tile as they leave the cellar (R75, R76): coordinates, value, mark; none when a cell is
uncorrectable. -/
def cellVals (s : State) (core k : Nat) (xs : List (List Nat)) : Except RdErr (List (List Nat × Val × Bool)) :=
  let t := (s.core core).tile k
  if xs.any (fun x => cellarBad s core (cellAddr k x) 4) then .error (.bad 3)
  else .ok (xs.map (fun x =>
    let c := leNat (cellarRead s core (cellAddr k x) 4)
    let v := if t.isInt then (Val.ofInt (decInt 32 c)).r32 else dec32 c
    (x, v, t.sat.contains (64 * (x.getD 1 0 % 64) + x.getD 0 0 % 64))))

/-- The release of a tile and the epilogue's times (R68). The first row of a crated output that leaves the narrowing stage
while both tile buffers are held waits for one, and the drain with it (R105). -/
def releaseTile (s : State) (w : Walk) (k : Nat) (crated : Bool) : State :=
  let t := (s.core w.core).tile k
  let start0 := max (t.lastLand + 1) ((s.core w.core).epiLast + 1)
  let hold := if crated then (s.core w.core).bufFree + 1 - (start0 + 8) else 0
  let start := start0 + hold
  let s := (s.bump Ctr.epilogueWaitCc w.core (start0 - (t.lastLand + 1))).bump Ctr.compressWaitCc w.core hold
  let s := s.onTile w.core k (fun _ => { releasedAt := start + t.rows + 7 })
  s.onCore w.core (fun c => { c with epiLast := start + t.rows - 1 })

/-- Tiles held in a core's output compressor (R105). -/
def bufsHeld (s : State) (core : Nat) : Nat :=
  (s.runs.map (fun r => (r.walks.map (fun w => if w.core = core then w.bufs.length else 0)).sum)).sum

/-- The end of a drain: the tile is released, and the walk goes on or ends; the last drain makes the walk's last read (R177). A run that is being stopped issues no write
transfer any more (R74, R192). -/
def afterDrain (s : State) (r : Run) (w : Walk) (k : Nat) : State :=
  let s := releaseTile s w k ((getView s r w.mi w.pos 2).d.form != 0)
  let s := s.onWalk r.tag w.mi w.pos (fun w => { w with draining := w.draining.drop 1 })
  if r.stopping.isSome then { s with streams := s.streams.filter (fun x => x.tag != r.tag) }
  else
    let s := if w.units.isEmpty && w.filling.isEmpty && (w.draining.drop 1).isEmpty && w.loftDone then
        endReads s r.tag w.mi w.pos w.core
      else s
    settle (issueWrites s) r.tag w.mi w.pos

/-- The work of a drain on the tile's elements: where they go by opcode, form and SPLIT, and the tile's status word. -/
def drainTile (s : State) (r : Run) (w : Walk) (item : Nat) (t : CTile) (l : List (List Nat × Epi)) :
    Except RdErr (Except WrErr State) :=
  let m := r.mrec w.mi
  let c := getView s r w.mi w.pos 2
  let (pl, tr, tc) := outTile s r w.mi w.pos (item / m.split)
  let tile := (pl * c.trows + tr) * c.tcols + tc
  let base := t.status.toNat ||| orAll (l.map (fun x => x.2.flags))
  let s := countEpi s w.core m.opcode l
  if m.opcode = opBwdWeight then do
    let y ← addStore s r w l
    .ok (do let u ← y; .ok (logTile u r w tile (statusWord base t.retry (marked l))))
  else if m.split ≠ 1 then .ok (do
    let u ← addPartials s r w l
    .ok (logTile u r w tile (statusWord base t.retry (marked l))))
  else .ok (do
    let (u, fl) ← writePreact s r w l
    let base := base ||| fl
    if c.d.form = 0 then
      let (u, fl, n) ← writeRaw u r w l
      .ok (logTile u r w tile (statusWord (base ||| fl) t.retry (marked l + n)))
    else
      let buf : TileBuf :=
        { tile := tile, row := tr, col := tc, plane := pl
          vals := l.map (fun x => (64 * (x.1.getD 1 0 % 64) + x.1.getD 0 0 % 64, enc x.2.v))
          marks := (l.filter (fun x => x.2.mark)).map (fun x => 64 * (x.1.getD 1 0 % 64) + x.1.getD 0 0 % 64)
          status := statusWord base t.retry (marked l), readyAt := t.lastLand + t.rows + 8 }
      .ok (u.onWalk r.tag w.mi w.pos (fun w => { w with bufs := w.bufs ++ [buf] })))

/-- The coordinates of the elements that an output tile's item drains: its issued rows. -/
def drainCoords (s : State) (r : Run) (w : Walk) (item : Nat) : Except RdErr (List (List Nat)) := do
  let c := getView s r w.mi w.pos 2
  let (pl, tr, tc) := outTile s r w.mi w.pos (item / (r.mrec w.mi).split)
  let rows ← tileRows s r w.mi w.pos tr tc
  .ok ((storeOrder c.d (c.rowsIn tr) (c.colsIn tc)).filter (fun q => rows.contains q.1) |>.map (fun q =>
    View.coords tr tc (hiOf c pl) q.1 q.2))

/-- TILE_DRAIN (R68, R76): the walk's oldest filled tile passes the epilogue and is released. -/
def execTileDrain (t i p : Nat) (s : State) : Host.Outcome State Fault Refusal :=
  .next <|
    match findWalk s t i p with
    | none => s
    | some (r, w) =>
      match w.draining with
      | [] => s
      | (item, k) :: _ =>
        let c := getView s r i p 2
        let ct := (s.core w.core).tile k
        if !ct.filled || !drainsNext s w.core t i k || (c.d.form != 0 && 2 ≤ bufsHeld s w.core) then s
        else
          let s := reach s t i p [2, 3] item
          let go : Except RdErr (Except WrErr State) := do
            let xs ← drainCoords s r w item
            let vs ← cellVals s w.core k xs
            let l ← epilogue s r i p ct.retry vs
            let d := getView s r i p 3
            let lofts := if (r.mrec i).loftUse.isSome ∧ (r.mrec i).opcode = opBwdData then
                storedBytes s d (xs.map (fun x => x.take 2 ++ hiFor d.d.rank c.d.rank (x.drop 2))) else 0
            drainTile (s.bump Ctr.loftBytesRead w.core lofts) r w item ct l
          match go with
          | .error e => if r.stopping.isSome then afterDrain (noteBad s w.core e) r w k else failRead s t i w.core e
          | .ok (.error e) => if r.stopping.isSome then afterDrain s r w k else failWrite s t i e
          | .ok (.ok u) => if r.stopping.isSome then afterDrain u r w k else produce s (afterDrain u r w k) t w

/-- OUTPUT_COMPRESSOR (R102 to R105): the walk's oldest finished tile is packed into a crate and written; its status word
is complete. -/
def execOutputCompressor (t i p : Nat) (s : State) : Host.Outcome State Fault Refusal :=
  .next <|
    match findWalk s t i p with
    | none => s
    | some (r, w) =>
      match w.bufs with
      | [] => s
      | b :: rest =>
        let c := getView s r i p 2
        let hi := hiOf c b.plane
        let l := b.vals.map (fun x => (View.coords b.row b.col hi (x.1 / 64) (x.1 % 64), dec x.2, b.marks.contains x.1))
        let (cells, fl, n) := narrowCells c.d.format (blockDim c.d) l
        let word := b.status.toNat
        let (crate, fell) := cellsCrate c (bits word 8 8) hi b.row b.col cells
        let s1 := if 2 ≤ bufsHeld s w.core then s.onCore w.core (fun c => { c with bufFree := s.now }) else s
        let s1 := s1.onWalk t i p (fun w => { w with bufs := rest })
        match writeCrate s1 c hi b.row b.col crate with
        | .error e => failWrite s1 t i e
        | .ok u =>
          let u := (u.bump Ctr.cratesWritten w.core 1).bump Ctr.cratesFellBack w.core (b2n fell)
          let full := statusWord (bits word 0 8 &&& 0xE7 ||| fl ||| (if fell then flFell else 0)) (bits word 3 2) (bits word 16 12 + n)
          let u := logTile u r w b.tile full
          if r.stopping.isSome then { u with streams := u.streams.filter (fun x => x.tag != t) }
          else produce s (settle (issueWrites u) t i p) t w

end Sys2Proof.Machine
end

