-- ==== Sys2Proof/Machine/Rows.lean ====
section
/-!
DEFINITION. The row engine (R218 to R223) and the fused update (R228 to R231): ROWOP, ROWOP_BWD and UPDATE_SLICE. A
command does all of a position's rows, or one slice, once every byte that it reads has landed.
-/

namespace Sys2Proof.Machine

/-! Row arithmetic (R219). -/

/-- Adjacent values of a level added in FP32, an odd last one passed on. -/
def addLevel : List Val → List Val
  | a :: b :: r => add32 a b :: addLevel r
  | l => l

/-- A balanced pairwise sum. -/
def addTree : Nat → List Val → Val
  | 0, l => l.headD .zero
  | k + 1, l => if l.length ≤ 1 then l.headD .zero else addTree k (addLevel l)

/-- A row sum S(u): 64 lane sums in ascending order from +0, then the balanced tree (R219). -/
def rowSum (u : List Val) : Val :=
  let idx := (List.range u.length).zip u
  addTree 7 ((List.range 64).map (fun j => (idx.filter (fun x => x.1 % 64 == j)).foldl (fun a x => add32 a x.2) .zero))

/-- A value that makes its row NaN (R223): a NaN, an infinity or a sum that saturated. -/
def rowBad (v : Val) : Bool := v.isNan || v.isInf

/-- 1 / x. -/
def recip32 (x : Val) : Val := div32 (.fin false 1 0) x

/-- The largest of a row's values. -/
def rowMax (u : List Val) : Val := (u.drop 1).foldl (fun a x => if a.lt x then x else a) (u.headD .zero)

/-- The forward functions (R220): outputs, statistics, and whether the row is NaN. -/
def rowForward (func param : Nat) (x : List Val) : List Val × Val × Val × Bool :=
  let n := (Val.fin false x.length 0).r32
  let eps := Val.fin false 1 (-((param : Int) + 10))
  let inBad := x.any rowBad
  if func = 1 then
    let s := rowSum x
    let mu := div32 s n
    let d := x.map (fun a => sub32 a mu)
    let q := rowSum (d.map (fun a => mul32 a a))
    let r := recip32 (sqrt32 (add32 (div32 q n) eps))
    (d.map (fun a => mul32 a r), mu, r, inBad || rowBad s || rowBad q)
  else if func = 2 then
    let q := rowSum (x.map (fun a => mul32 a a))
    let r := recip32 (sqrt32 (add32 (div32 q n) eps))
    (x.map (fun a => mul32 a r), .zero, r, inBad || rowBad q)
  else
    let m := rowMax x
    let e := x.map (fun a => exp32 (sub32 a m))
    let s := rowSum e
    let r := recip32 s
    (e.map (fun a => mul32 a r), m, r, inBad || rowBad s)

/-- The backward functions (R222): dx and whether the row is NaN. -/
def rowBackward (func : Nat) (dy x : List Val) (st0 st1 : Val) : List Val × Bool :=
  let n := (Val.fin false dy.length 0).r32
  let inBad := dy.any rowBad || x.any rowBad
  let pairs := dy.zip x
  if func = 3 then
    let c := rowSum (pairs.map (fun p => mul32 p.1 p.2))
    (pairs.map (fun p => mul32 p.2 (sub32 p.1 c)), inBad || rowBad c)
  else
    let hat := x.map (fun a => if func = 1 then mul32 (sub32 a st0) st1 else mul32 a st1)
    let sb := rowSum ((dy.zip hat).map (fun p => mul32 p.1 p.2))
    let b := div32 sb n
    let sa := if func = 1 then rowSum dy else .zero
    let a := div32 sa n
    let stBad := rowBad st0 || rowBad st1
    ((dy.zip hat).map (fun p =>
      let t := if func = 1 then sub32 p.1 a else p.1
      mul32 st1 (sub32 t (mul32 p.2 b))), inBad || stBad || rowBad sb || rowBad sa)

/-! Rows of a tensor. -/

/-- Coordinates of a row's elements, n of them. -/
def rowOf (v : View) (row n : Nat) : List (List Nat) := (List.range n).map (rowCoord v.d v.e row)

/-- The offset in the side memory of a source's statistics, and the entry's place for a row (R221). -/
def statOffset (s : State) (r : Run) (src pos row : Nat) : Nat :=
  let size := fun (i : Nat) => let v := getView s r i pos 0; 8 * cdiv (rowCount v.d v.d.bound) r.prog.team.length
  let before := ((r.prog.statSources.filter (fun i => i < src)).map size).sum
  let v := getView s r src pos 0
  before + 8 * (row - (share (rowCount v.d v.e) r.prog.team.length pos).1)

/-- A row's statistics written: into operand D, or into the side memory when a ROWOP_BWD names the ROWOP (R221). A row of
length 0 writes nothing (Table 1.8). -/
def writeStats (s : State) (r : Run) (w : Walk) (row : Nat) (a b : Val) : Except WrErr State := do
  let m := r.mrec w.mi
  if (getView s r w.mi w.pos 0).ex 0 = 0 then .ok s
  else if m.opD ≠ 0xFFFF then
    let d := getView s r w.mi w.pos 3
    let cells := ([([0, row], enc32 a, 127), ([1, row], enc32 b, 127)] : List OutCell).filter (fun e => d.inside e.1)
    let (t, _) ← writeCells s d 0 cells
    .ok t
  else if r.prog.statSources.contains w.mi then
    let o := statOffset s r w.mi w.pos row
    .ok ((sideWrite s w.core o (leBytes 4 (enc32 a) ++ leBytes 4 (enc32 b))).onCore w.core (fun c => { c with sideLost := false }))
  else .ok s

/-- A row's statistics as a ROWOP_BWD reads them (R221); a word that is uncorrectable
fails it (R409 class 4). -/
def readStats (s : State) (r : Run) (w : Walk) (row : Nat) : Except RdErr (Val × Val) := do
  let m := r.mrec w.mi
  if !funcNorm m.func then .ok (.zero, .zero)
  else if m.opD ≠ 0xFFFF then
    let vs ← valsAt s (getView s r w.mi w.pos 3) [[0, row], [1, row]]
    .ok (vs.getD 0 .zero, vs.getD 1 .zero)
  else if (s.core w.core).sideLost then .error .lost
  else
    match m.loftUse with
    | some (_, _, src) =>
      let o := statOffset s r src w.pos row
      if sideBad s w.core o 8 then .error (.bad 4)
      else
        let b := sideRead s w.core o 8
        .ok (dec32 (field b 0 4), dec32 (field b 4 4))
    | none => .ok (.zero, .zero)

/-- A row's outputs narrowed and written into C, and into an OUTPUT loft tensor (R213, R219, R223), each tile by the
position that Table 6.6 gives it to: flags. -/
def writeRow (s : State) (r : Run) (w : Walk) (row : Nat) (y : List Val) (bad : Bool) : Except WrErr (State × Nat) := do
  let c := getView s r w.mi w.pos 2
  let ys := if bad then y.map (fun _ => Val.nan) else y
  let n := min y.length (c.ex 0)
  let out := ((rowOf c row n).zip ys).filter (fun e => c.inside e.1)
  let (cells, fl, _) := narrowCells c.d.format (blockDim c.d) (out.map (fun e => (e.1, e.2, false)))
  let (t, crates, fell, _) ← writeCells s c 0 cells
  let t := (t.bump Ctr.rowNanRows w.core (b2n bad)).bump Ctr.cratesWritten w.core crates
  let t := t.bump Ctr.cratesFellBack w.core fell
  let (t, fl2) ← ((r.prog.loftDest w.mi).filter (fun x => x.2 == 3)).foldlM (fun (acc : State × Nat) x => do
    let l := (viewRef acc.1 r w.mi w.pos (8 + x.1) x.1).getD {}
    let l := { l with e := c.e }
    let (lc, f, _) := narrowCells l.d.format (blockDim l.d) (cells.map (fun e => (e.1, decVal c.d.format e.2.1 e.2.2, false)))
    let holder := fun (e : OutCell) =>
      let (hi, tr, tc) := cellTile c e.1
      holderOf (c.planes * c.trows * c.tcols) r.prog.team.length
        ((planeIdx c.d.rank c.e ([0, 0] ++ hi) * c.trows + tr) * c.tcols + tc)
    let u ← (((lc.map holder).eraseDups).foldlM (fun (u : State) p => do
      let l := { l with pos := p }
      let (u, _, _, bytes) ← writeCells u l 0 (lc.filter (fun e => holder e == p))
      .ok (u.bump Ctr.loftBytesWritten (r.coreAt p) bytes)) acc.1)
    .ok (u, acc.2 ||| f)) (t, 0)
  .ok (t, fl ||| fl2 ||| (if fell = 0 then 0 else flFell))

/-- The end of row work on a position: flags logged, the INPUT loft copy made, the walk ended. -/
def endRows (s : State) (r : Run) (w : Walk) (flags : Nat) : State :=
  let s := logFlags s r.tag w.mi w.pos flags
  endUnit (issueWrites s) r.tag w.mi w.pos w.core

/-- One row of a ROWOP or ROWOP_BWD read and computed: outputs, statistics, NaN. -/
def computeRow (s : State) (r : Run) (w : Walk) (row : Nat) : Except RdErr (List Val × Val × Val × Bool) := do
  let m := r.mrec w.mi
  let a := getView s r w.mi w.pos 0
  let x ← valsAt s a (rowOf a row (a.ex 0))
  if m.opcode = opRowop then .ok (rowForward m.func m.param x)
  else
    let b := getView s r w.mi w.pos 1
    let y ← valsAt s b (rowOf b row (a.ex 0))
    let (st0, st1) ← readStats s r w row
    let (d, bad) := rowBackward m.func x y st0 st1
    .ok (d, .zero, .zero, bad)

/-- Loft bytes that the rows of a ROWOP_BWD read. -/
def rowLoftBytes (s : State) (r : Run) (w : Walk) (rows : List Nat) : Nat :=
  if (r.mrec w.mi).loftUse.isSome then
    let b := getView s r w.mi w.pos 1
    (rows.map (fun x => storedBytes s b (rowOf b x ((getView s r w.mi w.pos 0).ex 0)))).sum
  else 0

/-- The rows of a position computed, then written (R219 to R223). -/
def rowWork (s : State) (r : Run) (w : Walk) : State :=
  let m := r.mrec w.mi
  let got : Except RdErr (List (Nat × List Val × Val × Val × Bool)) := do
    let us ← walkUnits s r w.mi w.pos
    us.mapM (fun u => do let y ← computeRow s r w u; .ok (u, y))
  match got with
  | .error e => failRead s r.tag w.mi w.core e
  | .ok rows =>
    let loft : Except RdErr (Except WrErr (State × Nat)) :=
      (loftCopies r w.mi).foldl (fun acc x =>
        match acc with
        | .ok (.ok (s, fl)) =>
          match loftCopy s r w x with
          | .ok (.ok (t, f)) => .ok (.ok (t, fl ||| f))
          | y => y
        | y => y) (.ok (.ok (s, 0)))
    match loft with
    | .error e => failRead s r.tag w.mi w.core e
    | .ok (.error e) => failWrite s r.tag w.mi e
    | .ok (.ok (s, fl0)) =>
      let done : Except WrErr (State × Nat) := rows.foldlM (fun (acc : State × Nat) x => do
        let (u, y, a, b, bad) := x
        let (t, f) ← writeRow acc.1 r w u y bad
        let t ← if m.opcode = opRowop then writeStats t r w u a b else .ok t
        .ok (t, acc.2 ||| f)) (s, fl0)
      match done with
      | .error e => failWrite s r.tag w.mi e
      | .ok (t, fl) => endRows (t.bump Ctr.loftBytesRead w.core (rowLoftBytes s r w (rows.map (fun x => x.1)))) r w fl

/-! The update (R228 to R231). -/

/-- A field of an optimiser slot record as the run started with it (R229); a slot never written holds zero. -/
def optField (r : Run) (m : MRec) (o : Nat) : Val := f32At (slotOf r (0x0400 + m.param)) o

/-- One element's update (R230): weight and moments before, gradient; after. -/
def updateElem (r : Run) (m : MRec) (a w m0 v0 : Val) : Val × Val × Val :=
  let f := optField r m
  let one := Val.fin false 1 0
  let g := mul32 a (f 0x18)
  let lr := f 4
  let wd := f 0x14
  if m.func = 0x10 then (sub32 w (mul32 lr (add32 g (mul32 wd w))), m0, v0)
  else if m.func = 0x11 then
    let m1 := add32 (mul32 (f 8) m0) (add32 g (mul32 wd w))
    (sub32 w (mul32 lr m1), m1, v0)
  else
    let m1 := add32 (mul32 (f 8) m0) (mul32 (sub32 one (f 8)) g)
    let v1 := add32 (mul32 (f 0x0C) v0) (mul32 (sub32 one (f 0x0C)) (mul32 g g))
    let (c1, c2) := (look m.param r.optC).getD (0, 0)
    let u := div32 (mul32 m1 (dec c1)) (add32 (sqrt32 (mul32 v1 (dec c2))) (f 0x10))
    (sub32 w (mul32 lr (add32 u (mul32 wd w))), m1, v1)

/-- One segment read (R228): coordinates of A and C, of the moments, and their values. -/
structure Seg64 where
  /-- Row. -/
  row : Nat := 0
  /-- First element. -/
  first : Nat := 0
  /-- Gradients. -/
  a : List Val := []
  /-- Weights. -/
  w : List Val := []
  /-- First moments. -/
  m : List Val := []
  /-- Second moments. -/
  v : List Val := []
  deriving Inhabited

/-- A segment read. -/
def readSeg (s : State) (r : Run) (w : Walk) (row first n : Nat) : Except RdErr Seg64 := do
  let m := r.mrec w.mi
  let a := getView s r w.mi w.pos 0
  let c := getView s r w.mi w.pos 2
  let d := getView s r w.mi w.pos 3
  let ks := (List.range n).map (first + ·)
  let av ← valsAt s a (ks.map (rowCoord a.d a.e row))
  let wv ← valsAt s c (ks.map (rowCoord c.d c.e row))
  let mv ← if m.func = 0x10 then .ok [] else valsAt s d (ks.map (fun k => optCoord c row k 0))
  let vv ← if m.func = 0x12 then valsAt s d (ks.map (fun k => optCoord c row k 1)) else .ok []
  .ok { row := row, first := first, a := av, w := wv, m := mv, v := vv }

/-- The segments of some rows: (row, first element, elements). -/
def segments (len : Nat) (rows : List Nat) : List (Nat × Nat × Nat) :=
  rows.flatMap (fun r => (List.range (cdiv len 64)).map (fun k => (r, 64 * k, min 64 (len - 64 * k))))

/-- A segment updated where it lies (R230). -/
def writeSeg (s : State) (r : Run) (w : Walk) (g : Seg64) : Except WrErr State := do
  let m := r.mrec w.mi
  let c := getView s r w.mi w.pos 2
  let d := getView s r w.mi w.pos 3
  if g.a.any rowBad then .ok (s.bump Ctr.updateNanSegments w.core 1)
  else if bit m.imm0 21 && g.a.all (fun v => v.isZero) then .ok (s.bump Ctr.updateSkippedSegments w.core 1)
  else
    let out := (List.range g.a.length).map (fun i =>
      (g.first + i, updateElem r m (g.a.getD i .zero) (g.w.getD i .zero) (g.m.getD i .zero) (g.v.getD i .zero)))
    let (t, _) ← writeCells s c 0 (out.map (fun e => (rowCoord c.d c.e g.row e.1, enc32 e.2.1, 127)))
    let (t, _) ← if m.func = 0x10 then .ok (t, 0, 0, 0)
      else writeCells t d 0 (out.map (fun e => (optCoord c g.row e.1 0, enc32 e.2.2.1, 127)))
    let (t, _) ← if m.func = 0x12 then writeCells t d 0 (out.map (fun e => (optCoord c g.row e.1 1, enc32 e.2.2.2, 127)))
      else .ok (t, 0, 0, 0)
    .ok ((t.bump Ctr.updateSegments w.core 1).onRun r.tag (fun r => { r with updated := insertN m.param r.updated }))

/-- Some rows updated (R230). -/
def updateRows (s : State) (r : Run) (w : Walk) (rows : List Nat) : Except RdErr (Except WrErr State) := do
  let a := getView s r w.mi w.pos 0
  let gs ← (segments (a.ex 0) rows).mapM (fun x => readSeg s r w x.1 x.2.1 x.2.2)
  .ok (gs.foldlM (fun s g => writeSeg s r w g) s)

/-- An update that is not chained, on one position. -/
def updateWork (s : State) (r : Run) (w : Walk) : State :=
  let got : Except RdErr (Except WrErr State) := do
    let us ← walkUnits s r w.mi w.pos
    updateRows s r w us
  match got with
  | .error e => failRead s r.tag w.mi w.core e
  | .ok (.error e) => failWrite s r.tag w.mi e
  | .ok (.ok t) => endRows t r w 0

/-- A chained update's walk formed (R231): its slices; nothing when the push pushes nothing in this run. -/
def formChain (s : State) (r : Run) (w : Walk) (j : Nat) : State :=
  match ownPush s r.tag j with
  | some _ =>
    if w.set then settle s r.tag w.mi w.pos
    else
      let us := shareList (sliceCount (getView s r w.mi w.pos 0)) r.prog.team.length w.pos
      settle (s.onWalk r.tag w.mi w.pos (fun w => { w with set := true, units := us, loftDone := true })) r.tag w.mi w.pos
  | none => if macroDone s r j then endWalk s r.tag w.mi w.pos w.core else s

/-- ROWOP (R220, R228, R231). -/
def execRowop (t i p : Nat) (s : State) : Host.Outcome State Fault Refusal :=
  .next <| opCmd s t i p opRowop fun s r w =>
    if funcUpdate (r.mrec i).func then
      match chainOf r i with
      | some j => formChain s r w j
      | none => unitWork updateWork s r w
    else unitWork rowWork s r w

/-- ROWOP_BWD (R222). -/
def execRowopBwd (t i p : Nat) (s : State) : Host.Outcome State Fault Refusal :=
  .next <| opCmd s t i p opRowopBwd (unitWork rowWork)

/-- UPDATE_SLICE (R231): the next slice of a chained update, once the reducer has written it into A. -/
def execUpdateSlice (t i p : Nat) (s : State) : Host.Outcome State Fault Refusal :=
  .next <| opCmd s t i p opRowop fun s r w =>
    match w.units, (chainOf r i).bind (ownPush s t) with
    | k :: us, some g =>
      if !w.set || !g.written.contains k then s
      else
        let rows := sliceRowNos (getView s r i p 0) k
        let s := reach s t i p [0, 2, 3] (rows.foldl max 0)
        match updateRows s r w rows with
        | .error e => failRead s t i w.core e
        | .ok (.error e) => failWrite s t i e
        | .ok (.ok u) => produce s (settle (issueWrites (u.onWalk t i p (fun w => { w with units := us }))) t i p) t w
    | _, _ => s

end Sys2Proof.Machine
end

