-- ==== Sys2Proof/Machine/Reducer.lean ====
section
/-!
DEFINITION. GRAD_PUSH (R227, R290) and the gradient reducer (R290 to R297): the tree of nodes, statuses, partials, results,
late pushes, and a rank dropped during a push.
-/

namespace Sys2Proof.Machine

/-! The tree (R291). -/

/-- Rank k is a rank of the group. -/
def nodeExists (s : State) (k : Nat) : Bool := s.group.members.any (fun m => m.1 == k)

/-- The parent of a node. -/
def parentOf (k : Nat) : Nat := (k - 1) / 2

/-- The child nodes of a node that exist, each with its side (0 left, 1 right). -/
def childNodes (s : State) (k : Nat) : List (Nat × Nat) := [(0, 2 * k + 1), (1, 2 * k + 2)].filter (fun c => nodeExists s c.2)

/-- The rank whose reducer does a node's work (R295): its own while the view has it, else its nearest ancestor's in the
view; a dropped root's goes to the lowest rank of the view (DESIGN CHOICE, log 89). -/
def serverOf (s : State) (gone : List Nat) : Nat → Nat → Option Nat
  | 0, _ => none
  | f + 1, k =>
    if s.group.view.contains k && !gone.contains k then some k
    else if k = 0 then s.group.view.min? else serverOf s gone f (parentOf k)

/-- The server of a node of a push. -/
def Push.server (p : Push) (s : State) (k : Nat) : Option Nat := serverOf s p.dropped 16 k

/-- The push at a node. -/
def pushAt (s : State) (key node : Nat) : Option Push := s.pushes.find? (fun p => p.key == key && p.node == node)

/-- The push at a node changed. -/
def onPush (s : State) (key node : Nat) (f : Push → Push) : State :=
  { s with pushes := mapIf (fun p => p.key == key && p.node == node) f s.pushes }

/-- A child's count, as far as it is known: 0 when the child does not exist (R292). -/
def Push.count (p : Push) (s : State) (side : Nat) : Option Nat :=
  if (childNodes s p.node).any (fun c => c.1 == side) then (if side = 0 then p.left else p.right) else some 0

/-- A child's count set. -/
def Push.setCount (p : Push) (side : Nat) (n : Option Nat) : Push := if side = 0 then { p with left := n } else { p with right := n }

/-- The side of a node below its parent. -/
def sideOf (k : Nat) : Nat := if k % 2 = 1 then 0 else 1

/-- The address by which a node's reports travel (log 9): node, last transfer of its slice, slice, transfer of it. -/
def redAddr (node slice piece : Nat) (last : Bool) : Nat := node * 2 ^ 54 + b2n last * 2 ^ 53 + slice * 2 ^ 20 + piece

/-- The node, the slice and the place in it that a report's address names. -/
def redNode (h : Hdr) : Nat := h.address / 2 ^ 54
def redSlice (h : Hdr) : Nat := h.address / 2 ^ 20 % 2 ^ 33

/-- A node's count reported to the server of its parent (R292). -/
def sendStatus (s : State) (dest key node n : Nat) : State :=
  (sendTransfer s 1 { ownHdr s 0x0A dest with key := key, address := redAddr node 0 0 true, length := 8 } (leBytes 2 n ++ leBytes 6 0)).1

/-- A node's count settled, when its own contribution and its children's counts are, and reported to the parent's server
(R292). -/
def settleNode : Nat → State → Nat → Nat → State
  | 0, s, _, _ => s
  | f + 1, s, key, node =>
    match pushAt s key node with
    | none => s
    | some p =>
      match p.settled, p.onTime, p.count s 0, p.count s 1 with
      | none, some own, some a, some b =>
        let n := a + b + b2n own
        let s := onPush s key node (fun p => { p with settled := some n })
        if node = 0 then s
        else
          match p.server s (parentOf node) with
          | none => s
          | some r =>
            if r = s.group.rank then
              settleNode f (onPush s key (parentOf node) (fun q => q.setCount (sideOf node) (some n))) key (parentOf node)
            else sendStatus s r key node n
      | _, _, _, _ => s

/-- Every node of a push served here settled, deepest first. -/
def settleAll (s : State) (key : Nat) : State :=
  (((s.pushes.filter (fun p => p.key == key)).foldl (fun l p => insertN p.node l) []).reverse).foldl
    (fun s k => settleNode 16 s key k) s

/-- The nodes that this device serves for a push. -/
def nodesServed (s : State) (gone : List Nat) : List Nat :=
  (s.group.members.map (fun m => m.1)).filter (fun k => serverOf s gone 16 k == some s.group.rank)

/-- Nodes of a push that this device serves and has no record of, begun: a node whose rank is not in the view has no
contribution of its own, and of a dropped rank's node the slices that its parent has combined are over (R295). -/
def addNodes (s : State) (key : Nat) (gone : List Nat) : State :=
  let fresh := (nodesServed s gone).filter (fun k => (pushAt s key k).isNone)
  { s with pushes := s.pushes ++ fresh.map (fun k =>
      let used := match pushAt s key (parentOf k) with
        | some q => if gone.contains k then q.combined.map (fun x => x.1) else []
        | none => []
      ({ key := key, node := k, mi := key / 2 ^ 14 % 2 ^ 14, onTime := if k = s.group.rank then none else some false
         dropped := gone, combined := used.map (fun n => (n, 0, [])), acked := used, ranks := s.group.view } : Push)) }

/-- A push made known to the nodes this device serves, whether or not its own program has reached it (R290). -/
def ensurePush (s : State) (key : Nat) : State :=
  if !inView s || (pushAt s key s.group.rank).isSome then s
  else settleAll ((addNodes s key []).bump Ctr.gradPushes 0 1) key

/-! The store and the result. -/

/-- The view of the store of a begun push while its run goes on, by the first position. -/
def storeView (s : State) (p : Push) : Option View :=
  match s.live p.tag with
  | some r => if p.begun then some (getView s r p.mi 0 0) else none
  | none => none

/-- The team position whose streams read and write a slice (R31, R176, log 43). -/
def slicePos (v : View) (k : Nat) : Nat := holderOf (sliceCount v) v.team.length k

/-- The shape of a push's store when its program has not begun it. -/
def slotView (s : State) (key : Nat) : Option View :=
  match look (key / 2 ^ 28) s.slots with
  | none => none
  | some g =>
    let m := g.recs.getD (key / 2 ^ 14 % 2 ^ 14) {}
    (s.tensor (g.refs.getD m.opA {}).handle).map (fun t => { d := t.desc, e := t.desc.size })

/-- Coordinates of a slice's elements in order (R225). -/
def sliceElems (v : View) (k : Nat) : List (List Nat) :=
  (sliceRows v k).flatMap (fun x => (List.range (v.ex 0)).map (fun i => x.set 0 i))

/-- The values of a slice of a store as its position's read stream brings them (R176). -/
def storeSlice (s : State) (v : View) (k : Nat) : Except RdErr (List F32) := do
  let ps ← (sliceRanges v k).mapM (fun x => landedFor s v x.1 x.2)
  let b := ps.flatten
  .ok (bytesF32 (b.length / 4) b)

/-- A slice of the store is set to +0 (R227), as writes of its position's write stream. -/
def zeroSlice (s : State) (v : View) (k : Nat) : State :=
  issueWrites (queueWrites s v false ((sliceRanges v k).map (fun x => (x.1, List.replicate x.2 0))))

/-- A slice's pages of a tensor in MEM are all LOCAL. -/
def sliceLocal (s : State) (v : View) (k : Nat) : Bool :=
  (sliceRanges v k).all (fun x => (unitsOf 2097152 x.1 x.2).all (fun p => (xlate s p).1 == 1))

/-- Values written into C of a push from an element of a slice on (R294): on the shelves where C lies there, else as writes of
its position's write stream (R176). -/
def writeC (s : State) (r : Run) (mi k off : Nat) (vals : List F32) : Except WrErr State :=
  let v := getView s r mi (slicePos (getView s r mi 0 2) k) 2
  let cells : List OutCell := (((sliceElems v k).drop off).zip vals).map (fun x => (x.1, x.2.toNat, 127))
  if v.d.placement ≠ 1 then writeElems s v cells
  else .ok (issueWrites (queueWrites s v false (rawRuns v (fun _ => 0) cells)))

/-- The push record of a store kept up (R296): the counts of the results passed, and the ranks summed in every slice: those of
the view when the push became known, without those announced late (log 42) and, where some slice lacks one, those dropped. -/
def notePush (s : State) (key : Nat) : State :=
  match pushAt s key s.group.rank with
  | none => s
  | some p =>
    if !p.begun then s
    else
      let cs := p.results.map (fun x => x.2)
      let lo := cs.foldl Nat.min (cs.headD 0)
      let sure := p.ranks.filter (fun k => !p.late.contains k)
      s.onTensor p.store (fun t => match t.push with
        | some q => if q.key ≠ key then t else { t with push := some { q with
            countMin := lo, countMax := cs.foldl Nat.max 0, viewChanged := p.viewChanged
            included := if cs.isEmpty then [] else if lo = sure.length then sure else sure.filter (fun k => !p.dropped.contains k) } }
        | none => t)

/-- A slice of C is written under a push's key (R294); values that go to pages of a peer or host are kept for late ranks
(log 43). -/
def noteWritten (s : State) (p : Push) (k : Nat) (vals : List F32) : State :=
  let away := match s.live p.tag with
    | some r => let v := getView s r p.mi 0 2; v.d.placement == 1 && !sliceLocal s v k
    | none => false
  let s := onPush s p.key p.node (fun q => { q with
    written := insertN k q.written, kept := if away then put k vals q.kept else q.kept })
  s.onTensor p.cHandle (fun t => { t with sliceKeys := put k p.key t.sliceKeys })

/-- Slice values sent as consecutive transfers of 32 to 4,096 bytes, the last filled up with zeros (R280); slice, offset and
count travel in address and tag (log 9). -/
def sendSlice (s : State) (op dest key node slice count : Nat) (vals : List F32) : State :=
  let b := f32Bytes vals
  let n := max 1 (cdiv b.length 4096)
  (List.range n).foldl (fun s i =>
    let d := (b.drop (4096 * i)).take 4096
    let d := d ++ List.replicate (32 - d.length) 0
    (sendTransfer s 1 { ownHdr s op dest with key := key, tag := count, address := redAddr node slice i (i + 1 == n), length := d.length } d).1) s

/-- A transfer of a slice at a node (R280): the values once all of its slice are there. -/
def takePiece (s : State) (node side : Nat) (h : Hdr) (d : List Byte) : State × Option (List F32) :=
  match pushAt s h.key node with
  | none => (s, none)
  | some p =>
    let k := redSlice h
    let x : Piece := { side := side, slice := k, count := h.tag, at0 := h.address % 2 ^ 20, last := bit h.address 53, data := d }
    let mine := fun (y : Piece) => y.side == side && y.slice == k
    let l := (p.pieces.filter (fun y => mine y && y.at0 != x.at0)) ++ [x]
    let whole := match l.find? (fun y => y.last) with
      | some y => decide (l.length = y.at0 + 1)
      | none => false
    let others := p.pieces.filter (fun y => !mine y)
    if whole then
      let b := (List.range l.length).flatMap (fun i => ((l.find? (fun y => y.at0 == i)).map (fun y => y.data)).getD [])
      (onPush s h.key node (fun q => { q with pieces := others }), some (bytesF32 (b.length / 4) b))
    else (onPush s h.key node (fun q => { q with pieces := others ++ l }), none)

/-- A result slice at a node (R294): forwarded to the children, and written into C when the node is this rank's and its push
has begun. -/
def passResult : Nat → State → Nat → Nat → Nat → Nat → List F32 → State
  | 0, s, _, _, _, _, _ => s
  | f + 1, s, key, node, k, c, vals =>
    match pushAt s key node with
    | none => s
    | some p =>
      let s := onPush s key node (fun q => { q with results := q.results ++ (if q.results.any (fun x => x.1 == k) then [] else [(k, c)]) })
      let s :=
        match s.live p.tag with
        | some r =>
          if node = s.group.rank ∧ p.begun ∧ r.stopping.isNone ∧ !p.written.contains k then
            match writeC s r p.mi k 0 vals with
            | .error e => failWrite s r.tag p.mi e
            | .ok t => noteWritten t p k vals
          else s
        | none => s
      (childNodes s node).foldl (fun s ch =>
        match p.server s ch.2 with
        | none => s
        | some r =>
          if r = s.group.rank then passResult f s key ch.2 k c vals else sendSlice s 0x09 r key ch.2 k c vals) s

/-! Partials. -/

/-- A rank's node is told that its parent's node has used its partial of a slice, and with it the nodes below: what a node has
combined is safe once its parent has it too (R295). -/
def ackNode : Nat → State → Nat → Nat → Nat → State
  | 0, s, _, _, _ => s
  | f + 1, s, key, node, k =>
    match serverOf s (((pushAt s key s.group.rank).map (fun p => p.dropped)).getD []) 16 node with
    | none => s
    | some r =>
      if r = s.group.rank then
        let s := onPush s key node (fun q => { q with acked := insertN k q.acked })
        (childNodes s node).foldl (fun s c => ackNode f s key c.2 k) s
      else (sendTransfer s 1 { ownHdr s 0x05 r with key := key, tag := k, address := node } []).1

/-- The children of a node are told that it and its parent have used their partials of a slice. -/
def ackKids (s : State) (key node k : Nat) : State := (childNodes s node).foldl (fun s c => ackNode 16 s key c.2 k) s

/-- A partial of a child node that reaches its parent's node here (R291, R293): one that its status excluded is discarded
and counted. -/
def takePart (s : State) (key child k c : Nat) (vals : List F32) : State :=
  match pushAt s key (parentOf child) with
  | none => s
  | some q =>
    let side := sideOf child
    if q.count s side = some 0 then s.bump Ctr.gradLateDrops 0 1
    else if q.combined.any (fun x => x.1 == k) then (if q.acked.contains k || q.node == 0 then ackNode 16 s key child k else s)
    else if q.parts.any (fun x => x.1 == side && x.2.1 == k) then s
    else onPush s key (parentOf child) (fun q => { q with parts := q.parts ++ [(side, k, c, vals)] })

/-- A node's partial sent to its parent's server (R291). -/
def sendPart (s : State) (p : Push) (k c : Nat) (vals : List F32) : State :=
  match p.server s (parentOf p.node) with
  | none => s
  | some r => if r = s.group.rank then takePart s p.key p.node k c vals else sendSlice s 0x08 r p.key p.node k c vals

/-- The own slice of a node (R291, R227): its values once its stream has brought them. A slice that a stopped run's push has
set to +0 is taken as +0 (log 44). -/
def ownSlice (s : State) (p : Push) (k : Nat) : Except RdErr (List F32) :=
  match storeView s p, s.live p.tag with
  | some v, some r =>
    if r.stopping.isNone then storeSlice s (getView s r p.mi (slicePos v k) 0) k else .ok ((sliceElems v k).map (fun _ => 0))
  | _, _ =>
    if p.begun then .ok (match slotView s p.key with
      | some v => (sliceElems v k).map (fun _ => 0)
      | none => [])
    else .error .wait

/-- The consumer of a node's own slice begins to read it (R178). -/
def reachSlice (s : State) (p : Push) (k : Nat) : State :=
  match storeView s p with
  | some v => reach s p.tag p.mi (slicePos v k) [0] k
  | none => s

/-- FP32 sums of two slices (R86). -/
def addSlices (a b : List F32) : List F32 := (a.zip b).map (fun x => atomicAdd x.1 x.2)

/-- The mean of a slice (R294). -/
def meanSlice (c : Nat) (l : List F32) : List F32 :=
  l.map (fun v => if c = 0 then 0 else
    match dec v with
    | .nan => enc .nan
    | x => enc (x.div (.fin false c 0)).sat32)

/-- A node's own slice is taken, and set to +0 in its store (R227). -/
def takeOwn (s : State) (p : Push) (k : Nat) : State :=
  let s := onPush s p.key p.node (fun q => { q with taken := insertN k q.taken })
  match storeView s p, s.live p.tag with
  | some v, some r => if r.stopping.isNone then zeroSlice s (getView s r p.mi (slicePos v k) 0) k else s
  | _, _ => s

/-- The shape of a push's store: of its run's extents once begun. -/
def pushShape (s : State) (p : Push) : Option View := (storeView s p).orElse (fun _ => slotView s p.key)

/-- A slice's partial formed at a node (R291): the terms included, in order, and their count. -/
def partialOf (kids : List (Nat × List F32)) (own : Option (List F32)) : Nat × List F32 :=
  let terms := kids.filter (fun x => decide (1 ≤ x.1)) ++ (match own with
    | some l => [(1, l)]
    | none => [])
  ((terms.map (fun t => t.1)).sum, match terms with
    | [] => []
    | t :: r => r.foldl (fun a b => addSlices a b.2) t.2)

/-- A partial formed at a node goes on (R291, R294): to the parent, or, at node 0, as the result down the tree. -/
def passPartial (s : State) (p : Push) (k c : Nat) (sum : List F32) : State :=
  if p.node = 0 then
    let vals := if c = 0 then (match pushShape s p with
      | some v => (sliceElems v k).map (fun _ => 0)
      | none => []) else meanSlice c sum
    notePush (passResult 16 (ackKids s p.key 0 k) p.key 0 k c vals) p.key
  else sendPart s p k c sum

/-- REDUCER_COMBINE (R291, R292): a slice is combined at a node once the inputs promised are present. -/
def combine (s : State) (p : Push) (k : Nat) : State :=
  let part := fun (side : Nat) => p.parts.find? (fun x => x.1 == side && x.2.1 == k)
  let ready := fun (side : Nat) => (part side).isSome || p.count s side == some 0
  let own := p.onTime == some true
  let within := match pushShape s p with
    | some v => decide (k < sliceCount v)
    | none => (part 0).isSome || (part 1).isSome
  if p.settled.isNone || p.combined.any (fun x => x.1 == k) || !ready 0 || !ready 1 || !within || (p.node != 0 && p.settled == some 0) then s
  else
    let s := if own then reachSlice s p k else s
    match (if own then (ownSlice s p k).map some else .ok none) with
    | .error e => failRead s p.tag p.mi ((storeView s p).elim 0 (fun v => v.team.getD (slicePos v k) 0)) e
    | .ok mine =>
      let (c, sum) := partialOf (([0, 1].filterMap part).map (fun x => x.2.2)) mine
      let s := if own then takeOwn s p k else s
      let s := onPush s p.key p.node (fun q => { q with
        parts := q.parts.filter (fun x => x.2.1 != k), combined := q.combined ++ [(k, c, sum)] })
      passPartial (s.bump Ctr.gradSlicesReduced 0 1) p k c sum

/-- REDUCER_COMBINE (R291). -/
def execReducerCombine (key node slice : Nat) (s : State) : Host.Outcome State Fault Refusal :=
  .next <|
    match pushAt s key node with
    | none => s
    | some p => combine s p slice

/-- RED_STATUS (R292): a subtree's count of contributions on time. -/
def execRedStatus (h : Hdr) (d : List Byte) (s : State) : Host.Outcome State Fault Refusal :=
  .next <| servedIn s h (h.length == 8 && d.length == 8) id fun s =>
    if redNode h = 0 then s
    else
      let s := ensurePush s h.key
      let node := redNode h
      match pushAt s h.key (parentOf node) with
      | none => s
      | some q =>
        if (q.count s (sideOf node)).isSome then s
        else
          let n := field d 0 2
          let late := if n = 0 ∧ !q.viewChanged then (q.parts.filter (fun x => x.1 == sideOf node)).length else 0
          let s := onPush (s.bump Ctr.gradLateDrops 0 late) h.key q.node (fun q => { q.setCount (sideOf node) (some n) with
            parts := if late = 0 then q.parts else q.parts.filter (fun x => x.1 != sideOf node) })
          settleNode 16 s h.key q.node

/-- A length that a transfer of slice values may have (R280). -/
def sliceLen (h : Hdr) (d : List Byte) : Bool := decide (h.length = d.length) && decide (32 ≤ d.length) && decide (d.length ≤ 4096)

/-- RED_PART (R291, R293): bytes of a child's partial of one slice; the partial is taken once it is whole. -/
def execRedPart (h : Hdr) (address count : Nat) (d : List Byte) (s : State) : Host.Outcome State Fault Refusal :=
  let h := { h with address := address, tag := count }
  .next <| servedIn s h (sliceLen h d) id fun s =>
    let node := redNode h
    if node = 0 then s
    else
      let s := ensurePush s h.key
      let (s, v) := takePiece s (parentOf node) (sideOf node) h d
      match v with
      | some vals => takePart s h.key node (redSlice h) h.tag vals
      | none => s

/-- RED_RESULT (R294): bytes of a result slice from the parent's node; the result is passed once it is whole. -/
def execRedResult (h : Hdr) (address count : Nat) (d : List Byte) (s : State) : Host.Outcome State Fault Refusal :=
  let h := { h with address := address, tag := count }
  .next <| servedIn s h (sliceLen h d) id fun s =>
    let s := ensurePush s h.key
    let (s, v) := takePiece s (redNode h) 2 h d
    match v with
    | some vals => notePush (passResult 16 s h.key (redNode h) (redSlice h) h.tag vals) h.key
    | none => s

/-- An acknowledgement of a partial (R295). -/
def ackedPart (s : State) (h : Hdr) : State := ackNode 16 s h.key h.address h.tag

/-- A reducer announcement (R274, log 42): a rank's own contribution to a push is late. -/
def takeLate (key rank : Nat) (s : State) : State :=
  let s := ensurePush s key
  notePush (onPush s key s.group.rank (fun q => { q with late := insertN rank q.late })) key

/-- The own contribution of this rank to a push is late (R293): its node's count settles, and the other ranks are told. -/
def setLate (s : State) (key d : Nat) : State :=
  let s := onPush s key s.group.rank (fun q => { q with onTime := some false, deadline := d, late := insertN s.group.rank q.late })
  settleNode 16 (mgmtAll s 14 (leBytes 4 key)) key s.group.rank

/-! Late pushes. -/

/-- The ranks above this one in the tree that the view has, nearest first. -/
def ancestors (s : State) : Nat → Nat → List Nat
  | 0, _ => []
  | f + 1, k =>
    if k = 0 then [] else (if s.group.view.contains (parentOf k) then [parentOf k] else []) ++ ancestors s f (parentOf k)

/-- The reads of a slice of a push's C of so many bytes, sent to a rank (R294): the state, whether all were sent, and their
tags with their offsets. -/
def askReads (s : State) (p : Push) (rank k bytes : Nat) : State × Bool × List (Nat × Nat) :=
  (List.range (max 1 (cdiv bytes 4096))).foldl (fun (acc : State × Bool × List (Nat × Nat)) i =>
    let h := { ownHdr acc.1 0x01 rank with
      key := p.key, tag := 2 ^ 31 + acc.1.nextXfer, address := k * 2 ^ 24 + 4096 * i, reqLength := max 32 (min 4096 (bytes - 4096 * i)) }
    let r := sendTransfer { acc.1 with nextXfer := (acc.1.nextXfer + 1) % 2 ^ 31 } 3 h []
    (r.1, acc.2.1 && r.2, acc.2.2 ++ [(2 ^ 31 + acc.1.nextXfer, 4096 * i)])) (s, true, [])

/-- A missed slice asked from the next of some ancestors (R294); with none left, the push fails with E_LATE. -/
def askSlice : List Nat → State → Push → Nat → State
  | [], s, p, _ => failMacro s p.tag p.mi eLate
  | a :: rest, s, p, k =>
    let ask := askReads s p a k (4 * (sliceElems ((storeView s p).getD {}) k).length)
    if ask.2.1 then
      onPush ask.1 p.key p.node (fun q => { q with reread := q.reread.filter (fun x => x.1 != k) ++ [(k, a, ask.2.2)] })
    else askSlice rest ask.1 p k

/-- C of a push as its program has it, at the extents of the push's run. -/
def pushC (s : State) (p : Push) : Option View :=
  match look (p.key / 2 ^ 28) s.slots, s.tensor p.cHandle with
  | some g, some t =>
    some { d := placeDesc g (g.recs.getD p.mi {}).opC t.desc, e := p.extents, team := g.team, tag := p.tag, mi := p.mi, op := 2 }
  | _, _ => none

/-- A byte of C in the tensor address space as it stands: of a write not yet complete, else of DDR; none in a page of a peer or
host. -/
def cByte (s : State) (core a : Nat) : Option Byte :=
  match pendingByte s core a with
  | some b => some b
  | none =>
    let (kind, _, _, t, _) := xlate s (pageOf a)
    if kind = 1 then (ddrRead s (t + a % 2097152) 1).map (fun d => d.headD 0) else none

/-- The places of the elements that a read of a slice asks for. -/
def askedElems (v : View) (h : Hdr) : List Loc :=
  (((sliceElems v (h.address / 2 ^ 24)).drop (h.address % 2 ^ 24 / 4)).take (h.reqLength / 4)).map v.elem

/-- A read of a push's C by a late rank is served (R294): the bytes, when C holds the slice under the push's key. -/
def serveSlice (s : State) (h : Hdr) : Option (List Byte) := do
  let p ← pushAt s h.key s.group.rank
  let t ← s.tensor p.cHandle
  let v ← pushC s p
  let k := h.address / 2 ^ 24
  if look k t.sliceKeys ≠ some h.key then none
  else
    match look k p.kept with
    | some vals => some (slice (f32Bytes vals) (h.address % 2 ^ 24) h.reqLength)
    | none =>
      let ls := askedElems v h
      let bs ← ls.mapM (fun l =>
        if v.d.placement = 0 then shelfRead s l.core l.addr 4
        else (List.range 4).mapM (fun i => cByte s (v.team.getD (slicePos v k) 0) (l.addr + i)))
      some (bs.flatten ++ List.replicate (32 - 4 * ls.length) 0)

/-- The bursts of DDR that serving a read of a slice reads. -/
def sliceBursts (s : State) (h : Hdr) : List Nat :=
  match pushAt s h.key s.group.rank with
  | none => []
  | some p =>
    match pushC s p with
    | none => []
    | some v =>
      if v.d.placement ≠ 1 ∨ (look (h.address / 2 ^ 24) p.kept).isSome then []
      else
        (((askedElems v h).filter (fun l => (xlate s (pageOf l.addr)).1 == 1)).map (fun l => localAt s l.addr / 64)).eraseDups

/-- A read of a slice as it is served: the data if any, and the reads of DDR counted; none while DDR makes it wait. -/
def readSlice (s : State) (h : Hdr) : Option (State × Option (List Byte)) :=
  let bs := sliceBursts s h
  if bs.any (fun b => ddrBusy s (64 * b) 64 false) then none
  else
    match serveSlice s h with
    | none => some (s, none)
    | some d => some (bs.foldl (fun s b => countRead s (64 * b) 64) s, some d)

/-- Data of a read of a missed slice (R294): written into C; a refusal goes on to the next ancestor. None when the read is
not one of a push. -/
def gotSlice (s : State) (h : Hdr) (d : List Byte) : Option State :=
  match s.pushes.find? (fun p => p.node == s.group.rank && p.reread.any (fun x => x.2.2.any (fun y => y.1 == h.tag))) with
  | none => none
  | some p =>
    match p.reread.find? (fun x => x.2.2.any (fun y => y.1 == h.tag)), s.live p.tag with
    | some (k, a, ids), some r =>
      let set := fun (s : State) (l : List (Nat × Nat × List (Nat × Nat))) => onPush s p.key p.node (fun q => { q with reread := l })
      let others := p.reread.filter (fun x => x.1 != k)
      if r.stopping.isSome then some (set s others)
      else if h.status ≠ 0 then
        let next := ((ancestors s 16 s.group.rank).dropWhile (fun x => x != a)).drop 1
        some (askSlice next (set s others) p k)
      else
        let off := ((ids.find? (fun y => y.1 == h.tag)).map (fun y => y.2)).getD 0
        match writeC s r p.mi k (off / 4) (bytesF32 (d.length / 4) d) with
        | .error e => some (failWrite s r.tag p.mi e)
        | .ok t =>
          let left := ids.filter (fun y => y.1 != h.tag)
          if left.isEmpty then some (noteWritten (set t others) p k []) else some (set t (others ++ [(k, a, left)]))
    | _, _ => some s

/-- The deadline beat of a push whose program has not begun it (R290): 0 for none; nothing while the beat it counts from is
not known. -/
def pushDeadline (s : State) (key : Nat) : Option Nat :=
  let slot := key / 2 ^ 28
  let mi := key / 2 ^ 14 % 2 ^ 14
  match s.runs.find? (fun r => r.slot == slot && r.state != 3 && (r.walks.all (fun w => w.mi != mi || !w.set))) with
  | some r =>
    let m := r.mrec mi
    if m.flag 2 then (if r.launch = 0 ∧ r.started.isEmpty then none else some (beatOf r m)) else some m.beat
  | none =>
    match look slot s.slots with
    | some g => let m := g.recs.getD mi {}; if m.flag 2 then none else some m.beat
    | none => none

/-- The key of the next push of a record (R290): its number counts the pushes begun before it (log 45). -/
def nextKey (s : State) (slot mi : Nat) : Nat :=
  slot * 2 ^ 28 + mi * 2 ^ 14 + (match look slot s.slots with
    | some g => (look mi g.pushes).getD 0
    | none => 0)

/-- A deadline counts for a record's next push: one of an absolute beat always, one that its run gives when the next run to reach
the record would begin a push (R227, R290). -/
def pushDue (s : State) (slot mi : Nat) : Bool :=
  match look slot s.slots with
  | some g =>
    let m := g.recs.getD mi {}
    m.opcode == opGradPush && (!m.flag 2 || match s.tensor (g.refs.getD m.opA {}).handle with
      | some t => decide (m.imm0 ≤ t.stepCount + 1)
      | none => false)
  | none => false

/-- PUSH_DEADLINE (R293): beat D has begun on this rank and its push has not. -/
def execPushDeadline (key : Nat) (s : State) : Host.Outcome State Fault Refusal :=
  .next <|
    let slot := key / 2 ^ 28
    let mi := key / 2 ^ 14 % 2 ^ 14
    match pushDeadline s key with
    | none => s
    | some d =>
      if d = 0 ∨ s.beat.number < d ∨ key ≠ nextKey s slot mi ∨ !pushDue s slot mi then s
      else
        let s := ensurePush s key
        match pushAt s key s.group.rank with
        | none => s
        | some p =>
          if p.begun ∨ p.onTime.isSome then s
          else setLate s key d

/-! GRAD_PUSH. -/

/-- The beat by which a push is due, 0 when it has none (R290). -/
def dueBeat (r : Run) (m : MRec) : Nat := if m.beat = 0 ∧ !m.flag 2 then 0 else beatOf r m

/-- The push that a record begins on this rank's node, whose deadline is d, on time or late (R227, R293). -/
def pushOf (r : Run) (w : Walk) (n d : Nat) (e : List Nat) (late : Bool) (p : Push) : Push :=
  { p with
    tag := r.tag, mi := w.mi, store := r.handle (r.mrec w.mi).opA, cHandle := r.handle (r.mrec w.mi).opC, slices := n
    deadline := d, begun := true, onTime := some (!late), taken := if late then List.range n else [], extents := e }

/-- A push begins at this rank's node (R227, R293, R294): a late one clears its store, and slices that have passed are read
from an ancestor. -/
def startPush (s : State) (r : Run) (w : Walk) (key : Nat) (p : Push) (d : Nat) (late : Bool) : State :=
  let v := getView s r w.mi 0 0
  let n := sliceCount v
  let q := pushOf r w n d (getView s r w.mi 0 2).e late p
  let s := onPush s key p.node (fun _ => q)
  let s := s.onTensor q.store (fun t => { t with push := some { key := key, deadline := d, ownLate := late, viewChanged := p.viewChanged } })
  let s := if late then
      ((List.range n).foldl (fun s k => zeroSlice s (getView s r w.mi (slicePos v k) 0) k) s).bump Ctr.gradLateSlices 0 n
    else s
  let s := if late && p.onTime.isNone then setLate s key d else settleNode 16 s key p.node
  let s := (p.results.filter (fun x => decide (x.1 < n))).foldl (fun s x => askSlice (ancestors s 16 s.group.rank) s q x.1) s
  notePush s key

/-- The pushes of a record counted, and those of earlier ones that are over forgotten unless C still holds a slice of theirs;
the next one's node is there. -/
def nextPush (s : State) (r : Run) (w : Walk) (key : Nat) : State :=
  let s := { s with slots := s.slots.map (fun (g : Nat × Program) => if g.1 = r.slot then
      (g.1, { g.2 with pushes := put w.mi (((look w.mi g.2.pushes).getD 0 + 1) % 16384) g.2.pushes }) else g) }
  let old := fun (p : Push) => decide (p.key / 2 ^ 14 = key / 2 ^ 14) && p.key != key && !(p.node == s.group.rank && !p.begun)
    && (s.live p.tag).isNone && !(s.tensor p.cHandle).any (fun t => t.sliceKeys.any (fun x => x.2 == p.key))
  ensurePush { s with pushes := s.pushes.filter (fun p => !old p) } key

/-- A push begins (R227, R290, R293): on time, or late when its deadline beat has begun. -/
def beginPush (s : State) (r : Run) (w : Walk) : State :=
  let key := nextKey s r.slot w.mi
  let s := nextPush s r w key
  match pushAt s key s.group.rank with
  | none => s
  | some p =>
    let d := dueBeat r (r.mrec w.mi)
    startPush s r w key p d (match p.onTime with
      | some b => !b
      | none => decide (d ≠ 0 ∧ d ≤ s.beat.number))

/-- A run reaches a GRAD_PUSH (R227): the store's step count grows, and at N the push begins. -/
def reachPush (s : State) (r : Run) (w : Walk) : State :=
  let m := r.mrec w.mi
  match s.tensor (r.handle m.opA) with
  | none => s
  | some t =>
    let c := t.stepCount + 1
    if c < m.imm0 then s.onTensor t.handle (fun t => { t with stepCount := c })
    else beginPush (s.onTensor t.handle (fun t => { t with stepCount := 0 })) r w

/-- Every slice of C of a push is written (R294). -/
def pushWhole (s : State) (r : Run) (p : Push) : Bool :=
  (List.range p.slices).all (fun k => sliceDone s p (getView s r p.mi 0 2) k)

/-- GRAD_PUSH (R227, R290): the first position to reach it counts the step and may begin the push; without one, it completes
at once. -/
def execGradPush (t i p : Nat) (s : State) : Host.Outcome State Fault Refusal :=
  .next <| opCmd s t i p opGradPush fun s r w =>
    if w.set then s
    else
      let first := !r.walks.any (fun x => x.mi == i && x.set)
      let s := s.onWalk t i p (fun w => { w with set := true })
      let s := if first then reachPush s r w else s
      match ownPush s t i with
      | none => endWalk s t i p w.core
      | some q => if pushWhole s r q then endWalk s t i p w.core else s

/-- PUSH_COMPLETE (R294): every slice of C has been written. -/
def execPushComplete (key : Nat) (s : State) : Host.Outcome State Fault Refusal :=
  .next <|
    match pushAt s key s.group.rank with
    | none => s
    | some p =>
      match s.live p.tag with
      | none => s
      | some r =>
        if !p.begun || !pushWhole s r p || r.stopping.isSome then s
        else (r.walks.filter (fun w => w.mi == p.mi && w.set && !w.done)).foldl (fun s w => endWalk s p.tag p.mi w.pos w.core) s

/-! A rank dropped during a push. -/

/-- A push still has results to pass (R295). -/
def Push.open0 (p : Push) : Bool := !(p.begun && decide (p.slices ≤ p.results.length))

/-- The counts of children whose ranks were dropped are to be settled anew (R295). -/
def forgetCounts (s : State) (gone : List Nat) (p : Push) : Push :=
  (childNodes s p.node).foldl (fun p c => if gone.contains c.2 then p.setCount c.1 none else p) p

/-- One push after a view beat dropped ranks (R295): partials of their nodes not yet combined at the parent's are given up, and the
children of those nodes send again what has not been acknowledged. -/
def dropFrom (gone : List Nat) (s : State) (key : Nat) : State :=
  match pushAt s key s.group.rank with
  | none => s
  | some own =>
    let all := own.dropped ++ gone
    let away := fun (p : Push) (side : Nat) => (childNodes s p.node).any (fun c => c.1 == side && gone.contains c.2)
    let s := { s with pushes := mapIf (fun p => p.key == key) (fun p => { p with
      dropped := all, viewChanged := true, parts := p.parts.filter (fun x => !away p x.1), pieces := p.pieces.filter (fun x => !away p x.side) }) s.pushes }
    let s := addNodes s key all
    let s := { s with pushes := mapIf (fun p => p.key == key) (forgetCounts s gone) s.pushes }
    let s := (s.pushes.filter (fun p => p.key == key && p.node != 0 && gone.contains (parentOf p.node))).foldl (fun s p =>
      match p.settled, p.server s (parentOf p.node) with
      | some n, some r =>
        let s := if r = s.group.rank then onPush s key (parentOf p.node) (fun q => q.setCount (sideOf p.node) (some n))
          else sendStatus s r key p.node n
        let left := p.combined.filter (fun x => !p.acked.contains x.1)
        (left.foldl (fun s x => sendPart s p x.1 x.2.1 x.2.2) s).bump Ctr.gradViewResends 0 left.length
      | _, _ => s) s
    notePush (settleAll s key) key

/-- Every push in progress after a view beat dropped ranks (R295). -/
def dropRanks (s : State) (gone : List Nat) : State :=
  if gone.isEmpty then s
  else
    (((s.pushes.filter (fun p => p.node == s.group.rank && p.open0)).map (fun p => p.key)).eraseDups).foldl (dropFrom gone) s

end Sys2Proof.Machine
end

