-- ==== Sys2Proof/Machine/Route.lean ====
section
/-!
DEFINITION. The graph of group links: bundles (R281), the route table (R282), and the beat tree (R250).
-/

namespace Sys2Proof.Machine

/-- Up group links that carry transfers, each with the rank at its far end: those to a rank of the view once in service
(R277, R281). -/
def ownLinks (s : State) : List (Nat × Nat) :=
  (s.links.filter (fun l => l.2.state == 2 && l.2.isGroup && (l.2.inService || !(inView s && s.group.view.contains l.2.peerRank)))).map
    (fun l => (l.2.peerRank, l.1))

/-- Up group links, in service or not, each with the rank at its far end. -/
def ownGroupLinks (s : State) : List (Nat × Nat) :=
  (s.links.filter (fun l => l.2.state == 2 && l.2.isGroup)).map (fun l => (l.2.peerRank, l.1))

/-- Pairs of ranks joined by a group link: the device's own links, and what the other members report (R282). -/
def linkGraph (s : State) (own : List (Nat × Nat)) : List (Nat × Nat) :=
  own.map (fun l => (s.group.rank, l.1)) ++
    (s.group.edges.filter (fun e => e.1 != s.group.rank && e.2.1 != s.group.rank)).map (fun e => (e.1, e.2.1))

/-- Ranks joined to a rank. -/
def adjacent (g : List (Nat × Nat)) (r : Nat) : List Nat :=
  ((g.filter (fun e => e.1 == r || e.2 == r)).map (fun e => if e.1 = r then e.2 else e.1)).eraseDups

/-- Ranks reached so far, each with its hops and its first hop; one more layer at a time, through ranks that pass traffic on.
Of the shortest paths the one over the first hop of lowest rank is kept (R282). -/
def layers (g : List (Nat × Nat)) (pass : Nat → Bool) : Nat → Nat → List (Nat × Nat × Nat) → List (Nat × Nat × Nat)
  | 0, _, seen => seen
  | k + 1, h, seen =>
    let front := seen.filter (fun x => x.2.1 == h && (h == 0 || pass x.1))
    let found := front.flatMap (fun x => (adjacent g x.1).map (fun r => (r, if h = 0 then r else x.2.2)))
    let fresh := (found.filter (fun x => !seen.any (fun y => y.1 == x.1)))
    let ranks := (fresh.map (fun x => x.1)).eraseDups
    let next := ranks.map (fun r => (r, h + 1, ((fresh.filter (fun x => x.1 == r)).map (fun x => x.2)).foldl min 65535))
    if next.isEmpty then seen else layers g pass k (h + 1) (seen ++ next)

/-- Ranks within n hops of a rank, with hops and first hop. -/
def reached (g : List (Nat × Nat)) (pass : Nat → Bool) (from_ n : Nat) : List (Nat × Nat × Nat) :=
  layers g pass n 0 [(from_, 0, 0xFFFF)]

/-- The route table recomputed from the group links that the members report (R281, R282). In a view its ranks alone pass
traffic on. -/
def recompute (s : State) : State :=
  let own := ownLinks s
  let rs := (reached (linkGraph s own) (fun r => !inView s || s.group.view.contains r) s.group.rank 16).filter (fun x => x.1 != s.group.rank)
  { s with routes := rs.map (fun x =>
      { rank := x.1, hops := x.2.1, state := 2, next := x.2.2
        links := (own.filter (fun l => l.1 == x.2.2)).map (fun l => l.2) }) }

/-- The device is the keeper of its group. -/
def isKeeper (s : State) : Bool := s.group.rank == s.group.keeper && s.group.rank != 0xFFFF

/-- Depth of every rank in the beat tree: its hops from the keeper over group links (R250). -/
def depths (s : State) : List (Nat × Nat) :=
  (reached (linkGraph s (ownGroupLinks s)) (fun _ => true) s.group.keeper 8).map (fun x => (x.1, x.2.1))

/-- Order of beat parents: depth, then rank, then link (R250). -/
def parentLess (a b : Nat × Nat × Nat) : Bool :=
  decide (a.1 < b.1) || (a.1 == b.1 && (decide (a.2.1 < b.2.1) || (a.2.1 == b.2.1 && decide (a.2.2 < b.2.2))))

/-- A candidate put into its place. -/
def parentInsert (a : Nat × Nat × Nat) : List (Nat × Nat × Nat) → List (Nat × Nat × Nat)
  | [] => [a]
  | b :: l => if parentLess a b then a :: b :: l else b :: parentInsert a l

/-- The beat parent and up to two measured alternates are chosen (R250). A member deeper than 8 has none. -/
def setTree (s : State) : State :=
  if isKeeper s then { s with beat := { s.beat with parent := none, alternates := [], depth := 0 } }
  else
    let ds := depths s
    let cand := ((ownGroupLinks s).filterMap (fun l =>
      match look l.1 ds with
      | some d => if d < 8 then some (d, l.1, l.2) else none
      | none => none)).foldl (fun l a => parentInsert a l) []
    match cand with
    | [] => { s with beat := { s.beat with parent := none, alternates := [], depth := 8 } }
    | p :: rest =>
      let alt := (rest.filter (fun a => decide (a.1 ≤ p.1 + 1) && (s.link a.2.2).delay.isSome)).take 2
      { s with beat := { s.beat with
          parent := some (p.2.1, p.2.2), alternates := alt.map (fun a => (a.2.1, a.2.2)), depth := p.1 + 1 } }

/-- The rate of the source as the device learns it while it is locked: cc that passed against its time, since the learning
began (log 95). -/
def learnRate (s : State) (cc time : Nat) : State :=
  if s.beat.holdover then s
  else match s.beat.rateFrom with
  | none => { s with beat := { s.beat with rateFrom := some (cc, time) } }
  | some (c, t) =>
    if time ≤ t then s
    else
      let span : Int := (time : Int) - t
      { s with beat := { s.beat with rateCorr := (((cc : Int) - c) - span) * 1000000000 / span } }

/-! Reports of group links (R282). Each is flooded from neighbour to neighbour, so that it needs no route; a later one of a
rank replaces an earlier one (log 9). -/

/-- Ranks at the far ends of the device's group links. -/
def farRanks (s : State) : List Nat := ((ownLinks s).map (fun l => l.1)).eraseDups

/-- The body of a report: its rank, its number, and the ranks at the far ends of that rank's group links (log 9). -/
def linkBody (rank n : Nat) (far : List Nat) : List Byte := leBytes 2 rank ++ leBytes 4 n ++ far.flatMap (leBytes 2)

/-- A report told to every neighbour but one. -/
def tellNear (s : State) (skip : Nat) (body : List Byte) : State :=
  ((farRanks s).filter (fun r => r != skip)).foldl (fun s r => sendMgmt s r 12 body) s

/-- The device reports its group links. -/
def reportLinks (s : State) : State :=
  let s := { s with group := { s.group with reportNo := s.group.reportNo + 1 } }
  tellNear s 0xFFFF (linkBody s.group.rank s.group.reportNo (farRanks s))

/-- What the device knows of other ranks' group links, told to a neighbour that is new. -/
def tellKnown (s : State) (r : Nat) : State :=
  s.group.linkSeen.foldl (fun s e =>
    sendMgmt s r 12 (linkBody e.1 e.2 ((s.group.edges.filter (fun x => x.1 == e.1)).map (fun x => x.2.1)))) s

/-- The report of a rank's group links is kept, and routes and tree follow it (R282); it goes on to the other neighbours.
Links of the view that the rank no longer has are a link loss (R256). A report of the device's own rank from before it
began anew is answered by a later one. -/
def linkReport (s : State) (src rank n : Nat) (ranks : List Nat) : State :=
  if rank = s.group.rank then
    if s.group.reportNo < n then reportLinks { s with group := { s.group with reportNo := n } } else s
  else if n ≤ (look rank s.group.linkSeen).getD 0 then s
  else
    let lost := s.group.view.contains rank &&
      s.group.edges.any (fun e => e.1 == rank && s.group.view.contains e.2.1 && !ranks.contains e.2.1)
    let e := s.group.edges.filter (fun e => e.1 != rank) ++ ranks.map (fun r => (rank, r, 96))
    let s := setTree (recompute { s with group := { s.group with
      edges := e, linkSeen := put rank n s.group.linkSeen
      lossAt := if lost then some (s.group.lossAt.getD s.now) else s.group.lossAt } })
    tellNear s src (linkBody rank n ranks)

end Sys2Proof.Machine
end

