-- ==== Sys2Proof/Machine/Group.lean ====
section
/-!
DEFINITION. Groups: FORM_GROUP and formation (R235 to R239), identity records and disagreements (R240, R255), views
(R234, R242, R257, R259), splits, rejoining and re-forming (R256, R260, R261), and LEAVE_GROUP (R266).
-/

namespace Sys2Proof.Machine

/-! Digests of the members. -/

/-- The digest a member is known to have: its own, or the one last reported. -/
def knownDigest (s : State) (r : Nat) : Option (List Byte) :=
  if r = s.group.rank then some (configDigest s) else look r s.group.reports

/-- The body of a report of the device's digest: the digest and the beat (log 9). -/
def digestBody (s : State) : List Byte := configDigest s ++ leBytes 8 s.beat.number

/-- Some of these ranks are known to differ in digest, or the view is in HOLD and not all of them are known (R242). -/
def differ (s : State) (ranks : List Nat) : Bool :=
  let ds := ranks.filterMap (knownDigest s)
  ds.any (fun d => d != ds.headD []) || (s.group.state == 2 && decide (ds.length < ranks.length))

/-- The lowest of some ranks whose digest differs from the keeper's (Table 9.8), as the coordinator knows them; free where
none does, as when all differ from a group's parameter block alone (log 9). -/
def holdRank (s : State) (ranks : List Nat) (keeper : Nat) : Nat :=
  let l := match knownDigest s keeper with
    | some k => ranks.filter (fun r => match knownDigest s r with
        | some d => d != k
        | none => false)
    | none => []
  if l.isEmpty then Config.holdRank s.group.epoch else l.foldl min 65535

/-! Views. -/

/-- A view announcement's body (log 9). -/
def viewBody (v : ViewAnn) : List Byte :=
  leBytes 4 v.epoch ++ leBytes 2 v.keeper ++ leBytes 8 v.beat ++ leBytes 1 (b2n v.hold) ++ leBytes 128 (bitsMask v.ranks)
    ++ leBytes 2 v.differs

/-- The coordinator announces a view (R234): the next epoch, at the first beat at least 4 bt away. While one announced is
not yet in effect, no further one is announced. At formation the ranks left out are told too (R239). -/
def announce (s : State) (ranks : List Nat) (keeper : Nat) (hold : Bool) : State :=
  match s.group.next with
  | some _ => s
  | none =>
    let ranks := below 1024 (fun r => ranks.contains r)
    let v : ViewAnn := {
      epoch := s.group.epoch + 1, ranks := ranks, keeper := keeper, beat := beatAfter s 4, hold := hold
      differs := if hold then holdRank s ranks keeper else 0 }
    let others := below 1024 (fun r => r != s.group.rank && (ranks.contains r || s.group.view.contains r
      || (s.group.state == 1 && s.group.members.any (fun e => e.1 == r))))
    others.foldl (fun s r => sendMgmt s r 5 (viewBody v)) { s with group := { s.group with next := some v } }

/-- The device coordinates its view. -/
def coordinates (s : State) : Bool := inView s && coordinator s == s.group.rank

/-- The coordinator moves the view into HOLD or out of it when the digests say so (R242). -/
def checkHold (s : State) : State :=
  if coordinates s ∧ differ s s.group.view ≠ (s.group.state == 2) then
    announce s s.group.view s.group.keeper (s.group.state != 2)
  else s

/-- The keeper a view keeps or gets (R257). -/
def keeperOf (s : State) (ranks : List Nat) : Nat :=
  if ranks.contains s.group.keeper then s.group.keeper else ranks.foldl min 65535

/-- The view changes by ranks that leave it and ranks that join it (R234): it is announced at once, or after the one
announced has taken effect. -/
def changeView (s : State) (drops adds : List Nat) : State :=
  let after := fun (l : List Nat) => (l.filter (fun r => !drops.contains r)) ++ adds.filter (fun r => !l.contains r)
  match s.group.next with
  | some v =>
    if after v.ranks = v.ranks then s
    else { s with group := { s.group with
      drops := (s.group.drops ++ drops).eraseDups, adds := ((s.group.adds.filter (fun r => !drops.contains r)) ++ adds).eraseDups } }
  | none =>
    let ranks := after s.group.view
    if ranks = s.group.view then s else announce s ranks (keeperOf s ranks) (differ s ranks)

/-- The changes that waited for a view to take effect, then the agreement of its digests (R234, R242). -/
def nextChange (s : State) : State :=
  let (drops, adds) := (s.group.drops, s.group.adds)
  checkHold (changeView { s with group := { s.group with drops := [], adds := [] } } drops adds)

/-- A rank found fenced is left out of the view (R234, R255, R257): by the coordinator of the ranks that stay, whom a member
that finds it tells. -/
def dropMember (s : State) (r : Nat) (tell : Bool) : State :=
  if !s.group.view.contains r then s
  else
    let left := s.group.view.filter (fun x => x != r)
    let coord := keeperOf s left
    if coord = s.group.rank then changeView s [r] []
    else if tell then sendMgmt s coord 15 (leBytes 2 r)
    else s

/-- The coordinator announces the view without a rank that leaves (R266). -/
def leaveView (s : State) (r : Nat) : State := changeView s [r] []

/-- Once its runs have ended, a member that leaves asks the coordinator for a view without it (R266). -/
def askLeave (s : State) : State :=
  if s.group.leaveOrder.isNone ∨ s.group.leaveAsked ∨ !inView s ∨ s.runs.any (fun r => r.state != 3) then s
  else if coordinates s then leaveView { s with group := { s.group with leaveAsked := true } } s.group.rank
  else sendMgmt { s with group := { s.group with leaveAsked := true } } (coordinator s) 6 []

/-- LEAVE_GROUP's own part (R266). -/
def leaveGroupOwn (s : State) (o : Order) : State :=
  if s.group.state = 0 then complete s o ePlan []
  else if !inView s then complete (becomeSolo s) o eOk []
  else
    let s := beginOrder s o
    askLeave (endAllRuns { s with group := { s.group with leaveOrder := some (o.mailbox, o.number), leaveAsked := false } }
      eCancelled)

/-- LEAVE_GROUP (R266). -/
def execLeaveGroup (m n : Nat) (s : State) : Host.Outcome State Fault Refusal := .next (orderCmd s m n 0x0E leaveGroupOwn)

/-! Formation. -/

/-- The fields of the group parameter block are in range (Table 9.2, check G1). -/
def blockOk (b : List Byte) : Bool :=
  let n := field b 2 2
  let src := field b 6 1
  let ports := field b 7 1
  field b 0 2 == 1 && decide (1 ≤ n) && decide (n ≤ 1024) && decide (field b 4 2 < n) && decide (src ≤ 3)
    && (if src = 1 then decide (1 ≤ ports) && decide (ports ≤ 15) else ports == 0) && field b 8 8 != 0
    && decide (8 ≤ field b 0x18 1) && decide (field b 0x18 1 ≤ 16) && field b 0x19 1 == 0
    && decide (1 ≤ field b 0x1A 2) && decide (field b 0x1A 2 ≤ 60000)
    && decide (1024 ≤ field b 0x1C 4) && decide (field b 0x1C 4 ≤ 1048576)

/-- The member list's entries (R236): rank and serial. -/
def memberList (n : Nat) (d : List Byte) : List (Nat × Nat) :=
  (List.range n).map (fun i => (field d (16 * i) 2, field d (16 * i + 8) 8))

/-- The index of the first entry with nonzero reserved bytes (R236). -/
def memberReserved (n : Nat) (d : List Byte) : Option Nat := (below n (fun i => field d (16 * i + 2) 6 != 0)).head?

/-- The index of the first entry that breaks G2: a rank out of range or named before, a serial named before; when no entry
does and the own serial is missing, the number of entries. -/
def memberBad (n serial : Nat) (l : List (Nat × Nat)) : Option Nat :=
  match placeOf (fun (i : Nat) =>
      let e := l.getD i (0, 0)
      decide (n ≤ e.1) || (l.take i).any (fun x => x.1 == e.1 || x.2 == e.2)) (List.range n) with
  | some i => some i
  | none => if l.any (fun e => e.2 == serial) then none else some n

/-- G3 (Table 9.3): every selected port has PTP enabled. -/
def ptpEnabled (s : State) (ports : Nat) : Bool := (maskBits 4 ports).all (fun p => keyNum s (0x0540 + p) == 1)

/-- G4 (Table 9.3). -/
def canForm (s : State) : Bool :=
  (s.group.state == 0 || s.group.state == 4) && s.runs.all (fun r => r.state == 3) && s.txn.state == 0

/-- The record names this group and a rank and serial of the member list (R238, R255). -/
def listed (s : State) (d : List Byte) : Bool :=
  field d 0x18 8 == s.group.groupId && s.group.members.contains (field d 4 2, field d 8 8)

/-- The serial comes from a second device: the own one, or one seen on another link from a sender that differs in rank, or
from the same link number of the sender (R255). -/
def duplicate (s : State) (l : Nat) (d : List Byte) : Bool :=
  let serial := field d 8 8
  serial == s.trust.serial || s.links.any (fun k => k.1 != l && k.2.state == 2 && field k.2.peer 8 8 == serial
    && !k.2.peer.isEmpty && (field k.2.peer 4 2 != field d 4 2 || field k.2.peer 0x17 1 == field d 0x17 1))

/-- The link of an admitted record is a group link (R238). -/
def admitLink (s : State) (l : Nat) (d : List Byte) : State :=
  s.onLink l (fun k => { k with isGroup := true, peerRank := field d 4 2, peerSerial := field d 8 8 })

/-- The links up whose record, received before, names this group and firmware are its group links (R238). -/
def classLinks (s : State) : State :=
  (s.links.filter (fun k => k.2.state == 2 && !k.2.peer.isEmpty)).foldl (fun s k =>
    if listed s k.2.peer && !duplicate s k.1 k.2.peer && slice k.2.peer 0x10 2 == slice (fwVersion s) 0 2 then
      admitLink s k.1 k.2.peer
    else s) s

/-- An accepted FORM_GROUP (R237, R238, R269): the keys, then FORMING with the rank of the own entry. -/
def startForming (s : State) (o : Order) (b : List Byte) (l : List (Nat × Nat)) : State :=
  let s := applyKey s 1 (slice b 0x18 1)
  let s := applyKey s 2 (slice b 0x1C 4)
  let s := s.zeroTables (fun t => t == 0x090A)
  let rank := ((l.find? (fun e => e.2 == s.trust.serial)).getD (0, 0)).1
  let s := beginOrder s o
  let s := becomeSolo s
  reportLinks <| setTree <| recompute <| classLinks { s with group := {
    state := 1, rank := rank, keeper := field b 4 2, groupId := field b 8 8, epoch := 0, members := l
    source := field b 6 1, ptpPorts := field b 7 1, origin := field b 0x10 8, formTimeout := field b 0x1A 2
    ptpTime := field b 0x10 8
    formAt := s.now, expDigest := slice b 0x20 32, formOrder := some (o.mailbox, o.number) } }

/-- FORM_GROUP's own part (R237): G1 to G4 in order. -/
def formGroupOwn (d : Option (List Byte)) (s : State) (o : Order) : State :=
  let b := slice o.bytes 0x28 64
  let n := field b 2 2
  if !blockOk b then refuse s o ePlan 0x47 1 0
  else
    let s := hostAsk s o
    match hostRead s o d (16 * n) with
    | none => complete s o eDataLost []
    | some m =>
      let l := memberList n m
      match memberReserved n m, memberBad n s.trust.serial l with
      | some i, _ => refuse s o ePlan 0x47 1 i
      | none, some i => refuse s o ePlan 0x47 2 i
      | none, none =>
        if field b 6 1 = 1 ∧ !ptpEnabled s (field b 7 1) then refuse s o ePlan 0x47 3 0
        else if !canForm s then refuse s o ePlan 0x47 4 0
        else startForming s o b l

/-- FORM_GROUP (R237). -/
def execFormGroup (m n : Nat) (d : Option (List Byte)) (s : State) : Host.Outcome State Fault Refusal :=
  .next (orderCmd s m n 0x0D (formGroupOwn d))

/-- The keeper's beat can be followed: its source is FREE, or locked (R245). -/
def sourceReady (s : State) : Bool := s.group.source == 0 || s.beat.sourceLocked

/-- The ranks that have reported lock to the keeper, its own included (R238). -/
def reported (s : State) : List Nat :=
  (s.group.members.map (fun e => e.1)).filter (fun r =>
    if r = s.group.rank then sourceReady s else (look r s.group.reports).isSome)

/-- Some digest reported differs from the block's (R239). -/
def formHold (s : State) (ranks : List Nat) : Bool :=
  ranks.any (fun r => knownDigest s r != some s.group.expDigest)

/-- FORM_GROUP that waits completes (R239). -/
def endForm (s : State) (st : BitVec 8) (absent rank epoch : Nat) : State :=
  let w := s.group.formOrder
  endWaiting { s with group := { s.group with formOrder := none } } w st (formDetail absent rank epoch)

/-- Formation ends without a view: SOLO (R239). -/
def formFails (s : State) (st : BitVec 8) : State :=
  becomeSolo (endForm s st (s.group.members.length - (reported s).length) 0xFFFF 0)

/-- FORMATION_END (R239): on the keeper, once every listed rank is locked and has reported. -/
def execFormationEnd (s : State) : Host.Outcome State Fault Refusal :=
  .next <|
    if s.group.state ≠ 1 ∨ !isKeeper s then s
    else
      let r := reported s
      if r.length < s.group.members.length then s else announce s r s.group.keeper (formHold s r)

/-- FORM_TIMEOUT (R239). -/
def execFormTimeout (s : State) : Host.Outcome State Fault Refusal :=
  .next <|
    if s.group.state ≠ 1 then s
    else
      match s.group.next with
      | some v =>
        if v.ranks.contains s.group.rank then s
        else
          let s := endForm s (if v.hold then eGroupConfig else eOk) (s.group.members.length - v.ranks.length) s.group.rank v.epoch
          { s with group := { s.group with state := 4, epoch := v.epoch, keeper := v.keeper, lastView := v.ranks, next := none } }
      | none =>
        let r := reported s
        if isKeeper s ∧ s.group.members.length < 2 * r.length then announce s r s.group.keeper (formHold s r)
        else formFails s eLate

/-! Identity records. -/

/-- The body of the identity record (Table 9.4) with a beat field. -/
def identityBody (s : State) (l beat : Nat) : List Byte :=
  let g := s.group
  leBytes 2 1 ++ leBytes 1 g.state ++ leBytes 1 (groupFlags s) ++ leBytes 2 g.rank ++ leBytes 2 g.keeper
    ++ leBytes 8 s.trust.serial ++ fwVersion s ++ leBytes 1 (keyNum s 1) ++ leBytes 1 l ++ leBytes 8 g.groupId
    ++ leBytes 4 g.epoch ++ leBytes 4 0 ++ leBytes 8 beat ++ configDigest s ++ leBytes 16 0

/-- A control record (R279) put ahead of the data frames of a link. -/
def pushCtl (s : State) (l ty : Nat) (body : List Byte) : State :=
  s.onLink l (fun k => { k with ctlQ := k.ctlQ ++ [leBytes 1 ty ++ leBytes 1 0 ++ leBytes 2 body.length ++ body] })

/-- IDENTITY_SEND (R240): when the link comes up, every 256 bt after that, and when a field other than beat has changed;
during an Imion restart it waits (R414). -/
def execIdentitySend (l : Nat) (s : State) : Host.Outcome State Fault Refusal :=
  .next <|
    if (s.link l).state ≠ 2 ∨ s.health.imionStopped then s
    else
      let b := identityBody s l 0
      if (s.link l).idSent = b ∧ s.beat.number < (s.link l).idBeat + 256 then s
      else pushCtl (s.onLink l (fun k => { k with idSent := b, idBeat := s.beat.number })) l 1 (identityBody s l s.beat.number)

/-- The record is refused: the link carries no group traffic (Table 9.7). -/
def refuseRecord (s : State) (l : Nat) : State :=
  (s.onLink l (fun k => { k with isGroup := false })).bump Ctr.foreignRecords 0 1

/-- One serial number from two devices (Table 9.7): neither is admitted. -/
def duplicateSerial (s : State) (l : Nat) (d : List Byte) : State :=
  let serial := field d 8 8
  let s := refuseRecord s l
  let here := fun (k : Nat × Link) => field k.2.peer 8 8 == serial && !k.2.peer.isEmpty
  let off := fun (k : Nat × Link) => (k.1, { k.2 with isGroup := false })
  let s := { s with links := mapIf here off s.links }
  let s := postEvent s 0x0C (items [field d 4 2])
  if serial = s.trust.serial then fenceSelf s 6 else s

/-- A report of a member's digest is kept (R238, R242). -/
def noteDigest (s : State) (r : Nat) (d : List Byte) : State :=
  { s with group := { s.group with reports := put r d s.group.reports } }

/-- The link brings the marks of the device's beat parent (R250). -/
def fromParent (s : State) (l : Nat) : Bool :=
  match s.beat.parent with
  | some p => p.2 == l
  | none => false

/-- A digest that a rank reports in a beat (R238, R242): one from before a group commit is out of date (R264). -/
def takeDigest (s : State) (rank : Nat) (d : List Byte) (beat : Nat) : State :=
  if beat < s.group.digestFrom then s else checkHold (noteDigest s rank d)

/-- A neighbour whose record shows it outside the view, or in an older one, is left out of the view (R234, R255). In the
first 4 bt of a view the record may be from before it, and drops nobody (log 9). -/
def dropStray (s : State) (d : List Byte) : State :=
  let view := field d 2 1 == 2 || field d 2 1 == 3
  if (!view ∨ field d 0x20 4 < s.group.epoch) ∧ s.group.viewBeat + 4 ≤ s.beat.number then dropMember s (field d 4 2) true else s

/-- Once those 4 bt are over, the last record of every neighbour is looked at again. -/
def recheck (s : State) : State :=
  if inView s ∧ s.beat.number = s.group.viewBeat + 4 then
    (s.links.filter (fun l => l.2.state == 2 && l.2.isGroup)).foldl (fun s l => dropStray s l.2.peer) s
  else s

/-- What a member does on an admitted record that disagrees with its own state (Table 9.7). A FENCED device keeps the digests of those it may
re-form with (R261), and follows the keeper of a newer view, to rejoin it (R258, R260). -/
def disagree (s : State) (l : Nat) (d : List Byte) : State :=
  let rank := field d 4 2
  let epoch := field d 0x20 4
  let view := field d 2 1 == 2 || field d 2 1 == 3
  let coming := match s.group.next with
    | some v => v.epoch == epoch
    | none => false
  if s.group.state = 4 then
    let s := noteDigest s rank (slice d 0x30 32)
    if view ∧ s.group.epoch ≤ epoch ∧ field d 6 2 ≠ s.group.keeper ∧ field d 6 2 ≠ s.group.rank then
      setTree { s with group := { s.group with keeper := field d 6 2 } }
    else s
  else if !inView s then s
  else if field d 0x16 1 ≠ keyNum s 1 ∧ (rank = s.group.keeper ∨ fromParent s l) ∧ !isKeeper s then fenceSelf s 3
  else if view ∧ s.group.epoch < epoch ∧ !coming then fenceSelf s 2
  else if view ∧ bit (field d 3 1) 0 ∧ isKeeper s ∧ epoch = s.group.epoch ∧ rank < s.group.rank then
    postEvent (setTree { s with group := { s.group with keeper := rank, viewKeeper := rank } }) 0x06 (items [rank])
  else if view ∧ epoch = s.group.epoch ∧ s.group.view.contains rank then takeDigest s rank (slice d 0x30 32) (field d 0x28 8)
  else dropStray s d

/-- IDENTITY (R238, R239, R255): an identity record arrives on a link. The members of a view have the keeper's firmware
major version, so a forming device that meets one of another version ends SOLO, as when it meets the keeper. -/
def execIdentity (l : Nat) (d : List Byte) (s : State) : Host.Outcome State Fault Refusal :=
  .next <|
    let s := (s.onLink l (fun k => { k with peer := d })).bump Ctr.identityRecords 0 1
    if s.group.state = 0 then s
    else if duplicate s l d then duplicateSerial s l d
    else if !listed s d then refuseRecord s l
    else if slice d 0x10 2 ≠ slice (fwVersion s) 0 2 then
      let s := refuseRecord s l
      if s.group.state = 1 ∧ (field d 4 2 = s.group.keeper ∨ field d 2 1 = 2 ∨ field d 2 1 = 3) then formFails s eGroupVersion else s
    else
      let fresh := !(s.link l).isGroup || (s.link l).peerRank != field d 4 2
      let s := admitLink s l d
      let s := if fresh then reportLinks (tellKnown (setTree (recompute s)) (field d 4 2)) else setTree s
      disagree s l d

/-! A view takes effect. -/

/-- VIEW_ANNOUNCEMENT (R234): a member keeps a view announced by the coordinator until its view beat. A FENCED device
keeps only one that names it. -/
def takeView (epoch : Nat) (ranks : List Nat) (keeper beat : Nat) (hold : Bool) (differs : Nat) (s : State) : State :=
  if s.group.state = 0 ∨ epoch ≤ s.group.epoch ∨ (s.group.state = 4 ∧ !ranks.contains s.group.rank) then s
  else { s with group := { s.group with
      next := some { epoch := epoch, ranks := ranks, keeper := keeper, beat := beat, hold := hold
                     differs := if hold then differs else 0 } } }

/-- VIEW_ANNOUNCEMENT: see takeView. -/
def execViewAnnouncement (epoch : Nat) (ranks : List Nat) (keeper beat : Nat) (hold : Option Nat) (s : State) :
    Host.Outcome State Fault Refusal :=
  .next (takeView epoch ranks keeper beat hold.isSome (hold.getD 0) s)

/-- The view's own part of its beat: membership, keeper, states and their events (R234, R242, R257, R260). -/
def enterView (s : State) (v : ViewAnn) : State :=
  let old := s.group
  let gone := old.view.filter (fun r => !v.ranks.contains r)
  let first := decide (old.state = 1)
  let s := { s with
    group := { old with
      state := if v.hold then 2 else 3, epoch := v.epoch, view := v.ranks, lastView := v.ranks, keeper := v.keeper
      viewKeeper := v.keeper, next := none, leaveAsked := false
      reports := if v.keeper = old.viewKeeper then old.reports else old.reports.filter (fun x => x.1 != old.rank) }
    links := s.links.map (fun (l : Nat × Link) => (l.1, { l.2 with inService := l.2.state == 2 && l.2.isGroup }))
    beat := if first && old.source == 0 then { s.beat with number := old.origin, rateFrom := none } else s.beat }
  let s := { s with group := { s.group with viewBeat := s.beat.number } }
  let s := (postEvent s 0x01 (items [v.ranks.length])).bump Ctr.viewChanges 0 1
  let s := if old.state = 4 then postEvent s 0x05 [] else s
  let s := if v.keeper ≠ old.viewKeeper ∧ !first ∧ v.keeper = s.group.rank then
      let s := if s.group.source ≠ 0 ∧ !s.beat.holdover then s.bump Ctr.holdoverEntries 0 1 else s
      postEvent { s with beat := { s.beat with
        holdover := s.group.source != 0, sourceLocked := false, slewing := false, locked := false, srcErr := 0, missed := 0 } }
        0x06 (items [v.keeper])
    else s
  let s := if v.hold ∧ old.state ≠ 2 then postEvent s 0x02 (items [v.differs])
    else if !v.hold ∧ old.state = 2 then postEvent s 0x03 []
    else s
  let s := setTree (recompute s)
  let s := reportLinks s
  let s := if first then
      endForm s (if v.hold then eGroupConfig else eOk) (s.group.members.length - v.ranks.length) s.group.rank v.epoch
    else s
  nextChange (dropRanks s gone)

/-- The view without this device (R266, R258). -/
def leftOut (s : State) : State :=
  if s.group.leaveOrder.isSome then
    let s := postEvent s 0x0D []
    becomeSolo (endLeave { s with routes := [] })
  else fenceSelf s 1

/-- VIEW_BEAT (R234): the first cc of the beat at which an announced view takes effect. -/
def execViewBeat (s : State) : Host.Outcome State Fault Refusal :=
  .next <|
    match s.group.next with
    | none => s
    | some v =>
      if s.beat.number < v.beat then s
      else if v.ranks.contains s.group.rank then enterView s v
      else if s.group.state = 1 then s
      else leftOut { s with group := { s.group with next := none } }

/-! Splits, rejoining and re-forming. -/

/-- SPLIT_SIDE (R256, R282): 300 µs after a link loss each member knows its side. -/
def execSplitSide (edges : List (Nat × Nat × Nat)) (s : State) : Host.Outcome State Fault Refusal :=
  .next <|
    if s.group.lossAt.isNone ∨ !inView s then s
    else
      let s := { s with group := { s.group with edges := edges, lossAt := none } }
      let s := setTree (recompute s)
      let g := (linkGraph s (ownLinks s)).filter (fun e => s.group.view.contains e.1 && s.group.view.contains e.2)
      let reach := (reached g (fun _ => true) s.group.rank 1024).map (fun x => x.1)
      let side := s.group.view.filter (fun r => reach.contains r)
      if side.length = s.group.view.length then s
      else if s.group.view.length < 2 * side.length then
        let coord := if side.contains s.group.keeper then s.group.keeper else side.foldl min 65535
        if coord = s.group.rank then changeView s (s.group.view.filter (fun r => !side.contains r)) [] else s
      else { s with group := { s.group with fenceBeat := some (beatAfter s 4) } }

/-- FENCE_BEAT (R256): a member of a side that does not continue fences itself. -/
def execFenceBeat (s : State) : Host.Outcome State Fault Refusal :=
  .next <|
    match s.group.fenceBeat with
    | some b => if b ≤ s.beat.number then fenceSelf s 1 else s
    | none => s

/-- REJOIN (R260): the coordinator brings back a fenced or absent member that meets every condition. -/
def execRejoin (rank hops major : Nat) (lockedBt : Nat) (digest : List Byte) (s : State) : Host.Outcome State Fault Refusal :=
  .next <|
    if !coordinates s ∨ s.group.view.contains rank ∨ !s.group.members.any (fun e => e.1 == rank) ∨ 8 < hops
        ∨ leBytes 2 major ≠ slice (fwVersion s) 0 2 ∨ lockedBt < 16
        ∨ (knownDigest s s.group.keeper).getD (configDigest s) ≠ digest then s
    else changeView (noteDigest s rank digest) [] [rank]

/-- REFORM (R261): fenced members that hold more than half of the last view's ranks form the next one; its lowest rank is
the keeper and announces it, every other member reports its digest to that keeper and follows its beat. -/
def execReform (ranks : List Nat) (epoch : Nat) (s : State) : Host.Outcome State Fault Refusal :=
  .next <|
    let here := below 1024 (fun r => ranks.contains r && s.group.lastView.contains r)
    if epoch ≠ s.group.epoch + 1 ∨ s.group.state ≠ 4 ∨ !here.contains s.group.rank ∨ 2 * here.length ≤ s.group.lastView.length then s
    else
      let k := here.headD 0
      let s := setTree (recompute { s with group := { s.group with keeper := k } })
      if k = s.group.rank then announce s here k (differ s here) else sendMgmt s k 10 (digestBody s)

end Sys2Proof.Machine
end

