-- ==== Sys2Proof/Machine/Mcast.lean ====
section
/-!
DEFINITION. Multicast (R285 to R289): MCAST's start and roles, the flow of chunks to the children, holds, detached children
and their catch-up reads, and completion. A ROTATE send is a multicast of its position's core.
-/

namespace Sys2Proof.Machine

/-- The multicast of a key: an MCAST's at position 0, a ROTATE send's at the position that sends. -/
def mcAt (s : State) (key pos : Nat) : Option Mc := s.mcs.find? (fun m => m.key == key && m.pos == pos)

/-- A multicast replaced. -/
def setMc (s : State) (m : Mc) : State :=
  { s with mcs := mapIf (fun x => x.key == m.key && x.pos == m.pos) (fun _ => m) s.mcs }

/-- The multicast key (R285). -/
def mcKey (slot mi beat : Nat) : Nat := slot * 2 ^ 28 + mi * 2 ^ 14 + beat % 2 ^ 14

/-- The name of a chunk: its team position and its number in the footprint (R285). -/
def chunkId (pos n : Nat) : Nat := pos * 2 ^ 40 + n

/-- The team position of a chunk. -/
def chunkPos (c : Nat) : Nat := c / 2 ^ 40

/-- The offset of a chunk's first byte in the footprint, or in the slice of a ROTATE send. -/
def chunkOff (c : Nat) : Nat := 65536 * (c % 2 ^ 40)

/-- Bytes of chunk c. -/
def Mc.len (m : Mc) (c : Nat) : Nat := (look c (m.chunks.zip m.chunkLens)).getD 0

/-- Bytes of some chunks. -/
def Mc.bytes (m : Mc) (l : List Nat) : Nat := (l.map m.len).sum

/-- A child is attached: neither detached nor failed. -/
def Child.attached (c : Child) : Bool := c.detachedAt.isNone && !c.failed

/-- The children that keep a chunk from being sent (R286): attached, and 256 KiB behind with it. -/
def Mc.behind (m : Mc) (c : Nat) : List Child :=
  m.children.filter (fun x => x.attached && decide (262144 + m.bytes x.acked < m.bytes m.sent + m.len c))

/-- Every child has acknowledged every chunk or has failed (R288). -/
def Mc.settled (m : Mc) : Bool := m.children.all (fun x => x.failed || m.chunks.all (fun c => x.acked.contains c))

/-- The next chunk of a position to send: the first not sent, once a receiver has it (R286). -/
def Mc.next (m : Mc) (p : Nat) : Option Nat :=
  match m.chunks.find? (fun c => chunkPos c == p && !m.sent.contains c) with
  | some c => if m.parent.isSome && !m.got.contains c then none else some c
  | none => none

/-- The positions from which a multicast sends. -/
def Mc.froms (m : Mc) : List Nat := if m.rotate then [0] else m.places.map (fun x => x.1)

/-- A multicast may send from a position (R286, R192, R198): its start beat has begun and its run goes on; a ROTATE send
already begun finishes. -/
def mcGoes (s : State) (m : Mc) (p : Nat) : Bool :=
  m.begun && decide (m.startBeat ≤ s.beat.number) &&
    (match s.live m.tag with
     | some r => m.rotate || (r.stopping.isNone && runIssues s r p)
     | none => false)

/-- Bytes of a range of LOCAL pages as the hub reads them, once DDR serves them; other pages are not read (log 43). -/
def hubRead (s : State) (a n : Nat) : Except RdErr (List Byte) := do
  if rangeBusy s a n false then .error .wait
  let ps ← (cutRange (n / 4096 + 3) a n).mapM (fun x =>
    let (kind, _, _, t, _) := xlate s (pageOf x.1)
    if kind ≠ 1 then .error .wait
    else
      match ddrRead s (t + x.1 % 2097152) x.2 with
      | some d => .ok d
      | none => .error .lost)
  .ok ps.flatten

/-- Every page of a range is LOCAL. -/
def rangeLocal (s : State) (a n : Nat) : Bool := (unitsOf 2097152 a n).all (fun p => (xlate s p).1 == 1)

/-- Bytes of a chunk from an offset in it on, at its sender (R285, R286, R289): of A at the root, of C at a receiver (as it
arrived, or as C holds it), of the buffer of a ROTATE send. -/
def mcData (s : State) (m : Mc) (c off n : Nat) : Except RdErr (List Byte) :=
  let at0 := chunkOff c + off
  if m.rotate then
    match shelfRead s m.core (m.base + at0) n with
    | some d => .ok d
    | none => .error .lost
  else
    match s.live m.tag, look c m.kept with
    | none, _ => .error .wait
    | some _, some d => .ok (slice d off n)
    | some r, none =>
      let v := getView s r m.mi (chunkPos c) (if m.parent.isNone then 0 else 2)
      if m.parent.isNone then
        (if v.d.placement = 0 then shelfFor s v v.core (v.d.base + at0) n else landedFor s v (v.d.base + at0) n)
      else if v.d.placement = 0 then
        match shelfRead s v.core (v.d.base + at0) n with
        | some d => .ok d
        | none => .error .lost
      else hubRead s (v.d.base + at0) n

/-- The tensor address at which the hub reads a chunk's bytes, where mcData reads them in DDR. -/
def hubPlace (s : State) (m : Mc) (c off : Nat) : Option Nat :=
  match s.live m.tag with
  | none => none
  | some r =>
    let v := getView s r m.mi (chunkPos c) 2
    if m.rotate || m.parent.isNone || (look c m.kept).isSome || v.d.placement != 1 then none
    else some (v.d.base + chunkOff c + off)

/-- BYTES_READ of what mcData reads in DDR (R320). -/
def countChunk (s : State) (m : Mc) (c off n : Nat) : State :=
  match hubPlace s m c off with
  | some a => countRange s a n
  | none => s

/-- What mcData reads in DDR has to wait for it. -/
def chunkBusy (s : State) (m : Mc) (c off n : Nat) : Bool :=
  match hubPlace s m c off with
  | some a => rangeBusy s a n false
  | none => false

/-- The header of a piece of a chunk to a child (R280, R289, log 9). An MCAST's address is position and byte offset; that of a
ROTATE send is the receiving core, the offset in the slice and the shelf offset, and its tag the chunk, the sending core, the
size of the slice and the step. -/
def pieceHdr (s : State) (m : Mc) (x : Child) (c off n : Nat) : Hdr :=
  let at0 := chunkOff c + off
  if m.rotate then
    { ownHdr s 0x06 x.rank with
      key := m.key, space := 1, length := n, address := x.core * 2 ^ 56 + at0 * 2 ^ 24 + (m.target + at0) % 2 ^ 24
      tag := c + 64 * m.core + 8192 * (m.bytes m.chunks / 4096) + 2 ^ 24 * (m.step % 256) }
  else { ownHdr s 0x06 x.rank with key := m.key, length := n, address := chunkPos c * 2 ^ 56 + at0 }

/-- A chunk sent to one child as MC_DATA of 32 to 4,096 bytes (R280, R286), the last filled up with zeros; a child on this
device takes its slice by ROTATE_RECEIVE. -/
def sendChunk (s : State) (m : Mc) (c : Nat) (d : List Byte) (x : Child) : State :=
  if x.rank = 0xFFFF then s
  else
    (List.range (cdiv d.length 4096)).foldl (fun s i =>
      let b := (d.drop (4096 * i)).take 4096
      let b := b ++ List.replicate (32 - b.length) 0
      (sendTransfer s 2 (pieceHdr s m x c (4096 * i) b.length) b).1) (s.bump Ctr.mcastBytesSent 0 d.length)

/-- The hold of a multicast noted (R286): it lasts while an attached child is at the limit. -/
def noteHold (s : State) (key pos : Nat) : State :=
  match mcAt s key pos with
  | none => s
  | some m =>
    let held := m.froms.any (fun p => mcGoes s m p && (match m.next p with
      | some c => !(m.behind c).isEmpty
      | none => false))
    let since := if held then some (m.holdSince.getD s.beat.number) else none
    if since = m.holdSince then s else setMc s { m with holdSince := since }

/-- A chunk received is forgotten once it is sent on, where C can give its bytes again. -/
def trimKept (s : State) (m : Mc) : Mc :=
  match s.live m.tag with
  | none => m
  | some r =>
    { m with kept := m.kept.filter (fun x =>
        let v := getView s r m.mi (chunkPos x.1) 2
        !(m.sent.contains x.1 && m.written.contains x.1 &&
          (v.d.placement != 1 || rangeLocal s (v.d.base + chunkOff x.1) x.2.length))) }

/-- Chunks of a position sent as far as the children allow (R286). -/
def pumpFrom (key pos p : Nat) : Nat → State → State
  | 0, s => s
  | f + 1, s =>
    match mcAt s key pos with
    | none => s
    | some m =>
      match m.next p with
      | none => s
      | some c =>
        if !mcGoes s m p || !(m.behind c).isEmpty then s
        else
          match mcData s m c 0 (m.len c) with
          | .error e =>
            if m.rotate && e == .lost then failMacro s m.tag m.mi eDataLost
            else failRead s m.tag m.mi ((look p m.places).getD m.core) e
          | .ok d =>
            let s := (m.children.filter Child.attached).foldl (fun s x => sendChunk s m c d x) (countChunk s m c 0 (m.len c))
            let s := if m.rotate || m.parent.isSome then s else reach s m.tag m.mi p [0] (c % 2 ^ 40)
            pumpFrom key pos p f (setMc s (trimKept s { m with sent := m.sent ++ [c] }))

/-- Chunks sent from every position as far as the children allow (R286). -/
def pump (s : State) (key pos : Nat) : State :=
  match mcAt s key pos with
  | none => s
  | some m => noteHold (m.froms.foldl (fun s p => pumpFrom key pos p (m.chunks.length + 1) s) s) key pos

/-- Every multicast of this device pumped. -/
def pumpAll (s : State) : State := s.mcs.foldl (fun s m => pump s m.key m.pos) s

/-- A child detached (R287): counted, and told by a DETACH; one of a ROTATE send is told core and step too (log 9). -/
def detachChild (s : State) (m : Mc) (rank core : Nat) : State :=
  let here := fun (c : Child) => c.rank == rank && c.core == core
  let s := setMc s { m with children := mapIf here (fun c => { c with detachedAt := some s.beat.number }) m.children, holdSince := none }
  sendMgmt (s.bump Ctr.mcastDetached 0 1) rank 8 (leBytes 4 m.key ++ (if m.rotate then leBytes 1 core ++ leBytes 1 (m.step % 256) else []))

/-- The role of a position in an MCAST (R285): the parent's rank of a receiver. Any other first page makes a root
(log 47). -/
def mcParent (s : State) (v : View) : Option Nat :=
  if mcReceives s opMcast v then some (xlate s (pageOf v.d.base)).2.2.1 else none

/-- The multicast of a device whose MCAST starts, with the children that joined before (R286, R287): one that joined after the
start beat is detached, and a receiver sends its JOIN. -/
def mcOpen (s : State) (r : Run) (mi key : Nat) (parent : Option Nat) : State :=
  let b := beatOf r (r.mrec mi)
  let kids := match mcAt s key 0 with
    | some x => x.children
    | none => []
  let mc : Mc := { key := key, tag := r.tag, mi := mi, parent := parent, startBeat := b, stall := (r.mrec mi).imm0, children := kids, begun := true }
  let s := { s with
    mcs := s.mcs.filter (fun (x : Mc) => !(x.key == key && x.pos == 0)) ++ [mc]
    mcOver := s.mcOver.filter (fun x => x.1 != key) }
  let s := kids.foldl (fun s x =>
    match mcAt s key 0 with
    | some y => if b < x.joinedAt then detachChild s y x.rank x.core else s
    | none => s) s
  match parent with
  | some p => sendMgmt s p 7 (leBytes 4 key)
  | none => s

/-- MCAST on a position (R285, R286): extents compared, the role taken and the position's chunks added. -/
def mcStart (s : State) (r : Run) (w : Walk) : State :=
  let a := getView s r w.mi w.pos 0
  let c := getView s r w.mi w.pos 2
  if (List.range 6).any (fun i => a.ex i != c.ex i) then failMacro s r.tag w.mi ePlan
  else if mcBytes a = 0 then endWalk s r.tag w.mi w.pos w.core
  else
    let key := mcKey r.slot w.mi (beatOf r (r.mrec w.mi))
    let s := s.onWalk r.tag w.mi w.pos (fun w => { w with set := true })
    let s := if (mcAt s key 0).any (fun x => x.begun && x.tag == r.tag) then s else mcOpen s r w.mi key (mcParent s a)
    match mcAt s key 0 with
    | none => s
    | some m =>
      let ch := mcChunks a
      pump (setMc s { m with
        places := m.places ++ [(w.pos, w.core)], chunks := m.chunks ++ ch.map (fun x => chunkId w.pos x.1)
        chunkLens := m.chunkLens ++ ch.map (fun x => x.2.2) }) key 0

/-- A chunk that a receiver has whole is written into C: on the shelves at once, in MEM once its writes are acknowledged. -/
def chunkDone (s : State) (r : Run) (m : Mc) (c : Nat) : Bool :=
  let v := getView s r m.mi (chunkPos c) 2
  v.d.placement != 1 || !writing s m.tag m.mi 2 (v.d.base + chunkOff c) (m.len c)

/-- Chunks acknowledged to the parent as they are written into C (R286). -/
def ackChunks (s : State) (key : Nat) : State :=
  match mcAt s key 0 with
  | none => s
  | some m =>
    match s.live m.tag, m.parent with
    | some r, some p =>
      let done := m.got.filter (fun c => !m.written.contains c && chunkDone s r m c)
      if done.isEmpty then s
      else
        let s := done.foldl (fun s c =>
          (sendTransfer s 2 { ownHdr s 0x07 p with key := key, address := chunkPos c * 2 ^ 56 + chunkOff c } []).1) s
        setMc s (trimKept s { m with written := m.written ++ done })
    | _, _ => s

/-- MCAST (R285): it starts, and goes on acknowledging what it has written and sending what it has. -/
def execMcast (t i p : Nat) (s : State) : Host.Outcome State Fault Refusal :=
  .next <| opCmd s t i p opMcast fun s r w =>
    if w.set then
      match s.mcs.find? (fun m => m.tag == t && m.mi == i && !m.rotate) with
      | some m => pump (ackChunks s m.key) m.key 0
      | none => s
    else mcStart s r w

/-- The record that a key names is an MCAST of the slot's program. -/
def mcNamed (s : State) (key : Nat) : Bool :=
  match look (key / 2 ^ 28) s.slots with
  | some g => (g.recs.getD (key / 2 ^ 14 % 2 ^ 14) {}).opcode == opMcast
  | none => false

/-- JOIN (R286, R287): a parent accepts a child, detaches one that joins after the start beat, or refuses the 65th. One
that comes before the parent's own MCAST has started waits for it; one that comes after its end is detached (log 88). -/
def takeJoin (key rank : Nat) (s : State) : State :=
  if !mcNamed s key then s
  else if (mcAt s key 0).isNone && s.mcOver.any (fun x => x.1 == key) then
    sendMgmt (s.bump Ctr.mcastDetached 0 1) rank 8 (leBytes 4 key)
  else
    let s := if (mcAt s key 0).isNone then { s with mcs := s.mcs ++ [{ key := key }] } else s
    match mcAt s key 0 with
    | none => s
    | some m =>
      if m.children.any (fun c => c.rank == rank) then s
      else if 64 ≤ m.children.length then sendMgmt s rank 11 (leBytes 4 key)
      else
        let m := { m with children := m.children ++ [{ rank := rank, joinedAt := s.beat.number }] }
        let s := setMc s m
        if m.begun ∧ (m.startBeat < s.beat.number ∨ !m.sent.isEmpty) then detachChild s m rank 0 else s

/-- JOIN: see takeJoin. -/
def execJoin (key epoch rank : Nat) (s : State) : Host.Outcome State Fault Refusal :=
  .next (if !inView s then s else arrive s { epoch := epoch } (fun s => fromView s rank (takeJoin key rank)))

/-- A JOIN was refused (R286): the child's MCAST fails with E_PLAN. -/
def joinRefused (s : State) (key : Nat) : State :=
  match mcAt s key 0 with
  | some m => if m.begun then failMacro s m.tag m.mi ePlan else s
  | none => s

/-! Receiving. -/

/-- A chunk written into C by a receiver (R286): on the shelves, or as writes of its position's write stream (R176). -/
def writeChunk (s : State) (v : View) (off : Nat) (d : List Byte) : Except WrErr State :=
  if v.d.placement ≠ 1 then writeRuns s v v.core [(v.d.base + off, d)]
  else .ok (issueWrites (queueWrites s v false [(v.d.base + off, d)]))

/-- Bytes of a chunk received (R286, R287): a whole chunk is written into C, acknowledged once that is done, and forwarded. -/
def chunkBytes (s : State) (m : Mc) (c off : Nat) (d : List Byte) : State :=
  match s.live m.tag with
  | none => s
  | some r =>
    if r.stopping.isSome || m.got.contains c || !m.chunks.contains c then s
    else
      let b := d.take (m.len c - off)
      let parts := m.parts.filter (fun x => !(x.1 == c && x.2.1 == off)) ++ [(c, off, b)]
      let mine := parts.filter (fun x => x.1 == c)
      if (mine.map (fun x => x.2.2.length)).sum < m.len c then setMc s { m with parts := parts }
      else
        let all := (List.range 16).flatMap (fun i => ((mine.find? (fun x => x.2.1 == 4096 * i)).map (fun x => x.2.2)).getD [])
        let s := setMc s { m with
          parts := parts.filter (fun x => x.1 != c), got := m.got ++ [c], kept := put c all m.kept }
        match writeChunk s (getView s r m.mi (chunkPos c) 2) (chunkOff c) all with
        | .error e => failWrite s m.tag m.mi e
        | .ok s => pump (ackChunks s m.key) m.key 0

/-- One catch-up read of a multicast's chunk from its parent (R287); the reads of a key are told from ordinary ones by
their tag (log 9). -/
def askPiece (s : State) (m : Mc) (p c off : Nat) : State :=
  let id := s.nextXfer
  let h := { ownHdr s 0x01 p with
    key := m.key, tag := 2 ^ 31 + id, address := chunkPos c * 2 ^ 56 + chunkOff c + off, reqLength := max 32 (min 4096 (m.len c - off)) }
  let s := (sendTransfer { s with nextXfer := (id + 1) % 2 ^ 31 } 3 h []).1
  { s with mcs := mapIf (fun x => x.key == m.key && x.pos == 0) (fun x => { x with reads := x.reads ++ [(2 ^ 31 + id, c, off)] }) s.mcs }

/-- A detached child begins to catch up (R287): it reads every chunk it has not acknowledged. -/
def catchUp (s : State) (m : Mc) (p : Nat) : State :=
  let s := setMc (s.bump Ctr.mcastLate 0 1) { m with detached := true, parts := [] }
  (m.chunks.filter (fun c => !m.got.contains c)).foldl (fun s c =>
    (List.range (cdiv (m.len c) 4096)).foldl (fun s i => askPiece s m p c (4096 * i)) s) s

/-- Data of a catch-up read (R287, R288); status 2 fails the MCAST with E_LATE, status 1 (the parent does not hold the chunk
yet, log 48) asks again. None when the read is no multicast's. -/
def gotChunk (s : State) (h : Hdr) (d : List Byte) : Option State := do
  let m ← s.mcs.find? (fun m => m.reads.any (fun x => x.1 == h.tag))
  let (_, c, off) ← m.reads.find? (fun x => x.1 == h.tag)
  let m := { m with reads := m.reads.filter (fun x => x.1 != h.tag) }
  let s := setMc s m
  if h.status = 2 then some (failMacro s m.tag m.mi eLate)
  else if h.status = 1 then some (askPiece s m (m.parent.getD 0) c off)
  else some (chunkBytes (s.bump Ctr.mcastCatchupBytes 0 (min d.length (m.len c - off))) m c off d)

/-- The catch-up limit of a detached child has passed (R288). A ROTATE send has none (R289). -/
def pastLimit (s : State) (m : Mc) (c : Child) : Bool :=
  !m.rotate && (match c.detachedAt with
    | some b => decide (b + 4 * m.stall ≤ s.beat.number)
    | none => false) && !m.chunks.all (fun k => c.acked.contains k)

/-- A catch-up read served by a parent (R287, R288), or by the sender of a rotation's slice (R289): bytes, or the status of a
refusal; none while DDR makes it wait. -/
def serveChunk (s : State) (h : Hdr) : Option (State × Nat × List Byte) :=
  let pos := h.address / 2 ^ 56
  let off := h.address % 2 ^ 56
  let kid := fun (m : Mc) => m.children.find? (fun c => c.rank == h.src && (!m.rotate || c.core == pos))
  match s.mcs.find? (fun m => m.key == h.key && m.begun && (kid m).isSome) with
  | none => some (s, 2, [])
  | some m =>
    let k := chunkId (if m.rotate then 0 else pos) (off / 65536)
    let n := min h.reqLength (m.len k - off % 65536)
    if (kid m).any (fun c => c.failed || pastLimit s m c) then some (s, 2, [])
    else if m.parent.isSome && !m.got.contains k then some (s, 1, [])
    else
      match mcData s m k (off % 65536) n with
      | .ok d => some (countChunk s m k (off % 65536) n, 0, d ++ List.replicate (32 - d.length) 0)
      | .error .wait => if chunkBusy s m k (off % 65536) n then none else some (s, 1, [])
      | .error _ => some (s, 1, [])

/-! Detaching and completing. -/

/-- MCAST_DETACH (R287): a hold has lasted the stall limit, and a child that causes it is detached. -/
def execMcastDetach (key pos rank : Nat) (s : State) : Host.Outcome State Fault Refusal :=
  .next <|
    match mcAt s key pos with
    | none => s
    | some m =>
      match m.holdSince with
      | none => s
      | some b =>
        match (m.froms.flatMap (fun p => ((m.next p).map m.behind).getD [])).find? (fun x => x.rank == rank) with
        | none => s
        | some x => if s.beat.number < b + m.stall then s else pump (detachChild s m rank x.core) key pos

/-- CATCHUP_LIMIT (R288): 4 × stall limit beats after its detach, a child that has not caught up has failed. A ROTATE send
has no such limit (R289). -/
def execCatchupLimit (key pos rank : Nat) (s : State) : Host.Outcome State Fault Refusal :=
  .next <|
    match mcAt s key pos with
    | none => s
    | some m => setMc s { m with children := mapIf (fun c => c.rank == rank && pastLimit s m c) (fun c => { c with failed := true }) m.children }

/-- A multicast has nothing left to do (R288): it has started on every position, everything is sent, every child is settled
and, on a receiver, C is fully written. -/
def Mc.over (m : Mc) (team : Nat) : Bool :=
  m.begun && m.settled && m.places.length == team && m.chunks.all (fun c => m.sent.contains c) &&
    (m.parent.isNone || m.chunks.all (fun c => m.written.contains c))

/-- The multicast that a run's record has begun. -/
def mcOf (s : State) (t i : Nat) : Option Mc :=
  s.mcs.find? (fun m => m.begun && !m.rotate && m.pos == 0 && m.tag == t && m.mi == i)

/-- MCAST_COMPLETE (R288): see Mc.over. -/
def execMcastComplete (t i : Nat) (s : State) : Host.Outcome State Fault Refusal :=
  .next <|
    match mcOf s t i with
    | none => s
    | some m =>
      match s.live t with
      | none => s
      | some r =>
        if r.stopping.isSome || s.beat.number < m.startBeat || !m.over r.prog.team.length then s
        else
          m.places.foldl (fun s x => endWalk s t i x.1 x.2)
            (closeMcast { s with mcs := s.mcs.filter (fun x => !(x.key == m.key && x.pos == 0)) } m.key)

end Sys2Proof.Machine
end

