-- ==== Sys2Proof/Machine/Beat.lean ====
section
/-!
DEFINITION. The beat: its boundary (R243, R244, R248, R252, R253), tracking the keeper's marks (R250, R251), the keeper's
source (R245 to R247, R442), and the measurement of link delays (R249).
-/

namespace Sys2Proof.Machine

/-- The beat counts: the main domain is out of reset and not tripped (R244, R444, log 3). -/
def beatRuns (s : State) : Bool := s.pins.stage != 0 && s.pins.stage != 0xB

/-! The learnt rate (R246, R252). -/

/-- The learnt correction sets the length of beats: in holdover (R246, R252), and always under BEAT_IN in PPS mode (R245). -/
def usesRate (s : State) : Bool := s.beat.holdover || (isKeeper s && s.group.source == 3)

/-- The correction of the beat that begins: whole cc, with the rest carried on. -/
def rateAdjust (s : State) : State :=
  if !usesRate s then s
  else
    let a := s.beat.rateAcc + beatLen s * s.beat.rateCorr
    let n := a / 1000000000
    { s with beat := { s.beat with adjust := s.beat.adjust + n, rateAcc := a - n * 1000000000 } }

/-- BEAT_OUT is high (R253): in the first 64 cc of a beat of a device that drives it. -/
def drivesBeatOut (s : State) : Bool :=
  s.group.state != 0 && (s.beat.locked || (isKeeper s && (s.beat.sourceLocked || s.group.source == 0)))

/-- BEAT_OUT's level as the state has it now (R253). -/
def setBeatOut (s : State) : State :=
  { s with beat := { s.beat with beatOut := drivesBeatOut s && decide (s.now < s.beat.startAt + 64) } }

/-- The source is back and its error removed (R247). -/
def finishSource (s : State) : State :=
  setBeatOut <| postEvent { s with beat := { s.beat with
      sourceLocked := true, holdover := false, slewing := false, holdoverBt := 0, srcErr := 0, srcRemoved := 0, adjustNext := 0 } }
    0x0A (items [encInt 32 s.beat.srcRemoved])

/-- The keeper's slewing toward its source, 1 cc per beat (R247). -/
def keeperSlew (s : State) : State :=
  let b := s.beat
  if !(isKeeper s && b.slewing) then s
  else
    let d : Int := if 0 < b.srcErr then 1 else -1
    let s := ({ s with beat := { b with srcErr := b.srcErr - d, srcRemoved := b.srcRemoved + d, adjust := b.adjust + d } }).bump Ctr.slewingBt 0 1
    if s.beat.srcErr.natAbs ≤ 1 then finishSource s else s

/-- A member's marks of the beat that ends (R250, R252): one more is missed, the next candidate is used from here on, and
after four the member is in holdover. -/
def missedMark (s : State) : State :=
  let b := s.beat
  if isKeeper s ∨ s.group.state = 0 ∨ b.markSeen then s
  else
    let next := match b.parent with
      | some p => b.alternates ++ [p]
      | none => b.alternates
    let s := { s with beat := { b with missed := b.missed + 1, parent := next.head?, alternates := next.drop 1 } }
    if 4 ≤ s.beat.missed ∧ (b.locked ∨ b.slewing) ∧ !b.holdover then
      (postEvent { s with beat := { s.beat with
        holdover := true, locked := false, slewing := false, holdoverBt := 0, lockedBt := 0, adjustNext := 0 } } 0x07 []).bump
        Ctr.holdoverEntries 0 1
    else if b.holdover then { s with beat := { s.beat with locked := false, slewing := false, adjustNext := 0 } }
    else s

/-- The device sends or forwards a mark at its boundary (R248): the keeper, and a member that used one. -/
def sendsMark (s : State) : Bool :=
  s.group.state != 0 && (if isKeeper s then s.group.source == 0 || s.beat.sourceLocked || s.beat.holdover else s.beat.markSeen)

/-- A member's digest as it stands goes to the coordinator when it has changed (R240, R242); a forming one that is locked
reports to the keeper (R238), once it has a route. -/
def reportDigest (s : State) : State :=
  let tell := fun (onward : State → State) =>
    let d := configDigest s
    if look s.group.rank s.group.reports = some d then s else onward (noteDigest s s.group.rank d)
  if inView s then tell fun s => if coordinates s then checkHold s else sendMgmt s (coordinator s) 10 (digestBody s)
  else if s.group.state = 1 ∧ s.beat.locked ∧ (routeTo s s.group.keeper).isSome then
    tell fun s => sendMgmt s s.group.keeper 10 (digestBody s)
  else s

/-- BEAT_BOUNDARY (R243): the next beat begins. -/
def execBeatBoundary (s : State) : Host.Outcome State Fault Refusal :=
  .next <|
    if !beatRuns s then s
    else
      let send := sendsMark s
      let held := s.beat.holdover
      let s := missedMark s
      let b := s.beat
      let s := if held then s.bump Ctr.holdoverBt 0 1 else s
      let s := if b.slewing && !isKeeper s then s.bump Ctr.slewingBt 0 1 else s
      let s := { s with beat := { b with
        number := b.number + 1, startAt := s.now, prevAt := b.startAt, adjust := b.adjustNext
        adjustNext := if b.slewing then b.adjustNext else 0
        markSeen := false, holdoverBt := if held then b.holdoverBt + 1 else b.holdoverBt
        lockedBt := if b.locked then b.lockedBt + 1 else 0 } }
      let s := setBeatOut (keeperSlew (rateAdjust s))
      let s := if send then
          { s with links := s.links.map (fun k => (k.1, { k.2 with markDue := k.2.markDue || (k.2.state == 2 && k.2.isGroup) })) }
        else s
      let s := s.bump Ctr.mcastHoldBt 0 (s.mcs.filter (fun m => m.holdSince.isSome)).length
      askLeave (reportDigest (recheck (pumpAll s)))

/-- BEAT_OUT follows what a command does to the lock (R253). -/
def relevel (s : State) : State := if s.beat.beatOut == (drivesBeatOut s && decide (s.now < s.beat.startAt + 64)) then s else setBeatOut s

/-- A number of 16 bits put into the device's own beat number (R248). -/
def stepNumber (own mark : Nat) : Nat := own / 65536 * 65536 + mark % 65536

/-- Beat phase and number taken from a mark by a device that may step (R238, R258). -/
def stepBeat (s : State) (number : Nat) (err16 : Int) : State :=
  { s with beat := { s.beat with
      number := number, startAt := (s.beat.startAt + err16 / 16).toNat, error := 0, locked := false, slewing := false
      adjustNext := 0, lockedBt := 0, rateFrom := none } }

/-- The member is LOCKED (Table 9.6): holdover ends. -/
def lockBeat (s : State) (err16 : Int) : State :=
  let b := s.beat
  let s := { s with beat := { b with
    locked := true, slewing := false, holdover := false, holdoverBt := 0, adjustNext := (err16 + 8) / 16 } }
  if b.holdover then postEvent s 0x08 (items [b.holdoverBt]) else s

/-- The sender's boundary on the device's own time, in 1/16 cc (R248, R278): the arrival of the frame less the mark's offset
and the measured delay. -/
def markTime (delay : Int) (offset arrival : Nat) : Int := 16 * (arrival : Int) - 16 * offset - delay

/-- The beat that a mark numbers and the device's own boundary of it, in cc: the beat in progress, the next, or the one
before; none when the number is another's. -/
def ownBoundary (s : State) (number : Nat) : Option (Nat × Int) :=
  let b := s.beat
  let is := fun (n : Nat) => decide (number % 65536 = n % 65536)
  if is b.number then some (b.number, b.startAt)
  else if is (b.number + 1) then some (b.number + 1, (b.startAt : Int) + beatLen s + b.adjust)
  else if 0 < b.number ∧ is (b.number - 1) then some (b.number - 1, b.prevAt)
  else none

/-- A used mark against the own boundary (R251): LOCKED, SLEWING, or fenced; a device that may step takes phase and number. -/
def trackMark (s : State) (number : Nat) (at16 : Int) : State :=
  let own := ownBoundary s number
  let (n, start) := own.getD (0, s.beat.startAt)
  let e := at16 - 16 * start
  let s := ({ s with beat := { s.beat with markSeen := true, missed := 0, error := e } }).bump Ctr.beatMarksUsed 0 1
  if own.isNone ∨ 4 * beatLen s < e.natAbs then
    if inView s then fenceSelf s 3 else stepBeat s (stepNumber s.beat.number number) (at16 - 16 * s.beat.startAt)
  else if e.natAbs ≤ 128 then
    learnRate (lockBeat s e) (at16 / 16).toNat (beatLen s * n)
  else { s with beat := { s.beat with slewing := true, locked := false, adjustNext := if 0 < e then 8 else -8 } }

/-- BEAT_MARK (R248 to R252): the mark that the last frame of a link brought is used, when it comes from the beat parent over
a link of measured delay. -/
def execBeatMark (l number offset : Nat) (s : State) : Host.Outcome State Fault Refusal :=
  .next <|
    match (s.link l).markIn with
    | none => s
    | some (n, o, arrival) =>
      if n ≠ number ∨ o ≠ offset then s else
      let s := s.onLink l (fun k => { k with markIn := none })
      match (s.link l).delay with
      | none => s.bump Ctr.beatMarksUnused 0 1
      | some d =>
        if !fromParent s l ∨ s.group.state = 0 ∨ !(s.link l).isGroup then s.bump Ctr.beatMarksUnused 0 1
        else relevel (trackMark s number (markTime d offset arrival))

/-- BEAT_FULL (R278): all 64 bits of the number of the mark just used; a device that may step takes it. -/
def execBeatFull (l : Nat) (d : List Byte) (s : State) : Host.Outcome State Fault Refusal :=
  .next <|
    if !fromParent s l ∨ (s.link l).delay.isNone ∨ s.group.state = 0 ∨ field d 0 8 = s.beat.number then s
    else if inView s then fenceSelf s 3
    else stepBeat s (field d 0 8) 0

/-- HOLDOVER_LIMIT_FENCE (R252). -/
def execHoldoverLimitFence (s : State) : Host.Outcome State Fault Refusal :=
  .next <|
    if inView s ∧ !isKeeper s ∧ s.beat.holdover ∧ keyNum s 2 ≤ s.beat.holdoverBt then fenceSelf s 4 else s

/-- SOURCE_LOST (R246). -/
def execSourceLost (s : State) : Host.Outcome State Fault Refusal :=
  .next <|
    if !isKeeper s ∨ s.group.source = 0 ∨ !s.beat.sourceLocked then s
    else
      relevel ((postEvent { s with beat := { s.beat with
        holdover := true, sourceLocked := false, holdoverBt := 0, good := 0, lastEdge := none, rateFrom := none } } 0x09 []).bump
        Ctr.holdoverEntries 0 1)

/-- SOURCE_RELOCKED (R247): the source is back, with the error measured against it. -/
def execSourceRelocked (err : Int) (s : State) : Host.Outcome State Fault Refusal :=
  .next <|
    if !isKeeper s ∨ s.group.source = 0 ∨ !s.beat.holdover ∨ s.beat.slewing then s
    else
      let s := { s with beat := { s.beat with srcErr := err, srcRemoved := 0 } }
      if err.natAbs ≤ 1 then finishSource s else { s with beat := { s.beat with slewing := true } }

/-- The period of the edges of BEAT_IN under the learnt rate correction (R442). -/
def edgePeriod (s : State) : Nat :=
  let base : Int := if s.group.source = 2 then beatLen s else 1000000000
  (base + base * s.beat.rateCorr / 1000000000).toNat

/-- An accepted edge (R245): SOURCE_LOCKED after enough of them, outside holdover. -/
def acceptEdge (s : State) (windowEnd : Nat) : State :=
  let need := if s.group.source = 2 then 16 else 4
  let g := s.beat.good + 1
  let s := { s with beat := { s.beat with
    lastEdge := some s.now, windowEnd := windowEnd, good := g, lastUpdate := s.now
    sourceLocked := s.beat.sourceLocked || (decide (need ≤ g) && !s.beat.holdover) } }
  s.bump Ctr.beatInAccepted 0 1

/-- In BEAT mode an accepted edge begins a beat (R245): one that comes before the own boundary makes it due now, one that
comes after it moves the next boundary by as much. -/
def edgeBeat (s : State) : State :=
  let b := s.beat
  let past := s.now - b.startAt
  { s with beat := { b with adjust := if 2 * past < beatLen s then past else (past : Int) - beatLen s } }

/-- BEAT_IN_EDGE (R442): a rising edge of BEAT_IN. -/
def execBeatInEdge (s : State) : Host.Outcome State Fault Refusal :=
  .next <|
    if s.pins.resetN ∨ !isKeeper s ∨ !(s.group.source == 2 || s.group.source == 3) then s
    else
      match s.beat.lastEdge with
      | none =>
        let s := learnRate (acceptEdge s (s.now + beatLen s / 2)) s.now 0
        if s.group.state = 1 then { s with beat := { s.beat with number := s.group.origin, startAt := s.now } } else s
      | some last =>
        let e := last + edgePeriod s
        let half := beatLen s / 2
        if s.beat.windowEnd ≤ s.now ∧ e ≤ s.now + half ∧ s.now ≤ e + half then
          let base := if s.group.source = 2 then beatLen s else 1000000000
          let s := acceptEdge (if s.beat.slewing then s else { s with beat := { s.beat with srcErr := (s.now : Int) - e } }) (e + half)
          let s := learnRate s s.now (base * (s.beat.good - 1))
          relevel (if s.group.source = 2 ∧ !s.beat.holdover then edgeBeat s else s)
        else s.bump Ctr.beatInDiscards 0 1

/-! Link delays. -/

/-- Insertion into an ascending list of integers. -/
def intInsert (a : Int) : List Int → List Int
  | [] => [a]
  | b :: l => if a ≤ b then a :: b :: l else b :: intInsert a l

/-- The median of 64 measurements, in 1/16 cc (R249): the mean of the two middle ones, rounded down. -/
def median64 (l : List Int) : Int :=
  let t := l.foldl (fun a x => intInsert x a) []
  (t.getD 31 0 + t.getD 32 0) / 2

/-- A STAMP record's body (R279). -/
def stampBody (n t1 t2 t3 t4 : Nat) : List Byte := leBytes 2 n ++ leBytes 8 t1 ++ leBytes 8 t2 ++ leBytes 8 t3 ++ leBytes 8 t4

/-- An exchange is begun: the measurement of a link starts with number 0 (R249). -/
def startExchange (s : State) (l n : Nat) : State := pushCtl s l 2 (stampBody n (16 * s.now) 0 0 0)

/-- STAMP (R249): an exchange record arrives. One without t2 and t3 is answered; one with them ends an exchange, and the
64th gives the delay. -/
def execStamp (l : Nat) (d : List Byte) (s : State) : Host.Outcome State Fault Refusal :=
  .next <|
    if (s.link l).state ≠ 2 then s
    else
      let n := field d 0 2
      let t1 := field d 2 8
      let t2 := field d 0x0A 8
      let t3 := field d 0x12 8
      let t := 16 * s.now
      if t2 = 0 ∧ t3 = 0 then pushCtl s l 2 (stampBody n t1 t t 0)
      else if n ≠ (s.link l).exch.length ∨ (s.link l).delay.isSome then s
      else
        let t4 := if field d 0x1A 8 = 0 then t else field d 0x1A 8
        let m : Int := (((t4 : Int) - t1) - ((t3 : Int) - t2)) / 2
        let e := (s.link l).exch ++ [m]
        if e.length < 64 then startExchange (s.onLink l (fun k => { k with exch := e })) l (n + 1)
        else setTree (s.onLink l (fun k => { k with exch := [], delay := some (median64 e) }))

end Sys2Proof.Machine
end

