-- ==== Sys2Proof/Machine/Mailbox.lean ====
section
/-!
DEFINITION. Queue pairs, mailboxes and completions: connections (R327 to R329), the order window (R330, R331), taking
orders (R348 to R352), and writing completions (R332, R333, R357).
-/

namespace Sys2Proof.Machine

/-! Sub-ports. -/

/-- The sub-port has an IP address (R324). -/
def portIp (s : State) (u : Nat) : Bool := bit (portFlags s u) 1 || bit (portFlags s u) 2

/-- PORT_MODE of a port. -/
def portMode (s : State) (n : Nat) : Nat := keyNum s (0x0500 + n)

/-- The sub-port exists in its port's mode (Table 12.1). -/
def portExists (s : State) (u : Nat) : Bool :=
  match portMode s (u / 4) with
  | 0 => u % 4 == 0
  | 1 => decide (u % 4 ≤ 1)
  | 2 => true
  | _ => false

/-- Line rate of a sub-port in kbit/s (Table 12.1). -/
def lineRate (s : State) (u : Nat) : Nat :=
  match portMode s (u / 4) with
  | 0 => 400000000
  | 1 => 200000000
  | 2 => 100000000
  | _ => 0

/-! Connections. -/

/-- Queue pair numbers in use: connected ones, and failed ones that an order or a run still names. -/
def qpsUsed (s : State) : List Nat :=
  (s.qps.filter (fun p => p.2.phase != 3 || s.orders.any (fun o => o.qp == p.1)
    || s.runs.any (fun r => r.qp == p.1 && r.state != 3))).map (·.1)

/-- CONNECTION_REQ (R327, R325): a queue pair is created on its sub-port, or the request is rejected, one of another path MTU
than 1,024, 2,048 or 4,096 bytes too (log 94). -/
def execConnectionReq (u service psn mtu : Nat) (s : State) : Host.Outcome State Fault Refusal :=
  .next <|
    if !(s.port u).up ∨ !portIp s u then s
    else if noSak s u then s.bump Ctr.macsecDrops u 1
    else
      let used := qpsUsed s
      if 4096 ≤ used.length then s.emit { kind := 13, dest := u, addr := 1 }
      else if service ≠ 0x010612C1 then s.emit { kind := 13, dest := u, addr := 2 }
      else if !([1024, 2048, 4096].contains mtu) then s.emit { kind := 13, dest := u, addr := 3 }
      else
        let q := freeFrom 0 4096 used 4096 (Config.qpnHint s.free % 4096)
        let r := lineRate s u
        let v : Qp := { subport := u, epsn := psn % 2 ^ 24, npsn := psn % 2 ^ 24, mtu := mtu, rate := r, target := r }
        let s := s.draw.setQp q v
        let s := (s.zeroCounter Ctr.cqFullWaits q).zeroCounter Ctr.completionsDropped q
        s.emit { kind := 13, dest := u, addr := 0, data := leBytes 4 q }

/-- A host region entry (Table 12.6). -/
def parseRegion (b : List Byte) : Region :=
  { addr := field b 0 8, length := field b 8 8, rkey := field b 0x10 4, access := field b 0x14 1 }

/-- A host region entry's fields are in range and its reserved fields zero. -/
def regionOk (b : List Byte) : Bool :=
  decide (1 ≤ field b 8 8) && decide (field b 8 8 ≤ 2 ^ 40) && decide (field b 0x14 1 ≤ 3) && field b 0x15 3 == 0

/-- A power of two from 16 to 65,536. -/
def ringSizeOk (n : Nat) : Bool := (List.range 13).any (fun k => n == 2 ^ (k + 4))

/-- The first check of R329 on a connection record (Table 12.4). -/
def recordOk (b : List Byte) : Bool :=
  let n := field b 4 1
  let ent := fun (i : Nat) => slice b (0x40 + 24 * i) 24
  b.length == 256 && field b 0 2 == 1 && decide (field b 2 1 ≤ 3) && decide (1 ≤ field b 3 1) && decide (field b 3 1 ≤ 64)
    && decide (n ≤ 8) && field b 5 3 == 0 && field b 8 8 % 64 == 0 && ringSizeOk (field b 0x14 4) && field b 0x18 8 == 0
    && (List.range 8).all (fun i => if i < n then regionOk (ent i) else (ent i).all (fun x => x == 0))

/-- Mailboxes no queue pair holds. -/
def mailboxFree (s : State) (m : Nat) : Bool := (s.mailbox m).qp.isNone

/-- The first mailbox of a run of n consecutive free ones; which one is free (R329). -/
def freeRun (s : State) (n : Nat) : Option Nat :=
  let c := below 64 (fun a => decide (a + n ≤ 64) && (List.range n).all (fun i => mailboxFree s (a + i)))
  if c.isEmpty then none else (c.drop (Config.mailboxHint s.free % c.length)).head?

/-- A connection reply (Table 12.5). -/
def connReply (s : State) (q : Nat) (st : BitVec 8) (v : Qp) : State :=
  let d :=
    leBytes 2 1 ++ [st] ++ leBytes 1 v.firstMailbox ++ leBytes 1 v.mailboxCount ++ leBytes 1 (b2n v.bound) ++ leBytes 2 0
      ++ leBytes 8 v.windowVa ++ leBytes 4 v.windowRkey ++ leBytes 4 q ++ leBytes 8 s.beat.number ++ leBytes 32 0
  roce s q { kind := 2, dest := q, data := d }

/-- A refused connection record: the queue pair is disconnected 1 ms after the reply (R329). -/
def connRefuse (s : State) (q : Nat) (v : Qp) (st : BitVec 8) : State :=
  connReply (s.setQp q { v with phase := 2, disconnectAt := some (s.now + 1000000) }) q st
    { v with firstMailbox := 0, mailboxCount := 0, bound := false, windowVa := 0, windowRkey := 0 }

/-- A binding that a connection record carries matches the open session, or is zero (R329). -/
def bindingOk (s : State) (b : List Byte) : Bool :=
  b.all (fun x => x == 0) || (match s.trust.session with
    | some e => e.binding == b
    | none => false)

/-- A mailbox assigned to a queue pair (R348): its bytes zeroed, head slot 0, expected number 1. -/
def assignMailbox (q : Nat) (s : State) (m : Nat) : State :=
  (s.onMem (fun x => { x with window := memZero x.window (4096 * m) 4096 })).setMailbox m { qp := some q }

/-- The message of a queue pair's host (R328, R329): the first one is the connection record. -/
def connMessage (s : State) (q : Nat) (b : List Byte) : State :=
  match s.qp q with
  | none => s
  | some v =>
    if v.phase = 3 then s
    else if v.phase ≠ 0 then connReply s q ePlan { v with firstMailbox := 0, mailboxCount := 0, bound := false, windowVa := 0, windowRkey := 0 }
    else if !recordOk b then connRefuse s q v ePlan
    else
      let n := field b 3 1
      match freeRun s n with
      | none => connRefuse s q v eRange
      | some f =>
        let bind := slice b 0x20 32
        if !bindingOk s bind then connRefuse s q v eAuth
        else
          let w : Qp := { v with
            phase := 1, events := bit (field b 2 1) 0, modeImm := bit (field b 2 1) 1, firstMailbox := f, mailboxCount := n
            cqAddr := field b 8 8, cqRkey := field b 0x10 4, cqEntries := field b 0x14 4
            regions := (List.range (field b 4 1)).map (fun i => parseRegion (slice b (0x40 + 24 * i) 24))
            bound := !(bind.all (fun x => x == 0))
            windowVa := Config.windowVa s.free, windowRkey := Config.windowRkey s.free % 2 ^ 32 }
          let s := (List.range n).foldl (fun s i => assignMailbox q s (f + i)) (s.draw.setQp q w)
          connReply s q eOk w

/-- What a queue pair's host sends is taken, unless its sub-port has no SAK yet (R341): the frame is discarded and counted. -/
def heard (s : State) (q : Nat) (f : State → State) : State :=
  match s.qp q with
  | none => s
  | some v => if noSak s v.subport then s.bump Ctr.macsecDrops v.subport 1 else f s

/-- CONNECTION_RECORD (R329). -/
def execConnectionRecord (q : Nat) (d : List Byte) (s : State) : Host.Outcome State Fault Refusal :=
  .next (heard s q fun s => connMessage s q d)

/-- DISCONNECT_AFTER_REPLY (R329): 1 ms after a reply that assigned nothing. -/
def execDisconnectAfterReply (q : Nat) (s : State) : Host.Outcome State Fault Refusal :=
  .next <|
    match s.qp q with
    | some v => if v.phase = 2 then qpError s q 4 else s
    | none => s

/-- DISCONNECT_REQUEST (R335). -/
def execDisconnectRequest (q : Nat) (s : State) : Host.Outcome State Fault Refusal := .next (heard s q fun s => qpError s q 4)

/-! The order window. -/

/-- An RDMA WRITE may be placed (R330): inside the queue pair's mailboxes, in whole slots, with its rkey. -/
def windowOk (v : Qp) (addr rkey len : Nat) : Bool :=
  v.phase == 1 && rkey == v.windowRkey && decide (v.windowVa ≤ addr) && (addr - v.windowVa) % 256 == 0 && decide (1 ≤ len)
    && len % 256 == 0 && decide (addr - v.windowVa + len ≤ 4096 * v.mailboxCount)

/-- Bytes placed in the order window from a queue pair's address on. -/
def windowPut (s : State) (v : Qp) (addr : Nat) (d : List Byte) : State :=
  s.onMem (fun x => { x with window := memWrite x.window (4096 * v.firstMailbox + (addr - v.windowVa)) d })

/-- A NAK of invalid request (1) or of remote access error (2), after which the queue pair goes to the error state (R325). -/
def nakQp (s : State) (q : Nat) (why : Byte) : State := qpError (txMsg s q { kind := 4, dest := q, data := [why] }) q 1

/-- ORDER_WINDOW_WRITE (R330, R331). -/
def execOrderWindowWrite (q addr rkey : Nat) (d : List Byte) (s : State) : Host.Outcome State Fault Refusal :=
  .next <| heard s q fun s =>
    match s.qp q with
    | none => s
    | some v =>
      if v.phase = 3 then s
      else if windowOk v addr rkey d.length then windowPut s v addr d
      else nakQp s q 2

/-! Taking orders. -/

/-- The number 16 before an expected number, 0 skipped (R350). -/
def back16 (e : Nat) : Nat := (e + (2 ^ 32 - 1) - 17) % (2 ^ 32 - 1) + 1

/-- The expected number after one (R348). -/
def nextNumber (e : Nat) : Nat := if e = 0xFFFFFFFF then 1 else e + 1

/-- RUN orders held (R28): accepted and not ended, and taken and not yet checked. -/
def runsHeld (s : State) : Nat :=
  (s.runs.filter (fun r => r.state != 3)).length + (s.orders.filter (fun o => o.code == 0x04 && !o.begun)).length

/-- The record in a mailbox's head slot. -/
def headRecord (s : State) (m : Nat) : List Byte := memRead s.mem.window (4096 * m + 256 * (s.mailbox m).head) 256

/-- Imion takes orders: stage READY, not restarting (R438, R414). -/
def imionTakes (s : State) : Bool := s.pins.stage == 4 && !s.health.imionStopped

/-- Imion examines one mailbox's head slot (R349, R350, R352). -/
def takeHead (s : State) (m : Nat) : State :=
  let b := s.mailbox m
  match b.qp with
  | none => s
  | some q =>
    match s.qp q with
    | none => s
    | some v =>
      let r := headRecord s m
      let n := field r 0 4
      if !imionTakes s ∨ 1024 ≤ v.waiting.length ∨ n = 0 ∨ n = back16 b.expected then s
      else if n ≠ b.expected then
        if b.faulted then s
        else
          let s := ((s.setMailbox m { b with faulted := true }).bump Ctr.mailboxSeqFaults 0 1).bump Ctr.ordersRefused 0 1
          deliver s q { tag := field r 8 8, number := n, code := field r 4 1, status := ePlan, mailbox := m
                        beat := s.beat.number, detail := slice (checkDetail 0x4F 1 0) 0 40 }
      else if field r 4 1 = 0x04 ∧ 256 ≤ runsHeld s then s
      else
        let o : Order := { mailbox := m, number := n, qp := q, bytes := r }
        let s := s.setMailbox m { b with head := (b.head + 1) % 16, expected := nextNumber n, faulted := false }
        let s := ({ s with orders := s.orders ++ [o] }).bump Ctr.ordersTaken 0 1
        if o.code = 0 ∨ 0x14 < o.code then refuse s o ePlan 0x4F 1 0 else s

/-- ORDER_TAKE (R349). -/
def execOrderTake (m : Nat) (s : State) : Host.Outcome State Fault Refusal := .next (takeHead s m)

/-- MAILBOX_SWEEP (R351): every assigned mailbox, in ascending order. -/
def execMailboxSweep (s : State) : Host.Outcome State Fault Refusal := .next ((List.range 64).foldl takeHead s)

/-! Completions. -/

/-- A completion record's 64 bytes (Table 13.6). -/
def completionBytes (c : Completion) : List Byte :=
  leBytes 8 c.tag ++ leBytes 4 c.number ++ leBytes 1 c.kind ++ leBytes 1 c.code ++ [c.status] ++ leBytes 1 c.mailbox
    ++ leBytes 8 c.beat ++ slice c.detail 0 40

/-- Entries written and not yet consumed (R333), modulo 2^32. -/
def ringFill (v : Qp) : Nat := (v.producer + 2 ^ 32 - v.consumer % 2 ^ 32) % 2 ^ 32

/-- The consumer index read again (R333): at once when it has not been read for 10 us. -/
def readIndex (s : State) (q : Nat) (v : Qp) : State :=
  if v.lastIndexRead = 0 ∨ v.lastIndexRead + 10000 ≤ s.now then
    hostReq (s.setQp q { v with lastIndexRead := s.now }) 1 q (v.cqAddr + 64 * v.cqEntries) v.cqRkey (leBytes 4 4)
  else s

/-- COMPLETION_WRITE (R332, R333): the oldest waiting completion of a queue pair goes into its ring, or waits. -/
def execCompletionWrite (q : Nat) (s : State) : Host.Outcome State Fault Refusal :=
  .next <|
    match s.qp q with
    | none => s
    | some v =>
      match v.waiting with
      | [] => s
      | c :: rest =>
        if v.phase = 3 ∨ s.health.imionStopped ∨ s.pins.stage ≠ 4 then s
        else if ringFill v < v.cqEntries then
          let s := s.setQp q { v with producer := (v.producer + 1) % 2 ^ 32, waiting := rest }
          let rec64 := completionBytes c
          let d := if v.modeImm then leBytes 4 v.producer ++ rec64 else rec64
          let dst := v.cqAddr + 64 * (v.producer % v.cqEntries)
          roce s q { kind := if v.modeImm then 14 else 0, dest := q, addr := dst, rkey := v.cqRkey, data := d }
        else
          let s := if c.counted then s else s.bump Ctr.cqFullWaits q 1
          let w : Qp := { v with waiting := { c with counted := true } :: rest }
          readIndex (s.setQp q w) q w

/-- CONSUMER_INDEX_READ (R333): the index that the RDMA READ returned. -/
def execConsumerIndexRead (q c : Nat) (s : State) : Host.Outcome State Fault Refusal :=
  .next (heard s q fun s => s.onQp q (fun v => if v.phase = 3 then v else { v with consumer := c % 2 ^ 32 }))

end Sys2Proof.Machine
end

