-- ==== Sys2Proof/Machine/Trust.lean ====
section
/-!
DEFINITION. The trust block: keys and randomness (R385, R395), the identity key's index store and ledger (R390 to R392),
ATTEST (R393, R394), sessions (R396 to R402), and UPDATE_FIRMWARE (R386, R387, R403, R404).
-/

namespace Sys2Proof.Machine

/-- n bytes of the trust block's random bit generator (R385), and the state that has drawn them. -/
def random (s : State) (n : Nat) : List Byte × State := ((List.range n).map (Config.randomByte s.free), s.draw)

/-- The bytes of an ASCII label. -/
def asciiBytes (t : String) : List Byte := t.toList.map (fun c => BitVec.ofNat 8 c.toNat)

/-! The index store and the ledger. -/

/-- One past the last index of the identity key (R385). -/
abbrev indexEnd : Nat := 2 ^ 40

/-- The ledger entry of an index (R390, Table 16.5): its sequence number is the reserved value. -/
def reserveEntry (s : State) (n : Nat) : CofferEntry :=
  { seq := n, beat := s.beat.number, boot := s.coffer.boot, kind := 1, part := 0, payload := slice (leBytes 8 n) 0 36 }

/-- An entry put at a position of every copy that is not degraded. -/
def cofferPut (c : Coffer) (pos : Nat) (e : CofferEntry) : Coffer :=
  { c with
    copy0 := if c.degraded.contains 0 then c.copy0 else put pos e c.copy0
    copy1 := if c.degraded.contains 1 then c.copy1 else put pos e c.copy1 }

/-- The next ledger position written, in rotation over 64 (R424). -/
def ledgerPut (s : State) (n : Nat) : State :=
  let c := cofferPut s.coffer s.coffer.ledgerNext (reserveEntry s n)
  ({ s with coffer := { c with ledgerNext := (s.coffer.ledgerNext + 1) % 64 } }).bump Ctr.cofferEntries 0 1

/-- XMSS_LOW once per reset (R392). -/
def noteLow (s : State) : State :=
  if s.trust.lowPosted ∨ 2 ^ 30 ≤ indexEnd - s.trust.next then s
  else postEvent { s with trust := { s.trust with lowPosted := true } } 0x43 (leBytes 8 (indexEnd - s.trust.next))

/-- The three writes that reserve the next index (R390), each done and checked as the flags say; the first that fails ends
them. Answers whether all three hold, and the bits of INDEX_STORE_DEGRADED. An index is spent once a record holds a
value above it, and a spent one is not used again. -/
def reserveIndex (s : State) (ok0 ok1 okC : Bool) : State × Nat :=
  let n := s.trust.next + 1
  if !ok0 then ({ s with trust := { s.trust with index0 := none } }, 1)
  else
    let s := noteLow (({ s with trust := { s.trust with index0 := some n, next := n } }).bump Ctr.indicesSpent 0 1)
    if !ok1 then ({ s with trust := { s.trust with index1 := none } }, 2)
    else
      let s := { s with trust := { s.trust with index1 := some n } }
      if !okC then (s, 4) else (ledgerPut s n, 0)

/-! ATTEST. -/

/-- A copy's image by number: 0 A, 1 B. -/
def fwCopy (s : State) (c : Nat) : FwCopy := if c = 0 then s.trust.copyA else s.trust.copyB

/-- The identifier of the session that is open, empty when none is (Table 15.3). -/
def quoteSession (s : State) : List Byte :=
  match s.trust.session with
  | some e => if sessionOpen s then e.id else []
  | none => []

/-- What a quote says of the firmware that runs: version, SVN, key slot, fuses, copy and digest (Table 15.3). -/
def quoteFirmware (s : State) : List Byte :=
  let img := runningImage s
  slice img 6 6 ++ slice img 0x0C 1 ++ leBytes 1 s.trust.fusedSvn ++ slice img 0x0D 1
    ++ leBytes 1 s.trust.revoked ++ leBytes 1 s.trust.running ++ leBytes 5 0 ++ slice s.trust.fwDigest 0 32

/-- Bytes 0x0000 to 0x06DF of a quote (Table 15.3), sampled as its signing begins. -/
def quoteBytes (s : State) (nonce : List Byte) (index : Nat) : List Byte :=
  let head := leBytes 2 1 ++ leBytes 1 (b2n (sessionOpen s) + 2 * b2n s.trust.fallback) ++ leBytes 5 0
    ++ leBytes 8 s.trust.serial ++ slice nonce 0 32
  let group := leBytes 8 s.beat.number ++ leBytes 2 s.group.rank ++ leBytes 2 0 ++ leBytes 4 s.group.epoch
  head ++ quoteFirmware s ++ configDigest s ++ slice (quoteSession s) 0 32 ++ group ++ leBytes 8 index ++ leBytes 8 0
    ++ slice s.trust.ek 0 1568

/-- The device certificate (Table 15.4). -/
def deviceCert (s : State) : List Byte :=
  let b := leBytes 2 1 ++ leBytes 2 Config.provSlot ++ leBytes 4 0 ++ leBytes 8 s.trust.serial ++ slice s.trust.identityPk 0 68
    ++ leBytes 12 0
  b ++ slice (Config.certSignature b) 0 2820

/-- Bytes of an ATTEST's result (R393). -/
abbrev attestLen : Nat := 14572

/-- The order at the head of the signing queue is signed, or ends: signing disabled (R391), indices exhausted (R392), or a
record that fails (R390). -/
def beginSign (s : State) (o : Order) (ok0 ok1 okC : Bool) : State :=
  if s.trust.signDisabled then complete (postEvent s 0x45 (items [7])) o eDataLost (resultDetail 0 attestLen)
  else if indexEnd ≤ s.trust.next then complete (postEvent s 0x44 []) o eRange (resultDetail 0 attestLen)
  else
    let i := s.trust.next
    let q := quoteBytes s (slice o.bytes 0x28 32) i
    let (s, bad) := reserveIndex s ok0 ok1 okC
    if bad ≠ 0 then complete (postEvent s 0x45 (items [bad])) o eDataLost (resultDetail 0 attestLen)
    else
      let g : Sign := { order := (o.mailbox, o.number), quote := q, index := i }
      { s with trust := { s.trust with signing := some g } }

/-- Queued ATTEST orders are signed one at a time, in take order (R394): the next begins when none is being signed and no
key pair is being generated (R395). -/
def pumpSign : Nat → State → Bool → Bool → Bool → State
  | 0, s, _, _, _ => s
  | f + 1, s, ok0, ok1, okC =>
    if s.trust.signing.isSome ∨ s.trust.generating then s
    else
      match s.trust.signQ with
      | [] => s
      | (m, n) :: rest =>
        let s := { s with trust := { s.trust with signQ := rest } }
        match s.order m n with
        | some o => pumpSign f (if held s o then s else beginSign s o ok0 ok1 okC) ok0 ok1 okC
        | none => pumpSign f s ok0 ok1 okC

/-- See pumpSign: the whole queue. -/
def signNext (s : State) (ok0 ok1 okC : Bool) : State := pumpSign (s.trust.signQ.length + 1) s ok0 ok1 okC

/-- ATTEST's own part (R394): the result's size is checked, and the order joins the queue of signings. -/
def attestOwn (ok0 ok1 okC : Bool) (s : State) (o : Order) : State :=
  if o.resultLen < attestLen then complete s o eRange (resultDetail 0 attestLen)
  else
    let s := beginOrder s o
    signNext { s with trust := { s.trust with signQ := s.trust.signQ ++ [(o.mailbox, o.number)] } } ok0 ok1 okC

/-- ATTEST (R394). The flags are what the checks of the three writes of R390 find, for a signing that begins here. -/
def execAttest (m n : Nat) (ok0 ok1 okC : Bool) (s : State) : Host.Outcome State Fault Refusal :=
  .next (orderCmd s m n 0x11 (attestOwn ok0 ok1 okC))

/-- The quote signed is released to its order (R390, R394). -/
def releaseQuote (s : State) (g : Sign) : State :=
  match s.order g.order.1 g.order.2 with
  | none => s
  | some o =>
    if held s o then s
    else
      let d := g.quote ++ slice (Config.xmssMtSign g.index g.quote) 0 9893 ++ leBytes 3 0 ++ deviceCert s
      (complete (sendResult s o d) o eOk (resultDetail attestLen attestLen)).bump Ctr.attests 0 1

/-- SIGNATURE_RELEASE (R390, R394): the signing ends, its quote is released, and the next one may begin, with the flags of
its own three writes. -/
def execSignatureRelease (ok0 ok1 okC : Bool) (s : State) : Host.Outcome State Fault Refusal :=
  .next <|
    match s.trust.signing with
    | none => s
    | some g =>
      let s := releaseQuote s g
      signNext { s with trust := { s.trust with signing := none } } ok0 ok1 okC

/-- A new ML-KEM-1024 pair replaces the old one (R395). -/
def newPair (s : State) : State :=
  let (seed, s) := random s 64
  let p := Config.mlkemKeyGen seed
  { s with trust := { s.trust with ek := slice p.1 0 1568, dk := p.2, generating := false } }

/-- EPHEMERAL_KEY_GENERATION (R395): the pair being generated is ready, and an ATTEST that waited for it is signed, with
the flags of its three writes. -/
def execEphemeralKeyGeneration (ok0 ok1 okC : Bool) (s : State) : Host.Outcome State Fault Refusal :=
  .next (if s.trust.generating then signNext (newPair s) ok0 ok1 okC else s)

/-! Opening a session. -/

/-- Counter tables set to zero when a session opens (R60, R87, R123, R146, R164, R199, R232, R299, R320, R384). -/
def sessionTable (t : Nat) : Bool :=
  [0x0207, 0x0307, 0x0409, 0x0505, 0x0607, 0x070B, 0x0809, 0x0A08, 0x0B00].contains t || t % 65536 == 0x0E03

/-- The value that R398 derives under a label from the shared secret and the request's first 0x668 bytes. -/
def derived (label : String) (ss req : List Byte) : List Byte :=
  shake256 (asciiBytes label ++ ss ++ slice req 0 0x668) 32

/-- The session opens in one cc (R399): keys drawn, the queue pair bound, pages ABSENT, frames fresh, counters zero. -/
def openNow (s : State) (q : Nat) (ss req : List Byte) : State :=
  let (k1, s) := random s 32
  let (k2, s) := random s 32
  let e : Session := { id := derived "ZQS6 session" ss req, binding := derived "ZQS6 binding" ss req, secret := ss, k1 := k1, k2 := k2 }
  let s := (s.zeroTables sessionTable).onQp q (fun v => { v with bound := true })
  let s := s.onMem (fun m => { m with xlate := [], filled := [] })
  let s := { s with
    cores := s.cores.map (fun (c : Nat × Core) => (c.1, { c.2 with xcache := [] }))
    trust := { s.trust with session := some e, generating := true, ek := [], dk := [] } }
  postEvent (s.bump Ctr.sessionsOpened 0 1) 0x46 e.id

/-- OPEN_SESSION's own part (R397 to R399). -/
def openSessionOwn (d : Option (List Byte)) (s : State) (o : Order) : State :=
  let n := field o.bytes 0x2C 4
  if o.resultLen < 48 then complete s o eRange (resultDetail 0 48)
  else if n ≠ 1672 then complete s o ePlan (resultDetail 0 48)
  else
    let s := hostAsk s o
    match hostRead s o d n with
    | none => complete s o eDataLost (resultDetail 0 48)
    | some b =>
      if field b 0 2 ≠ 1 ∨ field b 2 6 ≠ 0 ∨ s.trust.session.isSome ∨ indexEnd ≤ s.trust.next then
        complete s o ePlan (resultDetail 0 48)
      else if s.trust.generating ∨ slice b 8 32 ≠ shake256 s.trust.ek 32 then complete s o eAuth (resultDetail 0 48)
      else
        let ss := Config.mlkemDecaps s.trust.dk (slice b 0x48 1568)
        if slice b 0x668 32 ≠ derived "ZQS6 confirm" ss b then complete s o eAuth (resultDetail 0 48)
        else
          let s := openNow s o.qp ss b
          let r := leBytes 2 1 ++ leBytes 6 0 ++ leBytes 8 s.beat.number ++ derived "ZQS6 accept" ss b
          complete (sendResult s o r) o eOk (resultDetail 48 48)

/-- OPEN_SESSION (R399). -/
def execOpenSession (m n : Nat) (d : Option (List Byte)) (s : State) : Host.Outcome State Fault Refusal :=
  .next (orderCmd s m n 0x0F (openSessionOwn d))

/-! Closing a session. -/

/-- A core with its memories zeroed (Table 15.7): writes already issued to a peer or a host stay in flight, without their
bytes. -/
def wipeCore (c : Core) : Core :=
  { c with
    tiles := [], epiLast := 0, merge := {}, mergeNext := {}, larders := [none, none], xcache := [], turn := [], sideLost := false, loftLost := []
    conflictOf := none
    writes := (c.writes.filter (fun w => decide (2 ≤ w.kind))).map (fun w => { w with cells := [], discard := true }) }

/-- On-chip memories zeroed: shelves with their poison, cellars, side memories and the translation store (R401, R402). -/
def wipeMem (m : Memory) : Memory := { m with shelf := [], cellar := [], side := [], shelfPoison := [], bad := [], xlate := [], filled := [] }

/-- Everything of the session that Table 15.7 zeroes, empties or returns to its reset value; DDR accesses not yet served
are dropped, and bytes of HOST and PEER reads still to land are to be discarded. -/
def wipeSession (s : State) : State :=
  let s := s.onMem wipeMem
  { s with
    cores := s.cores.map (fun (c : Nat × Core) => (c.1, wipeCore c.2))
    tensors := [], slots := [], streams := [], rots := [], mcs := [], mcOver := [], rotHeld := [], pushes := [], layers := [], optCount := []
    keys := s.keys.filter (fun k => !keySlot k.1)
    runs := s.runs.map (fun (r : Run) => { r with log := [], halts := [], cancelBy := [] })
    xfers := (s.xfers.filter (fun x => decide (2 ≤ x.kind))).map (fun (x : Xfer) => { x with discard := true })
    chans := s.chans.map (fun (c : Nat × Chan) => (c.1, { c.2 with queue := [], replies := [] })) }

/-- The transaction at CLOSE_SESSION (R369): rolled back, unless its DECISION has been sent. -/
def closeTxn (s : State) : State :=
  if s.txn.state = 0 ∨ (s.txn.state = 2 ∧ s.txn.group ∧ s.txn.decided) then s
  else
    let s := if s.txn.state = 2 ∧ s.txn.group then mgmtAll s 4 [] else s
    { s with txn := {} }

/-- The COMMIT_TXN that waits. -/
def isCommit (s : State) (o : Order) : Bool := s.txn.order == some (o.mailbox, o.number)

/-- The orders of the session still in progress and the status each ends with (R401): E_CANCELLED for a COMMIT_TXN whose
transaction is rolled back, E_AUTH for every other; one whose DECISION has been sent is left out. -/
def endedOrders (s : State) (o : Order) : List (Nat × Nat × BitVec 8) :=
  let all := s.orders.filter (fun x => qpBound s x.qp && !(x.mailbox == o.mailbox && x.number == o.number)
    && !(isCommit s x && s.txn.group && s.txn.decided))
  all.map (fun x => (x.mailbox, x.number, if isCommit s x then eCancelled else eAuth))

/-- CLOSE_SESSION's own part (R401, Table 15.7): the keys are destroyed and pages become ABSENT, every core stops, and the
session's state is wiped. -/
def closeSessionOwn (s : State) (o : Order) : State :=
  let ended := endedOrders s o
  let s := { s with
    orders := mapIf (fun x => qpBound s x.qp) (fun x => { x with begun := true }) s.orders
    trust := { s.trust with closing := some (o.mailbox, o.number, s.now), closeStatus := ended
                            session := s.trust.session.map (fun e => { e with k1 := [], k2 := [] }) } }
  wipeSession (endAllRuns (closeTxn s) eAuth)

/-- CLOSE_SESSION (R401). -/
def execCloseSession (m n : Nat) (s : State) : Host.Outcome State Fault Refusal := .next (orderCmd s m n 0x10 closeSessionOwn)

/-- HOST and PEER transfers are still in flight (R401). -/
def hostPeerInFlight (s : State) : Bool :=
  s.xfers.any (fun x => decide (2 ≤ x.kind)) || s.cores.any (fun c => c.2.writes.any (fun w => decide (2 ≤ w.kind)))

/-- The completion of an order that CLOSE_SESSION ended. -/
def endHeld (s : State) (x : Nat × Nat × BitVec 8) : State :=
  match s.order x.1 x.2.1 with
  | none => s
  | some o =>
    let d := if o.code = 0x0B then commitDetail 0xFFFF 0 0
      else if o.code = 0x04 then (match s.run o.tag with
        | some r => runDetail r x.2.2
        | none => [])
      else []
    complete s o x.2.2 d

/-- CLOSE_SESSION_COMPLETE (R401, R338, R405): the completions of the ended orders, then CLOSE_SESSION's own; the queue
pairs are unbound, SESSION_CLOSED is posted, and background zeroing begins. -/
def execCloseSessionComplete (s : State) : Host.Outcome State Fault Refusal :=
  .next <|
    match s.trust.closing with
    | none => s
    | some (m, n, _) =>
      if hostPeerInFlight s then s
      else
        let l := s.trust.closeStatus
        let sid := match s.trust.session with
          | some e => e.id
          | none => []
        let s := { s with trust := { s.trust with closing := none, closeStatus := [] } }
        let s := ((s.runs.filter (fun r => r.state != 3)).map (fun r => r.tag)).foldl (fun s t => endRun s t eAuth) s
        let s := l.foldl endHeld s
        let s := match s.order m n with
          | some o => complete s o eOk []
          | none => s
        let s := { s.onMem (fun x => { x with zeroing := true, zeroAt := 0 }) with
          runs := [], qps := s.qps.map (fun q => (q.1, { q.2 with bound := false }))
          trust := { s.trust with session := none } }
        postEvent s 0x47 sid

/-! Firmware. -/

/-- A header is well formed (Table 15.2). -/
def headerOk (b : List Byte) : Bool :=
  let slot := field b 0x0D 1
  let len := field b 0x10 4
  decide (4096 ≤ b.length) && field b 0 4 == 0x5A514657 && field b 4 2 == 1 && decide (field b 0x0C 1 ≤ 63) && decide (slot ≤ 3)
    && decide (field b 0x0E 1 ≤ 15) && !bit (field b 0x0E 1) slot && field b 0x0F 1 == 0 && decide (1 ≤ len)
    && decide (len ≤ 16777216) && field b 0x14 12 == 0 && (slice b 0xB44 1212).all (fun x => x == 0)

/-- The signature checks under the key of the image's slot, whose digest matches the fuses (R387). -/
def signatureOk (b : List Byte) : Bool := Config.xmssVerify (field b 0x0D 1) (slice b 0 0x40) (slice b 0x40 2820)

/-- The body's digest is the header's (R387). -/
def bodyOk (b : List Byte) : Bool := shake256 (slice b 4096 (field b 0x10 4)) 32 == slice b 0x20 32

/-- The image's security version and key slot are admitted by the fuses (R387). -/
def fusesOk (s : State) (b : List Byte) : Bool :=
  decide (s.trust.fusedSvn ≤ field b 0x0C 1) && !bit s.trust.revoked (field b 0x0D 1)

/-- An image verifies (R387). -/
def imageOk (s : State) (b : List Byte) : Bool := headerOk b && fusesOk s b && signatureOk b && bodyOk b

/-- A firmware copy replaced. -/
def setCopy (s : State) (c : Nat) (v : FwCopy) : State :=
  if c = 0 then { s with trust := { s.trust with copyA := v } } else { s with trust := { s.trust with copyB := v } }

/-- UPDATE_FIRMWARE's own part (R403, R404): the image read and checked, and its write into the copy that is not running
begun; that copy is EMPTY meanwhile. -/
def updateFirmwareOwn (d : Option (List Byte)) (s : State) (o : Order) : State :=
  let n := field o.bytes 0x2C 4
  let s := hostAsk s o
  match hostRead s o d n with
  | none => complete s o eDataLost []
  | some b =>
    if !headerOk b ∨ n ≠ 4096 + field b 0x10 4 ∨ !fusesOk s b then complete s o ePlan []
    else if !(signatureOk b && bodyOk b) then complete s o eAuth []
    else
      let c := 1 - s.trust.running
      let s := setCopy (beginOrder s o) c { state := 0, image := b }
      { s with trust := { s.trust with update := some (o.mailbox, o.number, c) } }

/-- UPDATE_FIRMWARE (R403). -/
def execUpdateFirmware (m n : Nat) (d : Option (List Byte)) (s : State) : Host.Outcome State Fault Refusal :=
  .next (orderCmd s m n 0x14 (updateFirmwareOwn d))

/-- FIRMWARE_STAGED (R404): the flash write and its read-back end. -/
def execFirmwareStaged (ok : Bool) (s : State) : Host.Outcome State Fault Refusal :=
  .next <|
    match s.trust.update with
    | none => s
    | some (m, n, c) =>
      let v := fwCopy s c
      let s := setCopy { s with trust := { s.trust with update := none } } c { v with state := if ok then 1 else 3 }
      let s := match s.order m n with
        | some o => complete s o (if ok then eOk else eDataLost) []
        | none => s
      if ok then postEvent s 0x42 (items [c, field v.image 0x0C 1]) else s

end Sys2Proof.Machine
end

