-- ==== Sys2Proof/Machine/Health.lean ====
section
/-!
DEFINITION. Health: the coffer's writes (R424 to R430), the shelf scrub (R411), the Imion restart (R414), the power governor
and the current limiter (R415, R416), temperature (R417, R418), and the voltage margin (R419 to R423, R462).
-/

namespace Sys2Proof.Machine

/-! The coffer. -/

/-- Positions of the journal and of the ring, which follow the 64 of the ledger (Table 16.4). -/
abbrev journalLen : Nat := 196608
/-- See journalLen. -/
abbrev ringLen : Nat := 65472

/-- Imion runs: stages IMION, MEMORY and READY, and FAILED_MEMORY (R438, R439). -/
def imionUp (s : State) : Bool := s.pins.stage == 2 || s.pins.stage == 3 || s.pins.stage == 4 || s.pins.stage == 9

/-- An event posted once per reset (R430). -/
def postOnce (s : State) (code : Nat) (detail : List Byte) : State :=
  if s.health.postedOnce.contains code then s
  else postEvent { s with health := { s.health with postedOnce := s.health.postedOnce ++ [code] } } code detail

/-- Where an entry goes: its place in the journal, or in the ring when it is a ring entry or the journal is full; and the
coffer with that place taken (R424, R430). -/
def cofferPlace (c : Coffer) (e : CofferEntry) : Nat × Coffer × CofferEntry :=
  if e.part = 1 ∧ c.journalUsed < journalLen then (64 + c.journalUsed, { c with journalUsed := c.journalUsed + 1 }, e)
  else (64 + journalLen + c.ringNext % ringLen, { c with ringNext := c.ringNext + 1 }, { e with part := 2 })

/-- A copy's entry at a position after a write to it: the entry when the copy is written and checks, nothing when the check
fails, what it was when the copy is not written. -/
def copyAfter (l : List (Nat × CofferEntry)) (pos : Nat) (e : CofferEntry) (written ok : Bool) : List (Nat × CofferEntry) :=
  if !written then erase pos l else if ok then put pos e l else erase pos l

/-- A copy whose write fails its check is degraded (R430). -/
def degrade (s : State) (k : Nat) (written ok : Bool) : State :=
  if !written ∨ ok then s
  else postOnce { s with coffer := { s.coffer with degraded := s.coffer.degraded ++ [k] } } 0x53 (items [k])

/-- The entry at the head of the queue written to copy 0 and to copy 1, each read back and checked (R428, R430). -/
def writeHead (s : State) (ok0 ok1 : Bool) : State :=
  match s.coffer.queue with
  | [] => s
  | e :: rest =>
    let full := e.part = 1 ∧ journalLen ≤ s.coffer.journalUsed
    let (pos, c, e) := cofferPlace s.coffer e
    let w0 := !c.degraded.contains 0
    let w1 := !c.degraded.contains 1
    let gone := !(w0 && ok0) && !(w1 && ok1)
    let lost := c.lost.filter (fun x => x.seq != e.seq)
    let s := { s with coffer := { c with
      queue := rest, copy0 := copyAfter c.copy0 pos e w0 ok0, copy1 := copyAfter c.copy1 pos e w1 ok1
      lost := if gone then lost ++ [{ e with kind := 0xFFFF, payload := List.replicate 36 0 }] else lost } }
    let s := s.bump Ctr.cofferEntries 0 1
    let s := degrade (degrade s 0 w0 ok0) 1 w1 ok1
    if full then postOnce s 0x52 [] else s

/-- COFFER_WRITE (R428): the oldest entry formed is written to both copies. -/
def execCofferWrite (ok0 ok1 : Bool) (s : State) : Host.Outcome State Fault Refusal :=
  .next (if s.pins.stage = 0 ∨ s.pins.stage = 8 then s else writeHead s ok0 ok1)

/-- The entry under way, the oldest one formed, is completed in both copies, and no other is begun (R428). -/
def finishCoffer (s : State) : State :=
  let s := writeHead s true true
  { s with coffer := { s.coffer with queue := [] } }

/-- HOLD_UP (R428): on the loss of power. -/
def execHoldUp (s : State) : Host.Outcome State Fault Refusal := .next (finishCoffer s)

/-! The shelf scrub. -/

/-- 32-byte words of one shelf. -/
abbrev shelfWords : Nat := 393216

/-- A shelf word found uncorrectable is poisoned (R409 class 2, R411). -/
def poisonWord (s : State) (c w : Nat) : State :=
  let k := c * shelfWords + w
  if s.mem.shelfPoison.contains k then s
  else
    let s := s.onMem (fun m => { m with
      shelfPoison := insertN k m.shelfPoison, shelf := memZero m.shelf (c * 12582912 + 32 * w) 32 })
    let s := (s.bump Ctr.shelfPoisonedWords 0 1).bump Ctr.uncorrectableOnchip 0 1
    faultEntry (postEvent s 0x49 (items [c, 32 * w])) 2 0 c (items [c, 32 * w])

/-- SHELF_SCRUB (R410, R411): the next word of a core's shelf is read: clean (0), corrected (1) or uncorrectable. -/
def execShelfScrub (core err : Nat) (s : State) : Host.Outcome State Fault Refusal :=
  .next <|
    if 128 ≤ core ∨ !mainUp s then s
    else
      let w := (s.core core).scrubAt
      let s := if err = 0 ∨ s.mem.shelfPoison.contains (core * shelfWords + w) then s else if err = 1 then s.bump Ctr.shelfCorrected 0 1 else poisonWord s core w
      if w + 1 < shelfWords then s.onCore core (fun c => { c with scrubAt := w + 1 })
      else (s.onCore core (fun c => { c with scrubAt := 0 })).bump Ctr.shelfScrubPasses 0 1

/-! The Imion restart. -/

/-- LOCKSTEP_MISMATCH (R414): both Imion cores stop; a second mismatch within 10 s halts Imion. -/
def execLockstepMismatch (s : State) : Host.Outcome State Fault Refusal :=
  .next <|
    if !imionUp s then s
    else
      let again := match s.health.lastMismatch with
        | some t => decide (s.now < t + 10000000000)
        | none => false
      let s := { s with health := { s.health with imionStopped := true, lastMismatch := some s.now } }
      if again then faultEntry { s with pins := { s.pins with stage := 0xA, causes := s.pins.causes ++ [2] } } 14 4 0 [] else s

/-- IMION_RESTARTED (R414): Imion resumes, and what fell due is sent. -/
def execImionRestarted (s : State) : Host.Outcome State Fault Refusal :=
  .next <|
    if !s.health.imionStopped ∨ s.pins.stage = 0xA then s
    else
      let evs := s.health.fellDue
      let msgs := s.health.dueOut
      let us := match s.health.lastMismatch with
        | some t => (s.now - t) / 1000
        | none => 0
      let s := { s with health := { s.health with imionStopped := false, fellDue := [], dueOut := [] } }
      let s := msgs.foldl (fun s o => sendMgmtNow s o.dest o.addr o.data) (evs.foldl deliverEvent s)
      let s := s.bump Ctr.imionRestarts 0 1
      faultEntry (postEvent s 0x4C (items [us])) 14 4 0 (items [us])

/-! Power. -/

/-- L_eff (R415). -/
def lEff (s : State) : Nat := min (keyNum s 0x0610) s.health.lth

/-- Mean of a list. -/
def mean (l : List Nat) : Nat := l.sum / max 1 l.length

/-- POWER_SAMPLE (R415): package power measured every 1 µs. -/
def execPowerSample (watts : Nat) (s : State) : Host.Outcome State Fault Refusal :=
  .next <|
    if !imionUp s ∧ s.pins.stage ≠ 0xA then s
    else
      let l := (watts :: s.health.samples).take 1000
      { s with health := { s.health with samples := l, meanMs := mean l, mean10 := mean (l.take 10) } }

/-- Power in W that the next 10 µs may draw so that the mean over 1 ms stays within L_eff and that over 10 µs within
1.1 × L_eff (R415). -/
def allowedPower (s : State) : Nat := min (11 * lEff s / 10) ((1000 * lEff s - (s.health.samples.take 990).sum) / 10)

/-- A round of equal sharing: what is left, divided among the cores not yet served; those that ask no more than the share are
served whole, and the rest are shared among the others (R415). -/
def shareOut : Nat → Nat → List (Nat × Nat) → List (Nat × Nat)
  | 0, _, _ => []
  | _, _, [] => []
  | f + 1, left, l =>
    let share := left / l.length
    let (small, big) := l.partition (fun d => decide (d.2 ≤ share))
    if small.isEmpty then l.map (fun d => (d.1, share))
    else small ++ shareOut f (left - (small.map (·.2)).sum) big

/-- The steps withheld from units in their order, of `h` to withhold (R202). -/
def withhold : Nat → List Nat → List Nat
  | _, [] => []
  | h, u :: r => min h u :: withhold (h - min h u) r

/-- A core's issue budget and the steps it withholds for it (R202, R415): first from the weight unit, then from the data unit,
then from the forward engine. A unit issues a step per cc, so each withheld step has its cc, up to the window's 10,000
(log 76). -/
def setBudget (s : State) (d : Nat × List Nat) (b : Nat) : State :=
  let held := d.2.sum - b
  (s.onCore d.1 (fun c => { c with budget := b, withheld := withhold held d.2 })).bump Ctr.govHoldCc d.1 (min held 10000)

/-- GOV_LIMIT_MS grows once for each ms in which the governor withheld (R433). -/
def countHoldMs (s : State) : State :=
  let ms := s.now / 1000000
  if s.health.holdMs = some ms then s
  else ({ s with health := { s.health with holdMs := some ms } }).bump Ctr.govLimitMs 0 1

/-- POWER_LIMITING and a GOVERNOR entry when withholding starts after 1 s without, at most once per second (R416). -/
def noteLimiting (s : State) : State :=
  let long := fun (t : Option Nat) => match t with
    | some t => decide (t + 1000000000 ≤ s.now)
    | none => true
  let post := long s.health.lastHold && long s.health.lastPost
  let s := { s with health := { s.health with lastHold := some s.now } }
  if !post then s
  else
    let s := { s with health := { s.health with lastPost := some s.now } }
    let s := cofferAdd s 0x0005 2 (leBytes 2 (lEff s) ++ leBytes 2 s.health.meanMs ++ leBytes 1 s.health.temp)
    postEvent s 0x4B (items [lEff s, s.health.meanMs])

/-- GOVERNOR_BUDGET (R415): every 10 µs each core's issue budget for the next 10 µs; a core without demand gets no share. The
command carries the demands in steps (of each core its weight unit's, its data unit's and its forward engine's, each at most
one a cc), and the governor's own figures: energy of a step in pJ, and power in W drawn by everything but steps. -/
def execGovernorBudget (demands : List (Nat × List Nat)) (perStep : Nat) (idle : Nat) (s : State) :
    Host.Outcome State Fault Refusal :=
  .next <|
    if !imionUp s then s
    else
      let ds := (demands.map (fun d => (d.1, d.2.map (fun n => min n 10000)))).filter (fun d => decide (d.1 < 128) && decide (0 < d.2.sum))
      let steps := (allowedPower s - idle) * 10000000 / max 1 perStep
      let got := shareOut (ds.length + 1) steps (ds.map (fun d => (d.1, d.2.sum)))
      let s := (below 128 (fun c => !ds.any (fun d => d.1 == c))).foldl (fun s c =>
        s.onCore c (fun k => { k with budget := 0, withheld := [] })) s
      let s := ds.foldl (fun s d => setBudget s d ((look d.1 got).getD 0)) s
      if ds.any (fun d => decide (0 < (s.core d.1).withheld.sum)) then noteLimiting (countHoldMs s) else s

/-- CURRENT_LIMIT (R416): above 1,450 A every core withholds steps, until the estimate falls below 1,400 A. -/
def execCurrentLimit (amps : Nat) (s : State) : Host.Outcome State Fault Refusal :=
  .next <|
    if !mainUp s then s
    else { s with health := { s.health with
      limiting := if 1450 < amps then true else if amps < 1400 then false else s.health.limiting } }

/-! Temperature. -/

/-- The largest of a list and its first place. -/
def hottest : List Nat → Nat → Nat × Nat
  | [], _ => (0, 0)
  | t :: r, i =>
    let (u, j) := hottest r (i + 1)
    if u ≤ t then (t, i) else (u, j)

/-- THROTTLE_MS grows once for each ms with L_th below 1,100 W (R433). -/
def countThrottleMs (s : State) : State :=
  let ms := s.now / 1000000
  if s.health.lth = 1100 ∨ s.health.throttleMs = some ms then s
  else ({ s with health := { s.health with throttleMs := some ms } }).bump Ctr.throttleMs 0 1

/-- The reading T acts under Table 16.3: samples come every 100 µs, so 10 W per ms is 1 W per sample. -/
def thermalAct (s : State) (t sensor : Nat) : State :=
  let old := s.health.temp
  let lth := if t < 92 then min 1100 (s.health.lth + 1) else if t < 95 then s.health.lth else max 300 (s.health.lth - 1)
  let s := { s with health := { s.health with
    temp := t, lth := lth, dayMaxT := max s.health.dayMaxT t
    alertT := if 105 ≤ t then true else if t < 100 then false else s.health.alertT } }
  let s := if 95 ≤ t ∧ old < 95 then postEvent s 0x4D (items [sensor, t, lth]) else s
  let s := if 105 ≤ t ∧ old < 105 then postEvent s 0x4E (items [sensor, t]) else s
  countThrottleMs s

/-- The main domain's volatile state is lost or stopped: everything but the standby domain, the flash, the fuses, the MRAM
die and what the board holds returns to its reset value, in stage STANDBY (R402, R436, R444). The entry under way in the
coffer is completed first (R428). -/
def mainReset (s : State) : State :=
  let s := finishCoffer s
  let t := s.trust
  { State.reset with
    now := s.now, pending := s.pending, free := s.free, out := s.out
    mem := { shelf := s.mem.shelf, cellar := s.mem.cellar, side := s.mem.side, ddr := s.mem.ddr, shelfPoison := s.mem.shelfPoison
             bad := s.mem.bad, ddrPoison := s.mem.ddrPoison, zeroing := true }
    trust := { serial := t.serial, copyA := t.copyA, copyB := t.copyB, preferred := t.preferred, fusedSvn := t.fusedSvn
               revoked := t.revoked, index0 := t.index0, index1 := t.index1, identityPk := t.identityPk }
    coffer := { s.coffer with degraded := [] }
    health := { guard := s.health.guard, vmax := s.health.vmax, setpoint := s.health.setpoint }
    pins := { s.pins with stage := 0, haltAt := s.now, triedPending := false, trialFailed := false, bootEvents := [] }
    counters := s.counters.filter (fun c => c.1 / 2 ^ 32 == 0x1109) }

/-- The first cause of R445 that stands. -/
def causeOf (l : List Nat) : Nat := if l.contains 3 then 3 else if l.contains 2 then 2 else if l.contains 1 then 1 else 0

/-- A reset's cause noted for the next BOOT entry, and readable over I3C (R445). -/
def noteCause (s : State) (c : Nat) : State :=
  let l := s.pins.causes ++ [c]
  { s with pins := { s.pins with causes := l, bootCause := causeOf l } }

/-- The device trips (R418, R446): THERMTRIP_N is latched, one FAULT entry is written under hold-up, and all issue and
traffic stops. -/
def trip (s : State) : State :=
  if s.pins.thermtrip ∨ !s.pins.stby then s
  else
    let h := s.health
    let s := faultEntry (finishCoffer s) Config.tripClass.toNat 5 0 []
    let s := noteCause (mainReset s) 3
    { s with health := { s.health with temp := h.temp, meanMs := h.meanMs }, pins := { s.pins with thermtrip := true, stage := 0xB } }

/-- THERMAL_SAMPLE (R417): the junction sensors are read, and the hottest acts. -/
def execThermalSample (temps : List Nat) (s : State) : Host.Outcome State Fault Refusal :=
  .next <|
    if (!imionUp s ∧ s.pins.stage ≠ 0xA) ∨ temps.isEmpty then s
    else
      let (t, i) := hottest temps 0
      if 115 ≤ t then trip { s with health := { s.health with temp := t } } else thermalAct s t i

/-- THERMTRIP (R418): a sensor's comparator finds 115 °C. -/
def execThermtrip (_sensor : Nat) (s : State) : Host.Outcome State Fault Refusal := .next (trip s)

/-! The voltage margin. -/

/-- The ceiling of VDD_CORE in mV (R420, R463). -/
abbrev ceiling : Nat := 860

/-- MARGIN_LOW once per reset, at a headroom of at most 20 mV (R422). -/
def noteMargin (s : State) : State :=
  let room := ceiling - (s.health.vmax + s.health.guard)
  if s.health.lowPosted ∨ 20 < room then s
  else postEvent { s with health := { s.health with lowPosted := true } } 0x50 (items [s.health.guard, room])

/-- A rise of G is due (R420 to R422): taken, refused at the ceiling, or put off within 1 ms of the last. -/
def raiseG (s : State) (slack mon : Nat) (tripped : Bool) : State :=
  let h := s.health
  let soon := match h.lastRise with
    | some t => decide (s.now < t + 1000000)
    | none => false
  if soon then s
  else if ceiling < h.vmax + h.guard + 5 then
    let s := s.bump Ctr.marginDenied 0 1
    if h.exhausted then s
    else postEvent { s with health := { h with exhausted := true } } 0x51 (items [h.guard, slack])
  else
    let s := ({ s with health := { h with guard := h.guard + 5, lastRise := some s.now } }).bump Ctr.marginSteps 0 1
    noteMargin (postEvent s 0x4F (items [h.guard + 5, slack, mon, b2n tripped]))

/-- The smallest of a list and its first place. -/
def coldest : List Nat → Nat → Nat × Nat
  | [], _ => (65535, 0)
  | t :: r, i =>
    let (u, j) := coldest r (i + 1)
    if t ≤ u then (t, i) else (u, j)

/-- MARGIN_SAMPLE (R419, R420): all monitors are sampled. -/
def execMarginSample (slacks : List Nat) (s : State) : Host.Outcome State Fault Refusal :=
  .next <|
    if !imionUp s ∨ slacks.isEmpty then s
    else
      let (m, i) := coldest slacks 0
      let s := if m < s.health.dayMinS then { s with health := { s.health with dayMinS := m, dayMon := i } } else s
      if m < 30 then raiseG s m i false else s

/-- MARGIN_TRIP (R421): a monitor finds its slack below 10 ps. -/
def execMarginTrip (mon slack : Nat) (s : State) : Host.Outcome State Fault Refusal :=
  .next (if !imionUp s ∨ 10 ≤ slack then s else raiseG (s.bump Ctr.marginTrips 0 1) slack mon true)

/-- MARGIN_DAILY (R422, R426): once each 24 h. -/
def execMarginDaily (s : State) : Host.Outcome State Fault Refusal :=
  .next <|
    if !imionUp s then s
    else
      let h := s.health
      let s := cofferAdd s 0x0007 1 (leBytes 2 h.guard ++ leBytes 2 h.dayMinS ++ leBytes 1 h.dayMon ++ leBytes 1 h.dayMaxT)
      { s with health := { h with dayMinS := 65535, dayMon := 0, dayMaxT := 0 } }

/-- V_base (R420): what the fused table gives for the present temperature and load, from 0.70 V and to V_max. -/
def vBase (s : State) : Nat := max 700 (min s.health.vmax (Config.fusedVoltage s.health.temp s.health.meanMs))

/-- The setpoint V_base + G, never above the ceiling (R420). -/
def aim (s : State) : Nat := min ceiling (vBase s + s.health.guard)

/-- The next setpoint to request: at most 5 mV from the last one acknowledged toward the aim (R420). -/
def nextSetpoint (s : State) : Nat :=
  let v := s.health.setpoint
  if v < aim s then min (aim s) (v + 5) else max (aim s) (v - 5)

/-- AVS_SETPOINT (R420, R462): the setpoint not yet acknowledged, or the next one, is written over the AVSBus. -/
def execAvsSetpoint (acked : Bool) (s : State) : Host.Outcome State Fault Refusal :=
  .next <|
    if !imionUp s ∧ s.pins.stage ≠ 0xA then s
    else
      let s := { s with health := { s.health with vbase := vBase s } }
      let want := match s.health.wanted with
        | some w => w
        | none => nextSetpoint s
      if want = s.health.setpoint ∧ s.health.wanted.isNone then s
      else
        let s := s.emit { kind := 9, dest := 0, addr := want, data := leBytes 2 want }
        if acked then { s with health := { s.health with setpoint := want, wanted := none } }
        else { s with health := { s.health with wanted := some want } }

end Sys2Proof.Machine
end

