-- ==== Sys2Proof/Machine/Boot.lean ====
section
/-!
DEFINITION. Power and boot: rails and clocks (R435 to R437, R464, R466), RESET_N (R444, R445), the stages from reset to READY
(R438, R439), the choice of a firmware copy (R387 to R389), the coffer's reconciliation (R429), and DDR training (R301).
-/

namespace Sys2Proof.Machine

/-! Into stage ROM, and resets of the main domain. -/

/-- RESET_N is released, every main rail is at 90 % or more, REFCLK_CORE is there and THERMTRIP_N is released. -/
def mayBoot (s : State) : Bool :=
  s.pins.stby && s.pins.stage == 0 && !s.pins.resetN && !s.pins.thermtrip && s.pins.refCore
    && (List.range 6).all (fun r => s.pins.rails.contains r)

/-- Stage ROM begins when everything for it is there (R435, R436, R438, R466). -/
def tryBoot (s : State) : State :=
  if mayBoot s then
    { s with pins := { s.pins with stage := 1 }, coffer := { s.coffer with boot := s.coffer.boot + 1 } }
  else s

/-- The main domain is reset for a cause of R445. A device in STANDBY has none to reset. -/
def resetFor (s : State) (cause : Nat) : State := if s.pins.stage = 0 then s else noteCause (mainReset s) cause

/-- RESET_N_ASSERT (R440, R444): the main domain is reset. A tripped device stays tripped (R446). -/
def execResetNAssert (s : State) : Host.Outcome State Fault Refusal :=
  .next <|
    if s.pins.resetN ∨ !s.pins.stby then s
    else
      let s := if s.pins.stage = 0xB then s else if s.pins.stage = 0 then noteCause s 1 else resetFor s 1
      { s with pins := { s.pins with resetN := true } }

/-- RESET_N_RELEASE (R435, R436, R438, R466). -/
def execResetNRelease (s : State) : Host.Outcome State Fault Refusal :=
  .next (if !s.pins.stby then s else tryBoot { s with pins := { s.pins with resetN := false } })

/-- RAIL_RISE (R435, R436): a main rail reaches 90 %; before one that Table 17.2 puts earlier, it sets RAIL_ORDER. -/
def execRailRise (r : Nat) (s : State) : Host.Outcome State Fault Refusal :=
  .next <|
    if 6 ≤ r ∨ s.pins.rails.contains r ∨ !s.pins.stby then s
    else
      let ordered := (List.range r).all (fun k => s.pins.rails.contains k)
      let s := { s with pins := { s.pins with rails := s.pins.rails ++ [r], railOrder := s.pins.railOrder || !ordered } }
      let s := if r = 1 then { s with health := { s.health with setpoint := 750, wanted := none } } else s
      tryBoot s

/-- The TAP controller in Test-Logic-Reset with IDCODE selected (R461, log 5). -/
def tapReset (s : State) : State := { s with pins := { s.pins with tap := 0, tapIr := 2, tapShift := 0, tdo := false } }

/-- RAIL_LOW (R436): a main rail falls below 90 %. -/
def execRailLow (r : Nat) (s : State) : Host.Outcome State Fault Refusal :=
  .next <|
    if !s.pins.rails.contains r then s
    else
      let s := resetFor s 0
      let s := { s with pins := { s.pins with rails := s.pins.rails.filter (fun x => x != r) } }
      if r = 0 then tapReset s else s

/-- The standby domain is reset (R437): the ladder, the sub-port records, the latch and its counters; and with it the main
domain, which only its rail monitor lets run. -/
def stbyFall (s : State) : State :=
  let s := resetFor s 0
  { s with
    counters := s.counters.filter (fun c => c.1 / 2 ^ 32 != 0x1109)
    pins := { State.reset.pins with
      stby := false, rails := s.pins.rails, refCore := s.pins.refCore, refSer := s.pins.refSer, causes := [0], tap := s.pins.tap
      tapIr := s.pins.tapIr, tapShift := s.pins.tapShift, tdo := s.pins.tdo } }

/-- RAIL_HIGH (R464): a main rail stays above its range for more than 10 µs and resets the main domain as a low rail does;
the standby rail (6) above its range resets the standby domain. -/
def execRailHigh (r : Nat) (s : State) : Host.Outcome State Fault Refusal :=
  .next <|
    if r = 6 then (if s.pins.stby then let t := stbyFall s; { t with pins := { t.pins with stby := true } } else s)
    else if !s.pins.rails.contains r then s
    else tryBoot (if s.pins.stage = 0xB then s else resetFor s 0)

/-- VDD_STBY_APPLIED (R435, R452): the standby domain leaves its reset, its counters zero. -/
def execVddStbyApplied (s : State) : Host.Outcome State Fault Refusal :=
  .next (if s.pins.stby then s else { s with pins := { s.pins with stby := true } })

/-- VDD_STBY_FALL (R437, R448): the standby domain is reset, and with it the ladder and the sub-port records. -/
def execVddStbyFall (s : State) : Host.Outcome State Fault Refusal := .next (if s.pins.stby then stbyFall s else s)

/-- THERMTRIP_RELEASE (R446): VDD_CORE has stayed below 0.1 V for 10 ms. -/
def execThermtripRelease (s : State) : Host.Outcome State Fault Refusal :=
  .next <|
    if !s.pins.thermtrip ∨ s.pins.rails.contains 1 then s else tryBoot { s with pins := { s.pins with thermtrip := false } }

/-- REFCLK_CORE_DETECT (R466): the clock has been detected for 1 ms without a break. -/
def execRefclkCoreDetect (s : State) : Host.Outcome State Fault Refusal :=
  .next (tryBoot { s with pins := { s.pins with refCore := true } })

/-- REFCLK_CORE_LOSS (R466): the main domain is reset as for a low rail. -/
def execRefclkCoreLoss (s : State) : Host.Outcome State Fault Refusal :=
  .next <|
    let s := if s.pins.stage = 0xB then s else resetFor s 0
    { s with pins := { s.pins with refCore := false } }

/-- Links that a reference clock serves (R465). -/
def clockLinks (n : Nat) : List Nat := below 96 (fun l => n == (if l < 48 then 0 else 1))

/-- REFCLK_SER_CHANGE (R465, R466): the links that REFCLK_SERn serves stop training without it, and train once it is back. A
port it serves comes up by PORT_UP. -/
def execRefclkSerChange (n : Nat) (ok : Bool) (s : State) : Host.Outcome State Fault Refusal :=
  .next <|
    if 4 ≤ n then s
    else
      let l := (maskBits 4 s.pins.refSer).filter (fun k => k != n)
      let s := { s with pins := { s.pins with refSer := bitsMask (if ok then l ++ [n] else l) } }
      if !mainUp s then s
      else
        (clockLinks n).foldl (fun s l =>
          if ok ∧ (s.link l).state = 0 then s.onLink l (fun k => { k with state := 1 })
          else if !ok ∧ (s.link l).state = 1 then s.onLink l (fun k => { k with state := 0 })
          else s) s

/-! Stage ROM. -/

/-- Values of the identity key's index that its records hold (R391). -/
def indexRecords (s : State) : List Nat :=
  let ledger := fun (l : List (Nat × CofferEntry)) => (l.filter (fun e => e.2.kind == 1)).map (fun e => e.2.seq)
  s.trust.index0.toList ++ s.trust.index1.toList ++ ledger s.coffer.copy0 ++ ledger s.coffer.copy1

/-- The next index restored (R391): the greatest that a record holds; with none, signing is disabled. -/
def restoreIndex (s : State) : State :=
  let l := indexRecords s
  if l.isEmpty then { s with trust := { s.trust with signDisabled := true } }
  else
    let n := l.foldl max 0
    { s with trust := { s.trust with next := n, index0 := some n, index1 := some n, signDisabled := false } }

/-- Boot runs a copy (R388, R389): it is measured, and stage IMION begins. -/
def runCopy (s : State) (c : Nat) (trial failed : Bool) : State :=
  let img := (fwCopy s c).image
  { s with
    trust := { s.trust with running := c, fallback := !trial && c != s.trust.preferred, fwDigest := shake256 (slice img 0 0x40) 32 }
    pins := { s.pins with stage := 2, triedPending := trial, imionAt := s.now
                          bootEvents := if failed then s.pins.bootEvents ++ [(0x40, items [c])] else s.pins.bootEvents } }

/-- A copy becomes BAD. -/
def markBad (s : State) (c : Nat) : State := setCopy s c { fwCopy s c with state := 3 }

/-- A GOOD copy tried: run, or made BAD (R388). -/
def tryGood (s : State) (c : Nat) (failed : Bool) : State × Bool :=
  if (fwCopy s c).state ≠ 2 then (s, false)
  else if imageOk s (fwCopy s c).image then (runCopy s c false failed, true)
  else (markBad s c, false)

/-- The preferred GOOD copy, else the other GOOD copy; with neither, FAILED_IMAGE (R388, R439). -/
def bootGood (s : State) (failed : Bool) : State :=
  let p := s.trust.preferred
  let was := (fwCopy s p).state == 2
  let (s, done) := tryGood s p failed
  if done then s
  else
    let (s, done) := tryGood s (1 - p) (failed || was)
    if done then s else { s with pins := { s.pins with stage := 8 } }

/-- A copy in state PENDING. -/
def pendingCopy (s : State) : Option Nat := [0, 1].find? (fun c => (fwCopy s c).state == 1)

/-- Boot's choice of a copy (R388). A PENDING copy is written BAD in flash before its code runs. -/
def chooseCopy (s : State) : State :=
  match pendingCopy s with
  | none => bootGood s s.pins.trialFailed
  | some c =>
    let s := markBad s c
    if imageOk s (fwCopy s c).image then runCopy s c true false else bootGood s true

/-- STAGE_ROM (R386 to R391, R438): the index is restored, and a firmware copy is chosen and verified. -/
def execStageRom (s : State) : Host.Outcome State Fault Refusal :=
  .next (if s.pins.stage = 1 then chooseCopy (restoreIndex s) else s)

/-! Stage IMION. -/

/-- The greatest sequence number of entries that both copies hold. -/
def lastInBoth (c : Coffer) : Nat :=
  ((c.copy0.filter (fun e => e.2.part != 0 && look e.1 c.copy1 == some e.2)).map (fun e => e.2.seq)).foldl max 0

/-- Entries of one copy put into the other where that has none. -/
def fillFrom (a b : List (Nat × CofferEntry)) : List (Nat × CofferEntry) :=
  b.foldl (fun a e => if (look e.1 a).isSome then a else put e.1 e.2 a) a

/-- The two copies reconciled (R429), and the sequence continued (R425). -/
def reconcile (s : State) : State :=
  let c := s.coffer
  let lost := (c.lost.filter (fun e => decide (lastInBoth c < e.seq))).length
  let c0 := fillFrom c.copy0 c.copy1
  let c1 := fillFrom c.copy1 c0
  let top := ((c0.filter (fun e => e.2.part != 0)).map (fun e => e.2.seq)).foldl max 0
  ({ s with coffer := { c with copy0 := c0, copy1 := c1, nextSeq := top + 1, degraded := [] } }).bump Ctr.cofferLostEntries 0 lost

/-- G from the latest MARGIN_STEP entry (R423). -/
def restoreG (s : State) : State :=
  let l := (s.coffer.copy0.map (·.2)).filter (fun e => e.kind == 0x014F)
  let top := (l.map (fun e => e.seq)).foldl max 0
  match l.find? (fun e => e.seq == top) with
  | some e => { s with health := { s.health with guard := field e.payload 0 4 } }
  | none => s

/-- The setpoint V_base + G is requested (R420, R438). -/
def requestSetpoint (s : State) : State :=
  let s := { s with health := { s.health with vbase := vBase s } }
  if nextSetpoint s = s.health.setpoint then s else { s with health := { s.health with wanted := some (nextSetpoint s) } }

/-- The BOOT entry (Table 16.6). -/
def bootEntry (s : State) : State :=
  let img := runningImage s
  let s := cofferAdd s 0x0002 1 (leBytes 1 s.trust.running ++ slice img 0x0C 1 ++ fwVersion s ++ leBytes 1 (causeOf s.pins.causes)
    ++ leBytes 3 0 ++ slice s.trust.fwDigest 0 24)
  { s with pins := { s.pins with bootCause := causeOf s.pins.causes, causes := [] } }

/-- STAGE_IMION (R402, R422, R423, R429, R438, R445): Imion starts. -/
def execStageImion (s : State) : Host.Outcome State Fault Refusal :=
  .next <|
    if s.pins.stage ≠ 2 then s
    else
      let s := restoreG (reconcile (s.onMem wipeMem))
      let s := bootEntry (newPair (requestSetpoint s))
      noteMargin { s with pins := { s.pins with stage := 3 } }

/-! Stage MEMORY. -/

/-- Both copies are GOOD and boot has made one preferred: fuses are blown (R389). -/
def blowFuses (s : State) : State :=
  let a := s.trust.copyA
  let b := s.trust.copyB
  if a.state ≠ 2 ∨ b.state ≠ 2 then s
  else
    let svn := max s.trust.fusedSvn (min (field a.image 0x0C 1) (field b.image 0x0C 1))
    let mask := field (fwCopy s s.trust.preferred).image 0x0E 1
    let free := below 4 (fun k => bit mask k && field a.image 0x0D 1 != k && field b.image 0x0D 1 != k)
    let t := { s with trust := { s.trust with fusedSvn := svn, revoked := s.trust.revoked ||| bitsMask free } }
    if s.trust.fusedSvn < svn then postEvent t 0x41 (items [svn, t.trust.revoked]) else t

/-- A PENDING copy on trial has reached READY: it becomes GOOD and preferred (R388). -/
def trialGood (s : State) : State :=
  if !s.pins.triedPending then s
  else
    let c := s.trust.running
    let s := setCopy s c { fwCopy s c with state := 2 }
    let s := { s with trust := { s.trust with preferred := c }, pins := { s.pins with triedPending := false } }
    blowFuses s

/-- Stage READY begins (R388, R438): the chip links train, and what boot kept for it is posted. -/
def enterReady (s : State) : State :=
  let s := { s with pins := { s.pins with stage := 4 } }
  let s := (below 96 (fun l => bit s.pins.refSer (if l < 48 then 0 else 1))).foldl (fun s l =>
    s.onLink l (fun k => { k with state := 1 })) s
  let s := trialGood s
  let evs := s.pins.bootEvents
  evs.foldl (fun s e => postEvent s e.1 e.2) { s with pins := { s.pins with bootEvents := [] } }

/-- The rates of Table 11.1 from the highest that every module declares. -/
def ratesFrom (declared : Nat) : List Nat := [8800, 8000, 6400].filter (fun r => decide (r ≤ declared))

/-- The first channel that fails training at a rate. -/
def firstFail (fails : List (Nat × Nat)) (rate : Nat) : Option Nat :=
  (below 24 (fun c => fails.contains (rate, c))).head?

/-- FAILED_MEMORY (R439): one FAULT entry names the first failing channel. -/
def failMemory (s : State) (ch : Nat) : State := faultEntry { s with pins := { s.pins with stage := 9 } } 8 2 ch []

/-- STAGE_MEMORY (R300, R301, R388, R438, R439): the modules declare their highest common rate; some channels are unpopulated
or unsupported; and at some rates some channels fail training (rate, channel). A trial that takes more than 2 s fails. -/
def execStageMemory (declared : Nat) (unsupported : List Nat) (fails : List (Nat × Nat)) (s : State) :
    Host.Outcome State Fault Refusal :=
  .next <|
    if s.pins.stage ≠ 3 then s
    else if s.pins.triedPending ∧ s.pins.imionAt + 2000000000 < s.now then
      { s with pins := { s.pins with stage := 1, triedPending := false, trialFailed := true } }
    else
      match (below 24 (fun c => unsupported.contains c)).head? with
      | some c => failMemory s c
      | none =>
        match (ratesFrom declared).find? (fun r => (firstFail fails r).isNone) with
        | none => failMemory s ((firstFail fails 6400).getD 0)
        | some r =>
          let s := s.onMem (fun m => { m with ddrRate := r })
          enterReady (if r < declared then
            { s with pins := { s.pins with
              bootEvents := s.pins.bootEvents ++ [(0x24, items [r, declared, (firstFail fails declared).getD 0])] } }
          else s)

end Sys2Proof.Machine
end

