-- ==== Sys2Proof/Machine/Ddr.lean ====
section
/-!
DEFINITION. The DDR channels: their queues (R305), bursts read, written and added to (R304 to R307), correction, marked
devices and poison (R307 to R310), retries and retraining (R311), fresh frames (R314), scrub and zeroing (R309, R315).
-/

namespace Sys2Proof.Machine

/-- Bursts of one channel: 31,250,000 lines of 64 (R302). -/
abbrev chanBursts : Nat := 2000000000

/-- Burst k of a channel as a burst of the space (R302). -/
def chanBurst (ch k : Nat) : Nat := (ch + 24 * (k / 64)) * 64 + k % 64

/-- Subchannel and rank of a burst (R302). -/
def burstPlace (b : Nat) : Nat × Nat :=
  (b % 64 % 2, Config.ddrRank (chanOf (64 * b)) (b / 64 / 24) % 2)

/-- The place of a device in the marked bits of a channel (Table 11.3). -/
def deviceKey (rank sub d : Nat) : Nat := 20 * rank + 10 * sub + d

/-- What correction makes of a burst (R307, R308): 0 clean, 1 corrected, 2 uncorrectable; and the device a correction was
confined to. errs are the devices in error as a whole, extra the erroneous bytes in others. -/
def correct (marked errs : List Nat) (extra : Nat) : Nat × Option Nat :=
  let hit := errs.filter (fun d => marked.contains d)
  let rest := errs.filter (fun d => !marked.contains d)
  match marked with
  | [] =>
    match rest, extra with
    | [], 0 => (0, none)
    | [d], 0 => (1, some d)
    | _, _ => (2, none)
  | [_] =>
    if !rest.isEmpty || decide (4 < extra) then (2, none)
    else if hit.isEmpty && extra == 0 then (0, none)
    else (1, none)
  | _ => (2, none)

/-- A correction confined to one device is noted; the sixteenth distinct burst of a scrub pass marks the device (R308). -/
def noteFix (s : State) (ch b d : Nat) : State :=
  let (sub, rank) := burstPlace b
  let key := deviceKey rank sub d
  let c := s.chan ch
  let fixes := if c.fixes.contains (key, b) then c.fixes else c.fixes ++ [(key, b)]
  let s := s.setChan ch { c with fixes := fixes }
  if (fixes.filter (fun f => f.1 == key)).length < 16 ∨ c.marked.contains (rank, sub, d) then s
  else
    (postEvent (s.onChan ch (fun c => { c with marked := c.marked ++ [(rank, sub, d)] })) 0x20 (items [ch, sub, rank, d])).bump
      Ctr.deviceFailures ch 1

/-- A burst found uncorrectable is poisoned (R310, R409 class 7). -/
def poisonBurst (s : State) (ch b : Nat) : State :=
  let s := s.onMem (fun m => { m with ddrPoison := insertN b m.ddrPoison })
  let s := ((s.bump Ctr.uncorrectable ch 1).bump Ctr.poisonedBursts ch 1).bump Ctr.bytesWritten ch 64
  faultEntry (postEvent s 0x21 (leBytes 8 (64 * b))) 7 2 ch (leBytes 8 (64 * b))

/-- What reading a burst from DRAM with the errors found in it does (R307, R308, R310): false when no byte of it is
delivered. -/
def readBurst (s : State) (ch b : Nat) (errs : List Nat) (extra : Nat) : State × Bool :=
  if (s.chan ch).lost ∨ s.mem.ddrPoison.contains b then (s, false)
  else
    let (sub, rank) := burstPlace b
    let marked := ((s.chan ch).marked.filter (fun m => m.1 == rank && m.2.1 == sub)).map (fun m => m.2.2)
    match correct marked errs extra with
    | (0, _) => (s, true)
    | (1, some d) => (noteFix (s.bump Ctr.corrected ch 1) ch b d, true)
    | (1, none) => (s.bump Ctr.corrected ch 1, true)
    | _ => (poisonBurst s ch b, false)

/-- DDR_QUEUE_ENTRY (R305, R372): a request within one burst of the channel enters its queue; without a session no access
arises (R313). -/
def execDdrQueueEntry (ch req op addr len : Nat) (d : List Byte) (s : State) : Host.Outcome State Fault Refusal :=
  .next <|
    if !sessionOpen s ∨ 24 ≤ ch ∨ chanOf addr ≠ ch ∨ len = 0 ∨ 64 < addr % 64 + len ∨ wholeFrames ≤ frameOf addr ∨ 2 < op then s
    else
      let e : DdrEntry := { id := s.nextXfer, op := op, addr := addr, len := len, data := slice d 0 len, requester := req }
      { s with nextXfer := (s.nextXfer + 1) % 2 ^ 31 }.onChan ch (fun c => { c with queue := c.queue ++ [e] })

/-- The entry at the head of a channel's queue, when it is of an operation and the channel is not retraining (R305, R311);
for a write into a fresh frame, which fills it first, no channel is (R314). -/
def headEntry (s : State) (ch op : Nat) : Option DdrEntry :=
  match (s.chan ch).queue with
  | e :: _ =>
    if e.op ≠ op ∨ (s.chan ch).training then none
    else if op ≠ 0 ∧ !s.mem.filled.contains (frameOf e.addr) ∧ anyTraining s then none
    else some e
  | [] => none

/-- The head entry is served and answered; retries are over (R305, R311). -/
def answer (s : State) (ch : Nat) (e : DdrEntry) (d : Option (List Byte)) : State :=
  s.onChan ch (fun c => { c with queue := c.queue.drop 1, replies := c.replies ++ [(e.id, d)], retries := 0 })

/-- A burst read from DRAM counts (R320); a lost channel moves no bytes (R311). -/
def countBurst (s : State) (ch : Nat) : State := if (s.chan ch).lost then s else s.bump Ctr.bytesRead ch 64

/-- BURST_READ (R305, R307, R310, R314). -/
def execBurstRead (ch : Nat) (errs : List Nat) (extra : Nat) (s : State) : Host.Outcome State Fault Refusal :=
  .next <|
    match headEntry s ch 0 with
    | none => s
    | some e =>
      if !s.mem.filled.contains (frameOf e.addr) ∧ !(s.chan ch).lost then
        answer s ch e (some (List.replicate e.len 0))
      else
        let (s, ok) := readBurst (countBurst s ch) ch (e.addr / 64) errs extra
        answer s ch e (if ok then some (memRead s.mem.ddr e.addr e.len) else none)

/-- The read of a read-modify-write (R304, R306), of a frame filled first when it is fresh: true when the burst is bad. -/
def partialBad (s : State) (ch : Nat) (e : DdrEntry) (errs : List Nat) (extra : Nat) : State × Bool :=
  let (s, ok) := readBurst (freshFill s (frameOf e.addr)) ch (e.addr / 64) errs extra
  if ok then (s, false) else (countBurst s ch, true)

/-- BURST_WRITE (R304, R310, R314): a whole burst is written, a part by read-modify-write. -/
def execBurstWrite (ch : Nat) (errs : List Nat) (extra : Nat) (s : State) : Host.Outcome State Fault Refusal :=
  .next <|
    match headEntry s ch 1 with
    | none => s
    | some e =>
      let (s, bad) := if e.len < 64 then partialBad s ch e errs extra else (freshFill s (frameOf e.addr), false)
      if bad then answer s ch e none
      else
        let (s, ok) := burstWrite s (e.addr / 64) (cellsAt e.addr (slice e.data 0 e.len))
        answer s ch e (if ok then some [] else none)

/-- ATOMIC_ADD_BURST (R306): every addend that falls in the burst is added, and nothing else touches it in between. -/
def execAtomicAddBurst (ch : Nat) (errs : List Nat) (extra : Nat) (s : State) : Host.Outcome State Fault Refusal :=
  .next <|
    match headEntry s ch 2 with
    | none => s
    | some e =>
      let (s, bad) := partialBad s ch e errs extra
      if bad then answer s ch e none
      else
        let (s, ok) := ddrAdd s e.addr (bytesF32 (e.len / 4) e.data)
        answer s ch e (if ok then some [] else none)

/-- FRESH_FILL (R314): a fresh frame is filled with encrypted zeros before its first write. -/
def execFreshFill (frame : Nat) (s : State) : Host.Outcome State Fault Refusal :=
  .next (if !sessionOpen s ∨ wholeFrames ≤ frame ∨ anyTraining s then s else freshFill s frame)

/-- The scrub pass goes on by one burst; a pass completed is counted and begins anew (R309). -/
def scrubNext (s : State) (ch : Nat) : State :=
  let k := (s.chan ch).scrubAt + 1
  if k < chanBursts then s.onChan ch (fun c => { c with scrubAt := k })
  else (s.onChan ch (fun c => { c with scrubAt := 0, fixes := [] })).bump Ctr.scrubPasses ch 1

/-- SCRUB (R309, R310): in an idle channel cycle a burst is read, corrected and rewritten if corrected; a poisoned one is
skipped. -/
def execScrub (ch : Nat) (errs : List Nat) (extra : Nat) (s : State) : Host.Outcome State Fault Refusal :=
  .next <|
    let c := s.chan ch
    if 24 ≤ ch ∨ !mainUp s ∨ !c.queue.isEmpty ∨ c.training ∨ c.lost then s
    else
      let b := chanBurst ch c.scrubAt
      if s.mem.ddrPoison.contains b then scrubNext s ch
      else
        let before := s.counter Ctr.corrected ch
        let (s, ok) := readBurst (s.bump Ctr.bytesRead ch 64) ch b errs extra
        let s := if ok ∧ before < s.counter Ctr.corrected ch then s.bump Ctr.bytesWritten ch 64 else s
        scrubNext s ch

/-- LINK_RETRY (R311): a write CRC or parity error is retried up to 8 times, then the channel retrains. -/
def execLinkRetry (ch : Nat) (s : State) : Host.Outcome State Fault Refusal :=
  .next <|
    let c := s.chan ch
    if 24 ≤ ch ∨ !mainUp s ∨ c.lost ∨ c.training then s
    else if 8 ≤ c.retries then s.setChan ch { c with training := true }
    else (s.setChan ch { c with retries := c.retries + 1 }).bump Ctr.linkRetries ch 1

/-- CHANNEL_RETRAIN (R311): retraining of a channel that used up its retries or lost training ends. -/
def execChannelRetrain (ch : Nat) (ok : Bool) (s : State) : Host.Outcome State Fault Refusal :=
  .next <|
    let c := s.chan ch
    if 24 ≤ ch ∨ !mainUp s ∨ c.lost then s
    else if ok then (s.setChan ch { c with training := false, retries := 0 }).bump Ctr.channelRetrains ch 1
    else
      faultEntry (postEvent (s.setChan ch { c with training := false, retries := 0, lost := true }) 0x22 (items [ch])) 8 2 ch
        (items [ch])

/-- Bursts of the DDR space (R302). -/
abbrev ddrBursts : Nat := 48000000000

/-- One frame of background zeroing (R315); a frame the session filled is skipped. -/
def zeroFrame (s : State) (frame : Nat) : State :=
  if s.mem.filled.contains frame then s else zeroLines s frame (if frame < wholeFrames then 512 else 384)

/-- BACKGROUND_ZEROING (R315): in idle channel cycles the next 2 MiB of DDR are zeroed (log 62); at the end DDR_ZEROED is
posted. -/
def execBackgroundZeroing (s : State) : Host.Outcome State Fault Refusal :=
  .next <|
    if !s.mem.zeroing ∨ !mainUp s ∨ s.chans.any (fun c => !c.2.queue.isEmpty || c.2.training) then s
    else
      let s := zeroFrame s (s.mem.zeroAt / 32768)
      let n := s.mem.zeroAt + 32768
      if n < ddrBursts then s.onMem (fun m => { m with zeroAt := n })
      else postEvent (s.onMem (fun m => { m with zeroAt := ddrBursts, zeroing := false })) 0x23 []

end Sys2Proof.Machine
end

