-- ==== Sys2Proof/Machine/Eth.lean ====
section
/-!
DEFINITION. The Ethernet sub-ports: RoCE packets as received (R325, R326, R331), other frames (R324), links up and down
(R323, R344), flow control (R339), congestion (R340), MACsec (R341) and PTP (R343).
-/

namespace Sys2Proof.Machine

/-- MACSEC_POLICY of a sub-port is REQUIRED (R341). -/
def macsecOn (s : State) (u : Nat) : Bool := keyNum s (0x0520 + u) == 1

/-- A frame passes MACsec (R341): unprotected where the policy is OFF; otherwise valid under the installed SAK and of a
packet number not yet used. -/
def macsecOk (s : State) (u : Nat) (secOk : Bool) (pn : Nat) : Bool :=
  !macsecOn s u || ((s.port u).sak.isSome && secOk && decide ((s.port u).nextPn ≤ pn))

/-- The packet number of an accepted frame is used up. -/
def macsecUse (s : State) (u pn : Nat) : State :=
  if macsecOn s u then s.onPort u (fun p => { p with nextPn := pn + 1 }) else s

/-! RoCE packets. -/

/-- Bytes of the extended header of a received packet, by its operation and place. -/
def rxExt (k : RocePacket) : Nat :=
  match k.op with
  | 0 => 0
  | 1 => if k.dmaLen = 0 then 0 else 16
  | 2 => if k.dmaLen = 0 then 4 else 20
  | 3 => 16
  | 4 => 28
  | _ => 4

/-- Packet numbers from one to another, forward. -/
def psnDiff (a b : Nat) : Nat := (b + 2 ^ 24 - a % 2 ^ 24) % 2 ^ 24

/-- What is left of a message, from its first packet number on, when everything up to a packet number is acknowledged: none
when all of it is. -/
def leftOf (psn : Nat) (m : Nat × Nat × Out) : Option (Nat × Nat × Out) :=
  let k := psnDiff m.1 (psn + 1)
  if 2 ^ 23 ≤ k then some m
  else if m.2.1 ≤ k then none
  else some (m.1, m.2.1, { m.2.2 with skip := max k m.2.2.skip })

/-- An acknowledgement of everything up to a packet number (R326). -/
def ackUpTo (s : State) (q psn : Nat) : State :=
  match s.qp q with
  | none => s
  | some v =>
    let left := v.unacked.filterMap (leftOf psn)
    if left = v.unacked then s
    else pumpQp v.sendQ.length (s.setQp q { v with unacked := left, retries := 0, sentAt := s.now }) q

/-- Go-back-N (R326): every request is sent again from the first packet that is not acknowledged, and its packets count in
RETRANSMITS. -/
def goBackN (s : State) (q : Nat) : State :=
  match s.qp q with
  | none => s
  | some v =>
    let n := (v.unacked.map (fun m => if m.2.2.kind = 1 then 1 else m.2.1 - m.2.2.skip)).sum
    let s := (s.setQp q { v with sentAt := s.now }).bump Ctr.retransmits v.subport n
    v.unacked.foldl (fun s m => txMsg s q m.2.2) s

/-- A packet marked CE (R340): one CNP per queue pair and 50 µs. -/
def noteCe (s : State) (u q : Nat) : State :=
  match s.qp q with
  | none => s
  | some v =>
    let s := s.bump Ctr.ecnMarked u 1
    let due := match v.lastCnpSent with
      | none => true
      | some t => decide (t + 50000 ≤ s.now)
    if due then (txMsg (s.setQp q { v with lastCnpSent := some s.now }) q { kind := 10, dest := q }).bump Ctr.cnpSent u 1 else s

/-- The next packet number is expected, and the packet acknowledged (R326). -/
def acceptPsn (s : State) (q psn : Nat) : State :=
  txMsg (s.onQp q (fun v => { v with epsn := (psn + 1) % 2 ^ 24 })) q { kind := 5, dest := q, data := leBytes 4 psn }

/-- A packet of an RDMA WRITE (R330, R331): the first one is checked for the whole write, each is placed in order. -/
def writePacket (s : State) (q : Nat) (v : Qp) (k : RocePacket) : State :=
  if 0 < k.dmaLen then
    if !windowOk v k.va k.rkey k.dmaLen then nakQp s q 2
    else if k.dmaLen < k.data.length then nakQp s q 1
    else
      let s := windowPut (acceptPsn s q k.psn) v k.va k.data
      let left := k.dmaLen - k.data.length
      s.onQp q (fun v => { v with partialWrite := if left = 0 then none else some (k.va + k.data.length, left) })
  else
    match v.partialWrite with
    | none => nakQp s q 1
    | some (at_, left) =>
      if left < k.data.length then nakQp s q 1
      else
        let s := windowPut (acceptPsn s q k.psn) v at_ k.data
        let rest := left - k.data.length
        s.onQp q (fun v => { v with partialWrite := if rest = 0 then none else some (at_ + k.data.length, rest) })

/-- A request in sequence (Table 12.3): a SEND is a message of the connection, an RDMA WRITE goes to the order window, any
other is refused. -/
def requestPacket (s : State) (q : Nat) (v : Qp) (k : RocePacket) : State :=
  match k.op with
  | 0 =>
    let s := acceptPsn s q k.psn
    if k.dmaLen = 0 then s else connMessage s q k.data
  | 1 => writePacket s q v k
  | _ => nakQp s q 1

/-- ROCE_PACKET (R325, R326). -/
def execRocePacket (u : Nat) (k : RocePacket) (s : State) : Host.Outcome State Fault Refusal :=
  .next <|
    if !(s.port u).up then s
    else
      let s := s.bump Ctr.rxBytes u (roceFrame s u k.data.length (rxExt k))
      if !macsecOk s u k.secOk k.pn then s.bump Ctr.macsecDrops u 1
      else
        let s := macsecUse s u k.pn
        if !k.icrcOk then s.bump Ctr.icrcErrors u 1
        else
          match s.qp k.qp with
          | none => s
          | some v =>
            if v.phase = 3 ∨ v.subport ≠ u ∨ !portIp s u then s
            else
              let s := if k.ce then noteCe s u k.qp else s
              match k.op with
              | 5 => ackUpTo s k.qp k.psn
              | 8 => ackUpTo s k.qp k.psn
              | 6 => if k.data.head? = some 0 then goBackN (ackUpTo s k.qp (k.psn + 2 ^ 24 - 1)) k.qp else qpError s k.qp 1
              | 7 => goBackN s k.qp
              | _ =>
                match s.qp k.qp with
                | none => s
                | some v =>
                  if k.psn % 2 ^ 24 = v.epsn then requestPacket s k.qp v k
                  else if psnDiff k.psn v.epsn < 2 ^ 23 then
                    txMsg s k.qp { kind := 5, dest := k.qp, data := leBytes 4 k.psn }
                  else txMsg s k.qp { kind := 4, dest := k.qp, data := [0] }

/-- ACK_TIMEOUT (R326): retransmission, or the error state when seven retries are used up. -/
def execAckTimeout (q : Nat) (s : State) : Host.Outcome State Fault Refusal :=
  .next <|
    match s.qp q with
    | none => s
    | some v =>
      if v.phase = 3 ∨ v.unacked.isEmpty then s
      else if 7 ≤ v.retries then qpError s q 2
      else goBackN (s.setQp q { v with retries := v.retries + 1 }) q

/-! Other frames. -/

/-- An IP address is the sub-port's own (R324). -/
def ownIp (s : State) (u : Nat) (ip : List Byte) : Bool :=
  let r := portRec s u
  (bit (portFlags s u) 1 && ip == slice r 8 4) || (bit (portFlags s u) 2 && ip == slice r 0x0C 16)

/-- A frame's VLAN is the sub-port's (Table 12.2). -/
def vlanOk (s : State) (u : Nat) (vlan : Option Nat) : Bool :=
  let v := field (portRec s u) 6 2
  if bit v 15 then vlan == some (v % 4096) else vlan.isNone

/-- A frame of an answer (R324): the own MAC address and the IP address asked for. -/
def sendFrameOn (s : State) (u len : Nat) (ip : List Byte) : State :=
  (s.emit { kind := 6, dest := u, data := slice (portRec s u) 0 6 ++ ip }).bump Ctr.txBytes u len

/-- A frame that passed size, MACsec and VLAN, by its kind (Table 12.2). -/
def frameMeans (s : State) (u : Nat) (k : EthFrame) : State :=
  match k.kind with
  | 0 => if ownIp s u k.ip then sendFrameOn s u (max 64 k.len) k.ip else s
  | 1 =>
    if portIp s u then
      s.onPort u (fun p => { p with neighbours := p.neighbours.filter (fun n => n.1 != k.ip) ++ [(k.ip, k.mac)] })
    else s
  | 2 =>
    if !ownIp s u k.ip then s
    else
      let recent := (s.port u).echoes.filter (fun t => decide (s.now < t + 1000000000))
      if 1000 ≤ recent.length then s
      else sendFrameOn (s.onPort u (fun p => { p with echoes := recent ++ [s.now] })) u k.len k.ip
  | 3 => s
  | 5 => if keyNum s (0x0540 + u / 4) = 1 then s else s.bump Ctr.rxUnsupported u 1
  | 6 => s
  | _ => s.bump Ctr.rxUnsupported u 1

/-- ETH_FRAME_RECEIVE (R324, R341). -/
def execEthFrameReceive (u : Nat) (k : EthFrame) (s : State) : Host.Outcome State Fault Refusal :=
  .next <|
    if !(s.port u).up then s
    else
      let s := s.bump Ctr.rxBytes u k.len
      if 9216 < k.len then s.bump Ctr.rxOversize u 1
      else if k.kind ≠ 6 ∧ !macsecOk s u k.secOk k.pn then s.bump Ctr.macsecDrops u 1
      else
        let s := if k.kind = 6 then s else macsecUse s u k.pn
        if !vlanOk s u k.vlan then s else frameMeans s u k

/-- Messages held by a pause leave (R339). -/
def flushHeld (s : State) (u : Nat) : State :=
  let l := (s.port u).held
  l.foldl (fun s o => txMsg s o.dest o) (s.onPort u (fun p => { p with held := [] }))

/-- PORT_UP (R323, R324, R438, R450, R466): a sub-port of its port's mode links up in stage READY, with a MAC address and
its reference clock. -/
def execPortUp (u : Nat) (s : State) : Host.Outcome State Fault Refusal :=
  .next <|
    if (s.port u).up ∨ 16 ≤ u ∨ s.pins.stage ≠ 4 ∨ !portExists s u ∨ !bit (portFlags s u) 0 ∨ !bit s.pins.refSer (u / 4) then s
    else
      let s := s.setPort u { (s.port u) with up := true, pausedSince := none, held := [], sak := none }
      postEvent { s with portDownUntil := erase (u / 4) s.portDownUntil } 0x31 (items [u, portMode s (u / 4)])

/-- PORT_DOWN (R326, R344): a sub-port loses its link; its queue pairs retry. -/
def execPortDown (u : Nat) (s : State) : Host.Outcome State Fault Refusal :=
  .next <|
    if !(s.port u).up then s
    else
      postEvent (s.onPort u (fun p => { p with up := false, sak := none, pausedSince := none, held := [] })) 0x30 (items [u])

/-! Flow control and congestion. -/

/-- PAUSE_FRAME (R339): on the RoCE priority the pause lasts the newest quanta, of 512 bit times each; during a storm guard
none is honoured. -/
def execPauseFrame (u prio quanta : Nat) (s : State) : Host.Outcome State Fault Refusal :=
  .next <|
    let p := s.port u
    if !p.up ∨ prio ≠ keyNum s 0x0510 then s
    else
      let s := if quanta = 0 then s else s.bump Ctr.pfcRxXoff u 1
      if p.stormUntil.isSome then s
      else if quanta = 0 then flushHeld (s.setPort u { p with pausedSince := none, pausedUntil := s.now }) u
      else
        let since := if paused s u then p.pausedSince else some s.now
        s.setPort u { p with pausedSince := since, pausedUntil := s.now + quanta * 512000000 / max 1 (lineRate s u) }

/-- PFC_STORM (R339): a priority paused for 200 ms stops being honoured for 1 s. -/
def execPfcStorm (u : Nat) (s : State) : Host.Outcome State Fault Refusal :=
  .next <|
    let p := s.port u
    if !p.up ∨ p.pausedSince.isNone then s
    else
      let s := flushHeld (s.setPort u { p with pausedSince := none, stormUntil := some (s.now + 1000000000) }) u
      (postEvent s 0x32 (items [u, keyNum s 0x0510])).bump Ctr.pfcStorms u 1

/-- PFC_STORM_END (R339): PAUSE is honoured again. -/
def execPfcStormEnd (u : Nat) (s : State) : Host.Outcome State Fault Refusal :=
  .next (if (s.port u).stormUntil.isSome then s.onPort u (fun p => { p with stormUntil := none }) else s)

/-- CNP (R340, Table 12.7): at most one decrease per 50 µs; α grows on every one. -/
def execCnp (q : Nat) (s : State) : Host.Outcome State Fault Refusal :=
  .next <|
    heard s q fun s => match s.qp q with
    | none => s
    | some v =>
      if v.phase = 3 then s
      else
        let s := s.bump Ctr.cnpReceived v.subport 1
        let cut := match v.lastCut with
          | none => true
          | some t => decide (t + 50000 ≤ s.now)
        let w : Qp := if cut then
            { v with target := v.rate, rate := max 100000 (v.rate - v.rate * v.alpha / 131072), lastCut := some s.now }
          else v
        s.setQp q { w with alpha := (255 * v.alpha + 65536) / 256, steps := 0, lastCnp := s.now }

/-- RATE_RECOVERY (R340, Table 12.7): 55 µs without a CNP. -/
def execRateRecovery (q : Nat) (s : State) : Host.Outcome State Fault Refusal :=
  .next <|
    match s.qp q with
    | none => s
    | some v =>
      if v.phase = 3 then s
      else
        let line := lineRate s v.subport
        let target := if 5 ≤ v.steps then min line (v.target + 40000) else v.target
        s.setQp q { v with
          target := target, rate := min line ((v.rate + target) / 2), steps := v.steps + 1, alpha := 255 * v.alpha / 256 }

/-- MKA (R341): key agreement from the CAK installs an SAK, or fails. -/
def execMka (u : Nat) (sak : Option (List Byte)) (s : State) : Host.Outcome State Fault Refusal :=
  .next <|
    if !(s.port u).up ∨ !macsecOn s u then s
    else
      match sak, keyVal s (0x0530 + u) with
      | some k, some _ => s.onPort u (fun p => { p with sak := some k, nextPn := 1 })
      | _, _ => postEvent s 0x34 (items [u])

/-! PTP. -/

/-- The beat that PTP time gives (R245, R265): its number, and the ns since it began. -/
def ptpBeatAt (s : State) (time : Nat) : Nat × Nat :=
  let past := time - s.group.ptpTime
  (s.group.ptpBeat + past / beatLen s, past % beatLen s)

/-- A locked keeper's next boundary falls where PTP time has it (R245): the beat in progress gets its length from that. -/
def ptpFollow (s : State) (time : Nat) : State :=
  let (n, past) := ptpBeatAt s time
  let ahead : Int := ((n : Int) - s.beat.number) * beatLen s
  let due : Int := (s.now : Int) - past - ahead + beatLen s
  { s with beat := { s.beat with adjust := due - s.beat.startAt - beatLen s } }

/-- The servo's update of a keeper whose source is PTP (R245, R246): 16 consecutive offsets within 100 ns lock it, once its
beat 0 has begun; while no view exists, the beat takes its number and phase from PTP time. A locked beat follows PTP time
and learns the clock's rate. -/
def keeperPtp (s : State) (u time : Nat) (offset : Int) : State :=
  if !isKeeper s ∨ s.group.source ≠ 1 ∨ !bit s.group.ptpPorts (u / 4) then s
  else
    let g := if offset.natAbs ≤ 100 then s.beat.good + 1 else 0
    let locks := decide (16 ≤ g) && !s.beat.sourceLocked && !s.beat.holdover && decide (s.group.ptpTime ≤ time)
    let s := { s with beat := { s.beat with
      good := g, lastUpdate := s.now, srcErr := if s.beat.slewing then s.beat.srcErr else offset
      sourceLocked := s.beat.sourceLocked || locks } }
    let s := if s.beat.holdover then s else learnRate s s.now time
    if locks ∧ s.group.state = 1 then
      let (n, past) := ptpBeatAt s time
      { s with beat := { s.beat with number := n, startAt := s.now - past } }
    else if s.beat.sourceLocked then ptpFollow s time
    else s

/-- PTP_TIME_UPDATE (R343): an update at PTP time `time` from sub-port u, with the servo's prediction of its offset, whether
the best master clock algorithm has made the port slave, and whether its path delay has been measured. -/
def execPtpTimeUpdate (u time : Nat) (offset predicted : Int) (slave measured : Bool) (s : State) :
    Host.Outcome State Fault Refusal :=
  .next <|
    if !(s.port u).up ∨ keyNum s (0x0540 + u / 4) ≠ 1 ∨ noSak s u then s
    else
      let d := s.ptp.delayMeasured.filter (fun x => x != u)
      let s := { s with ptp := { s.ptp with
        slave := if slave then some u else if s.ptp.slave = some u then none else s.ptp.slave
        delayMeasured := if measured then d ++ [u] else d } }
      if !slave ∨ !measured then s
      else if 1000 < (offset - predicted).natAbs then s.bump Ctr.ptpOutliers u 1
      else keeperPtp { s with ptp := { s.ptp with offset := offset } } u time offset

end Sys2Proof.Machine
end

