-- ==== Sys2Proof/Machine/Links.lean ====
section
/-!
DEFINITION. The chip links: frames, credits and replay (R270 to R276), training (R277), and the control records that the
link itself exchanges (R279).
-/

namespace Sys2Proof.Machine

/-! Frames. -/

/-- A frame's 532 bytes (Table 10.1) around its payload; ack, flags, credits and mark are formed as it leaves (R273). -/
def frameBytes (s : State) (l : Nat) (ty cls seq : Nat) (payload : List Byte) : List Byte :=
  let k := s.link l
  let mark := k.markDue
  let body := leBytes 1 ty ++ leBytes 1 cls ++ leBytes 2 seq ++ leBytes 2 k.rxSeq
    ++ leBytes 1 (b2n k.nak + 2 * b2n mark) ++ leBytes 1 (cdiv payload.length 32)
    ++ k.giveBack.flatMap (fun n => leBytes 1 (min n 64))
    ++ leBytes 2 (if mark then s.beat.number else 0) ++ leBytes 2 (if mark then s.now - s.beat.startAt else 0)
    ++ slice payload 0 512
  body ++ leBytes 4 (crc32 body)

/-- A frame leaves: credits are given back in it, and a due mark has gone; the 64 bits of its number follow when it is a
multiple of 256 (R273, R275, R278). -/
def sendFrame (s : State) (l ty cls seq : Nat) (payload : List Byte) : State :=
  let k := s.link l
  let s1 := s.emit { kind := 7, dest := l, data := frameBytes s l ty cls seq payload }
  let s1 := s1.setLink l { k with giveBack := k.giveBack.map (fun n => n - 64), markDue := false }
  if k.markDue ∧ s.beat.number % 256 = 0 then pushCtl s1 l 3 (leBytes 8 s.beat.number) else s1

/-- What is left of the transfer under way after n more bytes of its stream are framed: the bytes of the unfinished
transfer framed so far. -/
def partAfter : Nat → List Byte → List Byte
  | 0, b => b
  | f + 1, b =>
    let n := 32 + roundUp (field b 2 2) 32
    if b.length < 32 ∨ b.length < n then b else partAfter f (b.drop n)

/-- A CONTROL or DATA frame sent for the first time: it is kept until it is acknowledged (R276). -/
def sendKept (s : State) (l : Nat) (f : Frame) : State :=
  let k := s.link l
  let f := { f with seq := k.txSeq }
  let s := s.setLink l { k with
    txSeq := (k.txSeq + 1) % 65536, kept := k.kept ++ [f], sentAt := if k.kept.isEmpty then s.now else k.sentAt }
  (sendFrame s l (if f.ctl then 2 else 1) f.cls f.seq f.payload).bump Ctr.framesSent l 1

/-- A credit of a class is taken: a reserved one first (R275). -/
def takeCredit (k : Link) (c : Nat) : Link :=
  if 0 < k.credits.getD c 0 then { k with credits := k.credits.set c (k.credits.getD c 0 - 1) }
  else { k with shared := k.shared - 1 }

/-- The next DATA frame of a class (R274, R280). -/
def sendData (s : State) (l c : Nat) : State :=
  let k := s.link l
  let st := k.streams.getD c []
  let p := st.take 512
  let before := k.part.getD c []
  let s := s.setLink l (takeCredit { k with
    streams := k.streams.set c (st.drop 512), part := k.part.set c (partAfter 32 (before ++ p)) } c)
  sendKept s l { cls := c, payload := p, before := before }

/-- Traffic classes that have a frame ready and credit (R373). -/
def readyClasses (k : Link) : List Nat := below 4 (fun c => !(k.streams.getD c []).isEmpty && hasCredit k c)

/-- A kept frame has been sent again once more (R277). -/
def countReplay (k : Link) (seq : Nat) : Link :=
  let up := fun (f : Frame) => { f with replays := f.replays + 1 }
  { k with kept := mapIf (fun f => f.seq == seq) up k.kept }

/-- FRAME_SEND (R273 to R276, R374): a replayed frame, else a CONTROL frame, else a DATA frame of the class that the
egress arbiter grants, else an IDLE frame. -/
def execFrameSend (l : Nat) (s : State) : Host.Outcome State Fault Refusal :=
  .next <|
    let k := s.link l
    if k.state ≠ 2 then s
    else
      match k.resend with
      | f :: rest =>
        let first := (k.kept.head?.map (fun x => x.seq)) == some f.seq
        let s := s.setLink l (countReplay { k with resend := rest, sentAt := if first then s.now else k.sentAt } f.seq)
        let s := sendFrame s l (if f.ctl then 2 else 1) f.cls f.seq f.payload
        (s.bump Ctr.framesSent l 1).bump Ctr.replayedFrames l 1
      | [] =>
        if 64 ≤ k.kept.length then sendFrame s l 0 0 0 []
        else
          match k.ctlQ with
          | r :: rest => sendKept (s.setLink l { k with ctlQ := rest }) l { ctl := true, payload := r }
          | [] =>
            let up := readyClasses k
            if up.isEmpty then sendFrame s l 0 0 0 []
            else
              let (s, won) := arbRound s 4 l up
              match won.head? with
              | some c => sendData s l c
              | none => sendFrame s l 0 0 0 []

/-! Receiving. -/

/-- A link starts to retrain (R277). -/
def startTraining (s : State) (l reason : Nat) : State := s.onLink l (fun k => { k with state := 1, reason := reason })

/-- Every kept frame is sent again from the oldest (R276); when one has been sent again eight times without the ack moving
past it the link retrains (R277). -/
def startReplay (s : State) (l : Nat) : State :=
  let k := s.link l
  if k.kept.isEmpty ∨ !k.resend.isEmpty then s
  else if k.kept.any (fun f => decide (8 ≤ f.replays)) then startTraining s l 1
  else s.setLink l { k with resend := k.kept }

/-- Credits given back for n slots of a class (R275): reserved ones up to 4, the rest shared. -/
def addCredit (k : Link) (c n : Nat) : Link :=
  let r := k.credits.getD c 0
  let own := min n (4 - r)
  { k with credits := k.credits.set c (r + own), shared := k.shared + (n - own) }

/-- Kept frames that an ack leaves (R276). -/
def keptAfter (kept : List Frame) (ack : Nat) : List Frame :=
  if kept.any (fun f => f.seq == ack) then (kept.dropWhile (fun f => f.seq != ack)).drop 1 else kept

/-- The ack of a frame received (R276). -/
def takeAck (s : State) (l ack : Nat) : State :=
  let k := s.link l
  let left := keptAfter k.kept ack
  if left.length = k.kept.length then s
  else s.setLink l { k with
    kept := left, resend := k.resend.filter (fun f => left.any (fun g => g.seq == f.seq)), sentAt := s.now }

/-- n bytes leave the receive buffer from its oldest slots (R275): the slots kept, and how many became free. -/
def freeSlots : Nat → List Nat → List Nat × Nat
  | _, [] => ([], 0)
  | n, f :: r => if f ≤ n then (let (l, k) := freeSlots (n - f) r; (l, k + 1)) else ((f - n) :: r, 0)

/-- Payload of a DATA frame accepted: whole transfers leave the buffer for their destination or the next hop, and slots
emptied are to be returned (R275, R280). -/
def takePayload (s : State) (l c : Nat) (d : List Byte) : State :=
  let k := s.link l
  let st := k.rxStreams.getD c [] ++ d
  let left := partAfter (st.length / 32 + 1) st
  let (slots, freed) := freeSlots (st.length - left.length) (k.slots.getD c [] ++ [d.length])
  s.setLink l { k with
    rxStreams := k.rxStreams.set c left, slots := k.slots.set c slots
    giveBack := k.giveBack.set c (k.giveBack.getD c 0 + freed) }

/-- The frame passes its CRC and its type exists (R272). -/
def frameOk (d : List Byte) : Bool :=
  d.length == 532 && field d 0x210 4 == crc32 (slice d 0 528) && decide (field d 0 1 ≤ 2)
    && (field d 0 1 != 1 || (decide (field d 1 1 ≤ 3) && decide (field d 7 1 ≤ 16)))

/-- A codeword of 5,140 bits begins in frame n of 4,256 bits since training, both streams beginning there (R271, log 68). -/
def codewordBegins (n : Nat) : Bool := decide (cdiv (4256 * n) 5140 * 5140 < 4256 * (n + 1))

/-- The next frame's place in the codewords (R271): the outcome of the one that begins in it counts, and an uncorrectable one,
or one still in progress, fails the frame. -/
def takeCodeword (s : State) (l fec : Nat) : State × Bool :=
  let k := s.link l
  let begins := codewordBegins k.fecAt
  let bad := begins && fec == 2
  let fails := bad || (k.fecBad && k.fecAt * 4256 % 5140 != 0)
  let s := s.setLink l { k with fecAt := (k.fecAt + 1) % 1285, fecBad := if begins then bad else k.fecBad }
  ((s.bump Ctr.fecCorrected l (b2n (begins && fec == 1))).bump Ctr.fecUncorrectable l (b2n bad), fails)

/-- The outcome of a codeword (R271): 0 clean, 1 with symbols corrected, 2 not correctable. -/
def fecOf (fixed bad : Bool) : Nat := if bad then 2 else if fixed then 1 else 0

/-- FRAME_RECEIVE (R271 to R278): a frame of 532 bytes, with the outcome of the codeword that begins in it. A mark in it is
kept with its arrival. -/
def execFrameReceive (l : Nat) (d : List Byte) (fixed bad : Bool) (s : State) : Host.Outcome State Fault Refusal :=
  .next <|
    if (s.link l).state ≠ 2 then s
    else
      let (s, fails) := takeCodeword s l (fecOf fixed bad)
      if fails ∨ !frameOk d then
        (s.onLink l (fun k => { k with nak := true })).bump Ctr.crcErrors l 1
      else
        let s := if bit (field d 6 1) 1 then s.onLink l (fun k => { k with markIn := some (field d 0xC 2, field d 0xE 2, s.now) }) else s
        let s := (List.range 4).foldl (fun s c => s.onLink l (fun k => addCredit k c (field d (8 + c) 1))) s
        let s := takeAck s l (field d 4 2)
        let s := if bit (field d 6 1) 0 then startReplay s l else s
        if field d 0 1 = 0 then s
        else if field d 2 2 ≠ ((s.link l).rxSeq + 1) % 65536 then s.onLink l (fun k => { k with nak := true })
        else
          let s := (s.onLink l (fun k => { k with rxSeq := field d 2 2, nak := false })).bump Ctr.framesReceived l 1
          if field d 0 1 = 1 then takePayload s l (field d 1 1) (slice d 0x10 (32 * field d 7 1)) else s

/-- REPLAY_TIMEOUT (R276): the oldest kept frame has had no ack for 2 µs. -/
def execReplayTimeout (l : Nat) (s : State) : Host.Outcome State Fault Refusal :=
  .next (if (s.link l).state = 2 then startReplay s l else s)

/-! Training. -/

/-- LANE_SIGNAL_LOSS (R277). -/
def execLaneSignalLoss (l lane : Nat) (s : State) : Host.Outcome State Fault Refusal :=
  .next <|
    let k := s.link l
    if k.state ≠ 2 ∨ 2 ≤ lane then s
    else startTraining (s.setLink l { k with laneLost := k.laneLost ||| 2 ^ lane }) l 2

/-- A link that trained carries traffic: kept frames are sent again, credits are those of training, its delay is measured
anew, and its width and reason are told (R277, R249, R279). -/
def linkUp (s : State) (l width : Nat) (lost : Nat) : State :=
  let k := s.link l
  let s := s.setLink l { k with
    state := 2, width := width, laneLost := lost, sentAt := s.now, fecAt := 0, fecBad := false
    kept := k.kept.map (fun f => { f with replays := 0 }), resend := k.kept
    credits := [4, 4, 4, 4], shared := 48, slots := [[], [], [], []], giveBack := [0, 0, 0, 0]
    exch := [], delay := none, idSent := [] }
  let s := pushCtl s l 4 (leBytes 1 width ++ leBytes 1 k.reason)
  startExchange s l 0

/-- Whole transfers of a stream of bytes: header and data. -/
def cutTransfers : Nat → List Byte → List (Hdr × List Byte)
  | 0, _ => []
  | f + 1, b =>
    let h := parseHdr b
    if b.length < 32 then [] else (h, slice b 32 h.length) :: cutTransfers f (b.drop (32 + roundUp h.length 32))

/-- Bytes of a class that a link that went down has not delivered: kept frames from the start of the first one's transfer,
then what was not yet framed (R277). -/
def undelivered (k : Link) (c : Nat) : List Byte :=
  let kept := k.kept.filter (fun f => !f.ctl && f.cls == c)
  let head := match kept.head? with
    | some f => f.before
    | none => k.part.getD c []
  head ++ kept.flatMap (fun f => f.payload) ++ k.streams.getD c []

/-- The core whose write path holds a write to a peer. -/
def writeOwner (s : State) (id : Nat) : Option (Nat × Xfer) :=
  (s.cores.filterMap (fun c => (c.2.writes.find? (fun f => f.id == id && f.kind == 2)).map (fun f => (c.1, f)))).head?

/-- A transfer of the device's own that has no route left (R282): its stream halts, reason PEER. -/
def unsent (s : State) (h : Hdr) : State :=
  if h.src ≠ s.group.rank then s
  else if h.op = 1 ∧ h.tag < 2 ^ 31 then
    match s.xfers.find? (fun f => f.id == h.tag && f.kind == 2 && !f.write) with
    | some f => returnRead s f none false
    | none => s
  else if h.op = 3 ∨ h.op = 4 then
    match writeOwner s (h.tag % 2 ^ 31) with
    | some (c, f) => returnWrite s c f false false
    | none => s
  else s

/-- Kept frames and queued transfers of a link that is down take another route (R277, R282); what its far end sends anew
starts whole. -/
def reroute (s : State) (l : Nat) : State :=
  let k := s.link l
  let work := (List.range 4).map (fun c => (c, undelivered k c))
  let s := s.setLink l { k with
    kept := [], resend := [], streams := [[], [], [], []], part := [[], [], [], []], ctlQ := [], rxStreams := [[], [], [], []]
    txSeq := 0, rxSeq := 65535, nak := false, markIn := none }
  work.foldl (fun s w => (cutTransfers (w.2.length / 32) w.2).foldl (fun s x =>
    let (s, sent) := sendTransfer s w.1 x.1 x.2
    if sent then s else unsent s x.1) s) s

/-- A link is down (R277, R281, R282, R409 class 10): its loss is reported to the group rules, routes are recomputed
without it, and what it had to send goes another way. -/
def linkDown (s : State) (l : Nat) : State :=
  let was := (s.link l).isGroup && (s.link l).inService
  let s := s.onLink l (fun k => { k with
    state := 0, width := 0, downAt := s.now, isGroup := false, inService := false, delay := none, exch := [], markDue := false
    peer := [] })
  let s := (faultEntry s 10 3 l []).bump Ctr.linkDowns l 1
  let s := if was ∧ inView s then
      let s := { s with group := { s.group with lossAt := some (s.group.lossAt.getD s.now) } }
      reportLinks (setTree (recompute s))
    else reportLinks (setTree (recompute s))
  reroute s l

/-- LINK_RETRAIN (R277): retraining ends with the lanes that pass. -/
def execLinkRetrain (l : Nat) (pass0 pass1 : Bool) (s : State) : Host.Outcome State Fault Refusal :=
  .next <|
    if (s.link l).state ≠ 1 then s
    else if pass0 && pass1 then (linkUp s l 2 0).bump Ctr.retrains l 1
    else if pass0 || pass1 then
      ((linkUp s l 1 (if pass0 then 2 else 1)).bump Ctr.retrains l 1).bump Ctr.widthDrops l 1
    else linkDown s l

/-- The reference clock that serves a link is within its limits (R466, Table 18.7). -/
def linkClock (s : State) (l : Nat) : Bool := bit s.pins.refSer (if l < 48 then 0 else 1)

/-- LINK_DOWN_RETRY (R277, R438): a link that is down is trained, in stage READY and under its reference clock. -/
def execLinkDownRetry (l : Nat) (s : State) : Host.Outcome State Fault Refusal :=
  .next <|
    if (s.link l).state ≠ 0 ∨ 96 ≤ l ∨ !mainUp s ∨ !linkClock s l then s
    else s.onLink l (fun k => { k with state := 1, reason := 0, downAt := s.now })

/-- LINK_STATE (R279): the far end tells its width and reason. -/
def execLinkState (l width reason : Nat) (s : State) : Host.Outcome State Fault Refusal :=
  .next <|
    if (s.link l).state ≠ 2 then s
    else s.onLink l (fun k => { k with peerWidth := width, peerReason := reason })

end Sys2Proof.Machine
end

