-- ==== Sys2Proof/Machine/Merge.lean ====
section
/-!
DEFINITION. The merge path (R117 to R122): SPMM_X, its K tiles, list stores, broadcaster, hampers, lane actions and row
adds.
-/

namespace Sys2Proof.Machine

/-- SPMM_X (R117): the walk of its output tiles is formed. -/
def execSpmmX (t i p : Nat) (s : State) : Host.Outcome State Fault Refusal := .next <| opCmd s t i p opSpmm formWalk

/-- A value with its block scale as one code. -/
def pairCode (c : Nat × Nat) : Nat := c.1 * 65536 + c.2

/-- The value of such a code. -/
def codeVal (f c : Nat) : Val := decVal f (c / 65536) (c % 65536)

/-- Nonzero entries (position, code) of a lane of a crate, below a position (R92, R118). -/
def laneEntries (f : Nat) (c : Crate) (lane top : Nat) : List (Nat × Nat) :=
  (below 64 (fun p => decide (p < top) && !codeZero f (c.at lane p).1 (c.at lane p).2)).map (fun p => (p, pairCode (c.at lane p)))

/-- The crate of operand k (0 A, 1 B) for a tile row and a K tile; none where the tensor has no element there. -/
def mergeCrate (s : State) (r : Run) (mi pos k : Nat) (hi : List Nat) (row kt : Nat) : Except RdErr (Option Crate) := do
  let v := getView s r mi pos k
  let c := getView s r mi pos 2
  let h := hiFor v.d.rank c.d.rank hi
  if v.inside ([64 * kt, 64 * row] ++ h) then
    let x ← crateAt s v (planeIdx v.d.rank v.d.bound ([0, 0] ++ h)) row kt
    .ok (some x)
  else .ok none

/-- The nonzeros that the header of such a crate states (R118); 0 where the tensor has no element there. -/
def mergeCount (s : State) (r : Run) (mi pos k : Nat) (hi : List Nat) (row kt : Nat) : Except RdErr Nat := do
  let v := getView s r mi pos k
  let c := getView s r mi pos 2
  let h := hiFor v.d.rank c.d.rank hi
  if v.inside ([64 * kt, 64 * row] ++ h) then
    let pl := planeIdx v.d.rank v.d.bound ([0, 0] ++ h)
    let b ← rdBytes s v (v.slot pl row kt) 32
    if crateHead v.d.form v.d.format (crateTile v.d row kt) pl b then .ok (field b 8 2) else .error .crate
  else .ok 0

/-- The items that a K tile's A crate feeds to the broadcaster (R119): kind 0 entry, 1 row end, 2 row end that ends the K
tile. -/
def feedItems (v : View) (c : Crate) (row kt rows : Nat) : List (Nat × Nat × Nat) :=
  (List.range rows).flatMap (fun i =>
    (if 64 * row + i < v.ex 1 then (laneEntries v.d.format c i (v.ex 0 - 64 * kt)).map (fun e => (0, e.1, e.2)) else []) ++
      [(if i + 1 = rows then 2 else 1, 0, 0)])

/-- A cellar tile at the start of a pass (R51, R65, R66): cleared or preloaded with retry count n. -/
def initTile (s : State) (r : Run) (w : Walk) (item k n : Nat) : Except RdErr State := do
  let m := r.mrec w.mi
  let c := getView s r w.mi w.pos 2
  let isInt := r.intClass (getView s r w.mi w.pos 0).d.format
  let (pl, tr, tc) := outTile s r w.mi w.pos (item / m.split)
  let rows := List.range (c.rowsIn tr)
  let cols := c.colsIn tc
  let pre ← if m.flag 1 && item % m.split == 0 then
      (do let p ← preloadVals s c (preView s r w.mi w.pos item) (hiOf c pl) tr tc rows cols; .ok (some p))
    else .ok none
  let j : EngineJob := { isInt := isInt, rows := rows, cols := cols, pre := pre }
  let st := rows.map (fun i => (List.range cols).map (fun x => j.start n i x))
  let s := putAccs s w.core k isInt rows (st.map (fun r => r.map (fun e => e.1)))
  let sat := rows.flatMap (fun i => (below cols (fun x => (j.start n i x).1.sat)).map (64 * i + ·))
  let nan := st.any (fun r => r.any (fun e => e.2))
  .ok (s.onTile w.core k (fun t => { t with
    state := 1, isInt := isInt, retry := n, sat := sat, rows := rows.length, filled := false
    status := t.status &&& 1 ||| BitVec.ofNat 32 ((if sat.isEmpty then 0 else flSat) ||| (if nan then flNan else 0)) }))

/-- The merge unit at the start of a pass over a work item's K tiles. -/
def freshMerge (r : Run) (w : Walk) (item k lo top now : Nat) : MergeState :=
  { active := true, tag := r.tag, mi := w.mi, pos := w.pos, item := item, ctile := k, kt := lo, ktEnd := top
    hampers := List.replicate 64 [], lists := List.replicate 64 none, nextLists := List.replicate 64 none
    laneRow := List.replicate 64 0, laneJ := List.replicate 64 0, laneKt := List.replicate 64 0
    kept := List.replicate 64 [], results := List.replicate 64 [], startAt := now }

/-- The merge unit of a core changed: the output tile that it adds, or the one whose items follow (R119). -/
def State.onMerge (s : State) (core : Nat) (ahead : Bool) (f : MergeState → MergeState) : State :=
  s.onCore core (fun c => if ahead then { c with mergeNext := f c.mergeNext } else { c with merge := f c.merge })

/-- The output tile of a core's merge unit, or the one that follows it. -/
def mergeOf (s : State) (core : Nat) (ahead : Bool) : MergeState :=
  if ahead then (s.core core).mergeNext else (s.core core).merge

/-- The walk that a merge unit's output tile belongs to. -/
def mergeWalk (s : State) (u : MergeState) : Option (Run × Walk) := if u.active then walkOf s u.tag u.mi u.pos else none

/-- Every K tile of an output tile is read (R118). -/
def MergeState.allRead (u : MergeState) : Bool := decide (u.ktEnd ≤ u.kt)

/-- Every item of an output tile is pushed (R119). -/
def MergeState.allPushed (u : MergeState) : Bool := u.allRead && u.feed.isEmpty

/-- Every row of an output tile's merged K tiles is added (R121). -/
def MergeState.allAdded (u : MergeState) : Bool := u.allRead && decide (u.rowsAt.length ≤ u.addKt)

/-- The output tile of a core's merge unit is complete: it awaits its drain, and the tile whose items follow takes its place
(R119, R121). -/
def mergeEnd (s : State) (r : Run) (w : Walk) (u : MergeState) : State :=
  let s := s.onTile w.core u.ctile (fun t => { t with
    state := 2, filled := true, lastLand := s.now, status := t.status ||| BitVec.ofNat 32 (if t.sat.isEmpty then 0 else flSat ||| flSatFinal) })
  let s := s.onCore w.core (fun c => { c with merge := c.mergeNext, mergeNext := {} })
  let left := w.filling.filter (fun x => x.1 != u.item)
  let s := s.onWalk r.tag w.mi w.pos (fun w => { w with filling := left, draining := w.draining ++ [(u.item, u.ctile)] })
  if w.units.isEmpty && left.isEmpty && (r.mrec w.mi).vec == 0 then endReads s r.tag w.mi w.pos w.core else s

/-- The output tiles of a core's merge unit that are complete end, at most the two that it holds. -/
def mergeEnds : Nat → Nat → State → State
  | 0, _, s => s
  | n + 1, core, s =>
    let u := mergeOf s core false
    match mergeWalk s u with
    | some (r, w) => if u.allAdded then mergeEnds n core (mergeEnd s r w u) else s
    | none => s

/-- The SPMM_X walk of a core whose next output tile can begin (R119): its preload has started, or its cellar tile is
FREE. -/
def nextMerge (s : State) (core : Nat) : Option (Run × Walk × Nat × Nat) :=
  s.runs.findSome? (fun r =>
    if r.state = 3 then none
    else r.walks.findSome? (fun w =>
      let m := r.mrec w.mi
      if w.core = core ∧ m.opcode = opSpmm ∧ w.set ∧ runIssues s r w.pos then
        match upNext s r.tag m w with
        | some (u, k) =>
          if (preloaded s r.tag w).isEmpty && (!tileFree s core k || (m.flag 1 && u % m.split == 0)) then none else some (r, w, u, k)
        | none => none
      else none))

/-- The next K tile of an output tile read (R118): skipped when either header states no nonzero, or fed. -/
def mergeKt (s : State) (r : Run) (w : Walk) (ahead : Bool) : State :=
  let u := mergeOf s w.core ahead
  let m := r.mrec w.mi
  let a := getView s r w.mi w.pos 0
  let c := getView s r w.mi w.pos 2
  let (pl, tr, tc) := outTile s r w.mi w.pos (u.item / m.split)
  if u.allRead then mergeEnds 2 w.core s
  else
    let s := reach s r.tag w.mi w.pos [0, 1] u.item
    let got : Except RdErr (Option Crate) := do
      let x ← mergeCount s r w.mi w.pos 0 (hiOf c pl) tr u.kt
      let y ← mergeCount s r w.mi w.pos 1 (hiOf c pl) tc u.kt
      if x = 0 ∨ y = 0 then .ok none else mergeCrate s r w.mi w.pos 0 (hiOf c pl) tr u.kt
    match got with
    | .error e => failRead s r.tag w.mi w.core e
    | .ok (some x) =>
      s.onMerge w.core ahead (fun u => { u with
        kt := u.kt + 1, rowsAt := u.rowsAt ++ [u.kt], feed := u.feed ++ feedItems a x tr u.kt (c.rowsIn tr) })
    | .ok none =>
      mergeEnds 2 w.core ((s.onMerge w.core ahead (fun u => { u with kt := u.kt + 1 })).bump Ctr.mergeSkippedKtiles w.core 1)

/-- The next K tile of an output tile may be read: items of one K tile at most wait for the broadcaster. -/
def MergeState.mayRead (u : MergeState) : Bool := decide ((u.feed.filter (fun x => x.1 == 2)).length ≤ 1)

/-- An output tile taken up (R51, R65, R66, R119): by an idle merge unit, or while the lanes still work on the tile before,
whose items are all pushed. -/
def mergeBegin (s : State) (r : Run) (w : Walk) (u k : Nat) (ahead : Bool) : State :=
  let m := r.mrec w.mi
  let (lo, top) := partSteps s r w.mi w.pos (u % m.split)
  let free := ((s.core w.core).tile k).releasedAt
  let s := reach s r.tag w.mi w.pos [3] u
  match initTile s r w u k 0 with
  | .error e => failRead s r.tag w.mi w.core e
  | .ok s =>
    let sat := !((s.core w.core).tile k).sat.isEmpty
    let s := s.onMerge w.core ahead (fun _ => { freshMerge r w u k lo top s.now with noRetry := sat })
    let fresh := !w.filling.contains (u, k)
    let s := if fresh && w.count != 0 then s.bump Ctr.cellarWaitCc w.core (free - w.lastRead) else s
    let w' := { w with
      units := if fresh then w.units.drop 1 else w.units
      count := if fresh then w.count + 1 else w.count
      filling := if fresh then w.filling ++ [(u, k)] else w.filling }
    let s := s.onWalk r.tag w.mi w.pos (fun _ => w')
    noteReaders (mergeKt s r w' ahead) r w.mi w.pos

/-- MERGE_KTILE (R118, R119): the merge unit reads the next K tile of the output tile that it feeds, or takes up the next
output tile once the last item of the one before is pushed. -/
def execMergeKtile (core : Nat) (s : State) : Host.Outcome State Fault Refusal :=
  .next <|
    let ahead := (s.core core).mergeNext.active
    let u := mergeOf s core ahead
    if u.active && (ahead || !u.allPushed) then
      match mergeWalk s u with
      | some (r, w) => if u.mayRead then noteReaders (mergeKt s r w ahead) r w.mi w.pos else s
      | none => s
    else
      match nextMerge s core with
      | none => s
      | some (r, w, item, k) => mergeBegin s r w item k u.active

/-- List stores of a lane that an output tile's lists hold. -/
def MergeState.held (u : MergeState) (lane : Nat) : Nat :=
  b2n (u.lists.getD lane none).isSome + b2n (u.nextLists.getD lane none).isSome

/-- The output tile whose list a lane loads next, of the two list stores that it has (R118): the tile that follows once
every list of the one before is loaded. -/
def listFor (s : State) (core lane : Nat) : Option Bool :=
  let u := mergeOf s core false
  let v := mergeOf s core true
  let next := fun (u : MergeState) => u.laneKt.getD lane 0 + u.held lane
  if 64 ≤ lane ∨ 2 ≤ u.held lane + v.held lane then none
  else if u.active ∧ next u < u.rowsAt.length then some false
  else if u.allRead ∧ v.active ∧ next v < v.rowsAt.length then some true
  else none

/-- LIST_STORE_LOAD (R118): a lane's next list store is loaded from its row of B's crate; entries at or beyond K or B's own
extents are dropped. -/
def execListStoreLoad (core lane : Nat) (s : State) : Host.Outcome State Fault Refusal :=
  .next <|
    match listFor s core lane with
    | none => s
    | some ahead =>
      let u := mergeOf s core ahead
      match mergeWalk s u with
      | none => s
      | some (r, w) =>
        let b := getView s r w.mi w.pos 1
        let a := getView s r w.mi w.pos 0
        let c := getView s r w.mi w.pos 2
        let (pl, _, tc) := outTile s r w.mi w.pos (u.item / (r.mrec w.mi).split)
        let kt := u.rowsAt.getD (u.laneKt.getD lane 0 + u.held lane) 0
        match mergeCrate s r w.mi w.pos 1 (hiOf c pl) tc kt with
        | .error e => failRead s r.tag w.mi core e
        | .ok x =>
          let l := match x with
            | some x => if 64 * tc + lane < b.ex 1 then laneEntries b.d.format x lane (min (a.ex 0) (b.ex 0) - 64 * kt) else []
            | none => []
          s.onMerge core ahead (fun u =>
            if (u.lists.getD lane none).isSome then { u with nextLists := u.nextLists.set lane (some l) }
            else { u with lists := u.lists.set lane (some l) })

/-- BROADCASTER_PUSH (R119): one item goes into all 64 hampers when every one has a free entry. -/
def execBroadcasterPush (core : Nat) (s : State) : Host.Outcome State Fault Refusal :=
  .next <|
    let ahead := (mergeOf s core false).allPushed && (mergeOf s core true).active
    let u := mergeOf s core ahead
    match mergeWalk s u with
    | none => s
    | some (r, w) =>
      match u.feed with
      | [] => if u.allRead then s else s.bump Ctr.mergeFeedCc core 1
      | x :: rest =>
        let held := fun (l : Nat) => ((mergeOf s core false).hampers.getD l []).length + ((mergeOf s core true).hampers.getD l []).length
        if (List.range 64).all (fun l => decide (held l < 64)) then
          let s := s.onMerge core ahead (fun u => { u with feed := rest, hampers := u.hampers.map (fun h => h ++ [x]) })
          if rest.isEmpty && u.allRead then s.onWalk r.tag w.mi w.pos (fun w => { w with lastRead := s.now }) else s
        else s.bump Ctr.mergeFullCc core 1

/-- One action of a lane on the head of its hamper with its list (R120): the unit after it and whether a pair matched. -/
def laneStep (u : MergeState) (lane : Nat) (item : Nat × Nat × Nat) (list : List (Nat × Nat)) : MergeState × Bool :=
  let pop := fun (u : MergeState) => { u with hampers := u.hampers.modify lane (fun h => h.drop 1) }
  let j := u.laneJ.getD lane 0
  let (kind, pos, val) := item
  if kind ≠ 0 then
    let u := pop { u with
      results := u.results.modify lane (fun l => l ++ [(u.laneKt.getD lane 0, u.laneRow.getD lane 0, u.kept.getD lane [])])
      kept := u.kept.set lane [], laneRow := u.laneRow.modify lane (· + 1), laneJ := u.laneJ.set lane 0 }
    if kind = 2 then
      ({ u with laneKt := u.laneKt.modify lane (· + 1), laneRow := u.laneRow.set lane 0
                lists := u.lists.set lane (u.nextLists.getD lane none), nextLists := u.nextLists.set lane none }, false)
    else (u, false)
  else
    match list[j]? with
    | none => (pop u, false)
    | some (p, v) =>
      if pos = p then
        (pop { u with kept := u.kept.modify lane (fun l => l ++ [(val, v)]), laneJ := u.laneJ.modify lane (· + 1) }, true)
      else if pos < p then (pop u, false)
      else ({ u with laneJ := u.laneJ.modify lane (· + 1) }, false)

/-- The lane has popped the final row-end marker of the output tile's last merged K tile (R122). -/
def laneDone (u : MergeState) (lane : Nat) : Bool := u.allRead && u.rowsAt.length ≤ u.laneKt.getD lane 0

/-- LANE_ACTION (R119, R120): a lane takes one action, starves, or waits for its list. It takes the next output tile's items
once it has popped the final marker of the tile before. -/
def execLaneAction (core lane : Nat) (s : State) : Host.Outcome State Fault Refusal :=
  .next <|
    let ahead := laneDone (mergeOf s core false) lane && (mergeOf s core true).active
    let u := mergeOf s core ahead
    match mergeWalk s u with
    | none => s
    | some _ =>
      if 64 ≤ lane then s
      else
        match u.hampers.getD lane [] with
        | [] => if laneDone u lane then s else s.bump Ctr.mergeStarveCc core 1
        | x :: _ =>
          match u.lists.getD lane none with
          | none => s.bump Ctr.mergeListWaitCc core 1
          | some l =>
            let (v, hit) := laneStep u lane x l
            ((s.onMerge core ahead (fun _ => v)).bump Ctr.mergeSteps core 1).bump Ctr.mergeMatches core (b2n hit)

/-- The accumulation that a cell of a tile holds. -/
def cellAcc (s : State) (core k i j : Nat) : Acc :=
  let t := (s.core core).tile k
  let c := leNat (cellarRead s core (k * 16384 + i * 256 + j * 4) 4)
  let v := if t.isInt then Val.ofInt (decInt 32 c) else dec32 c
  { v := v, sat := t.sat.contains (64 * i + j), nan := !t.isInt && v.isNan }

/-- A row of 64 results added into its cellar row (R121): each column's accumulation, whether it overflowed, and whether
by an infinite input. -/
def addRow (s : State) (r : Run) (w : Walk) (u : MergeState) (row : Nat) (prods : List (List (Nat × Nat))) (cols : Nat) :
    List (Acc × Bool × Bool) :=
  let m := r.mrec w.mi
  let fa := (getView s r w.mi w.pos 0).d.format
  let fb := (getView s r w.mi w.pos 1).d.format
  let t := (s.core w.core).tile u.ctile
  let (pl, tr, tc) := outTile s r w.mi w.pos (u.item / m.split)
  let kt := u.rowsAt.getD u.addKt 0
  (List.range cols).map (fun j =>
    let ps := (prods.getD j []).map (fun q => ((codeVal fa q.1).mul (codeVal fb q.2)).scale (-16 * (t.retry : Int)))
    let a := cellAcc s w.core u.ctile row j
    if t.isInt then accInt a (ps.map Val.int) else accFloat a (stepFloat ps) (ditherAt m.imm1 pl tr tc row kt j))

/-- The tile's pass is abandoned and begins again with the next retry count (R51, R121): the items of the tile that follows,
pushed after its own, are pushed again after them. -/
def mergeRetry (s : State) (r : Run) (w : Walk) (u : MergeState) : State :=
  let n := ((s.core w.core).tile u.ctile).retry + 1
  let (lo, top) := partSteps s r w.mi w.pos (u.item % (r.mrec w.mi).split)
  match initTile s r w u.item u.ctile n with
  | .error e => failRead s r.tag w.mi w.core e
  | .ok s =>
    let s := s.onMerge w.core false (fun _ => freshMerge r w u.item u.ctile lo top (s.now + 1))
    let v := mergeOf s w.core true
    let s := match mergeWalk s v with
      | some (q, x) =>
        let (lo, top) := partSteps s q x.mi x.pos (v.item % (q.mrec x.mi).split)
        s.onMerge w.core true (fun _ => { freshMerge q x v.item v.ctile lo top (s.now + 1) with noRetry := v.noRetry })
      | none => s
    (s.bump Ctr.retryPasses w.core 1).bump Ctr.retryCc w.core (s.now + 1 - u.startAt)

/-- MERGE_ROW_ADD (R121): when all 64 lanes have their results for the next row, they are added into the cellar.
A cell of the row that is uncorrectable fails the macro-instruction (R75). -/
def execMergeRowAdd (core : Nat) (s : State) : Host.Outcome State Fault Refusal :=
  .next <|
    let u := mergeOf s core false
    match mergeWalk s u with
    | none => s
    | some (r, w) =>
      let m := r.mrec w.mi
      let c := getView s r w.mi w.pos 2
      let (_, tr, tc) := outTile s r w.mi w.pos (u.item / m.split)
      let heads := u.results.map (fun l => l.head?)
      if !heads.all (fun h => match h with
        | some (q, i, _) => q == u.addKt && i == u.addRow
        | none => false) then s
      else if cellarBad s core (u.ctile * 16384 + u.addRow * 256) (4 * c.colsIn tc) then failRead s r.tag w.mi core (.bad 3)
      else
        let prods := heads.map (fun h => match h with
          | some (_, _, p) => p
          | none => [])
        let cols := c.colsIn tc
        let out := addRow s r w u u.addRow prods cols
        let sat := out.any (fun x => x.2.1)
        let inf := out.any (fun x => x.2.2)
        let t := (s.core core).tile u.ctile
        let s := if sat then s.onTile core u.ctile (fun t => { t with status := t.status ||| 1 }) else s
        if sat && m.flag 0 && !t.isInt && decide (t.retry < 2) && !inf && !u.noRetry then mergeRetry s r w u
        else
          let s := putRow s core u.ctile u.addRow (out.map (fun x => accCode t.isInt x.1))
          let sats := (below cols (fun j => (out.getD j ({}, false, false)).1.sat)).map (64 * u.addRow + ·)
          let nan := out.any (fun x => x.1.nan)
          let s := s.onTile core u.ctile (fun t => { t with
            sat := (t.sat.filter (fun k => k / 64 != u.addRow)) ++ sats
            status := if nan then t.status ||| 4 else t.status })
          let last := u.addRow + 1 = c.rowsIn tr
          let v := { u with
            results := u.results.map (fun l => l.drop 1), noRetry := u.noRetry || inf
            addRow := if last then 0 else u.addRow + 1, addKt := if last then u.addKt + 1 else u.addKt }
          mergeEnds 2 core (s.onMerge core false (fun _ => v))

end Sys2Proof.Machine
end

