-- ==== Sys2Proof/Machine/Pins.lean ====
section
/-!
DEFINITION. The standby domain's pins: filters (R440), HALT_N (R443, R451), the ladder and the I3C target (R447 to R450), and
boundary scan (R461).
-/

namespace Sys2Proof.Machine

/-- FILTERED_PULSE (R440): 0 RESET_N, 1 HALT_N, 2 LADDER_IN. -/
def execFilteredPulse (pin : Nat) (s : State) : Host.Outcome State Fault Refusal :=
  .next <|
    if !s.pins.stby then s
    else
      match pin with
      | 0 => s.bump Ctr.resetNFiltered 0 1
      | 1 => s.bump Ctr.haltNFiltered 0 1
      | 2 => s.bump Ctr.ladderInFiltered 0 1
      | _ => s

/-- A pin event, at most once in any 1 s (R451). -/
def postPin (s : State) (code : Nat) (detail : List Byte) : State :=
  let soon : Bool := match look code s.pins.pinPosts with
    | some t => decide (s.now < t + 1000000000)
    | none => false
  if soon ∨ !imionUp s then s
  else postEvent { s with pins := { s.pins with pinPosts := put code s.now s.pins.pinPosts } } code detail

/-- HALT_N_ASSERT (R443, R451, R452): the cores hold. -/
def execHaltNAssert (s : State) : Host.Outcome State Fault Refusal :=
  .next <|
    if s.pins.haltN ∨ !s.pins.stby then s
    else
      let s := { s with pins := { s.pins with haltN := true, haltAt := s.now } }
      postPin (s.bump Ctr.haltAssertions 0 1) 0x54 []

/-- HALT_N_RELEASE (R443, R451): held runs go on, writes that waited included. -/
def execHaltNRelease (s : State) : Host.Outcome State Fault Refusal :=
  .next <|
    if !s.pins.haltN ∨ !s.pins.stby then s
    else
      let s := { s with pins := { s.pins with haltN := false } }
      postPin (issueWrites s) 0x55 (leBytes 8 ((s.now - s.pins.haltAt) / 1000))

/-! The ladder. -/

/-- LADDER_IN_CHANGE (R440, R447, R448): ignored while a claim is in flight. -/
def execLadderInChange (level : Bool) (s : State) : Host.Outcome State Fault Refusal :=
  .next <|
    if !s.pins.stby then s
    else if s.pins.claiming then s.bump Ctr.ladderInIgnored 0 1
    else { s with pins := { s.pins with ladderIn := level } }

/-- The device acknowledges its static address 0x2A (R447). -/
def answersStatic (s : State) : Bool := s.pins.stby && !s.pins.claimed && s.pins.ladderIn

/-- Bytes of a valid claim (R447). -/
def claimOk (d : List Byte) : Bool :=
  let dyn := field d 1 1
  d.length == 4 && decide (1 ≤ field d 0 1) && decide (field d 0 1 ≤ 63) && decide (0x08 ≤ dyn) && decide (dyn ≤ 0x7D)
    && !([0x2A, 0x3E, 0x5E, 0x6E, 0x76, 0x7A, 0x7C].contains dyn) && field d 2 2 == 0

/-- LADDER_CLAIM (R447, R448): the address 0x2A of a private write is acknowledged and the claim is in flight (ack), or the
write ends at its STOP with the bytes it held, whether or not its acknowledge was a command of its own. -/
def execLadderClaim (ack : Bool) (d : List Byte) (s : State) : Host.Outcome State Fault Refusal :=
  .next <|
    if !answersStatic s then s
    else if ack then { s with pins := { s.pins with claiming := true } }
    else if claimOk d then
      { s with pins := { s.pins with
        claiming := false, claimed := true, ladderOut := true, ladderAddr := field d 0 1, dynAddr := field d 1 1 } }
    else { s with pins := { s.pins with claiming := false } }

/-! The I3C target. -/

/-- The device answers at its dynamic address (R448). -/
def answersDynamic (s : State) : Bool := s.pins.stby && s.pins.claimed

/-- Bytes sent on the I3C bus. -/
def i3cSend (s : State) (d : List Byte) : State := s.emit { kind := 8, dest := s.pins.dynAddr, data := d }

/-- GETPID: the manufacturer identifier and the low 32 bits of the serial number, high byte first. -/
def execGetpid (s : State) : Host.Outcome State Fault Refusal :=
  .next <|
    if answersDynamic s then
      i3cSend s ([Config.getPidHigh 0, Config.getPidHigh 1] ++ (leBytes 4 s.trust.serial).reverse)
    else s

/-- GETBCR. -/
def execGetbcr (s : State) : Host.Outcome State Fault Refusal :=
  .next (if answersDynamic s then i3cSend s [Config.getBcr] else s)

/-- GETDCR. -/
def execGetdcr (s : State) : Host.Outcome State Fault Refusal :=
  .next (if answersDynamic s then i3cSend s [Config.getDcr] else s)

/-- GETSTATUS. -/
def execGetstatus (s : State) : Host.Outcome State Fault Refusal :=
  .next (if answersDynamic s then i3cSend s.draw (leBytes 2 (Config.getStatus s.free).toNat).reverse else s)

/-- The status word (Table 17.6). -/
def statusBits (s : State) : Nat :=
  let p := s.pins
  let failed := p.stage == 8 || p.stage == 9
  let alert := s.health.alertT || s.health.exhausted || p.stage == 10 || failed
  b2n alert + 2 * b2n s.health.alertT + 4 * b2n s.health.exhausted + 8 * b2n (p.stage == 10) + 16 * b2n failed
    + 32 * b2n p.thermtrip + 64 * b2n p.haltN + 128 * b2n p.railOrder + 256 * b2n p.applyRefused

/-- Stages before IMION, and the one in which no Imion code runs: what Imion measures reads as 0 (Table 17.5). -/
def beforeImion (s : State) : Bool := s.pins.stage == 0 || s.pins.stage == 1 || s.pins.stage == 8

/-- Bytes 0x000 to 0x015 of the target space (Table 17.5). -/
def i3cHead (s : State) : List Byte :=
  let live := fun (n v : Nat) => leBytes n (if beforeImion s then 0 else v)
  leBytes 8 s.trust.serial ++ leBytes 1 s.pins.ladderAddr ++ leBytes 1 s.pins.dynAddr ++ leBytes 1 s.pins.stage
    ++ leBytes 1 s.pins.bootCause ++ leBytes 4 (statusBits s) ++ live 1 s.health.temp ++ leBytes 1 0 ++ live 2 s.health.meanMs
    ++ live 2 (field (runningImage s) 6 2)

/-- The byte of the target space at an offset (Table 17.5). -/
def i3cByte (s : State) (o : Nat) : Byte :=
  if o < 0x16 then (i3cHead s).getD o 0
  else if 0x100 ≤ o ∧ o < 0x300 then (s.pins.subports.getD ((o - 0x100) / 32) []).getD (o % 32) 0
  else 0

/-- Bits 7 and 8 of the status word cleared where a mask has them (R449, Table 17.6). -/
def clearStatus (s : State) (mask : Nat) : State :=
  { s with pins := { s.pins with
    railOrder := s.pins.railOrder && !bit mask 7, applyRefused := s.pins.applyRefused && !bit mask 8 } }

/-- The conditions of R450 on a staged record with the flags to be committed. -/
def recordAdmitted (s : State) (u : Nat) (r : List Byte) (flags : Nat) : Bool :=
  let vlan := field r 6 2
  let tagged := bit vlan 15
  !s.qps.any (fun q => q.2.subport == u && q.2.phase != 3) && (bit flags 0 || (!bit flags 1 && !bit flags 2)) && decide (flags < 8)
    && bits vlan 12 3 == 0 && !(tagged && (vlan % 4096 == 0 || vlan % 4096 == 4095))

/-- The staged record of a sub-port committed with flags, or refused (R450). One without MAC_VALID is not linked up. -/
def commitPort (s : State) (u : Nat) (flags : Nat) : State :=
  if 16 ≤ u then s
  else
    let r := s.pins.staged.getD u []
    if !recordAdmitted s u r flags then { s with pins := { s.pins with applyRefused := true } }
    else
      let s := { s with pins := { s.pins with
        subports := s.pins.subports.set u (slice r 0 28 ++ leBytes 1 flags ++ leBytes 3 0) } }
      if (s.port u).up ∧ !bit flags 0 then
        postEvent (s.onPort u (fun p => { p with up := false, sak := none, pausedSince := none, held := [] })) 0x30 (items [u])
      else s

/-- One byte written at an offset (R449, R450). -/
def i3cWriteByte (s : State) (o : Nat) (b : Byte) : State :=
  if o = 0x0C then clearStatus s b.toNat
  else if o = 0x0D then clearStatus s (b.toNat * 256)
  else if 0x100 ≤ o ∧ o < 0x300 then
    let u := (o - 0x100) / 32
    let k := o % 32
    if k < 28 then { s with pins := { s.pins with staged := s.pins.staged.set u ((s.pins.staged.getD u []).set k b) } }
    else if k = 28 then commitPort s u b.toNat
    else s
  else s

/-- The bytes of a write from the offset on. -/
def i3cWriteBytes (s : State) : List Byte → State
  | [] => s
  | b :: r =>
    let t := i3cWriteByte s s.pins.i3cOffset b
    i3cWriteBytes { t with pins := { t.pins with i3cOffset := (t.pins.i3cOffset + 1) % 65536 } } r

/-- I3C_PRIVATE_WRITE (R449): a 2-byte offset, then data bytes. -/
def execI3cPrivateWrite (d : List Byte) (s : State) : Host.Outcome State Fault Refusal :=
  .next <|
    if !answersDynamic s ∨ d.length < 2 then s
    else i3cWriteBytes { s with pins := { s.pins with i3cOffset := field d 0 2 } } (d.drop 2)

/-- I3C_PRIVATE_READ (R449): n bytes from the offset most recently written. -/
def execI3cPrivateRead (n : Nat) (s : State) : Host.Outcome State Fault Refusal :=
  .next <|
    if !answersDynamic s then s
    else
      let o := s.pins.i3cOffset
      let s := i3cSend s ((List.range n).map (fun i => i3cByte s ((o + i) % 65536)))
      { s with pins := { s.pins with i3cOffset := (o + n) % 65536 } }

/-- STATUS_WORD_CLEAR (R449, Table 17.6): a write of ones to the status word. -/
def execStatusWordClear (mask : BitVec 32) (s : State) : Host.Outcome State Fault Refusal :=
  .next (if answersDynamic s then clearStatus s mask.toNat else s)

/-- SUBPORT_COMMIT (R450): a write to the flags byte of a sub-port record. -/
def execSubportCommit (u : Nat) (flags : Byte) (s : State) : Host.Outcome State Fault Refusal :=
  .next (if answersDynamic s then commitPort s u flags.toNat else s)

/-! Boundary scan (R461, log 5). TAP states: 0 Test-Logic-Reset, 1 Run-Test/Idle, 2 Select-DR, 3 Capture-DR, 4 Shift-DR, 5 Exit1-DR,
6 Pause-DR, 7 Exit2-DR, 8 Update-DR, and 9 to 15 the same from Select-IR on. -/

/-- The next TAP state with TMS 0 and TMS 1 (IEEE 1149.1). -/
def tapNext : List (Nat × Nat) :=
  [(1, 0), (1, 2), (3, 9), (4, 5), (4, 5), (6, 8), (6, 7), (4, 8), (1, 2), (10, 0), (11, 12), (11, 12), (13, 15), (13, 14), (11, 15),
   (1, 2)]

/-- IDCODE (R461). -/
abbrev idcode : Nat := 0x5A516001

/-- Instructions of the scan chain (log 5): EXTEST, SAMPLE/PRELOAD and IDCODE; every other code is BYPASS. -/
inductive TapReg where
  /-- The boundary cells. -/
  | boundary
  /-- IDCODE. -/
  | id
  /-- One bit. -/
  | bypass
  deriving DecidableEq, Repr

/-- The data register an instruction selects. -/
def tapReg (ir : Nat) : TapReg := if ir < 2 then .boundary else if ir = 2 then .id else .bypass

/-- A data register captured: of the boundary cells, the place from which their free levels are drawn. -/
def tapCapture (s : State) : State :=
  match tapReg s.pins.tapIr with
  | .boundary => { s.draw with pins := { s.pins with tapShift := s.free * 65536 } }
  | .id => { s with pins := { s.pins with tapShift := idcode } }
  | .bypass => { s with pins := { s.pins with tapShift := 0 } }

/-- A data register shifted by one bit. -/
def tapShiftDr (p : Pins) (tdi : Bool) : Nat :=
  match tapReg p.tapIr with
  | .boundary => p.tapShift + 1
  | .id => p.tapShift / 2 + 2147483648 * b2n tdi
  | .bypass => b2n tdi

/-- The level of TDO in a state: the lowest bit of the register shifted. -/
def tapOut (p : Pins) : Bool :=
  if p.tap = 11 then bit p.tapShift 0
  else if p.tap = 4 then
    (match tapReg p.tapIr with
     | .boundary => Config.scanCell p.tapShift
     | _ => bit p.tapShift 0)
  else false

/-- The action of a TAP state at the next clock. -/
def tapAct (s : State) (tdi : Bool) : State :=
  match s.pins.tap with
  | 3 => tapCapture s
  | 4 => { s with pins := { s.pins with tapShift := tapShiftDr s.pins tdi } }
  | 10 => { s with pins := { s.pins with tapShift := 1 } }
  | 11 => { s with pins := { s.pins with tapShift := s.pins.tapShift % 16 / 2 + 8 * b2n tdi } }
  | 15 => { s with pins := { s.pins with tapIr := s.pins.tapShift % 16 } }
  | _ => s

/-- BOUNDARY_SCAN (R461): one cycle of TCK, or TRST_N low. -/
def execBoundaryScan (tms tdi trstN : Bool) (s : State) : Host.Outcome State Fault Refusal :=
  .next <|
    if !s.pins.rails.contains 0 then s
    else if !trstN then tapReset s
    else
      let s := tapAct s tdi
      let e := tapNext.getD s.pins.tap (0, 0)
      let n := if tms then e.2 else e.1
      let s := if n = 0 then tapReset s else { s with pins := { s.pins with tap := n } }
      { s with pins := { s.pins with tdo := tapOut s.pins } }

end Sys2Proof.Machine
end

