-- ==== Sys2Proof/Machine/Predictor.lean ====
section
/-!
DEFINITION. Predicted layers (R124 to R145): the quantised input and the mask, predictor groups and their audit selection,
packed tiles of kept, audit and exact rows, zero writes, and the release of a governed record. The predictor's state of
a layer stands in the walk of its PREDICT.
-/

namespace Sys2Proof.Machine

/-! The values in effect. -/

/-- θ and g that a PREDICT of a run uses (R143), and whether they start its layer slot. A slot that started after the run
was accepted gives the values that it started from, for what an adaptation changes holds for runs accepted after it (R144). -/
def thetaG (s : State) (r : Run) (m : MRec) : F32 × F32 × Bool :=
  let slot := bits m.imm0 24 8
  let v := slotOf r (0x0300 + slot)
  let th := BitVec.ofNat 32 (bits m.imm1 0 32)
  let g := BitVec.ofNat 32 (bits m.imm1 32 32)
  let clamp := fun (x : F32) (lo hi : Nat) =>
    if (dec x).lt (f32At v lo) then BitVec.ofNat 32 (field v lo 4)
    else if (f32At v hi).lt (dec x) then BitVec.ofNat 32 (field v hi 4) else x
  if !bit (field v 2 1) 0 then (th, g, false)
  else
    match look slot r.adapt with
    | some (t, h) => (t, h, false)
    | none =>
      let l := (look slot s.layers).getD {}
      if l.live then (l.theta0, l.g0, false) else (clamp th 0x10 0x14, clamp g 4 8, true)

/-- The predicted layer of a PREDICT recorded for its run, once (R145), and its slot's values begun (R143). -/
def noteLayer (s : State) (r : Run) (mi : Nat) : State :=
  if r.layers.any (fun l => l.mi == mi) then s
  else
    let m := r.mrec mi
    let slot := bits m.imm0 24 8
    let (th, g, start) := thetaG s r m
    let s := if start then
        { s with layers := put slot { (look slot s.layers).getD {} with theta := th, g := g, theta0 := th, g0 := g, live := true } s.layers }
      else s
    s.onRun r.tag (fun r => { r with layers := r.layers ++ [{ mi := mi, slot := slot, theta := th, g := g }] })

/-- θ and g of a predicted layer of a run. -/
def layerVals (r : Run) (mi : Nat) : Val × Val :=
  match r.layers.find? (fun l => l.mi == mi) with
  | some l => (dec l.theta, dec l.g)
  | none => (.zero, .zero)

/-! The quantised input (R127). -/

/-- The block exponent of a block's largest magnitude: the smallest e with m × 2^-e at most 7. -/
def blockExp (m : Nat) (e : Int) : Int :=
  let p := expOf m e - 2
  if (Val.fin false 7 0).lt ((Val.fin false m e).scale (-p)) then p + 1 else p

/-- The larger magnitude. -/
def maxMag (a b : Val) : Val := if b.magGt a then b else a

/-- One block quantised: usable, exponent, integers. -/
def quantBlock (vs : List Val) : Bool × Int × List Int :=
  if vs.any (fun v => v.isNan || v.isInf) then (false, 0, vs.map (fun _ => 0))
  else
    match vs.foldl maxMag .zero with
    | .fin _ m e => if m = 0 then (true, 0, vs.map (fun _ => 0)) else
        let b := blockExp m e
        (true, b, vs.map (fun v => (v.scale (-b)).toInt))
    | _ => (true, 0, vs.map (fun _ => 0))

/-- Token rows of a predicted layer: those of A in extent (R127, R471). -/
def tokensOf (s : State) (r : Run) (mi pos : Nat) : Nat := (getView s r mi pos 0).rowsIn 0

/-- Reduction extent of a predicted layer. -/
def predK (s : State) (r : Run) (mi pos : Nat) : Nat := (getView s r mi pos 0).ex 0

/-- The layer input quantised for every token row and block (R127). -/
def quantise (s : State) (r : Run) (mi pos : Nat) : Except RdErr PredState := do
  let a := getView s r mi pos 0
  let k := predK s r mi pos
  let blocks := (List.range (tokensOf s r mi pos)).flatMap (fun i => (List.range (cdiv k 64)).map (fun b => (i, b)))
  let rows ← blocks.mapM (fun x => do
    let vs ← valsAt s a ((List.range (min 64 (k - 64 * x.2))).map (fun j => [64 * x.2 + j, x.1]))
    .ok (x, quantBlock vs))
  .ok { q := rows.flatMap (fun x => (numbered x.2.2.2).map (fun y => (x.1.1 * 2 ^ 32 + 64 * x.1.2 + y.1, y.2)))
        e := rows.map (fun x => (x.1.1 * 2 ^ 32 + x.1.2, x.2.2.1))
        bad := (rows.filter (fun x => !x.2.1)).map (fun x => x.1.1 * 2 ^ 32 + x.1.2) }

/-- Rows in extent of a predictor group (R126). -/
def groupRows (s : State) (r : Run) (mi pos u : Nat) : List Nat :=
  (List.range ((govView s r mi pos).colsIn u)).map (64 * u + ·)

/-- Mask bits written (R130). -/
def writeMask (s : State) (r : Run) (mi pos : Nat) (l : List (Nat × Bool)) : Except WrErr State :=
  writeElems s (getView s r mi pos 2) (l.map (fun x => ([x.1], b2n x.2, 127)))

/-- PREDICT on a position (R127, R130, R141): in DENSE the mask is written and the walk ends; else the input is quantised
and the groups await their decisions. -/
def predictWalk (s : State) (r : Run) (w : Walk) : State :=
  if w.set then s
  else
    match walkUnits s r w.mi w.pos with
    | .error e => failRead s r.tag w.mi w.core e
    | .ok us =>
      let s := noteLayer s r w.mi
      if (r.mrec w.mi).pmode = 0 then
        match writeMask s r w.mi w.pos ((us.flatMap (groupRows s r w.mi w.pos)).map (fun x => (x, true))) with
        | .error e => failWrite s r.tag w.mi e
        | .ok t => endWalk (issueWrites t) r.tag w.mi w.pos w.core
      else
        let s := reach s r.tag w.mi w.pos [0] allItems
        match quantise s r w.mi w.pos with
        | .error e => failRead s r.tag w.mi w.core e
        | .ok p =>
          let s := s.onWalk r.tag w.mi w.pos (fun w => { w with set := true, pred := { p with groups := us } })
          if us.isEmpty then endWalk s r.tag w.mi w.pos w.core else s

/-- PREDICT (R127). -/
def execPredict (t i p : Nat) (s : State) : Host.Outcome State Fault Refusal := .next <| opCmd s t i p opPredict predictWalk

/-! Decisions. -/

/-- The raw prediction of a row for a token row (R128): the value, and whether the row is kept by R129's NaN and saturation
rule. A block's codes and scale come from the sketch. -/
def rawPred (p : PredState) (i : Nat) (blocks : List (Nat × List Nat × Val)) : Val × Bool :=
  blocks.foldl (fun acc b =>
    let qs := (numbered b.2.1).map (fun c => (look (i * 2 ^ 32 + 64 * b.1 + c.1) p.q).getD 0 * (decElem 0x0B c.2).toInt)
    let x := ((Val.ofInt (qs.foldl (· + ·) 0)).scale ((look (i * 2 ^ 32 + b.1) p.e).getD 0)).mul b.2.2
    let force := acc.2 || b.2.2.isNan || b.2.2.isInf || p.bad.contains (i * 2 ^ 32 + b.1)
    let y := x.r32
    let z := (acc.1.add (if y.over32 then max32 y.neg else y)).r32
    (if z.over32 then max32 z.neg else z, force || z.isNan || y.over32 || z.over32)) (.zero, false)

/-- The sketch's codes and scale of a row, block by block (R39, R128). -/
def sketchRow (s : State) (v : View) (k row : Nat) : Except RdErr (List (Nat × List Nat × Val)) :=
  (List.range (cdiv k 64)).mapM (fun b => do
    let cs ← codesAt s v ((List.range (min 64 (k - 64 * b))).map (fun j => [row, 64 * b + j]))
    let sc := match cs.headD none with
      | some c => decFloat 0x07 c.2
      | none => Val.zero
    .ok (b, cs.map (fun c => (c.getD (0, 0)).1), sc))

/-- A value passes the layer's test against a bound (R129, R131). -/
def passes (test : Nat) (bound v : Val) : Bool :=
  bound.lt (if test = 1 then (if v.neg then v.negate else v) else v)

/-- The hash of R138 gives zero in its low a bits: the skipped row is audited. -/
def auditHash (seed row a : Nat) : Bool :=
  let m := 2 ^ 64
  let h := seed ^^^ (row * 0x9E3779B97F4A7C15 % m)
  let h := (h ^^^ (h >>> 30)) * 0xBF58476D1CE4E5B9 % m
  let h := (h ^^^ (h >>> 27)) * 0x94D049BB133111EB % m
  let h := h ^^^ (h >>> 31)
  h % 2 ^ a == 0

/-- The keep decision of a row (R128, R129): kept, and forced. -/
def keepRow (s : State) (r : Run) (w : Walk) (row : Nat) (blocks : List (Nat × List Nat × Val)) : Except RdErr (Bool × Bool) := do
  let m := r.mrec w.mi
  let (th, g) := layerVals r w.mi
  let raws := (List.range (tokensOf s r w.mi w.pos)).map (fun i => (i, rawPred w.pred i blocks))
  let es ← epilogue s r (w.mi + 1) w.pos 0 (raws.map (fun x => ([row, x.1], x.2.1, false)))
  let forced := raws.any (fun x => x.2.2) || es.any (fun e => e.2.pre.isNan)
  .ok (forced || es.any (fun e => passes m.ptest (th.add g.negate) e.2.pre), forced)

/-- The walk of a PREDICT, with its predictor's state, on a position. -/
def predOf (r : Run) (g p : Nat) : Option Walk := (r.walk g p).filter (fun w => w.set)

/-- Row x of governed record k (1 or 2) is written. -/
def PredState.did (q : PredState) (k x : Nat) : Bool := q.written.contains (k * 2 ^ 32 + x)

/-- Governed record k of a layer has started on a position and its walk is formed. -/
def govStarted (r : Run) (g p k : Nat) : Bool :=
  decide (k ≤ (r.mrec g).governed) && (match r.walk (g + k) p with
    | some w => w.set && !w.done
    | none => false)

/-- The rows of the next kept packed tile of governed record k, none when it is not complete (R134, R136): the second's
follow the first's. -/
def keptTile (r : Run) (g p : Nat) (q : PredState) (k : Nat) : List Nat :=
  if !govStarted r g p k then []
  else if k = 2 then (q.kept.filter (fun x => q.did 1 x && !q.did 2 x)).take 64
  else
    let l := q.kept.filter (fun x => !q.did 1 x)
    let behind := govStarted r g p 2 && q.kept.any (fun x => q.did 1 x && !q.did 2 x)
    if behind || (decide (l.length < 64) && !q.groups.isEmpty) then [] else l.take 64

/-- The rows of the next audit or exact packed tile of governed record k (R136): of the second, in AUDIT, the first's
detected misses. -/
def auditTile (r : Run) (g p : Nat) (q : PredState) (k : Nat) : List Nat :=
  let exact := (r.mrec g).pmode == 3
  let open1 := q.audit.filter (fun x => !q.did 1 x)
  if !govStarted r g p k || !q.groups.isEmpty || !(keptTile r g p q 1).isEmpty || !(keptTile r g p q 2).isEmpty then []
  else if k = 1 then
    (if exact && govStarted r g p 2 && q.audit.any (fun x => q.did 1 x && !q.did 2 x) then [] else open1.take 64)
  else if exact then (q.audit.filter (fun x => q.did 1 x && !q.did 2 x)).take 64
  else
    let l := q.found.filter (fun x => !q.did 2 x)
    if decide (l.length < 64) && !open1.isEmpty then [] else l.take 64

/-- Governed record k of a layer has no row left to read (R134, R137): every decision is made, its kept, exact and audited rows
are walked, and for the second record no miss can be found any more. -/
def govRead (r : Run) (g : Nat) (q : PredState) (k : Nat) : Bool :=
  let l := if k = 2 ∧ (r.mrec g).pmode = 2 then q.found else q.audit
  q.groups.isEmpty && q.kept.all (q.did k) && l.all (q.did k) && (k == 1 || q.audit.all (q.did 1))

/-- The larders of governed records that have made their last reads are released (R177). -/
def endGovReads (s : State) (tag g p : Nat) : State :=
  match findWalk s tag g p with
  | none => s
  | some (r, pw) =>
    (below 3 (fun k => decide (1 ≤ k) && decide (k ≤ (r.mrec g).governed))).foldl (fun s k =>
      match r.walk (g + k) p with
      | some w => if w.set && !w.done && w.loftDone && govRead r g pw.pred k then endReads s tag (g + k) p w.core else s
      | none => s) s

/-- PREDICTOR_GROUP on a position (R128 to R130, R133, R136, R138): the next group's rows are decided, unless a kept packed
tile takes the block path first. A group's cc in PRED_CC are rounded up (DESIGN CHOICE, log 93). -/
def groupWalk (s : State) (r : Run) (w : Walk) : State :=
  match w.pred.groups with
  | [] => s
  | u :: us =>
    if !w.set || !(keptTile r w.mi w.pos w.pred 1).isEmpty || !(keptTile r w.mi w.pos w.pred 2).isEmpty
        || unissued s r.tag w.mi w.pos then s
    else
      let s := reach s r.tag w.mi w.pos [1] u
      let m := r.mrec w.mi
      let b := getView s r w.mi w.pos 1
      let k := predK s r w.mi w.pos
      let rows := groupRows s r w.mi w.pos u
      let go : Except RdErr (List (Nat × Bool × Bool × Nat)) := rows.mapM (fun x => do
        let bl ← sketchRow s b k x
        let (keep, forced) ← keepRow s r w x bl
        .ok (x, keep, forced, (bl.map (fun y => (y.2.1.filter (fun c => c == 2)).length)).sum))
      match go with
      | .error e => failRead s r.tag w.mi w.core e
      | .ok ds =>
        match writeMask s r w.mi w.pos (ds.map (fun d => (d.1, d.2.1))) with
        | .error e => failWrite s r.tag w.mi e
        | .ok s =>
          let kept := (ds.filter (fun d => d.2.1)).map (fun d => d.1)
          let skipped := (ds.filter (fun d => !d.2.1)).map (fun d => d.1)
          let audit := skipped.filter (fun x => m.pmode == 3 || (m.pmode == 2 &&
            auditHash (r.mrec (w.mi + 1)).imm1 x (bits m.imm0 16 4)))
          let s := s.onWalk r.tag w.mi w.pos (fun w => { w with pred := { w.pred with
            groups := us, kept := w.pred.kept ++ kept, audit := w.pred.audit ++ audit
            toZero := w.pred.toZero ++ skipped.filter (fun x => !audit.contains x) } })
          let s := (((s.bump Ctr.predRows w.core ds.length).bump Ctr.predKept w.core kept.length).bump Ctr.predSkipped
            w.core skipped.length).bump Ctr.predForced w.core ((ds.filter (fun d => d.2.2.1)).length)
          let s := (s.bump Ctr.predCc w.core (cdiv (9 * cdiv k 256) 8)).bump Ctr.sketchReserved w.core
            ((ds.map (fun d => d.2.2.2)).sum)
          let s := issueWrites s
          if us.isEmpty then endGovReads (endWalk s r.tag w.mi w.pos w.core) r.tag w.mi w.pos else s

/-- PREDICTOR_GROUP (R130). -/
def execPredictorGroup (t i p : Nat) (s : State) : Host.Outcome State Fault Refusal := .next <| opCmd s t i p opPredict groupWalk

/-! Rows of a governed output. -/

/-- An element of a governed output ready to be written: row, token row, value, mark. -/
abbrev GovElem := Nat × Nat × Val × Bool

/-- The walk of the PREDICT changed. -/
def onPred (s : State) (tag g p : Nat) (f : PredState → PredState) : State :=
  s.onWalk tag g p (fun w => { w with pred := f w.pred })

/-- A true tile's flags and saturated elements grown (R135). -/
def tileStatus (q : PredState) (key fl n : Nat) : PredState :=
  let (a, b) := (look key q.status).getD (0, 0)
  { q with status := put key (a ||| fl, b + n) q.status }

/-- Elements of an output of an MX format whose blocks run along its rows are held until their block is whole, so that
each block takes its one scale (R38, R57, log 41): those that can be written now, and the state that holds the others. -/
def holdBlocks (c : View) (k : Nat) (q : PredState) (l : List GovElem) : List GovElem × PredState :=
  if !(fmtMx c.d.format && blockDim c.d == 0) then (l, q)
  else
    let key := fun (e : GovElem) => (k * 2 ^ 32 + e.1) * 64 + e.2.1
    let all := l.foldl (fun a e => put (key e) (enc e.2.2.1, e.2.2.2) a) q.held
    let mine := all.filter (fun e => e.1 / 64 / 2 ^ 32 == k)
    let row := fun (e : Nat × F32 × Bool) => e.1 / 64 % 2 ^ 32
    let whole := fun (e : Nat × F32 × Bool) =>
      let b := row e / 32
      (mine.filter (fun x => row x / 32 == b && x.1 % 64 == e.1 % 64)).length == min 32 (c.ex 0 - 32 * b)
    let out := mine.filter whole
    (out.map (fun e => (row e, e.1 % 64, dec e.2.1, e.2.2)), { q with held := all.filter (fun e => !out.contains e) })

/-- Elements of governed record k written into C, tile column by tile column, with what narrowing adds to the true tiles'
status; rows are marked as written, and the status word of each true tile whose rows are all written is logged (R133,
R135). -/
def commitRows (s : State) (r : Run) (g k : Nat) (w : Walk) (rows : List Nat) (l : List GovElem) : Except WrErr State := do
  let c := getView s r w.mi w.pos 2
  let q := match (findWalk s r.tag g w.pos) with
    | some (_, pw) => pw.pred
    | none => {}
  let (now, q) := holdBlocks c k q l
  let tcs := (now.map (fun e => e.1 / 64)).eraseDups
  let (s, q) ← tcs.foldlM (fun (acc : State × PredState) tc => do
    let (t, fl, n) ← writeRaw acc.1 r w ((now.filter (fun e => e.1 / 64 == tc)).map (fun e =>
      ([e.1, e.2.1], ({ v := e.2.2.1, mark := e.2.2.2 } : Epi))))
    .ok (t, tileStatus acc.2 (k * 2 ^ 32 + tc) fl n)) (s, q)
  let q := { q with written := rows.foldl (fun a x => insertN (k * 2 ^ 32 + x) a) q.written }
  let s := onPred s r.tag g w.pos (fun _ => q)
  let full := ((rows.map (fun x => x / 64)).eraseDups).filter (fun tc =>
    (List.range (c.colsIn tc)).all (fun j => q.did k (64 * tc + j)))
  .ok (issueWrites (full.foldl (fun s tc =>
    let (fl, n) := (look (k * 2 ^ 32 + tc) q.status).getD (0, 0)
    logTile s r w tc (statusWord fl 0 n)) s))

/-- The next group's skipped rows of governed record k that are to be written as +0 (R132, R133): those not audited, and,
for the second record, those the first's audit found inactive. -/
def zeroRows (r : Run) (g : Nat) (q : PredState) (k : Nat) : List Nat :=
  let open0 := q.toZero.filter (fun x => !q.did k x)
  let more := if k = 2 ∧ (r.mrec g).pmode = 2 then q.audit.filter (fun x => q.did 1 x && !q.found.contains x && !q.did 2 x) else []
  let l := open0 ++ more
  match l with
  | [] => []
  | x :: _ => l.filter (fun y => y / 64 == x / 64)

/-- A governed record's walk with its PREDICT's index and its place among the governed ones. -/
def govWalk (s : State) (t i p : Nat) : Option (Run × Walk × Nat × PredState) :=
  match walkOf s t i p with
  | none => none
  | some (r, w) =>
    if !packedWalk r i || !w.set || w.done then none
    else
      match r.prog.governor i with
      | none => none
      | some g => (predOf r g p).map (fun pw => (r, w, g, pw.pred))

/-- ZERO_ROW_WRITE (R132, R133): the rows of one group that are skipped and not audited take +0 in every token row. -/
def execZeroRowWrite (t i p : Nat) (s : State) : Host.Outcome State Fault Refusal :=
  .next <|
    match govWalk s t i p with
    | none => s
    | some (r, w, g, q) =>
      let rows := zeroRows r g q (i - g)
      if rows.isEmpty || unissued s t i p then s
      else
        let l := rows.flatMap (fun x => (List.range ((getView s r i p 2).rowsIn 0)).map (fun j => (x, j, Val.zero, false)))
        match commitRows s r g (i - g) w rows l with
        | .error e => failWrite s t i e
        | .ok s => s.bump Ctr.zeroRows w.core rows.length

/-! Packed tiles. -/

/-- Shelf bytes that a reduction step reads of one row of B (R159): its elements' and its scale bytes, RAW, form D or S24. -/
def laneBytes (s : State) (b : View) (row lo n : Nat) : List Nat :=
  let w := fmtBits b.d.format
  let ks := ((List.range n).map (lo + ·)).filter (fun k => b.inside [row, k])
  if b.d.form = 0 then
    ks.flatMap (fun k => (b.elem [row, k]).addr :: (if fmtMx b.d.format then [(b.scaleLoc [row, k]).addr] else []))
  else
    ks.flatMap (fun k =>
      let l := row % 64
      let q := k % 64
      match crateAt s b 0 (k / 64) (row / 64) with
      | .error _ => []
      | .ok c =>
        let at0 := (b.slot 0 (k / 64) (row / 64)).addr + 32
        let sc := fun (o : Nat) => if fmtMx b.d.format then [at0 + o + 2 * l + q / 32] else []
        if c.form = 2 then
          [at0 + (32 * l + q / 4 * 2) * w / 8, at0 + (32 * l + q / 4 * 2 + 1) * w / 8, at0 + 256 * w + (16 * l + q / 4) / 2]
            ++ sc (256 * w + 512)
        else (at0 + (64 * l + q) * w / 8) :: sc (512 * w))

/-- The cc beyond one that a packed step takes (R159): the most distinct words read from one bank column, less one. -/
def gatherCc (s : State) (b : View) (rows : List Nat) (lo n : Nat) : Nat :=
  let words := ((rows.flatMap (fun x => laneBytes s b x lo n)).map (· / 32)).eraseDups
  let cols := (words.map (· % 128)).eraseDups
  (cols.map (fun c => (words.filter (fun x => x % 128 == c)).length)).foldl Nat.max 1 - 1

/-- One true tile's part of a packed tile (R135): its accumulations by token row for the rows walked, its flags, and the
steps of its reduction. -/
structure PackPart where
  /-- True tile column. -/
  tcol : Nat := 0
  /-- Elements: row, token row, accumulation. -/
  accs : List (Nat × Nat × Acc) := []
  /-- Flags of accumulation for each row. -/
  flags : List (Nat × Nat) := []
  /-- Issued steps. -/
  steps : List KStep := []
  /-- Integer class. -/
  isInt : Bool := false
  deriving Inhabited

/-- The part of a packed tile that lies in one true tile. -/
def packPart (s : State) (r : Run) (w : Walk) (rows : List Nat) (tc : Nat) : Except RdErr PackPart := do
  let cs := (rows.filter (fun x => x / 64 == tc)).map (· % 64)
  let (j, _) ← engineJobOn (fun c => cs.contains c) s r w tc
  let es := cs.map (fun c => (c, (numbered j.rows).map (fun x => (x.2, j.elem 0 x.1 x.2 c, j.start 0 x.1 c))))
  .ok { tcol := tc, steps := j.steps, isInt := j.isInt
        accs := es.flatMap (fun e => e.2.map (fun x => (64 * tc + e.1, x.1, x.2.1.1)))
        flags := es.map (fun e =>
          let sat := e.2.any (fun x => x.2.1.2.isSome || x.2.2.1.sat)
          let nan := e.2.any (fun x => x.2.1.1.nan || x.2.2.2)
          (64 * tc + e.1, (if sat then flSat ||| flSatFinal else 0) ||| (if nan then flNan else 0))) }

/-- What reading a packed tile counts: gather conflicts (R134) and selector steps (R111); a logical step is two dense ones
when some row's crate is of form D. -/
def countPacked (s : State) (r : Run) (w : Walk) (rows : List Nat) (ps : List PackPart) : State :=
  let m := r.mrec w.mi
  let b := getView s r w.mi w.pos 1
  let e := redStep m (getView s r w.mi w.pos 0).d b.d
  let steps := ((ps.flatMap (fun p => p.steps.map (fun k => k.2.1)))).eraseDups
  let dense := fun (k : Nat) => !selects m b.d || ps.any (fun p => p.steps.any (fun x => x.2.1 == k && !x.1))
  let extra := (steps.map (fun k =>
    if selects m b.d && dense k then gatherCc s b rows (k * e) (e / 2) + gatherCc s b rows (k * e + e / 2) (e / 2)
    else gatherCc s b rows (k * e) e)).sum
  let s := s.bump Ctr.predGatherCc w.core extra
  if selects m b.d then
    (s.bump Ctr.s24Steps w.core (steps.filter (fun k => !dense k)).length).bump Ctr.s24DenseSteps w.core
      (2 * (steps.filter dense).length)
  else s

/-- A row is active: some token row's value entering the activation passes the test with θ alone (R131). -/
def rowActive (r : Run) (g x : Nat) (es : List (List Nat × Epi)) : Bool :=
  es.any (fun e => e.1.getD 0 0 == x && passes (r.mrec g).ptest (layerVals r g).1 e.2.pre)

/-- The audit results of a run's predicted layer grown (R144). -/
def noteAudit (s : State) (tag g audited missed : Nat) : State :=
  s.onRun tag (fun r => { r with layers := mapIf (fun l => l.mi == g) (fun l =>
    { l with audited := l.audited + audited, missed := l.missed + missed }) r.layers })

/-- The drain of a packed tile (R131 to R137): kept and exact rows take their true values, audited ones theirs when they are
active and +0 otherwise. -/
def drainPacked (s : State) (r : Run) (w : Walk) (g : Nat) (q : PredState) (kept : Bool) (rows : List Nat) (ps : List PackPart) :
    Except RdErr (Except WrErr State) := do
  let k := w.mi - g
  let mode := (r.mrec g).pmode
  let vals := ps.flatMap (fun p => p.accs.map (fun a => ([a.1, a.2.1],
    (if p.isInt then a.2.2.v.r32 else if a.2.2.nan then Val.nan else a.2.2.v), a.2.2.sat)))
  let es ← epilogue s r w.mi w.pos 0 vals
  let active := rows.filter (fun x => !kept && (if k = 1 then rowActive r g x es else q.found.contains x))
  let truth := rows.filter (fun x => kept || mode == 3 || active.contains x)
  let zero := rows.filter (fun x => !truth.contains x)
  let s := countEpi s w.core (r.mrec w.mi).opcode (es.filter (fun e => truth.contains (e.1.getD 0 0)))
  let elems : List GovElem := es.map (fun e =>
    let x := e.1.getD 0 0
    if truth.contains x then (x, e.1.getD 1 0, e.2.v, e.2.mark) else (x, e.1.getD 1 0, Val.zero, false))
  let q := truth.foldl (fun q x =>
    let mine := es.filter (fun e => e.1.getD 0 0 == x)
    let fl := ((ps.flatMap (fun p => p.flags)).filter (fun f => f.1 == x)).foldl (fun a f => a ||| f.2) 0
    tileStatus q (k * 2 ^ 32 + x / 64) (fl ||| orAll (mine.map (fun e => e.2.flags)) |||
      (if active.contains x then flMiss else 0)) (marked mine)) q
  let q := if k = 1 ∧ !kept then { q with found := q.found ++ active } else q
  .ok (do
    let s ← commitRows (onPred s r.tag g w.pos (fun _ => q)) r g k w rows elems
    let s := s.bump Ctr.zeroRows w.core zero.length
    if kept ∨ k ≠ 1 then .ok s
    else
      let s := noteAudit s r.tag g rows.length active.length
      if mode = 2 then .ok ((s.bump Ctr.auditRows w.core rows.length).bump Ctr.auditMisses w.core active.length)
      else .ok (s.bump Ctr.exactMisses w.core active.length))

/-- The cellar's contents after a packed tile: the rows in the order of the tile (R134). -/
def putPacked (s : State) (w : Walk) (ctile : Nat) (ps : List PackPart) : State :=
  let all := ps.flatMap (fun p => p.accs.map (fun a => (a.2.1, accCode p.isInt a.2.2)))
  ((all.map (fun a => a.1)).eraseDups).foldl (fun s i =>
    putRow s w.core ctile i ((all.filter (fun a => a.1 == i)).map (fun a => a.2))) s

/-- PACKED_TILE (R134 to R137): a complete kept tile, else, once every decision is made, an audit or exact tile, of a
governed record is walked and drained. -/
def execPackedTile (t i p : Nat) (s : State) : Host.Outcome State Fault Refusal :=
  .next <|
    match govWalk s t i p with
    | none => s
    | some (r, w, g, q) =>
      let k := nextTile (r.mrec i) w
      let kr := keptTile r g p q (i - g)
      let rows := if kr.isEmpty then auditTile r g p q (i - g) else kr
      if rows.isEmpty || !tileFree s w.core k || unissued s t i p then s
      else
        let s := reach s t i p [0, 1, 2, 3] allItems
        match ((rows.map (fun x => x / 64)).eraseDups).mapM (packPart s r w rows) with
        | .error e => failRead s t i w.core e
        | .ok ps =>
          let s := putPacked (countPacked s r w rows ps) w k ps
          let s := s.onTile w.core k (fun _ => { releasedAt := s.now })
          let s := s.onWalk t i p (fun w => { w with count := w.count + 1 })
          match drainPacked s r w g q (!kr.isEmpty) rows ps with
          | .error e => failRead s t i w.core e
          | .ok (.error e) => failWrite s t i e
          | .ok (.ok s) => noteReaders (endGovReads s t g p) r i p

/-- GOVERNED_RELEASE (R137): once every row in extent is written, the governed record has made its writes. -/
def execGovernedRelease (t i p : Nat) (s : State) : Host.Outcome State Fault Refusal :=
  .next <|
    match govWalk s t i p with
    | none => s
    | some (r, w, g, q) =>
      let c := getView s r i p 2
      if w.loftDone && w.units.all (fun u => (List.range (c.colsIn u)).all (fun j => q.did (i - g) (64 * u + j))) then
        endWalk (s.onWalk t i p (fun w => { w with units := [] })) t i p w.core
      else s

end Sys2Proof.Machine
end

