-- ==== Sys2Proof/Machine/Rotate.lean ====
section
/-!
DEFINITION. ROTATE (R193 to R198): the schedule's checks, step sends, receives, the stall limit, reads and writes of a
buffer in flight; and the arrivals of multicast data and acknowledgements (R286, R289), which rotation shares.
-/

namespace Sys2Proof.Machine

/-- The rotation of a macro-instruction on a position. -/
def rotAt (s : State) (t i p : Nat) : Option Rot := s.rots.find? (fun x => x.tag == t && x.mi == i && x.pos == p)

/-- A rotation replaced. -/
def setRot (s : State) (x : Rot) : State :=
  { s with rots := mapIf (fun y => y.tag == x.tag && y.mi == x.mi && y.pos == x.pos) (fun _ => x) s.rots }

/-- The schedule header's 32 bytes and the position's entry, read (R193). -/
def schedule (s : State) (v : View) (pos : Nat) : Except RdErr (List Byte × List Byte) := do
  let read := fun (lo : Nat) => do
    let cs ← codesAt s v ((List.range 8).map (fun i => [lo + i]))
    .ok (cs.flatMap (fun c => leBytes 4 (c.getD (0, 0)).1))
  let h ← read 0
  let e ← read (8 + 8 * pos)
  .ok (h, e)

/-- The rank of a schedule: none for this device's own number. -/
def schedRank (n : Nat) : Option Nat := if n = 0xFFFF then none else some n

/-- Fields of an entry in range, reserved bytes zero (Table 7.8). -/
def entryOk (e : List Byte) : Bool :=
  let n := field e 0 1
  let rankOk := fun (k : Nat) => decide (k ≤ 1023) || k == 0xFFFF
  decide (n ≤ 4) && decide (field e 1 1 ≤ 1) && field e 5 3 == 0 && field e 0x18 8 == 0 &&
    (if field e 1 1 = 1 then rankOk (field e 2 2) && decide (field e 4 1 ≤ 127) else field e 2 2 == 0 && decide (field e 4 1 ≤ 127)) &&
    (List.range 4).all (fun k => if k < n then rankOk (field e (8 + 4 * k) 2) && decide (field e (10 + 4 * k) 1 ≤ 127) && field e (11 + 4 * k) 1 == 0
      else field e (8 + 4 * k) 4 == 0)

/-- The first condition of R194 on header and entry. -/
def schedOk (h e : List Byte) (team : Nat) : Bool :=
  let sb := field h 8 4
  field h 0 2 == 1 && field h 2 2 == team && decide (1 ≤ field h 6 2) && sb % 4096 == 0 && decide (4096 ≤ sb) && decide (sb ≤ 4194304)
    && field h 0x0C 4 % 4096 == 0 && field h 0x10 4 % 4096 == 0 && decide (1 ≤ field h 0x14 2) && field h 0x16 10 == 0 && entryOk e

/-- The second: the buffers (Table 6.3). -/
def bufsOk (p : Program) (h : List Byte) : Bool :=
  let sb := field h 8 4
  let lim := shelfBytes - p.loftBytes - p.scratchBytes
  !overlap (field h 0x0C 4) sb (field h 0x10 4) sb && decide (field h 0x0C 4 + sb ≤ lim) && decide (field h 0x10 4 + sb ≤ lim)

/-- Ranks that an entry names, other than this device. -/
def entryRanks (e : List Byte) : List Nat :=
  (((if field e 1 1 = 1 then [field e 2 2] else []) ++ (List.range (field e 0 1)).map (fun k => field e (8 + 4 * k) 2)).filter (· != 0xFFFF))

/-- The status of R194 for a schedule, none when it passes. -/
def schedStatus (s : State) (p : Program) (h e : List Byte) : Option (BitVec 8) :=
  if !schedOk h e p.team.length then some ePlan
  else if !bufsOk p h then some eRange
  else if !(entryRanks e).all (peerLive s) then some ePlan
  else none

/-- The rotation of a position whose schedule has passed (R193, R195). -/
def newRot (r : Run) (w : Walk) (h e : List Byte) : Rot :=
  { tag := r.tag, mi := w.mi, pos := w.pos, core := w.core, startBeat := beatOf r (r.mrec w.mi), steps := field h 4 2
    period := field h 6 2, sliceBytes := field h 8 4, buf := [field h 0x0C 4, field h 0x10 4], stallLimit := field h 0x14 2
    succ := (List.range (field e 0 1)).map (fun k => (field e (8 + 4 * k) 2, field e (10 + 4 * k) 1))
    pred := if field e 1 1 = 1 then some (field e 2 2, field e 4 1) else none
    tags := [some 0, none], complete := [true, false] }

/-- ROTATE on a position (R194, R195). -/
def rotStart (s : State) (r : Run) (w : Walk) : State :=
  let v := getView s r w.mi w.pos 0
  if w.set then s
  else if v.ex 0 < 8 + 8 * r.prog.team.length then failMacro s r.tag w.mi ePlan
  else
    match schedule s v w.pos with
    | .error e => failRead s r.tag w.mi w.core e
    | .ok (h, e) =>
      match schedStatus s r.prog h e with
      | some st => failMacro s r.tag w.mi st
      | none =>
        if field h 4 2 = 0 then endWalk s r.tag w.mi w.pos w.core
        else
          let s := endReads s r.tag w.mi w.pos w.core
          { s.onWalk r.tag w.mi w.pos (fun w => { w with set := true }) with rots := s.rots ++ [newRot r w h e] }

/-- ROTATE (R194). -/
def execRotate (t i p : Nat) (s : State) : Host.Outcome State Fault Refusal := .next <| opCmd s t i p opRotate rotStart

/-- The beat of step k. -/
def Rot.beatAt (x : Rot) (k : Nat) : Nat := x.startBeat + k * x.period

/-- The buffer of step k. -/
def Rot.bufOf (x : Rot) (k : Nat) : Nat := if x.pred.isNone then 0 else k % 2

/-- The buffer of step k holds its tag, complete (R195); without a predecessor buffer 0 holds every tag. -/
def Rot.holds (x : Rot) (k : Nat) : Bool :=
  x.pred.isNone || (x.tags.getD (k % 2) none == some k && x.complete.getD (k % 2) false)

/-- A read of a buffer is still in progress (R195): its macro-instruction has not finished its reads. -/
def Rot.read (x : Rot) (s : State) (b : Nat) : Bool :=
  x.readers.any (fun y => y.1 == b && (match s.live x.tag with
    | some r => (match r.walk y.2.1 x.pos with
      | some w => !(w.done || (w.set && w.units.isEmpty && w.filling.isEmpty))
      | none => false)
    | none => false))

/-- A rotation whose last sends and receive have finished ends on its position (R195). -/
def rotSettle (s : State) (t i p : Nat) : State :=
  match rotAt s t i p with
  | none => s
  | some x =>
    if x.step = x.steps ∧ x.sending.isEmpty ∧ (x.pred.isNone ∨ x.received = x.steps) then
      endWalk { s with rots := s.rots.filter (fun y => !(y.tag == t && y.mi == i && y.pos == p)) } t i p x.core
    else s

/-- A ROTATE send that every successor has taken, or that has ended for it, is finished (R288, R289). -/
def sendSettle (s : State) (key pos : Nat) : State :=
  match mcAt s key pos with
  | none => s
  | some m =>
    if m.rotate && m.settled && m.chunks.all (fun c => m.sent.contains c) then
      let s := { s with mcs := s.mcs.filter (fun y => !(y.key == key && y.pos == pos)) }
      match rotAt s m.tag m.mi pos with
      | none => s
      | some x =>
        let b := (placeOf (· == m.base) x.buf).getD 0
        rotSettle (setRot s { x with sending := x.sending.erase b }) m.tag m.mi pos
    else s

/-- A core is to take part in a rotation that it has not started (log 49): a run in progress or accepted has it in its team and
holds a ROTATE that has not started there. -/
def rotDue (s : State) (core : Nat) : Bool :=
  s.runs.any (fun r => r.state != 3 && r.stopping.isNone && (List.range r.prog.recs.length).any (fun i =>
    (r.mrec i).opcode == opRotate && (List.range r.prog.team.length).any (fun p => r.coreAt p == core && (r.walk i p).isNone)))

/-- The rotation in flight on a core. -/
def rotOf (s : State) (core : Nat) : Option Rot := s.rots.find? (fun x => x.core == core)

/-- A successor on this device takes a sender's slice, or refuses it (R195, R196). -/
def localTaken (s : State) (m : Mc) (rcore : Nat) (refused : Bool) : State :=
  let here := fun (c : Child) => c.rank == 0xFFFF && c.core == rcore
  let s := if refused then s.bump Ctr.rotateRefused m.core 1 else s
  let m := { m with children := mapIf here (fun c => if refused then { c with failed := true } else { c with acked := m.chunks }) m.children }
  sendSettle (pump (setMc s m) m.key m.pos) m.key m.pos

/-- The successors on this device that no rotation serves, nor will, refuse a slice at once (R196). -/
def refuseLocal (s : State) (key pos : Nat) : State :=
  match mcAt s key pos with
  | none => s
  | some m =>
    let isOpen := fun (c : Child) => c.rank == 0xFFFF && !c.failed && !m.chunks.all (fun k => c.acked.contains k)
    (m.children.filter (fun c => isOpen c && (rotOf s c.core).isNone && !rotDue s c.core)).foldl (fun s c =>
      match mcAt s key pos with
      | some m => localTaken s m c.core true
      | none => s) s

/-- ROTATE_STEP (R195): the step's beat has begun and its buffer holds its tag: the slice is sent to the successors. -/
def execRotateStep (t i p : Nat) (s : State) : Host.Outcome State Fault Refusal :=
  .next <|
    match walkOf s t i p, rotAt s t i p with
    | some (r, w), some x =>
      let k := x.step
      if x.steps ≤ k ∨ s.beat.number < x.beatAt k ∨ !x.holds k then s
      else
        let x := { x with step := k + 1 }
        if x.succ.isEmpty then rotSettle (setRot s x) t i p
        else
          let late := !(s.beat.number == x.beatAt k && s.now == s.beat.startAt)
          let b := x.bufOf k
          let n := cdiv x.sliceBytes 65536
          let mc : Mc :=
            { key := mcKey r.slot i (x.beatAt k), tag := t, mi := i, pos := p, core := w.core, startBeat := x.beatAt k
              stall := x.stallLimit, chunks := List.range n
              chunkLens := (List.range n).map (fun c => min 65536 (x.sliceBytes - 65536 * c))
              children := x.succ.map (fun y => { rank := y.1, core := y.2 }), rotate := true, begun := true
              base := x.buf.getD b 0, step := k, target := x.buf.getD ((k + 1) % 2) 0 }
          let s := setRot s { x with sending := x.sending ++ [b] }
          let s := (s.bump Ctr.rotateSteps w.core 1).bump Ctr.rotateLateSteps w.core (b2n late)
          refuseLocal (pump { s with mcs := s.mcs ++ [mc] } mc.key p) mc.key p
    | _, _ => s

/-- The buffer that takes the predecessor's next slice (R195). -/
def Rot.inBuf (x : Rot) : Nat := (x.received + 1) % 2

/-- A read or a send of its previous tag holds the buffer that is to receive (R195). -/
def Rot.busy (x : Rot) (s : State) : Bool := x.sending.contains x.inBuf || x.read s x.inBuf

/-- The receive of the next slice has its turn (R195): the send of its step has begun. -/
def Rot.turn (x : Rot) : Bool := decide (x.received < x.steps) && decide (x.received < x.step)

/-- The receive of the next slice has begun. -/
def Rot.receiving (x : Rot) : Bool := x.tags.getD x.inBuf none == some (x.received + 1)

/-- A buffer can take the predecessor's next slice (R195). -/
def Rot.ready (x : Rot) (s : State) : Bool := x.turn && (x.receiving || !x.busy s)

/-- The rotation with its next receive begun: the buffer's tag is that of the slice coming in. -/
def Rot.begin (x : Rot) : Rot :=
  if x.receiving then x
  else { x with tags := x.tags.set x.inBuf (some (x.received + 1)), complete := x.complete.set x.inBuf false, got := []
                key := none, readers := x.readers.filter (fun y => y.1 != x.inBuf) }

/-- A receive that is whole: its tag is complete. -/
def Rot.finish (x : Rot) : Rot :=
  { x with complete := x.complete.set x.inBuf true, received := x.received + 1, got := [], key := none, reads := [] }

/-- Bytes landed of a range of the slice being received. -/
def Rot.landed (x : Rot) (a n : Nat) : Nat := ((x.got.filter (fun y => decide (a ≤ y.1) && decide (y.1 < a + n))).map (fun y => y.2)).sum

/-- A piece of the slice that a rotation receives (R195, R289): written into the buffer; a whole chunk is acknowledged to the
sender, and the whole slice completes the tag. -/
def rotPiece (s : State) (x0 : Rot) (src key off : Nat) (d : List Byte) : State :=
  let x := x0.begin
  if x.got.any (fun y => y.1 == off) then s
  else
    let s := (shelfWrite s x.core (x.buf.getD x.inBuf 0 + off) d).1
    let x := { x with got := x.got ++ [(off, d.length)], key := some key }
    let c := off / 65536
    let s := if x.landed (65536 * c) 65536 = min 65536 (x.sliceBytes - 65536 * c) then
        (sendTransfer s 2 { ownHdr s 0x07 src with key := key, address := x.core * 2 ^ 56 + 65536 * c } []).1
      else s
    if x.landed 0 x.sliceBytes < x.sliceBytes then setRot s x else rotSettle (setRot s x.finish) x.tag x.mi x.pos

/-- Of a piece of a ROTATE send (log 9): the receiving core, the offset in the slice, the sending core, the size of the slice
and the step modulo 256. -/
def pieceCore (h : Hdr) : Nat := h.address / 2 ^ 56
def pieceOff (h : Hdr) : Nat := h.address / 2 ^ 24 % 2 ^ 32
def pieceFrom (h : Hdr) : Nat := h.tag / 64 % 128
def pieceSize (h : Hdr) : Nat := 4096 * (h.tag / 8192 % 2048)
def pieceStep (h : Hdr) : Nat := h.tag / 2 ^ 24

/-- A piece comes from the rotation's named predecessor, of a slice of exactly its size (R196). -/
def Rot.accepts (x : Rot) (h : Hdr) (n : Nat) : Bool :=
  x.pred == some (h.src, pieceFrom h) && pieceSize h == x.sliceBytes && decide (pieceOff h + n ≤ x.sliceBytes)

/-- A piece of a send is refused (R196): its sender is told. -/
def refusePiece (s : State) (h : Hdr) : State :=
  (sendTransfer s 2 { ownHdr s 0x05 h.src with key := h.key, status := 1, address := pieceCore h }  []).1

/-- Multicast data in space 1 (R289): a piece of a ROTATE's slice, taken when its step's receive has its turn, else it waits;
one that no rotation is to take is refused (R196). -/
def rotData (s : State) (h : Hdr) (d : List Byte) : State :=
  match rotOf s (pieceCore h) with
  | none => if rotDue s (pieceCore h) then { s with rotHeld := s.rotHeld ++ [(h, d)] } else refusePiece s h
  | some x =>
    if !x.accepts h d.length then refusePiece s h
    else if pieceStep h = x.received % 256 ∧ x.ready s then rotPiece s x h.src h.key (pieceOff h) d
    else { s with rotHeld := s.rotHeld ++ [(h, d)] }

/-- Reads by which a detached successor takes the rest of a slice from the sender's buffer (R289). -/
def rotAsk (s : State) (x0 : Rot) (src key : Nat) : State :=
  let x := x0.begin
  let offs := ((List.range (x.sliceBytes / 4096)).map (fun i => 4096 * i)).filter (fun o => !x.got.any (fun y => y.1 == o))
  let r := offs.foldl (fun (acc : State × List (Nat × Nat)) off =>
    let id := acc.1.nextXfer
    let h := { ownHdr acc.1 0x01 src with
      key := key, space := 1, tag := 2 ^ 31 + id, address := x.core * 2 ^ 56 + off, reqLength := min 4096 (x.sliceBytes - off) }
    ((sendTransfer { acc.1 with nextXfer := (id + 1) % 2 ^ 31 } 3 h []).1, acc.2 ++ [(2 ^ 31 + id, off)])) (s, [])
  setRot r.1 { x with reads := r.2, key := some key, catchUp := x.catchUp.filter (fun y => y.1 != key) }

/-- What waits for a rotation's buffer comes in, once that is free (R195, R289): the pieces that wait, and the reads of a slice
of which the device was detached. -/
def rotTake (s : State) (x : Rot) : State :=
  match x.pred with
  | none => s
  | some (rank, _) =>
    if !x.ready s then s
    else
      match x.catchUp.find? (fun y => y.2 == x.received % 256) with
      | some (key, _) => rotAsk s x rank key
      | none =>
        let due := fun (y : Hdr × List Byte) => pieceCore y.1 == x.core && pieceStep y.1 == x.received % 256
        let l := s.rotHeld.filter due
        if l.isEmpty then s
        else
          l.foldl (fun s y => match rotAt s x.tag x.mi x.pos with
            | some z => rotPiece s z y.1.src y.1.key (pieceOff y.1) y.2
            | none => s) { s with rotHeld := s.rotHeld.filter (fun y => !due y) }

/-- The pieces waiting on a core that its rotation does not accept are refused (R196). -/
def rotRefuse (s : State) (x : Rot) : State :=
  let bad := fun (y : Hdr × List Byte) => pieceCore y.1 == x.core && !x.accepts y.1 y.2.length
  let l := s.rotHeld.filter bad
  if l.isEmpty then s else l.foldl (fun s y => refusePiece s y.1) { s with rotHeld := s.rotHeld.filter (fun y => !bad y) }

/-- A slice that a core of this device sends to a rotation's core (R195, R196): refused unless it is the predecessor's and of
the rotation's size, else taken whole when the buffer is free. -/
def rotLocal (s : State) (x : Rot) (m : Mc) : State :=
  if x.pred ≠ some (0xFFFF, m.core) ∨ m.bytes m.chunks ≠ x.sliceBytes then localTaken s m x.core true
  else if m.step ≠ x.received ∨ !x.ready s then s
  else
    match shelfRead s m.core m.base x.sliceBytes with
    | none => failMacro s m.tag m.mi eDataLost
    | some d =>
      let s := (shelfWrite s x.core (x.buf.getD x.inBuf 0) d).1
      rotSettle (localTaken (setRot s x.begin.finish) m x.core false) x.tag x.mi x.pos

/-- A rotation awaits the slice of this step from this predecessor; one without a predecessor has none to name. -/
def Rot.awaits (x : Rot) (rank core step : Nat) : Bool :=
  x.pred.all (fun y => y == (rank, core)) && step == x.received % 256

/-- ROTATE_RECEIVE (R195, R196): the predecessor's slice comes into the buffer once that is free; any other slice is
refused. -/
def execRotateReceive (t i p rank core step : Nat) (s : State) : Host.Outcome State Fault Refusal :=
  .next <|
    match rotAt s t i p with
    | none => s
    | some x =>
      if !x.awaits rank core step then s else
      let near := s.mcs.filter (fun m => m.rotate && m.children.any (fun c =>
        c.rank == 0xFFFF && c.core == x.core && !c.failed && !m.chunks.all (fun k => c.acked.contains k)))
      match near with
      | m :: _ => rotLocal (rotRefuse s x) x m
      | [] => rotTake (rotRefuse s x) x

/-- MC_DATA (R286, R289): bytes of a chunk for a position of a multicast, or of a rotation's slice. -/
def execMcData (h : Hdr) (address tag : Nat) (d : List Byte) (s : State) : Host.Outcome State Fault Refusal :=
  let h := { h with address := address, tag := tag }
  .next <| servedIn s h (decide (h.length = d.length) && decide (32 ≤ d.length) && decide (d.length ≤ 4096)) id fun s =>
    if h.space = 1 then rotData s h d
    else
      match mcAt s h.key 0 with
      | none => s
      | some m =>
        let off := h.address % 2 ^ 56
        if m.detached || m.parent != some h.src then s
        else chunkBytes s m (chunkId (h.address / 2 ^ 56) (off / 65536)) (off % 65536) d

/-- A child's acknowledgement of a chunk (R286, R288): further chunks may be sent, and a ROTATE send may be finished. -/
def acked (s : State) (m : Mc) (rank core chunk : Nat) : State :=
  let here := fun (c : Child) => c.rank == rank && (!m.rotate || c.core == core)
  let s := setMc s { m with children := mapIf here (fun c => { c with acked := insertN chunk c.acked }) m.children }
  sendSettle (pump s m.key m.pos) m.key m.pos

/-- MC_ACK (R286): from a child, of a chunk of a position, or, of a ROTATE send, from the receiving core. -/
def execMcAck (key epoch rank address : Nat) (s : State) : Host.Outcome State Fault Refusal :=
  .next <| arrive s { epoch := epoch } fun s =>
    let pos := address / 2 ^ 56
    let n := address % 2 ^ 56 / 65536
    match s.mcs.find? (fun m => m.key == key && m.children.any (fun c => c.rank == rank && (!m.rotate || c.core == pos))) with
    | none => s
    | some m => acked s m rank pos (chunkId (if m.rotate then 0 else pos) n)

/-- A ROTATE send refused by a successor on another device (R196): it ends at once for that one. -/
def sendRefused (s : State) (h : Hdr) : State :=
  let here := fun (c : Child) => c.rank == h.src && c.core == h.address && !c.failed
  match s.mcs.find? (fun m => m.key == h.key && m.rotate && m.children.any here) with
  | none => s
  | some m =>
    let s := setMc (s.bump Ctr.rotateRefused m.core 1) { m with children := mapIf here (fun c => { c with failed := true }) m.children }
    sendSettle (pump s m.key m.pos) m.key m.pos

/-- DETACH (R287, R289): a detached child starts catching up, on a rotation once the buffer of that step is free; the pieces
that wait of it are given up. -/
def takeDetach (key core step rank : Nat) (s : State) : State :=
  match mcAt s key 0 with
  | some m => if m.detached || m.rotate || !m.begun || m.parent != some rank then s else catchUp s m rank
  | none =>
    match rotOf s core with
    | none => s
    | some x =>
      if x.pred.map (fun y => y.1) ≠ some rank ∨ x.catchUp.any (fun y => y.1 == key) ∨ (x.key = some key ∧ !x.reads.isEmpty) then s
      else
        let x := { x with catchUp := x.catchUp ++ [(key, step)] }
        let s := { s.bump Ctr.mcastLate 0 1 with rotHeld := s.rotHeld.filter (fun y => !(pieceCore y.1 == core && y.1.key == key)) }
        rotTake (setRot s x) x

/-- DETACH: see takeDetach. -/
def execDetach (rank : Nat) (d : List Byte) (s : State) : Host.Outcome State Fault Refusal :=
  .next (fromView s rank (takeDetach (field d 0 4) (field d 4 1) (field d 5 1) rank))

/-- Data of a ROTATE's catch-up read (R289). None when the read is no rotation's. -/
def gotRot (s : State) (h : Hdr) (d : List Byte) : Option State := do
  let x ← s.rots.find? (fun x => x.reads.any (fun y => y.1 == h.tag))
  let (_, off) ← x.reads.find? (fun y => y.1 == h.tag)
  let x := { x with reads := x.reads.filter (fun y => y.1 != h.tag) }
  if h.status ≠ 0 then some (setRot s x)
  else some (rotPiece (setRot (s.bump Ctr.mcastCatchupBytes 0 d.length) x) x h.src (x.key.getD h.key) off d)

/-- A predecessor's slice waits for the rotation's buffer (R195). -/
def Rot.holds0 (x : Rot) (s : State) : Bool :=
  x.turn && !x.receiving && x.busy s &&
    (s.rotHeld.any (fun y => pieceCore y.1 == x.core && pieceStep y.1 == x.received % 256) ||
      s.mcs.any (fun m => m.rotate && x.pred == some (0xFFFF, m.core) && m.step == x.received && m.children.any (fun c =>
        c.rank == 0xFFFF && c.core == x.core && !c.failed && c.acked.isEmpty)))

/-- A walk's read waits for a rotation buffer (R197). -/
def readWaits (s : State) (tag : Nat) (w : Walk) : Bool :=
  !w.done && (match w.rotWait with
    | some (off, n) => (rotsOn s tag w.mi w.core off n).any (fun x => rotRead s tag w.mi x == some .wait)
    | none => false)

/-- Slices that wait for a core whose rotation has ended, and where none is due, are refused (R196). -/
def refuseLeft (s : State) : State :=
  let left := fun (core : Nat) => (rotOf s core).isNone && !rotDue s core
  let l := s.rotHeld.filter (fun y => left (pieceCore y.1))
  let s := if l.isEmpty then s
    else l.foldl (fun s y => refusePiece s y.1) { s with rotHeld := s.rotHeld.filter (fun y => !left (pieceCore y.1)) }
  (s.mcs.filter (fun m => m.rotate)).foldl (fun s m => refuseLocal s m.key m.pos) s

/-- A cc of the rotations (R195, R196, R197, R199): slices that nothing is to take are refused; slices that wait for a buffer,
and reads that wait for a slice, count on their cores. -/
def tickRots (s : State) : State :=
  let s := refuseLeft s
  let s := (s.rots.filter (fun x => x.holds0 s)).foldl (fun s x => s.bump Ctr.rotateHoldCc x.core 1) s
  s.runs.foldl (fun s r => if r.state = 3 then s
    else (r.walks.filter (readWaits s r.tag)).foldl (fun s w => s.bump Ctr.rotateReadWaitCc w.core 1) s) s

/-- ROTATE_STALL_LIMIT (R196): the buffer does not hold the next tag by the stall limit; the last tag, which no step sends,
counts too (log 49). -/
def execRotateStallLimit (t i p : Nat) (s : State) : Host.Outcome State Fault Refusal :=
  .next <|
    match rotAt s t i p with
    | none => s
    | some x =>
      if x.beatAt x.step + x.stallLimit ≤ s.beat.number ∧ !x.holds x.step then failMacro s t i eLate
      else s

/-- ROTATE_BUFFER_READ (R197): an access of another macro-instruction to a buffer in flight: a write fails it with
E_OVERLAP; a read proceeds, waits or fails it with E_LATE. -/
def execRotateBufferRead (t i p off len : Nat) (write : Bool) (s : State) : Host.Outcome State Fault Refusal :=
  .next <|
    match walkOf s t i p with
    | none => s
    | some (_, w) =>
      let hit := rotsOn s t i w.core off len
      if hit.isEmpty then s
      else if write then failMacro s t i eOverlap
      else
        match hit.findSome? (rotRead s t i) with
        | some .late => failMacro s t i eLate
        | some _ => noteRotWait s t i w.core off len
        | none => beginReads s t i w.core off len

end Sys2Proof.Machine
end

