-- ==== Sys2Proof/Machine/Txn.lean ====
section
/-!
DEFINITION. Configuration orders and group transactions: BEGIN_TXN, SET, COMMIT_TXN, ROLLBACK_TXN (R363 to R368), and the
messages by which a group transaction reaches every member (R262 to R265).
-/

namespace Sys2Proof.Machine

/-- BEGIN_TXN's own part (R365). -/
def beginTxnOwn (s : State) (o : Order) : State :=
  let scope := field o.bytes 0x28 1
  if 1 < scope then complete s o ePlan []
  else if s.txn.state ≠ 0 ∨ s.prepared.isSome then complete s o eTxnConflict []
  else if scope = 1 ∧ !inView s then complete s o ePlan []
  else complete { s with txn := { state := 1, group := scope == 1, owner := o.qp } } o eOk []

/-- BEGIN_TXN (R365). -/
def execBeginTxn (m n : Nat) (s : State) : Host.Outcome State Fault Refusal := .next (orderCmd s m n 0x09 beginTxnOwn)

/-- A SET's value: inline, or read from a host region (Table 13.5); none when the read failed. -/
def setValue (s : State) (o : Order) (d : Option (List Byte)) : Option (List Byte) :=
  let len := field o.bytes 0x2C 4
  if field o.bytes 0x30 1 = 0 then some (slice o.bytes 0x40 len) else hostRead s o d len

/-- Staged values with one more (R366): a key staged again replaces the earlier value. -/
def stage (l : List (Nat × List Byte)) (k : Nat) (v : List Byte) : List (Nat × List Byte) :=
  l.filter (fun e => e.1 != k) ++ [(k, v)]

/-- The limits of a transaction (R366). -/
def stageOk (l : List (Nat × List Byte)) : Bool :=
  decide (l.length ≤ 64) && decide ((l.map (fun e => e.2.length)).sum ≤ 262144)

/-- SET's own part (R363, R364, R366). -/
def setOwn (d : Option (List Byte)) (s : State) (o : Order) : State :=
  let k := field o.bytes 0x28 4
  if s.txn.state = 2 ∨ (s.txn.state = 1 ∧ s.txn.owner ≠ o.qp) ∨ (s.txn.state = 0 ∧ s.prepared.isSome) then
    complete s o eTxnConflict []
  else if keySize k ≠ some (field o.bytes 0x2C 4) then complete s o ePlan []
  else
    let s := if field o.bytes 0x30 1 = 1 then hostAsk s o else s
    match setValue s o d with
    | none => complete s o eDataLost []
    | some v =>
      let st := setStatus s (s.txn.state == 1 && s.txn.group) k v
      if st ≠ eOk then complete s o st []
      else if s.txn.state = 0 then complete ((applyKey s k v).bump Ctr.txnCommits 0 1) o eOk []
      else
        let l := stage s.txn.staged k v
        if !stageOk l then complete s o eRange []
        else complete { s with txn := { s.txn with staged := l } } o eOk []

/-- SET (R364). -/
def execSet (m n : Nat) (d : Option (List Byte)) (s : State) : Host.Outcome State Fault Refusal :=
  .next (orderCmd s m n 0x0A (setOwn d))

/-- The first staged change that a device would refuse now (R366, R262), E_OK when none. Slot keys need a session. -/
def stagedStatus (s : State) (group : Bool) (l : List (Nat × List Byte)) : BitVec 8 :=
  match l.find? (fun e => (keySlot e.1 && !sessionOpen s) || setStatus s group e.1 e.2 != eOk) with
  | some e => if keySlot e.1 && !sessionOpen s then eAuth else setStatus s group e.1 e.2
  | none => eOk

/-- Staged changes as the body of a PREPARE: commit beat, then each key with its length and value (log 9). -/
def prepareBody (l : List (Nat × List Byte)) (beat : Nat) : List Byte :=
  leBytes 8 beat ++ l.flatMap (fun e => digestKey e.1 e.2)

/-- The DECISION is sent (R262). -/
def sendDecision (s : State) : State :=
  let c := if s.txn.commitBeat = 0 then beatAfter s 4 else s.txn.commitBeat
  mgmtAll { s with txn := { s.txn with decided := true, commitBeat := c } } 3 (leBytes 8 c)

/-- A group commit changes the digests of all that take part in beat C (R242, R264): what they reported before is out of
date. -/
def dropDigests (s : State) (ranks : List Nat) (c : Nat) : State :=
  { s with group := { s.group with reports := s.group.reports.filter (fun e => !ranks.contains e.1), digestFrom := c + 1 } }

/-- The transaction's staged changes are applied, it closes and its COMMIT_TXN completes (R367, R264). A change that
R366 refuses at commit leaves the transaction open. -/
def applyTxn (s : State) : State :=
  let st := stagedStatus s s.txn.group s.txn.staged
  if st ≠ eOk then { endCommit s st 0xFFFF 0 0 with txn := { s.txn with state := 1, order := none, commitBeat := 0, decided := false } }
  else
    let n := s.txn.staged.length
    let c := if s.txn.commitBeat = 0 then s.beat.number else s.txn.commitBeat
    let s := if s.txn.group then dropDigests s (s.group.rank :: s.txn.asked) c else s
    let s := (applyAll s s.txn.staged).bump Ctr.txnCommits 0 1
    { endCommit s eOk 0xFFFF n c with txn := {} }

/-- COMMIT_TXN's own part (R367, R262, R263). -/
def commitTxnOwn (s : State) (o : Order) : State :=
  let c := o.beat
  let here := (o.mailbox, o.number)
  if s.txn.state ≠ 1 ∨ s.txn.owner ≠ o.qp then complete s o ePlan (commitDetail 0xFFFF 0 0)
  else if s.txn.group then
    if c ≠ 0 ∧ c < beatAfter s 8 then complete s o eLate (commitDetail 0xFFFF 0 0)
    else
      let asked := s.group.view.filter (fun r => r != s.group.rank)
      let s := beginOrder s o
      let s := { s with txn := { s.txn with state := 2, commitBeat := c, order := some here, asked := asked, ready := []
                                            prepareBeat := s.beat.number, decided := false } }
      let s := mgmtAll s 1 (prepareBody s.txn.staged c)
      if asked.isEmpty then sendDecision s else s
  else if c = 0 then applyTxn { s with txn := { s.txn with order := some here } }
  else if c ≤ s.beat.number then complete s o eLate (commitDetail 0xFFFF 0 0)
  else { beginOrder s o with txn := { s.txn with state := 2, commitBeat := c, order := some here } }

/-- COMMIT_TXN (R367). -/
def execCommitTxn (m n : Nat) (s : State) : Host.Outcome State Fault Refusal := .next (orderCmd s m n 0x0B commitTxnOwn)

/-- A group commit ends undone (R262): ABORT goes to every member, the transaction stays open. -/
def abortTxn (s : State) (st : BitVec 8) (rank : Nat) : State :=
  let s := mgmtAll s 4 []
  let s := endCommit s st rank 0 0
  { s with txn := { s.txn with state := 1, commitBeat := 0, order := none, asked := [], ready := [] } }

/-- ROLLBACK_TXN's own part (R368). -/
def rollbackTxnOwn (s : State) (o : Order) : State :=
  if s.txn.state = 0 ∨ s.txn.owner ≠ o.qp then complete s o ePlan []
  else if s.txn.state = 2 ∧ s.txn.group ∧ s.txn.decided then complete s o eTxnConflict []
  else
    let s := if s.txn.state = 2 ∧ s.txn.group then mgmtAll s 4 [] else s
    complete (rollback s eCancelled) o eOk []

/-- ROLLBACK_TXN (R368). -/
def execRollbackTxn (m n : Nat) (s : State) : Host.Outcome State Fault Refusal := .next (orderCmd s m n 0x0C rollbackTxnOwn)

/-- PREPARE (R262): a member validates another coordinator's changes and replies. -/
def takePrepare (coord : Nat) (staged : List (Nat × List Byte)) (beat : Nat) (s : State) : State :=
  if !inView s then s
  else
    let st := if s.txn.state ≠ 0 ∨ s.prepared.isSome then eTxnConflict else stagedStatus s true staged
    let s := if st = eOk then
        ({ s with prepared := some { coordinator := coord, staged := staged, beat := beat, ranks := s.group.view } }).bump Ctr.txnPrepared 0 1
      else s
    sendMgmt s coord 2 [st]

/-- PREPARE: see takePrepare. -/
def execPrepare (coord : Nat) (staged : List (Nat × List Byte)) (beat : Nat) (s : State) : Host.Outcome State Fault Refusal :=
  .next (fromView s coord (takePrepare coord staged beat))

/-- READY_REPLY (R262): a member's answer reaches the coordinator. -/
def takeReply (rank : Nat) (status : Byte) (s : State) : State :=
  if s.txn.state ≠ 2 ∨ !s.txn.group ∨ s.txn.decided ∨ !s.txn.asked.contains rank then s
  else if status ≠ eOk then abortTxn s status rank
  else
    let s := { s with txn := { s.txn with ready := insertN rank s.txn.ready } }
    if s.txn.asked.all (fun r => s.txn.ready.contains r) then sendDecision s else s

/-- READY_REPLY: see takeReply. -/
def execReadyReply (rank : Nat) (status : Byte) (s : State) : Host.Outcome State Fault Refusal :=
  .next (fromView s rank (takeReply rank status))

/-- DECISION (R264): a member learns the commit beat. -/
def takeDecision (coord beat : Nat) (s : State) : State :=
  match s.prepared with
  | some p => if p.coordinator = coord then { s with prepared := some { p with decided := true, beat := beat } } else s
  | none => s

/-- DECISION: see takeDecision. -/
def execDecision (coord beat : Nat) (s : State) : Host.Outcome State Fault Refusal :=
  .next (fromView s coord (takeDecision coord beat))

/-- ABORT (R262): a member drops what it prepared. -/
def takeAbort (coord : Nat) (s : State) : State :=
  match s.prepared with
  | some p => if p.coordinator = coord then ({ s with prepared := none }).bump Ctr.txnAborted 0 1 else s
  | none => s

/-- ABORT: see takeAbort. -/
def execAbort (coord : Nat) (s : State) : Host.Outcome State Fault Refusal :=
  .next (fromView s coord (takeAbort coord))

/-- The time a member has to reply has passed (R262). -/
def replyLate (s : State) : Bool :=
  if s.txn.commitBeat = 0 then decide (s.txn.prepareBeat + 1024 ≤ s.beat.number)
  else decide (s.txn.commitBeat ≤ s.beat.number + 4)

/-- TXN_REPLY_TIMEOUT (R262): a member has not replied in time. -/
def execTxnReplyTimeout (s : State) : Host.Outcome State Fault Refusal :=
  .next <|
    if s.txn.state ≠ 2 ∨ !s.txn.group ∨ s.txn.decided ∨ !replyLate s then s
    else abortTxn s eLate ((s.txn.asked.find? (fun r => !s.txn.ready.contains r)).getD 0xFFFF)

/-- The coordinator's part of the commit beat (R264). -/
def commitOwn (s : State) : State :=
  if s.txn.state = 2 ∧ s.txn.group ∧ s.txn.decided ∧ s.txn.commitBeat ≤ s.beat.number then applyTxn s else s

/-- A member's part of the commit beat (R264): changes of a DECISION are applied; a member left undecided fences
itself. -/
def commitMember (s : State) : State :=
  match s.prepared with
  | none => s
  | some p =>
    if p.beat = 0 ∨ s.beat.number < p.beat then s
    else if p.decided then (applyAll (dropDigests { s with prepared := none } p.ranks p.beat) p.staged).bump Ctr.txnCommits 0 1
    else postEvent (fenceSelf { s with prepared := none } 5) 0x0B (items [p.coordinator])

/-- COMMIT_BEAT (R264): the first cc of beat C of a group transaction. -/
def execCommitBeat (s : State) : Host.Outcome State Fault Refusal := .next (commitMember (commitOwn s))

/-- LOCAL_COMMIT_BEAT (R367): the first cc of the commit beat of a local transaction. -/
def execLocalCommitBeat (s : State) : Host.Outcome State Fault Refusal :=
  .next (if s.txn.state = 2 ∧ !s.txn.group ∧ s.txn.commitBeat ≤ s.beat.number then applyTxn s else s)

end Sys2Proof.Machine
end

