-- ==== Sys2Proof/Machine/Transfer.lean ====
section
/-!
DEFINITION. Transfers between devices (R280 to R284): forwarding, remote reads, writes and atomic adds as the destination
serves them, what comes back to their source, and management messages (R274).
-/

namespace Sys2Proof.Machine

/-- The class a header travels in (Table 10.2): an acknowledgement in that of what it acknowledges (log 9). -/
def hdrClass (h : Hdr) : Nat :=
  if h.op ≠ 5 then opClass h.op
  else if h.key = 0 then (if 2 ^ 31 ≤ h.tag then 1 else 3)
  else if h.status = 0 then 1
  else 2

/-- TRANSFER_FORWARD (R283): a transfer for another rank goes on toward it. -/
def execTransferForward (h : Hdr) (d : List Byte) (s : State) : Host.Outcome State Fault Refusal :=
  .next (if h.dest = s.group.rank then s else (sendTransfer s (hdrClass h) h d).1)

/-- Core and shelf offset of a space-1 address (Table 10.4); none outside the cores and the 12 MiB of a shelf. -/
def shelfAt (a n : Nat) : Option (Nat × Nat) :=
  let c := a / 2 ^ 56
  let o := a % 2 ^ 24
  if c < 128 ∧ o + n ≤ shelfBytes then some (c, o) else none

/-- Bytes that a remote read gets (R185, R310): none when it is not served. -/
def remoteRead (s : State) (h : Hdr) (n : Nat) : State × Option (List Byte) :=
  if h.space = 1 then
    match shelfAt h.address n with
    | some (c, o) => (s, shelfRead s c o n)
    | none => (s, none)
  else if !allLocal s h.address n false then (s, none)
  else
    (pagePieces h.address n).foldl (fun acc p =>
      let a := localAt acc.1 p.1
      (countRead acc.1 a p.2.1, match acc.2, ddrRead acc.1 a p.2.1 with
        | some b, some d => some (b ++ d)
        | _, _ => none)) (s, some [])

/-- The opcode of the record that a multicast or push key names (R285, R290). -/
def keyOp (s : State) (key : Nat) : Nat :=
  match look (key / 2 ^ 28) s.slots with
  | some p => (p.recs.getD (key / 2 ^ 14 % 2 ^ 14) {}).opcode
  | none => 0

/-- A reply to a read (R280). -/
def replyData (s : State) (h : Hdr) (status : Nat) (d : List Byte) : State :=
  (sendTransfer s 3 { ownHdr s 2 h.src with tag := h.tag, key := h.key, status := status, length := d.length } d).1

/-- A READ served or refused (R185, R287, R294); none while DDR makes the read of a slice or chunk wait. -/
def applyRead (s : State) (h : Hdr) : Option State :=
  if h.tag < 2 ^ 31 then
    let (s, b) := remoteRead s h h.reqLength
    some (match b with
      | some d => replyData s h 0 d
      | none => replyData s h 1 [])
  else if keyOp s h.key = opGradPush then
    (readSlice s h).map (fun x => match x.2 with
      | some d => replyData x.1 h 0 d
      | none => replyData x.1 h 1 [])
  else (serveChunk s h).map (fun x => replyData x.1 h x.2.1 x.2.2)

/-- READ_DATA (R280, R188): data of a read of this device, for a late push, a multicast or rotation catching up, or a
stream; a refusal of a stream's read halts it. -/
def execReadData (h : Hdr) (d : List Byte) (s : State) : Host.Outcome State Fault Refusal :=
  .next <|
    served s h (h.status != 0 || (decide (h.length = d.length) && decide (32 ≤ d.length) && decide (d.length ≤ 4096))) fun s =>
      match gotSlice s h d, gotChunk s h d, gotRot s h d with
      | some t, _, _ => t
      | none, some t, _ => t
      | none, none, some t => t
      | none, none, none =>
        match s.xfers.find? (fun f => f.id == h.tag && f.kind == 2 && !f.write) with
        | some f => returnRead s f (if h.status = 0 then some d else none) false
        | none => s

/-- The acknowledgement of a write or an add (R280, R284). -/
def sendAck (s : State) (h : Hdr) (cls status : Nat) : State :=
  (sendTransfer s cls { ownHdr s 5 h.src with tag := h.tag, status := status } []).1

/-- A WRITE applied where it is served, and acknowledged (R185, R310). -/
def putWrite (s : State) (h : Hdr) (d : List Byte) : State :=
  if h.space = 1 then
    match shelfAt h.address d.length with
    | some (c, o) => let (s, ok) := shelfWrite s c o d; sendAck s h 3 (b2n (!ok))
    | none => sendAck s h 3 1
  else if !allLocal s h.address d.length true then sendAck s h 3 1
  else
    let (s, ok) := (pagePieces h.address d.length).foldl (fun acc p =>
      let (s, k) := ddrWriteCells acc.1 (cellsAt (localAt acc.1 p.1) (slice d p.2.2 p.2.1))
      (s, acc.2 && k)) (s, true)
    sendAck s h 3 (b2n (!ok))

/-- An ADD is refused (R284). -/
def refuseAdd (s : State) (h : Hdr) : State := (sendAck s h 1 1).bump Ctr.addRefused 0 1

/-- A served ADD (R284): its addends are applied one by one, then it is acknowledged; a refused one applies nothing. -/
def applyAdd (s : State) (h : Hdr) (d : List Byte) : State :=
  let vs := bytesF32 (d.length / 4) d
  let refused := fun (s : State) => refuseAdd s h
  let done := fun (r : State × Bool) =>
    if r.2 then sendAck (r.1.bump Ctr.addElements 0 vs.length) h 1 0 else refused s
  if h.address % 4 ≠ 0 then refused s
  else if h.space = 1 then
    match shelfAt h.address d.length with
    | some (c, o) => done (shelfAdd s c o vs)
    | none => refused s
  else if !allLocal s h.address d.length true then refused s
  else if (pagePieces h.address d.length).any (fun p => (unitsOf 64 (localAt s p.1) p.2.1).any (burstBad s)) then
    refused ((pagePieces h.address d.length).foldl (fun s p => countRead s (localAt s p.1) p.2.1) s)
  else
    done ((pagePieces h.address d.length).foldl (fun acc p =>
      let (s, k) := ddrAdd acc.1 (localAt acc.1 p.1) ((vs.drop (p.2.2 / 4)).take (p.2.1 / 4))
      (s, acc.2 && k)) (s, true))

/-- A transfer of a link that asks for bytes here, served; none while DDR makes it wait (R305, R311). -/
def serveLink (s : State) (h : Hdr) (d : List Byte) : Option State :=
  if h.space ≠ 1 ∧ allLocal s h.address (ddrLen h) (h.op != 1) ∧ rangeBusy s h.address (ddrLen h) (h.op != 1) then none
  else
    match h.op with
    | 1 => applyRead s h
    | 3 => some (putWrite s h d)
    | _ => some (applyAdd s h d)

/-- A transfer of a link is served, or waits for DDR behind those that came before it (R305). -/
def takeLink (s : State) (h : Hdr) (d : List Byte) : State :=
  match serveLink s h d with
  | some t => t
  | none => { s with linkWait := s.linkWait ++ [(h, d)] }

/-- The transfers of links that wait are served as far as DDR lets them, in the order in which they came. -/
def serveWaiting (s : State) : State :=
  if s.linkWait.isEmpty then s
  else s.linkWait.foldl (fun s x => takeLink s x.1 x.2) { s with linkWait := [] }

/-- READ (R280): a remote read is served, or refused with its status. -/
def execReadTransfer (h : Hdr) (s : State) : Host.Outcome State Fault Refusal :=
  .next <|
    servedIn s h (decide (h.length = 0) && decide (32 ≤ h.reqLength) && decide (h.reqLength ≤ 4096)) (fun s => replyData s h 1 [])
      fun s => takeLink s { h with op := 1 } []

/-- WRITE (R280). -/
def execWriteTransfer (h : Hdr) (d : List Byte) (s : State) : Host.Outcome State Fault Refusal :=
  .next <|
    servedIn s h (decide (h.length = d.length) && decide (32 ≤ d.length) && decide (d.length ≤ 4096)) (fun s => sendAck s h 3 1)
      fun s => takeLink s { h with op := 3 } d

/-- ADD (R284). -/
def execAdd (h : Hdr) (d : List Byte) (s : State) : Host.Outcome State Fault Refusal :=
  .next <|
    servedIn s h (decide (h.length = d.length) && decide (4 ≤ d.length) && decide (d.length ≤ 4096) && d.length % 4 == 0)
      (fun s => refuseAdd s h) fun s => takeLink s { h with op := 4 } d

/-- ACK (R284, R188, R295): the answer to a write, an add, a partial sum, or a rotation's slice. -/
def execAck (h : Hdr) (s : State) : Host.Outcome State Fault Refusal :=
  .next <|
    served s h (h.length == 0) fun s =>
      if h.key ≠ 0 then (if h.status = 0 then ackedPart s h else sendRefused s h)
      else
        match writeOwner s (h.tag % 2 ^ 31) with
        | some (c, f) => returnWrite s c f (h.status == 0) false
        | none => s

/-! Management messages. -/

/-- The staged changes of a PREPARE's body (log 9). -/
def prepareChanges : Nat → List Byte → List (Nat × List Byte)
  | 0, _ => []
  | n + 1, b => if b.length < 8 then [] else (field b 0 4, slice b 8 (field b 4 4)) :: prepareChanges n (b.drop (8 + field b 4 4))

/-- What a management message does, by its code in byte 0 (log 9). -/
def mgmtMeans (s : State) (src : Nat) (d : List Byte) : State :=
  let b := d.drop 1
  match field d 0 1 with
  | 1 => takePrepare src (prepareChanges 64 (b.drop 8)) (field b 0 8) s
  | 2 => takeReply src (b.headD 0) s
  | 3 => takeDecision src (field b 0 8) s
  | 4 => takeAbort src s
  | 5 => takeView (field b 0 4) (maskBits 1024 (field b 15 128)) (field b 4 2) (field b 6 8) (field b 14 1 != 0) (field b 143 2) s
  | 6 => if coordinates s then leaveView s src else s
  | 7 => takeJoin (field b 0 4) src s
  | 8 => takeDetach (field b 0 4) (field b 4 1) (field b 5 1) src s
  | 10 => if s.group.members.any (fun e => e.1 == src) then takeDigest s src (slice b 0 32) (field b 32 8) else s
  | 11 => joinRefused s (field b 0 4)
  | 12 => linkReport s src (field b 0 2) (field b 2 4) ((List.range ((b.length - 6) / 2)).map (fun i => field b (6 + 2 * i) 2))
  | 14 => takeLate (field b 0 4) src s
  | 15 => dropMember s (field b 0 2) false
  | _ => s

/-- A management message of a rank (R259): in a view one of a rank that the view does not have is discarded and counted;
outside a view only announcements, digests and reports of links mean anything. -/
def takeMgmt (s : State) (src : Nat) (d : List Byte) : State :=
  if inView s then fromView s src (fun s => mgmtMeans s src d)
  else if field d 0 1 = 5 ∨ field d 0 1 = 10 ∨ field d 0 1 = 12 then mgmtMeans s src d
  else s

/-- A piece of a management message arrives (log 9): the whole message, once no piece is missing. -/
def takeMgmtPiece (s : State) (h : Hdr) (d : List Byte) : State × Option (List Byte) :=
  let total := h.address / 2 ^ 24 % 2 ^ 24
  let off := h.address % 2 ^ 24
  if total ≤ d.length then (s, some d)
  else
    let mine := fun (e : MgmtIn) => e.src == h.src && e.tag == h.tag
    let e := (s.mgmtIn.find? mine).getD { src := h.src, tag := h.tag, total := total }
    let got := put off d e.got
    let others := s.mgmtIn.filter (fun e => !mine e)
    if (got.map (fun x => x.2.length)).sum < total then ({ s with mgmtIn := others ++ [{ e with got := got }] }, none)
    else ({ s with mgmtIn := others }, some ((List.range (cdiv total 512)).flatMap (fun i => (look (512 * i) got).getD [])))

/-- MGMT (R274, R280): a piece of a management message for this device. -/
def execMgmt (h : Hdr) (d : List Byte) (s : State) : Host.Outcome State Fault Refusal :=
  .next <|
    served s h (decide (h.length = d.length) && decide (1 ≤ d.length) && decide (d.length ≤ 512)) fun s =>
      match takeMgmtPiece s h d with
      | (s, some b) => takeMgmt s h.src b
      | (s, none) => s

end Sys2Proof.Machine
end

