-- ==== Sys2Proof/Machine/Dispatch.lean ====
section
/-!
DEFINITION. The dispatch: one arm per command, each a call of its meaning.
-/

namespace Sys2Proof.Machine

/-- The effect of a command on everything but the queue. -/
def exec (i : Instr) (s : State) : Host.Outcome State Fault Refusal :=
  match i with
  | .createTensor m n served => Sys2Proof.Machine.execCreateTensor m n served s
  | .destroyTensor m n => Sys2Proof.Machine.execDestroyTensor m n s
  | .loadProgram m n d => Sys2Proof.Machine.execLoadProgram m n d s
  | .run m n => Sys2Proof.Machine.execRun m n s
  | .cancel m n => Sys2Proof.Machine.execCancel m n s
  | .query m n => Sys2Proof.Machine.execQuery m n s
  | .mapPages m n d => Sys2Proof.Machine.execMapPages m n d s
  | .resumeStream m n => Sys2Proof.Machine.execResumeStream m n s
  | .beginTxn m n => Sys2Proof.Machine.execBeginTxn m n s
  | .set m n d => Sys2Proof.Machine.execSet m n d s
  | .commitTxn m n => Sys2Proof.Machine.execCommitTxn m n s
  | .rollbackTxn m n => Sys2Proof.Machine.execRollbackTxn m n s
  | .formGroup m n d => Sys2Proof.Machine.execFormGroup m n d s
  | .leaveGroup m n => Sys2Proof.Machine.execLeaveGroup m n s
  | .openSession m n d => Sys2Proof.Machine.execOpenSession m n d s
  | .closeSession m n => Sys2Proof.Machine.execCloseSession m n s
  | .closeSessionComplete => Sys2Proof.Machine.execCloseSessionComplete s
  | .attest m n ok0 ok1 okC => Sys2Proof.Machine.execAttest m n ok0 ok1 okC s
  | .readCounters m n => Sys2Proof.Machine.execReadCounters m n s
  | .readCoffer m n => Sys2Proof.Machine.execReadCoffer m n s
  | .updateFirmware m n d => Sys2Proof.Machine.execUpdateFirmware m n d s
  | .orderWindowWrite q addr rkey d => Sys2Proof.Machine.execOrderWindowWrite q addr rkey d s
  | .mailboxSweep => Sys2Proof.Machine.execMailboxSweep s
  | .orderTake m => Sys2Proof.Machine.execOrderTake m s
  | .connectionReq u service psn mtu => Sys2Proof.Machine.execConnectionReq u service psn mtu s
  | .connectionRecord q d => Sys2Proof.Machine.execConnectionRecord q d s
  | .disconnectRequest q => Sys2Proof.Machine.execDisconnectRequest q s
  | .completionWrite q => Sys2Proof.Machine.execCompletionWrite q s
  | .consumerIndexRead q c => Sys2Proof.Machine.execConsumerIndexRead q c s
  | .runStart t => Sys2Proof.Machine.execRunStart t s
  | .macroStart t k_i p => Sys2Proof.Machine.execMacroStart t k_i p s
  | .runEnd t => Sys2Proof.Machine.execRunEnd t s
  | .runStopComplete t => Sys2Proof.Machine.execRunStopComplete t s
  | .matmul t k_i p => Sys2Proof.Machine.execMatmul t k_i p s
  | .matmulS24 t k_i p => Sys2Proof.Machine.execMatmulS24 t k_i p s
  | .spmmX t k_i p => Sys2Proof.Machine.execSpmmX t k_i p s
  | .convW t k_i p => Sys2Proof.Machine.execConvW t k_i p s
  | .predict t k_i p => Sys2Proof.Machine.execPredict t k_i p s
  | .rowop t k_i p => Sys2Proof.Machine.execRowop t k_i p s
  | .rowopBwd t k_i p => Sys2Proof.Machine.execRowopBwd t k_i p s
  | .gather t k_i p => Sys2Proof.Machine.execGather t k_i p s
  | .scatterAdd t k_i p => Sys2Proof.Machine.execScatterAdd t k_i p s
  | .copy t k_i p => Sys2Proof.Machine.execCopy t k_i p s
  | .transpose t k_i p => Sys2Proof.Machine.execTranspose t k_i p s
  | .permute t k_i p => Sys2Proof.Machine.execPermute t k_i p s
  | .compress t k_i p => Sys2Proof.Machine.execCompress t k_i p s
  | .bwdData t k_i p => Sys2Proof.Machine.execBwdData t k_i p s
  | .bwdWeight t k_i p => Sys2Proof.Machine.execBwdWeight t k_i p s
  | .gradPush t k_i p => Sys2Proof.Machine.execGradPush t k_i p s
  | .rotate t k_i p => Sys2Proof.Machine.execRotate t k_i p s
  | .mcast t k_i p => Sys2Proof.Machine.execMcast t k_i p s
  | .waitBeat t k_i p => Sys2Proof.Machine.execWaitBeat t k_i p s
  | .fence t k_i p => Sys2Proof.Machine.execFence t k_i p s
  | .tileFirstRead t k_i p => Sys2Proof.Machine.execTileFirstRead t k_i p s
  | .preloadStart t k_i p => Sys2Proof.Machine.execPreloadStart t k_i p s
  | .tileDrain t k_i p => Sys2Proof.Machine.execTileDrain t k_i p s
  | .outputCompressor t k_i p => Sys2Proof.Machine.execOutputCompressor t k_i p s
  | .crateExpand t k_i p op slot => Sys2Proof.Machine.execCrateExpand t k_i p op slot s
  | .mergeKtile core => Sys2Proof.Machine.execMergeKtile core s
  | .listStoreLoad core lane => Sys2Proof.Machine.execListStoreLoad core lane s
  | .broadcasterPush core => Sys2Proof.Machine.execBroadcasterPush core s
  | .laneAction core lane => Sys2Proof.Machine.execLaneAction core lane s
  | .mergeRowAdd core => Sys2Proof.Machine.execMergeRowAdd core s
  | .predictorGroup t k_i p => Sys2Proof.Machine.execPredictorGroup t k_i p s
  | .zeroRowWrite t k_i p => Sys2Proof.Machine.execZeroRowWrite t k_i p s
  | .packedTile t k_i p => Sys2Proof.Machine.execPackedTile t k_i p s
  | .governedRelease t k_i p => Sys2Proof.Machine.execGovernedRelease t k_i p s
  | .halfFill t k_i p op => Sys2Proof.Machine.execHalfFill t k_i p op s
  | .transferLand id d => Sys2Proof.Machine.execTransferLand id d s
  | .writeComplete core id ok => Sys2Proof.Machine.execWriteComplete core id ok s
  | .turnedLoad t k_i p k => Sys2Proof.Machine.execTurnedLoad t k_i p k s
  | .rotateStep t k_i p => Sys2Proof.Machine.execRotateStep t k_i p s
  | .rotateReceive t k_i p rank core step => Sys2Proof.Machine.execRotateReceive t k_i p rank core step s
  | .rotateStallLimit t k_i p => Sys2Proof.Machine.execRotateStallLimit t k_i p s
  | .rotateBufferRead t k_i p off len write => Sys2Proof.Machine.execRotateBufferRead t k_i p off len write s
  | .updateSlice t k_i p => Sys2Proof.Machine.execUpdateSlice t k_i p s
  | .formationEnd => Sys2Proof.Machine.execFormationEnd s
  | .formTimeout => Sys2Proof.Machine.execFormTimeout s
  | .identitySend l => Sys2Proof.Machine.execIdentitySend l s
  | .identity l d => Sys2Proof.Machine.execIdentity l d s
  | .beatBoundary => Sys2Proof.Machine.execBeatBoundary s
  | .beatMark l number offset => Sys2Proof.Machine.execBeatMark l number offset s
  | .holdoverLimitFence => Sys2Proof.Machine.execHoldoverLimitFence s
  | .sourceLost => Sys2Proof.Machine.execSourceLost s
  | .sourceRelocked err => Sys2Proof.Machine.execSourceRelocked err s
  | .stamp l d => Sys2Proof.Machine.execStamp l d s
  | .beatFull l d => Sys2Proof.Machine.execBeatFull l d s
  | .linkState l width reason => Sys2Proof.Machine.execLinkState l width reason s
  | .viewAnnouncement epoch ranks keeper beat hold => Sys2Proof.Machine.execViewAnnouncement epoch ranks keeper beat hold s
  | .viewBeat => Sys2Proof.Machine.execViewBeat s
  | .splitSide edges => Sys2Proof.Machine.execSplitSide edges s
  | .fenceBeat => Sys2Proof.Machine.execFenceBeat s
  | .rejoin rank hops major lockedBt digest => Sys2Proof.Machine.execRejoin rank hops major lockedBt digest s
  | .reform ranks epoch => Sys2Proof.Machine.execReform ranks epoch s
  | .prepare coord staged beat => Sys2Proof.Machine.execPrepare coord staged beat s
  | .readyReply rank status => Sys2Proof.Machine.execReadyReply rank status s
  | .decision coord beat => Sys2Proof.Machine.execDecision coord beat s
  | .abort coord => Sys2Proof.Machine.execAbort coord s
  | .txnReplyTimeout => Sys2Proof.Machine.execTxnReplyTimeout s
  | .commitBeat => Sys2Proof.Machine.execCommitBeat s
  | .localCommitBeat => Sys2Proof.Machine.execLocalCommitBeat s
  | .frameReceive l d fixed bad => Sys2Proof.Machine.execFrameReceive l d fixed bad s
  | .frameSend l => Sys2Proof.Machine.execFrameSend l s
  | .replayTimeout l => Sys2Proof.Machine.execReplayTimeout l s
  | .laneSignalLoss l lane => Sys2Proof.Machine.execLaneSignalLoss l lane s
  | .linkRetrain l pass0 pass1 => Sys2Proof.Machine.execLinkRetrain l pass0 pass1 s
  | .linkDownRetry l => Sys2Proof.Machine.execLinkDownRetry l s
  | .transferForward h d => Sys2Proof.Machine.execTransferForward h d s
  | .readTransfer h => Sys2Proof.Machine.execReadTransfer h s
  | .readData h d => Sys2Proof.Machine.execReadData h d s
  | .writeTransfer h d => Sys2Proof.Machine.execWriteTransfer h d s
  | .add h d => Sys2Proof.Machine.execAdd h d s
  | .ack h => Sys2Proof.Machine.execAck h s
  | .mgmt h d => Sys2Proof.Machine.execMgmt h d s
  | .join key epoch rank => Sys2Proof.Machine.execJoin key epoch rank s
  | .mcData h address tag d => Sys2Proof.Machine.execMcData h address tag d s
  | .mcAck key epoch rank address => Sys2Proof.Machine.execMcAck key epoch rank address s
  | .mcastDetach key pos rank => Sys2Proof.Machine.execMcastDetach key pos rank s
  | .detach rank d => Sys2Proof.Machine.execDetach rank d s
  | .catchupLimit key pos rank => Sys2Proof.Machine.execCatchupLimit key pos rank s
  | .mcastComplete t k_i => Sys2Proof.Machine.execMcastComplete t k_i s
  | .redStatus h d => Sys2Proof.Machine.execRedStatus h d s
  | .redPart h address count d => Sys2Proof.Machine.execRedPart h address count d s
  | .reducerCombine key node slice => Sys2Proof.Machine.execReducerCombine key node slice s
  | .redResult h address count d => Sys2Proof.Machine.execRedResult h address count d s
  | .pushDeadline key => Sys2Proof.Machine.execPushDeadline key s
  | .pushComplete key => Sys2Proof.Machine.execPushComplete key s
  | .ddrQueueEntry ch req op addr len d => Sys2Proof.Machine.execDdrQueueEntry ch req op addr len d s
  | .burstRead ch errs extra => Sys2Proof.Machine.execBurstRead ch errs extra s
  | .burstWrite ch errs extra => Sys2Proof.Machine.execBurstWrite ch errs extra s
  | .atomicAddBurst ch errs extra => Sys2Proof.Machine.execAtomicAddBurst ch errs extra s
  | .freshFill frame => Sys2Proof.Machine.execFreshFill frame s
  | .scrub ch errs extra => Sys2Proof.Machine.execScrub ch errs extra s
  | .linkRetry ch => Sys2Proof.Machine.execLinkRetry ch s
  | .channelRetrain ch ok => Sys2Proof.Machine.execChannelRetrain ch ok s
  | .backgroundZeroing => Sys2Proof.Machine.execBackgroundZeroing s
  | .rocePacket u k => Sys2Proof.Machine.execRocePacket u k s
  | .ackTimeout q => Sys2Proof.Machine.execAckTimeout q s
  | .ethFrameReceive u k => Sys2Proof.Machine.execEthFrameReceive u k s
  | .portUp u => Sys2Proof.Machine.execPortUp u s
  | .portDown u => Sys2Proof.Machine.execPortDown u s
  | .pauseFrame u prio quanta => Sys2Proof.Machine.execPauseFrame u prio quanta s
  | .pfcStorm u => Sys2Proof.Machine.execPfcStorm u s
  | .pfcStormEnd u => Sys2Proof.Machine.execPfcStormEnd u s
  | .cnp q => Sys2Proof.Machine.execCnp q s
  | .rateRecovery q => Sys2Proof.Machine.execRateRecovery q s
  | .mka u sak => Sys2Proof.Machine.execMka u sak s
  | .ptpTimeUpdate u time offset predicted slave measured => Sys2Proof.Machine.execPtpTimeUpdate u time offset predicted slave measured s
  | .arbiterRound cls inst raised => Sys2Proof.Machine.execArbiterRound cls inst raised s
  | .watchdogCheck kind unit progress excused => Sys2Proof.Machine.execWatchdogCheck kind unit progress excused s
  | .shelfScrub core err => Sys2Proof.Machine.execShelfScrub core err s
  | .lockstepMismatch => Sys2Proof.Machine.execLockstepMismatch s
  | .imionRestarted => Sys2Proof.Machine.execImionRestarted s
  | .governorBudget demands perStep idle => Sys2Proof.Machine.execGovernorBudget demands perStep idle s
  | .powerSample watts => Sys2Proof.Machine.execPowerSample watts s
  | .currentLimit amps => Sys2Proof.Machine.execCurrentLimit amps s
  | .thermalSample temps => Sys2Proof.Machine.execThermalSample temps s
  | .thermtrip sensor => Sys2Proof.Machine.execThermtrip sensor s
  | .marginSample slacks => Sys2Proof.Machine.execMarginSample slacks s
  | .marginTrip mon slack => Sys2Proof.Machine.execMarginTrip mon slack s
  | .marginDaily => Sys2Proof.Machine.execMarginDaily s
  | .cofferWrite ok0 ok1 => Sys2Proof.Machine.execCofferWrite ok0 ok1 s
  | .holdUp => Sys2Proof.Machine.execHoldUp s
  | .vddStbyApplied => Sys2Proof.Machine.execVddStbyApplied s
  | .vddStbyFall => Sys2Proof.Machine.execVddStbyFall s
  | .railRise r => Sys2Proof.Machine.execRailRise r s
  | .railLow r => Sys2Proof.Machine.execRailLow r s
  | .railHigh r => Sys2Proof.Machine.execRailHigh r s
  | .resetNAssert => Sys2Proof.Machine.execResetNAssert s
  | .resetNRelease => Sys2Proof.Machine.execResetNRelease s
  | .stageRom => Sys2Proof.Machine.execStageRom s
  | .stageImion => Sys2Proof.Machine.execStageImion s
  | .stageMemory declared unsupported fails => Sys2Proof.Machine.execStageMemory declared unsupported fails s
  | .ephemeralKeyGeneration ok0 ok1 okC => Sys2Proof.Machine.execEphemeralKeyGeneration ok0 ok1 okC s
  | .filteredPulse pin => Sys2Proof.Machine.execFilteredPulse pin s
  | .haltNAssert => Sys2Proof.Machine.execHaltNAssert s
  | .haltNRelease => Sys2Proof.Machine.execHaltNRelease s
  | .beatInEdge => Sys2Proof.Machine.execBeatInEdge s
  | .ladderInChange level => Sys2Proof.Machine.execLadderInChange level s
  | .ladderClaim ack d => Sys2Proof.Machine.execLadderClaim ack d s
  | .getpid => Sys2Proof.Machine.execGetpid s
  | .getbcr => Sys2Proof.Machine.execGetbcr s
  | .getdcr => Sys2Proof.Machine.execGetdcr s
  | .getstatus => Sys2Proof.Machine.execGetstatus s
  | .i3cPrivateWrite d => Sys2Proof.Machine.execI3cPrivateWrite d s
  | .i3cPrivateRead n => Sys2Proof.Machine.execI3cPrivateRead n s
  | .statusWordClear mask => Sys2Proof.Machine.execStatusWordClear mask s
  | .subportCommit u flags => Sys2Proof.Machine.execSubportCommit u flags s
  | .thermtripRelease => Sys2Proof.Machine.execThermtripRelease s
  | .refclkCoreDetect => Sys2Proof.Machine.execRefclkCoreDetect s
  | .refclkCoreLoss => Sys2Proof.Machine.execRefclkCoreLoss s
  | .avsSetpoint acked => Sys2Proof.Machine.execAvsSetpoint acked s
  | .disconnectAfterReply q => Sys2Proof.Machine.execDisconnectAfterReply q s
  | .firmwareStaged ok => Sys2Proof.Machine.execFirmwareStaged ok s
  | .signatureRelease ok0 ok1 okC => Sys2Proof.Machine.execSignatureRelease ok0 ok1 okC s
  | .backInService kind unit => Sys2Proof.Machine.execBackInService kind unit s
  | .refclkSerChange n ok => Sys2Proof.Machine.execRefclkSerChange n ok s
  | .boundaryScan tms tdi trstN => Sys2Proof.Machine.execBoundaryScan tms tdi trstN s

end Sys2Proof.Machine
end

