-- ==== Sys2Proof/Machine/Tick.lean ====
section
/-!
DEFINITION. The tick: what one clock cycle does when no command waits (log 7). The clock advances, BEAT_OUT falls, a pause
ends, transfers of links that waited for DDR are served, and the counters of waiting grow by one for each thing that waits.
-/

namespace Sys2Proof.Machine

/-- BEAT_OUT is high for the first 64 cc of a beat (R253). -/
def tickBeatOut (s : State) : State :=
  if s.beat.beatOut ∧ s.beat.startAt + 64 ≤ s.now then { s with beat := { s.beat with beatOut := false } } else s

/-- A pause whose quanta have run out ends, and what it held leaves (R339). -/
def tickPause (s : State) (p : Nat × SubPort) : State :=
  if p.2.pausedSince.isSome ∧ p.2.pausedUntil ≤ s.now then flushHeld (s.onPort p.1 (fun v => { v with pausedSince := none })) p.1
  else s

/-- Classes of a link that wait for a credit (R275, R298). -/
def creditWaits (k : Link) : List Nat :=
  if k.state = 2 then below 4 (fun c => !(k.streams.getD c []).isEmpty && !hasCredit k c) else []

/-- A cc of a link's classes that wait for credit. -/
def tickLink (s : State) (l : Nat × Link) : State :=
  (creditWaits l.2).foldl (fun s c => s.bump (Ctr.creditWaitCc0.1, Ctr.creditWaitCc0.2 + c) l.1 1) s

/-- A macro-instruction that waits to start on a position: for its backward unit when R22 lets it start (R200), or for one
thing only, a larder (R177) or a shared cellar tile (R72). -/
def tickStart (r : Run) (s : State) (i p : Nat) : State :=
  let c := r.coreAt p
  let l := startBlocks s r i p
  let s := if l.contains 5 && l.all (fun x => decide (5 ≤ x)) then s.bump Ctr.bwdUnitWaitCc c 1 else s
  match l with
  | [6] =>
    let s := s.bump Ctr.tileConflictCc c 1
    if (s.core c).conflictOf = some (r.tag, i) then s
    else (s.onCore c (fun k => { k with conflictOf := some (r.tag, i) })).bump Ctr.tileConflictStalls c 1
  | [7] => s.bump Ctr.larderWaitCc c 1
  | _ => s

/-- The macro-instructions of a run that may be asked to start, each on its positions. -/
def tickRun (s : State) (r : Run) : State :=
  (List.range r.prog.recs.length).foldl (fun s i =>
    (List.range r.prog.team.length).foldl (fun s p => if startable s r i p then tickStart r s i p else s) s) s

/-- A consumer waits for a half that is not ready (R178): bytes of a work item that it has begun to read are still to land. -/
def streamWaits (s : State) (x : Stream) : Bool :=
  let due := fun (w : Nat) => decide (w < x.upto)
  !x.write && (x.plan.any (fun t => due t.1) || x.pay.any (fun t => due t.1) || x.heads.any (fun t => due t.1) ||
      (x.halves.take 2).any (fun h => h.state != 2 && h.parts.any (fun t => due t.1))) &&
    (match s.live x.tag with
     | some r => runIssues s r x.pos && (r.walk x.mi x.pos).any (fun w => !w.done)
     | none => false)

/-- The stream feeds an engine's block path: the same cc count in BLOCK_WAIT_CC (R108, R178). -/
def feedsBlocks (s : State) (x : Stream) : Bool :=
  x.operand == 1 && (match s.live x.tag with
    | some r => isEngine (r.mrec x.mi).opcode
    | none => false)

/-- A producer waits for the write path (R179). -/
def writeWaits (s : State) (x : Stream) : Bool :=
  x.write && x.halted.isNone && !s.pins.haltN &&
    (match x.toWrite with
     | f :: _ => decide (65536 < pathBytes (s.core x.core) + f.len)
     | [] => false)

/-- The block path of a predicted layer waits: rows of its governed records remain to be walked and no user can start
(R136). -/
def predWaits (s : State) (r : Run) (w : Walk) : Bool :=
  let q := w.pred
  let ks := below 3 (fun k => decide (1 ≤ k) && decide (k ≤ (r.mrec w.mi).governed))
  let open0 := fun (k : Nat) => q.kept.any (fun x => !q.did k x) ||
    (if k = 2 ∧ (r.mrec w.mi).pmode = 2 then q.found else q.audit).any (fun x => !q.did k x)
  let starts := fun (k : Nat) =>
    (!(keptTile r w.mi w.pos q k).isEmpty || !(auditTile r w.mi w.pos q k).isEmpty) &&
      (match r.walk (w.mi + k) w.pos with
       | some v => tileFree s w.core (nextTile (r.mrec v.mi) v)
       | none => false)
  (r.mrec w.mi).opcode == opPredict && w.set && q.groups.isEmpty && runIssues s r w.pos && ks.any open0 && !ks.any starts

/-- A source on a core waits only for its loft writes (R213). -/
def loftWaits (s : State) (r : Run) (w : Walk) : Bool :=
  let mine := fun (x : Xfer) => x.tag == r.tag && x.mi == w.mi
  let out := ((s.core w.core).writes ++ (s.streams.filter (fun x => x.write && x.core == w.core)).flatMap (fun x => x.toWrite)).filter mine
  let busy := w.set && !w.done && !w.loftDone
  !(r.prog.loftDest w.mi).isEmpty && (w.done || (w.set && w.units.isEmpty && w.filling.isEmpty && w.draining.isEmpty &&
    w.bufs.isEmpty)) && out.all (fun x => decide (8 ≤ x.operand)) && (busy || !out.isEmpty)

/-- Cores with a run in progress. -/
def busyCores (s : State) : List Nat :=
  ((s.runs.filter (fun r => r.state == 1 && r.stopping.isNone)).flatMap (fun r => r.prog.team)).eraseDups

/-- A counter grown by one on each core of a list. -/
def bumpCores (s : State) (k : Nat × Nat) (l : List Nat) : State := l.foldl (fun s c => s.bump k c 1) s

/-- A cc of the cores: halted streams (R199), consumers and producers that wait (R178, R179), predicted layers and loft
writes that wait (R136, R213), starts that wait, and steps withheld by the current limiter (R416). -/
def tickCores (s : State) : State :=
  let halted := ((s.streams.filter (fun x => x.halted.isSome)).map (fun x => x.core)).eraseDups
  let reads := s.streams.filter (streamWaits s)
  let full := s.runs.flatMap (fun r => if r.state == 3 then [] else (r.walks.filter (fun w => w.held && !w.done)).map (fun w => w.core))
  let writes := ((s.streams.filter (writeWaits s)).map (fun x => x.core) ++ full).eraseDups
  let held := if s.health.limiting then busyCores s else []
  let rs := s.runs.filter (fun r => r.state == 1)
  let s := bumpCores (bumpCores (bumpCores (bumpCores s Ctr.haltCc halted) Ctr.streamWaitCc (reads.map (fun x => x.core)))
    Ctr.writeWaitCc writes)
    Ctr.govHoldCc held
  let s := bumpCores s Ctr.blockWaitCc ((reads.filter (feedsBlocks s)).map (fun x => x.core)).eraseDups
  let s := bumpCores s Ctr.predWaitCc (rs.flatMap (fun r => (r.walks.filter (predWaits s r)).map (fun w => w.core)))
  let s := bumpCores s Ctr.loftWaitCc (rs.flatMap (fun r => (r.walks.filter (loftWaits s r)).map (fun w => w.core)))
  rs.foldl tickRun s

/-- One cc passes (log 7). -/
def tick (s : State) : State :=
  let s := serveWaiting { s with now := s.now + 1 }
  let s := s.arbs.foldl tickArb (s.links.foldl tickLink (tickRots (tickCores s)))
  tickBeatOut (s.ports.foldl tickPause s)

end Sys2Proof.Machine
end

