-- ==== Sys2Proof/Safety.lean ====
section
/-!
DEFINITION. What counts as a sound state, a sound change of state and a safe run, in the terms the claims use.
-/

namespace Sys2Proof.Safety

open Sys2Proof.Machine

/-- Every counter of the device holds at most 64 bits (R60). -/
def countersFit (s : State) : Bool := s.counters.all (fun c => decide (c.2 < 2 ^ 64))

/-- A sound state: memories in their canonical form (log 6), counters within their 64 bits (R60). -/
def sound (s : State) : Bool := s.mem.wf && countersFit s

/-- Fuses are only ever blown and never unblown: the fused security version does not fall, a revoked key slot stays
revoked, and the serial number and the identity key are those of manufacture (R385, R389, R393). -/
def FusesKept (s t : State) : Prop :=
  s.trust.fusedSvn ≤ t.trust.fusedSvn
    ∧ (∀ k, s.trust.revoked.testBit k = true → t.trust.revoked.testBit k = true)
    ∧ t.trust.serial = s.trust.serial ∧ t.trust.identityPk = s.trust.identityPk

/-- The order of a mailbox and number is at its turn with a code (R352) and passes the checks O1 to O4 (R355). -/
def Admitted (s : State) (m n code : Nat) (o : Order) : Prop := orderReady s m n code = some o ∧ firstCheck s o = none

/-- The command by which Imion handles an order of each code of Table 13.3: served says whether the order's own writes were,
d is what the host's memory returned, ok what the index store's and the coffer's writes did. -/
def orderCommand (code m n : Nat) (served : Bool) (d : Option (List Byte)) (ok0 ok1 okC : Bool) : Option Instr :=
  match code with
  | 0x01 => some (.createTensor m n served)
  | 0x02 => some (.destroyTensor m n)
  | 0x03 => some (.loadProgram m n d)
  | 0x04 => some (.run m n)
  | 0x05 => some (.cancel m n)
  | 0x06 => some (.query m n)
  | 0x07 => some (.mapPages m n d)
  | 0x08 => some (.resumeStream m n)
  | 0x09 => some (.beginTxn m n)
  | 0x0A => some (.set m n d)
  | 0x0B => some (.commitTxn m n)
  | 0x0C => some (.rollbackTxn m n)
  | 0x0D => some (.formGroup m n d)
  | 0x0E => some (.leaveGroup m n)
  | 0x0F => some (.openSession m n d)
  | 0x10 => some (.closeSession m n)
  | 0x11 => some (.attest m n ok0 ok1 okC)
  | 0x12 => some (.readCounters m n)
  | 0x13 => some (.readCoffer m n)
  | 0x14 => some (.updateFirmware m n d)
  | _ => none

/-- The commands that form the walk of an engine opcode, with the opcode. -/
def engineCommands (t i p : Nat) : List (Nat × Instr) :=
  [(opMatmul, .matmul t i p), (opS24, .matmulS24 t i p), (opSpmm, .spmmX t i p), (opConv, .convW t i p)
  , (opBwdData, .bwdData t i p), (opBwdWeight, .bwdWeight t i p)]

/-- The commands of the copies, with their opcodes. -/
def copyCommands (t i p : Nat) : List (Nat × Instr) :=
  [(opCopy, .copy t i p), (opTranspose, .transpose t i p), (opPermute, .permute t i p), (opCompress, .compress t i p)]

/-- A position has made all its issues of a macro-instruction of a run that has not ended. -/
def WalkEnded (s : State) (t i p : Nat) : Prop := ∃ r w, findWalk s t i p = some (r, w) ∧ w.done = true

/-- What issuing writes and ending a walk may change: runs, streams, cores, transfer numbers, counters, and what leaves
over links and sub-ports. The memories and everything else are as before. -/
def IssueFrame (v u : State) : Prop :=
  u = { v with runs := u.runs, streams := u.streams, cores := u.cores, xfers := u.xfers, nextXfer := u.nextXfer, rots := u.rots
               counters := u.counters, links := u.links, turns := u.turns, free := u.free, qps := u.qps, ports := u.ports
               out := u.out }

/-- What telling other ranks something may change: what leaves over links, and what waits for the end of an Imion restart. -/
def TellFrame (v u : State) : Prop :=
  u = { v with links := u.links, turns := u.turns, counters := u.counters, nextMgmt := u.nextMgmt, health := u.health }

/-- What a position's copy-class or row work leaves once it is done on a state: its walk has ended where the write path has taken
every write of it, and else waits for that alone (R179); nothing but issuing them changes the state that the work left. -/
def WorkEnded (v u : State) (t i p : Nat) : Prop :=
  IssueFrame v u ∧ (unissued u t i p = false → WalkEnded u t i p)
    ∧ (unissued u t i p = true → ∃ r w, findWalk u t i p = some (r, w) ∧ w.set = true)

/-- A run of commands from a state, stopping at the first fault or refusal. -/
def run (k : Nat) (s : State) : Host.Outcome State Fault Refusal := Host.Core.run
  { State := State, Fault := Fault, Refusal := Refusal, step := step, reset := State.reset } k s

/-- A safe run: it ends in a sound state, by no fault and no refusal. -/
def safe (k : Nat) (s : State) : Bool :=
  match run k s with
  | .next t => sound t
  | .fault _ => false
  | .refused _ => false

end Sys2Proof.Safety
end

