-- ==== Sys2Proof/Certificates/Slice0/Obligations.lean ====
section
/-!
DEFINITION. The statements about the model, for the provers: the whole machine, what orders share, and then the commands
family by family.
-/

section

open Sys2Proof Sys2Proof.Machine Sys2Proof.Safety

/-! The whole machine. -/

/-- Log 4, R301, R444, R447: right after reset the device is in stage STANDBY with RESET_N held, no claim, no run, no order, no
page mapped, no session, no group, no counter above zero and no command waiting.

Logs 4 and 6: the reset state is sound: its memories are canonical and its counters fit in 64 bits. -/
def Obligations.ResetIsSound : Prop :=
  (State.reset.pins.stage = 0 ∧ State.reset.pins.resetN = true ∧ State.reset.pins.claimed = false
      ∧ State.reset.group.state = 0 ∧ State.reset.trust.session = none ∧ State.reset.mem.xlate = []
      ∧ State.reset.runs = [] ∧ State.reset.orders = [] ∧ State.reset.qps = [] ∧ State.reset.tensors = []
      ∧ State.reset.pending = [] ∧ ∀ k u, State.reset.counter k u = 0)
    ∧ (sound State.reset = true)

/-- Log 7: a step takes the command at the front of the queue and answers what exec answers with the queue's rest. -/
def Obligations.StepRunsFrontCommand : Prop :=
  ∀ (c : Instr) (rest : List Instr) (s : State), step { s with pending := c :: rest } = exec c { s with pending := rest }

/-- Log 7: with no command waiting a step lets one clock cycle pass: the clock advances by 1 and no command appears. Where no
transfer of a link waits for DDR and no slice waits for a rotation, what the cycle changes is only the beat's output, the
pauses of the sub-ports with what they held back, the note of a start that waits, and counters.

R305: a transfer of a link that waits for DDR is served once DDR lets it be, and goes on waiting until then. -/
def Obligations.IdleStepTicks : Prop :=
  ∀ s : State, s.pending = [] → ∃ t, step s = .next t ∧ t.now = s.now + 1 ∧ t.pending = []
    ∧ (s.linkWait = [] → s.rotHeld = [] → (∀ m, m ∈ s.mcs → m.rotate = false) →
        t = { s with now := t.now, beat := t.beat, ports := t.ports, cores := t.cores, counters := t.counters, out := t.out })
    ∧ (∀ h d, s.linkWait = [(h, d)] → s.rotHeld = [] → (∀ m, m ∈ s.mcs → m.rotate = false) →
        (serveLink { s with now := s.now + 1, linkWait := [] } h d = none → t.linkWait = [(h, d)] ∧ t.mem = s.mem)
          ∧ (∀ u, serveLink { s with now := s.now + 1, linkWait := [] } h d = some u → t.linkWait = [] ∧ t.mem = u.mem))

/-- Log 6: every step keeps the canonical form of the memories, on which equal memories being equal data rests. -/
def Obligations.StepKeepsMemoryCanonical : Prop :=
  ∀ s : State, s.mem.wf = true → ∃ t, step s = .next t ∧ t.mem.wf = true

/-- R60: no step takes a counter above 64 bits: it saturates. -/
def Obligations.StepKeepsCountersFit : Prop :=
  ∀ s : State, countersFit s = true → ∃ t, step s = .next t ∧ countersFit t = true

/-- R385, R389, R393: no step unblows a fuse: the fused security version never falls, a revoked key slot stays revoked, and
the serial number and the identity key stay those of manufacture. -/
def Obligations.StepKeepsFuses : Prop := ∀ s : State, ∃ t, step s = .next t ∧ FusesKept s t

/-- Log 7: no command adds to the queue or takes from it, and none moves the clock; none ends in a fault or a refusal. -/
def Obligations.CommandsLeaveQueueAndClock : Prop :=
  ∀ (c : Instr) (s : State), ∃ t, exec c s = .next t ∧ t.pending = s.pending ∧ t.now = s.now

/-! What orders and events share. -/

/-- R334, R357, R358, Table 13.7: while Imion runs, an event goes to every queue pair that takes events and has not failed,
as a record of kind EVENT with mailbox 0xFF and the view's epoch at the head of its detail; a queue pair that takes none is
left alone; and the event is queued for the coffer. Nothing else changes but counters.

R60: a counter that is counted grows by the number given and saturates at 2^64 - 1; no other counter changes, and
nothing but the counters does. -/
def Obligations.EventsAndCounters : Prop :=
  (∀ (s : State) (code : Nat) (detail : List Byte) (q : Nat) (v : Qp), s.health.imionStopped = false →
      (s.qps.map Prod.fst).Nodup → s.qp q = some v →
      let t := postEvent s code detail
      let c : Completion := { kind := 2, code := code, mailbox := 0xFF, beat := s.beat.number
                              detail := leBytes 4 (eventEpoch s) ++ slice detail 0 36 }
      t.qp q = some (if v.events && v.phase != 3 then { v with waiting := v.waiting ++ [c] } else v)
        ∧ (∃ e, t.coffer.queue = s.coffer.queue ++ [e] ∧ e.seq = s.coffer.nextSeq ∧ e.kind = 0x0100 + code
            ∧ e.beat = s.beat.number ∧ e.payload = slice (slice detail 0 36) 0 36)
        ∧ t = { s with qps := t.qps, coffer := t.coffer, counters := t.counters })
    ∧ (∀ (s : State) (k j : Nat × Nat) (u v n : Nat), countersFit s = true → k.2 < 65536 → u < 65536 → j.2 < 65536 → v < 65536 →
        (s.bump k u n).counter k u = min (s.counter k u + n) (2 ^ 64 - 1)
          ∧ ((j ≠ k ∨ v ≠ u) → (s.bump k u n).counter j v = s.counter j v)
          ∧ s.bump k u n = { s with counters := (s.bump k u n).counters })

/-- R333, R335, R357: the final completion of an order carries the order's tag, number and code, the status, mailbox and
detail given and the beat in progress; it joins its queue pair's waiting completions, or is discarded when that has failed;
the order is held no more; and nothing else changes but counters. -/
def Obligations.FinalCompletion : Prop :=
  ∀ (s : State) (o : Order) (st : BitVec 8) (detail : List Byte) (v : Qp), held s o = false → s.qp o.qp = some v →
    let t := complete s o st detail
    let c : Completion := { tag := o.tag, number := o.number, kind := 0, code := o.code, status := st, mailbox := o.mailbox
                            beat := s.beat.number, detail := slice detail 0 40 }
    t.qp o.qp = some (if v.phase = 3 then v else { v with waiting := v.waiting ++ [c] })
      ∧ (∀ q, q ≠ o.qp → t.qp q = s.qp q)
      ∧ t.order o.mailbox o.number = none ∧ (∀ m n, (m, n) ≠ (o.mailbox, o.number) → t.order m n = s.order m n)
      ∧ t = { s with orders := t.orders, qps := t.qps, counters := t.counters }

/-- R352: an order that is not there, or not at its turn, is not handled: its command changes nothing (log 1).

R355: the first of the checks O1 to O4 that an order fails ends it with its status, and nothing of the order takes
effect: the one change is its final completion, with the letter O and the check's number. The checks are taken in the order
O1, O2, O3, O4.

R354: an order of a bound code, and a SET of a slot key, passes O2 exactly when its queue pair is bound to an open
session; of the other orders ATTEST passes from any queue pair, and the rest pass with no session open, or from a bound
queue pair. -/
def Obligations.OrdersAreChecked : Prop :=
  (∀ (s : State) (code m n : Nat) (served : Bool) (d : Option (List Byte)) (ok0 ok1 okC : Bool) (c : Instr),
      orderCommand code m n served d ok0 ok1 okC = some c → orderReady s m n code = none → exec c s = .next s)
    ∧ (∀ (s : State) (code m n : Nat) (served : Bool) (d : Option (List Byte)) (ok0 ok1 okC : Bool) (c : Instr) (o : Order),
        orderCommand code m n served d ok0 ok1 okC = some c → orderReady s m n code = some o →
        (checkO1 o.bytes = false → exec c s = .next (complete s o ePlan (checkDetail 0x4F 1 0)))
          ∧ (checkO1 o.bytes = true → checkO2 s o = false → exec c s = .next (complete s o eAuth (checkDetail 0x4F 2 0)))
          ∧ (checkO1 o.bytes = true → checkO2 s o = true → checkO3 s o = false →
              exec c s = .next (complete s o eRange (checkDetail 0x4F 3 0)))
          ∧ (checkO1 o.bytes = true → checkO2 s o = true → checkO3 s o = true → checkO4 s o = false →
              exec c s = .next (complete s o ePlan (checkDetail 0x4F 4 0))))
    ∧ (∀ (s : State) (o : Order),
        (o.code ∈ [0x01, 0x02, 0x03, 0x04, 0x05, 0x07, 0x08, 0x10] → checkO2 s o = qpBound s o.qp)
          ∧ (o.code = 0x0A → keySlot (field o.bytes 0x28 4) = true → checkO2 s o = qpBound s o.qp)
          ∧ (o.code = 0x11 → checkO2 s o = true)
          ∧ (o.code ∈ [0x06, 0x09, 0x0B, 0x0C, 0x0D, 0x0E, 0x0F, 0x12, 0x13, 0x14] →
              checkO2 s o = (!sessionOpen s || qpBound s o.qp))
          ∧ (o.code = 0x0A → keySlot (field o.bytes 0x28 4) = false → checkO2 s o = (!sessionOpen s || qpBound s o.qp)))

/-! Tensors, programs and runs. -/

/-- R18: DESTROY_TENSOR of a handle that a loaded program names ends with E_PLAN and the tensor stays live; of any other live
handle it releases the handle and leaves every byte of every memory as it is.

R14, R17: CREATE_TENSOR. The first descriptor check that fails ends the order with its status, C10 last, and no
descriptor is kept; a descriptor that passes and asks for no zeroing is kept as it is, under a handle from 1 to 65,535 that
no live tensor has, and the completion returns the handle.

R17: CREATE_TENSOR of a SHELF tensor with ZERO_ON_CREATE zeroes the footprint on every core's shelf before it
completes, and no byte outside it; the other memories stay as they are. -/
def Obligations.TensorsAreCreatedAndDestroyed : Prop :=
  (∀ (s : State) (m n : Nat) (o : Order), Admitted s m n 0x02 o →
      let h := field o.bytes 0x28 4
      ∀ t, s.tensor h = some t →
        (handleNamed s h = true →
            exec (.destroyTensor m n) s = .next (complete s o ePlan []) ∧ (complete s o ePlan []).tensor h = some t)
          ∧ (handleNamed s h = false →
              ∃ u, exec (.destroyTensor m n) s = .next u
                ∧ u = complete { s with tensors := s.tensors.filter (fun t => t.handle != h) } o eOk []
                ∧ u.tensor h = none ∧ (∀ k, k ≠ h → u.tensor k = s.tensor k) ∧ u.mem = s.mem))
    ∧ (∀ (s : State) (m n : Nat) (served : Bool) (o : Order), Admitted s m n 0x01 o →
        let b := slice o.bytes 0x28 128
        let d := parseDesc b
        (∀ k, descCheck b d = some k →
            exec (.createTensor m n served) s = .next (refuse s o (if k = 8 ∨ k = 9 then eRange else ePlan) 0x43 k 0))
          ∧ (descCheck b d = none → 65535 ≤ s.tensors.length →
              exec (.createTensor m n served) s = .next (refuse s o ePlan 0x43 10 0))
          ∧ (descCheck b d = none → s.tensors.length < 65535 → bit d.flags 2 = false →
              ∃ h, 1 ≤ h ∧ h ≤ 65535 ∧ s.tensor h = none ∧
                exec (.createTensor m n served) s = .next (complete
                  { s with free := s.free + 1, tensors := s.tensors ++ [{ handle := h, desc := d }] } o eOk (leBytes 4 h))))
    ∧ (∀ (s : State) (m n : Nat) (served : Bool) (o : Order), Admitted s m n 0x01 o →
        let b := slice o.bytes 0x28 128
        let d := parseDesc b
        descCheck b d = none → s.tensors.length < 65535 → bit d.flags 2 = true → d.placement = 0 →
          ∃ u h, exec (.createTensor m n served) s = .next u ∧ u.tensor h = some { handle := h, desc := d } ∧ s.tensor h = none
            ∧ (∀ c a, c < 128 → a < shelfBytes → memGet (c * shelfBytes + a) u.mem.shelf =
                if d.base ≤ a ∧ a < d.base + d.footprint 128 then 0 else memGet (c * shelfBytes + a) s.mem.shelf)
            ∧ u = { s with mem := { s.mem with shelf := u.mem.shelf, shelfPoison := u.mem.shelfPoison }, tensors := u.tensors
                           free := u.free, orders := u.orders, qps := u.qps, counters := u.counters })

/-- R24, R26, R356: LOAD_PROGRAM. The first loader check that fails ends the order with its status, the check's letter and
number and the place at fault, and the slot keeps what it held; a result too long for its range ends it with E_RANGE, and
the slot keeps what it held; an image that passes replaces the slot's contents and no other's; an image of length zero
empties the slot unless a run uses it. No memory changes.

R27, R28, R233: RUN. An extent above its plan bound ends the run with E_SHAPE_OVER, its reference and dimension in the
detail, and nothing is read or written; a RUN of an empty slot ends with E_PLAN, and one of a program with group opcodes
ends as Table 9.1 has it in a state other than ACTIVE; else the run is accepted behind the runs
accepted before it, queued, with the slot's program, the extents and launch beat of its record and the configuration as it
stands, and the order waits for the run's end. -/
def Obligations.ProgramsAndRuns : Prop :=
  (∀ (s : State) (m n : Nat) (b : List Byte) (o : Order), Admitted s m n 0x03 o →
      let slot := field o.bytes 0x28 1
      let len := field o.bytes 0x2C 4
      let image := slice b 0 len
      let p := parseProgram image (maskBits 128 (field o.bytes 0x38 16))
      let more := packBits ((s24Bits (hostAsk s o) p).drop 256)
      slot < 16 →
        (1 ≤ len → len ≤ 1048576 → qpUp (hostAsk s o) o.qp = true →
            (∀ st k i, loaderCheck (hostAsk s o) slot p image = some (st, k, i) →
                exec (.loadProgram m n (some b)) s = .next (refuse (hostAsk s o) o st 0x4C k i)
                  ∧ (refuse (hostAsk s o) o st 0x4C k i).slots = s.slots)
              ∧ (loaderCheck (hostAsk s o) slot p image = none → o.resultLen < more.length →
                  ∃ u, exec (.loadProgram m n (some b)) s = .next u
                    ∧ u = complete (hostAsk s o) o eRange (resultDetail 0 more.length) ∧ u.slots = s.slots)
              ∧ (loaderCheck (hostAsk s o) slot p image = none → more.length ≤ o.resultLen →
                  ∃ u, exec (.loadProgram m n (some b)) s = .next u ∧ look slot u.slots = some p
                    ∧ (∀ k, k ≠ slot → look k u.slots = look k s.slots)
                    ∧ u = { s with slots := u.slots, pushes := u.pushes, orders := u.orders, qps := u.qps, ports := u.ports
                                   counters := u.counters, out := u.out }))
          ∧ (len = 0 → (s.runs.any (fun r => r.slot == slot && r.state != 3)) = false →
              ∃ u, exec (.loadProgram m n (some b)) s = .next u ∧ look slot u.slots = none
                ∧ (∀ k, k ≠ slot → look k u.slots = look k s.slots)
                ∧ u = { s with slots := u.slots, orders := u.orders, qps := u.qps, counters := u.counters })
          ∧ (len = 0 → (s.runs.any (fun r => r.slot == slot && r.state != 3)) = true →
              exec (.loadProgram m n (some b)) s = .next (refuse s o ePlan 0x4C 3 0)))
    ∧ (∀ (s : State) (m n : Nat) (o : Order), Admitted s m n 0x04 o →
        let slot := field o.bytes 0x28 1
        (look slot s.slots = none → exec (.run m n) s = .next (complete s o ePlan []))
          ∧ (∀ p st, look slot s.slots = some p → p.needsGroup = true → groupRefusal s = some st →
              exec (.run m n) s = .next (complete s o st []))
          ∧ ∀ p, look slot s.slots = some p → (p.needsGroup = true → s.group.state = 3) →
              ((runExtents o.bytes).any (fun x => decide (p.refs.length ≤ x.1) || decide (6 ≤ x.2.1))) = false →
              let r : Run :=
                { tag := o.tag, qp := o.qp, mailbox := o.mailbox, number := o.number, slot := slot, prog := p
                  extents := runExtents o.bytes, launch := o.beat, keys := slotKeys s, optC := optConsts s
                  adapt := (s.layers.filter (fun l => l.2.live)).map (fun l => (l.1, l.2.theta, l.2.g)) }
              (∀ k i, shapeOver s r = some (k, i) →
                  exec (.run m n) s = .next (complete s o eShapeOver (leBytes 2 k ++ leBytes 1 i)))
                ∧ (shapeOver s r = none → (p.team.any (fun c => (s.core c).retired)) = false →
                    ∃ u, exec (.run m n) s = .next u ∧ u.live o.tag = some r
                      ∧ (∀ x, x ∈ s.runs → x.state ≠ 3 → x ∈ u.runs) ∧ u.runs.getLast? = some r
                      ∧ u = { s with runs := u.runs, orders := u.orders }))

/-- R192: CANCEL of an unknown tag, or of a run that has ended, ends with E_PLAN; of a run that has not started it removes
the run, which ends with E_CANCELLED, and then completes with E_OK, no byte of memory read or written; of a run in progress
or paused it stops the run: no stream of it is left, what is in flight is to be discarded, and the CANCEL waits for the
run's end.

R191: RESUME_STREAM of a run that is not paused ends with E_PLAN and changes nothing else; of a paused run it clears the
run's halts, lets every halted stream of it go on from its saved position under the table as it stands, and ends with E_OK. -/
def Obligations.CancelAndResume : Prop :=
  (∀ (s : State) (m n : Nat) (o : Order), Admitted s m n 0x05 o →
      let t := field o.bytes 0x28 8
      (s.live t = none → exec (.cancel m n) s = .next (complete s o ePlan []))
        ∧ ∀ r, s.live t = some r →
            (r.state = 0 → ∃ u, exec (.cancel m n) s = .next u ∧ u = complete (endRun s t eCancelled) o eOk []
                ∧ u.live t = none ∧ u.mem = s.mem)
              ∧ (r.state ≠ 0 → ∃ u x, exec (.cancel m n) s = .next u ∧ u.live t = some x
                  ∧ x.stopping = some (r.stopping.getD eCancelled) ∧ (m, n) ∈ x.cancelBy
                  ∧ (∃ y, u.order m n = some y ∧ y.begun = true)
                  ∧ (r.stopping = none → (∀ y, y ∈ u.streams → y.tag ≠ t) ∧ (∀ y, y ∈ u.xfers → y.tag = t → y.discard = true))
                  ∧ ((∀ p, p ∈ s.pushes → p.tag = t → p.begun = false) → u.mem = s.mem)))
    ∧ (∀ (s : State) (m n : Nat) (o : Order), Admitted s m n 0x08 o →
        let t := field o.bytes 0x28 8
        (s.live t = none → exec (.resumeStream m n) s = .next (complete s o ePlan []))
          ∧ ∀ r, s.live t = some r →
              (r.state ≠ 2 → exec (.resumeStream m n) s = .next (complete s o ePlan []))
                ∧ (r.state = 2 → r.stopping = none →
                    ∃ u, exec (.resumeStream m n) s = .next u
                      ∧ u = complete ((s.streams.filter (fun x => x.tag == t && x.halted.isSome)).foldl (fun a x => resumeOne a x)
                          (s.onRun t (fun r => { r with state := 1, halts := [], interim := false }))) o eOk []
                      ∧ (held s o = false → u.order o.mailbox o.number = none)
                      ∧ ((∀ x, x ∈ s.streams → x.tag = t → x.halted = none) →
                          u = { s with runs := u.runs, orders := u.orders, qps := u.qps, counters := u.counters }
                            ∧ ∃ x, u.live t = some x ∧ x.state = 1 ∧ x.halts = [])))

/-- R186, R187: MAP_PAGES. The first entry that fails one of M1 to M3 ends the order with that check's status and the
entry's place, and more than 2,097,152 pages end it with E_RANGE and check M4, and no entry is applied; a list that passes is
applied in its order, so that a page named twice takes its last entry, no translation cache keeps a page it names, and no
byte of any memory changes.

R356, R361: QUERY of an unknown kind or an object that does not exist ends with E_PLAN; of a record longer than the
result range it ends with E_RANGE, nothing written, the bytes needed in the detail; else the record is sent into the result
range and the order ends with E_OK.

R356, R362, R431: READ_COUNTERS writes one 16-byte entry for each counter of each unit asked for, units ascending, as
many whole entries as fit, and READ_COFFER as many whole 64-byte entries as fit after its 32-byte head; both end with E_OK,
and the detail gives the bytes written and needed. A unit outside the scope ends READ_COUNTERS with E_RANGE, an
unknown scope (log 11) and a READ_COFFER of no or more than 65,536 entries with E_PLAN. -/
def Obligations.PagesAndQueries : Prop :=
  (∀ (s : State) (m n : Nat) (b : List Byte) (o : Order), Admitted s m n 0x07 o →
      let k := field o.bytes 0x2A 2
      let es := entriesOf k (slice b 0 (32 * k))
      let a := hostAsk s o
      1 ≤ k → k ≤ 4096 → qpUp a o.qp = true →
        (∀ i st c, i < k → entryCheck a (es.getD i []) = some (st, c) → (∀ j, j < i → entryCheck a (es.getD j []) = none) →
            exec (.mapPages m n (some b)) s = .next (refuse a o st 0x4D c i) ∧ (refuse a o st 0x4D c i).mem = s.mem)
          ∧ ((∀ e, e ∈ es → entryCheck a e = none) → 2097152 < (es.foldl mapEntry s.mem.xlate).length →
              exec (.mapPages m n (some b)) s = .next (refuse a o eRange 0x4D 4 0) ∧ (refuse a o eRange 0x4D 4 0).mem = s.mem)
          ∧ ((∀ e, e ∈ es → entryCheck a e = none) → (es.foldl mapEntry s.mem.xlate).length ≤ 2097152 →
              ∃ u, exec (.mapPages m n (some b)) s = .next u
                ∧ (∀ i, i < k → (∀ j, i < j → j < k → field (es.getD j []) 0 4 ≠ field (es.getD i []) 0 4) →
                    let e := es.getD i []
                    look (field e 0 4) u.mem.xlate = if field e 4 1 = 0 then none
                      else some (field e 4 1, field e 5 1, field e 6 2, field e 8 8, field e 0x10 4))
                ∧ (∀ g, (∀ e, e ∈ es → field e 0 4 ≠ g) → look g u.mem.xlate = look g s.mem.xlate)
                ∧ (∀ c e, e ∈ es → ∀ x, x ∈ (u.core c).xcache → x.1 ≠ field e 0 4)
                ∧ u = { s with mem := { s.mem with xlate := u.mem.xlate }, cores := u.cores, orders := u.orders, qps := u.qps
                               ports := u.ports, counters := u.counters, out := u.out }))
    ∧ (∀ (s : State) (m n : Nat) (o : Order), Admitted s m n 0x06 o →
        let rec13 := queryRecord s (field o.bytes 0x28 1) (field o.bytes 0x30 8)
        (rec13 = none → exec (.query m n) s = .next (complete s o ePlan []))
          ∧ (∀ d, rec13 = some d → o.resultLen < d.length →
              exec (.query m n) s = .next (complete s o eRange (resultDetail 0 d.length)))
          ∧ (∀ d, rec13 = some d → d.length ≤ o.resultLen →
              ∃ u, exec (.query m n) s = .next u ∧ u = complete (sendResult s o d) o eOk (resultDetail d.length d.length)
                ∧ u = { s with orders := u.orders, qps := u.qps, ports := u.ports, counters := u.counters, out := u.out }))
    ∧ (∀ (s : State) (m n : Nat) (o : Order),
        (Admitted s m n 0x12 o →
          let scope := field o.bytes 0x28 1
          let first := field o.bytes 0x2A 2
          let k := field o.bytes 0x2C 2
          let es := (List.range k).flatMap (fun i => unitEntries s scope (first + i))
          (6 < scope → exec (.readCounters m n) s = .next (complete s o ePlan []))
            ∧ (scope ≤ 6 → (k = 0 ∨ scopeUnits scope < first + k) → exec (.readCounters m n) s = .next (complete s o eRange []))
            ∧ (scope ≤ 6 → 1 ≤ k → first + k ≤ scopeUnits scope →
                ∃ u d, exec (.readCounters m n) s = .next u ∧ d = (es.take (o.resultLen / 16)).flatten
                  ∧ d.length = 16 * min (o.resultLen / 16) es.length
                  ∧ u = complete (sendResult s o d) o eOk (resultDetail d.length (16 * es.length))
                  ∧ u = { s with orders := u.orders, qps := u.qps, ports := u.ports, counters := u.counters, out := u.out }))
        ∧ (Admitted s m n 0x13 o →
            let most := field o.bytes 0x30 4
            let all := (sortSeq ((cofferPart s 1 ++ cofferPart s 2).filter (fun e => decide (field o.bytes 0x28 8 ≤ e.seq)))).take most
            (most = 0 ∨ 65536 < most → exec (.readCoffer m n) s = .next (complete s o ePlan []))
            ∧ (1 ≤ most → most ≤ 65536 →
              ∃ u w, exec (.readCoffer m n) s = .next u
                ∧ w = (if o.resultLen < 32 then 0 else 32 + 64 * min ((o.resultLen - 32) / 64) all.length)
                ∧ (∃ d, d.length = w ∧ u = complete (sendResult s o d) o eOk (resultDetail w (32 + 64 * all.length)))
                ∧ u = { s with orders := u.orders, qps := u.qps, ports := u.ports, counters := u.counters, out := u.out })))

/-! Configuration. -/

/-- R363, R364, R366: SET. From a queue pair other than the owner of an open transaction it ends with E_TXN_CONFLICT. With
none open, an admitted value is committed at once, and no other key changes; in the owner's open transaction it is staged in
place of an earlier value of its key, and no committed key changes; a value that its key's rule refuses, or of another length,
ends with E_PLAN and nothing changes; beyond 64 keys or 262,144 bytes it ends with E_RANGE and the earlier stages stay.

R365: BEGIN_TXN ends with E_TXN_CONFLICT while a transaction is open or pending, or while the device has answered READY to
another coordinator; in GROUP scope it ends with E_PLAN on a device that is neither HOLD nor ACTIVE; else it opens the one
transaction, empty and owned by the sending queue pair. -/
def Obligations.SetsAndTransactions : Prop :=
  (∀ (s : State) (m n : Nat) (d : Option (List Byte)) (o : Order), Admitted s m n 0x0A o →
      let k := field o.bytes 0x28 4
      let v := slice o.bytes 0x40 (field o.bytes 0x2C 4)
      let inline := field o.bytes 0x30 1 = 0
      let sized := keySize k = some (field o.bytes 0x2C 4)
      (s.txn.state = 1 → s.txn.owner ≠ o.qp → exec (.set m n d) s = .next (complete s o eTxnConflict []))
        ∧ (s.txn.state = 2 → exec (.set m n d) s = .next (complete s o eTxnConflict []))
        ∧ (s.txn.state = 0 → s.prepared = none → inline → ¬ sized → exec (.set m n d) s = .next (complete s o ePlan []))
        ∧ (s.txn.state = 0 → s.prepared = none → inline → sized → setStatus s false k v ≠ eOk →
            exec (.set m n d) s = .next (complete s o (setStatus s false k v) []))
        ∧ (s.txn.state = 0 → s.prepared = none → inline → sized → setStatus s false k v = eOk →
            ∃ u, exec (.set m n d) s = .next u ∧ keyVal u k = some (keyStored k v)
              ∧ (∀ j, j ≠ k → keyVal u j = keyVal s j) ∧ u.mem = s.mem ∧ u.runs = s.runs)
        ∧ (s.txn.state = 1 → s.txn.owner = o.qp → inline → sized → setStatus s s.txn.group k v = eOk →
            let l := s.txn.staged.filter (fun e => e.1 != k) ++ [(k, v)]
            (stageOk l = true →
                exec (.set m n d) s = .next (complete { s with txn := { s.txn with staged := l } } o eOk []))
              ∧ (stageOk l = false → exec (.set m n d) s = .next (complete s o eRange []))))
    ∧ (∀ (s : State) (m n : Nat) (o : Order), Admitted s m n 0x09 o →
        let scope := field o.bytes 0x28 1
        (1 < scope → exec (.beginTxn m n) s = .next (complete s o ePlan []))
          ∧ (scope ≤ 1 → (s.txn.state ≠ 0 ∨ s.prepared.isSome = true) →
              exec (.beginTxn m n) s = .next (complete s o eTxnConflict []))
          ∧ (scope = 1 → s.txn.state = 0 → s.prepared = none → s.group.state ≠ 2 → s.group.state ≠ 3 →
              exec (.beginTxn m n) s = .next (complete s o ePlan []))
          ∧ (scope ≤ 1 → s.txn.state = 0 → s.prepared = none → (scope = 1 → s.group.state = 2 ∨ s.group.state = 3) →
              exec (.beginTxn m n) s =
                .next (complete { s with txn := { state := 1, group := scope == 1, owner := o.qp } } o eOk [])))

/-- R83, R367, R368: COMMIT_TXN and ROLLBACK_TXN of a local transaction. Only its owner may end it. Without a commit beat every
staged key takes its value and the transaction closes; with a beat to come it waits, nothing applied yet; with one that has
begun it ends with E_LATE and the transaction stays as it was; runs already accepted keep the values they took. A rollback
discards the stages and no key changes.

R262, R367, R264: at the first cc of its commit beat, and not before, a local transaction that waits for it applies every
staged key and closes (LOCAL_COMMIT_BEAT); a group transaction that has been decided does so at the coordinator, and a member
applies what it prepared (COMMIT_BEAT); a member with the beat there and no DECISION fences itself. -/
def Obligations.LocalTransactions : Prop :=
  (∀ (s : State) (m n : Nat) (o : Order), s.txn.group = false →
      (Admitted s m n 0x0B o →
        ((s.txn.state ≠ 1 ∨ s.txn.owner ≠ o.qp) →
            exec (.commitTxn m n) s = .next (complete s o ePlan (commitDetail 0xFFFF 0 0)))
          ∧ (s.txn.state = 1 → s.txn.owner = o.qp → o.beat = 0 → stagedStatus s false s.txn.staged = eOk →
              (s.txn.staged.map Prod.fst).Nodup →
              ∃ u, exec (.commitTxn m n) s = .next u ∧ u.txn = {}
                ∧ (∀ k v, (k, v) ∈ s.txn.staged → keyVal u k = some (keyStored k v))
                ∧ (∀ k, k ∉ s.txn.staged.map Prod.fst → keyVal u k = keyVal s k) ∧ u.runs = s.runs ∧ u.mem = s.mem)
          ∧ (s.txn.state = 1 → s.txn.owner = o.qp → o.beat ≠ 0 → o.beat ≤ s.beat.number →
              exec (.commitTxn m n) s = .next (complete s o eLate (commitDetail 0xFFFF 0 0)))
          ∧ (s.txn.state = 1 → s.txn.owner = o.qp → s.beat.number < o.beat →
              ∃ u, exec (.commitTxn m n) s = .next u ∧ u.txn.state = 2 ∧ u.txn.commitBeat = o.beat
                ∧ u.txn.staged = s.txn.staged ∧ u = { s with txn := u.txn, orders := u.orders }))
      ∧ (Admitted s m n 0x0C o →
          ((s.txn.state = 0 ∨ s.txn.owner ≠ o.qp) → exec (.rollbackTxn m n) s = .next (complete s o ePlan []))
            ∧ (s.txn.state ≠ 0 → s.txn.owner = o.qp →
                ∃ u, exec (.rollbackTxn m n) s = .next u ∧ u.txn = {} ∧ u.keys = s.keys
                  ∧ u = { s with txn := {}, orders := u.orders, qps := u.qps, counters := u.counters })))
    ∧ (∀ s : State,
        ((s.txn.state = 2 → s.txn.group = false → s.txn.commitBeat ≤ s.beat.number → stagedStatus s false s.txn.staged = eOk →
            (s.txn.staged.map Prod.fst).Nodup →
            ∃ u, exec .localCommitBeat s = .next u ∧ u.txn = {} ∧ u.runs = s.runs
              ∧ (∀ k v, (k, v) ∈ s.txn.staged → keyVal u k = some (keyStored k v))
              ∧ (∀ k, k ∉ s.txn.staged.map Prod.fst → keyVal u k = keyVal s k))
          ∧ (s.beat.number < s.txn.commitBeat → exec .localCommitBeat s = .next s)
          ∧ (s.txn.state = 2 → s.txn.group = true → s.txn.decided = true → s.txn.commitBeat ≤ s.beat.number → s.prepared = none →
              stagedStatus s true s.txn.staged = eOk → (s.txn.staged.map Prod.fst).Nodup →
              ∃ u, exec .commitBeat s = .next u ∧ u.txn = {} ∧ u.runs = s.runs
                ∧ (∀ k v, (k, v) ∈ s.txn.staged → keyVal u k = some (keyStored k v)))
          ∧ (∀ p, s.txn.state = 0 → s.prepared = some p → p.beat ≠ 0 → p.beat ≤ s.beat.number → p.decided = true →
              (p.staged.map Prod.fst).Nodup →
              ∃ u, exec .commitBeat s = .next u ∧ u.prepared = none
                ∧ (∀ k v, (k, v) ∈ p.staged → keyVal u k = some (keyStored k v)))
          ∧ (∀ p, s.txn.state = 0 → s.prepared = some p → p.beat ≠ 0 → p.beat ≤ s.beat.number → p.decided = false →
              (s.group.state = 2 ∨ s.group.state = 3) → s.group.leaveOrder = none →
              ∃ u, exec .commitBeat s = .next u ∧ u.prepared = none ∧ u.group.state = 4 ∧ u.keys = s.keys)))

/-- R262 to R264: group transactions and their messages. A given commit beat that has begun, or begins fewer than 8 bt after the
COMMIT_TXN is taken, ends it with E_LATE, and nothing is sent. A member that can make the changes answers PREPARE with READY and keeps
them, changing no key; one that cannot answers with the status and keeps none. A DECISION of its coordinator gives what it
keeps a commit beat; an ABORT drops it. R259: a message of a rank that the view does not have is discarded and counted. A
refusing READY_REPLY, or a reply that is late, aborts the transaction at the
coordinator with E_LATE or the member's status, which stays open. -/
def Obligations.GroupTransactionMessages : Prop :=
  ∀ s : State,
    (∀ m n o, Admitted s m n 0x0B o → s.txn.state = 1 → s.txn.owner = o.qp → s.txn.group = true → o.beat ≠ 0 →
        o.beat < beatAfter s 8 → exec (.commitTxn m n) s = .next (complete s o eLate (commitDetail 0xFFFF 0 0)))
      ∧ (∀ coord staged beat, inView s = true → coord ∈ s.group.view → s.txn.state = 0 → s.prepared = none →
        stagedStatus s true staged = eOk →
        exec (.prepare coord staged beat) s = .next (sendMgmt
          (({ s with prepared := some { coordinator := coord, staged := staged, beat := beat, ranks := s.group.view } }).bump
            Ctr.txnPrepared 0 1) coord 2 [eOk]))
      ∧ (∀ coord staged beat, inView s = true → coord ∈ s.group.view → (s.txn.state ≠ 0 ∨ s.prepared.isSome = true) →
          exec (.prepare coord staged beat) s = .next (sendMgmt s coord 2 [eTxnConflict]))
      ∧ (∀ p beat, inView s = true → p.coordinator ∈ s.group.view → s.prepared = some p →
          exec (.decision p.coordinator beat) s = .next { s with prepared := some { p with decided := true, beat := beat } })
      ∧ (∀ p coord beat, inView s = true → coord ∈ s.group.view → s.prepared = some p → p.coordinator ≠ coord →
          exec (.decision coord beat) s = .next s ∧ exec (.abort coord) s = .next s)
      ∧ (∀ p, inView s = true → p.coordinator ∈ s.group.view → s.prepared = some p →
          exec (.abort p.coordinator) s = .next (({ s with prepared := none }).bump Ctr.txnAborted 0 1))
      ∧ (∀ rank staged beat status c, inView s = true → rank ∉ s.group.view →
          c ∈ [Instr.prepare rank staged beat, .decision rank beat, .abort rank, .readyReply rank status] →
          exec c s = .next (s.bump Ctr.fencedDrops 0 1))
      ∧ (∀ rank status, inView s = true → rank ∈ s.group.view → s.txn.state = 2 → s.txn.group = true →
          s.txn.decided = false → rank ∈ s.txn.asked → status ≠ eOk →
          ∃ u, exec (.readyReply rank status) s = .next u ∧ u.txn.state = 1 ∧ u.txn.staged = s.txn.staged ∧ u.keys = s.keys
            ∧ u = abortTxn s status rank)
      ∧ (∀ rank, s.txn.state = 2 → s.txn.group = true → s.txn.decided = false → rank ∈ s.txn.asked →
          (∀ r, r ∈ s.txn.asked → r = rank ∨ r ∈ s.txn.ready) → s.txn.commitBeat ≠ 0 →
          ∃ u, exec (.readyReply rank eOk) s = .next u ∧ u.txn.decided = true ∧ u.txn.commitBeat = s.txn.commitBeat)
      ∧ (s.txn.state = 2 → s.txn.group = true → s.txn.decided = false →
          ((s.txn.commitBeat ≠ 0 ∧ s.txn.commitBeat ≤ s.beat.number + 4)
            ∨ (s.txn.commitBeat = 0 ∧ s.txn.prepareBeat + 1024 ≤ s.beat.number)) →
          ∃ u r, exec .txnReplyTimeout s = .next u ∧ u = abortTxn s eLate r ∧ u.txn.state = 1
            ∧ u.txn.staged = s.txn.staged)

/-! Mailboxes, queue pairs and completions. -/

/-- R330, R331: an RDMA WRITE of whole slots into the queue pair's own mailboxes, with its rkey, places its bytes in the order
window and changes nothing else; any other write into the window places nothing, is answered by a NAK, and takes the queue
pair to the error state. On a sub-port that requires MACsec and has no key yet it is discarded and counted (R341).

R348 to R350: ORDER_TAKE. The record in the head slot is taken when its number is the expected one: a copy joins the
orders, the head moves one slot on modulo 16 and the expected number by one, from 0xFFFF_FFFF to 1. A number of 0, or the
one 16 before, is left untaken and changes nothing; any other number ends, once, in a completion with that number and E_PLAN,
and neither head nor expected number moves.

R351: MAILBOX_SWEEP examines the head slot of each of the 64 mailboxes once, in ascending mailbox order, as ORDER_TAKE
does. -/
def Obligations.OrderWindow : Prop :=
  (∀ (s : State) (q addr rkey : Nat) (d : List Byte) (v : Qp), s.qp q = some v → v.phase = 1 → noSak s v.subport = false →
      memWf 0 s.mem.window = true →
      let inside := rkey = v.windowRkey ∧ v.windowVa ≤ addr ∧ (addr - v.windowVa) % 256 = 0 ∧ 1 ≤ d.length
        ∧ d.length % 256 = 0 ∧ addr - v.windowVa + d.length ≤ 4096 * v.mailboxCount
      let a := 4096 * v.firstMailbox + (addr - v.windowVa)
      (inside → ∃ u, exec (.orderWindowWrite q addr rkey d) s = .next u
          ∧ (∀ i, i < d.length → memGet (a + i) u.mem.window = d.getD i 0)
          ∧ (∀ x, (x < a ∨ a + d.length ≤ x) → memGet x u.mem.window = memGet x s.mem.window)
          ∧ u = { s with mem := { s.mem with window := u.mem.window } })
        ∧ (¬ inside → ∃ u x, exec (.orderWindowWrite q addr rkey d) s = .next u ∧ u.mem.window = s.mem.window
            ∧ u.qp q = some x ∧ x.phase = 3))
    ∧ (∀ (s : State) (q addr rkey : Nat) (d : List Byte) (v : Qp), s.qp q = some v → noSak s v.subport = true →
        exec (.orderWindowWrite q addr rkey d) s = .next (s.bump Ctr.macsecDrops v.subport 1))
    ∧ (∀ (s : State) (m q : Nat) (v : Qp),
        let b := s.mailbox m
        let r := memRead s.mem.window (4096 * m + 256 * b.head) 256
        let k := field r 0 4
        let code := field r 4 1
        b.qp = some q → s.qp q = some v → v.phase = 1 → s.pins.stage = 4 → s.health.imionStopped = false →
          v.waiting.length < 1024 →
          (k = 0 ∨ k = back16 b.expected → exec (.orderTake m) s = .next s)
            ∧ (k ≠ 0 → k ≠ back16 b.expected → k = b.expected → 1 ≤ code → code ≤ 0x14 → (code = 0x04 → runsHeld s < 256) →
                ∃ u, exec (.orderTake m) s = .next u
                  ∧ u.orders = s.orders ++ [{ mailbox := m, number := k, qp := q, bytes := r }]
                  ∧ u.mailbox m = { b with head := (b.head + 1) % 16, faulted := false
                                           expected := if k = 0xFFFFFFFF then 1 else k + 1 }
                  ∧ (∀ x, x ≠ m → u.mailbox x = s.mailbox x)
                  ∧ u = { s with orders := u.orders, mailboxes := u.mailboxes, counters := u.counters })
            ∧ (k ≠ 0 → k ≠ back16 b.expected → k = b.expected → (code = 0 ∨ 0x14 < code) → s.trust.closeStatus = [] →
                ∃ u x, exec (.orderTake m) s = .next u ∧ (u.mailbox m).head = (b.head + 1) % 16
                  ∧ u.qp q = some { v with waiting := v.waiting ++ [x] } ∧ x.number = k ∧ x.status = ePlan
                  ∧ x.detail = checkDetail 0x4F 1 0 ++ List.replicate 32 0)
            ∧ (code = 0x04 → k = b.expected → 256 ≤ runsHeld s → exec (.orderTake m) s = .next s)
            ∧ (k ≠ 0 → k ≠ back16 b.expected → k ≠ b.expected → b.faulted = false →
                ∃ u x, exec (.orderTake m) s = .next u ∧ u.mailbox m = { b with faulted := true } ∧ u.orders = s.orders
                  ∧ u.qp q = some { v with waiting := v.waiting ++ [x] } ∧ x.number = k ∧ x.code = code ∧ x.status = ePlan
                  ∧ x.kind = 0 ∧ x.mailbox = m)
            ∧ (k ≠ b.expected → b.faulted = true → exec (.orderTake m) s = .next s))
    ∧ (∀ s : State, ∃ u, exec .mailboxSweep s = .next u
        ∧ ∃ f : Nat → State, f 0 = s ∧ f 64 = u ∧ ∀ m, m < 64 → exec (.orderTake m) (f m) = .next (f (m + 1)))

/-- R327: a CONNECTION_REQ with the device's service identifier on an up sub-port with an IP address creates a queue pair under
a number that no other in use has, with its counters at zero, and is answered with it; with 4,096 in use, another service
identifier, or a path MTU that R325 does not list (the model's choice, log 94), it is rejected and no queue pair changes.

R329, R348: the first message of a connected host that is a good connection record, bound to no session, is granted the
consecutive free mailboxes it asks for: the queue pair takes the record's ring, regions and modes, each granted mailbox is
its own, at head slot 0 with expected number 1 and all its bytes zero, and no other mailbox changes.

R335, R369: a disconnect takes the queue pair to the error state: its waiting completions are discarded and counted, its
mailboxes are given up, QP_ERRORS grows, orders already taken stay, and a local transaction that it owns is rolled back; so does
the disconnect that follows 1 ms after a reply that granted nothing (R329), and only that. -/
def Obligations.QueuePairs : Prop :=
  (∀ (s : State) (u psn mtu : Nat), (s.port u).up = true → portIp s u = true → noSak s u = false →
      ((qpsUsed s).length < 4096 → mtu ∈ [1024, 2048, 4096] → ∃ t q v, exec (.connectionReq u 0x010612C1 psn mtu) s = .next t ∧ q < 4096
          ∧ q ∉ qpsUsed s ∧ t.qp q = some v ∧ v.subport = u ∧ v.phase = 0 ∧ v.epsn = psn % 2 ^ 24 ∧ v.mtu = mtu
          ∧ t.counter Ctr.cqFullWaits q = 0 ∧ t.counter Ctr.completionsDropped q = 0
          ∧ (∀ x, x ≠ q → t.qp x = s.qp x)
          ∧ t = { s with qps := t.qps, free := t.free, counters := t.counters, out := t.out })
        ∧ (4096 ≤ (qpsUsed s).length → ∀ service, exec (.connectionReq u service psn mtu) s =
            .next { s with out := { kind := 13, dest := u, addr := 1 } :: s.out })
        ∧ ((qpsUsed s).length < 4096 → ∀ service, service ≠ 0x010612C1 → exec (.connectionReq u service psn mtu) s =
            .next { s with out := { kind := 13, dest := u, addr := 2 } :: s.out })
        ∧ ((qpsUsed s).length < 4096 → mtu ∉ [1024, 2048, 4096] → exec (.connectionReq u 0x010612C1 psn mtu) s =
            .next { s with out := { kind := 13, dest := u, addr := 3 } :: s.out }))
    ∧ (∀ (s : State) (q f : Nat) (d : List Byte) (v : Qp), s.qp q = some v → v.phase = 0 → noSak s v.subport = false →
        recordOk d = true → freeRun s (field d 3 1) = some f → (∀ x, x ∈ slice d 0x20 32 → x = 0) →
        ∃ u w, exec (.connectionRecord q d) s = .next u ∧ u.qp q = some w ∧ w.phase = 1 ∧ w.bound = false
          ∧ w.firstMailbox = f ∧ w.mailboxCount = field d 3 1 ∧ w.cqAddr = field d 8 8 ∧ w.cqEntries = field d 0x14 4
          ∧ (∀ i, i < field d 3 1 → u.mailbox (f + i) = { qp := some q, head := 0, expected := 1, faulted := false })
          ∧ (∀ a, 4096 * f ≤ a → a < 4096 * (f + field d 3 1) → memGet a u.mem.window = 0)
          ∧ (∀ m, (m < f ∨ f + field d 3 1 ≤ m) → u.mailbox m = s.mailbox m)
          ∧ (∀ x, x ≠ q → u.qp x = s.qp x))
    ∧ (∀ (s : State) (q : Nat) (v : Qp), s.qp q = some v → countersFit s = true → q < 65536 → v.subport < 65536 →
        (noSak s v.subport = true → exec (.disconnectRequest q) s = .next (s.bump Ctr.macsecDrops v.subport 1))
          ∧ (v.phase ≠ 3 → noSak s v.subport = false → (s.txn.owner ≠ q ∨ s.txn.state = 0) → ∃ u w,
            exec (.disconnectRequest q) s = .next u ∧ u.qp q = some w ∧ w.phase = 3 ∧ w.waiting = []
            ∧ ((∀ p, p ∈ s.qps → p.2.events = false) →
                u.counter Ctr.completionsDropped q = min (s.counter Ctr.completionsDropped q + v.waiting.length) (2 ^ 64 - 1)
                  ∧ u.counter Ctr.qpErrors v.subport = min (s.counter Ctr.qpErrors v.subport + 1) (2 ^ 64 - 1))
            ∧ (∀ m, (u.mailbox m).qp ≠ some q) ∧ u.orders = s.orders ∧ u.txn = s.txn ∧ u.mem = s.mem)
          ∧ (v.phase ≠ 3 → noSak s v.subport = false → s.txn.owner = q → s.txn.state ≠ 0 → s.txn.group = false →
              ∃ u w, exec (.disconnectRequest q) s = .next u ∧ u.qp q = some w ∧ w.phase = 3 ∧ u.txn = {} ∧ u.keys = s.keys)
          ∧ (noSak s v.subport = false → exec (.disconnectRequest q) s = .next (qpError s q 4))
          ∧ (v.phase = 2 → exec (.disconnectAfterReply q) s = .next (qpError s q 4))
          ∧ (v.phase ≠ 2 → exec (.disconnectAfterReply q) s = .next s))

/-- R332, R333: COMPLETION_WRITE. With room in the ring the oldest waiting completion is sent into entry p modulo the ring's
size, by the mode the record chose, and the producer index advances modulo 2^32; with the ring full nothing is written and
the completion stays first in line, counted on its first wait. CONSUMER_INDEX_READ makes the index read the one that the
condition takes. -/
def Obligations.CompletionsFillTheRing : Prop :=
  ∀ (s : State) (q c : Nat) (v : Qp), s.qp q = some v → v.phase = 1 →
    (∀ x rest, v.waiting = x :: rest → s.health.imionStopped = false → s.pins.stage = 4 → ringFill v < v.cqEntries →
        exec (.completionWrite q) s =
          .next (roce (s.setQp q { v with producer := (v.producer + 1) % 2 ^ 32, waiting := rest }) q
            { kind := if v.modeImm then 14 else 0, dest := q, addr := v.cqAddr + 64 * (v.producer % v.cqEntries)
              rkey := v.cqRkey
              data := if v.modeImm then leBytes 4 v.producer ++ completionBytes x else completionBytes x })
          ∧ (completionBytes x).length = 64)
      ∧ (∀ x rest, v.waiting = x :: rest → s.health.imionStopped = false → s.pins.stage = 4 → v.cqEntries ≤ ringFill v →
          ∃ u w, exec (.completionWrite q) s = .next u ∧ u.qp q = some w ∧ w.producer = v.producer
            ∧ w.waiting = { x with counted := true } :: rest ∧ u.orders = s.orders ∧ u.mem = s.mem)
      ∧ (v.waiting = [] → exec (.completionWrite q) s = .next s)
      ∧ (noSak s v.subport = false → exec (.consumerIndexRead q c) s = .next (s.setQp q { v with consumer := c % 2 ^ 32 }))

/-! Runs and the engines. -/

/-- R44, R50: an integer accumulation stays within 32 bits: it saturates at 2^31 - 1 or -2^31, and an element that has
saturated takes no later products; below the bounds it is exact.

R50, R56: a float element that has saturated or holds a NaN takes no later step; a step with a product beyond the format
leaves the largest magnitude of its sign and marks the element, and a NaN leaves a NaN.

R51, R53: a tile is accumulated in at most three passes, with retry counts 0, 1 and 2; each abandoned pass leaves one
mark; a job of integer class, or one that does not retry, makes one pass; and what it leaves is that of its last pass.

R165: a source coordinate outside its extent is clamped into it, to 0 below and to the last element above, and one inside
is left as it is. -/
def Obligations.TileArithmetic : Prop :=
  (∀ (a t : Int) (nan : Bool), -2147483648 ≤ a → a ≤ 2147483647 → -2147483648 ≤ t → t ≤ 2147483647 →
      (-2147483648 ≤ a + t → a + t ≤ 2147483647 →
          accInt { v := .ofInt a, nan := nan } [t] = ({ v := .ofInt (a + t), nan := nan }, false, false))
        ∧ (2147483647 < a + t → accInt { v := .ofInt a, nan := nan } [t] = ({ v := .ofInt 2147483647, sat := true }, true, false))
        ∧ (a + t < -2147483648 →
            accInt { v := .ofInt a, nan := nan } [t] = ({ v := .ofInt (-2147483648), sat := true }, true, false))
        ∧ ∀ c ps, c.sat = true → accInt c ps = (c, false, false))
    ∧ (∀ (c : Acc) (r : StepRes) (d : Nat),
        ((c.sat = true ∨ c.nan = true) → accFloat c r d = (c, false, false))
          ∧ (c.sat = false → c.nan = false →
              (accFloat c .nan d).1 = { v := .nan, sat := false, nan := true }
                ∧ (∀ n, accFloat c (.above n) d = ({ v := max32 n, sat := true }, true, false))
                ∧ (∀ n, accFloat c (.overInf n) d = ({ v := max32 n, sat := true }, true, true))
                ∧ ∀ t, (stochastic c.v t d).over32 = true →
                    accFloat c (.sum t) d = ({ v := max32 (stochastic c.v t d).neg, sat := true }, true, false)))
    ∧ (∀ (j : EngineJob) (retry : Bool),
        let x := j.run retry 2 0 []
        x.n ≤ 2 ∧ x.stops.length = x.n ∧ ((retry = false ∨ j.isInt = true) → x.n = 0)
          ∧ x.accs = (j.pass x.n).map (fun row => row.map (fun e => e.1)))
    ∧ (∀ (e : Nat) (x : Int), 1 ≤ e →
        (clampTo e x).1 < e ∧ ((clampTo e x).2 = false ↔ 0 ≤ x ∧ x < e) ∧ (0 ≤ x → x < e → ((clampTo e x).1 : Int) = x)
          ∧ (x < 0 → (clampTo e x).1 = 0) ∧ ((e : Int) ≤ x → (clampTo e x).1 = e - 1))

/-- R28, R29, R192: the life of a run. The run at the head of its team starts at its launch beat or later, a later start
counting as late and being no failure; before its beat, behind a run on one of its cores, or without a launch beat while Imion
restarts (R414), nothing changes. It ends with
E_OK when its last macro-instruction has made all its writes, or, stopped, with its status once all it had issued has
returned: then it is no longer live, none of its streams is left, and its record keeps status and end beat.

R22, R176, R177: MACRO_START. A macro-instruction that nothing keeps back starts on its position: its walk begins there, it
takes its larders and opens a read stream for each operand that it reads from the tensor address space; the first start of a
run sets its start beat. One that is kept back changes nothing.

R21, R22: WAIT_BEAT passes on its position once the named beat has begun, and FENCE once every earlier macro-instruction's
writes within its scope are made, a scope of 0 being all; until then neither changes anything. Neither moves a byte. -/
def Obligations.RunsAndBarriers : Prop :=
  (∀ (s : State) (t : Nat) (r : Run), s.live t = some r →
      (r.state = 0 → teamBusy s r = false → r.launch ≤ s.beat.number → (r.launch = 0 → s.health.imionStopped = false) →
          (∀ c, c ∈ r.prog.team → (s.core c).retired = false) →
          (∀ c, c ∈ r.prog.team → (s.core c).outOfService = false) → (r.prog.needsGroup = true → s.group.state = 3) →
          let late := r.launch ≠ 0 ∧ r.launch < s.beat.number
          ∃ u, exec (.runStart t) s = .next u ∧ u.live t = some { r with state := 1, lateLaunch := decide late }
            ∧ (∀ k, k ≠ t → u.live k = s.live k)
            ∧ u.counter Ctr.lateLaunches 0 = (if late then min (s.counter Ctr.lateLaunches 0 + 1) (2 ^ 64 - 1) else s.counter Ctr.lateLaunches 0)
            ∧ u = { s with runs := u.runs, counters := u.counters })
        ∧ ((r.state ≠ 0 ∨ teamBusy s r = true ∨ s.beat.number < r.launch ∨ (s.health.imionStopped = true ∧ r.launch = 0)) →
            exec (.runStart t) s = .next s)
        ∧ (runDone s r = true → ∃ u x, exec (.runEnd t) s = .next u ∧ u.live t = none ∧ x ∈ u.runs ∧ x.tag = t ∧ x.state = 3
            ∧ x.status = eOk ∧ x.endBeat = s.beat.number ∧ (∀ y, y ∈ u.streams → y.tag ≠ t) ∧ u.mem = s.mem)
        ∧ (runDone s r = false → exec (.runEnd t) s = .next s)
        ∧ (∀ st, r.stopping = some st → stopSettled s r = true → ∃ u x, exec (.runStopComplete t) s = .next u
            ∧ u.live t = none ∧ x ∈ u.runs ∧ x.tag = t ∧ x.state = 3 ∧ x.status = st ∧ x.endBeat = s.beat.number
            ∧ (∀ y, y ∈ u.streams → y.tag ≠ t) ∧ ((∀ p, p ∈ s.pushes → p.tag = t → p.begun = false) → u.mem = s.mem))
        ∧ ((r.stopping = none ∨ stopSettled s r = false) → exec (.runStopComplete t) s = .next s))
    ∧ (∀ (s : State) (t i p : Nat) (r : Run), s.live t = some r →
        (∀ ls, startable s r i p = true → startBlocks s r i p = [] →
            larderPlan (s.core (r.coreAt p)) (memReads s r i p).length = some ls →
            ∃ u x w, exec (.macroStart t i p) s = .next u ∧ findWalk u t i p = some (x, w) ∧ w.mi = i ∧ w.pos = p
              ∧ w.core = r.coreAt p ∧ w.startAt = s.now ∧ w.done = false
              ∧ x.startBeat = (if r.started.isEmpty then s.beat.number else r.startBeat) ∧ i ∈ x.started
              ∧ u.streams = s.streams ++ newStreams s r i p ls
              ∧ (∀ l, l < 2 → (∃ h, (l, h) ∈ ls) → (u.core (r.coreAt p)).larders.getD l none = some (t, i))
              ∧ (∀ c, c ≠ r.coreAt p → u.core c = s.core c)
              ∧ u = { s with runs := u.runs, streams := u.streams, cores := u.cores })
          ∧ ((startable s r i p = false ∨ startBlocks s r i p ≠ []) → exec (.macroStart t i p) s = .next s))
    ∧ (∀ (s : State) (t i p : Nat) (r : Run) (w : Walk), walkOf s t i p = some (r, w) → w.done = false →
        ((r.mrec i).opcode = opWaitBeat →
            (beatOf r (r.mrec i) ≤ s.beat.number → ∃ u x y, exec (.waitBeat t i p) s = .next u ∧ findWalk u t i p = some (x, y)
                ∧ y.done = true ∧ u.mem = s.mem)
              ∧ (s.beat.number < beatOf r (r.mrec i) → exec (.waitBeat t i p) s = .next s))
          ∧ ((r.mrec i).opcode = opFence →
              let want := if (r.mrec i).imm0 = 0 then 15 else (r.mrec i).imm0
              let all := (List.range i).all (fun j => scopeOf s r j &&& want == 0 || macroDone s r j)
              (all = true → ∃ u x y, exec (.fence t i p) s = .next u ∧ findWalk u t i p = some (x, y) ∧ y.done = true
                  ∧ u.mem = s.mem)
                ∧ (all = false → exec (.fence t i p) s = .next s)))

/-- R31, R32, R110, R117, R173, R203, R225: MATMUL, MATMUL_S24, SPMM_X, CONV_W, BWD_DATA and BWD_WEIGHT. Of a record without a
row mask and without a loft copy, the position's walk is formed from its work items in order, and nothing else of the machine
changes until they are read; a position with none has done its part. A second command for the same walk changes nothing.

R66, R69, R40: PRELOAD_START loads operand D into the FREE cellar tile that the walk's next item takes, which is then being
filled, and TILE_FIRST_READ accumulates an item, retries and all, in its cellar tile, which then awaits its drain with the
marks of its saturated elements and its retry count. Of the memories only the cellar changes, and nothing but the tile's
rows is written.

R68, R76, R201: TILE_DRAIN. The oldest filled tile of a walk whose turn it is, RAW, passes the epilogue: its elements are
narrowed into C's format and written where C lies, its status word is logged, and its cellar tile is free again. A tile whose
turn it is not, or that is not filled, is left alone; R179: one whose write path has not taken what came before waits. R75: one
with an uncorrectable cell fails its macro-instruction with E_DATA_LOST. -/
def Obligations.EnginesAndTiles : Prop :=
  (∀ (s : State) (t i p o : Nat) (c : Instr) (r : Run) (w : Walk) (us : List Nat), (o, c) ∈ engineCommands t i p →
      walkOf s t i p = some (r, w) → (r.mrec i).opcode = o → w.done = false →
      (w.set = false → (r.mrec i).granule = 0 → loftCopies r i = [] → emptyWindow (r.mrec i) (getView s r i p 0) = false →
          walkUnits s r i p = .ok us →
          (us ≠ [] → exec c s = .next (s.onWalk t i p (fun _ => { w with set := true, units := us, loftDone := true })))
            ∧ (us = [] → w.filling = [] → w.draining = [] → w.bufs = [] → w.pred = {} →
                ∃ u x y, exec c s = .next u ∧ findWalk u t i p = some (x, y) ∧ y.done = true ∧ u.mem = s.mem))
        ∧ (w.set = true → w.units ≠ [] → w.loftDone = true → exec c s = .next s))
    ∧ (∀ (s : State) (t i p : Nat) (r : Run) (w : Walk), walkOf s t i p = some (r, w) → w.set = true →
        (∀ u us vs, w.units = u :: us → w.filling = [] → plainEngine r i = true → (r.mrec i).flag 1 = true →
            u % (r.mrec i).split = 0 →
            let k := nextTile (r.mrec i) w
            tileFree s w.core k = true →
            let c := getView s r i p 2
            let o := outTile s r i p (u / (r.mrec i).split)
            let rows := List.range (c.rowsIn o.2.1)
            let s1 := reach s t i p [3] u
            preloadVals s1 c (preView s1 r i p u) (hiOf c o.1) o.2.1 o.2.2 rows (c.colsIn o.2.2) = .ok vs →
            let isInt := r.intClass (getView s r i p 0).d.format
            ∃ v x y, exec (.preloadStart t i p) s = .next v ∧ findWalk v t i p = some (x, y) ∧ y.units = us
              ∧ y.filling = [(u, k)] ∧ ((v.core w.core).tile k).state = 1
              ∧ v.mem = (putAccs s w.core k isInt rows (vs.map (fun r => r.map (fun v => if isInt then (preInt v).1 else preFloat 0 v)))).mem)
          ∧ (∀ u k j sl pace cs, upNext s t (r.mrec i) w = some (u, k) → plainEngine r i = true →
              (w.filling = [] → tileFree s w.core k = true ∧ ((r.mrec i).flag 1 = true → u % (r.mrec i).split ≠ 0)) →
              let s1 := reach s t i p [0, 1] u
              engineJob s1 r w u = .ok (j, sl) → itemPace s1 r w j u = .ok pace → itemCrates s1 r i p 1 u = .ok cs →
              let res := j.run ((r.mrec i).flag 0) 2 0 []
              ∃ v x y, exec (.tileFirstRead t i p) s = .next v ∧ findWalk v t i p = some (x, y) ∧ y.filling = []
                ∧ (u, k) ∈ y.draining ∧ ((v.core w.core).tile k).state = 2 ∧ ((v.core w.core).tile k).retry = res.n
                ∧ ((v.core w.core).tile k).isInt = j.isInt
                ∧ v.mem = (putAccs s w.core k j.isInt j.rows res.accs).mem))
    ∧ (∀ (s : State) (t i p item k : Nat) (rest : List (Nat × Nat)) (r : Run) (w : Walk), findWalk s t i p = some (r, w) →
        w.draining = (item, k) :: rest →
        let ct := (s.core w.core).tile k
        ((ct.filled = false ∨ drainsNext s w.core t i k = false) → exec (.tileDrain t i p) s = .next s)
          ∧ (∀ xs x, ct.filled = true → drainsNext s w.core t i k = true → (getView s r i p 2).d.form = 0 →
              drainCoords (reach s t i p [2, 3] item) r w item = .ok xs → x ∈ xs →
              cellarBad s w.core (cellAddr k x) 4 = true → r.stopping = none →
              ∃ u y, exec (.tileDrain t i p) s = .next u ∧ u.live t = some y ∧ y.stopping = some eDataLost ∧ y.failMi = i)
          ∧ (∀ xs vs l d, ct.filled = true → drainsNext s w.core t i k = true → (getView s r i p 2).d.form = 0 →
              (r.mrec i).opcode ≠ opBwdData →
              let s1 := reach s t i p [2, 3] item
              drainCoords s1 r w item = .ok xs → cellVals s1 w.core k xs = .ok vs → epilogue s1 r i p ct.retry vs = .ok l →
              drainTile s1 r w item ct l = .ok (.ok d) →
              (r.stopping.isSome = true → exec (.tileDrain t i p) s = .next (afterDrain d r w k))
                ∧ (r.stopping = none → unissued s1 t i p = false →
                    (pathFull (afterDrain d r w k) t i p = false ∨ (s1.core w.core).writes = []) →
                    exec (.tileDrain t i p) s = .next ((afterDrain d r w k).onWalk t i p (fun w => { w with held := false })))
                ∧ (r.stopping = none → unissued s1 t i p = true → w.held = true → exec (.tileDrain t i p) s = .next s1)
                ∧ (((afterDrain d r w k).core w.core).tile k).state = 0
                ∧ (afterDrain d r w k).mem = d.mem))

/-- R102 to R105: OUTPUT_COMPRESSOR packs the oldest finished tile of the walk into a crate and writes it into its slot of C,
where the write path has room (R179), and changes no other byte of memory; with no tile finished it changes nothing.

R100, R108, R204: CRATE_EXPAND of an intact crate changes nothing that software can see, and one whose crate is not intact
stops its run with E_DATA_LOST and counts the error; TURNED_LOAD takes the tiles of its reduction step into the turning
buffer, which holds the tiles of at most two steps, and changes nothing else. -/
def Obligations.CratesAndLoads : Prop :=
  (∀ (s : State) (t i p : Nat) (r : Run) (w : Walk), findWalk s t i p = some (r, w) →
      (w.bufs = [] → exec (.outputCompressor t i p) s = .next s)
        ∧ ∀ b rest v, w.bufs = b :: rest → r.stopping = none →
            let c := getView s r i p 2
            let hi := hiOf c b.plane
            let l := b.vals.map (fun x => (View.coords b.row b.col hi (x.1 / 64) (x.1 % 64), dec x.2, b.marks.contains x.1))
            let cells := (narrowCells c.d.format (blockDim c.d) l).1
            let crate := (cellsCrate c (bits b.status.toNat 8 8) hi b.row b.col cells).1
            let s1 := if 2 ≤ bufsHeld s w.core then s.onCore w.core (fun c => { c with bufFree := s.now }) else s
            writeCrate (s1.onWalk t i p (fun w => { w with bufs := rest })) c hi b.row b.col crate = .ok v →
              unissued s t i p = false → (s.core w.core).writes = [] →
              ∃ u, exec (.outputCompressor t i p) s = .next u ∧ IssueFrame v u)
    ∧ (∀ (s : State) (t i p : Nat) (r : Run) (w : Walk), walkOf s t i p = some (r, w) →
        (∀ op slot,
            let v := getView s r i p op
            v.d.form ≠ 0 → slot < v.d.planes * v.d.trows * v.d.tcols →
            let pl := slot / max (v.d.trows * v.d.tcols) 1
            let q := slot % max (v.d.trows * v.d.tcols) 1
            (∀ c, crateAt s v pl (q / max v.d.tcols 1) (q % max v.d.tcols 1) = .ok c → exec (.crateExpand t i p op slot) s = .next s)
              ∧ (crateAt s v pl (q / max v.d.tcols 1) (q % max v.d.tcols 1) = .error .crate →
                  ∃ u x, exec (.crateExpand t i p op slot) s = .next u ∧ u.live t = some x ∧ x.stopping = some eDataLost
                    ∧ x.failMi = i ∧ u = (failMacro s t i eDataLost).bump Ctr.crateErrors w.core 1))
          ∧ (∀ k, ((r.mrec i).opcode = opBwdWeight ∨ ((r.mrec i).opcode = opBwdData ∧ (r.mrec i).turn = true)) →
              k < ksteps s r i p →
              ∃ u, exec (.turnedLoad t i p k) s = .next u
                ∧ (∀ x, x ∈ turnedTiles (r.mrec i) (getView s r i p 0).d (getView s r i p 1).d k →
                    (turnedTiles (r.mrec i) (getView s r i p 0).d (getView s r i p 1).d k).length ≤ 4 → x ∈ (u.core w.core).turn)
                ∧ (u.core w.core).turn.length ≤ 4 ∧ (∀ c, c ≠ w.core → u.core c = s.core c) ∧ u = { s with cores := u.cores }))

/-- R162, R165, R166, R163: COPY, TRANSPOSE, PERMUTE and COMPRESS of a tensor onto another range. A position copies the
elements of its share: each element of C takes the value of its source under the opcode's map, clamped into the source, in
C's format, form and layout; the position is then done once its write path has taken every write (R179), and no byte of memory
changes but those of the elements written. A position with no share, or with a source of extent 0, writes nothing. R168: onto
its own tensor it swaps tiles, and where the two dimensions' extents differ, or those of A and C, it fails with E_OVERLAP.

R162, R166: the cells that a copy writes are those of its destination elements, each once and in order, and in one format
other than MX each code is its source's code.

R170, R172: GATHER and SCATTER_ADD on a position. GATHER writes, for each index of its share, the source group that the
clamped index names; SCATTER_ADD adds each update's group into the destination group that its clamped index names; the
position is then done once its write path has taken every write. A position with no share, or with nothing to read
or to add into, moves nothing. -/
def Obligations.Copies : Prop :=
  (∀ (s : State) (t i p o : Nat) (c : Instr) (r : Run) (w : Walk),
      (o, c) ∈ copyCommands t i p → walkOf s t i p = some (r, w) → (r.mrec i).opcode = o → w.done = false →
      (w.set = true →
          (unissued s t i p = true → exec c s = .next s)
            ∧ (unissued s t i p = false → ∃ u, exec c s = .next u ∧ WalkEnded u t i p ∧ IssueFrame s u))
        ∧ (w.set = false →
            let s1 := reach s t i p [0, 1, 2, 3] allItems
            let m := r.mrec i
            let a := getView s1 r i p 0
            let d := getView s1 r i p 2
            let own := inPlace m a.d d.d r.prog.team.length
            let unequal := (List.range d.d.rank).any (fun k => a.ex k != d.ex k) || d.ex (bits m.imm0 0 3) != d.ex (bits m.imm0 3 3)
            (own = true → unequal = true → exec c s = .next (failMacro s1 t i eOverlap))
              ∧ (∀ xs swaps, (own = false ∨ unequal = false) → copyTargets s1 r w = .ok (xs, swaps) →
                  ((xs = [] ∨ emptySource a = true) → ∃ u, exec c s = .next u ∧ WorkEnded s u t i p)
                    ∧ (∀ cells fl n v k f b, xs ≠ [] → emptySource a = false → copyCells s1 m a d xs = .ok (cells, fl, n) →
                        writeCells s1 d 0 cells = .ok (v, k, f, b) → v.live t = some r →
                        ∃ u, exec c s = .next u ∧ WorkEnded v u t i p))))
    ∧ (∀ (s : State) (m : MRec) (a c : View) (xs : List (List Nat)) (cells : List OutCell) (fl n : Nat),
        copyCells s m a c xs = .ok (cells, fl, n) → a.d.format = c.d.format → fmtMx c.d.format = false →
          cells.map (fun e => e.1) = xs ∧ n = (xs.filter (fun x => (srcClamped m a x).2)).length
            ∧ ∃ cs, codesAt s a (xs.map (fun x => (srcClamped m a x).1)) = .ok cs
                ∧ cells.map (fun e => e.2.1) = cs.map (fun x => (x.getD (0, 127)).1))
    ∧ (∀ (s : State) (t i p : Nat) (r : Run) (w : Walk) (us : List Nat) (js : List (Nat × Int)),
        walkOf s t i p = some (r, w) → w.done = false → w.set = false →
        let s1 := reach s t i p [0, 1, 2, 3] allItems
        walkUnits s1 r i p = .ok us →
        us.mapM (fun j => do let x ← indexAt s1 (getView s1 r i p 3) j; Except.ok (j, x)) = .ok js →
        let g := (r.mrec i).group
        let a := getView s1 r i p 0
        let c := getView s1 r i p 2
        ((r.mrec i).opcode = opGather →
            ((js = [] ∨ a.count = 0) → ∃ u, exec (.gather t i p) s = .next u ∧ WorkEnded s u t i p)
              ∧ (∀ cs v k f b, js ≠ [] → a.count ≠ 0 →
                  let es := js.flatMap (fun j => gatherGroup g a c j.1 j.2)
                  codesAt s1 a (es.map (fun e => e.2.1)) = .ok cs →
                  writeCells s1 c 0 (gatherCells s1 g a c ((es.map (fun e => e.1)).zip cs)).1 = .ok (v, k, f, b) →
                  v.live t = some r → ∃ u, exec (.gather t i p) s = .next u ∧ WorkEnded v u t i p))
          ∧ ((r.mrec i).opcode = opScatter →
              ((js = [] ∨ cdiv c.count g = 0) → ∃ u, exec (.scatterAdd t i p) s = .next u ∧ WorkEnded s u t i p)
                ∧ (∀ vs v, js ≠ [] → cdiv c.count g ≠ 0 →
                    let es := js.flatMap (fun j => (scatterGroup g a c j.1 (clampIdx (cdiv c.count g) j.2).1).1)
                    valsAt s1 a (es.map (fun e => e.2)) = .ok vs →
                    addPairs s1 c ((es.map (fun e => e.1)).zip (vs.map (fun x => BitVec.ofNat 32 (narrow 0x10 false x).1))) = .ok v →
                    v.live t = some r → ∃ u, exec (.scatterAdd t i p) s = .next u ∧ WorkEnded v u t i p)))

/-- R219, R220, R222: ROWOP and ROWOP_BWD of a row function, without a loft copy. A position computes every row of its share
from the operands as they stand, then writes the rows, and with a ROWOP their statistics, and is done once its write path has
taken every write (R179); nothing else of the memories changes.

R228, R230, R231: the fused update. A ROWOP update that is chained to no push updates all its rows and is done; one
chained to a push forms its slices, and UPDATE_SLICE updates the rows of the next slice once the reducer has written it, and
waits until then. -/
def Obligations.RowsAndUpdates : Prop :=
  (∀ (s : State) (t i p : Nat) (r : Run) (w : Walk) (us : List Nat) (rows : List (Nat × List Val × Val × Val × Bool)),
      walkOf s t i p = some (r, w) → w.done = false → w.set = false → loftCopies r i = [] →
      let s1 := reach s t i p [0, 1, 2, 3] allItems
      walkUnits s1 r i p = .ok us → us.mapM (fun u => do let y ← computeRow s1 r w u; Except.ok (u, y)) = .ok rows →
      ((r.mrec i).opcode = opRowop → funcUpdate (r.mrec i).func = false →
          ∀ v fl, rows.foldlM (fun (acc : State × Nat) x => do
              let (t1, f) ← writeRow acc.1 r w x.1 x.2.1 x.2.2.2.2
              let t2 ← writeStats t1 r w x.1 x.2.2.1 x.2.2.2.1
              Except.ok (t2, acc.2 ||| f)) (s1, 0) = .ok (v, fl) → v.live t = some r →
            ∃ u, exec (.rowop t i p) s = .next u ∧ WorkEnded v u t i p)
        ∧ ((r.mrec i).opcode = opRowopBwd →
            ∀ v fl, rows.foldlM (fun (acc : State × Nat) x => do
                let (t1, f) ← writeRow acc.1 r w x.1 x.2.1 x.2.2.2.2
                Except.ok (t1, acc.2 ||| f)) (s1, 0) = .ok (v, fl) → v.live t = some r →
              ∃ u, exec (.rowopBwd t i p) s = .next u ∧ WorkEnded v u t i p))
    ∧ (∀ (s : State) (t i p : Nat) (r : Run) (w : Walk), walkOf s t i p = some (r, w) → w.done = false →
        (r.mrec i).opcode = opRowop → funcUpdate (r.mrec i).func = true →
        (chainOf r i = none → w.set = false → ∀ us v,
            let s1 := reach s t i p [0, 1, 2, 3] allItems
            walkUnits s1 r i p = .ok us → updateRows s1 r w us = .ok (.ok v) →
            (v.live t).bind (fun x => x.walk i p) = some w → ∃ u, exec (.rowop t i p) s = .next u ∧ WorkEnded v u t i p)
          ∧ (∀ j g, chainOf r i = some j → ownPush s t j = some g → w.set = false →
              let us := shareList (sliceCount (getView s r i p 0)) r.prog.team.length p
              us ≠ [] →
              exec (.rowop t i p) s = .next (s.onWalk t i p (fun w => { w with set := true, units := us, loftDone := true })))
          ∧ (∀ j g k us v, chainOf r i = some j → ownPush s t j = some g → w.set = true → w.units = k :: us →
              k ∈ g.written →
              let rows := sliceRowNos (getView s r i p 0) k
              let s1 := reach s t i p [0, 2, 3] (rows.foldl max 0)
              updateRows s1 r w rows = .ok (.ok v) → unissued s t i p = false → (s.core w.core).writes = [] →
              ∃ u, exec (.updateSlice t i p) s = .next u ∧ IssueFrame v u)
          ∧ (∀ j g k us, chainOf r i = some j → ownPush s t j = some g → w.units = k :: us → (w.set = false ∨ k ∉ g.written) →
              exec (.updateSlice t i p) s = .next s)
          ∧ ((w.units = [] ∨ (chainOf r i).bind (ownPush s t) = none) → exec (.updateSlice t i p) s = .next s))

/-- R118: MERGE_KTILE on a unit at work. With the items of at most one K tile waiting it takes the next K tile: one of which
the header of A's or of B's crate states no nonzero element is skipped and counted; else A's items join the feed; with the
items of two K tiles waiting it changes nothing. LIST_STORE_LOAD loads a lane's next list from its row of B's crate into
the free one of its two stores, and none when both are taken or the lane is ahead.

R119, R120: BROADCASTER_PUSH puts the next item into all 64 hampers when every one has a free entry, and counts a full or
an empty cycle otherwise. LANE_ACTION takes one action on the head of a lane's hamper: a row end closes the row's pairs; an
item that meets its partner makes a pair; the lesser of two positions is passed over; and a lane without an item, or without
a list, counts a wait. No memory changes.

R121: MERGE_ROW_ADD waits until all 64 lanes have their results for the next row, and changes nothing until then; then
the row's sums go into the cellar row, and the results are taken. R75: an uncorrectable cell of the row fails the
macro-instruction with E_DATA_LOST. -/
def Obligations.MergePath : Prop :=
  (∀ (s : State) (core : Nat) (r : Run) (w : Walk),
      let u := mergeOf s core false
      let v := mergeOf s core true
      mergeWalk s u = some (r, w) →
      let m := r.mrec w.mi
      let a := getView s r w.mi w.pos 0
      let c := getView s r w.mi w.pos 2
      let o := outTile s r w.mi w.pos (u.item / m.split)
      (v.active = false → u.allPushed = false → u.mayRead = false → exec (.mergeKtile core) s = .next s)
        ∧ (v.active = false → u.mayRead = true → u.kt + 1 < u.ktEnd → s.rots = [] → w.core = core →
            let s1 := reach s r.tag w.mi w.pos [0, 1] u.item
            ∀ x y, mergeCount s1 r w.mi w.pos 0 (hiOf c o.1) o.2.1 u.kt = .ok x →
              mergeCount s1 r w.mi w.pos 1 (hiOf c o.1) o.2.2 u.kt = .ok y →
              ((x = 0 ∨ y = 0) → exec (.mergeKtile core) s = .next
                  ((s1.onMerge core false (fun u => { u with kt := u.kt + 1 })).bump Ctr.mergeSkippedKtiles core 1))
                ∧ (∀ z, x ≠ 0 → y ≠ 0 → mergeCrate s1 r w.mi w.pos 0 (hiOf c o.1) o.2.1 u.kt = .ok (some z) →
                    exec (.mergeKtile core) s = .next (s1.onMerge core false (fun u => { u with
                      kt := u.kt + 1, rowsAt := u.rowsAt ++ [u.kt], feed := u.feed ++ feedItems a z o.2.1 u.kt (c.rowsIn o.2.1) }))))
        ∧ (∀ lane, (64 ≤ lane ∨ 2 ≤ u.held lane + v.held lane) → exec (.listStoreLoad core lane) s = .next s)
        ∧ (∀ lane, u.rowsAt.length ≤ u.laneKt.getD lane 0 + u.held lane → (u.allRead = false ∨ v.active = false) →
            exec (.listStoreLoad core lane) s = .next s)
        ∧ (∀ lane x kt, lane < 64 → u.held lane = 0 → v.held lane < 2 → u.rowsAt[u.laneKt.getD lane 0]? = some kt →
            let b := getView s r w.mi w.pos 1
            64 * o.2.2 + lane < b.ex 1 → mergeCrate s r w.mi w.pos 1 (hiOf c o.1) o.2.2 kt = .ok (some x) →
            exec (.listStoreLoad core lane) s = .next (s.onMerge core false (fun u => { u with
              lists := u.lists.set lane (some (laneEntries b.d.format x lane (min (a.ex 0) (b.ex 0) - 64 * kt))) }))))
    ∧ (∀ (s : State) (core : Nat) (r : Run) (w : Walk),
        let u := mergeOf s core false
        let held := fun (l : Nat) => (u.hampers.getD l []).length + ((mergeOf s core true).hampers.getD l []).length
        mergeWalk s u = some (r, w) →
        (∀ x rest, u.feed = x :: rest → (∀ l, l < 64 → held l < 64) →
            let t := s.onMerge core false (fun u => { u with feed := rest, hampers := u.hampers.map (fun h => h ++ [x]) })
            exec (.broadcasterPush core) s = .next (if rest = [] ∧ u.allRead = true then
                t.onWalk r.tag w.mi w.pos (fun w => { w with lastRead := s.now }) else t))
          ∧ (∀ x rest l, u.feed = x :: rest → l < 64 → 64 ≤ held l →
              exec (.broadcasterPush core) s = .next (s.bump Ctr.mergeFullCc core 1))
          ∧ (u.feed = [] → u.kt < u.ktEnd → exec (.broadcasterPush core) s = .next (s.bump Ctr.mergeFeedCc core 1))
          ∧ (∀ lane, lane < 64 → laneDone u lane = false →
              (u.hampers.getD lane [] = [] → exec (.laneAction core lane) s = .next (s.bump Ctr.mergeStarveCc core 1))
                ∧ (∀ x rest, u.hampers.getD lane [] = x :: rest → u.lists.getD lane none = none →
                    exec (.laneAction core lane) s = .next (s.bump Ctr.mergeListWaitCc core 1))
                ∧ (∀ pos val rest list, lane < u.results.length → lane < u.kept.length → lane < u.laneRow.length →
                    u.hampers.getD lane [] = (1, pos, val) :: rest → u.lists.getD lane none = some list →
                    ∃ t, exec (.laneAction core lane) s = .next t ∧ t.mem = s.mem
                      ∧ let y := mergeOf t core false
                        y.results.getD lane [] =
                            u.results.getD lane [] ++ [(u.laneKt.getD lane 0, u.laneRow.getD lane 0, u.kept.getD lane [])]
                          ∧ y.kept.getD lane [] = [] ∧ y.laneRow.getD lane 0 = u.laneRow.getD lane 0 + 1)
                ∧ (∀ pos val rest list p v, lane < u.hampers.length → lane < u.laneJ.length → lane < u.kept.length →
                    u.hampers.getD lane [] = (0, pos, val) :: rest → u.lists.getD lane none = some list →
                    list[u.laneJ.getD lane 0]? = some (p, v) →
                    ∃ t, exec (.laneAction core lane) s = .next t ∧ t.mem = s.mem
                      ∧ let y := mergeOf t core false
                        y.kept.getD lane [] = u.kept.getD lane [] ++ (if pos = p then [(val, v)] else [])
                          ∧ y.hampers.getD lane [] = (if pos ≤ p then rest else (0, pos, val) :: rest)
                          ∧ y.laneJ.getD lane 0 = u.laneJ.getD lane 0 + (if p ≤ pos then 1 else 0))))
    ∧ (∀ (s : State) (core : Nat) (r : Run) (w : Walk),
        let u := mergeOf s core false
        mergeWalk s u = some (r, w) →
        let c := getView s r w.mi w.pos 2
        let o := outTile s r w.mi w.pos (u.item / (r.mrec w.mi).split)
        let ready := ∀ l, l ∈ u.results → ∃ p rest, l = (u.addKt, u.addRow, p) :: rest
        let prods := u.results.map (fun l => match l.head? with
          | some (_, _, p) => p
          | none => [])
        let out := addRow s r w u u.addRow prods (c.colsIn o.2.2)
        let last := u.addRow + 1 = c.rowsIn o.2.1
        let bad := cellarBad s core (u.ctile * 16384 + u.addRow * 256) (4 * c.colsIn o.2.2)
        (¬ ready → exec (.mergeRowAdd core) s = .next s)
          ∧ (∀ q, ready → bad = true → s.live r.tag = some q → q.stopping = none →
              ∃ t y, exec (.mergeRowAdd core) s = .next t ∧ t.live r.tag = some y ∧ y.stopping = some eDataLost ∧ y.failMi = w.mi)
          ∧ (ready → bad = false → out.any (fun x => x.2.1) = false →
              (u.kt < u.ktEnd ∨ u.addKt + 1 < u.rowsAt.length ∨ (u.addKt < u.rowsAt.length ∧ ¬ last)) →
              ∃ t, exec (.mergeRowAdd core) s = .next t
                ∧ t.mem = (putRow s core u.ctile u.addRow (out.map (fun x => accCode ((s.core core).tile u.ctile).isInt x.1))).mem
                ∧ (mergeOf t core false).addRow = (if last then 0 else u.addRow + 1)
                ∧ (mergeOf t core false).addKt = (if last then u.addKt + 1 else u.addKt)
                ∧ (mergeOf t core false).results = u.results.map (fun l => l.drop 1)
                ∧ t = { s with mem := t.mem, cores := t.cores }))

/-- R127, R130, R141: PREDICT. In DENSE mode the whole mask is written as kept and the position is done; in the other modes
the layer's input is quantised and the position's groups await their decisions, and no byte of memory changes.

R128 to R138: PREDICTOR_GROUP. Unless a complete kept tile waits, the next group's rows are decided: their mask bits are
written, kept rows join the kept list, and skipped ones are audited or become rows to zero; with the last group the position's
PREDICT is done.

R131 to R137: the rows of a governed record. ZERO_ROW_WRITE writes +0 into the skipped rows of one group in every token
row; PACKED_TILE waits while its cellar tile is not FREE or no packed tile is complete; either waits while the write path has not
taken what came before (R179); GOVERNED_RELEASE ends the record's
part once every row of its units is written, and changes nothing before. -/
def Obligations.Predictor : Prop :=
  (∀ (s : State) (t i p : Nat) (r : Run) (w : Walk) (us : List Nat), walkOf s t i p = some (r, w) → w.done = false →
      w.set = false → (r.mrec i).opcode = opPredict → walkUnits s r i p = .ok us →
      ((r.mrec i).pmode = 0 → ∀ v,
          writeMask (noteLayer s r i) r i p ((us.flatMap (groupRows (noteLayer s r i) r i p)).map (fun x => (x, true))) = .ok v →
          (v.live t).isSome = true → (v.live t).bind (fun x => x.walk i p) = some w →
          ∃ u, exec (.predict t i p) s = .next u ∧ WalkEnded u t i p ∧ IssueFrame v u)
        ∧ (∀ q, (r.mrec i).pmode ≠ 0 → us ≠ [] →
            let s1 := reach (noteLayer s r i) t i p [0] allItems
            quantise s1 r i p = .ok q →
            let u := s1.onWalk t i p (fun w => { w with set := true, pred := { q with groups := us } })
            exec (.predict t i p) s = .next u ∧ u.mem = s.mem))
    ∧ (∀ (s : State) (t i p g : Nat) (gs : List Nat) (r : Run) (w : Walk), walkOf s t i p = some (r, w) → w.done = false →
        (r.mrec i).opcode = opPredict → w.set = true → w.pred.groups = g :: gs →
        ((keptTile r i p w.pred 1 ≠ [] ∨ keptTile r i p w.pred 2 ≠ [] ∨ unissued s t i p = true) →
            exec (.predictorGroup t i p) s = .next s)
          ∧ (∀ (ds : List (Nat × Bool × Bool × Nat)) v, keptTile r i p w.pred 1 = [] → keptTile r i p w.pred 2 = [] →
              unissued s t i p = false →
              let s1 := reach s t i p [1] g
              (groupRows s1 r i p g).mapM (fun x => do
                let bl ← sketchRow s1 (getView s1 r i p 1) (predK s1 r i p) x
                let k ← keepRow s1 r w x bl
                Except.ok (x, k.1, k.2, (bl.map (fun (y : Nat × List Nat × Val) => (y.2.1.filter (fun c => c == 2)).length)).sum)) = .ok ds →
              writeMask s1 r i p (ds.map (fun d => (d.1, d.2.1))) = .ok v → v.live t = some r →
              ∃ u x y, exec (.predictorGroup t i p) s = .next u ∧ u.mem = v.mem ∧ findWalk u t i p = some (x, y)
                ∧ y.pred.groups = gs ∧ (y.done = true ↔ gs = [])
                ∧ y.pred.kept = w.pred.kept ++ (ds.filter (fun d => d.2.1)).map (fun d => d.1)
                ∧ (∀ d, d ∈ ds → d.2.1 = false → d.1 ∈ y.pred.audit ∨ d.1 ∈ y.pred.toZero)))
    ∧ (∀ (s : State) (t i p g : Nat) (r : Run) (w : Walk) (q : PredState), govWalk s t i p = some (r, w, g, q) →
        ((zeroRows r g q (i - g) = [] ∨ unissued s t i p = true) → exec (.zeroRowWrite t i p) s = .next s)
          ∧ (∀ v, zeroRows r g q (i - g) ≠ [] → unissued s t i p = false →
              commitRows s r g (i - g) w (zeroRows r g q (i - g)) ((zeroRows r g q (i - g)).flatMap (fun x =>
                (List.range ((getView s r i p 2).rowsIn 0)).map (fun j => (x, j, Val.zero, false)))) = .ok v →
              exec (.zeroRowWrite t i p) s = .next (v.bump Ctr.zeroRows w.core (zeroRows r g q (i - g)).length))
          ∧ (let rows := if keptTile r g p q (i - g) = [] then auditTile r g p q (i - g) else keptTile r g p q (i - g)
             (tileFree s w.core (nextTile (r.mrec i) w) = false ∨ rows = [] ∨ unissued s t i p = true →
                 exec (.packedTile t i p) s = .next s)
               ∧ (∀ ps v, tileFree s w.core (nextTile (r.mrec i) w) = true → rows ≠ [] → unissued s t i p = false →
                   let s1 := reach s t i p [0, 1, 2, 3] allItems
                   ((rows.map (fun x => x / 64)).eraseDups).mapM (packPart s1 r w rows) = .ok ps →
                   let k := nextTile (r.mrec i) w
                   let a := (putPacked (countPacked s1 r w rows ps) w k ps).onTile w.core k (fun _ => { releasedAt := s.now })
                   drainPacked (a.onWalk t i p (fun w => { w with count := w.count + 1 })) r w g q
                     (decide (keptTile r g p q (i - g) ≠ [])) rows ps = .ok (.ok v) →
                   ∃ u, exec (.packedTile t i p) s = .next u ∧ u.mem = v.mem ∧ u = noteReaders (endGovReads v t g p) r i p))
          ∧ (let done := w.loftDone && w.units.all (fun u => (List.range ((getView s r i p 2).colsIn u)).all (fun j =>
               q.did (i - g) (64 * u + j)))
             (done = true → ∃ u, exec (.governedRelease t i p) s = .next u ∧ WalkEnded u t i p ∧ u.mem = s.mem)
               ∧ (done = false → exec (.governedRelease t i p) s = .next s)))

/-- R178, R180, R188 to R190: HALF_FILL. A free half of a read stream whose run issues is filled from the head of its plan; the
page of its first transfer being one that serves no read, the stream halts there: the run pauses, the halt is kept with its
page and reason, and no byte of memory changes. A stream that is halted, that has no free half, or has nothing left to fetch,
is left alone; R181: one of crates whose headers are all taken up waits while one of them has not landed.

R178, R188, R192, R305: TRANSFER_LAND. A read to be discarded leaves only its own entry; one that lands puts its bytes into the
half of its stream, which is ready when every byte placed in it has landed; one that a peer or host did not serve halts its
stream, and the run pauses; a local one waits while DDR does not serve it, and one whose data is lost stops its run with
E_DATA_LOST.

R172, R179, R305: WRITE_COMPLETE. A write that overlaps one issued before it waits, and so does a local one while DDR does not
serve it; a local one that is served puts its bytes, or its sums, into DDR; either way the write leaves its core's write path,
whose room later writes take; one that DDR cannot take stops its run with E_DATA_LOST; one that its peer or host does not serve
goes back to the head of its stream, which halts. -/
def Obligations.Streams : Prop :=
  (∀ (s : State) (t i p op : Nat) (r : Run) (x : Stream), s.live t = some r → readStream s t i p op = some x → x.planned = true →
      let raw := (getView s r i p op).d.form = 0
      ((x.halted.isSome = true ∨ runIssues s r p = false ∨ nextHalf x = none ∨ (x.plan = [] ∧ (raw ∨ (x.pay = [] ∧ x.heads = [])))
            ∨ (¬ raw ∧ x.heads ≠ [] ∧ (takeFill x.halfSize x.pay).2 = [])) →
          exec (.halfFill t i p op) s = .next s)
        ∧ (∀ h, x.halted = none → runIssues s r p = true → nextHalf x = some h →
            let q := takeFill x.halfSize x.plan
            ∃ u, exec (.halfFill t i p op) s = .next u ∧ u.mem = s.mem
              ∧ (raw → q.1 ≠ [] → u = fillHalf s { x with plan := q.2 } h q.1) ∧ (¬ raw → u = fillCrated s x h))
        ∧ (∀ h w a n rest why, x.halted = none → x.plan = (w, a, n) :: rest → runIssues s r p = true → nextHalf x = some h →
            raw → n ≤ x.halfSize → haltReason s (pageOf a) false false = some why →
            ∃ u y, exec (.halfFill t i p op) s = .next u ∧ u.live t = some y ∧ y.state = 2
              ∧ y.halts = r.halts ++ [{ mi := x.mi, position := x.pos, operand := x.operand, page := pageOf a, reason := why }]
              ∧ u.xfers = s.xfers ∧ u.mem = s.mem))
    ∧ (∀ (s : State) (id : Nat) (f : Xfer), s.xfers.find? (fun f => f.id == id) = some f →
        let s1 := { s with xfers := s.xfers.filter (fun y => y.id != id) }
        (∀ d, f.kind ≠ 1 → f.discard = true → exec (.transferLand id d) s = .next s1)
          ∧ (∀ x r, f.discard = false → s.live f.tag = some r → r.stopping = none →
              s.streams.find? (fun x => x.tag == f.tag && x.mi == f.mi && x.core == f.core && x.operand == f.operand && !x.write) = some x →
              (∀ b, f.kind ≠ 1 → (f.kind ≠ 3 ∨ qpUp s f.peer = true) → exec (.transferLand id (some b)) s =
                  .next (landBytes s1 (getView s1 r f.mi x.pos f.operand).d x f (slice b 0 f.len)))
                ∧ (∀ d, f.kind = 1 → ddrBusy s f.target f.len false = true → exec (.transferLand id d) s = .next s)
                ∧ (∀ b d, f.kind = 1 → ddrBusy s f.target f.len false = false → ddrRead s f.target f.len = some b →
                    exec (.transferLand id d) s = .next (landBytes { countRead s f.target f.len with xfers := s1.xfers }
                      (getView s1 r f.mi x.pos f.operand).d x f (slice b 0 f.len)))
                ∧ (∀ d, f.kind ≠ 1 → (d = none ∨ (f.kind = 3 ∧ qpUp s f.peer = false)) → x.halted = none →
                    ∃ u y, exec (.transferLand id d) s = .next u ∧ u.live f.tag = some y ∧ y.state = 2 ∧ u.mem = s.mem)
                ∧ (∀ d, f.kind = 1 → ddrBusy s f.target f.len false = false → ddrRead s f.target f.len = none → ∃ u y, exec (.transferLand id d) s = .next u
                    ∧ u.live f.tag = some y ∧ y.stopping = some eDataLost ∧ y.failMi = f.mi)))
    ∧ (∀ (s : State) (core id : Nat) (ok : Bool) (f : Xfer), (s.core core).writes.find? (fun f => f.id == id) = some f →
        let before := (s.core core).writes.takeWhile (fun y => y.id != id)
        let clash := before.any (fun y => y.kind == f.kind && y.peer == f.peer && overlap y.target y.len f.target f.len)
        let off := fun (v : State) => v.onCore core (fun c => { c with writes := c.writes.filter (fun y => y.id != id) })
        let busy := ddrBusy s f.target f.len true
        ((clash = true ∨ (f.kind = 1 ∧ busy = true)) → exec (.writeComplete core id ok) s = .next s)
          ∧ (∀ v, clash = false → f.kind = 1 → busy = false → applyWrite s f = (v, true) →
              ∃ u, exec (.writeComplete core id ok) s = .next u ∧ u = issueWrites (off v) ∧ u.mem = v.mem)
          ∧ (∀ v, clash = false → f.kind = 1 → busy = false → applyWrite s f = (v, false) →
              exec (.writeComplete core id ok) s = .next (failMacro (off v) f.tag f.mi eDataLost))
          ∧ (clash = false → f.kind ≠ 1 → ok = true → (f.kind ≠ 3 ∨ qpUp s f.peer = true) →
              ∃ u, exec (.writeComplete core id ok) s = .next u ∧ u = issueWrites (off s) ∧ u.mem = s.mem)
          ∧ (∀ x r, clash = false → f.kind ≠ 1 → (ok = false ∨ (f.kind = 3 ∧ qpUp s f.peer = false)) → s.live f.tag = some r → r.stopping = none → x.halted = none →
              s.streams.find? (fun x => x.tag == f.tag && x.mi == f.mi && x.core == f.core && x.operand == f.operand && x.write) = some x →
              ∃ u y, exec (.writeComplete core id ok) s = .next u ∧ u.live f.tag = some y ∧ y.state = 2 ∧ u.mem = s.mem))

/-- R193, R194: ROTATE reads its schedule and starts the rotation when the schedule passes its checks; one that fails them
stops the run with the check's status, and one of no steps is done at once.

R195, R196: the steps of a rotation. ROTATE_STEP does nothing before the step's beat or while its buffer does not hold its
slice, and else advances the step, a step without successors sending nothing. ROTATE_RECEIVE of a slice that the predecessor on
this device sends puts it into the buffer that is free for it and completes the receive, waits while that is not free, and
refuses, and counts, a slice of another core or of another size. A piece of a slice that comes over a link is written into the
buffer when its step's receive has its turn and the buffer is free, waits until then, and is refused when it is not the
predecessor's. ROTATE_STALL_LIMIT stops the run with E_LATE when the next step's buffer still lacks its slice at the stall limit.

R195, R197: an access of another macro-instruction to a rotation's buffer. One that touches none changes nothing; a write
stops its run with E_OVERLAP; a read that must wait is noted and changes nothing else, one that comes too late stops its run with
E_LATE, and else the buffers are noted as being read. -/
def Obligations.Rotation : Prop :=
  (∀ (s : State) (t i p : Nat) (r : Run) (w : Walk), walkOf s t i p = some (r, w) → w.done = false → w.set = false →
      (r.mrec i).opcode = opRotate →
      let v := getView s r i p 0
      (v.ex 0 < 8 + 8 * r.prog.team.length → ∃ u x, exec (.rotate t i p) s = .next u ∧ u.live t = some x
          ∧ x.stopping = some ePlan ∧ x.failMi = i)
        ∧ (∀ h e, 8 + 8 * r.prog.team.length ≤ v.ex 0 → schedule s v p = .ok (h, e) →
            (∀ st, schedStatus s r.prog h e = some st → ∃ u x, exec (.rotate t i p) s = .next u ∧ u.live t = some x
                ∧ x.stopping = some st ∧ x.failMi = i)
              ∧ (schedStatus s r.prog h e = none → field h 4 2 = 0 → ∃ u, exec (.rotate t i p) s = .next u ∧ WalkEnded u t i p
                  ∧ u.rots = s.rots)
              ∧ (schedStatus s r.prog h e = none → field h 4 2 ≠ 0 → ∃ u, exec (.rotate t i p) s = .next u
                  ∧ u.rots = s.rots ++ [newRot r w h e] ∧ u.mem = s.mem)))
    ∧ (∀ (s : State) (t i p : Nat) (x : Rot), rotAt s t i p = some x →
        (∀ r w, walkOf s t i p = some (r, w) →
            ((x.steps ≤ x.step ∨ s.beat.number < x.beatAt x.step ∨ x.holds x.step = false) →
                exec (.rotateStep t i p) s = .next s)
              ∧ (x.step + 1 < x.steps → x.beatAt x.step ≤ s.beat.number → x.holds x.step = true → x.succ = [] →
                  exec (.rotateStep t i p) s = .next (setRot s { x with step := x.step + 1 }))
              ∧ (x.step < x.steps → x.beatAt x.step ≤ s.beat.number → x.holds x.step = true → x.succ ≠ [] →
                  w.core < 65536 →
                  ∃ u, exec (.rotateStep t i p) s = .next u
                    ∧ u.counter Ctr.rotateSteps w.core = min (s.counter Ctr.rotateSteps w.core + 1) (2 ^ 64 - 1)
                    ∧ u.mem = s.mem))
          ∧ (∀ rank core step, x.awaits rank core step = false → exec (.rotateReceive t i p rank core step) s = .next s)
          ∧ (∀ rank core step, x.awaits rank core step = true →
             let near := s.mcs.filter (fun m => m.rotate && m.children.any (fun c =>
               c.rank == 0xFFFF && c.core == x.core && !c.failed && !m.chunks.all (fun k => c.acked.contains k)))
             s.rotHeld = [] →
             (near = [] → x.catchUp = [] → exec (.rotateReceive t i p rank core step) s = .next s)
               ∧ (∀ m rest, near = m :: rest → x.pred = some (0xFFFF, m.core) → m.bytes m.chunks = x.sliceBytes →
                   ((m.step ≠ x.received ∨ x.ready s = false) → exec (.rotateReceive t i p rank core step) s = .next s)
                     ∧ (∀ d, m.step = x.received → x.ready s = true → x.received + 1 < x.steps →
                         shelfRead s m.core m.base x.sliceBytes = some d →
                         ∃ u y, exec (.rotateReceive t i p rank core step) s = .next u
                           ∧ u.mem = (shelfWrite s x.core (x.buf.getD x.inBuf 0) d).1.mem
                           ∧ rotAt u t i p = some y ∧ y.received = x.received + 1
                           ∧ y.tags = x.begin.tags ∧ y.complete = x.begin.complete.set x.inBuf true))
               ∧ (∀ m rest, near = m :: rest → (x.pred ≠ some (0xFFFF, m.core) ∨ m.bytes m.chunks ≠ x.sliceBytes) →
                   m.core < 65536 →
                   ∃ u, exec (.rotateReceive t i p rank core step) s = .next u ∧ u.mem = s.mem
                     ∧ u.counter Ctr.rotateRefused m.core = min (s.counter Ctr.rotateRefused m.core + 1) (2 ^ 64 - 1)))
          ∧ ((x.beatAt x.step + x.stallLimit ≤ s.beat.number → x.holds x.step = false →
                exec (.rotateStallLimit t i p) s = .next (failMacro s t i eLate))
              ∧ ((s.beat.number < x.beatAt x.step + x.stallLimit ∨ x.holds x.step = true) →
                  exec (.rotateStallLimit t i p) s = .next s)))
    ∧ (∀ (s : State) (h0 : Hdr) (a g : Nat) (d : List Byte) (x : Rot),
        let h := { h0 with address := a, tag := g }
        h.dest = s.group.rank → s.group.epoch ≤ h.epoch → inView s = true →
        h.space = 1 → h.length = d.length → 32 ≤ d.length → d.length ≤ 4096 → rotOf s (pieceCore h) = some x →
        (x.accepts h d.length = false → exec (.mcData h0 a g d) s = .next (refusePiece s h))
          ∧ (x.accepts h d.length = true → (pieceStep h ≠ x.received % 256 ∨ x.ready s = false) →
              exec (.mcData h0 a g d) s = .next { s with rotHeld := s.rotHeld ++ [(h, d)] })
          ∧ (x.accepts h d.length = true → pieceStep h = x.received % 256 → x.ready s = true →
              (∀ y, y ∈ x.begin.got → y.1 ≠ pieceOff h) →
              ∃ u, exec (.mcData h0 a g d) s = .next u ∧ u.mem = (shelfWrite s x.core (x.buf.getD x.inBuf 0 + pieceOff h) d).1.mem))
    ∧ (∀ (s : State) (t i p off len : Nat) (r : Run) (w : Walk), walkOf s t i p = some (r, w) →
        let hit := rotsOn s t i w.core off len
        (∀ b, hit = [] → exec (.rotateBufferRead t i p off len b) s = .next s)
          ∧ (hit ≠ [] → ∃ u x, exec (.rotateBufferRead t i p off len true) s = .next u ∧ u.live t = some x
              ∧ x.stopping = some eOverlap ∧ x.failMi = i)
          ∧ (hit ≠ [] → hit.findSome? (rotRead s t i) = some .late →
              ∃ u x, exec (.rotateBufferRead t i p off len false) s = .next u ∧ u.live t = some x
                ∧ x.stopping = some eLate ∧ x.failMi = i)
          ∧ (hit ≠ [] → hit.findSome? (rotRead s t i) = some .wait →
              ∃ u, exec (.rotateBufferRead t i p off len false) s = .next u ∧ u = { s with rots := u.rots, runs := u.runs })
          ∧ (hit ≠ [] → hit.findSome? (rotRead s t i) = none →
              ∃ u, exec (.rotateBufferRead t i p off len false) s = .next u ∧ u = { s with rots := u.rots }
                ∧ u.rots.length = s.rots.length))

/-- R285, R286: MCAST. With A's and C's extents different it stops the run with E_PLAN; with nothing to send it is done at once;
else the first position's MCAST begins the multicast under its key with the chunks of its share, and each further position adds
its own. A JOIN for a record that is no MCAST of the slot's program changes nothing; one for a multicast that has fewer than 64
children and has sent nothing adds the child, and the 65th is refused; one that comes before the MCAST waits for it. R259: what a
rank sends that is not of the view is discarded and counted.

R280, R286 to R288: the flow of a multicast. Data from another than the parent changes nothing; a piece that does not complete
its chunk is kept with the others, and the piece that does is written into C with them. An acknowledgement is kept for its child.
A hold that has lasted the stall limit detaches the child that causes it, and not before; a detached child that has not caught up
4 × the stall limit later has failed. A multicast whose chunks are all sent and settled, and received, ends on its positions.

R287, R289: a DETACH makes a receiver begin to catch up: it counts as late and asks its parent for every chunk that it has
not received; one for a root, or for a multicast that has begun to catch up, changes nothing. -/
def Obligations.Multicast : Prop :=
  (∀ (s : State),
      (∀ (t i p : Nat) (r : Run) (w : Walk), walkOf s t i p = some (r, w) → w.done = false → w.set = false →
          (r.mrec i).opcode = opMcast →
          let a := getView s r i p 0
          let c := getView s r i p 2
          let key := mcKey r.slot i (beatOf r (r.mrec i))
          let ids := (mcChunks a).map (fun x => chunkId p x.1)
          ((∃ k, k < 6 ∧ a.ex k ≠ c.ex k) → ∃ u x, exec (.mcast t i p) s = .next u ∧ u.live t = some x
              ∧ x.stopping = some ePlan ∧ x.failMi = i)
            ∧ ((∀ k, k < 6 → a.ex k = c.ex k) → mcBytes a = 0 → ∃ u, exec (.mcast t i p) s = .next u ∧ WalkEnded u t i p
                ∧ u.mem = s.mem)
            ∧ ((∀ k, k < 6 → a.ex k = c.ex k) → mcBytes a ≠ 0 → s.beat.number < beatOf r (r.mrec i) →
                ((∀ m, m ∈ s.mcs → m.key ≠ key) →
                    ∃ u m, exec (.mcast t i p) s = .next u ∧ mcAt u key 0 = some m ∧ m.begun = true ∧ m.parent = mcParent s a
                      ∧ m.chunks = ids ∧ m.places = [(p, w.core)] ∧ m.sent = [] ∧ m.children = [] ∧ u.mem = s.mem)
                  ∧ (∀ m, mcAt s key 0 = some m → m.begun = true → m.tag = t → s.beat.number < m.startBeat →
                      ∃ u x, exec (.mcast t i p) s = .next u ∧ mcAt u key 0 = some x ∧ x.chunks = m.chunks ++ ids
                        ∧ x.places = m.places ++ [(p, w.core)] ∧ x.sent = m.sent ∧ u.mem = s.mem)))
        ∧ (∀ rank, inView s = true → rank ∉ s.group.view →
            (∀ key epoch, exec (.join key epoch rank) s = .next (s.bump Ctr.fencedDrops 0 1))
              ∧ ∀ d, exec (.detach rank d) s = .next (s.bump Ctr.fencedDrops 0 1))
        ∧ (∀ key epoch rank, inView s = true → epoch < s.group.epoch →
            exec (.join key epoch rank) s = .next (s.bump Ctr.fencedDrops 0 1))
        ∧ (∀ key epoch rank, inView s = true → rank ∈ s.group.view → s.group.epoch ≤ epoch →
            (mcNamed s key = false → exec (.join key epoch rank) s = .next s)
              ∧ (mcNamed s key = true → mcAt s key 0 = none → (∀ x, x ∈ s.mcOver → x.1 ≠ key) →
                  ∃ u m, exec (.join key epoch rank) s = .next u ∧ mcAt u key 0 = some m ∧ m.begun = false
                    ∧ m.children = [{ rank := rank, joinedAt := s.beat.number }] ∧ u = { s with mcs := u.mcs })
              ∧ (∀ m, mcNamed s key = true → mcAt s key 0 = some m → (∀ c, c ∈ m.children → c.rank ≠ rank) →
                  (64 ≤ m.children.length → exec (.join key epoch rank) s = .next (sendMgmt s rank 11 (leBytes 4 key)))
                    ∧ (m.children.length < 64 → (m.begun = false ∨ (s.beat.number ≤ m.startBeat ∧ m.sent = [])) →
                        exec (.join key epoch rank) s =
                          .next (setMc s { m with children := m.children ++ [{ rank := rank, joinedAt := s.beat.number }] })))))
    ∧ (∀ (s : State) (h0 : Hdr) (a g : Nat) (d : List Byte),
        let h := { h0 with address := a, tag := g }
        h.dest = s.group.rank →
        (h.epoch < s.group.epoch → exec (.mcData h0 a g d) s = .next (s.bump Ctr.fencedDrops 0 1))
          ∧ (inView s = false → s.group.epoch ≤ h.epoch → exec (.mcData h0 a g d) s = .next s)
          ∧ (∀ m, s.group.epoch ≤ h.epoch → inView s = true → h.space = 0 → h.length = d.length → 32 ≤ d.length → d.length ≤ 4096 →
              mcAt s h.key 0 = some m →
              let k := chunkId (h.address / 2 ^ 56) (h.address % 2 ^ 56 / 65536)
              let off := h.address % 2 ^ 56 % 65536
              let parts := m.parts.filter (fun x => !(x.1 == k && x.2.1 == off)) ++ [(k, off, d.take (m.len k - off))]
              let mine := parts.filter (fun x => x.1 == k)
              ((m.detached = true ∨ m.parent ≠ some h.src) → exec (.mcData h0 a g d) s = .next s)
                ∧ (∀ r, m.detached = false → m.parent = some h.src → s.live m.tag = some r → r.stopping = none →
                    k ∈ m.chunks → k ∉ m.got →
                    ((mine.map (fun x => x.2.2.length)).sum < m.len k → exec (.mcData h0 a g d) s = .next (setMc s { m with parts := parts }))
                      ∧ (m.len k ≤ (mine.map (fun x => x.2.2.length)).sum →
                          let all := (List.range 16).flatMap (fun i =>
                            ((mine.find? (fun x => x.2.1 == 4096 * i)).map (fun x => x.2.2)).getD [])
                          let s1 := setMc s { m with
                            parts := parts.filter (fun x => x.1 != k), got := m.got ++ [k], kept := put k all m.kept }
                          ∀ v, writeChunk s1 (getView s1 r m.mi (chunkPos k) 2) (chunkOff k) all = .ok v →
                            ∃ u, exec (.mcData h0 a g d) s = .next u ∧ u.mem = v.mem))))
    ∧ (∀ (s : State) (key epoch rank a : Nat),
        (epoch < s.group.epoch → exec (.mcAck key epoch rank a) s = .next (s.bump Ctr.fencedDrops 0 1))
          ∧ (∀ m, s.group.epoch ≤ epoch → s.mcs = [m] → m.key = key → m.pos = 0 → m.rotate = false →
              (∃ c, c ∈ m.children ∧ c.rank = rank) → (m.begun = false ∨ ∀ p, m.next p = none) →
              let k := chunkId (a / 2 ^ 56) (a % 2 ^ 56 / 65536)
              ∃ u x, exec (.mcAck key epoch rank a) s = .next u ∧ mcAt u key 0 = some x ∧ u.mem = s.mem
                ∧ x.children = mapIf (fun c => c.rank == rank) (fun c => { c with acked := insertN k c.acked }) m.children))
    ∧ (∀ (s : State) (key pos : Nat) (m : Mc), mcAt s key pos = some m → m.rotate = false →
        (∀ rank b x, m.holdSince = some b →
            (m.froms.flatMap (fun p => ((m.next p).map m.behind).getD [])).find? (fun x => x.rank == rank) = some x →
            (s.beat.number < b + m.stall → exec (.mcastDetach key pos rank) s = .next s)
              ∧ (b + m.stall ≤ s.beat.number →
                  exec (.mcastDetach key pos rank) s = .next (pump (detachChild s m rank x.core) key pos)))
          ∧ (∀ rank, ∃ u x, exec (.catchupLimit key pos rank) s = .next u ∧ mcAt u key pos = some x ∧ u = { s with mcs := u.mcs }
              ∧ ∀ k, k < m.children.length →
                  let c := m.children.getD k {}
                  (x.children.getD k {}).failed = (c.failed || (c.rank == rank && (match c.detachedAt with
                    | some b => decide (b + 4 * m.stall ≤ s.beat.number)
                    | none => false) && !m.chunks.all (fun k => c.acked.contains k)))))
    ∧ (∀ (s : State) (t i : Nat), mcOf s t i = none → exec (.mcastComplete t i) s = .next s)
    ∧ (∀ (s : State) (key : Nat) (m : Mc), mcAt s key 0 = some m → m.rotate = false →
        (∀ r t i, s.live t = some r → mcOf s t i = some m →
            let done := r.stopping = none ∧ m.startBeat ≤ s.beat.number ∧ m.settled = true
              ∧ m.places.length = r.prog.team.length ∧ (∀ c, c ∈ m.chunks → c ∈ m.sent)
              ∧ (m.parent ≠ none → ∀ c, c ∈ m.chunks → c ∈ m.written)
            (¬ done → exec (.mcastComplete t i) s = .next s)
              ∧ (done → ∃ u, exec (.mcastComplete t i) s = .next u ∧ mcAt u key 0 = none ∧ u.mem = s.mem
                  ∧ ∀ x, x ∈ m.places → (r.walk i x.1).isSome = true → WalkEnded u t i x.1))
          ∧ (∀ rank d, inView s = true → rank ∈ s.group.view → field d 0 4 = key →
              ((m.detached = true ∨ m.begun = false ∨ m.parent ≠ some rank) → exec (.detach rank d) s = .next s)
                ∧ (m.detached = false → m.begun = true → m.parent = some rank →
                    ∃ u x, exec (.detach rank d) s = .next u ∧ mcAt u key 0 = some x ∧ x.detached = true ∧ x.got = m.got
                      ∧ u.counter Ctr.mcastLate 0 = min (s.counter Ctr.mcastLate 0 + 1) (2 ^ 64 - 1) ∧ u.mem = s.mem)))

/-- R227, R290, R293, R294: GRAD_PUSH, PUSH_DEADLINE and PUSH_COMPLETE. The first position to reach a GRAD_PUSH counts its
store's step: short of N the count grows by 1, no push begins and the position is done; at N the count is 0 again. When the
deadline beat begins before the program has begun its push, this rank is late for it; before, nothing changes. A push whose
slices are all written ends on every position that waits for it, and not before. -/
def Obligations.PushesBeginAndEnd : Prop :=
  ∀ (s : State),
    (∀ (t i p : Nat) (r : Run) (w : Walk) (x : Tensor), walkOf s t i p = some (r, w) → w.done = false → w.set = false →
        (r.mrec i).opcode = opGradPush → s.tensor (r.handle (r.mrec i).opA) = some x →
        let first := ∀ y, y ∈ r.walks → y.mi = i → y.set = false
        (first → x.stepCount + 1 < (r.mrec i).imm0 → ownPush s t i = none →
            ∃ u y, exec (.gradPush t i p) s = .next u ∧ u.tensor x.handle = some y ∧ y.stepCount = x.stepCount + 1
              ∧ WalkEnded u t i p ∧ u.pushes = s.pushes ∧ u.mem = s.mem)
          ∧ (first → (r.mrec i).imm0 ≤ x.stepCount + 1 →
              ∃ u y, exec (.gradPush t i p) s = .next u ∧ u.tensor x.handle = some y ∧ y.stepCount = 0)
          ∧ (¬ first → ownPush s t i = none → ∃ u, exec (.gradPush t i p) s = .next u ∧ WalkEnded u t i p
              ∧ u.tensors = s.tensors ∧ u.pushes = s.pushes ∧ u.mem = s.mem))
      ∧ (∀ key d p, pushDeadline s key = some d → pushAt s key s.group.rank = some p →
          ((d = 0 ∨ s.beat.number < d) → exec (.pushDeadline key) s = .next s)
            ∧ (d ≠ 0 → d ≤ s.beat.number → key = nextKey s (key / 2 ^ 28) (key / 2 ^ 14 % 2 ^ 14) →
                pushDue s (key / 2 ^ 28) (key / 2 ^ 14 % 2 ^ 14) = true → p.begun = false → p.onTime = none →
                ∃ u x, exec (.pushDeadline key) s = .next u ∧ pushAt u key s.group.rank = some x ∧ x.onTime = some false
                  ∧ x.deadline = d ∧ u.mem = s.mem))
      ∧ (∀ key p r, pushAt s key s.group.rank = some p → s.live p.tag = some r →
          ((p.begun = false ∨ pushWhole s r p = false ∨ r.stopping.isSome = true) → exec (.pushComplete key) s = .next s)
            ∧ (p.begun = true → pushWhole s r p = true → r.stopping = none →
                ∃ u, exec (.pushComplete key) s = .next u ∧ u.mem = s.mem
                  ∧ ∀ w, w ∈ r.walks → w.mi = p.mi → w.set = true → r.walk w.mi w.pos = some w → WalkEnded u p.tag p.mi w.pos))

/-- R291 to R293: what a node takes from its children. A RED_STATUS of a child whose count is not known sets it, and a second
changes nothing; a RED_PART that completes the partial of a child with a count joins the node's partials once, and one of a child
that its count excludes is discarded and counted; one that does not complete it is kept with the others. One of an older epoch is
discarded and counted (R259), and out of a view all are left alone (R233).

R227, R291: REDUCER_COMBINE at a node other than the root whose children contribute nothing. An unsettled node, or a slice
combined already, changes nothing; else the own slice, once it can be taken, goes up as one contribution, and the writes of +0
to the store's elements of it are queued or issued; a slice whose bytes have not landed changes nothing but the reader's place.

R294: RED_RESULT that completes a slice's result at a leaf of the tree. The result is kept with its count; where this rank's push
has begun it is written into C, and the slice counts as written; before that no byte of memory changes. -/
def Obligations.ReducerNodes : Prop :=
  (∀ (s : State) (h : Hdr) (d : List Byte), h.dest = s.group.rank →
      (h.epoch < s.group.epoch →
          exec (.redStatus h d) s = .next (s.bump Ctr.fencedDrops 0 1)
            ∧ ∀ a n, exec (.redPart h a n d) s = .next (s.bump Ctr.fencedDrops 0 1)
              ∧ exec (.redResult h a n d) s = .next (s.bump Ctr.fencedDrops 0 1))
        ∧ (s.group.epoch ≤ h.epoch → inView s = false →
            exec (.redStatus h d) s = .next s ∧ ∀ a n, exec (.redPart h a n d) s = .next s ∧ exec (.redResult h a n d) s = .next s))
    ∧ (∀ (s : State) (h0 : Hdr) (a n : Nat) (d : List Byte) (q : Push),
        let h := { h0 with address := a, tag := n }
        h.dest = s.group.rank → s.group.epoch ≤ h.epoch → inView s = true →
        h.length = d.length → redNode h ≠ 0 → (pushAt s h.key s.group.rank).isSome = true →
        let up := parentOf (redNode h)
        let side := sideOf (redNode h)
        pushAt s h.key up = some q →
        (d.length = 8 →
            (q.count s side = none → ∃ u x, exec (.redStatus h d) s = .next u ∧ pushAt u h.key up = some x
                ∧ (if side = 0 then x.left else x.right) = some (field d 0 2) ∧ u.mem = s.mem)
              ∧ ((q.count s side).isSome = true → exec (.redStatus h d) s = .next s))
          ∧ (32 ≤ d.length → d.length ≤ 4096 → (∀ y, y ∈ q.pieces → ¬ (y.side = side ∧ y.slice = redSlice h)) →
              let k := redSlice h
              let whole := bit h.address 53 = true ∧ h.address % 2 ^ 20 = 0
              (¬ whole → ∃ u x, exec (.redPart h0 a n d) s = .next u ∧ pushAt u h.key up = some x ∧ x.parts = q.parts
                  ∧ x.pieces.length = q.pieces.length + 1 ∧ u.mem = s.mem)
                ∧ (whole → q.count s side = some 0 → ∃ u x, exec (.redPart h0 a n d) s = .next u ∧ pushAt u h.key up = some x
                    ∧ x.parts = q.parts ∧ u.mem = s.mem
                    ∧ u.counter Ctr.gradLateDrops 0 = min (s.counter Ctr.gradLateDrops 0 + 1) (2 ^ 64 - 1))
                ∧ (whole → q.count s side ≠ some 0 → (∀ x, x ∈ q.combined → x.1 ≠ k) →
                    (∀ x, x ∈ q.parts → x.1 = side → x.2.1 ≠ k) →
                    ∃ u x, exec (.redPart h0 a n d) s = .next u ∧ pushAt u h.key up = some x ∧ u = { s with pushes := u.pushes }
                      ∧ x.parts = q.parts ++ [(side, k, h.tag, bytesF32 (d.length / 4) d)])))
    ∧ (∀ (s : State) (key node k : Nat) (p : Push), pushAt s key node = some p →
        ((p.settled = none ∨ (∃ x, x ∈ p.combined ∧ x.1 = k)) → exec (.reducerCombine key node k) s = .next s)
          ∧ (∀ n v, p.settled = some n → n ≠ 0 → (∀ x, x ∈ p.combined → x.1 ≠ k) → (∀ x, x ∈ p.parts → x.2.1 ≠ k) →
              p.node ≠ 0 → p.onTime = some true → p.count s 0 = some 0 → p.count s 1 = some 0 → storeView s p = some v →
              k < sliceCount v →
              let s1 := reachSlice s p k
              (ownSlice s1 p k = .error .wait → exec (.reducerCombine key node k) s = .next s1)
                ∧ (∀ mine, ownSlice s1 p k = .ok mine →
                    ∃ u x, exec (.reducerCombine key node k) s = .next u ∧ pushAt u key node = some x
                      ∧ x.combined = p.combined ++ [(k, 1, mine)] ∧ k ∈ x.taken
                      ∧ u.mem = s.mem ∧ u.streams = (takeOwn s1 p k).streams ∧ u.cores = (takeOwn s1 p k).cores
                      ∧ u.counter Ctr.gradSlicesReduced 0 = min (s.counter Ctr.gradSlicesReduced 0 + 1) (2 ^ 64 - 1))))
    ∧ (∀ (s : State) (h0 : Hdr) (a n : Nat) (d : List Byte) (p : Push),
        let h := { h0 with address := a, tag := n }
        h.dest = s.group.rank → s.group.epoch ≤ h.epoch → inView s = true →
        h.length = d.length → 32 ≤ d.length → d.length ≤ 4096 → redNode h = s.group.rank → bit h.address 53 = true →
        h.address % 2 ^ 20 = 0 → pushAt s h.key s.group.rank = some p → childNodes s s.group.rank = [] →
        let k := redSlice h
        (∀ y, y ∈ p.pieces → ¬ (y.side = 2 ∧ y.slice = k)) → (∀ x, x ∈ p.results → x.1 ≠ k) →
        (p.begun = false → ∃ u x, exec (.redResult h0 a n d) s = .next u ∧ pushAt u h.key s.group.rank = some x
            ∧ x.results = p.results ++ [(k, h.tag)] ∧ x.written = p.written ∧ u.mem = s.mem)
          ∧ (∀ r v, p.begun = true → s.live p.tag = some r → r.stopping = none → k ∉ p.written →
              let s1 := onPush (takePiece s s.group.rank 2 h d).1 h.key s.group.rank (fun q => { q with
                results := q.results ++ (if q.results.any (fun x => x.1 == k) then [] else [(k, h.tag)]) })
              writeC s1 r p.mi k 0 (bytesF32 (d.length / 4) d) = .ok v →
              ∃ u x, exec (.redResult h0 a n d) s = .next u ∧ pushAt u h.key s.group.rank = some x
                ∧ k ∈ x.written ∧ u.mem = v.mem))

/-! Groups and the beat. -/

/-- R236, R237, R266: FORM_GROUP and LEAVE_GROUP. A parameter block or member list out of its rules ends FORM_GROUP by G1 or G2;
one that passes every check forms: the rank of the own serial in the list, the block's keeper, state FORMING. LEAVE_GROUP in
SOLO ends with E_PLAN; outside a view it makes the device SOLO at once; in a view it waits.

R234, R238, R239: the end of formation. FORMATION_END on the keeper, once every listed rank has reported, announces the view
of all of them for the first beat at least 4 bt away; earlier, or on any other member, it changes nothing. FORM_TIMEOUT on a
keeper with more than half of the listed ranks announces the view of those; else the device is SOLO again and the order ends. -/
def Obligations.GroupsForm : Prop :=
  (∀ (s : State) (m n : Nat) (d : Option (List Byte)) (o : Order),
      (Admitted s m n 0x0D o →
        let b := slice o.bytes 0x28 64
        let k := field b 2 2
        (blockOk b = false → exec (.formGroup m n d) s = .next (refuse s o ePlan 0x47 1 0))
          ∧ (∀ x i, blockOk b = true → hostRead (hostAsk s o) o d (16 * k) = some x → memberReserved k x = none →
              memberBad k s.trust.serial (memberList k x) = some i →
              exec (.formGroup m n d) s = .next (refuse (hostAsk s o) o ePlan 0x47 2 i))
          ∧ (∀ x, blockOk b = true → hostRead (hostAsk s o) o d (16 * k) = some x → memberReserved k x = none →
              memberBad k s.trust.serial (memberList k x) = none → (field b 6 1 = 1 → ptpEnabled s (field b 7 1) = true) →
              canForm s = true →
              ∃ u, exec (.formGroup m n d) s = .next u ∧ u.group.state = 1 ∧ u.group.members = memberList k x
                ∧ (u.group.rank, s.trust.serial) ∈ memberList k x ∧ u.group.keeper = field b 4 2 ∧ u.group.formAt = s.now
                ∧ u.group.formOrder = some (m, n) ∧ u.group.epoch = 0 ∧ u.group.view = [] ∧ u.mem = s.mem ∧ u.runs = s.runs))
      ∧ (Admitted s m n 0x0E o →
        (s.group.state = 0 → exec (.leaveGroup m n) s = .next (complete s o ePlan []))
          ∧ (s.group.state ≠ 0 → inView s = false → exec (.leaveGroup m n) s = .next (complete (becomeSolo s) o eOk []))
          ∧ (inView s = true → (∀ r, r ∈ s.runs → r.state = 3) →
              ∃ u, exec (.leaveGroup m n) s = .next u ∧ u.group.leaveOrder = some (m, n) ∧ u.group.state = s.group.state
                ∧ u.group.view = s.group.view ∧ u.mem = s.mem ∧ u.runs = s.runs)))
    ∧ (∀ s : State,
        let ranks := below 1024 (fun r => (reported s).contains r)
        let hold := formHold s (reported s)
        let v : ViewAnn := { epoch := s.group.epoch + 1, ranks := ranks, keeper := s.group.keeper, beat := beatAfter s 4, hold := hold
                             differs := if hold then holdRank s ranks s.group.keeper else 0 }
        ((s.group.state ≠ 1 ∨ isKeeper s = false ∨ (reported s).length < s.group.members.length) →
            exec .formationEnd s = .next s)
          ∧ (s.group.state = 1 → isKeeper s = true → (reported s).length = s.group.members.length → s.group.next = none →
              ∃ u, exec .formationEnd s = .next u ∧ TellFrame { s with group := { s.group with next := some v } } u)
          ∧ (s.group.state ≠ 1 → exec .formTimeout s = .next s)
          ∧ (s.group.state = 1 → isKeeper s = true → s.group.members.length < 2 * (reported s).length → s.group.next = none →
              ∃ u, exec .formTimeout s = .next u ∧ TellFrame { s with group := { s.group with next := some v } } u)
          ∧ (∀ m n o, s.group.state = 1 → (isKeeper s = false ∨ 2 * (reported s).length ≤ s.group.members.length) →
              s.group.next = none → s.group.formOrder = some (m, n) → s.order m n = some o → held s o = false →
              ∃ u, exec .formTimeout s = .next u ∧ u.group.state = 0 ∧ u.group.view = [] ∧ u.group.formOrder = none
                ∧ u.order m n = none ∧ u.mem = s.mem ∧ u.runs = s.runs)
          ∧ (∀ x, s.group.state = 1 → s.group.next = some x → s.group.rank ∉ x.ranks → s.group.formOrder = none →
              ∃ u, exec .formTimeout s = .next u ∧ u.group.state = 4 ∧ u.group.epoch = x.epoch ∧ u.group.keeper = x.keeper
                ∧ u.group.next = none ∧ u.mem = s.mem))

/-- R240, R255: identity records. IDENTITY_SEND puts one record on an up link when a field other than its beat has changed, or
256 bt after the last, and changes nothing else; during an Imion restart it waits (R414). A record that arrives is kept as the far end's and counted; a forming device
admits one that its member list names, and refuses a foreign one, whose link carries no group traffic. -/
def Obligations.IdentitiesAreExchanged : Prop :=
  ∀ (s : State) (l : Nat),
    (((s.link l).state ≠ 2 ∨ s.health.imionStopped = true) → exec (.identitySend l) s = .next s)
      ∧ ((s.link l).state = 2 → (s.link l).idSent = identityBody s l 0 → s.beat.number < (s.link l).idBeat + 256 →
          exec (.identitySend l) s = .next s)
      ∧ ((s.link l).state = 2 → s.health.imionStopped = false → ((s.link l).idSent ≠ identityBody s l 0 ∨ (s.link l).idBeat + 256 ≤ s.beat.number) →
          ∃ u, exec (.identitySend l) s = .next u ∧ (u.link l).idSent = identityBody s l 0
            ∧ (u.link l).idBeat = s.beat.number ∧ (u.link l).ctlQ.length = (s.link l).ctlQ.length + 1
            ∧ (∀ j, j ≠ l → u.link j = s.link j) ∧ u = { s with links := u.links })
      ∧ (∀ d, let v := (s.onLink l (fun k => { k with peer := d })).bump Ctr.identityRecords 0 1
          (s.group.state = 0 → exec (.identity l d) s = .next v)
            ∧ (s.group.state ≠ 0 → duplicate v l d = false → listed s d = false →
                exec (.identity l d) s = .next (refuseRecord v l))
            ∧ (s.group.state = 1 → duplicate v l d = false → listed s d = true →
                slice d 0x10 2 = slice (fwVersion s) 0 2 →
                ∃ u, exec (.identity l d) s = .next u ∧ (u.link l).isGroup = true ∧ (u.link l).peerRank = field d 4 2
                  ∧ (u.link l).peerSerial = field d 8 8 ∧ (u.link l).peer = d
                  ∧ u.group = { s.group with reportNo := u.group.reportNo }
                  ∧ TellFrame { s with group := u.group, beat := u.beat, routes := u.routes } u)
            ∧ ((s.group.state = 2 ∨ s.group.state = 3) → s.group.leaveOrder = none → duplicate v l d = false →
                listed s d = true → slice d 0x10 2 = slice (fwVersion s) 0 2 → field d 0x16 1 = keyNum s 1 →
                (field d 2 1 = 2 ∨ field d 2 1 = 3) → s.group.epoch < field d 0x20 4 → s.group.next = none →
                ∃ u, exec (.identity l d) s = .next u ∧ u.group.state = 4 ∧ u.group.view = []))

/-- R234, R242, R257: a view is kept when it is announced and takes effect at its beat, not before: state HOLD or ACTIVE, its
epoch, ranks and keeper; only a view of the next epoch may then be announced. An announcement of an epoch not above the device's changes nothing. A member that the view leaves out
fences itself. -/
def Obligations.ViewsTakeEffect : Prop :=
  ∀ s : State,
    (∀ epoch ranks keeper beat hold,
        (s.group.state ≠ 0 → s.group.epoch < epoch → (s.group.state = 4 → s.group.rank ∈ ranks) →
          exec (.viewAnnouncement epoch ranks keeper beat hold) s = .next { s with group := { s.group with
            next := some { epoch := epoch, ranks := ranks, keeper := keeper, beat := beat, hold := hold.isSome
                           differs := hold.getD 0 } } })
        ∧ ((s.group.state = 0 ∨ epoch ≤ s.group.epoch ∨ (s.group.state = 4 ∧ s.group.rank ∉ ranks)) →
          exec (.viewAnnouncement epoch ranks keeper beat hold) s = .next s))
      ∧ ((s.group.next = none ∨ ∃ v, s.group.next = some v ∧ s.beat.number < v.beat) → exec .viewBeat s = .next s)
      ∧ (∀ v, s.group.next = some v → v.beat ≤ s.beat.number → s.group.rank ∈ v.ranks →
          ∃ u, exec .viewBeat s = .next u ∧ u.group.state = (if v.hold then 2 else 3) ∧ u.group.epoch = v.epoch
            ∧ u.group.view = v.ranks ∧ u.group.keeper = v.keeper ∧ u.group.rank = s.group.rank ∧ u.keys = s.keys
            ∧ ∀ x, u.group.next = some x → x.epoch = v.epoch + 1)
      ∧ (∀ v, s.group.next = some v → v.beat ≤ s.beat.number → s.group.rank ∉ v.ranks → inView s = true →
          s.group.leaveOrder = none →
          ∃ u, exec .viewBeat s = .next u ∧ u.group.state = 4 ∧ u.group.view = [] ∧ u.keys = s.keys)

/-- R256, R258, R260, R261: splits, the fence, rejoining and re-forming. A side of half the view or less fences itself at its
fence beat, 4 bt ahead, and not before. The coordinator brings back a listed rank within 8 hops, of its own major version and
digest, and LOCKED for 16 bt; another changes nothing. Fenced members beyond half of the last view take the lowest rank as
keeper, which announces their view, in HOLD when their digests differ. -/
def Obligations.SplitAndRejoin : Prop :=
  ∀ s : State,
    ((s.group.lossAt = none ∨ inView s = false) → ∀ e, exec (.splitSide e) s = .next s)
      ∧ (∀ e, s.group.lossAt.isSome = true → inView s = true →
          let v := { s with group := { s.group with edges := e, lossAt := none } }
          let w := recompute v
          let g := (linkGraph w (ownLinks w)).filter (fun x => s.group.view.contains x.1 && s.group.view.contains x.2)
          let side := s.group.view.filter (fun r => ((reached g (fun _ => true) s.group.rank 1024).map (fun x => x.1)).contains r)
          side.length < s.group.view.length → 2 * side.length ≤ s.group.view.length →
          ∃ u, exec (.splitSide e) s = .next u ∧ u.group.fenceBeat = some (beatAfter s 4) ∧ u.group.lossAt = none
            ∧ u = { s with group := u.group, beat := u.beat, routes := u.routes })
      ∧ (∀ b, s.group.fenceBeat = some b → s.beat.number < b → exec .fenceBeat s = .next s)
      ∧ (∀ b, s.group.fenceBeat = some b → b ≤ s.beat.number → inView s = true → s.group.leaveOrder = none →
          ∃ u, exec .fenceBeat s = .next u ∧ u.group.state = 4 ∧ u.group.view = [] ∧ u.group.lastView = s.group.view
            ∧ u.prepared = none ∧ u.keys = s.keys)
      ∧ (∀ rank hops major lockedBt digest,
          let ok := coordinates s = true ∧ rank ∉ s.group.view ∧ (∃ e, e ∈ s.group.members ∧ e.1 = rank) ∧ hops ≤ 8
            ∧ leBytes 2 major = slice (fwVersion s) 0 2 ∧ 16 ≤ lockedBt
            ∧ (knownDigest s s.group.keeper).getD (configDigest s) = digest
          (¬ ok → exec (.rejoin rank hops major lockedBt digest) s = .next s)
            ∧ (ok → s.group.next = none → ∃ u v, exec (.rejoin rank hops major lockedBt digest) s = .next u
                ∧ u.group.next = some v ∧ v.epoch = s.group.epoch + 1 ∧ v.beat = beatAfter s 4
                ∧ (s.group.keeper ∈ s.group.view → v.keeper = s.group.keeper)
                ∧ (∀ r, r ∈ v.ranks ↔ r < 1024 ∧ (r = rank ∨ r ∈ s.group.view)) ∧ u.group.view = s.group.view
                ∧ TellFrame { s with group := u.group } u))
      ∧ (∀ ranks epoch,
          let here := below 1024 (fun r => ranks.contains r && s.group.lastView.contains r)
          ((epoch ≠ s.group.epoch + 1 ∨ s.group.state ≠ 4 ∨ s.group.rank ∉ here ∨ 2 * here.length ≤ s.group.lastView.length) →
              exec (.reform ranks epoch) s = .next s)
            ∧ (epoch = s.group.epoch + 1 → s.group.state = 4 → s.group.rank ∈ here → s.group.lastView.length < 2 * here.length → s.group.next = none →
                ∃ u, exec (.reform ranks epoch) s = .next u ∧ u.group.keeper ∈ here
                  ∧ (∀ r, r ∈ here → u.group.keeper ≤ r)
                  ∧ (u.group.keeper = s.group.rank → ∃ v, u.group.next = some v ∧ v.ranks = here ∧ v.hold = differ s here
                      ∧ v.keeper = s.group.rank ∧ v.epoch = s.group.epoch + 1)
                  ∧ (u.group.keeper ≠ s.group.rank → u.group.next = none)
                  ∧ TellFrame { s with group := u.group, beat := u.beat, routes := u.routes } u))

/-- R243, R244, R252: BEAT_BOUNDARY. While the main domain runs, the next beat begins: its number is one more, it starts now, and
no mark of it has been seen. A member that has missed four marks is in holdover. Otherwise nothing changes.

R248, R250, R251, R278: the mark that the last frame of a link brought. It is used, and not counted as unused, only on the beat
parent's measured group link. Its error is the frame's arrival less the mark's offset and the link's delay, against the device's own
boundary of the beat that it numbers. An error of at most 8 cc locks the member; a larger one, within 4 bt, makes it slew by 1/2 cc per beat; beyond that, or
with another number, a member of a view fences itself and any other device takes the mark's number, as it takes BEAT_FULL's. -/
def Obligations.BeatsAndMarks : Prop :=
  (∀ s : State,
      ((s.pins.stage = 0 ∨ s.pins.stage = 0xB) → exec .beatBoundary s = .next s)
        ∧ (s.pins.stage ≠ 0 → s.pins.stage ≠ 0xB →
            ∃ u, exec .beatBoundary s = .next u ∧ u.beat.number = s.beat.number + 1 ∧ u.beat.startAt = s.now
              ∧ u.beat.markSeen = false ∧ u.now = s.now ∧ u.keys = s.keys
              ∧ (isKeeper s = false → s.group.state ≠ 0 → s.beat.markSeen = false → 3 ≤ s.beat.missed →
                  (s.beat.locked = true ∨ s.beat.slewing = true) → u.beat.holdover = true ∧ u.beat.locked = false)
              ∧ (s.beat.markSeen = true → u.beat.missed = s.beat.missed)))
    ∧ (∀ (s : State) (l : Nat),
        let used := fromParent s l = true ∧ (s.link l).delay.isSome = true ∧ s.group.state ≠ 0 ∧ (s.link l).isGroup = true
        (∀ number offset, (∀ arrival, (s.link l).markIn ≠ some (number, offset, arrival)) → exec (.beatMark l number offset) s = .next s)
          ∧ (∀ number offset arrival, (s.link l).markIn = some (number, offset, arrival) →
              let s1 := s.onLink l (fun k => { k with markIn := none })
              (¬ used → exec (.beatMark l number offset) s = .next (s1.bump Ctr.beatMarksUnused 0 1))
                ∧ (∀ d n start, used → (s.link l).delay = some d → ownBoundary s number = some (n, start) →
                    let e := markTime d offset arrival - 16 * start
                    (e.natAbs ≤ 128 → 128 ≤ 4 * beatLen s → ∃ u, exec (.beatMark l number offset) s = .next u ∧ u.beat.locked = true
                        ∧ u.beat.slewing = false ∧ u.beat.holdover = false ∧ u.beat.adjustNext = (e + 8) / 16 ∧ u.beat.missed = 0
                        ∧ u.beat.markSeen = true ∧ u.beat.number = s.beat.number ∧ u.group = s.group ∧ u.mem = s.mem)
                      ∧ (128 < e.natAbs → e.natAbs ≤ 4 * beatLen s → ∃ u, exec (.beatMark l number offset) s = .next u ∧ u.beat.locked = false
                          ∧ u.beat.slewing = true ∧ u.beat.adjustNext = (if 0 < e then 8 else -8) ∧ u.beat.number = s.beat.number
                          ∧ u = { s with beat := u.beat, counters := u.counters, links := u.links }))
                ∧ (∀ d, used → (s.link l).delay = some d →
                    (ownBoundary s number = none ∨ ∃ n start, ownBoundary s number = some (n, start)
                      ∧ 4 * beatLen s < (markTime d offset arrival - 16 * start).natAbs) →
                    (inView s = false → ∃ u, exec (.beatMark l number offset) s = .next u ∧ u.beat.number = stepNumber s.beat.number number
                        ∧ u = { s with beat := u.beat, counters := u.counters, links := u.links })
                      ∧ (inView s = true → s.group.leaveOrder = none →
                          ∃ u, exec (.beatMark l number offset) s = .next u ∧ u.group.state = 4 ∧ u.group.view = [])))
          ∧ (∀ d, used → field d 0 8 ≠ s.beat.number → inView s = false →
              ∃ u, exec (.beatFull l d) s = .next u ∧ u.beat.number = field d 0 8 ∧ u = { s with beat := u.beat })
          ∧ (∀ d, (field d 0 8 = s.beat.number ∨ (s.link l).delay = none ∨ s.group.state = 0 ∨ fromParent s l = false) →
              exec (.beatFull l d) s = .next s))

/-- R246, R247, R252: holdover. A member that has been in it for HOLDOVER_LIMIT fences itself, and not before. A keeper that
loses its locked source enters it, counts it, and posts it; when the source is back, an error of at most 1 cc ends it at once,
a larger one is slewed first.

R245, R249, R442: an edge of BEAT_IN counts on a keeper that follows it, with its reset released: the first is accepted; a
later one only outside the window of the last and within half a beat of its expected time, else it is discarded and counted.
STAMP: a request is answered with two own stamps; the 64th answer gives the link's delay, the median of all. -/
def Obligations.HoldoverAndSources : Prop :=
  (∀ s : State,
      ((inView s = false ∨ isKeeper s = true ∨ s.beat.holdover = false ∨ s.beat.holdoverBt < keyNum s 2) →
          exec .holdoverLimitFence s = .next s)
        ∧ (inView s = true → isKeeper s = false → s.beat.holdover = true → keyNum s 2 ≤ s.beat.holdoverBt →
            s.group.leaveOrder = none →
            ∃ u, exec .holdoverLimitFence s = .next u ∧ u.group.state = 4 ∧ u.group.view = [] ∧ u.keys = s.keys)
        ∧ ((isKeeper s = false ∨ s.group.source = 0 ∨ s.beat.sourceLocked = false) → exec .sourceLost s = .next s)
        ∧ (isKeeper s = true → s.group.source ≠ 0 → s.beat.sourceLocked = true →
            exec .sourceLost s = .next (relevel ((postEvent { s with beat := { s.beat with
              holdover := true, sourceLocked := false, holdoverBt := 0, good := 0, lastEdge := none, rateFrom := none } } 0x09 []).bump
              Ctr.holdoverEntries 0 1)))
        ∧ (∀ err, (isKeeper s = false ∨ s.group.source = 0 ∨ s.beat.holdover = false ∨ s.beat.slewing = true) →
            exec (.sourceRelocked err) s = .next s)
        ∧ (∀ err : Int, isKeeper s = true → s.group.source ≠ 0 → s.beat.holdover = true → s.beat.slewing = false →
            (err.natAbs ≤ 1 → ∃ u, exec (.sourceRelocked err) s = .next u ∧ u.beat.holdover = false
                ∧ u.beat.sourceLocked = true ∧ u.beat.number = s.beat.number)
              ∧ (1 < err.natAbs → exec (.sourceRelocked err) s =
                  .next { s with beat := { s.beat with srcErr := err, srcRemoved := 0, slewing := true } })))
    ∧ (∀ s : State,
        ((s.pins.resetN = true ∨ isKeeper s = false ∨ (s.group.source ≠ 2 ∧ s.group.source ≠ 3)) →
            exec .beatInEdge s = .next s)
          ∧ (s.pins.resetN = false → isKeeper s = true → (s.group.source = 2 ∨ s.group.source = 3) →
              (s.beat.lastEdge = none → ∃ u, exec .beatInEdge s = .next u ∧ u.beat.lastEdge = some s.now
                  ∧ u.beat.good = s.beat.good + 1 ∧ u = { s with beat := u.beat, counters := u.counters })
                ∧ (∀ a, s.beat.lastEdge = some a →
                    let e := a + edgePeriod s
                    let half := beatLen s / 2
                    let inside := s.beat.windowEnd ≤ s.now ∧ e ≤ s.now + half ∧ s.now ≤ e + half
                    (inside → ∃ u, exec .beatInEdge s = .next u ∧ u.beat.lastEdge = some s.now ∧ u.beat.windowEnd = e + half
                        ∧ u.beat.number = s.beat.number ∧ u = { s with beat := u.beat, counters := u.counters })
                      ∧ (¬ inside → exec .beatInEdge s = .next (s.bump Ctr.beatInDiscards 0 1))))
          ∧ (∀ l d, (s.link l).state ≠ 2 → exec (.stamp l d) s = .next s)
          ∧ (∀ l d, (s.link l).state = 2 → field d 0x0A 8 = 0 → field d 0x12 8 = 0 → exec (.stamp l d) s =
              .next (pushCtl s l 2 (stampBody (field d 0 2) (field d 2 8) (16 * s.now) (16 * s.now) 0)))
          ∧ (∀ l d, (s.link l).state = 2 → field d 0x0A 8 ≠ 0 → field d 0x1A 8 ≠ 0 → field d 0 2 = (s.link l).exch.length →
              (s.link l).delay = none →
              let m : Int := (((field d 0x1A 8 : Int) - field d 2 8) - ((field d 0x12 8 : Int) - field d 0x0A 8)) / 2
              ((s.link l).exch.length < 63 → ∃ u, exec (.stamp l d) s = .next u ∧ (u.link l).exch = (s.link l).exch ++ [m]
                  ∧ (u.link l).delay = none ∧ u = { s with links := u.links })
                ∧ ((s.link l).exch.length = 63 → ∃ u, exec (.stamp l d) s = .next u
                    ∧ (u.link l).delay = some (median64 ((s.link l).exch ++ [m]))
                    ∧ u = { s with links := u.links, beat := u.beat })))

/-! Links and transfers. -/

/-- R273 to R276: FRAME_SEND on an up link sends one frame and nothing on a link that is not up: a frame to be replayed; else an
IDLE frame while 64 are kept; else the oldest control record as a CONTROL frame; else up to 512 bytes of the class that the
egress arbiter grants as a DATA frame; else an IDLE frame. A CONTROL or DATA frame is kept under the next sequence number, and
a kept frame that is sent again counts its replays (R277). -/
def Obligations.FramesAreSent : Prop :=
  ∀ (s : State) (l : Nat),
    let k := s.link l
    (k.state ≠ 2 → exec (.frameSend l) s = .next s)
      ∧ (∀ f rest, k.state = 2 → k.resend = f :: rest → ∃ u, exec (.frameSend l) s = .next u ∧ (u.link l).resend = rest
          ∧ u.out = { kind := 7, dest := l, data := frameBytes s l (if f.ctl then 2 else 1) f.cls f.seq f.payload } :: s.out
          ∧ (u.link l).kept = mapIf (fun x => x.seq == f.seq) (fun x => { x with replays := x.replays + 1 }) k.kept
          ∧ u = { s with links := u.links, out := u.out, counters := u.counters })
      ∧ (k.state = 2 → k.resend = [] → (64 ≤ k.kept.length ∨ (k.ctlQ = [] ∧ readyClasses k = [])) →
          ∃ u, exec (.frameSend l) s = .next u ∧ u.out = { kind := 7, dest := l, data := frameBytes s l 0 0 0 [] } :: s.out
            ∧ (u.link l).kept = k.kept ∧ (u.link l).txSeq = k.txSeq ∧ u = { s with links := u.links, out := u.out })
      ∧ (∀ r rest, k.state = 2 → k.resend = [] → k.kept.length < 64 → k.ctlQ = r :: rest →
          ∃ u f, exec (.frameSend l) s = .next u
            ∧ u.out = { kind := 7, dest := l, data := frameBytes s l 2 0 k.txSeq r } :: s.out
            ∧ (u.link l).kept = k.kept ++ [f] ∧ f.ctl = true ∧ f.payload = r ∧ f.seq = k.txSeq
            ∧ (u.link l).txSeq = (k.txSeq + 1) % 65536
            ∧ u = { s with links := u.links, out := u.out, counters := u.counters })
      ∧ (∀ c rest, k.state = 2 → k.resend = [] → k.kept.length < 64 → k.ctlQ = [] → readyClasses k ≠ [] →
          (arbRound s 4 l (readyClasses k)).2 = c :: rest →
          ∃ u f, exec (.frameSend l) s = .next u ∧ (u.link l).kept = k.kept ++ [f] ∧ f.ctl = false ∧ f.cls = c
            ∧ f.payload = (k.streams.getD c []).take 512 ∧ f.seq = k.txSeq
            ∧ (u.link l).streams = k.streams.set c ((k.streams.getD c []).drop 512)
            ∧ u = { s with links := u.links, out := u.out, counters := u.counters, arbs := u.arbs })

/-- R271 to R276: FRAME_RECEIVE on an up link. The outcome of the codeword that begins in the frame counts once (R271); a frame
that an uncorrectable codeword touches, one with a wrong CRC or one of an unknown type counts as a CRC error and asks for a
replay; one out of sequence only asks for it; the next DATA frame in sequence is accepted, its payload joins its class's stream,
and whole transfers leave the buffer. REPLAY_TIMEOUT starts at most one replay, and when a kept frame has been sent again eight
times the link retrains. -/
def Obligations.FramesAreReceived : Prop :=
  ∀ (s : State) (l : Nat) (d : List Byte) (fixed bad : Bool),
    let k := s.link l
    let fec := fecOf fixed bad
    let q := takeCodeword s l fec
    (k.state ≠ 2 → exec (.frameReceive l d fixed bad) s = .next s ∧ exec (.replayTimeout l) s = .next s)
      ∧ (codewordBegins k.fecAt = true →
          q.1.counter Ctr.fecCorrected l = min (s.counter Ctr.fecCorrected l + b2n (fec == 1)) (2 ^ 64 - 1)
            ∧ q.1.counter Ctr.fecUncorrectable l = min (s.counter Ctr.fecUncorrectable l + b2n (fec == 2)) (2 ^ 64 - 1)
            ∧ (fec = 2 → q.2 = true))
      ∧ (codewordBegins k.fecAt = false → q.1.counter Ctr.fecUncorrectable l = min (s.counter Ctr.fecUncorrectable l) (2 ^ 64 - 1)
            ∧ q.2 = (k.fecBad && k.fecAt * 4256 % 5140 != 0))
      ∧ (k.state = 2 → (q.2 = true ∨ frameOk d = false) → ∃ u, exec (.frameReceive l d fixed bad) s = .next u
          ∧ u.link l = { (q.1.link l) with nak := true }
          ∧ u.counter Ctr.crcErrors l = min (s.counter Ctr.crcErrors l + 1) (2 ^ 64 - 1)
          ∧ u = { s with links := u.links, counters := u.counters })
      ∧ (k.state = 2 → q.2 = false → frameOk d = true → field d 0 1 ≠ 0 → field d 2 2 ≠ (k.rxSeq + 1) % 65536 →
          ∃ u, exec (.frameReceive l d fixed bad) s = .next u ∧ (u.link l).nak = true ∧ (u.link l).rxSeq = k.rxSeq
            ∧ (u.link l).rxStreams = k.rxStreams ∧ u = { s with links := u.links, counters := u.counters })
      ∧ (k.state = 2 → q.2 = false → frameOk d = true → field d 0 1 = 1 → field d 2 2 = (k.rxSeq + 1) % 65536 →
          let c := field d 1 1
          let st := k.rxStreams.getD c [] ++ slice d 0x10 (32 * field d 7 1)
          ∃ u, exec (.frameReceive l d fixed bad) s = .next u ∧ (u.link l).rxSeq = field d 2 2 ∧ (u.link l).nak = false
            ∧ (u.link l).rxStreams = k.rxStreams.set c (partAfter (st.length / 32 + 1) st)
            ∧ u.counter Ctr.framesReceived l = min (s.counter Ctr.framesReceived l + 1) (2 ^ 64 - 1)
            ∧ u = { s with links := u.links, counters := u.counters })
      ∧ (k.state = 2 → k.kept ≠ [] → k.resend = [] →
          ((∀ f, f ∈ k.kept → f.replays < 8) → exec (.replayTimeout l) s = .next (s.setLink l { k with resend := k.kept }))
            ∧ (∀ f, f ∈ k.kept → 8 ≤ f.replays → ∃ u, exec (.replayTimeout l) s = .next u
                ∧ u.link l = { k with state := 1, reason := 1 } ∧ u = { s with links := u.links }))

/-- R277, R279: training. A lane of an up link that loses its signal starts it; with both lanes the link is up again at full
width, with one at half, with its credits those of training and every kept frame to be sent again; with none it is down, counted
and its frames given up. A link that is down trains anew in stage READY under its clock. -/
def Obligations.LinksTrain : Prop :=
  ∀ (s : State) (l : Nat),
    let k := s.link l
    (∀ lane, ((k.state ≠ 2 ∨ 2 ≤ lane) → exec (.laneSignalLoss l lane) s = .next s)
        ∧ (k.state = 2 → lane < 2 → ∃ u, exec (.laneSignalLoss l lane) s = .next u
            ∧ u.link l = { k with laneLost := k.laneLost ||| 2 ^ lane, state := 1, reason := 2 }
            ∧ u = { s with links := u.links }))
      ∧ (∀ a b, (k.state ≠ 1 → exec (.linkRetrain l a b) s = .next s)
          ∧ (k.state = 1 → (a = true ∨ b = true) → ∃ u, exec (.linkRetrain l a b) s = .next u ∧ (u.link l).state = 2
              ∧ (u.link l).width = (if a = true ∧ b = true then 2 else 1) ∧ (u.link l).resend = k.kept
              ∧ (u.link l).credits = [4, 4, 4, 4] ∧ (u.link l).shared = 48 ∧ (u.link l).delay = none
              ∧ u.counter Ctr.retrains l = min (s.counter Ctr.retrains l + 1) (2 ^ 64 - 1)
              ∧ u = { s with links := u.links, counters := u.counters })
          ∧ (k.state = 1 → l < 96 → a = false → b = false → ∃ u, exec (.linkRetrain l a b) s = .next u ∧ (u.link l).state = 0
              ∧ (u.link l).kept = [] ∧ (u.link l).isGroup = false
              ∧ u.counter Ctr.linkDowns l = min (s.counter Ctr.linkDowns l + 1) (2 ^ 64 - 1) ∧ u.mem = s.mem))
      ∧ ((k.state ≠ 0 ∨ 96 ≤ l ∨ mainUp s = false ∨ linkClock s l = false) → exec (.linkDownRetry l) s = .next s)
      ∧ (k.state = 0 → l < 96 → mainUp s = true → linkClock s l = true → ∃ u, exec (.linkDownRetry l) s = .next u
          ∧ u.link l = { k with state := 1, reason := 0, downAt := s.now } ∧ u = { s with links := u.links })
      ∧ (∀ w r, (k.state ≠ 2 → exec (.linkState l w r) s = .next s)
          ∧ (k.state = 2 → ∃ u, exec (.linkState l w r) s = .next u
              ∧ u.link l = { k with peerWidth := w, peerReason := r } ∧ u = { s with links := u.links }))

/-- R259, R280, R282, R283: transfers between devices. One for another rank goes on toward it on an up link of its route, in its
class, or is counted and not sent when the rank is unreachable. Of one for this device, one of an older epoch is discarded and
counted. A management message in one piece does what its kind says; in a view only one of a rank of the view is heeded. -/
def Obligations.TransfersAreRouted : Prop :=
  ∀ (s : State) (h : Hdr) (d : List Byte),
    (h.dest = s.group.rank → exec (.transferForward h d) s = .next s)
      ∧ (h.dest ≠ s.group.rank → sendOn s (hdrClass h) h d = none →
          exec (.transferForward h d) s = .next (s.bump Ctr.routeUnreachable 0 1))
      ∧ (∀ r l, h.dest ≠ s.group.rank → routeTo s h.dest = some r → pickLink s r (hdrClass h) = some l →
          ∃ u, exec (.transferForward h d) s = .next u
            ∧ (u.link l).streams = (s.link l).streams.set (hdrClass h)
                ((s.link l).streams.getD (hdrClass h) [] ++ streamBytes h d)
            ∧ (∀ j, j ≠ l → u.link j = s.link j) ∧ look r.next u.turns = some l
            ∧ u = { s with links := u.links, turns := u.turns })
      ∧ (h.dest ≠ s.group.rank → exec (.readTransfer h) s = .next s ∧ exec (.readData h d) s = .next s
          ∧ exec (.writeTransfer h d) s = .next s ∧ exec (.add h d) s = .next s ∧ exec (.ack h) s = .next s
          ∧ exec (.mgmt h d) s = .next s)
      ∧ (h.dest = s.group.rank → h.epoch < s.group.epoch →
          let u := s.bump Ctr.fencedDrops 0 1
          exec (.readTransfer h) s = .next u ∧ exec (.readData h d) s = .next u ∧ exec (.writeTransfer h d) s = .next u
            ∧ exec (.add h d) s = .next u ∧ exec (.ack h) s = .next u ∧ exec (.mgmt h d) s = .next u)
      ∧ (h.dest = s.group.rank → s.group.epoch ≤ h.epoch → h.address / 2 ^ 24 % 2 ^ 24 ≤ h.length →
          (∀ b, h.length = b.length → 1 ≤ b.length → b.length ≤ 512 →
              exec (.mgmt h b) s = .next (takeMgmt s h.src b)
                ∧ (inView s = true → h.src ∉ s.group.view → exec (.mgmt h b) s = .next (s.bump Ctr.fencedDrops 0 1)))
            ∧ (∀ beat, beat < 2 ^ 64 → h.length = 9 →
              exec (.mgmt h (3#8 :: leBytes 8 beat)) s = exec (.decision h.src beat) s)
            ∧ (∀ st, h.length = 2 → exec (.mgmt h [2#8, st]) s = exec (.readyReply h.src st) s)
            ∧ (h.length = 1 → exec (.mgmt h [4#8]) s = exec (.abort h.src) s)
            ∧ (∀ v : ViewAnn, v.epoch < 2 ^ 32 → v.keeper < 2 ^ 16 → v.beat < 2 ^ 64 → v.differs < 2 ^ 16 →
                v.ranks.Pairwise (· < ·) → (∀ r, r ∈ v.ranks → r < 1024) → h.length = 146 →
                (inView s = true → h.src ∈ s.group.view) →
                exec (.mgmt h (5#8 :: viewBody v)) s =
                  exec (.viewAnnouncement v.epoch v.ranks v.keeper v.beat (if v.hold then some v.differs else none)) s))

/-- R185, R233, R280, R284, R305, R310: what the destination serves as a member of a view. A read of a shelf, or of LOCAL pages,
is answered with its bytes, one that is not served with a refusal; a write or an add into a shelf is applied and acknowledged,
one to a page that is not LOCAL and WRITABLE changes no memory and is acknowledged as refused, and an add to an unaligned
address is counted besides. What is for a burst that DDR makes wait is kept behind what came before it, and nothing else
changes. An acknowledgement ends the write it answers; data end the read they answer. A device that is in no view refuses a
read, a write and an add. -/
def Obligations.RemoteAccesses : Prop :=
  ∀ (s : State) (h : Hdr) (d : List Byte), h.dest = s.group.rank → s.group.epoch ≤ h.epoch →
    (inView s = false →
        (h.length = 0 → 32 ≤ h.reqLength → h.reqLength ≤ 4096 → exec (.readTransfer h) s = .next (replyData s h 1 []))
          ∧ (h.length = d.length → 32 ≤ d.length → d.length ≤ 4096 → exec (.writeTransfer h d) s = .next (sendAck s h 3 1))
          ∧ (h.length = d.length → 4 ≤ d.length → d.length ≤ 4096 → d.length % 4 = 0 →
              exec (.add h d) s = .next ((sendAck s h 1 1).bump Ctr.addRefused 0 1)))
      ∧ (inView s = true → h.length = 0 → 32 ≤ h.reqLength → h.reqLength ≤ 4096 → h.tag < 2 ^ 31 →
        (∀ c o b, h.space = 1 → shelfAt h.address h.reqLength = some (c, o) → shelfRead s c o h.reqLength = some b →
            exec (.readTransfer h) s = .next (replyData s h 0 b))
          ∧ (h.space = 1 → shelfAt h.address h.reqLength = none → exec (.readTransfer h) s = .next (replyData s h 1 []))
          ∧ (h.space ≠ 1 → allLocal s h.address h.reqLength false = false →
              exec (.readTransfer h) s = .next (replyData s h 1 []))
          ∧ (h.space ≠ 1 → allLocal s h.address h.reqLength false = true → rangeBusy s h.address h.reqLength false = true →
              exec (.readTransfer h) s = .next { s with linkWait := s.linkWait ++ [({ h with op := 1 }, [])] })
          ∧ (h.space ≠ 1 → pageOf h.address = pageOf (h.address + h.reqLength - 1) →
              allLocal s h.address h.reqLength false = true → rangeBusy s h.address h.reqLength false = false →
              ∀ b, ddrRead s (localAt s h.address) h.reqLength = some b →
                exec (.readTransfer h) s = .next (replyData (countRead s (localAt s h.address) h.reqLength) h 0 b)))
      ∧ (inView s = true → h.length = d.length → 32 ≤ d.length → d.length ≤ 4096 →
          (h.space ≠ 1 → allLocal s h.address d.length true = true → rangeBusy s h.address d.length true = true →
              exec (.writeTransfer h d) s = .next { s with linkWait := s.linkWait ++ [({ h with op := 3 }, d)] })
            ∧ (∀ c o, h.space = 1 → shelfAt h.address d.length = some (c, o) → ∃ u, exec (.writeTransfer h d) s = .next u
              ∧ u.mem = (shelfWrite s c o d).1.mem ∧ u = sendAck (shelfWrite s c o d).1 h 3 (b2n (!(shelfWrite s c o d).2)))
            ∧ (((h.space = 1 ∧ shelfAt h.address d.length = none)
                ∨ (h.space ≠ 1 ∧ allLocal s h.address d.length true = false)) →
                exec (.writeTransfer h d) s = .next (sendAck s h 3 1)))
      ∧ (inView s = true → h.length = d.length → 4 ≤ d.length → d.length ≤ 4096 → d.length % 4 = 0 →
          (h.address % 4 ≠ 0 → (h.space = 1 ∨ rangeBusy s h.address d.length true = false) →
              exec (.add h d) s = .next ((sendAck s h 1 1).bump Ctr.addRefused 0 1))
            ∧ (h.space ≠ 1 → allLocal s h.address d.length true = false →
                exec (.add h d) s = .next ((sendAck s h 1 1).bump Ctr.addRefused 0 1))
            ∧ (h.space ≠ 1 → allLocal s h.address d.length true = true → rangeBusy s h.address d.length true = true →
                exec (.add h d) s = .next { s with linkWait := s.linkWait ++ [({ h with op := 4 }, d)] })
            ∧ (∀ c o, h.address % 4 = 0 → h.space = 1 → shelfAt h.address d.length = some (c, o) →
                (shelfAdd s c o (bytesF32 (d.length / 4) d)).2 = true → ∃ u, exec (.add h d) s = .next u
                ∧ u.mem.shelf = memAdd s.mem.shelf (c * shelfBytes + o) (bytesF32 (d.length / 4) d)
                ∧ u.mem = { s.mem with shelf := u.mem.shelf }))
      ∧ (∀ c f, h.length = 0 → h.key = 0 → writeOwner s (h.tag % 2 ^ 31) = some (c, f) →
          exec (.ack h) s = .next (returnWrite s c f (h.status == 0) false))
      ∧ (∀ f, h.length = d.length → 32 ≤ d.length → d.length ≤ 4096 → h.status = 0 → gotSlice s h d = none →
          gotChunk s h d = none → gotRot s h d = none →
          s.xfers.find? (fun f => f.id == h.tag && f.kind == 2 && !f.write) = some f →
          exec (.readData h d) s = .next (returnRead s f (some d) false))

/-- R374, R384: ARBITER_ROUND. The requesters granted go to the end of the rotating order with a wait counter of 0 and count a
grant; every other one raised waits one more. An egress arbiter in its order of reset, with no wait at the limit and without
AGE, grants the lowest class raised. No arbiter but the named one changes, and of the cores only what a block path that loses a
shelf bank counts (R148).

R378 to R383, R412: WATCHDOG_CHECK and BACK_IN_SERVICE. Progress moves a unit's time on. A core or segment without progress
for WATCHDOG_US is bitten: it is out of service, the bite is counted and kept, and a core's cellar reads 0. A core that waits
only on what R379 names is not bitten, and its time moves on. The third bite of a core within 10 s retires it; only a unit that is not retired comes back. -/
def Obligations.ArbitersAndWatchdog : Prop :=
  (∀ (s : State) (cls inst : Nat) (raised : List Nat),
      (arbInstances cls ≤ inst → exec (.arbiterRound cls inst raised) s = .next s)
        ∧ (inst < arbInstances cls → ∃ u, exec (.arbiterRound cls inst raised) s = .next u
            ∧ (∀ r, r ∈ (arbRound s cls inst raised).2 → look r (u.arb cls inst).wait = some 0)
            ∧ (∀ r, r ∈ (arbGroups cls).flatten → r ∈ raised → r ∉ (arbRound s cls inst raised).2 →
                look r (u.arb cls inst).wait = some ((look r (s.arb cls inst).wait).getD 0 + 1))
            ∧ (u.arb cls inst).order = ((s.arb cls inst).rot (arbGroups cls).flatten).filter
                  (fun r => !(arbRound s cls inst raised).2.contains r)
                ++ ((s.arb cls inst).rot (arbGroups cls).flatten).filter (fun r => (arbRound s cls inst raised).2.contains r)
            ∧ u = { s with arbs := u.arbs, counters := u.counters, cores := u.cores })
        ∧ (∀ r, cls = 4 → inst < 96 → r < 4 → r ∈ raised → (∀ j, j ∈ raised → r ≤ j) → (s.arb 4 inst).order = [] →
            (∀ j, (look j (s.arb 4 inst).wait).getD 0 < keyNum s 0x0704) → keyNum s 0x0714 ≠ 1 →
            (arbRound s cls inst raised).2 = [r]))
    ∧ (∀ (s : State) (unit : Nat), s.health.imionStopped = false →
        (unit < 128 → (s.core unit).outOfService = false →
            (∀ x, exec (.watchdogCheck 0 unit true x) s = .next (s.setCore unit { (s.core unit) with lastProgress := s.now }))
              ∧ (coreIdle s unit = false → coreExcused s unit = true → exec (.watchdogCheck 0 unit false false) s =
                  .next (s.setCore unit { (s.core unit) with
                    lastProgress := min s.now ((s.core unit).lastProgress + watchdogCc s / 4) }))
              ∧ (coreIdle s unit = false → coreExcused s unit = false → s.pins.haltN = false →
                  s.now < (s.core unit).lastProgress + watchdogCc s → exec (.watchdogCheck 0 unit false false) s = .next s)
              ∧ (coreIdle s unit = false → coreExcused s unit = false → s.pins.haltN = false →
                  (s.core unit).lastProgress + watchdogCc s ≤ s.now →
                  ∃ u, exec (.watchdogCheck 0 unit false false) s = .next u ∧ (u.core unit).outOfService = true
                    ∧ (u.core unit).bites = recentBites s (s.core unit).bites ∧ (u.core unit).tiles = []
                    ∧ (∀ a, unit * 1048576 ≤ a → a < unit * 1048576 + 1048576 → memGet a u.mem.cellar = 0)
                    ∧ (∀ a, (a < unit * 1048576 ∨ unit * 1048576 + 1048576 ≤ a) →
                        memGet a u.mem.cellar = memGet a s.mem.cellar)
                    ∧ (3 ≤ (recentBites s (s.core unit).bites).length → (u.core unit).retired = true)))
          ∧ (unit < 22 → (s.seg unit).outOfService = false →
              (∀ x, exec (.watchdogCheck 1 unit true x) s = .next (s.setSeg unit { (s.seg unit) with lastProgress := s.now }))
                ∧ ((s.seg unit).lastProgress + watchdogCc s ≤ s.now → ∃ u, exec (.watchdogCheck 1 unit false false) s = .next u
                    ∧ (u.seg unit).outOfService = true ∧ (u.seg unit).bites = recentBites s (s.seg unit).bites))
          ∧ ((s.core unit).outOfService = true → (s.core unit).retired = false → ∃ u, exec (.backInService 0 unit) s = .next u
              ∧ u.core unit = { (s.core unit) with outOfService := false, lastProgress := s.now }
              ∧ u = { s with cores := u.cores })
          ∧ (((s.core unit).outOfService = false ∨ (s.core unit).retired = true) →
              exec (.backInService 0 unit) s = .next s)
          ∧ ((s.seg unit).outOfService = true → exec (.backInService 1 unit) s =
              .next (s.setSeg unit { (s.seg unit) with outOfService := false, lastProgress := s.now })))

/-! DDR channels. -/

/-- R305, R307, R310, R314: a request within one burst of its channel enters the channel's queue while a session is open.
BURST_READ answers the request at the head: a fresh frame with zeros, without an access; a burst without errors, or with those
of one device, with its bytes; one that two devices have spoilt with none, and it is poisoned; a poisoned one, or one of a
channel that is lost, with none. Memory bytes never change. -/
def Obligations.BurstsAreRead : Prop :=
  ∀ (s : State) (ch : Nat),
    (∀ req op addr len d, sessionOpen s = true → ch < 24 → chanOf addr = ch → 1 ≤ len → addr % 64 + len ≤ 64 →
        frameOf addr < wholeFrames → op ≤ 2 → ∃ u, exec (.ddrQueueEntry ch req op addr len d) s = .next u
        ∧ (u.chan ch).queue = (s.chan ch).queue ++
          [{ id := s.nextXfer, op := op, addr := addr, len := len, data := slice d 0 len, requester := req }]
        ∧ (∀ c, c ≠ ch → u.chan c = s.chan c) ∧ u = { s with chans := u.chans, nextXfer := u.nextXfer })
      ∧ (∀ req op addr len d, (sessionOpen s = false ∨ chanOf addr ≠ ch ∨ 64 < addr % 64 + len) →
          exec (.ddrQueueEntry ch req op addr len d) s = .next s)
      ∧ (∀ errs extra, headEntry s ch 0 = none → exec (.burstRead ch errs extra) s = .next s)
      ∧ (∀ e errs extra, headEntry s ch 0 = some e →
          let c := (s.chan ch)
          let b := e.addr / 64
          (frameOf e.addr ∉ s.mem.filled → c.lost = false →
              exec (.burstRead ch errs extra) s = .next (answer s ch e (some (List.replicate e.len 0))))
            ∧ (c.lost = true → exec (.burstRead ch errs extra) s = .next (answer s ch e none))
            ∧ (c.lost = false → frameOf e.addr ∈ s.mem.filled → b ∈ s.mem.ddrPoison →
                exec (.burstRead ch errs extra) s = .next (answer (s.bump Ctr.bytesRead ch 64) ch e none))
            ∧ (frameOf e.addr ∈ s.mem.filled → c.lost = false → b ∉ s.mem.ddrPoison → c.marked = [] →
                exec (.burstRead ch [] 0) s =
                    .next (answer (s.bump Ctr.bytesRead ch 64) ch e (some (memRead s.mem.ddr e.addr e.len)))
                  ∧ (∀ x, ∃ u, exec (.burstRead ch [x] 0) s = .next u ∧ u.mem = s.mem
                      ∧ u = answer (noteFix ((s.bump Ctr.bytesRead ch 64).bump Ctr.corrected ch 1) ch b x) ch e
                          (some (memRead s.mem.ddr e.addr e.len)))
                  ∧ (∀ x y more, ∃ u, exec (.burstRead ch (x :: y :: more) extra) s = .next u
                      ∧ (u.chan ch).replies = c.replies ++ [(e.id, none)] ∧ (u.chan ch).queue = c.queue.drop 1
                      ∧ b ∈ u.mem.ddrPoison ∧ u.mem.ddr = s.mem.ddr)))

/-- R304, R306, R310, R314: BURST_WRITE and ATOMIC_ADD_BURST serve the request at the head. A whole burst is written and its
poison is cleared; every byte outside it stays. A part of a poisoned burst is not applied. Every addend is added to its
element. FRESH_FILL makes every byte of a fresh frame 0 and changes none outside it, and clears its poison but in bursts of a lost
channel; a filled one it leaves alone, and it waits while a channel retrains. -/
def Obligations.BurstsAreWritten : Prop :=
  ∀ (s : State) (ch : Nat),
    (∀ errs extra, (headEntry s ch 1 = none → exec (.burstWrite ch errs extra) s = .next s)
        ∧ (headEntry s ch 2 = none → exec (.atomicAddBurst ch errs extra) s = .next s))
      ∧ (∀ e errs extra, headEntry s ch 1 = some e → chanOf e.addr = ch → frameOf e.addr ∈ s.mem.filled →
          memWf 0 s.mem.ddr = true →
          (e.len = 64 → e.addr % 64 = 0 → (s.chan ch).lost = false → ∃ u, exec (.burstWrite ch errs extra) s = .next u
              ∧ (∀ i, i < 64 → memGet (e.addr + i) u.mem.ddr = e.data.getD i 0)
              ∧ (∀ a, (a < e.addr ∨ e.addr + 64 ≤ a) → memGet a u.mem.ddr = memGet a s.mem.ddr)
              ∧ e.addr / 64 ∉ u.mem.ddrPoison ∧ (u.chan ch).replies = (s.chan ch).replies ++ [(e.id, some [])]
              ∧ u = { s with mem := { s.mem with ddr := u.mem.ddr, ddrPoison := u.mem.ddrPoison }, chans := u.chans
                             counters := u.counters })
            ∧ (e.len < 64 → (s.chan ch).lost = false → e.addr / 64 ∈ s.mem.ddrPoison →
                exec (.burstWrite ch errs extra) s = .next (answer (s.bump Ctr.bytesRead ch 64) ch e none)))
      ∧ (∀ e, headEntry s ch 2 = some e → chanOf e.addr = ch → frameOf e.addr ∈ s.mem.filled →
          ((s.chan ch).lost = false → e.addr / 64 ∈ s.mem.ddrPoison → ∀ errs extra,
              exec (.atomicAddBurst ch errs extra) s = .next (answer (s.bump Ctr.bytesRead ch 64) ch e none))
            ∧ (e.addr / 64 ∉ s.mem.ddrPoison → (s.chan ch).lost = false → (s.chan ch).marked = [] → 4 ≤ e.len →
                e.addr % 64 + e.len ≤ 64 → ∃ u, exec (.atomicAddBurst ch [] 0) s = .next u
                ∧ u.mem.ddr = memAdd s.mem.ddr e.addr (bytesF32 (e.len / 4) e.data)
                ∧ (u.chan ch).replies = (s.chan ch).replies ++ [(e.id, some [])]
                ∧ u = { s with mem := { s.mem with ddr := u.mem.ddr }, chans := u.chans, counters := u.counters }))
      ∧ (∀ frame, ((sessionOpen s = false ∨ wholeFrames ≤ frame ∨ frame ∈ s.mem.filled) →
            exec (.freshFill frame) s = .next s)
          ∧ (anyTraining s = true → exec (.freshFill frame) s = .next s)
          ∧ (sessionOpen s = true → anyTraining s = false → frame < wholeFrames → frame ∉ s.mem.filled → ∃ u, exec (.freshFill frame) s = .next u
              ∧ (∀ a, frameOf a = frame → memGet a u.mem.ddr = 0)
              ∧ (∀ a, frameOf a ≠ frame → memGet a u.mem.ddr = memGet a s.mem.ddr) ∧ frame ∈ u.mem.filled
              ∧ (∀ b, b ∈ u.mem.ddrPoison ↔ b ∈ s.mem.ddrPoison ∧ (frameOf (64 * b) ≠ frame ∨ chanLost s b = true))
              ∧ u = { s with mem := u.mem, counters := u.counters }))

/-- R309, R311, R315: the channels' upkeep. SCRUB reads one burst of an idle channel and goes on to the next; a pass completed is
counted and begins anew; one that is uncorrectable is poisoned. A link error is retried eight times, then the channel retrains;
training that fails loses the channel. Zeroing makes the next frame's bytes 0 unless the session has filled it. -/
def Obligations.ChannelsAreKept : Prop :=
  ∀ (s : State) (ch : Nat),
    let c := s.chan ch
    let b := chanBurst ch c.scrubAt
    (∀ errs extra, (24 ≤ ch ∨ mainUp s = false ∨ c.queue ≠ [] ∨ c.training = true ∨ c.lost = true) →
        exec (.scrub ch errs extra) s = .next s)
      ∧ (ch < 24 → mainUp s = true → c.queue = [] → c.training = false → c.lost = false →
          (c.marked = [] → b ∉ s.mem.ddrPoison → ∃ u, exec (.scrub ch [] 0) s = .next u ∧ u.mem = s.mem
              ∧ (u.chan ch).scrubAt = (if c.scrubAt + 1 < chanBursts then c.scrubAt + 1 else 0)
              ∧ (chanBursts ≤ c.scrubAt + 1 →
                  u.counter Ctr.scrubPasses ch = min (s.counter Ctr.scrubPasses ch + 1) (2 ^ 64 - 1))
              ∧ u = { s with chans := u.chans, counters := u.counters })
            ∧ (∀ x y more extra, c.marked = [] → ∃ u, exec (.scrub ch (x :: y :: more) extra) s = .next u
                ∧ b ∈ u.mem.ddrPoison ∧ u.mem.ddr = s.mem.ddr)
            ∧ (∀ errs extra, b ∈ s.mem.ddrPoison → ∃ u, exec (.scrub ch errs extra) s = .next u ∧ u.mem = s.mem
                ∧ (u.chan ch).scrubAt = (if c.scrubAt + 1 < chanBursts then c.scrubAt + 1 else 0)))
      ∧ ((24 ≤ ch ∨ mainUp s = false ∨ c.lost = true) →
          exec (.linkRetry ch) s = .next s ∧ ∀ ok, exec (.channelRetrain ch ok) s = .next s)
      ∧ (ch < 24 → mainUp s = true → c.lost = false →
          (c.training = true → exec (.linkRetry ch) s = .next s)
            ∧ (c.training = false → c.retries < 8 → exec (.linkRetry ch) s =
              .next ((s.setChan ch { c with retries := c.retries + 1 }).bump Ctr.linkRetries ch 1))
            ∧ (c.training = false → 8 ≤ c.retries → exec (.linkRetry ch) s = .next (s.setChan ch { c with training := true }))
            ∧ (∃ u, exec (.channelRetrain ch true) s = .next u ∧ u.chan ch = { c with training := false, retries := 0 }
                ∧ u = { s with chans := u.chans, counters := u.counters })
            ∧ (∃ u, exec (.channelRetrain ch false) s = .next u ∧ (u.chan ch).lost = true ∧ u.mem = s.mem))
      ∧ ((s.mem.zeroing = false ∨ mainUp s = false) → exec .backgroundZeroing s = .next s)
      ∧ (∀ x, x ∈ s.chans → (x.2.queue ≠ [] ∨ x.2.training = true) → exec .backgroundZeroing s = .next s)
      ∧ (s.mem.zeroing = true → mainUp s = true → (∀ x, x ∈ s.chans → x.2.queue = [] ∧ x.2.training = false) →
          ∃ u, exec .backgroundZeroing s = .next u
            ∧ (∀ a, frameOf a = s.mem.zeroAt / 32768 → frameOf a ∉ s.mem.filled → memGet a u.mem.ddr = 0)
            ∧ (∀ a, (frameOf a ≠ s.mem.zeroAt / 32768 ∨ frameOf a ∈ s.mem.filled) →
                memGet a u.mem.ddr = memGet a s.mem.ddr)
            ∧ u.mem.zeroAt = min (s.mem.zeroAt + 32768) ddrBursts
            ∧ u.mem.zeroing = decide (s.mem.zeroAt + 32768 < ddrBursts) ∧ u.mem.filled = s.mem.filled)

/-! Ethernet. -/

/-- R325, R326, R331, R341: ROCE_PACKET. Nothing is taken on a sub-port that is down; a packet that fails MACsec or the ICRC is
counted and dropped. An RDMA WRITE in sequence, of whole slots into the queue pair's window, places its bytes there and the next
number is expected; a packet ahead of the expected number is refused and places nothing, and an operation that a host may not
send is refused as an invalid request. An acknowledgement ends what it covers, and of a message that it covers in part the
packets covered are not sent again. ACK_TIMEOUT sends again up to seven times; then the queue pair fails. -/
def Obligations.PacketsInSequence : Prop :=
  ∀ (s : State) (u : Nat) (k : RocePacket),
    let w := s.bump Ctr.rxBytes u (roceFrame s u k.data.length (rxExt k))
    ((s.port u).up = false → exec (.rocePacket u k) s = .next s)
      ∧ ((s.port u).up = true → macsecOk s u k.secOk k.pn = false →
          exec (.rocePacket u k) s = .next (w.bump Ctr.macsecDrops u 1))
      ∧ ((s.port u).up = true → macsecOn s u = false → k.icrcOk = false →
          exec (.rocePacket u k) s = .next (w.bump Ctr.icrcErrors u 1))
      ∧ (∀ v, (s.port u).up = true → macsecOn s u = false → k.icrcOk = true → s.qp k.qp = some v → v.phase ≠ 3 →
          v.subport = u → portIp s u = true → k.ce = false →
          (k.op = 1 → k.psn % 2 ^ 24 = v.epsn → k.dmaLen = k.data.length → windowOk v k.va k.rkey k.dmaLen = true →
              ∃ t x, exec (.rocePacket u k) s = .next t ∧ t.mem = (windowPut s v k.va k.data).mem ∧ t.qp k.qp = some x
                ∧ x.epsn = (k.psn + 1) % 2 ^ 24 ∧ t.orders = s.orders)
            ∧ (k.op = 1 → k.psn % 2 ^ 24 = v.epsn → 0 < k.dmaLen → windowOk v k.va k.rkey k.dmaLen = false →
                ∃ t x, exec (.rocePacket u k) s = .next t ∧ t.mem = s.mem ∧ t.qp k.qp = some x ∧ x.phase = 3)
            ∧ (k.op ≤ 4 → k.psn % 2 ^ 24 ≠ v.epsn → 2 ^ 23 ≤ psnDiff k.psn v.epsn →
                exec (.rocePacket u k) s = .next (txMsg w k.qp { kind := 4, dest := k.qp, data := [0] }))
            ∧ (k.op = 5 → v.sendQ = [] → ∃ t x, exec (.rocePacket u k) s = .next t ∧ t.qp k.qp = some x
                ∧ x.unacked = v.unacked.filterMap (leftOf k.psn) ∧ t.mem = s.mem)
            ∧ (k.op = 2 → k.psn % 2 ^ 24 = v.epsn →
                exec (.rocePacket u k) s = .next (qpError (txMsg w k.qp { kind := 4, dest := k.qp, data := [1] }) k.qp 1)))
      ∧ (∀ (psn : Nat) (m : Nat × Nat × Out),
          (2 ^ 23 ≤ psnDiff m.1 (psn + 1) → leftOf psn m = some m)
            ∧ (psnDiff m.1 (psn + 1) < 2 ^ 23 → m.2.1 ≤ psnDiff m.1 (psn + 1) → leftOf psn m = none)
            ∧ (psnDiff m.1 (psn + 1) < 2 ^ 23 → psnDiff m.1 (psn + 1) < m.2.1 → leftOf psn m =
                some (m.1, m.2.1, { m.2.2 with skip := max (psnDiff m.1 (psn + 1)) m.2.2.skip })))
      ∧ (∀ q v, s.qp q = some v →
          ((v.phase = 3 ∨ v.unacked = []) → exec (.ackTimeout q) s = .next s)
            ∧ (v.phase ≠ 3 → v.unacked ≠ [] → v.retries < 7 → ∃ t x, exec (.ackTimeout q) s = .next t ∧ t.qp q = some x
                ∧ x = { v with retries := v.retries + 1, sentAt := s.now } ∧ t.mem = s.mem)
            ∧ (v.phase ≠ 3 → v.unacked ≠ [] → 7 ≤ v.retries → ∃ t x, exec (.ackTimeout q) s = .next t ∧ t.qp q = some x
                ∧ x.phase = 3 ∧ x.unacked = [] ∧ t.mem = s.mem))

/-- R323, R324, R344: sub-ports link up in stage READY with a MAC address and their clock, and go down; both are posted. Of other
frames one that is too long, of another VLAN or of an unsupported kind does nothing but count; an ARP request for the own
address is answered by one frame. -/
def Obligations.PortsAndFrames : Prop :=
  ∀ (s : State) (u : Nat),
    let ok := (s.port u).up = false ∧ u < 16 ∧ s.pins.stage = 4 ∧ portExists s u = true ∧ bit (portFlags s u) 0 = true
      ∧ bit s.pins.refSer (u / 4) = true
    (¬ ok → exec (.portUp u) s = .next s)
      ∧ (ok → ∃ t, exec (.portUp u) s = .next t ∧ (t.port u).up = true ∧ (t.port u).sak = none ∧ (t.port u).held = []
          ∧ (∀ j, j ≠ u → t.port j = s.port j)
          ∧ t = { s with ports := t.ports, portDownUntil := t.portDownUntil, coffer := t.coffer, qps := t.qps
                         counters := t.counters, health := t.health })
      ∧ ((s.port u).up = false → exec (.portDown u) s = .next s ∧ ∀ k, exec (.ethFrameReceive u k) s = .next s)
      ∧ ((s.port u).up = true → ∃ t, exec (.portDown u) s = .next t ∧ (t.port u).up = false ∧ (t.port u).sak = none
          ∧ (∀ j, j ≠ u → t.port j = s.port j)
          ∧ t = { s with ports := t.ports, coffer := t.coffer, qps := t.qps, counters := t.counters, health := t.health })
      ∧ (∀ k : EthFrame, (s.port u).up = true → macsecOn s u = false →
          let w := s.bump Ctr.rxBytes u k.len
          (9216 < k.len → exec (.ethFrameReceive u k) s = .next (w.bump Ctr.rxOversize u 1))
            ∧ (k.len ≤ 9216 → vlanOk s u k.vlan = false → exec (.ethFrameReceive u k) s = .next w)
            ∧ (k.len ≤ 9216 → vlanOk s u k.vlan = true → (k.kind = 4 ∨ 7 ≤ k.kind) →
                exec (.ethFrameReceive u k) s = .next (w.bump Ctr.rxUnsupported u 1))
            ∧ (k.len ≤ 9216 → vlanOk s u k.vlan = true → k.kind = 0 → ownIp s u k.ip = true →
                ∃ t, exec (.ethFrameReceive u k) s = .next t
                  ∧ t.out = { kind := 6, dest := u, data := slice (portRec s u) 0 6 ++ k.ip } :: s.out
                  ∧ t = { s with out := t.out, counters := t.counters }))

/-- R339, R340: a PAUSE of the RoCE priority holds the sub-port's messages for its quanta, one of 0 quanta releases them, and
none counts during a storm guard or on another priority. A storm ends the pause and guards for 1 s. A CNP halves the rate by α
at most once in 50 µs and makes α grow, but on a sub-port that requires MACsec and has no key it is discarded and counted;
recovery moves the rate half way to its target and makes α shrink.

R341, R343, R245: MKA installs the key agreed, from packet number 1, where a CAK is set and the policy requires MACsec;
otherwise a failed agreement is posted. A PTP update of an enabled port is taken when its port is slave with its delay measured;
an outlier beyond 1 µs is counted and leaves the offset. -/
def Obligations.FlowKeysAndTime : Prop :=
  (∀ (s : State),
      (∀ u prio quanta, let p := s.port u
        ((p.up = false ∨ prio ≠ keyNum s 0x0510) → exec (.pauseFrame u prio quanta) s = .next s)
          ∧ (p.up = true → prio = keyNum s 0x0510 → p.stormUntil = none → 0 < quanta →
              ∃ t, exec (.pauseFrame u prio quanta) s = .next t
                ∧ (t.port u).pausedUntil = s.now + quanta * 512000000 / max 1 (lineRate s u)
                ∧ (t.port u).pausedSince.isSome = true ∧ (t.port u).held = p.held
                ∧ t = { s with ports := t.ports, counters := t.counters })
          ∧ (p.up = true → prio = keyNum s 0x0510 → p.stormUntil = none → p.held = [] → quanta = 0 →
              ∃ t, exec (.pauseFrame u prio 0) s = .next t ∧ t.port u = { p with pausedSince := none, pausedUntil := s.now }
                ∧ t = { s with ports := t.ports }))
        ∧ (∀ u, let p := s.port u
            ((p.up = false ∨ p.pausedSince = none) → exec (.pfcStorm u) s = .next s)
              ∧ (p.up = true → p.pausedSince.isSome = true → p.held = [] → ∃ t, exec (.pfcStorm u) s = .next t
                  ∧ t.port u = { p with pausedSince := none, stormUntil := some (s.now + 1000000000) } ∧ t.mem = s.mem)
              ∧ (∃ t, exec (.pfcStormEnd u) s = .next t ∧ (t.port u).stormUntil = none ∧ t = { s with ports := t.ports }))
        ∧ (∀ q v, s.qp q = some v →
            (v.phase = 3 → exec (.rateRecovery q) s = .next s)
              ∧ (noSak s v.subport = true → exec (.cnp q) s = .next (s.bump Ctr.macsecDrops v.subport 1))
              ∧ (noSak s v.subport = false → v.phase = 3 → exec (.cnp q) s = .next s)
              ∧ (noSak s v.subport = false → v.phase ≠ 3 → ∃ t x, exec (.cnp q) s = .next t ∧ t.qp q = some x
                  ∧ x.alpha = (255 * v.alpha + 65536) / 256 ∧ x.steps = 0 ∧ x.lastCnp = s.now
                  ∧ ((v.lastCut = none ∨ ∃ a, v.lastCut = some a ∧ a + 50000 ≤ s.now) →
                      x.rate = max 100000 (v.rate - v.rate * v.alpha / 131072) ∧ x.target = v.rate
                        ∧ x.lastCut = some s.now)
                  ∧ (∀ a, v.lastCut = some a → s.now < a + 50000 → x.rate = v.rate ∧ x.target = v.target
                        ∧ x.lastCut = v.lastCut)
                  ∧ t = { s with qps := t.qps, counters := t.counters })
              ∧ (v.phase ≠ 3 → ∃ t x, exec (.rateRecovery q) s = .next t ∧ t.qp q = some x
                  ∧ x.alpha = 255 * v.alpha / 256 ∧ x.steps = v.steps + 1
                  ∧ x.rate = min (lineRate s v.subport) ((v.rate + x.target) / 2)
                  ∧ (v.steps < 5 → x.target = v.target) ∧ t = { s with qps := t.qps })))
    ∧ (∀ (s : State) (u : Nat),
        (∀ sak, (s.port u).up = false ∨ macsecOn s u = false → exec (.mka u sak) s = .next s)
          ∧ (∀ a c, (s.port u).up = true → macsecOn s u = true → keyVal s (0x0530 + u) = some c →
              ∃ t, exec (.mka u (some a)) s = .next t ∧ (t.port u).sak = some a ∧ (t.port u).nextPn = 1
                ∧ t = { s with ports := t.ports })
          ∧ ((s.port u).up = true → macsecOn s u = true → exec (.mka u none) s = .next (postEvent s 0x34 (items [u])))
          ∧ (∀ time off pred sl me,
              (((s.port u).up = false ∨ keyNum s (0x0540 + u / 4) ≠ 1 ∨ noSak s u = true) →
                  exec (.ptpTimeUpdate u time off pred sl me) s = .next s)
                ∧ ((s.port u).up = true → keyNum s (0x0540 + u / 4) = 1 → noSak s u = false → sl = true → me = true →
                    1000 < (off - pred).natAbs → ∃ t, exec (.ptpTimeUpdate u time off pred sl me) s = .next t ∧ t.ptp.offset = s.ptp.offset
                      ∧ t.counter Ctr.ptpOutliers u = min (s.counter Ctr.ptpOutliers u + 1) (2 ^ 64 - 1)
                      ∧ t = { s with ptp := t.ptp, counters := t.counters })
                ∧ ((s.port u).up = true → keyNum s (0x0540 + u / 4) = 1 → noSak s u = false → sl = true → me = true →
                    (off - pred).natAbs ≤ 1000 → ∃ t, exec (.ptpTimeUpdate u time off pred sl me) s = .next t
                    ∧ t.ptp.offset = off ∧ t.ptp.slave = some u
                    ∧ (isKeeper s = true → s.group.source = 1 → bit s.group.ptpPorts (u / 4) = true → off.natAbs ≤ 100 →
                        15 ≤ s.beat.good → s.beat.holdover = false → s.group.ptpTime ≤ time → t.beat.sourceLocked = true)
                    ∧ t = { s with ptp := t.ptp, beat := t.beat })))

/-! Health. -/

/-- R424, R428, R430: COFFER_WRITE takes the oldest entry formed, and where its writes check it stands in both copies at the next
position of its part; a copy whose write fails its check is degraded and is not written again. In STANDBY and after a failed
image it waits. HOLD_UP completes the entry under way and begins no other.

R409, R410, R411: SHELF_SCRUB reads the next word of a shelf and goes on to the one after it, from the last to the first.
A corrected word is counted and stays; an uncorrectable one is poisoned, and every other byte of every shelf stays.

R414: a lockstep mismatch stops Imion, and a second within 10 s halts it; while it is stopped no order is handled. When it has
restarted, what fell due goes out, the restart is counted, and orders are handled again. -/
def Obligations.CofferScrubAndRestart : Prop :=
  (∀ (s : State) (ok0 ok1 : Bool),
      ((s.pins.stage = 0 ∨ s.pins.stage = 8 ∨ s.coffer.queue = []) → exec (.cofferWrite ok0 ok1) s = .next s)
        ∧ (∀ e rest, s.pins.stage ≠ 0 → s.pins.stage ≠ 8 → s.coffer.queue = e :: rest → s.coffer.degraded = [] →
            e.part = 1 → s.coffer.journalUsed < journalLen →
            (∃ u, exec (.cofferWrite true true) s = .next u ∧ u.coffer.queue = rest
                ∧ look (64 + s.coffer.journalUsed) u.coffer.copy0 = some e
                ∧ look (64 + s.coffer.journalUsed) u.coffer.copy1 = some e
                ∧ u.coffer.journalUsed = s.coffer.journalUsed + 1 ∧ u.coffer.degraded = []
                ∧ u = { s with coffer := u.coffer, counters := u.counters })
              ∧ (∃ u, exec (.cofferWrite false true) s = .next u ∧ u.coffer.degraded = [0]
                  ∧ look (64 + s.coffer.journalUsed) u.coffer.copy1 = some e ∧ u.mem = s.mem ∧ u.trust = s.trust))
        ∧ (∀ e rest, s.pins.stage ≠ 0 → s.pins.stage ≠ 8 → s.coffer.queue = e :: rest → s.coffer.degraded = [] → e.part = 2 →
            ∃ u, exec (.cofferWrite true true) s = .next u ∧ u.coffer.queue = rest
              ∧ look (64 + journalLen + s.coffer.ringNext % ringLen) u.coffer.copy0 = some e
              ∧ u.coffer.ringNext = s.coffer.ringNext + 1 ∧ u.coffer.journalUsed = s.coffer.journalUsed)
        ∧ (∃ u, exec .holdUp s = .next u ∧ u.coffer.queue = [] ∧ u.mem = s.mem ∧ u.trust = s.trust ∧ u.pins = s.pins))
    ∧ (∀ (s : State) (c err : Nat),
        let w := (s.core c).scrubAt
        ((128 ≤ c ∨ mainUp s = false) → exec (.shelfScrub c err) s = .next s)
          ∧ (c < 128 → mainUp s = true → ∃ u, exec (.shelfScrub c err) s = .next u
              ∧ (u.core c).scrubAt = (if w + 1 < shelfWords then w + 1 else 0) ∧ (∀ j, j ≠ c → u.core j = s.core j)
              ∧ (err ≤ 1 → u.mem = s.mem)
              ∧ (2 ≤ err → c * shelfWords + w ∈ u.mem.shelfPoison
                  ∧ (∀ a, (a < c * 12582912 + 32 * w ∨ c * 12582912 + 32 * w + 32 ≤ a) →
                      memGet a u.mem.shelf = memGet a s.mem.shelf))
              ∧ u = { s with cores := u.cores, mem := u.mem, counters := u.counters, coffer := u.coffer, qps := u.qps
                             health := u.health }))
    ∧ (∀ s : State,
        (imionUp s = false → exec .lockstepMismatch s = .next s)
          ∧ (imionUp s = true → (s.health.lastMismatch = none ∨ ∃ t, s.health.lastMismatch = some t ∧ t + 10000000000 ≤ s.now) →
              exec .lockstepMismatch s =
                .next { s with health := { s.health with imionStopped := true, lastMismatch := some s.now } })
          ∧ (∀ t, imionUp s = true → s.health.lastMismatch = some t → s.now < t + 10000000000 →
              ∃ u, exec .lockstepMismatch s = .next u ∧ u.pins.stage = 0xA ∧ u.health.imionStopped = true ∧ u.mem = s.mem)
          ∧ (s.health.imionStopped = true → ∀ m n code, orderReady s m n code = none)
          ∧ ((s.health.imionStopped = false ∨ s.pins.stage = 0xA) → exec .imionRestarted s = .next s)
          ∧ (s.health.imionStopped = true → s.pins.stage ≠ 0xA → ∃ u, exec .imionRestarted s = .next u
              ∧ u.health.imionStopped = false ∧ u.health.fellDue = [] ∧ u.health.dueOut = [] ∧ u.orders = s.orders
              ∧ u.links = (s.health.dueOut.foldl (fun t o => sendMgmtNow t o.dest o.addr o.data) s).links
              ∧ u = { s with health := u.health, qps := u.qps, counters := u.counters, coffer := u.coffer, links := u.links
                             turns := u.turns, nextMgmt := u.nextMgmt }))

/-- R202, R415, R416: the governor. A power sample joins the last 1,000, of which it keeps the means over 1 ms and 10 µs. The
budgets given for the next 10 µs never sum to more steps than the allowed power buys, none exceeds its core's demand, and a
core without demand gets none; what a core must withhold it withholds from its first unit first, the weight unit, and it counts
(the order is R202's, the cc counted the model's choice, log 76). Above 1,450 A the current limiter withholds, until below 1,400 A.

R417, R418, R446, Table 16.3: a thermal sample below 115 °C moves the limit L_th: up by 1 W to 1,100 W below 92 °C, down by
1 W to 300 W from 95 °C on, and not in between. At 115 °C, as at a comparator's THERMTRIP, the device trips: THERMTRIP_N is
latched, and the main domain's state is lost.

R420 to R422, R426, R462: the margin G. A slack below 30 ps of a sample, or below 10 ps of a trip, raises it by 5 mV unless
that would pass the ceiling of 860 mV, which is counted, or it rose within 1 ms; a larger slack leaves it. MARGIN_DAILY forms
the day's entry and begins a new day. AVS_SETPOINT requests a setpoint at most 5 mV from the last one acknowledged and never
above the ceiling, and takes it when it is acknowledged. -/
def Obligations.PowerAndMargin : Prop :=
  (∀ s : State,
      (∀ w, (imionUp s = false → s.pins.stage ≠ 0xA → exec (.powerSample w) s = .next s)
          ∧ (imionUp s = true → ∃ u, exec (.powerSample w) s = .next u ∧ u.health.samples = (w :: s.health.samples).take 1000
              ∧ u.health.meanMs = u.health.samples.sum / u.health.samples.length
              ∧ u.health.mean10 = (u.health.samples.take 10).sum / (u.health.samples.take 10).length
              ∧ u = { s with health := u.health }))
        ∧ (∀ (ds : List (Nat × List Nat)) (perStep idle : Nat), (imionUp s = false → exec (.governorBudget ds perStep idle) s = .next s)
            ∧ (imionUp s = true → (ds.map Prod.fst).Nodup → (∀ d, d ∈ ds → d.1 < 128) →
                ∃ u, exec (.governorBudget ds perStep idle) s = .next u
                  ∧ (∀ d, d ∈ ds → let want := (d.2.map (fun n => min n 10000)).sum
                      (u.core d.1).budget ≤ want
                        ∧ (u.core d.1).withheld.sum = want - (u.core d.1).budget
                        ∧ (∀ n rest, d.2 = n :: rest → (u.core d.1).withheld.headD 0 = min (want - (u.core d.1).budget) (min n 10000))
                        ∧ (0 < want → u.counter Ctr.govHoldCc d.1 =
                            min (s.counter Ctr.govHoldCc d.1 + min (want - (u.core d.1).budget) 10000) (2 ^ 64 - 1)))
                  ∧ (ds.map (fun d => (u.core d.1).budget)).sum ≤ (allowedPower s - idle) * 10000000 / max 1 perStep
                  ∧ (∀ c, c < 128 → (∀ d, d ∈ ds → d.1 ≠ c) → (u.core c).budget = 0)
                  ∧ u = { s with cores := u.cores, health := u.health, counters := u.counters, coffer := u.coffer, qps := u.qps }))
        ∧ (∀ a, (mainUp s = false → exec (.currentLimit a) s = .next s)
            ∧ (mainUp s = true → exec (.currentLimit a) s = .next { s with health := { s.health with
                limiting := if 1450 < a then true else if a < 1400 then false else s.health.limiting } })))
    ∧ (∀ s : State,
        (∀ l, ((imionUp s = false ∧ s.pins.stage ≠ 0xA) ∨ l = []) → exec (.thermalSample l) s = .next s)
          ∧ (∀ l, imionUp s = true → l ≠ [] → (∀ t, t ∈ l → t < 115) → ∃ u t, exec (.thermalSample l) s = .next u ∧ t ∈ l
              ∧ (∀ x, x ∈ l → x ≤ t) ∧ u.health.temp = t
              ∧ (t < 92 → u.health.lth = min 1100 (s.health.lth + 1)) ∧ (92 ≤ t → t < 95 → u.health.lth = s.health.lth)
              ∧ (95 ≤ t → u.health.lth = max 300 (s.health.lth - 1))
              ∧ u = { s with health := u.health, coffer := u.coffer, qps := u.qps, counters := u.counters })
          ∧ (∀ l, imionUp s = true → (∃ t, t ∈ l ∧ 115 ≤ t) → s.pins.thermtrip = false → s.pins.stby = true →
              ∃ u, exec (.thermalSample l) s = .next u ∧ u.pins.thermtrip = true ∧ u.pins.stage = 0xB ∧ u.runs = [])
          ∧ (∀ k, ((s.pins.thermtrip = true ∨ s.pins.stby = false) → exec (.thermtrip k) s = .next s)
              ∧ (s.pins.thermtrip = false → s.pins.stby = true → ∃ u, exec (.thermtrip k) s = .next u
                  ∧ u.pins.thermtrip = true ∧ u.pins.stage = 0xB ∧ u.runs = [] ∧ u.trust.session = none
                  ∧ u.trust.fusedSvn = s.trust.fusedSvn ∧ u.mem.xlate = [])))
    ∧ (∀ s : State,
        let h := s.health
        let due := h.lastRise = none ∨ ∃ t, h.lastRise = some t ∧ t + 1000000 ≤ s.now
        (imionUp s = false → (∀ l, exec (.marginSample l) s = .next s) ∧ (∀ k x, exec (.marginTrip k x) s = .next s)
            ∧ exec .marginDaily s = .next s)
          ∧ (imionUp s = true →
              (∀ k x, 10 ≤ x → exec (.marginTrip k x) s = .next s)
                ∧ (∀ l, (∀ x, x ∈ l → 30 ≤ x) → l ≠ [] → ∃ u, exec (.marginSample l) s = .next u ∧ u.health.guard = h.guard
                    ∧ u = { s with health := u.health })
                ∧ (∀ l, (∃ x, x ∈ l ∧ x < 30) → due → h.vmax + h.guard + 5 ≤ ceiling →
                    ∃ u, exec (.marginSample l) s = .next u ∧ u.health.guard = h.guard + 5 ∧ u.health.lastRise = some s.now
                      ∧ u.mem = s.mem)
                ∧ (∀ k x, x < 10 → due → h.vmax + h.guard + 5 ≤ ceiling →
                    ∃ u, exec (.marginTrip k x) s = .next u ∧ u.health.guard = h.guard + 5 ∧ u.health.lastRise = some s.now)
                ∧ (∀ k x, x < 10 → (¬ due ∨ ceiling < h.vmax + h.guard + 5) →
                    ∃ u, exec (.marginTrip k x) s = .next u ∧ u.health.guard = h.guard)
                ∧ (∃ u e, exec .marginDaily s = .next u ∧ u.coffer.queue = s.coffer.queue ++ [e] ∧ e.kind = 0x0007 ∧ e.part = 1
                    ∧ u.health = { h with dayMinS := 65535, dayMon := 0, dayMaxT := 0 }
                    ∧ u = { s with health := u.health, coffer := u.coffer })
                ∧ (h.wanted = none → h.setpoint ≤ ceiling →
                    ∃ u, exec (.avsSetpoint true) s = .next u ∧ u.health.wanted = none ∧ u.health.setpoint ≤ ceiling
                      ∧ u.health.setpoint ≤ h.setpoint + 5 ∧ h.setpoint ≤ u.health.setpoint + 5
                      ∧ u.health.setpoint = nextSetpoint s ∧ u = { s with health := u.health, out := u.out })
                ∧ (∀ w, h.wanted = some w → ∃ u, exec (.avsSetpoint true) s = .next u ∧ u.health.setpoint = w
                    ∧ u.out = { kind := 9, dest := 0, addr := w, data := leBytes 2 w } :: s.out)))

/-! Sessions, attestation and firmware. -/

/-- R390 to R395: ATTEST with too small a result ends with E_RANGE. With no signing under way it reserves the next index: written
to both records and the ledger it is spent, and a quote over the order's nonce and that index is being signed; a record that
fails ends the order and spends nothing that is not recorded. SIGNATURE_RELEASE gives the quote to its order, which ends. A new
ephemeral pair is drawn only while one is due. -/
def Obligations.AttestationSigns : Prop :=
  ∀ s : State,
    (∀ m n o a b c, Admitted s m n 0x11 o → o.resultLen < attestLen →
        exec (.attest m n a b c) s = .next (complete s o eRange (resultDetail 0 attestLen)))
      ∧ (∀ m n o, Admitted s m n 0x11 o → attestLen ≤ o.resultLen → held s o = false → s.trust.signQ = [] →
          s.trust.signing = none → s.trust.generating = false → s.trust.signDisabled = false → s.trust.next < indexEnd →
          (∃ u g, exec (.attest m n true true true) s = .next u ∧ u.trust.signing = some g ∧ g.order = (m, n)
              ∧ g.index = s.trust.next ∧ g.quote = quoteBytes s (slice o.bytes 0x28 32) s.trust.next
              ∧ u.trust.next = s.trust.next + 1 ∧ u.trust.index0 = some (s.trust.next + 1)
              ∧ u.trust.index1 = some (s.trust.next + 1) ∧ (u.order m n).isSome = true ∧ u.mem = s.mem)
            ∧ (∀ b c, ∃ u, exec (.attest m n false b c) s = .next u ∧ u.trust.signing = none ∧ u.trust.next = s.trust.next
                ∧ u.trust.index0 = none ∧ u.order m n = none ∧ u.mem = s.mem))
      ∧ (∀ a b c, s.trust.signing = none → exec (.signatureRelease a b c) s = .next s)
      ∧ (∀ g o a b c, s.trust.signing = some g → s.trust.signQ = [] → s.order g.order.1 g.order.2 = some o →
          held s o = false → ∃ u, exec (.signatureRelease a b c) s = .next u ∧ u.trust.signing = none
          ∧ u.order g.order.1 g.order.2 = none ∧ u.trust.next = s.trust.next ∧ u.mem = s.mem)
      ∧ (∀ a b c, s.trust.generating = false → exec (.ephemeralKeyGeneration a b c) s = .next s)
      ∧ (∀ a b c, s.trust.generating = true → s.trust.signQ = [] → ∃ u, exec (.ephemeralKeyGeneration a b c) s = .next u
          ∧ u.trust.generating = false ∧ u.trust.ek = slice (Config.mlkemKeyGen (random s 64).1).1 0 1568
          ∧ u.trust.dk = (Config.mlkemKeyGen (random s 64).1).2 ∧ u = { s with trust := u.trust, free := u.free })

/-- R396 to R399: OPEN_SESSION. Too small a result, another length, a malformed request, an open session, or spent indices refuse
it; so does a request that names another pair, or whose confirmation is not the derived one, with E_AUTH. A good one opens the
session on its queue pair: every page is ABSENT, every frame fresh, and no other byte of memory changes.

R401, R402, R405, Table 15.7: CLOSE_SESSION destroys the session's keys, and shelves, cellars, side memories, pages, tensors,
programs and slot keys are gone; no other configuration changes. CLOSE_SESSION_COMPLETE waits while a HOST or PEER transfer is
in flight; then the session is closed, no queue pair is bound, no run is left, and the zeroing of DDR begins. -/
def Obligations.SessionsOpenAndClose : Prop :=
  (∀ (s : State) (m n : Nat) (d : Option (List Byte)) (o : Order) (b : List Byte), Admitted s m n 0x0F o →
      let f := resultDetail 0 48
      let v := hostAsk s o
      let formed := field b 0 2 = 1 ∧ field b 2 6 = 0 ∧ s.trust.session = none ∧ s.trust.next < indexEnd
      let known := s.trust.generating = false ∧ slice b 8 32 = shake256 s.trust.ek 32
      let ss := Config.mlkemDecaps s.trust.dk (slice b 0x48 1568)
      (o.resultLen < 48 → exec (.openSession m n d) s = .next (complete s o eRange f))
        ∧ (48 ≤ o.resultLen → field o.bytes 0x2C 4 ≠ 1672 → exec (.openSession m n d) s = .next (complete s o ePlan f))
        ∧ (48 ≤ o.resultLen → field o.bytes 0x2C 4 = 1672 → hostRead v o d 1672 = some b →
            (¬ formed → exec (.openSession m n d) s = .next (complete v o ePlan f))
              ∧ (formed → ¬ known → exec (.openSession m n d) s = .next (complete v o eAuth f))
              ∧ (formed → known → slice b 0x668 32 ≠ derived "ZQS6 confirm" ss b →
                  exec (.openSession m n d) s = .next (complete v o eAuth f))
              ∧ (formed → known → slice b 0x668 32 = derived "ZQS6 confirm" ss b → held s o = false → s.health.imionStopped = false →
                  ∃ u e x, exec (.openSession m n d) s = .next u ∧ u.trust.session = some e ∧ e.secret = ss
                    ∧ e.id = derived "ZQS6 session" ss b ∧ e.k1.length = 32 ∧ e.k2.length = 32 ∧ u.trust.generating = true
                    ∧ u.qp o.qp = some x ∧ x.bound = true ∧ u.mem = { s.mem with xlate := [], filled := [] }
                    ∧ u.order m n = none ∧ u.tensors = s.tensors)))
    ∧ (∀ s : State,
        (∀ m n o, Admitted s m n 0x10 o → ∃ u, exec (.closeSession m n) s = .next u
            ∧ u.trust.closing = some (m, n, s.now) ∧ sessionOpen u = false
            ∧ (∀ e, u.trust.session = some e → e.k1 = [] ∧ e.k2 = []) ∧ u.mem.shelf = [] ∧ u.mem.cellar = [] ∧ u.mem.side = []
            ∧ u.mem.xlate = [] ∧ u.tensors = [] ∧ u.slots = [] ∧ u.streams = [] ∧ u.rots = [] ∧ u.mcs = []
            ∧ (∀ k, keySlot k = false → keyVal u k = keyVal s k) ∧ (∀ p, p ∈ u.keys → keySlot p.1 = false))
          ∧ (s.trust.closing = none → exec .closeSessionComplete s = .next s)
          ∧ (hostPeerInFlight s = true → exec .closeSessionComplete s = .next s)
          ∧ (∀ x, s.trust.closing = some x → hostPeerInFlight s = false → ∃ u, exec .closeSessionComplete s = .next u
              ∧ u.trust.session = none ∧ u.trust.closing = none ∧ u.runs = [] ∧ u.mem.zeroing = true ∧ u.mem.zeroAt = 0
              ∧ u.mem.ddr = s.mem.ddr ∧ (∀ q v, u.qp q = some v → v.bound = false) ∧ u.keys = s.keys))

/-- R386, R387, R403, R404: UPDATE_FIRMWARE refuses an image whose header, version or key slot does not hold with E_PLAN, and one
whose signature or body does not check with E_AUTH; a good one is begun into the copy that does not run, EMPTY meanwhile.
FIRMWARE_STAGED makes it PENDING or BAD and ends the order; the running copy and the fuses stay. -/
def Obligations.FirmwareIsStaged : Prop :=
  ∀ s : State,
    (∀ m n d o b, Admitted s m n 0x14 o →
        let k := field o.bytes 0x2C 4
        let v := hostAsk s o
        let good := headerOk b = true ∧ k = 4096 + field b 0x10 4 ∧ fusesOk s b = true
        hostRead v o d k = some b →
        (¬ good → exec (.updateFirmware m n d) s = .next (complete v o ePlan []))
          ∧ (good → (signatureOk b = false ∨ bodyOk b = false) →
              exec (.updateFirmware m n d) s = .next (complete v o eAuth []))
          ∧ (good → signatureOk b = true → bodyOk b = true → s.trust.running ≤ 1 →
              ∃ u, exec (.updateFirmware m n d) s = .next u ∧ fwCopy u (1 - s.trust.running) = { state := 0, image := b }
                ∧ fwCopy u s.trust.running = fwCopy s s.trust.running
                ∧ u.trust.update = some (m, n, 1 - s.trust.running) ∧ u.trust.fusedSvn = s.trust.fusedSvn
                ∧ u.mem = s.mem))
      ∧ (∀ ok, s.trust.update = none → exec (.firmwareStaged ok) s = .next s)
      ∧ (∀ m n c o ok, s.trust.update = some (m, n, c) → c ≤ 1 → s.order m n = some o → held s o = false →
          ∃ u, exec (.firmwareStaged ok) s = .next u ∧ (fwCopy u c).state = (if ok then 1 else 3)
            ∧ (fwCopy u c).image = (fwCopy s c).image ∧ fwCopy u (1 - c) = fwCopy s (1 - c) ∧ u.trust.update = none
            ∧ u.order m n = none ∧ u.trust.fusedSvn = s.trust.fusedSvn ∧ u.trust.revoked = s.trust.revoked ∧ u.mem = s.mem)

/-! Power, boot and pins. -/

/-- R388, R435 to R437, R440, R444 to R446, R464, R466: what resets the main domain, and what lets it boot. RESET_N held, a main
rail that falls, or REFCLK_CORE lost takes it to stage STANDBY, with runs, orders, session and pages gone; fuses, flash copies,
DDR bytes and coffer copies stay. Stage ROM begins when RESET_N is released, every rail is up and the clock is there, and boot
is counted. The fall of VDD_STBY resets the standby domain as well. -/
def Obligations.ResetAndPower : Prop :=
  ∀ s : State,
    let gone := fun (u : State) => u.pins.stage = 0 ∧ u.runs = [] ∧ u.orders = [] ∧ u.trust.session = none ∧ u.mem.xlate = []
      ∧ u.mem.ddr = s.mem.ddr ∧ u.trust.fusedSvn = s.trust.fusedSvn ∧ u.trust.copyA = s.trust.copyA
      ∧ u.trust.copyB = s.trust.copyB ∧ u.now = s.now
    let boots := fun (v u : State) => u = (if mayBoot v then { v with
      pins := { v.pins with stage := 1 }, coffer := { v.coffer with boot := v.coffer.boot + 1 } } else v)
    ((s.pins.resetN = true ∨ s.pins.stby = false) → exec .resetNAssert s = .next s)
      ∧ (s.pins.resetN = false → s.pins.stby = true → s.pins.stage ≠ 0 → s.pins.stage ≠ 0xB →
          ∃ u, exec .resetNAssert s = .next u ∧ gone u ∧ u.pins.resetN = true ∧ 1 ∈ u.pins.causes)
      ∧ (s.pins.resetN = false → s.pins.stby = true → s.pins.stage = 0 →
          ∃ u, exec .resetNAssert s = .next u ∧ u.pins.resetN = true ∧ 1 ∈ u.pins.causes ∧ u = { s with pins := u.pins })
      ∧ (s.pins.resetN = false → s.pins.stby = true → s.pins.stage = 0xB →
          exec .resetNAssert s = .next { s with pins := { s.pins with resetN := true } })
      ∧ (s.pins.stby = true → ∃ u, exec .resetNRelease s = .next u ∧ boots { s with pins := { s.pins with resetN := false } } u)
      ∧ (∀ r, (6 ≤ r ∨ r ∈ s.pins.rails ∨ s.pins.stby = false) → exec (.railRise r) s = .next s)
      ∧ (∀ r, r < 6 → r ∉ s.pins.rails → s.pins.stby = true → ∃ u, exec (.railRise r) s = .next u
          ∧ u.pins.rails = s.pins.rails ++ [r]
          ∧ (u.pins.railOrder = true ↔ s.pins.railOrder = true ∨ ∃ k, k < r ∧ k ∉ s.pins.rails)
          ∧ (s.pins.resetN = true → u.pins.stage = s.pins.stage))
      ∧ (∀ r, r ∉ s.pins.rails → exec (.railLow r) s = .next s)
      ∧ (∀ r, r ∈ s.pins.rails → s.pins.stage ≠ 0 → ∃ u, exec (.railLow r) s = .next u ∧ gone u ∧ r ∉ u.pins.rails)
      ∧ (∀ r, r ≠ 6 → r ∈ s.pins.rails → s.pins.stage ≠ 0 → s.pins.stage ≠ 0xB → s.pins.resetN = true →
          ∃ u, exec (.railHigh r) s = .next u ∧ gone u)
      ∧ (s.pins.stby = true → (∃ u, exec .vddStbyFall s = .next u ∧ u.pins.stby = false ∧ u.pins.claimed = false
            ∧ u.pins.stage = 0 ∧ u.pins.subports = State.reset.pins.subports ∧ u.trust.copyA = s.trust.copyA)
          ∧ exec .vddStbyApplied s = .next s)
      ∧ (s.pins.stby = false → exec .vddStbyFall s = .next s ∧ exec .resetNRelease s = .next s
          ∧ exec .vddStbyApplied s = .next { s with pins := { s.pins with stby := true } })
      ∧ ((s.pins.thermtrip = false ∨ 1 ∈ s.pins.rails) → exec .thermtripRelease s = .next s)
      ∧ (s.pins.thermtrip = true → 1 ∉ s.pins.rails → exec .thermtripRelease s =
          .next { s with pins := { s.pins with thermtrip := false } })
      ∧ (∃ u, exec .refclkCoreDetect s = .next u ∧ boots { s with pins := { s.pins with refCore := true } } u)
      ∧ (s.pins.stage ≠ 0 → s.pins.stage ≠ 0xB → ∃ u, exec .refclkCoreLoss s = .next u ∧ gone u ∧ u.pins.refCore = false)
      ∧ ((s.pins.stage = 0 ∨ s.pins.stage = 0xB) →
          exec .refclkCoreLoss s = .next { s with pins := { s.pins with refCore := false } })
      ∧ (∀ n ok, 4 ≤ n → exec (.refclkSerChange n ok) s = .next s)
      ∧ (∀ n, n < 4 → mainUp s = true → ∃ u, exec (.refclkSerChange n false) s = .next u ∧ bit u.pins.refSer n = false
            ∧ (∀ k, k < 4 → k ≠ n → bit u.pins.refSer k = bit s.pins.refSer k)
            ∧ (∀ l, l ∈ clockLinks n → (s.link l).state = 1 → (u.link l).state = 0))

/-- R301, R387 to R391, R402, R438, R439: the stages. STAGE_ROM restores the greatest index a record holds, or disables signing
with none, and runs the preferred GOOD copy if it verifies; with no GOOD copy and none PENDING the image has failed. A PENDING
copy is BAD before its code runs. STAGE_IMION zeroes the on-chip memories and draws an ephemeral pair. STAGE_MEMORY trains DDR at
the highest rate at which every channel passes, and READY begins; a channel without a supported module, or no rate, fails it. -/
def Obligations.BootStages : Prop :=
  ∀ s : State,
    let c := s.trust.preferred
    (s.pins.stage ≠ 1 → exec .stageRom s = .next s)
      ∧ (s.pins.stage = 1 → pendingCopy s = none → (fwCopy s c).state = 2 → imageOk s (fwCopy s c).image = true →
          ∃ u, exec .stageRom s = .next u ∧ u.pins.stage = 2 ∧ u.trust.running = c ∧ u.trust.fallback = false
            ∧ u.trust.fwDigest = shake256 (slice (fwCopy s c).image 0 0x40) 32
            ∧ (∀ n, n ∈ indexRecords s → n ≤ u.trust.next) ∧ (indexRecords s ≠ [] → u.trust.next ∈ indexRecords s)
            ∧ (indexRecords s = [] → u.trust.signDisabled = true) ∧ u = { s with trust := u.trust, pins := u.pins })
      ∧ (s.pins.stage = 1 → c ≤ 1 → s.trust.copyA.state ∉ [1, 2] → s.trust.copyB.state ∉ [1, 2] →
          ∃ u, exec .stageRom s = .next u ∧ u.pins.stage = 8 ∧ u.mem = s.mem)
      ∧ (∀ k, s.pins.stage = 1 → pendingCopy s = some k → imageOk s (fwCopy s k).image = true →
          ∃ u, exec .stageRom s = .next u ∧ u.pins.stage = 2 ∧ u.trust.running = k ∧ (fwCopy u k).state = 3
            ∧ u.pins.triedPending = true)
      ∧ (s.pins.stage ≠ 2 → exec .stageImion s = .next s)
      ∧ (s.pins.stage = 2 → ∃ u, exec .stageImion s = .next u ∧ u.pins.stage = 3 ∧ u.mem.shelf = [] ∧ u.mem.cellar = []
          ∧ u.mem.side = [] ∧ u.mem.shelfPoison = [] ∧ u.mem.xlate = [] ∧ u.mem.ddr = s.mem.ddr
          ∧ u.trust.generating = false ∧ u.trust.fusedSvn = s.trust.fusedSvn)
      ∧ (∀ declared un fails, (s.pins.stage ≠ 3 → exec (.stageMemory declared un fails) s = .next s)
          ∧ (s.pins.stage = 3 → s.pins.triedPending = true → s.pins.imionAt + 2000000000 < s.now →
              exec (.stageMemory declared un fails) s =
                .next { s with pins := { s.pins with stage := 1, triedPending := false, trialFailed := true } })
          ∧ (s.pins.stage = 3 → s.pins.triedPending = false → (∃ k, k < 24 ∧ k ∈ un) →
              ∃ u, exec (.stageMemory declared un fails) s = .next u ∧ u.pins.stage = 9 ∧ u.mem = s.mem)
          ∧ (∀ r, s.pins.stage = 3 → s.pins.triedPending = false → (∀ k, k < 24 → k ∉ un) → r ∈ ratesFrom declared →
              firstFail fails r = none → (∀ x, x ∈ ratesFrom declared → r < x → firstFail fails x ≠ none) →
              ∃ u, exec (.stageMemory declared un fails) s = .next u ∧ u.pins.stage = 4 ∧ u.mem.ddrRate = r
                ∧ (∀ l, l < 96 → linkClock s l = true → (u.link l).state = 1))
          ∧ (s.pins.stage = 3 → s.pins.triedPending = false → (∀ x, x ∈ ratesFrom declared → firstFail fails x ≠ none) →
              ∃ u, exec (.stageMemory declared un fails) s = .next u ∧ u.pins.stage = 9 ∧ u.mem = s.mem))

/-- R440, R443, R451: pulses too short for a pin's filter only count. HALT_N asserted holds the cores, released lets them go on;
while VDD_STBY is absent no pin does anything.

R447 to R450: the ladder and the I3C target. While the chain's input asks and no claim stands, a claim of four good bytes gives
the device its addresses and drives LADDER_OUT; a bad one gives nothing; the input is not followed while a claim is in flight.
A claimed device, and no other, answers the common commands and reads from the offset last written, and takes writes there. A
sub-port record is committed only while it may be, and a refused commit changes no record.

R461: BOUNDARY_SCAN. Without VDD_AUX nothing moves; TRST_N low resets the controller, as does TMS high for five clocks from
any of its 16 states. Captured under IDCODE the data register holds 0x5A51_6001 and is shifted out from its lowest bit. -/
def Obligations.PinsLadderAndScan : Prop :=
  (∀ s : State,
      (s.pins.stby = false → (∀ p, exec (.filteredPulse p) s = .next s) ∧ exec .haltNAssert s = .next s
          ∧ exec .haltNRelease s = .next s ∧ ∀ x, exec (.ladderInChange x) s = .next s)
        ∧ (s.pins.stby = true → exec (.filteredPulse 0) s = .next (s.bump Ctr.resetNFiltered 0 1)
            ∧ exec (.filteredPulse 1) s = .next (s.bump Ctr.haltNFiltered 0 1)
            ∧ exec (.filteredPulse 2) s = .next (s.bump Ctr.ladderInFiltered 0 1))
        ∧ (s.pins.haltN = true → exec .haltNAssert s = .next s) ∧ (s.pins.haltN = false → exec .haltNRelease s = .next s)
        ∧ (s.pins.stby = true → s.pins.haltN = false → ∃ u, exec .haltNAssert s = .next u ∧ u.pins.haltN = true
            ∧ u.pins.haltAt = s.now ∧ u = { s with pins := u.pins, counters := u.counters, coffer := u.coffer, qps := u.qps
                                                   health := u.health })
        ∧ (s.pins.stby = true → s.pins.haltN = true → ∃ u, exec .haltNRelease s = .next u ∧ u.pins.haltN = false
            ∧ u.keys = s.keys ∧ u.trust = s.trust))
    ∧ (∀ s : State,
        (∀ x, s.pins.stby = true → s.pins.claiming = false →
            exec (.ladderInChange x) s = .next { s with pins := { s.pins with ladderIn := x } })
          ∧ (∀ x, s.pins.stby = true → s.pins.claiming = true →
              exec (.ladderInChange x) s = .next (s.bump Ctr.ladderInIgnored 0 1))
          ∧ (∀ a d, answersStatic s = false → exec (.ladderClaim a d) s = .next s)
          ∧ (∀ d, answersStatic s = true →
              exec (.ladderClaim true d) s = .next { s with pins := { s.pins with claiming := true } }
                ∧ (claimOk d = true → exec (.ladderClaim false d) s = .next { s with pins := { s.pins with
                    claiming := false, claimed := true, ladderOut := true, ladderAddr := field d 0 1, dynAddr := field d 1 1 } })
                ∧ (claimOk d = false →
                    exec (.ladderClaim false d) s = .next { s with pins := { s.pins with claiming := false } }))
          ∧ (answersDynamic s = false → exec .getpid s = .next s ∧ exec .getbcr s = .next s ∧ exec .getdcr s = .next s
              ∧ exec .getstatus s = .next s ∧ (∀ d, exec (.i3cPrivateWrite d) s = .next s)
              ∧ (∀ n, exec (.i3cPrivateRead n) s = .next s) ∧ (∀ x, exec (.statusWordClear x) s = .next s)
              ∧ ∀ j f, exec (.subportCommit j f) s = .next s)
          ∧ (answersDynamic s = true →
              let sent := fun (u : State) (d : List Byte) => u.out = { kind := 8, dest := s.pins.dynAddr, data := d } :: s.out
              (∃ u, exec .getpid s = .next u ∧ u = { s with out := u.out }
                  ∧ sent u ([Config.getPidHigh 0, Config.getPidHigh 1] ++ (leBytes 4 s.trust.serial).reverse))
                ∧ (∃ u, exec .getbcr s = .next u ∧ u = { s with out := u.out } ∧ sent u [Config.getBcr])
                ∧ (∃ u, exec .getdcr s = .next u ∧ u = { s with out := u.out } ∧ sent u [Config.getDcr])
                ∧ (∃ u, exec .getstatus s = .next u ∧ sent u (leBytes 2 (Config.getStatus s.free).toNat).reverse
                    ∧ u = { s with out := u.out, free := s.free + 1 })
                ∧ (∀ n, ∃ u, exec (.i3cPrivateRead n) s = .next u
                    ∧ sent u ((List.range n).map (fun i => i3cByte s ((s.pins.i3cOffset + i) % 65536)))
                    ∧ u = { s with out := u.out, pins := { s.pins with i3cOffset := (s.pins.i3cOffset + n) % 65536 } })
                ∧ (∀ d, 2 ≤ d.length → ∃ u, exec (.i3cPrivateWrite d) s = .next u
                    ∧ u.pins.i3cOffset = (field d 0 2 + (d.length - 2)) % 65536 ∧ u.mem = s.mem ∧ u.trust = s.trust)
                ∧ (∀ j k b, j < 16 → k < 28 → exec (.i3cPrivateWrite (leBytes 2 (0x100 + 32 * j + k) ++ [b])) s =
                    .next { s with pins := { s.pins with
                      i3cOffset := 0x100 + 32 * j + k + 1
                      staged := s.pins.staged.set j ((s.pins.staged.getD j []).set k b) } })
                ∧ (∀ x : BitVec 32, exec (.statusWordClear x) s = .next { s with pins := { s.pins with
                    railOrder := s.pins.railOrder && !x.getLsbD 7, applyRefused := s.pins.applyRefused && !x.getLsbD 8 } })
                ∧ (∀ j (f : Byte), j < 16 →
                    let r := s.pins.staged.getD j []
                    (recordAdmitted s j r f.toNat = false → exec (.subportCommit j f) s =
                        .next { s with pins := { s.pins with applyRefused := true } })
                      ∧ (recordAdmitted s j r f.toNat = true → ∃ u, exec (.subportCommit j f) s = .next u
                          ∧ u.pins.subports = s.pins.subports.set j (slice r 0 28 ++ leBytes 1 f.toNat ++ leBytes 3 0)
                          ∧ (bit f.toNat 0 = false → (u.port j).up = false) ∧ u.pins.staged = s.pins.staged))))
    ∧ (∀ s : State,
        (∀ a b c, 0 ∉ s.pins.rails → exec (.boundaryScan a b c) s = .next s)
          ∧ (0 ∈ s.pins.rails →
              (∀ a b, ∃ u, exec (.boundaryScan a b false) s = .next u ∧ u.pins.tap = 0 ∧ u.pins.tapIr = 2 ∧ u.pins.tdo = false
                  ∧ u = { s with pins := u.pins })
                ∧ (∀ b1 b2 b3 b4 b5, s.pins.tap < 16 → ∃ u1 u2 u3 u4 u5, exec (.boundaryScan true b1 true) s = .next u1
                    ∧ exec (.boundaryScan true b2 true) u1 = .next u2 ∧ exec (.boundaryScan true b3 true) u2 = .next u3
                    ∧ exec (.boundaryScan true b4 true) u3 = .next u4 ∧ exec (.boundaryScan true b5 true) u4 = .next u5
                    ∧ u5.pins.tap = 0 ∧ u5.pins.tapIr = 2)
                ∧ (∀ b, s.pins.tap = 3 → s.pins.tapIr = 2 → ∃ u, exec (.boundaryScan false b true) s = .next u ∧ u.pins.tap = 4
                    ∧ u.pins.tapShift = 0x5A516001 ∧ u.pins.tdo = true ∧ u = { s with pins := u.pins })
                ∧ (∀ b, s.pins.tap = 4 → s.pins.tapIr = 2 → ∃ u, exec (.boundaryScan false b true) s = .next u ∧ u.pins.tap = 4
                    ∧ u.pins.tapShift = s.pins.tapShift / 2 + (if b then 2147483648 else 0)
                    ∧ u.pins.tdo = u.pins.tapShift.testBit 0 ∧ u = { s with pins := u.pins })
                ∧ (∀ b, s.pins.tap = 4 → 2 < s.pins.tapIr → ∃ u, exec (.boundaryScan false b true) s = .next u
                    ∧ u.pins.tap = 4 ∧ u.pins.tdo = b ∧ u = { s with pins := u.pins })))

/-! Completions said outright. -/

/-- What certain commands leave, each as the next state itself, under conditions on the state and the operands alone.

R330: ORDER_WINDOW_WRITE inside the queue pair's mailboxes. R348 to R351: ORDER_TAKE of the order expected, and
MAILBOX_SWEEP, which takes it when no other mailbox holds an order. R262, R264, R234: the management messages of a rank of the
view that decide or abort a transaction and that announce a view, in the encoding that log 9 chooses.

R435 to R437, R444, R446, R464 to R466: the rails, the clocks, the standby domain, RESET_N and THERMTRIP_N of a device in
STANDBY. A release, a rise or a clock that comes last of what stage ROM needs begins it and counts a boot; one that does not
only changes its own pin. In any later stage a rail that falls, a rail or VDD_STBY out of its range, RESET_N or the loss of
the clock takes the device to STANDBY. -/
def Obligations.CommandsCompleteOutright : Prop :=
  (∀ (s : State) (q addr rkey : Nat) (d : List Byte) (v : Qp), s.qp q = some v → v.phase = 1 → noSak s v.subport = false →
      rkey = v.windowRkey → v.windowVa ≤ addr → (addr - v.windowVa) % 256 = 0 → 1 ≤ d.length → d.length % 256 = 0 →
      addr - v.windowVa + d.length ≤ 4096 * v.mailboxCount →
      exec (.orderWindowWrite q addr rkey d) s =
        .next { s with mem := { s.mem with
          window := memWrite s.mem.window (4096 * v.firstMailbox + (addr - v.windowVa)) d } })
    ∧ (∀ (s : State) (m q : Nat) (v : Qp),
        let b := s.mailbox m
        let r := memRead s.mem.window (4096 * m + 256 * b.head) 256
        let n := b.expected
        let taken := (({ s with
            mailboxes := put m { b with head := (b.head + 1) % 16, expected := nextNumber n, faulted := false } s.mailboxes
            orders := s.orders ++ [{ mailbox := m, number := n, qp := q, bytes := r }] } : State)).bump Ctr.ordersTaken 0 1
        b.qp = some q → s.qp q = some v → s.pins.stage = 4 → s.health.imionStopped = false → v.waiting.length < 1024 →
          field r 0 4 = n → n ≠ 0 → n ≠ back16 n → 1 ≤ field r 4 1 → field r 4 1 ≤ 0x14 → field r 4 1 ≠ 0x04 →
          exec (.orderTake m) s = .next taken
            ∧ (m < 64 → (∀ j, j < 64 → j ≠ m → (s.mailbox j).qp = none ∨ field (headRecord s j) 0 4 = 0) →
                exec .mailboxSweep s = .next taken))
    ∧ (∀ (s : State) (h : Hdr), inView s = true → h.dest = s.group.rank → h.src ∈ s.group.view → s.group.epoch ≤ h.epoch →
        h.address / 2 ^ 24 % 2 ^ 24 ≤ h.length →
        (∀ (p : Prepared) (beat : Nat), s.prepared = some p → p.coordinator = h.src → beat < 2 ^ 64 → h.length = 9 →
            exec (.mgmt h (3#8 :: leBytes 8 beat)) s =
              .next { s with prepared := some { p with decided := true, beat := beat } })
          ∧ (∀ p : Prepared, s.prepared = some p → p.coordinator = h.src → h.length = 1 →
              exec (.mgmt h [4#8]) s = .next (({ s with prepared := none }).bump Ctr.txnAborted 0 1))
          ∧ (∀ v : ViewAnn, v.epoch < 2 ^ 32 → v.keeper < 2 ^ 16 → v.beat < 2 ^ 64 → v.differs < 2 ^ 16 →
              v.ranks.Pairwise (· < ·) → (∀ r, r ∈ v.ranks → r < 1024) → h.length = 146 → s.group.epoch < v.epoch →
              exec (.mgmt h (5#8 :: viewBody v)) s = .next { s with group := { s.group with next := some v } }))
    ∧ (∀ s : State,
        let all := ∀ r, r < 6 → r ∈ s.pins.rails
        let rom := fun (p : Pins) => ({ s with pins := { p with stage := 1 }
                                               coffer := { s.coffer with boot := s.coffer.boot + 1 } } : State)
        (s.pins.stby = false → exec .vddStbyApplied s = .next { s with pins := { s.pins with stby := true } })
          ∧ (s.pins.stby = true → ∃ u, exec .vddStbyFall s = .next u ∧ u.pins = { State.reset.pins with
              stby := false, rails := s.pins.rails, refCore := s.pins.refCore, refSer := s.pins.refSer, causes := [0]
              tap := s.pins.tap, tapIr := s.pins.tapIr, tapShift := s.pins.tapShift, tdo := s.pins.tdo }
              ∧ u.trust.copyA = s.trust.copyA ∧ u.trust.copyB = s.trust.copyB ∧ u.trust.fusedSvn = s.trust.fusedSvn)
          ∧ (s.pins.stby = true → s.pins.resetN = false → s.pins.stage ≠ 0 → s.pins.stage ≠ 0xB → ∃ u,
              exec .resetNAssert s = .next u ∧ u.pins.stage = 0 ∧ u.pins.resetN = true ∧ u.pins.rails = s.pins.rails)
          ∧ (s.pins.stby = true → s.pins.stage ≠ 0 →
              exec .resetNRelease s = .next { s with pins := { s.pins with resetN := false } })
          ∧ (s.pins.stby = true → s.pins.stage = 0 → s.pins.thermtrip = false → s.pins.refCore = true → all →
              exec .resetNRelease s = .next (rom { s.pins with resetN := false }))
          ∧ (∀ r, 2 ≤ r → r < 6 → r ∉ s.pins.rails → s.pins.stby = true →
              let p := { s.pins with
                rails := s.pins.rails ++ [r]
                railOrder := s.pins.railOrder || !(List.range r).all (fun k => s.pins.rails.contains k) }
              (s.pins.resetN = true → exec (.railRise r) s = .next { s with pins := p })
                ∧ (s.pins.resetN = false → s.pins.stage = 0 → s.pins.thermtrip = false → s.pins.refCore = true →
                    (∀ k, k < 6 → k ≠ r → k ∈ s.pins.rails) → exec (.railRise r) s = .next (rom p)))
          ∧ (∀ r, r ∈ s.pins.rails →
              (s.pins.stage ≠ 0 → ∃ u, exec (.railLow r) s = .next u ∧ u.pins.stage = 0
                  ∧ u.pins.rails = s.pins.rails.filter (fun x => x != r) ∧ u.runs = [] ∧ u.orders = [])
                ∧ (s.pins.stage = 0 → r ≠ 0 → exec (.railLow r) s =
                    .next { s with pins := { s.pins with rails := s.pins.rails.filter (fun x => x != r) } })
                ∧ (r ≠ 6 → s.pins.stage = 0xB → exec (.railHigh r) s = .next s)
                ∧ (r ≠ 6 → s.pins.stage ≠ 0 → s.pins.stage ≠ 0xB → ∃ u, exec (.railHigh r) s = .next u ∧ u.runs = []
                    ∧ u.orders = [] ∧ u.trust.session = none ∧ (s.pins.resetN = true → u.pins.stage = 0)))
          ∧ (s.pins.stby = true → ∃ u, exec (.railHigh 6) s = .next u ∧ u.pins.stby = true ∧ u.pins.stage = 0
              ∧ u.pins.claimed = false ∧ u.pins.subports = State.reset.pins.subports)
          ∧ (s.pins.thermtrip = true → 1 ∉ s.pins.rails → exec .thermtripRelease s =
              .next { s with pins := { s.pins with thermtrip := false } })
          ∧ (s.pins.stage ≠ 0 → exec .refclkCoreDetect s = .next { s with pins := { s.pins with refCore := true } })
          ∧ (s.pins.stby = true → s.pins.stage = 0 → s.pins.thermtrip = false → s.pins.resetN = false → all →
              exec .refclkCoreDetect s = .next (rom { s.pins with refCore := true }))
          ∧ (s.pins.stage = 0 → exec .refclkCoreLoss s = .next { s with pins := { s.pins with refCore := false } })
          ∧ (s.pins.stage ≠ 0 → s.pins.stage ≠ 0xB → ∃ u, exec .refclkCoreLoss s = .next u ∧ u.pins.stage = 0
              ∧ u.pins.refCore = false ∧ u.runs = [] ∧ u.orders = [])
          ∧ (∀ n ok, n < 4 → ∃ u, exec (.refclkSerChange n ok) s = .next u ∧ bit u.pins.refSer n = ok
              ∧ (mainUp s = false → u = { s with pins := { s.pins with refSer := u.pins.refSer } })
              ∧ (mainUp s = true → ok = true → ∀ l, l ∈ clockLinks n → (s.link l).state = 0 → (u.link l).state = 1)
              ∧ (∀ l, l ∉ clockLinks n → u.link l = s.link l)))

end
end

