-- ==== Sys2Proof/Laws/Bytes.lean ====
section
/-!
SUPPORT. Keyed lists read back what was put, and every memory operation keeps the canonical form of a memory and writes
only the bytes it names.
-/

namespace Sys2Proof.Machine

@[simp] theorem look_nil {α : Type} (k : Nat) : look k ([] : List (Nat × α)) = none := rfl

@[simp] theorem look_put_same {α : Type} (k : Nat) (v : α) (l : List (Nat × α)) : look k (put k v l) = some v := by
  induction l with
  | nil => simp [put, look]
  | cons p r ih =>
    obtain ⟨j, w⟩ := p
    unfold put
    split
    · simp [look]
    · split
      · simp [look]
      · rename_i h1 h2
        simp only [look]
        rw [if_neg (fun h => h2 h.symm), ih]

theorem look_put_other {α : Type} {j k : Nat} (h : j ≠ k) (v : α) (l : List (Nat × α)) :
    look j (put k v l) = look j l := by
  induction l with
  | nil => simp [put, look, Ne.symm h]
  | cons p r ih =>
    obtain ⟨i, w⟩ := p
    unfold put
    split
    · simp [look, Ne.symm h]
    · split
      · rename_i h1 h2
        subst h2
        simp [look, Ne.symm h]
      · simp [look, ih]

/-- A keyed list after a put holds the new entry and otherwise only entries it held. -/
theorem mem_put {α : Type} {k : Nat} {v : α} {l : List (Nat × α)} {p : Nat × α} (h : p ∈ put k v l) :
    p = (k, v) ∨ p ∈ l := by
  induction l with
  | nil => simpa [put] using h
  | cons q r ih =>
    obtain ⟨j, w⟩ := q
    unfold put at h
    split at h
    · simpa using h
    · split at h
      · rcases List.mem_cons.mp h with h | h
        · exact .inl h
        · exact .inr (List.mem_cons_of_mem _ h)
      · rcases List.mem_cons.mp h with h | h
        · exact .inr (h ▸ List.mem_cons_self)
        · rcases ih h with h | h
          · exact .inl h
          · exact .inr (List.mem_cons_of_mem _ h)

/-! The canonical form. -/

theorem memWf_mono {lo lo' : Nat} (h : lo' ≤ lo) {m : List Host.Cell} (w : memWf lo m = true) : memWf lo' m = true := by
  cases m with
  | nil => rfl
  | cons c r =>
    obtain ⟨j, b⟩ := c
    simp only [memWf, Bool.and_eq_true, decide_eq_true_eq] at w ⊢
    exact ⟨⟨by omega, w.1.2⟩, w.2⟩

theorem memPut_wf {lo k : Nat} (h : lo ≤ k) (b : Byte) {m : List Host.Cell} (w : memWf lo m = true) :
    memWf lo (memPut k b m) = true := by
  induction m generalizing lo with
  | nil =>
    unfold memPut
    split
    · rfl
    · rename_i hb
      simp only [memWf, Bool.and_eq_true, decide_eq_true_eq]
      exact ⟨⟨h, hb⟩, trivial⟩
  | cons c r ih =>
    obtain ⟨j, c⟩ := c
    simp only [memWf, Bool.and_eq_true, decide_eq_true_eq] at w
    unfold memPut
    split
    · rename_i hk
      split
      · simp only [memWf, Bool.and_eq_true, decide_eq_true_eq]
        exact w
      · rename_i hb
        simp only [memWf, Bool.and_eq_true, decide_eq_true_eq]
        exact ⟨⟨h, hb⟩, ⟨by omega, w.1.2⟩, w.2⟩
    · split
      · rename_i hk
        split
        · exact memWf_mono (by omega) w.2
        · rename_i hb
          subst hk
          simp only [memWf, Bool.and_eq_true, decide_eq_true_eq]
          exact ⟨⟨h, hb⟩, w.2⟩
      · simp only [memWf, Bool.and_eq_true, decide_eq_true_eq]
        exact ⟨w.1, ih (by omega) w.2⟩

theorem memWrite_wf (a : Nat) (d : List Byte) {m : List Host.Cell} (w : memWf 0 m = true) :
    memWf 0 (memWrite m a d) = true := by
  induction d generalizing a m with
  | nil => exact w
  | cons b bs ih => exact ih (a + 1) (memPut_wf (Nat.zero_le _) b w)

theorem memWf_filter (p : Host.Cell → Bool) {lo : Nat} {m : List Host.Cell} (w : memWf lo m = true) :
    memWf lo (m.filter p) = true := by
  induction m generalizing lo with
  | nil => rfl
  | cons c r ih =>
    obtain ⟨j, b⟩ := c
    simp only [memWf, Bool.and_eq_true, decide_eq_true_eq] at w
    have hr := ih w.2
    rw [List.filter_cons]
    split
    · simp only [memWf, Bool.and_eq_true, decide_eq_true_eq]
      exact ⟨w.1, hr⟩
    · exact memWf_mono (by omega) hr

theorem memZero_wf (a n : Nat) {lo : Nat} {m : List Host.Cell} (w : memWf lo m = true) :
    memWf lo (memZero m a n) = true := memWf_filter _ w

/-! Reading back. -/

/-- A canonical memory holds 0 below its first address. -/
theorem memGet_below {lo k : Nat} (h : k < lo) {m : List Host.Cell} (w : memWf lo m = true) : memGet k m = 0 := by
  induction m generalizing lo with
  | nil => rfl
  | cons c r ih =>
    obtain ⟨j, b⟩ := c
    simp only [memWf, Bool.and_eq_true, decide_eq_true_eq] at w
    simp only [memGet]
    rw [if_neg (by omega)]
    exact ih (by omega) w.2

theorem memGet_memPut_same {lo k : Nat} (b : Byte) {m : List Host.Cell} (w : memWf lo m = true) :
    memGet k (memPut k b m) = b := by
  induction m generalizing lo with
  | nil => unfold memPut; split <;> simp_all [memGet]
  | cons c r ih =>
    obtain ⟨j, c⟩ := c
    simp only [memWf, Bool.and_eq_true, decide_eq_true_eq] at w
    unfold memPut
    split
    · rename_i hk
      split
      · rename_i hb
        simp only [memGet]
        rw [if_neg (by omega), memGet_below (by omega) w.2, hb]
      · simp [memGet]
    · split
      · rename_i hk
        subst hk
        split
        · rename_i hb
          rw [memGet_below (Nat.lt_succ_self _) w.2, hb]
        · simp [memGet]
      · rename_i h1 h2
        simp only [memGet]
        rw [if_neg (fun h => h2 h.symm), ih w.2]

theorem memGet_memPut_other {j k : Nat} (h : j ≠ k) (b : Byte) (m : List Host.Cell) :
    memGet j (memPut k b m) = memGet j m := by
  induction m with
  | nil => unfold memPut; split <;> simp [memGet, Ne.symm h]
  | cons c r ih =>
    obtain ⟨i, c⟩ := c
    unfold memPut
    split
    · split <;> simp [memGet, Ne.symm h]
    · split
      · rename_i h1 h2
        subst h2
        split <;> simp [memGet, Ne.symm h]
      · simp [memGet, ih]

/-- A write leaves every byte outside it. -/
theorem memGet_memWrite_outside {k a : Nat} {d : List Byte} (h : k < a ∨ a + d.length ≤ k) (m : List Host.Cell) :
    memGet k (memWrite m a d) = memGet k m := by
  induction d generalizing a m with
  | nil => rfl
  | cons b bs ih =>
    simp only [List.length_cons] at h
    rw [memWrite, ih (by omega), memGet_memPut_other (by omega)]

/-- A byte written is read back. -/
theorem memGet_memWrite_inside {a : Nat} {d : List Byte} {i : Nat} (h : i < d.length) {m : List Host.Cell}
    (w : memWf 0 m = true) : memGet (a + i) (memWrite m a d) = d[i] := by
  induction d generalizing a i m with
  | nil => simp at h
  | cons b bs ih =>
    cases i with
    | zero =>
      rw [memWrite, memGet_memWrite_outside (by omega)]
      exact memGet_memPut_same b w
    | succ i =>
      have := ih (a := a + 1) (i := i) (by simpa using h) (memPut_wf (k := a) (Nat.zero_le _) b w)
      rw [memWrite, show a + (i + 1) = a + 1 + i by omega, this]
      rfl

theorem memGet_memZero (k a n : Nat) (m : List Host.Cell) :
    memGet k (memZero m a n) = if a ≤ k ∧ k < a + n then 0 else memGet k m := by
  unfold memZero
  induction m with
  | nil => simp [memGet]
  | cons c r ih =>
    obtain ⟨j, b⟩ := c
    rw [List.filter_cons]
    split
    · rename_i hc
      simp only [Bool.not_eq_true', Bool.and_eq_false_iff, decide_eq_false_iff_not] at hc
      simp only [memGet]
      split
      · rename_i hj
        subst hj
        rw [if_neg (by omega)]
      · exact ih
    · rename_i hc
      simp only [Bool.not_eq_true', Bool.and_eq_false_iff, decide_eq_false_iff_not, not_or, Decidable.not_not] at hc
      rw [ih]
      split
      · rfl
      · simp only [memGet]
        rw [if_neg (by omega)]

theorem length_memRead (m : List Host.Cell) (a n : Nat) : (memRead m a n).length = n := by
  induction n generalizing a with
  | zero => rfl
  | succ n ih => simp [memRead, ih]

/-- What was written is read back whole. -/
theorem memRead_memWrite (a : Nat) (d : List Byte) {m : List Host.Cell} (w : memWf 0 m = true) :
    memRead (memWrite m a d) a d.length = d := by
  induction d generalizing a m with
  | nil => rfl
  | cons b bs ih =>
    have hw := memPut_wf (k := a) (Nat.zero_le _) b w
    rw [List.length_cons, memRead, memWrite, memGet_memWrite_outside (by omega), memGet_memPut_same b w, ih (a + 1) hw]

/-! Fields. -/

@[simp] theorem length_leBytes (n v : Nat) : (leBytes n v).length = n := by
  induction n generalizing v with
  | zero => rfl
  | succ n ih => simp [leBytes, ih]

@[simp] theorem length_slice (l : List Byte) (off n : Nat) : (slice l off n).length = n := by
  simp [slice] <;> omega

/-- A number of n bytes is read back from its n bytes. -/
theorem leNat_leBytes {n v : Nat} (h : v < 256 ^ n) : leNat (leBytes n v) = v := by
  induction n generalizing v with
  | zero => simp at h; simp [leBytes, leNat, h]
  | succ n ih =>
    have hd : v / 256 < 256 ^ n := by
      rw [Nat.div_lt_iff_lt_mul (by decide)]
      rwa [Nat.pow_succ] at h
    simp only [leBytes, leNat, ih hd, BitVec.toNat_ofNat]
    omega

end Sys2Proof.Machine
end

