-- ==== Sys2Proof/Laws/State.lean ====
section
/-!
SUPPORT. What each named update of the state does to each of its fields: the one field it writes, and all others kept.
-/

namespace Sys2Proof.Machine.State

variable (s : State)

@[simp] theorem setCore_now (c : Nat) (v : Core) : (s.setCore c v).now = s.now := rfl
@[simp] theorem setCore_pending (c : Nat) (v : Core) : (s.setCore c v).pending = s.pending := rfl
@[simp] theorem setCore_free (c : Nat) (v : Core) : (s.setCore c v).free = s.free := rfl
@[simp] theorem setCore_mem (c : Nat) (v : Core) : (s.setCore c v).mem = s.mem := rfl
@[simp] theorem setCore_cores (c : Nat) (v : Core) : (s.setCore c v).cores = put c v s.cores := rfl
@[simp] theorem setCore_tensors (c : Nat) (v : Core) : (s.setCore c v).tensors = s.tensors := rfl
@[simp] theorem setCore_slots (c : Nat) (v : Core) : (s.setCore c v).slots = s.slots := rfl
@[simp] theorem setCore_runs (c : Nat) (v : Core) : (s.setCore c v).runs = s.runs := rfl
@[simp] theorem setCore_streams (c : Nat) (v : Core) : (s.setCore c v).streams = s.streams := rfl
@[simp] theorem setCore_xfers (c : Nat) (v : Core) : (s.setCore c v).xfers = s.xfers := rfl
@[simp] theorem setCore_nextXfer (c : Nat) (v : Core) : (s.setCore c v).nextXfer = s.nextXfer := rfl
@[simp] theorem setCore_rots (c : Nat) (v : Core) : (s.setCore c v).rots = s.rots := rfl
@[simp] theorem setCore_mcs (c : Nat) (v : Core) : (s.setCore c v).mcs = s.mcs := rfl
@[simp] theorem setCore_mcOver (c : Nat) (v : Core) : (s.setCore c v).mcOver = s.mcOver := rfl
@[simp] theorem setCore_rotHeld (c : Nat) (v : Core) : (s.setCore c v).rotHeld = s.rotHeld := rfl
@[simp] theorem setCore_pushes (c : Nat) (v : Core) : (s.setCore c v).pushes = s.pushes := rfl
@[simp] theorem setCore_mailboxes (c : Nat) (v : Core) : (s.setCore c v).mailboxes = s.mailboxes := rfl
@[simp] theorem setCore_orders (c : Nat) (v : Core) : (s.setCore c v).orders = s.orders := rfl
@[simp] theorem setCore_qps (c : Nat) (v : Core) : (s.setCore c v).qps = s.qps := rfl
@[simp] theorem setCore_keys (c : Nat) (v : Core) : (s.setCore c v).keys = s.keys := rfl
@[simp] theorem setCore_layers (c : Nat) (v : Core) : (s.setCore c v).layers = s.layers := rfl
@[simp] theorem setCore_optCount (c : Nat) (v : Core) : (s.setCore c v).optCount = s.optCount := rfl
@[simp] theorem setCore_txn (c : Nat) (v : Core) : (s.setCore c v).txn = s.txn := rfl
@[simp] theorem setCore_prepared (c : Nat) (v : Core) : (s.setCore c v).prepared = s.prepared := rfl
@[simp] theorem setCore_group (c : Nat) (v : Core) : (s.setCore c v).group = s.group := rfl
@[simp] theorem setCore_beat (c : Nat) (v : Core) : (s.setCore c v).beat = s.beat := rfl
@[simp] theorem setCore_links (c : Nat) (v : Core) : (s.setCore c v).links = s.links := rfl
@[simp] theorem setCore_routes (c : Nat) (v : Core) : (s.setCore c v).routes = s.routes := rfl
@[simp] theorem setCore_turns (c : Nat) (v : Core) : (s.setCore c v).turns = s.turns := rfl
@[simp] theorem setCore_linkWait (c : Nat) (v : Core) : (s.setCore c v).linkWait = s.linkWait := rfl
@[simp] theorem setCore_mgmtIn (c : Nat) (v : Core) : (s.setCore c v).mgmtIn = s.mgmtIn := rfl
@[simp] theorem setCore_nextMgmt (c : Nat) (v : Core) : (s.setCore c v).nextMgmt = s.nextMgmt := rfl
@[simp] theorem setCore_chans (c : Nat) (v : Core) : (s.setCore c v).chans = s.chans := rfl
@[simp] theorem setCore_ports (c : Nat) (v : Core) : (s.setCore c v).ports = s.ports := rfl
@[simp] theorem setCore_portDownUntil (c : Nat) (v : Core) : (s.setCore c v).portDownUntil = s.portDownUntil := rfl
@[simp] theorem setCore_ptp (c : Nat) (v : Core) : (s.setCore c v).ptp = s.ptp := rfl
@[simp] theorem setCore_arbs (c : Nat) (v : Core) : (s.setCore c v).arbs = s.arbs := rfl
@[simp] theorem setCore_segs (c : Nat) (v : Core) : (s.setCore c v).segs = s.segs := rfl
@[simp] theorem setCore_trust (c : Nat) (v : Core) : (s.setCore c v).trust = s.trust := rfl
@[simp] theorem setCore_coffer (c : Nat) (v : Core) : (s.setCore c v).coffer = s.coffer := rfl
@[simp] theorem setCore_health (c : Nat) (v : Core) : (s.setCore c v).health = s.health := rfl
@[simp] theorem setCore_pins (c : Nat) (v : Core) : (s.setCore c v).pins = s.pins := rfl
@[simp] theorem setCore_counters (c : Nat) (v : Core) : (s.setCore c v).counters = s.counters := rfl
@[simp] theorem setCore_out (c : Nat) (v : Core) : (s.setCore c v).out = s.out := rfl

@[simp] theorem setMailbox_now (m : Nat) (v : Mailbox) : (s.setMailbox m v).now = s.now := rfl
@[simp] theorem setMailbox_pending (m : Nat) (v : Mailbox) : (s.setMailbox m v).pending = s.pending := rfl
@[simp] theorem setMailbox_free (m : Nat) (v : Mailbox) : (s.setMailbox m v).free = s.free := rfl
@[simp] theorem setMailbox_mem (m : Nat) (v : Mailbox) : (s.setMailbox m v).mem = s.mem := rfl
@[simp] theorem setMailbox_cores (m : Nat) (v : Mailbox) : (s.setMailbox m v).cores = s.cores := rfl
@[simp] theorem setMailbox_tensors (m : Nat) (v : Mailbox) : (s.setMailbox m v).tensors = s.tensors := rfl
@[simp] theorem setMailbox_slots (m : Nat) (v : Mailbox) : (s.setMailbox m v).slots = s.slots := rfl
@[simp] theorem setMailbox_runs (m : Nat) (v : Mailbox) : (s.setMailbox m v).runs = s.runs := rfl
@[simp] theorem setMailbox_streams (m : Nat) (v : Mailbox) : (s.setMailbox m v).streams = s.streams := rfl
@[simp] theorem setMailbox_xfers (m : Nat) (v : Mailbox) : (s.setMailbox m v).xfers = s.xfers := rfl
@[simp] theorem setMailbox_nextXfer (m : Nat) (v : Mailbox) : (s.setMailbox m v).nextXfer = s.nextXfer := rfl
@[simp] theorem setMailbox_rots (m : Nat) (v : Mailbox) : (s.setMailbox m v).rots = s.rots := rfl
@[simp] theorem setMailbox_mcs (m : Nat) (v : Mailbox) : (s.setMailbox m v).mcs = s.mcs := rfl
@[simp] theorem setMailbox_mcOver (m : Nat) (v : Mailbox) : (s.setMailbox m v).mcOver = s.mcOver := rfl
@[simp] theorem setMailbox_rotHeld (m : Nat) (v : Mailbox) : (s.setMailbox m v).rotHeld = s.rotHeld := rfl
@[simp] theorem setMailbox_pushes (m : Nat) (v : Mailbox) : (s.setMailbox m v).pushes = s.pushes := rfl
@[simp] theorem setMailbox_mailboxes (m : Nat) (v : Mailbox) : (s.setMailbox m v).mailboxes = put m v s.mailboxes := rfl
@[simp] theorem setMailbox_orders (m : Nat) (v : Mailbox) : (s.setMailbox m v).orders = s.orders := rfl
@[simp] theorem setMailbox_qps (m : Nat) (v : Mailbox) : (s.setMailbox m v).qps = s.qps := rfl
@[simp] theorem setMailbox_keys (m : Nat) (v : Mailbox) : (s.setMailbox m v).keys = s.keys := rfl
@[simp] theorem setMailbox_layers (m : Nat) (v : Mailbox) : (s.setMailbox m v).layers = s.layers := rfl
@[simp] theorem setMailbox_optCount (m : Nat) (v : Mailbox) : (s.setMailbox m v).optCount = s.optCount := rfl
@[simp] theorem setMailbox_txn (m : Nat) (v : Mailbox) : (s.setMailbox m v).txn = s.txn := rfl
@[simp] theorem setMailbox_prepared (m : Nat) (v : Mailbox) : (s.setMailbox m v).prepared = s.prepared := rfl
@[simp] theorem setMailbox_group (m : Nat) (v : Mailbox) : (s.setMailbox m v).group = s.group := rfl
@[simp] theorem setMailbox_beat (m : Nat) (v : Mailbox) : (s.setMailbox m v).beat = s.beat := rfl
@[simp] theorem setMailbox_links (m : Nat) (v : Mailbox) : (s.setMailbox m v).links = s.links := rfl
@[simp] theorem setMailbox_routes (m : Nat) (v : Mailbox) : (s.setMailbox m v).routes = s.routes := rfl
@[simp] theorem setMailbox_turns (m : Nat) (v : Mailbox) : (s.setMailbox m v).turns = s.turns := rfl
@[simp] theorem setMailbox_linkWait (m : Nat) (v : Mailbox) : (s.setMailbox m v).linkWait = s.linkWait := rfl
@[simp] theorem setMailbox_mgmtIn (m : Nat) (v : Mailbox) : (s.setMailbox m v).mgmtIn = s.mgmtIn := rfl
@[simp] theorem setMailbox_nextMgmt (m : Nat) (v : Mailbox) : (s.setMailbox m v).nextMgmt = s.nextMgmt := rfl
@[simp] theorem setMailbox_chans (m : Nat) (v : Mailbox) : (s.setMailbox m v).chans = s.chans := rfl
@[simp] theorem setMailbox_ports (m : Nat) (v : Mailbox) : (s.setMailbox m v).ports = s.ports := rfl
@[simp] theorem setMailbox_portDownUntil (m : Nat) (v : Mailbox) : (s.setMailbox m v).portDownUntil = s.portDownUntil := rfl
@[simp] theorem setMailbox_ptp (m : Nat) (v : Mailbox) : (s.setMailbox m v).ptp = s.ptp := rfl
@[simp] theorem setMailbox_arbs (m : Nat) (v : Mailbox) : (s.setMailbox m v).arbs = s.arbs := rfl
@[simp] theorem setMailbox_segs (m : Nat) (v : Mailbox) : (s.setMailbox m v).segs = s.segs := rfl
@[simp] theorem setMailbox_trust (m : Nat) (v : Mailbox) : (s.setMailbox m v).trust = s.trust := rfl
@[simp] theorem setMailbox_coffer (m : Nat) (v : Mailbox) : (s.setMailbox m v).coffer = s.coffer := rfl
@[simp] theorem setMailbox_health (m : Nat) (v : Mailbox) : (s.setMailbox m v).health = s.health := rfl
@[simp] theorem setMailbox_pins (m : Nat) (v : Mailbox) : (s.setMailbox m v).pins = s.pins := rfl
@[simp] theorem setMailbox_counters (m : Nat) (v : Mailbox) : (s.setMailbox m v).counters = s.counters := rfl
@[simp] theorem setMailbox_out (m : Nat) (v : Mailbox) : (s.setMailbox m v).out = s.out := rfl

@[simp] theorem setQp_now (q : Nat) (v : Qp) : (s.setQp q v).now = s.now := rfl
@[simp] theorem setQp_pending (q : Nat) (v : Qp) : (s.setQp q v).pending = s.pending := rfl
@[simp] theorem setQp_free (q : Nat) (v : Qp) : (s.setQp q v).free = s.free := rfl
@[simp] theorem setQp_mem (q : Nat) (v : Qp) : (s.setQp q v).mem = s.mem := rfl
@[simp] theorem setQp_cores (q : Nat) (v : Qp) : (s.setQp q v).cores = s.cores := rfl
@[simp] theorem setQp_tensors (q : Nat) (v : Qp) : (s.setQp q v).tensors = s.tensors := rfl
@[simp] theorem setQp_slots (q : Nat) (v : Qp) : (s.setQp q v).slots = s.slots := rfl
@[simp] theorem setQp_runs (q : Nat) (v : Qp) : (s.setQp q v).runs = s.runs := rfl
@[simp] theorem setQp_streams (q : Nat) (v : Qp) : (s.setQp q v).streams = s.streams := rfl
@[simp] theorem setQp_xfers (q : Nat) (v : Qp) : (s.setQp q v).xfers = s.xfers := rfl
@[simp] theorem setQp_nextXfer (q : Nat) (v : Qp) : (s.setQp q v).nextXfer = s.nextXfer := rfl
@[simp] theorem setQp_rots (q : Nat) (v : Qp) : (s.setQp q v).rots = s.rots := rfl
@[simp] theorem setQp_mcs (q : Nat) (v : Qp) : (s.setQp q v).mcs = s.mcs := rfl
@[simp] theorem setQp_mcOver (q : Nat) (v : Qp) : (s.setQp q v).mcOver = s.mcOver := rfl
@[simp] theorem setQp_rotHeld (q : Nat) (v : Qp) : (s.setQp q v).rotHeld = s.rotHeld := rfl
@[simp] theorem setQp_pushes (q : Nat) (v : Qp) : (s.setQp q v).pushes = s.pushes := rfl
@[simp] theorem setQp_mailboxes (q : Nat) (v : Qp) : (s.setQp q v).mailboxes = s.mailboxes := rfl
@[simp] theorem setQp_orders (q : Nat) (v : Qp) : (s.setQp q v).orders = s.orders := rfl
@[simp] theorem setQp_qps (q : Nat) (v : Qp) : (s.setQp q v).qps = put q v s.qps := rfl
@[simp] theorem setQp_keys (q : Nat) (v : Qp) : (s.setQp q v).keys = s.keys := rfl
@[simp] theorem setQp_layers (q : Nat) (v : Qp) : (s.setQp q v).layers = s.layers := rfl
@[simp] theorem setQp_optCount (q : Nat) (v : Qp) : (s.setQp q v).optCount = s.optCount := rfl
@[simp] theorem setQp_txn (q : Nat) (v : Qp) : (s.setQp q v).txn = s.txn := rfl
@[simp] theorem setQp_prepared (q : Nat) (v : Qp) : (s.setQp q v).prepared = s.prepared := rfl
@[simp] theorem setQp_group (q : Nat) (v : Qp) : (s.setQp q v).group = s.group := rfl
@[simp] theorem setQp_beat (q : Nat) (v : Qp) : (s.setQp q v).beat = s.beat := rfl
@[simp] theorem setQp_links (q : Nat) (v : Qp) : (s.setQp q v).links = s.links := rfl
@[simp] theorem setQp_routes (q : Nat) (v : Qp) : (s.setQp q v).routes = s.routes := rfl
@[simp] theorem setQp_turns (q : Nat) (v : Qp) : (s.setQp q v).turns = s.turns := rfl
@[simp] theorem setQp_linkWait (q : Nat) (v : Qp) : (s.setQp q v).linkWait = s.linkWait := rfl
@[simp] theorem setQp_mgmtIn (q : Nat) (v : Qp) : (s.setQp q v).mgmtIn = s.mgmtIn := rfl
@[simp] theorem setQp_nextMgmt (q : Nat) (v : Qp) : (s.setQp q v).nextMgmt = s.nextMgmt := rfl
@[simp] theorem setQp_chans (q : Nat) (v : Qp) : (s.setQp q v).chans = s.chans := rfl
@[simp] theorem setQp_ports (q : Nat) (v : Qp) : (s.setQp q v).ports = s.ports := rfl
@[simp] theorem setQp_portDownUntil (q : Nat) (v : Qp) : (s.setQp q v).portDownUntil = s.portDownUntil := rfl
@[simp] theorem setQp_ptp (q : Nat) (v : Qp) : (s.setQp q v).ptp = s.ptp := rfl
@[simp] theorem setQp_arbs (q : Nat) (v : Qp) : (s.setQp q v).arbs = s.arbs := rfl
@[simp] theorem setQp_segs (q : Nat) (v : Qp) : (s.setQp q v).segs = s.segs := rfl
@[simp] theorem setQp_trust (q : Nat) (v : Qp) : (s.setQp q v).trust = s.trust := rfl
@[simp] theorem setQp_coffer (q : Nat) (v : Qp) : (s.setQp q v).coffer = s.coffer := rfl
@[simp] theorem setQp_health (q : Nat) (v : Qp) : (s.setQp q v).health = s.health := rfl
@[simp] theorem setQp_pins (q : Nat) (v : Qp) : (s.setQp q v).pins = s.pins := rfl
@[simp] theorem setQp_counters (q : Nat) (v : Qp) : (s.setQp q v).counters = s.counters := rfl
@[simp] theorem setQp_out (q : Nat) (v : Qp) : (s.setQp q v).out = s.out := rfl

@[simp] theorem setLink_now (l : Nat) (v : Link) : (s.setLink l v).now = s.now := rfl
@[simp] theorem setLink_pending (l : Nat) (v : Link) : (s.setLink l v).pending = s.pending := rfl
@[simp] theorem setLink_free (l : Nat) (v : Link) : (s.setLink l v).free = s.free := rfl
@[simp] theorem setLink_mem (l : Nat) (v : Link) : (s.setLink l v).mem = s.mem := rfl
@[simp] theorem setLink_cores (l : Nat) (v : Link) : (s.setLink l v).cores = s.cores := rfl
@[simp] theorem setLink_tensors (l : Nat) (v : Link) : (s.setLink l v).tensors = s.tensors := rfl
@[simp] theorem setLink_slots (l : Nat) (v : Link) : (s.setLink l v).slots = s.slots := rfl
@[simp] theorem setLink_runs (l : Nat) (v : Link) : (s.setLink l v).runs = s.runs := rfl
@[simp] theorem setLink_streams (l : Nat) (v : Link) : (s.setLink l v).streams = s.streams := rfl
@[simp] theorem setLink_xfers (l : Nat) (v : Link) : (s.setLink l v).xfers = s.xfers := rfl
@[simp] theorem setLink_nextXfer (l : Nat) (v : Link) : (s.setLink l v).nextXfer = s.nextXfer := rfl
@[simp] theorem setLink_rots (l : Nat) (v : Link) : (s.setLink l v).rots = s.rots := rfl
@[simp] theorem setLink_mcs (l : Nat) (v : Link) : (s.setLink l v).mcs = s.mcs := rfl
@[simp] theorem setLink_mcOver (l : Nat) (v : Link) : (s.setLink l v).mcOver = s.mcOver := rfl
@[simp] theorem setLink_rotHeld (l : Nat) (v : Link) : (s.setLink l v).rotHeld = s.rotHeld := rfl
@[simp] theorem setLink_pushes (l : Nat) (v : Link) : (s.setLink l v).pushes = s.pushes := rfl
@[simp] theorem setLink_mailboxes (l : Nat) (v : Link) : (s.setLink l v).mailboxes = s.mailboxes := rfl
@[simp] theorem setLink_orders (l : Nat) (v : Link) : (s.setLink l v).orders = s.orders := rfl
@[simp] theorem setLink_qps (l : Nat) (v : Link) : (s.setLink l v).qps = s.qps := rfl
@[simp] theorem setLink_keys (l : Nat) (v : Link) : (s.setLink l v).keys = s.keys := rfl
@[simp] theorem setLink_layers (l : Nat) (v : Link) : (s.setLink l v).layers = s.layers := rfl
@[simp] theorem setLink_optCount (l : Nat) (v : Link) : (s.setLink l v).optCount = s.optCount := rfl
@[simp] theorem setLink_txn (l : Nat) (v : Link) : (s.setLink l v).txn = s.txn := rfl
@[simp] theorem setLink_prepared (l : Nat) (v : Link) : (s.setLink l v).prepared = s.prepared := rfl
@[simp] theorem setLink_group (l : Nat) (v : Link) : (s.setLink l v).group = s.group := rfl
@[simp] theorem setLink_beat (l : Nat) (v : Link) : (s.setLink l v).beat = s.beat := rfl
@[simp] theorem setLink_links (l : Nat) (v : Link) : (s.setLink l v).links = put l v s.links := rfl
@[simp] theorem setLink_routes (l : Nat) (v : Link) : (s.setLink l v).routes = s.routes := rfl
@[simp] theorem setLink_turns (l : Nat) (v : Link) : (s.setLink l v).turns = s.turns := rfl
@[simp] theorem setLink_linkWait (l : Nat) (v : Link) : (s.setLink l v).linkWait = s.linkWait := rfl
@[simp] theorem setLink_mgmtIn (l : Nat) (v : Link) : (s.setLink l v).mgmtIn = s.mgmtIn := rfl
@[simp] theorem setLink_nextMgmt (l : Nat) (v : Link) : (s.setLink l v).nextMgmt = s.nextMgmt := rfl
@[simp] theorem setLink_chans (l : Nat) (v : Link) : (s.setLink l v).chans = s.chans := rfl
@[simp] theorem setLink_ports (l : Nat) (v : Link) : (s.setLink l v).ports = s.ports := rfl
@[simp] theorem setLink_portDownUntil (l : Nat) (v : Link) : (s.setLink l v).portDownUntil = s.portDownUntil := rfl
@[simp] theorem setLink_ptp (l : Nat) (v : Link) : (s.setLink l v).ptp = s.ptp := rfl
@[simp] theorem setLink_arbs (l : Nat) (v : Link) : (s.setLink l v).arbs = s.arbs := rfl
@[simp] theorem setLink_segs (l : Nat) (v : Link) : (s.setLink l v).segs = s.segs := rfl
@[simp] theorem setLink_trust (l : Nat) (v : Link) : (s.setLink l v).trust = s.trust := rfl
@[simp] theorem setLink_coffer (l : Nat) (v : Link) : (s.setLink l v).coffer = s.coffer := rfl
@[simp] theorem setLink_health (l : Nat) (v : Link) : (s.setLink l v).health = s.health := rfl
@[simp] theorem setLink_pins (l : Nat) (v : Link) : (s.setLink l v).pins = s.pins := rfl
@[simp] theorem setLink_counters (l : Nat) (v : Link) : (s.setLink l v).counters = s.counters := rfl
@[simp] theorem setLink_out (l : Nat) (v : Link) : (s.setLink l v).out = s.out := rfl

@[simp] theorem setChan_now (c : Nat) (v : Chan) : (s.setChan c v).now = s.now := rfl
@[simp] theorem setChan_pending (c : Nat) (v : Chan) : (s.setChan c v).pending = s.pending := rfl
@[simp] theorem setChan_free (c : Nat) (v : Chan) : (s.setChan c v).free = s.free := rfl
@[simp] theorem setChan_mem (c : Nat) (v : Chan) : (s.setChan c v).mem = s.mem := rfl
@[simp] theorem setChan_cores (c : Nat) (v : Chan) : (s.setChan c v).cores = s.cores := rfl
@[simp] theorem setChan_tensors (c : Nat) (v : Chan) : (s.setChan c v).tensors = s.tensors := rfl
@[simp] theorem setChan_slots (c : Nat) (v : Chan) : (s.setChan c v).slots = s.slots := rfl
@[simp] theorem setChan_runs (c : Nat) (v : Chan) : (s.setChan c v).runs = s.runs := rfl
@[simp] theorem setChan_streams (c : Nat) (v : Chan) : (s.setChan c v).streams = s.streams := rfl
@[simp] theorem setChan_xfers (c : Nat) (v : Chan) : (s.setChan c v).xfers = s.xfers := rfl
@[simp] theorem setChan_nextXfer (c : Nat) (v : Chan) : (s.setChan c v).nextXfer = s.nextXfer := rfl
@[simp] theorem setChan_rots (c : Nat) (v : Chan) : (s.setChan c v).rots = s.rots := rfl
@[simp] theorem setChan_mcs (c : Nat) (v : Chan) : (s.setChan c v).mcs = s.mcs := rfl
@[simp] theorem setChan_mcOver (c : Nat) (v : Chan) : (s.setChan c v).mcOver = s.mcOver := rfl
@[simp] theorem setChan_rotHeld (c : Nat) (v : Chan) : (s.setChan c v).rotHeld = s.rotHeld := rfl
@[simp] theorem setChan_pushes (c : Nat) (v : Chan) : (s.setChan c v).pushes = s.pushes := rfl
@[simp] theorem setChan_mailboxes (c : Nat) (v : Chan) : (s.setChan c v).mailboxes = s.mailboxes := rfl
@[simp] theorem setChan_orders (c : Nat) (v : Chan) : (s.setChan c v).orders = s.orders := rfl
@[simp] theorem setChan_qps (c : Nat) (v : Chan) : (s.setChan c v).qps = s.qps := rfl
@[simp] theorem setChan_keys (c : Nat) (v : Chan) : (s.setChan c v).keys = s.keys := rfl
@[simp] theorem setChan_layers (c : Nat) (v : Chan) : (s.setChan c v).layers = s.layers := rfl
@[simp] theorem setChan_optCount (c : Nat) (v : Chan) : (s.setChan c v).optCount = s.optCount := rfl
@[simp] theorem setChan_txn (c : Nat) (v : Chan) : (s.setChan c v).txn = s.txn := rfl
@[simp] theorem setChan_prepared (c : Nat) (v : Chan) : (s.setChan c v).prepared = s.prepared := rfl
@[simp] theorem setChan_group (c : Nat) (v : Chan) : (s.setChan c v).group = s.group := rfl
@[simp] theorem setChan_beat (c : Nat) (v : Chan) : (s.setChan c v).beat = s.beat := rfl
@[simp] theorem setChan_links (c : Nat) (v : Chan) : (s.setChan c v).links = s.links := rfl
@[simp] theorem setChan_routes (c : Nat) (v : Chan) : (s.setChan c v).routes = s.routes := rfl
@[simp] theorem setChan_turns (c : Nat) (v : Chan) : (s.setChan c v).turns = s.turns := rfl
@[simp] theorem setChan_linkWait (c : Nat) (v : Chan) : (s.setChan c v).linkWait = s.linkWait := rfl
@[simp] theorem setChan_mgmtIn (c : Nat) (v : Chan) : (s.setChan c v).mgmtIn = s.mgmtIn := rfl
@[simp] theorem setChan_nextMgmt (c : Nat) (v : Chan) : (s.setChan c v).nextMgmt = s.nextMgmt := rfl
@[simp] theorem setChan_chans (c : Nat) (v : Chan) : (s.setChan c v).chans = put c v s.chans := rfl
@[simp] theorem setChan_ports (c : Nat) (v : Chan) : (s.setChan c v).ports = s.ports := rfl
@[simp] theorem setChan_portDownUntil (c : Nat) (v : Chan) : (s.setChan c v).portDownUntil = s.portDownUntil := rfl
@[simp] theorem setChan_ptp (c : Nat) (v : Chan) : (s.setChan c v).ptp = s.ptp := rfl
@[simp] theorem setChan_arbs (c : Nat) (v : Chan) : (s.setChan c v).arbs = s.arbs := rfl
@[simp] theorem setChan_segs (c : Nat) (v : Chan) : (s.setChan c v).segs = s.segs := rfl
@[simp] theorem setChan_trust (c : Nat) (v : Chan) : (s.setChan c v).trust = s.trust := rfl
@[simp] theorem setChan_coffer (c : Nat) (v : Chan) : (s.setChan c v).coffer = s.coffer := rfl
@[simp] theorem setChan_health (c : Nat) (v : Chan) : (s.setChan c v).health = s.health := rfl
@[simp] theorem setChan_pins (c : Nat) (v : Chan) : (s.setChan c v).pins = s.pins := rfl
@[simp] theorem setChan_counters (c : Nat) (v : Chan) : (s.setChan c v).counters = s.counters := rfl
@[simp] theorem setChan_out (c : Nat) (v : Chan) : (s.setChan c v).out = s.out := rfl

@[simp] theorem setPort_now (u : Nat) (v : SubPort) : (s.setPort u v).now = s.now := rfl
@[simp] theorem setPort_pending (u : Nat) (v : SubPort) : (s.setPort u v).pending = s.pending := rfl
@[simp] theorem setPort_free (u : Nat) (v : SubPort) : (s.setPort u v).free = s.free := rfl
@[simp] theorem setPort_mem (u : Nat) (v : SubPort) : (s.setPort u v).mem = s.mem := rfl
@[simp] theorem setPort_cores (u : Nat) (v : SubPort) : (s.setPort u v).cores = s.cores := rfl
@[simp] theorem setPort_tensors (u : Nat) (v : SubPort) : (s.setPort u v).tensors = s.tensors := rfl
@[simp] theorem setPort_slots (u : Nat) (v : SubPort) : (s.setPort u v).slots = s.slots := rfl
@[simp] theorem setPort_runs (u : Nat) (v : SubPort) : (s.setPort u v).runs = s.runs := rfl
@[simp] theorem setPort_streams (u : Nat) (v : SubPort) : (s.setPort u v).streams = s.streams := rfl
@[simp] theorem setPort_xfers (u : Nat) (v : SubPort) : (s.setPort u v).xfers = s.xfers := rfl
@[simp] theorem setPort_nextXfer (u : Nat) (v : SubPort) : (s.setPort u v).nextXfer = s.nextXfer := rfl
@[simp] theorem setPort_rots (u : Nat) (v : SubPort) : (s.setPort u v).rots = s.rots := rfl
@[simp] theorem setPort_mcs (u : Nat) (v : SubPort) : (s.setPort u v).mcs = s.mcs := rfl
@[simp] theorem setPort_mcOver (u : Nat) (v : SubPort) : (s.setPort u v).mcOver = s.mcOver := rfl
@[simp] theorem setPort_rotHeld (u : Nat) (v : SubPort) : (s.setPort u v).rotHeld = s.rotHeld := rfl
@[simp] theorem setPort_pushes (u : Nat) (v : SubPort) : (s.setPort u v).pushes = s.pushes := rfl
@[simp] theorem setPort_mailboxes (u : Nat) (v : SubPort) : (s.setPort u v).mailboxes = s.mailboxes := rfl
@[simp] theorem setPort_orders (u : Nat) (v : SubPort) : (s.setPort u v).orders = s.orders := rfl
@[simp] theorem setPort_qps (u : Nat) (v : SubPort) : (s.setPort u v).qps = s.qps := rfl
@[simp] theorem setPort_keys (u : Nat) (v : SubPort) : (s.setPort u v).keys = s.keys := rfl
@[simp] theorem setPort_layers (u : Nat) (v : SubPort) : (s.setPort u v).layers = s.layers := rfl
@[simp] theorem setPort_optCount (u : Nat) (v : SubPort) : (s.setPort u v).optCount = s.optCount := rfl
@[simp] theorem setPort_txn (u : Nat) (v : SubPort) : (s.setPort u v).txn = s.txn := rfl
@[simp] theorem setPort_prepared (u : Nat) (v : SubPort) : (s.setPort u v).prepared = s.prepared := rfl
@[simp] theorem setPort_group (u : Nat) (v : SubPort) : (s.setPort u v).group = s.group := rfl
@[simp] theorem setPort_beat (u : Nat) (v : SubPort) : (s.setPort u v).beat = s.beat := rfl
@[simp] theorem setPort_links (u : Nat) (v : SubPort) : (s.setPort u v).links = s.links := rfl
@[simp] theorem setPort_routes (u : Nat) (v : SubPort) : (s.setPort u v).routes = s.routes := rfl
@[simp] theorem setPort_turns (u : Nat) (v : SubPort) : (s.setPort u v).turns = s.turns := rfl
@[simp] theorem setPort_linkWait (u : Nat) (v : SubPort) : (s.setPort u v).linkWait = s.linkWait := rfl
@[simp] theorem setPort_mgmtIn (u : Nat) (v : SubPort) : (s.setPort u v).mgmtIn = s.mgmtIn := rfl
@[simp] theorem setPort_nextMgmt (u : Nat) (v : SubPort) : (s.setPort u v).nextMgmt = s.nextMgmt := rfl
@[simp] theorem setPort_chans (u : Nat) (v : SubPort) : (s.setPort u v).chans = s.chans := rfl
@[simp] theorem setPort_ports (u : Nat) (v : SubPort) : (s.setPort u v).ports = put u v s.ports := rfl
@[simp] theorem setPort_portDownUntil (u : Nat) (v : SubPort) : (s.setPort u v).portDownUntil = s.portDownUntil := rfl
@[simp] theorem setPort_ptp (u : Nat) (v : SubPort) : (s.setPort u v).ptp = s.ptp := rfl
@[simp] theorem setPort_arbs (u : Nat) (v : SubPort) : (s.setPort u v).arbs = s.arbs := rfl
@[simp] theorem setPort_segs (u : Nat) (v : SubPort) : (s.setPort u v).segs = s.segs := rfl
@[simp] theorem setPort_trust (u : Nat) (v : SubPort) : (s.setPort u v).trust = s.trust := rfl
@[simp] theorem setPort_coffer (u : Nat) (v : SubPort) : (s.setPort u v).coffer = s.coffer := rfl
@[simp] theorem setPort_health (u : Nat) (v : SubPort) : (s.setPort u v).health = s.health := rfl
@[simp] theorem setPort_pins (u : Nat) (v : SubPort) : (s.setPort u v).pins = s.pins := rfl
@[simp] theorem setPort_counters (u : Nat) (v : SubPort) : (s.setPort u v).counters = s.counters := rfl
@[simp] theorem setPort_out (u : Nat) (v : SubPort) : (s.setPort u v).out = s.out := rfl

@[simp] theorem setSeg_now (g : Nat) (v : Seg) : (s.setSeg g v).now = s.now := rfl
@[simp] theorem setSeg_pending (g : Nat) (v : Seg) : (s.setSeg g v).pending = s.pending := rfl
@[simp] theorem setSeg_free (g : Nat) (v : Seg) : (s.setSeg g v).free = s.free := rfl
@[simp] theorem setSeg_mem (g : Nat) (v : Seg) : (s.setSeg g v).mem = s.mem := rfl
@[simp] theorem setSeg_cores (g : Nat) (v : Seg) : (s.setSeg g v).cores = s.cores := rfl
@[simp] theorem setSeg_tensors (g : Nat) (v : Seg) : (s.setSeg g v).tensors = s.tensors := rfl
@[simp] theorem setSeg_slots (g : Nat) (v : Seg) : (s.setSeg g v).slots = s.slots := rfl
@[simp] theorem setSeg_runs (g : Nat) (v : Seg) : (s.setSeg g v).runs = s.runs := rfl
@[simp] theorem setSeg_streams (g : Nat) (v : Seg) : (s.setSeg g v).streams = s.streams := rfl
@[simp] theorem setSeg_xfers (g : Nat) (v : Seg) : (s.setSeg g v).xfers = s.xfers := rfl
@[simp] theorem setSeg_nextXfer (g : Nat) (v : Seg) : (s.setSeg g v).nextXfer = s.nextXfer := rfl
@[simp] theorem setSeg_rots (g : Nat) (v : Seg) : (s.setSeg g v).rots = s.rots := rfl
@[simp] theorem setSeg_mcs (g : Nat) (v : Seg) : (s.setSeg g v).mcs = s.mcs := rfl
@[simp] theorem setSeg_mcOver (g : Nat) (v : Seg) : (s.setSeg g v).mcOver = s.mcOver := rfl
@[simp] theorem setSeg_rotHeld (g : Nat) (v : Seg) : (s.setSeg g v).rotHeld = s.rotHeld := rfl
@[simp] theorem setSeg_pushes (g : Nat) (v : Seg) : (s.setSeg g v).pushes = s.pushes := rfl
@[simp] theorem setSeg_mailboxes (g : Nat) (v : Seg) : (s.setSeg g v).mailboxes = s.mailboxes := rfl
@[simp] theorem setSeg_orders (g : Nat) (v : Seg) : (s.setSeg g v).orders = s.orders := rfl
@[simp] theorem setSeg_qps (g : Nat) (v : Seg) : (s.setSeg g v).qps = s.qps := rfl
@[simp] theorem setSeg_keys (g : Nat) (v : Seg) : (s.setSeg g v).keys = s.keys := rfl
@[simp] theorem setSeg_layers (g : Nat) (v : Seg) : (s.setSeg g v).layers = s.layers := rfl
@[simp] theorem setSeg_optCount (g : Nat) (v : Seg) : (s.setSeg g v).optCount = s.optCount := rfl
@[simp] theorem setSeg_txn (g : Nat) (v : Seg) : (s.setSeg g v).txn = s.txn := rfl
@[simp] theorem setSeg_prepared (g : Nat) (v : Seg) : (s.setSeg g v).prepared = s.prepared := rfl
@[simp] theorem setSeg_group (g : Nat) (v : Seg) : (s.setSeg g v).group = s.group := rfl
@[simp] theorem setSeg_beat (g : Nat) (v : Seg) : (s.setSeg g v).beat = s.beat := rfl
@[simp] theorem setSeg_links (g : Nat) (v : Seg) : (s.setSeg g v).links = s.links := rfl
@[simp] theorem setSeg_routes (g : Nat) (v : Seg) : (s.setSeg g v).routes = s.routes := rfl
@[simp] theorem setSeg_turns (g : Nat) (v : Seg) : (s.setSeg g v).turns = s.turns := rfl
@[simp] theorem setSeg_linkWait (g : Nat) (v : Seg) : (s.setSeg g v).linkWait = s.linkWait := rfl
@[simp] theorem setSeg_mgmtIn (g : Nat) (v : Seg) : (s.setSeg g v).mgmtIn = s.mgmtIn := rfl
@[simp] theorem setSeg_nextMgmt (g : Nat) (v : Seg) : (s.setSeg g v).nextMgmt = s.nextMgmt := rfl
@[simp] theorem setSeg_chans (g : Nat) (v : Seg) : (s.setSeg g v).chans = s.chans := rfl
@[simp] theorem setSeg_ports (g : Nat) (v : Seg) : (s.setSeg g v).ports = s.ports := rfl
@[simp] theorem setSeg_portDownUntil (g : Nat) (v : Seg) : (s.setSeg g v).portDownUntil = s.portDownUntil := rfl
@[simp] theorem setSeg_ptp (g : Nat) (v : Seg) : (s.setSeg g v).ptp = s.ptp := rfl
@[simp] theorem setSeg_arbs (g : Nat) (v : Seg) : (s.setSeg g v).arbs = s.arbs := rfl
@[simp] theorem setSeg_segs (g : Nat) (v : Seg) : (s.setSeg g v).segs = put g v s.segs := rfl
@[simp] theorem setSeg_trust (g : Nat) (v : Seg) : (s.setSeg g v).trust = s.trust := rfl
@[simp] theorem setSeg_coffer (g : Nat) (v : Seg) : (s.setSeg g v).coffer = s.coffer := rfl
@[simp] theorem setSeg_health (g : Nat) (v : Seg) : (s.setSeg g v).health = s.health := rfl
@[simp] theorem setSeg_pins (g : Nat) (v : Seg) : (s.setSeg g v).pins = s.pins := rfl
@[simp] theorem setSeg_counters (g : Nat) (v : Seg) : (s.setSeg g v).counters = s.counters := rfl
@[simp] theorem setSeg_out (g : Nat) (v : Seg) : (s.setSeg g v).out = s.out := rfl

@[simp] theorem onTensor_now (h : Nat) (f : Tensor → Tensor) : (s.onTensor h f).now = s.now := rfl
@[simp] theorem onTensor_pending (h : Nat) (f : Tensor → Tensor) : (s.onTensor h f).pending = s.pending := rfl
@[simp] theorem onTensor_free (h : Nat) (f : Tensor → Tensor) : (s.onTensor h f).free = s.free := rfl
@[simp] theorem onTensor_mem (h : Nat) (f : Tensor → Tensor) : (s.onTensor h f).mem = s.mem := rfl
@[simp] theorem onTensor_cores (h : Nat) (f : Tensor → Tensor) : (s.onTensor h f).cores = s.cores := rfl
@[simp] theorem onTensor_tensors (h : Nat) (f : Tensor → Tensor) : (s.onTensor h f).tensors = mapIf (fun t => t.handle == h) f s.tensors := rfl
@[simp] theorem onTensor_slots (h : Nat) (f : Tensor → Tensor) : (s.onTensor h f).slots = s.slots := rfl
@[simp] theorem onTensor_runs (h : Nat) (f : Tensor → Tensor) : (s.onTensor h f).runs = s.runs := rfl
@[simp] theorem onTensor_streams (h : Nat) (f : Tensor → Tensor) : (s.onTensor h f).streams = s.streams := rfl
@[simp] theorem onTensor_xfers (h : Nat) (f : Tensor → Tensor) : (s.onTensor h f).xfers = s.xfers := rfl
@[simp] theorem onTensor_nextXfer (h : Nat) (f : Tensor → Tensor) : (s.onTensor h f).nextXfer = s.nextXfer := rfl
@[simp] theorem onTensor_rots (h : Nat) (f : Tensor → Tensor) : (s.onTensor h f).rots = s.rots := rfl
@[simp] theorem onTensor_mcs (h : Nat) (f : Tensor → Tensor) : (s.onTensor h f).mcs = s.mcs := rfl
@[simp] theorem onTensor_mcOver (h : Nat) (f : Tensor → Tensor) : (s.onTensor h f).mcOver = s.mcOver := rfl
@[simp] theorem onTensor_rotHeld (h : Nat) (f : Tensor → Tensor) : (s.onTensor h f).rotHeld = s.rotHeld := rfl
@[simp] theorem onTensor_pushes (h : Nat) (f : Tensor → Tensor) : (s.onTensor h f).pushes = s.pushes := rfl
@[simp] theorem onTensor_mailboxes (h : Nat) (f : Tensor → Tensor) : (s.onTensor h f).mailboxes = s.mailboxes := rfl
@[simp] theorem onTensor_orders (h : Nat) (f : Tensor → Tensor) : (s.onTensor h f).orders = s.orders := rfl
@[simp] theorem onTensor_qps (h : Nat) (f : Tensor → Tensor) : (s.onTensor h f).qps = s.qps := rfl
@[simp] theorem onTensor_keys (h : Nat) (f : Tensor → Tensor) : (s.onTensor h f).keys = s.keys := rfl
@[simp] theorem onTensor_layers (h : Nat) (f : Tensor → Tensor) : (s.onTensor h f).layers = s.layers := rfl
@[simp] theorem onTensor_optCount (h : Nat) (f : Tensor → Tensor) : (s.onTensor h f).optCount = s.optCount := rfl
@[simp] theorem onTensor_txn (h : Nat) (f : Tensor → Tensor) : (s.onTensor h f).txn = s.txn := rfl
@[simp] theorem onTensor_prepared (h : Nat) (f : Tensor → Tensor) : (s.onTensor h f).prepared = s.prepared := rfl
@[simp] theorem onTensor_group (h : Nat) (f : Tensor → Tensor) : (s.onTensor h f).group = s.group := rfl
@[simp] theorem onTensor_beat (h : Nat) (f : Tensor → Tensor) : (s.onTensor h f).beat = s.beat := rfl
@[simp] theorem onTensor_links (h : Nat) (f : Tensor → Tensor) : (s.onTensor h f).links = s.links := rfl
@[simp] theorem onTensor_routes (h : Nat) (f : Tensor → Tensor) : (s.onTensor h f).routes = s.routes := rfl
@[simp] theorem onTensor_turns (h : Nat) (f : Tensor → Tensor) : (s.onTensor h f).turns = s.turns := rfl
@[simp] theorem onTensor_linkWait (h : Nat) (f : Tensor → Tensor) : (s.onTensor h f).linkWait = s.linkWait := rfl
@[simp] theorem onTensor_mgmtIn (h : Nat) (f : Tensor → Tensor) : (s.onTensor h f).mgmtIn = s.mgmtIn := rfl
@[simp] theorem onTensor_nextMgmt (h : Nat) (f : Tensor → Tensor) : (s.onTensor h f).nextMgmt = s.nextMgmt := rfl
@[simp] theorem onTensor_chans (h : Nat) (f : Tensor → Tensor) : (s.onTensor h f).chans = s.chans := rfl
@[simp] theorem onTensor_ports (h : Nat) (f : Tensor → Tensor) : (s.onTensor h f).ports = s.ports := rfl
@[simp] theorem onTensor_portDownUntil (h : Nat) (f : Tensor → Tensor) : (s.onTensor h f).portDownUntil = s.portDownUntil := rfl
@[simp] theorem onTensor_ptp (h : Nat) (f : Tensor → Tensor) : (s.onTensor h f).ptp = s.ptp := rfl
@[simp] theorem onTensor_arbs (h : Nat) (f : Tensor → Tensor) : (s.onTensor h f).arbs = s.arbs := rfl
@[simp] theorem onTensor_segs (h : Nat) (f : Tensor → Tensor) : (s.onTensor h f).segs = s.segs := rfl
@[simp] theorem onTensor_trust (h : Nat) (f : Tensor → Tensor) : (s.onTensor h f).trust = s.trust := rfl
@[simp] theorem onTensor_coffer (h : Nat) (f : Tensor → Tensor) : (s.onTensor h f).coffer = s.coffer := rfl
@[simp] theorem onTensor_health (h : Nat) (f : Tensor → Tensor) : (s.onTensor h f).health = s.health := rfl
@[simp] theorem onTensor_pins (h : Nat) (f : Tensor → Tensor) : (s.onTensor h f).pins = s.pins := rfl
@[simp] theorem onTensor_counters (h : Nat) (f : Tensor → Tensor) : (s.onTensor h f).counters = s.counters := rfl
@[simp] theorem onTensor_out (h : Nat) (f : Tensor → Tensor) : (s.onTensor h f).out = s.out := rfl

@[simp] theorem onRun_now (t : Nat) (f : Run → Run) : (s.onRun t f).now = s.now := rfl
@[simp] theorem onRun_pending (t : Nat) (f : Run → Run) : (s.onRun t f).pending = s.pending := rfl
@[simp] theorem onRun_free (t : Nat) (f : Run → Run) : (s.onRun t f).free = s.free := rfl
@[simp] theorem onRun_mem (t : Nat) (f : Run → Run) : (s.onRun t f).mem = s.mem := rfl
@[simp] theorem onRun_cores (t : Nat) (f : Run → Run) : (s.onRun t f).cores = s.cores := rfl
@[simp] theorem onRun_tensors (t : Nat) (f : Run → Run) : (s.onRun t f).tensors = s.tensors := rfl
@[simp] theorem onRun_slots (t : Nat) (f : Run → Run) : (s.onRun t f).slots = s.slots := rfl
@[simp] theorem onRun_runs (t : Nat) (f : Run → Run) : (s.onRun t f).runs = mapIf (fun r => r.tag == t && r.state != 3) f s.runs := rfl
@[simp] theorem onRun_streams (t : Nat) (f : Run → Run) : (s.onRun t f).streams = s.streams := rfl
@[simp] theorem onRun_xfers (t : Nat) (f : Run → Run) : (s.onRun t f).xfers = s.xfers := rfl
@[simp] theorem onRun_nextXfer (t : Nat) (f : Run → Run) : (s.onRun t f).nextXfer = s.nextXfer := rfl
@[simp] theorem onRun_rots (t : Nat) (f : Run → Run) : (s.onRun t f).rots = s.rots := rfl
@[simp] theorem onRun_mcs (t : Nat) (f : Run → Run) : (s.onRun t f).mcs = s.mcs := rfl
@[simp] theorem onRun_mcOver (t : Nat) (f : Run → Run) : (s.onRun t f).mcOver = s.mcOver := rfl
@[simp] theorem onRun_rotHeld (t : Nat) (f : Run → Run) : (s.onRun t f).rotHeld = s.rotHeld := rfl
@[simp] theorem onRun_pushes (t : Nat) (f : Run → Run) : (s.onRun t f).pushes = s.pushes := rfl
@[simp] theorem onRun_mailboxes (t : Nat) (f : Run → Run) : (s.onRun t f).mailboxes = s.mailboxes := rfl
@[simp] theorem onRun_orders (t : Nat) (f : Run → Run) : (s.onRun t f).orders = s.orders := rfl
@[simp] theorem onRun_qps (t : Nat) (f : Run → Run) : (s.onRun t f).qps = s.qps := rfl
@[simp] theorem onRun_keys (t : Nat) (f : Run → Run) : (s.onRun t f).keys = s.keys := rfl
@[simp] theorem onRun_layers (t : Nat) (f : Run → Run) : (s.onRun t f).layers = s.layers := rfl
@[simp] theorem onRun_optCount (t : Nat) (f : Run → Run) : (s.onRun t f).optCount = s.optCount := rfl
@[simp] theorem onRun_txn (t : Nat) (f : Run → Run) : (s.onRun t f).txn = s.txn := rfl
@[simp] theorem onRun_prepared (t : Nat) (f : Run → Run) : (s.onRun t f).prepared = s.prepared := rfl
@[simp] theorem onRun_group (t : Nat) (f : Run → Run) : (s.onRun t f).group = s.group := rfl
@[simp] theorem onRun_beat (t : Nat) (f : Run → Run) : (s.onRun t f).beat = s.beat := rfl
@[simp] theorem onRun_links (t : Nat) (f : Run → Run) : (s.onRun t f).links = s.links := rfl
@[simp] theorem onRun_routes (t : Nat) (f : Run → Run) : (s.onRun t f).routes = s.routes := rfl
@[simp] theorem onRun_turns (t : Nat) (f : Run → Run) : (s.onRun t f).turns = s.turns := rfl
@[simp] theorem onRun_linkWait (t : Nat) (f : Run → Run) : (s.onRun t f).linkWait = s.linkWait := rfl
@[simp] theorem onRun_mgmtIn (t : Nat) (f : Run → Run) : (s.onRun t f).mgmtIn = s.mgmtIn := rfl
@[simp] theorem onRun_nextMgmt (t : Nat) (f : Run → Run) : (s.onRun t f).nextMgmt = s.nextMgmt := rfl
@[simp] theorem onRun_chans (t : Nat) (f : Run → Run) : (s.onRun t f).chans = s.chans := rfl
@[simp] theorem onRun_ports (t : Nat) (f : Run → Run) : (s.onRun t f).ports = s.ports := rfl
@[simp] theorem onRun_portDownUntil (t : Nat) (f : Run → Run) : (s.onRun t f).portDownUntil = s.portDownUntil := rfl
@[simp] theorem onRun_ptp (t : Nat) (f : Run → Run) : (s.onRun t f).ptp = s.ptp := rfl
@[simp] theorem onRun_arbs (t : Nat) (f : Run → Run) : (s.onRun t f).arbs = s.arbs := rfl
@[simp] theorem onRun_segs (t : Nat) (f : Run → Run) : (s.onRun t f).segs = s.segs := rfl
@[simp] theorem onRun_trust (t : Nat) (f : Run → Run) : (s.onRun t f).trust = s.trust := rfl
@[simp] theorem onRun_coffer (t : Nat) (f : Run → Run) : (s.onRun t f).coffer = s.coffer := rfl
@[simp] theorem onRun_health (t : Nat) (f : Run → Run) : (s.onRun t f).health = s.health := rfl
@[simp] theorem onRun_pins (t : Nat) (f : Run → Run) : (s.onRun t f).pins = s.pins := rfl
@[simp] theorem onRun_counters (t : Nat) (f : Run → Run) : (s.onRun t f).counters = s.counters := rfl
@[simp] theorem onRun_out (t : Nat) (f : Run → Run) : (s.onRun t f).out = s.out := rfl

@[simp] theorem setCounter_now (k : Nat × Nat) (n v : Nat) : (s.setCounter k n v).now = s.now := rfl
@[simp] theorem setCounter_pending (k : Nat × Nat) (n v : Nat) : (s.setCounter k n v).pending = s.pending := rfl
@[simp] theorem setCounter_free (k : Nat × Nat) (n v : Nat) : (s.setCounter k n v).free = s.free := rfl
@[simp] theorem setCounter_mem (k : Nat × Nat) (n v : Nat) : (s.setCounter k n v).mem = s.mem := rfl
@[simp] theorem setCounter_cores (k : Nat × Nat) (n v : Nat) : (s.setCounter k n v).cores = s.cores := rfl
@[simp] theorem setCounter_tensors (k : Nat × Nat) (n v : Nat) : (s.setCounter k n v).tensors = s.tensors := rfl
@[simp] theorem setCounter_slots (k : Nat × Nat) (n v : Nat) : (s.setCounter k n v).slots = s.slots := rfl
@[simp] theorem setCounter_runs (k : Nat × Nat) (n v : Nat) : (s.setCounter k n v).runs = s.runs := rfl
@[simp] theorem setCounter_streams (k : Nat × Nat) (n v : Nat) : (s.setCounter k n v).streams = s.streams := rfl
@[simp] theorem setCounter_xfers (k : Nat × Nat) (n v : Nat) : (s.setCounter k n v).xfers = s.xfers := rfl
@[simp] theorem setCounter_nextXfer (k : Nat × Nat) (n v : Nat) : (s.setCounter k n v).nextXfer = s.nextXfer := rfl
@[simp] theorem setCounter_rots (k : Nat × Nat) (n v : Nat) : (s.setCounter k n v).rots = s.rots := rfl
@[simp] theorem setCounter_mcs (k : Nat × Nat) (n v : Nat) : (s.setCounter k n v).mcs = s.mcs := rfl
@[simp] theorem setCounter_mcOver (k : Nat × Nat) (n v : Nat) : (s.setCounter k n v).mcOver = s.mcOver := rfl
@[simp] theorem setCounter_rotHeld (k : Nat × Nat) (n v : Nat) : (s.setCounter k n v).rotHeld = s.rotHeld := rfl
@[simp] theorem setCounter_pushes (k : Nat × Nat) (n v : Nat) : (s.setCounter k n v).pushes = s.pushes := rfl
@[simp] theorem setCounter_mailboxes (k : Nat × Nat) (n v : Nat) : (s.setCounter k n v).mailboxes = s.mailboxes := rfl
@[simp] theorem setCounter_orders (k : Nat × Nat) (n v : Nat) : (s.setCounter k n v).orders = s.orders := rfl
@[simp] theorem setCounter_qps (k : Nat × Nat) (n v : Nat) : (s.setCounter k n v).qps = s.qps := rfl
@[simp] theorem setCounter_keys (k : Nat × Nat) (n v : Nat) : (s.setCounter k n v).keys = s.keys := rfl
@[simp] theorem setCounter_layers (k : Nat × Nat) (n v : Nat) : (s.setCounter k n v).layers = s.layers := rfl
@[simp] theorem setCounter_optCount (k : Nat × Nat) (n v : Nat) : (s.setCounter k n v).optCount = s.optCount := rfl
@[simp] theorem setCounter_txn (k : Nat × Nat) (n v : Nat) : (s.setCounter k n v).txn = s.txn := rfl
@[simp] theorem setCounter_prepared (k : Nat × Nat) (n v : Nat) : (s.setCounter k n v).prepared = s.prepared := rfl
@[simp] theorem setCounter_group (k : Nat × Nat) (n v : Nat) : (s.setCounter k n v).group = s.group := rfl
@[simp] theorem setCounter_beat (k : Nat × Nat) (n v : Nat) : (s.setCounter k n v).beat = s.beat := rfl
@[simp] theorem setCounter_links (k : Nat × Nat) (n v : Nat) : (s.setCounter k n v).links = s.links := rfl
@[simp] theorem setCounter_routes (k : Nat × Nat) (n v : Nat) : (s.setCounter k n v).routes = s.routes := rfl
@[simp] theorem setCounter_turns (k : Nat × Nat) (n v : Nat) : (s.setCounter k n v).turns = s.turns := rfl
@[simp] theorem setCounter_linkWait (k : Nat × Nat) (n v : Nat) : (s.setCounter k n v).linkWait = s.linkWait := rfl
@[simp] theorem setCounter_mgmtIn (k : Nat × Nat) (n v : Nat) : (s.setCounter k n v).mgmtIn = s.mgmtIn := rfl
@[simp] theorem setCounter_nextMgmt (k : Nat × Nat) (n v : Nat) : (s.setCounter k n v).nextMgmt = s.nextMgmt := rfl
@[simp] theorem setCounter_chans (k : Nat × Nat) (n v : Nat) : (s.setCounter k n v).chans = s.chans := rfl
@[simp] theorem setCounter_ports (k : Nat × Nat) (n v : Nat) : (s.setCounter k n v).ports = s.ports := rfl
@[simp] theorem setCounter_portDownUntil (k : Nat × Nat) (n v : Nat) : (s.setCounter k n v).portDownUntil = s.portDownUntil := rfl
@[simp] theorem setCounter_ptp (k : Nat × Nat) (n v : Nat) : (s.setCounter k n v).ptp = s.ptp := rfl
@[simp] theorem setCounter_arbs (k : Nat × Nat) (n v : Nat) : (s.setCounter k n v).arbs = s.arbs := rfl
@[simp] theorem setCounter_segs (k : Nat × Nat) (n v : Nat) : (s.setCounter k n v).segs = s.segs := rfl
@[simp] theorem setCounter_trust (k : Nat × Nat) (n v : Nat) : (s.setCounter k n v).trust = s.trust := rfl
@[simp] theorem setCounter_coffer (k : Nat × Nat) (n v : Nat) : (s.setCounter k n v).coffer = s.coffer := rfl
@[simp] theorem setCounter_health (k : Nat × Nat) (n v : Nat) : (s.setCounter k n v).health = s.health := rfl
@[simp] theorem setCounter_pins (k : Nat × Nat) (n v : Nat) : (s.setCounter k n v).pins = s.pins := rfl
@[simp] theorem setCounter_counters (k : Nat × Nat) (n v : Nat) : (s.setCounter k n v).counters = put ((k.1 * 65536 + k.2) * 65536 + n) v s.counters := rfl
@[simp] theorem setCounter_out (k : Nat × Nat) (n v : Nat) : (s.setCounter k n v).out = s.out := rfl

@[simp] theorem zeroTables_now (p : Nat → Bool) : (s.zeroTables p).now = s.now := rfl
@[simp] theorem zeroTables_pending (p : Nat → Bool) : (s.zeroTables p).pending = s.pending := rfl
@[simp] theorem zeroTables_free (p : Nat → Bool) : (s.zeroTables p).free = s.free := rfl
@[simp] theorem zeroTables_mem (p : Nat → Bool) : (s.zeroTables p).mem = s.mem := rfl
@[simp] theorem zeroTables_cores (p : Nat → Bool) : (s.zeroTables p).cores = s.cores := rfl
@[simp] theorem zeroTables_tensors (p : Nat → Bool) : (s.zeroTables p).tensors = s.tensors := rfl
@[simp] theorem zeroTables_slots (p : Nat → Bool) : (s.zeroTables p).slots = s.slots := rfl
@[simp] theorem zeroTables_runs (p : Nat → Bool) : (s.zeroTables p).runs = s.runs := rfl
@[simp] theorem zeroTables_streams (p : Nat → Bool) : (s.zeroTables p).streams = s.streams := rfl
@[simp] theorem zeroTables_xfers (p : Nat → Bool) : (s.zeroTables p).xfers = s.xfers := rfl
@[simp] theorem zeroTables_nextXfer (p : Nat → Bool) : (s.zeroTables p).nextXfer = s.nextXfer := rfl
@[simp] theorem zeroTables_rots (p : Nat → Bool) : (s.zeroTables p).rots = s.rots := rfl
@[simp] theorem zeroTables_mcs (p : Nat → Bool) : (s.zeroTables p).mcs = s.mcs := rfl
@[simp] theorem zeroTables_mcOver (p : Nat → Bool) : (s.zeroTables p).mcOver = s.mcOver := rfl
@[simp] theorem zeroTables_rotHeld (p : Nat → Bool) : (s.zeroTables p).rotHeld = s.rotHeld := rfl
@[simp] theorem zeroTables_pushes (p : Nat → Bool) : (s.zeroTables p).pushes = s.pushes := rfl
@[simp] theorem zeroTables_mailboxes (p : Nat → Bool) : (s.zeroTables p).mailboxes = s.mailboxes := rfl
@[simp] theorem zeroTables_orders (p : Nat → Bool) : (s.zeroTables p).orders = s.orders := rfl
@[simp] theorem zeroTables_qps (p : Nat → Bool) : (s.zeroTables p).qps = s.qps := rfl
@[simp] theorem zeroTables_keys (p : Nat → Bool) : (s.zeroTables p).keys = s.keys := rfl
@[simp] theorem zeroTables_layers (p : Nat → Bool) : (s.zeroTables p).layers = s.layers := rfl
@[simp] theorem zeroTables_optCount (p : Nat → Bool) : (s.zeroTables p).optCount = s.optCount := rfl
@[simp] theorem zeroTables_txn (p : Nat → Bool) : (s.zeroTables p).txn = s.txn := rfl
@[simp] theorem zeroTables_prepared (p : Nat → Bool) : (s.zeroTables p).prepared = s.prepared := rfl
@[simp] theorem zeroTables_group (p : Nat → Bool) : (s.zeroTables p).group = s.group := rfl
@[simp] theorem zeroTables_beat (p : Nat → Bool) : (s.zeroTables p).beat = s.beat := rfl
@[simp] theorem zeroTables_links (p : Nat → Bool) : (s.zeroTables p).links = s.links := rfl
@[simp] theorem zeroTables_routes (p : Nat → Bool) : (s.zeroTables p).routes = s.routes := rfl
@[simp] theorem zeroTables_turns (p : Nat → Bool) : (s.zeroTables p).turns = s.turns := rfl
@[simp] theorem zeroTables_linkWait (p : Nat → Bool) : (s.zeroTables p).linkWait = s.linkWait := rfl
@[simp] theorem zeroTables_mgmtIn (p : Nat → Bool) : (s.zeroTables p).mgmtIn = s.mgmtIn := rfl
@[simp] theorem zeroTables_nextMgmt (p : Nat → Bool) : (s.zeroTables p).nextMgmt = s.nextMgmt := rfl
@[simp] theorem zeroTables_chans (p : Nat → Bool) : (s.zeroTables p).chans = s.chans := rfl
@[simp] theorem zeroTables_ports (p : Nat → Bool) : (s.zeroTables p).ports = s.ports := rfl
@[simp] theorem zeroTables_portDownUntil (p : Nat → Bool) : (s.zeroTables p).portDownUntil = s.portDownUntil := rfl
@[simp] theorem zeroTables_ptp (p : Nat → Bool) : (s.zeroTables p).ptp = s.ptp := rfl
@[simp] theorem zeroTables_arbs (p : Nat → Bool) : (s.zeroTables p).arbs = s.arbs := rfl
@[simp] theorem zeroTables_segs (p : Nat → Bool) : (s.zeroTables p).segs = s.segs := rfl
@[simp] theorem zeroTables_trust (p : Nat → Bool) : (s.zeroTables p).trust = s.trust := rfl
@[simp] theorem zeroTables_coffer (p : Nat → Bool) : (s.zeroTables p).coffer = s.coffer := rfl
@[simp] theorem zeroTables_health (p : Nat → Bool) : (s.zeroTables p).health = s.health := rfl
@[simp] theorem zeroTables_pins (p : Nat → Bool) : (s.zeroTables p).pins = s.pins := rfl
@[simp] theorem zeroTables_counters (p : Nat → Bool) : (s.zeroTables p).counters = s.counters.filter (fun c => !p (c.1 / 2 ^ 32)) := rfl
@[simp] theorem zeroTables_out (p : Nat → Bool) : (s.zeroTables p).out = s.out := rfl

@[simp] theorem zeroCounter_now (k : Nat × Nat) (n : Nat) : (s.zeroCounter k n).now = s.now := rfl
@[simp] theorem zeroCounter_pending (k : Nat × Nat) (n : Nat) : (s.zeroCounter k n).pending = s.pending := rfl
@[simp] theorem zeroCounter_free (k : Nat × Nat) (n : Nat) : (s.zeroCounter k n).free = s.free := rfl
@[simp] theorem zeroCounter_mem (k : Nat × Nat) (n : Nat) : (s.zeroCounter k n).mem = s.mem := rfl
@[simp] theorem zeroCounter_cores (k : Nat × Nat) (n : Nat) : (s.zeroCounter k n).cores = s.cores := rfl
@[simp] theorem zeroCounter_tensors (k : Nat × Nat) (n : Nat) : (s.zeroCounter k n).tensors = s.tensors := rfl
@[simp] theorem zeroCounter_slots (k : Nat × Nat) (n : Nat) : (s.zeroCounter k n).slots = s.slots := rfl
@[simp] theorem zeroCounter_runs (k : Nat × Nat) (n : Nat) : (s.zeroCounter k n).runs = s.runs := rfl
@[simp] theorem zeroCounter_streams (k : Nat × Nat) (n : Nat) : (s.zeroCounter k n).streams = s.streams := rfl
@[simp] theorem zeroCounter_xfers (k : Nat × Nat) (n : Nat) : (s.zeroCounter k n).xfers = s.xfers := rfl
@[simp] theorem zeroCounter_nextXfer (k : Nat × Nat) (n : Nat) : (s.zeroCounter k n).nextXfer = s.nextXfer := rfl
@[simp] theorem zeroCounter_rots (k : Nat × Nat) (n : Nat) : (s.zeroCounter k n).rots = s.rots := rfl
@[simp] theorem zeroCounter_mcs (k : Nat × Nat) (n : Nat) : (s.zeroCounter k n).mcs = s.mcs := rfl
@[simp] theorem zeroCounter_mcOver (k : Nat × Nat) (n : Nat) : (s.zeroCounter k n).mcOver = s.mcOver := rfl
@[simp] theorem zeroCounter_rotHeld (k : Nat × Nat) (n : Nat) : (s.zeroCounter k n).rotHeld = s.rotHeld := rfl
@[simp] theorem zeroCounter_pushes (k : Nat × Nat) (n : Nat) : (s.zeroCounter k n).pushes = s.pushes := rfl
@[simp] theorem zeroCounter_mailboxes (k : Nat × Nat) (n : Nat) : (s.zeroCounter k n).mailboxes = s.mailboxes := rfl
@[simp] theorem zeroCounter_orders (k : Nat × Nat) (n : Nat) : (s.zeroCounter k n).orders = s.orders := rfl
@[simp] theorem zeroCounter_qps (k : Nat × Nat) (n : Nat) : (s.zeroCounter k n).qps = s.qps := rfl
@[simp] theorem zeroCounter_keys (k : Nat × Nat) (n : Nat) : (s.zeroCounter k n).keys = s.keys := rfl
@[simp] theorem zeroCounter_layers (k : Nat × Nat) (n : Nat) : (s.zeroCounter k n).layers = s.layers := rfl
@[simp] theorem zeroCounter_optCount (k : Nat × Nat) (n : Nat) : (s.zeroCounter k n).optCount = s.optCount := rfl
@[simp] theorem zeroCounter_txn (k : Nat × Nat) (n : Nat) : (s.zeroCounter k n).txn = s.txn := rfl
@[simp] theorem zeroCounter_prepared (k : Nat × Nat) (n : Nat) : (s.zeroCounter k n).prepared = s.prepared := rfl
@[simp] theorem zeroCounter_group (k : Nat × Nat) (n : Nat) : (s.zeroCounter k n).group = s.group := rfl
@[simp] theorem zeroCounter_beat (k : Nat × Nat) (n : Nat) : (s.zeroCounter k n).beat = s.beat := rfl
@[simp] theorem zeroCounter_links (k : Nat × Nat) (n : Nat) : (s.zeroCounter k n).links = s.links := rfl
@[simp] theorem zeroCounter_routes (k : Nat × Nat) (n : Nat) : (s.zeroCounter k n).routes = s.routes := rfl
@[simp] theorem zeroCounter_turns (k : Nat × Nat) (n : Nat) : (s.zeroCounter k n).turns = s.turns := rfl
@[simp] theorem zeroCounter_linkWait (k : Nat × Nat) (n : Nat) : (s.zeroCounter k n).linkWait = s.linkWait := rfl
@[simp] theorem zeroCounter_mgmtIn (k : Nat × Nat) (n : Nat) : (s.zeroCounter k n).mgmtIn = s.mgmtIn := rfl
@[simp] theorem zeroCounter_nextMgmt (k : Nat × Nat) (n : Nat) : (s.zeroCounter k n).nextMgmt = s.nextMgmt := rfl
@[simp] theorem zeroCounter_chans (k : Nat × Nat) (n : Nat) : (s.zeroCounter k n).chans = s.chans := rfl
@[simp] theorem zeroCounter_ports (k : Nat × Nat) (n : Nat) : (s.zeroCounter k n).ports = s.ports := rfl
@[simp] theorem zeroCounter_portDownUntil (k : Nat × Nat) (n : Nat) : (s.zeroCounter k n).portDownUntil = s.portDownUntil := rfl
@[simp] theorem zeroCounter_ptp (k : Nat × Nat) (n : Nat) : (s.zeroCounter k n).ptp = s.ptp := rfl
@[simp] theorem zeroCounter_arbs (k : Nat × Nat) (n : Nat) : (s.zeroCounter k n).arbs = s.arbs := rfl
@[simp] theorem zeroCounter_segs (k : Nat × Nat) (n : Nat) : (s.zeroCounter k n).segs = s.segs := rfl
@[simp] theorem zeroCounter_trust (k : Nat × Nat) (n : Nat) : (s.zeroCounter k n).trust = s.trust := rfl
@[simp] theorem zeroCounter_coffer (k : Nat × Nat) (n : Nat) : (s.zeroCounter k n).coffer = s.coffer := rfl
@[simp] theorem zeroCounter_health (k : Nat × Nat) (n : Nat) : (s.zeroCounter k n).health = s.health := rfl
@[simp] theorem zeroCounter_pins (k : Nat × Nat) (n : Nat) : (s.zeroCounter k n).pins = s.pins := rfl
@[simp] theorem zeroCounter_counters (k : Nat × Nat) (n : Nat) : (s.zeroCounter k n).counters = erase ((k.1 * 65536 + k.2) * 65536 + n) s.counters := rfl
@[simp] theorem zeroCounter_out (k : Nat × Nat) (n : Nat) : (s.zeroCounter k n).out = s.out := rfl

@[simp] theorem emit_now (o : Out) : (s.emit o).now = s.now := rfl
@[simp] theorem emit_pending (o : Out) : (s.emit o).pending = s.pending := rfl
@[simp] theorem emit_free (o : Out) : (s.emit o).free = s.free := rfl
@[simp] theorem emit_mem (o : Out) : (s.emit o).mem = s.mem := rfl
@[simp] theorem emit_cores (o : Out) : (s.emit o).cores = s.cores := rfl
@[simp] theorem emit_tensors (o : Out) : (s.emit o).tensors = s.tensors := rfl
@[simp] theorem emit_slots (o : Out) : (s.emit o).slots = s.slots := rfl
@[simp] theorem emit_runs (o : Out) : (s.emit o).runs = s.runs := rfl
@[simp] theorem emit_streams (o : Out) : (s.emit o).streams = s.streams := rfl
@[simp] theorem emit_xfers (o : Out) : (s.emit o).xfers = s.xfers := rfl
@[simp] theorem emit_nextXfer (o : Out) : (s.emit o).nextXfer = s.nextXfer := rfl
@[simp] theorem emit_rots (o : Out) : (s.emit o).rots = s.rots := rfl
@[simp] theorem emit_mcs (o : Out) : (s.emit o).mcs = s.mcs := rfl
@[simp] theorem emit_mcOver (o : Out) : (s.emit o).mcOver = s.mcOver := rfl
@[simp] theorem emit_rotHeld (o : Out) : (s.emit o).rotHeld = s.rotHeld := rfl
@[simp] theorem emit_pushes (o : Out) : (s.emit o).pushes = s.pushes := rfl
@[simp] theorem emit_mailboxes (o : Out) : (s.emit o).mailboxes = s.mailboxes := rfl
@[simp] theorem emit_orders (o : Out) : (s.emit o).orders = s.orders := rfl
@[simp] theorem emit_qps (o : Out) : (s.emit o).qps = s.qps := rfl
@[simp] theorem emit_keys (o : Out) : (s.emit o).keys = s.keys := rfl
@[simp] theorem emit_layers (o : Out) : (s.emit o).layers = s.layers := rfl
@[simp] theorem emit_optCount (o : Out) : (s.emit o).optCount = s.optCount := rfl
@[simp] theorem emit_txn (o : Out) : (s.emit o).txn = s.txn := rfl
@[simp] theorem emit_prepared (o : Out) : (s.emit o).prepared = s.prepared := rfl
@[simp] theorem emit_group (o : Out) : (s.emit o).group = s.group := rfl
@[simp] theorem emit_beat (o : Out) : (s.emit o).beat = s.beat := rfl
@[simp] theorem emit_links (o : Out) : (s.emit o).links = s.links := rfl
@[simp] theorem emit_routes (o : Out) : (s.emit o).routes = s.routes := rfl
@[simp] theorem emit_turns (o : Out) : (s.emit o).turns = s.turns := rfl
@[simp] theorem emit_linkWait (o : Out) : (s.emit o).linkWait = s.linkWait := rfl
@[simp] theorem emit_mgmtIn (o : Out) : (s.emit o).mgmtIn = s.mgmtIn := rfl
@[simp] theorem emit_nextMgmt (o : Out) : (s.emit o).nextMgmt = s.nextMgmt := rfl
@[simp] theorem emit_chans (o : Out) : (s.emit o).chans = s.chans := rfl
@[simp] theorem emit_ports (o : Out) : (s.emit o).ports = s.ports := rfl
@[simp] theorem emit_portDownUntil (o : Out) : (s.emit o).portDownUntil = s.portDownUntil := rfl
@[simp] theorem emit_ptp (o : Out) : (s.emit o).ptp = s.ptp := rfl
@[simp] theorem emit_arbs (o : Out) : (s.emit o).arbs = s.arbs := rfl
@[simp] theorem emit_segs (o : Out) : (s.emit o).segs = s.segs := rfl
@[simp] theorem emit_trust (o : Out) : (s.emit o).trust = s.trust := rfl
@[simp] theorem emit_coffer (o : Out) : (s.emit o).coffer = s.coffer := rfl
@[simp] theorem emit_health (o : Out) : (s.emit o).health = s.health := rfl
@[simp] theorem emit_pins (o : Out) : (s.emit o).pins = s.pins := rfl
@[simp] theorem emit_counters (o : Out) : (s.emit o).counters = s.counters := rfl
@[simp] theorem emit_out (o : Out) : (s.emit o).out = o :: s.out := rfl

@[simp] theorem onMem_now (f : Memory → Memory) : (s.onMem f).now = s.now := rfl
@[simp] theorem onMem_pending (f : Memory → Memory) : (s.onMem f).pending = s.pending := rfl
@[simp] theorem onMem_free (f : Memory → Memory) : (s.onMem f).free = s.free := rfl
@[simp] theorem onMem_mem (f : Memory → Memory) : (s.onMem f).mem = f s.mem := rfl
@[simp] theorem onMem_cores (f : Memory → Memory) : (s.onMem f).cores = s.cores := rfl
@[simp] theorem onMem_tensors (f : Memory → Memory) : (s.onMem f).tensors = s.tensors := rfl
@[simp] theorem onMem_slots (f : Memory → Memory) : (s.onMem f).slots = s.slots := rfl
@[simp] theorem onMem_runs (f : Memory → Memory) : (s.onMem f).runs = s.runs := rfl
@[simp] theorem onMem_streams (f : Memory → Memory) : (s.onMem f).streams = s.streams := rfl
@[simp] theorem onMem_xfers (f : Memory → Memory) : (s.onMem f).xfers = s.xfers := rfl
@[simp] theorem onMem_nextXfer (f : Memory → Memory) : (s.onMem f).nextXfer = s.nextXfer := rfl
@[simp] theorem onMem_rots (f : Memory → Memory) : (s.onMem f).rots = s.rots := rfl
@[simp] theorem onMem_mcs (f : Memory → Memory) : (s.onMem f).mcs = s.mcs := rfl
@[simp] theorem onMem_mcOver (f : Memory → Memory) : (s.onMem f).mcOver = s.mcOver := rfl
@[simp] theorem onMem_rotHeld (f : Memory → Memory) : (s.onMem f).rotHeld = s.rotHeld := rfl
@[simp] theorem onMem_pushes (f : Memory → Memory) : (s.onMem f).pushes = s.pushes := rfl
@[simp] theorem onMem_mailboxes (f : Memory → Memory) : (s.onMem f).mailboxes = s.mailboxes := rfl
@[simp] theorem onMem_orders (f : Memory → Memory) : (s.onMem f).orders = s.orders := rfl
@[simp] theorem onMem_qps (f : Memory → Memory) : (s.onMem f).qps = s.qps := rfl
@[simp] theorem onMem_keys (f : Memory → Memory) : (s.onMem f).keys = s.keys := rfl
@[simp] theorem onMem_layers (f : Memory → Memory) : (s.onMem f).layers = s.layers := rfl
@[simp] theorem onMem_optCount (f : Memory → Memory) : (s.onMem f).optCount = s.optCount := rfl
@[simp] theorem onMem_txn (f : Memory → Memory) : (s.onMem f).txn = s.txn := rfl
@[simp] theorem onMem_prepared (f : Memory → Memory) : (s.onMem f).prepared = s.prepared := rfl
@[simp] theorem onMem_group (f : Memory → Memory) : (s.onMem f).group = s.group := rfl
@[simp] theorem onMem_beat (f : Memory → Memory) : (s.onMem f).beat = s.beat := rfl
@[simp] theorem onMem_links (f : Memory → Memory) : (s.onMem f).links = s.links := rfl
@[simp] theorem onMem_routes (f : Memory → Memory) : (s.onMem f).routes = s.routes := rfl
@[simp] theorem onMem_turns (f : Memory → Memory) : (s.onMem f).turns = s.turns := rfl
@[simp] theorem onMem_linkWait (f : Memory → Memory) : (s.onMem f).linkWait = s.linkWait := rfl
@[simp] theorem onMem_mgmtIn (f : Memory → Memory) : (s.onMem f).mgmtIn = s.mgmtIn := rfl
@[simp] theorem onMem_nextMgmt (f : Memory → Memory) : (s.onMem f).nextMgmt = s.nextMgmt := rfl
@[simp] theorem onMem_chans (f : Memory → Memory) : (s.onMem f).chans = s.chans := rfl
@[simp] theorem onMem_ports (f : Memory → Memory) : (s.onMem f).ports = s.ports := rfl
@[simp] theorem onMem_portDownUntil (f : Memory → Memory) : (s.onMem f).portDownUntil = s.portDownUntil := rfl
@[simp] theorem onMem_ptp (f : Memory → Memory) : (s.onMem f).ptp = s.ptp := rfl
@[simp] theorem onMem_arbs (f : Memory → Memory) : (s.onMem f).arbs = s.arbs := rfl
@[simp] theorem onMem_segs (f : Memory → Memory) : (s.onMem f).segs = s.segs := rfl
@[simp] theorem onMem_trust (f : Memory → Memory) : (s.onMem f).trust = s.trust := rfl
@[simp] theorem onMem_coffer (f : Memory → Memory) : (s.onMem f).coffer = s.coffer := rfl
@[simp] theorem onMem_health (f : Memory → Memory) : (s.onMem f).health = s.health := rfl
@[simp] theorem onMem_pins (f : Memory → Memory) : (s.onMem f).pins = s.pins := rfl
@[simp] theorem onMem_counters (f : Memory → Memory) : (s.onMem f).counters = s.counters := rfl
@[simp] theorem onMem_out (f : Memory → Memory) : (s.onMem f).out = s.out := rfl

@[simp] theorem draw_now : (s.draw).now = s.now := rfl
@[simp] theorem draw_pending : (s.draw).pending = s.pending := rfl
@[simp] theorem draw_free : (s.draw).free = s.free + 1 := rfl
@[simp] theorem draw_mem : (s.draw).mem = s.mem := rfl
@[simp] theorem draw_cores : (s.draw).cores = s.cores := rfl
@[simp] theorem draw_tensors : (s.draw).tensors = s.tensors := rfl
@[simp] theorem draw_slots : (s.draw).slots = s.slots := rfl
@[simp] theorem draw_runs : (s.draw).runs = s.runs := rfl
@[simp] theorem draw_streams : (s.draw).streams = s.streams := rfl
@[simp] theorem draw_xfers : (s.draw).xfers = s.xfers := rfl
@[simp] theorem draw_nextXfer : (s.draw).nextXfer = s.nextXfer := rfl
@[simp] theorem draw_rots : (s.draw).rots = s.rots := rfl
@[simp] theorem draw_mcs : (s.draw).mcs = s.mcs := rfl
@[simp] theorem draw_mcOver : (s.draw).mcOver = s.mcOver := rfl
@[simp] theorem draw_rotHeld : (s.draw).rotHeld = s.rotHeld := rfl
@[simp] theorem draw_pushes : (s.draw).pushes = s.pushes := rfl
@[simp] theorem draw_mailboxes : (s.draw).mailboxes = s.mailboxes := rfl
@[simp] theorem draw_orders : (s.draw).orders = s.orders := rfl
@[simp] theorem draw_qps : (s.draw).qps = s.qps := rfl
@[simp] theorem draw_keys : (s.draw).keys = s.keys := rfl
@[simp] theorem draw_layers : (s.draw).layers = s.layers := rfl
@[simp] theorem draw_optCount : (s.draw).optCount = s.optCount := rfl
@[simp] theorem draw_txn : (s.draw).txn = s.txn := rfl
@[simp] theorem draw_prepared : (s.draw).prepared = s.prepared := rfl
@[simp] theorem draw_group : (s.draw).group = s.group := rfl
@[simp] theorem draw_beat : (s.draw).beat = s.beat := rfl
@[simp] theorem draw_links : (s.draw).links = s.links := rfl
@[simp] theorem draw_routes : (s.draw).routes = s.routes := rfl
@[simp] theorem draw_turns : (s.draw).turns = s.turns := rfl
@[simp] theorem draw_linkWait : (s.draw).linkWait = s.linkWait := rfl
@[simp] theorem draw_mgmtIn : (s.draw).mgmtIn = s.mgmtIn := rfl
@[simp] theorem draw_nextMgmt : (s.draw).nextMgmt = s.nextMgmt := rfl
@[simp] theorem draw_chans : (s.draw).chans = s.chans := rfl
@[simp] theorem draw_ports : (s.draw).ports = s.ports := rfl
@[simp] theorem draw_portDownUntil : (s.draw).portDownUntil = s.portDownUntil := rfl
@[simp] theorem draw_ptp : (s.draw).ptp = s.ptp := rfl
@[simp] theorem draw_arbs : (s.draw).arbs = s.arbs := rfl
@[simp] theorem draw_segs : (s.draw).segs = s.segs := rfl
@[simp] theorem draw_trust : (s.draw).trust = s.trust := rfl
@[simp] theorem draw_coffer : (s.draw).coffer = s.coffer := rfl
@[simp] theorem draw_health : (s.draw).health = s.health := rfl
@[simp] theorem draw_pins : (s.draw).pins = s.pins := rfl
@[simp] theorem draw_counters : (s.draw).counters = s.counters := rfl
@[simp] theorem draw_out : (s.draw).out = s.out := rfl

end Sys2Proof.Machine.State
end

