-- ==== Sys2Proof/Laws/Kept.lean ====
section
/-!
SUPPORT. What every operation of the device keeps: the queue of commands and the clock, the canonical form of the memories,
the 64 bits of every counter, and the fuses. `Kept s t` says that t keeps them as s has them; each operation has one lemma
that adds itself to such a change.
-/

namespace Sys2Proof.Machine

/-- The state t keeps what no command changes or undoes, as s has it. -/
structure Kept (s t : State) : Prop where
  queue : t.pending = s.pending
  clock : t.now = s.now
  canonical : s.mem.wf = true → t.mem.wf = true
  fits : Safety.countersFit s = true → Safety.countersFit t = true
  fuses : Safety.FusesKept s t

theorem Kept.refl (s : State) : Kept s s :=
  ⟨rfl, rfl, id, id, Nat.le_refl _, fun _ h => h, rfl, rfl⟩

theorem Kept.trans {s t u : State} (h : Kept s t) (k : Kept t u) : Kept s u :=
  ⟨k.queue.trans h.queue, k.clock.trans h.clock, fun w => k.canonical (h.canonical w), fun w => k.fits (h.fits w),
    Nat.le_trans h.fuses.1 k.fuses.1, fun n w => k.fuses.2.1 n (h.fuses.2.1 n w),
    k.fuses.2.2.1.trans h.fuses.2.2.1, k.fuses.2.2.2.trans h.fuses.2.2.2⟩

/-- A change of fields other than the queue, the clock and the counters, which keeps the memories' form and the fuses. -/
theorem kept_mk {s0 s : State}
    {free0 : Nat} {mem0 : Memory} {cores0 : List (Nat × Core)} {tensors0 : List Tensor} {slots0 : List (Nat × Program)}
    {runs0 : List Run} {streams0 : List Stream} {xfers0 : List Xfer} {nextXfer0 : Nat} {rots0 : List Rot} {mcs0 : List
    Mc} {mcOver0 : List (Nat × Nat)} {rotHeld0 : List (Hdr × List Byte)} {pushes0 : List Push} {mailboxes0 : List (Nat × Mailbox)} {orders0 : List Order} {qps0 : List (Nat × Qp)}
    {keys0 : List (Nat × List Byte)} {layers0 : List (Nat × LayerState)} {optCount0 : List (Nat × Nat)} {txn0 : Txn}
    {prepared0 : Option Prepared} {group0 : Group} {beat0 : Beat} {links0 : List (Nat × Link)} {routes0 : List Route}
    {turns0 : List (Nat × Nat)} {linkWait0 : List (Hdr × List Byte)} {mgmtIn0 : List MgmtIn} {nextMgmt0 : Nat}
    {chans0 : List (Nat × Chan)} {ports0 : List (Nat × SubPort)} {portDownUntil0 : List (Nat × Nat)} {ptp0 : Ptp}
    {arbs0 : List (Nat × Arb)} {segs0 : List (Nat × Seg)} {trust0 : Trust} {coffer0 : Coffer} {health0 : Health} {pins0
    : Pins} {out0 : List Out}
    (h : Kept s0 s) (hm : s.mem.wf = true → mem0.wf = true) (h1 : s.trust.fusedSvn ≤ trust0.fusedSvn)
    (h2 : ∀ k, s.trust.revoked.testBit k = true → trust0.revoked.testBit k = true)
    (h3 : trust0.serial = s.trust.serial) (h4 : trust0.identityPk = s.trust.identityPk) :
    Kept s0
      { now := s.now, pending := s.pending, free := free0, mem := mem0, cores := cores0, tensors := tensors0, slots :=
        slots0, runs := runs0, streams := streams0, xfers := xfers0, nextXfer := nextXfer0, rots := rots0, mcs := mcs0,
        mcOver := mcOver0, rotHeld := rotHeld0, pushes := pushes0, mailboxes := mailboxes0, orders := orders0, qps := qps0, keys := keys0, layers := layers0,
        optCount := optCount0, txn := txn0, prepared := prepared0, group := group0, beat := beat0, links := links0, routes
        := routes0, turns := turns0, linkWait := linkWait0, mgmtIn := mgmtIn0, nextMgmt := nextMgmt0, chans := chans0, ports := ports0, portDownUntil := portDownUntil0, ptp := ptp0, arbs := arbs0, segs :=
        segs0, trust := trust0, coffer := coffer0, health := health0, pins := pins0, counters := s.counters, out := out0 } :=
  h.trans ⟨rfl, rfl, hm, id, h1, h2, h3, h4⟩

theorem kept_fst {α : Type} {s0 s : State} {a : α} (h : Kept s0 s) : Kept s0 (s, a).1 := h

/-- The state of a pair keeps what a state had. -/
def KeptP {α : Type} (s0 : State) (p : State × α) : Prop := Kept s0 p.1

theorem keptP_mk {α : Type} {s0 s : State} {a : α} (h : Kept s0 s) : KeptP s0 (s, a) := h

/-- The state that a function may give keeps what a state had. -/
structure KeptM (s0 : State) (o : Option State) : Prop where
  some : ∀ t, o = .some t → Kept s0 t

theorem keptM_some {s0 t : State} (h : Kept s0 t) : KeptM s0 (.some t) := by
  refine ⟨fun u e => ?_⟩
  cases e
  exact h

theorem keptM_none {s0 : State} : KeptM s0 none := by
  refine ⟨fun u e => ?_⟩
  cases e

theorem keptM_bind {α : Type} {s0 : State} {o : Option α} {f : α → Option State} (h : ∀ a, o = .some a → KeptM s0 (f a)) :
    KeptM s0 (o >>= f) := by
  cases o with
  | none => exact keptM_none
  | some a => exact h a rfl

/-- A state named on the way. -/
theorem kept_cut {s0 x : State} {P : Prop} (hx : Kept s0 x) (h : Kept s0 x → P) : P := h hx

theorem kept_foldl {α : Type} {s0 : State} {f : State → α → State} (l : List α)
    (hf : ∀ x a, Kept s0 x → Kept s0 (f x a)) {s : State} (h : Kept s0 s) : Kept s0 (l.foldl f s) := by
  induction l generalizing s with
  | nil => exact h
  | cons a r ih => exact ih (hf _ _ h)

theorem put_all {α : Type} {p : α → Bool} {k : Nat} {v : α} {l : List (Nat × α)} (hv : p v = true)
    (h : l.all (fun c => p c.2) = true) : (put k v l).all (fun c => p c.2) = true := by
  rw [List.all_eq_true] at h ⊢
  intro x hx
  rcases mem_put hx with rfl | hx
  · exact hv
  · exact h x hx

theorem filter_all {α : Type} {p q : α → Bool} {l : List α} (h : l.all p = true) : (l.filter q).all p = true := by
  rw [List.all_eq_true] at h ⊢
  exact fun x hx => h x (List.mem_filter.mp hx).1

/-- A counter set to a value of 64 bits. -/
theorem setCounter_kept {s0 s : State} (k : Nat × Nat) (n : Nat) {v : Nat} (hv : v < 2 ^ 64) (h : Kept s0 s) :
    Kept s0 (s.setCounter k n v) :=
  h.trans ⟨rfl, rfl, id, fun w => put_all (p := fun x => decide (x < 2 ^ 64)) (by simpa using hv) w,
    Nat.le_refl _, fun _ w => w, rfl, rfl⟩

theorem bump_kept {s0 s : State} (k : Nat × Nat) (n m : Nat) (h : Kept s0 s) : Kept s0 (s.bump k n m) := by
  unfold State.bump
  split
  · exact h
  · exact setCounter_kept _ _ (Nat.lt_of_le_of_lt (Nat.min_le_right _ _) (by decide)) h

theorem zeroTables_kept {s0 s : State} (p : Nat → Bool) (h : Kept s0 s) : Kept s0 (s.zeroTables p) :=
  h.trans ⟨rfl, rfl, id, fun w => filter_all w, Nat.le_refl _, fun _ w => w, rfl, rfl⟩

theorem zeroCounter_kept {s0 s : State} (k : Nat × Nat) (n : Nat) (h : Kept s0 s) : Kept s0 (s.zeroCounter k n) :=
  h.trans ⟨rfl, rfl, id, fun w => filter_all w, Nat.le_refl _, fun _ w => w, rfl, rfl⟩

/-- A change of the memories that keeps their form. -/
theorem onMem_kept {s0 s : State} {f : Memory → Memory} (hf : ∀ m : Memory, m.wf = true → (f m).wf = true) (h : Kept s0 s) :
    Kept s0 (s.onMem f) :=
  h.trans ⟨rfl, rfl, hf s.mem, id, Nat.le_refl _, fun _ w => w, rfl, rfl⟩

theorem setMem_kept {s0 s t : State} {m : Memory} (hf : s.mem.wf = true → m.wf = true) (h : Kept s0 s)
    (ht : t = { s with mem := m }) : Kept s0 t :=
  h.trans (ht ▸ ⟨rfl, rfl, hf, id, Nat.le_refl _, fun _ w => w, rfl, rfl⟩)

/-! The form of the memories, region by region. -/

theorem wf_mk {m1 m2 m3 m4 m5 : List Host.Cell} {a b c d e f g i} (h1 : memWf 0 m1 = true) (h2 : memWf 0 m2 = true)
    (h3 : memWf 0 m3 = true) (h4 : memWf 0 m4 = true) (h5 : memWf 0 m5 = true) :
    (Memory.mk m1 m2 m3 m4 m5 a b c d e f g i).wf = true := by
  simp [Memory.wf, h1, h2, h3, h4, h5]

theorem wf_parts {m : Memory} (w : m.wf = true) : memWf 0 m.shelf = true ∧ memWf 0 m.cellar = true ∧ memWf 0 m.side = true
    ∧ memWf 0 m.ddr = true ∧ memWf 0 m.window = true := by
  simp only [Memory.wf, Bool.and_eq_true] at w
  exact ⟨w.1.1.1.1, w.1.1.1.2, w.1.1.2, w.1.2, w.2⟩

theorem wf_shelf {m : Memory} (w : m.wf = true) : memWf 0 m.shelf = true := (wf_parts w).1
theorem wf_cellar {m : Memory} (w : m.wf = true) : memWf 0 m.cellar = true := (wf_parts w).2.1
theorem wf_side {m : Memory} (w : m.wf = true) : memWf 0 m.side = true := (wf_parts w).2.2.1
theorem wf_ddr {m : Memory} (w : m.wf = true) : memWf 0 m.ddr = true := (wf_parts w).2.2.2.1
theorem wf_window {m : Memory} (w : m.wf = true) : memWf 0 m.window = true := (wf_parts w).2.2.2.2

theorem foldl_memPut_wf {α : Type} (k : α → Nat) (v : α → Byte) (l : List α) {m : List Host.Cell} (w : memWf 0 m = true) :
    memWf 0 (l.foldl (fun m c => memPut (k c) (v c) m) m) = true := by
  induction l generalizing m with
  | nil => exact w
  | cons a r ih => exact ih (memPut_wf (Nat.zero_le _) _ w)

theorem memPuts_wf (l : List Host.Cell) {m : List Host.Cell} (w : memWf 0 m = true) : memWf 0 (memPuts l m) = true := by
  induction l generalizing m with
  | nil => exact w
  | cons c r ih => exact ih (memPut_wf (Nat.zero_le _) _ w)

/-- Every next state of an outcome keeps what a state had. -/
structure KeptOut (s0 : State) (o : Host.Outcome State Fault Refusal) : Prop where
  next : ∀ t, o = .next t → Kept s0 t

theorem keptOut_next {s0 t : State} (h : Kept s0 t) : KeptOut s0 (.next t) := by
  refine ⟨fun u e => ?_⟩
  cases e
  exact h

/-- Every state that an access which may fail gives keeps what a state had. -/
structure KeptOk {ε : Type} (s0 : State) (e : Except ε State) : Prop where
  ok : ∀ t, e = .ok t → Kept s0 t

/-- As `KeptOk`, for accesses that give something beside the state. -/
structure KeptOk1 {ε α : Type} (s0 : State) (e : Except ε (State × α)) : Prop where
  ok : ∀ t, e = .ok t → Kept s0 t.1

theorem keptOk_ok {ε : Type} {s0 t : State} (h : Kept s0 t) : KeptOk (ε := ε) s0 (.ok t) := by
  refine ⟨fun u e => ?_⟩
  cases e
  exact h

theorem keptOk_error {ε : Type} {s0 : State} (x : ε) : KeptOk s0 (.error x) := by
  refine ⟨fun u e => ?_⟩
  cases e

theorem keptOk_bind {ε α : Type} {s0 : State} {e : Except ε α} {f : α → Except ε State} (h : ∀ a, e = .ok a → KeptOk s0 (f a)) :
    KeptOk s0 (e >>= f) := by
  cases e with
  | error x => exact keptOk_error x
  | ok a => exact h a rfl

theorem keptOk1_ok {ε α : Type} {s0 : State} {p : State × α} (h : Kept s0 p.1) : KeptOk1 (ε := ε) s0 (.ok p) := by
  refine ⟨fun u e => ?_⟩
  cases e
  exact h

theorem keptOk1_error {ε α : Type} {s0 : State} (x : ε) : KeptOk1 (α := α) s0 (.error x) := by
  refine ⟨fun u e => ?_⟩
  cases e

theorem keptOk1_bind {ε α β : Type} {s0 : State} {e : Except ε α} {f : α → Except ε (State × β)}
    (h : ∀ a, e = .ok a → KeptOk1 s0 (f a)) : KeptOk1 s0 (e >>= f) := by
  cases e with
  | error x => exact keptOk1_error x
  | ok a => exact h a rfl

theorem keptOk_foldlM {ε α : Type} {s0 : State} {f : State → α → Except ε State} (l : List α)
    (hf : ∀ x a, Kept s0 x → KeptOk s0 (f x a)) {s : State} (h : Kept s0 s) : KeptOk s0 (l.foldlM f s) := by
  induction l generalizing s with
  | nil => exact keptOk_ok h
  | cons a r ih => exact keptOk_bind (fun x e => ih ((hf _ _ h).ok x e))

theorem keptOk1_foldlM {ε α β : Type} {s0 : State} {f : State × β → α → Except ε (State × β)} (l : List α)
    (hf : ∀ x a, Kept s0 x.1 → KeptOk1 s0 (f x a)) {s : State × β} (h : Kept s0 s.1) : KeptOk1 s0 (l.foldlM f s) := by
  induction l generalizing s with
  | nil => exact keptOk1_ok h
  | cons a r ih => exact keptOk1_bind (fun x e => ih ((hf _ _ h).ok x e))

theorem kept_foldl1 {α β : Type} {s0 : State} {f : State × β → α → State × β} (l : List α)
    (hf : ∀ x a, Kept s0 x.1 → KeptP s0 (f x a)) {s : State × β} (h : Kept s0 s.1) : KeptP s0 (l.foldl f s) := by
  induction l generalizing s with
  | nil => exact h
  | cons a r ih => exact ih (hf _ _ h)

theorem kept_foldl1' {α β : Type} {s0 : State} {f : State × β → α → State × β} (l : List α)
    (hf : ∀ x a, Kept s0 x.1 → KeptP s0 (f x a)) {s : State × β} (h : Kept s0 s.1) : Kept s0 (l.foldl f s).1 :=
  kept_foldl1 l hf h

/-- As `KeptOk`, for accesses that may fail in two ways. -/
structure KeptOk2 {ε δ : Type} (s0 : State) (e : Except ε (Except δ State)) : Prop where
  ok : ∀ t, e = .ok (.ok t) → Kept s0 t

theorem keptOk2_ok {ε δ : Type} {s0 : State} {e : Except δ State} (h : KeptOk s0 e) : KeptOk2 (ε := ε) s0 (.ok e) := by
  refine ⟨fun u h' => ?_⟩
  cases h'
  exact h.ok _ rfl

theorem keptOk2_error {ε δ : Type} {s0 : State} (x : ε) : KeptOk2 (δ := δ) s0 (.error x) := by
  refine ⟨fun u e => ?_⟩
  cases e

theorem keptOk2_bind {ε δ α : Type} {s0 : State} {e : Except ε α} {f : α → Except ε (Except δ State)}
    (h : ∀ a, e = .ok a → KeptOk2 s0 (f a)) : KeptOk2 s0 (e >>= f) := by
  cases e with
  | error x => exact keptOk2_error x
  | ok a => exact h a rfl

/-- As `KeptOk2`, for accesses that give something beside the state. -/
structure KeptOk3 {ε δ α : Type} (s0 : State) (e : Except ε (Except δ (State × α))) : Prop where
  ok : ∀ t, e = .ok (.ok t) → Kept s0 t.1

theorem keptOk3_ok {ε δ α : Type} {s0 : State} {e : Except δ (State × α)} (h : KeptOk1 s0 e) : KeptOk3 (ε := ε) s0 (.ok e) := by
  refine ⟨fun u h' => ?_⟩
  cases h'
  exact h.ok _ rfl

theorem keptOk3_error {ε δ α : Type} {s0 : State} (x : ε) : KeptOk3 (δ := δ) (α := α) s0 (.error x) := by
  refine ⟨fun u e => ?_⟩
  cases e

theorem keptOk3_bind {ε δ α β : Type} {s0 : State} {e : Except ε α} {f : α → Except ε (Except δ (State × β))}
    (h : ∀ a, e = .ok a → KeptOk3 s0 (f a)) : KeptOk3 s0 (e >>= f) := by
  cases e with
  | error x => exact keptOk3_error x
  | ok a => exact h a rfl

theorem keptOk3_foldl {ε δ α β : Type} {s0 : State} {f : Except ε (Except δ (State × β)) → α → Except ε (Except δ (State × β))}
    (l : List α) (hf : ∀ e a, KeptOk3 s0 e → KeptOk3 s0 (f e a)) {e : Except ε (Except δ (State × β))} (h : KeptOk3 s0 e) :
    KeptOk3 s0 (l.foldl f e) := by
  induction l generalizing e with
  | nil => exact h
  | cons a r ih => exact ih (hf _ _ h)

theorem keptOk_get {ε : Type} {s0 t : State} {e : Except ε State} (he : e = .ok t) (h : KeptOk s0 e) : Kept s0 t := h.ok _ he

theorem keptOk1_get {ε α : Type} {s0 t : State} {q : α} {e : Except ε (State × α)} (he : e = .ok (t, q)) (h : KeptOk1 s0 e) :
    Kept s0 t := h.ok _ he

theorem keptOk2_get {ε δ : Type} {s0 t : State} {e : Except ε (Except δ State)} (he : e = .ok (.ok t)) (h : KeptOk2 s0 e) :
    Kept s0 t := h.ok _ he

theorem keptOk3_get {ε δ α : Type} {s0 t : State} {q : α} {e : Except ε (Except δ (State × α))} (he : e = .ok (.ok (t, q)))
    (h : KeptOk3 s0 e) : Kept s0 t := h.ok _ he

theorem keptP_get {α : Type} {s0 t : State} {q : α} {p : State × α} (he : p = (t, q)) (h : KeptP s0 p) : Kept s0 t := by
  subst he
  exact h

theorem keptM_get {s0 t : State} {o : Option State} (he : o = some t) (h : KeptM s0 o) : Kept s0 t := h.some _ he

theorem look_mem {α : Type} {k : Nat} {v : α} {l : List (Nat × α)} (h : look k l = some v) : (k, v) ∈ l := by
  induction l with
  | nil => simp at h
  | cons p r ih =>
    obtain ⟨j, w⟩ := p
    unfold look at h
    split at h
    · rename_i hj
      cases h
      subst hj
      exact List.mem_cons_self
    · exact List.mem_cons_of_mem _ (ih h)

/-- A counter of a state whose counters fit holds 64 bits. -/
theorem counter_fits {s : State} (k : Nat × Nat) (n : Nat) (h : Safety.countersFit s = true) : s.counter k n < 2 ^ 64 := by
  unfold State.counter
  cases hl : look ((k.1 * 65536 + k.2) * 65536 + n) s.counters with
  | none => exact Nat.two_pow_pos 64
  | some v =>
    unfold Safety.countersFit at h
    rw [List.all_eq_true] at h
    exact of_decide_eq_true (h _ (look_mem hl))

/-- A counter set to a value that fits when the counters do. -/
theorem setCounter_kept' {s0 s : State} (k : Nat × Nat) (n : Nat) {v : Nat}
    (hv : Safety.countersFit s = true → v < 2 ^ 64) (h : Kept s0 s) : Kept s0 (s.setCounter k n v) :=
  h.trans ⟨rfl, rfl, id, fun w => put_all (p := fun x => decide (x < 2 ^ 64)) (decide_eq_true (hv w)) w,
    Nat.le_refl _, fun _ w => w, rfl, rfl⟩

end Sys2Proof.Machine
end

