-- ==== Sys2Proof/Laws/OpsKept.lean ====
section
/-!
SUPPORT. What the operations of Machine/Ops.lean keep: the queue, the clock, the memories' form, the counters' 64 bits and the fuses.
-/

namespace Sys2Proof.Machine

theorem setCore_kept {s0 : State} {s : State} (c : Nat) (v : Core) (hk : Kept s0 s) : Kept s0 (s.setCore c v) := by
  unfold State.setCore
  repeat' first
    | with_reducible first
      | refine kept_mk (by assumption) id (Nat.le_refl _) (fun _ w => w) rfl rfl

theorem onCore_kept {s0 : State} {s : State} (c : Nat) (f : Core → Core) (hk : Kept s0 s) : Kept s0 (s.onCore c f) := by
  unfold State.onCore
  repeat' first
    | assumption
    | with_reducible first
      | apply setCore_kept

theorem setMailbox_kept {s0 : State} {s : State} (m : Nat) (v : Mailbox) (hk : Kept s0 s) : Kept s0 (s.setMailbox m v) := by
  unfold State.setMailbox
  repeat' first
    | with_reducible first
      | refine kept_mk (by assumption) id (Nat.le_refl _) (fun _ w => w) rfl rfl

theorem setQp_kept {s0 : State} {s : State} (q : Nat) (v : Qp) (hk : Kept s0 s) : Kept s0 (s.setQp q v) := by
  unfold State.setQp
  repeat' first
    | with_reducible first
      | refine kept_mk (by assumption) id (Nat.le_refl _) (fun _ w => w) rfl rfl

theorem onQp_kept {s0 : State} {s : State} (q : Nat) (f : Qp → Qp) (hk : Kept s0 s) : Kept s0 (s.onQp q f) := by
  unfold State.onQp
  repeat' first
    | assumption
    | split
    | with_reducible first
      | apply setQp_kept

theorem setLink_kept {s0 : State} {s : State} (l : Nat) (v : Link) (hk : Kept s0 s) : Kept s0 (s.setLink l v) := by
  unfold State.setLink
  repeat' first
    | with_reducible first
      | refine kept_mk (by assumption) id (Nat.le_refl _) (fun _ w => w) rfl rfl

theorem onLink_kept {s0 : State} {s : State} (l : Nat) (f : Link → Link) (hk : Kept s0 s) : Kept s0 (s.onLink l f) := by
  unfold State.onLink
  repeat' first
    | assumption
    | with_reducible first
      | apply setLink_kept

theorem setChan_kept {s0 : State} {s : State} (c : Nat) (v : Chan) (hk : Kept s0 s) : Kept s0 (s.setChan c v) := by
  unfold State.setChan
  repeat' first
    | with_reducible first
      | refine kept_mk (by assumption) id (Nat.le_refl _) (fun _ w => w) rfl rfl

theorem onChan_kept {s0 : State} {s : State} (c : Nat) (f : Chan → Chan) (hk : Kept s0 s) : Kept s0 (s.onChan c f) := by
  unfold State.onChan
  repeat' first
    | assumption
    | with_reducible first
      | apply setChan_kept

theorem setPort_kept {s0 : State} {s : State} (u : Nat) (v : SubPort) (hk : Kept s0 s) : Kept s0 (s.setPort u v) := by
  unfold State.setPort
  repeat' first
    | with_reducible first
      | refine kept_mk (by assumption) id (Nat.le_refl _) (fun _ w => w) rfl rfl

theorem onPort_kept {s0 : State} {s : State} (u : Nat) (f : SubPort → SubPort) (hk : Kept s0 s) : Kept s0 (s.onPort u f) := by
  unfold State.onPort
  repeat' first
    | assumption
    | with_reducible first
      | apply setPort_kept

theorem setSeg_kept {s0 : State} {s : State} (g : Nat) (v : Seg) (hk : Kept s0 s) : Kept s0 (s.setSeg g v) := by
  unfold State.setSeg
  repeat' first
    | with_reducible first
      | refine kept_mk (by assumption) id (Nat.le_refl _) (fun _ w => w) rfl rfl

theorem onTensor_kept {s0 : State} {s : State} (h : Nat) (f : Tensor → Tensor) (hk : Kept s0 s) : Kept s0 (s.onTensor h f) := by
  unfold State.onTensor
  repeat' first
    | with_reducible first
      | refine kept_mk (by assumption) id (Nat.le_refl _) (fun _ w => w) rfl rfl

theorem onRun_kept {s0 : State} {s : State} (t : Nat) (f : Run → Run) (hk : Kept s0 s) : Kept s0 (s.onRun t f) := by
  unfold State.onRun
  repeat' first
    | with_reducible first
      | refine kept_mk (by assumption) id (Nat.le_refl _) (fun _ w => w) rfl rfl

theorem emit_kept {s0 : State} {s : State} (o : Out) (hk : Kept s0 s) : Kept s0 (s.emit o) := by
  unfold State.emit
  repeat' first
    | with_reducible first
      | refine kept_mk (by assumption) id (Nat.le_refl _) (fun _ w => w) rfl rfl

theorem draw_kept {s0 : State} {s : State} (hk : Kept s0 s) : Kept s0 (s.draw) := by
  unfold State.draw
  repeat' first
    | with_reducible first
      | refine kept_mk (by assumption) id (Nat.le_refl _) (fun _ w => w) rfl rfl

theorem cofferAdd_kept {s0 : State} {s : State} (kind part : Nat) (payload : List Byte) (hk : Kept s0 s) : Kept s0 (cofferAdd s kind part payload) := by
  unfold cofferAdd
  repeat' first
    | with_reducible first
      | refine kept_mk (by assumption) id (Nat.le_refl _) (fun _ w => w) rfl rfl

theorem faultEntry_kept {s0 : State} {s : State} (cls kind unit : Nat) (detail : List Byte) (hk : Kept s0 s) : Kept s0 (faultEntry s cls kind unit detail) := by
  unfold faultEntry
  repeat' first
    | assumption
    | with_reducible first
      | apply cofferAdd_kept

theorem deliver_kept {s0 : State} {s : State} (q : Nat) (c : Completion) (hk : Kept s0 s) : Kept s0 (deliver s q c) := by
  unfold deliver
  repeat' first
    | assumption
    | split
    | with_reducible first
      | apply bump_kept
      | apply onQp_kept

theorem deliverEvent_kept {s0 : State} {s : State} (c : Completion) (hk : Kept s0 s) : Kept s0 (deliverEvent s c) := by
  unfold deliverEvent
  repeat' first
    | assumption
    | refine fun (x : State) _ (hx : Kept s0 x) => ?_
    | split
    | with_reducible first
      | apply bump_kept
      | apply deliver_kept
      | apply kept_foldl

theorem postEvent_kept {s0 : State} {s : State} (code : Nat) (detail : List Byte) (hk : Kept s0 s) : Kept s0 (postEvent s code detail) := by
  unfold postEvent
  repeat' first
    | (intro x; first | refine kept_cut (s0 := s0) (x := x) ?_ ?_ | clear_value x)
    | (intro hx; clear_value x)
    | lift_lets
    | split
    | with_reducible first
      | apply cofferAdd_kept
      | apply deliverEvent_kept
      | refine kept_mk (by assumption) id (Nat.le_refl _) (fun _ w => w) rfl rfl

theorem countEnd_kept {s0 : State} {s : State} (code : Nat) (st : BitVec 8) (hk : Kept s0 s) : Kept s0 (countEnd s code st) := by
  unfold countEnd
  repeat' first
    | assumption
    | split
    | with_reducible first
      | apply bump_kept
    | unfold x

theorem complete_kept {s0 : State} {s : State} (o : Order) (st : BitVec 8) (detail : List Byte) (hk : Kept s0 s) : Kept s0 (complete s o st detail) := by
  unfold complete
  repeat' first
    | split
    | with_reducible first
      | apply deliver_kept
      | apply countEnd_kept
      | refine kept_mk (by assumption) id (Nat.le_refl _) (fun _ w => w) rfl rfl

theorem refuse_kept {s0 : State} {s : State} (o : Order) (st : BitVec 8) (letter check index : Nat) (hk : Kept s0 s) : Kept s0 (refuse s o st letter check index) := by
  unfold refuse
  repeat' first
    | assumption
    | with_reducible first
      | apply complete_kept

theorem txMsg_kept {s0 : State} {s : State} (q : Nat) (o : Out) (hk : Kept s0 s) : Kept s0 (txMsg s q o) := by
  unfold txMsg
  repeat' first
    | assumption
    | (intro x; first | refine kept_cut (s0 := s0) (x := x) ?_ ?_ | clear_value x)
    | lift_lets
    | split
    | with_reducible first
      | apply bump_kept
      | apply onPort_kept
      | apply emit_kept

theorem pumpQp_kept {s0 : State} (f : Nat) {s : State} (q : Nat) (hk : Kept s0 s) : Kept s0 (pumpQp f s q) := by
  induction f generalizing s with
  | zero => exact hk
  | succ f ih =>
    unfold pumpQp
    repeat' first
      | assumption
      | split
      | apply ih
      | apply txMsg_kept
      | apply setQp_kept

theorem roce_kept {s0 : State} {s : State} (q : Nat) (o : Out) (hk : Kept s0 s) : Kept s0 (roce s q o) := by
  unfold roce
  repeat' first
    | assumption
    | split
    | with_reducible first
      | apply setQp_kept
      | apply pumpQp_kept

theorem sendResult_kept {s0 : State} {s : State} (o : Order) (d : List Byte) (hk : Kept s0 s) : Kept s0 (sendResult s o d) := by
  unfold sendResult
  repeat' first
    | assumption
    | split
    | with_reducible first
      | apply roce_kept

end Sys2Proof.Machine
end

