-- ==== Sys2Proof/Laws/OperandsKept.lean ====
section
/-!
SUPPORT. What the operations of Machine/Operands.lean keep: the queue, the clock, the memories' form, the counters' 64 bits and the fuses.
-/

namespace Sys2Proof.Machine

theorem foundAgain_kept {s0 : State} {s : State} (core off n : Nat) (hk : Kept s0 s) : Kept s0 (foundAgain s core off n) := by
  unfold foundAgain
  repeat' first
    | assumption
    | split
    | with_reducible first
      | apply onCore_kept

theorem shelfWrite_kept {s0 s : State} (core off : Nat) (d : List Byte) (hk : Kept s0 s) :
    KeptP s0 (shelfWrite s core off d) := by
  unfold shelfWrite
  refine kept_mk (foundAgain_kept core off d.length hk) ?_ (Nat.le_refl _) (fun _ w => w) rfl rfl
  have e : (foundAgain s core off d.length).mem = s.mem := by unfold foundAgain; split <;> rfl
  intro w
  rw [e] at w ⊢
  obtain ⟨h1, h2, h3, h4, h5⟩ := wf_parts w
  exact wf_mk (foldl_memPut_wf _ _ _ h1) h2 h3 h4 h5

theorem shelfWrite_kept1 {s0 s : State} (core off : Nat) (d : List Byte) (hk : Kept s0 s) : Kept s0 (shelfWrite s core off d).1 :=
  shelfWrite_kept core off d hk

theorem shelfWrite_kept_eq {s0 s t : State} {core off : Nat} {d : List Byte} {q : Bool} (e : shelfWrite s core off d = (t, q)) (hk : Kept s0 s) : Kept s0 t := by
  have := shelfWrite_kept1 core off d hk
  rw [e] at this
  exact this

theorem mendWords_wf {m : Memory} (k lo n : Nat) (w : m.wf = true) : (mendWords m k lo n).wf = true := w

theorem cellarWrite_kept {s0 s : State} (core a : Nat) (d : List Byte) (hk : Kept s0 s) : Kept s0 (cellarWrite s core a d) := by
  refine onMem_kept (fun m w => ?_) hk
  obtain ⟨h1, h2, h3, h4, h5⟩ := wf_parts w
  exact wf_mk h1 (memWrite_wf _ _ h2) h3 h4 h5

theorem sideWrite_kept {s0 s : State} (core a : Nat) (d : List Byte) (hk : Kept s0 s) : Kept s0 (sideWrite s core a d) := by
  refine onMem_kept (fun m w => ?_) hk
  obtain ⟨h1, h2, h3, h4, h5⟩ := wf_parts w
  exact wf_mk h1 h2 (memWrite_wf _ _ h3) h4 h5

theorem countRead_kept {s0 : State} {s : State} (a n : Nat) (hk : Kept s0 s) : Kept s0 (countRead s a n) := by
  unfold countRead
  repeat' first
    | assumption
    | refine fun (x : State) _ (hx : Kept s0 x) => ?_
    | split
    | with_reducible first
      | apply bump_kept
      | apply kept_foldl

theorem zeroLines_kept {s0 s : State} (frame lines : Nat) (hk : Kept s0 s) : Kept s0 (zeroLines s frame lines) := by
  unfold zeroLines
  refine kept_foldl _ (fun x c hx => ?_) ?_
  · split
    · exact hx
    · exact bump_kept _ _ _ hx
  · refine kept_mk hk ?_ (Nat.le_refl _) (fun _ w => w) rfl rfl
    intro w
    obtain ⟨h1, h2, h3, h4, h5⟩ := wf_parts w
    exact wf_mk h1 h2 h3 (memZero_wf _ _ h4) h5

theorem freshFill_kept {s0 s : State} (frame : Nat) (hk : Kept s0 s) : Kept s0 (freshFill s frame) := by
  unfold freshFill
  split
  · exact hk
  · refine bump_kept _ _ _ (zeroLines_kept _ _ (onMem_kept (fun m w => ?_) hk))
    obtain ⟨h1, h2, h3, h4, h5⟩ := wf_parts w
    exact wf_mk h1 h2 h3 h4 h5

theorem burstWrite_kept {s0 s : State} (b : Nat) (cells : List Host.Cell) (hk : Kept s0 s) :
    KeptP s0 (burstWrite s b cells) := by
  unfold burstWrite
  have hw : ∀ (l : List Nat), Kept s0 { s with mem := { s.mem with ddr := memPuts cells s.mem.ddr, ddrPoison := l } } := by
    intro l
    refine kept_mk hk ?_ (Nat.le_refl _) (fun _ w => w) rfl rfl
    intro w
    obtain ⟨h1, h2, h3, h4, h5⟩ := wf_parts w
    exact wf_mk h1 h2 h3 (memPuts_wf _ h4) h5
  dsimp only
  split
  · exact hk
  · split
    · exact keptP_mk (bump_kept _ _ _ hk)
    · split
      · exact keptP_mk (bump_kept _ _ _ (hw _))
      · exact keptP_mk (bump_kept _ _ _ (bump_kept _ _ _ (bump_kept _ _ _ (hw _))))

theorem burstWrite_kept1 {s0 s : State} (b : Nat) (cells : List Host.Cell) (hk : Kept s0 s) : Kept s0 (burstWrite s b cells).1 :=
  burstWrite_kept b cells hk

theorem burstWrite_kept_eq {s0 s t : State} {b : Nat} {cells : List Host.Cell} {q : Bool} (e : burstWrite s b cells = (t, q)) (hk : Kept s0 s) : Kept s0 t := by
  have := burstWrite_kept1 b cells hk
  rw [e] at this
  exact this

theorem ddrWriteCells_kept {s0 s : State} (cells : List Host.Cell) (hk : Kept s0 s) : KeptP s0 (ddrWriteCells s cells) := by
  unfold ddrWriteCells
  refine kept_foldl1 _ ?_ (kept_foldl _ (fun x f hx => freshFill_kept f hx) hk)
  intro x b hx
  exact burstWrite_kept1 b _ hx

theorem ddrWriteCells_kept1 {s0 s : State} (cells : List Host.Cell) (hk : Kept s0 s) : Kept s0 (ddrWriteCells s cells).1 :=
  ddrWriteCells_kept cells hk

theorem ddrWriteCells_kept_eq {s0 s t : State} {cells : List Host.Cell} {q : Bool} (e : ddrWriteCells s cells = (t, q)) (hk : Kept s0 s) :
    Kept s0 t := by
  have := ddrWriteCells_kept1 cells hk
  rw [e] at this
  exact this

theorem memAdd_wf (a : Nat) (vs : List F32) {m : List Host.Cell} (w : memWf 0 m = true) : memWf 0 (memAdd m a vs) = true := by
  induction vs generalizing a m with
  | nil => exact w
  | cons v vs ih => exact ih (a + 4) (memWrite_wf _ _ w)

theorem ddrAdd_kept {s0 s : State} (a : Nat) (vs : List F32) (hk : Kept s0 s) : KeptP s0 (ddrAdd s a vs) := by
  unfold ddrAdd
  refine kept_foldl1 _ (fun x b hx => ?_) (kept_foldl _ (fun x f hx => freshFill_kept f hx) hk)
  dsimp only
  split
  · exact keptP_mk (countRead_kept _ _ hx)
  · refine keptP_mk (bump_kept _ _ _ (bump_kept _ _ _ (bump_kept _ _ _ ?_)))
    refine kept_mk hx ?_ (Nat.le_refl _) (fun _ w => w) rfl rfl
    intro w
    obtain ⟨h1, h2, h3, h4, h5⟩ := wf_parts w
    refine wf_mk h1 h2 h3 ?_ h5
    generalize List.filter _ _ = l
    generalize x.1.mem.ddr = m at h4
    induction l generalizing m with
    | nil => exact h4
    | cons p r ih => exact ih _ (memAdd_wf _ _ h4)

theorem ddrAdd_kept1 {s0 s : State} (a : Nat) (vs : List F32) (hk : Kept s0 s) : Kept s0 (ddrAdd s a vs).1 :=
  ddrAdd_kept a vs hk

theorem ddrAdd_kept_eq {s0 s t : State} {a : Nat} {vs : List F32} {q : Bool} (e : ddrAdd s a vs = (t, q)) (hk : Kept s0 s) :
    Kept s0 t := by
  have := ddrAdd_kept1 a vs hk
  rw [e] at this
  exact this

theorem shelfAdd_kept {s0 s : State} (core off : Nat) (vs : List F32) (hk : Kept s0 s) :
    KeptP s0 (shelfAdd s core off vs) := by
  unfold shelfAdd
  split
  · exact hk
  · refine keptP_mk (onMem_kept (fun m w => ?_) hk)
    obtain ⟨h1, h2, h3, h4, h5⟩ := wf_parts w
    exact wf_mk (memAdd_wf _ _ h1) h2 h3 h4 h5

theorem shelfAdd_kept1 {s0 s : State} (core off : Nat) (vs : List F32) (hk : Kept s0 s) : Kept s0 (shelfAdd s core off vs).1 :=
  shelfAdd_kept core off vs hk

theorem shelfAdd_kept_eq {s0 s t : State} {core off : Nat} {vs : List F32} {q : Bool} (e : shelfAdd s core off vs = (t, q)) (hk : Kept s0 s) :
    Kept s0 t := by
  have := shelfAdd_kept1 core off vs hk
  rw [e] at this
  exact this

theorem countRange_kept {s0 : State} {s : State} (a n : Nat) (hk : Kept s0 s) : Kept s0 (countRange s a n) := by
  unfold countRange
  repeat' first
    | assumption
    | refine fun (x : State) _ (hx : Kept s0 x) => ?_
    | split
    | with_reducible first
      | apply countRead_kept
      | apply kept_foldl

theorem setStream_kept {s0 : State} {s : State} (x : Stream) (hk : Kept s0 s) : Kept s0 (setStream s x) := by
  unfold setStream
  repeat' first
    | with_reducible first
      | refine kept_mk (by assumption) id (Nat.le_refl _) (fun _ w => w) rfl rfl

theorem queueParts_kept {s0 : State} {s : State} (v : View) (add : Bool) (runs : List ByteRun) (part : List (Nat × Nat)) (hk : Kept s0 s) : Kept s0 (queueParts s v add runs part) := by
  unfold queueParts
  repeat' first
    | assumption
    | (intro x; first | refine kept_cut (s0 := s0) (x := x) ?_ ?_ | clear_value x)
    | lift_lets
    | split
    | with_reducible first
      | apply setStream_kept

theorem queueWrites_kept {s0 : State} {s : State} (v : View) (add : Bool) (runs : List ByteRun) (hk : Kept s0 s) : Kept s0 (queueWrites s v add runs) := by
  unfold queueWrites
  repeat' first
    | assumption
    | with_reducible first
      | apply queueParts_kept

theorem clearLost_kept {s0 : State} {s : State} (v : View) (core : Nat) (runs : List ByteRun) (hk : Kept s0 s) : Kept s0 (clearLost s v core runs) := by
  unfold clearLost
  repeat' first
    | split
    | with_reducible first
      | refine kept_mk (by assumption) id (Nat.le_refl _) (fun _ w => w) rfl rfl

theorem writeRuns_kept {s0 s : State} (v : View) (core : Nat) (runs : List ByteRun) (hk : Kept s0 s) :
    KeptOk s0 (writeRuns s v core runs) := by
  unfold writeRuns
  split
  · dsimp only
    split
    · exact keptOk_error _
    · split
      · refine keptOk_ok (kept_foldl1 _ (fun x c hx => kept_foldl1 _ (fun y r hy => ?_) hx) hk)
        exact shelfWrite_kept _ _ _ hy
      · exact keptOk_error _
  · exact keptOk_ok (queueWrites_kept _ _ _ hk)
  · exact keptOk_ok (clearLost_kept _ _ _ (kept_foldl _ (fun x r hx => cellarWrite_kept _ _ _ hx) hk))

theorem writeRuns_kept_ok {s0 s t : State} {v : View} {core : Nat} {runs : List ByteRun} (e : writeRuns s v core runs = .ok t) (hk : Kept s0 s) : Kept s0 t :=
  (writeRuns_kept v core runs hk).ok _ e

theorem addRuns_kept {s0 s : State} (v : View) (core : Nat) (runs : List ByteRun) (hk : Kept s0 s) :
    KeptOk s0 (addRuns s v core runs) := by
  unfold addRuns
  split
  · dsimp only
    split
    · exact keptOk_error _
    · split
      · refine keptOk_ok (kept_foldl1 _ (fun x c hx => kept_foldl1 _ (fun y r hy => ?_) hx) hk)
        exact shelfAdd_kept _ _ _ hy
      · exact keptOk_error _
  · exact keptOk_ok (queueWrites_kept _ _ _ hk)

theorem addRuns_kept_ok {s0 s t : State} {v : View} {core : Nat} {runs : List ByteRun} (e : addRuns s v core runs = .ok t) (hk : Kept s0 s) : Kept s0 t :=
  (addRuns_kept v core runs hk).ok _ e

theorem writeElems_kept {s0 s : State} (v : View) (l : List (List Nat × Nat × Nat)) (hk : Kept s0 s) :
    KeptOk s0 (writeElems s v l) := by
  unfold writeElems
  split
  · exact keptOk_ok hk
  · split
    · exact keptOk_ok (queueParts_kept _ _ _ _ hk)
    · exact keptOk_foldlM _ (fun x a hx => writeRuns_kept _ _ _ hx) hk

theorem writeElems_kept_ok {s0 s t : State} {v : View} {l : List (List Nat × Nat × Nat)} (e : writeElems s v l = .ok t)
    (hk : Kept s0 s) : Kept s0 t :=
  (writeElems_kept v l hk).ok _ e

end Sys2Proof.Machine
end

