-- ==== Sys2Proof/Laws/FlagsKept.lean ====
section
/-!
SUPPORT. What the operations of Machine/Flags.lean keep: the queue, the clock, the memories' form, the counters' 64 bits and the fuses.
-/

namespace Sys2Proof.Machine

theorem appendLog_kept {s0 : State} {s : State} (tag : Nat) (e : LogEntry) (hk : Kept s0 s) : Kept s0 (appendLog s tag e) := by
  unfold appendLog
  repeat' first
    | assumption
    | refine fun (x : State) _ (hx : Kept s0 x) => ?_
    | split
    | with_reducible first
      | apply bump_kept
      | apply onRun_kept
      | apply kept_foldl

theorem logFlags_kept {s0 : State} {s : State} (tag mi pos flags : Nat) (hk : Kept s0 s) : Kept s0 (logFlags s tag mi pos flags) := by
  unfold logFlags
  repeat' first
    | assumption
    | split
    | with_reducible first
      | apply appendLog_kept

theorem onTile_kept {s0 : State} {s : State} (core k : Nat) (f : CTile → CTile) (hk : Kept s0 s) : Kept s0 (s.onTile core k f) := by
  unfold State.onTile
  repeat' first
    | assumption
    | with_reducible first
      | apply onCore_kept

theorem onWalk_kept {s0 : State} {s : State} (tag mi pos : Nat) (f : Walk → Walk) (hk : Kept s0 s) : Kept s0 (s.onWalk tag mi pos f) := by
  unfold State.onWalk
  repeat' first
    | assumption
    | with_reducible first
      | apply onRun_kept

theorem freeLarders_kept {s0 : State} {s : State} (core tag mi : Nat) (hk : Kept s0 s) : Kept s0 (freeLarders s core tag mi) := by
  unfold freeLarders
  repeat' first
    | assumption
    | with_reducible first
      | apply onCore_kept

theorem discardReads_kept {s0 : State} {s : State} (tag : Nat) (hk : Kept s0 s) : Kept s0 (discardReads s tag) := by
  unfold discardReads
  repeat' first
    | refine fun (x : State) _ (hx : Kept s0 x) => ?_
    | (intro x; first | refine kept_cut (s0 := s0) (x := x) ?_ ?_ | clear_value x)
    | (intro hx; clear_value x)
    | lift_lets
    | split
    | with_reducible first
      | apply bump_kept
      | refine kept_mk (by assumption) id (Nat.le_refl _) (fun _ w => w) rfl rfl
      | apply kept_foldl

theorem dropStreams_kept {s0 : State} {s : State} (tag : Nat) (hk : Kept s0 s) : Kept s0 (dropStreams s tag) := by
  unfold dropStreams
  repeat' first
    | refine fun (x : State) _ (hx : Kept s0 x) => ?_
    | (intro x; first | refine kept_cut (s0 := s0) (x := x) ?_ ?_ | clear_value x)
    | (intro hx; clear_value x)
    | lift_lets
    | split
    | with_reducible first
      | apply bump_kept
      | refine kept_mk (by assumption) id (Nat.le_refl _) (fun _ w => w) rfl rfl
      | apply kept_foldl

theorem abandonTiles_kept {s0 : State} {s : State} (r : Run) (hk : Kept s0 s) : Kept s0 (abandonTiles s r) := by
  unfold abandonTiles
  repeat' first
    | assumption
    | refine fun (x : State) _ (hx : Kept s0 x) => ?_
    | with_reducible first
      | apply onTile_kept
      | apply kept_foldl

theorem releaseCores_kept {s0 : State} {s : State} (r : Run) (hk : Kept s0 s) : Kept s0 (releaseCores s r) := by
  unfold releaseCores
  repeat' first
    | assumption
    | refine fun (x : State) _ (hx : Kept s0 x) => ?_
    | with_reducible first
      | apply onCore_kept
      | apply kept_foldl

theorem stopRun_kept {s0 : State} {s : State} (tag : Nat) (st : BitVec 8) (mi : Nat) (hk : Kept s0 s) : Kept s0 (stopRun s tag st mi) := by
  unfold stopRun
  repeat' first
    | assumption
    | split
    | with_reducible first
      | apply onRun_kept
      | apply discardReads_kept
      | apply dropStreams_kept
      | apply abandonTiles_kept
      | apply releaseCores_kept

theorem failMacro_kept {s0 : State} {s : State} (tag mi : Nat) (st : BitVec 8) (hk : Kept s0 s) : Kept s0 (failMacro s tag mi st) := by
  unfold failMacro
  repeat' first
    | assumption
    | with_reducible first
      | apply stopRun_kept

theorem noteRotWait_kept {s0 : State} {s : State} (tag mi core off n : Nat) (hk : Kept s0 s) : Kept s0 (noteRotWait s tag mi core off n) := by
  unfold noteRotWait
  repeat' first
    | (intro x; first | refine kept_cut (s0 := s0) (x := x) ?_ ?_ | (have t : _ → State := x; clear t; unfold x; clear x) | (have t : State → _ := x; clear t; unfold x; clear x) | clear_value x)
    | (intro hx; clear_value x)
    | lift_lets
    | split
    | with_reducible first
      | apply onRun_kept
      | refine kept_mk (by assumption) id (Nat.le_refl _) (fun _ w => w) rfl rfl
    | unfold x

theorem noteBad_kept {s0 : State} {s : State} (core : Nat) (e : RdErr) (hk : Kept s0 s) : Kept s0 (noteBad s core e) := by
  unfold noteBad
  split
  · exact faultEntry_kept _ _ _ _ (bump_kept _ _ _ hk)
  · exact hk

theorem failRead_kept {s0 : State} {s : State} (tag mi core : Nat) (e : RdErr) (hk : Kept s0 s) : Kept s0 (failRead s tag mi core e) := by
  unfold failRead
  repeat' first
    | assumption
    | split
    | with_reducible first
      | apply bump_kept
      | apply failMacro_kept
      | apply noteBad_kept
      | apply noteRotWait_kept

theorem failWrite_kept {s0 : State} {s : State} (tag mi : Nat) (e : WrErr) (hk : Kept s0 s) : Kept s0 (failWrite s tag mi e) := by
  unfold failWrite
  repeat' first
    | assumption
    | split
    | with_reducible first
      | apply failMacro_kept

end Sys2Proof.Machine
end

