-- ==== Sys2Proof/Laws/KeysKept.lean ====
section
/-!
SUPPORT. What the operations of Machine/Keys.lean keep: the queue, the clock, the memories' form, the counters' 64 bits and the fuses.
-/

namespace Sys2Proof.Machine

theorem endCommit_kept {s0 : State} {s : State} (st : BitVec 8) (rank keys beat : Nat) (hk : Kept s0 s) : Kept s0 (endCommit s st rank keys beat) := by
  unfold endCommit
  repeat' first
    | (intro x; first | refine kept_cut (s0 := s0) (x := x) ?_ ?_ | clear_value x)
    | (intro hx; clear_value x)
    | lift_lets
    | split
    | with_reducible first
      | apply complete_kept
      | refine kept_mk (by assumption) id (Nat.le_refl _) (fun _ w => w) rfl rfl

theorem rollback_kept {s0 : State} {s : State} (st : BitVec 8) (hk : Kept s0 s) : Kept s0 (rollback s st) := by
  unfold rollback
  repeat' first
    | (intro x; first | refine kept_cut (s0 := s0) (x := x) ?_ ?_ | clear_value x)
    | (intro hx; clear_value x)
    | lift_lets
    | with_reducible first
      | apply endCommit_kept
      | refine kept_mk (by assumption) id (Nat.le_refl _) (fun _ w => w) rfl rfl

theorem qpError_kept {s0 : State} {s : State} (q cause : Nat) (hk : Kept s0 s) : Kept s0 (qpError s q cause) := by
  unfold qpError
  repeat' first
    | (intro x; first | refine kept_cut (s0 := s0) (x := x) ?_ ?_ | clear_value x)
    | intro y
    | lift_lets
    | split
    | with_reducible first
      | apply bump_kept
      | apply setQp_kept
      | apply postEvent_kept
      | apply rollback_kept
      | refine kept_mk (by assumption) id (Nat.le_refl _) (fun _ w => w) rfl rfl
    | unfold x

theorem portModeChange_kept {s0 : State} {s : State} (n : Nat) (hk : Kept s0 s) : Kept s0 (portModeChange s n) := by
  unfold portModeChange
  repeat' first
    | refine fun (x : State) _ (hx : Kept s0 x) => ?_
    | (intro x; first | refine kept_cut (s0 := s0) (x := x) ?_ ?_ | clear_value x)
    | (intro hx; clear_value x)
    | lift_lets
    | split
    | with_reducible first
      | apply onPort_kept
      | apply postEvent_kept
      | apply qpError_kept
      | refine kept_mk (by assumption) id (Nat.le_refl _) (fun _ w => w) rfl rfl
      | apply kept_foldl

theorem applyKey_kept {s0 : State} {s : State} (k : Nat) (v : List Byte) (hk : Kept s0 s) : Kept s0 (applyKey s k v) := by
  unfold applyKey
  repeat' first
    | (intro x; first | refine kept_cut (s0 := s0) (x := x) ?_ ?_ | clear_value x)
    | (intro hx; clear_value x)
    | lift_lets
    | split
    | with_reducible first
      | apply cofferAdd_kept
      | apply portModeChange_kept
      | refine kept_mk (by assumption) id (Nat.le_refl _) (fun _ w => w) rfl rfl

theorem applyAll_kept {s0 : State} {s : State} (l : List (Nat × List Byte)) (hk : Kept s0 s) : Kept s0 (applyAll s l) := by
  unfold applyAll
  repeat' first
    | assumption
    | refine fun (x : State) _ (hx : Kept s0 x) => ?_
    | with_reducible first
      | apply applyKey_kept
      | apply kept_foldl

end Sys2Proof.Machine
end

