-- ==== Sys2Proof/Laws/SendKept.lean ====
section
/-!
SUPPORT. What the operations of Machine/Send.lean keep: the queue, the clock, the memories' form, the counters' 64 bits and the fuses.
-/

namespace Sys2Proof.Machine

theorem sendOn_kept {s0 : State} {s : State} (cls : Nat) (h : Hdr) (d : List Byte) (hk : Kept s0 s) : KeptM s0 (sendOn s cls h d) := by
  unfold sendOn
  repeat' first
    | split
    | with_reducible first
      | apply onLink_kept
      | apply keptM_some
      | exact keptM_none
      | refine kept_mk (by assumption) id (Nat.le_refl _) (fun _ w => w) rfl rfl

theorem sendOn_kept_eq {s0 u0 : State} {s : State} {cls : Nat} {h : Hdr} {d : List Byte}  (e0 : sendOn s cls h d = some u0) (hk : Kept s0 s) : Kept s0 u0 :=
  (sendOn_kept (cls := cls) (h := h) (d := d)  hk).some _ e0

theorem sendTransfer_kept {s0 : State} {s : State} (cls : Nat) (h : Hdr) (d : List Byte) (hk : Kept s0 s) : KeptP s0 (sendTransfer s cls h d) := by
  unfold sendTransfer
  repeat' first
    | assumption
    | split
    | with_reducible first
      | apply bump_kept
      | refine sendOn_kept_eq (by assumption) ?_
      | apply keptP_mk

theorem sendTransfer_kept1 {s0 : State} {s : State} (cls : Nat) (h : Hdr) (d : List Byte) (hk : Kept s0 s) : Kept s0 (sendTransfer s cls h d).1 :=
  sendTransfer_kept (cls := cls) (h := h) (d := d) hk

theorem sendTransfer_kept_eq {s0 u0 : State} {s : State} {cls : Nat} {h : Hdr} {d : List Byte} {q0} (e0 : sendTransfer s cls h d = (u0, q0)) (hk : Kept s0 s) : Kept s0 u0 := by
  have := sendTransfer_kept1 (cls := cls) (h := h) (d := d) hk
  rw [e0] at this
  exact this

theorem arrive_kept {s0 : State} {s : State} (h : Hdr) (f : State → State) (hf : ∀ (x : State), Kept s0 x → Kept s0 (f x)) (hk : Kept s0 s) : Kept s0 (arrive s h f) := by
  unfold arrive
  repeat' first
    | assumption
    | split
    | with_reducible first
      | apply bump_kept
      | apply hf

theorem served_kept {s0 : State} {s : State} (h : Hdr) (ok : Bool) (f : State → State) (hf : ∀ (x : State), Kept s0 x → Kept s0 (f x)) (hk : Kept s0 s) : Kept s0 (served s h ok f) := by
  unfold served
  repeat' first
    | assumption
    | refine fun (x : State) (hx : Kept s0 x) => ?_
    | split
    | with_reducible first
      | apply arrive_kept

theorem servedIn_kept {s0 : State} {s : State} (h : Hdr) (ok : Bool) (refuse f : State → State) (hrefuse : ∀ (x : State), Kept s0 x → Kept s0 (refuse x)) (hf : ∀ (x : State), Kept s0 x → Kept s0 (f x)) (hk : Kept s0 s) : Kept s0 (servedIn s h ok refuse f) := by
  unfold servedIn
  repeat' first
    | assumption
    | refine fun (x : State) (hx : Kept s0 x) => ?_
    | split
    | with_reducible first
      | apply served_kept
      | apply hrefuse
      | apply hf

theorem fromView_kept {s0 : State} {s : State} (rank : Nat) (f : State → State) (hf : ∀ (x : State), Kept s0 x → Kept s0 (f x)) (hk : Kept s0 s) : Kept s0 (fromView s rank f) := by
  unfold fromView
  repeat' first
    | assumption
    | split
    | with_reducible first
      | apply bump_kept
      | apply hf

theorem sendMgmtNow_kept {s0 : State} {s : State} (dest code : Nat) (body : List Byte) (hk : Kept s0 s) : Kept s0 (sendMgmtNow s dest code body) := by
  unfold sendMgmtNow
  repeat' first
    | refine fun (x : State) _ (hx : Kept s0 x) => ?_
    | with_reducible first
      | apply sendTransfer_kept1
      | refine kept_mk (by assumption) id (Nat.le_refl _) (fun _ w => w) rfl rfl
      | apply kept_foldl

theorem sendMgmt_kept {s0 : State} {s : State} (dest code : Nat) (body : List Byte) (hk : Kept s0 s) : Kept s0 (sendMgmt s dest code body) := by
  unfold sendMgmt
  repeat' first
    | split
    | with_reducible first
      | apply sendMgmtNow_kept
      | refine kept_mk (by assumption) id (Nat.le_refl _) (fun _ w => w) rfl rfl

theorem mgmtAll_kept {s0 : State} {s : State} (code : Nat) (body : List Byte) (hk : Kept s0 s) : Kept s0 (mgmtAll s code body) := by
  unfold mgmtAll
  repeat' first
    | assumption
    | refine fun (x : State) _ (hx : Kept s0 x) => ?_
    | with_reducible first
      | apply sendMgmt_kept
      | apply kept_foldl

theorem hostReq_kept {s0 : State} {s : State} (kind q addr rkey : Nat) (d : List Byte) (hk : Kept s0 s) : Kept s0 (hostReq s kind q addr rkey d) := by
  unfold hostReq
  repeat' first
    | assumption
    | with_reducible first
      | apply roce_kept

end Sys2Proof.Machine
end

