-- ==== Sys2Proof/Laws/RunsKept.lean ====
section
/-!
SUPPORT. What the operations of Machine/Runs.lean keep: the queue, the clock, the memories' form, the counters' 64 bits and the fuses.
-/

namespace Sys2Proof.Machine

theorem adaptSlot_kept {s0 : State} {s : State} (slot audited missed : Nat) (hk : Kept s0 s) : Kept s0 (adaptSlot s slot audited missed) := by
  unfold adaptSlot
  repeat' first
    | (intro x; first | refine kept_cut (s0 := s0) (x := x) ?_ ?_ | (have t : _ → State := x; clear t; unfold x; clear x) | (have t : State → _ := x; clear t; unfold x; clear x) | clear_value x)
    | lift_lets
    | split
    | with_reducible first
      | apply cofferAdd_kept
      | refine kept_mk (by assumption) id (Nat.le_refl _) (fun _ w => w) rfl rfl

theorem adaptRun_kept {s0 : State} {s : State} (r : Run) (hk : Kept s0 s) : Kept s0 (adaptRun s r) := by
  unfold adaptRun
  repeat' first
    | assumption
    | refine fun (x : State) _ (hx : Kept s0 x) => ?_
    | with_reducible first
      | apply adaptSlot_kept
      | apply kept_foldl

theorem ddrZero_kept {s0 : State} {s : State} (a n : Nat) (hk : Kept s0 s) : KeptP s0 (ddrZero s a n) := by
  unfold ddrZero
  repeat' first
    | assumption
    | refine fun (x : State) _ (hx : Kept s0 x) => ?_
    | refine fun x _ (hx : Kept s0 x.1) => ?_
    | (intro x; first | refine kept_cut (s0 := s0) (x := x) ?_ ?_ | clear_value x)
    | (intro hx; clear_value x)
    | lift_lets
    | split
    | with_reducible first
      | apply freshFill_kept
      | refine burstWrite_kept_eq (by assumption) ?_
      | apply keptP_mk
      | apply kept_foldl
      | apply kept_foldl1'

theorem ddrZero_kept1 {s0 : State} {s : State} (a n : Nat) (hk : Kept s0 s) : Kept s0 (ddrZero s a n).1 :=
  ddrZero_kept (a := a) (n := n) hk

theorem ddrZero_kept_eq {s0 u0 : State} {s : State} {a n : Nat} {q0} (e0 : ddrZero s a n = (u0, q0)) (hk : Kept s0 s) : Kept s0 u0 := by
  have := ddrZero_kept1 (a := a) (n := n) hk
  rw [e0] at this
  exact this

theorem zeroPage_kept {s0 : State} {s : State} (served : Bool) (a n : Nat) (hk : Kept s0 s) : KeptP s0 (zeroPage s served a n) := by
  unfold zeroPage
  repeat' first
    | assumption
    | refine fun x _ (hx : Kept s0 x.1) => ?_
    | split
    | with_reducible first
      | refine sendTransfer_kept_eq (by assumption) ?_
      | apply hostReq_kept
      | apply ddrZero_kept
      | apply keptP_mk
      | apply kept_foldl1'

theorem zeroPage_kept1 {s0 : State} {s : State} (served : Bool) (a n : Nat) (hk : Kept s0 s) : Kept s0 (zeroPage s served a n).1 :=
  zeroPage_kept (served := served) (a := a) (n := n) hk

theorem zeroPage_kept_eq {s0 u0 : State} {s : State} {served : Bool} {a n : Nat} {q0} (e0 : zeroPage s served a n = (u0, q0)) (hk : Kept s0 s) : Kept s0 u0 := by
  have := zeroPage_kept1 (served := served) (a := a) (n := n) hk
  rw [e0] at this
  exact this

theorem zeroPages_kept {s0 s : State} (served : Bool) (a n : Nat) (hk : Kept s0 s) :
    KeptP s0 (zeroPages s served a n) := by
  unfold zeroPages
  refine kept_foldl1 _ (fun x pg hx => ?_) hk
  split
  · exact zeroPage_kept1 _ _ _ hx
  · exact hx

theorem zeroPages_kept1 {s0 s : State} (served : Bool) (a n : Nat) (hk : Kept s0 s) : Kept s0 (zeroPages s served a n).1 :=
  zeroPages_kept served a n hk

theorem zeroPages_kept_eq {s0 u0 s : State} {served : Bool} {a n : Nat} {q0} (e0 : zeroPages s served a n = (u0, q0))
    (hk : Kept s0 s) : Kept s0 u0 := by
  have := zeroPages_kept1 served a n hk
  rw [e0] at this
  exact this

theorem discardSlices_kept {s0 : State} {s : State} (r : Run) (hk : Kept s0 s) : Kept s0 (discardSlices s r) := by
  unfold discardSlices
  repeat' first
    | assumption
    | refine fun (x : State) _ (hx : Kept s0 x) => ?_
    | with_reducible first
      | apply bump_kept
      | apply zeroPages_kept1
      | apply kept_foldl

theorem completeRun_kept {s0 : State} {s : State} (r : Run) (st : BitVec 8) (hk : Kept s0 s) : Kept s0 (completeRun s r st) := by
  unfold completeRun
  repeat' first
    | assumption
    | split
    | with_reducible first
      | apply complete_kept

theorem completeWaiter_kept {s0 : State} {s : State} (m n : Nat) (hk : Kept s0 s) : Kept s0 (completeWaiter s m n) := by
  unfold completeWaiter
  repeat' first
    | assumption
    | split
    | with_reducible first
      | apply complete_kept

theorem closeMcast_kept {s0 : State} {s : State} (key : Nat) (hk : Kept s0 s) : Kept s0 (closeMcast s key) := by
  unfold closeMcast
  repeat' first
    | with_reducible first
      | refine kept_mk (by assumption) id (Nat.le_refl _) (fun _ w => w) rfl rfl

theorem leaveChildren_kept {s0 : State} {s : State} (m : Mc) (hk : Kept s0 s) : Kept s0 (leaveChildren s m) := by
  unfold leaveChildren
  repeat' first
    | assumption
    | refine fun (x : State) _ (hx : Kept s0 x) => ?_
    | split
    | with_reducible first
      | apply bump_kept
      | apply sendMgmt_kept
      | apply closeMcast_kept
      | apply kept_foldl

theorem endMcasts_kept {s0 : State} {s : State} (tag : Nat) (hk : Kept s0 s) : Kept s0 (endMcasts s tag) := by
  unfold endMcasts
  repeat' first
    | with_reducible first
      | apply leaveChildren_kept
      | refine kept_mk (by assumption) id (Nat.le_refl _) (fun _ w => w) rfl rfl
      | apply kept_foldl

theorem endRun_kept {s0 : State} {s : State} (tag : Nat) (st : BitVec 8) (hk : Kept s0 s) : Kept s0 (endRun s tag st) := by
  unfold endRun
  repeat' first
    | refine fun (x : State) _ (hx : Kept s0 x) => ?_
    | (intro x; first | refine kept_cut (s0 := s0) (x := x) ?_ ?_ | clear_value x)
    | (intro hx; clear_value x)
    | lift_lets
    | split
    | with_reducible first
      | apply onRun_kept
      | apply releaseCores_kept
      | apply adaptRun_kept
      | apply completeRun_kept
      | apply completeWaiter_kept
      | apply endMcasts_kept
      | refine kept_mk (by assumption) id (Nat.le_refl _) (fun _ w => w) rfl rfl
      | apply kept_foldl
    | unfold x

theorem cancelRun_kept {s0 : State} {s : State} (tag : Nat) (st : BitVec 8) (hk : Kept s0 s) : Kept s0 (cancelRun s tag st) := by
  unfold cancelRun
  repeat' first
    | assumption
    | split
    | with_reducible first
      | apply stopRun_kept
      | apply endRun_kept

theorem execRunStart_kept {s0 : State} (t : Nat) {s : State} (hk : Kept s0 s) : KeptOut s0 (execRunStart t s) := by
  unfold execRunStart
  repeat' first
    | assumption
    | split
    | with_reducible first
      | apply bump_kept
      | apply onRun_kept
      | apply endRun_kept
      | apply keptOut_next
    | unfold x

theorem execRunEnd_kept {s0 : State} (t : Nat) {s : State} (hk : Kept s0 s) : KeptOut s0 (execRunEnd t s) := by
  unfold execRunEnd
  repeat' first
    | assumption
    | split
    | with_reducible first
      | apply endRun_kept
      | apply keptOut_next

theorem execRunStopComplete_kept {s0 : State} (t : Nat) {s : State} (hk : Kept s0 s) : KeptOut s0 (execRunStopComplete t s) := by
  unfold execRunStopComplete
  repeat' first
    | assumption
    | split
    | with_reducible first
      | apply discardSlices_kept
      | apply endRun_kept
      | apply keptOut_next

end Sys2Proof.Machine
end

