-- ==== Sys2Proof/Laws/AdmitKept.lean ====
section
/-!
SUPPORT. What the operations of Machine/Admit.lean keep: the queue, the clock, the memories' form, the counters' 64 bits and the fuses.
-/

namespace Sys2Proof.Machine

theorem orderCmd_kept {s0 : State} {s : State} (m n code : Nat) (f : State → Order → State) (hf : ∀ (x : State) a0, Kept s0 x → Kept s0 (f x a0)) (hk : Kept s0 s) : Kept s0 (orderCmd s m n code f) := by
  unfold orderCmd
  repeat' first
    | assumption
    | split
    | with_reducible first
      | apply refuse_kept
      | apply hf

theorem beginOrder_kept {s0 : State} {s : State} (o : Order) (hk : Kept s0 s) : Kept s0 (beginOrder s o) := by
  unfold beginOrder
  repeat' first
    | with_reducible first
      | refine kept_mk (by assumption) id (Nat.le_refl _) (fun _ w => w) rfl rfl

theorem hostAsk_kept {s0 : State} {s : State} (o : Order) (hk : Kept s0 s) : Kept s0 (hostAsk s o) := by
  unfold hostAsk
  repeat' first
    | assumption
    | split
    | with_reducible first
      | apply hostReq_kept

end Sys2Proof.Machine
end

