-- ==== Sys2Proof/Laws/GeometryKept.lean ====
section
/-!
SUPPORT. What the operations of Machine/Geometry.lean keep: the queue, the clock, the memories' form, the counters' 64 bits and the fuses.
-/

namespace Sys2Proof.Machine


end Sys2Proof.Machine
end

