-- ==== Sys2Proof/Laws/OrdersKept.lean ====
section
/-!
SUPPORT. What the operations of Machine/Orders.lean keep: the queue, the clock, the memories' form, the counters' 64 bits and the fuses.
-/

namespace Sys2Proof.Machine

theorem shelfZero_kept {s0 : State} {s : State} (core off n : Nat) (hk : Kept s0 s) : Kept s0 (shelfZero s core off n) := by
  unfold shelfZero
  repeat' first
    | refine fun (w : Memory.wf _ = true) => wf_mk ?_ ?_ ?_ ?_ ?_
    | exact wf_shelf (by assumption)
    | exact wf_cellar (by assumption)
    | exact wf_side (by assumption)
    | exact wf_ddr (by assumption)
    | exact wf_window (by assumption)
    | apply memZero_wf
    | with_reducible first
      | refine kept_mk (by assumption) ?_ (Nat.le_refl _) (fun _ w => w) rfl rfl

theorem zeroOnCreate_kept {s0 : State} {s : State} (d : Desc) (served : Bool) (hk : Kept s0 s) :
    KeptP s0 (zeroOnCreate s d served) := by
  unfold zeroOnCreate
  split
  · exact keptP_mk (kept_foldl _ (fun x c hx => shelfZero_kept _ _ _ hx) hk)
  · refine kept_foldl1 _ (fun x pg hx => ?_) hk
    split
    · exact zeroPage_kept _ _ _ hx
    · exact hx
  · refine keptP_mk ?_
    refine kept_mk (s := (List.range 128).foldl (fun s c => s.onMem (fun m =>
      mendWords { m with cellar := memZero m.cellar (c * 1048576 + d.base * 16384) (d.footprint 128) } 0
        (c * 262144 + d.base * 4096) (d.footprint 128 / 4))) s) ?_
      id (Nat.le_refl _) (fun _ w => w) rfl rfl
    refine kept_foldl _ (fun x c hx => onMem_kept (fun m w => ?_) hx) hk
    exact mendWords_wf _ _ _ (wf_mk (wf_shelf w) (memZero_wf _ _ (wf_cellar w)) (wf_side w) (wf_ddr w) (wf_window w))

theorem zeroOnCreate_kept_eq {s0 s t : State} {d : Desc} {served : Bool} {q} (e : zeroOnCreate s d served = (t, q))
    (hk : Kept s0 s) : Kept s0 t := by
  have : Kept s0 (zeroOnCreate s d served).1 := zeroOnCreate_kept d served hk
  rw [e] at this
  exact this

theorem createTensor_kept {s0 : State} (served : Bool) {s : State} (o : Order) (hk : Kept s0 s) :
    Kept s0 (createTensor served s o) := by
  unfold createTensor
  dsimp only
  split
  · exact refuse_kept _ _ _ _ _ hk
  · split
    · exact refuse_kept _ _ _ _ _ hk
    · generalize hp : (if bit _ 2 = true then zeroOnCreate _ _ _ else (s, true)) = p
      have hz : Kept s0 p.1 := by
        rw [← hp]
        split
        · exact zeroOnCreate_kept _ _ hk
        · exact hk
      split
      · exact hk
      · split
        · exact complete_kept _ _ _ hz
        · exact complete_kept _ _ _ (kept_mk (draw_kept hz) id (Nat.le_refl _) (fun _ w => w) rfl rfl)

theorem execCreateTensor_kept {s0 : State} (m n : Nat) (served : Bool) {s : State} (hk : Kept s0 s) : KeptOut s0 (execCreateTensor m n served s) := by
  unfold execCreateTensor
  repeat' first
    | assumption
    | with_reducible first
      | apply orderCmd_kept
      | apply createTensor_kept
      | apply keptOut_next

theorem destroyTensor_kept {s0 : State} {s : State} (o : Order) (hk : Kept s0 s) : Kept s0 (destroyTensor s o) := by
  unfold destroyTensor
  repeat' first
    | (intro x; first | refine kept_cut (s0 := s0) (x := x) ?_ ?_ | clear_value x)
    | lift_lets
    | split
    | with_reducible first
      | apply complete_kept
      | refine kept_mk (by assumption) id (Nat.le_refl _) (fun _ w => w) rfl rfl

theorem execDestroyTensor_kept {s0 : State} (m n : Nat) {s : State} (hk : Kept s0 s) : KeptOut s0 (execDestroyTensor m n s) := by
  unfold execDestroyTensor
  repeat' first
    | assumption
    | with_reducible first
      | apply orderCmd_kept
      | apply destroyTensor_kept
      | apply keptOut_next

theorem runOwn_kept {s0 : State} {s : State} (o : Order) (hk : Kept s0 s) : Kept s0 (runOwn s o) := by
  unfold runOwn
  repeat' first
    | (intro x; first | refine kept_cut (s0 := s0) (x := x) ?_ ?_ | clear_value x)
    | (intro hx; clear_value x)
    | lift_lets
    | split
    | with_reducible first
      | apply complete_kept
      | apply endRun_kept
      | apply beginOrder_kept
      | refine kept_mk (by assumption) id (Nat.le_refl _) (fun _ w => w) rfl rfl

theorem execRun_kept {s0 : State} (m n : Nat) {s : State} (hk : Kept s0 s) : KeptOut s0 (execRun m n s) := by
  unfold execRun
  repeat' first
    | assumption
    | with_reducible first
      | apply orderCmd_kept
      | apply runOwn_kept
      | apply keptOut_next

theorem cancelOwn_kept {s0 : State} {s : State} (o : Order) (hk : Kept s0 s) : Kept s0 (cancelOwn s o) := by
  unfold cancelOwn
  repeat' first
    | assumption
    | (intro x; first | refine kept_cut (s0 := s0) (x := x) ?_ ?_ | clear_value x)
    | (intro hx; clear_value x)
    | lift_lets
    | split
    | with_reducible first
      | apply onRun_kept
      | apply complete_kept
      | apply stopRun_kept
      | apply endRun_kept
      | apply beginOrder_kept

theorem execCancel_kept {s0 : State} (m n : Nat) {s : State} (hk : Kept s0 s) : KeptOut s0 (execCancel m n s) := by
  unfold execCancel
  repeat' first
    | assumption
    | with_reducible first
      | apply orderCmd_kept
      | apply cancelOwn_kept
      | apply keptOut_next

theorem mapPagesOwn_kept {s0 : State} (d : Option (List Byte)) {s : State} (o : Order) (hk : Kept s0 s) : Kept s0 (mapPagesOwn d s o) := by
  unfold mapPagesOwn
  repeat' first
    | (intro x; first | refine kept_cut (s0 := s0) (x := x) ?_ ?_ | (have t : Memory := x; clear t; unfold x; clear x) | clear_value x)
    | (intro hx; clear_value x)
    | lift_lets
    | split
    | with_reducible first
      | apply complete_kept
      | apply refuse_kept
      | apply hostAsk_kept
      | refine kept_mk (by assumption) id (Nat.le_refl _) (fun _ w => w) rfl rfl

theorem execMapPages_kept {s0 : State} (m n : Nat) (d : Option (List Byte)) {s : State} (hk : Kept s0 s) : KeptOut s0 (execMapPages m n d s) := by
  unfold execMapPages
  repeat' first
    | assumption
    | with_reducible first
      | apply orderCmd_kept
      | apply mapPagesOwn_kept
      | apply keptOut_next

theorem queryOwn_kept {s0 : State} {s : State} (o : Order) (hk : Kept s0 s) : Kept s0 (queryOwn s o) := by
  unfold queryOwn
  repeat' first
    | assumption
    | split
    | with_reducible first
      | apply complete_kept
      | apply sendResult_kept

theorem execQuery_kept {s0 : State} (m n : Nat) {s : State} (hk : Kept s0 s) : KeptOut s0 (execQuery m n s) := by
  unfold execQuery
  repeat' first
    | assumption
    | with_reducible first
      | apply orderCmd_kept
      | apply queryOwn_kept
      | apply keptOut_next

theorem readCountersOwn_kept {s0 : State} {s : State} (o : Order) (hk : Kept s0 s) : Kept s0 (readCountersOwn s o) := by
  unfold readCountersOwn
  repeat' first
    | assumption
    | (intro x; first | refine kept_cut (s0 := s0) (x := x) ?_ ?_ | clear_value x)
    | lift_lets
    | split
    | with_reducible first
      | apply complete_kept
      | apply sendResult_kept

theorem execReadCounters_kept {s0 : State} (m n : Nat) {s : State} (hk : Kept s0 s) : KeptOut s0 (execReadCounters m n s) := by
  unfold execReadCounters
  repeat' first
    | assumption
    | with_reducible first
      | apply orderCmd_kept
      | apply readCountersOwn_kept
      | apply keptOut_next

theorem readCofferOwn_kept {s0 : State} {s : State} (o : Order) (hk : Kept s0 s) : Kept s0 (readCofferOwn s o) := by
  unfold readCofferOwn
  repeat' first
    | assumption
    | (intro x; first | refine kept_cut (s0 := s0) (x := x) ?_ ?_ | clear_value x)
    | lift_lets
    | split
    | with_reducible first
      | apply complete_kept
      | apply sendResult_kept

theorem execReadCoffer_kept {s0 : State} (m n : Nat) {s : State} (hk : Kept s0 s) : KeptOut s0 (execReadCoffer m n s) := by
  unfold execReadCoffer
  repeat' first
    | assumption
    | with_reducible first
      | apply orderCmd_kept
      | apply readCofferOwn_kept
      | apply keptOut_next

end Sys2Proof.Machine
end

