-- ==== Sys2Proof/Laws/LoaderKept.lean ====
section
/-!
SUPPORT. What the operations of Machine/Loader.lean keep: the queue, the clock, the memories' form, the counters' 64 bits and the fuses.
-/

namespace Sys2Proof.Machine

theorem loadOwn_kept {s0 : State} (d : Option (List Byte)) {s : State} (o : Order) (hk : Kept s0 s) : Kept s0 (loadOwn d s o) := by
  unfold loadOwn
  repeat' first
    | (intro x; first | refine kept_cut (s0 := s0) (x := x) ?_ ?_ | clear_value x)
    | (intro hx; clear_value x)
    | lift_lets
    | split
    | with_reducible first
      | apply complete_kept
      | apply refuse_kept
      | apply sendResult_kept
      | apply hostAsk_kept
      | refine kept_mk (by assumption) id (Nat.le_refl _) (fun _ w => w) rfl rfl

theorem execLoadProgram_kept {s0 : State} (m n : Nat) (d : Option (List Byte)) {s : State} (hk : Kept s0 s) : KeptOut s0 (execLoadProgram m n d s) := by
  unfold execLoadProgram
  repeat' first
    | assumption
    | with_reducible first
      | apply orderCmd_kept
      | apply loadOwn_kept
      | apply keptOut_next

end Sys2Proof.Machine
end

