-- ==== Sys2Proof/Laws/ArbiterKept.lean ====
section
/-!
SUPPORT. What the operations of Machine/Arbiter.lean keep: the queue, the clock, the memories' form, the counters' 64 bits and the fuses.
-/

namespace Sys2Proof.Machine

theorem setArb_kept {s0 : State} {s : State} (cls inst : Nat) (a : Arb) (hk : Kept s0 s) : Kept s0 (s.setArb cls inst a) := by
  unfold State.setArb
  repeat' first
    | with_reducible first
      | refine kept_mk (by assumption) id (Nat.le_refl _) (fun _ w => w) rfl rfl

theorem tickArb_kept {s0 : State} {s : State} (p : Nat × Arb) (hk : Kept s0 s) : Kept s0 (tickArb s p) := by
  unfold tickArb
  repeat' first
    | assumption
    | refine fun (x : State) _ (hx : Kept s0 x) => ?_
    | with_reducible first
      | apply bump_kept
      | apply kept_foldl

theorem arbWaited_kept {s0 s : State} (cls inst : Nat) (p : Nat × Nat) (hk : Kept s0 s) : Kept s0 (arbWaited s cls inst p) := by
  unfold arbWaited
  dsimp only
  refine hk.trans ⟨rfl, rfl, id, fun hf => put_all (p := fun x => decide (x < 2 ^ 64)) (decide_eq_true ?_) hf,
    Nat.le_refl _, fun _ w => w, rfl, rfl⟩
  exact Nat.max_lt.mpr ⟨Nat.lt_of_le_of_lt (Nat.min_le_right _ _) (by decide), counter_fits _ _ hf⟩

theorem arbRound_kept {s0 : State} {s : State} (cls inst : Nat) (raised : List Nat) (hk : Kept s0 s) : KeptP s0 (arbRound s cls inst raised) := by
  unfold arbRound
  repeat' first
    | assumption
    | refine fun (x : State) _ (hx : Kept s0 x) => ?_
    | with_reducible first
      | apply bump_kept
      | apply setArb_kept
      | apply arbWaited_kept
      | apply keptP_mk
      | apply kept_foldl

theorem arbRound_kept1 {s0 : State} {s : State} (cls inst : Nat) (raised : List Nat) (hk : Kept s0 s) : Kept s0 (arbRound s cls inst raised).1 :=
  arbRound_kept (cls := cls) (inst := inst) (raised := raised) hk

theorem arbRound_kept_eq {s0 u0 : State} {s : State} {cls inst : Nat} {raised : List Nat} {q0} (e0 : arbRound s cls inst raised = (u0, q0)) (hk : Kept s0 s) : Kept s0 u0 := by
  have := arbRound_kept1 (cls := cls) (inst := inst) (raised := raised) hk
  rw [e0] at this
  exact this

theorem blockLoses_kept {s0 : State} {s : State} (core : Nat) (q : Nat) (hk : Kept s0 s) : Kept s0 (blockLoses s core q) := by
  unfold blockLoses
  repeat' first
    | assumption
    | (intro x; first | refine kept_cut (s0 := s0) (x := x) ?_ ?_ | clear_value x)
    | (intro hx; clear_value x)
    | lift_lets
    | split
    | with_reducible first
      | apply bump_kept
      | apply onCore_kept

theorem execArbiterRound_kept {s0 : State} (cls inst : Nat) (raised : List Nat) {s : State} (hk : Kept s0 s) : KeptOut s0 (execArbiterRound cls inst raised s) := by
  unfold execArbiterRound
  repeat' first
    | assumption
    | refine fun (x : State) _ (hx : Kept s0 x) => ?_
    | split
    | with_reducible first
      | refine arbRound_kept_eq (by assumption) ?_
      | apply blockLoses_kept
      | apply keptOut_next
      | apply kept_foldl

theorem biteRun_kept {s0 : State} {s : State} (tag mi : Nat) (hk : Kept s0 s) : Kept s0 (biteRun s tag mi) := by
  unfold biteRun
  repeat' first
    | assumption
    | split
    | with_reducible first
      | apply stopRun_kept
      | apply endRun_kept

theorem postBite_kept {s0 : State} {s : State} (kind unit n : Nat) (hk : Kept s0 s) : Kept s0 (postBite s kind unit n) := by
  unfold postBite
  repeat' first
    | assumption
    | with_reducible first
      | apply faultEntry_kept
      | apply postEvent_kept

theorem loseCellar_kept {s0 : State} {s : State} (c : Nat) (hk : Kept s0 s) : Kept s0 (loseCellar s c) := by
  unfold loseCellar
  repeat' first
    | with_reducible first
      | refine kept_mk (by assumption) id (Nat.le_refl _) (fun _ w => w) rfl rfl

theorem retireCore_kept {s0 : State} {s : State} (c : Nat) (hk : Kept s0 s) : Kept s0 (retireCore s c) := by
  unfold retireCore
  repeat' first
    | assumption
    | split
    | with_reducible first
      | apply bump_kept
      | apply onCore_kept
      | apply postEvent_kept

theorem biteCore_kept {s0 : State} {s : State} (c : Nat) (hk : Kept s0 s) : Kept s0 (biteCore s c) := by
  unfold biteCore
  repeat' first
    | assumption
    | refine fun (w : Memory.wf _ = true) => mendWords_wf _ _ _ (wf_mk ?_ ?_ ?_ ?_ ?_)
    | exact wf_shelf (by assumption)
    | exact wf_cellar (by assumption)
    | exact wf_side (by assumption)
    | exact wf_ddr (by assumption)
    | exact wf_window (by assumption)
    | apply memZero_wf
    | refine fun (x : State) _ (hx : Kept s0 x) => ?_
    | (intro x; first | refine kept_cut (s0 := s0) (x := x) ?_ ?_ | clear_value x)
    | (intro hx; clear_value x)
    | lift_lets
    | split
    | with_reducible first
      | apply bump_kept
      | apply onCore_kept
      | apply biteRun_kept
      | apply postBite_kept
      | apply loseCellar_kept
      | apply retireCore_kept
      | apply kept_foldl
      | apply onMem_kept

theorem resetArbs_kept {s0 : State} {s : State} (g : Nat) (hk : Kept s0 s) : Kept s0 (resetArbs s g) := by
  unfold resetArbs
  repeat' first
    | refine fun (x : State) _ (hx : Kept s0 x) => ?_
    | (intro x; first | refine kept_cut (s0 := s0) (x := x) ?_ ?_ | (have t : _ → State := x; clear t; unfold x; clear x) | (have t : State → _ := x; clear t; unfold x; clear x) | clear_value x)
    | (intro hx; clear_value x)
    | lift_lets
    | with_reducible first
      | apply arbWaited_kept
      | refine kept_mk (by assumption) id (Nat.le_refl _) (fun _ w => w) rfl rfl
      | apply kept_foldl

theorem dropThrough_kept {s0 : State} {s : State} (g : Nat) (hk : Kept s0 s) : Kept s0 (dropThrough s g) := by
  unfold dropThrough
  repeat' first
    | with_reducible first
      | refine kept_mk (by assumption) id (Nat.le_refl _) (fun _ w => w) rfl rfl

theorem resendLinks_kept {s0 : State} {s : State} (g : Nat) (hk : Kept s0 s) : Kept s0 (resendLinks s g) := by
  unfold resendLinks
  repeat' first
    | split
    | with_reducible first
      | refine kept_mk (by assumption) id (Nat.le_refl _) (fun _ w => w) rfl rfl

theorem biteSeg_kept {s0 s : State} (g : Nat) (hk : Kept s0 s) : Kept s0 (biteSeg s g) := by
  unfold biteSeg
  extract_lets bites hit s1 s2 src s3 s4
  have h1 : Kept s0 s1 := kept_foldl _ (fun _ _ hx => biteRun_kept _ _ hx) hk
  have h4 : Kept s0 s4 := bump_kept _ _ _ (postBite_kept _ _ _ (setSeg_kept _ _ (resendLinks_kept _ (resetArbs_kept _ (dropThrough_kept _ h1)))))
  split
  · exact kept_foldl _ (fun _ _ hx => retireCore_kept _ hx) h4
  · exact h4

theorem execWatchdogCheck_kept {s0 : State} (kind unit : Nat) (progress : Bool) (excused : Bool) {s : State} (hk : Kept s0 s) : KeptOut s0 (execWatchdogCheck kind unit progress excused s) := by
  unfold execWatchdogCheck
  dsimp only
  repeat' first
    | assumption
    | split
    | with_reducible first
      | apply setCore_kept
      | apply setSeg_kept
      | apply biteCore_kept
      | apply biteSeg_kept
      | apply keptOut_next

theorem execBackInService_kept {s0 : State} (kind unit : Nat) {s : State} (hk : Kept s0 s) : KeptOut s0 (execBackInService kind unit s) := by
  unfold execBackInService
  repeat' first
    | assumption
    | split
    | with_reducible first
      | apply onCore_kept
      | apply setSeg_kept
      | apply keptOut_next

end Sys2Proof.Machine
end

