-- ==== Sys2Proof/Laws/FenceKept.lean ====
section
/-!
SUPPORT. What the operations of Machine/Fence.lean keep: the queue, the clock, the memories' form, the counters' 64 bits and the fuses.
-/

namespace Sys2Proof.Machine

theorem endAllRuns_kept {s0 : State} {s : State} (st : BitVec 8) (hk : Kept s0 s) : Kept s0 (endAllRuns s st) := by
  unfold endAllRuns
  repeat' first
    | assumption
    | refine fun (x : State) _ (hx : Kept s0 x) => ?_
    | with_reducible first
      | apply cancelRun_kept
      | apply kept_foldl

theorem becomeSolo_kept {s0 : State} {s : State} (hk : Kept s0 s) : Kept s0 (becomeSolo s) := by
  unfold becomeSolo
  repeat' first
    | with_reducible first
      | refine kept_mk (by assumption) id (Nat.le_refl _) (fun _ w => w) rfl rfl

theorem endWaiting_kept {s0 : State} {s : State} (w : Option (Nat × Nat)) (st : BitVec 8) (detail : List Byte) (hk : Kept s0 s) : Kept s0 (endWaiting s w st detail) := by
  unfold endWaiting
  repeat' first
    | assumption
    | split
    | with_reducible first
      | apply complete_kept

theorem endLeave_kept {s0 : State} {s : State} (hk : Kept s0 s) : Kept s0 (endLeave s) := by
  unfold endLeave
  repeat' first
    | with_reducible first
      | apply endWaiting_kept
      | refine kept_mk (by assumption) id (Nat.le_refl _) (fun _ w => w) rfl rfl

theorem fenceSelf_kept {s0 : State} {s : State} (cause : Nat) (hk : Kept s0 s) : Kept s0 (fenceSelf s cause) := by
  unfold fenceSelf
  repeat' first
    | (intro x; first | refine kept_cut (s0 := s0) (x := x) ?_ ?_ | clear_value x)
    | (intro hx; clear_value x)
    | lift_lets
    | split
    | with_reducible first
      | apply bump_kept
      | apply postEvent_kept
      | apply rollback_kept
      | apply endAllRuns_kept
      | apply becomeSolo_kept
      | apply endLeave_kept
      | refine kept_mk (by assumption) id (Nat.le_refl _) (fun _ w => w) rfl rfl
    | unfold x

end Sys2Proof.Machine
end

