-- ==== Sys2Proof/Laws/StreamKept.lean ====
section
/-!
SUPPORT. What the operations of Machine/Stream.lean keep: the queue, the clock, the memories' form, the counters' 64 bits and the fuses.
-/

namespace Sys2Proof.Machine

theorem reach_kept {s0 : State} {s : State} (tag mi pos : Nat) (ops : List Nat) (item : Nat) (hk : Kept s0 s) : Kept s0 (reach s tag mi pos ops item) := by
  unfold reach
  repeat' first
    | (intro x; first | refine kept_cut (s0 := s0) (x := x) ?_ ?_ | (have t : _ → State := x; clear t; unfold x; clear x) | (have t : State → _ := x; clear t; unfold x; clear x) | clear_value x)
    | lift_lets
    | split
    | with_reducible first
      | refine kept_mk (by assumption) id (Nat.le_refl _) (fun _ w => w) rfl rfl

theorem produce_kept {s0 s u : State} (tag : Nat) (w : Walk) (hs : Kept s0 s) (hu : Kept s0 u) :
    Kept s0 (produce s u tag w) := by
  unfold produce
  split
  · split
    · exact hs
    · exact onWalk_kept _ _ _ _ hs
  · exact onWalk_kept _ _ _ _ hu

theorem startMacro_kept {s0 : State} {s : State} (r : Run) (i p : Nat) (ls : List (Nat × Nat)) (hk : Kept s0 s) : Kept s0 (startMacro s r i p ls) := by
  unfold startMacro
  repeat' first
    | with_reducible first
      | apply onCore_kept
      | apply onRun_kept
      | refine kept_mk (by assumption) id (Nat.le_refl _) (fun _ w => w) rfl rfl

theorem execMacroStart_kept {s0 : State} (t i p : Nat) {s : State} (hk : Kept s0 s) : KeptOut s0 (execMacroStart t i p s) := by
  unfold execMacroStart
  repeat' first
    | assumption
    | split
    | with_reducible first
      | apply startMacro_kept
      | apply keptOut_next

theorem endReads_kept {s0 : State} {s : State} (tag mi pos core : Nat) (hk : Kept s0 s) : Kept s0 (endReads s tag mi pos core) := by
  unfold endReads
  repeat' first
    | with_reducible first
      | apply freeLarders_kept
      | refine kept_mk (by assumption) id (Nat.le_refl _) (fun _ w => w) rfl rfl

theorem endWalk_kept {s0 : State} {s : State} (tag mi pos core : Nat) (hk : Kept s0 s) : Kept s0 (endWalk s tag mi pos core) := by
  unfold endWalk
  repeat' first
    | assumption
    | with_reducible first
      | apply onWalk_kept
      | apply endReads_kept

theorem opCmd_kept {s0 : State} {s : State} (t i p op : Nat) (f : State → Run → Walk → State) (hf : ∀ (x : State) a0 a1, Kept s0 x → Kept s0 (f x a0 a1)) (hk : Kept s0 s) : Kept s0 (opCmd s t i p op f) := by
  unfold opCmd
  repeat' first
    | assumption
    | split
    | with_reducible first
      | apply hf

theorem beginReads_kept {s0 : State} {s : State} (tag mi core off n : Nat) (hk : Kept s0 s) : Kept s0 (beginReads s tag mi core off n) := by
  unfold beginReads
  repeat' first
    | (intro x; first | refine kept_cut (s0 := s0) (x := x) ?_ ?_ | clear_value x)
    | lift_lets
    | split
    | with_reducible first
      | refine kept_mk (by assumption) id (Nat.le_refl _) (fun _ w => w) rfl rfl

theorem noteReaders_kept {s0 : State} {s : State} (r : Run) (mi pos : Nat) (hk : Kept s0 s) : Kept s0 (noteReaders s r mi pos) := by
  unfold noteReaders
  repeat' first
    | assumption
    | refine fun (x : State) _ (hx : Kept s0 x) => ?_
    | (intro x; first | refine kept_cut (s0 := s0) (x := x) ?_ ?_ | clear_value x)
    | lift_lets
    | split
    | with_reducible first
      | apply beginReads_kept
      | apply kept_foldl

theorem execWaitBeat_kept {s0 : State} (t i p : Nat) {s : State} (hk : Kept s0 s) : KeptOut s0 (execWaitBeat t i p s) := by
  unfold execWaitBeat
  repeat' first
    | assumption
    | refine fun (x : State) _ _ (hx : Kept s0 x) => ?_
    | (intro x; first | refine kept_cut (s0 := s0) (x := x) ?_ ?_ | clear_value x)
    | (intro hx; clear_value x)
    | lift_lets
    | split
    | with_reducible first
      | apply bump_kept
      | apply onRun_kept
      | apply endWalk_kept
      | apply opCmd_kept
      | apply keptOut_next
    | unfold x

theorem execFence_kept {s0 : State} (t i p : Nat) {s : State} (hk : Kept s0 s) : KeptOut s0 (execFence t i p s) := by
  unfold execFence
  repeat' first
    | assumption
    | refine fun (x : State) _ _ (hx : Kept s0 x) => ?_
    | lift_lets
    | split
    | with_reducible first
      | apply endWalk_kept
      | apply opCmd_kept
      | apply keptOut_next

theorem postInterim_kept {s0 : State} {s : State} (r : Run) (h : Halt) (hk : Kept s0 s) : Kept s0 (postInterim s r h) := by
  unfold postInterim
  repeat' first
    | assumption
    | with_reducible first
      | apply deliver_kept

theorem haltStream_kept {s0 : State} {s : State} (x : Stream) (page reason : Nat) (hk : Kept s0 s) : Kept s0 (haltStream s x page reason) := by
  unfold haltStream
  repeat' first
    | assumption
    | split
    | with_reducible first
      | apply bump_kept
      | apply onRun_kept
      | apply setStream_kept
      | apply postInterim_kept

theorem lookupPage_kept {s0 : State} {s : State} (core page : Nat) (hk : Kept s0 s) : Kept s0 (lookupPage s core page) := by
  unfold lookupPage
  repeat' first
    | assumption
    | (intro x; first | refine kept_cut (s0 := s0) (x := x) ?_ ?_ | clear_value x)
    | lift_lets
    | split
    | with_reducible first
      | apply bump_kept
      | apply setCore_kept
      | apply draw_kept

theorem issueRead_kept {s0 : State} {s : State} (x : Stream) (half item a n : Nat) (hk : Kept s0 s) : KeptP s0 (issueRead s x half item a n) := by
  unfold issueRead
  dsimp only
  repeat' first
    | split
    | with_reducible first
      | apply keptP_mk
    | (with_reducible refine kept_mk ?_ id (Nat.le_refl _) (fun _ w => w) rfl rfl; first | assumption | with_reducible apply bump_kept | with_reducible apply sendTransfer_kept | with_reducible apply sendTransfer_kept1 | with_reducible apply hostReq_kept)

theorem issueRead_kept1 {s0 : State} {s : State} (x : Stream) (half item a n : Nat) (hk : Kept s0 s) : Kept s0 (issueRead s x half item a n).1 :=
  issueRead_kept (x := x) (half := half) (item := item) (a := a) (n := n) hk

theorem issueRead_kept_eq {s0 u0 : State} {s : State} {x : Stream} {half item a n : Nat} {q0} (e0 : issueRead s x half item a n = (u0, q0)) (hk : Kept s0 s) : Kept s0 u0 := by
  have := issueRead_kept1 (x := x) (half := half) (item := item) (a := a) (n := n) hk
  rw [e0] at this
  exact this

theorem issueList_kept {s0 : State} (half : Nat) (l : List (Nat × Nat × Nat)) {s : State} (x : Stream) (hk : Kept s0 s) :
    KeptP s0 (issueList half l s x) := by
  induction l generalizing s x with
  | nil => exact hk
  | cons p r ih =>
    obtain ⟨w, a, n⟩ := p
    unfold issueList
    have hr := issueRead_kept1 x half w a n hk
    dsimp only
    split
    · exact ih _ hr
    · exact keptP_mk (haltStream_kept _ _ _ (setStream_kept _ hr))

theorem issueBatch_kept {s0 : State} (half : Nat) (l : List (Nat × Nat × Nat)) {a : State × Stream} (hk : Kept s0 a.1) :
    KeptP s0 (issueBatch half l a) := by
  unfold issueBatch
  dsimp only
  split
  · exact keptP_mk hk
  · exact issueList_kept _ _ _ (kept_foldl _ (fun _ _ hx => lookupPage_kept _ _ hx) hk)

theorem issueBatch_kept1 {s0 : State} (half : Nat) (l : List (Nat × Nat × Nat)) {a : State × Stream} (hk : Kept s0 a.1) :
    Kept s0 (issueBatch half l a).1 :=
  issueBatch_kept half l hk

theorem issueBatch_kept_eq {s0 t : State} {half : Nat} {l : List (Nat × Nat × Nat)} {a : State × Stream} {q}
    (e : issueBatch half l a = (t, q)) (hk : Kept s0 a.1) : Kept s0 t := by
  have := issueBatch_kept1 half l hk
  rw [e] at this
  exact this

theorem issueInto_kept {s0 : State} {s : State} (x : Stream) (half : Nat) (l : List (Nat × Nat × Nat)) (hk : Kept s0 s) : Kept s0 (issueInto s x half l) := by
  unfold issueInto
  repeat' first
    | assumption
    | refine fun x _ (hx : Kept s0 x.1) => ?_
    | with_reducible first
      | apply setStream_kept
      | apply issueBatch_kept
      | apply keptP_mk
      | apply kept_foldl1'
    | with_reducible first
      | refine keptP_get (by assumption) ?_

theorem fillHalf_kept {s0 : State} {s : State} (x : Stream) (half : Nat) (l : List (Nat × Nat × Nat)) (hk : Kept s0 s) : Kept s0 (fillHalf s x half l) := by
  unfold fillHalf
  repeat' first
    | assumption
    | with_reducible first
      | apply bump_kept
      | apply issueInto_kept

theorem fillCrated_kept {s0 : State} {s : State} (x : Stream) (half : Nat) (hk : Kept s0 s) : Kept s0 (fillCrated s x half) := by
  unfold fillCrated
  repeat' first
    | assumption
    | (intro x; first | refine kept_cut (s0 := s0) (x := x) ?_ ?_ | clear_value x)
    | lift_lets
    | split
    | with_reducible first
      | apply bump_kept
      | apply issueInto_kept
      | apply fillHalf_kept

theorem execHalfFill_kept {s0 : State} (t i p op : Nat) {s : State} (hk : Kept s0 s) : KeptOut s0 (execHalfFill t i p op s) := by
  unfold execHalfFill
  repeat' first
    | assumption
    | lift_lets
    | split
    | with_reducible first
      | apply fillHalf_kept
      | apply fillCrated_kept
      | apply keptOut_next

theorem landBytes_kept {s0 : State} {s : State} (d : Desc) (x : Stream) (f : Xfer) (b : List Byte) (hk : Kept s0 s) : Kept s0 (landBytes s d x f b) := by
  unfold landBytes
  repeat' first
    | assumption
    | with_reducible first
      | apply bump_kept
      | apply setStream_kept

theorem returnRead_kept {s0 : State} {s : State} (f : Xfer) (d : Option (List Byte)) (lost : Bool) (hk : Kept s0 s) : Kept s0 (returnRead s f d lost) := by
  unfold returnRead
  repeat' first
    | (intro x; first | refine kept_cut (s0 := s0) (x := x) ?_ ?_ | clear_value x)
    | (intro hx; clear_value x)
    | lift_lets
    | split
    | with_reducible first
      | apply setStream_kept
      | apply failMacro_kept
      | apply haltStream_kept
      | apply landBytes_kept
      | refine kept_mk (by assumption) id (Nat.le_refl _) (fun _ w => w) rfl rfl

theorem execTransferLand_kept {s0 : State} (id : Nat) (d : Option (List Byte)) {s : State} (hk : Kept s0 s) : KeptOut s0 (execTransferLand id d s) := by
  unfold execTransferLand
  repeat' first
    | assumption
    | split
    | with_reducible first
      | apply countRead_kept
      | apply returnRead_kept
      | apply keptOut_next

theorem issueWrite_kept {s0 : State} {s : State} (x : Stream) (f : Xfer) (hk : Kept s0 s) : KeptP s0 (issueWrite s x f) := by
  unfold issueWrite
  dsimp only
  repeat' first
    | assumption
    | refine fun (x : State) _ (hx : Kept s0 x) => ?_
    | split
    | with_reducible first
      | apply bump_kept
      | apply onCore_kept
      | apply sendTransfer_kept1
      | apply hostReq_kept
      | apply lookupPage_kept
      | apply keptP_mk
      | apply kept_foldl
    | with_reducible first
      | refine kept_mk ?_ id (Nat.le_refl _) (fun _ w => w) rfl rfl

theorem issueWrite_kept1 {s0 : State} {s : State} (x : Stream) (f : Xfer) (hk : Kept s0 s) : Kept s0 (issueWrite s x f).1 :=
  issueWrite_kept (x := x) (f := f) hk

theorem issueWrite_kept_eq {s0 u0 : State} {s : State} {x : Stream} {f : Xfer} {q0} (e0 : issueWrite s x f = (u0, q0)) (hk : Kept s0 s) : Kept s0 u0 := by
  have := issueWrite_kept1 (x := x) (f := f) hk
  rw [e0] at this
  exact this

theorem issueStream_kept {s0 : State} (k : Nat) {s : State} (x : Stream) (hk : Kept s0 s) : Kept s0 (issueStream k s x) := by
  induction k generalizing s x with
  | zero => exact hk
  | succ k ih =>
    unfold issueStream
    split
    · exact hk
    · rename_i f rest _
      have hr := issueWrite_kept1 x f hk
      dsimp only
      split
      · exact hk
      · split
        · exact haltStream_kept _ _ _ hr
        · exact ih _ (setStream_kept _ hr)

theorem issueWrites_kept {s0 : State} {s : State} (hk : Kept s0 s) : Kept s0 (issueWrites s) := by
  unfold issueWrites
  repeat' first
    | assumption
    | refine fun (x : State) _ (hx : Kept s0 x) => ?_
    | with_reducible first
      | apply issueStream_kept
      | apply kept_foldl

theorem applyWrite_kept {s0 : State} {s : State} (f : Xfer) (hk : Kept s0 s) : KeptP s0 (applyWrite s f) := by
  unfold applyWrite
  repeat' first
    | assumption
    | (intro x; first | refine kept_cut (s0 := s0) (x := x) ?_ ?_ | (have t : _ → State := x; clear t; unfold x; clear x) | (have t : State → _ := x; clear t; unfold x; clear x) | clear_value x)
    | lift_lets
    | split
    | with_reducible first
      | refine ddrWriteCells_kept_eq (by assumption) ?_
      | apply ddrAdd_kept
      | apply keptP_mk

theorem applyWrite_kept1 {s0 : State} {s : State} (f : Xfer) (hk : Kept s0 s) : Kept s0 (applyWrite s f).1 :=
  applyWrite_kept (f := f) hk

theorem applyWrite_kept_eq {s0 u0 : State} {s : State} {f : Xfer} {q0} (e0 : applyWrite s f = (u0, q0)) (hk : Kept s0 s) : Kept s0 u0 := by
  have := applyWrite_kept1 (f := f) hk
  rw [e0] at this
  exact this

theorem returnWrite_kept {s0 : State} {s : State} (core : Nat) (f : Xfer) (ok lost : Bool) (hk : Kept s0 s) : Kept s0 (returnWrite s core f ok lost) := by
  unfold returnWrite
  repeat' first
    | assumption
    | (intro x; first | refine kept_cut (s0 := s0) (x := x) ?_ ?_ | clear_value x)
    | (intro hx; clear_value x)
    | lift_lets
    | split
    | with_reducible first
      | apply onCore_kept
      | apply setStream_kept
      | apply failMacro_kept
      | apply haltStream_kept
      | apply issueWrites_kept

theorem execWriteComplete_kept {s0 : State} (core id : Nat) (ok : Bool) {s : State} (hk : Kept s0 s) : KeptOut s0 (execWriteComplete core id ok s) := by
  unfold execWriteComplete
  repeat' first
    | assumption
    | lift_lets
    | split
    | with_reducible first
      | refine applyWrite_kept_eq (by assumption) ?_
      | apply returnWrite_kept
      | apply keptOut_next

theorem resumeOne_kept {s0 : State} {s : State} (x0 : Stream) (hk : Kept s0 s) : Kept s0 (resumeOne s x0) := by
  unfold resumeOne
  repeat' first
    | assumption
    | refine fun x _ (hx : Kept s0 x.1) => ?_
    | (intro x; first | refine kept_cut (s0 := s0) (x := x) ?_ ?_ | clear_value x)
    | (intro hx; clear_value x)
    | lift_lets
    | split
    | with_reducible first
      | apply setStream_kept
      | apply issueBatch_kept
      | apply issueStream_kept
      | apply keptP_mk
      | apply kept_foldl1'
    | with_reducible first
      | refine keptP_get (by assumption) ?_

theorem execResumeStream_kept {s0 : State} (m n : Nat) {s : State} (hk : Kept s0 s) : KeptOut s0 (execResumeStream m n s) := by
  unfold execResumeStream
  repeat' first
    | assumption
    | refine fun (x : State) _ (hx : Kept s0 x) => ?_
    | split
    | with_reducible first
      | apply onRun_kept
      | apply complete_kept
      | apply orderCmd_kept
      | apply resumeOne_kept
      | apply keptOut_next
      | apply kept_foldl

end Sys2Proof.Machine
end

