-- ==== Sys2Proof/Laws/TilesKept.lean ====
section
/-!
SUPPORT. What the operations of Machine/Tiles.lean keep: the queue, the clock, the memories' form, the counters' 64 bits and the fuses.
-/

namespace Sys2Proof.Machine

theorem writeCrate_kept {s0 : State} {s : State} (v : View) (hi : List Nat) (tr tc : Nat) (b : List Byte) (hk : Kept s0 s) : KeptOk s0 (writeCrate s v hi tr tc b) := by
  unfold writeCrate
  repeat' first
    | assumption
    | with_reducible first
      | apply writeRuns_kept
    | with_reducible first
      | apply keptOk_ok
      | exact keptOk_error _
      | apply keptOk_bind
      | apply keptOk1_ok
      | exact keptOk1_error _
      | apply keptOk1_bind

theorem writeCrate_kept_ok {s0 u0 : State} {s : State} {v : View} {hi : List Nat} {tr tc : Nat} {b : List Byte} (e0 : writeCrate s v hi tr tc b = .ok u0) (hk : Kept s0 s) : Kept s0 u0 :=
  (writeCrate_kept (v := v) (hi := hi) (tr := tr) (tc := tc) (b := b) hk).ok _ e0

theorem writeCells_kept {s0 : State} {s : State} (v : View) (adj : Nat) (cells : List OutCell) (hk : Kept s0 s) : KeptOk1 s0 (writeCells s v adj cells) := by
  unfold writeCells
  repeat' first
    | assumption
    | refine fun _ (e : _ = Except.ok _) => ?_
    | refine fun x _ (hx : Kept s0 x.1) => ?_
    | split
    | with_reducible first
      | refine writeElems_kept_ok (by assumption) ?_
      | refine writeCrate_kept_ok (by assumption) ?_
      | apply keptOk1_ok
      | exact keptOk1_error _
      | apply keptOk1_bind
      | apply keptOk1_ok
      | exact keptOk1_error _
      | apply keptOk1_bind
      | apply keptOk1_foldlM

theorem writeCells_kept_ok {s0 u0 : State} {s : State} {v : View} {adj : Nat} {cells : List OutCell} {q0} (e0 : writeCells s v adj cells = .ok (u0, q0)) (hk : Kept s0 s) : Kept s0 u0 :=
  (writeCells_kept (v := v) (adj := adj) (cells := cells) hk).ok _ e0

theorem countCopy_kept {s0 : State} {s : State} (core rd wr crates fell : Nat) (hk : Kept s0 s) : Kept s0 (countCopy s core rd wr crates fell) := by
  unfold countCopy
  repeat' first
    | assumption
    | with_reducible first
      | apply bump_kept

end Sys2Proof.Machine
end

