-- ==== Sys2Proof/Laws/CopyKept.lean ====
section
/-!
SUPPORT. What the operations of Machine/Copy.lean keep: the queue, the clock, the memories' form, the counters' 64 bits and the fuses.
-/

namespace Sys2Proof.Machine

theorem endUnit_kept {s0 : State} {s : State} (tag mi pos core : Nat) (hk : Kept s0 s) : Kept s0 (endUnit s tag mi pos core) := by
  unfold endUnit
  repeat' first
    | assumption
    | split
    | with_reducible first
      | apply onWalk_kept
      | apply endWalk_kept

theorem endCopy_kept {s0 : State} {s : State} (r : Run) (w : Walk) (flags : Nat) (hk : Kept s0 s) : Kept s0 (endCopy s r w flags) := by
  unfold endCopy
  repeat' first
    | assumption
    | with_reducible first
      | apply logFlags_kept
      | apply endUnit_kept

theorem unitWork_kept {s0 : State} (f : State → Run → Walk → State) {s : State} (r : Run) (w : Walk) (hf : ∀ (x : State) a0 a1, Kept s0 x → Kept s0 (f x a0 a1)) (hk : Kept s0 s) : Kept s0 (unitWork f s r w) := by
  unfold unitWork
  repeat' first
    | assumption
    | split
    | with_reducible first
      | apply reach_kept
      | apply endWalk_kept
      | apply hf

theorem copyWork_kept {s0 : State} {s : State} (r : Run) (w : Walk) (hk : Kept s0 s) : Kept s0 (copyWork s r w) := by
  unfold copyWork
  repeat' first
    | assumption
    | (intro x; first | refine kept_cut (s0 := s0) (x := x) ?_ ?_ | clear_value x)
    | (intro hx; clear_value x)
    | lift_lets
    | split
    | with_reducible first
      | apply bump_kept
      | apply failMacro_kept
      | apply failRead_kept
      | apply failWrite_kept
      | apply issueWrites_kept
      | refine writeCells_kept_ok (by assumption) ?_
      | apply countCopy_kept
      | apply endCopy_kept
    | with_reducible first
      | apply keptOk_ok
      | exact keptOk_error _
      | apply keptOk_bind
      | apply keptOk1_ok
      | exact keptOk1_error _
      | apply keptOk1_bind

theorem execCopy_kept {s0 : State} (t i p : Nat) {s : State} (hk : Kept s0 s) : KeptOut s0 (execCopy t i p s) := by
  unfold execCopy
  repeat' first
    | assumption
    | refine fun (x : State) _ _ (hx : Kept s0 x) => ?_
    | with_reducible first
      | apply opCmd_kept
      | apply unitWork_kept
      | apply copyWork_kept
      | apply keptOut_next

theorem execTranspose_kept {s0 : State} (t i p : Nat) {s : State} (hk : Kept s0 s) : KeptOut s0 (execTranspose t i p s) := by
  unfold execTranspose
  repeat' first
    | assumption
    | refine fun (x : State) _ _ (hx : Kept s0 x) => ?_
    | with_reducible first
      | apply opCmd_kept
      | apply unitWork_kept
      | apply copyWork_kept
      | apply keptOut_next

theorem execPermute_kept {s0 : State} (t i p : Nat) {s : State} (hk : Kept s0 s) : KeptOut s0 (execPermute t i p s) := by
  unfold execPermute
  repeat' first
    | assumption
    | refine fun (x : State) _ _ (hx : Kept s0 x) => ?_
    | with_reducible first
      | apply opCmd_kept
      | apply unitWork_kept
      | apply copyWork_kept
      | apply keptOut_next

theorem execCompress_kept {s0 : State} (t i p : Nat) {s : State} (hk : Kept s0 s) : KeptOut s0 (execCompress t i p s) := by
  unfold execCompress
  repeat' first
    | assumption
    | refine fun (x : State) _ _ (hx : Kept s0 x) => ?_
    | with_reducible first
      | apply opCmd_kept
      | apply unitWork_kept
      | apply copyWork_kept
      | apply keptOut_next

theorem gatherWork_kept {s0 : State} {s : State} (r : Run) (w : Walk) (hk : Kept s0 s) : Kept s0 (gatherWork s r w) := by
  unfold gatherWork
  repeat' first
    | assumption
    | (intro x; first | refine kept_cut (s0 := s0) (x := x) ?_ ?_ | (have t : Except _ _ := x; clear t; unfold x; clear x) | (have t : _ → Except _ _ := x; clear t; unfold x; clear x) | clear_value x)
    | (intro hx; clear_value x)
    | lift_lets
    | split
    | with_reducible first
      | apply bump_kept
      | apply failRead_kept
      | apply failWrite_kept
      | apply issueWrites_kept
      | refine writeCells_kept_ok (by assumption) ?_
      | apply countCopy_kept
      | apply endCopy_kept
    | with_reducible first
      | apply keptOk_ok
      | exact keptOk_error _
      | apply keptOk_bind
      | apply keptOk1_ok
      | exact keptOk1_error _
      | apply keptOk1_bind

theorem execGather_kept {s0 : State} (t i p : Nat) {s : State} (hk : Kept s0 s) : KeptOut s0 (execGather t i p s) := by
  unfold execGather
  repeat' first
    | assumption
    | refine fun (x : State) _ _ (hx : Kept s0 x) => ?_
    | with_reducible first
      | apply opCmd_kept
      | apply unitWork_kept
      | apply gatherWork_kept
      | apply keptOut_next

theorem addPairs_kept {s0 : State} {s : State} (c : View) (l : List (List Nat × F32)) (hk : Kept s0 s) : KeptOk s0 (addPairs s c l) := by
  unfold addPairs
  repeat' first
    | assumption
    | refine fun (x : State) _ (hx : Kept s0 x) => ?_
    | with_reducible first
      | apply addRuns_kept
      | apply keptOk_ok
      | exact keptOk_error _
      | apply keptOk_bind
      | apply keptOk1_ok
      | exact keptOk1_error _
      | apply keptOk1_bind
      | apply keptOk_foldlM

theorem addPairs_kept_ok {s0 u0 : State} {s : State} {c : View} {l : List (List Nat × F32)} (e0 : addPairs s c l = .ok u0) (hk : Kept s0 s) : Kept s0 u0 :=
  (addPairs_kept (c := c) (l := l) hk).ok _ e0

theorem scatterWork_kept {s0 : State} {s : State} (r : Run) (w : Walk) (hk : Kept s0 s) : Kept s0 (scatterWork s r w) := by
  unfold scatterWork
  repeat' first
    | assumption
    | (intro x; first | refine kept_cut (s0 := s0) (x := x) ?_ ?_ | (have t : Except _ _ := x; clear t; unfold x; clear x) | (have t : _ → Except _ _ := x; clear t; unfold x; clear x) | clear_value x)
    | (intro hx; clear_value x)
    | lift_lets
    | split
    | with_reducible first
      | apply bump_kept
      | apply failRead_kept
      | apply failWrite_kept
      | apply issueWrites_kept
      | apply countCopy_kept
      | apply endCopy_kept
      | refine addPairs_kept_ok (by assumption) ?_
    | with_reducible first
      | apply keptOk_ok
      | exact keptOk_error _
      | apply keptOk_bind
      | apply keptOk1_ok
      | exact keptOk1_error _
      | apply keptOk1_bind

theorem execScatterAdd_kept {s0 : State} (t i p : Nat) {s : State} (hk : Kept s0 s) : KeptOut s0 (execScatterAdd t i p s) := by
  unfold execScatterAdd
  repeat' first
    | assumption
    | refine fun (x : State) _ _ (hx : Kept s0 x) => ?_
    | with_reducible first
      | apply opCmd_kept
      | apply unitWork_kept
      | apply scatterWork_kept
      | apply keptOut_next

end Sys2Proof.Machine
end

