-- ==== Sys2Proof/Laws/EngineKept.lean ====
section
/-!
SUPPORT. What the operations of Machine/Engine.lean keep: the queue, the clock, the memories' form, the counters' 64 bits and the fuses.
-/

namespace Sys2Proof.Machine

theorem loftCopy_kept {s0 : State} {s : State} (r : Run) (w : Walk) (x : Nat × Nat) (hk : Kept s0 s) : KeptOk3 s0 (loftCopy s r w x) := by
  unfold loftCopy
  repeat' first
    | assumption
    | refine fun _ (e : _ = Except.ok _) => ?_
    | with_reducible first
      | apply bump_kept
      | refine writeCells_kept_ok (by assumption) ?_
    | with_reducible first
      | apply keptOk3_ok
      | exact keptOk3_error _
      | apply keptOk3_bind
      | apply keptOk1_ok
      | exact keptOk1_error _
      | apply keptOk1_bind

theorem loftCopy_kept_ok {s0 u0 : State} {s : State} {r : Run} {w : Walk} {x : Nat × Nat} {q0} (e0 : loftCopy s r w x = .ok (.ok (u0, q0))) (hk : Kept s0 s) : Kept s0 u0 :=
  (loftCopy_kept (r := r) (w := w) (x := x) hk).ok _ e0

theorem doLoft_kept {s0 s : State} (r : Run) (w : Walk) (hk : Kept s0 s) : Kept s0 (doLoft s r w) := by
  unfold doLoft
  split
  · exact hk
  · dsimp only
    generalize hr : ite ((w.set && w.units.isEmpty && w.filling.isEmpty) = true) _ _ = s1
    have h1 : Kept s0 s1 := by
      rw [← hr]
      split
      · exact kept_foldl _ (fun _ _ hx => reach_kept _ _ _ _ _ hx) hk
      · exact hk
    generalize hg : List.foldl _ _ _ = go
    have h : KeptOk3 s0 go := by
      rw [← hg]
      refine keptOk3_foldl _ ?_ (keptOk3_ok (keptOk1_ok h1))
      intro e x he
      split
      · rename_i t fl
        have ht : Kept s0 t := he.ok _ rfl
        split
        · rename_i u f hu
          exact keptOk3_ok (keptOk1_ok (loftCopy_kept_ok hu ht))
        · exact loftCopy_kept r w x ht
      · exact he
    split
    · exact failRead_kept _ _ _ _ h1
    · exact failWrite_kept _ _ _ h1
    · rename_i t fl
      have ht : Kept s0 t := h.ok _ rfl
      exact onWalk_kept _ _ _ _ (issueWrites_kept (logFlags_kept _ _ _ _ ht))

theorem settle_kept {s0 : State} {s : State} (t i p : Nat) (hk : Kept s0 s) : Kept s0 (settle s t i p) := by
  unfold settle
  repeat' first
    | assumption
    | split
    | with_reducible first
      | apply endWalk_kept

theorem formWalk_kept {s0 : State} {s : State} (r : Run) (w : Walk) (hk : Kept s0 s) : Kept s0 (formWalk s r w) := by
  unfold formWalk
  repeat' first
    | assumption
    | split
    | with_reducible first
      | apply bump_kept
      | apply logFlags_kept
      | apply onWalk_kept
      | apply failRead_kept
      | apply doLoft_kept
      | apply settle_kept
    | unfold x
    | with_reducible first
      | apply keptOk_ok
      | exact keptOk_error _
      | apply keptOk_bind
      | apply keptOk1_ok
      | exact keptOk1_error _
      | apply keptOk1_bind

theorem execMatmul_kept {s0 : State} (t i p : Nat) {s : State} (hk : Kept s0 s) : KeptOut s0 (execMatmul t i p s) := by
  unfold execMatmul
  repeat' first
    | assumption
    | with_reducible first
      | apply opCmd_kept
      | apply formWalk_kept
      | apply keptOut_next

theorem execMatmulS24_kept {s0 : State} (t i p : Nat) {s : State} (hk : Kept s0 s) : KeptOut s0 (execMatmulS24 t i p s) := by
  unfold execMatmulS24
  repeat' first
    | assumption
    | with_reducible first
      | apply opCmd_kept
      | apply formWalk_kept
      | apply keptOut_next

theorem execConvW_kept {s0 : State} (t i p : Nat) {s : State} (hk : Kept s0 s) : KeptOut s0 (execConvW t i p s) := by
  unfold execConvW
  repeat' first
    | assumption
    | with_reducible first
      | apply opCmd_kept
      | apply formWalk_kept
      | apply keptOut_next

theorem execBwdData_kept {s0 : State} (t i p : Nat) {s : State} (hk : Kept s0 s) : KeptOut s0 (execBwdData t i p s) := by
  unfold execBwdData
  repeat' first
    | assumption
    | with_reducible first
      | apply opCmd_kept
      | apply formWalk_kept
      | apply keptOut_next

theorem execBwdWeight_kept {s0 : State} (t i p : Nat) {s : State} (hk : Kept s0 s) : KeptOut s0 (execBwdWeight t i p s) := by
  unfold execBwdWeight
  repeat' first
    | assumption
    | with_reducible first
      | apply opCmd_kept
      | apply formWalk_kept
      | apply keptOut_next

theorem putRow_kept {s0 : State} {s : State} (core ctile row : Nat) (codes : List Nat) (hk : Kept s0 s) : Kept s0 (putRow s core ctile row codes) := by
  unfold putRow
  repeat' first
    | assumption
    | with_reducible first
      | apply cellarWrite_kept

theorem putAccs_kept {s0 : State} {s : State} (core ctile : Nat) (isInt : Bool) (rows : List Nat) (accs : List (List Acc)) (hk : Kept s0 s) : Kept s0 (putAccs s core ctile isInt rows accs) := by
  unfold putAccs
  repeat' first
    | assumption
    | refine fun (x : State) _ (hx : Kept s0 x) => ?_
    | with_reducible first
      | apply putRow_kept
      | apply kept_foldl

theorem execPreloadStart_kept {s0 : State} (t i p : Nat) {s : State} (hk : Kept s0 s) : KeptOut s0 (execPreloadStart t i p s) := by
  unfold execPreloadStart
  repeat' first
    | assumption
    | split
    | with_reducible first
      | apply bump_kept
      | apply onTile_kept
      | apply onWalk_kept
      | apply failRead_kept
      | apply reach_kept
      | apply putAccs_kept
      | apply keptOut_next
    | with_reducible first
      | apply keptOk_ok
      | exact keptOk_error _
      | apply keptOk_bind
      | apply keptOk1_ok
      | exact keptOk1_error _
      | apply keptOk1_bind
    | dsimp only

theorem countTile_kept {s0 : State} {s : State} (r : Run) (w : Walk) (j : EngineJob) (res : TileRes) (p : Pace) (slices : List Bool) (cs : List Crate) (hk : Kept s0 s) : Kept s0 (countTile s r w j res p slices cs) := by
  unfold countTile
  repeat' first
    | assumption
    | (intro x; first | refine kept_cut (s0 := s0) (x := x) ?_ ?_ | clear_value x)
    | (intro hx; clear_value x)
    | lift_lets
    | split
    | with_reducible first
      | apply bump_kept
    | unfold x

theorem execTileFirstRead_kept {s0 : State} (t i p : Nat) {s : State} (hk : Kept s0 s) : KeptOut s0 (execTileFirstRead t i p s) := by
  unfold execTileFirstRead
  repeat' first
    | assumption
    | split
    | with_reducible first
      | apply bump_kept
      | apply onCore_kept
      | apply onTile_kept
      | apply onWalk_kept
      | apply failRead_kept
      | apply reach_kept
      | apply endReads_kept
      | apply noteReaders_kept
      | apply putAccs_kept
      | apply countTile_kept
      | apply keptOut_next
    | with_reducible first
      | apply keptOk_ok
      | exact keptOk_error _
      | apply keptOk_bind
      | apply keptOk1_ok
      | exact keptOk1_error _
      | apply keptOk1_bind
    | dsimp only

theorem execCrateExpand_kept {s0 : State} (t i p op slot : Nat) {s : State} (hk : Kept s0 s) : KeptOut s0 (execCrateExpand t i p op slot s) := by
  unfold execCrateExpand
  repeat' first
    | assumption
    | split
    | with_reducible first
      | apply failRead_kept
      | apply keptOut_next
    | with_reducible first
      | apply keptOk_ok
      | exact keptOk_error _
      | apply keptOk_bind
      | apply keptOk1_ok
      | exact keptOk1_error _
      | apply keptOk1_bind
    | dsimp only

theorem execTurnedLoad_kept {s0 : State} (t i p k : Nat) {s : State} (hk : Kept s0 s) : KeptOut s0 (execTurnedLoad t i p k s) := by
  unfold execTurnedLoad
  repeat' first
    | assumption
    | split
    | with_reducible first
      | apply onCore_kept
      | apply keptOut_next
    | dsimp only

end Sys2Proof.Machine
end

