-- ==== Sys2Proof/Laws/EpilogueKept.lean ====
section
/-!
SUPPORT. What the operations of Machine/Epilogue.lean keep: the queue, the clock, the memories' form, the counters' 64 bits and the fuses.
-/

namespace Sys2Proof.Machine

theorem countEpi_kept {s0 : State} {s : State} (core op : Nat) (l : List (List Nat × Epi)) (hk : Kept s0 s) : Kept s0 (countEpi s core op l) := by
  unfold countEpi
  repeat' first
    | assumption
    | split
    | with_reducible first
      | apply bump_kept

theorem writePreact_kept {s0 : State} {s : State} (r : Run) (w : Walk) (l : List (List Nat × Epi)) (hk : Kept s0 s) : KeptOk1 s0 (writePreact s r w l) := by
  unfold writePreact
  repeat' first
    | assumption
    | refine fun _ (e : _ = Except.ok _) => ?_
    | refine fun x _ (hx : Kept s0 x.1) => ?_
    | with_reducible first
      | apply bump_kept
      | refine writeCells_kept_ok (by assumption) ?_
      | apply keptOk1_ok
      | exact keptOk1_error _
      | apply keptOk1_bind
      | apply keptOk1_ok
      | exact keptOk1_error _
      | apply keptOk1_bind
      | apply keptOk1_foldlM

theorem writePreact_kept_ok {s0 u0 : State} {s : State} {r : Run} {w : Walk} {l : List (List Nat × Epi)} {q0} (e0 : writePreact s r w l = .ok (u0, q0)) (hk : Kept s0 s) : Kept s0 u0 :=
  (writePreact_kept (r := r) (w := w) (l := l) hk).ok _ e0

theorem addStore_kept {s0 s : State} (r : Run) (w : Walk) (l : List (List Nat × Epi)) (hk : Kept s0 s) :
    KeptOk2 s0 (addStore s r w l) := by
  unfold addStore
  split
  · exact keptOk2_ok (keptOk_ok hk)
  · refine keptOk2_bind (fun old _ => keptOk2_ok (keptOk_bind (fun u e => keptOk_ok (bump_kept _ _ _ ?_))))
    exact writeCells_kept_ok (q0 := u.2) e hk

theorem addStore_kept_ok {s0 u0 s : State} {r : Run} {w : Walk} {l : List (List Nat × Epi)}
    (e0 : addStore s r w l = .ok (.ok u0)) (hk : Kept s0 s) : Kept s0 u0 :=
  (addStore_kept r w l hk).ok _ e0

theorem addStore_kept_ok2 {s0 u0 s : State} {r : Run} {w : Walk} {l : List (List Nat × Epi)} {y0}
    (e0 : addStore s r w l = .ok y0) (e2 : y0 = .ok u0) (hk : Kept s0 s) : Kept s0 u0 := by
  subst e2
  exact addStore_kept_ok e0 hk

theorem logTile_kept {s0 : State} {s : State} (r : Run) (w : Walk) (tile : Nat) (word : BitVec 32) (hk : Kept s0 s) : Kept s0 (logTile s r w tile word) := by
  unfold logTile
  repeat' first
    | assumption
    | split
    | with_reducible first
      | apply bump_kept
      | apply appendLog_kept

theorem writeRaw_kept {s0 : State} {s : State} (r : Run) (w : Walk) (l : List (List Nat × Epi)) (hk : Kept s0 s) : KeptOk1 s0 (writeRaw s r w l) := by
  unfold writeRaw
  repeat' first
    | assumption
    | refine fun _ (e : _ = Except.ok _) => ?_
    | with_reducible first
      | refine writeCells_kept_ok (by assumption) ?_
    | with_reducible first
      | apply keptOk1_ok
      | exact keptOk1_error _
      | apply keptOk1_bind
      | apply keptOk1_ok
      | exact keptOk1_error _
      | apply keptOk1_bind

theorem writeRaw_kept_ok {s0 u0 : State} {s : State} {r : Run} {w : Walk} {l : List (List Nat × Epi)} {q0} (e0 : writeRaw s r w l = .ok (u0, q0)) (hk : Kept s0 s) : Kept s0 u0 :=
  (writeRaw_kept (r := r) (w := w) (l := l) hk).ok _ e0

theorem addPartials_kept {s0 : State} {s : State} (r : Run) (w : Walk) (l : List (List Nat × Epi)) (hk : Kept s0 s) : KeptOk s0 (addPartials s r w l) := by
  unfold addPartials
  repeat' first
    | assumption
    | refine fun _ (e : _ = Except.ok _) => ?_
    | with_reducible first
      | apply bump_kept
      | refine addPairs_kept_ok (by assumption) ?_
    | with_reducible first
      | apply keptOk_ok
      | exact keptOk_error _
      | apply keptOk_bind
      | apply keptOk1_ok
      | exact keptOk1_error _
      | apply keptOk1_bind

theorem addPartials_kept_ok {s0 u0 : State} {s : State} {r : Run} {w : Walk} {l : List (List Nat × Epi)} (e0 : addPartials s r w l = .ok u0) (hk : Kept s0 s) : Kept s0 u0 :=
  (addPartials_kept (r := r) (w := w) (l := l) hk).ok _ e0

theorem releaseTile_kept {s0 : State} {s : State} (w : Walk) (k : Nat) (crated : Bool) (hk : Kept s0 s) : Kept s0 (releaseTile s w k crated) := by
  unfold releaseTile
  repeat' first
    | assumption
    | with_reducible first
      | apply bump_kept
      | apply onCore_kept
      | apply onTile_kept

theorem afterDrain_kept {s0 : State} {s : State} (r : Run) (w : Walk) (k : Nat) (hk : Kept s0 s) : Kept s0 (afterDrain s r w k) := by
  unfold afterDrain
  repeat' first
    | (intro x; first | refine kept_cut (s0 := s0) (x := x) ?_ ?_ | clear_value x)
    | (intro hx; clear_value x)
    | lift_lets
    | split
    | with_reducible first
      | apply onWalk_kept
      | apply endReads_kept
      | apply issueWrites_kept
      | apply settle_kept
      | apply releaseTile_kept
      | refine kept_mk (by assumption) id (Nat.le_refl _) (fun _ w => w) rfl rfl
    | unfold x

theorem drainTile_kept {s0 : State} {s : State} (r : Run) (w : Walk) (item : Nat) (t : CTile) (l : List (List Nat × Epi)) (hk : Kept s0 s) : KeptOk2 s0 (drainTile s r w item t l) := by
  unfold drainTile
  repeat' first
    | assumption
    | refine fun _ (e : _ = Except.ok _) => ?_
    | (intro x; first | refine kept_cut (s0 := s0) (x := x) ?_ ?_ | (have t : Except _ _ := x; clear t; unfold x; clear x) | (have t : _ → Except _ _ := x; clear t; unfold x; clear x) | clear_value x)
    | (intro hx; clear_value x)
    | lift_lets
    | split
    | with_reducible first
      | apply onWalk_kept
      | apply countEpi_kept
      | refine writePreact_kept_ok (by assumption) ?_
      | refine addStore_kept_ok2 (by assumption) (by assumption) ?_
      | apply logTile_kept
      | refine writeRaw_kept_ok (by assumption) ?_
      | refine addPartials_kept_ok (by assumption) ?_
    | with_reducible first
      | apply keptOk2_ok
      | exact keptOk2_error _
      | apply keptOk2_bind
      | apply keptOk_ok
      | apply keptOk_bind
      | apply keptOk1_ok
      | exact keptOk1_error _
      | apply keptOk1_bind

theorem drainTile_kept_ok {s0 u0 : State} {s : State} {r : Run} {w : Walk} {item : Nat} {t : CTile} {l : List (List Nat × Epi)} (e0 : drainTile s r w item t l = .ok (.ok u0)) (hk : Kept s0 s) : Kept s0 u0 :=
  (drainTile_kept (r := r) (w := w) (item := item) (t := t) (l := l) hk).ok _ e0

theorem drainTile_kept_ok2 {s0 u0 : State} {s : State} {r : Run} {w : Walk} {item : Nat} {t : CTile} {l : List (List Nat × Epi)} {y0} (e0 : drainTile s r w item t l = .ok y0) (e2 : y0 = .ok u0) (hk : Kept s0 s) : Kept s0 u0 := by
  subst e2
  exact drainTile_kept_ok e0 hk

theorem execTileDrain_kept {s0 : State} (t i p : Nat) {s : State} (hk : Kept s0 s) : KeptOut s0 (execTileDrain t i p s) := by
  unfold execTileDrain
  repeat' first
    | assumption
    | refine fun _ (e : _ = Except.ok _) => ?_
    | split
    | with_reducible first
      | apply bump_kept
      | apply failRead_kept
      | apply noteBad_kept
      | apply failWrite_kept
      | apply reach_kept
      | apply produce_kept
      | apply afterDrain_kept
      | apply drainTile_kept
      | apply keptOut_next
    | with_reducible first
      | apply keptOk_ok
      | exact keptOk_error _
      | apply keptOk_bind
      | apply keptOk1_ok
      | exact keptOk1_error _
      | apply keptOk1_bind
      | apply keptOk2_bind
      | refine keptOk2_get (by assumption) ?_
    | dsimp only

theorem execOutputCompressor_kept {s0 : State} (t i p : Nat) {s : State} (hk : Kept s0 s) : KeptOut s0 (execOutputCompressor t i p s) := by
  unfold execOutputCompressor
  dsimp only
  repeat' first
    | split
    | with_reducible first
      | refine writeCrate_kept_ok (by assumption) ?_
      | apply keptOut_next
    | (with_reducible refine kept_mk ?_ id (Nat.le_refl _) (fun _ w => w) rfl rfl; first | assumption | with_reducible apply bump_kept | with_reducible apply onCore_kept | with_reducible apply onWalk_kept | with_reducible apply failWrite_kept | with_reducible apply produce_kept | with_reducible apply issueWrites_kept | with_reducible apply writeCrate_kept | with_reducible apply settle_kept | with_reducible apply logTile_kept)
    | with_reducible first
      | apply keptOk_ok
      | exact keptOk_error _
      | apply keptOk_bind
      | apply keptOk1_ok
      | exact keptOk1_error _
      | apply keptOk1_bind

end Sys2Proof.Machine
end

