-- ==== Sys2Proof/Laws/RowsKept.lean ====
section
/-!
SUPPORT. What the operations of Machine/Rows.lean keep: the queue, the clock, the memories' form, the counters' 64 bits and the fuses.
-/

namespace Sys2Proof.Machine

theorem writeStats_kept {s0 : State} {s : State} (r : Run) (w : Walk) (row : Nat) (a b : Val) (hk : Kept s0 s) : KeptOk s0 (writeStats s r w row a b) := by
  unfold writeStats
  repeat' first
    | assumption
    | refine fun _ (e : _ = Except.ok _) => ?_
    | (intro x; first | refine kept_cut (s0 := s0) (x := x) ?_ ?_ | (have t : Except _ _ := x; clear t; unfold x; clear x) | (have t : _ → Except _ _ := x; clear t; unfold x; clear x) | clear_value x)
    | lift_lets
    | split
    | with_reducible first
      | apply onCore_kept
      | apply sideWrite_kept
      | refine writeCells_kept_ok (by assumption) ?_
    | with_reducible first
      | apply keptOk_ok
      | exact keptOk_error _
      | apply keptOk_bind
      | apply keptOk1_ok
      | exact keptOk1_error _
      | apply keptOk1_bind

theorem writeStats_kept_ok {s0 u0 : State} {s : State} {r : Run} {w : Walk} {row : Nat} {a b : Val} (e0 : writeStats s r w row a b = .ok u0) (hk : Kept s0 s) : Kept s0 u0 :=
  (writeStats_kept (r := r) (w := w) (row := row) (a := a) (b := b) hk).ok _ e0

theorem writeRow_kept {s0 : State} {s : State} (r : Run) (w : Walk) (row : Nat) (y : List Val) (bad : Bool) (hk : Kept s0 s) : KeptOk1 s0 (writeRow s r w row y bad) := by
  unfold writeRow
  repeat' first
    | assumption
    | refine fun _ (e : _ = Except.ok _) => ?_
    | refine fun (x : State) _ (hx : Kept s0 x) => ?_
    | refine fun x _ (hx : Kept s0 x.1) => ?_
    | with_reducible first
      | apply bump_kept
      | refine writeCells_kept_ok (by assumption) ?_
      | apply keptOk1_ok
      | exact keptOk1_error _
      | apply keptOk1_bind
      | apply keptOk_ok
      | apply keptOk_bind
      | apply keptOk1_ok
      | exact keptOk1_error _
      | apply keptOk1_bind
      | apply keptOk_foldlM
      | apply keptOk1_foldlM
    | with_reducible first
      | refine keptOk_get (by assumption) ?_
      | refine keptOk1_get (by assumption) ?_

theorem writeRow_kept_ok {s0 u0 : State} {s : State} {r : Run} {w : Walk} {row : Nat} {y : List Val} {bad : Bool} {q0} (e0 : writeRow s r w row y bad = .ok (u0, q0)) (hk : Kept s0 s) : Kept s0 u0 :=
  (writeRow_kept (r := r) (w := w) (row := row) (y := y) (bad := bad) hk).ok _ e0

theorem endRows_kept {s0 : State} {s : State} (r : Run) (w : Walk) (flags : Nat) (hk : Kept s0 s) : Kept s0 (endRows s r w flags) := by
  unfold endRows
  repeat' first
    | assumption
    | with_reducible first
      | apply logFlags_kept
      | apply issueWrites_kept
      | apply endUnit_kept

theorem rowWork_kept {s0 s : State} (r : Run) (w : Walk) (hk : Kept s0 s) : Kept s0 (rowWork s r w) := by
  unfold rowWork
  dsimp only
  split
  · exact failRead_kept _ _ _ _ hk
  · rename_i rows _
    generalize hg : List.foldl _ _ _ = go
    have h : KeptOk3 s0 go := by
      rw [← hg]
      refine keptOk3_foldl _ ?_ (keptOk3_ok (keptOk1_ok hk))
      intro e x he
      split
      · rename_i t fl
        have ht : Kept s0 t := he.ok _ rfl
        split
        · rename_i u f hu
          exact keptOk3_ok (keptOk1_ok (loftCopy_kept_ok hu ht))
        · exact loftCopy_kept r w x ht
      · exact he
    split
    · exact failRead_kept _ _ _ _ hk
    · exact failWrite_kept _ _ _ hk
    · rename_i t fl
      have ht : Kept s0 t := h.ok _ rfl
      split
      · exact failWrite_kept _ _ _ ht
      · rename_i u fl2 hu
        refine endRows_kept _ _ _ (bump_kept _ _ _ (keptOk1_get hu ?_))
        refine keptOk1_foldlM _ (fun a x ha => ?_) ht
        obtain ⟨v, y, p, q, bad⟩ := x
        refine keptOk1_bind (fun z hz => ?_)
        obtain ⟨z, f⟩ := z
        have hw : Kept s0 z := writeRow_kept_ok hz ha
        dsimp only
        split
        · refine keptOk1_bind (fun b hb => keptOk1_ok ?_)
          exact writeStats_kept_ok hb hw
        · refine keptOk1_bind (fun b hb => keptOk1_ok ?_)
          cases hb
          exact hw

theorem writeSeg_kept {s0 : State} {s : State} (r : Run) (w : Walk) (g : Seg64) (hk : Kept s0 s) : KeptOk s0 (writeSeg s r w g) := by
  unfold writeSeg
  repeat' first
    | assumption
    | refine fun _ (e : _ = Except.ok _) => ?_
    | (intro x; first | refine kept_cut (s0 := s0) (x := x) ?_ ?_ | (have t : Except _ _ := x; clear t; unfold x; clear x) | (have t : _ → Except _ _ := x; clear t; unfold x; clear x) | clear_value x)
    | lift_lets
    | split
    | with_reducible first
      | apply bump_kept
      | apply onRun_kept
      | refine writeCells_kept_ok (by assumption) ?_
    | with_reducible first
      | apply keptOk_ok
      | exact keptOk_error _
      | apply keptOk_bind
      | apply keptOk1_ok
      | exact keptOk1_error _
      | apply keptOk1_bind
      | refine keptOk1_get (by assumption) ?_

theorem writeSeg_kept_ok {s0 u0 : State} {s : State} {r : Run} {w : Walk} {g : Seg64} (e0 : writeSeg s r w g = .ok u0) (hk : Kept s0 s) : Kept s0 u0 :=
  (writeSeg_kept (r := r) (w := w) (g := g) hk).ok _ e0

theorem updateRows_kept {s0 : State} {s : State} (r : Run) (w : Walk) (rows : List Nat) (hk : Kept s0 s) : KeptOk2 s0 (updateRows s r w rows) := by
  unfold updateRows
  repeat' first
    | assumption
    | refine fun _ (e : _ = Except.ok _) => ?_
    | refine fun (x : State) _ (hx : Kept s0 x) => ?_
    | with_reducible first
      | apply writeSeg_kept
      | apply keptOk2_ok
      | exact keptOk2_error _
      | apply keptOk2_bind
      | apply keptOk1_ok
      | exact keptOk1_error _
      | apply keptOk1_bind
      | apply keptOk_foldlM

theorem updateRows_kept_ok {s0 u0 : State} {s : State} {r : Run} {w : Walk} {rows : List Nat} (e0 : updateRows s r w rows = .ok (.ok u0)) (hk : Kept s0 s) : Kept s0 u0 :=
  (updateRows_kept (r := r) (w := w) (rows := rows) hk).ok _ e0

theorem updateRows_kept_ok2 {s0 u0 : State} {s : State} {r : Run} {w : Walk} {rows : List Nat} {y0} (e0 : updateRows s r w rows = .ok y0) (e2 : y0 = .ok u0) (hk : Kept s0 s) : Kept s0 u0 := by
  subst e2
  exact updateRows_kept_ok e0 hk

theorem updateWork_kept {s0 : State} {s : State} (r : Run) (w : Walk) (hk : Kept s0 s) : Kept s0 (updateWork s r w) := by
  unfold updateWork
  repeat' first
    | assumption
    | refine fun _ (e : _ = Except.ok _) => ?_
    | (intro x; first | refine kept_cut (s0 := s0) (x := x) ?_ ?_ | (have t : Except _ _ := x; clear t; unfold x; clear x) | (have t : _ → Except _ _ := x; clear t; unfold x; clear x) | clear_value x)
    | lift_lets
    | split
    | with_reducible first
      | apply failRead_kept
      | apply failWrite_kept
      | apply endRows_kept
      | apply updateRows_kept
    | with_reducible first
      | apply keptOk_ok
      | exact keptOk_error _
      | apply keptOk_bind
      | apply keptOk1_ok
      | exact keptOk1_error _
      | apply keptOk1_bind
      | apply keptOk2_bind
      | refine keptOk2_get (by assumption) ?_

theorem formChain_kept {s0 : State} {s : State} (r : Run) (w : Walk) (j : Nat) (hk : Kept s0 s) : Kept s0 (formChain s r w j) := by
  unfold formChain
  repeat' first
    | assumption
    | split
    | with_reducible first
      | apply onWalk_kept
      | apply endWalk_kept
      | apply settle_kept

theorem execRowop_kept {s0 : State} (t i p : Nat) {s : State} (hk : Kept s0 s) : KeptOut s0 (execRowop t i p s) := by
  unfold execRowop
  repeat' first
    | assumption
    | refine fun (x : State) _ _ (hx : Kept s0 x) => ?_
    | split
    | with_reducible first
      | apply opCmd_kept
      | apply unitWork_kept
      | apply rowWork_kept
      | apply updateWork_kept
      | apply formChain_kept
      | apply keptOut_next

theorem execRowopBwd_kept {s0 : State} (t i p : Nat) {s : State} (hk : Kept s0 s) : KeptOut s0 (execRowopBwd t i p s) := by
  unfold execRowopBwd
  repeat' first
    | assumption
    | refine fun (x : State) _ _ (hx : Kept s0 x) => ?_
    | with_reducible first
      | apply opCmd_kept
      | apply unitWork_kept
      | apply rowWork_kept
      | apply keptOut_next

theorem execUpdateSlice_kept {s0 : State} (t i p : Nat) {s : State} (hk : Kept s0 s) : KeptOut s0 (execUpdateSlice t i p s) := by
  unfold execUpdateSlice
  repeat' first
    | assumption
    | refine fun (x : State) _ _ (hx : Kept s0 x) => ?_
    | split
    | with_reducible first
      | apply onWalk_kept
      | apply failRead_kept
      | apply failWrite_kept
      | apply reach_kept
      | apply produce_kept
      | apply opCmd_kept
      | apply issueWrites_kept
      | apply settle_kept
      | refine updateRows_kept_ok (by assumption) ?_
      | apply keptOk_ok
      | exact keptOk_error _
      | apply keptOk_bind
      | apply keptOk1_ok
      | exact keptOk1_error _
      | apply keptOk1_bind
      | apply keptOut_next
    | dsimp only

end Sys2Proof.Machine
end

