-- ==== Sys2Proof/Laws/ReducerKept.lean ====
section
/-!
SUPPORT. What the operations of Machine/Reducer.lean keep: the queue, the clock, the memories' form, the counters' 64 bits and the fuses.
-/

namespace Sys2Proof.Machine

theorem onPush_kept {s0 : State} {s : State} (key node : Nat) (f : Push → Push) (hk : Kept s0 s) : Kept s0 (onPush s key node f) := by
  unfold onPush
  repeat' first
    | with_reducible first
      | refine kept_mk (by assumption) id (Nat.le_refl _) (fun _ w => w) rfl rfl

theorem sendStatus_kept {s0 : State} {s : State} (dest key node n : Nat) (hk : Kept s0 s) : Kept s0 (sendStatus s dest key node n) := by
  unfold sendStatus
  repeat' first
    | assumption
    | with_reducible first
      | apply sendTransfer_kept1

theorem settleNode_kept {s0 : State} (f : Nat) {s : State} (key node : Nat) (hk : Kept s0 s) :
    Kept s0 (settleNode f s key node) := by
  induction f generalizing s node with
  | zero => exact hk
  | succ f ih =>
    unfold settleNode
    split
    · exact hk
    · split
      · dsimp only
        split
        · exact onPush_kept _ _ _ hk
        · split
          · exact onPush_kept _ _ _ hk
          · split
            · exact ih _ (onPush_kept _ _ _ (onPush_kept _ _ _ hk))
            · exact sendTransfer_kept1 _ _ _ (onPush_kept _ _ _ hk)
      · exact hk

theorem settleAll_kept {s0 : State} {s : State} (key : Nat) (hk : Kept s0 s) : Kept s0 (settleAll s key) := by
  unfold settleAll
  repeat' first
    | assumption
    | refine fun (x : State) _ (hx : Kept s0 x) => ?_
    | with_reducible first
      | apply settleNode_kept
      | apply kept_foldl

theorem addNodes_kept {s0 : State} {s : State} (key : Nat) (gone : List Nat) (hk : Kept s0 s) : Kept s0 (addNodes s key gone) := by
  unfold addNodes
  repeat' first
    | with_reducible first
      | refine kept_mk (by assumption) id (Nat.le_refl _) (fun _ w => w) rfl rfl

theorem ensurePush_kept {s0 : State} {s : State} (key : Nat) (hk : Kept s0 s) : Kept s0 (ensurePush s key) := by
  unfold ensurePush
  repeat' first
    | assumption
    | split
    | with_reducible first
      | apply bump_kept
      | apply settleAll_kept
      | apply addNodes_kept

theorem zeroSlice_kept {s0 : State} {s : State} (v : View) (k : Nat) (hk : Kept s0 s) : Kept s0 (zeroSlice s v k) := by
  unfold zeroSlice
  repeat' first
    | assumption
    | with_reducible first
      | apply queueWrites_kept
      | apply issueWrites_kept

theorem writeC_kept {s0 : State} {s : State} (r : Run) (mi k off : Nat) (vals : List F32) (hk : Kept s0 s) : KeptOk s0 (writeC s r mi k off vals) := by
  unfold writeC
  repeat' first
    | assumption
    | (intro x; first | refine kept_cut (s0 := s0) (x := x) ?_ ?_ | (have t : Except _ _ := x; clear t; unfold x; clear x) | (have t : _ → Except _ _ := x; clear t; unfold x; clear x) | clear_value x)
    | lift_lets
    | split
    | with_reducible first
      | apply queueWrites_kept
      | apply writeElems_kept
      | apply issueWrites_kept
    | with_reducible first
      | apply keptOk_ok
      | exact keptOk_error _
      | apply keptOk_bind
      | apply keptOk1_ok
      | exact keptOk1_error _
      | apply keptOk1_bind

theorem writeC_kept_ok {s0 u0 : State} {s : State} {r : Run} {mi k off : Nat} {vals : List F32} (e0 : writeC s r mi k off vals = .ok u0) (hk : Kept s0 s) : Kept s0 u0 :=
  (writeC_kept (r := r) (mi := mi) (k := k) (off := off) (vals := vals) hk).ok _ e0

theorem notePush_kept {s0 : State} {s : State} (key : Nat) (hk : Kept s0 s) : Kept s0 (notePush s key) := by
  unfold notePush
  repeat' first
    | assumption
    | split
    | with_reducible first
      | apply onTensor_kept

theorem noteWritten_kept {s0 : State} {s : State} (p : Push) (k : Nat) (vals : List F32) (hk : Kept s0 s) : Kept s0 (noteWritten s p k vals) := by
  unfold noteWritten
  repeat' first
    | assumption
    | with_reducible first
      | apply onTensor_kept
      | apply onPush_kept

theorem sendSlice_kept {s0 : State} {s : State} (op dest key node slice count : Nat) (vals : List F32) (hk : Kept s0 s) : Kept s0 (sendSlice s op dest key node slice count vals) := by
  unfold sendSlice
  repeat' first
    | assumption
    | refine fun (x : State) _ (hx : Kept s0 x) => ?_
    | with_reducible first
      | apply sendTransfer_kept1
      | apply kept_foldl

theorem takePiece_kept {s0 : State} {s : State} (node side : Nat) (h : Hdr) (d : List Byte) (hk : Kept s0 s) : KeptP s0 (takePiece s node side h d) := by
  unfold takePiece
  repeat' first
    | assumption
    | split
    | with_reducible first
      | apply onPush_kept
      | apply keptP_mk

theorem takePiece_kept1 {s0 : State} {s : State} (node side : Nat) (h : Hdr) (d : List Byte) (hk : Kept s0 s) : Kept s0 (takePiece s node side h d).1 :=
  takePiece_kept (node := node) (side := side) (h := h) (d := d) hk

theorem takePiece_kept_eq {s0 u0 : State} {s : State} {node side : Nat} {h : Hdr} {d : List Byte} {q0} (e0 : takePiece s node side h d = (u0, q0)) (hk : Kept s0 s) : Kept s0 u0 := by
  have := takePiece_kept1 (node := node) (side := side) (h := h) (d := d) hk
  rw [e0] at this
  exact this

theorem passResult_kept {s0 : State} (f : Nat) {s : State} (key node k c : Nat) (vals : List F32) (hk : Kept s0 s) :
    Kept s0 (passResult f s key node k c vals) := by
  induction f generalizing s node with
  | zero => exact hk
  | succ f ih =>
    unfold passResult
    split
    · exact hk
    · rename_i p _
      extract_lets s1 s2
      have h1 : Kept s0 s1 := onPush_kept _ _ _ hk
      have h2 : Kept s0 s2 := by
        unfold s2
        split
        · split
          · split
            · exact failWrite_kept _ _ _ h1
            · rename_i ht
              exact noteWritten_kept _ _ _ (writeC_kept_ok ht h1)
          · exact h1
        · exact h1
      refine kept_foldl _ (fun x ch hx => ?_) h2
      split
      · exact hx
      · split
        · exact ih _ hx
        · exact sendSlice_kept _ _ _ _ _ _ _ hx

theorem ackNode_kept {s0 : State} (f : Nat) {s : State} (key node k : Nat) (hk : Kept s0 s) :
    Kept s0 (ackNode f s key node k) := by
  induction f generalizing s node with
  | zero => exact hk
  | succ f ih =>
    unfold ackNode
    dsimp only
    split
    · exact hk
    · split
      · exact kept_foldl _ (fun x c hx => ih _ hx) (onPush_kept _ _ _ hk)
      · exact sendTransfer_kept1 _ _ _ hk

theorem ackKids_kept {s0 : State} {s : State} (key node k : Nat) (hk : Kept s0 s) : Kept s0 (ackKids s key node k) := by
  unfold ackKids
  repeat' first
    | assumption
    | refine fun (x : State) _ (hx : Kept s0 x) => ?_
    | with_reducible first
      | apply ackNode_kept
      | apply kept_foldl

theorem takePart_kept {s0 : State} {s : State} (key child k c : Nat) (vals : List F32) (hk : Kept s0 s) : Kept s0 (takePart s key child k c vals) := by
  unfold takePart
  repeat' first
    | assumption
    | (intro x; first | refine kept_cut (s0 := s0) (x := x) ?_ ?_ | clear_value x)
    | lift_lets
    | split
    | with_reducible first
      | apply bump_kept
      | apply onPush_kept
      | apply ackNode_kept

theorem sendPart_kept {s0 : State} {s : State} (p : Push) (k c : Nat) (vals : List F32) (hk : Kept s0 s) : Kept s0 (sendPart s p k c vals) := by
  unfold sendPart
  repeat' first
    | assumption
    | split
    | with_reducible first
      | apply sendSlice_kept
      | apply takePart_kept

theorem reachSlice_kept {s0 : State} {s : State} (p : Push) (k : Nat) (hk : Kept s0 s) : Kept s0 (reachSlice s p k) := by
  unfold reachSlice
  repeat' first
    | assumption
    | split
    | with_reducible first
      | apply reach_kept

theorem takeOwn_kept {s0 : State} {s : State} (p : Push) (k : Nat) (hk : Kept s0 s) : Kept s0 (takeOwn s p k) := by
  unfold takeOwn
  repeat' first
    | assumption
    | (intro x; first | refine kept_cut (s0 := s0) (x := x) ?_ ?_ | clear_value x)
    | (intro hx; clear_value x)
    | lift_lets
    | split
    | with_reducible first
      | apply onPush_kept
      | apply zeroSlice_kept

theorem passPartial_kept {s0 : State} {s : State} (p : Push) (k c : Nat) (sum : List F32) (hk : Kept s0 s) : Kept s0 (passPartial s p k c sum) := by
  unfold passPartial
  repeat' first
    | assumption
    | split
    | with_reducible first
      | apply notePush_kept
      | apply passResult_kept
      | apply ackKids_kept
      | apply sendPart_kept

theorem combine_kept {s0 : State} {s : State} (p : Push) (k : Nat) (hk : Kept s0 s) : Kept s0 (combine s p k) := by
  unfold combine
  repeat' first
    | assumption
    | (intro x; first | refine kept_cut (s0 := s0) (x := x) ?_ ?_ | (have t : _ → State := x; clear t; unfold x; clear x) | (have t : State → _ := x; clear t; unfold x; clear x) | clear_value x)
    | (intro hx; clear_value x)
    | lift_lets
    | split
    | with_reducible first
      | apply bump_kept
      | apply failRead_kept
      | apply onPush_kept
      | apply reachSlice_kept
      | apply takeOwn_kept
      | apply passPartial_kept
    | unfold x
    | with_reducible first
      | apply keptOk_ok
      | exact keptOk_error _
      | apply keptOk_bind
      | apply keptOk1_ok
      | exact keptOk1_error _
      | apply keptOk1_bind

theorem execReducerCombine_kept {s0 : State} (key node slice : Nat) {s : State} (hk : Kept s0 s) : KeptOut s0 (execReducerCombine key node slice s) := by
  unfold execReducerCombine
  repeat' first
    | assumption
    | split
    | with_reducible first
      | apply combine_kept
      | apply keptOut_next

theorem execRedStatus_kept {s0 : State} (h : Hdr) (d : List Byte) {s : State} (hk : Kept s0 s) : KeptOut s0 (execRedStatus h d s) := by
  unfold execRedStatus
  repeat' first
    | assumption
    | refine fun (x : State) (hx : Kept s0 x) => ?_
    | (intro x; first | refine kept_cut (s0 := s0) (x := x) ?_ ?_ | clear_value x)
    | (intro hx; clear_value x)
    | lift_lets
    | split
    | with_reducible first
      | apply bump_kept
      | apply servedIn_kept
      | apply onPush_kept
      | apply settleNode_kept
      | apply ensurePush_kept
      | apply keptOut_next

theorem execRedPart_kept {s0 : State} (h : Hdr) (address count : Nat) (d : List Byte) {s : State} (hk : Kept s0 s) :
    KeptOut s0 (execRedPart h address count d s) := by
  unfold execRedPart
  repeat' first
    | assumption
    | refine fun (x : State) (hx : Kept s0 x) => ?_
    | (intro x; first | refine kept_cut (s0 := s0) (x := x) ?_ ?_ | clear_value x)
    | (intro hx; clear_value x)
    | lift_lets
    | split
    | with_reducible first
      | apply servedIn_kept
      | apply ensurePush_kept
      | refine takePiece_kept_eq (by assumption) ?_
      | apply takePart_kept
      | apply keptOut_next

theorem execRedResult_kept {s0 : State} (h : Hdr) (address count : Nat) (d : List Byte) {s : State} (hk : Kept s0 s) :
    KeptOut s0 (execRedResult h address count d s) := by
  unfold execRedResult
  repeat' first
    | assumption
    | refine fun (x : State) (hx : Kept s0 x) => ?_
    | (intro x; first | refine kept_cut (s0 := s0) (x := x) ?_ ?_ | clear_value x)
    | (intro hx; clear_value x)
    | lift_lets
    | split
    | with_reducible first
      | apply servedIn_kept
      | apply ensurePush_kept
      | apply notePush_kept
      | refine takePiece_kept_eq (by assumption) ?_
      | apply passResult_kept
      | apply keptOut_next

theorem ackedPart_kept {s0 : State} {s : State} (h : Hdr) (hk : Kept s0 s) : Kept s0 (ackedPart s h) := by
  unfold ackedPart
  repeat' first
    | assumption
    | with_reducible first
      | apply ackNode_kept

theorem takeLate_kept {s0 : State} (key rank : Nat) {s : State} (hk : Kept s0 s) : Kept s0 (takeLate key rank s) := by
  unfold takeLate
  repeat' first
    | assumption
    | with_reducible first
      | apply onPush_kept
      | apply ensurePush_kept
      | apply notePush_kept

theorem setLate_kept {s0 : State} {s : State} (key d : Nat) (hk : Kept s0 s) : Kept s0 (setLate s key d) := by
  unfold setLate
  repeat' first
    | assumption
    | with_reducible first
      | apply mgmtAll_kept
      | apply onPush_kept
      | apply settleNode_kept

theorem askReads_kept {s0 s : State} (p : Push) (rank k bytes : Nat) (hk : Kept s0 s) :
    KeptP s0 (askReads s p rank k bytes) := by
  refine kept_foldl1 _ ?_ hk
  intro x i hx
  exact keptP_mk (sendTransfer_kept1 _ _ _ (kept_mk hx id (Nat.le_refl _) (fun _ w => w) rfl rfl))

theorem askSlice_kept {s0 : State} (l : List Nat) {s : State} (p : Push) (k : Nat) (hk : Kept s0 s) :
    Kept s0 (askSlice l s p k) := by
  induction l generalizing s with
  | nil => exact failMacro_kept _ _ _ hk
  | cons a rest ih =>
    unfold askSlice
    have h : Kept s0 (askReads s p a k (4 * (sliceElems ((storeView s p).getD {}) k).length)).1 := askReads_kept _ _ _ _ hk
    dsimp only
    split
    · exact onPush_kept _ _ _ h
    · exact ih h

theorem readSlice_kept {s0 s : State} {h : Hdr} {x : State × Option (List Byte)} (e : readSlice s h = some x)
    (hk : Kept s0 s) : Kept s0 x.1 := by
  unfold readSlice at e
  dsimp only at e
  split at e
  · cases e
  · split at e
    · cases e
      exact hk
    · cases e
      exact kept_foldl _ (fun y b hy => countRead_kept _ _ hy) hk

theorem gotSlice_kept {s0 : State} {s : State} (h : Hdr) (d : List Byte) (hk : Kept s0 s) : KeptM s0 (gotSlice s h d) := by
  unfold gotSlice
  repeat' first
    | assumption
    | split
    | with_reducible first
      | apply failWrite_kept
      | apply onPush_kept
      | refine writeC_kept_ok (by assumption) ?_
      | apply noteWritten_kept
      | apply askSlice_kept
      | apply keptM_some
      | exact keptM_none
    | with_reducible first
      | apply keptOk_ok
      | exact keptOk_error _
      | apply keptOk_bind
      | apply keptOk1_ok
      | exact keptOk1_error _
      | apply keptOk1_bind
    | dsimp only

theorem gotSlice_kept_eq {s0 u0 : State} {s : State} {h : Hdr} {d : List Byte}  (e0 : gotSlice s h d = some u0) (hk : Kept s0 s) : Kept s0 u0 :=
  (gotSlice_kept (h := h) (d := d)  hk).some _ e0

theorem execPushDeadline_kept {s0 : State} (key : Nat) {s : State} (hk : Kept s0 s) : KeptOut s0 (execPushDeadline key s) := by
  unfold execPushDeadline
  repeat' first
    | assumption
    | (intro hx; clear_value x)
    | lift_lets
    | split
    | with_reducible first
      | apply ensurePush_kept
      | apply setLate_kept
      | apply keptOut_next

theorem startPush_kept {s0 : State} {s : State} (r : Run) (w : Walk) (key : Nat) (p : Push) (d : Nat) (late : Bool) (hk : Kept s0 s) : Kept s0 (startPush s r w key p d late) := by
  unfold startPush
  repeat' first
    | assumption
    | refine fun (x : State) _ (hx : Kept s0 x) => ?_
    | split
    | with_reducible first
      | apply bump_kept
      | apply onTensor_kept
      | apply onPush_kept
      | apply settleNode_kept
      | apply zeroSlice_kept
      | apply notePush_kept
      | apply setLate_kept
      | apply askSlice_kept
      | apply kept_foldl
    | unfold x

theorem nextPush_kept {s0 : State} {s : State} (r : Run) (w : Walk) (key : Nat) (hk : Kept s0 s) : Kept s0 (nextPush s r w key) := by
  unfold nextPush
  repeat' first
    | (intro x; first | refine kept_cut (s0 := s0) (x := x) ?_ ?_ | (have t : _ → State := x; clear t; unfold x; clear x) | (have t : State → _ := x; clear t; unfold x; clear x) | clear_value x)
    | (intro hx; clear_value x)
    | lift_lets
    | with_reducible first
      | apply ensurePush_kept
      | refine kept_mk (by assumption) id (Nat.le_refl _) (fun _ w => w) rfl rfl

theorem beginPush_kept {s0 : State} {s : State} (r : Run) (w : Walk) (hk : Kept s0 s) : Kept s0 (beginPush s r w) := by
  unfold beginPush
  repeat' first
    | assumption
    | (intro x; first | refine kept_cut (s0 := s0) (x := x) ?_ ?_ | clear_value x)
    | (intro hx; clear_value x)
    | lift_lets
    | split
    | with_reducible first
      | apply startPush_kept
      | apply nextPush_kept

theorem reachPush_kept {s0 : State} {s : State} (r : Run) (w : Walk) (hk : Kept s0 s) : Kept s0 (reachPush s r w) := by
  unfold reachPush
  repeat' first
    | assumption
    | (intro x; first | refine kept_cut (s0 := s0) (x := x) ?_ ?_ | clear_value x)
    | lift_lets
    | split
    | with_reducible first
      | apply onTensor_kept
      | apply beginPush_kept

theorem execGradPush_kept {s0 : State} (t i p : Nat) {s : State} (hk : Kept s0 s) : KeptOut s0 (execGradPush t i p s) := by
  unfold execGradPush
  repeat' first
    | assumption
    | refine fun (x : State) _ _ (hx : Kept s0 x) => ?_
    | (intro x; first | refine kept_cut (s0 := s0) (x := x) ?_ ?_ | clear_value x)
    | (intro hx; clear_value x)
    | lift_lets
    | split
    | with_reducible first
      | apply onWalk_kept
      | apply endWalk_kept
      | apply opCmd_kept
      | apply reachPush_kept
      | apply keptOut_next
    | unfold x

theorem execPushComplete_kept {s0 : State} (key : Nat) {s : State} (hk : Kept s0 s) : KeptOut s0 (execPushComplete key s) := by
  unfold execPushComplete
  repeat' first
    | assumption
    | refine fun (x : State) _ (hx : Kept s0 x) => ?_
    | split
    | with_reducible first
      | apply endWalk_kept
      | apply keptOut_next
      | apply kept_foldl

theorem dropFrom_kept {s0 : State} (gone : List Nat) {s : State} (key : Nat) (hk : Kept s0 s) : Kept s0 (dropFrom gone s key) := by
  unfold dropFrom
  repeat' first
    | refine fun (x : State) _ (hx : Kept s0 x) => ?_
    | (intro x; first | refine kept_cut (s0 := s0) (x := x) ?_ ?_ | (have t : _ → State := x; clear t; unfold x; clear x) | (have t : State → _ := x; clear t; unfold x; clear x) | clear_value x)
    | (intro hx; clear_value x)
    | lift_lets
    | split
    | with_reducible first
      | apply bump_kept
      | apply onPush_kept
      | apply sendStatus_kept
      | apply settleAll_kept
      | apply addNodes_kept
      | apply notePush_kept
      | apply sendPart_kept
      | refine kept_mk (by assumption) id (Nat.le_refl _) (fun _ w => w) rfl rfl
      | apply kept_foldl
    | unfold x

theorem dropRanks_kept {s0 : State} {s : State} (gone : List Nat) (hk : Kept s0 s) : Kept s0 (dropRanks s gone) := by
  unfold dropRanks
  repeat' first
    | assumption
    | split
    | with_reducible first
      | apply dropFrom_kept
      | apply kept_foldl

end Sys2Proof.Machine
end

