-- ==== Sys2Proof/Laws/RouteKept.lean ====
section
/-!
SUPPORT. What the operations of Machine/Route.lean keep: the queue, the clock, the memories' form, the counters' 64 bits and the fuses.
-/

namespace Sys2Proof.Machine

theorem recompute_kept {s0 : State} {s : State} (hk : Kept s0 s) : Kept s0 (recompute s) := by
  unfold recompute
  repeat' first
    | with_reducible first
      | refine kept_mk (by assumption) id (Nat.le_refl _) (fun _ w => w) rfl rfl

theorem setTree_kept {s0 : State} {s : State} (hk : Kept s0 s) : Kept s0 (setTree s) := by
  unfold setTree
  repeat' first
    | (intro x; first | refine kept_cut (s0 := s0) (x := x) ?_ ?_ | clear_value x)
    | lift_lets
    | split
    | with_reducible first
      | refine kept_mk (by assumption) id (Nat.le_refl _) (fun _ w => w) rfl rfl

theorem learnRate_kept {s0 : State} {s : State} (cc time : Nat) (hk : Kept s0 s) : Kept s0 (learnRate s cc time) := by
  unfold learnRate
  repeat' first
    | split
    | with_reducible first
      | refine kept_mk (by assumption) id (Nat.le_refl _) (fun _ w => w) rfl rfl

theorem tellNear_kept {s0 : State} {s : State} (skip : Nat) (body : List Byte) (hk : Kept s0 s) : Kept s0 (tellNear s skip body) := by
  unfold tellNear
  repeat' first
    | assumption
    | refine fun (x : State) _ (hx : Kept s0 x) => ?_
    | with_reducible first
      | apply sendMgmt_kept
      | apply kept_foldl

theorem reportLinks_kept {s0 : State} {s : State} (hk : Kept s0 s) : Kept s0 (reportLinks s) := by
  unfold reportLinks
  repeat' first
    | with_reducible first
      | apply tellNear_kept
      | refine kept_mk (by assumption) id (Nat.le_refl _) (fun _ w => w) rfl rfl

theorem tellKnown_kept {s0 : State} {s : State} (r : Nat) (hk : Kept s0 s) : Kept s0 (tellKnown s r) := by
  unfold tellKnown
  repeat' first
    | assumption
    | refine fun (x : State) _ (hx : Kept s0 x) => ?_
    | with_reducible first
      | apply sendMgmt_kept
      | apply kept_foldl

theorem linkReport_kept {s0 : State} {s : State} (src rank n : Nat) (ranks : List Nat) (hk : Kept s0 s) : Kept s0 (linkReport s src rank n ranks) := by
  unfold linkReport
  repeat' first
    | split
    | with_reducible first
      | apply recompute_kept
      | apply setTree_kept
      | apply tellNear_kept
      | apply reportLinks_kept
      | refine kept_mk (by assumption) id (Nat.le_refl _) (fun _ w => w) rfl rfl

end Sys2Proof.Machine
end

