-- ==== Sys2Proof/Laws/GroupKept.lean ====
section
/-!
SUPPORT. What the operations of Machine/Group.lean keep: the queue, the clock, the memories' form, the counters' 64 bits and the fuses.
-/

namespace Sys2Proof.Machine

theorem announce_kept {s0 : State} {s : State} (ranks : List Nat) (keeper : Nat) (hold : Bool) (hk : Kept s0 s) : Kept s0 (announce s ranks keeper hold) := by
  unfold announce
  repeat' first
    | refine fun (x : State) _ (hx : Kept s0 x) => ?_
    | (intro x; first | refine kept_cut (s0 := s0) (x := x) ?_ ?_ | clear_value x)
    | lift_lets
    | split
    | with_reducible first
      | apply sendMgmt_kept
      | refine kept_mk (by assumption) id (Nat.le_refl _) (fun _ w => w) rfl rfl
      | apply kept_foldl

theorem checkHold_kept {s0 : State} {s : State} (hk : Kept s0 s) : Kept s0 (checkHold s) := by
  unfold checkHold
  repeat' first
    | assumption
    | split
    | with_reducible first
      | apply announce_kept

theorem changeView_kept {s0 : State} {s : State} (drops adds : List Nat) (hk : Kept s0 s) : Kept s0 (changeView s drops adds) := by
  unfold changeView
  repeat' first
    | (intro x; first | refine kept_cut (s0 := s0) (x := x) ?_ ?_ | (have t : _ → State := x; clear t; unfold x; clear x) | (have t : State → _ := x; clear t; unfold x; clear x) | clear_value x)
    | lift_lets
    | split
    | with_reducible first
      | apply announce_kept
      | refine kept_mk (by assumption) id (Nat.le_refl _) (fun _ w => w) rfl rfl

theorem nextChange_kept {s0 : State} {s : State} (hk : Kept s0 s) : Kept s0 (nextChange s) := by
  unfold nextChange
  repeat' first
    | with_reducible first
      | apply checkHold_kept
      | apply changeView_kept
      | refine kept_mk (by assumption) id (Nat.le_refl _) (fun _ w => w) rfl rfl

theorem dropMember_kept {s0 : State} {s : State} (r : Nat) (tell : Bool) (hk : Kept s0 s) : Kept s0 (dropMember s r tell) := by
  unfold dropMember
  repeat' first
    | assumption
    | (intro x; first | refine kept_cut (s0 := s0) (x := x) ?_ ?_ | clear_value x)
    | lift_lets
    | split
    | with_reducible first
      | apply sendMgmt_kept
      | apply changeView_kept

theorem leaveView_kept {s0 : State} {s : State} (r : Nat) (hk : Kept s0 s) : Kept s0 (leaveView s r) := by
  unfold leaveView
  repeat' first
    | assumption
    | with_reducible first
      | apply changeView_kept

theorem askLeave_kept {s0 : State} {s : State} (hk : Kept s0 s) : Kept s0 (askLeave s) := by
  unfold askLeave
  repeat' first
    | split
    | with_reducible first
      | apply sendMgmt_kept
      | apply leaveView_kept
      | refine kept_mk (by assumption) id (Nat.le_refl _) (fun _ w => w) rfl rfl

theorem leaveGroupOwn_kept {s0 : State} {s : State} (o : Order) (hk : Kept s0 s) : Kept s0 (leaveGroupOwn s o) := by
  unfold leaveGroupOwn
  repeat' first
    | (intro x; first | refine kept_cut (s0 := s0) (x := x) ?_ ?_ | clear_value x)
    | (intro hx; clear_value x)
    | lift_lets
    | split
    | with_reducible first
      | apply complete_kept
      | apply beginOrder_kept
      | apply endAllRuns_kept
      | apply becomeSolo_kept
      | apply askLeave_kept
      | refine kept_mk (by assumption) id (Nat.le_refl _) (fun _ w => w) rfl rfl

theorem execLeaveGroup_kept {s0 : State} (m n : Nat) {s : State} (hk : Kept s0 s) : KeptOut s0 (execLeaveGroup m n s) := by
  unfold execLeaveGroup
  repeat' first
    | assumption
    | with_reducible first
      | apply orderCmd_kept
      | apply leaveGroupOwn_kept
      | apply keptOut_next

theorem admitLink_kept {s0 : State} {s : State} (l : Nat) (d : List Byte) (hk : Kept s0 s) : Kept s0 (admitLink s l d) := by
  unfold admitLink
  repeat' first
    | assumption
    | with_reducible first
      | apply onLink_kept

theorem classLinks_kept {s0 : State} {s : State} (hk : Kept s0 s) : Kept s0 (classLinks s) := by
  unfold classLinks
  repeat' first
    | assumption
    | refine fun (x : State) _ (hx : Kept s0 x) => ?_
    | split
    | with_reducible first
      | apply admitLink_kept
      | apply kept_foldl

theorem startForming_kept {s0 : State} {s : State} (o : Order) (b : List Byte) (l : List (Nat × Nat)) (hk : Kept s0 s) : Kept s0 (startForming s o b l) := by
  unfold startForming
  repeat' first
    | (intro x; first | refine kept_cut (s0 := s0) (x := x) ?_ ?_ | clear_value x)
    | (intro hx; clear_value x)
    | lift_lets
    | with_reducible first
      | apply zeroTables_kept
      | apply applyKey_kept
      | apply beginOrder_kept
      | apply becomeSolo_kept
      | apply recompute_kept
      | apply setTree_kept
      | apply reportLinks_kept
      | apply classLinks_kept
      | refine kept_mk (by assumption) id (Nat.le_refl _) (fun _ w => w) rfl rfl

theorem formGroupOwn_kept {s0 : State} (d : Option (List Byte)) {s : State} (o : Order) (hk : Kept s0 s) : Kept s0 (formGroupOwn d s o) := by
  unfold formGroupOwn
  repeat' first
    | assumption
    | (intro x; first | refine kept_cut (s0 := s0) (x := x) ?_ ?_ | clear_value x)
    | (intro hx; clear_value x)
    | lift_lets
    | split
    | with_reducible first
      | apply complete_kept
      | apply refuse_kept
      | apply hostAsk_kept
      | apply startForming_kept

theorem execFormGroup_kept {s0 : State} (m n : Nat) (d : Option (List Byte)) {s : State} (hk : Kept s0 s) : KeptOut s0 (execFormGroup m n d s) := by
  unfold execFormGroup
  repeat' first
    | assumption
    | with_reducible first
      | apply orderCmd_kept
      | apply formGroupOwn_kept
      | apply keptOut_next

theorem endForm_kept {s0 : State} {s : State} (st : BitVec 8) (absent rank epoch : Nat) (hk : Kept s0 s) : Kept s0 (endForm s st absent rank epoch) := by
  unfold endForm
  repeat' first
    | with_reducible first
      | apply endWaiting_kept
      | refine kept_mk (by assumption) id (Nat.le_refl _) (fun _ w => w) rfl rfl

theorem formFails_kept {s0 : State} {s : State} (st : BitVec 8) (hk : Kept s0 s) : Kept s0 (formFails s st) := by
  unfold formFails
  repeat' first
    | assumption
    | with_reducible first
      | apply becomeSolo_kept
      | apply endForm_kept

theorem execFormationEnd_kept {s0 : State} {s : State} (hk : Kept s0 s) : KeptOut s0 (execFormationEnd s) := by
  unfold execFormationEnd
  repeat' first
    | assumption
    | lift_lets
    | split
    | with_reducible first
      | apply announce_kept
      | apply keptOut_next

theorem execFormTimeout_kept {s0 : State} {s : State} (hk : Kept s0 s) : KeptOut s0 (execFormTimeout s) := by
  unfold execFormTimeout
  repeat' first
    | (intro x; first | refine kept_cut (s0 := s0) (x := x) ?_ ?_ | clear_value x)
    | (intro hx; clear_value x)
    | lift_lets
    | split
    | with_reducible first
      | apply announce_kept
      | apply endForm_kept
      | apply formFails_kept
      | apply keptOut_next
      | refine kept_mk (by assumption) id (Nat.le_refl _) (fun _ w => w) rfl rfl

theorem pushCtl_kept {s0 : State} {s : State} (l ty : Nat) (body : List Byte) (hk : Kept s0 s) : Kept s0 (pushCtl s l ty body) := by
  unfold pushCtl
  repeat' first
    | assumption
    | with_reducible first
      | apply onLink_kept

theorem execIdentitySend_kept {s0 : State} (l : Nat) {s : State} (hk : Kept s0 s) : KeptOut s0 (execIdentitySend l s) := by
  unfold execIdentitySend
  repeat' first
    | assumption
    | lift_lets
    | split
    | with_reducible first
      | apply onLink_kept
      | apply pushCtl_kept
      | apply keptOut_next

theorem refuseRecord_kept {s0 : State} {s : State} (l : Nat) (hk : Kept s0 s) : Kept s0 (refuseRecord s l) := by
  unfold refuseRecord
  repeat' first
    | assumption
    | with_reducible first
      | apply bump_kept
      | apply onLink_kept

theorem duplicateSerial_kept {s0 : State} {s : State} (l : Nat) (d : List Byte) (hk : Kept s0 s) : Kept s0 (duplicateSerial s l d) := by
  unfold duplicateSerial
  repeat' first
    | (intro x; first | refine kept_cut (s0 := s0) (x := x) ?_ ?_ | (have t : _ → State := x; clear t; unfold x; clear x) | (have t : State → _ := x; clear t; unfold x; clear x) | clear_value x)
    | (intro hx; clear_value x)
    | lift_lets
    | split
    | with_reducible first
      | apply postEvent_kept
      | apply fenceSelf_kept
      | apply refuseRecord_kept
      | refine kept_mk (by assumption) id (Nat.le_refl _) (fun _ w => w) rfl rfl

theorem noteDigest_kept {s0 : State} {s : State} (r : Nat) (d : List Byte) (hk : Kept s0 s) : Kept s0 (noteDigest s r d) := by
  unfold noteDigest
  repeat' first
    | with_reducible first
      | refine kept_mk (by assumption) id (Nat.le_refl _) (fun _ w => w) rfl rfl

theorem takeDigest_kept {s0 : State} {s : State} (rank : Nat) (d : List Byte) (beat : Nat) (hk : Kept s0 s) : Kept s0 (takeDigest s rank d beat) := by
  unfold takeDigest
  repeat' first
    | assumption
    | split
    | with_reducible first
      | apply checkHold_kept
      | apply noteDigest_kept

theorem dropStray_kept {s0 : State} {s : State} (d : List Byte) (hk : Kept s0 s) : Kept s0 (dropStray s d) := by
  unfold dropStray
  repeat' first
    | assumption
    | (intro x; first | refine kept_cut (s0 := s0) (x := x) ?_ ?_ | clear_value x)
    | lift_lets
    | split
    | with_reducible first
      | apply dropMember_kept

theorem recheck_kept {s0 : State} {s : State} (hk : Kept s0 s) : Kept s0 (recheck s) := by
  unfold recheck
  repeat' first
    | assumption
    | refine fun (x : State) _ (hx : Kept s0 x) => ?_
    | split
    | with_reducible first
      | apply dropStray_kept
      | apply kept_foldl

theorem disagree_kept {s0 : State} {s : State} (l : Nat) (d : List Byte) (hk : Kept s0 s) : Kept s0 (disagree s l d) := by
  unfold disagree
  repeat' first
    | (intro x; first | refine kept_cut (s0 := s0) (x := x) ?_ ?_ | clear_value x)
    | (intro hx; clear_value x)
    | lift_lets
    | split
    | with_reducible first
      | apply postEvent_kept
      | apply fenceSelf_kept
      | apply setTree_kept
      | apply noteDigest_kept
      | apply takeDigest_kept
      | apply dropStray_kept
      | refine kept_mk (by assumption) id (Nat.le_refl _) (fun _ w => w) rfl rfl

theorem execIdentity_kept {s0 : State} (l : Nat) (d : List Byte) {s : State} (hk : Kept s0 s) : KeptOut s0 (execIdentity l d s) := by
  unfold execIdentity
  repeat' first
    | assumption
    | (intro x; first | refine kept_cut (s0 := s0) (x := x) ?_ ?_ | clear_value x)
    | (intro hx; clear_value x)
    | lift_lets
    | split
    | with_reducible first
      | apply bump_kept
      | apply onLink_kept
      | apply recompute_kept
      | apply setTree_kept
      | apply reportLinks_kept
      | apply tellKnown_kept
      | apply admitLink_kept
      | apply formFails_kept
      | apply refuseRecord_kept
      | apply duplicateSerial_kept
      | apply disagree_kept
      | apply keptOut_next
    | unfold x

theorem takeView_kept {s0 : State} (epoch : Nat) (ranks : List Nat) (keeper beat : Nat) (hold : Bool) (differs : Nat) {s : State} (hk : Kept s0 s) : Kept s0 (takeView epoch ranks keeper beat hold differs s) := by
  unfold takeView
  repeat' first
    | split
    | with_reducible first
      | refine kept_mk (by assumption) id (Nat.le_refl _) (fun _ w => w) rfl rfl

theorem execViewAnnouncement_kept {s0 : State} (epoch : Nat) (ranks : List Nat) (keeper beat : Nat) (hold : Option Nat) {s : State} (hk : Kept s0 s) :
    KeptOut s0 (execViewAnnouncement epoch ranks keeper beat hold s) := by
  unfold execViewAnnouncement
  repeat' first
    | assumption
    | with_reducible first
      | apply takeView_kept
      | apply keptOut_next

theorem enterView_kept {s0 : State} {s : State} (v : ViewAnn) (hk : Kept s0 s) : Kept s0 (enterView s v) := by
  unfold enterView
  repeat' first
    | (intro x; first | refine kept_cut (s0 := s0) (x := x) ?_ ?_ | clear_value x)
    | (intro hx; clear_value x)
    | lift_lets
    | split
    | with_reducible first
      | apply bump_kept
      | apply postEvent_kept
      | apply dropRanks_kept
      | apply recompute_kept
      | apply setTree_kept
      | apply reportLinks_kept
      | apply nextChange_kept
      | apply endForm_kept
      | refine kept_mk (by assumption) id (Nat.le_refl _) (fun _ w => w) rfl rfl
    | unfold x

theorem leftOut_kept {s0 : State} {s : State} (hk : Kept s0 s) : Kept s0 (leftOut s) := by
  unfold leftOut
  repeat' first
    | (intro x; first | refine kept_cut (s0 := s0) (x := x) ?_ ?_ | clear_value x)
    | (intro hx; clear_value x)
    | lift_lets
    | split
    | with_reducible first
      | apply postEvent_kept
      | apply becomeSolo_kept
      | apply endLeave_kept
      | apply fenceSelf_kept
      | refine kept_mk (by assumption) id (Nat.le_refl _) (fun _ w => w) rfl rfl

theorem execViewBeat_kept {s0 : State} {s : State} (hk : Kept s0 s) : KeptOut s0 (execViewBeat s) := by
  unfold execViewBeat
  repeat' first
    | split
    | with_reducible first
      | apply enterView_kept
      | apply leftOut_kept
      | apply keptOut_next
      | refine kept_mk (by assumption) id (Nat.le_refl _) (fun _ w => w) rfl rfl

theorem execSplitSide_kept {s0 : State} (edges : List (Nat × Nat × Nat)) {s : State} (hk : Kept s0 s) : KeptOut s0 (execSplitSide edges s) := by
  unfold execSplitSide
  repeat' first
    | (intro x; first | refine kept_cut (s0 := s0) (x := x) ?_ ?_ | clear_value x)
    | (intro hx; clear_value x)
    | lift_lets
    | split
    | with_reducible first
      | apply recompute_kept
      | apply setTree_kept
      | apply changeView_kept
      | apply keptOut_next
      | refine kept_mk (by assumption) id (Nat.le_refl _) (fun _ w => w) rfl rfl

theorem execFenceBeat_kept {s0 : State} {s : State} (hk : Kept s0 s) : KeptOut s0 (execFenceBeat s) := by
  unfold execFenceBeat
  repeat' first
    | assumption
    | split
    | with_reducible first
      | apply fenceSelf_kept
      | apply keptOut_next

theorem execRejoin_kept {s0 : State} (rank hops major : Nat) (lockedBt : Nat) (digest : List Byte) {s : State} (hk : Kept s0 s) : KeptOut s0 (execRejoin rank hops major lockedBt digest s) := by
  unfold execRejoin
  repeat' first
    | assumption
    | split
    | with_reducible first
      | apply changeView_kept
      | apply noteDigest_kept
      | apply keptOut_next

theorem execReform_kept {s0 : State} (ranks : List Nat) (epoch : Nat) {s : State} (hk : Kept s0 s) : KeptOut s0 (execReform ranks epoch s) := by
  unfold execReform
  repeat' first
    | (intro x; first | refine kept_cut (s0 := s0) (x := x) ?_ ?_ | clear_value x)
    | (intro hx; clear_value x)
    | lift_lets
    | split
    | with_reducible first
      | apply sendMgmt_kept
      | apply recompute_kept
      | apply setTree_kept
      | apply announce_kept
      | apply keptOut_next
      | refine kept_mk (by assumption) id (Nat.le_refl _) (fun _ w => w) rfl rfl

end Sys2Proof.Machine
end

