-- ==== Sys2Proof/Laws/McastKept.lean ====
section
/-!
SUPPORT. What the operations of Machine/Mcast.lean keep: the queue, the clock, the memories' form, the counters' 64 bits and the fuses.
-/

namespace Sys2Proof.Machine

theorem setMc_kept {s0 : State} {s : State} (m : Mc) (hk : Kept s0 s) : Kept s0 (setMc s m) := by
  unfold setMc
  repeat' first
    | with_reducible first
      | refine kept_mk (by assumption) id (Nat.le_refl _) (fun _ w => w) rfl rfl

theorem countChunk_kept {s0 : State} {s : State} (m : Mc) (c off n : Nat) (hk : Kept s0 s) : Kept s0 (countChunk s m c off n) := by
  unfold countChunk
  repeat' first
    | assumption
    | split
    | with_reducible first
      | apply countRange_kept

theorem sendChunk_kept {s0 : State} {s : State} (m : Mc) (c : Nat) (d : List Byte) (x : Child) (hk : Kept s0 s) : Kept s0 (sendChunk s m c d x) := by
  unfold sendChunk
  repeat' first
    | assumption
    | refine fun (x : State) _ (hx : Kept s0 x) => ?_
    | split
    | with_reducible first
      | apply bump_kept
      | apply sendTransfer_kept1
      | apply kept_foldl

theorem noteHold_kept {s0 : State} {s : State} (key pos : Nat) (hk : Kept s0 s) : Kept s0 (noteHold s key pos) := by
  unfold noteHold
  repeat' first
    | assumption
    | (intro x; first | refine kept_cut (s0 := s0) (x := x) ?_ ?_ | clear_value x)
    | lift_lets
    | split
    | with_reducible first
      | apply setMc_kept

theorem pumpFrom_kept {s0 : State} (key pos p f : Nat) {s : State} (hk : Kept s0 s) : Kept s0 (pumpFrom key pos p f s) := by
  induction f generalizing s with
  | zero => exact hk
  | succ f ih =>
    unfold pumpFrom
    split
    · exact hk
    · split
      · exact hk
      · split
        · exact hk
        · split
          · split
            · exact failMacro_kept _ _ _ hk
            · exact failRead_kept _ _ _ _ hk
          · refine ih (setMc_kept _ ?_)
            split
            · exact kept_foldl _ (fun x a hx => sendChunk_kept _ _ _ _ hx) (countChunk_kept _ _ _ _ hk)
            · exact reach_kept _ _ _ _ _ (kept_foldl _ (fun x a hx => sendChunk_kept _ _ _ _ hx) (countChunk_kept _ _ _ _ hk))

theorem pump_kept {s0 : State} {s : State} (key pos : Nat) (hk : Kept s0 s) : Kept s0 (pump s key pos) := by
  unfold pump
  repeat' first
    | assumption
    | refine fun (x : State) _ (hx : Kept s0 x) => ?_
    | split
    | with_reducible first
      | apply noteHold_kept
      | apply pumpFrom_kept
      | apply kept_foldl

theorem pumpAll_kept {s0 : State} {s : State} (hk : Kept s0 s) : Kept s0 (pumpAll s) := by
  unfold pumpAll
  repeat' first
    | assumption
    | refine fun (x : State) _ (hx : Kept s0 x) => ?_
    | with_reducible first
      | apply pump_kept
      | apply kept_foldl

theorem detachChild_kept {s0 : State} {s : State} (m : Mc) (rank core : Nat) (hk : Kept s0 s) : Kept s0 (detachChild s m rank core) := by
  unfold detachChild
  repeat' first
    | assumption
    | with_reducible first
      | apply bump_kept
      | apply sendMgmt_kept
      | apply setMc_kept

theorem mcOpen_kept {s0 : State} {s : State} (r : Run) (mi key : Nat) (parent : Option Nat) (hk : Kept s0 s) : Kept s0 (mcOpen s r mi key parent) := by
  unfold mcOpen
  repeat' first
    | refine fun (x : State) _ (hx : Kept s0 x) => ?_
    | split
    | with_reducible first
      | apply sendMgmt_kept
      | apply detachChild_kept
      | refine kept_mk (by assumption) id (Nat.le_refl _) (fun _ w => w) rfl rfl
      | apply kept_foldl

theorem mcStart_kept {s0 : State} {s : State} (r : Run) (w : Walk) (hk : Kept s0 s) : Kept s0 (mcStart s r w) := by
  unfold mcStart
  repeat' first
    | assumption
    | (intro x; first | refine kept_cut (s0 := s0) (x := x) ?_ ?_ | clear_value x)
    | (intro hx; clear_value x)
    | lift_lets
    | split
    | with_reducible first
      | apply onWalk_kept
      | apply failMacro_kept
      | apply endWalk_kept
      | apply setMc_kept
      | apply pump_kept
      | apply mcOpen_kept
    | unfold x

theorem ackChunks_kept {s0 : State} {s : State} (key : Nat) (hk : Kept s0 s) : Kept s0 (ackChunks s key) := by
  unfold ackChunks
  repeat' first
    | assumption
    | refine fun (x : State) _ (hx : Kept s0 x) => ?_
    | split
    | with_reducible first
      | apply sendTransfer_kept1
      | apply setMc_kept
      | apply kept_foldl
    | dsimp only

theorem execMcast_kept {s0 : State} (t i p : Nat) {s : State} (hk : Kept s0 s) : KeptOut s0 (execMcast t i p s) := by
  unfold execMcast
  repeat' first
    | assumption
    | refine fun (x : State) _ _ (hx : Kept s0 x) => ?_
    | split
    | with_reducible first
      | apply opCmd_kept
      | apply pump_kept
      | apply mcStart_kept
      | apply ackChunks_kept
      | apply keptOut_next

theorem takeJoin_kept {s0 : State} (key rank : Nat) {s : State} (hk : Kept s0 s) : Kept s0 (takeJoin key rank s) := by
  unfold takeJoin
  repeat' first
    | (intro x; first | refine kept_cut (s0 := s0) (x := x) ?_ ?_ | clear_value x)
    | (intro hx; clear_value x)
    | lift_lets
    | split
    | with_reducible first
      | apply bump_kept
      | apply sendMgmt_kept
      | apply setMc_kept
      | apply detachChild_kept
      | refine kept_mk (by assumption) id (Nat.le_refl _) (fun _ w => w) rfl rfl
    | unfold x

theorem execJoin_kept {s0 : State} (key epoch rank : Nat) {s : State} (hk : Kept s0 s) : KeptOut s0 (execJoin key epoch rank s) := by
  unfold execJoin
  repeat' first
    | assumption
    | refine fun (x : State) (hx : Kept s0 x) => ?_
    | split
    | exact arrive_kept _ _ (fun x hx => fromView_kept _ _ (fun y hy => takeJoin_kept _ _ hy) hx) hk
    | with_reducible first
      | apply fromView_kept
      | apply takeJoin_kept
      | apply keptOut_next

theorem joinRefused_kept {s0 : State} {s : State} (key : Nat) (hk : Kept s0 s) : Kept s0 (joinRefused s key) := by
  unfold joinRefused
  repeat' first
    | assumption
    | split
    | with_reducible first
      | apply failMacro_kept

theorem writeChunk_kept {s0 : State} {s : State} (v : View) (off : Nat) (d : List Byte) (hk : Kept s0 s) : KeptOk s0 (writeChunk s v off d) := by
  unfold writeChunk
  repeat' first
    | assumption
    | split
    | with_reducible first
      | apply queueWrites_kept
      | apply writeRuns_kept
      | apply issueWrites_kept
      | apply keptOk_ok
      | exact keptOk_error _
      | apply keptOk_bind
      | apply keptOk1_ok
      | exact keptOk1_error _
      | apply keptOk1_bind

theorem writeChunk_kept_ok {s0 u0 : State} {s : State} {v : View} {off : Nat} {d : List Byte} (e0 : writeChunk s v off d = .ok u0) (hk : Kept s0 s) : Kept s0 u0 :=
  (writeChunk_kept (v := v) (off := off) (d := d) hk).ok _ e0

theorem chunkBytes_kept {s0 : State} {s : State} (m : Mc) (c off : Nat) (d : List Byte) (hk : Kept s0 s) : Kept s0 (chunkBytes s m c off d) := by
  unfold chunkBytes
  repeat' first
    | assumption
    | (intro x; first | refine kept_cut (s0 := s0) (x := x) ?_ ?_ | clear_value x)
    | (intro hx; clear_value x)
    | lift_lets
    | split
    | with_reducible first
      | apply failWrite_kept
      | apply setMc_kept
      | apply pump_kept
      | apply ackChunks_kept
      | refine writeChunk_kept_ok (by assumption) ?_
    | with_reducible first
      | apply keptOk_ok
      | exact keptOk_error _
      | apply keptOk_bind
      | apply keptOk1_ok
      | exact keptOk1_error _
      | apply keptOk1_bind

theorem askPiece_kept {s0 : State} {s : State} (m : Mc) (p c off : Nat) (hk : Kept s0 s) : Kept s0 (askPiece s m p c off) := by
  unfold askPiece
  repeat' first
    | (intro x; first | refine kept_cut (s0 := s0) (x := x) ?_ ?_ | clear_value x)
    | (intro hx; clear_value x)
    | lift_lets
    | with_reducible first
      | apply sendTransfer_kept1
      | refine kept_mk (by assumption) id (Nat.le_refl _) (fun _ w => w) rfl rfl

theorem catchUp_kept {s0 : State} {s : State} (m : Mc) (p : Nat) (hk : Kept s0 s) : Kept s0 (catchUp s m p) := by
  unfold catchUp
  repeat' first
    | assumption
    | refine fun (x : State) _ (hx : Kept s0 x) => ?_
    | with_reducible first
      | apply bump_kept
      | apply setMc_kept
      | apply askPiece_kept
      | apply kept_foldl

theorem gotChunk_kept {s0 : State} {s : State} (h : Hdr) (d : List Byte) (hk : Kept s0 s) : KeptM s0 (gotChunk s h d) := by
  unfold gotChunk
  repeat' first
    | assumption
    | refine fun _ (e : _ = some _) => ?_
    | split
    | with_reducible first
      | apply bump_kept
      | apply failMacro_kept
      | apply setMc_kept
      | apply chunkBytes_kept
      | apply askPiece_kept
      | apply keptM_some
      | apply keptM_bind
    | with_reducible first
      | apply keptOk_ok
      | exact keptOk_error _
      | apply keptOk_bind
      | apply keptOk1_ok
      | exact keptOk1_error _
      | apply keptOk1_bind

theorem gotChunk_kept_eq {s0 u0 : State} {s : State} {h : Hdr} {d : List Byte}  (e0 : gotChunk s h d = some u0) (hk : Kept s0 s) : Kept s0 u0 :=
  (gotChunk_kept (h := h) (d := d)  hk).some _ e0

theorem serveChunk_kept {s0 s : State} {h : Hdr} {x : State × Nat × List Byte} (e : serveChunk s h = some x)
    (hk : Kept s0 s) : Kept s0 x.1 := by
  unfold serveChunk at e
  dsimp only at e
  repeat' split at e
  all_goals cases e
  all_goals first | exact hk | exact countChunk_kept _ _ _ _ hk

theorem execMcastDetach_kept {s0 : State} (key pos rank : Nat) {s : State} (hk : Kept s0 s) : KeptOut s0 (execMcastDetach key pos rank s) := by
  unfold execMcastDetach
  repeat' first
    | assumption
    | split
    | with_reducible first
      | apply pump_kept
      | apply detachChild_kept
      | apply keptOut_next

theorem execCatchupLimit_kept {s0 : State} (key pos rank : Nat) {s : State} (hk : Kept s0 s) : KeptOut s0 (execCatchupLimit key pos rank s) := by
  unfold execCatchupLimit
  repeat' first
    | assumption
    | split
    | with_reducible first
      | apply setMc_kept
      | apply keptOut_next

theorem execMcastComplete_kept {s0 : State} (t i : Nat) {s : State} (hk : Kept s0 s) : KeptOut s0 (execMcastComplete t i s) := by
  unfold execMcastComplete
  repeat' first
    | refine fun (x : State) _ (hx : Kept s0 x) => ?_
    | split
    | with_reducible first
      | apply closeMcast_kept
      | apply endWalk_kept
      | apply keptOut_next
      | refine kept_mk (by assumption) id (Nat.le_refl _) (fun _ w => w) rfl rfl
      | apply kept_foldl

end Sys2Proof.Machine
end

