-- ==== Sys2Proof/Laws/BeatKept.lean ====
section
/-!
SUPPORT. What the operations of Machine/Beat.lean keep: the queue, the clock, the memories' form, the counters' 64 bits and the fuses.
-/

namespace Sys2Proof.Machine

theorem rateAdjust_kept {s0 : State} {s : State} (hk : Kept s0 s) : Kept s0 (rateAdjust s) := by
  unfold rateAdjust
  repeat' first
    | split
    | with_reducible first
      | refine kept_mk (by assumption) id (Nat.le_refl _) (fun _ w => w) rfl rfl

theorem setBeatOut_kept {s0 : State} {s : State} (hk : Kept s0 s) : Kept s0 (setBeatOut s) := by
  unfold setBeatOut
  repeat' first
    | with_reducible first
      | refine kept_mk (by assumption) id (Nat.le_refl _) (fun _ w => w) rfl rfl

theorem finishSource_kept {s0 : State} {s : State} (hk : Kept s0 s) : Kept s0 (finishSource s) := by
  unfold finishSource
  repeat' first
    | with_reducible first
      | apply postEvent_kept
      | apply setBeatOut_kept
      | refine kept_mk (by assumption) id (Nat.le_refl _) (fun _ w => w) rfl rfl

theorem keeperSlew_kept {s0 : State} {s : State} (hk : Kept s0 s) : Kept s0 (keeperSlew s) := by
  unfold keeperSlew
  repeat' first
    | intro y
    | lift_lets
    | split
    | with_reducible first
      | apply bump_kept
      | apply finishSource_kept
      | refine kept_mk (by assumption) id (Nat.le_refl _) (fun _ w => w) rfl rfl

theorem missedMark_kept {s0 : State} {s : State} (hk : Kept s0 s) : Kept s0 (missedMark s) := by
  unfold missedMark
  repeat' first
    | (intro x; first | refine kept_cut (s0 := s0) (x := x) ?_ ?_ | clear_value x)
    | intro y
    | lift_lets
    | split
    | with_reducible first
      | apply bump_kept
      | apply postEvent_kept
      | refine kept_mk (by assumption) id (Nat.le_refl _) (fun _ w => w) rfl rfl

theorem reportDigest_kept {s0 : State} {s : State} (hk : Kept s0 s) : Kept s0 (reportDigest s) := by
  unfold reportDigest
  repeat' first
    | assumption
    | split
    | with_reducible first
      | apply sendMgmt_kept
      | apply checkHold_kept
      | apply noteDigest_kept
    | dsimp only

theorem execBeatBoundary_kept {s0 : State} {s : State} (hk : Kept s0 s) : KeptOut s0 (execBeatBoundary s) := by
  unfold execBeatBoundary
  repeat' first
    | (intro x; first | refine kept_cut (s0 := s0) (x := x) ?_ ?_ | clear_value x)
    | (intro hx; clear_value x)
    | lift_lets
    | split
    | with_reducible first
      | apply bump_kept
      | apply pumpAll_kept
      | apply askLeave_kept
      | apply recheck_kept
      | apply rateAdjust_kept
      | apply setBeatOut_kept
      | apply keeperSlew_kept
      | apply missedMark_kept
      | apply reportDigest_kept
      | apply keptOut_next
      | refine kept_mk (by assumption) id (Nat.le_refl _) (fun _ w => w) rfl rfl
    | unfold x

theorem relevel_kept {s0 : State} {s : State} (hk : Kept s0 s) : Kept s0 (relevel s) := by
  unfold relevel
  repeat' first
    | assumption
    | split
    | with_reducible first
      | apply setBeatOut_kept

theorem stepBeat_kept {s0 : State} {s : State} (number : Nat) (err16 : Int) (hk : Kept s0 s) : Kept s0 (stepBeat s number err16) := by
  unfold stepBeat
  repeat' first
    | with_reducible first
      | refine kept_mk (by assumption) id (Nat.le_refl _) (fun _ w => w) rfl rfl

theorem lockBeat_kept {s0 : State} {s : State} (err16 : Int) (hk : Kept s0 s) : Kept s0 (lockBeat s err16) := by
  unfold lockBeat
  repeat' first
    | (intro x; first | refine kept_cut (s0 := s0) (x := x) ?_ ?_ | clear_value x)
    | (intro hx; clear_value x)
    | lift_lets
    | split
    | with_reducible first
      | apply postEvent_kept
      | refine kept_mk (by assumption) id (Nat.le_refl _) (fun _ w => w) rfl rfl

theorem trackMark_kept {s0 : State} {s : State} (number : Nat) (at16 : Int) (hk : Kept s0 s) : Kept s0 (trackMark s number at16) := by
  unfold trackMark
  repeat' first
    | (intro x; first | refine kept_cut (s0 := s0) (x := x) ?_ ?_ | clear_value x)
    | (intro hx; clear_value x)
    | lift_lets
    | split
    | with_reducible first
      | apply bump_kept
      | apply fenceSelf_kept
      | apply learnRate_kept
      | apply stepBeat_kept
      | apply lockBeat_kept
      | refine kept_mk (by assumption) id (Nat.le_refl _) (fun _ w => w) rfl rfl

theorem execBeatMark_kept {s0 : State} (l number offset : Nat) {s : State} (hk : Kept s0 s) : KeptOut s0 (execBeatMark l number offset s) := by
  unfold execBeatMark
  repeat' first
    | assumption
    | (intro hx; clear_value x)
    | lift_lets
    | split
    | with_reducible first
      | apply bump_kept
      | apply onLink_kept
      | apply relevel_kept
      | apply trackMark_kept
      | apply keptOut_next

theorem execBeatFull_kept {s0 : State} (l : Nat) (d : List Byte) {s : State} (hk : Kept s0 s) : KeptOut s0 (execBeatFull l d s) := by
  unfold execBeatFull
  repeat' first
    | assumption
    | split
    | with_reducible first
      | apply fenceSelf_kept
      | apply stepBeat_kept
      | apply keptOut_next

theorem execHoldoverLimitFence_kept {s0 : State} {s : State} (hk : Kept s0 s) : KeptOut s0 (execHoldoverLimitFence s) := by
  unfold execHoldoverLimitFence
  repeat' first
    | assumption
    | split
    | with_reducible first
      | apply fenceSelf_kept
      | apply keptOut_next

theorem execSourceLost_kept {s0 : State} {s : State} (hk : Kept s0 s) : KeptOut s0 (execSourceLost s) := by
  unfold execSourceLost
  repeat' first
    | split
    | with_reducible first
      | apply bump_kept
      | apply postEvent_kept
      | apply relevel_kept
      | apply keptOut_next
      | refine kept_mk (by assumption) id (Nat.le_refl _) (fun _ w => w) rfl rfl

theorem execSourceRelocked_kept {s0 : State} (err : Int) {s : State} (hk : Kept s0 s) : KeptOut s0 (execSourceRelocked err s) := by
  unfold execSourceRelocked
  repeat' first
    | (intro x; first | refine kept_cut (s0 := s0) (x := x) ?_ ?_ | clear_value x)
    | (intro hx; clear_value x)
    | lift_lets
    | split
    | with_reducible first
      | apply finishSource_kept
      | apply keptOut_next
      | refine kept_mk (by assumption) id (Nat.le_refl _) (fun _ w => w) rfl rfl

theorem acceptEdge_kept {s0 : State} {s : State} (windowEnd : Nat) (hk : Kept s0 s) : Kept s0 (acceptEdge s windowEnd) := by
  unfold acceptEdge
  repeat' first
    | with_reducible first
      | apply bump_kept
      | refine kept_mk (by assumption) id (Nat.le_refl _) (fun _ w => w) rfl rfl

theorem edgeBeat_kept {s0 : State} {s : State} (hk : Kept s0 s) : Kept s0 (edgeBeat s) := by
  unfold edgeBeat
  repeat' first
    | with_reducible first
      | refine kept_mk (by assumption) id (Nat.le_refl _) (fun _ w => w) rfl rfl

theorem execBeatInEdge_kept {s0 : State} {s : State} (hk : Kept s0 s) : KeptOut s0 (execBeatInEdge s) := by
  unfold execBeatInEdge
  repeat' first
    | (intro x; first | refine kept_cut (s0 := s0) (x := x) ?_ ?_ | clear_value x)
    | (intro hx; clear_value x)
    | lift_lets
    | split
    | with_reducible first
      | apply bump_kept
      | apply learnRate_kept
      | apply relevel_kept
      | apply acceptEdge_kept
      | apply edgeBeat_kept
      | apply keptOut_next
      | refine kept_mk (by assumption) id (Nat.le_refl _) (fun _ w => w) rfl rfl

theorem startExchange_kept {s0 : State} {s : State} (l n : Nat) (hk : Kept s0 s) : Kept s0 (startExchange s l n) := by
  unfold startExchange
  repeat' first
    | assumption
    | with_reducible first
      | apply pushCtl_kept

theorem execStamp_kept {s0 : State} (l : Nat) (d : List Byte) {s : State} (hk : Kept s0 s) : KeptOut s0 (execStamp l d s) := by
  unfold execStamp
  repeat' first
    | assumption
    | lift_lets
    | split
    | with_reducible first
      | apply onLink_kept
      | apply setTree_kept
      | apply pushCtl_kept
      | apply startExchange_kept
      | apply keptOut_next

end Sys2Proof.Machine
end

