-- ==== Sys2Proof/Laws/MailboxKept.lean ====
section
/-!
SUPPORT. What the operations of Machine/Mailbox.lean keep: the queue, the clock, the memories' form, the counters' 64 bits and the fuses.
-/

namespace Sys2Proof.Machine

theorem execConnectionReq_kept {s0 : State} (u service psn mtu : Nat) {s : State} (hk : Kept s0 s) : KeptOut s0 (execConnectionReq u service psn mtu s) := by
  unfold execConnectionReq
  repeat' first
    | assumption
    | (intro hx; clear_value x)
    | lift_lets
    | split
    | with_reducible first
      | apply bump_kept
      | apply zeroCounter_kept
      | apply setQp_kept
      | apply emit_kept
      | apply draw_kept
      | apply keptOut_next

theorem connReply_kept {s0 : State} {s : State} (q : Nat) (st : BitVec 8) (v : Qp) (hk : Kept s0 s) : Kept s0 (connReply s q st v) := by
  unfold connReply
  repeat' first
    | assumption
    | with_reducible first
      | apply roce_kept

theorem connRefuse_kept {s0 : State} {s : State} (q : Nat) (v : Qp) (st : BitVec 8) (hk : Kept s0 s) : Kept s0 (connRefuse s q v st) := by
  unfold connRefuse
  repeat' first
    | assumption
    | with_reducible first
      | apply setQp_kept
      | apply connReply_kept

theorem assignMailbox_kept {s0 : State} (q : Nat) {s : State} (m : Nat) (hk : Kept s0 s) : Kept s0 (assignMailbox q s m) := by
  unfold assignMailbox
  repeat' first
    | assumption
    | refine fun m (w : Memory.wf m = true) => wf_mk ?_ ?_ ?_ ?_ ?_
    | exact wf_shelf (by assumption)
    | exact wf_cellar (by assumption)
    | exact wf_side (by assumption)
    | exact wf_ddr (by assumption)
    | exact wf_window (by assumption)
    | apply memZero_wf
    | with_reducible first
      | apply setMailbox_kept
      | apply onMem_kept

theorem connMessage_kept {s0 : State} {s : State} (q : Nat) (b : List Byte) (hk : Kept s0 s) : Kept s0 (connMessage s q b) := by
  unfold connMessage
  repeat' first
    | assumption
    | refine fun (x : State) _ (hx : Kept s0 x) => ?_
    | (intro x; first | refine kept_cut (s0 := s0) (x := x) ?_ ?_ | clear_value x)
    | (intro hx; clear_value x)
    | lift_lets
    | split
    | with_reducible first
      | apply setQp_kept
      | apply draw_kept
      | apply connReply_kept
      | apply connRefuse_kept
      | apply assignMailbox_kept
      | apply kept_foldl

theorem heard_kept {s0 : State} {s : State} (q : Nat) (f : State → State) (hf : ∀ (x : State), Kept s0 x → Kept s0 (f x)) (hk : Kept s0 s) : Kept s0 (heard s q f) := by
  unfold heard
  repeat' first
    | assumption
    | split
    | with_reducible first
      | apply bump_kept
      | apply hf

theorem execConnectionRecord_kept {s0 : State} (q : Nat) (d : List Byte) {s : State} (hk : Kept s0 s) : KeptOut s0 (execConnectionRecord q d s) := by
  unfold execConnectionRecord
  repeat' first
    | assumption
    | refine fun (x : State) (hx : Kept s0 x) => ?_
    | with_reducible first
      | apply connMessage_kept
      | apply heard_kept
      | apply keptOut_next

theorem execDisconnectAfterReply_kept {s0 : State} (q : Nat) {s : State} (hk : Kept s0 s) : KeptOut s0 (execDisconnectAfterReply q s) := by
  unfold execDisconnectAfterReply
  repeat' first
    | assumption
    | split
    | with_reducible first
      | apply qpError_kept
      | apply keptOut_next

theorem execDisconnectRequest_kept {s0 : State} (q : Nat) {s : State} (hk : Kept s0 s) : KeptOut s0 (execDisconnectRequest q s) := by
  unfold execDisconnectRequest
  repeat' first
    | assumption
    | refine fun (x : State) (hx : Kept s0 x) => ?_
    | with_reducible first
      | apply qpError_kept
      | apply heard_kept
      | apply keptOut_next

theorem windowPut_kept {s0 : State} {s : State} (v : Qp) (addr : Nat) (d : List Byte) (hk : Kept s0 s) : Kept s0 (windowPut s v addr d) := by
  unfold windowPut
  repeat' first
    | assumption
    | refine fun m (w : Memory.wf m = true) => wf_mk ?_ ?_ ?_ ?_ ?_
    | exact wf_shelf (by assumption)
    | exact wf_cellar (by assumption)
    | exact wf_side (by assumption)
    | exact wf_ddr (by assumption)
    | exact wf_window (by assumption)
    | apply memWrite_wf
    | with_reducible first
      | apply onMem_kept

theorem nakQp_kept {s0 : State} {s : State} (q : Nat) (why : Byte) (hk : Kept s0 s) : Kept s0 (nakQp s q why) := by
  unfold nakQp
  repeat' first
    | assumption
    | with_reducible first
      | apply txMsg_kept
      | apply qpError_kept

theorem execOrderWindowWrite_kept {s0 : State} (q addr rkey : Nat) (d : List Byte) {s : State} (hk : Kept s0 s) : KeptOut s0 (execOrderWindowWrite q addr rkey d s) := by
  unfold execOrderWindowWrite
  repeat' first
    | assumption
    | refine fun (x : State) (hx : Kept s0 x) => ?_
    | split
    | with_reducible first
      | apply heard_kept
      | apply windowPut_kept
      | apply nakQp_kept
      | apply keptOut_next

theorem takeHead_kept {s0 : State} {s : State} (m : Nat) (hk : Kept s0 s) : Kept s0 (takeHead s m) := by
  unfold takeHead
  repeat' first
    | (intro x; first | refine kept_cut (s0 := s0) (x := x) ?_ ?_ | clear_value x)
    | (intro hx; clear_value x)
    | lift_lets
    | split
    | with_reducible first
      | apply bump_kept
      | apply setMailbox_kept
      | apply deliver_kept
      | apply refuse_kept
      | refine kept_mk (by assumption) id (Nat.le_refl _) (fun _ w => w) rfl rfl

theorem execOrderTake_kept {s0 : State} (m : Nat) {s : State} (hk : Kept s0 s) : KeptOut s0 (execOrderTake m s) := by
  unfold execOrderTake
  repeat' first
    | assumption
    | with_reducible first
      | apply takeHead_kept
      | apply keptOut_next

theorem execMailboxSweep_kept {s0 s : State} (hk : Kept s0 s) : KeptOut s0 (execMailboxSweep s) :=
  keptOut_next (kept_foldl _ (fun _ _ hx => takeHead_kept _ hx) hk)

theorem readIndex_kept {s0 : State} {s : State} (q : Nat) (v : Qp) (hk : Kept s0 s) : Kept s0 (readIndex s q v) := by
  unfold readIndex
  repeat' first
    | assumption
    | split
    | with_reducible first
      | apply setQp_kept
      | apply hostReq_kept

theorem execCompletionWrite_kept {s0 : State} (q : Nat) {s : State} (hk : Kept s0 s) : KeptOut s0 (execCompletionWrite q s) := by
  unfold execCompletionWrite
  dsimp only
  repeat' first
    | assumption
    | split
    | with_reducible first
      | apply bump_kept
      | apply setQp_kept
      | apply roce_kept
      | apply readIndex_kept
      | apply keptOut_next

theorem execConsumerIndexRead_kept {s0 : State} (q c : Nat) {s : State} (hk : Kept s0 s) : KeptOut s0 (execConsumerIndexRead q c s) := by
  unfold execConsumerIndexRead
  repeat' first
    | assumption
    | refine fun (x : State) (hx : Kept s0 x) => ?_
    | with_reducible first
      | apply onQp_kept
      | apply heard_kept
      | apply keptOut_next

end Sys2Proof.Machine
end

