-- ==== Sys2Proof/Laws/TrustKept.lean ====
section
/-!
SUPPORT. What the operations of Machine/Trust.lean keep: the queue, the clock, the memories' form, the counters' 64 bits and the fuses.
-/

namespace Sys2Proof.Machine

theorem random_kept2 {s0 s : State} (n : Nat) (hk : Kept s0 s) : Kept s0 (random s n).2 := draw_kept hk

theorem random_kept2_eq {s0 s u0 : State} {n : Nat} {q0 : List Byte} (e0 : random s n = (q0, u0)) (hk : Kept s0 s) :
    Kept s0 u0 := by
  have := random_kept2 n hk
  rw [e0] at this
  exact this

theorem ledgerPut_kept {s0 : State} {s : State} (n : Nat) (hk : Kept s0 s) : Kept s0 (ledgerPut s n) := by
  unfold ledgerPut
  repeat' first
    | with_reducible first
      | apply bump_kept
      | refine kept_mk (by assumption) id (Nat.le_refl _) (fun _ w => w) rfl rfl

theorem noteLow_kept {s0 : State} {s : State} (hk : Kept s0 s) : Kept s0 (noteLow s) := by
  unfold noteLow
  repeat' first
    | split
    | with_reducible first
      | apply postEvent_kept
      | refine kept_mk (by assumption) id (Nat.le_refl _) (fun _ w => w) rfl rfl

theorem reserveIndex_kept {s0 : State} {s : State} (ok0 ok1 okC : Bool) (hk : Kept s0 s) : KeptP s0 (reserveIndex s ok0 ok1 okC) := by
  unfold reserveIndex
  repeat' first
    | (intro x; first | refine kept_cut (s0 := s0) (x := x) ?_ ?_ | (have t : Trust := x; clear t; unfold x; clear x) | clear_value x)
    | (intro hx; clear_value x)
    | lift_lets
    | split
    | with_reducible first
      | apply bump_kept
      | apply ledgerPut_kept
      | apply noteLow_kept
      | apply keptP_mk
      | refine kept_mk (by assumption) id (Nat.le_refl _) (fun _ w => w) rfl rfl

theorem reserveIndex_kept1 {s0 : State} {s : State} (ok0 ok1 okC : Bool) (hk : Kept s0 s) : Kept s0 (reserveIndex s ok0 ok1 okC).1 :=
  reserveIndex_kept (ok0 := ok0) (ok1 := ok1) (okC := okC) hk

theorem reserveIndex_kept_eq {s0 u0 : State} {s : State} {ok0 ok1 okC : Bool} {q0} (e0 : reserveIndex s ok0 ok1 okC = (u0, q0)) (hk : Kept s0 s) : Kept s0 u0 := by
  have := reserveIndex_kept1 (ok0 := ok0) (ok1 := ok1) (okC := okC) hk
  rw [e0] at this
  exact this

theorem beginSign_kept {s0 : State} {s : State} (o : Order) (ok0 ok1 okC : Bool) (hk : Kept s0 s) : Kept s0 (beginSign s o ok0 ok1 okC) := by
  unfold beginSign
  repeat' first
    | lift_lets
    | split
    | (with_reducible refine kept_mk ?_ id (Nat.le_refl _) (fun _ w => w) rfl rfl; first | assumption | with_reducible apply postEvent_kept | with_reducible apply complete_kept | with_reducible apply reserveIndex_kept | with_reducible apply reserveIndex_kept1)
    | dsimp only

theorem pumpSign_kept {s0 : State} (f : Nat) {s : State} (ok0 ok1 okC : Bool) (hk : Kept s0 s) :
    Kept s0 (pumpSign f s ok0 ok1 okC) := by
  induction f generalizing s with
  | zero => exact hk
  | succ f ih =>
    unfold pumpSign
    split
    · exact hk
    · split
      · exact hk
      · dsimp only
        have hs : ∀ l, Kept s0 { s with trust := { s.trust with signQ := l } } :=
          fun l => kept_mk hk id (Nat.le_refl _) (fun _ w => w) rfl rfl
        split
        · refine ih ?_
          split
          · exact hs _
          · exact beginSign_kept _ _ _ _ (hs _)
        · exact ih (hs _)

theorem signNext_kept {s0 : State} {s : State} (ok0 ok1 okC : Bool) (hk : Kept s0 s) : Kept s0 (signNext s ok0 ok1 okC) := by
  unfold signNext
  repeat' first
    | assumption
    | with_reducible first
      | apply pumpSign_kept

theorem attestOwn_kept {s0 : State} (ok0 ok1 okC : Bool) {s : State} (o : Order) (hk : Kept s0 s) : Kept s0 (attestOwn ok0 ok1 okC s o) := by
  unfold attestOwn
  repeat' first
    | (intro x; first | refine kept_cut (s0 := s0) (x := x) ?_ ?_ | (have t : Trust := x; clear t; unfold x; clear x) | clear_value x)
    | (intro hx; clear_value x)
    | lift_lets
    | split
    | with_reducible first
      | apply complete_kept
      | apply beginOrder_kept
      | apply signNext_kept
      | refine kept_mk (by assumption) id (Nat.le_refl _) (fun _ w => w) rfl rfl

theorem execAttest_kept {s0 : State} (m n : Nat) (ok0 ok1 okC : Bool) {s : State} (hk : Kept s0 s) : KeptOut s0 (execAttest m n ok0 ok1 okC s) := by
  unfold execAttest
  repeat' first
    | assumption
    | with_reducible first
      | apply orderCmd_kept
      | apply attestOwn_kept
      | apply keptOut_next

theorem releaseQuote_kept {s0 : State} {s : State} (g : Sign) (hk : Kept s0 s) : Kept s0 (releaseQuote s g) := by
  unfold releaseQuote
  repeat' first
    | assumption
    | split
    | with_reducible first
      | apply bump_kept
      | apply complete_kept
      | apply sendResult_kept

theorem execSignatureRelease_kept {s0 : State} (ok0 ok1 okC : Bool) {s : State} (hk : Kept s0 s) : KeptOut s0 (execSignatureRelease ok0 ok1 okC s) := by
  unfold execSignatureRelease
  repeat' first
    | (intro x; first | refine kept_cut (s0 := s0) (x := x) ?_ ?_ | (have t : Trust := x; clear t; unfold x; clear x) | clear_value x)
    | (intro hx; clear_value x)
    | lift_lets
    | split
    | with_reducible first
      | apply signNext_kept
      | apply releaseQuote_kept
      | apply keptOut_next
      | refine kept_mk (by assumption) id (Nat.le_refl _) (fun _ w => w) rfl rfl

theorem newPair_kept {s0 : State} {s : State} (hk : Kept s0 s) : Kept s0 (newPair s) := by
  unfold newPair
  repeat' first
    | (with_reducible refine kept_mk ?_ id (Nat.le_refl _) (fun _ w => w) rfl rfl; first | assumption | with_reducible apply random_kept2)

theorem execEphemeralKeyGeneration_kept {s0 : State} (ok0 ok1 okC : Bool) {s : State} (hk : Kept s0 s) : KeptOut s0 (execEphemeralKeyGeneration ok0 ok1 okC s) := by
  unfold execEphemeralKeyGeneration
  repeat' first
    | assumption
    | split
    | with_reducible first
      | apply signNext_kept
      | apply newPair_kept
      | apply keptOut_next

theorem openNow_kept {s0 : State} {s : State} (q : Nat) (ss req : List Byte) (hk : Kept s0 s) : Kept s0 (openNow s q ss req) := by
  unfold openNow
  repeat' first
    | refine fun m (w : Memory.wf m = true) => wf_mk ?_ ?_ ?_ ?_ ?_
    | exact wf_shelf (by assumption)
    | exact wf_cellar (by assumption)
    | exact wf_side (by assumption)
    | exact wf_ddr (by assumption)
    | exact wf_window (by assumption)
    | with_reducible first
      | refine random_kept2_eq (by assumption) ?_
    | (with_reducible refine kept_mk ?_ id (Nat.le_refl _) (fun _ w => w) rfl rfl; first | assumption | with_reducible apply bump_kept | with_reducible apply zeroTables_kept | with_reducible apply onQp_kept | with_reducible apply postEvent_kept | with_reducible apply random_kept2 | with_reducible apply onMem_kept)

theorem openSessionOwn_kept {s0 : State} (d : Option (List Byte)) {s : State} (o : Order) (hk : Kept s0 s) : Kept s0 (openSessionOwn d s o) := by
  unfold openSessionOwn
  repeat' first
    | assumption
    | (intro x; first | refine kept_cut (s0 := s0) (x := x) ?_ ?_ | clear_value x)
    | (intro hx; clear_value x)
    | lift_lets
    | split
    | with_reducible first
      | apply complete_kept
      | apply sendResult_kept
      | apply hostAsk_kept
      | apply openNow_kept

theorem execOpenSession_kept {s0 : State} (m n : Nat) (d : Option (List Byte)) {s : State} (hk : Kept s0 s) : KeptOut s0 (execOpenSession m n d s) := by
  unfold execOpenSession
  repeat' first
    | assumption
    | with_reducible first
      | apply orderCmd_kept
      | apply openSessionOwn_kept
      | apply keptOut_next

theorem wipeSession_kept {s0 : State} {s : State} (hk : Kept s0 s) : Kept s0 (wipeSession s) := by
  unfold wipeSession
  repeat' first
    | refine fun (w : Memory.wf _ = true) => wf_mk ?_ ?_ ?_ ?_ ?_
    | exact wf_ddr (by assumption)
    | exact wf_window (by assumption)
    | exact (rfl : memWf 0 [] = true)
    | (intro x; first | refine kept_cut (s0 := s0) (x := x) ?_ ?_ | clear_value x)
    | (intro hx; clear_value x)
    | lift_lets
    | with_reducible first
      | refine kept_mk (by assumption) id (Nat.le_refl _) (fun _ w => w) rfl rfl
      | apply onMem_kept

theorem closeTxn_kept {s0 : State} {s : State} (hk : Kept s0 s) : Kept s0 (closeTxn s) := by
  unfold closeTxn
  repeat' first
    | (intro x; first | refine kept_cut (s0 := s0) (x := x) ?_ ?_ | clear_value x)
    | (intro hx; clear_value x)
    | lift_lets
    | split
    | with_reducible first
      | apply mgmtAll_kept
      | refine kept_mk (by assumption) id (Nat.le_refl _) (fun _ w => w) rfl rfl
    | unfold x

theorem closeSessionOwn_kept {s0 : State} {s : State} (o : Order) (hk : Kept s0 s) : Kept s0 (closeSessionOwn s o) := by
  unfold closeSessionOwn
  repeat' first
    | with_reducible first
      | apply endAllRuns_kept
      | apply wipeSession_kept
      | apply closeTxn_kept
      | refine kept_mk (by assumption) id (Nat.le_refl _) (fun _ w => w) rfl rfl

theorem execCloseSession_kept {s0 : State} (m n : Nat) {s : State} (hk : Kept s0 s) : KeptOut s0 (execCloseSession m n s) := by
  unfold execCloseSession
  repeat' first
    | assumption
    | with_reducible first
      | apply orderCmd_kept
      | apply closeSessionOwn_kept
      | apply keptOut_next

theorem endHeld_kept {s0 : State} {s : State} (x : Nat × Nat × BitVec 8) (hk : Kept s0 s) : Kept s0 (endHeld s x) := by
  unfold endHeld
  repeat' first
    | assumption
    | split
    | with_reducible first
      | apply complete_kept

theorem execCloseSessionComplete_kept {s0 s : State} (hk : Kept s0 s) : KeptOut s0 (execCloseSessionComplete s) := by
  refine keptOut_next ?_
  split
  · exact hk
  · rename_i m n _ _
    split
    · exact hk
    · extract_lets l sid src s1 s2 s3 s4 s5
      have h1 : Kept s0 s1 := kept_mk hk id (Nat.le_refl _) (fun _ w => w) rfl rfl
      have h2 : Kept s0 s2 := kept_foldl _ (fun _ _ hx => endRun_kept _ _ hx) h1
      have h3 : Kept s0 s3 := kept_foldl _ (fun _ _ hx => endHeld_kept _ hx) h2
      have h4 : Kept s0 s4 := by
        unfold s4
        split
        · exact complete_kept _ _ _ h3
        · exact h3
      have h5 : Kept s0 (s4.onMem (fun x => { x with zeroing := true, zeroAt := 0 })) :=
        onMem_kept (fun m w => wf_mk (wf_shelf w) (wf_cellar w) (wf_side w) (wf_ddr w) (wf_window w)) h4
      refine postEvent_kept _ _ ?_
      exact kept_mk h5 id (Nat.le_refl _) (fun _ w => w) rfl rfl

theorem setCopy_kept {s0 : State} {s : State} (c : Nat) (v : FwCopy) (hk : Kept s0 s) : Kept s0 (setCopy s c v) := by
  unfold setCopy
  repeat' first
    | split
    | with_reducible first
      | refine kept_mk (by assumption) id (Nat.le_refl _) (fun _ w => w) rfl rfl

theorem updateFirmwareOwn_kept {s0 : State} (d : Option (List Byte)) {s : State} (o : Order) (hk : Kept s0 s) : Kept s0 (updateFirmwareOwn d s o) := by
  unfold updateFirmwareOwn
  repeat' first
    | (intro x; first | refine kept_cut (s0 := s0) (x := x) ?_ ?_ | (have t : Trust := x; clear t; unfold x; clear x) | clear_value x)
    | (intro hx; clear_value x)
    | lift_lets
    | split
    | with_reducible first
      | apply complete_kept
      | apply beginOrder_kept
      | apply hostAsk_kept
      | apply setCopy_kept
      | refine kept_mk (by assumption) id (Nat.le_refl _) (fun _ w => w) rfl rfl

theorem execUpdateFirmware_kept {s0 : State} (m n : Nat) (d : Option (List Byte)) {s : State} (hk : Kept s0 s) : KeptOut s0 (execUpdateFirmware m n d s) := by
  unfold execUpdateFirmware
  repeat' first
    | assumption
    | with_reducible first
      | apply orderCmd_kept
      | apply updateFirmwareOwn_kept
      | apply keptOut_next

theorem execFirmwareStaged_kept {s0 : State} (ok : Bool) {s : State} (hk : Kept s0 s) : KeptOut s0 (execFirmwareStaged ok s) := by
  unfold execFirmwareStaged
  repeat' first
    | (intro hx; clear_value x)
    | lift_lets
    | split
    | with_reducible first
      | apply postEvent_kept
      | apply complete_kept
      | apply setCopy_kept
      | apply keptOut_next
      | refine kept_mk (by assumption) id (Nat.le_refl _) (fun _ w => w) rfl rfl
    | unfold x

end Sys2Proof.Machine
end

