-- ==== Sys2Proof/Laws/HealthKept.lean ====
section
/-!
SUPPORT. What the operations of Machine/Health.lean keep: the queue, the clock, the memories' form, the counters' 64 bits and the fuses.
-/

namespace Sys2Proof.Machine

theorem postOnce_kept {s0 : State} {s : State} (code : Nat) (detail : List Byte) (hk : Kept s0 s) : Kept s0 (postOnce s code detail) := by
  unfold postOnce
  repeat' first
    | split
    | with_reducible first
      | apply postEvent_kept
      | refine kept_mk (by assumption) id (Nat.le_refl _) (fun _ w => w) rfl rfl

theorem degrade_kept {s0 : State} {s : State} (k : Nat) (written ok : Bool) (hk : Kept s0 s) : Kept s0 (degrade s k written ok) := by
  unfold degrade
  repeat' first
    | split
    | with_reducible first
      | apply postOnce_kept
      | refine kept_mk (by assumption) id (Nat.le_refl _) (fun _ w => w) rfl rfl

theorem writeHead_kept {s0 : State} {s : State} (ok0 ok1 : Bool) (hk : Kept s0 s) : Kept s0 (writeHead s ok0 ok1) := by
  unfold writeHead
  repeat' first
    | lift_lets
    | split
    | with_reducible first
      | apply bump_kept
      | apply postOnce_kept
      | apply degrade_kept
      | refine kept_mk (by assumption) id (Nat.le_refl _) (fun _ w => w) rfl rfl
    | dsimp only

theorem execCofferWrite_kept {s0 : State} (ok0 ok1 : Bool) {s : State} (hk : Kept s0 s) : KeptOut s0 (execCofferWrite ok0 ok1 s) := by
  unfold execCofferWrite
  repeat' first
    | assumption
    | split
    | with_reducible first
      | apply writeHead_kept
      | apply keptOut_next

theorem finishCoffer_kept {s0 : State} {s : State} (hk : Kept s0 s) : Kept s0 (finishCoffer s) := by
  unfold finishCoffer
  repeat' first
    | (intro x; first | refine kept_cut (s0 := s0) (x := x) ?_ ?_ | clear_value x)
    | (intro hx; clear_value x)
    | lift_lets
    | with_reducible first
      | apply writeHead_kept
      | refine kept_mk (by assumption) id (Nat.le_refl _) (fun _ w => w) rfl rfl

theorem execHoldUp_kept {s0 : State} {s : State} (hk : Kept s0 s) : KeptOut s0 (execHoldUp s) := by
  unfold execHoldUp
  repeat' first
    | assumption
    | with_reducible first
      | apply finishCoffer_kept
      | apply keptOut_next

theorem poisonWord_kept {s0 : State} {s : State} (c w : Nat) (hk : Kept s0 s) : Kept s0 (poisonWord s c w) := by
  unfold poisonWord
  repeat' first
    | assumption
    | refine fun (w : Memory.wf _ = true) => wf_mk ?_ ?_ ?_ ?_ ?_
    | exact wf_shelf (by assumption)
    | exact wf_cellar (by assumption)
    | exact wf_side (by assumption)
    | exact wf_ddr (by assumption)
    | exact wf_window (by assumption)
    | apply memZero_wf
    | (intro x; first | refine kept_cut (s0 := s0) (x := x) ?_ ?_ | clear_value x)
    | (intro hx; clear_value x)
    | lift_lets
    | split
    | with_reducible first
      | apply bump_kept
      | apply faultEntry_kept
      | apply postEvent_kept
      | apply onMem_kept

theorem execShelfScrub_kept {s0 : State} (core err : Nat) {s : State} (hk : Kept s0 s) : KeptOut s0 (execShelfScrub core err s) := by
  unfold execShelfScrub
  repeat' first
    | assumption
    | (intro hx; clear_value x)
    | lift_lets
    | split
    | with_reducible first
      | apply bump_kept
      | apply onCore_kept
      | apply poisonWord_kept
      | apply keptOut_next
    | unfold x

theorem execLockstepMismatch_kept {s0 : State} {s : State} (hk : Kept s0 s) : KeptOut s0 (execLockstepMismatch s) := by
  unfold execLockstepMismatch
  repeat' first
    | (intro x; first | refine kept_cut (s0 := s0) (x := x) ?_ ?_ | clear_value x)
    | (intro hx; clear_value x)
    | lift_lets
    | split
    | with_reducible first
      | apply faultEntry_kept
      | apply keptOut_next
      | refine kept_mk (by assumption) id (Nat.le_refl _) (fun _ w => w) rfl rfl

theorem execImionRestarted_kept {s0 : State} {s : State} (hk : Kept s0 s) : KeptOut s0 (execImionRestarted s) := by
  unfold execImionRestarted
  repeat' first
    | refine fun (x : State) _ (hx : Kept s0 x) => ?_
    | split
    | with_reducible first
      | apply bump_kept
      | apply faultEntry_kept
      | apply deliverEvent_kept
      | apply postEvent_kept
      | apply sendMgmtNow_kept
      | apply keptOut_next
      | refine kept_mk (by assumption) id (Nat.le_refl _) (fun _ w => w) rfl rfl
      | apply kept_foldl

theorem execPowerSample_kept {s0 : State} (watts : Nat) {s : State} (hk : Kept s0 s) : KeptOut s0 (execPowerSample watts s) := by
  unfold execPowerSample
  repeat' first
    | split
    | with_reducible first
      | apply keptOut_next
      | refine kept_mk (by assumption) id (Nat.le_refl _) (fun _ w => w) rfl rfl

theorem setBudget_kept {s0 : State} {s : State} (d : Nat × List Nat) (b : Nat) (hk : Kept s0 s) : Kept s0 (setBudget s d b) := by
  unfold setBudget
  repeat' first
    | assumption
    | with_reducible first
      | apply bump_kept
      | apply onCore_kept

theorem countHoldMs_kept {s0 : State} {s : State} (hk : Kept s0 s) : Kept s0 (countHoldMs s) := by
  unfold countHoldMs
  repeat' first
    | (intro x; first | refine kept_cut (s0 := s0) (x := x) ?_ ?_ | clear_value x)
    | lift_lets
    | split
    | with_reducible first
      | apply bump_kept
      | refine kept_mk (by assumption) id (Nat.le_refl _) (fun _ w => w) rfl rfl

theorem noteLimiting_kept {s0 : State} {s : State} (hk : Kept s0 s) : Kept s0 (noteLimiting s) := by
  unfold noteLimiting
  repeat' first
    | (intro x; first | refine kept_cut (s0 := s0) (x := x) ?_ ?_ | (have t : _ → State := x; clear t; unfold x; clear x) | (have t : State → _ := x; clear t; unfold x; clear x) | clear_value x)
    | (intro hx; clear_value x)
    | lift_lets
    | split
    | with_reducible first
      | apply cofferAdd_kept
      | apply postEvent_kept
      | refine kept_mk (by assumption) id (Nat.le_refl _) (fun _ w => w) rfl rfl

theorem execGovernorBudget_kept {s0 : State} (demands : List (Nat × List Nat)) (perStep : Nat) (idle : Nat) {s : State} (hk : Kept s0 s) : KeptOut s0 (execGovernorBudget demands perStep idle s) := by
  unfold execGovernorBudget
  repeat' first
    | assumption
    | refine fun (x : State) _ (hx : Kept s0 x) => ?_
    | (intro hx; clear_value x)
    | lift_lets
    | split
    | with_reducible first
      | apply onCore_kept
      | apply setBudget_kept
      | apply countHoldMs_kept
      | apply noteLimiting_kept
      | apply keptOut_next
      | apply kept_foldl

theorem execCurrentLimit_kept {s0 : State} (amps : Nat) {s : State} (hk : Kept s0 s) : KeptOut s0 (execCurrentLimit amps s) := by
  unfold execCurrentLimit
  repeat' first
    | split
    | with_reducible first
      | apply keptOut_next
      | refine kept_mk (by assumption) id (Nat.le_refl _) (fun _ w => w) rfl rfl

theorem countThrottleMs_kept {s0 : State} {s : State} (hk : Kept s0 s) : Kept s0 (countThrottleMs s) := by
  unfold countThrottleMs
  repeat' first
    | (intro x; first | refine kept_cut (s0 := s0) (x := x) ?_ ?_ | clear_value x)
    | lift_lets
    | split
    | with_reducible first
      | apply bump_kept
      | refine kept_mk (by assumption) id (Nat.le_refl _) (fun _ w => w) rfl rfl

theorem thermalAct_kept {s0 : State} {s : State} (t sensor : Nat) (hk : Kept s0 s) : Kept s0 (thermalAct s t sensor) := by
  unfold thermalAct
  repeat' first
    | split
    | with_reducible first
      | apply postEvent_kept
      | apply countThrottleMs_kept
      | refine kept_mk (by assumption) id (Nat.le_refl _) (fun _ w => w) rfl rfl
    | unfold x

theorem mainReset_kept {s0 s : State} (hk : Kept s0 s) : Kept s0 (mainReset s) := by
  have h := finishCoffer_kept hk
  refine h.trans ⟨rfl, rfl, fun w => wf_mk (wf_shelf w) (wf_cellar w) (wf_side w) (wf_ddr w) rfl, fun w => filter_all w,
    Nat.le_refl _, fun _ w => w, rfl, rfl⟩

theorem noteCause_kept {s0 : State} {s : State} (c : Nat) (hk : Kept s0 s) : Kept s0 (noteCause s c) := by
  unfold noteCause
  repeat' first
    | with_reducible first
      | refine kept_mk (by assumption) id (Nat.le_refl _) (fun _ w => w) rfl rfl

theorem trip_kept {s0 : State} {s : State} (hk : Kept s0 s) : Kept s0 (trip s) := by
  unfold trip
  repeat' first
    | (intro x; first | refine kept_cut (s0 := s0) (x := x) ?_ ?_ | clear_value x)
    | (intro hx; clear_value x)
    | lift_lets
    | split
    | with_reducible first
      | apply faultEntry_kept
      | apply finishCoffer_kept
      | apply mainReset_kept
      | apply noteCause_kept
      | refine kept_mk (by assumption) id (Nat.le_refl _) (fun _ w => w) rfl rfl

theorem execThermalSample_kept {s0 : State} (temps : List Nat) {s : State} (hk : Kept s0 s) : KeptOut s0 (execThermalSample temps s) := by
  unfold execThermalSample
  repeat' first
    | split
    | with_reducible first
      | apply thermalAct_kept
      | apply trip_kept
      | apply keptOut_next
      | refine kept_mk (by assumption) id (Nat.le_refl _) (fun _ w => w) rfl rfl

theorem execThermtrip_kept {s0 : State} (_sensor : Nat) {s : State} (hk : Kept s0 s) : KeptOut s0 (execThermtrip _sensor s) := by
  unfold execThermtrip
  repeat' first
    | assumption
    | with_reducible first
      | apply trip_kept
      | apply keptOut_next

theorem noteMargin_kept {s0 : State} {s : State} (hk : Kept s0 s) : Kept s0 (noteMargin s) := by
  unfold noteMargin
  repeat' first
    | (intro x; first | refine kept_cut (s0 := s0) (x := x) ?_ ?_ | clear_value x)
    | lift_lets
    | split
    | with_reducible first
      | apply postEvent_kept
      | refine kept_mk (by assumption) id (Nat.le_refl _) (fun _ w => w) rfl rfl

theorem raiseG_kept {s0 : State} {s : State} (slack mon : Nat) (tripped : Bool) (hk : Kept s0 s) : Kept s0 (raiseG s slack mon tripped) := by
  unfold raiseG
  repeat' first
    | (intro x; first | refine kept_cut (s0 := s0) (x := x) ?_ ?_ | clear_value x)
    | (intro hx; clear_value x)
    | lift_lets
    | split
    | with_reducible first
      | apply bump_kept
      | apply postEvent_kept
      | apply noteMargin_kept
      | refine kept_mk (by assumption) id (Nat.le_refl _) (fun _ w => w) rfl rfl

theorem execMarginSample_kept {s0 : State} (slacks : List Nat) {s : State} (hk : Kept s0 s) : KeptOut s0 (execMarginSample slacks s) := by
  unfold execMarginSample
  repeat' first
    | split
    | with_reducible first
      | apply raiseG_kept
      | apply keptOut_next
      | refine kept_mk (by assumption) id (Nat.le_refl _) (fun _ w => w) rfl rfl
    | unfold x

theorem execMarginTrip_kept {s0 : State} (mon slack : Nat) {s : State} (hk : Kept s0 s) : KeptOut s0 (execMarginTrip mon slack s) := by
  unfold execMarginTrip
  repeat' first
    | assumption
    | split
    | with_reducible first
      | apply bump_kept
      | apply raiseG_kept
      | apply keptOut_next

theorem execMarginDaily_kept {s0 : State} {s : State} (hk : Kept s0 s) : KeptOut s0 (execMarginDaily s) := by
  unfold execMarginDaily
  repeat' first
    | (intro x; first | refine kept_cut (s0 := s0) (x := x) ?_ ?_ | clear_value x)
    | (intro hx; clear_value x)
    | lift_lets
    | split
    | with_reducible first
      | apply cofferAdd_kept
      | apply keptOut_next
      | refine kept_mk (by assumption) id (Nat.le_refl _) (fun _ w => w) rfl rfl

theorem execAvsSetpoint_kept {s0 : State} (acked : Bool) {s : State} (hk : Kept s0 s) : KeptOut s0 (execAvsSetpoint acked s) := by
  unfold execAvsSetpoint
  repeat' first
    | (intro x; first | refine kept_cut (s0 := s0) (x := x) ?_ ?_ | clear_value x)
    | intro y
    | lift_lets
    | split
    | with_reducible first
      | apply emit_kept
      | apply keptOut_next
      | refine kept_mk (by assumption) id (Nat.le_refl _) (fun _ w => w) rfl rfl

end Sys2Proof.Machine
end

