-- ==== Sys2Proof/Laws/BootKept.lean ====
section
/-!
SUPPORT. What the operations of Machine/Boot.lean keep: the queue, the clock, the memories' form, the counters' 64 bits and the fuses.
-/

namespace Sys2Proof.Machine

theorem tryBoot_kept {s0 : State} {s : State} (hk : Kept s0 s) : Kept s0 (tryBoot s) := by
  unfold tryBoot
  repeat' first
    | split
    | with_reducible first
      | refine kept_mk (by assumption) id (Nat.le_refl _) (fun _ w => w) rfl rfl

theorem resetFor_kept {s0 : State} {s : State} (cause : Nat) (hk : Kept s0 s) : Kept s0 (resetFor s cause) := by
  unfold resetFor
  repeat' first
    | assumption
    | split
    | with_reducible first
      | apply mainReset_kept
      | apply noteCause_kept

theorem execResetNAssert_kept {s0 : State} {s : State} (hk : Kept s0 s) : KeptOut s0 (execResetNAssert s) := by
  unfold execResetNAssert
  repeat' first
    | (intro x; first | refine kept_cut (s0 := s0) (x := x) ?_ ?_ | clear_value x)
    | (intro hx; clear_value x)
    | lift_lets
    | split
    | with_reducible first
      | apply noteCause_kept
      | apply resetFor_kept
      | apply keptOut_next
      | refine kept_mk (by assumption) id (Nat.le_refl _) (fun _ w => w) rfl rfl
    | unfold x

theorem execResetNRelease_kept {s0 : State} {s : State} (hk : Kept s0 s) : KeptOut s0 (execResetNRelease s) := by
  unfold execResetNRelease
  repeat' first
    | split
    | with_reducible first
      | apply tryBoot_kept
      | apply keptOut_next
      | refine kept_mk (by assumption) id (Nat.le_refl _) (fun _ w => w) rfl rfl

theorem execRailRise_kept {s0 : State} (r : Nat) {s : State} (hk : Kept s0 s) : KeptOut s0 (execRailRise r s) := by
  unfold execRailRise
  repeat' first
    | (intro x; first | refine kept_cut (s0 := s0) (x := x) ?_ ?_ | clear_value x)
    | (intro hx; clear_value x)
    | lift_lets
    | split
    | with_reducible first
      | apply tryBoot_kept
      | apply keptOut_next
      | refine kept_mk (by assumption) id (Nat.le_refl _) (fun _ w => w) rfl rfl
    | unfold x

theorem tapReset_kept {s0 : State} {s : State} (hk : Kept s0 s) : Kept s0 (tapReset s) := by
  unfold tapReset
  repeat' first
    | with_reducible first
      | refine kept_mk (by assumption) id (Nat.le_refl _) (fun _ w => w) rfl rfl

theorem execRailLow_kept {s0 : State} (r : Nat) {s : State} (hk : Kept s0 s) : KeptOut s0 (execRailLow r s) := by
  unfold execRailLow
  repeat' first
    | (intro x; first | refine kept_cut (s0 := s0) (x := x) ?_ ?_ | clear_value x)
    | (intro hx; clear_value x)
    | lift_lets
    | split
    | with_reducible first
      | apply resetFor_kept
      | apply tapReset_kept
      | apply keptOut_next
      | refine kept_mk (by assumption) id (Nat.le_refl _) (fun _ w => w) rfl rfl

theorem stbyFall_kept {s0 s : State} (hk : Kept s0 s) : Kept s0 (stbyFall s) := by
  have h := resetFor_kept 0 hk
  unfold stbyFall
  exact h.trans ⟨rfl, rfl, id, fun w => filter_all w, Nat.le_refl _, fun _ w => w, rfl, rfl⟩

theorem execRailHigh_kept {s0 : State} (r : Nat) {s : State} (hk : Kept s0 s) : KeptOut s0 (execRailHigh r s) := by
  unfold execRailHigh
  repeat' first
    | (intro x; first | refine kept_cut (s0 := s0) (x := x) ?_ ?_ | clear_value x)
    | (intro hx; clear_value x)
    | lift_lets
    | split
    | with_reducible first
      | apply tryBoot_kept
      | apply resetFor_kept
      | apply stbyFall_kept
      | apply keptOut_next
      | refine kept_mk (by assumption) id (Nat.le_refl _) (fun _ w => w) rfl rfl

theorem execVddStbyApplied_kept {s0 : State} {s : State} (hk : Kept s0 s) : KeptOut s0 (execVddStbyApplied s) := by
  unfold execVddStbyApplied
  repeat' first
    | split
    | with_reducible first
      | apply keptOut_next
      | refine kept_mk (by assumption) id (Nat.le_refl _) (fun _ w => w) rfl rfl

theorem execVddStbyFall_kept {s0 : State} {s : State} (hk : Kept s0 s) : KeptOut s0 (execVddStbyFall s) := by
  unfold execVddStbyFall
  repeat' first
    | assumption
    | split
    | with_reducible first
      | apply stbyFall_kept
      | apply keptOut_next

theorem execThermtripRelease_kept {s0 : State} {s : State} (hk : Kept s0 s) : KeptOut s0 (execThermtripRelease s) := by
  unfold execThermtripRelease
  repeat' first
    | split
    | with_reducible first
      | apply tryBoot_kept
      | apply keptOut_next
      | refine kept_mk (by assumption) id (Nat.le_refl _) (fun _ w => w) rfl rfl

theorem execRefclkCoreDetect_kept {s0 : State} {s : State} (hk : Kept s0 s) : KeptOut s0 (execRefclkCoreDetect s) := by
  unfold execRefclkCoreDetect
  repeat' first
    | with_reducible first
      | apply tryBoot_kept
      | apply keptOut_next
      | refine kept_mk (by assumption) id (Nat.le_refl _) (fun _ w => w) rfl rfl

theorem execRefclkCoreLoss_kept {s0 : State} {s : State} (hk : Kept s0 s) : KeptOut s0 (execRefclkCoreLoss s) := by
  unfold execRefclkCoreLoss
  repeat' first
    | (intro x; first | refine kept_cut (s0 := s0) (x := x) ?_ ?_ | clear_value x)
    | (intro hx; clear_value x)
    | lift_lets
    | split
    | with_reducible first
      | apply resetFor_kept
      | apply keptOut_next
      | refine kept_mk (by assumption) id (Nat.le_refl _) (fun _ w => w) rfl rfl
    | unfold x

theorem execRefclkSerChange_kept {s0 : State} (n : Nat) (ok : Bool) {s : State} (hk : Kept s0 s) : KeptOut s0 (execRefclkSerChange n ok s) := by
  unfold execRefclkSerChange
  repeat' first
    | refine fun (x : State) _ (hx : Kept s0 x) => ?_
    | (intro hx; clear_value x)
    | lift_lets
    | split
    | with_reducible first
      | apply onLink_kept
      | apply keptOut_next
      | refine kept_mk (by assumption) id (Nat.le_refl _) (fun _ w => w) rfl rfl
      | apply kept_foldl

theorem restoreIndex_kept {s0 : State} {s : State} (hk : Kept s0 s) : Kept s0 (restoreIndex s) := by
  unfold restoreIndex
  repeat' first
    | (intro x; first | refine kept_cut (s0 := s0) (x := x) ?_ ?_ | (have t : Trust := x; clear t; unfold x; clear x) | clear_value x)
    | lift_lets
    | split
    | with_reducible first
      | refine kept_mk (by assumption) id (Nat.le_refl _) (fun _ w => w) rfl rfl

theorem runCopy_kept {s0 : State} {s : State} (c : Nat) (trial failed : Bool) (hk : Kept s0 s) : Kept s0 (runCopy s c trial failed) := by
  unfold runCopy
  repeat' first
    | with_reducible first
      | refine kept_mk (by assumption) id (Nat.le_refl _) (fun _ w => w) rfl rfl

theorem markBad_kept {s0 : State} {s : State} (c : Nat) (hk : Kept s0 s) : Kept s0 (markBad s c) := by
  unfold markBad
  repeat' first
    | assumption
    | with_reducible first
      | apply setCopy_kept

theorem tryGood_kept {s0 : State} {s : State} (c : Nat) (failed : Bool) (hk : Kept s0 s) : KeptP s0 (tryGood s c failed) := by
  unfold tryGood
  repeat' first
    | assumption
    | split
    | with_reducible first
      | apply runCopy_kept
      | apply markBad_kept
      | apply keptP_mk

theorem tryGood_kept1 {s0 : State} {s : State} (c : Nat) (failed : Bool) (hk : Kept s0 s) : Kept s0 (tryGood s c failed).1 :=
  tryGood_kept (c := c) (failed := failed) hk

theorem tryGood_kept_eq {s0 u0 : State} {s : State} {c : Nat} {failed : Bool} {q0} (e0 : tryGood s c failed = (u0, q0)) (hk : Kept s0 s) : Kept s0 u0 := by
  have := tryGood_kept1 (c := c) (failed := failed) hk
  rw [e0] at this
  exact this

theorem bootGood_kept {s0 : State} {s : State} (failed : Bool) (hk : Kept s0 s) : Kept s0 (bootGood s failed) := by
  unfold bootGood
  repeat' first
    | split
    | with_reducible first
      | refine tryGood_kept_eq (by assumption) ?_
    | (with_reducible refine kept_mk ?_ id (Nat.le_refl _) (fun _ w => w) rfl rfl; first | assumption | with_reducible apply tryGood_kept | with_reducible apply tryGood_kept1)
    | dsimp only

theorem chooseCopy_kept {s0 : State} {s : State} (hk : Kept s0 s) : Kept s0 (chooseCopy s) := by
  unfold chooseCopy
  repeat' first
    | assumption
    | (intro x; first | refine kept_cut (s0 := s0) (x := x) ?_ ?_ | clear_value x)
    | lift_lets
    | split
    | with_reducible first
      | apply runCopy_kept
      | apply markBad_kept
      | apply bootGood_kept

theorem execStageRom_kept {s0 : State} {s : State} (hk : Kept s0 s) : KeptOut s0 (execStageRom s) := by
  unfold execStageRom
  repeat' first
    | assumption
    | split
    | with_reducible first
      | apply restoreIndex_kept
      | apply chooseCopy_kept
      | apply keptOut_next

theorem reconcile_kept {s0 : State} {s : State} (hk : Kept s0 s) : Kept s0 (reconcile s) := by
  unfold reconcile
  repeat' first
    | with_reducible first
      | apply bump_kept
      | refine kept_mk (by assumption) id (Nat.le_refl _) (fun _ w => w) rfl rfl

theorem restoreG_kept {s0 : State} {s : State} (hk : Kept s0 s) : Kept s0 (restoreG s) := by
  unfold restoreG
  repeat' first
    | (intro x; first | refine kept_cut (s0 := s0) (x := x) ?_ ?_ | clear_value x)
    | lift_lets
    | split
    | with_reducible first
      | refine kept_mk (by assumption) id (Nat.le_refl _) (fun _ w => w) rfl rfl

theorem requestSetpoint_kept {s0 : State} {s : State} (hk : Kept s0 s) : Kept s0 (requestSetpoint s) := by
  unfold requestSetpoint
  repeat' first
    | (intro x; first | refine kept_cut (s0 := s0) (x := x) ?_ ?_ | clear_value x)
    | (intro hx; clear_value x)
    | lift_lets
    | split
    | with_reducible first
      | refine kept_mk (by assumption) id (Nat.le_refl _) (fun _ w => w) rfl rfl

theorem bootEntry_kept {s0 : State} {s : State} (hk : Kept s0 s) : Kept s0 (bootEntry s) := by
  unfold bootEntry
  repeat' first
    | (intro x; first | refine kept_cut (s0 := s0) (x := x) ?_ ?_ | clear_value x)
    | (intro hx; clear_value x)
    | lift_lets
    | with_reducible first
      | apply cofferAdd_kept
      | refine kept_mk (by assumption) id (Nat.le_refl _) (fun _ w => w) rfl rfl

theorem execStageImion_kept {s0 : State} {s : State} (hk : Kept s0 s) : KeptOut s0 (execStageImion s) := by
  unfold execStageImion
  repeat' first
    | refine fun (w : Memory.wf _ = true) => wf_mk ?_ ?_ ?_ ?_ ?_
    | exact wf_ddr (by assumption)
    | exact wf_window (by assumption)
    | exact (rfl : memWf 0 [] = true)
    | (intro x; first | refine kept_cut (s0 := s0) (x := x) ?_ ?_ | clear_value x)
    | (intro hx; clear_value x)
    | lift_lets
    | split
    | with_reducible first
      | apply newPair_kept
      | apply noteMargin_kept
      | apply reconcile_kept
      | apply restoreG_kept
      | apply requestSetpoint_kept
      | apply bootEntry_kept
      | apply keptOut_next
      | refine kept_mk (by assumption) id (Nat.le_refl _) (fun _ w => w) rfl rfl
      | apply onMem_kept

theorem blowFuses_kept {s0 s : State} (hk : Kept s0 s) : Kept s0 (blowFuses s) := by
  unfold blowFuses
  extract_lets a b svn mask free src t
  have ht : Kept s0 t := kept_mk hk id (Nat.le_max_left _ _)
    (fun k w => by rw [Nat.testBit_or, w]; rfl) rfl rfl
  split
  · exact hk
  · split
    · exact postEvent_kept _ _ ht
    · exact ht

theorem trialGood_kept {s0 : State} {s : State} (hk : Kept s0 s) : Kept s0 (trialGood s) := by
  unfold trialGood
  repeat' first
    | (intro x; first | refine kept_cut (s0 := s0) (x := x) ?_ ?_ | (have t : Trust := x; clear t; unfold x; clear x) | clear_value x)
    | (intro hx; clear_value x)
    | lift_lets
    | split
    | with_reducible first
      | apply setCopy_kept
      | apply blowFuses_kept
      | refine kept_mk (by assumption) id (Nat.le_refl _) (fun _ w => w) rfl rfl

theorem enterReady_kept {s0 : State} {s : State} (hk : Kept s0 s) : Kept s0 (enterReady s) := by
  unfold enterReady
  repeat' first
    | refine fun (x : State) _ (hx : Kept s0 x) => ?_
    | (intro x; first | refine kept_cut (s0 := s0) (x := x) ?_ ?_ | clear_value x)
    | (intro hx; clear_value x)
    | lift_lets
    | with_reducible first
      | apply onLink_kept
      | apply postEvent_kept
      | apply trialGood_kept
      | refine kept_mk (by assumption) id (Nat.le_refl _) (fun _ w => w) rfl rfl
      | apply kept_foldl

theorem failMemory_kept {s0 : State} {s : State} (ch : Nat) (hk : Kept s0 s) : Kept s0 (failMemory s ch) := by
  unfold failMemory
  repeat' first
    | with_reducible first
      | apply faultEntry_kept
      | refine kept_mk (by assumption) id (Nat.le_refl _) (fun _ w => w) rfl rfl

theorem execStageMemory_kept {s0 : State} (declared : Nat) (unsupported : List Nat) (fails : List (Nat × Nat)) {s : State} (hk : Kept s0 s) : KeptOut s0 (execStageMemory declared unsupported fails s) := by
  unfold execStageMemory
  repeat' first
    | refine fun (w : Memory.wf _ = true) => wf_mk ?_ ?_ ?_ ?_ ?_
    | exact wf_shelf (by assumption)
    | exact wf_cellar (by assumption)
    | exact wf_side (by assumption)
    | exact wf_ddr (by assumption)
    | exact wf_window (by assumption)
    | (intro x; first | refine kept_cut (s0 := s0) (x := x) ?_ ?_ | (have t : Memory := x; clear t; unfold x; clear x) | clear_value x)
    | (intro hx; clear_value x)
    | lift_lets
    | split
    | with_reducible first
      | apply enterReady_kept
      | apply failMemory_kept
      | apply keptOut_next
      | refine kept_mk (by assumption) id (Nat.le_refl _) (fun _ w => w) rfl rfl
      | apply onMem_kept

end Sys2Proof.Machine
end

