-- ==== Sys2Proof/Laws/DdrKept.lean ====
section
/-!
SUPPORT. What the operations of Machine/Ddr.lean keep: the queue, the clock, the memories' form, the counters' 64 bits and the fuses.
-/

namespace Sys2Proof.Machine

theorem noteFix_kept {s0 : State} {s : State} (ch b d : Nat) (hk : Kept s0 s) : Kept s0 (noteFix s ch b d) := by
  unfold noteFix
  repeat' first
    | assumption
    | (intro x; first | refine kept_cut (s0 := s0) (x := x) ?_ ?_ | clear_value x)
    | (intro hx; clear_value x)
    | lift_lets
    | split
    | with_reducible first
      | apply bump_kept
      | apply setChan_kept
      | apply onChan_kept
      | apply postEvent_kept

theorem poisonBurst_kept {s0 : State} {s : State} (ch b : Nat) (hk : Kept s0 s) : Kept s0 (poisonBurst s ch b) := by
  unfold poisonBurst
  repeat' first
    | assumption
    | refine fun m (w : Memory.wf m = true) => wf_mk ?_ ?_ ?_ ?_ ?_
    | exact wf_shelf (by assumption)
    | exact wf_cellar (by assumption)
    | exact wf_side (by assumption)
    | exact wf_ddr (by assumption)
    | exact wf_window (by assumption)
    | with_reducible first
      | apply bump_kept
      | apply faultEntry_kept
      | apply postEvent_kept
      | apply onMem_kept

theorem readBurst_kept {s0 : State} {s : State} (ch b : Nat) (errs : List Nat) (extra : Nat) (hk : Kept s0 s) : KeptP s0 (readBurst s ch b errs extra) := by
  unfold readBurst
  repeat' first
    | assumption
    | split
    | with_reducible first
      | apply bump_kept
      | apply noteFix_kept
      | apply poisonBurst_kept
      | apply keptP_mk

theorem readBurst_kept1 {s0 : State} {s : State} (ch b : Nat) (errs : List Nat) (extra : Nat) (hk : Kept s0 s) : Kept s0 (readBurst s ch b errs extra).1 :=
  readBurst_kept (ch := ch) (b := b) (errs := errs) (extra := extra) hk

theorem readBurst_kept_eq {s0 u0 : State} {s : State} {ch b : Nat} {errs : List Nat} {extra : Nat} {q0} (e0 : readBurst s ch b errs extra = (u0, q0)) (hk : Kept s0 s) : Kept s0 u0 := by
  have := readBurst_kept1 (ch := ch) (b := b) (errs := errs) (extra := extra) hk
  rw [e0] at this
  exact this

theorem execDdrQueueEntry_kept {s0 : State} (ch req op addr len : Nat) (d : List Byte) {s : State} (hk : Kept s0 s) : KeptOut s0 (execDdrQueueEntry ch req op addr len d s) := by
  unfold execDdrQueueEntry
  repeat' first
    | split
    | with_reducible first
      | apply onChan_kept
      | apply keptOut_next
      | refine kept_mk (by assumption) id (Nat.le_refl _) (fun _ w => w) rfl rfl

theorem answer_kept {s0 : State} {s : State} (ch : Nat) (e : DdrEntry) (d : Option (List Byte)) (hk : Kept s0 s) : Kept s0 (answer s ch e d) := by
  unfold answer
  repeat' first
    | assumption
    | with_reducible first
      | apply onChan_kept

theorem countBurst_kept {s0 : State} {s : State} (ch : Nat) (hk : Kept s0 s) : Kept s0 (countBurst s ch) := by
  unfold countBurst
  repeat' first
    | assumption
    | split
    | with_reducible first
      | apply bump_kept

theorem execBurstRead_kept {s0 : State} (ch : Nat) (errs : List Nat) (extra : Nat) {s : State} (hk : Kept s0 s) : KeptOut s0 (execBurstRead ch errs extra s) := by
  unfold execBurstRead
  repeat' first
    | assumption
    | split
    | with_reducible first
      | refine readBurst_kept_eq (by assumption) ?_
      | apply answer_kept
      | apply countBurst_kept
      | apply keptOut_next

theorem partialBad_kept {s0 : State} {s : State} (ch : Nat) (e : DdrEntry) (errs : List Nat) (extra : Nat) (hk : Kept s0 s) : KeptP s0 (partialBad s ch e errs extra) := by
  unfold partialBad
  repeat' first
    | assumption
    | split
    | with_reducible first
      | apply freshFill_kept
      | refine readBurst_kept_eq (by assumption) ?_
      | apply countBurst_kept
      | apply keptP_mk

theorem partialBad_kept1 {s0 : State} {s : State} (ch : Nat) (e : DdrEntry) (errs : List Nat) (extra : Nat) (hk : Kept s0 s) : Kept s0 (partialBad s ch e errs extra).1 :=
  partialBad_kept (ch := ch) (e := e) (errs := errs) (extra := extra) hk

theorem partialBad_kept_eq {s0 u0 : State} {s : State} {ch : Nat} {e : DdrEntry} {errs : List Nat} {extra : Nat} {q0} (e0 : partialBad s ch e errs extra = (u0, q0)) (hk : Kept s0 s) : Kept s0 u0 := by
  have := partialBad_kept1 (ch := ch) (e := e) (errs := errs) (extra := extra) hk
  rw [e0] at this
  exact this

theorem execBurstWrite_kept {s0 : State} (ch : Nat) (errs : List Nat) (extra : Nat) {s : State} (hk : Kept s0 s) : KeptOut s0 (execBurstWrite ch errs extra s) := by
  unfold execBurstWrite
  repeat' first
    | assumption
    | split
    | with_reducible first
      | apply freshFill_kept
      | apply burstWrite_kept
      | apply answer_kept
      | apply partialBad_kept
      | apply keptP_mk
      | apply keptOut_next
    | with_reducible first
      | refine keptP_get (by assumption) ?_

theorem execAtomicAddBurst_kept {s0 : State} (ch : Nat) (errs : List Nat) (extra : Nat) {s : State} (hk : Kept s0 s) : KeptOut s0 (execAtomicAddBurst ch errs extra s) := by
  unfold execAtomicAddBurst
  repeat' first
    | assumption
    | split
    | with_reducible first
      | refine ddrAdd_kept_eq (by assumption) ?_
      | apply answer_kept
      | refine partialBad_kept_eq (by assumption) ?_
      | apply keptOut_next

theorem execFreshFill_kept {s0 : State} (frame : Nat) {s : State} (hk : Kept s0 s) : KeptOut s0 (execFreshFill frame s) := by
  unfold execFreshFill
  repeat' first
    | assumption
    | split
    | with_reducible first
      | apply freshFill_kept
      | apply keptOut_next

theorem scrubNext_kept {s0 : State} {s : State} (ch : Nat) (hk : Kept s0 s) : Kept s0 (scrubNext s ch) := by
  unfold scrubNext
  repeat' first
    | assumption
    | (intro x; first | refine kept_cut (s0 := s0) (x := x) ?_ ?_ | clear_value x)
    | lift_lets
    | split
    | with_reducible first
      | apply bump_kept
      | apply onChan_kept

theorem execScrub_kept {s0 : State} (ch : Nat) (errs : List Nat) (extra : Nat) {s : State} (hk : Kept s0 s) : KeptOut s0 (execScrub ch errs extra s) := by
  unfold execScrub
  repeat' first
    | assumption
    | (intro hx; clear_value x)
    | lift_lets
    | split
    | with_reducible first
      | apply bump_kept
      | refine readBurst_kept_eq (by assumption) ?_
      | apply scrubNext_kept
      | apply keptOut_next
    | unfold x

theorem execLinkRetry_kept {s0 : State} (ch : Nat) {s : State} (hk : Kept s0 s) : KeptOut s0 (execLinkRetry ch s) := by
  unfold execLinkRetry
  repeat' first
    | assumption
    | lift_lets
    | split
    | with_reducible first
      | apply bump_kept
      | apply setChan_kept
      | apply keptOut_next

theorem execChannelRetrain_kept {s0 : State} (ch : Nat) (ok : Bool) {s : State} (hk : Kept s0 s) : KeptOut s0 (execChannelRetrain ch ok s) := by
  unfold execChannelRetrain
  repeat' first
    | assumption
    | lift_lets
    | split
    | with_reducible first
      | apply bump_kept
      | apply setChan_kept
      | apply faultEntry_kept
      | apply postEvent_kept
      | apply keptOut_next

theorem zeroFrame_kept {s0 s : State} (frame : Nat) (hk : Kept s0 s) : Kept s0 (zeroFrame s frame) := by
  unfold zeroFrame
  split
  · exact hk
  · exact zeroLines_kept _ _ hk

theorem execBackgroundZeroing_kept {s0 : State} {s : State} (hk : Kept s0 s) : KeptOut s0 (execBackgroundZeroing s) := by
  unfold execBackgroundZeroing
  repeat' first
    | assumption
    | refine fun m (w : Memory.wf m = true) => wf_mk ?_ ?_ ?_ ?_ ?_
    | exact wf_shelf (by assumption)
    | exact wf_cellar (by assumption)
    | exact wf_side (by assumption)
    | exact wf_ddr (by assumption)
    | exact wf_window (by assumption)
    | (intro x; first | refine kept_cut (s0 := s0) (x := x) ?_ ?_ | clear_value x)
    | (intro hx; clear_value x)
    | lift_lets
    | split
    | with_reducible first
      | apply postEvent_kept
      | apply zeroFrame_kept
      | apply keptOut_next
      | apply onMem_kept

end Sys2Proof.Machine
end

