-- ==== Sys2Proof/Laws/EthKept.lean ====
section
/-!
SUPPORT. What the operations of Machine/Eth.lean keep: the queue, the clock, the memories' form, the counters' 64 bits and the fuses.
-/

namespace Sys2Proof.Machine

theorem macsecUse_kept {s0 : State} {s : State} (u pn : Nat) (hk : Kept s0 s) : Kept s0 (macsecUse s u pn) := by
  unfold macsecUse
  repeat' first
    | assumption
    | split
    | with_reducible first
      | apply onPort_kept

theorem ackUpTo_kept {s0 : State} {s : State} (q psn : Nat) (hk : Kept s0 s) : Kept s0 (ackUpTo s q psn) := by
  unfold ackUpTo
  repeat' first
    | assumption
    | (intro x; first | refine kept_cut (s0 := s0) (x := x) ?_ ?_ | clear_value x)
    | lift_lets
    | split
    | with_reducible first
      | apply setQp_kept
      | apply pumpQp_kept

theorem goBackN_kept {s0 : State} {s : State} (q : Nat) (hk : Kept s0 s) : Kept s0 (goBackN s q) := by
  unfold goBackN
  repeat' first
    | assumption
    | refine fun (x : State) _ (hx : Kept s0 x) => ?_
    | split
    | with_reducible first
      | apply bump_kept
      | apply setQp_kept
      | apply txMsg_kept
      | apply kept_foldl

theorem noteCe_kept {s0 : State} {s : State} (u q : Nat) (hk : Kept s0 s) : Kept s0 (noteCe s u q) := by
  unfold noteCe
  repeat' first
    | assumption
    | (intro x; first | refine kept_cut (s0 := s0) (x := x) ?_ ?_ | clear_value x)
    | (intro hx; clear_value x)
    | lift_lets
    | split
    | with_reducible first
      | apply bump_kept
      | apply setQp_kept
      | apply txMsg_kept

theorem acceptPsn_kept {s0 : State} {s : State} (q psn : Nat) (hk : Kept s0 s) : Kept s0 (acceptPsn s q psn) := by
  unfold acceptPsn
  repeat' first
    | assumption
    | with_reducible first
      | apply onQp_kept
      | apply txMsg_kept

theorem writePacket_kept {s0 : State} {s : State} (q : Nat) (v : Qp) (k : RocePacket) (hk : Kept s0 s) : Kept s0 (writePacket s q v k) := by
  unfold writePacket
  repeat' first
    | assumption
    | split
    | with_reducible first
      | apply onQp_kept
      | apply windowPut_kept
      | apply nakQp_kept
      | apply acceptPsn_kept
    | dsimp only

theorem requestPacket_kept {s0 : State} {s : State} (q : Nat) (v : Qp) (k : RocePacket) (hk : Kept s0 s) : Kept s0 (requestPacket s q v k) := by
  unfold requestPacket
  repeat' first
    | assumption
    | split
    | with_reducible first
      | apply connMessage_kept
      | apply nakQp_kept
      | apply acceptPsn_kept
      | apply writePacket_kept

theorem execRocePacket_kept {s0 : State} (u : Nat) (k : RocePacket) {s : State} (hk : Kept s0 s) : KeptOut s0 (execRocePacket u k s) := by
  unfold execRocePacket
  repeat' first
    | assumption
    | (intro hx; clear_value x)
    | lift_lets
    | split
    | with_reducible first
      | apply bump_kept
      | apply txMsg_kept
      | apply qpError_kept
      | apply macsecUse_kept
      | apply ackUpTo_kept
      | apply goBackN_kept
      | apply noteCe_kept
      | apply requestPacket_kept
      | apply keptOut_next
    | unfold x

theorem execAckTimeout_kept {s0 : State} (q : Nat) {s : State} (hk : Kept s0 s) : KeptOut s0 (execAckTimeout q s) := by
  unfold execAckTimeout
  repeat' first
    | assumption
    | split
    | with_reducible first
      | apply setQp_kept
      | apply qpError_kept
      | apply goBackN_kept
      | apply keptOut_next

theorem sendFrameOn_kept {s0 : State} {s : State} (u len : Nat) (ip : List Byte) (hk : Kept s0 s) : Kept s0 (sendFrameOn s u len ip) := by
  unfold sendFrameOn
  repeat' first
    | assumption
    | with_reducible first
      | apply bump_kept
      | apply emit_kept

theorem frameMeans_kept {s0 : State} {s : State} (u : Nat) (k : EthFrame) (hk : Kept s0 s) : Kept s0 (frameMeans s u k) := by
  unfold frameMeans
  repeat' first
    | assumption
    | (intro x; first | refine kept_cut (s0 := s0) (x := x) ?_ ?_ | clear_value x)
    | lift_lets
    | split
    | with_reducible first
      | apply bump_kept
      | apply onPort_kept
      | apply sendFrameOn_kept

theorem execEthFrameReceive_kept {s0 : State} (u : Nat) (k : EthFrame) {s : State} (hk : Kept s0 s) : KeptOut s0 (execEthFrameReceive u k s) := by
  unfold execEthFrameReceive
  repeat' first
    | assumption
    | (intro hx; clear_value x)
    | lift_lets
    | split
    | with_reducible first
      | apply bump_kept
      | apply macsecUse_kept
      | apply frameMeans_kept
      | apply keptOut_next
    | unfold x

theorem flushHeld_kept {s0 : State} {s : State} (u : Nat) (hk : Kept s0 s) : Kept s0 (flushHeld s u) := by
  unfold flushHeld
  repeat' first
    | assumption
    | refine fun (x : State) _ (hx : Kept s0 x) => ?_
    | with_reducible first
      | apply onPort_kept
      | apply txMsg_kept
      | apply kept_foldl

theorem execPortUp_kept {s0 : State} (u : Nat) {s : State} (hk : Kept s0 s) : KeptOut s0 (execPortUp u s) := by
  unfold execPortUp
  repeat' first
    | (intro x; first | refine kept_cut (s0 := s0) (x := x) ?_ ?_ | clear_value x)
    | (intro hx; clear_value x)
    | lift_lets
    | split
    | with_reducible first
      | apply setPort_kept
      | apply postEvent_kept
      | apply keptOut_next
      | refine kept_mk (by assumption) id (Nat.le_refl _) (fun _ w => w) rfl rfl

theorem execPortDown_kept {s0 : State} (u : Nat) {s : State} (hk : Kept s0 s) : KeptOut s0 (execPortDown u s) := by
  unfold execPortDown
  repeat' first
    | assumption
    | split
    | with_reducible first
      | apply onPort_kept
      | apply postEvent_kept
      | apply keptOut_next

theorem execPauseFrame_kept {s0 : State} (u prio quanta : Nat) {s : State} (hk : Kept s0 s) : KeptOut s0 (execPauseFrame u prio quanta s) := by
  unfold execPauseFrame
  repeat' first
    | assumption
    | (intro hx; clear_value x)
    | lift_lets
    | split
    | with_reducible first
      | apply bump_kept
      | apply setPort_kept
      | apply flushHeld_kept
      | apply keptOut_next
    | unfold x

theorem execPfcStorm_kept {s0 : State} (u : Nat) {s : State} (hk : Kept s0 s) : KeptOut s0 (execPfcStorm u s) := by
  unfold execPfcStorm
  repeat' first
    | assumption
    | (intro hx; clear_value x)
    | lift_lets
    | split
    | with_reducible first
      | apply bump_kept
      | apply setPort_kept
      | apply postEvent_kept
      | apply flushHeld_kept
      | apply keptOut_next

theorem execPfcStormEnd_kept {s0 : State} (u : Nat) {s : State} (hk : Kept s0 s) : KeptOut s0 (execPfcStormEnd u s) := by
  unfold execPfcStormEnd
  repeat' first
    | assumption
    | split
    | with_reducible first
      | apply onPort_kept
      | apply keptOut_next

theorem execCnp_kept {s0 : State} (q : Nat) {s : State} (hk : Kept s0 s) : KeptOut s0 (execCnp q s) := by
  unfold execCnp
  repeat' first
    | assumption
    | refine fun (x : State) (hx : Kept s0 x) => ?_
    | split
    | with_reducible first
      | apply bump_kept
      | apply setQp_kept
      | apply heard_kept
      | apply keptOut_next

theorem execRateRecovery_kept {s0 : State} (q : Nat) {s : State} (hk : Kept s0 s) : KeptOut s0 (execRateRecovery q s) := by
  unfold execRateRecovery
  repeat' first
    | assumption
    | split
    | with_reducible first
      | apply setQp_kept
      | apply keptOut_next

theorem execMka_kept {s0 : State} (u : Nat) (sak : Option (List Byte)) {s : State} (hk : Kept s0 s) : KeptOut s0 (execMka u sak s) := by
  unfold execMka
  repeat' first
    | assumption
    | split
    | with_reducible first
      | apply onPort_kept
      | apply postEvent_kept
      | apply keptOut_next

theorem ptpFollow_kept {s0 : State} {s : State} (time : Nat) (hk : Kept s0 s) : Kept s0 (ptpFollow s time) := by
  unfold ptpFollow
  repeat' first
    | with_reducible first
      | refine kept_mk (by assumption) id (Nat.le_refl _) (fun _ w => w) rfl rfl

theorem keeperPtp_kept {s0 : State} {s : State} (u time : Nat) (offset : Int) (hk : Kept s0 s) : Kept s0 (keeperPtp s u time offset) := by
  unfold keeperPtp
  repeat' first
    | (intro x; first | refine kept_cut (s0 := s0) (x := x) ?_ ?_ | clear_value x)
    | (intro hx; clear_value x)
    | lift_lets
    | split
    | with_reducible first
      | apply learnRate_kept
      | apply ptpFollow_kept
      | refine kept_mk (by assumption) id (Nat.le_refl _) (fun _ w => w) rfl rfl
    | unfold x

theorem execPtpTimeUpdate_kept {s0 : State} (u time : Nat) (offset predicted : Int) (slave measured : Bool) {s : State} (hk : Kept s0 s) : KeptOut s0 (execPtpTimeUpdate u time offset predicted slave measured s) := by
  unfold execPtpTimeUpdate
  repeat' first
    | (intro x; first | refine kept_cut (s0 := s0) (x := x) ?_ ?_ | clear_value x)
    | (intro hx; clear_value x)
    | lift_lets
    | split
    | with_reducible first
      | apply bump_kept
      | apply keeperPtp_kept
      | apply keptOut_next
      | refine kept_mk (by assumption) id (Nat.le_refl _) (fun _ w => w) rfl rfl

end Sys2Proof.Machine
end

