-- ==== Sys2Proof/Laws/Hash.lean ====
section
/-!
SUPPORT. Lengths: a Keccak state has 25 lanes, and SHAKE256 of n bytes gives n bytes.
-/

namespace Sys2Proof.Machine

theorem length_laneRow (a : List Nat) (h : a.length = 25) (y : Nat) (hy : y < 5) : (laneRow a y).length = 5 := by
  unfold laneRow
  rw [List.length_take, List.length_drop, h]
  omega

/-- Five rows of five lanes make 25. -/
theorem length_rows (f : Nat → List Nat) (h : ∀ y, y < 5 → (f y).length = 5) : ((List.range 5).flatMap f).length = 25 := by
  simp [List.range, List.range.loop, h 0 (by decide), h 1 (by decide), h 2 (by decide), h 3 (by decide), h 4 (by decide)]

theorem length_rhoPi (a : List Nat) : (rhoPi a).length = 25 := by
  simp [rhoPi, laneFrom]

theorem length_permRound (w : Nat × List Nat) : (permRound w).2.length = 25 := by
  have hb : (rhoPi (theta w.2)).length = 25 := length_rhoPi _
  have hc : ((List.range 5).flatMap fun y => chiRow (laneRow (rhoPi (theta w.2)) y)).length = 25 := by
    refine length_rows _ fun y hy => ?_
    simp [chiRow, length_laneRow _ hb y hy]
  unfold permRound
  dsimp only
  split
  · rename_i e
    rw [e] at hc
    exact hc
  · rename_i e
    rw [e] at hc
    cases hc

theorem length_keccakF (a : List Nat) (h : a.length = 25) : (keccakF a).length = 25 := by
  unfold keccakF
  generalize List.range 24 = l
  generalize 1 = x
  induction l generalizing a x with
  | nil => exact h
  | cons c l ih => exact ih _ (length_permRound (x, a)) _

theorem length_lanesOf (n : Nat) (l : List Byte) : (lanesOf n l).length = n := by
  induction n generalizing l with
  | zero => rfl
  | succ n ih => exact congrArg (· + 1) (ih _)

theorem length_absorb (n : Nat) (st : List Nat) (l : List Byte) (h : st.length = 25) : (absorb n st l).length = 25 := by
  induction n generalizing st l with
  | zero => exact h
  | succ n ih => exact ih _ _ (length_keccakF _ (by simp [h, length_lanesOf]))

theorem length_lanes (l : List Nat) : (l.flatMap (leBytes 8)).length = 8 * l.length := by
  induction l with
  | nil => rfl
  | cons a l ih =>
    rw [List.flatMap_cons, List.length_append, length_leBytes, ih, List.length_cons]
    omega

theorem length_squeeze (n : Nat) (st : List Nat) (h : st.length = 25) : (squeeze n st).length = 136 * n := by
  induction n generalizing st with
  | zero => rfl
  | succ n ih =>
    rw [squeeze, List.length_append, ih _ (length_keccakF st h), length_lanes, List.length_take, h]
    omega

@[simp] theorem length_shake256 (m : List Byte) (n : Nat) : (shake256 m n).length = n := by
  unfold shake256
  rw [List.length_take, length_squeeze _ _ (length_absorb _ _ _ (by simp))]
  unfold cdiv
  omega

end Sys2Proof.Machine
end

