-- ==== Sys2Proof/Laws/LinksKept.lean ====
section
/-!
SUPPORT. What the operations of Machine/Links.lean keep: the queue, the clock, the memories' form, the counters' 64 bits and the fuses.
-/

namespace Sys2Proof.Machine

theorem sendFrame_kept {s0 : State} {s : State} (l ty cls seq : Nat) (payload : List Byte) (hk : Kept s0 s) : Kept s0 (sendFrame s l ty cls seq payload) := by
  unfold sendFrame
  repeat' first
    | assumption
    | (intro x; first | refine kept_cut (s0 := s0) (x := x) ?_ ?_ | clear_value x)
    | (intro hx; clear_value x)
    | lift_lets
    | split
    | with_reducible first
      | apply setLink_kept
      | apply emit_kept
      | apply pushCtl_kept

theorem sendKept_kept {s0 : State} {s : State} (l : Nat) (f : Frame) (hk : Kept s0 s) : Kept s0 (sendKept s l f) := by
  unfold sendKept
  repeat' first
    | assumption
    | with_reducible first
      | apply bump_kept
      | apply setLink_kept
      | apply sendFrame_kept

theorem sendData_kept {s0 : State} {s : State} (l c : Nat) (hk : Kept s0 s) : Kept s0 (sendData s l c) := by
  unfold sendData
  repeat' first
    | assumption
    | with_reducible first
      | apply setLink_kept
      | apply sendKept_kept

theorem execFrameSend_kept {s0 : State} (l : Nat) {s : State} (hk : Kept s0 s) : KeptOut s0 (execFrameSend l s) := by
  unfold execFrameSend
  repeat' first
    | assumption
    | lift_lets
    | split
    | with_reducible first
      | apply bump_kept
      | apply setLink_kept
      | refine arbRound_kept_eq (by assumption) ?_
      | apply sendFrame_kept
      | apply sendKept_kept
      | apply sendData_kept
      | apply keptOut_next
    | dsimp only

theorem startTraining_kept {s0 : State} {s : State} (l reason : Nat) (hk : Kept s0 s) : Kept s0 (startTraining s l reason) := by
  unfold startTraining
  repeat' first
    | assumption
    | with_reducible first
      | apply onLink_kept

theorem startReplay_kept {s0 : State} {s : State} (l : Nat) (hk : Kept s0 s) : Kept s0 (startReplay s l) := by
  unfold startReplay
  repeat' first
    | assumption
    | (intro x; first | refine kept_cut (s0 := s0) (x := x) ?_ ?_ | clear_value x)
    | lift_lets
    | split
    | with_reducible first
      | apply setLink_kept
      | apply startTraining_kept

theorem takeAck_kept {s0 : State} {s : State} (l ack : Nat) (hk : Kept s0 s) : Kept s0 (takeAck s l ack) := by
  unfold takeAck
  repeat' first
    | assumption
    | (intro x; first | refine kept_cut (s0 := s0) (x := x) ?_ ?_ | clear_value x)
    | lift_lets
    | split
    | with_reducible first
      | apply setLink_kept

theorem takePayload_kept {s0 : State} {s : State} (l c : Nat) (d : List Byte) (hk : Kept s0 s) : Kept s0 (takePayload s l c d) := by
  unfold takePayload
  repeat' first
    | assumption
    | with_reducible first
      | apply setLink_kept

theorem takeCodeword_kept {s0 : State} {s : State} (l fec : Nat) (hk : Kept s0 s) : KeptP s0 (takeCodeword s l fec) := by
  unfold takeCodeword
  repeat' first
    | assumption
    | with_reducible first
      | apply bump_kept
      | apply setLink_kept
      | apply keptP_mk

theorem takeCodeword_kept1 {s0 : State} {s : State} (l fec : Nat) (hk : Kept s0 s) : Kept s0 (takeCodeword s l fec).1 :=
  takeCodeword_kept (l := l) (fec := fec) hk

theorem takeCodeword_kept_eq {s0 u0 : State} {s : State} {l fec : Nat} {q0} (e0 : takeCodeword s l fec = (u0, q0)) (hk : Kept s0 s) : Kept s0 u0 := by
  have := takeCodeword_kept1 (l := l) (fec := fec) hk
  rw [e0] at this
  exact this

theorem execFrameReceive_kept {s0 s : State} (l : Nat) (d : List Byte) (fixed bad : Bool) (hk : Kept s0 s) :
    KeptOut s0 (execFrameReceive l d fixed bad s) := by
  refine keptOut_next ?_
  split
  · exact hk
  · split
    rename_i t fails ht
    have h0 : Kept s0 t := takeCodeword_kept_eq ht hk
    split
    · exact bump_kept _ _ _ (onLink_kept _ _ h0)
    · extract_lets s1 s2 s3 s4 s5
      have h1 : Kept s0 s1 := by
        unfold s1
        split
        · exact onLink_kept _ _ h0
        · exact h0
      have h2 : Kept s0 s2 := kept_foldl _ (fun x c hx => onLink_kept _ _ hx) h1
      have h3 : Kept s0 s3 := takeAck_kept _ _ h2
      have h4 : Kept s0 s4 := by
        unfold s4
        split
        · exact startReplay_kept _ h3
        · exact h3
      split
      · exact h4
      · split
        · exact onLink_kept _ _ h4
        · have h5 : Kept s0 s5 := bump_kept _ _ _ (onLink_kept _ _ h4)
          split
          · exact takePayload_kept _ _ _ h5
          · exact h5

theorem execReplayTimeout_kept {s0 : State} (l : Nat) {s : State} (hk : Kept s0 s) : KeptOut s0 (execReplayTimeout l s) := by
  unfold execReplayTimeout
  repeat' first
    | assumption
    | split
    | with_reducible first
      | apply startReplay_kept
      | apply keptOut_next

theorem execLaneSignalLoss_kept {s0 : State} (l lane : Nat) {s : State} (hk : Kept s0 s) : KeptOut s0 (execLaneSignalLoss l lane s) := by
  unfold execLaneSignalLoss
  repeat' first
    | assumption
    | lift_lets
    | split
    | with_reducible first
      | apply setLink_kept
      | apply startTraining_kept
      | apply keptOut_next

theorem linkUp_kept {s0 : State} {s : State} (l width : Nat) (lost : Nat) (hk : Kept s0 s) : Kept s0 (linkUp s l width lost) := by
  unfold linkUp
  repeat' first
    | assumption
    | with_reducible first
      | apply setLink_kept
      | apply pushCtl_kept
      | apply startExchange_kept

theorem unsent_kept {s0 : State} {s : State} (h : Hdr) (hk : Kept s0 s) : Kept s0 (unsent s h) := by
  unfold unsent
  repeat' first
    | assumption
    | split
    | with_reducible first
      | apply returnRead_kept
      | apply returnWrite_kept

theorem reroute_kept {s0 : State} {s : State} (l : Nat) (hk : Kept s0 s) : Kept s0 (reroute s l) := by
  unfold reroute
  repeat' first
    | assumption
    | refine fun (x : State) _ (hx : Kept s0 x) => ?_
    | split
    | with_reducible first
      | apply setLink_kept
      | refine sendTransfer_kept_eq (by assumption) ?_
      | apply unsent_kept
      | apply kept_foldl

theorem linkDown_kept {s0 : State} {s : State} (l : Nat) (hk : Kept s0 s) : Kept s0 (linkDown s l) := by
  unfold linkDown
  repeat' first
    | (intro x; first | refine kept_cut (s0 := s0) (x := x) ?_ ?_ | clear_value x)
    | (intro hx; clear_value x)
    | lift_lets
    | split
    | with_reducible first
      | apply bump_kept
      | apply onLink_kept
      | apply faultEntry_kept
      | apply recompute_kept
      | apply setTree_kept
      | apply reportLinks_kept
      | apply reroute_kept
      | refine kept_mk (by assumption) id (Nat.le_refl _) (fun _ w => w) rfl rfl
    | unfold x

theorem execLinkRetrain_kept {s0 s : State} (l : Nat) (pass0 pass1 : Bool) (hk : Kept s0 s) :
    KeptOut s0 (execLinkRetrain l pass0 pass1 s) := by
  refine keptOut_next ?_
  split
  · exact hk
  · split
    · exact bump_kept _ _ _ (linkUp_kept _ _ _ hk)
    · split
      · exact bump_kept _ _ _ (bump_kept _ _ _ (linkUp_kept _ _ _ hk))
      · exact linkDown_kept _ hk

theorem execLinkDownRetry_kept {s0 : State} (l : Nat) {s : State} (hk : Kept s0 s) : KeptOut s0 (execLinkDownRetry l s) := by
  unfold execLinkDownRetry
  repeat' first
    | assumption
    | split
    | with_reducible first
      | apply onLink_kept
      | apply keptOut_next

theorem execLinkState_kept {s0 : State} (l width reason : Nat) {s : State} (hk : Kept s0 s) : KeptOut s0 (execLinkState l width reason s) := by
  unfold execLinkState
  repeat' first
    | assumption
    | split
    | with_reducible first
      | apply onLink_kept
      | apply keptOut_next

end Sys2Proof.Machine
end

