-- ==== Sys2Proof/Laws/MergeKept.lean ====
section
/-!
SUPPORT. What the operations of Machine/Merge.lean keep: the queue, the clock, the memories' form, the counters' 64 bits and the fuses.
-/

namespace Sys2Proof.Machine

theorem execSpmmX_kept {s0 : State} (t i p : Nat) {s : State} (hk : Kept s0 s) : KeptOut s0 (execSpmmX t i p s) := by
  unfold execSpmmX
  repeat' first
    | assumption
    | with_reducible first
      | apply opCmd_kept
      | apply formWalk_kept
      | apply keptOut_next

theorem initTile_kept {s0 : State} {s : State} (r : Run) (w : Walk) (item k n : Nat) (hk : Kept s0 s) : KeptOk s0 (initTile s r w item k n) := by
  unfold initTile
  repeat' first
    | assumption
    | refine fun _ (e : _ = Except.ok _) => ?_
    | (intro x; first | refine kept_cut (s0 := s0) (x := x) ?_ ?_ | (have t : Except _ _ := x; clear t; unfold x; clear x) | (have t : _ → Except _ _ := x; clear t; unfold x; clear x) | clear_value x)
    | lift_lets
    | split
    | with_reducible first
      | apply onTile_kept
      | apply putAccs_kept
    | with_reducible first
      | apply keptOk_ok
      | exact keptOk_error _
      | apply keptOk_bind
      | apply keptOk1_ok
      | exact keptOk1_error _
      | apply keptOk1_bind

theorem initTile_kept_ok {s0 u0 : State} {s : State} {r : Run} {w : Walk} {item k n : Nat} (e0 : initTile s r w item k n = .ok u0) (hk : Kept s0 s) : Kept s0 u0 :=
  (initTile_kept (r := r) (w := w) (item := item) (k := k) (n := n) hk).ok _ e0

theorem onMerge_kept {s0 : State} {s : State} (core : Nat) (ahead : Bool) (f : MergeState → MergeState) (hk : Kept s0 s) : Kept s0 (s.onMerge core ahead f) := by
  unfold State.onMerge
  repeat' first
    | assumption
    | with_reducible first
      | apply onCore_kept

theorem mergeEnd_kept {s0 : State} {s : State} (r : Run) (w : Walk) (u : MergeState) (hk : Kept s0 s) : Kept s0 (mergeEnd s r w u) := by
  unfold mergeEnd
  repeat' first
    | assumption
    | (intro x; first | refine kept_cut (s0 := s0) (x := x) ?_ ?_ | clear_value x)
    | (intro hx; clear_value x)
    | lift_lets
    | split
    | with_reducible first
      | apply onCore_kept
      | apply onTile_kept
      | apply onWalk_kept
      | apply endReads_kept

theorem mergeEnds_kept {s0 : State} (n core : Nat) {s : State} (hk : Kept s0 s) : Kept s0 (mergeEnds n core s) := by
  induction n generalizing s with
  | zero => exact hk
  | succ n ih =>
    unfold mergeEnds
    dsimp only
    split
    · split
      · exact ih (mergeEnd_kept _ _ _ hk)
      · exact hk
    · exact hk

theorem mergeKt_kept {s0 : State} {s : State} (r : Run) (w : Walk) (ahead : Bool) (hk : Kept s0 s) : Kept s0 (mergeKt s r w ahead) := by
  unfold mergeKt
  repeat' first
    | assumption
    | (intro x; first | refine kept_cut (s0 := s0) (x := x) ?_ ?_ | (have t : Except _ _ := x; clear t; unfold x; clear x) | (have t : _ → Except _ _ := x; clear t; unfold x; clear x) | clear_value x)
    | (intro hx; clear_value x)
    | lift_lets
    | split
    | with_reducible first
      | apply bump_kept
      | apply failRead_kept
      | apply reach_kept
      | apply onMerge_kept
      | apply mergeEnds_kept
    | with_reducible first
      | apply keptOk_ok
      | exact keptOk_error _
      | apply keptOk_bind
      | apply keptOk1_ok
      | exact keptOk1_error _
      | apply keptOk1_bind

theorem mergeBegin_kept {s0 : State} {s : State} (r : Run) (w : Walk) (u k : Nat) (ahead : Bool) (hk : Kept s0 s) : Kept s0 (mergeBegin s r w u k ahead) := by
  unfold mergeBegin
  repeat' first
    | assumption
    | (intro x; first | refine kept_cut (s0 := s0) (x := x) ?_ ?_ | clear_value x)
    | (intro hx; clear_value x)
    | lift_lets
    | split
    | with_reducible first
      | apply bump_kept
      | apply onWalk_kept
      | apply failRead_kept
      | apply reach_kept
      | apply noteReaders_kept
      | refine initTile_kept_ok (by assumption) ?_
      | apply onMerge_kept
      | apply mergeKt_kept
    | unfold x
    | with_reducible first
      | apply keptOk_ok
      | exact keptOk_error _
      | apply keptOk_bind
      | apply keptOk1_ok
      | exact keptOk1_error _
      | apply keptOk1_bind

theorem execMergeKtile_kept {s0 : State} (core : Nat) {s : State} (hk : Kept s0 s) : KeptOut s0 (execMergeKtile core s) := by
  unfold execMergeKtile
  repeat' first
    | assumption
    | lift_lets
    | split
    | with_reducible first
      | apply noteReaders_kept
      | apply mergeKt_kept
      | apply mergeBegin_kept
      | apply keptOut_next

theorem execListStoreLoad_kept {s0 : State} (core lane : Nat) {s : State} (hk : Kept s0 s) : KeptOut s0 (execListStoreLoad core lane s) := by
  unfold execListStoreLoad
  repeat' first
    | assumption
    | (intro x; first | refine kept_cut (s0 := s0) (x := x) ?_ ?_ | clear_value x)
    | lift_lets
    | split
    | with_reducible first
      | apply failRead_kept
      | apply onMerge_kept
      | apply keptOut_next
    | with_reducible first
      | apply keptOk_ok
      | exact keptOk_error _
      | apply keptOk_bind
      | apply keptOk1_ok
      | exact keptOk1_error _
      | apply keptOk1_bind

theorem execBroadcasterPush_kept {s0 : State} (core : Nat) {s : State} (hk : Kept s0 s) : KeptOut s0 (execBroadcasterPush core s) := by
  unfold execBroadcasterPush
  repeat' first
    | assumption
    | (intro hx; clear_value x)
    | lift_lets
    | split
    | with_reducible first
      | apply bump_kept
      | apply onWalk_kept
      | apply onMerge_kept
      | apply keptOut_next

theorem execLaneAction_kept {s0 : State} (core lane : Nat) {s : State} (hk : Kept s0 s) : KeptOut s0 (execLaneAction core lane s) := by
  unfold execLaneAction
  repeat' first
    | assumption
    | lift_lets
    | split
    | with_reducible first
      | apply bump_kept
      | apply onMerge_kept
      | apply keptOut_next

theorem mergeRetry_kept {s0 : State} {s : State} (r : Run) (w : Walk) (u : MergeState) (hk : Kept s0 s) : Kept s0 (mergeRetry s r w u) := by
  unfold mergeRetry
  repeat' first
    | assumption
    | (intro x; first | refine kept_cut (s0 := s0) (x := x) ?_ ?_ | clear_value x)
    | (intro hx; clear_value x)
    | lift_lets
    | split
    | with_reducible first
      | apply bump_kept
      | apply failRead_kept
      | refine initTile_kept_ok (by assumption) ?_
      | apply onMerge_kept
    | unfold x
    | with_reducible first
      | apply keptOk_ok
      | exact keptOk_error _
      | apply keptOk_bind
      | apply keptOk1_ok
      | exact keptOk1_error _
      | apply keptOk1_bind

theorem execMergeRowAdd_kept {s0 s : State} (core : Nat) (hk : Kept s0 s) : KeptOut s0 (execMergeRowAdd core s) := by
  unfold execMergeRowAdd
  refine keptOut_next ?_
  extract_lets u
  split
  · exact hk
  · rename_i r w _
    extract_lets m c
    generalize outTile _ _ _ _ _ = p
    obtain ⟨_, tr, tc⟩ := p
    dsimp only
    split
    · exact hk
    split
    · exact failRead_kept _ _ _ _ hk
    · generalize addRow _ _ _ _ _ _ _ = out
      repeat' first
        | exact hk
        | split
        | with_reducible apply mergeRetry_kept
        | with_reducible apply mergeEnds_kept
        | with_reducible apply onMerge_kept
        | with_reducible apply onTile_kept
        | with_reducible apply putRow_kept

end Sys2Proof.Machine
end

