-- ==== Sys2Proof/Laws/PinsKept.lean ====
section
/-!
SUPPORT. What the operations of Machine/Pins.lean keep: the queue, the clock, the memories' form, the counters' 64 bits and the fuses.
-/

namespace Sys2Proof.Machine

theorem execFilteredPulse_kept {s0 : State} (pin : Nat) {s : State} (hk : Kept s0 s) : KeptOut s0 (execFilteredPulse pin s) := by
  unfold execFilteredPulse
  repeat' first
    | assumption
    | split
    | with_reducible first
      | apply bump_kept
      | apply keptOut_next

theorem postPin_kept {s0 : State} {s : State} (code : Nat) (detail : List Byte) (hk : Kept s0 s) : Kept s0 (postPin s code detail) := by
  unfold postPin
  repeat' first
    | (intro x; first | refine kept_cut (s0 := s0) (x := x) ?_ ?_ | clear_value x)
    | lift_lets
    | split
    | with_reducible first
      | apply postEvent_kept
      | refine kept_mk (by assumption) id (Nat.le_refl _) (fun _ w => w) rfl rfl

theorem execHaltNAssert_kept {s0 : State} {s : State} (hk : Kept s0 s) : KeptOut s0 (execHaltNAssert s) := by
  unfold execHaltNAssert
  repeat' first
    | split
    | with_reducible first
      | apply bump_kept
      | apply postPin_kept
      | apply keptOut_next
      | refine kept_mk (by assumption) id (Nat.le_refl _) (fun _ w => w) rfl rfl

theorem execHaltNRelease_kept {s0 : State} {s : State} (hk : Kept s0 s) : KeptOut s0 (execHaltNRelease s) := by
  unfold execHaltNRelease
  repeat' first
    | split
    | with_reducible first
      | apply issueWrites_kept
      | apply postPin_kept
      | apply keptOut_next
      | refine kept_mk (by assumption) id (Nat.le_refl _) (fun _ w => w) rfl rfl

theorem execLadderInChange_kept {s0 : State} (level : Bool) {s : State} (hk : Kept s0 s) : KeptOut s0 (execLadderInChange level s) := by
  unfold execLadderInChange
  repeat' first
    | split
    | with_reducible first
      | apply bump_kept
      | apply keptOut_next
      | refine kept_mk (by assumption) id (Nat.le_refl _) (fun _ w => w) rfl rfl

theorem execLadderClaim_kept {s0 : State} (ack : Bool) (d : List Byte) {s : State} (hk : Kept s0 s) : KeptOut s0 (execLadderClaim ack d s) := by
  unfold execLadderClaim
  repeat' first
    | split
    | with_reducible first
      | apply keptOut_next
      | refine kept_mk (by assumption) id (Nat.le_refl _) (fun _ w => w) rfl rfl

theorem i3cSend_kept {s0 : State} {s : State} (d : List Byte) (hk : Kept s0 s) : Kept s0 (i3cSend s d) := by
  unfold i3cSend
  repeat' first
    | assumption
    | with_reducible first
      | apply emit_kept

theorem execGetpid_kept {s0 : State} {s : State} (hk : Kept s0 s) : KeptOut s0 (execGetpid s) := by
  unfold execGetpid
  repeat' first
    | assumption
    | split
    | with_reducible first
      | apply i3cSend_kept
      | apply keptOut_next

theorem execGetbcr_kept {s0 : State} {s : State} (hk : Kept s0 s) : KeptOut s0 (execGetbcr s) := by
  unfold execGetbcr
  repeat' first
    | assumption
    | split
    | with_reducible first
      | apply i3cSend_kept
      | apply keptOut_next

theorem execGetdcr_kept {s0 : State} {s : State} (hk : Kept s0 s) : KeptOut s0 (execGetdcr s) := by
  unfold execGetdcr
  repeat' first
    | assumption
    | split
    | with_reducible first
      | apply i3cSend_kept
      | apply keptOut_next

theorem execGetstatus_kept {s0 : State} {s : State} (hk : Kept s0 s) : KeptOut s0 (execGetstatus s) := by
  unfold execGetstatus
  repeat' first
    | assumption
    | split
    | with_reducible first
      | apply draw_kept
      | apply i3cSend_kept
      | apply keptOut_next

theorem clearStatus_kept {s0 : State} {s : State} (mask : Nat) (hk : Kept s0 s) : Kept s0 (clearStatus s mask) := by
  unfold clearStatus
  repeat' first
    | with_reducible first
      | refine kept_mk (by assumption) id (Nat.le_refl _) (fun _ w => w) rfl rfl

theorem commitPort_kept {s0 s : State} (u flags : Nat) (hk : Kept s0 s) : Kept s0 (commitPort s u flags) := by
  have hp : ∀ p : Pins, Kept s0 { s with pins := p } := fun p => kept_mk hk id (Nat.le_refl _) (fun _ w => w) rfl rfl
  unfold commitPort
  split
  · exact hk
  · dsimp only
    split
    · exact hp _
    · split
      · exact postEvent_kept _ _ (onPort_kept _ _ (hp _))
      · exact hp _

theorem i3cWriteByte_kept {s0 : State} {s : State} (o : Nat) (b : Byte) (hk : Kept s0 s) : Kept s0 (i3cWriteByte s o b) := by
  unfold i3cWriteByte
  repeat' first
    | (intro x; first | refine kept_cut (s0 := s0) (x := x) ?_ ?_ | clear_value x)
    | lift_lets
    | split
    | with_reducible first
      | apply clearStatus_kept
      | apply commitPort_kept
      | refine kept_mk (by assumption) id (Nat.le_refl _) (fun _ w => w) rfl rfl

theorem i3cWriteBytes_kept {s0 s : State} (l : List Byte) (hk : Kept s0 s) : Kept s0 (i3cWriteBytes s l) := by
  induction l generalizing s with
  | nil => exact hk
  | cons b r ih =>
    exact ih (kept_mk (i3cWriteByte_kept _ b hk) id (Nat.le_refl _) (fun _ w => w) rfl rfl)

theorem execI3cPrivateWrite_kept {s0 : State} (d : List Byte) {s : State} (hk : Kept s0 s) : KeptOut s0 (execI3cPrivateWrite d s) := by
  unfold execI3cPrivateWrite
  repeat' first
    | split
    | with_reducible first
      | apply i3cWriteBytes_kept
      | apply keptOut_next
      | refine kept_mk (by assumption) id (Nat.le_refl _) (fun _ w => w) rfl rfl

theorem execI3cPrivateRead_kept {s0 : State} (n : Nat) {s : State} (hk : Kept s0 s) : KeptOut s0 (execI3cPrivateRead n s) := by
  unfold execI3cPrivateRead
  repeat' first
    | (intro x; first | refine kept_cut (s0 := s0) (x := x) ?_ ?_ | clear_value x)
    | (intro hx; clear_value x)
    | lift_lets
    | split
    | with_reducible first
      | apply i3cSend_kept
      | apply keptOut_next
      | refine kept_mk (by assumption) id (Nat.le_refl _) (fun _ w => w) rfl rfl

theorem execStatusWordClear_kept {s0 : State} (mask : BitVec 32) {s : State} (hk : Kept s0 s) : KeptOut s0 (execStatusWordClear mask s) := by
  unfold execStatusWordClear
  repeat' first
    | assumption
    | split
    | with_reducible first
      | apply clearStatus_kept
      | apply keptOut_next

theorem execSubportCommit_kept {s0 : State} (u : Nat) (flags : Byte) {s : State} (hk : Kept s0 s) : KeptOut s0 (execSubportCommit u flags s) := by
  unfold execSubportCommit
  repeat' first
    | assumption
    | split
    | with_reducible first
      | apply commitPort_kept
      | apply keptOut_next

theorem tapCapture_kept {s0 : State} {s : State} (hk : Kept s0 s) : Kept s0 (tapCapture s) := by
  unfold tapCapture
  repeat' first
    | (intro x; first | refine kept_cut (s0 := s0) (x := x) ?_ ?_ | clear_value x)
    | (intro hx; clear_value x)
    | lift_lets
    | split
    | with_reducible first
      | apply draw_kept
      | refine kept_mk (by assumption) id (Nat.le_refl _) (fun _ w => w) rfl rfl

theorem tapAct_kept {s0 : State} {s : State} (tdi : Bool) (hk : Kept s0 s) : Kept s0 (tapAct s tdi) := by
  unfold tapAct
  repeat' first
    | split
    | with_reducible first
      | apply tapCapture_kept
      | refine kept_mk (by assumption) id (Nat.le_refl _) (fun _ w => w) rfl rfl

theorem execBoundaryScan_kept {s0 : State} (tms tdi trstN : Bool) {s : State} (hk : Kept s0 s) : KeptOut s0 (execBoundaryScan tms tdi trstN s) := by
  unfold execBoundaryScan
  repeat' first
    | (intro x; first | refine kept_cut (s0 := s0) (x := x) ?_ ?_ | clear_value x)
    | (intro hx; clear_value x)
    | lift_lets
    | split
    | with_reducible first
      | apply tapReset_kept
      | apply tapAct_kept
      | apply keptOut_next
      | refine kept_mk (by assumption) id (Nat.le_refl _) (fun _ w => w) rfl rfl
    | unfold x

end Sys2Proof.Machine
end

