-- ==== Sys2Proof/Laws/PredictorKept.lean ====
section
/-!
SUPPORT. What the operations of Machine/Predictor.lean keep: the queue, the clock, the memories' form, the counters' 64 bits and the fuses.
-/

namespace Sys2Proof.Machine

theorem noteLayer_kept {s0 : State} {s : State} (r : Run) (mi : Nat) (hk : Kept s0 s) : Kept s0 (noteLayer s r mi) := by
  unfold noteLayer
  repeat' first
    | split
    | with_reducible first
      | apply onRun_kept
      | refine kept_mk (by assumption) id (Nat.le_refl _) (fun _ w => w) rfl rfl
    | unfold x

theorem writeMask_kept {s0 : State} {s : State} (r : Run) (mi pos : Nat) (l : List (Nat × Bool)) (hk : Kept s0 s) : KeptOk s0 (writeMask s r mi pos l) := by
  unfold writeMask
  repeat' first
    | assumption
    | with_reducible first
      | apply writeElems_kept
      | apply keptOk_ok
      | exact keptOk_error _
      | apply keptOk_bind
      | apply keptOk1_ok
      | exact keptOk1_error _
      | apply keptOk1_bind

theorem writeMask_kept_ok {s0 u0 : State} {s : State} {r : Run} {mi pos : Nat} {l : List (Nat × Bool)} (e0 : writeMask s r mi pos l = .ok u0) (hk : Kept s0 s) : Kept s0 u0 :=
  (writeMask_kept (r := r) (mi := mi) (pos := pos) (l := l) hk).ok _ e0

theorem predictWalk_kept {s0 : State} {s : State} (r : Run) (w : Walk) (hk : Kept s0 s) : Kept s0 (predictWalk s r w) := by
  unfold predictWalk
  repeat' first
    | assumption
    | (intro x; first | refine kept_cut (s0 := s0) (x := x) ?_ ?_ | clear_value x)
    | (intro hx; clear_value x)
    | lift_lets
    | split
    | with_reducible first
      | apply onWalk_kept
      | apply failRead_kept
      | apply failWrite_kept
      | apply reach_kept
      | apply endWalk_kept
      | apply issueWrites_kept
      | apply noteLayer_kept
      | refine writeMask_kept_ok (by assumption) ?_
      | apply keptOk_ok
      | exact keptOk_error _
      | apply keptOk_bind
      | apply keptOk1_ok
      | exact keptOk1_error _
      | apply keptOk1_bind

theorem execPredict_kept {s0 : State} (t i p : Nat) {s : State} (hk : Kept s0 s) : KeptOut s0 (execPredict t i p s) := by
  unfold execPredict
  repeat' first
    | assumption
    | with_reducible first
      | apply opCmd_kept
      | apply predictWalk_kept
      | apply keptOut_next

theorem endGovReads_kept {s0 : State} {s : State} (tag g p : Nat) (hk : Kept s0 s) : Kept s0 (endGovReads s tag g p) := by
  unfold endGovReads
  repeat' first
    | assumption
    | refine fun (x : State) _ (hx : Kept s0 x) => ?_
    | split
    | with_reducible first
      | apply endReads_kept
      | apply kept_foldl

theorem groupWalk_kept {s0 : State} {s : State} (r : Run) (w : Walk) (hk : Kept s0 s) : Kept s0 (groupWalk s r w) := by
  unfold groupWalk
  repeat' first
    | assumption
    | split
    | with_reducible first
      | apply bump_kept
      | apply onWalk_kept
      | apply failRead_kept
      | apply failWrite_kept
      | apply reach_kept
      | apply endWalk_kept
      | apply issueWrites_kept
      | refine writeMask_kept_ok (by assumption) ?_
      | apply endGovReads_kept
    | with_reducible first
      | apply keptOk_ok
      | exact keptOk_error _
      | apply keptOk_bind
      | apply keptOk1_ok
      | exact keptOk1_error _
      | apply keptOk1_bind
    | dsimp only

theorem execPredictorGroup_kept {s0 : State} (t i p : Nat) {s : State} (hk : Kept s0 s) : KeptOut s0 (execPredictorGroup t i p s) := by
  unfold execPredictorGroup
  repeat' first
    | assumption
    | with_reducible first
      | apply opCmd_kept
      | apply groupWalk_kept
      | apply keptOut_next

theorem onPred_kept {s0 : State} {s : State} (tag g p : Nat) (f : PredState → PredState) (hk : Kept s0 s) : Kept s0 (onPred s tag g p f) := by
  unfold onPred
  repeat' first
    | assumption
    | with_reducible first
      | apply onWalk_kept

theorem commitRows_kept {s0 : State} {s : State} (r : Run) (g k : Nat) (w : Walk) (rows : List Nat) (l : List GovElem) (hk : Kept s0 s) : KeptOk s0 (commitRows s r g k w rows l) := by
  unfold commitRows
  repeat' first
    | assumption
    | refine fun _ (e : _ = Except.ok _) => ?_
    | refine fun (x : State) _ (hx : Kept s0 x) => ?_
    | refine fun x _ (hx : Kept s0 x.1) => ?_
    | with_reducible first
      | apply issueWrites_kept
      | apply logTile_kept
      | refine writeRaw_kept_ok (by assumption) ?_
      | apply onPred_kept
      | apply keptOk_ok
      | exact keptOk_error _
      | apply keptOk_bind
      | apply keptOk1_ok
      | exact keptOk1_error _
      | apply keptOk1_bind
      | apply keptOk1_foldlM
      | apply kept_foldl
    | with_reducible first
      | refine keptOk1_get (by assumption) ?_

theorem commitRows_kept_ok {s0 u0 : State} {s : State} {r : Run} {g k : Nat} {w : Walk} {rows : List Nat} {l : List GovElem} (e0 : commitRows s r g k w rows l = .ok u0) (hk : Kept s0 s) : Kept s0 u0 :=
  (commitRows_kept (r := r) (g := g) (k := k) (w := w) (rows := rows) (l := l) hk).ok _ e0

theorem execZeroRowWrite_kept {s0 : State} (t i p : Nat) {s : State} (hk : Kept s0 s) : KeptOut s0 (execZeroRowWrite t i p s) := by
  unfold execZeroRowWrite
  repeat' first
    | assumption
    | lift_lets
    | split
    | with_reducible first
      | apply bump_kept
      | apply failWrite_kept
      | refine commitRows_kept_ok (by assumption) ?_
      | apply keptOk_ok
      | exact keptOk_error _
      | apply keptOk_bind
      | apply keptOk1_ok
      | exact keptOk1_error _
      | apply keptOk1_bind
      | apply keptOut_next

theorem countPacked_kept {s0 : State} {s : State} (r : Run) (w : Walk) (rows : List Nat) (ps : List PackPart) (hk : Kept s0 s) : Kept s0 (countPacked s r w rows ps) := by
  unfold countPacked
  repeat' first
    | assumption
    | (intro x; first | refine kept_cut (s0 := s0) (x := x) ?_ ?_ | (have t : _ → State := x; clear t; unfold x; clear x) | (have t : State → _ := x; clear t; unfold x; clear x) | clear_value x)
    | (intro hx; clear_value x)
    | lift_lets
    | split
    | with_reducible first
      | apply bump_kept

theorem noteAudit_kept {s0 : State} {s : State} (tag g audited missed : Nat) (hk : Kept s0 s) : Kept s0 (noteAudit s tag g audited missed) := by
  unfold noteAudit
  repeat' first
    | assumption
    | with_reducible first
      | apply onRun_kept

theorem drainPacked_kept {s0 : State} {s : State} (r : Run) (w : Walk) (g : Nat) (q : PredState) (kept : Bool) (rows : List Nat) (ps : List PackPart) (hk : Kept s0 s) : KeptOk2 s0 (drainPacked s r w g q kept rows ps) := by
  unfold drainPacked
  repeat' first
    | assumption
    | refine fun _ (e : _ = Except.ok _) => ?_
    | split
    | with_reducible first
      | apply bump_kept
      | apply countEpi_kept
      | apply onPred_kept
      | refine commitRows_kept_ok (by assumption) ?_
      | apply noteAudit_kept
      | apply keptOk2_ok
      | exact keptOk2_error _
      | apply keptOk2_bind
      | apply keptOk_ok
      | apply keptOk_bind
      | apply keptOk1_ok
      | exact keptOk1_error _
      | apply keptOk1_bind

theorem drainPacked_kept_ok {s0 u0 : State} {s : State} {r : Run} {w : Walk} {g : Nat} {q : PredState} {kept : Bool} {rows : List Nat} {ps : List PackPart} (e0 : drainPacked s r w g q kept rows ps = .ok (.ok u0)) (hk : Kept s0 s) : Kept s0 u0 :=
  (drainPacked_kept (r := r) (w := w) (g := g) (q := q) (kept := kept) (rows := rows) (ps := ps) hk).ok _ e0

theorem drainPacked_kept_ok2 {s0 u0 : State} {s : State} {r : Run} {w : Walk} {g : Nat} {q : PredState} {kept : Bool} {rows : List Nat} {ps : List PackPart} {y0} (e0 : drainPacked s r w g q kept rows ps = .ok y0) (e2 : y0 = .ok u0) (hk : Kept s0 s) : Kept s0 u0 := by
  subst e2
  exact drainPacked_kept_ok e0 hk

theorem putPacked_kept {s0 : State} {s : State} (w : Walk) (ctile : Nat) (ps : List PackPart) (hk : Kept s0 s) : Kept s0 (putPacked s w ctile ps) := by
  unfold putPacked
  repeat' first
    | assumption
    | refine fun (x : State) _ (hx : Kept s0 x) => ?_
    | with_reducible first
      | apply putRow_kept
      | apply kept_foldl

theorem execPackedTile_kept {s0 : State} (t i p : Nat) {s : State} (hk : Kept s0 s) : KeptOut s0 (execPackedTile t i p s) := by
  unfold execPackedTile
  repeat' first
    | assumption
    | split
    | with_reducible first
      | apply onTile_kept
      | apply onWalk_kept
      | apply failRead_kept
      | apply failWrite_kept
      | apply reach_kept
      | apply noteReaders_kept
      | apply endGovReads_kept
      | apply countPacked_kept
      | refine drainPacked_kept_ok (by assumption) ?_
      | apply putPacked_kept
      | apply keptOut_next
    | with_reducible first
      | apply keptOk_ok
      | exact keptOk_error _
      | apply keptOk_bind
      | apply keptOk1_ok
      | exact keptOk1_error _
      | apply keptOk1_bind
    | dsimp only

theorem execGovernedRelease_kept {s0 : State} (t i p : Nat) {s : State} (hk : Kept s0 s) : KeptOut s0 (execGovernedRelease t i p s) := by
  unfold execGovernedRelease
  repeat' first
    | assumption
    | split
    | with_reducible first
      | apply onWalk_kept
      | apply endWalk_kept
      | apply keptOut_next
    | dsimp only

end Sys2Proof.Machine
end

