-- ==== Sys2Proof/Laws/RotateKept.lean ====
section
/-!
SUPPORT. What the operations of Machine/Rotate.lean keep: the queue, the clock, the memories' form, the counters' 64 bits and the fuses.
-/

namespace Sys2Proof.Machine

theorem setRot_kept {s0 : State} {s : State} (x : Rot) (hk : Kept s0 s) : Kept s0 (setRot s x) := by
  unfold setRot
  repeat' first
    | with_reducible first
      | refine kept_mk (by assumption) id (Nat.le_refl _) (fun _ w => w) rfl rfl

theorem rotStart_kept {s0 : State} {s : State} (r : Run) (w : Walk) (hk : Kept s0 s) : Kept s0 (rotStart s r w) := by
  unfold rotStart
  repeat' first
    | (intro x; first | refine kept_cut (s0 := s0) (x := x) ?_ ?_ | clear_value x)
    | (intro hx; clear_value x)
    | lift_lets
    | split
    | with_reducible first
      | apply onWalk_kept
      | apply failMacro_kept
      | apply failRead_kept
      | apply endReads_kept
      | apply endWalk_kept
      | refine kept_mk (by assumption) id (Nat.le_refl _) (fun _ w => w) rfl rfl
    | with_reducible first
      | apply keptOk_ok
      | exact keptOk_error _
      | apply keptOk_bind
      | apply keptOk1_ok
      | exact keptOk1_error _
      | apply keptOk1_bind

theorem execRotate_kept {s0 : State} (t i p : Nat) {s : State} (hk : Kept s0 s) : KeptOut s0 (execRotate t i p s) := by
  unfold execRotate
  repeat' first
    | assumption
    | with_reducible first
      | apply opCmd_kept
      | apply rotStart_kept
      | apply keptOut_next

theorem rotSettle_kept {s0 : State} {s : State} (t i p : Nat) (hk : Kept s0 s) : Kept s0 (rotSettle s t i p) := by
  unfold rotSettle
  repeat' first
    | split
    | with_reducible first
      | apply endWalk_kept
      | refine kept_mk (by assumption) id (Nat.le_refl _) (fun _ w => w) rfl rfl

theorem sendSettle_kept {s0 : State} {s : State} (key pos : Nat) (hk : Kept s0 s) : Kept s0 (sendSettle s key pos) := by
  unfold sendSettle
  repeat' first
    | (intro x; first | refine kept_cut (s0 := s0) (x := x) ?_ ?_ | clear_value x)
    | (intro hx; clear_value x)
    | lift_lets
    | split
    | with_reducible first
      | apply setRot_kept
      | apply rotSettle_kept
      | refine kept_mk (by assumption) id (Nat.le_refl _) (fun _ w => w) rfl rfl

theorem localTaken_kept {s0 : State} {s : State} (m : Mc) (rcore : Nat) (refused : Bool) (hk : Kept s0 s) : Kept s0 (localTaken s m rcore refused) := by
  unfold localTaken
  repeat' first
    | assumption
    | split
    | with_reducible first
      | apply bump_kept
      | apply setMc_kept
      | apply pump_kept
      | apply sendSettle_kept
    | unfold x

theorem refuseLocal_kept {s0 : State} {s : State} (key pos : Nat) (hk : Kept s0 s) : Kept s0 (refuseLocal s key pos) := by
  unfold refuseLocal
  repeat' first
    | assumption
    | refine fun (x : State) _ (hx : Kept s0 x) => ?_
    | split
    | with_reducible first
      | apply localTaken_kept
      | apply kept_foldl

theorem execRotateStep_kept {s0 : State} (t i p : Nat) {s : State} (hk : Kept s0 s) : KeptOut s0 (execRotateStep t i p s) := by
  unfold execRotateStep
  repeat' first
    | (intro x; first | refine kept_cut (s0 := s0) (x := x) ?_ ?_ | clear_value x)
    | (intro hx; clear_value x)
    | lift_lets
    | split
    | with_reducible first
      | apply bump_kept
      | apply pump_kept
      | apply setRot_kept
      | apply rotSettle_kept
      | apply refuseLocal_kept
      | apply keptOut_next
      | refine kept_mk (by assumption) id (Nat.le_refl _) (fun _ w => w) rfl rfl

theorem rotPiece_kept {s0 : State} {s : State} (x0 : Rot) (src key off : Nat) (d : List Byte) (hk : Kept s0 s) : Kept s0 (rotPiece s x0 src key off d) := by
  unfold rotPiece
  repeat' first
    | assumption
    | (intro x; first | refine kept_cut (s0 := s0) (x := x) ?_ ?_ | clear_value x)
    | intro y
    | lift_lets
    | split
    | with_reducible first
      | apply shelfWrite_kept1
      | apply sendTransfer_kept1
      | apply setRot_kept
      | apply rotSettle_kept
    | unfold x

theorem refusePiece_kept {s0 : State} {s : State} (h : Hdr) (hk : Kept s0 s) : Kept s0 (refusePiece s h) := by
  unfold refusePiece
  repeat' first
    | assumption
    | with_reducible first
      | apply sendTransfer_kept1

theorem rotData_kept {s0 : State} {s : State} (h : Hdr) (d : List Byte) (hk : Kept s0 s) : Kept s0 (rotData s h d) := by
  unfold rotData
  repeat' first
    | split
    | with_reducible first
      | apply rotPiece_kept
      | apply refusePiece_kept
      | refine kept_mk (by assumption) id (Nat.le_refl _) (fun _ w => w) rfl rfl

theorem rotAsk_kept {s0 s : State} (x0 : Rot) (src key : Nat) (hk : Kept s0 s) : Kept s0 (rotAsk s x0 src key) := by
  unfold rotAsk
  refine setRot_kept _ (kept_foldl1' _ ?_ hk)
  intro a i ha
  exact sendTransfer_kept1 _ _ _ (kept_mk ha id (Nat.le_refl _) (fun _ w => w) rfl rfl)

theorem rotTake_kept {s0 : State} {s : State} (x : Rot) (hk : Kept s0 s) : Kept s0 (rotTake s x) := by
  unfold rotTake
  repeat' first
    | refine fun (x : State) _ (hx : Kept s0 x) => ?_
    | (intro x; first | refine kept_cut (s0 := s0) (x := x) ?_ ?_ | (have t : _ → State := x; clear t; unfold x; clear x) | (have t : State → _ := x; clear t; unfold x; clear x) | clear_value x)
    | lift_lets
    | split
    | with_reducible first
      | apply rotPiece_kept
      | apply rotAsk_kept
      | refine kept_mk (by assumption) id (Nat.le_refl _) (fun _ w => w) rfl rfl
      | apply kept_foldl

theorem rotRefuse_kept {s0 : State} {s : State} (x : Rot) (hk : Kept s0 s) : Kept s0 (rotRefuse s x) := by
  unfold rotRefuse
  repeat' first
    | refine fun (x : State) _ (hx : Kept s0 x) => ?_
    | (intro x; first | refine kept_cut (s0 := s0) (x := x) ?_ ?_ | (have t : _ → State := x; clear t; unfold x; clear x) | (have t : State → _ := x; clear t; unfold x; clear x) | clear_value x)
    | lift_lets
    | split
    | with_reducible first
      | apply refusePiece_kept
      | refine kept_mk (by assumption) id (Nat.le_refl _) (fun _ w => w) rfl rfl
      | apply kept_foldl

theorem rotLocal_kept {s0 : State} {s : State} (x : Rot) (m : Mc) (hk : Kept s0 s) : Kept s0 (rotLocal s x m) := by
  unfold rotLocal
  repeat' first
    | assumption
    | split
    | with_reducible first
      | apply shelfWrite_kept1
      | apply failMacro_kept
      | apply setRot_kept
      | apply rotSettle_kept
      | apply localTaken_kept

theorem execRotateReceive_kept {s0 : State} (t i p rank core step : Nat) {s : State} (hk : Kept s0 s) :
    KeptOut s0 (execRotateReceive t i p rank core step s) := by
  unfold execRotateReceive
  repeat' first
    | assumption
    | lift_lets
    | split
    | with_reducible first
      | apply rotTake_kept
      | apply rotRefuse_kept
      | apply rotLocal_kept
      | apply keptOut_next

theorem execMcData_kept {s0 : State} (h : Hdr) (address tag : Nat) (d : List Byte) {s : State} (hk : Kept s0 s) :
    KeptOut s0 (execMcData h address tag d s) := by
  unfold execMcData
  repeat' first
    | assumption
    | refine fun (x : State) (hx : Kept s0 x) => ?_
    | split
    | with_reducible first
      | apply servedIn_kept
      | apply chunkBytes_kept
      | apply rotData_kept
      | apply keptOut_next

theorem acked_kept {s0 : State} {s : State} (m : Mc) (rank core chunk : Nat) (hk : Kept s0 s) : Kept s0 (acked s m rank core chunk) := by
  unfold acked
  repeat' first
    | assumption
    | with_reducible first
      | apply setMc_kept
      | apply pump_kept
      | apply sendSettle_kept

theorem execMcAck_kept {s0 : State} (key epoch rank address : Nat) {s : State} (hk : Kept s0 s) :
    KeptOut s0 (execMcAck key epoch rank address s) := by
  unfold execMcAck
  repeat' first
    | assumption
    | refine fun (x : State) (hx : Kept s0 x) => ?_
    | lift_lets
    | split
    | with_reducible first
      | apply arrive_kept
      | apply acked_kept
      | apply keptOut_next

theorem sendRefused_kept {s0 : State} {s : State} (h : Hdr) (hk : Kept s0 s) : Kept s0 (sendRefused s h) := by
  unfold sendRefused
  repeat' first
    | assumption
    | (intro x; first | refine kept_cut (s0 := s0) (x := x) ?_ ?_ | (have t : _ → State := x; clear t; unfold x; clear x) | (have t : State → _ := x; clear t; unfold x; clear x) | clear_value x)
    | (intro hx; clear_value x)
    | lift_lets
    | split
    | with_reducible first
      | apply bump_kept
      | apply setMc_kept
      | apply pump_kept
      | apply sendSettle_kept

theorem takeDetach_kept {s0 : State} (key core step rank : Nat) {s : State} (hk : Kept s0 s) : Kept s0 (takeDetach key core step rank s) := by
  unfold takeDetach
  repeat' first
    | (intro x; first | refine kept_cut (s0 := s0) (x := x) ?_ ?_ | clear_value x)
    | (intro hx; clear_value x)
    | lift_lets
    | split
    | with_reducible first
      | apply bump_kept
      | apply catchUp_kept
      | apply setRot_kept
      | apply rotTake_kept
      | refine kept_mk (by assumption) id (Nat.le_refl _) (fun _ w => w) rfl rfl

theorem execDetach_kept {s0 : State} (rank : Nat) (d : List Byte) {s : State} (hk : Kept s0 s) : KeptOut s0 (execDetach rank d s) := by
  unfold execDetach
  repeat' first
    | assumption
    | with_reducible first
      | apply fromView_kept
      | apply takeDetach_kept
      | apply keptOut_next

theorem gotRot_kept {s0 : State} {s : State} (h : Hdr) (d : List Byte) (hk : Kept s0 s) : KeptM s0 (gotRot s h d) := by
  unfold gotRot
  repeat' first
    | assumption
    | refine fun _ (e : _ = some _) => ?_
    | split
    | with_reducible first
      | apply bump_kept
      | apply setRot_kept
      | apply rotPiece_kept
      | apply keptM_some
      | apply keptM_bind
    | with_reducible first
      | apply keptOk_ok
      | exact keptOk_error _
      | apply keptOk_bind
      | apply keptOk1_ok
      | exact keptOk1_error _
      | apply keptOk1_bind

theorem gotRot_kept_eq {s0 u0 : State} {s : State} {h : Hdr} {d : List Byte}  (e0 : gotRot s h d = some u0) (hk : Kept s0 s) : Kept s0 u0 :=
  (gotRot_kept (h := h) (d := d)  hk).some _ e0

theorem refuseLeft_kept {s0 : State} {s : State} (hk : Kept s0 s) : Kept s0 (refuseLeft s) := by
  unfold refuseLeft
  repeat' first
    | refine fun (x : State) _ (hx : Kept s0 x) => ?_
    | split
    | with_reducible first
      | apply refuseLocal_kept
      | apply refusePiece_kept
      | refine kept_mk (by assumption) id (Nat.le_refl _) (fun _ w => w) rfl rfl
      | apply kept_foldl
    | unfold x

theorem tickRots_kept {s0 : State} {s : State} (hk : Kept s0 s) : Kept s0 (tickRots s) := by
  unfold tickRots
  repeat' first
    | assumption
    | refine fun (x : State) _ (hx : Kept s0 x) => ?_
    | split
    | with_reducible first
      | apply bump_kept
      | apply refuseLeft_kept
      | apply kept_foldl

theorem execRotateStallLimit_kept {s0 : State} (t i p : Nat) {s : State} (hk : Kept s0 s) : KeptOut s0 (execRotateStallLimit t i p s) := by
  unfold execRotateStallLimit
  repeat' first
    | assumption
    | split
    | with_reducible first
      | apply failMacro_kept
      | apply keptOut_next

theorem execRotateBufferRead_kept {s0 : State} (t i p off len : Nat) (write : Bool) {s : State} (hk : Kept s0 s) : KeptOut s0 (execRotateBufferRead t i p off len write s) := by
  unfold execRotateBufferRead
  repeat' first
    | assumption
    | lift_lets
    | split
    | with_reducible first
      | apply failMacro_kept
      | apply noteRotWait_kept
      | apply beginReads_kept
      | apply keptOut_next

end Sys2Proof.Machine
end

