-- ==== Sys2Proof/Laws/TxnKept.lean ====
section
/-!
SUPPORT. What the operations of Machine/Txn.lean keep: the queue, the clock, the memories' form, the counters' 64 bits and the fuses.
-/

namespace Sys2Proof.Machine

theorem beginTxnOwn_kept {s0 : State} {s : State} (o : Order) (hk : Kept s0 s) : Kept s0 (beginTxnOwn s o) := by
  unfold beginTxnOwn
  repeat' first
    | (intro x; first | refine kept_cut (s0 := s0) (x := x) ?_ ?_ | clear_value x)
    | lift_lets
    | split
    | with_reducible first
      | apply complete_kept
      | refine kept_mk (by assumption) id (Nat.le_refl _) (fun _ w => w) rfl rfl

theorem execBeginTxn_kept {s0 : State} (m n : Nat) {s : State} (hk : Kept s0 s) : KeptOut s0 (execBeginTxn m n s) := by
  unfold execBeginTxn
  repeat' first
    | assumption
    | with_reducible first
      | apply orderCmd_kept
      | apply beginTxnOwn_kept
      | apply keptOut_next

theorem setOwn_kept {s0 : State} (d : Option (List Byte)) {s : State} (o : Order) (hk : Kept s0 s) : Kept s0 (setOwn d s o) := by
  unfold setOwn
  repeat' first
    | (intro x; first | refine kept_cut (s0 := s0) (x := x) ?_ ?_ | clear_value x)
    | (intro hx; clear_value x)
    | lift_lets
    | split
    | with_reducible first
      | apply bump_kept
      | apply complete_kept
      | apply applyKey_kept
      | apply hostAsk_kept
      | refine kept_mk (by assumption) id (Nat.le_refl _) (fun _ w => w) rfl rfl
    | unfold x

theorem execSet_kept {s0 : State} (m n : Nat) (d : Option (List Byte)) {s : State} (hk : Kept s0 s) : KeptOut s0 (execSet m n d s) := by
  unfold execSet
  repeat' first
    | assumption
    | with_reducible first
      | apply orderCmd_kept
      | apply setOwn_kept
      | apply keptOut_next

theorem sendDecision_kept {s0 : State} {s : State} (hk : Kept s0 s) : Kept s0 (sendDecision s) := by
  unfold sendDecision
  repeat' first
    | with_reducible first
      | apply mgmtAll_kept
      | refine kept_mk (by assumption) id (Nat.le_refl _) (fun _ w => w) rfl rfl

theorem dropDigests_kept {s0 : State} {s : State} (ranks : List Nat) (c : Nat) (hk : Kept s0 s) : Kept s0 (dropDigests s ranks c) := by
  unfold dropDigests
  repeat' first
    | with_reducible first
      | refine kept_mk (by assumption) id (Nat.le_refl _) (fun _ w => w) rfl rfl

theorem applyTxn_kept {s0 : State} {s : State} (hk : Kept s0 s) : Kept s0 (applyTxn s) := by
  unfold applyTxn
  repeat' first
    | (intro x; first | refine kept_cut (s0 := s0) (x := x) ?_ ?_ | clear_value x)
    | (intro hx; clear_value x)
    | lift_lets
    | split
    | with_reducible first
      | apply bump_kept
      | apply endCommit_kept
      | apply applyAll_kept
      | apply dropDigests_kept
      | refine kept_mk (by assumption) id (Nat.le_refl _) (fun _ w => w) rfl rfl
    | unfold x

theorem commitTxnOwn_kept {s0 : State} {s : State} (o : Order) (hk : Kept s0 s) : Kept s0 (commitTxnOwn s o) := by
  unfold commitTxnOwn
  repeat' first
    | (intro x; first | refine kept_cut (s0 := s0) (x := x) ?_ ?_ | clear_value x)
    | (intro hx; clear_value x)
    | lift_lets
    | split
    | with_reducible first
      | apply complete_kept
      | apply mgmtAll_kept
      | apply beginOrder_kept
      | apply sendDecision_kept
      | apply applyTxn_kept
      | refine kept_mk (by assumption) id (Nat.le_refl _) (fun _ w => w) rfl rfl

theorem execCommitTxn_kept {s0 : State} (m n : Nat) {s : State} (hk : Kept s0 s) : KeptOut s0 (execCommitTxn m n s) := by
  unfold execCommitTxn
  repeat' first
    | assumption
    | with_reducible first
      | apply orderCmd_kept
      | apply commitTxnOwn_kept
      | apply keptOut_next

theorem abortTxn_kept {s0 : State} {s : State} (st : BitVec 8) (rank : Nat) (hk : Kept s0 s) : Kept s0 (abortTxn s st rank) := by
  unfold abortTxn
  repeat' first
    | (intro x; first | refine kept_cut (s0 := s0) (x := x) ?_ ?_ | clear_value x)
    | (intro hx; clear_value x)
    | lift_lets
    | with_reducible first
      | apply endCommit_kept
      | apply mgmtAll_kept
      | refine kept_mk (by assumption) id (Nat.le_refl _) (fun _ w => w) rfl rfl

theorem rollbackTxnOwn_kept {s0 : State} {s : State} (o : Order) (hk : Kept s0 s) : Kept s0 (rollbackTxnOwn s o) := by
  unfold rollbackTxnOwn
  repeat' first
    | assumption
    | split
    | with_reducible first
      | apply complete_kept
      | apply rollback_kept
      | apply mgmtAll_kept
    | unfold x

theorem execRollbackTxn_kept {s0 : State} (m n : Nat) {s : State} (hk : Kept s0 s) : KeptOut s0 (execRollbackTxn m n s) := by
  unfold execRollbackTxn
  repeat' first
    | assumption
    | with_reducible first
      | apply orderCmd_kept
      | apply rollbackTxnOwn_kept
      | apply keptOut_next

theorem takePrepare_kept {s0 : State} (coord : Nat) (staged : List (Nat × List Byte)) (beat : Nat) {s : State} (hk : Kept s0 s) : Kept s0 (takePrepare coord staged beat s) := by
  unfold takePrepare
  repeat' first
    | split
    | with_reducible first
      | apply bump_kept
      | apply sendMgmt_kept
      | refine kept_mk (by assumption) id (Nat.le_refl _) (fun _ w => w) rfl rfl
    | unfold x

theorem execPrepare_kept {s0 : State} (coord : Nat) (staged : List (Nat × List Byte)) (beat : Nat) {s : State} (hk : Kept s0 s) : KeptOut s0 (execPrepare coord staged beat s) := by
  unfold execPrepare
  repeat' first
    | assumption
    | with_reducible first
      | apply fromView_kept
      | apply takePrepare_kept
      | apply keptOut_next

theorem takeReply_kept {s0 : State} (rank : Nat) (status : Byte) {s : State} (hk : Kept s0 s) : Kept s0 (takeReply rank status s) := by
  unfold takeReply
  repeat' first
    | (intro x; first | refine kept_cut (s0 := s0) (x := x) ?_ ?_ | clear_value x)
    | (intro hx; clear_value x)
    | lift_lets
    | split
    | with_reducible first
      | apply sendDecision_kept
      | apply abortTxn_kept
      | refine kept_mk (by assumption) id (Nat.le_refl _) (fun _ w => w) rfl rfl

theorem execReadyReply_kept {s0 : State} (rank : Nat) (status : Byte) {s : State} (hk : Kept s0 s) : KeptOut s0 (execReadyReply rank status s) := by
  unfold execReadyReply
  repeat' first
    | assumption
    | with_reducible first
      | apply fromView_kept
      | apply takeReply_kept
      | apply keptOut_next

theorem takeDecision_kept {s0 : State} (coord beat : Nat) {s : State} (hk : Kept s0 s) : Kept s0 (takeDecision coord beat s) := by
  unfold takeDecision
  repeat' first
    | split
    | with_reducible first
      | refine kept_mk (by assumption) id (Nat.le_refl _) (fun _ w => w) rfl rfl

theorem execDecision_kept {s0 : State} (coord beat : Nat) {s : State} (hk : Kept s0 s) : KeptOut s0 (execDecision coord beat s) := by
  unfold execDecision
  repeat' first
    | assumption
    | with_reducible first
      | apply fromView_kept
      | apply takeDecision_kept
      | apply keptOut_next

theorem takeAbort_kept {s0 : State} (coord : Nat) {s : State} (hk : Kept s0 s) : Kept s0 (takeAbort coord s) := by
  unfold takeAbort
  repeat' first
    | split
    | with_reducible first
      | apply bump_kept
      | refine kept_mk (by assumption) id (Nat.le_refl _) (fun _ w => w) rfl rfl

theorem execAbort_kept {s0 : State} (coord : Nat) {s : State} (hk : Kept s0 s) : KeptOut s0 (execAbort coord s) := by
  unfold execAbort
  repeat' first
    | assumption
    | with_reducible first
      | apply fromView_kept
      | apply takeAbort_kept
      | apply keptOut_next

theorem execTxnReplyTimeout_kept {s0 : State} {s : State} (hk : Kept s0 s) : KeptOut s0 (execTxnReplyTimeout s) := by
  unfold execTxnReplyTimeout
  repeat' first
    | assumption
    | split
    | with_reducible first
      | apply abortTxn_kept
      | apply keptOut_next

theorem commitOwn_kept {s0 : State} {s : State} (hk : Kept s0 s) : Kept s0 (commitOwn s) := by
  unfold commitOwn
  repeat' first
    | assumption
    | split
    | with_reducible first
      | apply applyTxn_kept

theorem commitMember_kept {s0 : State} {s : State} (hk : Kept s0 s) : Kept s0 (commitMember s) := by
  unfold commitMember
  repeat' first
    | split
    | with_reducible first
      | apply bump_kept
      | apply postEvent_kept
      | apply applyAll_kept
      | apply fenceSelf_kept
      | apply dropDigests_kept
      | refine kept_mk (by assumption) id (Nat.le_refl _) (fun _ w => w) rfl rfl

theorem execCommitBeat_kept {s0 : State} {s : State} (hk : Kept s0 s) : KeptOut s0 (execCommitBeat s) := by
  unfold execCommitBeat
  repeat' first
    | assumption
    | with_reducible first
      | apply commitOwn_kept
      | apply commitMember_kept
      | apply keptOut_next

theorem execLocalCommitBeat_kept {s0 : State} {s : State} (hk : Kept s0 s) : KeptOut s0 (execLocalCommitBeat s) := by
  unfold execLocalCommitBeat
  repeat' first
    | assumption
    | split
    | with_reducible first
      | apply applyTxn_kept
      | apply keptOut_next

end Sys2Proof.Machine
end

