-- ==== Sys2Proof/Laws/TransferKept.lean ====
section
/-!
SUPPORT. What the operations of Machine/Transfer.lean keep: the queue, the clock, the memories' form, the counters' 64 bits and the fuses.
-/

namespace Sys2Proof.Machine

theorem execTransferForward_kept {s0 : State} (h : Hdr) (d : List Byte) {s : State} (hk : Kept s0 s) : KeptOut s0 (execTransferForward h d s) := by
  unfold execTransferForward
  repeat' first
    | assumption
    | split
    | with_reducible first
      | apply sendTransfer_kept1
      | apply keptOut_next

theorem remoteRead_kept {s0 s : State} (h : Hdr) (n : Nat) (hk : Kept s0 s) : KeptP s0 (remoteRead s h n) := by
  unfold remoteRead
  split
  · split
    · exact hk
    · exact hk
  · split
    · exact hk
    · refine kept_foldl1 _ ?_ hk
      intro x p hx
      exact countRead_kept _ _ hx

theorem remoteRead_kept1 {s0 s : State} (h : Hdr) (n : Nat) (hk : Kept s0 s) : Kept s0 (remoteRead s h n).1 :=
  remoteRead_kept h n hk

theorem remoteRead_kept_eq {s0 s u0 : State} {h : Hdr} {n : Nat} {q0} (e0 : remoteRead s h n = (u0, q0)) (hk : Kept s0 s) :
    Kept s0 u0 := by
  have := remoteRead_kept1 h n hk
  rw [e0] at this
  exact this

theorem replyData_kept {s0 : State} {s : State} (h : Hdr) (status : Nat) (d : List Byte) (hk : Kept s0 s) : Kept s0 (replyData s h status d) := by
  unfold replyData
  repeat' first
    | assumption
    | with_reducible first
      | apply sendTransfer_kept1

theorem applyRead_kept {s0 s : State} (h : Hdr) (hk : Kept s0 s) : KeptM s0 (applyRead s h) := by
  unfold applyRead
  split
  · split
    rename_i e
    refine keptM_some ?_
    split
    · exact replyData_kept _ _ _ (remoteRead_kept_eq e hk)
    · exact replyData_kept _ _ _ (remoteRead_kept_eq e hk)
  · split
    · refine ⟨fun t e => ?_⟩
      obtain ⟨x, hx, rfl⟩ := Option.map_eq_some_iff.mp e
      split
      · exact replyData_kept _ _ _ (readSlice_kept hx hk)
      · exact replyData_kept _ _ _ (readSlice_kept hx hk)
    · refine ⟨fun t e => ?_⟩
      obtain ⟨x, hx, rfl⟩ := Option.map_eq_some_iff.mp e
      exact replyData_kept _ _ _ (serveChunk_kept hx hk)

theorem applyRead_kept_eq {s0 u0 s : State} {h : Hdr} (e0 : applyRead s h = some u0) (hk : Kept s0 s) : Kept s0 u0 :=
  (applyRead_kept h hk).some _ e0

theorem execReadData_kept {s0 : State} (h : Hdr) (d : List Byte) {s : State} (hk : Kept s0 s) : KeptOut s0 (execReadData h d s) := by
  unfold execReadData
  repeat' first
    | assumption
    | refine fun (x : State) (hx : Kept s0 x) => ?_
    | split
    | with_reducible first
      | apply served_kept
      | apply returnRead_kept
      | refine gotSlice_kept_eq (by assumption) ?_
      | refine gotChunk_kept_eq (by assumption) ?_
      | refine gotRot_kept_eq (by assumption) ?_
      | apply keptOut_next

theorem sendAck_kept {s0 : State} {s : State} (h : Hdr) (cls status : Nat) (hk : Kept s0 s) : Kept s0 (sendAck s h cls status) := by
  unfold sendAck
  repeat' first
    | assumption
    | with_reducible first
      | apply sendTransfer_kept1

theorem putWrite_kept {s0 s : State} (h : Hdr) (d : List Byte) (hk : Kept s0 s) : Kept s0 (putWrite s h d) := by
  unfold putWrite
  split
  · split
    · split
      rename_i e
      exact sendAck_kept _ _ _ (shelfWrite_kept_eq e hk)
    · exact sendAck_kept _ _ _ hk
  · split
    · exact sendAck_kept _ _ _ hk
    · split
      rename_i e
      refine sendAck_kept _ _ _ (keptP_get e (kept_foldl1 _ ?_ hk))
      intro a p ha
      split
      rename_i e
      exact keptP_mk (ddrWriteCells_kept_eq e ha)

theorem refuseAdd_kept {s0 : State} {s : State} (h : Hdr) (hk : Kept s0 s) : Kept s0 (refuseAdd s h) := by
  unfold refuseAdd
  repeat' first
    | assumption
    | with_reducible first
      | apply bump_kept
      | apply sendAck_kept

theorem applyAdd_kept {s0 : State} {s : State} (h : Hdr) (d : List Byte) (hk : Kept s0 s) : Kept s0 (applyAdd s h d) := by
  unfold applyAdd
  repeat' first
    | assumption
    | refine fun (x : State) _ (hx : Kept s0 x) => ?_
    | refine fun x _ (hx : Kept s0 x.1) => ?_
    | (intro x; first | refine kept_cut (s0 := s0) (x := x) ?_ ?_ | (have t : _ → State := x; clear t; unfold x; clear x) | (have t : State → _ := x; clear t; unfold x; clear x) | clear_value x)
    | lift_lets
    | split
    | with_reducible first
      | apply bump_kept
      | apply countRead_kept
      | refine ddrAdd_kept_eq (by assumption) ?_
      | apply shelfAdd_kept1
      | apply sendAck_kept
      | apply refuseAdd_kept
      | apply keptP_mk
      | apply kept_foldl
      | apply kept_foldl1'

theorem serveLink_kept {s0 : State} {s : State} (h : Hdr) (d : List Byte) (hk : Kept s0 s) : KeptM s0 (serveLink s h d) := by
  unfold serveLink
  repeat' first
    | assumption
    | split
    | with_reducible first
      | apply applyRead_kept
      | apply putWrite_kept
      | apply applyAdd_kept
      | apply keptM_some
      | exact keptM_none

theorem serveLink_kept_eq {s0 u0 : State} {s : State} {h : Hdr} {d : List Byte}  (e0 : serveLink s h d = some u0) (hk : Kept s0 s) : Kept s0 u0 :=
  (serveLink_kept (h := h) (d := d)  hk).some _ e0

theorem takeLink_kept {s0 : State} {s : State} (h : Hdr) (d : List Byte) (hk : Kept s0 s) : Kept s0 (takeLink s h d) := by
  unfold takeLink
  repeat' first
    | split
    | with_reducible first
      | refine serveLink_kept_eq (by assumption) ?_
      | refine kept_mk (by assumption) id (Nat.le_refl _) (fun _ w => w) rfl rfl

theorem serveWaiting_kept {s0 : State} {s : State} (hk : Kept s0 s) : Kept s0 (serveWaiting s) := by
  unfold serveWaiting
  repeat' first
    | refine fun (x : State) _ (hx : Kept s0 x) => ?_
    | split
    | with_reducible first
      | apply takeLink_kept
      | refine kept_mk (by assumption) id (Nat.le_refl _) (fun _ w => w) rfl rfl
      | apply kept_foldl

theorem execReadTransfer_kept {s0 : State} (h : Hdr) {s : State} (hk : Kept s0 s) : KeptOut s0 (execReadTransfer h s) := by
  unfold execReadTransfer
  repeat' first
    | assumption
    | refine fun (x : State) (hx : Kept s0 x) => ?_
    | with_reducible first
      | apply servedIn_kept
      | apply replyData_kept
      | apply takeLink_kept
      | apply keptOut_next

theorem execWriteTransfer_kept {s0 : State} (h : Hdr) (d : List Byte) {s : State} (hk : Kept s0 s) : KeptOut s0 (execWriteTransfer h d s) := by
  unfold execWriteTransfer
  repeat' first
    | assumption
    | refine fun (x : State) (hx : Kept s0 x) => ?_
    | with_reducible first
      | apply servedIn_kept
      | apply sendAck_kept
      | apply takeLink_kept
      | apply keptOut_next

theorem execAdd_kept {s0 : State} (h : Hdr) (d : List Byte) {s : State} (hk : Kept s0 s) : KeptOut s0 (execAdd h d s) := by
  unfold execAdd
  repeat' first
    | assumption
    | refine fun (x : State) (hx : Kept s0 x) => ?_
    | with_reducible first
      | apply servedIn_kept
      | apply refuseAdd_kept
      | apply takeLink_kept
      | apply keptOut_next

theorem execAck_kept {s0 : State} (h : Hdr) {s : State} (hk : Kept s0 s) : KeptOut s0 (execAck h s) := by
  unfold execAck
  repeat' first
    | assumption
    | refine fun (x : State) (hx : Kept s0 x) => ?_
    | split
    | with_reducible first
      | apply served_kept
      | apply returnWrite_kept
      | apply ackedPart_kept
      | apply sendRefused_kept
      | apply keptOut_next

theorem mgmtMeans_kept {s0 : State} {s : State} (src : Nat) (d : List Byte) (hk : Kept s0 s) : Kept s0 (mgmtMeans s src d) := by
  unfold mgmtMeans
  repeat' first
    | assumption
    | split
    | with_reducible first
      | apply takePrepare_kept
      | apply takeReply_kept
      | apply takeDecision_kept
      | apply takeAbort_kept
      | apply takeLate_kept
      | apply takeJoin_kept
      | apply joinRefused_kept
      | apply takeDetach_kept
      | apply linkReport_kept
      | apply dropMember_kept
      | apply leaveView_kept
      | apply takeDigest_kept
      | apply takeView_kept

theorem takeMgmt_kept {s0 : State} {s : State} (src : Nat) (d : List Byte) (hk : Kept s0 s) : Kept s0 (takeMgmt s src d) := by
  unfold takeMgmt
  repeat' first
    | assumption
    | refine fun (x : State) (hx : Kept s0 x) => ?_
    | split
    | with_reducible first
      | apply fromView_kept
      | apply mgmtMeans_kept

theorem takeMgmtPiece_kept {s0 : State} {s : State} (h : Hdr) (d : List Byte) (hk : Kept s0 s) : KeptP s0 (takeMgmtPiece s h d) := by
  unfold takeMgmtPiece
  repeat' first
    | lift_lets
    | split
    | with_reducible first
      | apply keptP_mk
      | refine kept_mk (by assumption) id (Nat.le_refl _) (fun _ w => w) rfl rfl

theorem takeMgmtPiece_kept1 {s0 : State} {s : State} (h : Hdr) (d : List Byte) (hk : Kept s0 s) : Kept s0 (takeMgmtPiece s h d).1 :=
  takeMgmtPiece_kept (h := h) (d := d) hk

theorem takeMgmtPiece_kept_eq {s0 u0 : State} {s : State} {h : Hdr} {d : List Byte} {q0} (e0 : takeMgmtPiece s h d = (u0, q0)) (hk : Kept s0 s) : Kept s0 u0 := by
  have := takeMgmtPiece_kept1 (h := h) (d := d) hk
  rw [e0] at this
  exact this

theorem execMgmt_kept {s0 : State} (h : Hdr) (d : List Byte) {s : State} (hk : Kept s0 s) : KeptOut s0 (execMgmt h d s) := by
  unfold execMgmt
  repeat' first
    | assumption
    | refine fun (x : State) (hx : Kept s0 x) => ?_
    | split
    | with_reducible first
      | apply served_kept
      | apply takeMgmt_kept
      | refine takeMgmtPiece_kept_eq (by assumption) ?_
      | apply keptOut_next

end Sys2Proof.Machine
end

