-- ==== Sys2Proof/Laws/TickKept.lean ====
section
/-!
SUPPORT. What the operations of Machine/Tick.lean keep: the queue, the clock, the memories' form, the counters' 64 bits and the fuses.
-/

namespace Sys2Proof.Machine

theorem tickBeatOut_kept {s0 : State} {s : State} (hk : Kept s0 s) : Kept s0 (tickBeatOut s) := by
  unfold tickBeatOut
  repeat' first
    | split
    | with_reducible first
      | refine kept_mk (by assumption) id (Nat.le_refl _) (fun _ w => w) rfl rfl

theorem tickPause_kept {s0 : State} {s : State} (p : Nat × SubPort) (hk : Kept s0 s) : Kept s0 (tickPause s p) := by
  unfold tickPause
  repeat' first
    | assumption
    | split
    | with_reducible first
      | apply onPort_kept
      | apply flushHeld_kept

theorem tickLink_kept {s0 : State} {s : State} (l : Nat × Link) (hk : Kept s0 s) : Kept s0 (tickLink s l) := by
  unfold tickLink
  repeat' first
    | assumption
    | refine fun (x : State) _ (hx : Kept s0 x) => ?_
    | with_reducible first
      | apply bump_kept
      | apply kept_foldl

theorem tickStart_kept {s0 : State} (r : Run) {s : State} (i p : Nat) (hk : Kept s0 s) : Kept s0 (tickStart r s i p) := by
  unfold tickStart
  repeat' first
    | assumption
    | (intro x; first | refine kept_cut (s0 := s0) (x := x) ?_ ?_ | clear_value x)
    | (intro hx; clear_value x)
    | lift_lets
    | split
    | with_reducible first
      | apply bump_kept
      | apply onCore_kept
    | unfold x

theorem tickRun_kept {s0 : State} {s : State} (r : Run) (hk : Kept s0 s) : Kept s0 (tickRun s r) := by
  unfold tickRun
  repeat' first
    | assumption
    | refine fun (x : State) _ (hx : Kept s0 x) => ?_
    | split
    | with_reducible first
      | apply tickStart_kept
      | apply kept_foldl

theorem bumpCores_kept {s0 : State} {s : State} (k : Nat × Nat) (l : List Nat) (hk : Kept s0 s) : Kept s0 (bumpCores s k l) := by
  unfold bumpCores
  repeat' first
    | assumption
    | refine fun (x : State) _ (hx : Kept s0 x) => ?_
    | with_reducible first
      | apply bump_kept
      | apply kept_foldl

theorem tickCores_kept {s0 : State} {s : State} (hk : Kept s0 s) : Kept s0 (tickCores s) := by
  unfold tickCores
  repeat' first
    | assumption
    | with_reducible first
      | apply tickRun_kept
      | apply bumpCores_kept
      | apply kept_foldl

/-- One cc passes: the clock advances by one, and the rest is kept. -/
theorem tick_kept (s : State) : Kept { s with now := s.now + 1 } (tick s) := by
  unfold tick
  exact tickBeatOut_kept (kept_foldl _ (fun _ _ hx => tickPause_kept _ hx)
    (kept_foldl _ (fun _ _ hx => tickArb_kept _ hx) (kept_foldl _ (fun _ _ hx => tickLink_kept _ hx)
      (tickRots_kept (tickCores_kept (serveWaiting_kept (Kept.refl _)))))))

end Sys2Proof.Machine
end

