-- ==== Sys2Proof/Machine/Xts.lean ====
section
/-!
DEFINITION. What DRAM holds of a burst (R312): its bytes under AES-256-XTS. AES is that of FIPS 197, XTS that of IEEE 1619,
which R312 names; State holds a burst as the bytes that the controller delivers, and this is the stored form of them.
-/

namespace Sys2Proof.Machine

/-- A byte times x in the field of AES. -/
def timesX (a : Nat) : Nat := if a < 128 then 2 * a else (2 * a) ^^^ 0x11B

/-- The product of two bytes in the field of AES. -/
def fieldMul (a b : Nat) : Nat :=
  ((List.range 8).foldl (fun (p : Nat × Nat) i => (timesX p.1, if bit b i then p.2 ^^^ p.1 else p.2)) (a, 0)).2

/-- The 254th power of a byte: its inverse, and 0 of 0. -/
def fieldInv (a : Nat) : Nat :=
  ((List.range 7).foldl (fun (p : Nat × Nat) _ => (fieldMul p.1 p.1, fieldMul p.2 (fieldMul p.1 p.1))) (a, 1)).2

/-- The byte substitution of AES: the inverse, then the sum of its five rotations and 0x63. -/
def subByte (a : Nat) : Nat :=
  let b := fieldInv a
  (List.range 5).foldl (fun r k => r ^^^ (b * 2 ^ k % 256 + b / 2 ^ (8 - k))) 0x63

/-- Bytes added in the field. -/
def addBytes (a b : List Nat) : List Nat := List.zipWith (· ^^^ ·) a b

/-- Four key words (each 4 bytes) chained on: each new word is the word before it plus the old word in its place. -/
def chainWords : List Nat → List (List Nat) → List (List Nat)
  | _, [] => []
  | w, o :: l => addBytes w o :: chainWords (addBytes w o) l

/-- The eight key words after eight. -/
def nextWords (rc : Nat) (w : List (List Nat)) : List (List Nat) :=
  let turn := (fun (l : List Nat) => l.drop 1 ++ l.take 1) (w.getD 7 [])
  let lo := chainWords (addBytes (turn.map subByte) [rc, 0, 0, 0]) (w.take 4)
  lo ++ chainWords ((lo.getD 3 []).map subByte) (w.drop 4)

/-- The list cut into pieces of k. -/
def pieces (k : Nat) : Nat → List Nat → List (List Nat)
  | 0, _ => []
  | n + 1, l => l.take k :: pieces k n (l.drop k)

/-- The 15 round keys of a 256-bit key. -/
def roundKeys (key : List Nat) : List (List Nat) :=
  let ws := ((List.range 7).foldl (fun (p : List (List Nat) × List (List Nat)) i =>
    let n := nextWords (2 ^ i) p.2
    (p.1 ++ n, n)) (pieces 4 8 key, pieces 4 8 key)).1
  pieces 16 15 ws.flatten

/-- A column mixed: byte i is 2, 3, 1 and 1 times the bytes from i on. -/
def mixColumn (c : List Nat) : List Nat :=
  (List.range 4).map fun i =>
    let b := fun (k : Nat) => c.getD ((i + k) % 4) 0
    timesX (b 0) ^^^ (timesX (b 1) ^^^ b 1) ^^^ b 2 ^^^ b 3

/-- Bytes substituted and rows shifted: byte 4c + r comes from column c + r. -/
def subShift (l : List Nat) : List Nat := (List.range 16).map fun i => subByte (l.getD (5 * i % 16) 0)

/-- AES-256 of one block of 16 bytes. -/
def aes (key block : List Nat) : List Nat :=
  match roundKeys key with
  | [] => []
  | k0 :: ks =>
    let st := (ks.take 13).foldl (fun st k => addBytes ((pieces 4 4 (subShift st)).flatMap mixColumn) k) (addBytes block k0)
    addBytes (subShift st) ((ks.drop 13).headD [])

/-- A tweak times α: 128 bits, little-endian. -/
def tweakNext (t : Nat) : Nat := if t < 2 ^ 127 then 2 * t else (2 * t - 2 ^ 128) ^^^ 0x87

/-- A number's n bytes, the lowest first, as numbers. -/
def numBytes (n v : Nat) : List Nat := (leBytes n v).map (fun b => b.toNat)

/-- AES-256-XTS of a data unit of whole blocks (R312). -/
def xts (k1 k2 : List Nat) (tweak : Nat) (d : List Nat) : List Nat :=
  ((pieces 16 (d.length / 16) d).foldl (fun (p : Nat × List Nat) b =>
      let t := numBytes 16 p.1
      (tweakNext p.1, p.2 ++ addBytes (aes k1 (addBytes b t)) t))
    (leNat ((aes k2 (numBytes 16 tweak)).map (BitVec.ofNat 8)), [])).2

/-- The 64 bytes that DRAM holds of burst b (R312, R314): those of a filled frame encrypted under the session's keys with the
burst's number as tweak; none without a session, of a fresh frame or of a poisoned burst, whose stored bytes no access reads. -/
def dramBurst (s : State) (b : Nat) : Option (List Nat) :=
  match s.trust.session with
  | none => none
  | some e =>
    if burstBad s b || !s.mem.filled.contains (frameOf (64 * b)) then none
    else
      some (xts (e.k1.map (fun x => x.toNat)) (e.k2.map (fun x => x.toNat)) b
        ((memRead s.mem.ddr (64 * b) 64).map (fun x => x.toNat)))

end Sys2Proof.Machine
end

