-- ==== Sys2Proof/WellFormed.lean ====
section
/-!
DEFINITION. Well-formed commands: the numbers a command carries name units and records that the device has, and byte records
have the lengths the spec gives them. The meanings are total all the same: a command that names no unit changes nothing.
-/

namespace Sys2Proof.WellFormed

/-- A taken order: mailbox 0 to 63, order number 1 to 2^32 - 1 (R348). -/
def order (m n : Nat) : Bool := decide (m < 64) && decide (0 < n) && decide (n < 2 ^ 32)
/-- A core (R2). -/
def coreNo (c : Nat) : Bool := decide (c < 128)
/-- A lane of the merge unit (R117). -/
def lane (k : Nat) : Bool := decide (k < 64)
/-- A macro-instruction of a run on a team position: run tag, record, position (R19, R24, R27). -/
def work (t i p : Nat) : Bool := decide (t < 2 ^ 64) && decide (i < 16384) && decide (p < 128)
/-- A run tag (R353). -/
def tag (t : Nat) : Bool := decide (t < 2 ^ 64)
/-- An operand: A, B, C or D (R176). -/
def operand (k : Nat) : Bool := decide (k < 4)
/-- A chip link (R270). -/
def link (l : Nat) : Bool := decide (l < 96)
/-- A group rank (R236). -/
def rank (r : Nat) : Bool := decide (r < 1024)
/-- A sub-port (R322). -/
def port (u : Nat) : Bool := decide (u < 16)
/-- A queue pair (R325). -/
def qp (q : Nat) : Bool := decide (q < 4096)
/-- A DDR channel (R300). -/
def chan (c : Nat) : Bool := decide (c < 24)
/-- A 32-bit key of a multicast or push (R285, R290). -/
def key (k : Nat) : Bool := decide (k < 2 ^ 32)
/-- A beat number (R243). -/
def beat (b : Nat) : Bool := decide (b < 2 ^ 64)
/-- A transfer header (Table 10.4). -/
def hdr (h : Hdr) : Bool :=
  decide (h.op < 256) && decide (h.space < 2) && decide (h.length ≤ 4096) && rank h.dest && rank h.src
    && decide (h.address < 2 ^ 64) && decide (h.tag < 2 ^ 32) && decide (h.epoch < 2 ^ 32) && key h.key
    && decide (h.status < 256) && decide (h.reqLength ≤ 4096)
/-- A transfer with its data (R280). -/
def transfer (h : Hdr) (d : List Byte) : Bool := hdr h && d.length == h.length
/-- Devices of a burst in error and erroneous bytes in others (R307). -/
def burst (errs : List Nat) (extra : Nat) : Bool := errs.all (fun d => decide (d < 10)) && decide (extra ≤ 64)
/-- A main rail (R436). -/
def rail (r : Nat) : Bool := decide (r < 6)
/-- A core or fabric segment that the watchdog watches (R378, R380). -/
def unit (kind u : Nat) : Bool := (kind == 0 && coreNo u) || (kind == 1 && decide (u < 22))
/-- An arbiter class (R372). -/
def arbiter (cls : Nat) : Bool := decide (cls < 5)
/-- Staged changes of configuration keys (R366). -/
def staged (l : List (Nat × List Byte)) : Bool := l.all (fun e => decide (e.1 < 2 ^ 32) && decide (e.2.length ≤ 4128))

end Sys2Proof.WellFormed

namespace Sys2Proof

open WellFormed in
/-- The command is well formed. -/
def Instr.wf : Instr → Bool
  | .createTensor m n _ | .destroyTensor m n | .loadProgram m n _ | .run m n | .cancel m n | .query m n | .mapPages m n _
  | .resumeStream m n | .beginTxn m n | .set m n _ | .commitTxn m n | .rollbackTxn m n | .formGroup m n _ | .leaveGroup m n
  | .openSession m n _ | .closeSession m n | .attest m n _ _ _ | .readCounters m n | .readCoffer m n
  | .updateFirmware m n _ => order m n
  | .orderTake m => decide (m < 64)
  | .closeSessionComplete | .mailboxSweep | .formationEnd | .formTimeout | .beatBoundary | .holdoverLimitFence | .sourceLost
  | .sourceRelocked _ | .viewBeat | .fenceBeat | .txnReplyTimeout | .commitBeat | .localCommitBeat | .backgroundZeroing
  | .lockstepMismatch | .imionRestarted | .marginDaily | .cofferWrite _ _ | .holdUp | .vddStbyApplied | .vddStbyFall
  | .resetNAssert | .resetNRelease | .stageRom | .stageImion | .ephemeralKeyGeneration _ _ _ | .haltNAssert | .haltNRelease
  | .beatInEdge | .ladderInChange _ | .getpid | .getbcr | .getdcr | .getstatus | .statusWordClear _ | .thermtripRelease
  | .refclkCoreDetect | .refclkCoreLoss | .avsSetpoint _ | .firmwareStaged _ | .signatureRelease _ _ _
  | .boundaryScan _ _ _ => true
  | .orderWindowWrite q a k _ => qp q && decide (a < 2 ^ 64) && decide (k < 2 ^ 32)
  | .connectionReq u service psn mtu =>
    port u && decide (service < 2 ^ 64) && decide (psn < 2 ^ 24) && [256, 512, 1024, 2048, 4096].contains mtu
  | .connectionRecord q _ | .disconnectRequest q | .completionWrite q | .ackTimeout q | .cnp q | .rateRecovery q
  | .disconnectAfterReply q => qp q
  | .consumerIndexRead q c => qp q && decide (c < 2 ^ 32)
  | .runStart t | .runEnd t | .runStopComplete t => tag t
  | .macroStart t i p | .matmul t i p | .matmulS24 t i p | .spmmX t i p | .convW t i p | .predict t i p | .rowop t i p
  | .rowopBwd t i p | .gather t i p | .scatterAdd t i p | .copy t i p | .transpose t i p | .permute t i p | .compress t i p
  | .bwdData t i p | .bwdWeight t i p | .gradPush t i p | .rotate t i p | .mcast t i p | .waitBeat t i p | .fence t i p
  | .tileFirstRead t i p | .preloadStart t i p | .tileDrain t i p | .outputCompressor t i p | .predictorGroup t i p
  | .zeroRowWrite t i p | .packedTile t i p | .governedRelease t i p | .rotateStep t i p | .rotateStallLimit t i p
  | .updateSlice t i p => work t i p
  | .rotateReceive t i p r c n => work t i p && (rank r || r == 0xFFFF) && coreNo c && decide (n < 256)
  | .crateExpand t i p op _ => work t i p && operand op
  | .halfFill t i p op => work t i p && operand op
  | .turnedLoad t i p k => work t i p && operand k
  | .mergeKtile c | .broadcasterPush c | .mergeRowAdd c => coreNo c
  | .listStoreLoad c k | .laneAction c k => coreNo c && lane k
  | .transferLand id _ => decide (id < 2 ^ 32)
  | .writeComplete c id _ => coreNo c && decide (id < 2 ^ 32)
  | .rotateBufferRead t i p off len _ => work t i p && decide (off + len ≤ 12582912)
  | .identitySend l | .frameSend l | .replayTimeout l | .linkDownRetry l | .identity l _ | .stamp l _ | .beatFull l _
  | .linkRetrain l _ _ => link l
  | .beatMark l n o => link l && decide (n < 65536) && decide (o < 65536)
  | .linkState l w r => link l && decide (w ≤ 2) && decide (r < 256)
  | .viewAnnouncement e rs k b x => decide (e < 2 ^ 32) && rs.all rank && rank k && beat b && x.all (fun r => decide (r < 65536))
  | .splitSide es => es.all (fun e => rank e.1 && rank e.2.1 && decide (e.2.2 ≤ 96))
  | .rejoin r _ _ _ d => rank r && d.length == 32
  | .reform rs e => rs.all rank && decide (e < 2 ^ 32)
  | .prepare c l b => rank c && staged l && beat b
  | .readyReply r _ => rank r
  | .decision c b => rank c && beat b
  | .abort c => rank c
  | .frameReceive l d _ _ => link l && decide (d.length ≤ 532)
  | .laneSignalLoss l k => link l && decide (k < 2)
  | .transferForward h d | .readData h d | .writeTransfer h d | .add h d | .mgmt h d | .redStatus h d => transfer h d
  | .mcData h a g d | .redPart h a g d | .redResult h a g d => transfer { h with address := a, tag := g } d
  | .readTransfer h | .ack h => hdr h
  | .mcAck k e r a => hdr { key := k, epoch := e, src := r, address := a }
  | .join k e r => key k && decide (e < 2 ^ 32) && rank r
  | .mcastDetach k p r | .catchupLimit k p r => key k && decide (p < 128) && (rank r || r == 0xFFFF)
  | .detach r d => rank r && decide (d.length ≤ 6)
  | .mcastComplete t i => work t i 0
  | .reducerCombine k n _ => key k && rank n
  | .pushDeadline k | .pushComplete k => key k
  | .ddrQueueEntry c r op _ n d => chan c && decide (r < 20) && decide (op ≤ 2) && decide (1 ≤ n) && decide (n ≤ 64) && decide (d.length ≤ n)
  | .burstRead c e x | .burstWrite c e x | .atomicAddBurst c e x | .scrub c e x => chan c && burst e x
  | .freshFill f => decide (f < 1464843)
  | .linkRetry c | .channelRetrain c _ => chan c
  | .rocePacket u k => port u && qp k.qp && decide (k.op ≤ 8)
  | .ethFrameReceive u k => port u && decide (k.kind ≤ 6)
  | .portUp u | .portDown u | .pfcStorm u | .pfcStormEnd u => port u
  | .pauseFrame u prio quanta => port u && decide (prio < 8) && decide (quanta < 65536)
  | .mka u sak => port u && sak.all (fun k => k.length == 32)
  | .ptpTimeUpdate u _ _ _ _ _ => port u
  | .arbiterRound c _ _ => arbiter c
  | .watchdogCheck k u _ _ | .backInService k u => unit k u
  | .shelfScrub c e => coreNo c && decide (e ≤ 2)
  | .governorBudget ds _ _ => ds.all (fun d => coreNo d.1 && decide (d.2.length = 3) && d.2.all (fun n => decide (n ≤ 10000)))
  | .powerSample w => decide (w < 65536)
  | .currentLimit a => decide (a < 65536)
  | .thermalSample l => l.length == 64 && l.all (fun t => decide (t < 256))
  | .thermtrip k => decide (k < 64)
  | .marginSample l => l.length == 112
  | .marginTrip k s => decide (k < 112) && decide (s < 65536)
  | .railRise r | .railLow r => rail r
  | .railHigh r => decide (r ≤ 6)
  | .stageMemory d u fs =>
    [8800, 8000, 6400].contains d && u.all chan && fs.all (fun f => [8800, 8000, 6400].contains f.1 && chan f.2)
  | .filteredPulse p => decide (p ≤ 2)
  | .ladderClaim _ d => decide (d.length ≤ 65536)
  | .i3cPrivateWrite d => decide (2 ≤ d.length)
  | .i3cPrivateRead n => decide (n ≤ 65536)
  | .subportCommit u _ => port u
  | .refclkSerChange n _ => decide (n < 4)

end Sys2Proof
end

