-- ==== Sys2Proof/Tests/Slice0.lean ====
section
/-!
SUPPORT. The model's own tests. Every test is one command on a small state; most are the witness of a statement's
hypotheses as well: the state and operands named meet them all, and the outcome the spec gives is the one that comes. Where a
test's numbers come from a rule, its comment names it.
-/

namespace Sys2Proof.Tests

set_option Elab.async false

open Sys2Proof.Machine Sys2Proof.Safety

/-! Small states. -/

/-- The state that a command leaves. -/
def after (c : Instr) (s : State) : State :=
  match exec c s with
  | .next u => u
  | _ => s

/-- A device in stage READY, with nothing under way. -/
def ready : State := { pins := { State.reset.pins with stage := 4, resetN := false } }

/-- A queue pair bound to the session, with one host region of 1 MiB that grants reads and writes. -/
def qp0 : Qp :=
  { phase := 1, mailboxCount := 1, regions := [{ addr := 4096, length := 1048576, rkey := 5, access := 3 }], bound := true
    windowRkey := 7 }

/-- A session is open; queue pair 0 is bound to it and holds mailbox 0. -/
def host : State :=
  { ready with qps := [(0, qp0)], mailboxes := [(0, { qp := some 0 })], trust := { session := some {} }
               ports := [(0, { up := true })] }

/-- The order 1 of mailbox 0, from queue pair 0: code, tag, beat, result bytes, and body from 0x28 on (Table 13.2). -/
def ord (code tag beat len : Nat) (body : List Byte) : Order :=
  { number := 1
    bytes := slice (leBytes 4 1 ++ leBytes 1 code ++ leBytes 3 1 ++ leBytes 8 tag ++ leBytes 8 beat ++ leBytes 4 0
      ++ leBytes 4 len ++ leBytes 8 0 ++ body) 0 256 }

/-- A state with one order taken. -/
def taken (s : State) (o : Order) : State := { s with orders := [o] }

/-- Order 1 of mailbox 0 has the code given, is at its turn and passes O1 to O4. -/
def admits (s : State) (code : Nat) : Bool :=
  match orderReady s 0 1 code with
  | some o => (firstCheck s o).isNone
  | none => false

/-- The order that a state admits. -/
def order1 (s : State) : Order := (s.order 0 1).getD {}

/-- What admits says is what the statements ask of an order. -/
theorem admits_admitted (s : State) (code : Nat) (h : admits s code = true) : Admitted s 0 1 code (order1 s) := by
  unfold admits orderReady at h
  unfold Admitted orderReady order1
  cases e : s.order 0 1 with
  | none => simp [e] at h
  | some o =>
    simp only [e] at h
    by_cases g : (!o.begun && o.code == code && handleable s o && !s.health.imionStopped) = true
    · simpa [g] using h
    · simp [g] at h

/-- Order 1 of mailbox 0 is ended with a status. -/
def ended (s : State) (st : BitVec 8) : Bool :=
  (s.order 0 1).isNone && ((s.qp 0).getD {}).waiting.any (fun c => c.kind == 0 && c.number == 1 && c.status == st)

/-- Order 1 of mailbox 0 waits to complete. -/
def waits (s : State) : Bool := (s.order 0 1).any (fun o => o.begun)

/-- The last completion's detail. -/
def lastDetail (s : State) : List Byte := ((((s.qp 0).getD {}).waiting.getLast?).getD {}).detail

/-- A write of a host's bytes has left for the order's result range. -/
def resultOut (s : State) : List Byte := ((s.out.find? (fun o => o.kind == 0 && o.rkey == 5)).getD {}).data

/-! The whole machine. -/

/-- The state that a step leaves. -/
def stepped (s : State) : State :=
  match step s with
  | .next u => u
  | _ => s

theorem test_idle_tick : ready.pending = [] ∧ (stepped ready).now = 1 := by decide +kernel
/-- R305: a write of a link to a channel that retrains waits; a channel that does not serves it in the next cycle. -/
theorem test_idle_serves :
    let h : Hdr := { op := 3, dest := 1, src := 2, length := 32, epoch := 1 }
    let w := fun (training : Bool) => { ready with
      group := { state := 3, rank := 1, epoch := 1, view := [1, 2] }, linkWait := [(h, List.replicate 32 7)], chans := [(0, { training := training })]
      mem := { xlate := [(0, (1, 1, 0, 0, 0))], filled := [0] } }
    (w true).rotHeld = [] ∧ (serveLink { w true with linkWait := [] } h (List.replicate 32 7)).isSome = false
      ∧ (stepped (w true)).linkWait.length = 1 ∧ (stepped (w true)).mem = (w true).mem ∧ (stepped (w false)).linkWait = []
      ∧ memRead (stepped (w false)).mem.ddr 0 2 = [7, 7] := by decide +kernel

theorem test_step_front : (stepped { ready with pending := [.vddStbyFall, .haltNAssert] }).pending = [.haltNAssert] := by
  decide +kernel
theorem test_memory_canonical : ready.mem.wf = true ∧ countersFit ready = true := by decide +kernel

/-! What orders and events share. -/

/-- A queue pair that takes events. -/
def listening : State := { host with qps := [(0, { qp0 with events := true })] }

theorem test_event_posted : listening.health.imionStopped = false ∧ (listening.qps.map Prod.fst).Nodup
    ∧ listening.qp 0 = some { qp0 with events := true }
    ∧ ((postEvent listening 0x30 []).qp 0).map (fun v => v.waiting.map (fun c => (c.kind, c.code, c.mailbox)))
      = some [(2, 0x30, 0xFF)] := by decide +kernel
theorem test_event_not_taken : host.health.imionStopped = false ∧ (host.qps.map Prod.fst).Nodup ∧ host.qp 0 = some qp0
    ∧ (postEvent host 0x30 []).qp 0 = some qp0 := by decide +kernel
/-- R60: a counter saturates at 2^64 - 1. -/
theorem test_counter_saturates :
    countersFit (ready.setCounter Ctr.txnCommits 0 (2 ^ 64 - 2)) = true ∧ Ctr.txnCommits.2 < 65536
      ∧ Ctr.txnAborted.2 < 65536 ∧ Ctr.txnAborted ≠ Ctr.txnCommits
      ∧ ((ready.setCounter Ctr.txnCommits 0 (2 ^ 64 - 2)).bump Ctr.txnCommits 0 2).counter Ctr.txnCommits 0 = 2 ^ 64 - 1 := by
  decide +kernel

/-- A DESTROY_TENSOR of handle 1. -/
def destroyOrder : Order := ord 2 9 0 0 (leBytes 4 1)

theorem test_completion : held (taken host destroyOrder) destroyOrder = false ∧ (taken host destroyOrder).qp 0 = some qp0
    ∧ ended (complete (taken host destroyOrder) destroyOrder eOk []) eOk = true := by decide +kernel
/-- R352: the same mailbox and number under another code is not the order at its turn. -/
theorem test_order_not_ready : orderReady (taken host destroyOrder) 0 1 4 = none
    ∧ orderCommand 4 0 1 true none true true true = some (.run 0 1)
    ∧ after (.run 0 1) (taken host destroyOrder) = taken host destroyOrder := by decide +kernel
/-- R353: a nonzero reserved byte. -/
theorem test_o1 : orderReady (taken host (ord 2 9 0 0 (leBytes 5 (2 ^ 32)))) 0 1 2 = some (ord 2 9 0 0 (leBytes 5 (2 ^ 32)))
    ∧ checkO1 (ord 2 9 0 0 (leBytes 5 (2 ^ 32))).bytes = false
    ∧ ended (after (.destroyTensor 0 1) (taken host (ord 2 9 0 0 (leBytes 5 (2 ^ 32))))) ePlan = true := by decide +kernel
/-- R354: DESTROY_TENSOR with no session open. -/
theorem test_o2 : orderReady (taken { host with trust := {} } destroyOrder) 0 1 2 = some destroyOrder
    ∧ checkO1 destroyOrder.bytes = true ∧ checkO2 (taken { host with trust := {} } destroyOrder) destroyOrder = false
    ∧ ended (after (.destroyTensor 0 1) (taken { host with trust := {} } destroyOrder)) eAuth = true := by decide +kernel
/-- R355: a result range that ends one byte beyond its region. -/
theorem test_o3 : orderReady (taken host (ord 6 9 0 1048577 [])) 0 1 6 = some (ord 6 9 0 1048577 [])
    ∧ checkO1 (ord 6 9 0 1048577 []).bytes = true ∧ checkO2 (taken host (ord 6 9 0 1048577 [])) (ord 6 9 0 1048577 []) = true
    ∧ checkO3 (taken host (ord 6 9 0 1048577 [])) (ord 6 9 0 1048577 []) = false
    ∧ ended (after (.query 0 1) (taken host (ord 6 9 0 1048577 []))) eRange = true := by decide +kernel
/-- R355: a RUN with the tag of a run not completed. -/
def runTwice : State := taken { host with runs := [{ tag := 9 }] } (ord 4 9 0 0 [])

theorem test_o4 : orderReady runTwice 0 1 4 = some (ord 4 9 0 0 []) ∧ checkO1 (ord 4 9 0 0 []).bytes = true
    ∧ checkO2 runTwice (ord 4 9 0 0 []) = true ∧ checkO3 runTwice (ord 4 9 0 0 []) = true
    ∧ checkO4 runTwice (ord 4 9 0 0 []) = false ∧ ended (after (.run 0 1) runTwice) ePlan = true := by decide +kernel
/-- R354: SET of a slot key needs the session, of another key it does not. -/
theorem test_session_column : keySlot 0x0300 = true ∧ keySlot 0x0001 = false
    ∧ checkO2 { host with trust := {} } (ord 0x0A 9 0 0 (leBytes 4 0x0300)) = false
    ∧ checkO2 { host with trust := {} } (ord 0x0A 9 0 0 (leBytes 4 1)) = true
    ∧ checkO2 { host with qps := [(0, { qp0 with bound := false })] } (ord 0x11 9 0 0 []) = true := by decide +kernel

/-! Tensors, programs and runs. -/

/-- A descriptor of one FP32 row-major matrix of 2 columns and 3 rows on the shelf (Table 1.1). -/
def descBody (flags placement : Nat) : List Byte :=
  descBytes { rank := 2, format := 0x10, form := 0, layout := 0, placement := placement, flags := flags, base := 0, length := 4096
              size := [2, 3, 0, 0, 0, 0], stride := [1, 2, 0, 0, 0, 0], bound := [2, 3, 0, 0, 0, 0] }

/-- A live tensor 1. -/
def tensor1 : Tensor := { handle := 1, desc := parseDesc (descBody 0 0) }

/-- Tensor 1 lives and its DESTROY_TENSOR is taken. -/
def destroying : State := taken { host with tensors := [tensor1] } destroyOrder

theorem test_destroy : admits destroying 2 = true ∧ destroying.tensor 1 = some tensor1 ∧ handleNamed destroying 1 = false
    ∧ (after (.destroyTensor 0 1) destroying).tensor 1 = none ∧ ended (after (.destroyTensor 0 1) destroying) eOk = true := by
  decide +kernel

/-- As destroying, with a program in slot 3 that names the tensor. -/
def namedTensor : State := { destroying with slots := [(3, { refs := [{ handle := 1 }] })] }

theorem test_destroy_named : admits namedTensor 2 = true ∧ namedTensor.tensor 1 = some tensor1 ∧ handleNamed namedTensor 1 = true
    ∧ ended (after (.destroyTensor 0 1) namedTensor) ePlan = true
    ∧ (after (.destroyTensor 0 1) namedTensor).tensor 1 = some tensor1 := by decide +kernel

/-- A CREATE_TENSOR is taken. -/
def creating (b : List Byte) : State := taken host (ord 1 9 0 0 b)

theorem test_create : admits (creating (descBody 0 0)) 1 = true
    ∧ descCheck (descBody 0 0) (parseDesc (descBody 0 0)) = none ∧ bit (parseDesc (descBody 0 0)).flags 2 = false
    ∧ (creating (descBody 0 0)).tensors.length < 65535 := by decide +kernel
/-- Table 1.4: a placement above 2 fails C1. -/
theorem test_create_c1 : admits (creating (descBody 0 3)) 1 = true
    ∧ descCheck (descBody 0 3) (parseDesc (descBody 0 3)) = some 1
    ∧ ended (after (.createTensor 0 1 true) (creating (descBody 0 3))) ePlan = true
    ∧ (lastDetail (after (.createTensor 0 1 true) (creating (descBody 0 3)))).take 2 = [0x43, 1] := by decide +kernel
/-- Table 1.4: at 65,535 live handles C10 fails. -/
theorem test_create_c10 : admits { creating (descBody 0 0) with tensors := List.replicate 65535 tensor1 } 1 = true
    ∧ (List.replicate 65535 tensor1).length = 65535 := ⟨by decide +kernel, List.length_replicate⟩
theorem test_create_zeroed : admits (creating (descBody 4 0)) 1 = true
    ∧ descCheck (descBody 4 0) (parseDesc (descBody 4 0)) = none ∧ bit (parseDesc (descBody 4 0)).flags 2 = true
    ∧ (parseDesc (descBody 4 0)).placement = 0 ∧ (creating (descBody 4 0)).tensors.length < 65535
    ∧ (shelfZero { ready with mem := { shelf := [(7, 9), (4096, 9)] } } 0 0 24).mem.shelf = [(4096, 9)] := by decide +kernel

/-- A program of one FENCE with one reference, bound to a team of one core (Tables 1.5 to 1.7). Its
digest is SHAKE256 of its last 48 bytes, worked out apart from the model. -/
def image1 : List Byte :=
  let rest := leBytes 4 1 ++ [0x10, 0, 0, 3] ++ leBytes 8 0 ++ [0x14, 0, 0, 0] ++ leBytes 8 (2 ^ 64 - 1) ++ leBytes 20 0
  leBytes 4 0x46524E31 ++ leBytes 2 1 ++ leBytes 2 1 ++ leBytes 2 1 ++ leBytes 2 1 ++ leBytes 12 0 ++ leBytes 8 1
    ++ [0x71, 0x3B, 0xE3, 0x86, 0x04, 0xA8, 0x0F, 0x0A, 0x12, 0xF6, 0x00, 0x3D, 0x0D, 0x84, 0x65, 0x99
    , 0xE8, 0xB4, 0x77, 0xDF, 0x05, 0x7D, 0xD4, 0x72, 0xEA, 0x11, 0x53, 0x0A, 0x7A, 0x24, 0xC4, 0x29] ++ rest

/-- That program. -/
def prog1 : Program := parseProgram image1 [0]

/-- LOAD_PROGRAM of an image of a length into slot 0 for core 0. -/
def loading (len : Nat) : State :=
  taken { host with tensors := [tensor1] } (ord 3 9 0 0 (leBytes 4 0 ++ leBytes 4 len ++ leBytes 8 0 ++ leBytes 16 1))

theorem test_load : admits (loading 112) 3 = true ∧ image1.length = 112 ∧ qpUp (hostAsk (loading 112) (order1 (loading 112))) 0 = true
    ∧ parseProgram (slice image1 0 112) (maskBits 128 (field (order1 (loading 112)).bytes 0x38 16)) = prog1
    ∧ loaderCheck (hostAsk (loading 112) (order1 (loading 112))) 0 prog1 image1 = none
    ∧ look 0 (after (.loadProgram 0 1 (some image1)) (loading 112)).slots = some prog1
    ∧ ended (after (.loadProgram 0 1 (some image1)) (loading 112)) eOk = true := by decide +kernel
/-- Table 1.9: an image whose digest is not that of its bytes fails L2. -/
theorem test_load_l2 : admits (loading 112) 3 = true
    ∧ loaderCheck (hostAsk (loading 112) (order1 (loading 112))) 0 (parseProgram (image1.set 100 1) [0]) (image1.set 100 1)
      = some (ePlan, 2, 0)
    ∧ lastDetail (after (.loadProgram 0 1 (some (image1.set 100 1))) (loading 112)) = slice [0x4C, 2] 0 40 := by decide +kernel
/-- A slot in use by a run, and LOAD_PROGRAM of nothing: L3; in a slot that no run uses it empties the slot. -/
theorem test_load_empty : admits (loading 0) 3 = true
    ∧ ((loading 0).runs.any (fun r => r.slot == 0 && r.state != 3)) = false
    ∧ (after (.loadProgram 0 1 (some [])) { loading 0 with slots := [(0, prog1), (1, prog1)] }).slots = [(1, prog1)]
    ∧ admits { loading 0 with runs := [{ slot := 0 }] } 3 = true
    ∧ (({ loading 0 with runs := [{ slot := 0 }] } : State).runs.any (fun r => r.slot == 0 && r.state != 3)) = true
    ∧ ended (after (.loadProgram 0 1 (some [])) { loading 0 with runs := [{ slot := 0 }] }) ePlan = true := by decide +kernel

/-- A program of 300 MATMUL_S24: its bits of R25 do not fit in the completion. -/
def progS24 : Program := { team := [0], recs := List.replicate 300 { opcode := 2 } }

/-- R25, R356: 44 bits more than the completion holds take 6 bytes of result. -/
theorem test_load_bits : (packBits ((s24Bits host progS24).drop 256)).length = 6 := by decide +kernel

/-- Slot 0 holds the program of one FENCE, and a RUN of it is taken: n extents follow. -/
def running (x : List Byte) : State :=
  taken { host with tensors := [tensor1], slots := [(0, prog1)] } (ord 4 9 0 0 ([0, BitVec.ofNat 8 (x.length / 8)] ++ leBytes 6 0 ++ x))

theorem test_run : admits (running []) 4 = true ∧ look 0 (running []).slots = some prog1 ∧ prog1.needsGroup = false
    ∧ ((runExtents (order1 (running [])).bytes).any (fun x => decide (prog1.refs.length ≤ x.1) || decide (6 ≤ x.2.1))) = false
    ∧ shapeOver (running []) { tag := 9, prog := prog1 } = none ∧ (prog1.team.any (fun c => ((running []).core c).retired)) = false
    ∧ ((after (.run 0 1) (running [])).live 9).isSome = true ∧ waits (after (.run 0 1) (running [])) = true := by decide +kernel
/-- R27: reference 0, dimension 1, extent 4, above the plan bound 3; the bound itself passes. -/
theorem test_run_shape : admits (running (leBytes 2 0 ++ leBytes 2 1 ++ leBytes 4 4)) 4 = true
    ∧ shapeOver (running []) { prog := prog1, extents := [(0, 1, 4)] } = some (0, 1)
    ∧ shapeOver (running []) { prog := prog1, extents := [(0, 1, 3)] } = none
    ∧ ended (after (.run 0 1) (running (leBytes 2 0 ++ leBytes 2 1 ++ leBytes 4 4))) eShapeOver = true
    ∧ ((after (.run 0 1) (running (leBytes 2 0 ++ leBytes 2 1 ++ leBytes 4 3))).live 9).isSome = true := by decide +kernel
theorem test_run_empty_slot : admits { running [] with slots := [] } 4 = true ∧ look 0 ({ running [] with slots := [] } : State).slots = none
    ∧ ended (after (.run 0 1) { running [] with slots := [] }) ePlan = true := by decide +kernel

/-- The slot's program has group opcodes. -/
def groupRun : State := { running [] with slots := [(0, { prog1 with recs := [{ opcode := 0x12 }] })] }

/-- Table 9.1: a RUN with group opcodes while SOLO ends with E_PLAN, while FENCED with E_FENCED; while ACTIVE it is accepted. -/
theorem test_run_group : admits groupRun 4 = true ∧ (({ prog1 with recs := [{ opcode := 0x12 }] } : Program).needsGroup) = true
    ∧ groupRefusal groupRun = some ePlan ∧ groupRefusal { groupRun with group := { state := 4 } } = some eFenced
    ∧ ended (after (.run 0 1) groupRun) ePlan = true
    ∧ ((after (.run 0 1) { groupRun with group := { state := 3 } }).live 9).isSome = true := by decide +kernel

/-- A CANCEL of run 7 is taken, with the runs given. -/
def cancelling (rs : List Run) : State := taken { host with runs := rs } (ord 5 9 0 0 (leBytes 8 7))

theorem test_cancel_unknown : admits (cancelling []) 5 = true ∧ (cancelling []).live 7 = none
    ∧ (cancelling [{ tag := 7, state := 3 }]).live 7 = none ∧ ended (after (.cancel 0 1) (cancelling [])) ePlan = true := by
  decide +kernel
theorem test_cancel_queued : admits (cancelling [{ tag := 7 }]) 5 = true ∧ (cancelling [{ tag := 7 }]).live 7 = some { tag := 7 }
    ∧ (after (.cancel 0 1) (cancelling [{ tag := 7 }])).live 7 = none
    ∧ ended (after (.cancel 0 1) (cancelling [{ tag := 7 }])) eOk = true := by decide +kernel
/-- R192: a run in progress, one of its reads in flight. -/
theorem test_cancel_running :
    admits { cancelling [{ tag := 7, state := 1 }] with xfers := [{ tag := 7 }], streams := [{ tag := 7 }] } 5 = true
    ∧ (cancelling [{ tag := 7, state := 1 }]).live 7 = some { tag := 7, state := 1 }
    ∧ waits (after (.cancel 0 1) { cancelling [{ tag := 7, state := 1 }] with xfers := [{ tag := 7 }], streams := [{ tag := 7 }] })
      = true
    ∧ ((after (.cancel 0 1) { cancelling [{ tag := 7, state := 1 }] with xfers := [{ tag := 7 }], streams := [{ tag := 7 }] }).xfers.all
        (fun x => x.discard)) = true := by decide +kernel

/-- A RESUME_STREAM of run 7 is taken. -/
def resuming (rs : List Run) : State := taken { host with runs := rs } (ord 8 9 0 0 (leBytes 8 7))

theorem test_resume_refused : admits (resuming []) 8 = true ∧ (resuming []).live 7 = none
    ∧ admits (resuming [{ tag := 7, state := 1 }]) 8 = true ∧ (resuming [{ tag := 7, state := 1 }]).live 7 = some { tag := 7, state := 1 }
    ∧ ended (after (.resumeStream 0 1) (resuming [{ tag := 7, state := 1 }])) ePlan = true := by decide +kernel
theorem test_resume : admits (resuming [{ tag := 7, state := 2, halts := [{ mi := 1 }] }]) 8 = true
    ∧ (resuming [{ tag := 7, state := 2, halts := [{ mi := 1 }] }]).live 7 = some { tag := 7, state := 2, halts := [{ mi := 1 }] }
    ∧ held (resuming [{ tag := 7, state := 2 }]) (order1 (resuming [{ tag := 7, state := 2 }])) = false
    ∧ (resuming [{ tag := 7, state := 2 }]).streams = []
    ∧ (after (.resumeStream 0 1) (resuming [{ tag := 7, state := 2, halts := [{ mi := 1 }] }])).live 7 = some { tag := 7, state := 1 } := by
  decide +kernel

/-- A MAP_PAGES entry: page, kind, target (Table 7.3). -/
def mapEnt (page kind target : Nat) : List Byte := leBytes 4 page ++ leBytes 1 kind ++ leBytes 3 1 ++ leBytes 8 target ++ leBytes 16 0

/-- A MAP_PAGES of n entries is taken. -/
def mapping (n : Nat) : State :=
  taken { host with cores := [(0, { xcache := [(5, 1), (6, 1)] })] } (ord 7 9 0 0 ([0, 0] ++ leBytes 2 n ++ leBytes 4 0 ++ leBytes 8 0))

/-- Page 5 mapped to DDR, then unmapped by a later entry of the list, page 9 mapped: the last entry of a page holds. -/
theorem test_map : admits (mapping 3) 7 = true ∧ qpUp (hostAsk (mapping 3) (order1 (mapping 3))) 0 = true
    ∧ (∀ e, e ∈ entriesOf 3 (mapEnt 5 1 0 ++ mapEnt 9 1 2097152 ++ mapEnt 5 1 4194304) →
        entryCheck (hostAsk (mapping 3) (order1 (mapping 3))) e = none)
    ∧ look 5 (after (.mapPages 0 1 (some (mapEnt 5 1 0 ++ mapEnt 9 1 2097152 ++ mapEnt 5 1 4194304))) (mapping 3)).mem.xlate
      = some (1, 1, 0, 4194304, 0)
    ∧ ((after (.mapPages 0 1 (some (mapEnt 5 1 0 ++ mapEnt 9 1 2097152 ++ mapEnt 5 1 4194304))) (mapping 3)).core 0).xcache = [(6, 1)] := by
  decide +kernel
/-- Table 7.5: entry 1 fails M2 (a target that is no multiple of 2 MiB); entry 0 passes; nothing is applied. -/
theorem test_map_m2 : admits (mapping 2) 7 = true
    ∧ entryCheck (hostAsk (mapping 2) (order1 (mapping 2))) (mapEnt 5 1 0) = none
    ∧ entryCheck (hostAsk (mapping 2) (order1 (mapping 2))) (mapEnt 9 1 2) = some (eRange, 2)
    ∧ ended (after (.mapPages 0 1 (some (mapEnt 5 1 0 ++ mapEnt 9 1 2))) (mapping 2)) eRange = true
    ∧ (after (.mapPages 0 1 (some (mapEnt 5 1 0 ++ mapEnt 9 1 2))) (mapping 2)).mem.xlate = [] := by decide +kernel

/-- A translation store that holds pages 0 to n - 1. -/
def mapFull (n : Nat) : List (Nat × XEntry) := (List.range n).map (fun i => (i, 1, 1, 0, 0, 0))

/-- A page above every page of a store adds an entry. -/
theorem put_above (n : Nat) (v : XEntry) (l : List (Nat × XEntry)) (h : ∀ e, e ∈ l → e.1 < n) :
    (put n v l).length = l.length + 1 := by
  induction l with
  | nil => simp [put]
  | cons e l ih =>
    have h1 := h e (by simp)
    simp [put, Nat.lt_asymm h1, Nat.ne_of_gt h1, ih (fun e he => h e (by simp [he]))]

/-- R187: one page more than a store of n holds; at n = 2,097,152 it fails M4. -/
theorem test_map_m4 (n : Nat) (e : List Byte) (h : field e 4 1 = 1) (p : field e 0 4 = n) :
    ([e].foldl mapEntry (mapFull n)).length = n + 1 := by
  have l : ([e].foldl mapEntry (mapFull n)) = put n (field e 4 1, field e 5 1, field e 6 2, field e 8 8, field e 0x10 4) (mapFull n) := by
    simp [mapEntry, h, p]
  rw [l, put_above n _ _ (by intro e he; simp [mapFull] at he; obtain ⟨a, b, rfl⟩ := he; exact b)]
  simp [mapFull]

theorem test_map_m4_entry : field (mapEnt 2097152 1 0) 4 1 = 1 ∧ field (mapEnt 2097152 1 0) 0 4 = 2097152
    ∧ admits (mapping 1) 7 = true ∧ entryCheck (hostAsk (mapping 1) (order1 (mapping 1))) (mapEnt 2097152 1 0) = none := by
  decide +kernel

/-- A QUERY of a kind and an object is taken, with room for n bytes. -/
def asking (kind obj n : Nat) : State := taken host (ord 6 9 0 n (leBytes 8 kind ++ leBytes 8 obj))

theorem test_query_unknown : admits (asking 12 0 64) 6 = true ∧ queryRecord (asking 12 0 64) 12 0 = none
    ∧ queryRecord (asking 3 256 64) 3 256 = none ∧ ended (after (.query 0 1) (asking 12 0 64)) ePlan = true := by decide +kernel
/-- R361: the record of optimiser slot 15 takes 32 bytes; a range of 31 is too short. -/
theorem test_query_short : admits (asking 4 15 31) 6 = true ∧ queryRecord (asking 4 15 31) 4 15 = some (leBytes 32 0)
    ∧ ended (after (.query 0 1) (asking 4 15 31)) eRange = true
    ∧ lastDetail (after (.query 0 1) (asking 4 15 31)) = slice (leBytes 4 0 ++ leBytes 4 32) 0 40 := by decide +kernel
theorem test_query : admits (asking 4 15 32) 6 = true ∧ queryRecord (asking 4 15 32) 4 15 = some (leBytes 32 0)
    ∧ resultOut (after (.query 0 1) (asking 4 15 32)) = leBytes 32 0
    ∧ ended (after (.query 0 1) (asking 4 15 32)) eOk = true := by decide +kernel

/-- A READ_COUNTERS of a scope is taken, with room for n bytes. -/
def counting (scope first k n : Nat) : State :=
  taken { host with counters := [((0x0C00 * 65536 + 1) * 65536 + 5, 77)] }
    (ord 0x12 9 0 n (leBytes 2 scope ++ leBytes 2 first ++ leBytes 2 k))

theorem test_read_counters_refused : admits (counting 7 0 1 64) 0x12 = true ∧ admits (counting 5 4095 2 64) 0x12 = true
    ∧ ended (after (.readCounters 0 1) (counting 7 0 1 64)) ePlan = true
    ∧ ended (after (.readCounters 0 1) (counting 5 4095 2 64)) eRange = true
    ∧ ended (after (.readCounters 0 1) (counting 5 0 0 64)) eRange = true := by decide +kernel
/-- R362: two counters of queue pair 5; a range of 31 bytes holds one entry, 32 hold both. -/
theorem test_read_counters : admits (counting 5 5 1 32) 0x12 = true
    ∧ resultOut (after (.readCounters 0 1) (counting 5 5 1 32))
      = leBytes 2 0x0C00 ++ leBytes 2 0 ++ leBytes 2 5 ++ leBytes 10 0 ++ leBytes 2 0x0C00 ++ leBytes 2 1 ++ leBytes 2 5 ++ leBytes 2 0
        ++ leBytes 8 77
    ∧ (resultOut (after (.readCounters 0 1) (counting 5 5 1 31))).length = 16 := by decide +kernel

/-- A READ_COFFER from entry 0 is taken. -/
def cofferAsk (most n : Nat) : State :=
  taken { host with coffer := State.reset.coffer } (ord 0x13 9 0 n (leBytes 8 0 ++ leBytes 4 most))

theorem test_read_coffer : admits (cofferAsk 65536 96) 0x13 = true ∧ admits (cofferAsk 0 96) 0x13 = true
    ∧ (resultOut (after (.readCoffer 0 1) (cofferAsk 65536 96))).length = 96
    ∧ (resultOut (after (.readCoffer 0 1) (cofferAsk 1 95))).length = 32
    ∧ ended (after (.readCoffer 0 1) (cofferAsk 0 96)) ePlan = true
    ∧ ended (after (.readCoffer 0 1) (cofferAsk 65537 96)) ePlan = true := by decide +kernel

/-! Configuration. -/

/-- A SET of a key is taken, its value in the order. -/
def setting (s : State) (k : Nat) (v : List Byte) : State :=
  taken s (ord 0x0A 9 0 0 (leBytes 4 k ++ leBytes 4 v.length ++ leBytes 16 0 ++ v))

/-- A transaction of queue pair q in a state of Table 13.10. -/
def inTxn (st q : Nat) (staged : List (Nat × List Byte)) : State := { host with txn := { state := st, owner := q, staged := staged } }

theorem test_set_conflict : admits (setting (inTxn 1 3 []) 2 (leBytes 4 1024)) 0x0A = true
    ∧ ended (after (.set 0 1 none) (setting (inTxn 1 3 []) 2 (leBytes 4 1024))) eTxnConflict = true
    ∧ ended (after (.set 0 1 none) (setting (inTxn 2 0 []) 2 (leBytes 4 1024))) eTxnConflict = true := by decide +kernel
/-- R363: HOLDOVER_LIMIT takes 4 bytes, 1,024 to 1,048,576. -/
theorem test_set_refused : admits (setting host 2 (leBytes 3 1024)) 0x0A = true
    ∧ keySize 2 = some 4 ∧ keySize 0x8000 = none ∧ setStatus (setting host 2 (leBytes 4 1023)) false 2 (leBytes 4 1023) = ePlan
    ∧ ended (after (.set 0 1 none) (setting host 2 (leBytes 3 1024))) ePlan = true
    ∧ ended (after (.set 0 1 none) (setting host 2 (leBytes 4 1023))) ePlan = true := by decide +kernel
theorem test_set : admits (setting host 2 (leBytes 4 1024)) 0x0A = true ∧ (setting host 2 (leBytes 4 1024)).txn.state = 0
    ∧ (setting host 2 (leBytes 4 1024)).prepared = none ∧ setStatus (setting host 2 (leBytes 4 1024)) false 2 (leBytes 4 1024) = eOk
    ∧ keyVal (after (.set 0 1 none) (setting host 2 (leBytes 4 1024))) 2 = some (leBytes 4 1024)
    ∧ ended (after (.set 0 1 none) (setting host 2 (leBytes 4 1024))) eOk = true := by decide +kernel
/-- R366: a key staged again replaces its earlier value; 64 keys fill a transaction. -/
theorem test_set_staged : admits (setting (inTxn 1 0 [(2, leBytes 4 2048), (1, [9])]) 2 (leBytes 4 1024)) 0x0A = true
    ∧ (after (.set 0 1 none) (setting (inTxn 1 0 [(2, leBytes 4 2048), (1, [9])]) 2 (leBytes 4 1024))).txn.staged
      = [(1, [9]), (2, leBytes 4 1024)]
    ∧ stageOk (List.replicate 64 (1, [])) = true ∧ stageOk (List.replicate 65 (1, [])) = false
    ∧ ended (after (.set 0 1 none) (setting (inTxn 1 0 (List.replicate 64 (0x0300, []))) 2 (leBytes 4 1024))) eRange = true := by
  decide +kernel

/-- R366: 262,144 bytes fill a transaction. -/
theorem test_stage_bytes (n : Nat) : stageOk [(1, List.replicate n 0)] = decide (n ≤ 262144) := by simp [stageOk]

/-- A BEGIN_TXN of a scope is taken. -/
def beginning (s : State) (scope : Nat) : State := taken s (ord 9 9 0 0 (leBytes 8 scope))

theorem test_begin_txn : admits (beginning host 0) 9 = true ∧ (beginning host 0).txn.state = 0
    ∧ (after (.beginTxn 0 1) (beginning host 0)).txn.state = 1 ∧ ended (after (.beginTxn 0 1) (beginning host 0)) eOk = true
    ∧ ended (after (.beginTxn 0 1) (beginning host 2)) ePlan = true
    ∧ ended (after (.beginTxn 0 1) (beginning (inTxn 1 0 []) 0)) eTxnConflict = true := by decide +kernel
theorem test_begin_group : admits (beginning host 1) 9 = true ∧ host.group.state ≠ 2 ∧ host.group.state ≠ 3
    ∧ ended (after (.beginTxn 0 1) (beginning host 1)) ePlan = true
    ∧ (after (.beginTxn 0 1) (beginning { host with group := { state := 2 } } 1)).txn.group = true
    ∧ ended (after (.beginTxn 0 1) (beginning { host with prepared := some {} } 0)) eTxnConflict = true := by decide +kernel

/-- A COMMIT_TXN with a commit beat, or a ROLLBACK_TXN, is taken, in beat 5. -/
def committing (s : State) (c : Nat) : State := taken { s with beat := { number := 5 } } (ord 0x0B 9 c 0 [])

theorem test_commit_refused : admits (committing host 0) 0x0B = true ∧ host.txn.group = false ∧ host.txn.state ≠ 1
    ∧ ended (after (.commitTxn 0 1) (committing host 0)) ePlan = true
    ∧ ended (after (.commitTxn 0 1) (committing (inTxn 1 0 []) 5)) eLate = true
    ∧ (after (.commitTxn 0 1) (committing (inTxn 1 0 []) 5)).txn.state = 1 := by decide +kernel
theorem test_commit : admits (committing (inTxn 1 0 [(2, leBytes 4 1024)]) 0) 0x0B = true
    ∧ stagedStatus (committing (inTxn 1 0 [(2, leBytes 4 1024)]) 0) false [(2, leBytes 4 1024)] = eOk
    ∧ (after (.commitTxn 0 1) (committing (inTxn 1 0 [(2, leBytes 4 1024)]) 0)).txn = {}
    ∧ keyVal (after (.commitTxn 0 1) (committing (inTxn 1 0 [(2, leBytes 4 1024)]) 0)) 2 = some (leBytes 4 1024) := by decide +kernel
theorem test_commit_later : admits (committing (inTxn 1 0 [(2, leBytes 4 1024)]) 6) 0x0B = true
    ∧ (after (.commitTxn 0 1) (committing (inTxn 1 0 [(2, leBytes 4 1024)]) 6)).txn.state = 2
    ∧ waits (after (.commitTxn 0 1) (committing (inTxn 1 0 [(2, leBytes 4 1024)]) 6)) = true
    ∧ (after (.commitTxn 0 1) (committing (inTxn 1 0 [(2, leBytes 4 1024)]) 6)).keys = [] := by decide +kernel
theorem test_rollback : admits (taken (inTxn 1 0 [(2, leBytes 4 1024)]) (ord 0x0C 9 0 0 [])) 0x0C = true
    ∧ (after (.rollbackTxn 0 1) (taken (inTxn 1 0 [(2, leBytes 4 1024)]) (ord 0x0C 9 0 0 []))).txn = {}
    ∧ ended (after (.rollbackTxn 0 1) (taken (inTxn 1 3 []) (ord 0x0C 9 0 0 []))) ePlan = true := by decide +kernel

/-- A local transaction that waits for beat 6, in beat b. -/
def awaiting (b : Nat) (group decided : Bool) : State :=
  { host with beat := { number := b }
              txn := { state := 2, group := group, decided := decided, commitBeat := 6, staged := [(2, leBytes 4 1024)] } }

theorem test_local_commit_beat : (awaiting 6 false false).txn.commitBeat ≤ (awaiting 6 false false).beat.number
    ∧ stagedStatus (awaiting 6 false false) false [(2, leBytes 4 1024)] = eOk
    ∧ keyVal (after .localCommitBeat (awaiting 6 false false)) 2 = some (leBytes 4 1024)
    ∧ (awaiting 5 false false).beat.number < (awaiting 5 false false).txn.commitBeat
    ∧ after .localCommitBeat (awaiting 5 false false) = awaiting 5 false false := by decide +kernel
theorem test_commit_beat : stagedStatus (awaiting 6 true true) true [(2, leBytes 4 1024)] = eOk ∧ (awaiting 6 true true).prepared = none
    ∧ keyVal (after .commitBeat (awaiting 6 true true)) 2 = some (leBytes 4 1024) := by decide +kernel

/-- A member in state HOLD that has answered READY, at beat b. -/
def member (b c : Nat) (decided : Bool) : State :=
  { host with beat := { number := b }, group := { state := 2, view := [0, 1, 2] }
              prepared := some { coordinator := 1, staged := [(2, leBytes 4 1024)], beat := c, decided := decided } }

theorem test_commit_beat_member : (member 6 6 true).prepared.isSome = true ∧ (member 6 6 true).txn.state = 0
    ∧ keyVal (after .commitBeat (member 6 6 true)) 2 = some (leBytes 4 1024)
    ∧ (member 6 6 false).group.leaveOrder = none ∧ (after .commitBeat (member 6 6 false)).group.state = 4
    ∧ (after .commitBeat (member 6 6 false)).keys = [] := by decide +kernel
/-- R263: from beat 5, under way, 8 bt lead to beat 14. -/
def groupTxn (c : Nat) : State :=
  taken { host with now := 1, beat := { number := 5 }, txn := { state := 1, group := true } } (ord 0x0B 9 c 0 [])

theorem test_group_commit_late : admits (groupTxn 13) 0x0B = true ∧ 13 < beatAfter (groupTxn 13) 8 ∧ ¬ 14 < beatAfter (groupTxn 14) 8
    ∧ ended (after (.commitTxn 0 1) (groupTxn 13)) eLate = true ∧ waits (after (.commitTxn 0 1) (groupTxn 14)) = true := by
  decide +kernel
theorem test_prepare : stagedStatus { host with group := { state := 3, view := [0, 1] } } true [(2, leBytes 4 1024)] = eOk
    ∧ (after (.prepare 1 [(2, leBytes 4 1024)] 9) { host with group := { state := 3, view := [0, 1] } }).prepared
      = some { coordinator := 1, staged := [(2, leBytes 4 1024)], beat := 9, ranks := [0, 1] }
    ∧ (after (.prepare 2 [] 9) (member 5 0 false)).prepared = (member 5 0 false).prepared := by decide +kernel
theorem test_decision : (member 5 0 false).prepared = some { coordinator := 1, staged := [(2, leBytes 4 1024)] }
    ∧ (after (.decision 1 6) (member 5 0 false)).prepared = some { coordinator := 1, staged := [(2, leBytes 4 1024)], beat := 6, decided := true }
    ∧ after (.decision 2 6) (member 5 0 false) = member 5 0 false := by decide +kernel
theorem test_abort : (after (.abort 1) (member 5 0 false)).prepared = none ∧ after (.abort 2) (member 5 0 false) = member 5 0 false := by
  decide +kernel

/-- A coordinator that waits for ranks 1 and 2. -/
def coordinating (asked ready : List Nat) : State :=
  { host with beat := { number := 5 }, group := { state := 2, view := [0, 1, 2] }
              txn := { state := 2, group := true, staged := [(2, leBytes 4 1024)], asked := asked, ready := ready } }

theorem test_ready_reply_refused : 2 ∈ (coordinating [1, 2] []).txn.asked ∧ (coordinating [1, 2] []).txn.decided = false
    ∧ (after (.readyReply 2 ePlan) (coordinating [1, 2] [])).txn.state = 1 := by decide +kernel
/-- R262: the last READY of a transaction with commit beat 99. -/
theorem test_ready_reply : (∀ r, r ∈ [1, 2] → r = 2 ∨ r ∈ [1])
    ∧ (after (.readyReply 2 eOk) { coordinating [1, 2] [1] with txn := { (coordinating [1, 2] [1]).txn with commitBeat := 99 } }).txn.decided
      = true := by decide +kernel
/-- R262: without a commit beat the wait ends 1,024 beats after the PREPARE; with one, 4 bt before it. -/
theorem test_txn_reply_timeout : (after .txnReplyTimeout { coordinating [1] [] with beat := { number := 1024 } }).txn.state = 1
    ∧ (after .txnReplyTimeout { coordinating [1] [] with beat := { number := 1023 } }).txn.state = 2
    ∧ (after .txnReplyTimeout { coordinating [1] [] with
        txn := { (coordinating [1] []).txn with commitBeat := 9 } }).txn.state = 1 := by decide +kernel

/-! Mailboxes, queue pairs and completions. -/

/-- One order window slot's worth of a byte. -/
def slotOf1 (b : Byte) : List Byte := List.replicate 256 b

theorem test_window_write : host.qp 0 = some qp0 ∧ qp0.phase = 1 ∧ memWf 0 host.mem.window = true
    ∧ memRead (after (.orderWindowWrite 0 256 7 (slotOf1 9)) host).mem.window 256 3 = [9, 9, 9]
    ∧ memRead (after (.orderWindowWrite 0 256 7 (slotOf1 9)) host).mem.window 254 2 = [0, 0]
    ∧ memRead (after (.orderWindowWrite 0 256 7 (slotOf1 9)) host).mem.window 511 2 = [9, 0] := by decide +kernel
/-- R330: a wrong rkey, half a slot, a write beyond the last slot of the mailbox. -/
theorem test_window_refused : (((after (.orderWindowWrite 0 256 8 (slotOf1 9)) host).qp 0).map (fun v => v.phase)) = some 3
    ∧ (((after (.orderWindowWrite 0 256 7 (List.replicate 128 9)) host).qp 0).map (fun v => v.phase)) = some 3
    ∧ (((after (.orderWindowWrite 0 4096 7 (slotOf1 9)) host).qp 0).map (fun v => v.phase)) = some 3
    ∧ (after (.orderWindowWrite 0 4096 7 (slotOf1 9)) host).mem.window = [] := by decide +kernel

/-- Mailbox 0 at an expected number, its head slot holding a record of a number and a code. -/
def posted (e k code : Nat) : State :=
  { host with mailboxes := [(0, { qp := some 0, expected := e })]
              mem := { window := memWrite [] 0 (leBytes 4 k ++ leBytes 1 code) } }

theorem test_take : (posted 5 5 2).mailbox 0 = { qp := some 0, expected := 5 } ∧ (posted 5 5 2).pins.stage = 4
    ∧ field (memRead (posted 5 5 2).mem.window 0 256) 0 4 = 5
    ∧ ((after (.orderTake 0) (posted 5 5 2)).orders.map (fun o => (o.number, o.qp))) = [(5, 0)]
    ∧ (after (.orderTake 0) (posted 5 5 2)).mailbox 0 = { qp := some 0, head := 1, expected := 6 } := by decide +kernel
/-- R348: the number after 0xFFFF_FFFF is 1. -/
theorem test_take_wraps : (after (.orderTake 0) (posted 0xFFFFFFFF 0xFFFFFFFF 2)).mailbox 0 = { qp := some 0, head := 1 } := by
  decide +kernel
/-- R350: 0 and the number 16 before change nothing; 0 is skipped in counting back. -/
theorem test_take_stale : back16 20 = 4 ∧ back16 1 = 0xFFFFFFF0 ∧ back16 16 = 0xFFFFFFFF ∧ back16 17 = 1
    ∧ after (.orderTake 0) (posted 20 4 2) = posted 20 4 2 ∧ after (.orderTake 0) (posted 20 0 2) = posted 20 0 2 := by decide +kernel
theorem test_take_fault : (posted 5 7 2).mailbox 0 = { qp := some 0, expected := 5 }
    ∧ (after (.orderTake 0) (posted 5 7 2)).mailbox 0 = { qp := some 0, expected := 5, faulted := true }
    ∧ (((after (.orderTake 0) (posted 5 7 2)).qp 0).map (fun v => v.waiting.map (fun c => (c.number, c.status)))) = some [(7, ePlan)]
    ∧ after (.orderTake 0) (after (.orderTake 0) (posted 5 7 2)) = after (.orderTake 0) (posted 5 7 2) := by decide +kernel
theorem test_take_unknown_code : (posted 5 5 0x15).trust.closeStatus = []
    ∧ (((after (.orderTake 0) (posted 5 5 0x15)).qp 0).map (fun v => v.waiting.map (fun c => (c.number, c.status)))) = some [(5, ePlan)]
    ∧ (after (.orderTake 0) (posted 5 5 0x15)).orders = [] := by decide +kernel
/-- R28: the 257th RUN stays in its mailbox. -/
theorem test_take_runs_full : runsHeld { posted 5 5 4 with runs := List.replicate 256 {} } = 256
    ∧ (after (.orderTake 0) { posted 5 5 4 with runs := List.replicate 256 {} }).orders = []
    ∧ (after (.orderTake 0) { posted 5 5 4 with runs := List.replicate 255 {} }).orders.length = 1 := by decide +kernel
theorem test_sweep : (after .mailboxSweep (posted 5 5 2)).orders.length = 1 := by decide +kernel

/-- The next states that CommandsCompleteOutright gives: what its hypotheses ask of the window and of the head slots. -/
theorem test_outright_orders :
    let s := posted 5 5 2
    noSak host 0 = false ∧ (List.range 64).all (fun j => j == 0 || (s.mailbox j).qp.isNone) = true
    ∧ after .mailboxSweep s = after (.orderTake 0) s ∧ (after (.orderTake 0) s).orders.length = 1 := by decide +kernel

/-- A sub-port up with an IPv4 address. -/
def portReady : State :=
  { ready with ports := [(3, { up := true })]
               pins := { ready.pins with subports := (List.replicate 16 (List.replicate 32 0)).set 3 (patch (List.replicate 32 0) 0x1C [3]) } }

theorem test_connect : (portReady.port 3).up = true ∧ portIp portReady 3 = true ∧ (qpsUsed portReady).length < 4096
    ∧ (after (.connectionReq 3 0x010612C1 5 1024) portReady).qps.length = 1
    ∧ after (.connectionReq 3 0x010612C2 5 1024) portReady = portReady.emit { kind := 13, dest := 3, addr := 2 } := by decide +kernel
/-- R325: 1,024, 2,048 and 4,096 are taken; log 94: another is rejected. -/
theorem test_connect_mtu : noSak portReady 3 = false
    ∧ after (.connectionReq 3 0x010612C1 5 512) portReady = portReady.emit { kind := 13, dest := 3, addr := 3 }
    ∧ ([1024, 2048, 4096].all fun m => (after (.connectionReq 3 0x010612C1 5 m) portReady).qps.length == 1) = true := by decide +kernel

theorem test_connect_full (n : Nat) :
    (qpsUsed { portReady with qps := (List.range n).map (fun q => (q, ({} : Qp))) }).length = n := by
  simp only [qpsUsed, List.length_map]
  rw [List.filter_eq_self.mpr (by simp)]
  simp

/-- A good connection record: EVENTS, all 64 mailboxes, one region, a ring of 16 at 4,096 (Table 12.4). -/
def recordBody : List Byte :=
  slice (leBytes 2 1 ++ [1, 64, 1, 0, 0, 0] ++ leBytes 8 4096 ++ leBytes 4 9 ++ leBytes 4 16 ++ leBytes 8 0 ++ leBytes 32 0
    ++ leBytes 8 65536 ++ leBytes 8 4096 ++ leBytes 4 5 ++ leBytes 4 3) 0 256

/-- A host that has just connected. -/
def fresh : State := { ready with qps := [(0, {})], ports := [(0, { up := true })] }

theorem test_record : fresh.qp 0 = some {} ∧ recordOk recordBody = true ∧ field recordBody 3 1 = 64
    ∧ (∀ x, x ∈ slice recordBody 0x20 32 → x = 0) ∧ bindingOk fresh (slice recordBody 0x20 32) = true := by decide +kernel
theorem test_record_mailboxes : freeRun fresh 64 = some 0 := by
  have h : below 64 (fun a => decide (a + 64 ≤ 64) && (List.range 64).all (fun i => mailboxFree fresh (a + i))) = [0] := by
    decide +kernel
  unfold freeRun
  simp only [h]
  simp [Nat.mod_one]
/-- R329: a ring of 24 entries is no power of two; the queue pair will be disconnected. -/
theorem test_record_refused : recordOk (patch recordBody 0x14 [24]) = false
    ∧ (((after (.connectionRecord 0 (patch recordBody 0x14 [24])) fresh).qp 0).map (fun v => (v.phase, v.disconnectAt)))
      = some (2, some 1000000) := by decide +kernel

theorem test_disconnect : countersFit host = true ∧ qp0.subport < 65536 ∧ host.txn.state = 0
    ∧ (((after (.disconnectRequest 0) { host with qps := [(0, { qp0 with waiting := [{}, {}] })] }).qp 0).map (fun v => v.waiting)) = some []
    ∧ (after (.disconnectRequest 0) { host with qps := [(0, { qp0 with waiting := [{}, {}] })] }).counter Ctr.completionsDropped 0 = 2
    ∧ (after (.disconnectRequest 0) host).mailboxes = [] := by decide +kernel
theorem test_disconnect_rolls_back : (inTxn 1 0 [(1, [9])]).txn.owner = 0 ∧ (inTxn 1 0 [(1, [9])]).txn.group = false
    ∧ (after (.disconnectRequest 0) (inTxn 1 0 [(1, [9])])).txn = {} := by decide +kernel
theorem test_disconnect_after_reply : after (.disconnectAfterReply 0) host = host
    ∧ (((after (.disconnectAfterReply 0) { host with qps := [(0, { qp0 with phase := 2 })] }).qp 0).map (fun v => v.phase)) = some 3 := by
  decide +kernel

/-- R341: a sub-port that requires MACsec and has no key. -/
theorem test_no_sak :
    let s := { host with keys := [(0x0520, [1])] }
    let drop := s.bump Ctr.macsecDrops 0 1
    noSak s 0 = true ∧ noSak host 0 = false ∧ after (.orderWindowWrite 0 256 7 (slotOf1 9)) s = drop
    ∧ after (.disconnectRequest 0) s = drop ∧ after (.cnp 0) s = drop ∧ after (.consumerIndexRead 0 7) s = drop := by decide +kernel

/-- One completion waits, with p and c of the ring. -/
def filling (p c : Nat) (imm : Bool) : State :=
  { host with qps := [(0, { qp0 with waiting := [{ number := 3 }], producer := p, consumer := c, modeImm := imm, cqAddr := 8192 })] }

/-- R333: 16 entries, 15 in use; and the index wraps at 2^32. -/
theorem test_completion_write : ringFill { qp0 with producer := 15 } = 15 ∧ ringFill { qp0 with producer := 3, consumer := 2 ^ 32 - 1 } = 4
    ∧ ((after (.completionWrite 0) (filling 15 0 false)).out.map (fun o => (o.kind, o.addr, o.data.length))) = [(0, 8192 + 64 * 15, 64)]
    ∧ (((after (.completionWrite 0) (filling (2 ^ 32 - 1) (2 ^ 32 - 1) true)).qp 0).map (fun v => v.producer)) = some 0 := by decide +kernel
theorem test_completion_full : qp0.cqEntries ≤ ringFill { qp0 with producer := 16 }
    ∧ (((after (.completionWrite 0) (filling 16 0 false)).qp 0).map (fun v => (v.producer, v.waiting.map (fun c => c.counted))))
      = some (16, [true])
    ∧ after (.completionWrite 0) host = host := by decide +kernel
theorem test_consumer_index : (((after (.consumerIndexRead 0 7) (filling 16 0 false)).qp 0).map (fun v => v.consumer)) = some 7 := by
  decide +kernel

/-! Runs and the engines. -/

theorem test_acc_int : (accInt { v := .ofInt 2147483646 } [1]).1 = { v := .ofInt 2147483647 }
    ∧ accInt { v := .ofInt 2147483647 } [1] = ({ v := .ofInt 2147483647, sat := true }, true, false)
    ∧ accInt { v := .ofInt (-2147483648) } [-1] = ({ v := .ofInt (-2147483648), sat := true }, true, false)
    ∧ accInt { v := .ofInt 5, sat := true } [7] = ({ v := .ofInt 5, sat := true }, false, false) := by decide +kernel
theorem test_acc_float : (accFloat {} (.above true) 0) = ({ v := max32 true, sat := true }, true, false)
    ∧ (accFloat { v := max32 false } (.sum (max32 false)) 0) = ({ v := max32 false, sat := true }, true, false)
    ∧ (stochastic (max32 false) (max32 false) 0).over32 = true ∧ (accFloat { nan := true } .nan 0).1 = { nan := true } := by decide +kernel
theorem test_clamp : clampTo 4 (-1) = (0, true) ∧ clampTo 4 3 = (3, false) ∧ clampTo 4 4 = (3, true) ∧ clampTo 1 0 = (0, false) := by
  decide +kernel

/-- A matrix of one format and layout on the shelf: columns, rows, base; row-major with the columns side by side. -/
def mat (format form layout cols rows base : Nat) : Desc :=
  { rank := 2, format := format, form := form, layout := layout, base := base, length := 65536, size := [cols, rows, 0, 0, 0, 0]
    stride := if form = 0 ∧ layout = 0 then [1, cols, 0, 0, 0, 0] else [0, 0, 0, 0, 0, 0], bound := [cols, rows, 0, 0, 0, 0] }

/-- A run of one record on core 0, its record started there; tensors 1 to 4 are its references 0 to 3. -/
def benchRun (ms : List MRec) (i : Nat) : Run :=
  { tag := 9, mailbox := 0, number := 1, state := 1
    prog := { team := [0], recs := ms, refs := [{ handle := 1 }, { handle := 2 }, { handle := 3 }, { handle := 4 }] }
    started := [i], walks := [{ mi := i }] }

/-- A device with that run and those tensors. -/
def bench (ds : List Desc) (r : Run) : State :=
  { host with tensors := ((List.range 4).map (· + 1)).zip ds |>.map (fun x => { handle := x.1, desc := x.2 }), runs := [r]
              orders := [{ number := 1, bytes := (ord 4 9 0 0 []).bytes, begun := true }] }

/-- The walk of record i of the run. -/
def walk9 (s : State) (i : Nat) : Walk := ((findWalk s 9 i 0).map (fun x => x.2)).getD {}

/-- A run accepted and not started, of one FENCE. -/
def queued (launch : Nat) : State :=
  { bench [] { benchRun [{ opcode := 0x14 }] 0 with state := 0, started := [], walks := [], launch := launch } with beat := { number := 5 } }

theorem test_run_start : ((queued 5).live 9).isSome = true ∧ teamBusy (queued 5) (((queued 5).live 9).getD {}) = false
    ∧ (((after (.runStart 9) (queued 5)).live 9).map (fun r => (r.state, r.lateLaunch))) = some (1, false)
    ∧ (((after (.runStart 9) (queued 4)).live 9).map (fun r => (r.state, r.lateLaunch))) = some (1, true)
    ∧ (after (.runStart 9) (queued 4)).counter Ctr.lateLaunches 0 = 1 ∧ after (.runStart 9) (queued 6) = queued 6 := by decide +kernel

/-- R414: a run without a launch beat waits for Imion; one with a launch beat starts. -/
theorem test_run_start_restart :
    let down := fun (s : State) => { s with health := { s.health with imionStopped := true } }
    after (.runStart 9) (down (queued 0)) = down (queued 0)
    ∧ (((after (.runStart 9) (down (queued 5))).live 9).map (fun r => r.state)) = some 1 := by decide +kernel

/-- A run whose one FENCE is done. -/
def finished (done : Bool) : State :=
  bench [] { benchRun [{ opcode := 0x14 }] 0 with walks := [{ mi := 0, done := done }] }

theorem test_run_end : runDone (finished true) (((finished true).live 9).getD {}) = true
    ∧ (after (.runEnd 9) (finished true)).live 9 = none ∧ ended (after (.runEnd 9) (finished true)) eOk = true
    ∧ runDone (finished false) (((finished false).live 9).getD {}) = false ∧ after (.runEnd 9) (finished false) = finished false := by
  decide +kernel

/-- A run being stopped; one of its reads may still be in flight. -/
def stopping (xs : List Xfer) : State :=
  { bench [] { benchRun [{ opcode := 0x14 }] 0 with stopping := some eCancelled } with xfers := xs }

theorem test_run_stop_complete : stopSettled (stopping []) (((stopping []).live 9).getD {}) = true
    ∧ ended (after (.runStopComplete 9) (stopping [])) eCancelled = true ∧ (after (.runStopComplete 9) (stopping [])).live 9 = none
    ∧ stopSettled (stopping [{ tag := 9 }]) (((stopping [{ tag := 9 }]).live 9).getD {}) = false
    ∧ after (.runStopComplete 9) (stopping [{ tag := 9 }]) = stopping [{ tag := 9 }] := by decide +kernel

/-- A COPY of a matrix in tensor address space, accepted, its run in progress and the record not started. -/
def unstarted : State :=
  bench [{ mat 0x10 0 0 4 4 0 with placement := 1 }, mat 0x10 0 0 4 4 4096]
    { benchRun [{ opcode := 0x0A, opA := 0, opC := 1 }] 0 with started := [], walks := [] }

theorem test_macro_start : startable unstarted ((unstarted.live 9).getD {}) 0 0 = true
    ∧ startBlocks unstarted ((unstarted.live 9).getD {}) 0 0 = []
    ∧ larderPlan (unstarted.core 0) (memReads unstarted ((unstarted.live 9).getD {}) 0 0).length = some [(0, 131072)]
    ∧ (after (.macroStart 9 0 0) unstarted).streams.length = 1 ∧ ((after (.macroStart 9 0 0) unstarted).core 0).larders = [some (9, 0), none]
    ∧ (walk9 (after (.macroStart 9 0 0) unstarted) 0).done = false := by decide +kernel
/-- R177: with both larders held the record waits. -/
theorem test_macro_start_held :
    startBlocks { unstarted with cores := [(0, { larders := [some (3, 0), some (3, 1)] })] } ((unstarted.live 9).getD {}) 0 0 = [7]
    ∧ after (.macroStart 9 0 0) { unstarted with cores := [(0, { larders := [some (3, 0), some (3, 1)] })] }
      = { unstarted with cores := [(0, { larders := [some (3, 0), some (3, 1)] })] } := by decide +kernel

/-- A WAIT_BEAT for a beat, in beat 5. -/
def waitingBeat (b : Nat) : State := { bench [] (benchRun [{ opcode := 0x13, beat := b }] 0) with beat := { number := 5 } }

theorem test_wait_beat : (walkOf (waitingBeat 5) 9 0 0).isSome = true ∧ beatOf (benchRun [] 0) { opcode := 0x13, beat := 5 } = 5
    ∧ (walk9 (after (.waitBeat 9 0 0) (waitingBeat 5)) 0).done = true
    ∧ after (.waitBeat 9 0 0) (waitingBeat 6) = waitingBeat 6 := by decide +kernel

/-- A FENCE after a COPY into the shelf that is not done: scope. -/
def fencing (scope : Nat) : State :=
  bench [mat 0x10 0 0 4 4 0, mat 0x10 0 0 4 4 4096]
    { benchRun [{ opcode := 0x0A, opA := 0, opC := 1 }, { opcode := 0x14, imm0 := scope }] 1 with walks := [{ mi := 0 }, { mi := 1 }] }

/-- R20: the COPY writes the shelf, which is bit 0 of the scope; 0 stands for all. -/
theorem test_fence : (walkOf (fencing 2) 9 1 0).isSome = true ∧ (walk9 (after (.fence 9 1 0) (fencing 2)) 1).done = true
    ∧ after (.fence 9 1 0) (fencing 1) = fencing 1 ∧ after (.fence 9 1 0) (fencing 0) = fencing 0 := by decide +kernel

/-- An engine record of INT8 operands of one element each, and FP32 output: opcode, flags, and its walk. -/
def engine (o fl : Nat) (w : Walk) : State :=
  { bench [mat 8 0 1 1 1 0, mat 8 0 2 1 1 4096, mat 0x10 0 0 1 1 8192, mat 0x10 0 3 1 1 12288]
      { benchRun [{ opcode := o, flags := fl, cellarCount := 2, opA := 0, opB := 1, opC := 2, opD := 3 }] 0 with walks := [w] } with
    mem := { shelf := memWrite (memWrite (memWrite [] 0 [3]) 4096 [0xFB]) 12288 (leBytes 4 0x41200000) } }

/-- R31: each engine opcode's walk over its one output tile; a second command changes nothing. -/
theorem test_engine_walks : ([(1, Instr.matmul 9 0 0), (2, .matmulS24 9 0 0), (3, .spmmX 9 0 0), (0x0E, .bwdData 9 0 0),
      (0x0F, .bwdWeight 9 0 0)].all fun c =>
        (walkOf (engine c.1 0 {}) 9 0 0).isSome && (walk9 (after c.2 (engine c.1 0 {})) 0).units == [0]
          && (walk9 (after c.2 (engine c.1 0 {})) 0).set) = true
    ∧ after (.matmul 9 0 0) (engine 1 0 { set := true, units := [0], loftDone := true })
      = engine 1 0 { set := true, units := [0], loftDone := true } := by decide +kernel
/-- R31: a CONV_W of no output pixel has no tile: the position has done its part. -/
theorem test_engine_empty :
    (walkUnits (bench [mat 8 0 1 1 1 0, mat 8 0 2 1 1 4096, mat 0x10 0 0 0 1 8192] (benchRun [{ opcode := 1, opA := 0, opB := 1, opC := 2 }] 0))
      (benchRun [{ opcode := 1, opA := 0, opB := 1, opC := 2 }] 0) 0 0).toOption = some []
    ∧ (walk9 (after (.matmul 9 0 0) (bench [mat 8 0 1 1 1 0, mat 8 0 2 1 1 4096, mat 0x10 0 0 0 1 8192]
        (benchRun [{ opcode := 1, opA := 0, opB := 1, opC := 2 }] 0))) 0).done = true := by decide +kernel
/-- R173: a CONV_W of a source of extent 1 in every dimension. -/
theorem test_conv_walk : (walk9 (after (.convW 9 0 0) (engine 4 0 {})) 0).units = [0]
    ∧ emptyWindow { opcode := 4 } (getView (engine 4 0 {}) (((engine 4 0 {}).live 9).getD {}) 0 0 0) = false := by decide +kernel

/-- A cellar tile's first word. -/
def cell0 (s : State) : List Byte := cellarRead s 0 0 4

/-- R66: the preload 10.0 as an INT32. -/
theorem test_preload : (walkOf (engine 1 2 { set := true, units := [0] }) 9 0 0).isSome = true
    ∧ plainEngine (((engine 1 2 {}).live 9).getD {}) 0 = true ∧ tileFree (engine 1 2 {}) 0 0 = true
    ∧ nextTile { opcode := 1, cellarCount := 2 } {} = 0
    ∧ cell0 (after (.preloadStart 9 0 0) (engine 1 2 { set := true, units := [0] })) = leBytes 4 10
    ∧ (walk9 (after (.preloadStart 9 0 0) (engine 1 2 { set := true, units := [0] })) 0).filling = [(0, 0)] := by decide +kernel
theorem test_tile_read : upNext (engine 1 0 {}) 9 { opcode := 1, cellarCount := 2 } { set := true, units := [0] } = some (0, 0)
    ∧ cell0 (after (.tileFirstRead 9 0 0) (engine 1 0 { set := true, units := [0], loftDone := true })) = leBytes 4 0xFFFFFFF1
    ∧ (((after (.tileFirstRead 9 0 0) (engine 1 0 { set := true, units := [0], loftDone := true })).core 0).tile 0).state = 2
    ∧ (walk9 (after (.tileFirstRead 9 0 0) (engine 1 0 { set := true, units := [0], loftDone := true })) 0).draining = [(0, 0)] := by
  decide +kernel

/-- A filled tile that holds the integer -15, its walk's last. -/
def filledTile (filled : Bool) : State :=
  { engine 1 0 { set := true, draining := [(0, 0)], loftDone := true } with
    cores := [(0, { tiles := [(0, { state := 2, isInt := true, filled := filled, rows := 1 })] })]
    mem := { cellar := memWrite [] 0 (leBytes 4 0xFFFFFFF1) } }

/-- R57: -15 as FP32 is 0xC1700000. -/
theorem test_drain : drainsNext (filledTile true) 0 9 0 0 = true
    ∧ memRead (after (.tileDrain 9 0 0) (filledTile true)).mem.shelf 8192 4 = leBytes 4 0xC1700000
    ∧ (((after (.tileDrain 9 0 0) (filledTile true)).core 0).tile 0).state = 0
    ∧ (walk9 (after (.tileDrain 9 0 0) (filledTile true)) 0).done = true
    ∧ after (.tileDrain 9 0 0) (filledTile false) = filledTile false := by decide +kernel

/-- R179: with bytes of its walk still to issue a drain that has waited goes on waiting; one that has not writes its tile. -/
theorem test_drain_held :
    let w := fun (held : Bool) => (filledTile true).onWalk 9 0 0 (fun w => { w with held := held })
    let full := fun (held : Bool) => { w held with
      streams := [{ tag := 9, operand := 2, write := true, toWrite := [{ len := 4 }] }] }
    unissued (full true) 9 0 0 = true ∧ after (.tileDrain 9 0 0) (full true) = reach (full true) 9 0 0 [2, 3] 0
    ∧ (((after (.tileDrain 9 0 0) (w true)).core 0).tile 0).state = 0 ∧ unissued (w true) 9 0 0 = false := by decide +kernel

/-! Crates, copies and rows. -/

/-- A computation that succeeds. -/
def isOk {ε α : Type} (x : Except ε α) : Bool :=
  match x with
  | .ok _ => true
  | .error _ => false

/-- The 32 bytes at a shelf offset of core 0. -/
def shelf0 (s : State) (a n : Nat) : List Byte := memRead s.mem.shelf a n

/-- A finished tile of one element 3.0 in INT8, for a crated C. -/
def finishedTile : State :=
  bench [mat 8 0 1 1 1 0, mat 8 0 2 1 1 4096, mat 8 4 1 1 1 8192]
    { benchRun [{ opcode := 1, opA := 0, opB := 1, opC := 2 }] 0 with
      walks := [{ mi := 0, set := true, loftDone := true, bufs := [{ vals := [(0, 0x40400000)] }] }] }

/-- R98, R102: one crate of form 4 with one nonzero element: 96 bytes from 8,192 on, code 3 behind its place. -/
theorem test_output_compressor : (walk9 finishedTile 0).bufs.length = 1
    ∧ shelf0 (after (.outputCompressor 9 0 0) finishedTile) 8192 2 = [4, 8]
    ∧ shelf0 (after (.outputCompressor 9 0 0) finishedTile) (8192 + 32) 33 = List.replicate 32 0 ++ [3]
    ∧ (walk9 (after (.outputCompressor 9 0 0) finishedTile) 0).done = true := by decide +kernel
theorem test_output_compressor_empty : after (.outputCompressor 9 0 0) (engine 1 0 { set := true }) = engine 1 0 { set := true } := by
  decide +kernel

/-- An intact crate of form 4, INT8, one lane of one position, element 5 (Tables 4.2 and 4.3); its CRC worked out apart
from the model. -/
def crate5 : List Byte :=
  [4, 8, 0, 0] ++ leBytes 4 64 ++ leBytes 2 1 ++ leBytes 2 0xFAA5 ++ [1, 1, 0, 0] ++ leBytes 16 0 ++ leBytes 32 0 ++ leBytes 32 5

/-- A MATMUL of a crated A, whose slot holds some bytes. -/
def crated (b : List Byte) : State :=
  { bench [mat 8 4 1 1 1 0, mat 8 0 2 1 1 8192, mat 0x10 0 0 1 1 12288]
      (benchRun [{ opcode := 1, opA := 0, opB := 1, opC := 2 }] 0) with
    mem := { shelf := memWrite [] 0 b } }

theorem test_crate_expand : isOk (crateAt (crated crate5) (getView (crated crate5) (((crated crate5).live 9).getD {}) 0 0 0) 0 0 0) = true
    ∧ after (.crateExpand 9 0 0 0 0) (crated crate5) = crated crate5 := by decide +kernel
/-- R100: a wrong CRC fails X7. -/
theorem test_crate_broken :
    (crateAt (crated (crate5.set 64 6)) (getView (crated (crate5.set 64 6)) (((crated (crate5.set 64 6)).live 9).getD {}) 0 0 0) 0 0 0).toOption
      = none
    ∧ (((after (.crateExpand 9 0 0 0 0) (crated (crate5.set 64 6))).live 9).map (fun r => (r.stopping, r.failMi)))
      = some (some eDataLost, 0)
    ∧ (after (.crateExpand 9 0 0 0 0) (crated (crate5.set 64 6))).counter Ctr.crateErrors 0 = 1 := by decide +kernel
theorem test_turned_load : ksteps (engine 0x0F 0 {}) (((engine 0x0F 0 {}).live 9).getD {}) 0 0 = 1
    ∧ ((after (.turnedLoad 9 0 0 0) (engine 0x0F 0 {})).core 0).turn = [0] := by decide +kernel

/-- Four words of a row-major matrix. -/
def words (a b c d : Nat) : List Byte := leBytes 4 a ++ leBytes 4 b ++ leBytes 4 c ++ leBytes 4 d

/-- A list of indexes of some length. -/
def indexDesc (n : Nat) : Desc :=
  { mat 0x11 0 0 2 1 8192 with rank := 1, size := [n, 0, 0, 0, 0, 0], bound := [2, 0, 0, 0, 0, 0] }

/-- A device with a tensor's descriptor replaced. -/
def withDesc (s : State) (k : Nat) (d : Desc) : State := { s with tensors := s.tensors.set k { handle := k + 1, desc := d } }

/-- A copy-class record of two-by-two FP32 matrices, the source holding 1.0, 2.0, 3.0, 4.0 by rows. -/
def copying (o imm : Nat) : State :=
  let d := if o ≤ 9 then 2 else 0xFFFF
  { bench [mat 0x10 0 0 2 2 0, mat 0x10 0 0 2 2 4096, indexDesc 2]
      (benchRun [{ opcode := o, opA := 0, opC := 1, opD := d, imm0 := imm }] 0) with
    mem := { shelf := memWrite (memWrite [] 0 (words 0x3F800000 0x40000000 0x40400000 0x40800000)) 8192 (words 1 0xFFFFFFFF 0 0) } }

/-- The four words of C. -/
def copied (s : State) : List Nat := (List.range 4).map (fun i => field (shelf0 s 4096 16) (4 * i) 4)

theorem test_copy : (walkOf (copying 0x0A 0) 9 0 0).isSome = true
    ∧ isOk (copyTargets (copying 0x0A 0) (((copying 0x0A 0).live 9).getD {}) { mi := 0 }) = true
    ∧ copied (after (.copy 9 0 0) (copying 0x0A 0)) = [0x3F800000, 0x40000000, 0x40400000, 0x40800000]
    ∧ (walk9 (after (.copy 9 0 0) (copying 0x0A 0)) 0).done = true := by decide +kernel
/-- R179: a copy that has done its share ends once its write path has taken all of it. -/
theorem test_copy_ends :
    let s := (copying 0x0A 0).onWalk 9 0 0 (fun w => { w with set := true })
    let t := { s with streams := [{ tag := 9, operand := 2, write := true, toWrite := [{ len := 4 }] }] }
    (walk9 (after (.copy 9 0 0) s) 0).done = true ∧ unissued t 9 0 0 = true ∧ after (.copy 9 0 0) t = t := by decide +kernel
/-- R168: a TRANSPOSE onto its own tensor of unequal extents. -/
theorem test_copy_overlap :
    let m : MRec := { opcode := 0x0B, imm0 := 8, opA := 0, opC := 0 }
    let d : Desc := { mat 0x10 0 0 4 2 0 with bound := [4, 4, 0, 0, 0, 0] }
    let s := bench [d] (benchRun [m] 0)
    inPlace m d d 1 = true ∧ (walkOf s 9 0 0).isSome = true
    ∧ ((after (.transpose 9 0 0) s).live 9).map (fun r => r.stopping) = some (some eOverlap) := by decide +kernel

/-- R166: DIM_A 0, DIM_B 1. -/
theorem test_transpose : copied (after (.transpose 9 0 0) (copying 0x0B 8)) = [0x3F800000, 0x40400000, 0x40000000, 0x40800000] := by
  decide +kernel
theorem test_permute : copied (after (.permute 9 0 0) (copying 0x0C 1)) = [0x3F800000, 0x40400000, 0x40000000, 0x40800000] := by
  decide +kernel
theorem test_compress : copied (after (.compress 9 0 0) (copying 0x0D 0)) = [0x3F800000, 0x40000000, 0x40400000, 0x40800000] := by
  decide +kernel
/-- R165: a source of extent 0 writes nothing. -/
theorem test_copy_empty :
    (after (.copy 9 0 0) (withDesc (copying 0x0A 0) 0 { mat 0x10 0 0 2 2 0 with size := [0, 2, 0, 0, 0, 0] })).mem.shelf
      = (copying 0x0A 0).mem.shelf := by decide +kernel
/-- R170: of two groups of two the indexes 1 and -1 name the second, and clamped the first. -/
theorem test_gather : isOk (codesAt (copying 8 2) (getView (copying 8 2) (((copying 8 2).live 9).getD {}) 0 0 0) [[0, 0]]) = true
    ∧ copied (after (.gather 9 0 0) (copying 8 2)) = [0x40400000, 0x40800000, 0x3F800000, 0x40000000] := by decide +kernel
/-- R172: updates 1.0, 2.0 go to group 1, 3.0, 4.0 to group 0. -/
theorem test_scatter : copied (after (.scatterAdd 9 0 0) (copying 9 2)) = [0x40400000, 0x40800000, 0x3F800000, 0x40000000]
    ∧ (walk9 (after (.scatterAdd 9 0 0) (copying 9 2)) 0).done = true := by decide +kernel
/-- R170, R172: no index, nothing moved. -/
theorem test_gather_empty : (after (.gather 9 0 0) (withDesc (copying 8 2) 2 (indexDesc 0))).mem.shelf = (copying 8 2).mem.shelf
    ∧ (after (.scatterAdd 9 0 0) (withDesc (copying 9 2) 2 (indexDesc 0))).mem.shelf = (copying 9 2).mem.shelf := by decide +kernel

/-- A row record on the same matrix: function and opcode. -/
def rowing (o f : Nat) : State :=
  let b := if o = 7 then 2 else 0xFFFF
  { bench [mat 0x10 0 0 2 2 0, mat 0x10 0 0 2 2 4096, mat 0x10 0 0 2 2 8192]
      (benchRun [{ opcode := o, opA := 0, opB := b, opC := 1, imm0 := f * 2 ^ 24 + 21 * 2 ^ 16 }] 0) with
    mem := { shelf := memWrite (memWrite [] 0 (words 0x40000000 0x40000000 0 0)) 8192 (words 0x3F000000 0x3F000000 0 0) } }

/-- R220: RMS normalisation with ε = 2^-31 of 2.0 and 2.0 is 1.0 and 1.0, of zeros 0. -/
theorem test_rowop : isOk (computeRow (rowing 6 2) (((rowing 6 2).live 9).getD {}) { mi := 0 } 0) = true
    ∧ copied (after (.rowop 9 0 0) (rowing 6 2)) = [0x3F800000, 0x3F800000, 0, 0] := by decide +kernel
/-- R222: with dy = 2.0, 2.0 and y = 0.5, 0.5 the softmax gradient is 0. -/
theorem test_rowop_bwd : copied (after (.rowopBwd 9 0 0) (rowing 7 3)) = [0, 0, 0, 0]
    ∧ (walk9 (after (.rowopBwd 9 0 0) (rowing 7 3)) 0).done = true := by decide +kernel

/-- A gradient step of slot 0 with learning rate 0.5 and gradient scale 1.0, chained to a push or not. -/
def updating (chained : Bool) (w : Walk) (written : List Nat) : State :=
  let push : MRec := { opcode := 0x10, opA := 2, opC := 0 }
  let row : MRec := { opcode := 6, opA := 0, opC := 1, imm0 := 0x10 * 2 ^ 24 }
  let slot := slice (leBytes 4 1 ++ leBytes 4 0x3F000000 ++ leBytes 16 0 ++ leBytes 4 0x3F800000) 0 64
  let ps : List Push := if chained then [{ tag := 9, mi := 0, begun := true, node := 0xFFFF, written := written }] else []
  { bench [mat 0x10 0 0 2 2 0, mat 0x10 0 0 2 2 4096]
      { benchRun (if chained then [push, row] else [row]) 0 with
        walks := [{ w with mi := if chained then 1 else 0 }], keys := [(0x0400, slot)] } with
    pushes := ps, mem := { shelf := memWrite (memWrite [] 0 (words 0x40000000 0 0 0)) 4096 (words 0x40400000 0 0 0) } }

/-- R230: 3.0 - 0.5 × 2.0 is 2.0. -/
theorem test_update : chainOf (((updating false {} []).live 9).getD {}) 0 = none
    ∧ copied (after (.rowop 9 0 0) (updating false {} [])) = [0x40000000, 0, 0, 0]
    ∧ (walk9 (after (.rowop 9 0 0) (updating false {} [])) 0).done = true := by decide +kernel
theorem test_update_chained : chainOf (((updating true {} []).live 9).getD {}) 1 = some 0
    ∧ (ownPush (updating true {} []) 9 0).isSome = true ∧ (walk9 (after (.rowop 9 1 0) (updating true {} [])) 1).units = [0] := by
  decide +kernel
theorem test_update_slice :
    after (.updateSlice 9 1 0) (updating true { set := true, units := [0], loftDone := true } [])
      = updating true { set := true, units := [0], loftDone := true } []
    ∧ copied (after (.updateSlice 9 1 0) (updating true { set := true, units := [0], loftDone := true } [0])) = [0x40000000, 0, 0, 0]
    ∧ (walk9 (after (.updateSlice 9 1 0) (updating true { set := true, units := [0], loftDone := true } [0])) 1).done = true := by
  decide +kernel

/-! The merge path and the predictor. -/

/-- An empty crate of form 4 (R92): no payload, whose CRC is 0xFFFF (R93). -/
def crate0 : List Byte := [4, 8, 0, 0] ++ leBytes 6 0 ++ leBytes 2 0xFFFF ++ [1, 1, 0, 0] ++ leBytes 16 0

/-- An SPMM_X of K = 65 whose first K tiles hold the crates a and b, with a merge unit at work. -/
def merging (a b : List Byte) (e : Nat) (u : MergeState) : State :=
  { bench [{ mat 8 4 0 65 1 0 with size := [e, 1, 0, 0, 0, 0] }, mat 8 4 0 65 1 16384, mat 0x10 0 0 1 2 32768]
      { benchRun [{ opcode := 3, cellarCount := 2, opA := 0, opB := 1, opC := 2 }] 0 with
        walks := [{ mi := 0, set := true, filling := [(0, 0)], loftDone := true }] } with
    mem := { shelf := memWrite (memWrite [] 0 a) 16384 b }
    cores := [(0, { merge := u, tiles := [(0, { state := 1, isInt := true })] })] }

/-- A merge unit at the start of a pass over two K tiles. -/
def unit0 : MergeState := { freshMerge { tag := 9 } { mi := 0 } 0 0 0 2 0 with active := true }

/-- The merge unit that a command leaves. -/
def unitAfter (c : Instr) (s : State) : MergeState := ((after c s).core 0).merge

/-- Element 5 with no block scale, as a merge code. -/
def code5 : Nat := pairCode (5, 127)

theorem test_merge_ktile : (mergeWalk (merging crate5 crate5 65 unit0) unit0).isSome = true
    ∧ (unitAfter (.mergeKtile 0) (merging crate5 crate5 65 unit0)).feed = [(0, 0, code5), (1, 0, 0), (2, 0, 0)]
    ∧ (unitAfter (.mergeKtile 0) (merging crate5 crate5 65 unit0)).rowsAt = [0] := by decide +kernel
/-- R118: an empty crate of B, a K tile that A does not have, and a read that waits while two K tiles wait for the broadcaster. -/
theorem test_merge_skipped : (after (.mergeKtile 0) (merging crate5 crate0 65 unit0)).counter Ctr.mergeSkippedKtiles 0 = 1
    ∧ (unitAfter (.mergeKtile 0) (merging crate5 crate0 65 unit0)).rowsAt = []
    ∧ (unitAfter (.mergeKtile 0) (merging crate5 crate5 0 unit0)).kt = 1
    ∧ { unit0 with feed := [(2, 0, 0), (2, 0, 0)] }.mayRead = false
    ∧ after (.mergeKtile 0) (merging [] [] 65 { unit0 with feed := [(2, 0, 0), (2, 0, 0)] })
      = merging [] [] 65 { unit0 with feed := [(2, 0, 0), (2, 0, 0)] } := by
  decide +kernel

/-- Lists of lane 0, the other lanes' empty. -/
def lane0 {α : Type} (x : α) (y : α) : List α := x :: List.replicate 63 y

theorem test_list_store : (unitAfter (.listStoreLoad 0 0) (merging crate5 crate5 65 { unit0 with rowsAt := [0] })).lists.getD 0 none
      = some [(0, code5)]
    ∧ after (.listStoreLoad 0 0) (merging [] [] 65 unit0) = merging [] [] 65 unit0
    ∧ after (.listStoreLoad 0 0) (merging [] [] 65 { unit0 with rowsAt := [0, 1, 1], lists := lane0 (some []) none, nextLists := lane0 (some []) none })
      = merging [] [] 65 { unit0 with rowsAt := [0, 1, 1], lists := lane0 (some []) none, nextLists := lane0 (some []) none } := by
  decide +kernel
theorem test_broadcast :
    (unitAfter (.broadcasterPush 0) (merging [] [] 65 { unit0 with feed := [(1, 0, 0)] })).hampers = List.replicate 64 [(1, 0, 0)]
    ∧ (after (.broadcasterPush 0) (merging [] [] 65 { unit0 with feed := [(1, 0, 0)], hampers := lane0 (List.replicate 64 (1, 0, 0)) [] })).counter
        Ctr.mergeFullCc 0 = 1
    ∧ (after (.broadcasterPush 0) (merging [] [] 65 unit0)).counter Ctr.mergeFeedCc 0 = 1 := by decide +kernel
theorem test_lane_waits : laneDone unit0 0 = false
    ∧ (after (.laneAction 0 0) (merging [] [] 65 unit0)).counter Ctr.mergeStarveCc 0 = 1
    ∧ (after (.laneAction 0 0) (merging [] [] 65 { unit0 with hampers := lane0 [(1, 0, 0)] [] })).counter Ctr.mergeListWaitCc 0 = 1 := by
  decide +kernel

/-- Lane 0 with an item at the head of its hamper and a list. -/
def laneAt (item : Nat × Nat × Nat) (l : List (Nat × Nat)) : MergeState :=
  { unit0 with hampers := lane0 [item] [], lists := lane0 (some l) none, kept := lane0 [(1, 1)] [] }

/-- R120: a row end, a partner met, an item below its list's head, and one above it. -/
theorem test_lane_action : (unitAfter (.laneAction 0 0) (merging [] [] 65 (laneAt (1, 0, 0) []))).results.getD 0 [] = [(0, 0, [(1, 1)])]
    ∧ (unitAfter (.laneAction 0 0) (merging [] [] 65 (laneAt (0, 5, 8) [(5, 9)]))).kept.getD 0 [] = [(1, 1), (8, 9)]
    ∧ (unitAfter (.laneAction 0 0) (merging [] [] 65 (laneAt (0, 4, 8) [(5, 9)]))).hampers.getD 0 [] = []
    ∧ (unitAfter (.laneAction 0 0) (merging [] [] 65 (laneAt (0, 6, 8) [(5, 9)]))).laneJ.getD 0 0 = 1 := by decide +kernel
/-- R121: 5 × 5 into the first cellar row, once all 64 lanes are there. -/
theorem test_row_add :
    cell0 (after (.mergeRowAdd 0) (merging [] [] 65 { unit0 with rowsAt := [0], results := lane0 [(0, 0, [(code5, code5)])] [(0, 0, [])] }))
      = leBytes 4 25
    ∧ (unitAfter (.mergeRowAdd 0) (merging [] [] 65 { unit0 with rowsAt := [0], results := lane0 [(0, 0, [(code5, code5)])] [(0, 0, [])] })).addRow
      = 1
    ∧ after (.mergeRowAdd 0) (merging [] [] 65 unit0) = merging [] [] 65 unit0 := by decide +kernel

/-- The state of run 9, with its halts. -/
def run9 (s : State) : Run := (s.live 9).getD {}

/-- R75, R409: an uncorrectable cell that a drain or a row of sums reads fails its macro-instruction, and a fault of class 3 is
counted and kept; a cell written whole is sound again. -/
theorem test_cell_bad :
    let broken := fun (s : State) => s.onMem (fun m => { m with bad := [(0, 0)] })
    let u := after (.tileDrain 9 0 0) (broken (filledTile true))
    let v := after (.mergeRowAdd 0)
      (broken (merging [] [] 65 { unit0 with rowsAt := [0], results := lane0 [(0, 0, [(code5, code5)])] [(0, 0, [])] }))
    (run9 u).stopping = some eDataLost ∧ u.counter Ctr.uncorrectableOnchip 0 = 1
    ∧ u.coffer.queue.map (fun e => e.payload.take 4) = [[3, 0, 0, 0]]
    ∧ (run9 v).stopping = some eDataLost ∧ (run9 v).failMi = 0
    ∧ cellarBad (cellarWrite (broken {}) 0 0 [1, 2, 3, 4]) 0 0 4 = false
    ∧ cellarBad (cellarWrite (broken {}) 0 0 [1, 2, 3]) 0 0 4 = true := by decide +kernel

/-- A PREDICT of a mode and a threshold that governs a MATMUL of one token row and two rows of B, which hold 3 and -5; the
layer input is 2. -/
def predicting (mode theta : Nat) (w0 w1 : Walk) : State :=
  { bench [] { benchRun [{ opcode := 5, opA := 0, opB := 1, opC := 2, imm0 := mode + 1024, imm1 := theta }
      , { opcode := 1, cellarCount := 2, opA := 0, opB := 3, opC := 4 }] 0 with
      prog := { team := [0], refs := [{ handle := 1 }, { handle := 2 }, { handle := 3 }, { handle := 4 }, { handle := 5 }]
                recs := [{ opcode := 5, opA := 0, opB := 1, opC := 2, imm0 := mode + 1024, imm1 := theta }
                  , { opcode := 1, cellarCount := 2, opA := 0, opB := 3, opC := 4 }] }
      layers := [{ mi := 0, theta := BitVec.ofNat 32 theta }]
      walks := [{ w0 with mi := 0 }, { w1 with mi := 1 }] } with
    tensors := [{ handle := 1, desc := mat 8 0 1 1 1 0 }, { handle := 2, desc := mat 0x0B 0 2 2 1 4096 }
      , { handle := 3, desc := { indexDesc 2 with format := 0x12, base := 8192 } }, { handle := 4, desc := mat 8 0 2 2 1 12288 }
      , { handle := 5, desc := mat 0x10 0 0 2 1 16384 }]
    mem := { shelf := memWrite (memWrite [] 0 [2]) 12288 (3 :: List.replicate 63 0 ++ [0xFB]) } }

/-- The walk of a PREDICT with groups decided or not. -/
def pred0 (q : PredState) : Walk := { set := true, pred := q }

/-- A governed walk ready for its packed tiles. -/
def gov1 : Walk := { set := true, units := [0], loftDone := true }

theorem test_predict_dense : (walkOf (predicting 0 0 {} {}) 9 0 0).isSome = true
    ∧ shelf0 (after (.predict 9 0 0) (predicting 0 0 {} {})) 8192 1 = [3]
    ∧ (walk9 (after (.predict 9 0 0) (predicting 0 0 {} {})) 0).done = true := by decide +kernel
/-- R127: the input 2 is quantised with the exponent -1 as 4. -/
theorem test_predict : isOk (quantise (predicting 1 0 {} {}) (((predicting 1 0 {} {}).live 9).getD {}) 0 0) = true
    ∧ (walk9 (after (.predict 9 0 0) (predicting 1 0 {} {})) 0).pred.groups = [0]
    ∧ (walk9 (after (.predict 9 0 0) (predicting 1 0 {} {})) 0).pred.q = [(0, 4)]
    ∧ (after (.predict 9 0 0) (predicting 1 0 {} {})).mem = (predicting 1 0 {} {}).mem := by decide +kernel
/-- R129: a sketch of zeros predicts 0: above θ = -1 both rows are kept, below θ = 1 both are skipped. -/
theorem test_predictor_group :
    (walk9 (after (.predictorGroup 9 0 0) (predicting 1 0xBF800000 (pred0 { groups := [0] }) {})) 0).pred.kept = [0, 1]
    ∧ shelf0 (after (.predictorGroup 9 0 0) (predicting 1 0xBF800000 (pred0 { groups := [0] }) {})) 8192 1 = [3]
    ∧ (walk9 (after (.predictorGroup 9 0 0) (predicting 1 0x3F800000 (pred0 { groups := [0] }) {})) 0).pred.toZero = [0, 1]
    ∧ (walk9 (after (.predictorGroup 9 0 0) (predicting 1 0x3F800000 (pred0 { groups := [0] }) {})) 0).done = true := by decide +kernel
/-- R179: the rows of a governed record wait for the write path. -/
theorem test_governed_waits :
    let x : Stream := { tag := 9, mi := 1, operand := 2, write := true, toWrite := [{ len := 4 }] }
    let s := { predicting 1 0 (pred0 { toZero := [0], kept := [0] }) gov1 with streams := [x] }
    let t := { predicting 1 0 (pred0 { groups := [0] }) gov1 with streams := [{ x with mi := 0 }] }
    unissued s 9 1 0 = true ∧ after (.zeroRowWrite 9 1 0) s = s ∧ after (.packedTile 9 1 0) s = s
    ∧ unissued t 9 0 0 = true ∧ after (.predictorGroup 9 0 0) t = t := by decide +kernel

/-- R136: 64 kept rows make a packed tile, which goes first. -/
theorem test_predictor_group_waits :
    keptTile (((predicting 1 0 (pred0 { groups := [0], kept := List.range 64 }) gov1).live 9).getD {}) 0 0
      { groups := [0], kept := List.range 64 } 1 = List.range 64
    ∧ after (.predictorGroup 9 0 0) (predicting 1 0 (pred0 { groups := [0], kept := List.range 64 }) gov1)
      = predicting 1 0 (pred0 { groups := [0], kept := List.range 64 }) gov1 := by decide +kernel
theorem test_zero_rows : (govWalk (predicting 1 0 (pred0 { toZero := [0] }) gov1) 9 1 0).isSome = true
    ∧ (after (.zeroRowWrite 9 1 0) (predicting 1 0 (pred0 { toZero := [0] }) gov1)).counter Ctr.zeroRows 0 = 1
    ∧ after (.zeroRowWrite 9 1 0) (predicting 1 0 (pred0 {}) gov1) = predicting 1 0 (pred0 {}) gov1 := by decide +kernel
/-- R134: rows 1 and 0 of B in one packed tile: 2 × 3 is 6.0 and 2 × -5 is -10.0. -/
theorem test_packed_tile : keptTile (((predicting 1 0 (pred0 { kept := [1, 0] }) gov1).live 9).getD {}) 0 0 { kept := [1, 0] } 1 = [1, 0]
    ∧ shelf0 (after (.packedTile 9 1 0) (predicting 1 0 (pred0 { kept := [1, 0] }) gov1)) 16384 8 = leBytes 4 0x40C00000 ++ leBytes 4 0xC1200000
    ∧ after (.packedTile 9 1 0) (predicting 1 0 (pred0 {}) gov1) = predicting 1 0 (pred0 {}) gov1 := by decide +kernel
theorem test_governed_release :
    (walk9 (after (.governedRelease 9 1 0) (predicting 1 0 (pred0 { written := [2 ^ 32, 2 ^ 32 + 1] }) gov1)) 1).done = true
    ∧ after (.governedRelease 9 1 0) (predicting 1 0 (pred0 { written := [2 ^ 32] }) gov1)
      = predicting 1 0 (pred0 { written := [2 ^ 32] }) gov1 := by decide +kernel


/-! Streams, rotations and multicasts. -/

/-- The COPY of a matrix in tensor address space, started; what page 0 of its translation says. -/
def streaming (k : XEntry) : State :=
  let s := after (.macroStart 9 0 0) unstarted
  { s with mem := { s.mem with xlate := [(0, k)], ddr := memWrite [] 0 (words 1 2 3 4), filled := [0] } }

/-- Its read stream of A. -/
def aStream (s : State) : Stream := (readStream s 9 0 0 0).getD {}

/-- Its one read issued. -/
def fetched (k : XEntry) : State := after (.halfFill 9 0 0 0) (streaming k)


theorem test_half_fill : (readStream (streaming (1, 0, 0, 0, 0)) 9 0 0 0).isSome = true ∧ (aStream (streaming (1, 0, 0, 0, 0))).planned = true
    ∧ runIssues (streaming (1, 0, 0, 0, 0)) (run9 (streaming (1, 0, 0, 0, 0))) 0 = true
    ∧ nextHalf (aStream (streaming (1, 0, 0, 0, 0))) = some 0 ∧ (fetched (1, 0, 0, 0, 0)).xfers.map (fun f => (f.kind, f.len)) = [(1, 64)]
    ∧ (aStream (fetched (1, 0, 0, 0, 0))).plan = [] ∧ after (.halfFill 9 0 0 0) (fetched (1, 0, 0, 0, 0)) = fetched (1, 0, 0, 0, 0) := by
  decide +kernel
/-- R188, Table 7.6: an ABSENT page halts the stream, reason 0. -/
theorem test_half_fill_halts : haltReason (streaming (0, 0, 0, 0, 0)) 0 false false = some 0
    ∧ (aStream (streaming (0, 0, 0, 0, 0))).plan = [(0, 0, 64)]
    ∧ (getView (streaming (0, 0, 0, 0, 0)) (run9 (streaming (0, 0, 0, 0, 0))) 0 0 0).d.form = 0
    ∧ (run9 (fetched (0, 0, 0, 0, 0))).state = 2
    ∧ (run9 (fetched (0, 0, 0, 0, 0))).halts = [{ mi := 0, position := 0, operand := 0, page := 0, reason := 0 }]
    ∧ (fetched (0, 0, 0, 0, 0)).xfers = [] := by decide +kernel
theorem test_half_fill_bounds : (1 ≤ 64) ∧ nextHalf { aStream (streaming (1, 0, 0, 0, 0)) with halves := [{ state := 1 }, { state := 1 }] } = none
    ∧ nextHalf { halves := [{ state := 2 }, { state := 2 }], last := 1 } = some 0
    ∧ nextHalf { halves := [{ state := 2 }, { state := 1 }], last := 0 } = some 0 := by decide +kernel

/-- R181: with payloads all cut and a header that has not landed, nothing can be issued. -/
theorem test_half_fill_headers :
    let s := streaming (1, 0, 0, 0, 0)
    let x := { aStream s with plan := [(0, 64, 32)], heads := [(0, 0, none)], pay := [] }
    let s := { withDesc s 0 { mat 8 1 0 4 4 0 with placement := 1 } with streams := [x] }
    (getView s (run9 s) 0 0 0).d.form ≠ 0 ∧ (nextHalf x).isSome = true ∧ (takeFill x.halfSize x.pay).2 = []
    ∧ after (.halfFill 9 0 0 0) s = s := by decide +kernel

theorem test_land_local : (ddrRead (fetched (1, 0, 0, 0, 0)) 0 64).isSome = true
    ∧ memRead (aStream (after (.transferLand 0 none) (fetched (1, 0, 0, 0, 0)))).landed 0 8 = leBytes 8 0x200000001
    ∧ ((aStream (after (.transferLand 0 none) (fetched (1, 0, 0, 0, 0)))).halves.map (fun h => h.state)) = [2, 0, 0]
    ∧ (after (.transferLand 0 none) (fetched (1, 0, 0, 0, 0))).xfers = [] := by decide +kernel
/-- R311: a lost channel's bytes are lost. -/
theorem test_land_lost : ddrRead { fetched (1, 0, 0, 0, 0) with chans := [(0, { lost := true })] } 0 64 = none
    ∧ (run9 (after (.transferLand 0 none) { fetched (1, 0, 0, 0, 0) with chans := [(0, { lost := true })] })).stopping = some eDataLost := by
  decide +kernel
theorem test_land_host : (fetched (3, 0, 0, 4096, 5)).xfers.map (fun f => (f.kind, f.discard)) = [(3, false)]
    ∧ (aStream (after (.transferLand 0 (some (leBytes 64 7))) (fetched (3, 0, 0, 4096, 5)))).landed.head? = some (0, 7)
    ∧ ((run9 (after (.transferLand 0 none) (fetched (3, 0, 0, 4096, 5)))).halts.map (fun h => h.reason)) = [3] := by decide +kernel
theorem test_land_discard : after (.transferLand 4 none) { host with xfers := [{ id := 4, kind := 3, discard := true }] } = host := by
  decide +kernel

/-- R305, R311: a local read and a local write wait while their channel retrains; R190: a host whose queue pair has failed serves
nothing. -/
theorem test_ddr_waits :
    let s := { fetched (1, 0, 0, 0, 0) with chans := [(0, { training := true })] }
    let h := { fetched (3, 0, 0, 4096, 5) with qps := [(0, { qp0 with phase := 3 })] }
    ddrBusy s 0 64 false = true ∧ after (.transferLand 0 none) s = s
    ∧ (run9 (after (.transferLand 0 (some (leBytes 64 7))) h)).state = 2 := by decide +kernel

/-- A run's write of four bytes issued on core 0, behind others: its page kind. -/
def writing (k : Nat) (before : List Xfer) : State :=
  let f : Xfer := { id := 6, tag := 9, operand := 2, write := true, len := 4, kind := k, cells := cellsAt 0 (leBytes 4 0x01020304) }
  { unstarted with
    cores := [(0, { writes := before ++ [f] })]
    streams := [{ tag := 9, operand := 2, write := true }]
    mem := { filled := [0] } }

theorem test_write_local : (applyWrite (writing 1 []) { len := 4, kind := 1, cells := cellsAt 0 (leBytes 4 0x01020304) }).2 = true
    ∧ memRead (after (.writeComplete 0 6 true) (writing 1 [])).mem.ddr 0 4 = [4, 3, 2, 1]
    ∧ ((after (.writeComplete 0 6 true) (writing 1 [])).core 0).writes = [] := by decide +kernel
theorem test_write_waits : (overlap 0 8 0 4) = true
    ∧ after (.writeComplete 0 6 true) (writing 1 [{ id := 5, len := 8, kind := 1 }]) = writing 1 [{ id := 5, len := 8, kind := 1 }] := by decide +kernel
theorem test_write_busy :
    let s := { writing 1 [] with chans := [(0, { training := true })] }
    ddrBusy s 0 4 true = true ∧ after (.writeComplete 0 6 true) s = s
    ∧ (run9 (after (.writeComplete 0 6 true) { writing 3 [] with qps := [(0, { qp0 with phase := 3 })] })).state = 2 := by decide +kernel

theorem test_write_lost :
    (applyWrite { writing 1 [] with chans := [(0, { lost := true })] } { len := 4, kind := 1, cells := cellsAt 0 (leBytes 4 0) }).2 = false
    ∧ (run9 (after (.writeComplete 0 6 true) { writing 1 [] with chans := [(0, { lost := true })] })).stopping = some eDataLost := by decide +kernel
theorem test_write_peer : ((after (.writeComplete 0 6 true) (writing 2 [])).core 0).writes = []
    ∧ (run9 (after (.writeComplete 0 6 false) (writing 2 []))).state = 2
    ∧ ((after (.writeComplete 0 6 false) (writing 2 [])).streams.map (fun x => x.toWrite.length)) = [1] := by decide +kernel

/-- A schedule of one position (Tables 7.7 and 7.8): steps, successors, predecessor. -/
def schedOf (steps : Nat) : List Byte :=
  slice (leBytes 2 1 ++ leBytes 2 1 ++ leBytes 2 steps ++ leBytes 2 2 ++ leBytes 4 4096 ++ leBytes 4 8192 ++ leBytes 4 16384 ++ leBytes 2 3) 0 32
    ++ leBytes 32 0

/-- A ROTATE of that schedule, whose list is so long. -/
def rotating (n : Nat) (b : List Byte) : State :=
  let d : Desc := { mat 0x11 0 0 n 1 0 with rank := 1, size := [n, 0, 0, 0, 0, 0], bound := [n, 0, 0, 0, 0, 0] }
  { bench [d] (benchRun [{ opcode := 0x11, opA := 0, beat := 10 }] 0) with mem := { shelf := memWrite [] 0 b } }

theorem test_rotate : isOk (schedule (rotating 16 (schedOf 2)) (getView (rotating 16 (schedOf 2)) (run9 (rotating 16 (schedOf 2))) 0 0 0) 0) = true
    ∧ schedStatus (rotating 16 (schedOf 2)) (run9 (rotating 16 (schedOf 2))).prog (schedOf 2) (leBytes 32 0) = none
    ∧ (walkOf (rotating 16 (schedOf 2)) 9 0 0).isSome = true
    ∧ ((after (.rotate 9 0 0) (rotating 16 (schedOf 2))).rots.map (fun x => (x.steps, x.period, x.buf, x.stallLimit, x.startBeat)))
      = [(2, 2, [8192, 16384], 3, 10)]
    ∧ (walk9 (after (.rotate 9 0 0) (rotating 16 (schedOf 0))) 0).done = true
    ∧ (after (.rotate 9 0 0) (rotating 16 (schedOf 0))).rots = [] := by decide +kernel
theorem test_rotate_refused : (run9 (after (.rotate 9 0 0) (rotating 15 (schedOf 2)))).stopping = some ePlan
    ∧ schedStatus (rotating 16 []) (run9 (rotating 16 [])).prog (leBytes 32 0) (leBytes 32 0) = some ePlan
    ∧ (run9 (after (.rotate 9 0 0) (rotating 16 []))).stopping = some ePlan := by decide +kernel

/-- A rotation in flight, in beat 10. -/
def rotOn (x : Rot) : State :=
  { bench [mat 0x10 0 0 2 2 8192] (benchRun [{ opcode := 0x11, beat := 10 }, { opcode := 0x0A, beat := 10 }] 0) with
    beat := { number := 10 }, rots := [{ x with tag := 9, steps := 2, period := 2, sliceBytes := 32, buf := [8192, 16384], stallLimit := 3, startBeat := 10 }] }

theorem test_rotate_step : (walkOf (rotOn {}) 9 0 0).isSome = true ∧ (rotAt (rotOn {}) 9 0 0).isSome = true
    ∧ ((after (.rotateStep 9 0 0) (rotOn {})).rots.map (fun x => x.step)) = [1]
    ∧ (after (.rotateStep 9 0 0) (rotOn { succ := [(3, 1)] })).counter Ctr.rotateSteps 0 = 1
    ∧ ((after (.rotateStep 9 0 0) (rotOn { succ := [(3, 1)] })).mcs.map (fun m => m.children.length)) = [1]
    ∧ after (.rotateStep 9 0 0) (rotOn { step := 1 }) = rotOn { step := 1 } := by decide +kernel
/-- Core 1 sends core 0 a slice of n bytes, of a step, from its shelf at 64. -/
def sender (n step : Nat) : Mc :=
  { key := 77, tag := 9, pos := 1, core := 1, rotate := true, begun := true, chunks := [0], chunkLens := [n], sent := [0], base := 64
    step := step, children := [{ rank := 0xFFFF, core := 0 }] }

/-- That send, and a rotation on core 0 whose predecessor core 1 is. -/
def rotNear (x : Rot) (n step : Nat) : State :=
  { rotOn { x with pred := some (0xFFFF, 1) } with
    mcs := [sender n step], mem := { shelf := memWrite [] (12582912 + 64) (leBytes 32 5) } }

/-- Step 0's slice is held and sent; buffer 1 is free. -/
def tookStep : Rot := { step := 1, tags := [some 0, none], complete := [true, false] }

theorem test_rotate_receive : (rotNear tookStep 32 0).rots.map (fun x => x.ready (rotNear tookStep 32 0)) = [true]
    ∧ shelf0 (after (.rotateReceive 9 0 0 0xFFFF 1 0) (rotNear tookStep 32 0)) 16384 4 = leBytes 4 5
    ∧ ((after (.rotateReceive 9 0 0 0xFFFF 1 0) (rotNear tookStep 32 0)).rots.map (fun x => (x.received, x.tags, x.complete)))
      = [(1, [some 0, some 1], [true, true])]
    ∧ after (.rotateReceive 9 0 0 0xFFFF 1 0) (rotNear {} 32 0) = rotNear {} 32 0
    ∧ after (.rotateReceive 9 0 0 0xFFFF 1 0) (rotNear tookStep 32 1) = rotNear tookStep 32 1
    ∧ (after (.rotateReceive 9 0 0 0xFFFF 1 0) (rotNear tookStep 64 0)).counter Ctr.rotateRefused 1 = 1 := by decide +kernel
/-- A rotation of 4,096-byte slices whose predecessor is core 1 of rank 1. -/
def rotFar (x : Rot) : State :=
  { rotOn x with
    group := { state := 3, rank := 0, epoch := 1, view := [0, 1] }
    rots := [{ x with tag := 9, steps := 2, period := 2, sliceBytes := 4096, buf := [8192, 16384], stallLimit := 3, startBeat := 10, pred := some (1, 1) }] }

/-- The commands of transfers whose headers name their places. -/
def mcDataOf (h : Hdr) (d : List Byte) : Instr := .mcData h h.address h.tag d
def redPartOf (h : Hdr) (d : List Byte) : Instr := .redPart h h.address h.tag d
def redResultOf (h : Hdr) (d : List Byte) : Instr := .redResult h h.address h.tag d

/-- The header of a piece of a slice of n times 4,096 bytes, of a step (log 9). -/
def rotHdr (n step : Nat) : Hdr :=
  { op := 6, space := 1, dest := 0, src := 1, epoch := 1, key := 77, length := 32, address := 16384, tag := 64 + 8192 * n + 2 ^ 24 * step }

/-- R195, R196: a piece taken, one that waits for its turn, and one of a slice of another size, which is refused. -/
theorem test_rotate_piece : rotOf (rotFar tookStep) (pieceCore (rotHdr 1 0)) ≠ none ∧ inView (rotFar tookStep) = true
    ∧ shelf0 (after (mcDataOf (rotHdr 1 0) (leBytes 32 5)) (rotFar tookStep)) 16384 4 = leBytes 4 5
    ∧ ((after (mcDataOf (rotHdr 1 0) (leBytes 32 5)) (rotFar tookStep)).rots.map (fun x => x.got)) = [[(0, 32)]]
    ∧ (after (mcDataOf (rotHdr 1 1) (leBytes 32 5)) (rotFar tookStep)).rotHeld = [(rotHdr 1 1, leBytes 32 5)]
    ∧ after (mcDataOf (rotHdr 2 0) (leBytes 32 5)) (rotFar tookStep) = (rotFar tookStep).bump Ctr.routeUnreachable 0 1 := by
  decide +kernel

/-- R196: step 0 began in beat 10 and its limit is three beats. -/
theorem test_rotate_stall :
    (run9 (after (.rotateStallLimit 9 0 0) { rotOn { pred := some (3, 1), tags := [none, none] } with beat := { number := 13 } })).stopping = some eLate
    ∧ after (.rotateStallLimit 9 0 0) { rotOn { pred := some (3, 1), tags := [none, none] } with beat := { number := 12 } }
      = { rotOn { pred := some (3, 1), tags := [none, none] } with beat := { number := 12 } } := by decide +kernel

/-- The COPY of the same run started beside the rotation. -/
def beside (x : Rot) (b : Nat) : State :=
  { rotOn x with beat := { number := b }, runs := [{ benchRun [{ opcode := 0x11, beat := 10 }, { opcode := 0x0A, beat := 10 }] 0 with
      startBeat := 10, walks := [{ mi := 0, set := true }, { mi := 1, beatAt := 10, startAt := 10 }] }] }

theorem test_rotate_read : rotsOn (beside {} 10) 9 1 0 8192 4 ≠ [] ∧ rotsOn (beside {} 10) 9 1 0 0 4 = []
    ∧ after (.rotateBufferRead 9 1 0 0 4 true) (beside {} 10) = beside {} 10
    ∧ (run9 (after (.rotateBufferRead 9 1 0 8192 4 true) (beside {} 10))).stopping = some eOverlap := by decide +kernel

/-- R197, Table 7.9: in beat 10 the step of record is 0. -/
theorem test_rotate_read_outcomes :
    (rotsOn (beside { pred := some (3, 1), tags := [some 0, none], complete := [true, false] } 10) 9 1 0 8192 4).findSome?
      (rotRead (beside { pred := some (3, 1), tags := [some 0, none], complete := [true, false] } 10) 9 1) = none
    ∧ ((after (.rotateBufferRead 9 1 0 8192 4 false) (beside { pred := some (3, 1), tags := [some 0, none], complete := [true, false] } 10)).rots.map
        (fun x => x.readers)) = [[(0, 1, 10)]]
    ∧ (walk9 (after (.rotateBufferRead 9 1 0 8192 4 false)
        (beside { pred := some (3, 1), tags := [none, none], complete := [true, false] } 10)) 1).rotWait = some (8192, 4)
    ∧ (run9 (after (.rotateBufferRead 9 1 0 8192 4 false)
        (beside { pred := some (3, 1), tags := [some 2, none], complete := [true, false] } 10))).stopping = some eLate := by decide +kernel

/-- An MCAST of record 0, accepted as slot 1's program, in beat 10, in a view; A's page, C's rows. -/
def mcasting (beat rows : Nat) (w : Walk) : State :=
  let m : MRec := { opcode := 0x12, opA := 0, opC := 1, imm0 := 4, beat := 11 }
  { bench [mat 0x10 0 0 2 2 0, mat 0x10 0 0 2 rows 4096] { benchRun [m] 0 with slot := 1, walks := [w] } with
    beat := { number := beat }, slots := [(1, { benchRun [m] 0 with slot := 1 }.prog)]
    group := { state := 3, rank := 0, view := [0, 3, 4, 7, 8, 70] } }

/-- The key of that multicast. -/
def key1 : Nat := mcKey 1 0 11

/-- The multicast begun, with a parent or none and some children. -/
def mcOn (beat : Nat) (m : Mc) : State :=
  { mcasting beat 2 { set := true } with mcs := [{ m with key := key1, tag := 9, chunks := [0], chunkLens := [16], startBeat := 11, stall := 4 }] }

/-- The multicast of a state. -/
def mc1 (s : State) : Mc := (mcAt s key1 0).getD {}

theorem test_mcast : mcBytes (getView (mcasting 10 2 {}) (run9 (mcasting 10 2 {})) 0 0 0) = 16 ∧ mcAt (mcasting 10 2 {}) key1 0 = none
    ∧ (mc1 (after (.mcast 9 0 0) (mcasting 10 2 {}))).begun = true ∧ (mc1 (after (.mcast 9 0 0) (mcasting 10 2 {}))).chunks = [0]
    ∧ (mc1 (after (.mcast 9 0 0) (mcasting 10 2 {}))).sent = []
    ∧ (run9 (after (.mcast 9 0 0) (mcasting 10 3 {}))).stopping = some ePlan := by decide +kernel
/-- R286: another position of the team adds its chunks. -/
theorem test_mcast_second :
    let s := { mcasting 10 2 {} with mcs := [{ key := key1, tag := 9, begun := true, startBeat := 11, places := [(3, 7)], chunks := [5] }] }
    (mc1 s).begun = true ∧ (mc1 (after (.mcast 9 0 0) s)).places = [(3, 7), (0, 0)] ∧ (mc1 (after (.mcast 9 0 0) s)).chunks = [5, 0] := by
  decide +kernel

theorem test_mcast_empty :
    mcBytes (getView (withDesc (withDesc (mcasting 10 2 {}) 0 (mat 0x10 0 0 2 0 0)) 1 (mat 0x10 0 0 2 0 4096)) (run9 (mcasting 10 2 {})) 0 0 0) = 0
    ∧ (walk9 (after (.mcast 9 0 0) (withDesc (withDesc (mcasting 10 2 {}) 0 (mat 0x10 0 0 2 0 0)) 1 (mat 0x10 0 0 2 0 4096))) 0).done = true := by
  decide +kernel
/-- R286: the 65th child is refused; a JOIN that comes before the MCAST waits; R259: one of a rank outside the view is not heeded. -/
theorem test_join : mcNamed (mcOn 11 { begun := true }) key1 = true ∧ mcNamed (mcOn 11 {}) (2 * 2 ^ 28) = false
    ∧ ((mc1 (after (.join key1 1 7) (mcOn 11 { begun := true }))).children.map (fun c => (c.rank, c.detachedAt))) = [(7, none)]
    ∧ (mc1 (after (.join key1 1 70) (mcOn 11 { begun := true, children := (List.range 64).map (fun k => { rank := k }) }))).children.length = 64
    ∧ (mc1 (after (.join key1 1 70) (mcOn 11 { begun := true, children := (List.range 63).map (fun k => { rank := k }) }))).children.length = 64
    ∧ after (.join (2 * 2 ^ 28) 1 7) (mcOn 11 {}) = mcOn 11 {}
    ∧ ((after (.join key1 1 7) (mcasting 10 2 {})).mcs.map (fun m => (m.begun, m.children.length))) = [(false, 1)]
    ∧ after (.join key1 1 9) (mcOn 11 {}) = (mcOn 11 {}).bump Ctr.fencedDrops 0 1
    ∧ after (.detach 9 (leBytes 4 key1)) (mcOn 11 {}) = (mcOn 11 {}).bump Ctr.fencedDrops 0 1 := by decide +kernel

/-- A header of 32 bytes of data from a rank. -/
def mcHdr (src epoch : Nat) : Hdr := { op := 6, dest := 0, src := src, key := key1, epoch := epoch, length := 32 }

theorem test_mc_data : after (mcDataOf (mcHdr 4 0) (leBytes 32 1)) (mcOn 11 { begun := true, parent := some 3 }) = mcOn 11 { begun := true, parent := some 3 }
    ∧ shelf0 (after (mcDataOf (mcHdr 3 0) (leBytes 32 1)) (mcOn 11 { begun := true, parent := some 3 })) 4096 8 = leBytes 8 1
    ∧ (mc1 (after (mcDataOf (mcHdr 3 0) (leBytes 32 1)) (mcOn 11 { begun := true, parent := some 3 }))).got = [0]
    ∧ isOk (writeChunk (mcOn 11 {}) (getView (mcOn 11 {}) (run9 (mcOn 11 {})) 0 0 2) 0 (leBytes 16 1)) = true
    ∧ (after (mcDataOf (mcHdr 3 0) (leBytes 32 1)) { mcOn 11 { begun := true, parent := some 3 } with group := { state := 3, epoch := 1, rank := 0 } }).counter
        Ctr.fencedDrops 0 = 1
    ∧ after (mcDataOf (mcHdr 3 0) (leBytes 32 1)) { mcOn 11 {} with group := { rank := 0 } } = { mcOn 11 {} with group := { rank := 0 } } := by
  decide +kernel
/-- R280: a piece that does not complete its chunk of 64 bytes is kept. -/
theorem test_mc_part :
    let s : State := { mcOn 11 {} with mcs := [{ key := key1, tag := 9, begun := true, parent := some 3, chunks := [0], chunkLens := [64] }] }
    (mc1 s).len 0 = 64 ∧ (mc1 (after (mcDataOf (mcHdr 3 0) (leBytes 32 1)) s)).parts = [(0, 0, leBytes 32 1)] := by decide +kernel

theorem test_mc_ack : (mcOn 11 { begun := false, children := [{ rank := 7 }, { rank := 8 }] }).mcs.length = 1
    ∧ ((mc1 (after (.mcAck key1 0 7 0) (mcOn 11 { children := [{ rank := 7 }, { rank := 8 }] }))).children.map
        (fun c => c.acked)) = [[0], []]
    ∧ after (.mcAck key1 0 7 0) { mcOn 11 {} with group := { rank := 0, epoch := 1 } }
      = { mcOn 11 {} with group := { rank := 0, epoch := 1 } }.bump Ctr.fencedDrops 0 1 := by
  decide +kernel

/-- A multicast of ten chunks of 64 KiB, four sent, its child behind by all of them since beat 12. -/
def holding (beat : Nat) : State :=
  { mcasting beat 2 { set := true } with
    mcs := [{ key := key1, tag := 9, begun := true, places := [(0, 0)], chunks := List.range 10, chunkLens := List.replicate 10 65536, startBeat := 11
              stall := 4, sent := [0, 1, 2, 3], holdSince := some 12, children := [{ rank := 7 }] }] }

/-- R287: detached at 12 + 4, not before. -/
theorem test_mcast_detach : (mc1 (holding 15)).next 0 = some 4 ∧ ((mc1 (holding 15)).behind 4).map (fun c => c.rank) = [7]
    ∧ after (.mcastDetach key1 0 7) (holding 15) = holding 15
    ∧ (after (.mcastDetach key1 0 7) (holding 16)).counter Ctr.mcastDetached 0 = 1 := by decide +kernel
/-- R288: failed 4 × 4 beats after the detach, not before. -/
theorem test_catchup_limit : ((mc1 (after (.catchupLimit key1 0 7) (mcOn 28 { children := [{ rank := 7, detachedAt := some 12 }] }))).children.map
      (fun c => c.failed)) = [true]
    ∧ ((mc1 (after (.catchupLimit key1 0 7) (mcOn 27 { children := [{ rank := 7, detachedAt := some 12 }] }))).children.map (fun c => c.failed)) = [false] := by
  decide +kernel
theorem test_mcast_complete : (mc1 (mcOn 11 { begun := true, sent := [0] })).settled = true
    ∧ mcAt (after (.mcastComplete 9 0) (mcOn 11 { begun := true, places := [(0, 0)], sent := [0] })) key1 0 = none
    ∧ (walk9 (after (.mcastComplete 9 0) (mcOn 11 { begun := true, places := [(0, 0)], sent := [0] })) 0).done = true
    ∧ after (.mcastComplete 9 0) (mcOn 11 { begun := true, sent := [0] }) = mcOn 11 { begun := true, sent := [0] }
    ∧ after (.mcastComplete 9 0) (mcOn 11 { begun := true, places := [(0, 0)], sent := [0], children := [{ rank := 7 }] })
      = mcOn 11 { begun := true, places := [(0, 0)], sent := [0], children := [{ rank := 7 }] } := by decide +kernel
theorem test_detach : after (.detach 3 (leBytes 4 key1 ++ [0, 0])) (mcOn 11 { begun := true }) = mcOn 11 { begun := true }
    ∧ (mc1 (after (.detach 3 (leBytes 4 key1 ++ [0, 0])) (mcOn 11 { begun := true, parent := some 3 }))).detached = true
    ∧ (mc1 (after (.detach 3 (leBytes 4 key1 ++ [0, 0])) (mcOn 11 { begun := true, parent := some 3 }))).reads = [(2 ^ 31, 0, 0)]
    ∧ (after (.detach 3 (leBytes 4 key1 ++ [0, 0])) (mcOn 11 { begun := true, parent := some 3 })).counter Ctr.mcastLate 0 = 1 := by decide +kernel

/-! Pushes and the reducer. -/

/-- A view of the ranks 0, 1 and 2, in state ACTIVE; this device's rank. -/
def view3 (rank : Nat) : Group :=
  { state := 3, rank := rank, epoch := 1, view := [0, 1, 2], members := [(0, 100), (1, 101), (2, 102)], keeper := 0 }

/-- A GRAD_PUSH of interval n, deadline beat d, its store in the tensor address space, as slot 1's program; the steps so far. -/
def pushing (rank n d steps : Nat) (walks : List Walk) (ps : List Push) : State :=
  let m : MRec := { opcode := 0x10, opA := 0, opC := 1, imm0 := n, beat := d }
  let r : Run := { benchRun [m] 0 with slot := 1, walks := walks }
  let b := bench [{ mat 0x10 0 0 2 2 0 with placement := 1 }, mat 0x10 0 0 2 2 4096] r
  { b with
    tensors := b.tensors.map (fun t => if t.handle = 1 then { t with stepCount := steps } else t)
    slots := [(1, r.prog)], group := view3 rank, beat := { number := 20 }, pushes := ps
    mem := { xlate := [(0, (1, 1, 0, 0, 0))], filled := [0], ddr := memWrite [] 0 (words 0x3F800000 0x40000000 0 0) } }

/-- The key of that record's first push. -/
def keyP : Nat := 2 ^ 28

/-- This rank's node of that push. -/
def ownNode (s : State) : Push := (pushAt s keyP s.group.rank).getD {}

/-- R227: short of the interval the count grows; at the interval it is 0 again and a push begins. -/
theorem test_grad_push : (walkOf (pushing 1 2 0 0 [{}] []) 9 0 0).isSome = true ∧ ownPush (pushing 1 2 0 0 [{}] []) 9 0 = none
    ∧ ((after (.gradPush 9 0 0) (pushing 1 2 0 0 [{}] [])).tensors.map (fun t => t.stepCount)) = [1, 0]
    ∧ (walk9 (after (.gradPush 9 0 0) (pushing 1 2 0 0 [{}] [])) 0).done = true
    ∧ ((after (.gradPush 9 0 0) (pushing 1 2 0 1 [{}] [])).tensors.map (fun t => t.stepCount)) = [0, 0]
    ∧ (ownNode (after (.gradPush 9 0 0) (pushing 1 2 0 1 [{}] []))).begun = true
    ∧ (ownNode (after (.gradPush 9 0 0) (pushing 1 2 0 1 [{}] []))).onTime = some true := by decide +kernel
theorem test_grad_push_second :
    (walk9 (after (.gradPush 9 0 0) (pushing 1 2 0 1 [{}, { mi := 0, pos := 1, set := true, done := true }] [])) 0).done = true
    ∧ ((after (.gradPush 9 0 0) (pushing 1 2 0 1 [{}, { mi := 0, pos := 1, set := true, done := true }] [])).tensors.map (fun t => t.stepCount))
      = [1, 0] := by decide +kernel
/-- R293: beat 20 is the deadline, beat 21 is not yet. -/
theorem test_push_deadline : pushDeadline (pushing 1 1 20 0 [] [{ key := keyP, node := 1 }]) keyP = some 20
    ∧ nextKey (pushing 1 1 20 0 [] []) 1 0 = keyP ∧ pushDue (pushing 1 1 20 0 [] []) 1 0 = true
    ∧ (ownNode (after (.pushDeadline keyP) (pushing 1 1 20 0 [] [{ key := keyP, node := 1 }]))).onTime = some false
    ∧ after (.pushDeadline keyP) (pushing 1 1 21 0 [] [{ key := keyP, node := 1 }]) = pushing 1 1 21 0 [] [{ key := keyP, node := 1 }] := by
  decide +kernel
theorem test_push_complete :
    (walk9 (after (.pushComplete keyP) (pushing 1 1 0 0 [{ set := true }] [{ key := keyP, node := 1, tag := 9, begun := true, slices := 1, written := [0] }])) 0).done
      = true
    ∧ after (.pushComplete keyP) (pushing 1 1 0 0 [{ set := true }] [{ key := keyP, node := 1, tag := 9, begun := true, slices := 1 }])
      = pushing 1 1 0 0 [{ set := true }] [{ key := keyP, node := 1, tag := 9, begun := true, slices := 1 }] := by decide +kernel

/-- Rank 0's node of the push. -/
def root (q : Push) : State := pushing 0 1 0 0 [] [{ q with key := keyP, node := 0 }]

/-- A header of the reducer from a rank to a rank: its node, and the last piece of slice 0 (log 9). -/
def redHdr (src dest node epoch n : Nat) : Hdr :=
  { op := 8, dest := dest, src := src, key := keyP, epoch := epoch, length := n, tag := 1, address := redAddr node 0 0 true }

/-- The slice 1.0 and 0s as it travels, filled up to 32 bytes (R280). -/
def oneBytes : List Byte := leBytes 32 0x3F800000

theorem test_red_status : sideOf 1 = 0 ∧ sideOf 2 = 1 ∧ parentOf 2 = 0 ∧ inView (root {}) = true
    ∧ (pushAt (root {}) keyP 0).isSome = true
    ∧ (ownNode (after (.redStatus (redHdr 1 0 1 1 8) (leBytes 8 1)) (root {}))).left = some 1
    ∧ (ownNode (after (.redStatus (redHdr 2 0 2 1 8) (leBytes 8 1)) (root {}))).right = some 1
    ∧ after (.redStatus (redHdr 1 0 1 1 8) (leBytes 8 2)) (root { left := some 1 }) = root { left := some 1 }
    ∧ after (.redStatus (redHdr 1 0 1 0 8) (leBytes 8 1)) (root {}) = (root {}).bump Ctr.fencedDrops 0 1
    ∧ after (.redStatus (redHdr 1 0 1 1 8) (leBytes 8 1)) { root {} with group := { view3 0 with state := 4 } }
      = { root {} with group := { view3 0 with state := 4 } } := by decide +kernel
theorem test_red_part :
    (ownNode (after (redPartOf (redHdr 1 0 1 1 32) oneBytes) (root {}))).parts = [(0, 0, 1, 0x3F800000 :: List.replicate 7 0)]
    ∧ (after (redPartOf (redHdr 1 0 1 1 32) oneBytes) (root { left := some 0 })).counter Ctr.gradLateDrops 0 = 1
    ∧ (ownNode (after (redPartOf { redHdr 1 0 1 1 32 with address := redAddr 1 0 0 false } oneBytes) (root {}))).pieces.length = 1
    ∧ (after (redPartOf (redHdr 1 0 1 0 32) oneBytes) (root {})).counter Ctr.fencedDrops 0 = 1 := by decide +kernel

/-- Rank 1's node, begun, all contributions settled at one. -/
def leaf (q : Push) : State :=
  pushing 1 1 0 0 [{ set := true }] [{ q with key := keyP, node := 1, tag := 9, store := 1, cHandle := 2, slices := 1 }]

/-- The same node, its store's bytes landed in the read stream of position 0. -/
def leafS (q : Push) (b : List Byte) : State :=
  { leaf q with streams := [{ tag := 9, landed := cellsAt 0 b }, { tag := 9, write := true }] }

/-- R227, R291: the slice 1.0, 2.0, 0, 0 goes up, and writes of +0 to the store are issued. -/
theorem test_combine :
    let q : Push := { begun := true, onTime := some true, settled := some 1 }
    let b := words 0x3F800000 0x40000000 0 0
    (pushAt (leafS q b) keyP 1).map (fun p => (p.count (leafS q b) 0, p.count (leafS q b) 1, p.node)) = some (some 0, some 0, 1)
    ∧ (storeView (leafS q b) (ownNode (leafS q b))).any (fun v => decide (0 < sliceCount v)) = true
    ∧ (ownNode (after (.reducerCombine keyP 1 0) (leafS q b))).combined = [(0, 1, [0x3F800000, 0x40000000, 0, 0])]
    ∧ (ownNode (after (.reducerCombine keyP 1 0) (leafS q b))).taken = [0]
    ∧ (((after (.reducerCombine keyP 1 0) (leafS q b)).core 0).writes.map (fun f => (f.addr, f.cells.take 1))) = [(0, [(0, 0)])]
    ∧ after (.reducerCombine keyP 1 0) (leafS { q with settled := none } b) = leafS { q with settled := none } b := by
  decide +kernel
/-- R178: bytes of the slice that have not landed are waited for. -/
theorem test_combine_waits :
    let q : Push := { begun := true, onTime := some true, settled := some 1 }
    isOk (ownSlice (leafS q []) (ownNode (leafS q [])) 0) = false
    ∧ (ownNode (after (.reducerCombine keyP 1 0) (leafS q []))).combined = [] := by decide +kernel
/-- R294: written into C once this rank's push has begun. -/
theorem test_red_result :
    childNodes (leaf {}) 1 = [] ∧ redNode (redHdr 0 1 1 1 32) = 1
    ∧ isOk (writeC (leaf { begun := true }) (run9 (leaf { begun := true })) 0 0 0 [0x3F800000, 0, 0, 0]) = true
    ∧ shelf0 (after (redResultOf (redHdr 0 1 1 1 32) oneBytes) (leaf { begun := true })) 4096 4 = leBytes 4 0x3F800000
    ∧ (ownNode (after (redResultOf (redHdr 0 1 1 1 32) oneBytes) (leaf { begun := true }))).written = [0]
    ∧ (ownNode (after (redResultOf (redHdr 0 1 1 1 32) oneBytes) (leaf {}))).results = [(0, 1)]
    ∧ (after (redResultOf (redHdr 0 1 1 1 32) oneBytes) (leaf {})).mem = (leaf {}).mem
    ∧ (after (redResultOf (redHdr 0 1 1 0 32) oneBytes) (leaf {})).counter Ctr.fencedDrops 0 = 1 := by decide +kernel

/-! Groups and the beat. -/

/-- A group of ranks 0, 1 and 2, this device rank k: state, view. -/
def grp (k st : Nat) (view : List Nat) : Group :=
  { state := st, rank := k, keeper := 0, epoch := 1, view := view, members := [(0, 100), (1, 101), (2, 102)], groupId := 77 }

/-- A device of that group with serial 100 + k, its digests agreeing with those reported to it. -/
def inGroup (k st : Nat) (view : List Nat) : State :=
  { host with group := grp k st view, trust := { host.trust with serial := 100 + k }, beat := { number := 50 } }

/-- A group parameter block of n members, keeper rank 0, source src (Table 9.2). -/
def block (n src : Nat) : List Byte :=
  leBytes 2 1 ++ leBytes 2 n ++ leBytes 2 0 ++ leBytes 1 src ++ leBytes 1 0 ++ leBytes 8 77 ++ leBytes 8 0
    ++ leBytes 1 10 ++ leBytes 1 0 ++ leBytes 2 10 ++ leBytes 4 1024 ++ leBytes 32 0

/-- A member list's entries. -/
def memberBytes (l : List (Nat × Nat)) : List Byte := l.flatMap (fun x => leBytes 2 x.1 ++ leBytes 6 0 ++ leBytes 8 x.2)

/-- A FORM_GROUP on a device of serial 101. -/
def formOrder (st n src : Nat) : State :=
  taken { host with group := grp 1 st [], trust := { host.trust with serial := 101 } } (ord 0x0D 9 0 0 (block n src))

theorem test_form_group : admits (formOrder 0 2 0) 0x0D = true ∧ blockOk (block 2 0) = true
    ∧ memberReserved 2 (memberBytes [(0, 100), (1, 101)]) = none ∧ memberBad 2 101 [(0, 100), (1, 101)] = none
    ∧ canForm (formOrder 0 2 0) = true
    ∧ (after (.formGroup 0 1 (some (memberBytes [(0, 100), (1, 101)]))) (formOrder 0 2 0)).group.state = 1
    ∧ (after (.formGroup 0 1 (some (memberBytes [(0, 100), (1, 101)]))) (formOrder 0 2 0)).group.rank = 1 := by decide +kernel
theorem test_form_group_refused : blockOk (block 0 0) = false ∧ blockOk (block 1 0) = true ∧ blockOk (block 1024 0) = true
    ∧ blockOk (block 1025 0) = false ∧ blockOk (block 2 4) = false
    ∧ ended (after (.formGroup 0 1 none) (formOrder 0 2 4)) ePlan = true
    ∧ memberBad 2 101 [(0, 100), (1, 100)] = some 1 ∧ memberBad 2 101 [(0, 100), (2, 101)] = some 1
    ∧ memberBad 2 101 [(0, 100), (1, 102)] = some 2
    ∧ ended (after (.formGroup 0 1 (some (memberBytes [(0, 100), (1, 102)]))) (formOrder 0 2 0)) ePlan = true := by decide +kernel
theorem test_leave_group : admits (taken (inGroup 1 3 [0, 1, 2]) (ord 0x0E 9 0 0 [])) 0x0E = true
    ∧ ended (after (.leaveGroup 0 1) (taken host (ord 0x0E 9 0 0 []))) ePlan = true
    ∧ ended (after (.leaveGroup 0 1) (taken (inGroup 1 4 []) (ord 0x0E 9 0 0 []))) eOk = true
    ∧ (after (.leaveGroup 0 1) (taken (inGroup 1 4 []) (ord 0x0E 9 0 0 []))).group.state = 0
    ∧ (after (.leaveGroup 0 1) (taken (inGroup 1 3 [0, 1, 2]) (ord 0x0E 9 0 0 []))).group.leaveOrder = some (0, 1) := by decide +kernel

/-- A keeper that forms, with reports of some ranks. -/
def forming (k : Nat) (rs : List Nat) (o : Option (Nat × Nat)) : State :=
  { inGroup k 1 [] with group := { grp k 1 [] with reports := rs.map (fun r => (r, [])), formOrder := o }
                        orders := [{ number := 1, bytes := (ord 0x0D 9 0 0 []).bytes, begun := true }] }

/-- R239: three of three, then two of three at the time limit. -/
theorem test_formation_end : reported (forming 0 [1, 2] none) = [0, 1, 2] ∧ isKeeper (forming 0 [1, 2] none) = true
    ∧ ((after .formationEnd (forming 0 [1, 2] none)).group.next.map (fun v => (v.epoch, v.ranks, v.beat))) = some (2, [0, 1, 2], 54)
    ∧ after .formationEnd (forming 0 [1] none) = forming 0 [1] none ∧ after .formationEnd (forming 1 [0, 2] none) = forming 1 [0, 2] none := by
  decide +kernel
theorem test_form_timeout : ((after .formTimeout (forming 0 [1] none)).group.next.map (fun v => v.ranks)) = some [0, 1]
    ∧ (after .formTimeout (forming 0 [] (some (0, 1)))).group.state = 0 ∧ ended (after .formTimeout (forming 0 [] (some (0, 1)))) eLate = true
    ∧ after .formTimeout (inGroup 0 3 [0]) = inGroup 0 3 [0]
    ∧ (after .formTimeout { forming 2 [] none with group := { grp 2 1 [] with next := some { epoch := 2, ranks := [0, 1], beat := 60 } } }).group.state
      = 4 := by decide +kernel

/-- A link that is up. -/
def onLink0 (s : State) (k : Link) : State := { s with links := [(0, { k with state := 2 })] }

theorem test_identity_send : (after (.identitySend 0) (onLink0 (inGroup 1 1 []) {})).link 0 ≠ {}
    ∧ ((after (.identitySend 0) (onLink0 (inGroup 1 1 []) {})).link 0).ctlQ.length = 1
    ∧ after (.identitySend 1) (onLink0 host {}) = onLink0 host {} := by decide +kernel

/-- R414: not while Imion restarts. -/
theorem test_identity_restart :
    let s := { onLink0 (inGroup 1 1 []) {} with health := { host.health with imionStopped := true } }
    after (.identitySend 0) s = s := by decide +kernel

/-- R240: nothing has changed since the last record. -/
theorem test_identity_kept : ∃ b,
    ((onLink0 host { idSent := b }).link 0).state = 2 ∧ ((onLink0 host { idSent := b }).link 0).idSent = identityBody (onLink0 host { idSent := b }) 0 0
      ∧ (onLink0 host { idSent := b }).beat.number < ((onLink0 host { idSent := b }).link 0).idBeat + 256 :=
  ⟨identityBody (onLink0 host {}) 0 0, rfl, rfl, Nat.succ_pos 255⟩

/-- Rank 2's record, and one of a foreign serial. -/
def record (st epoch serial : Nat) : List Byte :=
  leBytes 2 1 ++ leBytes 1 st ++ leBytes 1 0 ++ leBytes 2 2 ++ leBytes 2 0 ++ leBytes 8 serial ++ fwVersion host ++ leBytes 1 10
    ++ leBytes 1 5 ++ leBytes 8 77 ++ leBytes 4 epoch ++ leBytes 76 0

theorem test_identity : duplicate (inGroup 1 1 []) 0 (record 1 0 102) = false ∧ listed (inGroup 1 1 []) (record 1 0 102) = true
    ∧ listed (inGroup 1 1 []) (record 1 0 103) = false ∧ slice (record 1 0 102) 0x10 2 = slice (fwVersion (inGroup 1 1 [])) 0 2
    ∧ ((after (.identity 0 (record 1 0 102)) (onLink0 (inGroup 1 1 []) {})).link 0).isGroup = true
    ∧ ((after (.identity 0 (record 1 0 102)) (onLink0 (inGroup 1 1 []) {})).link 0).peerRank = 2
    ∧ ((after (.identity 0 (record 1 0 103)) (onLink0 (inGroup 1 1 []) { isGroup := true })).link 0).isGroup = false
    ∧ (after (.identity 0 (record 1 0 103)) (onLink0 (inGroup 1 1 []) { isGroup := true })).counter Ctr.foreignRecords 0 = 1 := by decide +kernel
/-- R255: a record of a view of a later epoch fences the member. -/
theorem test_identity_epoch : field (record 3 2 102) 0x16 1 = keyNum (inGroup 1 3 [0, 1, 2]) 1
    ∧ (after (.identity 0 (record 3 2 102)) (onLink0 (inGroup 1 3 [0, 1, 2]) {})).group.state = 4 := by decide +kernel

/-- A view announced for beat b. -/
def viewAt (b : Nat) (hold : Bool) (ranks : List Nat) : State :=
  { inGroup 1 3 [0, 1, 2] with group := { grp 1 3 [0, 1, 2] with next := some { epoch := 2, ranks := ranks, keeper := 0, beat := b, hold := hold } } }

theorem test_view_announcement :
    ((after (.viewAnnouncement 2 [0, 1] 0 60 none) (inGroup 1 3 [0, 1, 2])).group.next.map (fun v => v.beat)) = some 60
    ∧ after (.viewAnnouncement 1 [0, 1] 0 60 none) (inGroup 1 3 [0, 1, 2]) = inGroup 1 3 [0, 1, 2]
    ∧ after (.viewAnnouncement 2 [0] 0 60 none) (inGroup 1 4 []) = inGroup 1 4 [] := by decide +kernel
theorem test_view_beat : ((after .viewBeat (viewAt 50 false [0, 1])).group.state, (after .viewBeat (viewAt 50 false [0, 1])).group.view) = (3, [0, 1])
    ∧ (after .viewBeat (viewAt 50 true [0, 1])).group.state = 2 ∧ after .viewBeat (viewAt 51 false [0, 1]) = viewAt 51 false [0, 1]
    ∧ (after .viewBeat (viewAt 50 false [0, 2])).group.state = 4 := by decide +kernel

/-- A member of a view that has lost its links. -/
def split3 : State := { inGroup 1 3 [0, 1, 2] with group := { grp 1 3 [0, 1, 2] with lossAt := some 0 } }

/-- R256: alone of three, the side fences itself 4 bt later. -/
theorem test_split_side : (after (.splitSide []) split3).group.fenceBeat = some 54 ∧ beatAfter split3 4 = 54
    ∧ after (.splitSide []) (inGroup 1 3 [0, 1, 2]) = inGroup 1 3 [0, 1, 2] := by decide +kernel
theorem test_fence_beat :
    (after .fenceBeat { inGroup 1 3 [0, 1, 2] with group := { grp 1 3 [0, 1, 2] with fenceBeat := some 50 } }).group.state = 4
    ∧ after .fenceBeat { inGroup 1 3 [0, 1, 2] with group := { grp 1 3 [0, 1, 2] with fenceBeat := some 51 } }
      = { inGroup 1 3 [0, 1, 2] with group := { grp 1 3 [0, 1, 2] with fenceBeat := some 51 } } := by decide +kernel
/-- Rank 0 coordinates; the keeper, outside the view, has reported a digest. -/
def apart : State := { inGroup 0 3 [0] with group := { grp 0 3 [0] with keeper := 2, reports := [(2, [7])] } }

/-- R260: eight hops and sixteen beats are enough, nine and fifteen not. -/
theorem test_rejoin : coordinates apart = true ∧ (knownDigest apart apart.group.keeper).getD (configDigest apart) = [7]
    ∧ ((after (.rejoin 1 8 (field (fwVersion host) 0 2) 16 [7]) apart).group.next.map (fun v => v.ranks)) = some [0, 1]
    ∧ after (.rejoin 1 9 (field (fwVersion host) 0 2) 16 [7]) apart = apart
    ∧ after (.rejoin 1 8 (field (fwVersion host) 0 2) 15 [7]) apart = apart
    ∧ after (.rejoin 1 8 (field (fwVersion host) 0 2) 16 [8]) apart = apart := by decide +kernel
theorem test_reform :
    ((after (.reform [1, 2] 2) { inGroup 1 4 [] with group := { grp 1 4 [] with lastView := [0, 1, 2] } }).group.next.map (fun v => (v.ranks, v.keeper)))
      = some ([1, 2], 1)
    ∧ (after (.reform [1, 2] 2) { inGroup 2 4 [] with group := { grp 2 4 [] with lastView := [0, 1, 2] } }).group.next = none
    ∧ (after (.reform [1] 2) { inGroup 1 4 [] with group := { grp 1 4 [] with lastView := [0, 1, 2] } }).group.keeper = 0
    ∧ (after (.reform [1, 2] 3) { inGroup 1 4 [] with group := { grp 1 4 [] with lastView := [0, 1, 2] } }).group.next = none := by decide +kernel

/-- A member following the mark of link 0. -/
def following (st : Nat) (b : Beat) : State :=
  { onLink0 (inGroup 1 st (if st = 3 then [0, 1, 2] else [])) { isGroup := true, delay := some 5, peerRank := 0 } with
    beat := { b with number := 50, parent := some (0, 0) } }

/-- Its link 0 brought a mark of beat n that left 30 cc after its boundary, over a link of a measured delay in 1/16 cc. -/
def marked (st n arrival : Nat) (delay : Int) : State :=
  let s := following st { startAt := 1000 }
  s.onLink 0 (fun k => { k with delay := some delay, markIn := some (n, 30, arrival) })

theorem test_beat_boundary : (after .beatBoundary (following 1 {})).beat.number = 51
    ∧ after .beatBoundary { ready with pins := { ready.pins with stage := 0 } } = { ready with pins := { ready.pins with stage := 0 } }
    ∧ (after .beatBoundary (following 1 { missed := 3, locked := true })).beat.holdover = true
    ∧ (after .beatBoundary (following 1 { missed := 2, locked := true })).beat.holdover = false
    ∧ (after .beatBoundary (following 1 { missed := 3, markSeen := true })).beat.missed = 3 := by decide +kernel
theorem test_beat_mark : (after (.beatMark 0 50 30) (marked 1 50 1050 192)).beat.locked = true
    ∧ (after (.beatMark 0 50 30) (marked 1 50 1050 191)).beat.adjustNext = 8 ∧ (after (.beatMark 0 50 30) (marked 1 50 1050 449)).beat.adjustNext = -8
    ∧ (after (.beatMark 0 50 30) (marked 1 50 1286 0)).beat.slewing = true ∧ (after (.beatMark 0 50 30) (marked 1 50 1286 (-1))).beat.slewing = false
    ∧ (after (.beatMark 0 60 30) (marked 1 60 1050 320)).beat.number = 60 ∧ (after (.beatMark 0 60 30) (marked 3 60 1050 320)).group.state = 4
    ∧ (after (.beatMark 0 50 30) (marked 1 50 1050 192)).counter Ctr.beatMarksUsed 0 = 1
    ∧ ((after (.beatMark 0 50 30) (marked 1 50 1050 192)).link 0).markIn = none ∧ after (.beatMark 1 50 30) (marked 1 50 1050 0) = marked 1 50 1050 0
    ∧ after (.beatMark 0 50 31) (marked 1 50 1050 0) = marked 1 50 1050 0 := by decide +kernel
theorem test_beat_mark_unused :
    (after (.beatMark 0 50 30) ((marked 1 50 1050 192).onLink 0 (fun k => { k with delay := none }))).counter Ctr.beatMarksUnused 0 = 1 := by decide +kernel
theorem test_beat_full : (after (.beatFull 0 (leBytes 8 70)) (following 1 {})).beat.number = 70
    ∧ after (.beatFull 0 (leBytes 8 50)) (following 1 {}) = following 1 {} := by decide +kernel
/-- R252: at the limit and one before it. -/
theorem test_holdover_limit : keyNum (following 3 {}) 2 = 65536
    ∧ (after .holdoverLimitFence (following 3 { holdover := true, holdoverBt := 65536 })).group.state = 4
    ∧ after .holdoverLimitFence (following 3 { holdover := true, holdoverBt := 65535 }) = following 3 { holdover := true, holdoverBt := 65535 } := by
  decide +kernel

/-- A keeper that follows BEAT_IN. -/
def keeping (now : Nat) (b : Beat) : State :=
  { inGroup 0 3 [0, 1, 2] with now := now, group := { grp 0 3 [0, 1, 2] with source := 2 }, beat := { b with number := 50 } }

theorem test_source_lost : (after .sourceLost (keeping 0 { sourceLocked := true })).beat.holdover = true
    ∧ (after .sourceLost (keeping 0 { sourceLocked := true })).counter Ctr.holdoverEntries 0 = 1
    ∧ after .sourceLost (keeping 0 {}) = keeping 0 {} := by decide +kernel
theorem test_source_relocked : (after (.sourceRelocked 1) (keeping 0 { holdover := true })).beat.sourceLocked = true
    ∧ (after (.sourceRelocked (-1)) (keeping 0 { holdover := true })).beat.holdover = false
    ∧ (after (.sourceRelocked 2) (keeping 0 { holdover := true })).beat.slewing = true
    ∧ after (.sourceRelocked 1) (keeping 0 {}) = keeping 0 {} := by decide +kernel
/-- R442: one beat of 1,024 cc after the last edge, half a beat on either side. -/
theorem test_beat_in : edgePeriod (keeping 0 {}) = 1024 ∧ (after .beatInEdge (keeping 9 {})).beat.lastEdge = some 9
    ∧ (after .beatInEdge (keeping 1536 { lastEdge := some 0, windowEnd := 512 })).beat.windowEnd = 1536
    ∧ (after .beatInEdge (keeping 512 { lastEdge := some 0, windowEnd := 512 })).beat.lastEdge = some 512
    ∧ after .beatInEdge (keeping 511 { lastEdge := some 0, windowEnd := 512 })
      = (keeping 511 { lastEdge := some 0, windowEnd := 512 }).bump Ctr.beatInDiscards 0 1
    ∧ after .beatInEdge (keeping 1537 { lastEdge := some 0, windowEnd := 512 })
      = (keeping 1537 { lastEdge := some 0, windowEnd := 512 }).bump Ctr.beatInDiscards 0 1 := by decide +kernel
/-- R249: sent at 0, taken at 100 and answered at 100 there, back at 200 here: 100 sixteenths. -/
theorem test_stamp : ((after (.stamp 0 (stampBody 0 5 0 0 0)) (onLink0 host {})).link 0).ctlQ.length = 1
    ∧ ((after (.stamp 0 (stampBody 0 0 100 100 200)) (onLink0 host {})).link 0).exch = [100]
    ∧ ((after (.stamp 0 (stampBody 63 0 100 100 200)) (onLink0 host { exch := List.replicate 63 90 })).link 0).delay = some 90
    ∧ after (.stamp 1 []) (onLink0 host {}) = onLink0 host {} := by decide +kernel

/-! Links, transfers, arbiters and the watchdog. -/

/-- A frame to be kept, of class 1. -/
def frame1 (seq : Nat) : Frame := { cls := 1, seq := seq, payload := [5] }

/-- Out entries that are frames. -/
def framesOut (s : State) : List (List Byte) := (s.out.filter (fun o => o.kind == 7)).map (fun o => slice o.data 0 8)

/-- R273 to R276: a replayed frame first, then IDLE at 64 kept, CONTROL, DATA, IDLE. -/
theorem test_frame_send :
    framesOut (after (.frameSend 0) (onLink0 host { kept := [frame1 3], resend := [frame1 3] })) = [[1, 1, 3, 0, 255, 255, 0, 1]]
    ∧ framesOut (after (.frameSend 0) (onLink0 host { kept := (List.range 64).map frame1, ctlQ := [[4]] })) = [[0, 0, 0, 0, 255, 255, 0, 0]]
    ∧ framesOut (after (.frameSend 0) (onLink0 host { kept := (List.range 63).map frame1, ctlQ := [[4]], txSeq := 63 })) = [[2, 0, 63, 0, 255, 255, 0, 1]]
    ∧ framesOut (after (.frameSend 0) (onLink0 host {})) = [[0, 0, 0, 0, 255, 255, 0, 0]]
    ∧ after (.frameSend 1) (onLink0 host {}) = onLink0 host {} := by decide +kernel
/-- R274: 600 bytes of class 2 waiting: 512 go, under sequence number 7, and a reserved credit is taken. -/
theorem test_frame_data :
    readyClasses ((onLink0 host { streams := [[], [], List.replicate 600 9, []] }).link 0) = [2]
    ∧ (arbRound (onLink0 host { streams := [[], [], List.replicate 600 9, []] }) 4 0 [2]).2 = [2]
    ∧ framesOut (after (.frameSend 0) (onLink0 host { txSeq := 7, streams := [[], [], List.replicate 600 9, []] })) = [[1, 2, 7, 0, 255, 255, 0, 16]]
    ∧ ((after (.frameSend 0) (onLink0 host { txSeq := 7, streams := [[], [], List.replicate 600 9, []] })).link 0).credits = [4, 4, 3, 4]
    ∧ ((((after (.frameSend 0) (onLink0 host { txSeq := 7, streams := [[], [], List.replicate 600 9, []] })).link 0).streams.getD 2 []).length) = 88 := by
  decide +kernel

/-- A DATA frame of class 1 with one word, a transfer header, and its CRC-32 worked out apart from the model. -/
def rxFrame (seq crc : Nat) : List Byte :=
  leBytes 2 0x101 ++ leBytes 2 seq ++ leBytes 2 0xFFFF ++ leBytes 2 0x100 ++ leBytes 8 0 ++ leBytes 512 1 ++ leBytes 4 crc

theorem test_frame_ok : frameOk (rxFrame 0 0x81CF11C3) = true ∧ frameOk (rxFrame 0 (0x81CF11C3 + 1)) = false ∧ frameOk (rxFrame 1 0x575C0148) = true
    ∧ frameOk (leBytes 4 3 ++ leBytes 4 0xFFFF ++ leBytes 520 0 ++ leBytes 4 0xA18E8294) = false := by decide +kernel
theorem test_frame_receive :
    ((after (.frameReceive 0 (rxFrame 0 0x81CF11C3) false false) (onLink0 host {})).link 0).rxSeq = 0
    ∧ ((after (.frameReceive 0 (rxFrame 0 0x81CF11C3) false false) (onLink0 host {})).link 0).rxStreams = [[], [], [], []]
    ∧ ((after (.frameReceive 0 (rxFrame 0 0x81CF11C3) false false) (onLink0 host {})).link 0).giveBack = [0, 1, 0, 0] := by decide +kernel
theorem test_frame_refused :
    ((after (.frameReceive 0 (rxFrame 0 (0x81CF11C3 + 1)) false false) (onLink0 host {})).link 0).nak = true
    ∧ (after (.frameReceive 0 (rxFrame 0 0x81CF11C3) false true) (onLink0 host {})).counter Ctr.crcErrors 0 = 1
    ∧ ((after (.frameReceive 0 (rxFrame 1 0x575C0148) false false) (onLink0 host {})).link 0).rxSeq = 65535
    ∧ after (.frameReceive 1 [] false false) (onLink0 host {}) = onLink0 host {} := by decide +kernel
/-- R271: a codeword spans frames. The frames an uncorrectable one ends in fail, and it counts once. -/
theorem test_codeword :
    (after (.frameReceive 0 (rxFrame 0 0x81CF11C3) false false) (after (.frameReceive 0 [] false true) (onLink0 host {}))).counter Ctr.fecUncorrectable 0 = 1
    ∧ (after (.frameReceive 0 (rxFrame 0 0x81CF11C3) false false) (after (.frameReceive 0 [] false true) (onLink0 host {}))).counter Ctr.crcErrors 0 = 2
    ∧ (after (.frameReceive 0 (rxFrame 0 0x81CF11C3) true false) (onLink0 host {})).counter Ctr.fecCorrected 0 = 1 := by decide +kernel
theorem test_replay_timeout :
    ((after (.replayTimeout 0) (onLink0 host { kept := [{ frame1 3 with replays := 7 }] })).link 0).resend = [{ frame1 3 with replays := 7 }]
    ∧ ((after (.replayTimeout 0) (onLink0 host { kept := [{ frame1 3 with replays := 8 }] })).link 0).state = 1
    ∧ after (.replayTimeout 1) (onLink0 host {}) = onLink0 host {} := by decide +kernel
theorem test_lane_signal_loss : ((after (.laneSignalLoss 0 1) (onLink0 host {})).link 0).laneLost = 2
    ∧ ((after (.laneSignalLoss 0 0) (onLink0 host {})).link 0).state = 1
    ∧ after (.laneSignalLoss 0 2) (onLink0 host {}) = onLink0 host {} := by decide +kernel

/-- A link that trains. -/
def training (k : Link) : State := { ready with links := [(5, { k with state := 1 })] }

theorem test_link_retrain : ((after (.linkRetrain 5 true true) (training {})).link 5).width = 2
    ∧ ((after (.linkRetrain 5 false true) (training { kept := [frame1 3] })).link 5).width = 1
    ∧ ((after (.linkRetrain 5 false true) (training { kept := [frame1 3] })).link 5).resend = [frame1 3]
    ∧ ((after (.linkRetrain 5 false false) (training { kept := [frame1 3] })).link 5).kept = []
    ∧ (after (.linkRetrain 5 false false) (training {})).counter Ctr.linkDowns 5 = 1
    ∧ after (.linkRetrain 4 true true) (training {}) = training {} := by decide +kernel
theorem test_link_down_retry : linkClock { ready with pins := { ready.pins with refSer := 3 } } 95 = true
    ∧ ((after (.linkDownRetry 95) { ready with pins := { ready.pins with refSer := 3 } }).link 95).state = 1
    ∧ after (.linkDownRetry 96) { ready with pins := { ready.pins with refSer := 3 } } = { ready with pins := { ready.pins with refSer := 3 } }
    ∧ after (.linkDownRetry 95) { ready with pins := { ready.pins with refSer := 1 } } = { ready with pins := { ready.pins with refSer := 1 } } := by
  decide +kernel
theorem test_link_state : ((after (.linkState 0 1 2) (onLink0 host {})).link 0).peerReason = 2
    ∧ after (.linkState 5 1 2) (training {}) = training {} := by decide +kernel

/-- Rank 1 of three, with a route over link 0 to rank 2. -/
def routed : State :=
  { onLink0 (inGroup 1 3 [0, 1, 2]) { isGroup := true, peerRank := 2 } with routes := [{ rank := 2, hops := 1, state := 2, next := 2, links := [0] }] }

/-- Class 3's stream on link 0. -/
def out3 (s : State) : List Byte := (s.link 0).streams.getD 3 []

theorem test_transfer_forward : (routeTo routed 2).isSome = true ∧ pickLink routed ((routeTo routed 2).getD {}) 3 = some 0
    ∧ hdrClass { op := 3, dest := 2, length := 32 } = 3 ∧ (out3 (after (.transferForward { op := 3, dest := 2, length := 32 } (leBytes 32 9)) routed)).length = 64
    ∧ after (.transferForward { dest := 1 } []) routed = routed
    ∧ after (.transferForward { op := 3, dest := 0 } []) routed = routed.bump Ctr.routeUnreachable 0 1
    ∧ sendOn routed 3 { op := 3, dest := 0 } [] = none := by decide +kernel
/-- R281: a bundle of two links toward rank 2: in turn, and past one that is not up. -/
theorem test_turns :
    let s := { routed with links := [(0, { state := 2, isGroup := true, peerRank := 2 }), (1, { state := 2, isGroup := true, peerRank := 2 })]
                           routes := [{ rank := 2, hops := 1, state := 2, next := 2, links := [0, 1] }] }
    let fwd := fun (s : State) => after (.transferForward { op := 3, dest := 2, length := 32 } (leBytes 32 9)) s
    let sent := fun (s : State) (l : Nat) => ((s.link l).streams.getD 3 []).length
    sent (fwd s) 0 = 64 ∧ sent (fwd s) 1 = 0 ∧ look 2 (fwd s).turns = some 0
    ∧ sent (fwd (fwd s)) 0 = 64 ∧ sent (fwd (fwd s)) 1 = 64 ∧ look 2 (fwd (fwd s)).turns = some 1 := by decide +kernel

/-- R259, R280: for another rank; of an older epoch. -/
theorem test_transfer_not_taken : after (.readTransfer { op := 1, dest := 2 }) routed = routed
    ∧ after (.writeTransfer { op := 3, dest := 1, epoch := 0 } []) routed = routed.bump Ctr.fencedDrops 0 1
    ∧ after (.ack { op := 5, dest := 2 }) routed = routed ∧ after (.add { op := 4, dest := 2 } []) routed = routed := by decide +kernel

/-- A header from rank 2 for this device, in the view's epoch. -/
def fromTwo (op space len addr : Nat) : Hdr := { op := op, space := space, length := len, dest := 1, src := 2, address := addr, epoch := 1 }

theorem test_mgmt : after (.mgmt (fromTwo 0x0B 0 9 0) (3#8 :: leBytes 8 70)) routed = after (.decision 2 70) routed
    ∧ after (.mgmt (fromTwo 0x0B 0 1 0) [4]) routed = after (.abort 2) routed := by decide +kernel
/-- R259: of a rank outside the view nothing is heeded. -/
theorem test_mgmt_outside :
    let s := { routed with group := { routed.group with view := [0, 1] } }
    let drop := s.bump Ctr.fencedDrops 0 1
    after (.mgmt (fromTwo 0x0B 0 1 0) [4]) s = drop ∧ after (.abort 2) s = drop ∧ after (.decision 2 7) s = drop
    ∧ after (.prepare 2 [] 0) s = drop ∧ after (.readyReply 2 eOk) s = drop := by decide +kernel

theorem test_mgmt_view :
    ((after (.mgmt (fromTwo 0x0B 0 146 (146 * 2 ^ 24)) (5#8 :: viewBody { epoch := 2, ranks := [1, 2], keeper := 2, beat := 60 })) routed).group.next.map
      (fun v => (v.epoch, v.ranks, v.keeper, v.beat, v.hold))) = some (2, [1, 2], 2, 60, false) := by decide +kernel

/-- A READ of n bytes from rank 2. -/
def readOf (space addr n : Nat) : Hdr := { fromTwo 1 space 0 addr with reqLength := n }

/-- Space 1: the last 32 bytes of the shelf of core 127, and one byte further. -/
theorem test_read_transfer : shelfAt (127 * 2 ^ 56 + 12582880) 32 = some (127, 12582880) ∧ shelfAt (127 * 2 ^ 56 + 12582881) 32 = none
    ∧ shelfAt (128 * 2 ^ 56) 32 = none ∧ (out3 (after (.readTransfer (readOf 1 (127 * 2 ^ 56 + 12582880) 32)) routed)).length = 64
    ∧ (out3 (after (.readTransfer (readOf 1 (127 * 2 ^ 56 + 12582881) 32)) routed)).length = 32
    ∧ (out3 (after (.readTransfer (readOf 0 0 32)) routed)).length = 32 := by decide +kernel

/-- The same device with page 0 LOCAL and WRITABLE. -/
def routed1 : State := { routed with mem := { xlate := [(0, (1, 1, 0, 0, 0))], filled := [0], ddr := memWrite [] 0 [6] } }

theorem test_read_transfer_local : allLocal routed1 0 32 false = true ∧ ddrRead routed1 (localAt routed1 0) 32 = some (leBytes 32 6)
    ∧ slice (out3 (after (.readTransfer (readOf 0 0 32)) routed1)) 32 32 = leBytes 32 6 := by decide +kernel
theorem test_write_transfer : memRead (after (.writeTransfer (fromTwo 3 1 32 64) (leBytes 32 9)) routed1).mem.shelf 64 32 = leBytes 32 9
    ∧ memRead (after (.writeTransfer (fromTwo 3 0 32 64) (leBytes 32 9)) routed1).mem.ddr 64 32 = leBytes 32 9
    ∧ (after (.writeTransfer (fromTwo 3 0 32 2097152) (leBytes 32 9)) routed1).mem = routed1.mem
    ∧ (out3 (after (.writeTransfer (fromTwo 3 0 32 2097152) (leBytes 32 9)) routed1)).length = 32 := by decide +kernel
/-- R284: 1.0 twice; an address that is no multiple of 4 takes none. -/
theorem test_add : (shelfAdd routed1 0 64 [0x3F800000]).2 = true
    ∧ memRead (after (.add (fromTwo 4 1 4 64) (leBytes 4 0x3F800000)) (after (.add (fromTwo 4 1 4 64) (leBytes 4 0x3F800000)) routed1)).mem.shelf 64 4
      = leBytes 4 0x40000000
    ∧ (after (.add (fromTwo 4 1 4 66) (leBytes 4 0x3F800000)) routed1).counter Ctr.addRefused 0 = 1
    ∧ (after (.add (fromTwo 4 1 4 66) (leBytes 4 0x3F800000)) routed1).mem = routed1.mem := by decide +kernel
/-- R305: of bursts that DDR makes wait; R233: in no view all are refused. -/
theorem test_remote_waits :
    let s := { routed1 with chans := [(0, { training := true })] }
    let f := { routed1 with group := { routed1.group with state := 4, view := [] } }
    rangeBusy s 0 32 false = true ∧ (after (.readTransfer (readOf 0 0 32)) s).linkWait = [({ readOf 0 0 32 with op := 1 }, [])]
    ∧ (after (.writeTransfer (fromTwo 3 0 32 64) (leBytes 32 9)) s).linkWait = [(fromTwo 3 0 32 64, leBytes 32 9)]
    ∧ (after (.add (fromTwo 4 0 4 64) (leBytes 4 1)) s).linkWait = [(fromTwo 4 0 4 64, leBytes 4 1)]
    ∧ inView f = false ∧ (after (.writeTransfer (fromTwo 3 1 32 64) (leBytes 32 9)) f).mem = f.mem
    ∧ (after (.add (fromTwo 4 1 4 64) (leBytes 4 1)) f).counter Ctr.addRefused 0 = 1
    ∧ (after (.add (fromTwo 4 0 4 2097152) (leBytes 4 1)) routed1).counter Ctr.addRefused 0 = 1 := by decide +kernel

theorem test_ack : writeOwner { routed with cores := [(3, { writes := [{ id := 6, kind := 2 }] })] } 6 = some (3, { id := 6, kind := 2 })
    ∧ ((after (.ack { fromTwo 5 0 0 0 with tag := 6 }) { routed with cores := [(3, { writes := [{ id := 6, kind := 2 }] })] }).core 3).writes = [] := by
  decide +kernel
theorem test_read_data : gotSlice routed (fromTwo 2 0 32 0) (leBytes 32 9) = none ∧ gotChunk routed (fromTwo 2 0 32 0) (leBytes 32 9) = none
    ∧ gotRot routed (fromTwo 2 0 32 0) (leBytes 32 9) = none
    ∧ (after (.readData { fromTwo 2 0 32 0 with tag := 4 } (leBytes 32 9)) { routed with xfers := [{ id := 4, kind := 2, len := 32 }] }).xfers = [] := by
  decide +kernel

/-- R374: the lowest class wins at reset; the winner goes last, the loser waits one. -/
theorem test_arbiter_round : (arbRound ready 4 7 [1, 3]).2 = [1] ∧ keyNum ready 0x0714 ≠ 1
    ∧ ((after (.arbiterRound 4 7 [1, 3]) ready).arb 4 7).order = [0, 2, 3, 1]
    ∧ (look 3 ((after (.arbiterRound 4 7 [1, 3]) ready).arb 4 7).wait) = some 1
    ∧ after (.arbiterRound 4 96 [1]) ready = ready ∧ arbInstances 4 = 96 ∧ arbInstances 0 = 16384 := by decide +kernel

/-- A core whose run has a record in flight, its last progress at 0. -/
def stuck (now : Nat) (bites : List Nat) : State :=
  { finished false with now := now, cores := [(0, { bites := bites })], mem := { cellar := memWrite [] 0 [7] } }

/-- R378, R412: at WATCHDOG_US without progress the core is bitten, not 1 ns before; the third time it is retired. -/
theorem test_watchdog_core : coreIdle (stuck 5 []) 0 = false
    ∧ ((after (.watchdogCheck 0 0 false false) (stuck (watchdogCc ready) [])).core 0).outOfService = true
    ∧ after (.watchdogCheck 0 0 false false) (stuck (watchdogCc ready - 1) []) = stuck (watchdogCc ready - 1) []
    ∧ (after (.watchdogCheck 0 0 false false) (stuck (watchdogCc ready) [])).mem.cellar = []
    ∧ ((after (.watchdogCheck 0 0 false false) (stuck (watchdogCc ready) [0, 0])).core 0).retired = true
    ∧ ((after (.watchdogCheck 0 0 true false) (stuck 5 [])).core 0).lastProgress = 5 := by decide +kernel
/-- R379: a core whose one record is a WAIT_BEAT whose beat has not come is not bitten. -/
theorem test_watchdog_excused :
    let s := { waitingBeat 6 with now := watchdogCc ready, cores := [(0, {})] }
    coreIdle s 0 = false ∧ coreExcused s 0 = true ∧ coreExcused (stuck 5 []) 0 = false
    ∧ ((after (.watchdogCheck 0 0 false false) s).core 0).outOfService = false := by decide +kernel

theorem test_watchdog_segment : ((after (.watchdogCheck 1 21 false false) { ready with now := watchdogCc ready }).seg 21).outOfService = true
    ∧ ((after (.watchdogCheck 1 21 true false) { ready with now := 5 }).seg 21).lastProgress = 5 := by decide +kernel
theorem test_back_in_service :
    ((after (.backInService 0 3) { ready with cores := [(3, { outOfService := true })] }).core 3).outOfService = false
    ∧ after (.backInService 0 3) { ready with cores := [(3, { outOfService := true, retired := true })] }
      = { ready with cores := [(3, { outOfService := true, retired := true })] }
    ∧ ((after (.backInService 1 3) { ready with segs := [(3, { outOfService := true })] }).seg 3).outOfService = false := by decide +kernel

/-! DDR channels. -/

/-- A channel 0 with an entry at its head; frame 0 is filled and its first burst holds 7, 0, ... . -/
def burst (c : Chan) (op addr len : Nat) (d : List Byte) : State :=
  { host with chans := [(0, { c with queue := [{ id := 5, op := op, addr := addr, len := len, data := d }] })]
              mem := { filled := [0], ddr := memWrite [] 0 [7] } }

/-- The replies of channel 0. -/
def replies0 (s : State) : List (Nat × Option (List Byte)) := (s.chan 0).replies

/-- R302: 98,304 is the first address of channel 0 after the first 4,096. -/
theorem test_queue_entry : sessionOpen host = true ∧ chanOf 98304 = 0 ∧ chanOf 4096 = 1 ∧ chanOf 98303 = 23
    ∧ (((after (.ddrQueueEntry 0 2 1 98304 64 (leBytes 64 1)) host).chan 0).queue.map (fun e => (e.addr, e.len, e.requester))) = [(98304, 64, 2)]
    ∧ after (.ddrQueueEntry 0 2 1 4096 64 []) host = host ∧ after (.ddrQueueEntry 0 2 1 1 64 []) host = host
    ∧ ((after (.ddrQueueEntry 0 2 1 63 1 []) host).chan 0).queue.length = 1 := by decide +kernel
theorem test_burst_read : headEntry (burst {} 0 0 8 []) 0 0 = some { id := 5, len := 8 }
    ∧ replies0 (after (.burstRead 0 [] 0) (burst {} 0 0 8 [])) = [(5, some (leBytes 8 7))]
    ∧ (after (.burstRead 0 [] 0) (burst {} 0 0 8 [])).counter Ctr.bytesRead 0 = 64
    ∧ replies0 (after (.burstRead 0 [] 0) (burst {} 0 2097152 8 [])) = [(5, some (leBytes 8 0))]
    ∧ replies0 (after (.burstRead 0 [] 0) (burst { lost := true } 0 0 8 [])) = [(5, none)]
    ∧ after (.burstRead 0 [] 0) (burst {} 1 0 8 []) = burst {} 1 0 8 [] := by decide +kernel
/-- R307: one device in error is corrected, whatever burst and rank it lies in; two poison the burst. -/
theorem test_burst_corrects : (correct [] [3] 0) = (1, some 3) ∧ (correct [] [3, 4] 0).1 = 2 ∧ (correct [3] [3] 4).1 = 1
    ∧ (correct [3] [3] 5).1 = 2 ∧ (correct [] [] 0) = (0, none)
    ∧ replies0 (after (.burstRead 0 [3, 4] 0) (burst {} 0 0 8 [])) = [(5, none)]
    ∧ (after (.burstRead 0 [3, 4] 0) (burst {} 0 0 8 [])).mem.ddrPoison = [0] := by decide +kernel
theorem test_burst_poisoned :
    replies0 (after (.burstRead 0 [] 0) { burst {} 0 0 8 [] with mem := { filled := [0], ddrPoison := [0] } }) = [(5, none)] := by decide +kernel
theorem test_burst_write : headEntry (burst {} 1 0 64 (leBytes 64 9)) 0 1 ≠ none ∧ memWf 0 (burst {} 1 0 64 []).mem.ddr = true
    ∧ memRead (after (.burstWrite 0 [] 0) (burst {} 1 0 64 (leBytes 64 9))).mem.ddr 0 65 = leBytes 65 9
    ∧ (after (.burstWrite 0 [] 0) { burst {} 1 0 64 (leBytes 64 9) with mem := { filled := [0], ddrPoison := [0] } }).mem.ddrPoison = []
    ∧ replies0 (after (.burstWrite 0 [] 0) { burst {} 1 0 63 (leBytes 63 9) with mem := { filled := [0], ddrPoison := [0] } }) = [(5, none)]
    ∧ after (.burstWrite 0 [] 0) (burst {} 0 0 64 []) = burst {} 0 0 64 [] := by decide +kernel
/-- R306: 1.0 and 1.0. -/
theorem test_atomic_add : headEntry (burst {} 2 64 4 (leBytes 4 0x3F800000)) 0 2 ≠ none
    ∧ memRead (after (.atomicAddBurst 0 [] 0) { burst {} 2 64 4 (leBytes 4 0x3F800000) with
        mem := { filled := [0], ddr := memWrite [] 64 (leBytes 4 0x3F800000) } }).mem.ddr 64 4 = leBytes 4 0x40000000
    ∧ replies0 (after (.atomicAddBurst 0 [] 0) (burst {} 2 64 4 (leBytes 4 0x3F800000))) = [(5, some [])]
    ∧ replies0 (after (.atomicAddBurst 0 [] 0) { burst {} 2 64 4 [] with mem := { filled := [0], ddrPoison := [1] } }) = [(5, none)] := by
  decide +kernel
/-- R312: the substitution, and the block, of the worked examples of FIPS 197 (its 5.1.1 and C.3). A burst is stored as 64 bytes,
under the session's keys; without a session there is none to read. -/
theorem test_xts : subByte 0x53 = 0xED ∧ subByte 0 = 0x63
    ∧ aes (List.range 32) ((List.range 16).map (fun i => 17 * i))
      = [0x8E, 0xA2, 0xB7, 0xCA, 0x51, 0x67, 0x45, 0xBF, 0xEA, 0xFC, 0x49, 0x90, 0x4B, 0x49, 0x60, 0x89]
    ∧ (dramBurst { host with mem := { filled := [0] }, trust := { session := some { k1 := leBytes 32 1, k2 := leBytes 32 2 } } } 3).map List.length = some 64
    ∧ dramBurst { ready with mem := { filled := [0] } } 3 = none := by decide +kernel

theorem test_fresh_fill : wholeFrames = 1464843
    ∧ (after (.freshFill 1) { host with mem := { ddr := memWrite [] 2097151 [1, 2], ddrPoison := [32768, 32767] } }).mem.ddr = [(2097151, 1)]
    ∧ (after (.freshFill 1) { host with mem := { ddr := memWrite [] 2097151 [1, 2], ddrPoison := [32768, 32767] } }).mem.ddrPoison = [32767]
    ∧ after (.freshFill 0) (burst {} 0 0 8 []) = burst {} 0 0 8 [] ∧ after (.freshFill 0) ready = ready
    ∧ after (.freshFill 1464843) host = host := by decide +kernel
theorem test_scrub : ((after (.scrub 0 [] 0) ready).chan 0).scrubAt = 1
    ∧ ((after (.scrub 0 [] 0) { ready with chans := [(0, { scrubAt := 1999999999 })] }).chan 0).scrubAt = 0
    ∧ (after (.scrub 0 [] 0) { ready with chans := [(0, { scrubAt := 1999999999 })] }).counter Ctr.scrubPasses 0 = 1
    ∧ (after (.scrub 0 [1, 2] 0) ready).mem.ddrPoison = [0] ∧ chanBurst 0 64 = 1536
    ∧ ((after (.scrub 0 [] 0) { ready with mem := { ddrPoison := [0] } }).chan 0).scrubAt = 1
    ∧ after (.scrub 24 [] 0) ready = ready := by decide +kernel
theorem test_link_retry : ((after (.linkRetry 0) ready).chan 0).retries = 1
    ∧ ((after (.linkRetry 0) { ready with chans := [(0, { retries := 7 })] }).chan 0).training = false
    ∧ ((after (.linkRetry 0) { ready with chans := [(0, { retries := 8 })] }).chan 0).training = true
    ∧ after (.linkRetry 0) { ready with chans := [(0, { lost := true })] } = { ready with chans := [(0, { lost := true })] } := by decide +kernel
theorem test_channel_retrain :
    ((after (.channelRetrain 0 true) { ready with chans := [(0, { training := true, retries := 8 })] }).chan 0) = {}
    ∧ ((after (.channelRetrain 0 false) { ready with chans := [(0, { training := true, retries := 8 })] }).chan 0).lost = true
    ∧ after (.channelRetrain 24 true) ready = ready := by decide +kernel

/-- R311: while a channel retrains nothing is retried, filled or zeroed. -/
theorem test_training_waits :
    let s := { host with chans := [(0, { training := true })] }
    let z := { s with mem := { zeroing := true, ddr := memWrite [] 5 [1] } }
    anyTraining s = true ∧ after (.linkRetry 0) s = s ∧ after (.freshFill 1) s = s ∧ after .backgroundZeroing z = z := by decide +kernel

/-- Background zeroing at its first or last frame. -/
def zeroing (at_ : Nat) (filled : List Nat) : State :=
  { ready with mem := { zeroing := true, zeroAt := at_, filled := filled, ddr := memWrite [] 2097151 [1, 2] } }

theorem test_zeroing : (after .backgroundZeroing (zeroing 0 [])).mem.ddr = [(2097152, 2)] ∧ (after .backgroundZeroing (zeroing 0 [])).mem.zeroAt = 32768
    ∧ (after .backgroundZeroing (zeroing 0 [0])).mem.ddr = [(2097151, 1), (2097152, 2)]
    ∧ after .backgroundZeroing ready = ready := by decide +kernel
theorem test_zeroing_ends : ddrBursts = 48000000000 ∧ (after .backgroundZeroing (zeroing 47999991808 [])).mem.zeroing = false := by decide +kernel

/-! Ethernet. -/

/-- Sub-port 0 of the host's queue pair with a MAC address and the IPv4 address 10.0.0.1. -/
def netted : State :=
  { host with pins := { host.pins with subports := (List.replicate 16 (List.replicate 32 0)).set 0 (patch (patch (List.replicate 32 0) 0x1C [3]) 8 [10, 0, 0, 1])
                                       refSer := 255 } }

/-- The queue pair 0 of a state. -/
def qpOf0 (s : State) : Qp := (s.qp 0).getD {}

/-- A write of one slot into the window at its first byte. -/
def write1 (psn : Nat) : RocePacket := { op := 1, psn := psn, dmaLen := 256, rkey := 7, data := slotOf1 9 }

theorem test_roce_write : portIp netted 0 = true ∧ macsecOn netted 0 = false ∧ windowOk qp0 0 7 256 = true
    ∧ memRead (after (.rocePacket 0 (write1 0)) netted).mem.window 0 2 = [9, 9] ∧ (qpOf0 (after (.rocePacket 0 (write1 0)) netted)).epsn = 1
    ∧ (qpOf0 (after (.rocePacket 0 { write1 0 with rkey := 8 }) netted)).phase = 3
    ∧ (after (.rocePacket 0 (write1 5)) netted).mem.window = [] ∧ 2 ^ 23 ≤ psnDiff 5 0 ∧ psnDiff 16777215 0 = 1
    ∧ after (.rocePacket 1 (write1 0)) netted = netted := by decide +kernel
theorem test_roce_dropped : (after (.rocePacket 0 { write1 0 with icrcOk := false }) netted).counter Ctr.icrcErrors 0 = 1
    ∧ macsecOk { netted with keys := [(0x0520, [1])] } 0 false 0 = false
    ∧ (after (.rocePacket 0 (write1 0)) { netted with keys := [(0x0520, [1])] }).counter Ctr.macsecDrops 0 = 1 := by decide +kernel

/-- The same with messages of numbers 0 to 2 and 3 not acknowledged, retried r times. -/
def unacked (r : Nat) : State :=
  { netted with qps := [(0, { qp0 with unacked := [(0, 3, { kind := 0 }), (3, 1, { kind := 0 })], retries := r })] }

theorem test_roce_ack : ((qpOf0 (after (.rocePacket 0 { op := 5, psn := 2 }) (unacked 0))).unacked.map (fun m => m.1)) = [3]
    ∧ ((qpOf0 (after (.rocePacket 0 { op := 5, psn := 1 }) (unacked 0))).unacked.map (fun m => m.1)) = [0, 3] := by decide +kernel
/-- R326: a message acknowledged in part keeps its place, and the packets acknowledged are skipped; R325: a host's NAKed operation. -/
theorem test_left_of : (leftOf 0 (0, 3, {})).map (fun m => (m.1, m.2.1, m.2.2.skip)) = some (0, 3, 1)
    ∧ (leftOf 2 (0, 3, {})).isNone = true ∧ (leftOf 16777215 (0, 3, {})).map (fun m => m.2.2.skip) = some 0
    ∧ (qpOf0 (after (.rocePacket 0 { op := 2, psn := 0 }) netted)).phase = 3 := by decide +kernel

theorem test_ack_timeout : (qpOf0 (after (.ackTimeout 0) (unacked 6))).retries = 7 ∧ (qpOf0 (after (.ackTimeout 0) (unacked 7))).phase = 3
    ∧ after (.ackTimeout 0) netted = netted := by decide +kernel
/-- R324: sub-port 4 of port 1. -/
theorem test_port_up : portExists netted 4 = true ∧ bit netted.pins.refSer 1 = true
    ∧ ((after (.portUp 4) { netted with pins := { netted.pins with subports := netted.pins.subports.set 4 (patch (List.replicate 32 0) 0x1C [1]) } }).port 4).up = true
    ∧ after (.portUp 4) netted = netted ∧ after (.portUp 16) netted = netted := by decide +kernel
theorem test_port_down : ((after (.portDown 0) netted).port 0).up = false ∧ after (.portDown 1) netted = netted := by decide +kernel
/-- R324, Table 12.2: 9,216 bytes pass, 9,217 do not. -/
theorem test_eth_frame : ownIp netted 0 [10, 0, 0, 1] = true ∧ vlanOk netted 0 none = true ∧ vlanOk netted 0 (some 5) = false
    ∧ (after (.ethFrameReceive 0 { len := 64, kind := 0, ip := [10, 0, 0, 1] }) netted).out.length = netted.out.length + 1
    ∧ (after (.ethFrameReceive 0 { len := 9217, kind := 0, ip := [10, 0, 0, 1] }) netted).counter Ctr.rxOversize 0 = 1
    ∧ (after (.ethFrameReceive 0 { len := 9216, kind := 4 }) netted).counter Ctr.rxUnsupported 0 = 1
    ∧ after (.ethFrameReceive 0 { len := 64, kind := 0, vlan := some 5 }) netted = netted.bump Ctr.rxBytes 0 64
    ∧ after (.ethFrameReceive 1 {}) netted = netted := by decide +kernel
/-- R339: 1,000 quanta of 512 bit times at 400 Gbit/s are 1,280 ns. -/
theorem test_pause : keyNum netted 0x0510 = 3 ∧ ((after (.pauseFrame 0 3 1000) netted).port 0).pausedUntil = 1280
    ∧ ((after (.pauseFrame 0 3 0) { netted with ports := [(0, { up := true, pausedSince := some 0, pausedUntil := 5 })] }).port 0).pausedSince = none
    ∧ after (.pauseFrame 0 2 1000) netted = netted := by decide +kernel
theorem test_pfc_storm :
    ((after (.pfcStorm 0) { netted with ports := [(0, { up := true, pausedSince := some 0 })] }).port 0).stormUntil = some 1000000000
    ∧ after (.pfcStorm 0) netted = netted
    ∧ ((after (.pfcStormEnd 0) { netted with ports := [(0, { up := true, stormUntil := some 5 })] }).port 0).stormUntil = none := by decide +kernel

/-- The queue pair at 100 Gbit/s with α at its greatest, last cut at a time, in cc 50,000. -/
def slowed (cut : Option Nat) (steps : Nat) : State :=
  { netted with now := 50000, qps := [(0, { qp0 with rate := 100000000, target := 200000000, alpha := 65536, lastCut := cut, steps := steps })] }

/-- R340, Table 12.7: half the rate; 50 µs after the last cut, not before. -/
theorem test_cnp : (qpOf0 (after (.cnp 0) (slowed none 0))).rate = 50000000 ∧ (qpOf0 (after (.cnp 0) (slowed none 0))).target = 100000000
    ∧ (qpOf0 (after (.cnp 0) (slowed (some 0) 0))).rate = 50000000 ∧ (qpOf0 (after (.cnp 0) (slowed (some 1) 0))).rate = 100000000
    ∧ (qpOf0 (after (.cnp 0) (slowed none 3))).steps = 0
    ∧ after (.cnp 0) { netted with qps := [(0, { qp0 with phase := 3 })] } = { netted with qps := [(0, { qp0 with phase := 3 })] } := by decide +kernel
theorem test_rate_recovery : (qpOf0 (after (.rateRecovery 0) (slowed none 4))).rate = 150000000
    ∧ (qpOf0 (after (.rateRecovery 0) (slowed none 4))).alpha = 65280
    ∧ (qpOf0 (after (.rateRecovery 0) (slowed none 5))).target = 200040000
    ∧ after (.rateRecovery 1) (slowed none 4) = slowed none 4 := by decide +kernel
/-- R341: the policy of sub-port 0 requires MACsec and a CAK is set. -/
theorem test_mka : keyVal { netted with keys := [(0x0520, [1]), (0x0530, [5])] } 0x0530 = some [5]
    ∧ ((after (.mka 0 (some [8])) { netted with keys := [(0x0520, [1]), (0x0530, [5])] }).port 0).sak = some [8]
    ∧ after (.mka 0 none) { netted with keys := [(0x0520, [1])] } = postEvent { netted with keys := [(0x0520, [1])] } 0x34 (items [0])
    ∧ after (.mka 0 (some [8])) netted = netted := by decide +kernel

/-- A keeper on PTP whose last fifteen updates were good; port 0 has PTP enabled. -/
def timed : State :=
  { netted with keys := [(0x0540, [1])], group := { grp 0 3 [0] with source := 1, ptpPorts := 1 }, beat := { good := 15 } }

/-- R343, R245: 1,000 ns from the prediction are taken, 1,001 are not; 100 ns of offset lock. -/
theorem test_ptp : (after (.ptpTimeUpdate 0 0 100 (-900) true true) timed).beat.sourceLocked = true
    ∧ (after (.ptpTimeUpdate 0 0 101 0 true true) timed).beat.sourceLocked = false
    ∧ (after (.ptpTimeUpdate 0 0 100 (-901) true true) timed).ptp.offset = 0
    ∧ (after (.ptpTimeUpdate 0 0 100 (-901) true true) timed).counter Ctr.ptpOutliers 0 = 1
    ∧ after (.ptpTimeUpdate 0 0 100 0 true true) netted = netted := by decide +kernel

/-! Health. -/

/-- A coffer with one entry formed for a part. -/
def formed (part used : Nat) (deg : List Nat) : State :=
  { ready with coffer := { queue := [{ seq := 7, kind := 2, part := part }], journalUsed := used, degraded := deg } }

theorem test_coffer_write :
    ((after (.cofferWrite true true) (formed 1 5 [])).coffer.copy0.map (fun e => (e.1, e.2.seq))) = [(69, 7)]
    ∧ ((after (.cofferWrite true true) (formed 2 5 [])).coffer.copy1.map (fun e => (e.1, e.2.seq))) = [(64 + 196608, 7)]
    ∧ (after (.cofferWrite false true) (formed 1 5 [])).coffer.degraded = [0]
    ∧ (after (.cofferWrite true true) (formed 1 5 [])).coffer.queue = [] ∧ after (.cofferWrite true true) ready = ready := by decide +kernel
/-- R424: the last place of the journal, and the ring for the entry after it. -/
theorem test_coffer_full : journalLen = 196608
    ∧ ((after (.cofferWrite true true) (formed 1 196607 [])).coffer.copy0.map (fun e => e.1)) = [64 + 196607]
    ∧ ((after (.cofferWrite true true) (formed 1 196608 [])).coffer.copy0.map (fun e => (e.1, e.2.part))) = [(64 + 196608, 2)] := by
  decide +kernel
theorem test_hold_up : (after .holdUp { ready with coffer := { queue := [{ seq := 7, part := 1 }, { seq := 8, part := 1 }] } }).coffer.queue = []
    ∧ ((after .holdUp { ready with coffer := { queue := [{ seq := 7, part := 1 }, { seq := 8, part := 1 }] } }).coffer.copy0.map (fun e => e.2.seq)) = [7] := by
  decide +kernel
theorem test_shelf_scrub : ((after (.shelfScrub 127 1) ready).core 127).scrubAt = 1 ∧ (after (.shelfScrub 127 1) ready).mem = ready.mem
    ∧ (after (.shelfScrub 127 2) ready).mem.shelfPoison = [127 * 393216]
    ∧ ((after (.shelfScrub 0 0) { ready with cores := [(0, { scrubAt := 393215 })] }).core 0).scrubAt = 0
    ∧ after (.shelfScrub 128 0) ready = ready := by decide +kernel

/-- A mismatch at a time, the last one at another. -/
def mismatched (now : Nat) (last : Option Nat) : State := { ready with now := now, health := { ready.health with lastMismatch := last } }

/-- R414: 10 s, and 1 ns less. -/
theorem test_lockstep : (after .lockstepMismatch (mismatched 5 none)).health.imionStopped = true
    ∧ (after .lockstepMismatch (mismatched 10000000000 (some 0))).pins.stage = 4
    ∧ (after .lockstepMismatch (mismatched 9999999999 (some 0))).pins.stage = 0xA
    ∧ after .lockstepMismatch { ready with pins := { ready.pins with stage := 1 } } = { ready with pins := { ready.pins with stage := 1 } } := by
  decide +kernel
theorem test_imion_restarted : (after .imionRestarted { ready with health := { ready.health with imionStopped := true } }).health.imionStopped = false
    ∧ (after .imionRestarted { ready with health := { ready.health with imionStopped := true } }).counter Ctr.imionRestarts 0 = 1
    ∧ after .imionRestarted ready = ready
    ∧ orderReady { taken host (ord 2 9 0 0 []) with health := { host.health with imionStopped := true } } 0 1 2 = none := by decide +kernel
/-- R414: the message due goes out on the link toward its rank. -/
theorem test_restart_messages :
    let s := { routed with health := { routed.health with imionStopped := true, dueOut := [{ kind := 4, dest := 2, addr := 4 }] } }
    (after .imionRestarted s).health.dueOut = []
    ∧ ((after .imionRestarted s).link 0).streams ≠ (s.link 0).streams := by decide +kernel

theorem test_power_sample : ((after (.powerSample 300) { ready with health := { ready.health with samples := [100] } }).health.meanMs) = 200
    ∧ (after (.powerSample 300) { ready with health := { ready.health with samples := [100] } }).health.samples = [300, 100]
    ∧ after (.powerSample 300) { ready with pins := { ready.pins with stage := 1 } } = { ready with pins := { ready.pins with stage := 1 } } := by
  decide +kernel
theorem test_budget : shareOut 3 10000 [(0, 2000), (1, 30000)] = [(0, 2000), (1, 8000)]
    ∧ shareOut 3 10000 [(0, 20000), (1, 30000)] = [(0, 5000), (1, 5000)] ∧ allowedPower ready = 1210
    ∧ ((after (.governorBudget [(0, [0, 0, 2000]), (1, [10000, 10000, 10000])] 1000000 210) ready).core 1).budget = 8000
    ∧ ((after (.governorBudget [(0, [0, 0, 2000]), (1, [10000, 10000, 10000])] 1000000 210) ready).core 1).withheld = [10000, 10000, 2000]
    ∧ ((after (.governorBudget [(0, [0, 0, 2000])] 1000000 210) { ready with cores := [(5, { budget := 9 })] }).core 5).budget = 0 := by decide +kernel
theorem test_current_limit : (after (.currentLimit 1451) ready).health.limiting = true ∧ (after (.currentLimit 1450) ready).health.limiting = false
    ∧ (after (.currentLimit 1400) { ready with health := { ready.health with limiting := true } }).health.limiting = true
    ∧ (after (.currentLimit 1399) { ready with health := { ready.health with limiting := true } }).health.limiting = false
    ∧ after (.currentLimit 1451) { ready with pins := { ready.pins with stage := 0 } } = { ready with pins := { ready.pins with stage := 0 } } := by decide +kernel
/-- Table 16.3: 91, 92, 94, 95 and 114 °C. -/
theorem test_thermal : ([91, 92, 94, 95, 114].map fun t => (after (.thermalSample [t, 20]) { ready with health := { ready.health with lth := 1000 } }).health.lth)
      = [1001, 1000, 1000, 999, 999]
    ∧ (after (.thermalSample [91]) ready).health.lth = 1100
    ∧ (after (.thermalSample [95]) { ready with health := { ready.health with lth := 300 } }).health.lth = 300
    ∧ after (.thermalSample []) ready = ready := by decide +kernel

/-- A device whose copies name no image of manufacture. -/
def tripping : State := { ready with trust := {}, coffer := {} }

theorem test_trip : tripping.pins.thermtrip = false ∧ tripping.pins.stby = true
    ∧ (after (.thermalSample [20, 115]) tripping).pins.stage = 0xB ∧ (after (.thermtrip 3) tripping).pins.thermtrip = true
    ∧ after (.thermtrip 3) { ready with pins := { ready.pins with stby := false } } = { ready with pins := { ready.pins with stby := false } } := by
  decide +kernel
/-- R420 to R422: G 15 and V_max 815 leave 30 mV; a slack of 30 ps is none to raise, one of 29 is. -/
theorem test_margin : (after (.marginSample [30, 40]) ready).health.guard = 15 ∧ (after (.marginSample [40, 29]) ready).health.guard = 20
    ∧ (after (.marginTrip 3 9) ready).health.guard = 20 ∧ after (.marginTrip 3 10) ready = ready
    ∧ (after (.marginSample [29]) { ready with now := 999999, health := { ready.health with lastRise := some 0 } }).health.guard = 15
    ∧ (after (.marginSample [29]) { ready with now := 1000000, health := { ready.health with lastRise := some 0 } }).health.guard = 20
    ∧ (after (.marginTrip 3 9) { ready with health := { ready.health with guard := 40 } }).health.guard = 45
    ∧ (after (.marginTrip 3 9) { ready with health := { ready.health with guard := 41 } }).health.guard = 41 := by decide +kernel
theorem test_margin_daily : ((after .marginDaily ready).coffer.queue.map (fun e => (e.kind, e.part))) = [(7, 1)]
    ∧ (after .marginDaily ready).health.dayMinS = 65535 := by decide +kernel
/-- R462: a setpoint under way is written again; the next one is at most 5 mV on, whatever the fused table says. -/
theorem test_avs : (after (.avsSetpoint true) { ready with health := { ready.health with wanted := some 760 } }).health.setpoint = 760
    ∧ ready.health.wanted = none ∧ ready.health.setpoint ≤ ceiling := by decide +kernel

/-! Sessions, attestation and firmware. -/

/-- An ATTEST with a result of so many bytes. -/
def attesting (n : Nat) : State := taken host (ord 0x11 9 0 n (leBytes 32 5))

theorem test_attest : admits (attesting 14571) 0x11 = true ∧ ended (after (.attest 0 1 true true true) (attesting 14571)) eRange = true
    ∧ admits (attesting 14572) 0x11 = true ∧ held (attesting 14572) (order1 (attesting 14572)) = false
    ∧ ((after (.attest 0 1 true true true) (attesting 14572)).trust.signing.map (fun g => (g.order, g.index))) = some ((0, 1), 0)
    ∧ (after (.attest 0 1 true true true) (attesting 14572)).trust.index1 = some 1
    ∧ ended (after (.attest 0 1 false true true) (attesting 14572)) eDataLost = true
    ∧ (after (.attest 0 1 false true true) (attesting 14572)).trust.next = 0 := by decide +kernel
/-- A signing under way for that order. -/
def signing : State :=
  { host with trust := { host.trust with signing := some { order := (0, 1) } }
              orders := [{ number := 1, bytes := (ord 0x11 9 0 14572 []).bytes, begun := true }] }

/-- An order whose signing is under way, and none. -/
theorem test_signature_release : after (.signatureRelease true true true) host = host
    ∧ (signing.order 0 1).isSome = true ∧ held signing (order1 signing) = false := by decide +kernel
theorem test_key_generation : (after (.ephemeralKeyGeneration true true true) { host with trust := { host.trust with generating := true } }).trust.generating = false
    ∧ after (.ephemeralKeyGeneration true true true) host = host := by decide +kernel

/-- OPEN_SESSION of a request's bytes, with no session open and no pair drawn. -/
def opening (len n : Nat) : State :=
  { taken host (ord 0x0F 9 0 len (leBytes 4 0 ++ leBytes 4 n ++ leBytes 8 0)) with trust := {} }

/-- SHAKE256 of nothing, 32 bytes (FIPS 202). -/
def emptyHash : List Byte :=
  [0x46, 0xB9, 0xDD, 0x2B, 0x0B, 0xA8, 0x8D, 0x13, 0x23, 0x3B, 0x3F, 0xEB, 0x74, 0x3E, 0xEB, 0x24,
   0x3F, 0xCD, 0x52, 0xEA, 0x62, 0xB8, 0x1B, 0x82, 0xB5, 0x0C, 0x27, 0x64, 0x6E, 0xD5, 0x76, 0x2F]

/-- The first 0x668 bytes of a request. -/
def request0 : List Byte := leBytes 8 1 ++ emptyHash ++ leBytes 1600 7

theorem test_open_session_refused : admits (opening 47 1672) 0x0F = true ∧ ended (after (.openSession 0 1 none) (opening 47 1672)) eRange = true
    ∧ ended (after (.openSession 0 1 none) (opening 48 1671)) ePlan = true
    ∧ qpUp (hostAsk (opening 48 1672) (order1 (opening 48 1672))) 0 = true
    ∧ ended (after (.openSession 0 1 (some (leBytes 1672 2))) (opening 48 1672)) ePlan = true
    ∧ slice request0 8 32 = shake256 (opening 48 1672).trust.ek 32
    ∧ ended (after (.openSession 0 1 (some (leBytes 1672 1))) (opening 48 1672)) eAuth = true := by decide +kernel

theorem test_request_length : request0.length = 0x668 := by decide +kernel

/-- The shared secret that the device takes from the request. -/
def secret0 : List Byte := Config.mlkemDecaps [] (slice request0 0x48 1568)

/-- The request with the confirmation that R398 derives. -/
def request1 : List Byte := request0 ++ derived "ZQS6 confirm" secret0 request0

/-- A part of the request before its confirmation. -/
theorem request_slice (o n : Nat) (h : o + n ≤ 0x668) : slice request1 o n = slice request0 o n := by
  have l := test_request_length
  unfold slice request1
  rw [List.drop_append_of_le_length (by omega), List.take_append_of_le_length (by rw [List.length_drop]; omega)]

/-- R398: the confirmation is the derived one, so a well-formed request of a known pair opens a session. -/
theorem test_open_session : slice request1 0x668 32 = derived "ZQS6 confirm" (Config.mlkemDecaps [] (slice request1 0x48 1568)) request1 := by
  have l := test_request_length
  have d : (derived "ZQS6 confirm" secret0 request0).length = 32 := length_shake256 _ _
  rw [request_slice 0x48 1568 (by omega)]
  show slice request1 0x668 32 = shake256 (asciiBytes "ZQS6 confirm" ++ secret0 ++ slice request1 0 0x668) 32
  rw [request_slice 0 0x668 (by omega)]
  show slice request1 0x668 32 = derived "ZQS6 confirm" secret0 request0
  unfold slice request1
  rw [← l, List.drop_left, List.take_of_length_le (by omega)]
  dsimp only
  rw [d]
  simp
/-- What else R399 asks of it: 1,672 bytes, version 1, the empty pair's digest. -/
theorem test_open_session_known : request1.length = 1672 ∧ field request1 0 2 = 1 ∧ field request1 2 6 = 0
    ∧ slice request1 8 32 = shake256 (opening 48 1672).trust.ek 32 ∧ hostRead (hostAsk (opening 48 1672) (order1 (opening 48 1672)))
        (order1 (opening 48 1672)) (some request1) 1672 = some request1 := by
  have l := test_request_length
  have d : (derived "ZQS6 confirm" secret0 request0).length = 32 := length_shake256 _ _
  have n : request1.length = 1672 := by unfold request1; rw [List.length_append, l, d]
  refine ⟨n, by decide +kernel, by decide +kernel, ?_, ?_⟩
  · rw [request_slice 8 32 (by omega)]; decide +kernel
  · have q : qpUp (hostAsk (opening 48 1672) (order1 (opening 48 1672))) (order1 (opening 48 1672)).qp = true := by decide +kernel
    unfold hostRead
    rw [q]
    simp [slice, ← n]

/-- An order to close the session of the host. -/
def closing : State :=
  { taken host (ord 0x10 9 0 0 []) with
    mem := { shelf := memWrite [] 0 [7], xlate := [(0, (1, 1, 0, 0, 0))] }, keys := [(0x0400, []), (2, leBytes 4 1024)] }

theorem test_close_session : admits closing 0x10 = true ∧ (after (.closeSession 0 1) closing).trust.closing = some (0, 1, 0)
    ∧ (after (.closeSession 0 1) closing).mem.shelf = [] ∧ (after (.closeSession 0 1) closing).mem.xlate = []
    ∧ keySlot 0x0400 = true ∧ (after (.closeSession 0 1) closing).keys = [(2, leBytes 4 1024)]
    ∧ sessionOpen (after (.closeSession 0 1) closing) = false := by decide +kernel
theorem test_close_complete : hostPeerInFlight (after (.closeSession 0 1) closing) = false
    ∧ (after .closeSessionComplete (after (.closeSession 0 1) closing)).trust.session = none
    ∧ ended (after .closeSessionComplete (after (.closeSession 0 1) closing)) eOk = true
    ∧ (after .closeSessionComplete (after (.closeSession 0 1) closing)).mem.zeroing = true
    ∧ hostPeerInFlight { host with xfers := [{ kind := 2 }] } = true ∧ after .closeSessionComplete host = host := by decide +kernel

/-- A firmware image of one byte 0x55 with its header (Table 15.2): its SVN and key slot. -/
def image55 (svn slot : Nat) : List Byte :=
  leBytes 4 0x5A514657 ++ leBytes 2 1 ++ leBytes 6 1 ++ leBytes 1 svn ++ leBytes 1 slot ++ leBytes 2 0 ++ leBytes 4 1 ++ leBytes 12 0
    ++ [0x85, 0xCE, 0x17, 0x5A, 0xF7, 0x2E, 0x58, 0x77, 0xF8, 0x58, 0xA1, 0x30, 0x70, 0x89, 0xC2, 0x07,
      0x4C, 0xB5, 0xB6, 0x57, 0x3D, 0x08, 0xF7, 0x6E, 0xD7, 0x16, 0x9B, 0xC5, 0x2B, 0x2D, 0x1A, 0x75]
    ++ List.replicate 4032 0 ++ [0x55]

/-- UPDATE_FIRMWARE of 4,097 bytes, copy 0 running. -/
def updatingFw : State :=
  { taken host (ord 0x14 9 0 0 (leBytes 4 0 ++ leBytes 4 4097 ++ leBytes 8 0)) with trust := { session := some {}, fusedSvn := 2, revoked := 8 } }

theorem test_firmware_checks : admits updatingFw 0x14 = true ∧ headerOk (image55 2 1) = true ∧ headerOk (image55 2 4) = false
    ∧ headerOk (image55 63 1) = true ∧ headerOk (image55 64 1) = false ∧ fusesOk updatingFw (image55 2 1) = true
    ∧ fusesOk updatingFw (image55 1 1) = false ∧ fusesOk updatingFw (image55 2 3) = false
    ∧ bodyOk (image55 2 1) = true ∧ bodyOk ((image55 2 1).set 4096 0x54) = false := by decide +kernel
theorem test_firmware_refused : ended (after (.updateFirmware 0 1 (some (image55 1 1))) updatingFw) ePlan = true
    ∧ qpUp (hostAsk updatingFw (order1 updatingFw)) 0 = true := by decide +kernel

/-- An image being written into copy 1. -/
def writingFw : State :=
  { host with trust := { session := some {}, update := some (0, 1, 1), copyB := { state := 0, image := [1] } }
              orders := [{ number := 1, bytes := (ord 0x14 9 0 0 []).bytes, begun := true }] }

theorem test_firmware_staged : (after (.firmwareStaged true) writingFw).trust.copyB = { state := 1, image := [1] }
    ∧ (after (.firmwareStaged false) writingFw).trust.copyB = { state := 3, image := [1] }
    ∧ ended (after (.firmwareStaged true) writingFw) eOk = true ∧ ended (after (.firmwareStaged false) writingFw) eDataLost = true
    ∧ after (.firmwareStaged true) host = host := by decide +kernel
/-- R387: with a signature that checks, the image is begun into the copy that does not run. -/
theorem test_update_firmware (h : Config.xmssVerify 1 (slice (image55 2 1) 0 0x40) (slice (image55 2 1) 0x40 2820) = true) :
    signatureOk (image55 2 1) = true ∧ updatingFw.trust.running = 0 := by
  have e : field (image55 2 1) 0x0D 1 = 1 := by decide +kernel
  unfold signatureOk
  rw [e]
  exact ⟨h, rfl⟩

/-! Power, boot and pins. -/

/-- A device in STANDBY with rails up, RESET_N asserted or not. -/
def standby (rails : List Nat) (held : Bool) : State :=
  { trust := {}, pins := { State.reset.pins with stage := 0, resetN := held, rails := rails } }

/-- A stage and RESET_N's level, in an otherwise plain state without an image. -/
def inStage (k : Nat) (held : Bool) : State := { trust := {}, pins := { State.reset.pins with stage := k, resetN := held } }

theorem test_reset_n : (after .resetNAssert (inStage 4 false)).pins.stage = 0 ∧ (after .resetNAssert (inStage 4 false)).pins.causes.contains 1 = true
    ∧ (after .resetNAssert (inStage 0xB false)).pins.stage = 0xB ∧ after .resetNAssert (inStage 4 true) = inStage 4 true
    ∧ (after .resetNRelease (standby [0, 1, 2, 3, 4, 5] true)).pins.stage = 1
    ∧ (after .resetNRelease (standby [0, 1, 2, 3, 4] true)).pins.stage = 0 ∧ (after .resetNRelease (inStage 4 false)).pins.stage = 4 := by
  decide +kernel
/-- Table 17.2: the last rail, in its order and before one that comes earlier; a rail the device does not have. -/
theorem test_rail_rise : (after (.railRise 5) (standby [0, 1, 2, 3, 4] false)).pins.stage = 1
    ∧ (after (.railRise 5) (standby [0, 1, 2, 3, 4] false)).pins.railOrder = false
    ∧ (after (.railRise 2) (standby [0] true)).pins.railOrder = true ∧ (after (.railRise 0) (standby [] true)).pins.railOrder = false
    ∧ after (.railRise 6) (standby [0] true) = standby [0] true ∧ after (.railRise 0) (standby [0] true) = standby [0] true := by
  decide +kernel
theorem test_rail_low : (after (.railLow 5) (inStage 4 false)).pins.stage = 0 ∧ (after (.railLow 5) (inStage 4 false)).pins.rails = [0, 1, 2, 3, 4]
    ∧ after (.railLow 5) (standby [0] true) = standby [0] true := by decide +kernel
theorem test_rail_high : (after (.railHigh 5) (inStage 4 true)).pins.stage = 0 ∧ (after (.railHigh 0) (inStage 4 false)).pins.stage = 1
    ∧ (after (.railHigh 6) (inStage 4 false)).pins.stby = true ∧ (after (.railHigh 6) (inStage 4 false)).pins.stage = 0 := by decide +kernel
theorem test_stby : (after .vddStbyFall (inStage 4 false)).pins.stby = false ∧ (after .vddStbyFall (inStage 4 false)).pins.stage = 0
    ∧ (after .vddStbyApplied (after .vddStbyFall (inStage 4 false))).pins.stby = true
    ∧ after .vddStbyApplied (inStage 4 false) = inStage 4 false := by decide +kernel
theorem test_thermtrip_release :
    (after .thermtripRelease { inStage 0xB true with pins := { (inStage 0xB true).pins with thermtrip := true, rails := [0] } }).pins.thermtrip = false
    ∧ (after .thermtripRelease { inStage 0xB true with pins := { (inStage 0xB true).pins with thermtrip := true, rails := [0, 1] } }).pins.thermtrip = true
    ∧ after .thermtripRelease (inStage 4 true) = inStage 4 true := by decide +kernel
theorem test_refclk_core : (after .refclkCoreLoss (inStage 4 false)).pins.refCore = false ∧ (after .refclkCoreLoss (inStage 4 false)).pins.stage = 0
    ∧ (after .refclkCoreDetect (after .refclkCoreLoss (inStage 4 false))).pins.stage = 1 := by decide +kernel
/-- In STANDBY the pins alone change. -/
theorem test_standby_pins :
    let s := { standby [0] false with pins := { (standby [0] false).pins with stby := true } }
    s.pins.stage = 0 ∧ (after .resetNAssert s).pins.resetN = true ∧ (after .resetNAssert s).pins.causes.contains 1 = true
    ∧ after .refclkCoreLoss s = { s with pins := { s.pins with refCore := false } } := by decide +kernel

/-- The rails, clocks and pins of CommandsCompleteOutright: the last thing that stage ROM needs counts a boot. -/
theorem test_outright_pins :
    let all := [0, 1, 2, 3, 4, 5]
    let stby := fun (s : State) => { s with pins := { s.pins with stby := true } }
    let dark := fun (s : State) => { s with pins := { s.pins with refCore := false } }
    (after .resetNRelease (stby (standby all true))).coffer.boot = 1 ∧ (after .refclkCoreDetect (dark (stby (standby all false)))).coffer.boot = 1
    ∧ (after (.railRise 4) (stby (standby [0, 1, 2, 3, 5] false))).coffer.boot = 1
    ∧ (after (.railRise 4) (stby (standby [0, 1, 2, 3, 5] true))).pins.stage = 0
    ∧ (after (.railLow 3) (standby [0, 3] true)).pins.rails = [0] ∧ (after (.railHigh 3) (inStage 4 false)).runs = []
    ∧ after (.railHigh 3) (inStage 0xB false) = inStage 0xB false ∧ (standby all true).pins.thermtrip = false := by decide +kernel

/-- R465: link 47 is served by REFCLK_SER0, link 48 by REFCLK_SER1; the device has four such clocks. -/
theorem test_refclk_ser : ((after (.refclkSerChange 0 false) { ready with links := [(47, { state := 1 }), (48, { state := 1 })] }).link 47).state = 0
    ∧ ((after (.refclkSerChange 0 false) { ready with links := [(47, { state := 1 }), (48, { state := 1 })] }).link 48).state = 1
    ∧ (after (.refclkSerChange 3 false) ready).pins.refSer = 7 ∧ after (.refclkSerChange 4 false) ready = ready := by decide +kernel

/-- Stage ROM with copies in states A and B, copy A's image the smallest one, and an index record. -/
def inRom (a b : Nat) (idx : Option Nat) : State :=
  { inStage 1 false with trust := { copyA := { state := a, image := image55 2 1 }, copyB := { state := b, image := [] }, index0 := idx, index1 := none } }

theorem test_stage_rom : (inRom 2 3 none).pins.stage = 1 ∧ pendingCopy (inRom 2 3 none) = none ∧ pendingCopy (inRom 1 2 none) = some 0
    ∧ pendingCopy (inRom 2 1 none) = some 1 ∧ indexRecords (inRom 2 3 (some 9)) = [9] ∧ indexRecords (inRom 2 3 none) = []
    ∧ (after .stageRom (inRom 3 0 none)).pins.stage = 8 ∧ (after .stageRom (inRom 3 0 (some 9))).trust.next = 9
    ∧ (after .stageRom (inRom 3 0 none)).trust.signDisabled = true ∧ (after .stageRom (inStage 2 false)) = inStage 2 false := by decide +kernel
/-- R388: with a signature that checks, the image verifies, as a GOOD copy and as a PENDING one. -/
theorem test_image_ok (a b : Nat) (h : Config.xmssVerify 1 (slice (image55 2 1) 0 0x40) (slice (image55 2 1) 0x40 2820) = true) :
    imageOk (inRom a b none) (fwCopy (inRom a b none) 0).image = true := by
  have e : field (image55 2 1) 0x0D 1 = 1 := by decide +kernel
  have k : headerOk (image55 2 1) = true ∧ bodyOk (image55 2 1) = true := by decide +kernel
  have f : fusesOk (inRom 2 1 none) (image55 2 1) = true := by decide +kernel
  have f' : fusesOk (inRom a b none) (image55 2 1) = true := f
  show imageOk (inRom a b none) (image55 2 1) = true
  have g : signatureOk (image55 2 1) = true := by unfold signatureOk; rw [e]; exact h
  unfold imageOk
  simp [k.1, k.2, f', g]

/-- Stage IMION, without an image. -/
def inImion : State := { inStage 2 false with mem := { shelf := [(0, 1)], ddr := [(4, 1)] } }

/-- The setpoint that follows is a free value's, so only the start is decided here. -/
theorem test_stage_imion : inImion.pins.stage = 2 ∧ (inImion.onMem wipeMem).mem.shelf = [] ∧ (inImion.onMem wipeMem).mem.ddr = [(4, 1)]
    ∧ after .stageImion ready = ready := by decide +kernel

/-- Stage MEMORY, on trial or not, at a time. -/
def inMemory (trial : Bool) (now : Nat) : State :=
  { inStage 3 false with now := now, pins := { (inStage 3 false).pins with triedPending := trial } }

/-- Table 11.1 and R388: the three rates; the channel that fails; 2 s, and 1 ns more. -/
theorem test_stage_memory : (after (.stageMemory 8800 [] []) (inMemory false 0)).mem.ddrRate = 8800
    ∧ (after (.stageMemory 8800 [] []) (inMemory false 0)).pins.stage = 4
    ∧ (after (.stageMemory 8800 [] [(8800, 23)]) (inMemory false 0)).mem.ddrRate = 8000
    ∧ (after (.stageMemory 8000 [] [(8000, 0)]) (inMemory false 0)).mem.ddrRate = 6400
    ∧ (after (.stageMemory 6400 [] [(6400, 0)]) (inMemory false 0)).pins.stage = 9
    ∧ (after (.stageMemory 8800 [23] []) (inMemory false 0)).pins.stage = 9
    ∧ (after (.stageMemory 8800 [] []) (inMemory true 2000000000)).pins.stage = 4
    ∧ (after (.stageMemory 8800 [] []) (inMemory true 2000000001)).pins.stage = 1
    ∧ after (.stageMemory 8800 [] []) ready = ready := by decide +kernel
theorem test_memory_links : ((after (.stageMemory 8800 [] []) (inMemory false 0)).link 0).state = 1
    ∧ ((after (.stageMemory 8800 [] []) (inMemory false 0)).link 95).state = 1 ∧ linkClock (inMemory false 0) 95 = true
    ∧ firstFail [(8800, 24)] 8800 = none ∧ firstFail [(8800, 23)] 8800 = some 23 ∧ ratesFrom 8000 = [8000, 6400] := by decide +kernel

theorem test_filtered_pulse : (after (.filteredPulse 0) ready).counter Ctr.resetNFiltered 0 = 1 ∧ (after (.filteredPulse 1) ready).counter Ctr.haltNFiltered 0 = 1
    ∧ (after (.filteredPulse 2) ready).counter Ctr.ladderInFiltered 0 = 1 ∧ after (.filteredPulse 3) ready = ready
    ∧ after (.filteredPulse 0) { ready with pins := { ready.pins with stby := false } } = { ready with pins := { ready.pins with stby := false } } := by
  decide +kernel
theorem test_halt_n : (after .haltNAssert { ready with now := 5 }).pins.haltN = true ∧ (after .haltNAssert { ready with now := 5 }).pins.haltAt = 5
    ∧ (after .haltNRelease { ready with pins := { ready.pins with haltN := true } }).pins.haltN = false
    ∧ after .haltNRelease ready = ready
    ∧ (postPin { host with pins := { host.pins with pinPosts := [(0x54, 1)] }, now := 1000000000 } 0x54 []).pins.pinPosts = [(0x54, 1)]
    ∧ (postPin { host with pins := { host.pins with pinPosts := [(0x54, 0)] }, now := 1000000000 } 0x54 []).pins.pinPosts = [(0x54, 1000000000)] := by
  decide +kernel

/-- The chain's input asks this device; a claim may be in flight. -/
def asked (inFlight : Bool) : State := { ready with pins := { ready.pins with ladderIn := true, claiming := inFlight } }

/-- R447: places 1 to 63, addresses 0x08 to 0x7D but the reserved ones, zeros after them, and nothing else. -/
theorem test_claim_bytes : claimOk [1, 0x08, 0, 0] = true ∧ claimOk [63, 0x7D, 0, 0] = true ∧ claimOk [0, 0x08, 0, 0] = false
    ∧ claimOk [64, 0x08, 0, 0] = false ∧ claimOk [1, 0x07, 0, 0] = false ∧ claimOk [1, 0x7E, 0, 0] = false ∧ claimOk [1, 0x2A, 0, 0] = false
    ∧ claimOk [1, 0x7A, 0, 0] = false ∧ claimOk [1, 0x08, 0, 1] = false ∧ claimOk [1, 0x08, 0] = false ∧ claimOk [1, 8, 0, 0, 0] = false := by
  decide +kernel
theorem test_ladder : answersStatic (asked false) = true ∧ (after (.ladderClaim true []) (asked false)).pins.claiming = true
    ∧ (after (.ladderClaim false [63, 0x08, 0, 0]) (asked true)).pins.ladderOut = true
    ∧ (after (.ladderClaim false [63, 0x08, 0, 0]) (asked true)).pins.dynAddr = 8
    ∧ (after (.ladderClaim false [0]) (asked true)).pins.claimed = false ∧ (after (.ladderClaim false [0]) (asked true)).pins.claiming = false
    ∧ after (.ladderClaim true []) ready = ready ∧ (after (.ladderInChange true) ready).pins.ladderIn = true
    ∧ (after (.ladderInChange false) (asked true)).pins.ladderIn = true
    ∧ (after (.ladderInChange false) (asked true)).counter Ctr.ladderInIgnored 0 = 1 := by decide +kernel

/-- A claimed device with a serial number, its queue pair 0 on sub-port 0 or with no queue pair. -/
def claimedDev (q : Bool) : State :=
  { ready with qps := if q then [(0, qp0)] else [], trust := { serial := 0x0102030405060708 }, ports := [(0, { up := true })]
               pins := { ready.pins with claimed := true, dynAddr := 0x20, ladderAddr := 3, railOrder := true, applyRefused := true } }

/-- The bytes last sent on the I3C bus. -/
def i3cSent (s : State) : List Byte := ((s.out.find? (fun o => o.kind == 8)).getD {}).data

theorem test_i3c_codes : answersDynamic (claimedDev false) = true ∧ ((i3cSent (after .getpid (claimedDev false))).drop 2) = [5, 6, 7, 8]
    ∧ (i3cSent (after .getbcr (claimedDev false))).length = 1 ∧ (i3cSent (after .getdcr (claimedDev false))).length = 1
    ∧ (i3cSent (after .getstatus (claimedDev false))).length = 2 ∧ after .getstatus ready = ready := by decide +kernel
/-- Table 17.5: the serial number at 0, the addresses at 8 and 9, and the offset's wrap. -/
theorem test_i3c_read : i3cSent (after (.i3cPrivateRead 11) (claimedDev false)) = [8, 7, 6, 5, 4, 3, 2, 1, 3, 0x20, 4]
    ∧ (after (.i3cPrivateRead 1) (after (.i3cPrivateWrite [0xFF, 0xFF]) (claimedDev false))).pins.i3cOffset = 0
    ∧ after (.i3cPrivateRead 1) ready = ready ∧ after (.i3cPrivateWrite [0]) (claimedDev false) = claimedDev false := by decide +kernel
theorem test_i3c_write : ((after (.i3cPrivateWrite [0x00, 0x01, 7]) (claimedDev false)).pins.staged.getD 0 []).getD 0 0 = 7
    ∧ ((after (.i3cPrivateWrite [0xFB, 0x02, 9]) (claimedDev false)).pins.staged.getD 15 []).getD 27 0 = 9
    ∧ (after (.i3cPrivateWrite [0xFB, 0x02, 9]) (claimedDev false)).pins.i3cOffset = 0x2FC
    ∧ (after (.statusWordClear 0x80) (claimedDev false)).pins.railOrder = false
    ∧ (after (.statusWordClear 0x80) (claimedDev false)).pins.applyRefused = true
    ∧ (after (.i3cPrivateWrite [0x0D, 0, 1]) (claimedDev false)).pins.applyRefused = false := by decide +kernel
/-- R450: MAC_VALID is needed by the other flags and by the link; a sub-port with a queue pair is not committed. -/
theorem test_subport_commit : recordAdmitted (claimedDev false) 0 ((claimedDev false).pins.staged.getD 0 []) 0 = true
    ∧ (after (.subportCommit 0 0) (claimedDev false)).port 0 = (claimedDev false).port 1
    ∧ recordAdmitted (claimedDev false) 15 ((claimedDev false).pins.staged.getD 15 []) 3 = true
    ∧ recordAdmitted (claimedDev false) 0 ((claimedDev false).pins.staged.getD 0 []) 2 = false
    ∧ recordAdmitted (claimedDev false) 0 ((claimedDev false).pins.staged.getD 0 []) 8 = false
    ∧ recordAdmitted (claimedDev true) 0 ((claimedDev true).pins.staged.getD 0 []) 1 = false
    ∧ ((after (.subportCommit 15 3) (claimedDev false)).pins.subports.getD 15 []).getD 28 0 = 3
    ∧ after (.subportCommit 16 1) (claimedDev false) = claimedDev false ∧ after (.subportCommit 0 1) ready = ready := by decide +kernel

/-- A controller's state, instruction and data register. -/
def tap (k ir sh : Nat) : State := { ready with pins := { ready.pins with tap := k, tapIr := ir, tapShift := sh } }

theorem test_scan_idcode : (after (.boundaryScan false false true) (tap 3 2 0)).pins.tapShift = 0x5A516001
    ∧ (after (.boundaryScan false true true) (tap 4 2 0x5A516001)).pins.tapShift = 0xAD28B000
    ∧ (after (.boundaryScan false true true) (tap 4 2 0x5A516001)).pins.tdo = false
    ∧ (after (.boundaryScan false true true) (tap 4 3 0)).pins.tdo = true ∧ (after (.boundaryScan false false true) (tap 4 15 1)).pins.tdo = false := by
  decide +kernel
theorem test_scan_reset : (after (.boundaryScan false false false) (tap 4 3 1)).pins.tap = 0
    ∧ (after (.boundaryScan true false true) (after (.boundaryScan true false true) (after (.boundaryScan true false true)
        (after (.boundaryScan true false true) (after (.boundaryScan true false true) (tap 12 3 1)))))).pins.tap = 0
    ∧ after (.boundaryScan true true true) { ready with pins := { ready.pins with rails := [] } } = { ready with pins := { ready.pins with rails := [] } } := by
  decide +kernel

/-! Well-formed and ill-formed commands: each check of Instr.wf passes at the ends of its range and refuses just beyond. -/

/-- Every command of a list is well formed. -/
def allWf (l : List Instr) : Bool := l.all Instr.wf
/-- No command of a list is well formed. -/
def noneWf (l : List Instr) : Bool := l.all (fun c => !c.wf)

theorem test_wf_orders : allWf [.run 0 1, .run 63 4294967295, .orderTake 63, .orderWindowWrite 4095 0 0 [], .connectionReq 15 0 0 4096,
      .connectionReq 0 0 0 256, .consumerIndexRead 4095 4294967295, .completionWrite 4095] = true
    ∧ noneWf [.run 64 1, .run 0 0, .run 0 4294967296, .orderTake 64, .orderWindowWrite 4096 0 0 [], .orderWindowWrite 0 (2 ^ 64) 0 [],
      .orderWindowWrite 0 0 (2 ^ 32) [], .connectionReq 16 0 0 1024, .connectionReq 0 (2 ^ 64) 0 1024, .connectionReq 0 0 (2 ^ 24) 1024,
      .connectionReq 0 0 0 8192, .consumerIndexRead 4096 0, .consumerIndexRead 0 (2 ^ 32), .completionWrite 4096] = true := by decide +kernel
theorem test_wf_work : allWf [.matmul 0 0 0, .matmul (2 ^ 64 - 1) 16383 127, .crateExpand 0 0 0 3 0, .runStart 0, .mergeKtile 127, .laneAction 127 63,
      .transferLand 0 none, .writeComplete 127 0 true, .rotateReceive 0 16383 127 0xFFFF 127 255, .rotateBufferRead 0 0 0 0 12582912 true] = true
    ∧ noneWf [.matmul (2 ^ 64) 0 0, .matmul 0 16384 0, .matmul 0 0 128, .crateExpand 0 0 0 4 0, .halfFill 0 0 0 4, .turnedLoad 0 0 0 4,
      .runStart (2 ^ 64), .mergeKtile 128, .laneAction 128 0, .laneAction 0 64, .transferLand (2 ^ 32) none, .writeComplete 128 0 true,
      .writeComplete 0 (2 ^ 32) true, .rotateReceive 0 16384 0 0 0 0, .rotateReceive 0 0 128 0 0 0,
      .rotateReceive 0 0 0 1024 0 0, .rotateReceive 0 0 0 0 128 0, .rotateReceive 0 0 0 0 0 256, .rotateBufferRead 0 0 0 1 12582912 true] = true := by
  decide +kernel
theorem test_wf_group : allWf [.identitySend 95, .beatMark 95 65535 65535, .linkState 95 2 255, .viewAnnouncement 0 [1023] 1023 (2 ^ 64 - 1) (some 65535),
      .splitSide [(0, 1023, 96)], .rejoin 1023 0 0 0 (List.replicate 32 0), .reform [1023] 4294967295, .prepare 0 [(4294967295, [])] 0,
      .readyReply 1023 0, .decision 0 0, .abort 1023] = true
    ∧ noneWf [.identitySend 96, .beatMark 96 0 0, .beatMark 0 65536 0, .beatMark 0 0 65536, .linkState 96 0 0, .linkState 0 3 0, .linkState 0 0 256,
      .viewAnnouncement (2 ^ 32) [] 0 0 (some 0), .viewAnnouncement 0 [1024] 0 0 (some 0), .viewAnnouncement 0 [] 1024 0 (some 0),
      .viewAnnouncement 0 [] 0 (2 ^ 64) (some 0), .viewAnnouncement 0 [] 0 0 (some 65536), .splitSide [(0, 1, 97)], .splitSide [(1024, 1, 1)],
      .rejoin 1024 0 0 0 (List.replicate 32 0),
      .rejoin 0 0 0 0 (List.replicate 31 0), .reform [1024] 0, .reform [] (2 ^ 32), .prepare 1024 [] 0, .prepare 0 [(2 ^ 32, [])] 0,
      .prepare 0 [(0, List.replicate 4129 0)] 0, .prepare 0 [] (2 ^ 64), .readyReply 1024 0, .decision 1024 0, .decision 0 (2 ^ 64), .abort 1024] = true := by
  decide +kernel
/-- A header with every field at its last value. -/
def topHdr : Hdr :=
  { op := 255, space := 1, length := 4096, dest := 1023, src := 1023, address := 18446744073709551615, tag := 4294967295
    epoch := 4294967295, key := 4294967295, status := 255, reqLength := 4096 }

/-- Table 10.4: each field of a header at the first value beyond it. -/
theorem test_wf_headers : allWf [.ack topHdr, .readData { length := 1 } [7]] = true
    ∧ noneWf [.ack { op := 256 }, .ack { space := 2 }, .ack { length := 4097 }, .ack { dest := 1024 }, .ack { src := 1024 }, .ack { address := 2 ^ 64 },
      .ack { tag := 2 ^ 32 }, .ack { epoch := 2 ^ 32 }, .ack { key := 2 ^ 32 }, .ack { status := 256 }, .ack { reqLength := 4097 },
      .readTransfer { op := 256 }, .readData { length := 1 } [], .add {} [7], .mgmt { length := 2 } [7]] = true := by decide +kernel
theorem test_wf_links : allWf [.frameReceive 95 (List.replicate 532 0) true true, .laneSignalLoss 95 1, .linkRetrain 95 true true, .join 0 0 1023, .join (2 ^ 32 - 1) 4294967295 0,
      .mcData {} 0 0 [], .mcAck 0 0 0 0, .detach 1023 [0, 0, 0, 0, 127, 255], .redPart {} 0 0 [], .mcastDetach 0 127 0xFFFF, .reducerCombine 0 1023 0, .pushDeadline 4294967295] = true
    ∧ noneWf [.frameReceive 96 [] false false, .frameReceive 0 (List.replicate 533 0) false false, .laneSignalLoss 96 0, .laneSignalLoss 0 2,
      .linkRetrain 96 true true, .join (2 ^ 32) 0 0, .join 0 (2 ^ 32) 0, .join 0 0 1024, .mcData {} 0 0 [1], .mcData {} (2 ^ 64) 0 [], .mcAck (2 ^ 32) 0 0 0, .mcAck 0 (2 ^ 32) 0 0, .mcAck 0 0 1024 0,
      .mcAck 0 0 0 (2 ^ 64), .detach 1024 [],
      .detach 0 [0, 0, 0, 0, 0, 0, 0], .mcastDetach 0 128 0, .redPart { op := 256 } 0 0 [], .redResult { op := 256 } 0 0 [], .redPart {} (2 ^ 64) 0 [], .redResult {} 0 (2 ^ 32) [],
      .reducerCombine (2 ^ 32) 0 0, .reducerCombine 0 1024 0, .pushDeadline (2 ^ 32)] = true := by decide +kernel
theorem test_wf_memory : allWf [.ddrQueueEntry 23 19 2 0 64 [], .ddrQueueEntry 0 0 0 0 1 [7], .burstRead 23 [9] 64, .freshFill 1464842, .channelRetrain 23 true] = true
    ∧ noneWf [.ddrQueueEntry 24 0 0 0 1 [], .ddrQueueEntry 0 20 0 0 1 [], .ddrQueueEntry 0 0 3 0 1 [], .ddrQueueEntry 0 0 0 0 0 [],
      .ddrQueueEntry 0 0 0 0 65 [], .ddrQueueEntry 0 0 0 0 1 [7, 7], .burstRead 24 [] 0, .burstRead 0 [10] 0, .burstRead 0 [] 65, .freshFill 1464843,
      .channelRetrain 24 true] = true := by decide +kernel
theorem test_wf_ports : allWf [.rocePacket 15 { qp := 4095, op := 8 }, .ethFrameReceive 15 { kind := 6 }, .portUp 15, .pauseFrame 15 7 65535,
      .mka 0 none, .mka 0 (some (List.replicate 32 0)), .arbiterRound 4 0 []] = true
    ∧ noneWf [.rocePacket 16 {}, .rocePacket 0 { qp := 4096 }, .rocePacket 0 { op := 9 }, .ethFrameReceive 16 {}, .ethFrameReceive 0 { kind := 7 },
      .portUp 16, .pauseFrame 16 0 0, .pauseFrame 0 8 0, .pauseFrame 0 0 65536, .mka 16 none, .mka 0 (some (List.replicate 31 0)),
      .ptpTimeUpdate 16 0 0 0 true true, .arbiterRound 5 0 []] = true := by decide +kernel
theorem test_wf_health : allWf [.watchdogCheck 0 127 true true, .watchdogCheck 1 21 true true, .shelfScrub 127 2,
      .governorBudget [(127, [10000, 0, 10000])] 0 0,
      .powerSample 65535, .currentLimit 65535, .thermalSample (List.replicate 64 255), .thermtrip 63, .marginSample (List.replicate 112 9),
      .marginTrip 111 65535] = true
    ∧ noneWf [.watchdogCheck 0 128 true true, .watchdogCheck 1 22 true true, .watchdogCheck 2 0 true true, .shelfScrub 128 0, .shelfScrub 0 3,
      .governorBudget [(128, [0, 0, 0])] 0 0, .governorBudget [(0, [10001, 0, 0])] 0 0, .governorBudget [(0, [0, 0])] 0 0, .powerSample 65536,
      .currentLimit 65536, .thermalSample (List.replicate 63 0),
      .thermalSample (256 :: List.replicate 63 0), .thermtrip 64, .marginSample (List.replicate 111 9), .marginTrip 112 0, .marginTrip 0 65536] = true := by
  decide +kernel
theorem test_wf_pins : allWf [.railRise 5, .railHigh 6, .stageMemory 6400 [23] [(8800, 23)], .filteredPulse 2, .ladderClaim true [], .i3cPrivateWrite [0, 0],
      .i3cPrivateRead 65536, .subportCommit 15 0, .refclkSerChange 3 true, .boundaryScan true true true] = true
    ∧ noneWf [.railRise 6, .railLow 6, .railHigh 7, .stageMemory 7200 [] [], .stageMemory 8800 [24] [], .stageMemory 8800 [] [(7200, 0)],
      .stageMemory 8800 [] [(8800, 24)], .filteredPulse 3, .i3cPrivateWrite [0], .i3cPrivateRead 65537, .subportCommit 16 0,
      .refclkSerChange 4 true] = true := by decide +kernel

/-! The table gives no row any bits. -/

theorem test_no_word (nbits w : Nat) : decodeTableWord nbits w = none := rfl
theorem test_no_fetch : ready.withFetchWord 32 5 = ready := by decide +kernel

end Sys2Proof.Tests
end

section
/-!
SUPPORT. One clock cycle (log 7): what the cycle of a device leaves unchanged where nothing waits for DDR or a rotation, and
that serving a transfer of a link leaves everything that waits (R305).
-/

namespace Sys2Proof.Machine

/-- A fold whose every step leaves g of the state leaves g of it. -/
theorem foldl_leaves {σ α β : Type} {g : σ → β} {f : σ → α → σ} (hf : ∀ x a, g (f x a) = g x) (l : List α) (s : σ) :
    g (l.foldl f s) = g s :=
  List.foldlRecOn l f (motive := fun t => g t = g s) rfl fun x hx a _ => (hf x a).trans hx

/-! What an idle cycle leaves. -/

/-- The state without what an idle cycle may change: the beat, the sub-ports, the cores, the counters and what was sent. -/
def idlePart (s : State) : State := { s with beat := {}, ports := [], cores := [], counters := [], out := [] }

/-- A state that an idle cycle leaves differs from the one before it in the five fields named, and in no other. -/
theorem eq_of_idlePart {s t : State} (h : idlePart t = idlePart s) :
    t = { s with beat := t.beat, ports := t.ports, cores := t.cores, counters := t.counters, out := t.out } :=
  congrArg (fun x : State => { x with beat := t.beat, ports := t.ports, cores := t.cores, counters := t.counters, out := t.out }) h

/-- Of what waits and of the memories an idle cycle changes nothing. -/
theorem waits_of_idlePart {s t : State} (h : idlePart t = idlePart s) :
    t.linkWait = s.linkWait ∧ t.rotHeld = s.rotHeld ∧ t.mcs = s.mcs ∧ t.mem = s.mem := by
  rw [eq_of_idlePart h]
  exact ⟨rfl, rfl, rfl, rfl⟩

@[simp] theorem idlePart_bump (s : State) (k : Nat × Nat) (u n : Nat) : idlePart (s.bump k u n) = idlePart s := by
  unfold State.bump
  split <;> rfl

@[simp] theorem idlePart_onCore (s : State) (c : Nat) (f : Core → Core) : idlePart (s.onCore c f) = idlePart s := rfl

@[simp] theorem idlePart_onPort (s : State) (u : Nat) (f : SubPort → SubPort) : idlePart (s.onPort u f) = idlePart s := rfl

@[simp] theorem idlePart_emit (s : State) (o : Out) : idlePart (s.emit o) = idlePart s := rfl

@[simp] theorem idlePart_txMsg (s : State) (q : Nat) (o : Out) : idlePart (txMsg s q o) = idlePart s := by
  unfold txMsg
  split
  · rfl
  · dsimp only
    split
    · rfl
    · split <;> simp

@[simp] theorem idlePart_flushHeld (s : State) (u : Nat) : idlePart (flushHeld s u) = idlePart s :=
  foldl_leaves (fun x _ => idlePart_txMsg x _ _) _ _

@[simp] theorem idlePart_tickPause (s : State) (p : Nat × SubPort) : idlePart (tickPause s p) = idlePart s := by
  unfold tickPause
  split <;> simp

@[simp] theorem idlePart_tickBeatOut (s : State) : idlePart (tickBeatOut s) = idlePart s := by
  unfold tickBeatOut
  split <;> rfl

@[simp] theorem idlePart_tickLink (s : State) (l : Nat × Link) : idlePart (tickLink s l) = idlePart s :=
  foldl_leaves (fun x _ => idlePart_bump x _ _ _) _ _

@[simp] theorem idlePart_tickArb (s : State) (p : Nat × Arb) : idlePart (tickArb s p) = idlePart s :=
  foldl_leaves (fun x _ => idlePart_bump x _ _ _) _ _

/-- The note of a start that waits is one on its core (R72, R177, R200). -/
@[simp] theorem idlePart_tickStart (r : Run) (s : State) (i p : Nat) : idlePart (tickStart r s i p) = idlePart s := by
  unfold tickStart
  dsimp only
  split
  · split
    · split <;> simp
    · split <;> simp
  · split <;> simp
  · split <;> simp

@[simp] theorem idlePart_tickRun (s : State) (r : Run) : idlePart (tickRun s r) = idlePart s := by
  refine foldl_leaves (fun x i => foldl_leaves (fun y p => ?_) _ _) _ _
  split <;> simp

@[simp] theorem idlePart_bumpCores (s : State) (k : Nat × Nat) (l : List Nat) : idlePart (bumpCores s k l) = idlePart s :=
  foldl_leaves (fun x _ => idlePart_bump x _ _ _) _ _

@[simp] theorem idlePart_tickCores (s : State) : idlePart (tickCores s) = idlePart s :=
  (foldl_leaves idlePart_tickRun _ _).trans (by simp)

/-! Without a slice that waits for a rotation nothing is refused (R196). -/

/-- No slice waits for a rotation: no piece is held, and no multicast is a ROTATE's send. -/
structure NoSlices (s : State) : Prop where
  held : s.rotHeld = []
  sends : ∀ m, m ∈ s.mcs → m.rotate = false

theorem NoSlices.refuseLeft_eq {s : State} (h : NoSlices s) : refuseLeft s = s := by
  have hsends : s.mcs.filter (fun m => m.rotate) = [] := List.filter_eq_nil_iff.mpr (by simpa using h.sends)
  simp [refuseLeft, h.held, hsends]

theorem NoSlices.of_eq {s t : State} (h : NoSlices s) (hheld : t.rotHeld = s.rotHeld) (hmcs : t.mcs = s.mcs) : NoSlices t :=
  ⟨hheld.trans h.held, fun m hm => h.sends m (hmcs ▸ hm)⟩

theorem NoSlices.of_idlePart {s t : State} (h : NoSlices s) (e : idlePart t = idlePart s) : NoSlices t := by
  obtain ⟨-, hheld, hmcs, -⟩ := waits_of_idlePart e
  exact h.of_eq hheld hmcs

theorem NoSlices.idlePart_tickRots {s : State} (h : NoSlices s) : idlePart (tickRots s) = idlePart s := by
  unfold tickRots
  rw [h.refuseLeft_eq]
  refine (foldl_leaves (fun x r => ?_) _ _).trans (foldl_leaves (fun x _ => idlePart_bump x _ _ _) _ _)
  split
  · rfl
  · exact foldl_leaves (fun y _ => idlePart_bump y _ _ _) _ _

/-- A cycle is the service of the links' transfers and, where no slice waits for a rotation then, an idle cycle. -/
theorem idlePart_tick {s u : State} (hs : serveWaiting { s with now := s.now + 1 } = u) (h : NoSlices u) :
    idlePart (tick s) = idlePart u := by
  have hrots := (h.of_idlePart (idlePart_tickCores u)).idlePart_tickRots
  calc idlePart (tick s)
    _ = idlePart (tickRots (tickCores u)) := by
      unfold tick
      rw [hs, idlePart_tickBeatOut, foldl_leaves idlePart_tickPause, foldl_leaves idlePart_tickArb, foldl_leaves idlePart_tickLink]
    _ = idlePart u := hrots.trans (idlePart_tickCores u)

/-! What serving a transfer of a link leaves. -/

/-- What waits in a state: transfers of links for DDR, pieces of slices for a buffer, and multicasts. -/
def waiting (s : State) : List (Hdr × List Byte) × List (Hdr × List Byte) × List Mc := (s.linkWait, s.rotHeld, s.mcs)

@[simp] theorem waiting_bump (s : State) (k : Nat × Nat) (u n : Nat) : waiting (s.bump k u n) = waiting s := by
  unfold State.bump
  split <;> rfl

/-- The state of a pair, named by itself, leaves what the pair's state leaves. -/
theorem waiting_of_eq {α : Type} {s t : State} {b : α} {r : State × α} (e : r = (t, b)) (h : waiting r.1 = waiting s) :
    waiting t = waiting s := by
  rwa [e] at h

@[simp] theorem waiting_onMem (s : State) (f : Memory → Memory) : waiting (s.onMem f) = waiting s := rfl

theorem waiting_sendOn {s t : State} {cls : Nat} {h : Hdr} {d : List Byte} (e : sendOn s cls h d = some t) :
    waiting t = waiting s := by
  unfold sendOn at e
  split at e
  · cases e
  · split at e
    · cases e
    · cases e
      rfl

@[simp] theorem waiting_sendTransfer (s : State) (cls : Nat) (h : Hdr) (d : List Byte) :
    waiting (sendTransfer s cls h d).1 = waiting s := by
  unfold sendTransfer
  split
  · exact waiting_sendOn ‹_›
  · simp

@[simp] theorem waiting_replyData (s : State) (h : Hdr) (status : Nat) (d : List Byte) :
    waiting (replyData s h status d) = waiting s := waiting_sendTransfer _ _ _ _

@[simp] theorem waiting_sendAck (s : State) (h : Hdr) (cls status : Nat) : waiting (sendAck s h cls status) = waiting s :=
  waiting_sendTransfer _ _ _ _

@[simp] theorem waiting_countRead (s : State) (a n : Nat) : waiting (countRead s a n) = waiting s := by
  refine foldl_leaves (fun x b => ?_) _ _
  split <;> simp

@[simp] theorem waiting_countRange (s : State) (a n : Nat) : waiting (countRange s a n) = waiting s := by
  refine foldl_leaves (fun x b => ?_) _ _
  split <;> simp

@[simp] theorem waiting_zeroLines (s : State) (frame lines : Nat) : waiting (zeroLines s frame lines) = waiting s := by
  refine (foldl_leaves (fun x b => ?_) _ _).trans rfl
  split <;> simp

@[simp] theorem waiting_freshFill (s : State) (frame : Nat) : waiting (freshFill s frame) = waiting s := by
  unfold freshFill
  split <;> simp

@[simp] theorem waiting_burstWrite (s : State) (b : Nat) (cells : List Host.Cell) : waiting (burstWrite s b cells).1 = waiting s := by
  unfold burstWrite
  dsimp only
  split
  · rfl
  · split
    · simp
    · split <;> simp <;> rfl

@[simp] theorem waiting_ddrWriteCells (s : State) (cells : List Host.Cell) : waiting (ddrWriteCells s cells).1 = waiting s := by
  refine (foldl_leaves (g := fun x : State × Bool => waiting x.1) (fun x b => ?_) _ _).trans (foldl_leaves waiting_freshFill _ _)
  exact waiting_burstWrite x.1 b _

@[simp] theorem waiting_ddrAdd (s : State) (a : Nat) (vs : List F32) : waiting (ddrAdd s a vs).1 = waiting s := by
  refine (foldl_leaves (g := fun x : State × Bool => waiting x.1) (fun x b => ?_) _ _).trans (foldl_leaves waiting_freshFill _ _)
  dsimp only
  split <;> simp

@[simp] theorem waiting_foundAgain (s : State) (core off n : Nat) : waiting (foundAgain s core off n) = waiting s := by
  unfold foundAgain
  split <;> rfl

@[simp] theorem waiting_shelfWrite (s : State) (core off : Nat) (d : List Byte) : waiting (shelfWrite s core off d).1 = waiting s :=
  waiting_foundAgain s core off d.length

@[simp] theorem waiting_shelfAdd (s : State) (core off : Nat) (vs : List F32) : waiting (shelfAdd s core off vs).1 = waiting s := by
  unfold shelfAdd
  split <;> simp

@[simp] theorem waiting_remoteRead (s : State) (h : Hdr) (n : Nat) : waiting (remoteRead s h n).1 = waiting s := by
  unfold remoteRead
  split
  · split <;> rfl
  · split
    · rfl
    · exact foldl_leaves (g := fun x : State × Option (List Byte) => waiting x.1) (fun x _ => waiting_countRead x.1 _ _) _ _

theorem waiting_readSlice {s : State} {h : Hdr} {x : State × Option (List Byte)} (e : readSlice s h = some x) :
    waiting x.1 = waiting s := by
  unfold readSlice at e
  dsimp only at e
  split at e
  · cases e
  · split at e
    · cases e
      rfl
    · cases e
      exact foldl_leaves (fun y _ => waiting_countRead y _ _) _ _

@[simp] theorem waiting_countChunk (s : State) (m : Mc) (c off n : Nat) : waiting (countChunk s m c off n) = waiting s := by
  unfold countChunk
  split <;> simp

/-- A chunk served only counts what is read of it; one refused changes nothing (R287). -/
theorem waiting_serveChunk {s : State} {h : Hdr} {x : State × Nat × List Byte} (e : serveChunk s h = some x) :
    waiting x.1 = waiting s := by
  unfold serveChunk at e
  dsimp only at e
  repeat' split at e
  all_goals cases e
  all_goals simp

/-- A READ that is served leaves what waits (R185, R287, R294). -/
theorem waiting_applyRead {s u : State} {h : Hdr} (e : applyRead s h = some u) : waiting u = waiting s := by
  unfold applyRead at e
  split at e
  · split at e
    rename_i s1 b hr
    have hs1 : waiting s1 = waiting s := waiting_of_eq hr (waiting_remoteRead _ _ _)
    obtain rfl := Option.some.inj e
    split <;> simp [hs1]
  · split at e
    · obtain ⟨x, hx, rfl⟩ := Option.map_eq_some_iff.mp e
      split <;> simp [waiting_readSlice hx]
    · obtain ⟨x, hx, rfl⟩ := Option.map_eq_some_iff.mp e
      simp [waiting_serveChunk hx]

/-- A WRITE leaves what waits (R185, R310). -/
theorem waiting_putWrite (s : State) (h : Hdr) (d : List Byte) : waiting (putWrite s h d) = waiting s := by
  unfold putWrite
  split
  · split
    · split
      rename_i e
      rw [waiting_sendAck]
      exact waiting_of_eq e (waiting_shelfWrite _ _ _ _)
    · simp
  · split
    · simp
    · split
      rename_i e
      rw [waiting_sendAck]
      refine waiting_of_eq e (foldl_leaves (g := fun x : State × Bool => waiting x.1) (fun x p => ?_) _ _)
      split
      rename_i e
      exact waiting_of_eq e (waiting_ddrWriteCells _ _)

@[simp] theorem waiting_refuseAdd (s : State) (h : Hdr) : waiting (refuseAdd s h) = waiting s := by
  simp [refuseAdd]

/-- An ADD's end, acknowledged or refused (R284), leaves what its addends left. -/
theorem waiting_endAdd {s : State} {r : State × Bool} (hr : waiting r.1 = waiting s) (h : Hdr) (n : Nat) :
    waiting (if r.2 then sendAck (r.1.bump Ctr.addElements 0 n) h 1 0 else refuseAdd s h) = waiting s := by
  split <;> simp [hr]

/-- An ADD leaves what waits (R284). -/
theorem waiting_applyAdd (s : State) (h : Hdr) (d : List Byte) : waiting (applyAdd s h d) = waiting s := by
  unfold applyAdd
  dsimp only
  split
  · simp
  · split
    · split
      · exact waiting_endAdd (waiting_shelfAdd _ _ _ _) _ _
      · simp
    · split
      · simp
      · split
        · rw [waiting_refuseAdd]
          exact foldl_leaves (fun x p => waiting_countRead x _ _) _ _
        · refine waiting_endAdd (foldl_leaves (g := fun x : State × Bool => waiting x.1) (fun x p => ?_) _ _) _ _
          exact waiting_ddrAdd x.1 _ _

/-- A transfer of a link that is served leaves what else waits (R305). -/
theorem waiting_serveLink {s u : State} {h : Hdr} {d : List Byte} (e : serveLink s h d = some u) : waiting u = waiting s := by
  unfold serveLink at e
  split at e
  · cases e
  · split at e
    · exact waiting_applyRead e
    · cases e
      exact waiting_putWrite s h d
    · cases e
      exact waiting_applyAdd s h d

/-- The only transfer of a link that waits is taken as one that comes now. -/
theorem serveWaiting_single {s : State} {h : Hdr} {d : List Byte} (e : s.linkWait = [(h, d)]) :
    serveWaiting s = takeLink { s with linkWait := [] } h d := by
  simp [serveWaiting, e]

theorem serveWaiting_none {s : State} (e : s.linkWait = []) : serveWaiting s = s := by
  simp [serveWaiting, e]

/-! The cycle, by what waits for DDR. -/

/-- With nothing waiting, a cycle changes what an idle cycle may change, and the clock. -/
theorem tick_frame {s : State} (hw : s.linkWait = []) (h : NoSlices s) :
    tick s = { s with now := (tick s).now, beat := (tick s).beat, ports := (tick s).ports, cores := (tick s).cores,
                      counters := (tick s).counters, out := (tick s).out } := by
  have hidle := idlePart_tick (serveWaiting_none (s := { s with now := s.now + 1 }) hw) ⟨h.held, h.sends⟩
  rw [(tick_kept s).clock]
  exact eq_of_idlePart hidle

/-- A transfer that DDR makes wait goes on waiting (R305). -/
theorem tick_keepsWaiting {s : State} {hd : Hdr} {d : List Byte} (hw : s.linkWait = [(hd, d)]) (h : NoSlices s)
    (e : serveLink { s with now := s.now + 1, linkWait := [] } hd d = none) :
    (tick s).linkWait = [(hd, d)] ∧ (tick s).mem = s.mem := by
  have hs : serveWaiting { s with now := s.now + 1 } = { s with now := s.now + 1, linkWait := [(hd, d)] } :=
    (serveWaiting_single (s := { s with now := s.now + 1 }) hw).trans (by simp [takeLink, e])
  obtain ⟨hwait, -, -, hmem⟩ := waits_of_idlePart (idlePart_tick hs ⟨h.held, h.sends⟩)
  exact ⟨hwait, hmem⟩

/-- A transfer that DDR lets be served is served, and waits no more (R305). -/
theorem tick_serves {s u : State} {hd : Hdr} {d : List Byte} (hw : s.linkWait = [(hd, d)]) (h : NoSlices s)
    (e : serveLink { s with now := s.now + 1, linkWait := [] } hd d = some u) :
    (tick s).linkWait = [] ∧ (tick s).mem = u.mem := by
  have hs : serveWaiting { s with now := s.now + 1 } = u :=
    (serveWaiting_single (s := { s with now := s.now + 1 }) hw).trans (by simp [takeLink, e])
  obtain ⟨huWait, huHeld, huMcs⟩ : u.linkWait = [] ∧ u.rotHeld = s.rotHeld ∧ u.mcs = s.mcs := by
    simpa [waiting] using waiting_serveLink e
  obtain ⟨hwait, -, -, hmem⟩ := waits_of_idlePart (idlePart_tick hs (h.of_eq huHeld huMcs))
  exact ⟨hwait.trans huWait, hmem⟩

theorem step_idle {s : State} (h : s.pending = []) : step s = .next (tick s) := by
  simp [step, h]

/-- Settles O3: the idle cycle's frame, and the service of the one transfer that waits, by whether DDR lets it be. -/
theorem idleStepTicks : Obligations.IdleStepTicks := by
  unfold Obligations.IdleStepTicks
  intro s hp
  refine ⟨tick s, step_idle hp, (tick_kept s).clock, (tick_kept s).queue.trans hp, ?_, ?_⟩
  · intro hw hheld hsends
    exact tick_frame hw ⟨hheld, hsends⟩
  · intro h d hw hheld hsends
    exact ⟨tick_keepsWaiting hw ⟨hheld, hsends⟩, fun _ => tick_serves hw ⟨hheld, hsends⟩⟩

end Sys2Proof.Machine
end

section
/-!
SUPPORT. What every step keeps: a command its queue, the clock, the memories' form, the counters' 64 bits and the fuses
(log 7, log 6, R60, R385), an idle cycle all of these but the clock.
-/

namespace Sys2Proof.Machine

/-- No command ends in a fault or a refusal (log 7). -/
theorem exec_next (c : Instr) (s : State) : ∃ t, exec c s = .next t := by
  cases c <;> exact ⟨_, rfl⟩

/-- Every command keeps what none may change, each by the lemma about its own effect. -/
theorem exec_kept {s0 s : State} (hk : Kept s0 s) : ∀ c : Instr, KeptOut s0 (exec c s)
  | .createTensor m n served => execCreateTensor_kept m n served hk
  | .destroyTensor m n => execDestroyTensor_kept m n hk
  | .loadProgram m n d => execLoadProgram_kept m n d hk
  | .run m n => execRun_kept m n hk
  | .cancel m n => execCancel_kept m n hk
  | .query m n => execQuery_kept m n hk
  | .mapPages m n d => execMapPages_kept m n d hk
  | .resumeStream m n => execResumeStream_kept m n hk
  | .beginTxn m n => execBeginTxn_kept m n hk
  | .set m n d => execSet_kept m n d hk
  | .commitTxn m n => execCommitTxn_kept m n hk
  | .rollbackTxn m n => execRollbackTxn_kept m n hk
  | .formGroup m n d => execFormGroup_kept m n d hk
  | .leaveGroup m n => execLeaveGroup_kept m n hk
  | .openSession m n d => execOpenSession_kept m n d hk
  | .closeSession m n => execCloseSession_kept m n hk
  | .closeSessionComplete => execCloseSessionComplete_kept hk
  | .attest m n ok0 ok1 okC => execAttest_kept m n ok0 ok1 okC hk
  | .readCounters m n => execReadCounters_kept m n hk
  | .readCoffer m n => execReadCoffer_kept m n hk
  | .updateFirmware m n d => execUpdateFirmware_kept m n d hk
  | .orderWindowWrite q addr rkey d => execOrderWindowWrite_kept q addr rkey d hk
  | .mailboxSweep => execMailboxSweep_kept hk
  | .orderTake m => execOrderTake_kept m hk
  | .connectionReq u service psn mtu => execConnectionReq_kept u service psn mtu hk
  | .connectionRecord q d => execConnectionRecord_kept q d hk
  | .disconnectRequest q => execDisconnectRequest_kept q hk
  | .completionWrite q => execCompletionWrite_kept q hk
  | .consumerIndexRead q c => execConsumerIndexRead_kept q c hk
  | .runStart t => execRunStart_kept t hk
  | .macroStart t k_i p => execMacroStart_kept t k_i p hk
  | .runEnd t => execRunEnd_kept t hk
  | .runStopComplete t => execRunStopComplete_kept t hk
  | .matmul t k_i p => execMatmul_kept t k_i p hk
  | .matmulS24 t k_i p => execMatmulS24_kept t k_i p hk
  | .spmmX t k_i p => execSpmmX_kept t k_i p hk
  | .convW t k_i p => execConvW_kept t k_i p hk
  | .predict t k_i p => execPredict_kept t k_i p hk
  | .rowop t k_i p => execRowop_kept t k_i p hk
  | .rowopBwd t k_i p => execRowopBwd_kept t k_i p hk
  | .gather t k_i p => execGather_kept t k_i p hk
  | .scatterAdd t k_i p => execScatterAdd_kept t k_i p hk
  | .copy t k_i p => execCopy_kept t k_i p hk
  | .transpose t k_i p => execTranspose_kept t k_i p hk
  | .permute t k_i p => execPermute_kept t k_i p hk
  | .compress t k_i p => execCompress_kept t k_i p hk
  | .bwdData t k_i p => execBwdData_kept t k_i p hk
  | .bwdWeight t k_i p => execBwdWeight_kept t k_i p hk
  | .gradPush t k_i p => execGradPush_kept t k_i p hk
  | .rotate t k_i p => execRotate_kept t k_i p hk
  | .mcast t k_i p => execMcast_kept t k_i p hk
  | .waitBeat t k_i p => execWaitBeat_kept t k_i p hk
  | .fence t k_i p => execFence_kept t k_i p hk
  | .tileFirstRead t k_i p => execTileFirstRead_kept t k_i p hk
  | .preloadStart t k_i p => execPreloadStart_kept t k_i p hk
  | .tileDrain t k_i p => execTileDrain_kept t k_i p hk
  | .outputCompressor t k_i p => execOutputCompressor_kept t k_i p hk
  | .crateExpand t k_i p op slot => execCrateExpand_kept t k_i p op slot hk
  | .mergeKtile core => execMergeKtile_kept core hk
  | .listStoreLoad core lane => execListStoreLoad_kept core lane hk
  | .broadcasterPush core => execBroadcasterPush_kept core hk
  | .laneAction core lane => execLaneAction_kept core lane hk
  | .mergeRowAdd core => execMergeRowAdd_kept core hk
  | .predictorGroup t k_i p => execPredictorGroup_kept t k_i p hk
  | .zeroRowWrite t k_i p => execZeroRowWrite_kept t k_i p hk
  | .packedTile t k_i p => execPackedTile_kept t k_i p hk
  | .governedRelease t k_i p => execGovernedRelease_kept t k_i p hk
  | .halfFill t k_i p op => execHalfFill_kept t k_i p op hk
  | .transferLand id d => execTransferLand_kept id d hk
  | .writeComplete core id ok => execWriteComplete_kept core id ok hk
  | .turnedLoad t k_i p k => execTurnedLoad_kept t k_i p k hk
  | .rotateStep t k_i p => execRotateStep_kept t k_i p hk
  | .rotateReceive t k_i p rank core step => execRotateReceive_kept t k_i p rank core step hk
  | .rotateStallLimit t k_i p => execRotateStallLimit_kept t k_i p hk
  | .rotateBufferRead t k_i p off len write => execRotateBufferRead_kept t k_i p off len write hk
  | .updateSlice t k_i p => execUpdateSlice_kept t k_i p hk
  | .formationEnd => execFormationEnd_kept hk
  | .formTimeout => execFormTimeout_kept hk
  | .identitySend l => execIdentitySend_kept l hk
  | .identity l d => execIdentity_kept l d hk
  | .beatBoundary => execBeatBoundary_kept hk
  | .beatMark l number offset => execBeatMark_kept l number offset hk
  | .holdoverLimitFence => execHoldoverLimitFence_kept hk
  | .sourceLost => execSourceLost_kept hk
  | .sourceRelocked err => execSourceRelocked_kept err hk
  | .stamp l d => execStamp_kept l d hk
  | .beatFull l d => execBeatFull_kept l d hk
  | .linkState l width reason => execLinkState_kept l width reason hk
  | .viewAnnouncement epoch ranks keeper beat hold => execViewAnnouncement_kept epoch ranks keeper beat hold hk
  | .viewBeat => execViewBeat_kept hk
  | .splitSide edges => execSplitSide_kept edges hk
  | .fenceBeat => execFenceBeat_kept hk
  | .rejoin rank hops major lockedBt digest => execRejoin_kept rank hops major lockedBt digest hk
  | .reform ranks epoch => execReform_kept ranks epoch hk
  | .prepare coord staged beat => execPrepare_kept coord staged beat hk
  | .readyReply rank status => execReadyReply_kept rank status hk
  | .decision coord beat => execDecision_kept coord beat hk
  | .abort coord => execAbort_kept coord hk
  | .txnReplyTimeout => execTxnReplyTimeout_kept hk
  | .commitBeat => execCommitBeat_kept hk
  | .localCommitBeat => execLocalCommitBeat_kept hk
  | .frameReceive l d fixed bad => execFrameReceive_kept l d fixed bad hk
  | .frameSend l => execFrameSend_kept l hk
  | .replayTimeout l => execReplayTimeout_kept l hk
  | .laneSignalLoss l lane => execLaneSignalLoss_kept l lane hk
  | .linkRetrain l pass0 pass1 => execLinkRetrain_kept l pass0 pass1 hk
  | .linkDownRetry l => execLinkDownRetry_kept l hk
  | .transferForward h d => execTransferForward_kept h d hk
  | .readTransfer h => execReadTransfer_kept h hk
  | .readData h d => execReadData_kept h d hk
  | .writeTransfer h d => execWriteTransfer_kept h d hk
  | .add h d => execAdd_kept h d hk
  | .ack h => execAck_kept h hk
  | .mgmt h d => execMgmt_kept h d hk
  | .join key epoch rank => execJoin_kept key epoch rank hk
  | .mcData h address tag d => execMcData_kept h address tag d hk
  | .mcAck key epoch rank address => execMcAck_kept key epoch rank address hk
  | .mcastDetach key pos rank => execMcastDetach_kept key pos rank hk
  | .detach rank d => execDetach_kept rank d hk
  | .catchupLimit key pos rank => execCatchupLimit_kept key pos rank hk
  | .mcastComplete t k_i => execMcastComplete_kept t k_i hk
  | .redStatus h d => execRedStatus_kept h d hk
  | .redPart h address count d => execRedPart_kept h address count d hk
  | .reducerCombine key node slice => execReducerCombine_kept key node slice hk
  | .redResult h address count d => execRedResult_kept h address count d hk
  | .pushDeadline key => execPushDeadline_kept key hk
  | .pushComplete key => execPushComplete_kept key hk
  | .ddrQueueEntry ch req op addr len d => execDdrQueueEntry_kept ch req op addr len d hk
  | .burstRead ch errs extra => execBurstRead_kept ch errs extra hk
  | .burstWrite ch errs extra => execBurstWrite_kept ch errs extra hk
  | .atomicAddBurst ch errs extra => execAtomicAddBurst_kept ch errs extra hk
  | .freshFill frame => execFreshFill_kept frame hk
  | .scrub ch errs extra => execScrub_kept ch errs extra hk
  | .linkRetry ch => execLinkRetry_kept ch hk
  | .channelRetrain ch ok => execChannelRetrain_kept ch ok hk
  | .backgroundZeroing => execBackgroundZeroing_kept hk
  | .rocePacket u k => execRocePacket_kept u k hk
  | .ackTimeout q => execAckTimeout_kept q hk
  | .ethFrameReceive u k => execEthFrameReceive_kept u k hk
  | .portUp u => execPortUp_kept u hk
  | .portDown u => execPortDown_kept u hk
  | .pauseFrame u prio quanta => execPauseFrame_kept u prio quanta hk
  | .pfcStorm u => execPfcStorm_kept u hk
  | .pfcStormEnd u => execPfcStormEnd_kept u hk
  | .cnp q => execCnp_kept q hk
  | .rateRecovery q => execRateRecovery_kept q hk
  | .mka u sak => execMka_kept u sak hk
  | .ptpTimeUpdate u time offset predicted slave measured => execPtpTimeUpdate_kept u time offset predicted slave measured hk
  | .arbiterRound cls inst raised => execArbiterRound_kept cls inst raised hk
  | .watchdogCheck kind unit progress excused => execWatchdogCheck_kept kind unit progress excused hk
  | .shelfScrub core err => execShelfScrub_kept core err hk
  | .lockstepMismatch => execLockstepMismatch_kept hk
  | .imionRestarted => execImionRestarted_kept hk
  | .governorBudget demands perStep idle => execGovernorBudget_kept demands perStep idle hk
  | .powerSample watts => execPowerSample_kept watts hk
  | .currentLimit amps => execCurrentLimit_kept amps hk
  | .thermalSample temps => execThermalSample_kept temps hk
  | .thermtrip sensor => execThermtrip_kept sensor hk
  | .marginSample slacks => execMarginSample_kept slacks hk
  | .marginTrip mon slack => execMarginTrip_kept mon slack hk
  | .marginDaily => execMarginDaily_kept hk
  | .cofferWrite ok0 ok1 => execCofferWrite_kept ok0 ok1 hk
  | .holdUp => execHoldUp_kept hk
  | .vddStbyApplied => execVddStbyApplied_kept hk
  | .vddStbyFall => execVddStbyFall_kept hk
  | .railRise r => execRailRise_kept r hk
  | .railLow r => execRailLow_kept r hk
  | .railHigh r => execRailHigh_kept r hk
  | .resetNAssert => execResetNAssert_kept hk
  | .resetNRelease => execResetNRelease_kept hk
  | .stageRom => execStageRom_kept hk
  | .stageImion => execStageImion_kept hk
  | .stageMemory declared unsupported fails => execStageMemory_kept declared unsupported fails hk
  | .ephemeralKeyGeneration ok0 ok1 okC => execEphemeralKeyGeneration_kept ok0 ok1 okC hk
  | .filteredPulse pin => execFilteredPulse_kept pin hk
  | .haltNAssert => execHaltNAssert_kept hk
  | .haltNRelease => execHaltNRelease_kept hk
  | .beatInEdge => execBeatInEdge_kept hk
  | .ladderInChange level => execLadderInChange_kept level hk
  | .ladderClaim ack d => execLadderClaim_kept ack d hk
  | .getpid => execGetpid_kept hk
  | .getbcr => execGetbcr_kept hk
  | .getdcr => execGetdcr_kept hk
  | .getstatus => execGetstatus_kept hk
  | .i3cPrivateWrite d => execI3cPrivateWrite_kept d hk
  | .i3cPrivateRead n => execI3cPrivateRead_kept n hk
  | .statusWordClear mask => execStatusWordClear_kept mask hk
  | .subportCommit u flags => execSubportCommit_kept u flags hk
  | .thermtripRelease => execThermtripRelease_kept hk
  | .refclkCoreDetect => execRefclkCoreDetect_kept hk
  | .refclkCoreLoss => execRefclkCoreLoss_kept hk
  | .avsSetpoint acked => execAvsSetpoint_kept acked hk
  | .disconnectAfterReply q => execDisconnectAfterReply_kept q hk
  | .firmwareStaged ok => execFirmwareStaged_kept ok hk
  | .signatureRelease ok0 ok1 okC => execSignatureRelease_kept ok0 ok1 okC hk
  | .backInService kind unit => execBackInService_kept kind unit hk
  | .refclkSerChange n ok => execRefclkSerChange_kept n ok hk
  | .boundaryScan tms tdi trstN => execBoundaryScan_kept tms tdi trstN hk

theorem exec_next_kept (c : Instr) (s : State) : ∃ t, exec c s = .next t ∧ Kept s t := by
  obtain ⟨t, ht⟩ := exec_next c s
  exact ⟨t, ht, (exec_kept (Kept.refl s) c).next t ht⟩

/-- A step moves the clock on or takes a command from the queue, and keeps the rest of what no command changes. -/
theorem step_next_kept (s : State) :
    ∃ now pending t, step s = .next t ∧ Kept { s with now := now, pending := pending } t := by
  cases hp : s.pending with
  | nil => exact ⟨s.now + 1, s.pending, tick s, step_idle hp, tick_kept s⟩
  | cons c rest =>
    obtain ⟨t, ht, hk⟩ := exec_next_kept c { s with pending := rest }
    exact ⟨s.now, rest, t, by simpa [step, hp] using ht, hk⟩

/-- Settles O5: every change of the counters saturates at 64 bits (R60). -/
theorem stepKeepsCountersFit : Obligations.StepKeepsCountersFit := by
  unfold Obligations.StepKeepsCountersFit
  intro s hs
  obtain ⟨_, _, t, ht, hk⟩ := step_next_kept s
  exact ⟨t, ht, hk.fits hs⟩

end Sys2Proof.Machine
end

section
/-!
SUPPORT. The arithmetic of a tile: the integer and the float accumulation (R44, R50, R56), the passes of a job that retries
(R51, R53) and clamped coordinates (R165).
-/

namespace Sys2Proof.Machine

/-! Integer accumulation. -/

/-- An integer of 32 bits is what its two's complement code stands for. -/
theorem decInt_encInt_32 {t : Int} (hl : -2147483648 ≤ t) (hu : t ≤ 2147483647) : decInt 32 (encInt 32 t) = t := by
  unfold decInt encInt
  omega

theorem scaledTo_zero (neg : Bool) (m : Nat) : scaledTo neg m 0 0 = if neg then -(m : Int) else m := rfl

theorem int_ofInt (a : Int) : (Val.ofInt a).int = a := by
  have h : (Val.ofInt a).int = scaledTo (decide (a < 0)) a.natAbs 0 0 := rfl
  rw [h, scaledTo_zero]
  simp only [decide_eq_true_eq]
  omega

/-- One integer step on an element that is not held: the sum of the running sum and the tree's, saturated (R44). -/
theorem accInt_of_not_sat {c : Acc} (h : c.sat = false) (ps : List Int) :
    accInt c ps =
      if c.v.int + decInt 32 (encInt 32 (ps.foldl (· + ·) 0)) > 2147483647 then
        ({ v := .ofInt 2147483647, sat := true }, true, false)
      else if c.v.int + decInt 32 (encInt 32 (ps.foldl (· + ·) 0)) < -2147483648 then
        ({ v := .ofInt (-2147483648), sat := true }, true, false)
      else ({ c with v := .ofInt (c.v.int + decInt 32 (encInt 32 (ps.foldl (· + ·) 0))) }, false, false) := by
  unfold accInt
  rw [h]
  rfl

theorem accInt_of_sat {c : Acc} (h : c.sat = true) (ps : List Int) : accInt c ps = (c, false, false) := by
  simp [accInt, h]

/-- A product of 32 bits added to a running sum. -/
theorem accInt_ofInt_singleton (a : Int) (nan : Bool) {t : Int} (hl : -2147483648 ≤ t) (hu : t ≤ 2147483647) :
    accInt { v := .ofInt a, nan := nan } [t] =
      if a + t > 2147483647 then ({ v := .ofInt 2147483647, sat := true }, true, false)
      else if a + t < -2147483648 then ({ v := .ofInt (-2147483648), sat := true }, true, false)
      else ({ v := .ofInt (a + t), nan := nan }, false, false) := by
  simp [accInt_of_not_sat, int_ofInt, decInt_encInt_32 hl hu]

/-! Float accumulation. -/

/-- An element that is held or a NaN takes no more (R50, R56). -/
theorem accFloat_of_stuck {c : Acc} (h : c.sat = true ∨ c.nan = true) (r : StepRes) (d : Nat) :
    accFloat c r d = (c, false, false) := by
  rcases h with h | h <;> simp [accFloat, h]

section
variable {c : Acc} (hs : c.sat = false) (hn : c.nan = false)
include hs hn

theorem accFloat_nan (d : Nat) : accFloat c .nan d = ({ v := .nan, nan := true }, false, false) := by
  simp [accFloat, hs, hn]

theorem accFloat_above (n : Bool) (d : Nat) : accFloat c (.above n) d = ({ v := max32 n, sat := true }, true, false) := by
  simp [accFloat, hs, hn]

theorem accFloat_overInf (n : Bool) (d : Nat) : accFloat c (.overInf n) d = ({ v := max32 n, sat := true }, true, true) := by
  simp [accFloat, hs, hn]

theorem accFloat_sum_of_over32 {t : Val} {d : Nat} (h : (stochastic c.v t d).over32 = true) :
    accFloat c (.sum t) d = ({ v := max32 (stochastic c.v t d).neg, sat := true }, true, false) := by
  simp [accFloat, hs, hn, h]

end

/-! The passes of a job. -/

/-- The outcome x is that of a job's pass n, after the passes that the stops name. -/
def EngineJob.EndsAt (j : EngineJob) (x : TileRes) (n : Nat) (stops : List Nat) : Prop :=
  x.n = n ∧ x.stops = stops ∧ x.accs = (j.pass n).map (fun row => row.map (fun e => e.1))

/-- A pass is a job's last, or it leaves its mark and the next one follows: only with retries left, and not in the integer
class (R51, R53). -/
theorem EngineJob.run_endsAt_or_retries (j : EngineJob) (retry : Bool) (fuel n : Nat) (stops : List Nat) :
    j.EndsAt (j.run retry fuel n stops) n stops
      ∨ ∃ k mark, fuel = k + 1 ∧ retry = true ∧ j.isInt = false
          ∧ j.run retry fuel n stops = j.run retry k (n + 1) (stops ++ [mark]) := by
  cases fuel with
  | zero => exact .inl ⟨rfl, rfl, rfl⟩
  | succ k =>
    rw [EngineJob.run]
    split
    · next h =>
      simp only [Bool.and_eq_true, Bool.not_eq_true'] at h
      obtain ⟨⟨⟨⟨⟨hretry, hint⟩, -⟩, -⟩, -⟩, -⟩ := h
      exact .inr ⟨k, _, rfl, hretry, hint, rfl⟩
    · exact .inl ⟨rfl, rfl, rfl⟩

/-- What a job leaves is that of its last pass, each abandoned one having left one mark. -/
theorem EngineJob.run_endsAt (j : EngineJob) (retry : Bool) (fuel n : Nat) (stops : List Nat) :
    ∃ more : List Nat, more.length ≤ fuel ∧ j.EndsAt (j.run retry fuel n stops) (n + more.length) (stops ++ more) := by
  induction fuel generalizing n stops with
  | zero => exact ⟨[], Nat.le_refl _, rfl, (List.append_nil _).symm, rfl⟩
  | succ fuel ih =>
    rcases j.run_endsAt_or_retries retry (fuel + 1) n stops with hend | ⟨k, mark, hk, -, -, hrun⟩
    · exact ⟨[], Nat.zero_le _, by simpa using hend⟩
    · cases hk
      obtain ⟨more, hlen, hend⟩ := ih (n + 1) (stops ++ [mark])
      refine ⟨mark :: more, Nat.succ_le_succ hlen, ?_⟩
      rw [hrun]
      simpa [Nat.add_assoc, Nat.add_comm 1] using hend

/-- A job of integer class, or one that does not retry, makes one pass (R51). -/
theorem EngineJob.run_endsAt_of_no_retry {j : EngineJob} {retry : Bool} (h : retry = false ∨ j.isInt = true) (fuel n : Nat)
    (stops : List Nat) : j.EndsAt (j.run retry fuel n stops) n stops := by
  rcases j.run_endsAt_or_retries retry fuel n stops with hend | ⟨_, _, -, hretry, hint, -⟩
  · exact hend
  · simp [hretry, hint] at h

/-! Clamped coordinates. -/

theorem clampTo_of_neg (e : Nat) {x : Int} (h : x < 0) : clampTo e x = (0, true) := if_pos h

theorem clampTo_of_inside {e : Nat} {x : Int} (h0 : 0 ≤ x) (h : x < e) : clampTo e x = (x.toNat, false) := by
  unfold clampTo
  rw [if_neg (Int.not_lt.mpr h0), if_neg (Int.not_le.mpr h)]

theorem clampTo_of_above {e : Nat} {x : Int} (h : (e : Int) ≤ x) : clampTo e x = (e - 1, true) := by
  unfold clampTo
  rw [if_neg (by omega), if_pos h]

/-- Settles O21: the accumulations by their equations, the job's passes by induction on the retries left, and the clamp by
where the coordinate lies. -/
theorem tileArithmetic : Obligations.TileArithmetic := by
  unfold Obligations.TileArithmetic
  refine ⟨?_, ?_, ?_, ?_⟩
  · intro a t nan _ _ htl htu
    rw [accInt_ofInt_singleton a nan htl htu]
    refine ⟨fun hl hu => ?_, fun h => if_pos h, fun h => ?_, fun c ps h => accInt_of_sat h ps⟩
    · rw [if_neg (by omega), if_neg (by omega)]
    · rw [if_neg (by omega), if_pos h]
  · intro c r d
    refine ⟨fun h => accFloat_of_stuck h r d, fun hs hn => ⟨?_, ?_, ?_, ?_⟩⟩
    · rw [accFloat_nan hs hn]
    · exact fun n => accFloat_above hs hn n d
    · exact fun n => accFloat_overInf hs hn n d
    · exact fun t h => accFloat_sum_of_over32 hs hn h
  · intro j retry
    obtain ⟨more, hlen, hn, hstops, haccs⟩ := j.run_endsAt retry 2 0 []
    rw [← hn] at haccs
    exact ⟨by omega, by simp [hn, hstops], fun h => (EngineJob.run_endsAt_of_no_retry h 2 0 []).1, haccs⟩
  · intro e x he
    rcases Int.lt_or_le x 0 with hneg | h0
    · rw [clampTo_of_neg e hneg]
      grind
    · rcases Int.lt_or_le x e with hin | habove
      · rw [clampTo_of_inside h0 hin]
        grind
      · rw [clampTo_of_above habove]
        grind

end Sys2Proof.Machine
end

section
/-!
SUPPORT. Transactions at their end (R367, R368, R264): what answering orders and posting events leaves, what a committed list
of keys changes, and that a fence leaves the configuration.
-/

namespace Sys2Proof.Machine

/-! Answering orders. -/

/-- The state without what answering orders may change: the transaction, the orders, the queue pairs and the counters. -/
def answerPart (s : State) : State := { s with txn := {}, orders := [], qps := [], counters := [] }

/-- A state that answering orders leads to differs from the one before it in the four fields named, and in no other. -/
theorem eq_of_answerPart {s t : State} (h : answerPart t = answerPart s) :
    t = { s with txn := t.txn, orders := t.orders, qps := t.qps, counters := t.counters } :=
  congrArg (fun x : State => { x with txn := t.txn, orders := t.orders, qps := t.qps, counters := t.counters }) h

@[simp] theorem answerPart_bump (s : State) (k : Nat × Nat) (u n : Nat) : answerPart (s.bump k u n) = answerPart s := by
  unfold State.bump
  split <;> rfl

@[simp] theorem answerPart_onQp (s : State) (q : Nat) (f : Qp → Qp) : answerPart (s.onQp q f) = answerPart s := by
  unfold State.onQp
  split <;> rfl

@[simp] theorem answerPart_deliver (s : State) (q : Nat) (c : Completion) : answerPart (deliver s q c) = answerPart s := by
  unfold deliver
  split <;> simp

@[simp] theorem answerPart_deliverEvent (s : State) (c : Completion) : answerPart (deliverEvent s c) = answerPart s := by
  refine foldl_leaves (fun x p => ?_) _ _
  split <;> simp

@[simp] theorem answerPart_countEnd (s : State) (code : Nat) (st : BitVec 8) : answerPart (countEnd s code st) = answerPart s := by
  unfold countEnd
  simp only [apply_ite answerPart, answerPart_bump, ite_self]

@[simp] theorem answerPart_complete (s : State) (o : Order) (st : BitVec 8) (d : List Byte) :
    answerPart (complete s o st d) = answerPart s := by
  unfold complete
  split
  · rfl
  · exact (answerPart_deliver _ _ _).trans ((answerPart_countEnd _ _ _).trans rfl)

@[simp] theorem answerPart_endCommit (s : State) (st : BitVec 8) (rank keys beat : Nat) :
    answerPart (endCommit s st rank keys beat) = answerPart s := by
  unfold endCommit
  split
  · rfl
  · dsimp only
    split
    · exact answerPart_complete _ _ _ _
    · rfl

@[simp] theorem answerPart_rollback (s : State) (st : BitVec 8) : answerPart (rollback s st) = answerPart s :=
  answerPart_endCommit s st 0xFFFF 0 0

theorem bump_txn (s : State) (k : Nat × Nat) (u n : Nat) : (s.bump k u n).txn = s.txn := by
  unfold State.bump
  split <;> rfl

theorem deliver_txn (s : State) (q : Nat) (c : Completion) : (deliver s q c).txn = s.txn := by
  unfold deliver State.onQp
  split
  · split <;> rfl
  · exact bump_txn _ _ _ _

theorem countEnd_txn (s : State) (code : Nat) (st : BitVec 8) : (countEnd s code st).txn = s.txn := by
  unfold countEnd
  simp only [apply_ite State.txn, bump_txn, ite_self]

theorem complete_txn (s : State) (o : Order) (st : BitVec 8) (d : List Byte) : (complete s o st d).txn = s.txn := by
  unfold complete
  split
  · rfl
  · exact (deliver_txn _ _ _).trans (countEnd_txn _ _ _)

/-! Posting events. -/

/-- The state without what answering orders and posting events may change. -/
def noticePart (s : State) : State := { answerPart s with coffer := {}, health := {} }

theorem noticePart_of_answerPart {s t : State} (h : answerPart t = answerPart s) : noticePart t = noticePart s :=
  congrArg (fun x : State => { x with coffer := {}, health := {} }) h

@[simp] theorem noticePart_postEvent (s : State) (code : Nat) (d : List Byte) : noticePart (postEvent s code d) = noticePart s := by
  unfold postEvent
  dsimp only
  split
  · rfl
  · exact (noticePart_of_answerPart (answerPart_deliverEvent _ _)).trans rfl

/-! What committing keys leaves. -/

/-- What a commit of keys is about: the committed values; and what it leaves: the memories, the runs and what a member
prepared. -/
def commitPart (s : State) : List (Nat × List Byte) × Memory × List Run × Option Prepared := (s.keys, s.mem, s.runs, s.prepared)

theorem commitPart_eq_iff {s : State} {ks : List (Nat × List Byte)} {m : Memory} {rs : List Run} {p : Option Prepared} :
    commitPart s = (ks, m, rs, p) ↔ s.keys = ks ∧ s.mem = m ∧ s.runs = rs ∧ s.prepared = p := by
  simp [commitPart]

theorem commitPart_of_noticePart {s t : State} (h : noticePart t = noticePart s) : commitPart t = commitPart s :=
  show commitPart (noticePart t) = commitPart (noticePart s) from congrArg commitPart h

theorem commitPart_of_answerPart {s t : State} (h : answerPart t = answerPart s) : commitPart t = commitPart s :=
  commitPart_of_noticePart (noticePart_of_answerPart h)

@[simp] theorem commitPart_bump (s : State) (k : Nat × Nat) (u n : Nat) : commitPart (s.bump k u n) = commitPart s :=
  commitPart_of_answerPart (answerPart_bump s k u n)

@[simp] theorem commitPart_postEvent (s : State) (code : Nat) (d : List Byte) : commitPart (postEvent s code d) = commitPart s :=
  commitPart_of_noticePart (noticePart_postEvent s code d)

@[simp] theorem commitPart_rollback (s : State) (st : BitVec 8) : commitPart (rollback s st) = commitPart s :=
  commitPart_of_answerPart (answerPart_rollback s st)

/-- A queue pair that fails, its transaction rolled back, changes no key (R335, R369). -/
@[simp] theorem commitPart_qpError (s : State) (q cause : Nat) : commitPart (qpError s q cause) = commitPart s := by
  unfold qpError
  split
  · rfl
  · dsimp only
    split
    · rfl
    · have hcount (v : Qp) (ms : List (Nat × Mailbox)) (w u : Nat) :
          commitPart { ((s.setQp q v).bump Ctr.completionsDropped q w).bump Ctr.qpErrors u 1 with mailboxes := ms }
            = commitPart s :=
        (commitPart_bump _ _ _ _).trans (commitPart_bump _ _ _ _)
      rw [commitPart_postEvent]
      split
      · exact (commitPart_rollback _ _).trans (hcount _ _ _ _)
      · exact hcount _ _ _ _

@[simp] theorem commitPart_portModeChange (s : State) (n : Nat) : commitPart (portModeChange s n) = commitPart s := by
  unfold portModeChange
  refine (foldl_leaves (fun x u => ?_) _ _).trans (foldl_leaves (fun x p => commitPart_qpError x _ _) _ _)
  split
  · exact (commitPart_postEvent _ _ _).trans rfl
  · rfl

/-- A commit of a key puts its value, and at once changes nothing of what work runs on (R363). -/
theorem commitPart_applyKey (s : State) (k : Nat) (v : List Byte) :
    commitPart (applyKey s k v) = (put k (keyStored k v) s.keys, s.mem, s.runs, s.prepared) := by
  unfold applyKey
  dsimp only
  split
  · rfl
  · split
    · rfl
    · split
      · split
        · rfl
        · exact commitPart_portModeChange _ _
      · split
        · split <;> rfl
        · split <;> rfl

/-- The committed values after a list of changes. -/
def putStored (l : List (Nat × List Byte)) (ks : List (Nat × List Byte)) : List (Nat × List Byte) :=
  l.foldl (fun ks e => put e.1 (keyStored e.1 e.2) ks) ks

theorem commitPart_applyAll (s : State) (l : List (Nat × List Byte)) :
    commitPart (applyAll s l) = (putStored l s.keys, s.mem, s.runs, s.prepared) := by
  induction l generalizing s with
  | nil => rfl
  | cons e l ih =>
    obtain ⟨hkeys, hmem, hruns, hprep⟩ := commitPart_eq_iff.mp (commitPart_applyKey s e.1 e.2)
    exact (ih (applyKey s e.1 e.2)).trans (by rw [hkeys, hmem, hruns, hprep]; rfl)

theorem look_putStored_of_notMem {l : List (Nat × List Byte)} {k : Nat} (h : k ∉ l.map Prod.fst) (ks : List (Nat × List Byte)) :
    look k (putStored l ks) = look k ks := by
  induction l generalizing ks with
  | nil => rfl
  | cons e l ih =>
    simp only [List.map_cons, List.mem_cons, not_or] at h
    exact (ih h.2 _).trans (look_put_other h.1 _ _)

/-- Of a list that names each key once every value is there. -/
theorem look_putStored_of_mem {l : List (Nat × List Byte)} (hl : (l.map Prod.fst).Nodup) {k : Nat} {v : List Byte}
    (h : (k, v) ∈ l) (ks : List (Nat × List Byte)) : look k (putStored l ks) = some (keyStored k v) := by
  induction l generalizing ks with
  | nil => cases h
  | cons e l ih =>
    obtain ⟨hnot, hl⟩ := List.nodup_cons.mp hl
    rcases List.mem_cons.mp h with rfl | h
    · exact (look_putStored_of_notMem hnot _).trans (look_put_same _ _ _)
    · exact ih hl h _

/-- The state u holds the changes l of s, committed: each key of the list has its value and no other key has changed, nor have
the memories and the runs. -/
structure Committed (s : State) (l : List (Nat × List Byte)) (u : State) : Prop where
  here : ∀ k v, (k, v) ∈ l → keyVal u k = some (keyStored k v)
  elsewhere : ∀ k, k ∉ l.map Prod.fst → keyVal u k = keyVal s k
  runs : u.runs = s.runs
  mem : u.mem = s.mem
  prepared : u.prepared = s.prepared

theorem committed_of_commitPart {s u : State} {l : List (Nat × List Byte)} (hl : (l.map Prod.fst).Nodup)
    (h : commitPart u = (putStored l s.keys, s.mem, s.runs, s.prepared)) : Committed s l u := by
  obtain ⟨hkeys, hmem, hruns, hprep⟩ := commitPart_eq_iff.mp h
  refine ⟨fun k v hkv => ?_, fun k hk => ?_, hruns, hmem, hprep⟩
  · exact (congrArg (look k) hkeys).trans (look_putStored_of_mem hl hkv s.keys)
  · exact (congrArg (look k) hkeys).trans (look_putStored_of_notMem hk s.keys)

theorem committed_applyAll_bump (s : State) {l : List (Nat × List Byte)} (hl : (l.map Prod.fst).Nodup) (c : Nat × Nat)
    (u n : Nat) : Committed s l ((applyAll s l).bump c u n) :=
  committed_of_commitPart hl ((commitPart_bump _ _ _ _).trans (commitPart_applyAll s l))

/-- A transaction whose stages all stand is applied whole, and closes (R367). -/
theorem applyTxn_committed {s : State} (hst : stagedStatus s s.txn.group s.txn.staged = eOk)
    (hl : (s.txn.staged.map Prod.fst).Nodup) : Committed s s.txn.staged (applyTxn s) ∧ (applyTxn s).txn = {} := by
  unfold applyTxn
  rw [if_neg (fun h => h hst)]
  refine ⟨committed_of_commitPart hl ?_, rfl⟩
  refine (commitPart_of_answerPart (answerPart_endCommit _ _ _ _ _)).trans ?_
  refine (commitPart_bump _ _ _ _).trans ((commitPart_applyAll _ _).trans ?_)
  split <;> rfl

/-! What a fence leaves. -/

/-- What the end of runs leaves: the committed values and what the device knows of its group. -/
def configPart (s : State) : List (Nat × List Byte) × Group := (s.keys, s.group)

theorem configPart_eq_iff {s : State} {ks : List (Nat × List Byte)} {g : Group} :
    configPart s = (ks, g) ↔ s.keys = ks ∧ s.group = g := by
  simp [configPart]

theorem configPart_of_noticePart {s t : State} (h : noticePart t = noticePart s) : configPart t = configPart s :=
  show configPart (noticePart t) = configPart (noticePart s) from congrArg configPart h

theorem configPart_of_answerPart {s t : State} (h : answerPart t = answerPart s) : configPart t = configPart s :=
  configPart_of_noticePart (noticePart_of_answerPart h)

@[simp] theorem configPart_bump (s : State) (k : Nat × Nat) (u n : Nat) : configPart (s.bump k u n) = configPart s :=
  configPart_of_answerPart (answerPart_bump s k u n)

@[simp] theorem configPart_postEvent (s : State) (code : Nat) (d : List Byte) : configPart (postEvent s code d) = configPart s :=
  configPart_of_noticePart (noticePart_postEvent s code d)

@[simp] theorem configPart_complete (s : State) (o : Order) (st : BitVec 8) (d : List Byte) :
    configPart (complete s o st d) = configPart s :=
  configPart_of_answerPart (answerPart_complete s o st d)

@[simp] theorem configPart_rollback (s : State) (st : BitVec 8) : configPart (rollback s st) = configPart s :=
  configPart_of_answerPart (answerPart_rollback s st)

theorem configPart_sendOn {s t : State} {cls : Nat} {h : Hdr} {d : List Byte} (e : sendOn s cls h d = some t) :
    configPart t = configPart s := by
  unfold sendOn at e
  split at e
  · cases e
  · split at e
    · cases e
    · cases e
      rfl

@[simp] theorem configPart_sendTransfer (s : State) (cls : Nat) (h : Hdr) (d : List Byte) :
    configPart (sendTransfer s cls h d).1 = configPart s := by
  unfold sendTransfer
  split
  · exact configPart_sendOn ‹_›
  · exact configPart_bump _ _ _ _

@[simp] theorem configPart_sendMgmt (s : State) (dest code : Nat) (body : List Byte) :
    configPart (sendMgmt s dest code body) = configPart s := by
  unfold sendMgmt
  split
  · rfl
  · exact foldl_leaves (fun x i => configPart_sendTransfer _ _ _ _) _ _

@[simp] theorem configPart_leaveChildren (s : State) (m : Mc) : configPart (leaveChildren s m) = configPart s := by
  unfold leaveChildren
  split
  · rfl
  · exact foldl_leaves (fun x c => by simp) _ _

@[simp] theorem configPart_endMcasts (s : State) (tag : Nat) : configPart (endMcasts s tag) = configPart s :=
  foldl_leaves configPart_leaveChildren _ _

theorem configPart_cofferAdd (s : State) (kind part : Nat) (payload : List Byte) :
    configPart (cofferAdd s kind part payload) = configPart s := rfl

theorem configPart_layers (s : State) (ls : List (Nat × LayerState)) : configPart { s with layers := ls } = configPart s := rfl

/-- In each of its branches the adaptation sets the slot, at most with an entry in the coffer (R144). -/
@[simp] theorem configPart_adaptSlot (s : State) (slot audited missed : Nat) :
    configPart (adaptSlot s slot audited missed) = configPart s := by
  unfold adaptSlot
  dsimp only
  simp only [apply_ite configPart, configPart_cofferAdd, configPart_layers, ite_self]

@[simp] theorem configPart_adaptRun (s : State) (r : Run) : configPart (adaptRun s r) = configPart s :=
  foldl_leaves (fun x k => configPart_adaptSlot x k _ _) _ _

@[simp] theorem configPart_releaseCores (s : State) (r : Run) : configPart (releaseCores s r) = configPart s :=
  foldl_leaves (by intros; rfl) _ _

@[simp] theorem configPart_completeRun (s : State) (r : Run) (st : BitVec 8) : configPart (completeRun s r st) = configPart s := by
  unfold completeRun
  split
  · exact configPart_complete _ _ _ _
  · rfl

@[simp] theorem configPart_completeWaiter (s : State) (m n : Nat) : configPart (completeWaiter s m n) = configPart s := by
  unfold completeWaiter
  split
  · split
    · exact configPart_complete _ _ _ _
    · rfl
  · rfl

/-- A run that ends posts its completions and adapts its slots, and no key changes (R29). -/
@[simp] theorem configPart_endRun (s : State) (tag : Nat) (st : BitVec 8) : configPart (endRun s tag st) = configPart s := by
  unfold endRun
  split
  · rfl
  · dsimp only
    rw [foldl_leaves (fun x o => configPart_completeWaiter x _ _), configPart_completeRun, configPart_releaseCores,
      configPart_adaptRun]
    split
    · refine (foldl_leaves (by intros; rfl) _ _).trans ((configPart_endMcasts _ _).trans rfl)
    · exact (configPart_endMcasts _ _).trans rfl

@[simp] theorem configPart_discardReads (s : State) (tag : Nat) : configPart (discardReads s tag) = configPart s := by
  refine Eq.trans rfl (foldl_leaves (g := configPart) (fun x y => ?_) s.xfers s)
  split <;> simp

@[simp] theorem configPart_dropStreams (s : State) (tag : Nat) : configPart (dropStreams s tag) = configPart s := by
  refine Eq.trans rfl (foldl_leaves (g := configPart) (fun x y => ?_) s.streams s)
  split <;> simp

@[simp] theorem configPart_abandonTiles (s : State) (r : Run) : configPart (abandonTiles s r) = configPart s :=
  foldl_leaves (fun _ _ => foldl_leaves (by intros; rfl) _ _) _ _

@[simp] theorem configPart_stopRun (s : State) (tag : Nat) (st : BitVec 8) (mi : Nat) :
    configPart (stopRun s tag st mi) = configPart s := by
  unfold stopRun
  split
  · rfl
  · split
    · rfl
    · refine Eq.trans rfl ((configPart_releaseCores _ _).trans ?_)
      simp

@[simp] theorem configPart_endAllRuns (s : State) (st : BitVec 8) : configPart (endAllRuns s st) = configPart s := by
  refine foldl_leaves (fun x t => ?_) _ _
  unfold cancelRun
  split
  · rfl
  · split
    · exact configPart_endRun _ _ _
    · exact configPart_stopRun _ _ _ _

/-- A member that fences itself, no LEAVE_GROUP waiting, is FENCED with its configuration as it was and nothing prepared
(R258). -/
theorem fenceSelf_fences {s : State} (hview : inView s = true) (hleave : s.group.leaveOrder = none) (cause : Nat) :
    (fenceSelf s cause).group.state = 4 ∧ (fenceSelf s cause).keys = s.keys ∧ (fenceSelf s cause).prepared = none := by
  unfold fenceSelf
  rw [if_neg (by simp [hview])]
  extract_lets ended closed group beat fenced noted
  have hclosed : configPart closed = configPart s := by
    unfold closed
    split
    · exact (configPart_rollback _ _).trans (configPart_endAllRuns _ _)
    · exact configPart_endAllRuns _ _
  have hcommit : commitPart noted = commitPart fenced := (commitPart_bump _ _ _ _).trans (commitPart_postEvent _ _ _)
  have hconfig : configPart noted = configPart fenced := (configPart_bump _ _ _ _).trans (configPart_postEvent _ _ _)
  obtain ⟨hkeys, hgroup⟩ := configPart_eq_iff.mp hclosed
  obtain ⟨hnotedKeys, hnotedGroup⟩ := configPart_eq_iff.mp hconfig
  obtain ⟨-, -, -, hprep⟩ := commitPart_eq_iff.mp hcommit
  have hstays : noted.group.leaveOrder.isSome = false := by
    have hclosedLeave : closed.group.leaveOrder = none := hgroup ▸ hleave
    rw [hnotedGroup]
    exact congrArg Option.isSome hclosedLeave
  rw [if_neg (by simp [hstays])]
  exact ⟨congrArg Group.state hnotedGroup, hnotedKeys.trans hkeys, hprep⟩

/-! What the commands do. -/

/-- An order admitted has its own meaning (R355). -/
theorem orderCmd_of_admitted {s : State} {m n code : Nat} {o : Order} (h : Safety.Admitted s m n code o)
    (f : State → Order → State) : orderCmd s m n code f = f s o := by
  obtain ⟨hready, hcheck⟩ := h
  simp [orderCmd, hready, hcheck]

theorem exec_commitTxn_of_admitted {s : State} {m n : Nat} {o : Order} (h : Safety.Admitted s m n 0x0B o) :
    exec (.commitTxn m n) s = .next (commitTxnOwn s o) :=
  congrArg Host.Outcome.next (orderCmd_of_admitted h commitTxnOwn)

theorem exec_rollbackTxn_of_admitted {s : State} {m n : Nat} {o : Order} (h : Safety.Admitted s m n 0x0C o) :
    exec (.rollbackTxn m n) s = .next (rollbackTxnOwn s o) :=
  congrArg Host.Outcome.next (orderCmd_of_admitted h rollbackTxnOwn)

theorem exec_localCommitBeat (s : State) : exec .localCommitBeat s =
    .next (if s.txn.state = 2 ∧ !s.txn.group ∧ s.txn.commitBeat ≤ s.beat.number then applyTxn s else s) := rfl

theorem exec_commitBeat (s : State) : exec .commitBeat s = .next (commitMember (commitOwn s)) := rfl

/-! COMMIT_TXN of a local transaction (R367). -/

theorem commitTxnOwn_notOwner {s : State} {o : Order} (h : s.txn.state ≠ 1 ∨ s.txn.owner ≠ o.qp) :
    commitTxnOwn s o = complete s o ePlan (commitDetail 0xFFFF 0 0) := if_pos h

section
variable {s : State} {o : Order} (hgroup : s.txn.group = false) (hopen : s.txn.state = 1) (howner : s.txn.owner = o.qp)
include hgroup hopen howner

/-- The owner's COMMIT_TXN of an open local transaction, by its commit beat. -/
theorem commitTxnOwn_local : commitTxnOwn s o =
    if o.beat = 0 then applyTxn { s with txn := { s.txn with order := some (o.mailbox, o.number) } }
    else if o.beat ≤ s.beat.number then complete s o eLate (commitDetail 0xFFFF 0 0)
    else { beginOrder s o with
      txn := { s.txn with state := 2, commitBeat := o.beat, order := some (o.mailbox, o.number) } } := by
  unfold commitTxnOwn
  rw [if_neg (by simp [hopen, howner]), if_neg (by simp [hgroup])]

theorem commitTxnOwn_committed (hbeat : o.beat = 0) (hst : stagedStatus s false s.txn.staged = eOk)
    (hl : (s.txn.staged.map Prod.fst).Nodup) :
    Committed s s.txn.staged (commitTxnOwn s o) ∧ (commitTxnOwn s o).txn = {} := by
  rw [commitTxnOwn_local hgroup hopen howner, if_pos hbeat]
  obtain ⟨⟨hhere, helse, hruns, hmem, hprep⟩, htxn⟩ :=
    applyTxn_committed (s := { s with txn := { s.txn with order := some (o.mailbox, o.number) } }) (hgroup ▸ hst) hl
  exact ⟨⟨hhere, helse, hruns, hmem, hprep⟩, htxn⟩

theorem commitTxnOwn_late (hbeat : o.beat ≠ 0) (hlate : o.beat ≤ s.beat.number) :
    commitTxnOwn s o = complete s o eLate (commitDetail 0xFFFF 0 0) := by
  rw [commitTxnOwn_local hgroup hopen howner, if_neg hbeat, if_pos hlate]

theorem commitTxnOwn_waits (hbeat : s.beat.number < o.beat) : commitTxnOwn s o =
    { beginOrder s o with
      txn := { s.txn with state := 2, commitBeat := o.beat, order := some (o.mailbox, o.number) } } := by
  rw [commitTxnOwn_local hgroup hopen howner, if_neg (by omega), if_neg (by omega)]

end

/-! ROLLBACK_TXN of a local transaction (R368). -/

theorem rollbackTxnOwn_notOwner {s : State} {o : Order} (h : s.txn.state = 0 ∨ s.txn.owner ≠ o.qp) :
    rollbackTxnOwn s o = complete s o ePlan [] := if_pos h

theorem rollbackTxnOwn_local {s : State} {o : Order} (hgroup : s.txn.group = false) (hopen : s.txn.state ≠ 0)
    (howner : s.txn.owner = o.qp) : rollbackTxnOwn s o = complete (rollback s eCancelled) o eOk [] := by
  unfold rollbackTxnOwn
  rw [if_neg (by simp [hopen, howner]), if_neg (by simp [hgroup])]
  simp [hgroup]

/-- A rollback completed closes the transaction, and answers orders (R368). -/
theorem complete_rollback (s : State) (o : Order) (st st' : BitVec 8) (d : List Byte) :
    (complete (rollback s st) o st' d).txn = {}
      ∧ answerPart (complete (rollback s st) o st' d) = answerPart s :=
  ⟨complete_txn _ _ _ _, (answerPart_complete _ _ _ _).trans (answerPart_rollback _ _)⟩

/-! The commit beat (R264, R367). -/

theorem commitOwn_decided {s : State} (hwaits : s.txn.state = 2) (hgroup : s.txn.group = true) (hdec : s.txn.decided = true)
    (hbeat : s.txn.commitBeat ≤ s.beat.number) : commitOwn s = applyTxn s := if_pos ⟨hwaits, hgroup, hdec, hbeat⟩

theorem commitOwn_none {s : State} (h : s.txn.state = 0) : commitOwn s = s := if_neg (by simp [h])

theorem commitMember_none {s : State} (h : s.prepared = none) : commitMember s = s := by
  simp [commitMember, h]

section
variable {s : State} {p : Prepared} (hprep : s.prepared = some p) (hset : p.beat ≠ 0) (hbeat : p.beat ≤ s.beat.number)
include hprep hset hbeat

theorem commitMember_decided (hdec : p.decided = true) : commitMember s =
    (applyAll (dropDigests { s with prepared := none } p.ranks p.beat) p.staged).bump Ctr.txnCommits 0 1 := by
  simp [commitMember, hprep, hset, Nat.not_lt.mpr hbeat, hdec]

theorem commitMember_undecided (hdec : p.decided = false) : commitMember s =
    postEvent (fenceSelf { s with prepared := none } 5) 0x0B (items [p.coordinator]) := by
  simp [commitMember, hprep, hset, Nat.not_lt.mpr hbeat, hdec]

end

/-- Settles O16: the commands by their cases, a commit by what the fold over its stages puts, a rollback by what answering
orders leaves, and the fence by what it leaves of the configuration. -/
theorem localTransactions : Obligations.LocalTransactions := by
  unfold Obligations.LocalTransactions
  refine ⟨fun s m n o hgroup => ⟨fun hadm => ?_, fun hadm => ?_⟩, fun s => ⟨?_, ?_, ?_, ?_, ?_⟩⟩
  case refine_1 =>
    rw [exec_commitTxn_of_admitted hadm]
    refine ⟨fun h => ?_, fun hopen howner hbeat hst hl => ?_, fun hopen howner hbeat hlate => ?_, fun hopen howner hbeat => ?_⟩
    · rw [commitTxnOwn_notOwner h]
    · obtain ⟨hcom, htxn⟩ := commitTxnOwn_committed hgroup hopen howner hbeat hst hl
      exact ⟨_, rfl, htxn, hcom.here, hcom.elsewhere, hcom.runs, hcom.mem⟩
    · rw [commitTxnOwn_late hgroup hopen howner hbeat hlate]
    · rw [commitTxnOwn_waits hgroup hopen howner hbeat]
      exact ⟨_, rfl, rfl, rfl, rfl, rfl⟩
  case refine_2 =>
    rw [exec_rollbackTxn_of_admitted hadm]
    refine ⟨fun h => ?_, fun hopen howner => ?_⟩
    · rw [rollbackTxnOwn_notOwner h]
    · rw [rollbackTxnOwn_local hgroup hopen howner]
      obtain ⟨htxn, hleft⟩ := complete_rollback s o eCancelled eOk []
      have heq := eq_of_answerPart hleft
      rw [htxn] at heq
      have hkeys := congrArg State.keys heq
      exact ⟨_, rfl, htxn, hkeys, heq⟩
  case refine_3 =>
    intro hwaits hgroup hbeat hst hl
    rw [exec_localCommitBeat, if_pos ⟨hwaits, by simp [hgroup], hbeat⟩]
    obtain ⟨hcom, htxn⟩ := applyTxn_committed (hgroup ▸ hst) hl
    exact ⟨_, rfl, htxn, hcom.runs, hcom.here, hcom.elsewhere⟩
  case refine_4 =>
    intro hbeat
    rw [exec_localCommitBeat, if_neg (fun h => Nat.not_le.mpr hbeat h.2.2)]
  case refine_5 =>
    intro hwaits hgroup hdec hbeat hprep hst hl
    obtain ⟨hcom, htxn⟩ := applyTxn_committed (hgroup ▸ hst) hl
    rw [exec_commitBeat, commitOwn_decided hwaits hgroup hdec hbeat, commitMember_none (hcom.prepared.trans hprep)]
    exact ⟨_, rfl, htxn, hcom.runs, hcom.here⟩
  case refine_6 =>
    intro p hidle hprep hset hbeat hdec hl
    rw [exec_commitBeat, commitOwn_none hidle, commitMember_decided hprep hset hbeat hdec]
    have hcom := committed_applyAll_bump (dropDigests { s with prepared := none } p.ranks p.beat) hl Ctr.txnCommits 0 1
    exact ⟨_, rfl, hcom.prepared, hcom.here⟩
  case refine_7 =>
    intro p hidle hprep hset hbeat hdec hview hleave
    rw [exec_commitBeat, commitOwn_none hidle, commitMember_undecided hprep hset hbeat hdec]
    obtain ⟨hstate, hkeys, hnone⟩ :=
      fenceSelf_fences (s := { s with prepared := none }) (by simpa [inView] using hview) hleave 5
    obtain ⟨-, -, -, hprepAfter⟩ :=
      commitPart_eq_iff.mp (commitPart_postEvent (fenceSelf { s with prepared := none } 5) 0x0B (items [p.coordinator]))
    obtain ⟨hkeysAfter, hgroupAfter⟩ :=
      configPart_eq_iff.mp (configPart_postEvent (fenceSelf { s with prepared := none } 5) 0x0B (items [p.coordinator]))
    exact ⟨_, rfl, hprepAfter.trans hnone, (congrArg Group.state hgroupAfter).trans hstate, hkeysAfter.trans hkeys⟩

end Sys2Proof.Machine
end

section
/-!
SUPPORT. What issuing writes and ending a walk leaves (R179, R185, R188): the memories and everything else but the fields that
`Safety.IssueFrame` names.
-/

namespace Sys2Proof.Machine

/-- The state without what issuing writes and ending a walk may change. -/
def issuePart (s : State) : State :=
  { s with runs := [], streams := [], cores := [], xfers := [], nextXfer := 0, rots := [], counters := [], links := [], turns := []
           free := 0, qps := [], ports := [], out := [] }

/-- The frame of issuing writes is that all but the fields it names stays. -/
theorem issueFrame_iff {v u : State} : Safety.IssueFrame v u ↔ issuePart u = issuePart v := by
  unfold Safety.IssueFrame
  exact ⟨fun h => (congrArg issuePart h :), fun h => congrArg (fun x : State =>
    { x with runs := u.runs, streams := u.streams, cores := u.cores, xfers := u.xfers, nextXfer := u.nextXfer, rots := u.rots
             counters := u.counters, links := u.links, turns := u.turns, free := u.free, qps := u.qps, ports := u.ports
             out := u.out }) h⟩

/-! The updates that many commands share. -/

@[simp] theorem issuePart_bump (s : State) (k : Nat × Nat) (u n : Nat) : issuePart (s.bump k u n) = issuePart s := by
  unfold State.bump
  split <;> rfl

@[simp] theorem issuePart_onCore (s : State) (c : Nat) (f : Core → Core) : issuePart (s.onCore c f) = issuePart s := rfl

@[simp] theorem issuePart_onRun (s : State) (t : Nat) (f : Run → Run) : issuePart (s.onRun t f) = issuePart s := rfl

@[simp] theorem issuePart_onWalk (s : State) (t i p : Nat) (f : Walk → Walk) : issuePart (s.onWalk t i p f) = issuePart s := rfl

@[simp] theorem issuePart_setQp (s : State) (q : Nat) (v : Qp) : issuePart (s.setQp q v) = issuePart s := rfl

@[simp] theorem issuePart_setStream (s : State) (x : Stream) : issuePart (setStream s x) = issuePart s := rfl

@[simp] theorem issuePart_onQp (s : State) (q : Nat) (f : Qp → Qp) : issuePart (s.onQp q f) = issuePart s := by
  unfold State.onQp
  split <;> rfl

@[simp] theorem issuePart_deliver (s : State) (q : Nat) (c : Completion) : issuePart (deliver s q c) = issuePart s := by
  unfold deliver
  split <;> simp

/-! Sending over a link or to the host (R185, R326). -/

theorem issuePart_sendOn {s t : State} {cls : Nat} {h : Hdr} {d : List Byte} (e : sendOn s cls h d = some t) :
    issuePart t = issuePart s := by
  unfold sendOn at e
  split at e
  · cases e
  · split at e
    · cases e
    · cases e
      rfl

@[simp] theorem issuePart_sendTransfer (s : State) (cls : Nat) (h : Hdr) (d : List Byte) :
    issuePart (sendTransfer s cls h d).1 = issuePart s := by
  unfold sendTransfer
  split
  · exact issuePart_sendOn ‹_›
  · exact issuePart_bump _ _ _ _

@[simp] theorem issuePart_txMsg (s : State) (q : Nat) (o : Out) : issuePart (txMsg s q o) = issuePart s := by
  unfold txMsg
  split
  · rfl
  · dsimp only
    split
    · rfl
    · split
      · rfl
      · exact issuePart_bump _ _ _ _

@[simp] theorem issuePart_pumpQp (n : Nat) (s : State) (q : Nat) : issuePart (pumpQp n s q) = issuePart s := by
  induction n generalizing s with
  | zero => rfl
  | succ n ih =>
    unfold pumpQp
    split
    · rfl
    · split
      · rfl
      · split
        · rfl
        · simp [ih]

@[simp] theorem issuePart_hostReq (s : State) (kind q addr rkey : Nat) (d : List Byte) :
    issuePart (hostReq s kind q addr rkey d) = issuePart s := by
  unfold hostReq roce
  split
  · rfl
  · split <;> simp

/-! The write path. -/

@[simp] theorem issuePart_lookupPage (s : State) (core page : Nat) : issuePart (lookupPage s core page) = issuePart s := by
  unfold lookupPage
  dsimp only
  split
  · rfl
  · split <;> exact issuePart_bump _ _ _ _

@[simp] theorem issuePart_haltStream (s : State) (x : Stream) (page reason : Nat) :
    issuePart (haltStream s x page reason) = issuePart s := by
  unfold haltStream
  split
  · rfl
  · split
    · rfl
    · dsimp only
      split <;> simp [postInterim]

@[simp] theorem issuePart_issueWrite (s : State) (x : Stream) (f : Xfer) : issuePart (issueWrite s x f).1 = issuePart s := by
  have hput (u : State) (n : Nat) (g : Core → Core) (k k' : Nat × Nat) (c c' m m' : Nat) :
      issuePart (((({ u with nextXfer := n }).onCore x.core g).bump k c m).bump k' c' m') = issuePart u := by
    simp only [issuePart_bump, issuePart_onCore]
    rfl
  unfold issueWrite
  dsimp only
  split
  · simp
  · split
    · exact (hput ..).trans (issuePart_lookupPage _ _ _)
    · simp only [apply_ite Prod.fst, apply_ite issuePart, hput, issuePart_sendTransfer, issuePart_lookupPage, ite_self]
    · exact (hput ..).trans ((foldl_leaves (fun y r => issuePart_hostReq y _ _ _ _ _) _ _).trans (issuePart_lookupPage _ _ _))

@[simp] theorem issuePart_issueStream (n : Nat) (s : State) (x : Stream) : issuePart (issueStream n s x) = issuePart s := by
  induction n generalizing s x with
  | zero => rfl
  | succ n ih =>
    unfold issueStream
    split
    · rfl
    · split
      · rfl
      · dsimp only
        split <;> simp [ih]

@[simp] theorem issuePart_issueWrites (s : State) : issuePart (issueWrites s) = issuePart s :=
  foldl_leaves (fun x y => issuePart_issueStream _ x y) _ _

/-! The end of a walk and its log. -/

@[simp] theorem issuePart_endWalk (s : State) (t i p core : Nat) : issuePart (endWalk s t i p core) = issuePart s := rfl

@[simp] theorem issuePart_settle (s : State) (t i p : Nat) : issuePart (settle s t i p) = issuePart s := by
  unfold settle
  split
  · split <;> simp
  · rfl

@[simp] theorem issuePart_appendLog (s : State) (t : Nat) (e : LogEntry) : issuePart (appendLog s t e) = issuePart s := by
  unfold appendLog
  split
  · rfl
  · exact foldl_leaves (fun x _ => issuePart_bump x _ _ _) _ _

@[simp] theorem issuePart_logTile (s : State) (r : Run) (w : Walk) (tile : Nat) (word : BitVec 32) :
    issuePart (logTile s r w tile word) = issuePart s := by
  unfold logTile
  dsimp only
  split <;> simp

end Sys2Proof.Machine
end

section
/-!
SUPPORT. Fields after changes that many commands make; and runs and their walks: what a command that acts on a walk knows of its
run, and that a failure of a record's work stops its run with the status and that record as the one that failed (R74, R192).
-/

namespace Sys2Proof.Machine

/-! Fields after a change that many commands make. -/

theorem core_onCore_same (s : State) (c : Nat) (f : Core → Core) : (s.onCore c f).core c = f (s.core c) := by
  simp [State.onCore, State.core]

theorem core_onCore_other {c d : Nat} (h : d ≠ c) (s : State) (f : Core → Core) : (s.onCore c f).core d = s.core d := by
  simp [State.onCore, State.core, look_put_other h]

@[simp] theorem bump_runs (s : State) (k : Nat × Nat) (u n : Nat) : (s.bump k u n).runs = s.runs := by
  unfold State.bump
  split <;> rfl

@[simp] theorem bump_cores (s : State) (k : Nat × Nat) (u n : Nat) : (s.bump k u n).cores = s.cores := by
  unfold State.bump
  split <;> rfl

@[simp] theorem bump_mem (s : State) (k : Nat × Nat) (u n : Nat) : (s.bump k u n).mem = s.mem := by
  unfold State.bump
  split <;> rfl

@[simp] theorem bump_rots (s : State) (k : Nat × Nat) (u n : Nat) : (s.bump k u n).rots = s.rots := by
  unfold State.bump
  split <;> rfl

/-- Beginning to read an item changes only the read streams. -/
theorem reach_eq (s : State) (t i p : Nat) (ops : List Nat) (item : Nat) :
    reach s t i p ops item = { s with streams := (reach s t i p ops item).streams } := by
  unfold reach
  dsimp only
  split <;> rfl

/-! The walk that a command acts on. -/

theorem Run.mi_pos_of_walk {r : Run} {i p : Nat} {w : Walk} (h : r.walk i p = some w) : w.mi = i ∧ w.pos = p := by
  simpa using List.find?_some h

theorem walkOf_eq_some_iff {s : State} {t i p : Nat} {r : Run} {w : Walk} :
    walkOf s t i p = some (r, w) ↔ s.live t = some r ∧ r.walk i p = some w ∧ runIssues s r p = true := by
  unfold walkOf
  cases s.live t with
  | none => simp
  | some q =>
    dsimp only
    cases hw : q.walk i p with
    | none => grind
    | some x => grind

theorem findWalk_eq_some_iff {s : State} {t i p : Nat} {r : Run} {w : Walk} :
    findWalk s t i p = some (r, w) ↔ s.live t = some r ∧ r.walk i p = some w := by
  unfold findWalk
  cases s.live t with
  | none => simp
  | some q =>
    simp only [Option.map_eq_some_iff, Prod.mk.injEq, Option.some.injEq]
    exact ⟨by rintro ⟨x, hx, rfl, rfl⟩; exact ⟨rfl, hx⟩, by rintro ⟨rfl, h⟩; exact ⟨w, h, rfl, rfl⟩⟩

/-- A run that issues is not being stopped. -/
theorem stopping_of_runIssues {s : State} {r : Run} {p : Nat} (h : runIssues s r p = true) : r.stopping = none := by
  unfold runIssues at h
  simp only [Bool.and_eq_true, Option.isNone_iff_eq_none] at h
  obtain ⟨⟨⟨-, hstopping⟩, -⟩, -⟩ := h
  exact hstopping

/-! A run changed. -/

theorem find?_mapIf {α : Type} {p : α → Bool} {f : α → α} (hf : ∀ a, p a = true → p (f a) = true) (l : List α) :
    (mapIf p f l).find? p = (l.find? p).map f := by
  induction l with
  | nil => rfl
  | cons a l ih =>
    have hcons : mapIf p f (a :: l) = (if p a then f a else a) :: mapIf p f l := rfl
    rw [hcons]
    by_cases h : p a = true
    · rw [if_pos h, List.find?_cons_of_pos (hf a h), List.find?_cons_of_pos h, Option.map_some]
    · rw [if_neg h, List.find?_cons_of_neg h, List.find?_cons_of_neg h, ih]

/-- A change that leaves a run its tag and does not end it shows in the run that is live under the tag. -/
theorem live_onRun {f : Run → Run} (htag : ∀ r, (f r).tag = r.tag) (hstate : ∀ r : Run, r.state ≠ 3 → (f r).state ≠ 3)
    (s : State) (t : Nat) : (s.onRun t f).live t = (s.live t).map f := by
  refine find?_mapIf (fun r h => ?_) s.runs
  simp only [Bool.and_eq_true, beq_iff_eq, bne_iff_ne] at h ⊢
  exact ⟨(htag r).trans h.1, hstate r h.2⟩

theorem live_of_runs {s u : State} (h : u.runs = s.runs) (t : Nat) : u.live t = s.live t := by simp [State.live, h]

/-! A run stopped. -/

@[simp] theorem discardReads_runs (s : State) (t : Nat) : (discardReads s t).runs = s.runs := by
  refine foldl_leaves (g := State.runs) (fun x y => ?_) s.xfers s
  split <;> simp

@[simp] theorem dropStreams_runs (s : State) (t : Nat) : (dropStreams s t).runs = s.runs := by
  refine foldl_leaves (g := State.runs) (fun x y => ?_) s.streams s
  split <;> simp

@[simp] theorem abandonTiles_runs (s : State) (r : Run) : (abandonTiles s r).runs = s.runs :=
  foldl_leaves (g := State.runs) (fun _ _ => foldl_leaves (g := State.runs) (by intros; rfl) _ _) _ _

@[simp] theorem releaseCores_runs (s : State) (r : Run) : (releaseCores s r).runs = s.runs :=
  foldl_leaves (g := State.runs) (by intros; rfl) _ _

/-- A run of which a record's work fails is being stopped, where it was not before, with the status given and that record as
the one that failed. -/
theorem live_failMacro {s : State} {t : Nat} {r : Run} (hlive : s.live t = some r) (hr : r.stopping = none) (i : Nat)
    (st : BitVec 8) :
    ∃ x, (failMacro s t i st).live t = some x ∧ x.stopping = some st ∧ x.failMi = i := by
  have hruns : (releaseCores (abandonTiles (dropStreams (discardReads s t) t) r) r).runs = s.runs := by simp
  unfold failMacro stopRun
  rw [hlive]
  dsimp only
  rw [if_neg (by simp [hr]), live_onRun (by intros; rfl) (by simp), live_of_runs hruns, hlive]
  exact ⟨_, rfl, rfl, rfl⟩

end Sys2Proof.Machine
end

section
/-!
SUPPORT. Crates and turned operands: what OUTPUT_COMPRESSOR does with a finished tile (R102 to R105, R179), CRATE_EXPAND with a
crate (R100, R108) and TURNED_LOAD with the tiles of a step (R204).
-/

namespace Sys2Proof.Machine

/-! The compressor. -/

/-- A producer whose write path holds nothing, queued or issued, does its work at once (R179). -/
theorem produce_of_pathEmpty {s : State} {t : Nat} {w : Walk} (hqueue : unissued s t w.mi w.pos = false)
    (hpath : (s.core w.core).writes = []) (u : State) :
    produce s u t w = u.onWalk t w.mi w.pos (fun w => { w with held := false }) := by
  simp [produce, hqueue, hpath]

theorem execOutputCompressor_of_none {s : State} {t i p : Nat} {r : Run} {w : Walk} (hw : findWalk s t i p = some (r, w))
    (hbufs : w.bufs = []) : execOutputCompressor t i p s = .next s := by
  simp [execOutputCompressor, hw, hbufs]

/-- The state once a finished tile of a walk, packed into a crate, stands in its slot of C (R102 to R105): the tile is taken from
the walk's buffers, and a buffer that a drain waited for is free. -/
def writeTile (s : State) (t i p : Nat) (r : Run) (w : Walk) (b : TileBuf) (rest : List TileBuf) : Except WrErr State :=
  let c := getView s r i p 2
  let hi := hiOf c b.plane
  let l := b.vals.map (fun x => (View.coords b.row b.col hi (x.1 / 64) (x.1 % 64), dec x.2, b.marks.contains x.1))
  let crate := cellsCrate c (bits b.status.toNat 8 8) hi b.row b.col (narrowCells c.d.format (blockDim c.d) l).1
  let taken := if 2 ≤ bufsHeld s w.core then s.onCore w.core (fun c => { c with bufFree := s.now }) else s
  writeCrate (taken.onWalk t i p (fun w => { w with bufs := rest })) c hi b.row b.col crate.1

/-- Once the crate is in its slot it is counted and logged, its writes are issued, and a walk that is spent ends: nothing else
changes. -/
theorem execOutputCompressor_of_written {s v : State} {t i p : Nat} {r : Run} {w : Walk} {b : TileBuf} {rest : List TileBuf}
    (hw : findWalk s t i p = some (r, w)) (hbufs : w.bufs = b :: rest) (hr : r.stopping = none)
    (hv : writeTile s t i p r w b rest = .ok v) (hqueue : unissued s t i p = false) (hpath : (s.core w.core).writes = []) :
    ∃ u, execOutputCompressor t i p s = .next u ∧ Safety.IssueFrame v u := by
  obtain ⟨rfl, rfl⟩ := Run.mi_pos_of_walk (findWalk_eq_some_iff.mp hw).2
  obtain ⟨u, hu⟩ : ∃ u, execOutputCompressor t w.mi w.pos s = .next u := ⟨_, rfl⟩
  refine ⟨u, hu, issueFrame_iff.mpr ?_⟩
  unfold writeTile at hv
  dsimp only at hv
  unfold execOutputCompressor at hu
  simp only [hw, hbufs, hv, hr, Option.isSome_none, Bool.false_eq_true, if_false, produce_of_pathEmpty hqueue hpath,
    Host.Outcome.next.injEq] at hu
  subst hu
  simp

/-! The expander. -/

/-- The crate in a slot of an operand, by plane, tile row and tile column, or why it cannot be opened (R100). -/
def slotCrate (s : State) (v : View) (slot : Nat) : Except RdErr Crate :=
  let q := slot % max (v.d.trows * v.d.tcols) 1
  crateAt s v (slot / max (v.d.trows * v.d.tcols) 1) (q / max v.d.tcols 1) (q % max v.d.tcols 1)

section
variable {s : State} {t i p op slot : Nat} {r : Run} {w : Walk} (hw : walkOf s t i p = some (r, w))
  (hform : (getView s r i p op).d.form ≠ 0)
  (hslot : slot < (getView s r i p op).d.planes * (getView s r i p op).d.trows * (getView s r i p op).d.tcols)
include hw hform hslot

theorem execCrateExpand_of_intact {c : Crate} (hc : slotCrate s (getView s r i p op) slot = .ok c) :
    execCrateExpand t i p op slot s = .next s := by
  unfold slotCrate at hc
  dsimp only at hc
  simp only [execCrateExpand, hw, hform, Nat.not_le.mpr hslot, or_self, if_false, hc]

theorem execCrateExpand_of_error {e : RdErr} (hc : slotCrate s (getView s r i p op) slot = .error e) :
    execCrateExpand t i p op slot s = .next (failRead s t i w.core e) := by
  unfold slotCrate at hc
  dsimp only at hc
  simp only [execCrateExpand, hw, hform, Nat.not_le.mpr hslot, or_self, if_false, hc]

end

/-! The turning buffer. -/

/-- The turning buffer after the tiles of a step: of those it held and the step's, the last four. -/
def turnAfter (turn ts : List Nat) : List Nat :=
  let l := turn.filter (fun x => !ts.contains x) ++ ts
  l.drop (l.length - 4)

theorem length_turnAfter_le (turn ts : List Nat) : (turnAfter turn ts).length ≤ 4 := by
  unfold turnAfter
  rw [List.length_drop]
  omega

/-- The tiles of a step that fits the buffer are all in it: only others are dropped from its front. -/
theorem mem_turnAfter {turn ts : List Nat} (hfits : ts.length ≤ 4) {x : Nat} (hx : x ∈ ts) : x ∈ turnAfter turn ts := by
  unfold turnAfter
  dsimp only
  rw [List.drop_append_of_le_length (by rw [List.length_append]; omega)]
  exact List.mem_append_right _ hx

theorem execTurnedLoad_of_step {s : State} {t i p k : Nat} {r : Run} {w : Walk} (hw : walkOf s t i p = some (r, w))
    (hop : (r.mrec i).opcode = opBwdWeight ∨ ((r.mrec i).opcode = opBwdData ∧ (r.mrec i).turn = true))
    (hk : k < ksteps s r i p) :
    execTurnedLoad t i p k s = .next (s.onCore w.core (fun c =>
      { c with turn := turnAfter c.turn (turnedTiles (r.mrec i) (getView s r i p 0).d (getView s r i p 1).d k) })) := by
  unfold execTurnedLoad
  rw [hw]
  dsimp only
  rw [if_neg (by rcases hop with h | ⟨h, h'⟩ <;> simp [*])]
  rfl

/-- Settles O24: the compressor by what issuing its crate's writes leaves, the expander by the outcome of the read, and the
turning buffer by what it holds after a step. -/
theorem cratesAndLoads : Obligations.CratesAndLoads := by
  unfold Obligations.CratesAndLoads
  refine ⟨fun s t i p r w hw => ⟨fun hbufs => execOutputCompressor_of_none hw hbufs, fun b rest v hbufs hr => ?compressed⟩,
    fun s t i p r w hw => ⟨fun op slot => ?expanded, fun k hop hk => ?turned⟩⟩
  case compressed =>
    intro c hi l cells crate s1 hv hqueue hpath
    exact execOutputCompressor_of_written hw hbufs hr hv hqueue hpath
  case expanded =>
    intro v hform hslot pl q
    refine ⟨fun c hc => execCrateExpand_of_intact hw hform hslot hc, fun hc => ?_⟩
    obtain ⟨hlive, -, hissues⟩ := walkOf_eq_some_iff.mp hw
    obtain ⟨x, hx, hstop, hmi⟩ := live_failMacro hlive (stopping_of_runIssues hissues) i eDataLost
    exact ⟨_, x, execCrateExpand_of_error hw hform hslot hc, (live_of_runs (bump_runs _ _ _ _) t).trans hx, hstop, hmi, rfl⟩
  case turned =>
    refine ⟨_, execTurnedLoad_of_step hw hop hk, fun x hx hfits => ?_, ?_, fun c hc => core_onCore_other hc _ _, rfl⟩
    · rw [core_onCore_same]
      exact mem_turnAfter hfits hx
    · rw [core_onCore_same]
      exact length_turnAfter_le _ _

end Sys2Proof.Machine
end

section
/-!
SUPPORT. The merge path (R118 to R121): the merge unit of a core after a change of it, and what MERGE_KTILE, LIST_STORE_LOAD,
BROADCASTER_PUSH, LANE_ACTION and MERGE_ROW_ADD do with the output tile that a core's merge unit adds.
-/

namespace Sys2Proof.Machine

/-! The merge unit of a core. -/

theorem mergeWalk_eq_some_iff {s : State} {u : MergeState} {r : Run} {w : Walk} :
    mergeWalk s u = some (r, w) ↔ u.active = true ∧ walkOf s u.tag u.mi u.pos = some (r, w) := by
  simp [mergeWalk]

theorem mergeOf_of_cores {s t : State} (h : t.cores = s.cores) (core : Nat) (ahead : Bool) :
    mergeOf t core ahead = mergeOf s core ahead := by
  simp [mergeOf, State.core, h]

@[simp] theorem mergeOf_onMerge (s : State) (core : Nat) (ahead : Bool) (f : MergeState → MergeState) :
    mergeOf (s.onMerge core ahead f) core ahead = f (mergeOf s core ahead) := by
  cases ahead <;> simp [mergeOf, State.onMerge, core_onCore_same]

@[simp] theorem mergeOf_bump (s : State) (k : Nat × Nat) (c n core : Nat) (ahead : Bool) :
    mergeOf (s.bump k c n) core ahead = mergeOf s core ahead := mergeOf_of_cores (bump_cores _ _ _ _) _ _

@[simp] theorem mergeOf_reach (s : State) (t i p : Nat) (ops : List Nat) (item core : Nat) (ahead : Bool) :
    mergeOf (reach s t i p ops item) core ahead = mergeOf s core ahead :=
  mergeOf_of_cores (congrArg State.cores (reach_eq s t i p ops item)) _ _

/-- Two changes that agree on the unit as it is are the same change. -/
theorem onMerge_congr {s : State} {core : Nat} {ahead : Bool} {f g : MergeState → MergeState}
    (h : f (mergeOf s core ahead) = g (mergeOf s core ahead)) : s.onMerge core ahead f = s.onMerge core ahead g := by
  cases ahead
  · have hmerge : f (s.core core).merge = g (s.core core).merge := h
    simp [State.onMerge, State.onCore, hmerge]
  · have hmerge : f (s.core core).mergeNext = g (s.core core).mergeNext := h
    simp [State.onMerge, State.onCore, hmerge]

/-- An output tile that is not added whole does not end (R121). -/
theorem mergeEnds_of_not_allAdded {s : State} {core : Nat} (h : (mergeOf s core false).allAdded = false) (n : Nat) :
    mergeEnds n core s = s := by
  cases n with
  | zero => rfl
  | succ n =>
    unfold mergeEnds
    dsimp only
    split
    · rw [h]
      rfl
    · rfl

theorem allRead_of_kt_lt {u : MergeState} (h : u.kt < u.ktEnd) : u.allRead = false := decide_eq_false (Nat.not_le.mpr h)

theorem allPushed_of_kt_lt {u : MergeState} (h : u.kt < u.ktEnd) : u.allPushed = false := by
  rw [MergeState.allPushed, allRead_of_kt_lt h, Bool.false_and]

theorem allAdded_of_kt_lt {u : MergeState} (h : u.kt < u.ktEnd) : u.allAdded = false := by
  rw [MergeState.allAdded, allRead_of_kt_lt h, Bool.false_and]

theorem noteReaders_of_noRots {s : State} (h : s.rots = []) (r : Run) (i p : Nat) : noteReaders s r i p = s := by
  simp [noteReaders, h]

/-! MERGE_KTILE (R118). -/

section
variable {s : State} {core : Nat} {u : MergeState} {r : Run} {w : Walk} (hu : mergeOf s core false = u)
  (hw : mergeWalk s u = some (r, w)) (hnext : (mergeOf s core true).active = false)
include hu hw hnext

theorem execMergeKtile_full (hpushed : u.allPushed = false) (hfull : u.mayRead = false) :
    execMergeKtile core s = .next s := by
  have hnext' : (s.core core).mergeNext.active = false := hnext
  obtain ⟨hactive, -⟩ := mergeWalk_eq_some_iff.mp hw
  simp [execMergeKtile, hu, hnext', hactive, hpushed, hw, hfull]

theorem execMergeKtile_reads (hkt : u.kt < u.ktEnd) (hmay : u.mayRead = true) :
    execMergeKtile core s = .next (noteReaders (mergeKt s r w false) r w.mi w.pos) := by
  have hnext' : (s.core core).mergeNext.active = false := hnext
  have hpushed := allPushed_of_kt_lt hkt
  obtain ⟨hactive, -⟩ := mergeWalk_eq_some_iff.mp hw
  simp [execMergeKtile, hu, hnext', hactive, hpushed, hw, hmay]

end

/-- The state in which the next K tile of a walk's output tile is read: its reading has begun (R178). -/
def ktileState (s : State) (r : Run) (w : Walk) : State := reach s r.tag w.mi w.pos [0, 1] (mergeOf s w.core false).item

/-- The nonzeros that the header of A's crate (k = 0) or of B's (k = 1) of the next K tile states (R118). -/
def ktileCount (s : State) (r : Run) (w : Walk) (k : Nat) : Except RdErr Nat :=
  let u := mergeOf s w.core false
  let c := getView s r w.mi w.pos 2
  let o := outTile s r w.mi w.pos (u.item / (r.mrec w.mi).split)
  mergeCount (ktileState s r w) r w.mi w.pos k (hiOf c o.1) (if k = 0 then o.2.1 else o.2.2) u.kt

/-- A's crate of the next K tile. -/
def ktileCrate (s : State) (r : Run) (w : Walk) : Except RdErr (Option Crate) :=
  let u := mergeOf s w.core false
  let c := getView s r w.mi w.pos 2
  let o := outTile s r w.mi w.pos (u.item / (r.mrec w.mi).split)
  mergeCrate (ktileState s r w) r w.mi w.pos 0 (hiOf c o.1) o.2.1 u.kt

/-- The merge unit with the items of A's crate of its next K tile joined to its feed. -/
def ktileFed (s : State) (r : Run) (w : Walk) (x : Crate) (u : MergeState) : MergeState :=
  let a := getView s r w.mi w.pos 0
  let c := getView s r w.mi w.pos 2
  let o := outTile s r w.mi w.pos ((mergeOf s w.core false).item / (r.mrec w.mi).split)
  { u with kt := u.kt + 1, rowsAt := u.rowsAt ++ [u.kt], feed := u.feed ++ feedItems a x o.2.1 u.kt (c.rowsIn o.2.1) }

section
variable {s : State} {u : MergeState} {r : Run} {w : Walk} {x y : Nat} (hu : mergeOf s w.core false = u) (hkt : u.kt + 1 < u.ktEnd)
  (hx : ktileCount s r w 0 = .ok x) (hy : ktileCount s r w 1 = .ok y)
include hu hkt hx hy

theorem mergeKt_skips (h : x = 0 ∨ y = 0) : mergeKt s r w false =
    ((ktileState s r w).onMerge w.core false (fun u => { u with kt := u.kt + 1 })).bump Ctr.mergeSkippedKtiles w.core 1 := by
  have hread := allRead_of_kt_lt (Nat.lt_of_succ_lt hkt)
  have hends := mergeEnds_of_not_allAdded (s := ((ktileState s r w).onMerge w.core false (fun u => { u with kt := u.kt + 1 })).bump
    Ctr.mergeSkippedKtiles w.core 1) (core := w.core) (by simpa [ktileState, hu] using allAdded_of_kt_lt hkt) 2
  simp only [ktileCount, hu, ktileState, if_true, Nat.one_ne_zero, if_false] at hx hy hends ⊢
  simp only [mergeKt, hu, hread, Bool.false_eq_true, if_false, hx, hy, bind, Except.bind, h, if_true, hends]

theorem mergeKt_feeds (hx0 : x ≠ 0) (hy0 : y ≠ 0) {z : Crate} (hz : ktileCrate s r w = .ok (some z)) :
    mergeKt s r w false = (ktileState s r w).onMerge w.core false (ktileFed s r w z) := by
  have hread := allRead_of_kt_lt (Nat.lt_of_succ_lt hkt)
  simp only [ktileCount, hu, ktileCrate, ktileState, if_true, Nat.one_ne_zero, if_false] at hx hy hz ⊢
  simp only [mergeKt, hu, hread, Bool.false_eq_true, if_false, hx, hy, bind, Except.bind, hx0, hy0, or_self, hz]
  subst hu
  rfl

end

/-! LIST_STORE_LOAD (R118). -/

theorem execListStoreLoad_of_none {s : State} {core lane : Nat} (h : listFor s core lane = none) :
    execListStoreLoad core lane s = .next s := by
  simp [execListStoreLoad, h]

theorem listFor_of_taken {s : State} {core lane : Nat}
    (h : 64 ≤ lane ∨ 2 ≤ (mergeOf s core false).held lane + (mergeOf s core true).held lane) : listFor s core lane = none :=
  if_pos h

/-- A lane that holds a list of each merged K tile that it has before it is ahead, until the next output tile has lists. -/
theorem listFor_of_ahead {s : State} {core lane : Nat}
    (hlists : (mergeOf s core false).rowsAt.length ≤ (mergeOf s core false).laneKt.getD lane 0 + (mergeOf s core false).held lane)
    (hnext : (mergeOf s core false).allRead = false ∨ (mergeOf s core true).active = false) : listFor s core lane = none := by
  unfold listFor
  dsimp only
  split
  · rfl
  · rw [if_neg (fun h => absurd h.2 (Nat.not_lt.mpr hlists)), if_neg (by rcases hnext with h | h <;> simp [h])]

/-- The list that a lane's row of B's crate of a merged K tile gives, on its output tile (R118). -/
def laneList (s : State) (r : Run) (w : Walk) (kt lane : Nat) (x : Crate) : List (Nat × Nat) :=
  let b := getView s r w.mi w.pos 1
  laneEntries b.d.format x lane (min ((getView s r w.mi w.pos 0).ex 0) (b.ex 0) - 64 * kt)

theorem held_eq_zero_iff {u : MergeState} {lane : Nat} :
    u.held lane = 0 ↔ u.lists.getD lane none = none ∧ u.nextLists.getD lane none = none := by
  unfold MergeState.held b2n
  cases u.lists.getD lane none <;> cases u.nextLists.getD lane none <;> simp

theorem execListStoreLoad_loads {s : State} {core lane kt : Nat} {u : MergeState} {r : Run} {w : Walk} {x : Crate}
    (hu : mergeOf s core false = u) (hw : mergeWalk s u = some (r, w)) (hlane : lane < 64) (hheld : u.held lane = 0)
    (hnext : (mergeOf s core true).held lane < 2) (hkt : u.rowsAt[u.laneKt.getD lane 0]? = some kt)
    (hin : 64 * (outTile s r w.mi w.pos (u.item / (r.mrec w.mi).split)).2.2 + lane < (getView s r w.mi w.pos 1).ex 1)
    (hx : let o := outTile s r w.mi w.pos (u.item / (r.mrec w.mi).split)
      mergeCrate s r w.mi w.pos 1 (hiOf (getView s r w.mi w.pos 2) o.1) o.2.2 kt = .ok (some x)) :
    execListStoreLoad core lane s = .next (s.onMerge core false (fun u =>
      { u with lists := u.lists.set lane (some (laneList s r w kt lane x)) })) := by
  obtain ⟨hactive, -⟩ := mergeWalk_eq_some_iff.mp hw
  obtain ⟨hlen, -⟩ := List.getElem?_eq_some_iff.mp hkt
  obtain ⟨hempty, -⟩ := held_eq_zero_iff.mp hheld
  have hgetD : u.rowsAt.getD (u.laneKt.getD lane 0) 0 = kt := by
    rw [List.getD_eq_getElem?_getD, hkt]
    rfl
  have hfor : listFor s core lane = some false := by
    unfold listFor
    simp only [hu]
    rw [if_neg (by omega), if_pos ⟨hactive, by omega⟩]
  dsimp only at hx
  simp only [execListStoreLoad, hfor, hu, hw, hheld, Nat.add_zero, hgetD, hx, hin, if_true]
  rw [onMerge_congr (g := fun u => { u with lists := u.lists.set lane (some (laneList s r w kt lane x)) })]
  simp only [hu, hempty, Option.isSome_none, Bool.false_eq_true, if_false]
  rfl

/-! BROADCASTER_PUSH (R119). -/

/-- Items of a lane's hampers, those of the output tile that follows included. -/
def hamperItems (s : State) (core lane : Nat) : Nat :=
  ((mergeOf s core false).hampers.getD lane []).length + ((mergeOf s core true).hampers.getD lane []).length

section
variable {s : State} {core : Nat} {u : MergeState} {r : Run} {w : Walk} (hu : mergeOf s core false = u)
  (hw : mergeWalk s u = some (r, w))
include hu hw

theorem execBroadcasterPush_pushes {x : Nat × Nat × Nat} {rest : List (Nat × Nat × Nat)}
    (hfeed : u.feed = x :: rest) (hfree : ∀ l, l < 64 → hamperItems s core l < 64) :
    execBroadcasterPush core s = .next
      (let t := s.onMerge core false (fun u => { u with feed := rest, hampers := u.hampers.map (fun h => h ++ [x]) })
       if rest = [] ∧ u.allRead = true then t.onWalk r.tag w.mi w.pos (fun w => { w with lastRead := s.now })
       else t) := by
  have hpushed : u.allPushed = false := by simp [MergeState.allPushed, hfeed]
  simp only [hamperItems, hu] at hfree
  simp only [execBroadcasterPush, hu, hpushed, Bool.false_and, hw, hfeed]
  rw [if_pos (List.all_eq_true.mpr fun l hl => decide_eq_true (hfree l (List.mem_range.mp hl)))]
  simp only [Bool.and_eq_true, List.isEmpty_iff]
  rfl

theorem execBroadcasterPush_full {x : Nat × Nat × Nat} {rest : List (Nat × Nat × Nat)}
    (hfeed : u.feed = x :: rest) {l : Nat} (hl : l < 64) (hfull : 64 ≤ hamperItems s core l) :
    execBroadcasterPush core s = .next (s.bump Ctr.mergeFullCc core 1) := by
  have hpushed : u.allPushed = false := by simp [MergeState.allPushed, hfeed]
  simp only [execBroadcasterPush, hu, hpushed, Bool.false_and, hw, hfeed]
  simp only [hamperItems, hu] at hfull
  rw [if_neg]
  intro hall
  exact absurd (of_decide_eq_true (List.all_eq_true.mp hall l (List.mem_range.mpr hl))) (Nat.not_lt.mpr hfull)

theorem execBroadcasterPush_empty (hfeed : u.feed = []) (hkt : u.kt < u.ktEnd) :
    execBroadcasterPush core s = .next (s.bump Ctr.mergeFeedCc core 1) := by
  have hread := allRead_of_kt_lt hkt
  simp [execBroadcasterPush, hu, MergeState.allPushed, hread, hw, hfeed]

/-! LANE_ACTION (R120). -/

section
variable {lane : Nat} (hlane : lane < 64) (hdone : laneDone u lane = false)
include hlane hdone

theorem execLaneAction_starves (hhamper : u.hampers.getD lane [] = []) :
    execLaneAction core lane s = .next (s.bump Ctr.mergeStarveCc core 1) := by
  simp only [execLaneAction, hu, hdone, Bool.false_and, hw, Nat.not_le.mpr hlane, if_false, hhamper, Bool.false_eq_true]

variable {x : Nat × Nat × Nat} {rest : List (Nat × Nat × Nat)} (hhamper : u.hampers.getD lane [] = x :: rest)
include hhamper

theorem execLaneAction_waits (hlist : u.lists.getD lane none = none) :
    execLaneAction core lane s = .next (s.bump Ctr.mergeListWaitCc core 1) := by
  simp only [execLaneAction, hu, hdone, Bool.false_and, hw, Nat.not_le.mpr hlane, if_false, hhamper, hlist]

/-- An action changes the core's merge unit as laneStep says, and counters; no memory changes. -/
theorem execLaneAction_acts {list : List (Nat × Nat)} (hlist : u.lists.getD lane none = some list) :
    ∃ t, execLaneAction core lane s = .next t ∧ t.mem = s.mem
      ∧ mergeOf t core false = (laneStep u lane x list).1 := by
  obtain ⟨t, ht⟩ : ∃ t, execLaneAction core lane s = .next t := ⟨_, rfl⟩
  refine ⟨t, ht, ?_⟩
  simp only [execLaneAction, hu, hdone, Bool.false_and, hw, Nat.not_le.mpr hlane, if_false, hhamper, hlist,
    Host.Outcome.next.injEq] at ht
  subst ht
  exact ⟨by simp [State.onMerge, State.onCore], by simp⟩

end
end

theorem getD_modify_same {α : Type} {l : List α} {i : Nat} (h : i < l.length) (f : α → α) (d : α) :
    (l.modify i f).getD i d = f (l.getD i d) := by
  simp [List.getD_eq_getElem?_getD, List.getElem?_eq_getElem h]

theorem getD_set_same {α : Type} {l : List α} {i : Nat} (h : i < l.length) (a d : α) : (l.set i a).getD i d = a := by
  simp [List.getD_eq_getElem?_getD, h]

/-- A row end closes the row: what the lane kept is the row's result, and the next row begins with nothing kept. -/
theorem laneStep_rowEnd {u : MergeState} {lane : Nat} (hres : lane < u.results.length) (hkept : lane < u.kept.length)
    (hrow : lane < u.laneRow.length) (pos val : Nat) (list : List (Nat × Nat)) :
    let y := (laneStep u lane (1, pos, val) list).1
    y.results.getD lane [] = u.results.getD lane [] ++ [(u.laneKt.getD lane 0, u.laneRow.getD lane 0, u.kept.getD lane [])]
      ∧ y.kept.getD lane [] = [] ∧ y.laneRow.getD lane 0 = u.laneRow.getD lane 0 + 1 :=
  ⟨getD_modify_same hres _ _, getD_set_same hkept _ _, getD_modify_same hrow _ _⟩

/-- An item meets the list's entry at its position and they make a pair; of two unequal positions the lesser is passed over. -/
theorem laneStep_entry {u : MergeState} {lane : Nat} (hham : lane < u.hampers.length) (hj : lane < u.laneJ.length)
    (hkept : lane < u.kept.length) {pos val p v : Nat} {rest : List (Nat × Nat × Nat)} {list : List (Nat × Nat)}
    (hhead : u.hampers.getD lane [] = (0, pos, val) :: rest) (hentry : list[u.laneJ.getD lane 0]? = some (p, v)) :
    let y := (laneStep u lane (0, pos, val) list).1
    y.kept.getD lane [] = u.kept.getD lane [] ++ (if pos = p then [(val, v)] else [])
      ∧ y.hampers.getD lane [] = (if pos ≤ p then rest else (0, pos, val) :: rest)
      ∧ y.laneJ.getD lane 0 = u.laneJ.getD lane 0 + (if p ≤ pos then 1 else 0) := by
  have hpop : (u.hampers.modify lane (fun h => h.drop 1)).getD lane [] = rest := by
    rw [getD_modify_same hham, hhead]
    rfl
  have hstep : (u.laneJ.modify lane (· + 1)).getD lane 0 = u.laneJ.getD lane 0 + 1 := getD_modify_same hj _ _
  have hpair : (u.kept.modify lane (fun l => l ++ [(val, v)])).getD lane [] = u.kept.getD lane [] ++ [(val, v)] :=
    getD_modify_same hkept _ _
  unfold laneStep
  simp only [ne_eq, not_true_eq_false, if_false, hentry]
  rcases Nat.lt_trichotomy pos p with h | rfl | h
  · simp only [h, Nat.ne_of_lt h, Nat.le_of_lt h, Nat.not_le.mpr h, if_true, if_false, hpop, List.append_nil,
      Nat.add_zero, and_self]
  · simp only [Nat.le_refl, if_true, hpop, hstep, hpair, and_self]
  · simp only [Nat.ne_of_gt h, Nat.not_lt.mpr (Nat.le_of_lt h), Nat.le_of_lt h, Nat.not_le.mpr h, if_true, if_false, hstep, hhead,
      List.append_nil, and_self]

/-! MERGE_ROW_ADD (R121). -/

/-- Every lane has its results for the row that is to be added next. -/
def RowReady (u : MergeState) : Prop := ∀ l, l ∈ u.results → ∃ p rest, l = (u.addKt, u.addRow, p) :: rest

/-- The pairs that the lanes give for the row. -/
def rowPairs (u : MergeState) : List (List (Nat × Nat)) :=
  u.results.map (fun l => match l.head? with
    | some (_, _, p) => p
    | none => [])

/-- The sums of the row: each column's accumulation, whether it overflowed, and whether by an infinite input. -/
def rowSums (s : State) (r : Run) (w : Walk) (u : MergeState) : List (Acc × Bool × Bool) :=
  let c := getView s r w.mi w.pos 2
  let o := outTile s r w.mi w.pos (u.item / (r.mrec w.mi).split)
  addRow s r w u u.addRow (rowPairs u) (c.colsIn o.2.2)

/-- A cell of the row is uncorrectable (R75). -/
def sumRowBad (s : State) (core : Nat) (r : Run) (w : Walk) (u : MergeState) : Bool :=
  let c := getView s r w.mi w.pos 2
  let o := outTile s r w.mi w.pos (u.item / (r.mrec w.mi).split)
  cellarBad s core (u.ctile * 16384 + u.addRow * 256) (4 * c.colsIn o.2.2)

/-- Rows of the output tile. -/
def tileRowCount (s : State) (r : Run) (w : Walk) (u : MergeState) : Nat :=
  let o := outTile s r w.mi w.pos (u.item / (r.mrec w.mi).split)
  (getView s r w.mi w.pos 2).rowsIn o.2.1

/-- The merge unit once a row of a tile of some rows is added: the lanes' results for it are taken, and the next row is that
after it, or the first of the next merged K tile. -/
def afterRow (rows : Nat) (inf : Bool) (u : MergeState) : MergeState :=
  { u with
    results := u.results.map (fun l => l.drop 1), noRetry := u.noRetry || inf
    addRow := if u.addRow + 1 = rows then 0 else u.addRow + 1, addKt := if u.addRow + 1 = rows then u.addKt + 1 else u.addKt }

/-- Rows are left where K tiles are still to be read, a merged one follows, or the one being added has a row left. -/
theorem allAdded_afterRow {rows : Nat} {u : MergeState}
    (h : u.kt < u.ktEnd ∨ u.addKt + 1 < u.rowsAt.length ∨ (u.addKt < u.rowsAt.length ∧ ¬ u.addRow + 1 = rows)) (inf : Bool) :
    (afterRow rows inf u).allAdded = false := by
  rcases h with hkt | hrows
  · exact allAdded_of_kt_lt (u := afterRow rows inf u) hkt
  · have hleft : ¬ u.rowsAt.length ≤ (if u.addRow + 1 = rows then u.addKt + 1 else u.addKt) := by
      split <;> omega
    exact Bool.and_eq_false_imp.mpr fun _ => decide_eq_false hleft

/-- What holds of results of that row holds of the head of every lane. -/
theorem RowReady.all_heads {u : MergeState} (h : RowReady u) {p : Option (Nat × Nat × List (Nat × Nat)) → Bool}
    (hp : ∀ ps, p (some (u.addKt, u.addRow, ps)) = true) : (u.results.map (fun l => l.head?)).all p = true := by
  rw [List.all_map, List.all_eq_true]
  intro l hl
  obtain ⟨ps, rest, rfl⟩ := h l hl
  exact hp ps

section
variable {s : State} {core : Nat} {u : MergeState} {r : Run} {w : Walk} (hu : mergeOf s core false = u)
  (hw : mergeWalk s u = some (r, w))
include hu hw

theorem execMergeRowAdd_waits (hready : ¬ RowReady u) : execMergeRowAdd core s = .next s := by
  unfold execMergeRowAdd
  simp only [hu, hw]
  rw [if_pos]
  rw [Bool.not_eq_true']
  refine Bool.eq_false_iff.mpr fun hall => hready fun l hl => ?_
  have hhead := List.all_eq_true.mp hall l.head? (List.mem_map_of_mem hl)
  cases l with
  | nil => cases hhead
  | cons y rest =>
    obtain ⟨q, i, p⟩ := y
    simp only [List.head?_cons, Bool.and_eq_true, beq_iff_eq] at hhead
    obtain ⟨rfl, rfl⟩ := hhead
    exact ⟨p, rest, rfl⟩

variable (hready : RowReady u)
include hready

theorem execMergeRowAdd_bad (hbad : sumRowBad s core r w u = true) :
    execMergeRowAdd core s = .next (failRead s r.tag w.mi core (.bad 3)) := by
  unfold sumRowBad at hbad
  unfold execMergeRowAdd
  simp only [hu, hw]
  rw [hready.all_heads, if_neg (by simp), if_pos hbad]
  intro ps
  simp

/-- Where no column overflows and rows are left after this one, the sums go into the cellar row and the unit goes on. -/
theorem execMergeRowAdd_adds (hbad : sumRowBad s core r w u = false)
    (hsat : (rowSums s r w u).any (fun x => x.2.1) = false)
    (hleft : u.kt < u.ktEnd ∨ u.addKt + 1 < u.rowsAt.length
      ∨ (u.addKt < u.rowsAt.length ∧ ¬ u.addRow + 1 = tileRowCount s r w u)) :
    ∃ t inf, execMergeRowAdd core s = .next t
      ∧ t.mem = (putRow s core u.ctile u.addRow ((rowSums s r w u).map
          (fun x => accCode ((s.core core).tile u.ctile).isInt x.1))).mem
      ∧ mergeOf t core false = afterRow (tileRowCount s r w u) inf u
      ∧ t = { s with mem := t.mem, cores := t.cores } := by
  have hends (inf : Bool) (v : State) := mergeEnds_of_not_allAdded
    (s := v.onMerge core false (fun _ => afterRow (tileRowCount s r w u) inf u)) (core := core)
    (by simpa using allAdded_afterRow hleft inf) 2
  obtain ⟨t, ht⟩ : ∃ t, execMergeRowAdd core s = .next t := ⟨_, rfl⟩
  refine ⟨t, (rowSums s r w u).any (fun x => x.2.2), ht, ?_⟩
  unfold execMergeRowAdd at ht
  simp only [hu, hw] at ht
  generalize hout : addRow s r w _ _ _ _ = out at ht
  rw [List.map_map] at hout
  obtain rfl : rowSums s r w u = out := hout
  unfold sumRowBad at hbad
  rw [hready.all_heads, if_neg (by simp), if_neg (by simpa using hbad)] at ht
  · simp only [hsat, Bool.false_and, Bool.false_eq_true, if_false, Host.Outcome.next.injEq] at ht
    have hadded := ht.symm.trans (hends _ _)
    rw [hadded]
    exact ⟨rfl, by simp, rfl⟩
  · intro ps
    simp

end

/-- Settles O27: each command by what it does in the case at hand, a merge unit's step by the lane's entries that it changes,
and a row by its sums. -/
theorem mergePath : Obligations.MergePath := by
  unfold Obligations.MergePath
  refine ⟨?ktiles, ?lanes, ?rows⟩
  case ktiles =>
    intro s core r w u v hw m a c o
    refine ⟨fun hnext hpushed hfull => execMergeKtile_full rfl hw hnext hpushed hfull, fun hnext hmay hkt hrots hcore => ?reads,
      fun lane h => execListStoreLoad_of_none (listFor_of_taken h),
      fun lane hlists hnext => execListStoreLoad_of_none (listFor_of_ahead hlists hnext),
      fun lane x kt hlane hheld hnext hlist => execListStoreLoad_loads rfl hw hlane hheld hnext hlist⟩
    subst hcore
    intro s1 x y hx hy
    have hreads := execMergeKtile_reads rfl hw hnext (Nat.lt_of_succ_lt hkt) hmay
    have hreach : s1.rots = [] := (congrArg State.rots (reach_eq ..)).trans hrots
    refine ⟨fun h => ?_, fun z hx0 hy0 hz => ?_⟩
    · rw [mergeKt_skips rfl hkt hx hy h, noteReaders_of_noRots] at hreads
      · exact hreads
      · exact (bump_rots ..).trans hreach
    · rw [mergeKt_feeds rfl hkt hx hy hx0 hy0 hz, noteReaders_of_noRots] at hreads
      · exact hreads
      · exact hreach
  case lanes =>
    intro s core r w u held hw
    refine ⟨fun x rest hfeed hfree => execBroadcasterPush_pushes rfl hw hfeed hfree,
      fun x rest l hfeed hl hfull => execBroadcasterPush_full rfl hw hfeed hl hfull,
      fun hfeed hkt => execBroadcasterPush_empty rfl hw hfeed hkt,
      fun lane hlane hdone => ⟨fun hhamper => execLaneAction_starves rfl hw hlane hdone hhamper,
        fun x rest hhamper hlist => execLaneAction_waits rfl hw hlane hdone hhamper hlist,
        fun pos val rest list hres hkept hrow hhamper hlist => ?_,
        fun pos val rest list p v hham hj hkept hhamper hlist hentry => ?_⟩⟩
    · obtain ⟨t, ht, hmem, hunit⟩ := execLaneAction_acts rfl hw hlane hdone hhamper hlist
      exact ⟨t, ht, hmem, hunit ▸ laneStep_rowEnd hres hkept hrow pos val list⟩
    · obtain ⟨t, ht, hmem, hunit⟩ := execLaneAction_acts rfl hw hlane hdone hhamper hlist
      exact ⟨t, ht, hmem, hunit ▸ laneStep_entry hham hj hkept hhamper hentry⟩
  case rows =>
    intro s core r w u hw c o ready prods out last bad
    refine ⟨fun h => execMergeRowAdd_waits rfl hw h, fun q hready hbad hlive hq => ?_, fun hready hbad hsat hleft => ?_⟩
    · have hnoted : (noteBad s core (.bad 3)).live r.tag = some q := (live_of_runs (bump_runs ..) _).trans hlive
      obtain ⟨y, hy, hstop, hmi⟩ := live_failMacro hnoted hq w.mi eDataLost
      exact ⟨_, y, execMergeRowAdd_bad rfl hw hready hbad, hy, hstop, hmi⟩
    · obtain ⟨t, inf, ht, hmem, hunit, hframe⟩ := execMergeRowAdd_adds rfl hw hready hbad hsat hleft
      refine ⟨t, ht, hmem, ?_, ?_, ?_, hframe⟩ <;> rw [hunit] <;> rfl

end Sys2Proof.Machine
end

section
/-!
SUPPORT. The walk of a record on a position, seen through what changes its run: issuing writes leaves it (R179), for a stream that
halts pauses the run and touches no walk (R188, R189), and ending it changes its two marks.
-/

namespace Sys2Proof.Machine

/-- The walk of a record on a position of the run that is live under a tag. -/
def walkAt (s : State) (t i p : Nat) : Option Walk := (s.live t).bind (fun r => r.walk i p)

theorem walkAt_eq_some_iff {s : State} {t i p : Nat} {w : Walk} :
    walkAt s t i p = some w ↔ ∃ r, findWalk s t i p = some (r, w) := by
  simp only [walkAt, Option.bind_eq_some_iff, findWalk_eq_some_iff]

theorem walkEnded_iff {s : State} {t i p : Nat} :
    Safety.WalkEnded s t i p ↔ ∃ w, walkAt s t i p = some w ∧ w.done = true := by
  simp only [Safety.WalkEnded, walkAt_eq_some_iff]
  exact ⟨fun ⟨r, w, hw, hdone⟩ => ⟨w, ⟨r, hw⟩, hdone⟩, fun ⟨w, ⟨r, hw⟩, hdone⟩ => ⟨r, w, hw, hdone⟩⟩

theorem walkAt_of_runs {s u : State} (h : u.runs = s.runs) (t i p : Nat) : walkAt u t i p = walkAt s t i p := by
  rw [walkAt, live_of_runs h]
  rfl

@[simp] theorem walkAt_bump (s : State) (k : Nat × Nat) (c n t i p : Nat) : walkAt (s.bump k c n) t i p = walkAt s t i p :=
  walkAt_of_runs (bump_runs _ _ _ _) _ _ _

theorem tag_of_live {s : State} {t : Nat} {r : Run} (h : s.live t = some r) : r.tag = t := by
  have hfound := List.find?_some h
  simp only [Bool.and_eq_true, beq_iff_eq] at hfound
  exact hfound.1

/-- A change of a walk that leaves it its record and position shows in that walk. -/
theorem walkAt_onWalk {f : Walk → Walk} (hmi : ∀ w, (f w).mi = w.mi) (hpos : ∀ w, (f w).pos = w.pos)
    (s : State) (t i p : Nat) : walkAt (s.onWalk t i p f) t i p = (walkAt s t i p).map f := by
  unfold walkAt State.onWalk
  rw [live_onRun (by intros; rfl) (by intros; assumption)]
  cases s.live t with
  | none => rfl
  | some r => exact find?_mapIf (fun w hw => by simpa [hmi, hpos] using hw) r.walks

/-- A change of the runs of any tag that leaves them their tags and walks, and ends none, leaves every walk. -/
theorem walkAt_onRun {f : Run → Run} (htag : ∀ r, (f r).tag = r.tag) (hstate : ∀ r : Run, r.state ≠ 3 → (f r).state ≠ 3)
    (hwalks : ∀ r, (f r).walks = r.walks) (s : State) (q t i p : Nat) :
    walkAt (s.onRun q f) t i p = walkAt s t i p := by
  have hsame : (fun r : Run => r.tag == t && r.state != 3) ∘ (fun r => if r.tag == q && r.state != 3 then f r else r)
      = fun r => r.tag == t && r.state != 3 := by
    funext r
    simp only [Function.comp_apply]
    split
    case isTrue hr =>
      obtain ⟨-, hlive⟩ := Bool.and_eq_true_iff.mp hr
      rw [htag, hlive, bne_iff_ne.mpr (hstate r (bne_iff_ne.mp hlive))]
    case isFalse => rfl
  unfold walkAt State.live State.onRun mapIf
  rw [List.find?_map, hsame]
  cases s.runs.find? (fun r => r.tag == t && r.state != 3) with
  | none => rfl
  | some r =>
    simp only [Option.map_some, Option.bind_some, Run.walk]
    split <;> simp [hwalks]

@[simp] theorem walkAt_endWalk (s : State) (t i p c : Nat) :
    walkAt (endWalk s t i p c) t i p = (walkAt s t i p).map (fun w => { w with done := true, set := true }) :=
  (walkAt_onWalk (by intros; rfl) (by intros; rfl) _ _ _ _).trans (congrArg _ (walkAt_of_runs rfl _ _ _))

/-! Sending and the write path change no run but by a halt. -/

@[simp] theorem deliver_runs (s : State) (q : Nat) (c : Completion) : (deliver s q c).runs = s.runs :=
  (congrArg State.runs (answerPart_deliver s q c) :)

theorem sendOn_runs {s t : State} {cls : Nat} {h : Hdr} {d : List Byte} (e : sendOn s cls h d = some t) : t.runs = s.runs := by
  unfold sendOn at e
  split at e
  · cases e
  · split at e
    · cases e
    · cases e
      rfl

@[simp] theorem sendTransfer_runs (s : State) (cls : Nat) (h : Hdr) (d : List Byte) : (sendTransfer s cls h d).1.runs = s.runs := by
  unfold sendTransfer
  split
  · exact sendOn_runs ‹_›
  · exact bump_runs _ _ _ _

@[simp] theorem pumpQp_runs (n : Nat) (s : State) (q : Nat) : (pumpQp n s q).runs = s.runs := by
  induction n generalizing s with
  | zero => rfl
  | succ n ih =>
    have hsent (x : State) (o : Out) : (txMsg x q o).runs = x.runs := (congrArg State.runs (idlePart_txMsg x q o) :)
    unfold pumpQp
    split
    · rfl
    · split
      · rfl
      · split
        · rfl
        · exact (ih _).trans (hsent _ _)

@[simp] theorem hostReq_runs (s : State) (kind q addr rkey : Nat) (d : List Byte) :
    (hostReq s kind q addr rkey d).runs = s.runs := by
  unfold hostReq roce
  split
  · rfl
  · split
    · rfl
    · exact pumpQp_runs _ _ _

@[simp] theorem lookupPage_runs (s : State) (core page : Nat) : (lookupPage s core page).runs = s.runs := by
  unfold lookupPage
  dsimp only
  split
  · rfl
  · split <;> exact bump_runs _ _ _ _

@[simp] theorem issueWrite_runs (s : State) (x : Stream) (f : Xfer) : (issueWrite s x f).1.runs = s.runs := by
  have hput (u : State) (n : Nat) (g : Core → Core) (k k' : Nat × Nat) (c c' m m' : Nat) :
      (((({ u with nextXfer := n }).onCore x.core g).bump k c m).bump k' c' m').runs = u.runs := by
    rw [bump_runs, bump_runs]
    rfl
  unfold issueWrite
  dsimp only
  split
  · exact lookupPage_runs _ _ _
  · split
    · exact (hput ..).trans (lookupPage_runs _ _ _)
    · simp only [apply_ite Prod.fst, apply_ite State.runs, hput]
      simp only [sendTransfer_runs, lookupPage_runs, ite_self]
    · exact (hput ..).trans ((foldl_leaves (fun y r => hostReq_runs y _ _ _ _ _) _ _).trans (lookupPage_runs _ _ _))

@[simp] theorem walkAt_haltStream (s : State) (x : Stream) (page reason t i p : Nat) :
    walkAt (haltStream s x page reason) t i p = walkAt s t i p := by
  have hpaused (u : State) (h : Halt) (hu : u.runs = s.runs) :
      walkAt (u.onRun x.tag (fun r => { r with state := 2, halts := r.halts ++ [h], interim := true })) t i p = walkAt s t i p :=
    (walkAt_onRun (by intros; rfl) (by simp) (by intros; rfl) _ _ _ _ _).trans (walkAt_of_runs hu _ _ _)
  unfold haltStream
  split
  · rfl
  · split
    · rfl
    · dsimp only
      split
      · exact hpaused _ _ (bump_runs _ _ _ _)
      · exact (walkAt_of_runs (deliver_runs _ _ _) _ _ _).trans (hpaused _ _ (bump_runs _ _ _ _))

@[simp] theorem walkAt_issueStream (n : Nat) (s : State) (x : Stream) (t i p : Nat) :
    walkAt (issueStream n s x) t i p = walkAt s t i p := by
  induction n generalizing s x with
  | zero => rfl
  | succ n ih =>
    unfold issueStream
    split
    · rfl
    · split
      · rfl
      · dsimp only
        split
        · exact (walkAt_haltStream ..).trans (walkAt_of_runs (issueWrite_runs _ _ _) _ _ _)
        · exact (ih _ _).trans (walkAt_of_runs (issueWrite_runs _ _ _) _ _ _)

@[simp] theorem walkAt_issueWrites (s : State) (t i p : Nat) : walkAt (issueWrites s) t i p = walkAt s t i p :=
  foldl_leaves (g := fun u => walkAt u t i p) (fun u x => walkAt_issueStream _ u x t i p) _ _

@[simp] theorem issueWrites_mem (s : State) : (issueWrites s).mem = s.mem := (congrArg State.mem (issuePart_issueWrites s) :)

end Sys2Proof.Machine
end

section
/-!
SUPPORT. The predictor and its governed rows: what PREDICT writes and quantises (R127, R130, R141), a group's decisions
(R128 to R138), and when the governed records' commands act (R131 to R137, R179).
-/

namespace Sys2Proof.Machine

/-! What the shared operations leave. -/

@[simp] theorem noteLayer_mem (s : State) (r : Run) (mi : Nat) : (noteLayer s r mi).mem = s.mem := by
  unfold noteLayer
  dsimp only
  split
  · rfl
  · split <;> rfl

@[simp] theorem reach_mem (s : State) (t i p : Nat) (ops : List Nat) (item : Nat) : (reach s t i p ops item).mem = s.mem :=
  (congrArg State.mem (reach_eq s t i p ops item) :)

theorem endGovReads_runs_mem (s : State) (t g p : Nat) :
    ((endGovReads s t g p).runs, (endGovReads s t g p).mem) = (s.runs, s.mem) := by
  unfold endGovReads
  split
  · rfl
  · refine foldl_leaves (g := fun u : State => (u.runs, u.mem)) (fun u k => ?_) _ _
    split
    · split <;> rfl
    · rfl

@[simp] theorem endGovReads_mem (s : State) (t g p : Nat) : (endGovReads s t g p).mem = s.mem :=
  congrArg Prod.snd (endGovReads_runs_mem s t g p)

@[simp] theorem walkAt_endGovReads (s : State) (t g p t' i p' : Nat) :
    walkAt (endGovReads s t g p) t' i p' = walkAt s t' i p' :=
  walkAt_of_runs (congrArg Prod.fst (endGovReads_runs_mem s t g p)) _ _ _

@[simp] theorem noteReaders_mem (s : State) (r : Run) (mi pos : Nat) : (noteReaders s r mi pos).mem = s.mem := by
  unfold noteReaders
  split
  · rfl
  · refine foldl_leaves (g := State.mem) (fun u k => ?_) _ _
    dsimp only
    split
    · unfold beginReads
      dsimp only
      split <;> rfl
    · rfl

/-- An opcode's command acts on a started walk of that opcode that is not done. -/
theorem opCmd_of_walk {s : State} {t i p op : Nat} {r : Run} {w : Walk} (hw : walkOf s t i p = some (r, w))
    (hop : (r.mrec i).opcode = op) (hdone : w.done = false) (f : State → Run → Walk → State) :
    opCmd s t i p op f = f s r w := by
  simp [opCmd, hw, hop, hdone]

/-! PREDICT (R127, R130, R141). -/

section
variable {s : State} {r : Run} {w : Walk} {us : List Nat} (hset : w.set = false) (hus : walkUnits s r w.mi w.pos = .ok us)
include hset hus

theorem predictWalk_dense (hmode : (r.mrec w.mi).pmode = 0) {v : State}
    (hv : let n := noteLayer s r w.mi
      writeMask n r w.mi w.pos ((us.flatMap (groupRows n r w.mi w.pos)).map (fun x => (x, true))) = .ok v) :
    predictWalk s r w = endWalk (issueWrites v) r.tag w.mi w.pos w.core := by
  dsimp only at hv
  simp only [predictWalk, hset, hus, hmode, hv, Bool.false_eq_true, if_false, if_true]

theorem predictWalk_quantises (hmode : (r.mrec w.mi).pmode ≠ 0) (hne : us ≠ []) {q : PredState}
    (hq : quantise (reach (noteLayer s r w.mi) r.tag w.mi w.pos [0] allItems) r w.mi w.pos = .ok q) :
    predictWalk s r w = (reach (noteLayer s r w.mi) r.tag w.mi w.pos [0] allItems).onWalk r.tag w.mi w.pos
      (fun w => { w with set := true, pred := { q with groups := us } }) := by
  simp only [predictWalk, hset, hus, hmode, hq, hne, Bool.false_eq_true, if_false, List.isEmpty_iff]

end

/-- A position whose writes are issued has ended its walk, and nothing else has changed. -/
theorem endWalk_issueWrites_ends {v : State} {t i p : Nat} {w : Walk} (hw : walkAt v t i p = some w) (c : Nat) :
    Safety.WalkEnded (endWalk (issueWrites v) t i p c) t i p ∧ Safety.IssueFrame v (endWalk (issueWrites v) t i p c) := by
  refine ⟨walkEnded_iff.mpr ?_, issueFrame_iff.mpr (by simp)⟩
  rw [walkAt_endWalk, walkAt_issueWrites, hw]
  exact ⟨_, rfl, rfl⟩

/-! PREDICTOR_GROUP (R128 to R138). -/

/-- The decisions of a group's rows: the row, whether it is kept, whether that is forced, and its reserved sketch codes. -/
def groupDecisions (s : State) (r : Run) (w : Walk) (g : Nat) : Except RdErr (List (Nat × Bool × Bool × Nat)) :=
  (groupRows s r w.mi w.pos g).mapM (fun x => do
    let blocks ← sketchRow s (getView s r w.mi w.pos 1) (predK s r w.mi w.pos) x
    let k ← keepRow s r w x blocks
    .ok (x, k.1, k.2, (blocks.map (fun b => (b.2.1.filter (fun c => c == 2)).length)).sum))

/-- The rows that decisions skip. -/
def skippedRows (ds : List (Nat × Bool × Bool × Nat)) : List Nat := (ds.filter (fun d => !d.2.1)).map (fun d => d.1)

/-- The skipped rows that are audited: all of them in the exact mode, those that the hash selects in AUDIT (R136, R138). -/
def auditedRows (r : Run) (i : Nat) (ds : List (Nat × Bool × Bool × Nat)) : List Nat :=
  (skippedRows ds).filter (fun x => (r.mrec i).pmode == 3 || ((r.mrec i).pmode == 2 &&
    auditHash (r.mrec (i + 1)).imm1 x (bits (r.mrec i).imm0 16 4)))

/-- The predictor's state once a group is decided and others are left. -/
def afterGroup (r : Run) (i : Nat) (gs : List Nat) (ds : List (Nat × Bool × Bool × Nat)) (q : PredState) : PredState :=
  { q with
    groups := gs
    kept := q.kept ++ (ds.filter (fun d => d.2.1)).map (fun d => d.1)
    audit := q.audit ++ auditedRows r i ds
    toZero := q.toZero ++ (skippedRows ds).filter (fun x => !(auditedRows r i ds).contains x) }

/-- A skipped row is audited or is to be zeroed. -/
theorem skipped_mem_afterGroup {ds : List (Nat × Bool × Bool × Nat)} {d : Nat × Bool × Bool × Nat} (hd : d ∈ ds)
    (hskip : d.2.1 = false) (r : Run) (i : Nat) (gs : List Nat) (q : PredState) :
    d.1 ∈ (afterGroup r i gs ds q).audit ∨ d.1 ∈ (afterGroup r i gs ds q).toZero := by
  have hskipped : d.1 ∈ skippedRows ds := List.mem_map.mpr ⟨d, List.mem_filter.mpr ⟨hd, by simp [hskip]⟩, rfl⟩
  by_cases haudit : d.1 ∈ auditedRows r i ds
  · exact .inl (List.mem_append_right _ haudit)
  · exact .inr (List.mem_append_right _ (List.mem_filter.mpr ⟨hskipped, by simp [haudit]⟩))

/-- A complete kept tile of a governed record takes the block path before the next group. -/
theorem groupWalk_waits {s : State} {r : Run} {w : Walk}
    (h : keptTile r w.mi w.pos w.pred 1 ≠ [] ∨ keptTile r w.mi w.pos w.pred 2 ≠ [] ∨ unissued s r.tag w.mi w.pos = true) :
    groupWalk s r w = s := by
  unfold groupWalk
  split
  · rfl
  · rw [if_pos]
    simpa [or_assoc] using Or.inr h

section
variable {s v : State} {r : Run} {w : Walk} {g : Nat} {gs : List Nat} {ds : List (Nat × Bool × Bool × Nat)}
  (hset : w.set = true) (hgroups : w.pred.groups = g :: gs) (hfirst : keptTile r w.mi w.pos w.pred 1 = [])
  (hsecond : keptTile r w.mi w.pos w.pred 2 = []) (hqueue : unissued s r.tag w.mi w.pos = false)
  (hds : groupDecisions (reach s r.tag w.mi w.pos [1] g) r w g = .ok ds)
  (hv : writeMask (reach s r.tag w.mi w.pos [1] g) r w.mi w.pos (ds.map (fun d => (d.1, d.2.1))) = .ok v)
include hset hgroups hfirst hsecond hqueue hds hv

/-- A group that is decided leaves the memories as its mask bits left them, and its decisions in the walk, which with the last
group has ended. -/
theorem groupWalk_decides {w0 : Walk} (hw : walkAt v r.tag w.mi w.pos = some w0) :
    ∃ y, walkAt (groupWalk s r w) r.tag w.mi w.pos = some y ∧ y.pred = afterGroup r w.mi gs ds w0.pred
      ∧ (y.done = (gs.isEmpty || w0.done)) ∧ (groupWalk s r w).mem = v.mem := by
  obtain ⟨u, hu, hmem, hwalk⟩ : ∃ u, groupWalk s r w
        = (if gs.isEmpty then endGovReads (endWalk u r.tag w.mi w.pos w.core) r.tag w.mi w.pos else u)
      ∧ u.mem = v.mem ∧ walkAt u r.tag w.mi w.pos = some { w0 with pred := afterGroup r w.mi gs ds w0.pred } := by
    unfold groupDecisions at hds
    simp only [groupWalk, hset, hgroups, hfirst, hsecond, hqueue, hds, hv, List.isEmpty_nil, Bool.not_true, Bool.or_self,
      Bool.false_eq_true, if_false]
    refine ⟨_, rfl, ?_, ?_⟩
    · simp only [issueWrites_mem, bump_mem]
      rfl
    · simp only [walkAt_issueWrites, walkAt_bump]
      rw [walkAt_onWalk (by intros; rfl) (by intros; rfl), hw]
      rfl
  rw [hu]
  cases gs with
  | nil =>
    simp only [List.isEmpty_nil, if_true, walkAt_endGovReads, walkAt_endWalk, hwalk, Option.map_some]
    exact ⟨_, rfl, rfl, rfl, (endGovReads_mem _ _ _ _).trans hmem⟩
  | cons g' gs' => exact ⟨_, hwalk, rfl, rfl, hmem⟩

end

/-! The governed records' commands (R131 to R137). -/

theorem walkOf_of_govWalk {s : State} {t i p g : Nat} {r : Run} {w : Walk} {q : PredState}
    (h : govWalk s t i p = some (r, w, g, q)) : walkOf s t i p = some (r, w) := by
  unfold govWalk at h
  split at h
  · cases h
  · split at h
    · cases h
    · split at h
      · cases h
      · simp only [Option.map_eq_some_iff, Prod.mk.injEq] at h
        obtain ⟨-, -, rfl, rfl, -, -⟩ := h
        assumption

/-- The rows of the next packed tile: kept ones first, else audited or exact ones (R134, R136). -/
def packedRows (r : Run) (g p : Nat) (q : PredState) (k : Nat) : List Nat :=
  if keptTile r g p q k = [] then auditTile r g p q k else keptTile r g p q k

/-- The clock stands while a packed tile goes through the cellar. -/
theorem putPacked_now (s : State) (t i p : Nat) (r : Run) (w : Walk) (rows : List Nat) (k : Nat) (ps : List PackPart) :
    (putPacked (countPacked (reach s t i p [0, 1, 2, 3] allItems) r w rows ps) w k ps).now = s.now :=
  (putPacked_kept _ _ _ (countPacked_kept _ _ _ _ (reach_kept _ _ _ _ _ (Kept.refl s)))).clock

/-- The state in which a packed tile drains: it has been counted and has gone through its cellar tile, which is FREE again. -/
def drainState (s : State) (t i p : Nat) (r : Run) (w : Walk) (rows : List Nat) (ps : List PackPart) : State :=
  let k := nextTile (r.mrec i) w
  let a := (putPacked (countPacked (reach s t i p [0, 1, 2, 3] allItems) r w rows ps) w k ps).onTile w.core k
    (fun _ => { releasedAt := s.now })
  a.onWalk t i p (fun w => { w with count := w.count + 1 })

section
variable {s : State} {t i p g : Nat} {r : Run} {w : Walk} {q : PredState} (hw : govWalk s t i p = some (r, w, g, q))
include hw

theorem execZeroRowWrite_waits (h : zeroRows r g q (i - g) = [] ∨ unissued s t i p = true) :
    execZeroRowWrite t i p s = .next s := by
  simp only [execZeroRowWrite, hw]
  rw [if_pos (by simpa using h)]

theorem execZeroRowWrite_writes (hrows : zeroRows r g q (i - g) ≠ []) (hqueue : unissued s t i p = false) {v : State}
    (hv : commitRows s r g (i - g) w (zeroRows r g q (i - g)) ((zeroRows r g q (i - g)).flatMap (fun x =>
      (List.range ((getView s r i p 2).rowsIn 0)).map (fun j => (x, j, Val.zero, false)))) = .ok v) :
    execZeroRowWrite t i p s = .next (v.bump Ctr.zeroRows w.core (zeroRows r g q (i - g)).length) := by
  simp only [execZeroRowWrite, hw]
  rw [if_neg (by simp [hrows, hqueue]), hv]

theorem execPackedTile_waits (h : tileFree s w.core (nextTile (r.mrec i) w) = false ∨ packedRows r g p q (i - g) = [] ∨
    unissued s t i p = true) : execPackedTile t i p s = .next s := by
  unfold packedRows at h
  simp only [execPackedTile, hw, List.isEmpty_iff]
  rw [if_pos]
  simpa only [Bool.or_eq_true, Bool.not_eq_true', List.isEmpty_iff, or_assoc, or_left_comm] using h

theorem execPackedTile_drains (hfree : tileFree s w.core (nextTile (r.mrec i) w) = true)
    (hrows : packedRows r g p q (i - g) ≠ []) (hqueue : unissued s t i p = false) {ps : List PackPart} {v : State}
    (hps : (((packedRows r g p q (i - g)).map (fun x => x / 64)).eraseDups).mapM
      (packPart (reach s t i p [0, 1, 2, 3] allItems) r w (packedRows r g p q (i - g))) = .ok ps)
    (hv : drainPacked (drainState s t i p r w (packedRows r g p q (i - g)) ps) r w g q
      (decide (keptTile r g p q (i - g) ≠ [])) (packedRows r g p q (i - g)) ps = .ok (.ok v)) :
    execPackedTile t i p s = .next (noteReaders (endGovReads v t g p) r i p) := by
  have hkept : (!(keptTile r g p q (i - g)).isEmpty) = decide (keptTile r g p q (i - g) ≠ []) := by
    cases keptTile r g p q (i - g) <;> rfl
  unfold packedRows at hrows hps hv
  unfold drainState at hv
  dsimp only at hv
  simp only [execPackedTile, hw, List.isEmpty_iff, hqueue, hfree, hkept]
  rw [if_neg (by simpa using hrows), hps]
  simp only [putPacked_now, hv]

/-- Every row in extent of a governed record's units is written, and its loft copies are. -/
def allWritten (s : State) (r : Run) (w : Walk) (i p k : Nat) (q : PredState) : Bool :=
  w.loftDone && w.units.all (fun u => (List.range ((getView s r i p 2).colsIn u)).all (fun j => q.did k (64 * u + j)))

theorem execGovernedRelease_ends (h : allWritten s r w i p (i - g) q = true) :
    ∃ u, execGovernedRelease t i p s = .next u ∧ Safety.WalkEnded u t i p ∧ u.mem = s.mem := by
  obtain ⟨hlive, hwalk, -⟩ := walkOf_eq_some_iff.mp (walkOf_of_govWalk hw)
  have hfound : walkAt s t i p = some w := walkAt_eq_some_iff.mpr ⟨r, findWalk_eq_some_iff.mpr ⟨hlive, hwalk⟩⟩
  unfold allWritten at h
  refine ⟨endWalk (s.onWalk t i p (fun w => { w with units := [] })) t i p w.core, ?_, walkEnded_iff.mpr ?_, rfl⟩
  · simp only [execGovernedRelease, hw]
    rw [if_pos h]
  · rw [walkAt_endWalk, walkAt_onWalk (by intros; rfl) (by intros; rfl), hfound]
    exact ⟨_, rfl, rfl⟩

theorem execGovernedRelease_waits (h : allWritten s r w i p (i - g) q = false) : execGovernedRelease t i p s = .next s := by
  unfold allWritten at h
  simp only [execGovernedRelease, hw]
  rw [if_neg (by simp [h])]

end

/-- Settles O28: PREDICT by its mode, a group by what its decisions leave in the walk, and the governed records' commands by when
they act. -/
theorem predictor : Obligations.Predictor := by
  unfold Obligations.Predictor
  refine ⟨?predict, ?group, ?governed⟩
  case predict =>
    intro s t i p r w us hw hdone hset hop hus
    obtain ⟨hlive, hwalk, -⟩ := walkOf_eq_some_iff.mp hw
    obtain ⟨rfl, rfl⟩ := Run.mi_pos_of_walk hwalk
    obtain rfl := tag_of_live hlive
    have hexec : exec (.predict r.tag w.mi w.pos) s = .next (predictWalk s r w) :=
      congrArg Host.Outcome.next (opCmd_of_walk hw hop hdone predictWalk)
    refine ⟨fun hmode v hv _ hkept => ?_, fun q hmode hne hq => ?_⟩
    · rw [hexec, predictWalk_dense hset hus hmode hv]
      exact ⟨_, rfl, endWalk_issueWrites_ends hkept w.core⟩
    · rw [hexec, predictWalk_quantises hset hus hmode hne hq]
      exact ⟨rfl, (reach_mem ..).trans (noteLayer_mem ..)⟩
  case group =>
    intro s t i p g gs r w hw hdone hop hset hgroups
    obtain ⟨hlive, hwalk, -⟩ := walkOf_eq_some_iff.mp hw
    obtain ⟨rfl, rfl⟩ := Run.mi_pos_of_walk hwalk
    obtain rfl := tag_of_live hlive
    have hexec : exec (.predictorGroup r.tag w.mi w.pos) s = .next (groupWalk s r w) :=
      congrArg Host.Outcome.next (opCmd_of_walk hw hop hdone groupWalk)
    refine ⟨fun h => hexec.trans (congrArg _ (groupWalk_waits h)), fun ds v hfirst hsecond hqueue hds hv hrun => ?_⟩
    have hthere : walkAt v r.tag w.mi w.pos = some w :=
      walkAt_eq_some_iff.mpr ⟨r, findWalk_eq_some_iff.mpr ⟨hrun, hwalk⟩⟩
    obtain ⟨y, hy, hpred, hend, hmem⟩ := groupWalk_decides hset hgroups hfirst hsecond hqueue hds hv hthere
    obtain ⟨x, hx⟩ := walkAt_eq_some_iff.mp hy
    refine ⟨_, x, y, hexec, hmem, hx, ?_, ?_, ?_, fun d hd hskip => ?_⟩
    · rw [hpred]
      rfl
    · rw [hend, hdone, Bool.or_false, List.isEmpty_iff]
    · rw [hpred]
      rfl
    · rw [hpred]
      exact skipped_mem_afterGroup hd hskip r w.mi gs w.pred
  case governed =>
    intro s t i p g r w q hw
    refine ⟨fun h => execZeroRowWrite_waits hw h, fun v hrows hqueue hv => execZeroRowWrite_writes hw hrows hqueue hv,
      ⟨fun h => execPackedTile_waits hw h, fun ps v hfree hrows hqueue hps hv => ?packed⟩,
      fun h => execGovernedRelease_ends hw h, fun h => execGovernedRelease_waits hw h⟩
    exact ⟨_, execPackedTile_drains hw hfree hrows hqueue hps hv, (noteReaders_mem ..).trans (endGovReads_mem ..), rfl⟩

end Sys2Proof.Machine
end

section
/-!
SUPPORT. The copies: how a position's copy work ends (R163, R179), which cells a copy writes (R162, R166), and what COPY, TRANSPOSE,
PERMUTE, COMPRESS (R165, R166, R168), GATHER (R170) and SCATTER_ADD (R172) do on a position.
-/

namespace Sys2Proof.Machine

theorem walkAt_of_live {s : State} {t i p : Nat} {r : Run} {w : Walk} (hlive : s.live t = some r) (hwalk : r.walk i p = some w) :
    walkAt s t i p = some w :=
  walkAt_eq_some_iff.mpr ⟨r, findWalk_eq_some_iff.mpr ⟨hlive, hwalk⟩⟩

/-! What logging, counting and beginning to read leave. -/

@[simp] theorem walkAt_appendLog (s : State) (q : Nat) (e : LogEntry) (t i p : Nat) :
    walkAt (appendLog s q e) t i p = walkAt s t i p := by
  unfold appendLog
  split
  · rfl
  · refine (foldl_leaves (g := fun u => walkAt u t i p) (fun u x => walkAt_bump u _ _ _ t i p) _ _).trans ?_
    exact walkAt_onRun (by intros; rfl) (by simp) (by intros; rfl) _ _ _ _ _

@[simp] theorem walkAt_logFlags (s : State) (q mi pos flags t i p : Nat) :
    walkAt (logFlags s q mi pos flags) t i p = walkAt s t i p := by
  unfold logFlags
  split <;> simp

@[simp] theorem issuePart_logFlags (s : State) (q mi pos flags : Nat) : issuePart (logFlags s q mi pos flags) = issuePart s := by
  unfold logFlags
  split <;> simp

@[simp] theorem issuePart_countCopy (s : State) (core rd wr crates fell : Nat) :
    issuePart (countCopy s core rd wr crates fell) = issuePart s := by
  simp [countCopy]

@[simp] theorem countCopy_runs (s : State) (core rd wr crates fell : Nat) : (countCopy s core rd wr crates fell).runs = s.runs := by
  simp [countCopy]

theorem issuePart_reach (s : State) (t i p : Nat) (ops : List Nat) (item : Nat) :
    issuePart (reach s t i p ops item) = issuePart s :=
  (congrArg issuePart (reach_eq s t i p ops item) :)

theorem walkAt_reach (s : State) (t i p : Nat) (ops : List Nat) (item t' i' p' : Nat) :
    walkAt (reach s t i p ops item) t' i' p' = walkAt s t' i' p' :=
  walkAt_of_runs (congrArg State.runs (reach_eq s t i p ops item) :) _ _ _

/-! The end of a position's work (R163, R179). -/

section
variable {s t v : State} {r : Run} {w w0 : Walk}

/-- A walk whose work is done ends, or waits for the write path alone, by whether all its writes are issued. -/
theorem workEnded_endUnit {tag i p : Nat} (hw : walkAt s tag i p = some w) (core : Nat) :
    Safety.WorkEnded s (endUnit s tag i p core) tag i p := by
  unfold endUnit
  split
  case isTrue hwaits =>
    have hset : walkAt (s.onWalk tag i p (fun w => { w with set := true })) tag i p = some { w with set := true } := by
      rw [walkAt_onWalk (by intros; rfl) (by intros; rfl), hw, Option.map_some]
    obtain ⟨x, hx⟩ := walkAt_eq_some_iff.mp hset
    exact ⟨issueFrame_iff.mpr (issuePart_onWalk ..), fun hissued => absurd (hwaits.symm.trans hissued) (by decide),
      fun _ => ⟨x, _, hx, rfl⟩⟩
  case isFalse =>
    have hend : walkAt (endWalk s tag i p core) tag i p = some { w with done := true, set := true } := by
      rw [walkAt_endWalk, hw, Option.map_some]
    obtain ⟨x, hx⟩ := walkAt_eq_some_iff.mp hend
    exact ⟨issueFrame_iff.mpr (issuePart_endWalk ..), fun _ => ⟨x, _, hx, rfl⟩, fun _ => ⟨x, _, hx, rfl⟩⟩

/-- Copy work that is done ends so on any state that differs only in what issuing writes may change. -/
theorem workEnded_endCopy (hpart : issuePart s = issuePart v) (hw : walkAt s r.tag w.mi w.pos = some w0) (flags : Nat) :
    Safety.WorkEnded v (endCopy s r w flags) r.tag w.mi w.pos := by
  obtain ⟨hframe, hend, hwait⟩ := workEnded_endUnit ((walkAt_logFlags ..).trans hw) w.core
  have hlog : issuePart (logFlags s r.tag w.mi w.pos flags) = issuePart v := (issuePart_logFlags ..).trans hpart
  exact ⟨issueFrame_iff.mpr ((issueFrame_iff.mp hframe).trans hlog), hend, hwait⟩

/-- Work whose bytes are written has ended once they are counted and their writes issued. -/
theorem workEnded_endCopy_issueWrites (hpart : issuePart t = issuePart v) (hruns : t.runs = v.runs)
    (hw : walkAt v r.tag w.mi w.pos = some w0) (flags : Nat) :
    Safety.WorkEnded v (endCopy (issueWrites t) r w flags) r.tag w.mi w.pos :=
  workEnded_endCopy ((issuePart_issueWrites t).trans hpart)
    ((walkAt_issueWrites ..).trans ((walkAt_of_runs hruns ..).trans hw)) flags

end

section
variable {s : State} {r : Run} {w : Walk} (f : State → Run → Walk → State)

theorem unitWork_of_unset (hset : w.set = false) :
    unitWork f s r w = f (reach s r.tag w.mi w.pos [0, 1, 2, 3] allItems) r w := by
  simp [unitWork, hset]

theorem unitWork_waits (hset : w.set = true) (hwaits : unissued s r.tag w.mi w.pos = true) : unitWork f s r w = s := by
  simp [unitWork, hset, hwaits]

theorem unitWork_ends (hset : w.set = true) (hissued : unissued s r.tag w.mi w.pos = false) :
    unitWork f s r w = endWalk s r.tag w.mi w.pos w.core := by
  simp [unitWork, hset, hissued]

end

/-! COPY, TRANSPOSE, PERMUTE and COMPRESS on a position (R165, R166, R168). -/

theorem exec_of_mem_copyCommands {t i p o : Nat} {c : Instr} (h : (o, c) ∈ Safety.copyCommands t i p) (s : State) :
    exec c s = .next (opCmd s t i p o (unitWork copyWork)) := by
  simp only [Safety.copyCommands, List.mem_cons, Prod.mk.injEq, List.not_mem_nil, or_false] at h
  obtain ⟨rfl, rfl⟩ | ⟨rfl, rfl⟩ | ⟨rfl, rfl⟩ | ⟨rfl, rfl⟩ := h <;> rfl

/-- Extents differ that a TRANSPOSE onto its own tensor needs equal: those of A and C, or those of the two dimensions (R168). -/
def unequalExtents (m : MRec) (a c : View) : Bool :=
  (List.range c.d.rank).any (fun k => a.ex k != c.ex k) || c.ex (bits m.imm0 0 3) != c.ex (bits m.imm0 3 3)

section
variable {s v : State} {r : Run} {w w0 : Walk} {a c : View} {xs : List (List Nat)} {swaps : Nat}
  (ha : getView s r w.mi w.pos 0 = a) (hc : getView s r w.mi w.pos 2 = c)
include ha hc

theorem copyWork_overlaps (hown : inPlace (r.mrec w.mi) a.d c.d r.prog.team.length = true)
    (hne : unequalExtents (r.mrec w.mi) a c = true) : copyWork s r w = failMacro s r.tag w.mi eOverlap := by
  subst ha hc
  exact if_pos (Bool.and_eq_true_iff.mpr ⟨hown, hne⟩)

variable (hmay : inPlace (r.mrec w.mi) a.d c.d r.prog.team.length = false ∨ unequalExtents (r.mrec w.mi) a c = false)
  (htargets : copyTargets s r w = .ok (xs, swaps))
include hmay htargets

theorem copyWork_of_idle (hidle : xs = [] ∨ emptySource a = true) : ∃ flags, copyWork s r w = endCopy s r w flags := by
  unfold unequalExtents at hmay
  simp only [copyWork, ha, hc, htargets, List.isEmpty_iff]
  rw [if_neg (by rw [Bool.not_eq_true, Bool.and_eq_false_iff]; exact hmay)]
  split
  case isTrue => exact ⟨_, rfl⟩
  case isFalse hne => exact ⟨_, if_pos (hidle.resolve_left hne)⟩

theorem copyWork_of_written (hne : xs ≠ []) (hsource : emptySource a = false) {cells : List OutCell} {fl n k fell bytes : Nat}
    (hcells : copyCells s (r.mrec w.mi) a c xs = .ok (cells, fl, n)) (hv : writeCells s c 0 cells = .ok (v, k, fell, bytes))
    (hw : walkAt v r.tag w.mi w.pos = some w0) : Safety.WorkEnded v (copyWork s r w) r.tag w.mi w.pos := by
  unfold unequalExtents at hmay
  simp only [copyWork, ha, hc, htargets, List.isEmpty_iff, hne, hsource, hcells, hv, Bool.false_eq_true, if_false]
  rw [if_neg (by rw [Bool.not_eq_true, Bool.and_eq_false_iff]; exact hmay)]
  exact workEnded_endCopy_issueWrites (by simp) (by simp) hw _

end

/-! The cells of a copy (R162, R166). -/

theorem length_of_mapM_ok {ε α β : Type} {f : α → Except ε β} {l : List α} {ys : List β} (h : l.mapM f = .ok ys) :
    ys.length = l.length := by
  induction l generalizing ys with
  | nil =>
    cases h
    rfl
  | cons a l ih =>
    rw [List.mapM_cons] at h
    cases ha : f a with
    | error e =>
      rw [ha] at h
      cases h
    | ok b =>
      cases hl : l.mapM f with
      | error e =>
        rw [ha, hl] at h
        cases h
      | ok bs =>
        rw [ha, hl] at h
        cases h
        simp [ih hl]

/-- Reading gives a code or none for each coordinate. -/
theorem length_of_codesAt_ok {s : State} {v : View} {xs : List (List Nat)} {cs : List (Option (Nat × Nat))}
    (h : codesAt s v xs = .ok cs) : cs.length = xs.length := by
  unfold codesAt at h
  split at h
  case isTrue => exact length_of_mapM_ok h
  case isFalse =>
    dsimp only at h
    cases hcrates : (((xs.filter v.inside).map v.tileAt).eraseDups).mapM
        (fun t => do let c ← crateAt s v t.1 t.2.1 t.2.2; Except.ok (t, c)) with
    | error e =>
      rw [hcrates] at h
      cases h
    | ok crates =>
      rw [hcrates] at h
      cases h
      exact List.length_map _

/-- In one format other than MX the codes are kept. -/
theorem convertCells_same {f : Nat} (hmx : fmtMx f = false) (sd : Nat) (keep : Bool) (l : List (List Nat × Option (Nat × Nat))) :
    convertCells f f sd keep l = (l.map (fun e => (e.1, (e.2.getD (0, 127)).1, (e.2.getD (0, 127)).2)), 0) := by
  simp [convertCells, hmx]

theorem copyCells_sameFormat {s : State} {m : MRec} {a c : View} {xs : List (List Nat)} {cells : List OutCell} {fl n : Nat}
    (h : copyCells s m a c xs = .ok (cells, fl, n)) (hfmt : a.d.format = c.d.format) (hmx : fmtMx c.d.format = false) :
    cells.map (fun e => e.1) = xs ∧ n = (xs.filter (fun x => (srcClamped m a x).2)).length
      ∧ ∃ cs, codesAt s a (xs.map (fun x => (srcClamped m a x).1)) = .ok cs
          ∧ cells.map (fun e => e.2.1) = cs.map (fun x => (x.getD (0, 127)).1) := by
  unfold copyCells at h
  simp only [List.map_map, Function.comp_def, hfmt, convertCells_same hmx] at h
  cases hcodes : codesAt s a (xs.map (fun x => (srcClamped m a x).1)) with
  | error e =>
    rw [hcodes] at h
    cases h
  | ok cs =>
    rw [hcodes] at h
    have hlen : cs.length = xs.length := (length_of_codesAt_ok hcodes).trans (List.length_map _)
    cases h
    refine ⟨?_, ?_, cs, rfl, ?_⟩
    · rw [List.map_map]
      exact List.map_fst_zip (Nat.le_of_eq hlen.symm)
    · rw [List.filter_map, List.length_map]
      rfl
    · rw [List.map_map]
      calc (xs.zip cs).map (fun e => (e.2.getD (0, 127)).1)
        _ = ((xs.zip cs).map Prod.snd).map (fun x => (x.getD (0, 127)).1) := by rw [List.map_map]; rfl
        _ = cs.map (fun x => (x.getD (0, 127)).1) := by rw [List.map_snd_zip (Nat.le_of_eq hlen)]

/-! GATHER and SCATTER_ADD on a position (R170, R172). -/

/-- The indexes of a position's share, with their places in operand D. -/
def shareIndexes (s : State) (r : Run) (w : Walk) : Except RdErr (List (Nat × Int)) := do
  let us ← walkUnits s r w.mi w.pos
  us.mapM (fun j => do let x ← indexAt s (getView s r w.mi w.pos 3) j; .ok (j, x))

section
variable {s v : State} {r : Run} {w w0 : Walk} {a c : View} {g : Nat} {js : List (Nat × Int)}
  (ha : getView s r w.mi w.pos 0 = a) (hc : getView s r w.mi w.pos 2 = c) (hg : (r.mrec w.mi).group = g)
  (hjs : shareIndexes s r w = .ok js)
include ha hjs

theorem gatherWork_of_idle (hidle : js = [] ∨ a.count = 0) : ∃ flags, gatherWork s r w = endCopy s r w flags := by
  unfold shareIndexes at hjs
  simp only [gatherWork, ha, hjs, List.isEmpty_iff]
  split
  case isTrue => exact ⟨_, rfl⟩
  case isFalse hne => exact ⟨_, if_pos (hidle.resolve_left hne)⟩

include hc hg

theorem gatherWork_of_written (hne : js ≠ []) (hsource : a.count ≠ 0) {es : List (List Nat × List Nat × Bool)}
    (hes : js.flatMap (fun j => gatherGroup g a c j.1 j.2) = es) {cs : List (Option (Nat × Nat))}
    (hcs : codesAt s a (es.map (fun e => e.2.1)) = .ok cs) {k fell bytes : Nat}
    (hv : writeCells s c 0 (gatherCells s g a c ((es.map (fun e => e.1)).zip cs)).1 = .ok (v, k, fell, bytes))
    (hw : walkAt v r.tag w.mi w.pos = some w0) : Safety.WorkEnded v (gatherWork s r w) r.tag w.mi w.pos := by
  unfold shareIndexes at hjs
  simp only [gatherWork, ha, hc, hg, hjs, List.isEmpty_iff, hne, hsource, if_false, hes, hcs, hv]
  exact workEnded_endCopy_issueWrites (by simp) (by simp) hw _

omit ha in
theorem scatterWork_of_idle (hidle : js = [] ∨ cdiv c.count g = 0) : ∃ flags, scatterWork s r w = endCopy s r w flags := by
  unfold shareIndexes at hjs
  simp only [scatterWork, hc, hg, hjs, List.isEmpty_iff]
  split
  case isTrue => exact ⟨_, rfl⟩
  case isFalse hne => exact ⟨_, if_pos (hidle.resolve_left hne)⟩

theorem scatterWork_of_added (hne : js ≠ []) (hdest : cdiv c.count g ≠ 0) {es : List (List Nat × List Nat)}
    (hes : js.flatMap (fun j => (scatterGroup g a c j.1 (clampIdx (cdiv c.count g) j.2).1).1) = es)
    {vs : List Val} (hvs : valsAt s a (es.map (fun e => e.2)) = .ok vs)
    (hv : addPairs s c ((es.map (fun e => e.1)).zip (vs.map (fun x => BitVec.ofNat 32 (narrow 0x10 false x).1))) = .ok v)
    (hw : walkAt v r.tag w.mi w.pos = some w0) : Safety.WorkEnded v (scatterWork s r w) r.tag w.mi w.pos := by
  unfold shareIndexes at hjs
  simp only [scatterWork, ha, hc, hg, hjs, List.isEmpty_iff, hne, hdest, if_false, List.flatMap_map, hes, hvs, List.map_map,
    Function.comp_def, hv]
  exact workEnded_endCopy_issueWrites (by simp) (by simp) hw _

end

/-- Settles O25: the copies by whether the walk has done its share and by what a share's work writes, their cells by the codes read
for them, and GATHER and SCATTER_ADD by what the share's indexes write. -/
theorem copies : Obligations.Copies := by
  unfold Obligations.Copies
  refine ⟨?copies, fun s m a c xs cells fl n hcells hfmt hmx => copyCells_sameFormat hcells hfmt hmx, ?indexed⟩
  case copies =>
    intro s t i p o c r w hc hw hop hdone
    obtain ⟨hlive, hwalk, -⟩ := walkOf_eq_some_iff.mp hw
    obtain ⟨rfl, rfl⟩ := Run.mi_pos_of_walk hwalk
    obtain rfl := tag_of_live hlive
    have hexec : exec c s = .next (unitWork copyWork s r w) :=
      (exec_of_mem_copyCommands hc s).trans (congrArg _ (opCmd_of_walk hw hop hdone _))
    rw [hexec]
    refine ⟨fun hset => ⟨fun hwaits => congrArg _ (unitWork_waits _ hset hwaits), fun hissued => ?ends⟩, fun hset => ?works⟩
    case ends =>
      obtain ⟨x, hx⟩ := walkAt_eq_some_iff.mp ((walkAt_endWalk s _ _ _ w.core).trans (congrArg _ (walkAt_of_live hlive hwalk)))
      exact ⟨_, congrArg _ (unitWork_ends _ hset hissued), ⟨x, _, hx, rfl⟩, issueFrame_iff.mpr (issuePart_endWalk ..)⟩
    case works =>
      intro s1 m a d own unequal
      rw [unitWork_of_unset copyWork hset]
      refine ⟨fun hown hne => congrArg _ (copyWork_overlaps rfl rfl hown hne), fun xs swaps hmay htargets => ⟨fun hidle => ?_, ?_⟩⟩
      · obtain ⟨flags, hflags⟩ := copyWork_of_idle rfl rfl hmay htargets hidle
        refine ⟨_, rfl, ?_⟩
        rw [hflags]
        exact workEnded_endCopy (issuePart_reach ..) ((walkAt_reach ..).trans (walkAt_of_live hlive hwalk)) flags
      · intro cells fl n v k f b hne hsource hcells hv hrun
        exact ⟨_, rfl, copyWork_of_written rfl rfl hmay htargets hne hsource hcells hv (walkAt_of_live hrun hwalk)⟩
  case indexed =>
    intro s t i p r w us js hw hdone hset s1 hus hindexes g a c
    obtain ⟨hlive, hwalk, -⟩ := walkOf_eq_some_iff.mp hw
    obtain ⟨rfl, rfl⟩ := Run.mi_pos_of_walk hwalk
    obtain rfl := tag_of_live hlive
    have hidleEnds (flags : Nat) : Safety.WorkEnded s (endCopy s1 r w flags) r.tag w.mi w.pos :=
      workEnded_endCopy (issuePart_reach ..) ((walkAt_reach ..).trans (walkAt_of_live hlive hwalk)) flags
    have hjs : shareIndexes s1 r w = .ok js := by
      unfold shareIndexes
      rw [hus]
      exact hindexes
    refine ⟨fun hop => ?gather, fun hop => ?scatter⟩
    case gather =>
      have hexec : exec (.gather r.tag w.mi w.pos) s = .next (gatherWork s1 r w) :=
        congrArg Host.Outcome.next ((opCmd_of_walk hw hop hdone _).trans (unitWork_of_unset gatherWork hset))
      refine ⟨fun hidle => ?_, fun cs v k f b hne hsource hcs hv hrun =>
        ⟨_, hexec, gatherWork_of_written rfl rfl rfl hjs hne hsource rfl hcs hv (walkAt_of_live hrun hwalk)⟩⟩
      obtain ⟨flags, hflags⟩ := gatherWork_of_idle rfl hjs hidle
      exact ⟨_, hexec.trans (congrArg _ hflags), hidleEnds flags⟩
    case scatter =>
      have hexec : exec (.scatterAdd r.tag w.mi w.pos) s = .next (scatterWork s1 r w) :=
        congrArg Host.Outcome.next ((opCmd_of_walk hw hop hdone _).trans (unitWork_of_unset scatterWork hset))
      refine ⟨fun hidle => ?_, fun vs v hne hdest hvs hv hrun =>
        ⟨_, hexec, scatterWork_of_added rfl rfl rfl hjs hne hdest rfl hvs hv (walkAt_of_live hrun hwalk)⟩⟩
      obtain ⟨flags, hflags⟩ := scatterWork_of_idle rfl rfl hjs hidle
      exact ⟨_, hexec.trans (congrArg _ hflags), hidleEnds flags⟩

end Sys2Proof.Machine
end

section
/-!
SUPPORT. Transfers of links as their destination takes them (R185, R233, R280, R284, R305, R310): what a member of a view does
with a READ, a WRITE, an ADD, an acknowledgement and data, and what a device outside a view does.
-/

namespace Sys2Proof.Machine

@[simp] theorem sendTransfer_mem (s : State) (cls : Nat) (h : Hdr) (d : List Byte) : (sendTransfer s cls h d).1.mem = s.mem :=
  (congrArg State.mem (issuePart_sendTransfer s cls h d) :)

@[simp] theorem sendAck_mem (s : State) (h : Hdr) (cls status : Nat) : (sendAck s h cls status).mem = s.mem :=
  sendTransfer_mem _ _ _ _

/-! Who is served (R233, R259, R280). -/

theorem served_here {s : State} {h : Hdr} (hdest : h.dest = s.group.rank) (hepoch : s.group.epoch ≤ h.epoch) (f : State → State) :
    served s h true f = f s := by
  simp [served, arrive, hdest, Nat.not_lt.mpr hepoch]

section
variable {s : State} {h : Hdr} (hdest : h.dest = s.group.rank) (hepoch : s.group.epoch ≤ h.epoch)
include hdest hepoch

/-- A READ of an admitted length is refused outside a view, and taken by a member. -/
theorem exec_readTransfer (hlen : h.length = 0) (hlo : 32 ≤ h.reqLength) (hhi : h.reqLength ≤ 4096) :
    exec (.readTransfer h) s = .next (if inView s then takeLink s { h with op := 1 } [] else replyData s h 1 []) := by
  have hok : (decide (h.length = 0) && decide (32 ≤ h.reqLength) && decide (h.reqLength ≤ 4096)) = true := by
    simp [hlen, hlo, hhi]
  exact congrArg Host.Outcome.next ((congrArg (fun ok => servedIn s h ok _ _) hok).trans (served_here hdest hepoch _))

/-- A WRITE of an admitted length is refused outside a view, and taken by a member. -/
theorem exec_writeTransfer {d : List Byte} (hlen : h.length = d.length) (hlo : 32 ≤ d.length) (hhi : d.length ≤ 4096) :
    exec (.writeTransfer h d) s = .next (if inView s then takeLink s { h with op := 3 } d else sendAck s h 3 1) := by
  have hok : (decide (h.length = d.length) && decide (32 ≤ d.length) && decide (d.length ≤ 4096)) = true := by
    simp [hlen, hlo, hhi]
  exact congrArg Host.Outcome.next ((congrArg (fun ok => servedIn s h ok _ _) hok).trans (served_here hdest hepoch _))

/-- An ADD of an admitted length is refused outside a view, and taken by a member. -/
theorem exec_add {d : List Byte} (hlen : h.length = d.length) (hlo : 4 ≤ d.length) (hhi : d.length ≤ 4096)
    (hmod : d.length % 4 = 0) :
    exec (.add h d) s = .next (if inView s then takeLink s { h with op := 4 } d else refuseAdd s h) := by
  have hok : (decide (h.length = d.length) && decide (4 ≤ d.length) && decide (d.length ≤ 4096) && d.length % 4 == 0) = true := by
    simp [hlen, hlo, hhi, hmod]
  exact congrArg Host.Outcome.next ((congrArg (fun ok => servedIn s h ok _ _) hok).trans (served_here hdest hepoch _))

/-- An acknowledgement of a write of this device returns the write (R188, R280). -/
theorem exec_ack_of_write {c : Nat} {f : Xfer} (hlen : h.length = 0) (hkey : h.key = 0)
    (hf : writeOwner s (h.tag % 2 ^ 31) = some (c, f)) :
    exec (.ack h) s = .next (returnWrite s c f (h.status == 0) false) := by
  have hok : (h.length == 0) = true := by simp [hlen]
  refine congrArg Host.Outcome.next ((congrArg (fun ok => served s h ok _) hok).trans ((served_here hdest hepoch _).trans ?_))
  simp only [hkey, ne_eq, not_true_eq_false, if_false, hf]

/-- Data of a read of a stream return the read (R188, R280). -/
theorem exec_readData_of_read {d : List Byte} {f : Xfer} (hlen : h.length = d.length) (hlo : 32 ≤ d.length) (hhi : d.length ≤ 4096)
    (hstatus : h.status = 0) (hslice : gotSlice s h d = none) (hchunk : gotChunk s h d = none) (hrot : gotRot s h d = none)
    (hf : s.xfers.find? (fun f => f.id == h.tag && f.kind == 2 && !f.write) = some f) :
    exec (.readData h d) s = .next (returnRead s f (some d) false) := by
  have hok : (h.status != 0 || (decide (h.length = d.length) && decide (32 ≤ d.length) && decide (d.length ≤ 4096))) = true := by
    simp [hlen, hlo, hhi]
  refine congrArg Host.Outcome.next ((congrArg (fun ok => served s h ok _) hok).trans ((served_here hdest hepoch _).trans ?_))
  simp only [hslice, hchunk, hrot, hf, hstatus, if_true]

end

/-! What DDR makes wait (R305). -/

/-- An access of n bytes by a transfer is for no burst that DDR makes wait: it is for a shelf, for a page that does not serve it, or
for bursts that are free. -/
def LinkFree (s : State) (h : Hdr) (n : Nat) (write : Bool) : Prop :=
  h.space = 1 ∨ allLocal s h.address n write = false ∨ rangeBusy s h.address n write = false

section
variable {s : State} {h : Hdr} {n : Nat} {write : Bool} (hn : ddrLen h = n) (hwrite : (h.op != 1) = write)
include hn hwrite

/-- A transfer for a burst that DDR makes wait is kept behind what came before it. -/
theorem takeLink_waits (d : List Byte) (hspace : h.space ≠ 1) (hlocal : allLocal s h.address n write = true)
    (hbusy : rangeBusy s h.address n write = true) :
    takeLink s h d = { s with linkWait := s.linkWait ++ [(h, d)] } := by
  subst hn hwrite
  simp [takeLink, serveLink, hspace, hlocal, hbusy]

theorem serveLink_of_free (hfree : LinkFree s h n write) (d : List Byte) : serveLink s h d =
    if h.op = 1 then applyRead s h else if h.op = 3 then some (putWrite s h d) else some (applyAdd s h d) := by
  subst hn hwrite
  have hserved : ¬ (h.space ≠ 1 ∧ allLocal s h.address (ddrLen h) (h.op != 1) ∧ rangeBusy s h.address (ddrLen h) (h.op != 1)) := by
    rintro ⟨hspace, hlocal, hbusy⟩
    rcases hfree with h | h | h
    · exact hspace h
    · exact Bool.false_ne_true (h.symm.trans hlocal)
    · exact Bool.false_ne_true (h.symm.trans hbusy)
  unfold serveLink
  rw [if_neg hserved]
  split <;> simp_all

end

theorem ddrLen_read {h : Hdr} (htag : h.tag < 2 ^ 31) : ddrLen { h with op := 1 } = h.reqLength := if_pos htag

theorem ddrLen_write {h : Hdr} {op n : Nat} (hop : op ≠ 1) (hlen : h.length = n) : ddrLen { h with op := op } = n :=
  (if_pos hop).trans hlen

/-! A READ (R185, R280). -/

/-- The answer to a READ: the bytes, or a refusal. -/
def answerRead (h : Hdr) (r : State × Option (List Byte)) : State :=
  match r.2 with
  | some b => replyData r.1 h 0 b
  | none => replyData r.1 h 1 []

theorem takeLink_read_of_free {s : State} {h : Hdr} (htag : h.tag < 2 ^ 31) (hfree : LinkFree s h h.reqLength false) :
    takeLink s { h with op := 1 } [] = answerRead h (remoteRead s h h.reqLength) := by
  have hread : serveLink s { h with op := 1 } [] = some (answerRead h (remoteRead s h h.reqLength)) :=
    (serveLink_of_free (ddrLen_read htag) rfl hfree []).trans (if_pos htag)
  unfold takeLink
  rw [hread]

theorem remoteRead_shelf {s : State} {h : Hdr} {n c o : Nat} (hspace : h.space = 1) (hat : shelfAt h.address n = some (c, o)) :
    remoteRead s h n = (s, shelfRead s c o n) := by
  simp [remoteRead, hspace, hat]

theorem remoteRead_outside {s : State} {h : Hdr} {n : Nat} (hspace : h.space = 1) (hat : shelfAt h.address n = none) :
    remoteRead s h n = (s, none) := by
  simp [remoteRead, hspace, hat]

theorem remoteRead_notLocal {s : State} {h : Hdr} {n : Nat} (hspace : h.space ≠ 1) (hlocal : allLocal s h.address n false = false) :
    remoteRead s h n = (s, none) := by
  simp [remoteRead, hspace, hlocal]

/-- A range within one unit touches that unit alone. -/
theorem unitsOf_of_oneUnit {size a n : Nat} (hn : 1 ≤ n) (hsize : 0 < size)
    (hunit : a / size = (a + n - 1) / size) : unitsOf size a n = [a / size] := by
  have hin : a % size + (n - 1) < size := by
    have hlt : a + n - 1 < size * (a / size) + size := by
      rw [hunit]
      exact Nat.lt_mul_div_succ _ hsize
    have := Nat.div_add_mod a size
    omega
  have hone : cdiv (a % size + n) size = 1 := by
    unfold cdiv
    rw [Nat.div_eq_iff hsize]
    omega
  rw [unitsOf, hone]
  rfl

/-- A range within one page is one piece. -/
theorem pagePieces_of_onePage {a n : Nat} (hn : 1 ≤ n) (hpage : pageOf a = pageOf (a + n - 1)) : pagePieces a n = [(a, n, 0)] := by
  have hunits : unitsOf 2097152 a n = [a / 2097152] := unitsOf_of_oneUnit hn (by decide) hpage
  unfold pageOf at hpage
  have hlo : max a (2097152 * (a / 2097152)) = a := by omega
  have hhi : min (a + n) (2097152 * (a / 2097152) + 2097152) - a = n := by omega
  unfold pagePieces
  rw [hunits, List.map_singleton, hlo]
  dsimp only
  rw [hhi, Nat.sub_self]
theorem remoteRead_page {s : State} {h : Hdr} {n : Nat} (hspace : h.space ≠ 1) (hlocal : allLocal s h.address n false = true)
    (hn : 1 ≤ n) (hpage : pageOf h.address = pageOf (h.address + n - 1)) :
    remoteRead s h n = (countRead s (localAt s h.address) n, ddrRead s (localAt s h.address) n) := by
  unfold remoteRead
  rw [if_neg hspace, if_neg (by simp [hlocal]), pagePieces_of_onePage hn hpage]
  simp only [List.foldl_cons, List.foldl_nil]
  cases ddrRead s (localAt s h.address) n <;> rfl

/-! A WRITE (R185, R310). -/

theorem takeLink_write_of_free {s : State} {h : Hdr} {d : List Byte} (hlen : h.length = d.length)
    (hfree : LinkFree s h d.length true) : takeLink s { h with op := 3 } d = putWrite s { h with op := 3 } d := by
  have hput : serveLink s { h with op := 3 } d = some (putWrite s { h with op := 3 } d) :=
    serveLink_of_free (ddrLen_write (by decide) hlen) rfl hfree d
  unfold takeLink
  rw [hput]

theorem putWrite_shelf {s : State} {h : Hdr} {d : List Byte} {c o : Nat} (hspace : h.space = 1)
    (hat : shelfAt h.address d.length = some (c, o)) :
    putWrite s h d = sendAck (shelfWrite s c o d).1 h 3 (b2n (!(shelfWrite s c o d).2)) := by
  simp [putWrite, hspace, hat]

theorem putWrite_outside {s : State} {h : Hdr} {d : List Byte} (hspace : h.space = 1) (hat : shelfAt h.address d.length = none) :
    putWrite s h d = sendAck s h 3 1 := by
  simp [putWrite, hspace, hat]

theorem putWrite_notLocal {s : State} {h : Hdr} {d : List Byte} (hspace : h.space ≠ 1)
    (hlocal : allLocal s h.address d.length true = false) : putWrite s h d = sendAck s h 3 1 := by
  simp [putWrite, hspace, hlocal]

/-! An ADD (R284). -/

theorem takeLink_add_of_free {s : State} {h : Hdr} {d : List Byte} (hlen : h.length = d.length)
    (hfree : LinkFree s h d.length true) : takeLink s { h with op := 4 } d = applyAdd s h d := by
  have hadd : serveLink s { h with op := 4 } d = some (applyAdd s h d) :=
    serveLink_of_free (ddrLen_write (by decide) hlen) rfl hfree d
  unfold takeLink
  rw [hadd]

theorem applyAdd_unaligned {s : State} {h : Hdr} (d : List Byte) (hunaligned : h.address % 4 ≠ 0) :
    applyAdd s h d = refuseAdd s h := if_pos hunaligned

theorem applyAdd_notLocal {s : State} {h : Hdr} {d : List Byte} (hspace : h.space ≠ 1)
    (hlocal : allLocal s h.address d.length true = false) : applyAdd s h d = refuseAdd s h := by
  simp [applyAdd, hspace, hlocal]

/-- An ADD into sound words of a shelf adds there, and changes no other memory. -/
theorem applyAdd_shelf_mem {s : State} {h : Hdr} {d : List Byte} {c o : Nat} (haligned : h.address % 4 = 0) (hspace : h.space = 1)
    (hat : shelfAt h.address d.length = some (c, o)) (hok : (shelfAdd s c o (bytesF32 (d.length / 4) d)).2 = true) :
    (applyAdd s h d).mem =
      { s.mem with shelf := memAdd s.mem.shelf (c * shelfBytes + o) (bytesF32 (d.length / 4) d) } := by
  have hadd : (shelfAdd s c o (bytesF32 (d.length / 4) d)).1.mem =
      { s.mem with shelf := memAdd s.mem.shelf (c * shelfBytes + o) (bytesF32 (d.length / 4) d) } := by
    unfold shelfAdd at hok ⊢
    split
    · simp_all
    · rfl
  have hserved : applyAdd s h d = sendAck ((shelfAdd s c o (bytesF32 (d.length / 4) d)).1.bump Ctr.addElements 0
      (bytesF32 (d.length / 4) d).length) h 1 0 := by
    unfold applyAdd
    simp only [haligned, ne_eq, not_true_eq_false, if_false, hspace, if_true, hat, hok]
  rw [hserved, sendAck_mem, bump_mem, hadd]

/-- Settles O44: outside a view everything is refused; a member serves a transfer by its space and pages, or lets it wait for DDR;
what comes back returns the write or the read that it answers. -/
theorem remoteAccesses : Obligations.RemoteAccesses := by
  unfold Obligations.RemoteAccesses
  intro s h d hdest hepoch
  refine ⟨fun hout => ⟨?_, ?_, ?_⟩, fun hin hlen hlo hhi htag => ?read, fun hin hlen hlo hhi => ?write,
    fun hin hlen hlo hhi hmod => ?add, fun c f => exec_ack_of_write hdest hepoch, fun f => exec_readData_of_read hdest hepoch⟩
  · intro hlen hlo hhi
    rw [exec_readTransfer hdest hepoch hlen hlo hhi, hout]
    rfl
  · intro hlen hlo hhi
    rw [exec_writeTransfer hdest hepoch hlen hlo hhi, hout]
    rfl
  · intro hlen hlo hhi hmod
    rw [exec_add hdest hepoch hlen hlo hhi hmod, hout]
    rfl
  case read =>
    rw [exec_readTransfer hdest hepoch hlen hlo hhi, if_pos hin]
    refine ⟨fun c o b hspace hat hb => ?_, fun hspace hat => ?_, fun hspace hlocal => ?_, fun hspace hlocal hbusy => ?_,
      fun hspace hpage hlocal hbusy b hb => ?_⟩
    · rw [takeLink_read_of_free htag (.inl hspace), remoteRead_shelf hspace hat, hb]
      rfl
    · rw [takeLink_read_of_free htag (.inl hspace), remoteRead_outside hspace hat]
      rfl
    · rw [takeLink_read_of_free htag (.inr (.inl hlocal)), remoteRead_notLocal hspace hlocal]
      rfl
    · exact congrArg _ (takeLink_waits (ddrLen_read htag) rfl [] hspace hlocal hbusy)
    · rw [takeLink_read_of_free htag (.inr (.inr hbusy)), remoteRead_page hspace hlocal (by omega) hpage, hb]
      rfl
  case write =>
    rw [exec_writeTransfer hdest hepoch hlen hlo hhi, if_pos hin]
    refine ⟨fun hspace hlocal hbusy => ?_, fun c o hspace hat => ?_, fun hrefused => ?_⟩
    · exact congrArg _ (takeLink_waits (ddrLen_write (by decide) hlen) rfl d hspace hlocal hbusy)
    · rw [takeLink_write_of_free hlen (.inl hspace), putWrite_shelf (h := { h with op := 3 }) hspace hat]
      exact ⟨_, rfl, sendAck_mem _ _ _ _, rfl⟩
    · obtain ⟨hspace, hat⟩ | ⟨hspace, hlocal⟩ := hrefused
      · rw [takeLink_write_of_free hlen (.inl hspace), putWrite_outside (h := { h with op := 3 }) hspace hat]
        rfl
      · rw [takeLink_write_of_free hlen (.inr (.inl hlocal)), putWrite_notLocal (h := { h with op := 3 }) hspace hlocal]
        rfl
  case add =>
    rw [exec_add hdest hepoch hlen hlo hhi hmod, if_pos hin]
    refine ⟨fun hunaligned hfree => ?_, fun hspace hlocal => ?_, fun hspace hlocal hbusy => ?_, fun c o haligned hspace hat hok => ?_⟩
    · rw [takeLink_add_of_free hlen (hfree.imp_right .inr), applyAdd_unaligned d hunaligned]
      rfl
    · rw [takeLink_add_of_free hlen (.inr (.inl hlocal)), applyAdd_notLocal hspace hlocal]
      rfl
    · exact congrArg _ (takeLink_waits (ddrLen_write (by decide) hlen) rfl d hspace hlocal hbusy)
    · rw [takeLink_add_of_free hlen (.inl hspace)]
      have hmem := applyAdd_shelf_mem haligned hspace hat hok
      exact ⟨_, rfl, congrArg Memory.shelf hmem, by rw [hmem]⟩

end Sys2Proof.Machine
end

section
/-!
SUPPORT. The end, the stop and the going on of runs (R29, R188 to R192): what a run's end leaves, what stopping one takes away, what
issuing reads leaves, and what CANCEL and RESUME_STREAM do with the run they name.
-/

namespace Sys2Proof.Machine

/-! The end of a run (R29, R144, R288). -/

/-- The state without what the end of a run may change beside its record: orders and queue pairs, multicasts and rotations, slots,
cores, and what is counted, logged or sent. -/
def endPart (s : State) : State :=
  { s with orders := [], qps := [], txn := {}, streams := [], rots := [], mcs := [], mcOver := [], layers := [], optCount := []
           cores := [], counters := [], coffer := {}, health := {}, links := [], turns := [], nextMgmt := 0 }

theorem endPart_of_answerPart {s t : State} (h : answerPart t = answerPart s) : endPart t = endPart s :=
  show endPart (answerPart t) = endPart (answerPart s) from congrArg endPart h

@[simp] theorem endPart_bump (s : State) (k : Nat × Nat) (u n : Nat) : endPart (s.bump k u n) = endPart s :=
  endPart_of_answerPart (answerPart_bump s k u n)

@[simp] theorem endPart_complete (s : State) (o : Order) (st : BitVec 8) (d : List Byte) : endPart (complete s o st d) = endPart s :=
  endPart_of_answerPart (answerPart_complete s o st d)

theorem endPart_sendOn {s t : State} {cls : Nat} {h : Hdr} {d : List Byte} (e : sendOn s cls h d = some t) :
    endPart t = endPart s := by
  unfold sendOn at e
  split at e
  · cases e
  · split at e
    · cases e
    · cases e
      rfl

@[simp] theorem endPart_sendTransfer (s : State) (cls : Nat) (h : Hdr) (d : List Byte) :
    endPart (sendTransfer s cls h d).1 = endPart s := by
  unfold sendTransfer
  split
  · exact endPart_sendOn ‹_›
  · exact endPart_bump _ _ _ _

@[simp] theorem endPart_sendMgmt (s : State) (dest code : Nat) (body : List Byte) :
    endPart (sendMgmt s dest code body) = endPart s := by
  unfold sendMgmt
  split
  · rfl
  · exact foldl_leaves (fun x i => endPart_sendTransfer _ _ _ _) _ _

@[simp] theorem endPart_leaveChildren (s : State) (m : Mc) : endPart (leaveChildren s m) = endPart s := by
  unfold leaveChildren
  split
  · rfl
  · exact foldl_leaves (fun x c => by simp) _ _

@[simp] theorem endPart_endMcasts (s : State) (tag : Nat) : endPart (endMcasts s tag) = endPart s :=
  foldl_leaves endPart_leaveChildren _ _

/-- The adaptation of a slot sets the slot, at most with an entry in the coffer (R144). -/
@[simp] theorem endPart_adaptSlot (s : State) (slot audited missed : Nat) :
    endPart (adaptSlot s slot audited missed) = endPart s := by
  have hset (ls : List (Nat × LayerState)) : endPart { s with layers := ls } = endPart s := rfl
  have hmoved (u : State) (kind part : Nat) (d : List Byte) : endPart (cofferAdd u kind part d) = endPart u := rfl
  unfold adaptSlot
  dsimp only
  simp only [apply_ite endPart, hset, hmoved, ite_self]

@[simp] theorem endPart_adaptRun (s : State) (r : Run) : endPart (adaptRun s r) = endPart s :=
  foldl_leaves (fun x k => endPart_adaptSlot x k _ _) _ _

@[simp] theorem endPart_releaseCores (s : State) (r : Run) : endPart (releaseCores s r) = endPart s :=
  foldl_leaves (by intros; rfl) _ _

@[simp] theorem endPart_completeRun (s : State) (r : Run) (st : BitVec 8) : endPart (completeRun s r st) = endPart s := by
  unfold completeRun
  split
  · exact endPart_complete _ _ _ _
  · rfl

@[simp] theorem endPart_completeWaiter (s : State) (m n : Nat) : endPart (completeWaiter s m n) = endPart s := by
  unfold completeWaiter
  split
  · split
    · exact endPart_complete _ _ _ _
    · rfl
  · rfl

/-- The record of a run that has ended with a status (R29). -/
def endedRun (s : State) (r : Run) (st : BitVec 8) : Run :=
  { r with state := 3, status := st, failMi := if st = eOk ∨ st = eCancelled then 0xFFFF else r.failMi, endBeat := s.beat.number
           stopping := none, walks := [], cancelBy := [] }

/-- The end of a run makes its record that of an ended one, and else changes only what the record's end is about. -/
theorem endPart_endRun {s : State} {t : Nat} {r : Run} (hlive : s.live t = some r) (st : BitVec 8) :
    endPart (endRun s t st) = endPart (s.onRun t (fun _ => endedRun s r st)) := by
  unfold endRun
  simp only [hlive]
  rw [foldl_leaves (fun x o => endPart_completeWaiter x _ _), endPart_completeRun, endPart_releaseCores, endPart_adaptRun]
  split
  · exact (foldl_leaves (g := endPart) (by intros; rfl) _ _).trans ((endPart_endMcasts _ _).trans rfl)
  · exact (endPart_endMcasts _ _).trans rfl

theorem runs_mem_of_endPart {s u : State} (h : endPart u = endPart s) : u.runs = s.runs ∧ u.mem = s.mem :=
  ⟨(congrArg State.runs h :), (congrArg State.mem h :)⟩

/-- A change that ends every run of a tag leaves none live under it. -/
theorem live_onRun_ended {f : Run → Run} (hf : ∀ r, (f r).state = 3) (s : State) (t : Nat) : (s.onRun t f).live t = none := by
  refine List.find?_eq_none.mpr fun x hx => ?_
  obtain ⟨y, -, rfl⟩ := List.mem_map.mp hx
  dsimp only
  split
  case isTrue => simp [hf]
  case isFalse h => exact h

/-! A run stopped (R192). -/

@[simp] theorem issuePart_discardReads (s : State) (t : Nat) : issuePart (discardReads s t) = issuePart s := by
  refine Eq.trans rfl (foldl_leaves (g := issuePart) (fun x y => ?_) s.xfers s)
  split <;> simp

@[simp] theorem issuePart_dropStreams (s : State) (t : Nat) : issuePart (dropStreams s t) = issuePart s := by
  refine Eq.trans rfl (foldl_leaves (g := issuePart) (fun x y => ?_) s.streams s)
  split <;> simp

@[simp] theorem issuePart_abandonTiles (s : State) (r : Run) : issuePart (abandonTiles s r) = issuePart s :=
  foldl_leaves (fun _ _ => foldl_leaves (by intros; rfl) _ _) _ _

@[simp] theorem issuePart_releaseCores (s : State) (r : Run) : issuePart (releaseCores s r) = issuePart s :=
  foldl_leaves (by intros; rfl) _ _

/-- Stopping a run changes nothing but what issuing its transfers could. -/
@[simp] theorem issuePart_stopRun (s : State) (t : Nat) (st : BitVec 8) (mi : Nat) : issuePart (stopRun s t st mi) = issuePart s := by
  unfold stopRun
  split
  · rfl
  · split
    · rfl
    · simp

/-- The streams and the reads in flight of a state. -/
def readsPart (s : State) : List Stream × List Xfer := (s.streams, s.xfers)

@[simp] theorem readsPart_bump (s : State) (k : Nat × Nat) (u n : Nat) : readsPart (s.bump k u n) = readsPart s := by
  unfold State.bump
  split <;> rfl

@[simp] theorem readsPart_abandonTiles (s : State) (r : Run) : readsPart (abandonTiles s r) = readsPart s :=
  foldl_leaves (fun _ _ => foldl_leaves (by intros; rfl) _ _) _ _

@[simp] theorem readsPart_releaseCores (s : State) (r : Run) : readsPart (releaseCores s r) = readsPart s :=
  foldl_leaves (by intros; rfl) _ _

theorem readsPart_discardReads (s : State) (t : Nat) : readsPart (discardReads s t) =
    (s.streams, mapIf (fun x => x.tag == t) (fun x => { x with discard := true }) s.xfers) := by
  have hcounted := foldl_leaves (g := readsPart) (f := fun (u : State) (x : Xfer) =>
    if x.tag == t && !x.discard then u.bump Ctr.cancelWastedBytes x.core x.len else u)
    (fun u x => by split <;> simp) s.xfers s
  obtain ⟨hstreams, hxfers⟩ := Prod.mk.inj hcounted
  exact Prod.ext hstreams (congrArg (mapIf (fun x : Xfer => x.tag == t) (fun x => { x with discard := true })) hxfers)

theorem readsPart_dropStreams (s : State) (t : Nat) : readsPart (dropStreams s t) =
    (s.streams.filter (fun x => x.tag != t), s.xfers) := by
  have hcounted := foldl_leaves (g := readsPart) (f := fun (u : State) (x : Stream) =>
    if x.tag == t && !x.write then u.bump Ctr.cancelWastedBytes x.core x.wasted else u)
    (fun u x => by split <;> simp) s.streams s
  obtain ⟨hstreams, hxfers⟩ := Prod.mk.inj hcounted
  exact Prod.ext (congrArg (List.filter (fun x : Stream => x.tag != t)) hstreams) hxfers

theorem discard_of_mem_mapIf {l : List Xfer} {t : Nat} {y : Xfer}
    (hy : y ∈ mapIf (fun x => x.tag == t) (fun x => { x with discard := true }) l) (htag : y.tag = t) : y.discard = true := by
  obtain ⟨x, -, rfl⟩ := List.mem_map.mp hy
  by_cases h : x.tag = t <;> simp_all

/-- Of a run that is stopped no stream is left, and its reads in flight are to be discarded. -/
theorem readsPart_stopRun {s : State} {t : Nat} {r : Run} (hlive : s.live t = some r) (hr : r.stopping = none) (st : BitVec 8)
    (mi : Nat) : readsPart (stopRun s t st mi) =
      (s.streams.filter (fun x => x.tag != t), mapIf (fun x => x.tag == t) (fun x => { x with discard := true }) s.xfers) := by
  obtain ⟨hstreams, hxfers⟩ := Prod.mk.inj (readsPart_discardReads s t)
  have hstopped : readsPart (stopRun s t st mi) =
      readsPart (releaseCores (abandonTiles (dropStreams (discardReads s t) t) r) r) := by
    unfold stopRun
    rw [hlive]
    dsimp only
    rw [if_neg (by simp [hr])]
    rfl
  rw [hstopped, readsPart_releaseCores, readsPart_abandonTiles, readsPart_dropStreams, hstreams, hxfers]

theorem stopRun_of_stopping {s : State} {t : Nat} {r : Run} (hlive : s.live t = some r) (hr : r.stopping.isSome = true)
    (st : BitVec 8) (mi : Nat) : stopRun s t st mi = s := by
  simp [stopRun, hlive, hr]

/-! Orders completed and begun (R352, R357). -/

theorem order_of_admitted {s : State} {m n code : Nat} {o : Order} (h : Safety.Admitted s m n code o) :
    s.order m n = some o := by
  obtain ⟨hready, -⟩ := h
  unfold orderReady at hready
  split at hready
  case h_1 x hx =>
    split at hready
    · exact hx.trans hready
    · cases hready
  case h_2 => cases hready

theorem mailbox_number_of_order {s : State} {m n : Nat} {o : Order} (h : s.order m n = some o) : o.mailbox = m ∧ o.number = n := by
  simpa using List.find?_some h

theorem order_beginOrder {s : State} {m n : Nat} {o : Order} (h : s.order m n = some o) :
    (beginOrder s o).order m n = some { o with begun := true } := by
  obtain ⟨rfl, rfl⟩ := mailbox_number_of_order h
  exact (find?_mapIf (p := fun x : Order => x.mailbox == o.mailbox && x.number == o.number)
    (f := fun x => { x with begun := true }) (fun _ h => h) s.orders).trans (congrArg _ h)

@[simp] theorem issuePart_countEnd (s : State) (code : Nat) (st : BitVec 8) : issuePart (countEnd s code st) = issuePart s := by
  unfold countEnd
  simp only [apply_ite issuePart, issuePart_bump, ite_self]

/-- An order completed is gone, where its completion is not held (R357, R401). -/
theorem order_complete {s : State} {o : Order} (hheld : held s o = false) (st : BitVec 8) (d : List Byte) :
    (complete s o st d).order o.mailbox o.number = none := by
  have horders : (complete s o st d).orders = s.orders.filter (fun x => !(x.mailbox == o.mailbox && x.number == o.number)) := by
    unfold complete
    rw [if_neg (by simp [hheld])]
    exact (congrArg State.orders ((issuePart_deliver _ _ _).trans (issuePart_countEnd _ _ _)) :)
  unfold State.order
  rw [horders]
  refine List.find?_eq_none.mpr fun x hx => ?_
  simpa only [Bool.not_eq_true', Bool.not_eq_true] using (List.mem_filter.mp hx).2

theorem live_complete (s : State) (o : Order) (st : BitVec 8) (d : List Byte) (t : Nat) : (complete s o st d).live t = s.live t :=
  live_of_runs (congrArg State.runs (answerPart_complete s o st d) :) t

/-- Completing an order changes the orders, the queue pairs and the counters alone. -/
theorem complete_eq (s : State) (o : Order) (st : BitVec 8) (d : List Byte) : complete s o st d =
    { s with orders := (complete s o st d).orders, qps := (complete s o st d).qps, counters := (complete s o st d).counters } := by
  have h := eq_of_answerPart (answerPart_complete s o st d)
  rwa [complete_txn] at h

/-! CANCEL (R192). -/

theorem exec_cancel_of_admitted {s : State} {m n : Nat} {o : Order} (h : Safety.Admitted s m n 0x05 o) :
    exec (.cancel m n) s = .next (cancelOwn s o) :=
  congrArg Host.Outcome.next (orderCmd_of_admitted h cancelOwn)

section
variable {s : State} {o : Order} {r : Run}

theorem cancelOwn_unknown (hlive : s.live (field o.bytes 0x28 8) = none) : cancelOwn s o = complete s o ePlan [] := by
  simp [cancelOwn, hlive]

variable (hlive : s.live (field o.bytes 0x28 8) = some r)
include hlive

theorem cancelOwn_notStarted (hstate : r.state = 0) :
    cancelOwn s o = complete (endRun s (field o.bytes 0x28 8) eCancelled) o eOk [] := by
  simp [cancelOwn, hlive, hstate]

/-- A run removed is live no more, and no byte of memory has changed. -/
theorem live_mem_endRun (st : BitVec 8) : (endRun s (field o.bytes 0x28 8) st).live (field o.bytes 0x28 8) = none
    ∧ (endRun s (field o.bytes 0x28 8) st).mem = s.mem := by
  obtain ⟨hruns, hmem⟩ := runs_mem_of_endPart (endPart_endRun hlive st)
  exact ⟨(live_of_runs hruns _).trans (live_onRun_ended (by intros; rfl) _ _), hmem⟩

/-- A run in progress is stopped, and the CANCEL noted that waits for its end. -/
theorem cancelOwn_started (hstate : r.state ≠ 0) : cancelOwn s o =
    (stopRun (beginOrder s o) (field o.bytes 0x28 8) eCancelled 0xFFFF).onRun (field o.bytes 0x28 8)
      (fun r => { r with cancelBy := r.cancelBy ++ [(o.mailbox, o.number)] }) := by
  simp [cancelOwn, hlive, hstate]

/-- The run of which a CANCEL waits for the end: it is being stopped, for the reason that it already was or by the CANCEL. -/
theorem live_cancelOwn (hstate : r.state ≠ 0) : ∃ x, (cancelOwn s o).live (field o.bytes 0x28 8) = some x
    ∧ x.stopping = some (r.stopping.getD eCancelled) ∧ (o.mailbox, o.number) ∈ x.cancelBy := by
  have hbegun : (beginOrder s o).live (field o.bytes 0x28 8) = some r := hlive
  obtain ⟨x, hx, hstop⟩ : ∃ x,
      (stopRun (beginOrder s o) (field o.bytes 0x28 8) eCancelled 0xFFFF).live (field o.bytes 0x28 8) = some x
      ∧ x.stopping = some (r.stopping.getD eCancelled) := by
    cases hr : r.stopping with
    | none =>
      obtain ⟨x, hx, hstop, -⟩ := live_failMacro hbegun hr 0xFFFF eCancelled
      exact ⟨x, hx, hstop⟩
    | some st => exact ⟨r, (congrArg (State.live · _) (stopRun_of_stopping hbegun (by simp [hr]) _ _)).trans hbegun, hr⟩
  rw [cancelOwn_started hlive hstate, live_onRun (by intros; rfl) (by intros; assumption), hx]
  exact ⟨_, rfl, hstop, by simp⟩

theorem cancelOwn_reads (hstate : r.state ≠ 0) (hr : r.stopping = none) :
    (∀ y, y ∈ (cancelOwn s o).streams → y.tag ≠ field o.bytes 0x28 8)
      ∧ (∀ y, y ∈ (cancelOwn s o).xfers → y.tag = field o.bytes 0x28 8 → y.discard = true) := by
  have hbegun : (beginOrder s o).live (field o.bytes 0x28 8) = some r := hlive
  obtain ⟨hstreams, hxfers⟩ := Prod.mk.inj (readsPart_stopRun hbegun hr eCancelled 0xFFFF)
  rw [cancelOwn_started hlive hstate]
  refine ⟨fun y hy => ?_, fun y hy htag => ?_⟩
  · rw [State.onRun_streams, hstreams] at hy
    exact bne_iff_ne.mp (List.mem_filter.mp hy).2
  · rw [State.onRun_xfers, hxfers] at hy
    exact discard_of_mem_mapIf hy htag

theorem issuePart_cancelOwn (hstate : r.state ≠ 0) : issuePart (cancelOwn s o) = issuePart (beginOrder s o) := by
  rw [cancelOwn_started hlive hstate, issuePart_onRun, issuePart_stopRun]

end

/-! Reads issued (R180, R182). -/

@[simp] theorem issuePart_issueRead (s : State) (x : Stream) (half item a n : Nat) :
    issuePart (issueRead s x half item a n).1 = issuePart s := by
  have hput (u : State) (fs : List Xfer) (id : Nat) (k : Nat × Nat) (c m : Nat) :
      issuePart (({ u with xfers := fs, nextXfer := id } : State).bump k c m) = issuePart u := (issuePart_bump _ _ _ _).trans rfl
  unfold issueRead
  dsimp only
  split
  · rfl
  · split
    · exact hput ..
    · simp only [apply_ite Prod.fst, apply_ite issuePart, hput, issuePart_sendTransfer, ite_self]
    · exact (hput ..).trans (issuePart_hostReq _ _ _ _ _ _)

@[simp] theorem issuePart_issueList (half : Nat) (l : List (Nat × Nat × Nat)) (s : State) (x : Stream) :
    issuePart (issueList half l s x).1 = issuePart s := by
  induction l generalizing s x with
  | nil => rfl
  | cons f l ih =>
    unfold issueList
    dsimp only
    split
    · rw [ih, issuePart_issueRead]
    · simp

@[simp] theorem issuePart_issueBatch (half : Nat) (l : List (Nat × Nat × Nat)) (a : State × Stream) :
    issuePart (issueBatch half l a).1 = issuePart a.1 := by
  unfold issueBatch
  dsimp only
  split
  · rfl
  · rw [issuePart_issueList]
    exact foldl_leaves (fun u p => issuePart_lookupPage u _ p) _ _

theorem issuePart_issueBatches (half : Nat) (ls : List (List (Nat × Nat × Nat))) (a : State × Stream) :
    issuePart (ls.foldl (fun a b => issueBatch half b a) a).1 = issuePart a.1 :=
  foldl_leaves (g := fun a : State × Stream => issuePart a.1) (fun a b => issuePart_issueBatch half b a) ls a

/-- A stream that goes on issues what its batches have not issued, and changes nothing else. -/
@[simp] theorem issuePart_resumeOne (s : State) (x : Stream) : issuePart (resumeOne s x) = issuePart s := by
  unfold resumeOne
  dsimp only
  split
  · simp
  · rw [issuePart_setStream]
    refine (foldl_leaves (g := fun a : State × Stream => issuePart a.1) (fun a k => ?_) _ _).trans (issuePart_setStream _ _)
    exact issuePart_issueBatches k _ _

/-! RESUME_STREAM (R191). -/

/-- The run of a tag goes on: it is paused no more, and its halts are cleared. -/
def unpause (s : State) (t : Nat) : State := s.onRun t (fun r => { r with state := 1, halts := [], interim := false })

/-- The streams of a tag that are halted. -/
def haltedStreams (s : State) (t : Nat) : List Stream := s.streams.filter (fun x => x.tag == t && x.halted.isSome)

section
variable {s : State} {m n : Nat} {o : Order} {r : Run} (hadm : Safety.Admitted s m n 0x08 o)
include hadm

theorem exec_resumeStream_unknown (hlive : s.live (field o.bytes 0x28 8) = none) :
    exec (.resumeStream m n) s = .next (complete s o ePlan []) := by
  refine congrArg Host.Outcome.next ((orderCmd_of_admitted hadm _).trans ?_)
  simp [hlive]

theorem exec_resumeStream_notPaused (hlive : s.live (field o.bytes 0x28 8) = some r) (hstate : r.state ≠ 2) :
    exec (.resumeStream m n) s = .next (complete s o ePlan []) := by
  refine congrArg Host.Outcome.next ((orderCmd_of_admitted hadm _).trans ?_)
  simp [hlive, hstate]

theorem exec_resumeStream_paused (hlive : s.live (field o.bytes 0x28 8) = some r) (hstate : r.state = 2)
    (hr : r.stopping = none) : exec (.resumeStream m n) s = .next (complete
      ((haltedStreams s (field o.bytes 0x28 8)).foldl resumeOne (unpause s (field o.bytes 0x28 8))) o eOk []) := by
  refine congrArg Host.Outcome.next ((orderCmd_of_admitted hadm _).trans ?_)
  obtain htag := tag_of_live hlive
  simp only [hlive, hstate, hr, htag, ne_eq, not_true_eq_false, Option.isSome_none, Bool.false_eq_true, or_self, if_false]
  rfl

end

theorem issuePart_resumed (s : State) (t : Nat) (l : List Stream) : issuePart (l.foldl resumeOne (unpause s t)) = issuePart s :=
  (foldl_leaves issuePart_resumeOne _ _).trans (issuePart_onRun _ _ _)

theorem live_unpause {s : State} {t : Nat} {r : Run} (hlive : s.live t = some r) :
    (unpause s t).live t = some { r with state := 1, halts := [], interim := false } :=
  (live_onRun (by intros; rfl) (by simp) _ _).trans (congrArg _ hlive)

/-- Settles O13: CANCEL by whether its run is known and has started, RESUME_STREAM by whether its run is known and paused. -/
theorem cancelAndResume : Obligations.CancelAndResume := by
  unfold Obligations.CancelAndResume
  refine ⟨fun s m n o hadm => ?cancel, fun s m n o hadm => ?resume⟩
  case cancel =>
    intro t
    rw [exec_cancel_of_admitted hadm]
    have horder := order_of_admitted hadm
    obtain ⟨rfl, rfl⟩ := mailbox_number_of_order horder
    refine ⟨fun hlive => congrArg _ (cancelOwn_unknown hlive), fun r hlive => ⟨fun hstate => ?removed, fun hstate => ?stopped⟩⟩
    case removed =>
      obtain ⟨hnone, hmem⟩ := live_mem_endRun hlive eCancelled
      rw [cancelOwn_notStarted hlive hstate]
      exact ⟨_, rfl, rfl, (live_complete _ _ _ _ _).trans hnone, (congrArg State.mem (answerPart_complete _ _ _ _) :).trans hmem⟩
    case stopped =>
      obtain ⟨x, hx, hstop, hwaits⟩ := live_cancelOwn hlive hstate
      have hpart := issuePart_cancelOwn hlive hstate
      have hbegun : (cancelOwn s o).order o.mailbox o.number = some { o with begun := true } :=
        (congrArg (State.order · o.mailbox o.number) hpart :).trans (order_beginOrder horder)
      exact ⟨_, x, rfl, hx, hstop, hwaits, ⟨_, hbegun, rfl⟩, cancelOwn_reads hlive hstate, fun _ => (congrArg State.mem hpart :)⟩
  case resume =>
    intro t
    refine ⟨exec_resumeStream_unknown hadm, fun r hlive => ⟨exec_resumeStream_notPaused hadm hlive, fun hstate hr => ?_⟩⟩
    refine ⟨_, exec_resumeStream_paused hadm hlive hstate hr, rfl, fun hheld => ?gone, fun hnone => ?noHalts⟩
    case gone =>
      have hsame : held ((haltedStreams s t).foldl resumeOne (unpause s t)) o = held s o :=
        (congrArg (fun u => held u o) (issuePart_resumed s t (haltedStreams s t)) :)
      exact order_complete (hsame.trans hheld) eOk []
    case noHalts =>
      have hempty : haltedStreams s t = [] := by
        refine List.filter_eq_nil_iff.mpr fun x hx h => ?_
        simp only [Bool.and_eq_true, beq_iff_eq] at h
        simp [hnone x hx h.1] at h
      have hruns : (complete (unpause s t) o eOk []).runs = (unpause s t).runs :=
        (congrArg State.runs (answerPart_complete _ _ _ _) :)
      rw [hempty, List.foldl_nil, live_complete, live_unpause hlive, hruns]
      exact ⟨complete_eq _ _ _ _, _, rfl, rfl, rfl⟩

end Sys2Proof.Machine
end

section
/-!
SUPPORT. Pages mapped and records returned (R186, R187, R356, R361, R362, R431): what sending a result to the host leaves, what a
list of page entries makes of the translation store, and what MAP_PAGES, QUERY, READ_COUNTERS and READ_COFFER answer.
-/

namespace Sys2Proof.Machine

/-! What a request to the host, and an order's completion, leave. -/

/-- The state without what asking the host, sending it a result and completing an order may change. -/
def resultPart (s : State) : State := { s with orders := [], qps := [], ports := [], counters := [], out := [] }

theorem eq_of_resultPart {s t : State} (h : resultPart t = resultPart s) :
    t = { s with orders := t.orders, qps := t.qps, ports := t.ports, counters := t.counters, out := t.out } :=
  congrArg (fun x : State => { x with
    orders := t.orders, qps := t.qps, ports := t.ports, counters := t.counters, out := t.out }) h

@[simp] theorem resultPart_bump (s : State) (k : Nat × Nat) (u n : Nat) : resultPart (s.bump k u n) = resultPart s := by
  unfold State.bump
  split <;> rfl

@[simp] theorem resultPart_complete (s : State) (o : Order) (st : BitVec 8) (d : List Byte) :
    resultPart (complete s o st d) = resultPart s :=
  (congrArg resultPart (complete_eq s o st d)).trans rfl

@[simp] theorem resultPart_txMsg (s : State) (q : Nat) (o : Out) : resultPart (txMsg s q o) = resultPart s := by
  unfold txMsg
  split
  · rfl
  · dsimp only
    split
    · rfl
    · split
      · rfl
      · exact resultPart_bump _ _ _ _

@[simp] theorem resultPart_pumpQp (n : Nat) (s : State) (q : Nat) : resultPart (pumpQp n s q) = resultPart s := by
  induction n generalizing s with
  | zero => rfl
  | succ n ih =>
    unfold pumpQp
    split
    · rfl
    · split
      · rfl
      · split
        · rfl
        · exact (ih _).trans (resultPart_txMsg _ _ _)

@[simp] theorem resultPart_roce (s : State) (q : Nat) (o : Out) : resultPart (roce s q o) = resultPart s := by
  unfold roce
  split
  · rfl
  · split
    · rfl
    · exact resultPart_pumpQp _ _ _

@[simp] theorem resultPart_sendResult (s : State) (o : Order) (d : List Byte) : resultPart (sendResult s o d) = resultPart s := by
  unfold sendResult
  split
  · dsimp only
    split
    · rfl
    · exact resultPart_roce _ _ _
  · rfl

@[simp] theorem resultPart_hostAsk (s : State) (o : Order) : resultPart (hostAsk s o) = resultPart s := by
  unfold hostAsk
  split
  · exact resultPart_roce _ _ _
  · rfl

/-- An order without a result sends none. -/
theorem sendResult_nil (s : State) (o : Order) : sendResult s o [] = s := by
  unfold sendResult
  split <;> rfl

/-- An order that answers with a result changes nothing else. -/
theorem complete_sendResult_eq (s : State) (o : Order) (r : List Byte) (st : BitVec 8) (d : List Byte) :
    complete (sendResult s o r) o st d = { s with
      orders := (complete (sendResult s o r) o st d).orders, qps := (complete (sendResult s o r) o st d).qps
      ports := (complete (sendResult s o r) o st d).ports, counters := (complete (sendResult s o r) o st d).counters
      out := (complete (sendResult s o r) o st d).out } :=
  eq_of_resultPart ((resultPart_complete _ _ _ _).trans (resultPart_sendResult _ _ _))

/-! Keyed lists. -/

theorem look_erase_same {α : Type} (k : Nat) (l : List (Nat × α)) : look k (erase k l) = none := by
  induction l with
  | nil => rfl
  | cons p l ih =>
    obtain ⟨j, v⟩ := p
    by_cases hj : j = k
    · simpa [erase, hj] using ih
    · simpa [erase, look, hj] using ih

theorem look_erase_other {α : Type} {j k : Nat} (h : j ≠ k) (l : List (Nat × α)) : look j (erase k l) = look j l := by
  induction l with
  | nil => rfl
  | cons p l ih =>
    obtain ⟨i, v⟩ := p
    by_cases hi : i = k
    · have hij : i ≠ j := fun e => h (e.symm.trans hi)
      simpa [erase, look, hi, Ne.symm h] using ih
    · by_cases hj : i = j
      · simp [erase, look, hj, h]
      · simpa [erase, look, hi, hj] using ih

theorem look_map_values {α β : Type} (f : α → β) (k : Nat) (l : List (Nat × α)) :
    look k (l.map (fun p => (p.1, f p.2))) = (look k l).map f := by
  induction l with
  | nil => rfl
  | cons p l ih =>
    simp only [List.map_cons, look]
    split
    · rfl
    · exact ih

/-! The translation store after a list of entries (R186, R187). -/

/-- What an entry makes of its page: the translation it gives, or none. -/
def entryGives (e : List Byte) : Option XEntry :=
  if field e 4 1 = 0 then none else some (field e 4 1, field e 5 1, field e 6 2, field e 8 8, field e 0x10 4)

theorem look_mapEntry_same (x : List (Nat × XEntry)) (e : List Byte) : look (field e 0 4) (mapEntry x e) = entryGives e := by
  unfold mapEntry entryGives
  dsimp only
  split
  · exact look_erase_same _ _
  · exact look_put_same _ _ _

theorem look_mapEntry_other {g : Nat} {e : List Byte} (h : field e 0 4 ≠ g) (x : List (Nat × XEntry)) :
    look g (mapEntry x e) = look g x := by
  unfold mapEntry
  dsimp only
  split
  · exact look_erase_other h.symm _
  · exact look_put_other h.symm _ _

/-- A page that no entry names keeps its translation. -/
theorem look_mapped_other {g : Nat} {es : List (List Byte)} (h : ∀ e, e ∈ es → field e 0 4 ≠ g) (x : List (Nat × XEntry)) :
    look g (es.foldl mapEntry x) = look g x := by
  induction es generalizing x with
  | nil => rfl
  | cons e es ih =>
    simp only [List.mem_cons, forall_eq_or_imp] at h
    exact (ih h.2 _).trans (look_mapEntry_other h.1 x)

/-- A page takes the last entry that names it. -/
theorem look_mapped_last {e : List Byte} {l r : List (List Byte)} (h : ∀ e', e' ∈ r → field e' 0 4 ≠ field e 0 4)
    (x : List (Nat × XEntry)) : look (field e 0 4) ((l ++ e :: r).foldl mapEntry x) = entryGives e := by
  rw [List.foldl_append, List.foldl_cons, look_mapped_other h, look_mapEntry_same]

/-! MAP_PAGES (R186, R187). -/

/-- A search of the numbers below n finds the first that answers. -/
theorem findSome?_range_first {α : Type} {f : Nat → Option α} {n i : Nat} {v : α} (hi : i < n) (hv : f i = some v)
    (hfirst : ∀ j, j < i → f j = none) : (List.range n).findSome? f = some v := by
  induction n with
  | zero => cases hi
  | succ n ih =>
    rw [List.range_succ, List.findSome?_append]
    rcases Nat.lt_succ_iff_lt_or_eq.mp hi with h | rfl
    · rw [ih h, Option.some_or]
    · have hnone : (List.range i).findSome? f = none := List.findSome?_eq_none_iff.mpr fun j hj => hfirst j (List.mem_range.mp hj)
      simp [hnone, hv]

section
variable {s : State} {o : Order} {b : List Byte}

/-- The entries of a MAP_PAGES. -/
def mapList (o : Order) (b : List Byte) : List (List Byte) :=
  entriesOf (field o.bytes 0x2A 2) (slice b 0 (32 * field o.bytes 0x2A 2))

theorem length_mapList (o : Order) (b : List Byte) : (mapList o b).length = field o.bytes 0x2A 2 := by
  simp [mapList, entriesOf]

/-- The first check that an entry fails, with the entry's place. -/
def firstBad (a : State) (o : Order) (b : List Byte) : Option ((BitVec 8 × Nat) × Nat) :=
  ((List.range (field o.bytes 0x2A 2)).zip (mapList o b)).findSome? (fun e => (entryCheck a e.2).map (fun c => (c, e.1)))

theorem firstBad_eq (a : State) (o : Order) (b : List Byte) : firstBad a o b =
    (List.range (field o.bytes 0x2A 2)).findSome? (fun i => (entryCheck a ((mapList o b).getD i [])).map (fun c => (c, i))) := by
  have hzip : (List.range (field o.bytes 0x2A 2)).zip (mapList o b) =
      (List.range (field o.bytes 0x2A 2)).map (fun i => (i, (mapList o b).getD i [])) := by
    refine List.ext_getElem (by simp [length_mapList]) fun i hi _ => ?_
    have hin : i < (mapList o b).length := by
      simp only [List.length_zip] at hi
      omega
    simp [List.getElem?_eq_getElem hin]
  rw [firstBad, hzip, List.findSome?_map]
  rfl

theorem firstBad_of_first {a : State} {i c : Nat} {st : BitVec 8} (hi : i < field o.bytes 0x2A 2)
    (hbad : entryCheck a ((mapList o b).getD i []) = some (st, c))
    (hfirst : ∀ j, j < i → entryCheck a ((mapList o b).getD j []) = none) : firstBad a o b = some ((st, c), i) := by
  rw [firstBad_eq]
  exact findSome?_range_first hi (by rw [hbad]; rfl) (fun j hj => by rw [hfirst j hj]; rfl)

theorem firstBad_of_none {a : State} (hall : ∀ e, e ∈ mapList o b → entryCheck a e = none) : firstBad a o b = none := by
  refine List.findSome?_eq_none_iff.mpr fun e he => ?_
  rw [hall e.2 (List.of_mem_zip he).2]
  rfl

/-- A core whose translation cache keeps none of some pages. -/
def dropCached (pages : List Nat) (k : Core) : Core := { k with xcache := k.xcache.filter (fun e => !pages.contains e.1) }

/-- The state with a list of entries applied: the store's translations, and no cache keeps a page that they name (R187). -/
def applyPages (a : State) (es : List (List Byte)) : State :=
  { a with
    mem := { a.mem with xlate := es.foldl mapEntry a.mem.xlate }
    cores := a.cores.map (fun c => (c.1, dropCached (es.map (fun e => field e 0 4)) c.2)) }

/-- Of two states that differ only in what asking the host changes, the same list makes such states again. -/
theorem resultPart_applyPages {a : State} (h : resultPart a = resultPart s) (es : List (List Byte)) :
    resultPart (applyPages a es) = resultPart (applyPages s es) :=
  show resultPart (applyPages (resultPart a) es) = resultPart (applyPages (resultPart s) es) from
    congrArg (fun u => resultPart (applyPages u es)) h

section
variable {m n : Nat} (hadm : Safety.Admitted s m n 0x07 o) (hlo : 1 ≤ field o.bytes 0x2A 2)
  (hhi : field o.bytes 0x2A 2 ≤ 4096) (hup : qpUp (hostAsk s o) o.qp = true)
include hadm hlo hhi hup

/-- A MAP_PAGES of which an entry fails a check ends with the first one's status and place. -/
theorem exec_mapPages_bad {st : BitVec 8} {c i : Nat} (hbad : firstBad (hostAsk s o) o b = some ((st, c), i)) :
    exec (.mapPages m n (some b)) s = .next (refuse (hostAsk s o) o st 0x4D c i) := by
  unfold firstBad mapList at hbad
  refine congrArg Host.Outcome.next ((orderCmd_of_admitted hadm _).trans ?_)
  unfold mapPagesOwn
  rw [if_neg (by omega)]
  simp only [hostRead, hup, Bool.not_true, Bool.false_eq_true, if_false, Option.map_some, hbad]

/-- A MAP_PAGES whose entries all pass applies them, where the store has room for their pages. -/
theorem exec_mapPages_sound (hsound : firstBad (hostAsk s o) o b = none) : exec (.mapPages m n (some b)) s = .next
    (if 2097152 < ((mapList o b).foldl mapEntry (hostAsk s o).mem.xlate).length then refuse (hostAsk s o) o eRange 0x4D 4 0
     else complete (applyPages (hostAsk s o) (mapList o b)) o eOk []) := by
  unfold firstBad mapList at hsound
  refine congrArg Host.Outcome.next ((orderCmd_of_admitted hadm _).trans ?_)
  unfold mapPagesOwn mapList
  rw [if_neg (by omega)]
  simp only [hostRead, hup, Bool.not_true, Bool.false_eq_true, if_false, Option.map_some, hsound, applyPages, dropCached]

end

theorem refuse_hostAsk_mem (s : State) (o : Order) (st : BitVec 8) (letter c i : Nat) :
    (refuse (hostAsk s o) o st letter c i).mem = s.mem :=
  (congrArg State.mem ((resultPart_complete _ _ _ _).trans (resultPart_hostAsk s o)) :)

/-- No core's cache keeps a page that an entry applied names. -/
theorem xcache_applyPages {a : State} {es : List (List Byte)} {c : Nat} {e : List Byte} (he : e ∈ es) {x : Nat × Nat}
    (hx : x ∈ ((applyPages a es).core c).xcache) : x.1 ≠ field e 0 4 := by
  have hcore : (applyPages a es).core c = ((look c a.cores).map (dropCached (es.map (fun e => field e 0 4)))).getD {} :=
    congrArg (fun k : Option Core => k.getD {}) (look_map_values (dropCached (es.map (fun e => field e 0 4))) c a.cores)
  rw [hcore] at hx
  cases hlook : look c a.cores with
  | none =>
    rw [hlook] at hx
    cases hx
  | some k =>
    rw [hlook] at hx
    have hkept := (List.mem_filter.mp hx).2
    intro hpage
    simp only [hpage, Bool.not_eq_true', List.contains_eq_mem, decide_eq_false_iff_not, List.mem_map, not_exists] at hkept
    exact hkept e ⟨he, rfl⟩

theorem getD_of_lt {α : Type} {l : List α} {i : Nat} {d : α} (h : i < l.length) : l.getD i d = l[i] := by
  rw [List.getD_eq_getElem?_getD, List.getElem?_eq_getElem h, Option.getD_some]

/-- A page takes the entry at a place, where no later entry names it. -/
theorem look_mapList {i : Nat} (hi : i < field o.bytes 0x2A 2)
    (hlast : ∀ j, i < j → j < field o.bytes 0x2A 2 →
      field ((mapList o b).getD j []) 0 4 ≠ field ((mapList o b).getD i []) 0 4)
    (x : List (Nat × XEntry)) :
    look (field ((mapList o b).getD i []) 0 4) ((mapList o b).foldl mapEntry x) = entryGives ((mapList o b).getD i []) := by
  have hin : i < (mapList o b).length := by rwa [length_mapList]
  have hcut : mapList o b = (mapList o b).take i ++ (mapList o b).getD i [] :: (mapList o b).drop (i + 1) := by
    rw [getD_of_lt hin, ← List.drop_eq_getElem_cons hin, List.take_append_drop]
  have hrest : ∀ e', e' ∈ (mapList o b).drop (i + 1) → field e' 0 4 ≠ field ((mapList o b).getD i []) 0 4 := by
    intro e' he'
    obtain ⟨j, hj, rfl⟩ := List.mem_drop_iff_getElem.mp he'
    have hj' : i + 1 + j < field o.bytes 0x2A 2 := by rw [← length_mapList o b]; omega
    have hne := hlast (i + 1 + j) (by omega) hj'
    rwa [getD_of_lt (by rwa [length_mapList])] at hne
  calc look (field ((mapList o b).getD i []) 0 4) ((mapList o b).foldl mapEntry x)
    _ = look (field ((mapList o b).getD i []) 0 4)
        (((mapList o b).take i ++ (mapList o b).getD i [] :: (mapList o b).drop (i + 1)).foldl mapEntry x) := by rw [← hcut]
    _ = entryGives ((mapList o b).getD i []) := look_mapped_last hrest x

end

/-! QUERY (R361). -/

section
variable {s : State} {m n : Nat} {o : Order} (hadm : Safety.Admitted s m n 0x06 o)
include hadm

theorem exec_query_unknown (hrec : queryRecord s (field o.bytes 0x28 1) (field o.bytes 0x30 8) = none) :
    exec (.query m n) s = .next (complete s o ePlan []) := by
  refine congrArg Host.Outcome.next ((orderCmd_of_admitted hadm _).trans ?_)
  simp [queryOwn, hrec]

variable {d : List Byte} (hrec : queryRecord s (field o.bytes 0x28 1) (field o.bytes 0x30 8) = some d)
include hrec

theorem exec_query_tooLong (hlong : o.resultLen < d.length) :
    exec (.query m n) s = .next (complete s o eRange (resultDetail 0 d.length)) := by
  refine congrArg Host.Outcome.next ((orderCmd_of_admitted hadm _).trans ?_)
  simp [queryOwn, hrec, hlong]

theorem exec_query_fits (hfits : d.length ≤ o.resultLen) :
    exec (.query m n) s = .next (complete (sendResult s o d) o eOk (resultDetail d.length d.length)) := by
  refine congrArg Host.Outcome.next ((orderCmd_of_admitted hadm _).trans ?_)
  simp [queryOwn, hrec, Nat.not_lt.mpr hfits]

end

/-! READ_COUNTERS (R362). -/

theorem length_flatten_of_length {α : Type} {l : List (List α)} {k : Nat} (h : ∀ x, x ∈ l → x.length = k) :
    l.flatten.length = k * l.length := by
  induction l with
  | nil => rfl
  | cons x xs ih =>
    have hx : x.length = k := h x List.mem_cons_self
    have hxs : xs.flatten.length = k * xs.length := ih fun y hy => h y (List.mem_cons_of_mem x hy)
    rw [List.flatten_cons, List.length_append, List.length_cons, hx, hxs, Nat.mul_succ, Nat.add_comm]

/-- Every entry of a unit's counters is of 16 bytes. -/
theorem length_of_mem_unitEntries {s : State} {scope unit : Nat} {e : List Byte} (he : e ∈ unitEntries s scope unit) :
    e.length = 16 := by
  simp only [unitEntries, List.mem_flatMap, List.mem_map] at he
  obtain ⟨t, -, r, -, rfl⟩ := he
  simp

/-- The counters that a READ_COUNTERS asks for, unit by unit. -/
def askedEntries (s : State) (o : Order) : List (List Byte) :=
  (List.range (field o.bytes 0x2C 2)).flatMap (fun i => unitEntries s (field o.bytes 0x28 1) (field o.bytes 0x2A 2 + i))

theorem length_take_askedEntries (s : State) (o : Order) (k : Nat) :
    ((askedEntries s o).take k).flatten.length = 16 * min k (askedEntries s o).length := by
  rw [length_flatten_of_length (k := 16), List.length_take]
  intro e he
  obtain ⟨i, -, hi⟩ := List.mem_flatMap.mp (List.mem_of_mem_take he)
  exact length_of_mem_unitEntries hi

section
variable {s : State} {m n : Nat} {o : Order} (hadm : Safety.Admitted s m n 0x12 o)
include hadm

theorem exec_readCounters_unknown (hscope : 6 < field o.bytes 0x28 1) :
    exec (.readCounters m n) s = .next (complete s o ePlan []) := by
  refine congrArg Host.Outcome.next ((orderCmd_of_admitted hadm _).trans ?_)
  simp [readCountersOwn, hscope]

theorem exec_readCounters_outside (hscope : field o.bytes 0x28 1 ≤ 6) (hout : field o.bytes 0x2C 2 = 0 ∨
    scopeUnits (field o.bytes 0x28 1) < field o.bytes 0x2A 2 + field o.bytes 0x2C 2) :
    exec (.readCounters m n) s = .next (complete s o eRange []) := by
  refine congrArg Host.Outcome.next ((orderCmd_of_admitted hadm _).trans ?_)
  unfold readCountersOwn
  rw [if_neg (Nat.not_lt.mpr hscope), if_pos hout]

theorem exec_readCounters_inside (hscope : field o.bytes 0x28 1 ≤ 6) (hsome : 1 ≤ field o.bytes 0x2C 2)
    (hin : field o.bytes 0x2A 2 + field o.bytes 0x2C 2 ≤ scopeUnits (field o.bytes 0x28 1)) :
    exec (.readCounters m n) s = .next (complete (sendResult s o ((askedEntries s o).take (o.resultLen / 16)).flatten) o eOk
      (resultDetail ((askedEntries s o).take (o.resultLen / 16)).flatten.length (16 * (askedEntries s o).length))) := by
  refine congrArg Host.Outcome.next ((orderCmd_of_admitted hadm _).trans ?_)
  unfold readCountersOwn
  rw [if_neg (Nat.not_lt.mpr hscope), if_neg (by omega)]
  rfl

end

/-! READ_COFFER (R431). -/

theorem length_cofferBytes (e : CofferEntry) : (cofferBytes e).length = 64 := by
  simp [cofferBytes]

/-- The coffer entries that a READ_COFFER asks for. -/
def askedCoffer (s : State) (o : Order) : List CofferEntry :=
  (sortSeq ((cofferPart s 1 ++ cofferPart s 2).filter (fun e => decide (field o.bytes 0x28 8 ≤ e.seq)))).take
    (field o.bytes 0x30 4)

theorem exec_readCoffer_count {s : State} {m n : Nat} {o : Order} (hadm : Safety.Admitted s m n 0x13 o)
    (hcount : field o.bytes 0x30 4 = 0 ∨ 65536 < field o.bytes 0x30 4) :
    exec (.readCoffer m n) s = .next (complete s o ePlan []) :=
  congrArg Host.Outcome.next ((orderCmd_of_admitted hadm _).trans (if_pos hcount))

/-- Head and whole entries that a READ_COFFER returns. -/
def cofferAnswer (s : State) (o : Order) : List Byte :=
  let fit := (askedCoffer s o).take ((o.resultLen - 32) / 64)
  leBytes 8 s.coffer.nextSeq ++ leBytes 8 (((cofferPart s 2).map (fun e => e.seq)).foldl Nat.min s.coffer.nextSeq)
    ++ leBytes 4 s.coffer.journalUsed ++ leBytes 4 fit.length ++ leBytes 8 s.trust.next ++ fit.flatMap cofferBytes

theorem length_cofferAnswer (s : State) (o : Order) :
    (cofferAnswer s o).length = 32 + 64 * min ((o.resultLen - 32) / 64) (askedCoffer s o).length := by
  have hentries (l : List CofferEntry) : (l.flatMap cofferBytes).length = 64 * l.length := by
    rw [List.flatMap_def, length_flatten_of_length (k := 64), List.length_map]
    intro x hx
    obtain ⟨e, -, rfl⟩ := List.mem_map.mp hx
    exact length_cofferBytes e
  simp only [cofferAnswer, List.length_append, length_leBytes, hentries, List.length_take]

/-- A READ_COFFER of an admitted count answers with the head and as many whole entries as fit, or with nothing where the head does
not fit. -/
theorem exec_readCoffer {s : State} {m n : Nat} {o : Order} (hadm : Safety.Admitted s m n 0x13 o)
    (hlo : 1 ≤ field o.bytes 0x30 4) (hhi : field o.bytes 0x30 4 ≤ 65536) : ∃ d,
      d.length = (if o.resultLen < 32 then 0 else 32 + 64 * min ((o.resultLen - 32) / 64) (askedCoffer s o).length)
      ∧ exec (.readCoffer m n) s =
        .next (complete (sendResult s o d) o eOk (resultDetail d.length (32 + 64 * (askedCoffer s o).length))) := by
  have hexec : exec (.readCoffer m n) s = .next (
      if o.resultLen < 32 then complete s o eOk (resultDetail 0 (32 + 64 * (askedCoffer s o).length))
      else complete (sendResult s o (cofferAnswer s o)) o eOk
        (resultDetail (cofferAnswer s o).length (32 + 64 * (askedCoffer s o).length))) :=
    congrArg Host.Outcome.next ((orderCmd_of_admitted hadm readCofferOwn).trans ((if_neg (by omega)).trans rfl))
  rw [hexec]
  by_cases hshort : o.resultLen < 32
  · exact ⟨[], by simp [hshort], by rw [if_pos hshort, sendResult_nil]; rfl⟩
  · exact ⟨cofferAnswer s o, by rw [length_cofferAnswer, if_neg hshort], by rw [if_neg hshort]⟩

/-- Settles O14: MAP_PAGES by the first entry that fails a check and by what a list makes of the store, the queries by whether what
they ask for is known and fits. -/
theorem pagesAndQueries : Obligations.PagesAndQueries := by
  unfold Obligations.PagesAndQueries
  refine ⟨fun s m n b o hadm => ?pages, fun s m n o hadm => ?query, fun s m n o => ⟨fun hadm => ?counters, fun hadm => ?coffer⟩⟩
  case pages =>
    intro k es a hlo hhi hup
    have hask : resultPart a = resultPart s := resultPart_hostAsk s o
    have hxlate : a.mem.xlate = s.mem.xlate := (congrArg (fun u : State => u.mem.xlate) hask :)
    refine ⟨fun i st c hi hbad hfirst => ?_, fun hall hmany => ?_, fun hall hfew => ?_⟩
    · exact ⟨exec_mapPages_bad hadm hlo hhi hup (firstBad_of_first hi hbad hfirst), refuse_hostAsk_mem ..⟩
    · have hmany' : 2097152 < ((mapList o b).foldl mapEntry a.mem.xlate).length := by rwa [hxlate]
      have hexec := exec_mapPages_sound hadm hlo hhi hup (firstBad_of_none hall)
      exact ⟨hexec.trans (congrArg _ (if_pos hmany')), refuse_hostAsk_mem ..⟩
    · have hfew' : ¬ 2097152 < ((mapList o b).foldl mapEntry a.mem.xlate).length := by rw [hxlate]; exact Nat.not_lt.mpr hfew
      have hexec := exec_mapPages_sound hadm hlo hhi hup (firstBad_of_none hall)
      have hpart := eq_of_resultPart ((resultPart_complete (applyPages a (mapList o b)) o eOk []).trans
        (resultPart_applyPages hask (mapList o b)))
      have hmem : (complete (applyPages a (mapList o b)) o eOk []).mem.xlate = (mapList o b).foldl mapEntry s.mem.xlate :=
        (congrArg (fun u : State => u.mem.xlate) hpart :)
      have hcores : (complete (applyPages a (mapList o b)) o eOk []).cores = (applyPages s (mapList o b)).cores :=
        (congrArg State.cores hpart :)
      refine ⟨_, hexec.trans (congrArg _ (if_neg hfew')), fun i hi hlast => ?_, fun g hg => ?_, fun c e he x hx => ?_, ?_⟩
      · rw [hmem]
        exact look_mapList hi hlast s.mem.xlate
      · rw [hmem]
        exact look_mapped_other hg s.mem.xlate
      · rw [State.core, hcores] at hx
        exact xcache_applyPages he hx
      · rw [hmem, hcores]
        exact hpart
  case query =>
    exact ⟨exec_query_unknown hadm, fun d => exec_query_tooLong hadm,
      fun d hrec hfits => ⟨_, exec_query_fits hadm hrec hfits, rfl, complete_sendResult_eq ..⟩⟩
  case counters =>
    refine ⟨exec_readCounters_unknown hadm, exec_readCounters_outside hadm, fun hscope hsome hin => ?_⟩
    exact ⟨_, _, exec_readCounters_inside hadm hscope hsome hin, rfl, length_take_askedEntries .., rfl, complete_sendResult_eq ..⟩
  case coffer =>
    refine ⟨exec_readCoffer_count hadm, fun hlo hhi => ?_⟩
    obtain ⟨d, hd, hexec⟩ := exec_readCoffer hadm hlo hhi
    exact ⟨_, _, hexec, hd, ⟨d, rfl, rfl⟩, complete_sendResult_eq ..⟩

end Sys2Proof.Machine
end

section
/-!
SUPPORT. Streams (R172, R178 to R190, R305): when a half is filled and when that halts its stream, what a read that returns does to
its stream, and what a write that returns does to its core's write path.
-/

namespace Sys2Proof.Machine

theorem getView_of_tensors {s u : State} (h : u.tensors = s.tensors) (r : Run) (mi pos k : Nat) :
    getView u r mi pos k = getView s r mi pos k := by
  simp [getView, viewOp, viewRef, State.tensor, h]

/-! A halt (R188, R189). -/

@[simp] theorem bump_xfers (s : State) (k : Nat × Nat) (u n : Nat) : (s.bump k u n).xfers = s.xfers :=
  congrArg Prod.snd (readsPart_bump s k u n)

/-- The report of a stream's halt at a page (R190). -/
def haltOf (x : Stream) (page reason : Nat) : Halt :=
  { mi := x.mi, position := x.pos, operand := x.operand, page := page, reason := reason }

/-- A stream that halts pauses its run, and the halt is kept with the run. -/
theorem live_haltStream {s : State} {x : Stream} {r : Run} (hlive : s.live x.tag = some r) (hr : r.stopping = none)
    (hx : x.halted = none) (page reason : Nat) : (haltStream s x page reason).live x.tag =
      some { r with state := 2, halts := r.halts ++ [haltOf x page reason], interim := true } := by
  have hpaused (u : State) (hu : u.runs = s.runs) : (u.onRun x.tag (fun r =>
      { r with state := 2, halts := r.halts ++ [haltOf x page reason], interim := true })).live x.tag =
        some { r with state := 2, halts := r.halts ++ [haltOf x page reason], interim := true } := by
    rw [live_onRun (by intros; rfl) (by simp), live_of_runs hu, hlive, Option.map_some]
  unfold haltStream
  rw [hlive]
  dsimp only
  rw [if_neg (by simp [hr, hx])]
  split
  · exact hpaused _ (bump_runs _ _ _ _)
  · exact (live_of_runs (deliver_runs _ _ _) _).trans (hpaused _ (bump_runs _ _ _ _))

@[simp] theorem haltStream_xfers (s : State) (x : Stream) (page reason : Nat) : (haltStream s x page reason).xfers = s.xfers := by
  unfold haltStream
  split
  · rfl
  · split
    · rfl
    · dsimp only
      split
      · exact bump_xfers _ _ _ _
      · exact (congrArg State.xfers (answerPart_deliver _ _ _) :).trans (bump_xfers _ _ _ _)

@[simp] theorem haltStream_mem (s : State) (x : Stream) (page reason : Nat) : (haltStream s x page reason).mem = s.mem :=
  (congrArg State.mem (issuePart_haltStream s x page reason) :)

/-! Pages looked up (R182). -/

/-- The state without what looking up pages may change. -/
def lookPart (s : State) : State := { s with cores := [], counters := [], free := 0 }

@[simp] theorem lookPart_bump (s : State) (k : Nat × Nat) (u n : Nat) : lookPart (s.bump k u n) = lookPart s := by
  unfold State.bump
  split <;> rfl

@[simp] theorem lookPart_lookupPage (s : State) (core page : Nat) : lookPart (lookupPage s core page) = lookPart s := by
  unfold lookupPage
  dsimp only
  split
  · rfl
  · split <;> exact lookPart_bump _ _ _ _

/-- The pages of a batch looked up. -/
def lookupBatch (s : State) (x : Stream) (l : List (Nat × Nat × Nat)) : State :=
  ((l.map (fun t => pageOf t.2.1)).eraseDups).foldl (fun s p => lookupPage s x.core p) s

theorem lookPart_lookupBatch (s : State) (x : Stream) (l : List (Nat × Nat × Nat)) : lookPart (lookupBatch s x l) = lookPart s :=
  foldl_leaves (fun u p => lookPart_lookupPage u _ p) _ _

theorem haltReason_of_lookPart {s u : State} (h : lookPart u = lookPart s) (page : Nat) (write add : Bool) :
    haltReason u page write add = haltReason s page write add :=
  show haltReason (lookPart u) page write add = haltReason (lookPart s) page write add from
    congrArg (fun v => haltReason v page write add) h

/-! Transfers issued into a half (R180, R188). -/

/-- A stream that keeps some transfers of a half to be issued later. -/
def Stream.keep (x : Stream) (half : Nat) (l : List (Nat × Nat × Nat)) : Stream :=
  x.onHalf half (fun h => { h with todo := h.todo ++ l })

section
variable {s : State} {x : Stream} {half w a n why : Nat} {l : List (Nat × Nat × Nat)}

/-- A list whose first transfer may not use its page halts the stream there, and the whole list is kept. -/
theorem issueList_halts (hwhy : haltReason s (pageOf a) false false = some why) : issueList half ((w, a, n) :: l) s x =
    (haltStream (setStream s (x.keep half ((w, a, n) :: l))) (x.keep half ((w, a, n) :: l)) (pageOf a) why,
      { x.keep half ((w, a, n) :: l) with halted := some (haltOf x (pageOf a) why) }) := by
  have hread : issueRead s x half w a n = (s, some why) := by simp [issueRead, hwhy]
  unfold issueList
  rw [hread]
  rfl

theorem issueBatch_of_halted (hx : x.halted.isSome = true) : issueBatch half l (s, x) = (s, x.keep half l) := if_pos hx

theorem issueBatch_of_running (hx : x.halted = none) : issueBatch half l (s, x) = issueList half l (lookupBatch s x l) x :=
  if_neg (by simp [hx])

/-- Of a stream that is halted the batches are kept, and nothing else changes. -/
theorem issueBatches_of_halted (ls : List (List (Nat × Nat × Nat))) (hx : x.halted.isSome = true) :
    (ls.foldl (fun a b => issueBatch half b a) (s, x)).1 = s := by
  induction ls generalizing x with
  | nil => rfl
  | cons b ls ih =>
    rw [List.foldl_cons, issueBatch_of_halted hx]
    exact ih hx

/-- The first batch begins with the first transfer. -/
theorem batches_cons (t : Nat × Nat × Nat) (l : List (Nat × Nat × Nat)) : ∃ b bs, batches (t :: l) = (t :: b) :: bs := by
  have hsome : cdiv (t :: l).length 512 = (cdiv (t :: l).length 512 - 1) + 1 := by
    simp only [cdiv, List.length_cons]
    omega
  unfold batches
  rw [hsome, List.range_succ_eq_map, List.map_cons]
  exact ⟨_, _, rfl⟩

/-- Transfers whose first may not use its page are kept in their half: the stream halts there. -/
theorem issueInto_halts (hx : x.halted = none) (hwhy : haltReason s (pageOf a) false false = some why) :
    ∃ v y z, issueInto s x half ((w, a, n) :: l) = setStream (haltStream v y (pageOf a) why) z
      ∧ lookPart { v with streams := [] } = lookPart { s with streams := [] }
      ∧ y.halted = none ∧ y.tag = x.tag ∧ haltOf y (pageOf a) why = haltOf x (pageOf a) why := by
  obtain ⟨b, bs, hbatches⟩ := batches_cons (w, a, n) l
  have hlook := lookPart_lookupBatch (setStream s x) x ((w, a, n) :: b)
  have hpage : haltReason (lookupBatch (setStream s x) x ((w, a, n) :: b)) (pageOf a) false false = some why :=
    (haltReason_of_lookPart hlook _ _ _).trans hwhy
  unfold issueInto
  rw [hbatches, List.foldl_cons, issueBatch_of_running hx, issueList_halts hpage]
  dsimp only
  rw [issueBatches_of_halted bs rfl]
  refine ⟨_, _, _, rfl, ?_, hx, rfl, rfl⟩
  exact (congrArg (fun u : State => { u with streams := [] }) hlook :)

end

@[simp] theorem issuePart_issueInto (s : State) (x : Stream) (half : Nat) (l : List (Nat × Nat × Nat)) :
    issuePart (issueInto s x half l) = issuePart s := by
  unfold issueInto
  dsimp only
  rw [issuePart_setStream]
  exact (issuePart_issueBatches half _ _).trans (issuePart_setStream _ _)

@[simp] theorem issuePart_fillHalf (s : State) (x : Stream) (half : Nat) (l : List (Nat × Nat × Nat)) :
    issuePart (fillHalf s x half l) = issuePart s := by
  simp [fillHalf]

@[simp] theorem issuePart_fillCrated (s : State) (x : Stream) (half : Nat) : issuePart (fillCrated s x half) = issuePart s := by
  unfold fillCrated
  dsimp only
  simp only [apply_ite issuePart, issuePart_issueInto, issuePart_fillHalf, issuePart_bump, ite_self]

/-- A half filled with transfers whose first may not use its page: the run is paused by the halt there, and no read is issued. -/
theorem fillHalf_halts {s : State} {x : Stream} {r : Run} {half w a n why : Nat} {l : List (Nat × Nat × Nat)}
    (hlive : s.live x.tag = some r) (hr : r.stopping = none) (hx : x.halted = none)
    (hwhy : haltReason s (pageOf a) false false = some why) :
    (fillHalf s x half ((w, a, n) :: l)).live x.tag =
        some { r with state := 2, halts := r.halts ++ [haltOf x (pageOf a) why], interim := true }
      ∧ (fillHalf s x half ((w, a, n) :: l)).xfers = s.xfers := by
  have hwhy' : haltReason (s.bump Ctr.streamBatches x.core (cdiv ((w, a, n) :: l).length 512)) (pageOf a) false false = some why :=
    (haltReason_of_lookPart (lookPart_bump _ _ _ _) _ _ _).trans hwhy
  obtain ⟨v, y, z, hfill, hpart, hy, htag, hhalt⟩ := issueInto_halts
    (x := ({ x with last := half } : Stream).onHalf half (fun _ =>
      { state := 1, parts := ((w, a, n) :: l).map (fun t => (t.1, t.2.2)) }))
    (half := half) (w := w) (n := n) (l := l) hx hwhy'
  have hruns : v.runs = s.runs := (congrArg State.runs hpart :).trans (bump_runs _ _ _ _)
  have hxfers : v.xfers = s.xfers := (congrArg State.xfers hpart :).trans (bump_xfers _ _ _ _)
  have hfilled : fillHalf s x half ((w, a, n) :: l) = setStream (haltStream v y (pageOf a) why) z := hfill
  have hv : v.live y.tag = some r := (live_of_runs hruns _).trans ((congrArg s.live htag).trans hlive)
  have hpaused := live_haltStream hv hr hy (pageOf a) why
  rw [htag, hhalt] at hpaused
  rw [hfilled]
  exact ⟨hpaused, (haltStream_xfers _ _ _ _).trans hxfers⟩

/-! HALF_FILL (R178, R180, R181). -/

/-- A read stream has the tag by which it is found. -/
theorem tag_of_readStream {s : State} {t i p op : Nat} {x : Stream} (h : readStream s t i p op = some x) : x.tag = t := by
  have hfound := List.find?_some h
  simp only [Bool.and_eq_true, beq_iff_eq] at hfound
  obtain ⟨⟨⟨⟨htag, -⟩, -⟩, -⟩, -⟩ := hfound
  exact htag

/-- A crated stream whose headers are all taken up waits while one of them has not landed (R181). -/
theorem fillCrated_waits {s : State} {x : Stream} (hheads : x.heads ≠ []) (hrest : (takeFill x.halfSize x.pay).2 = []) (half : Nat) :
    fillCrated s x half = s := by
  simp [fillCrated, hheads, hrest]

/-- A crated stream that has nothing left to fetch is left alone. -/
theorem fillCrated_done {s : State} {x : Stream} (hplan : x.plan = []) (hpay : x.pay = []) (hheads : x.heads = []) (half : Nat) :
    fillCrated s x half = s := by
  simp [fillCrated, hplan, hpay, hheads, takeFill]

section
variable {s : State} {t i p op : Nat} {r : Run} {x : Stream} (hlive : s.live t = some r) (hread : readStream s t i p op = some x)
  (hplanned : x.planned = true)
include hlive hread hplanned

theorem exec_halfFill_skips (h : x.halted.isSome = true ∨ runIssues s r p = false ∨ nextHalf x = none) :
    exec (.halfFill t i p op) s = .next s := by
  have hsame : planned s r x = x := if_pos hplanned
  refine congrArg Host.Outcome.next ?_
  simp only [hlive, hread, hsame]
  rcases h with h | h | h
  · simp [h]
  · simp [h]
  · simp [h]

variable (hhalted : x.halted = none) (hissues : runIssues s r p = true) {h : Nat} (hnext : nextHalf x = some h)
include hhalted hissues hnext

theorem exec_halfFill_raw (hraw : (getView s r i p op).d.form = 0) : exec (.halfFill t i p op) s =
    .next (if (takeFill x.halfSize x.plan).1 = [] then s
      else fillHalf s { x with plan := (takeFill x.halfSize x.plan).2 } h (takeFill x.halfSize x.plan).1) := by
  have hsame : planned s r x = x := if_pos hplanned
  refine congrArg Host.Outcome.next ?_
  simp [hlive, hread, hsame, hhalted, hissues, hnext, hraw]

theorem exec_halfFill_crated (hcrated : (getView s r i p op).d.form ≠ 0) :
    exec (.halfFill t i p op) s = .next (fillCrated s x h) := by
  have hsame : planned s r x = x := if_pos hplanned
  refine congrArg Host.Outcome.next ?_
  simp [hlive, hread, hsame, hhalted, hissues, hnext, hcrated]

end

section
variable {s : State} {t i p op : Nat} {r : Run} {x : Stream} (hlive : s.live t = some r) (hread : readStream s t i p op = some x)
  (hplanned : x.planned = true)
include hlive hread hplanned

/-- A stream that has nothing left to fetch, or waits for a header, is left alone. -/
theorem exec_halfFill_done (hdone : (x.plan = [] ∧ ((getView s r i p op).d.form = 0 ∨ (x.pay = [] ∧ x.heads = [])))
    ∨ ((getView s r i p op).d.form ≠ 0 ∧ x.heads ≠ [] ∧ (takeFill x.halfSize x.pay).2 = [])) :
    exec (.halfFill t i p op) s = .next s := by
  by_cases hskip : x.halted.isSome = true ∨ runIssues s r p = false ∨ nextHalf x = none
  · exact exec_halfFill_skips hlive hread hplanned hskip
  · simp only [not_or, Bool.not_eq_true, Option.isSome_eq_false_iff, Option.isNone_iff_eq_none, Bool.not_eq_false] at hskip
    obtain ⟨hhalted, hissues, hnext⟩ := hskip
    obtain ⟨h, hnext⟩ := Option.ne_none_iff_exists'.mp hnext
    by_cases hraw : (getView s r i p op).d.form = 0
    · have hplan : x.plan = [] := by
        rcases hdone with ⟨hplan, -⟩ | ⟨hcrated, -⟩
        · exact hplan
        · exact absurd hraw hcrated
      rw [exec_halfFill_raw hlive hread hplanned hhalted hissues hnext hraw, hplan]
      rfl
    · rw [exec_halfFill_crated hlive hread hplanned hhalted hissues hnext hraw]
      rcases hdone with ⟨hplan, hleft⟩ | ⟨-, hheads, hrest⟩
      · obtain ⟨hpay, hheads⟩ := hleft.resolve_left hraw
        rw [fillCrated_done hplan hpay hheads]
      · rw [fillCrated_waits hheads hrest]

/-- A fill whose first transfer may not use its page: the run is paused by the halt there, no read is issued and no byte of memory
changes. -/
theorem exec_halfFill_halts (hhalted : x.halted = none) (hissues : runIssues s r p = true) {h w a n why : Nat}
    {rest : List (Nat × Nat × Nat)} (hplan : x.plan = (w, a, n) :: rest) (hnext : nextHalf x = some h)
    (hraw : (getView s r i p op).d.form = 0) (hfits : n ≤ x.halfSize) (hwhy : haltReason s (pageOf a) false false = some why) :
    ∃ u y, exec (.halfFill t i p op) s = .next u ∧ u.live t = some y ∧ y.state = 2
      ∧ y.halts = r.halts ++ [haltOf x (pageOf a) why] ∧ u.xfers = s.xfers ∧ u.mem = s.mem := by
  have htag := tag_of_readStream hread
  obtain ⟨taken, left, htake⟩ : ∃ taken left, takeFill x.halfSize x.plan = ((w, a, n) :: taken, left) := by
    rw [hplan, takeFill, if_neg (Nat.not_lt.mpr hfits)]
    exact ⟨_, _, rfl⟩
  obtain ⟨hpaused, hxfers⟩ := fillHalf_halts (x := { x with plan := left }) (half := h) (w := w) (n := n) (l := taken)
    ((congrArg s.live htag).trans hlive) (stopping_of_runIssues hissues) hhalted hwhy
  have hexec := exec_halfFill_raw hlive hread hplanned hhalted hissues hnext hraw
  rw [htake, if_neg (List.cons_ne_nil _ _)] at hexec
  exact ⟨_, _, hexec, (congrArg (State.live _) htag.symm).trans hpaused, rfl, rfl, hxfers,
    (congrArg State.mem (issuePart_fillHalf ..) :)⟩

end

/-! A read that returns (R178, R188, R192). -/

/-- The state without a read in flight. -/
def withoutRead (s : State) (id : Nat) : State := { s with xfers := s.xfers.filter (fun y => y.id != id) }

/-- The stream that a read in flight is for. -/
def readerOf (s : State) (f : Xfer) : Option Stream :=
  s.streams.find? (fun x => x.tag == f.tag && x.mi == f.mi && x.core == f.core && x.operand == f.operand && !x.write)

theorem tag_of_readerOf {s : State} {f : Xfer} {x : Stream} (h : readerOf s f = some x) : x.tag = f.tag := by
  have hfound := List.find?_some h
  simp only [Bool.and_eq_true, beq_iff_eq] at hfound
  obtain ⟨⟨⟨⟨htag, -⟩, -⟩, -⟩, -⟩ := hfound
  exact htag

/-- A stream that is to fetch the bytes of a read again. -/
def Stream.refetch (x : Stream) (f : Xfer) : Stream :=
  x.onHalf f.half (fun h => { h with
    todo := (f.item, f.addr, f.len) :: h.todo, waiting := h.waiting.filter (fun k => k != f.id) })

theorem returnRead_discarded {s : State} {f : Xfer} (hf : f.discard = true) (d : Option (List Byte)) (lost : Bool) :
    returnRead s f d lost = withoutRead s f.id := if_pos hf

section
variable {s : State} {f : Xfer} {x : Stream} {r : Run} (hf : f.discard = false) (hx : readerOf s f = some x)
  (hlive : s.live f.tag = some r)
include hf hx hlive

theorem returnRead_lands (b : List Byte) : returnRead s f (some b) false =
    landBytes (withoutRead s f.id) (getView s r f.mi x.pos f.operand).d x f (slice b 0 f.len) := by
  have hview : getView (withoutRead s f.id) r f.mi x.pos f.operand = getView s r f.mi x.pos f.operand := getView_of_tensors rfl ..
  unfold readerOf at hx
  unfold returnRead
  dsimp only
  rw [if_neg (by simp [hf]), hx]
  dsimp only
  rw [show State.live { s with xfers := s.xfers.filter (fun y => y.id != f.id) } f.tag = some r from hlive, ← hview]
  rfl

theorem returnRead_lost (d : Option (List Byte)) : returnRead s f d true = failMacro (withoutRead s f.id) f.tag f.mi eDataLost := by
  unfold readerOf at hx
  unfold returnRead
  dsimp only
  rw [if_neg (by simp [hf]), hx]
  dsimp only
  rw [show State.live { s with xfers := s.xfers.filter (fun y => y.id != f.id) } f.tag = some r from hlive]
  rfl

theorem returnRead_unserved : returnRead s f none false =
    haltStream (setStream (withoutRead s f.id) (x.refetch f)) (x.refetch f) (pageOf f.addr) (if f.kind = 2 then 2 else 3) := by
  unfold readerOf at hx
  unfold returnRead
  dsimp only
  rw [if_neg (by simp [hf]), hx]
  dsimp only
  rw [show State.live { s with xfers := s.xfers.filter (fun y => y.id != f.id) } f.tag = some r from hlive]
  rfl

/-- A read that a peer or host did not serve halts its stream: the run is paused. -/
theorem live_returnRead_unserved (hr : r.stopping = none) (hhalted : x.halted = none) : ∃ y,
    (returnRead s f none false).live f.tag = some y ∧ y.state = 2 ∧ (returnRead s f none false).mem = s.mem := by
  have htag : (x.refetch f).tag = f.tag := (tag_of_readerOf hx :)
  have hpaused := live_haltStream (s := setStream (withoutRead s f.id) (x.refetch f)) (x := x.refetch f)
    ((congrArg s.live htag).trans hlive) hr hhalted (pageOf f.addr) (if f.kind = 2 then 2 else 3)
  rw [htag] at hpaused
  rw [returnRead_unserved hf hx hlive]
  exact ⟨_, hpaused, rfl, haltStream_mem _ _ _ _⟩

end

/-- Counting the bytes that DDR delivers changes the counters alone. -/
theorem countRead_eq (s : State) (a n : Nat) : countRead s a n = { s with counters := (countRead s a n).counters } := by
  have hleft : { countRead s a n with counters := [] } = { s with counters := [] } := by
    refine foldl_leaves (g := fun u : State => { u with counters := [] }) (fun u b => ?_) _ _
    split
    · unfold State.bump
      split <;> rfl
    · rfl
  exact (congrArg (fun u : State => { u with counters := (countRead s a n).counters }) hleft :)

section
variable {s : State} {id : Nat} {f : Xfer} (hf : s.xfers.find? (fun f => f.id == id) = some f)
include hf

theorem id_of_found : f.id = id := by simpa using List.find?_some hf

theorem exec_transferLand_remote (hkind : f.kind ≠ 1) (d : Option (List Byte)) : exec (.transferLand id d) s =
    .next (returnRead s f (if f.kind = 3 ∧ qpUp s f.peer = false then none else d) false) := by
  refine congrArg Host.Outcome.next ?_
  simp [hf, hkind]

theorem exec_transferLand_busy (hkind : f.kind = 1) (hbusy : ddrBusy s f.target f.len false = true) (d : Option (List Byte)) :
    exec (.transferLand id d) s = .next s := by
  refine congrArg Host.Outcome.next ?_
  simp [hf, hkind, hbusy]

theorem exec_transferLand_local (hkind : f.kind = 1) (hfree : ddrBusy s f.target f.len false = false) (d : Option (List Byte)) :
    exec (.transferLand id d) s = .next (returnRead (countRead s f.target f.len) f (ddrRead s f.target f.len)
      (ddrRead s f.target f.len).isNone) := by
  refine congrArg Host.Outcome.next ?_
  simp [hf, hkind, hfree]

end

/-! A write that returns (R172, R179, R185, R188). -/

/-- The state without a write on a core's write path. -/
def withoutWrite (s : State) (core id : Nat) : State :=
  s.onCore core (fun c => { c with writes := c.writes.filter (fun y => y.id != id) })

/-- A write overlaps one issued before it on its path. -/
def overtakes (s : State) (core id : Nat) (f : Xfer) : Bool :=
  ((s.core core).writes.takeWhile (fun y => y.id != id)).any (fun y =>
    y.kind == f.kind && y.peer == f.peer && overlap y.target y.len f.target f.len)

/-- The stream that a write is of. -/
def writerOf (s : State) (f : Xfer) : Option Stream :=
  s.streams.find? (fun x => x.tag == f.tag && x.mi == f.mi && x.core == f.core && x.operand == f.operand && x.write)

theorem tag_of_writerOf {s : State} {f : Xfer} {x : Stream} (h : writerOf s f = some x) : x.tag = f.tag := by
  have hfound := List.find?_some h
  simp only [Bool.and_eq_true, beq_iff_eq] at hfound
  obtain ⟨⟨⟨⟨htag, -⟩, -⟩, -⟩, -⟩ := hfound
  exact htag

/-- A stream that is to make a write again before its others. -/
def Stream.rewrite (x : Stream) (f : Xfer) : Stream := { x with toWrite := f :: x.toWrite }

theorem returnWrite_unserved {s : State} {f : Xfer} {x : Stream} (hx : writerOf s f = some x) (core : Nat) :
    returnWrite s core f false false = haltStream (setStream (withoutWrite s core f.id) (x.rewrite f)) (x.rewrite f) (pageOf f.addr)
      (if f.kind = 2 then 2 else 3) := by
  unfold writerOf at hx
  unfold returnWrite
  rw [if_neg (by decide), if_neg (by decide)]
  simp only [State.onCore, State.setCore_streams, hx]
  rfl

/-- A write that its peer or host did not serve is at the head of its stream again, which halts: the run is paused. -/
theorem live_returnWrite_unserved {s : State} {f : Xfer} {x : Stream} {r : Run} (hx : writerOf s f = some x)
    (hlive : s.live f.tag = some r) (hr : r.stopping = none) (hhalted : x.halted = none) (core : Nat) : ∃ y,
      (returnWrite s core f false false).live f.tag = some y ∧ y.state = 2 ∧ (returnWrite s core f false false).mem = s.mem := by
  have htag : (x.rewrite f).tag = f.tag := (tag_of_writerOf hx :)
  have hpaused := live_haltStream (s := setStream (withoutWrite s core f.id) (x.rewrite f)) (x := x.rewrite f)
    ((congrArg s.live htag).trans hlive) hr hhalted (pageOf f.addr) (if f.kind = 2 then 2 else 3)
  rw [htag] at hpaused
  rw [returnWrite_unserved hx]
  exact ⟨_, hpaused, rfl, haltStream_mem _ _ _ _⟩

section
variable {s : State} {core id : Nat} {f : Xfer} (hf : (s.core core).writes.find? (fun f => f.id == id) = some f)
include hf

theorem id_of_foundWrite : f.id = id := by simpa using List.find?_some hf

theorem exec_writeComplete_waits (h : overtakes s core id f = true ∨ (f.kind = 1 ∧ ddrBusy s f.target f.len true = true))
    (ok : Bool) : exec (.writeComplete core id ok) s = .next s := by
  unfold overtakes at h
  refine congrArg Host.Outcome.next ?_
  simp only [hf]
  rcases h with h | ⟨hkind, hbusy⟩
  · rw [if_pos h]
  · rw [if_pos (⟨hkind, hbusy⟩ : f.kind = 1 ∧ ddrBusy s f.target f.len true = true), ite_self]

variable (hclash : overtakes s core id f = false)
include hclash

theorem exec_writeComplete_local (hkind : f.kind = 1) (hfree : ddrBusy s f.target f.len true = false) (ok : Bool) :
    exec (.writeComplete core id ok) s = .next (returnWrite (applyWrite s f).1 core f true (!(applyWrite s f).2)) := by
  unfold overtakes at hclash
  refine congrArg Host.Outcome.next ?_
  simp only [hf, hclash]
  rw [if_neg (by decide), if_neg (by simp [hfree]), if_pos hkind]

theorem exec_writeComplete_remote (hkind : f.kind ≠ 1) (ok : Bool) : exec (.writeComplete core id ok) s =
    .next (returnWrite s core f (ok && (f.kind != 3 || qpUp s f.peer)) false) := by
  unfold overtakes at hclash
  refine congrArg Host.Outcome.next ?_
  simp only [hf, hclash, Bool.false_eq_true, if_false, hkind, false_and]

end

/-- A local read that DDR serves lands from the state that has counted its bytes (R320). -/
theorem returnRead_counted {s : State} {f : Xfer} {x : Stream} {r : Run} (hf : f.discard = false) (hx : readerOf s f = some x)
    (hlive : s.live f.tag = some r) (b : List Byte) : returnRead (countRead s f.target f.len) f (some b) false =
      landBytes { countRead s f.target f.len with xfers := (withoutRead s f.id).xfers }
        (getView s r f.mi x.pos f.operand).d x f (slice b 0 f.len) := by
  have heq := countRead_eq s f.target f.len
  have hreader : readerOf (countRead s f.target f.len) f = some x := by rw [heq]; exact hx
  have hrun : (countRead s f.target f.len).live f.tag = some r := by rw [heq]; exact hlive
  have hview : getView (countRead s f.target f.len) r f.mi x.pos f.operand = getView s r f.mi x.pos f.operand :=
    getView_of_tensors (congrArg State.tensors heq :) ..
  have hrest : withoutRead (countRead s f.target f.len) f.id =
      { countRead s f.target f.len with xfers := (withoutRead s f.id).xfers } :=
    congrArg (fun l : List Xfer => { countRead s f.target f.len with xfers := l.filter (fun y => y.id != f.id) })
      (congrArg State.xfers heq :)
  rw [returnRead_lands hf hreader hrun, hview, hrest]

/-- A read whose data DDR has lost stops its run with E_DATA_LOST. -/
theorem live_returnRead_lost {s : State} {f : Xfer} {x : Stream} {r : Run} (hf : f.discard = false) (hx : readerOf s f = some x)
    (hlive : s.live f.tag = some r) (hr : r.stopping = none) (d : Option (List Byte)) :
    ∃ y, (returnRead (countRead s f.target f.len) f d true).live f.tag = some y ∧ y.stopping = some eDataLost
      ∧ y.failMi = f.mi := by
  have heq := countRead_eq s f.target f.len
  have hreader : readerOf (countRead s f.target f.len) f = some x := by rw [heq]; exact hx
  have hrun : (countRead s f.target f.len).live f.tag = some r := by rw [heq]; exact hlive
  rw [returnRead_lost hf hreader hrun]
  exact live_failMacro (s := withoutRead (countRead s f.target f.len) f.id) hrun hr f.mi eDataLost

theorem returnWrite_lost (s : State) (core : Nat) (f : Xfer) (ok : Bool) :
    returnWrite s core f ok true = failMacro (withoutWrite s core f.id) f.tag f.mi eDataLost := rfl

theorem returnWrite_served (s : State) (core : Nat) (f : Xfer) :
    returnWrite s core f true false = issueWrites (withoutWrite s core f.id) := rfl

/-- Settles O29: HALF_FILL by whether the stream may fetch and by its first page, TRANSFER_LAND and WRITE_COMPLETE by what DDR, the
peer or the host did. -/
theorem streams : Obligations.Streams := by
  unfold Obligations.Streams
  refine ⟨fun s t i p op r x hlive hread hplanned => ?fill, fun s id f hf => ?land, fun s core id ok f hf => ?complete⟩
  case fill =>
    intro raw
    refine ⟨fun hidle => ?idle, fun h hhalted hissues hnext => ?fills,
      fun h w a n rest why hhalted hplan hissues hnext hraw hfits hwhy =>
        exec_halfFill_halts hlive hread hplanned hhalted hissues hplan hnext hraw hfits hwhy⟩
    case idle =>
      rcases hidle with h | h | h | h | h
      · exact exec_halfFill_skips hlive hread hplanned (.inl h)
      · exact exec_halfFill_skips hlive hread hplanned (.inr (.inl h))
      · exact exec_halfFill_skips hlive hread hplanned (.inr (.inr h))
      · exact exec_halfFill_done hlive hread hplanned (.inl h)
      · exact exec_halfFill_done hlive hread hplanned (.inr h)
    case fills =>
      intro q
      by_cases hraw : raw
      · have hexec := exec_halfFill_raw hlive hread hplanned hhalted hissues hnext hraw
        by_cases hq : q.1 = []
        · exact ⟨_, hexec.trans (congrArg _ (if_pos hq)), rfl, fun _ hne => absurd hq hne, fun hcrated => absurd hraw hcrated⟩
        · exact ⟨_, hexec.trans (congrArg _ (if_neg hq)), (congrArg State.mem (issuePart_fillHalf s _ h _) :), fun _ _ => rfl,
            fun hcrated => absurd hraw hcrated⟩
      · exact ⟨_, exec_halfFill_crated hlive hread hplanned hhalted hissues hnext hraw,
          (congrArg State.mem (issuePart_fillCrated s x h) :), fun h => absurd h hraw, fun _ => rfl⟩
  case land =>
    intro s1
    have hs1 : withoutRead s f.id = s1 := congrArg (withoutRead s) (id_of_found hf)
    refine ⟨fun d hkind hdiscard => ?_, fun x r hf' hlive hr hx => ⟨fun b hkind hup => ?_,
      fun d hkind hbusy => exec_transferLand_busy hf hkind hbusy d, fun b d hkind hfree hb => ?_, fun d hkind hnone hhalted => ?_,
      fun d hkind hfree hb => ?_⟩⟩
    · rw [exec_transferLand_remote hf hkind, returnRead_discarded hdiscard, hs1]
    · rw [exec_transferLand_remote hf hkind, if_neg (by rcases hup with h | h <;> simp [h]), returnRead_lands hf' hx hlive, hs1]
      rw [getView_of_tensors (s := s) (u := s1) rfl]
    · rw [exec_transferLand_local hf hkind hfree, hb, Option.isNone_some, returnRead_counted hf' hx hlive, hs1]
      rw [getView_of_tensors (s := s) (u := s1) rfl]
    · have hd : (if f.kind = 3 ∧ qpUp s f.peer = false then none else d) = none := by
        rcases hnone with h | h
        · rw [h, ite_self]
        · rw [if_pos h]
      obtain ⟨y, hy, hstate, hmem⟩ := live_returnRead_unserved hf' hx hlive hr hhalted
      exact ⟨_, y, (exec_transferLand_remote hf hkind d).trans (by rw [hd]), hy, hstate, hmem⟩
    · obtain ⟨y, hy, hstop, hmi⟩ := live_returnRead_lost hf' hx hlive hr none
      exact ⟨_, y, (exec_transferLand_local hf hkind hfree d).trans (by rw [hb]; rfl), hy, hstop, hmi⟩
  case complete =>
    intro before clash off busy
    have hoff (v : State) : withoutWrite v core f.id = off v := congrArg (withoutWrite v core) (id_of_foundWrite hf)
    refine ⟨fun h => exec_writeComplete_waits hf h ok, fun v hclash hkind hfree hv => ?_, fun v hclash hkind hfree hv => ?_,
      fun hclash hkind hok hup => ?_, fun x r hclash hkind hno hlive hr hhalted hx => ?_⟩
    · refine ⟨_, exec_writeComplete_local hf hclash hkind hfree ok, ?_, ?_⟩
      · rw [hv, Bool.not_true, returnWrite_served, hoff]
      · rw [hv, Bool.not_true, returnWrite_served]
        exact issueWrites_mem _
    · rw [exec_writeComplete_local hf hclash hkind hfree ok, hv, Bool.not_false, returnWrite_lost, hoff]
    · have hserved : (ok && (f.kind != 3 || qpUp s f.peer)) = true := by
        rcases hup with h | h <;> simp [hok, h]
      refine ⟨_, exec_writeComplete_remote hf hclash hkind ok, ?_, ?_⟩
      · rw [hserved, returnWrite_served, hoff]
      · rw [hserved, returnWrite_served]
        exact issueWrites_mem _
    · have hunserved : (ok && (f.kind != 3 || qpUp s f.peer)) = false := by
        rcases hno with h | ⟨h, hdown⟩
        · rw [h, Bool.false_and]
        · simp [h, hdown]
      obtain ⟨y, hy, hstate, hmem⟩ := live_returnWrite_unserved hx hlive hr hhalted core
      exact ⟨_, y, (exec_writeComplete_remote hf hclash hkind ok).trans (by rw [hunserved]), hy, hstate, hmem⟩

end Sys2Proof.Machine
end

section
/-!
SUPPORT. A rotation's send that fails (R140, R192, R195, R411): the step is counted, and then the reads in flight of the run that
stops are counted too. The counter of the step is named by its core alone, whose number the statement bounds for the walk and not
for those reads.
-/

namespace Sys2Proof.Machine

/-- A ROTATE that has begun on core 0. -/
def sendingWalk : Walk := { set := true }

/-- The run of that ROTATE, in progress. -/
def sendingRun : Run := { tag := 1, prog := { team := [0], recs := [{ opcode := opRotate }] }, state := 1, walks := [sendingWalk] }

/-- Its rotation: the first step's slice of 4 KiB stands in buffer 0, and goes to core 1 of this device. -/
def sendingRot : Rot :=
  { tag := 1, steps := 2, period := 1, sliceBytes := 4096, buf := [0, 4096], stallLimit := 1, succ := [(0xFFFF, 1)]
    tags := [some 0, none], complete := [true, false] }

/-- A read of 32 bytes of that run is in flight for a core of number 65,536. -/
def strayRead : Xfer := { tag := 1, core := 65536, len := 32 }

/-- The first word of the buffer is lost, so that sending the slice stops the run. -/
def lostSend : State :=
  { State.reset with
    runs := [sendingRun], rots := [sendingRot], xfers := [strayRead], mem := { State.reset.mem with shelfPoison := [0] } }

theorem rotAt_lostSend : rotAt lostSend 1 0 0 = some sendingRot := by decide +kernel

theorem walkOf_lostSend : walkOf lostSend 1 0 0 = some (sendingRun, sendingWalk) := by decide +kernel

/-- CANCEL_WASTED_BYTES of core 65,536 has the place of ROTATE_STEPS of core 0: the step and the 32 bytes discarded both count
there. -/
theorem counter_lostSend {u : State} (hu : exec (.rotateStep 1 0 0) lostSend = .next u) : u.counter Ctr.rotateSteps 0 = 33 := by
  obtain rfl := Host.Outcome.next.inj hu
  decide +kernel

/-- Refutes O30: ROTATE_STEPS grows by more than one where the send stops its run and a read of the run is in flight for a core whose
number no premise bounds; the statement bounds the walk's core alone. -/
theorem not_rotation : ¬ Obligations.Rotation := by
  unfold Obligations.Rotation
  intro hrotation
  obtain ⟨-, hflow, -⟩ := hrotation
  obtain ⟨hstep, -⟩ := hflow lostSend 1 0 0 sendingRot rotAt_lostSend
  obtain ⟨-, -, hsend⟩ := hstep sendingRun sendingWalk walkOf_lostSend
  obtain ⟨u, hu, hcount, -⟩ := hsend (by decide) (by decide) (by decide) (by decide) (by decide)
  have hstart : lostSend.counter Ctr.rotateSteps 0 = 0 := by decide +kernel
  have hone : u.counter Ctr.rotateSteps 0 = min (lostSend.counter Ctr.rotateSteps 0 + 1) (2 ^ 64 - 1) := hcount
  rw [counter_lostSend hu, hstart] at hone
  exact absurd hone (by decide)

end Sys2Proof.Machine
end

section
/-!
SUPPORT. Row functions and the fused update (R219 to R223, R228 to R231): what a position's row work leaves once its rows are written,
and what ROWOP, ROWOP_BWD and UPDATE_SLICE do with a walk.
-/

namespace Sys2Proof.Machine

/-- Beginning to read leaves the write streams, and so what of them is not issued. -/
theorem unissued_reach (s : State) (t i p : Nat) (ops : List Nat) (item t' i' p' : Nat) :
    unissued (reach s t i p ops item) t' i' p' = unissued s t' i' p' := by
  unfold unissued reach
  dsimp only
  split
  case isTrue =>
    rw [mapIf, List.any_map]
    refine congrArg (List.any s.streams) (funext fun x => ?_)
    dsimp only [Function.comp_apply]
    split <;> rfl
  case isFalse => rfl

/-! Rows written (R219, R222). -/

/-- The rows of a position's share as its operands give them. -/
def computeRows (s : State) (r : Run) (w : Walk) : Except RdErr (List (Nat × List Val × Val × Val × Bool)) := do
  let us ← walkUnits s r w.mi w.pos
  us.mapM (fun u => do let y ← computeRow s r w u; .ok (u, y))

/-- One computed row written, and with a ROWOP its statistics: the state and the flags so far. -/
def writeComputed (r : Run) (w : Walk) (acc : State × Nat) (x : Nat × List Val × Val × Val × Bool) :
    Except WrErr (State × Nat) :=
  (writeRow acc.1 r w x.1 x.2.1 x.2.2.2.2).bind fun y =>
    if (r.mrec w.mi).opcode = opRowop then (writeStats y.1 r w x.1 x.2.2.1 x.2.2.2.1).bind fun t => .ok (t, acc.2 ||| y.2)
    else .ok (y.1, acc.2 ||| y.2)

section
variable {s v : State} {r : Run} {w w0 : Walk}

theorem writeComputed_of_rowop (hop : (r.mrec w.mi).opcode = opRowop) (acc : State × Nat)
    (x : Nat × List Val × Val × Val × Bool) : writeComputed r w acc x = (writeRow acc.1 r w x.1 x.2.1 x.2.2.2.2).bind fun y =>
      (writeStats y.1 r w x.1 x.2.2.1 x.2.2.2.1).bind fun t => .ok (t, acc.2 ||| y.2) := by
  simp only [writeComputed, hop, if_true]

theorem writeComputed_of_rowopBwd (hop : (r.mrec w.mi).opcode = opRowopBwd) (acc : State × Nat)
    (x : Nat × List Val × Val × Val × Bool) :
    writeComputed r w acc x = (writeRow acc.1 r w x.1 x.2.1 x.2.2.2.2).bind fun y => .ok (y.1, acc.2 ||| y.2) := by
  have hne : (r.mrec w.mi).opcode ≠ opRowop := by
    rw [hop]
    decide
  simp only [writeComputed, hne, if_false]

/-- Row work that is done ends on any state that differs only in what issuing writes may change. -/
theorem workEnded_endRows {t : State} (hpart : issuePart t = issuePart v) (hw : walkAt t r.tag w.mi w.pos = some w0) (flags : Nat) :
    Safety.WorkEnded v (endRows t r w flags) r.tag w.mi w.pos := by
  have hwalk : walkAt (issueWrites (logFlags t r.tag w.mi w.pos flags)) r.tag w.mi w.pos = some w0 := by
    rw [walkAt_issueWrites, walkAt_logFlags, hw]
  have hissued : issuePart (issueWrites (logFlags t r.tag w.mi w.pos flags)) = issuePart v := by
    rw [issuePart_issueWrites, issuePart_logFlags, hpart]
  obtain ⟨hframe, hend, hwait⟩ := workEnded_endUnit hwalk w.core
  exact ⟨issueFrame_iff.mpr ((issueFrame_iff.mp hframe).trans hissued), hend, hwait⟩

/-- Without a loft copy, row work writes the rows that it has computed, counts the loft bytes it read, and ends. -/
theorem rowWork_of_written (hloft : loftCopies r w.mi = []) {rows : List (Nat × List Val × Val × Val × Bool)}
    (hrows : computeRows s r w = .ok rows) {fl : Nat} (hv : rows.foldlM (writeComputed r w) (s, 0) = .ok (v, fl)) :
    ∃ n, rowWork s r w = endRows (v.bump Ctr.loftBytesRead w.core n) r w fl := by
  unfold computeRows at hrows
  simp only [rowWork, hrows, hloft, List.foldl_nil]
  split
  case h_1 hfail => cases hfail.symm.trans hv
  case h_2 hdone =>
    cases hdone.symm.trans hv
    exact ⟨_, rfl⟩

theorem workEnded_rowWork (hloft : loftCopies r w.mi = []) {rows : List (Nat × List Val × Val × Val × Bool)}
    (hrows : computeRows s r w = .ok rows) {fl : Nat} (hv : rows.foldlM (writeComputed r w) (s, 0) = .ok (v, fl))
    (hw : walkAt v r.tag w.mi w.pos = some w0) : Safety.WorkEnded v (rowWork s r w) r.tag w.mi w.pos := by
  obtain ⟨n, hwork⟩ := rowWork_of_written hloft hrows hv
  rw [hwork]
  exact workEnded_endRows (issuePart_bump ..) ((walkAt_bump ..).trans hw) fl

/-! The fused update (R228, R230, R231). -/

theorem updateWork_of_updated {us : List Nat} (hus : walkUnits s r w.mi w.pos = .ok us) (hv : updateRows s r w us = .ok (.ok v)) :
    updateWork s r w = endRows v r w 0 := by
  have hgot : (do let us ← walkUnits s r w.mi w.pos; updateRows s r w us) = Except.ok (.ok v) := by
    rw [hus]
    exact hv
  simp only [updateWork, hgot]

/-- A walk with work items left does not end. -/
theorem settle_of_units {t i p : Nat} (hw : walkAt s t i p = some w) (hne : w.units ≠ []) : settle s t i p = s := by
  obtain ⟨x, hx⟩ := walkAt_eq_some_iff.mp hw
  simp [settle, hx, Walk.spent, hne]

/-- A chained update forms its slices: its walk has then the slices of its position's share to update. -/
theorem formChain_forms {j : Nat} {g : Push} (hw : walkAt s r.tag w.mi w.pos = some w) (hset : w.set = false)
    (hpush : ownPush s r.tag j = some g) {us : List Nat}
    (hus : shareList (sliceCount (getView s r w.mi w.pos 0)) r.prog.team.length w.pos = us) (hne : us ≠ []) :
    formChain s r w j =
      s.onWalk r.tag w.mi w.pos (fun w => { w with set := true, units := us, loftDone := true }) := by
  have hformed : walkAt (s.onWalk r.tag w.mi w.pos (fun w => { w with set := true, units := us, loftDone := true }))
      r.tag w.mi w.pos = some { w with set := true, units := us, loftDone := true } := by
    rw [walkAt_onWalk (by intros; rfl) (by intros; rfl), hw, Option.map_some]
  simp only [formChain, hpush, hset, hus, Bool.false_eq_true, if_false]
  exact settle_of_units hformed hne

end

section
variable {s v : State} {t i p k : Nat} {r : Run} {w : Walk} {g : Push} {us : List Nat}
  (hw : walkOf s t i p = some (r, w)) (hop : (r.mrec i).opcode = opRowop) (hdone : w.done = false)
include hw hop hdone

theorem exec_updateSlice_idle (h : w.units = [] ∨ (chainOf r i).bind (ownPush s t) = none) :
    exec (.updateSlice t i p) s = .next s := by
  refine congrArg Host.Outcome.next ((opCmd_of_walk hw hop hdone _).trans ?_)
  split
  case h_1 hunits hpush => exact absurd h (by simp [hunits, hpush])
  case h_2 => rfl

variable (hunits : w.units = k :: us) (hpush : (chainOf r i).bind (ownPush s t) = some g)
include hunits hpush

theorem exec_updateSlice_waits (h : w.set = false ∨ k ∉ g.written) : exec (.updateSlice t i p) s = .next s := by
  refine congrArg Host.Outcome.next ((opCmd_of_walk hw hop hdone _).trans ?_)
  simp only [hunits, hpush]
  exact if_pos (by simpa using h)

/-- With its slice written by the reducer, the rows of the slice are updated, their writes issued, and the walk ends with its last
slice. -/
theorem exec_updateSlice_updates (hset : w.set = true) (hwritten : k ∈ g.written)
    (hqueue : unissued s t i p = false) (hpath : (s.core w.core).writes = [])
    (hv : let rows := sliceRowNos (getView s r i p 0) k
      updateRows (reach s t i p [0, 2, 3] (rows.foldl max 0)) r w rows = .ok (.ok v)) :
    exec (.updateSlice t i p) s = .next
      ((settle (issueWrites (v.onWalk t i p (fun w => { w with units := us }))) t i p).onWalk t i p
        (fun w => { w with held := false })) := by
  obtain ⟨-, hwalk, -⟩ := walkOf_eq_some_iff.mp hw
  obtain ⟨rfl, rfl⟩ := Run.mi_pos_of_walk hwalk
  refine congrArg Host.Outcome.next ((opCmd_of_walk hw hop hdone _).trans ?_)
  dsimp only at hv
  simp only [hunits, hpush, hset, List.contains_iff_mem.mpr hwritten, hv, Bool.not_true, Bool.or_self, Bool.false_eq_true, if_false]
  have hcore : (reach s t w.mi w.pos [0, 2, 3] ((sliceRowNos (getView s r w.mi w.pos 0) k).foldl max 0)).core w.core =
      s.core w.core := by
    rw [reach_eq]
    rfl
  exact produce_of_pathEmpty ((unissued_reach ..).trans hqueue) (by rw [hcore, hpath]) _

end

/-- Settles O26: row work by what writing the computed rows leaves, the update by whether it is chained to a push and by whether the
slice it waits for is written. -/
theorem rowsAndUpdates : Obligations.RowsAndUpdates := by
  unfold Obligations.RowsAndUpdates
  refine ⟨?rows, ?update⟩
  case rows =>
    intro s t i p r w us rows hw hdone hset hloft s1 hus hcomputed
    obtain ⟨hlive, hwalk, -⟩ := walkOf_eq_some_iff.mp hw
    obtain ⟨rfl, rfl⟩ := Run.mi_pos_of_walk hwalk
    obtain rfl := tag_of_live hlive
    have hrows : computeRows s1 r w = .ok rows := by
      unfold computeRows
      rw [hus]
      exact hcomputed
    refine ⟨fun hop hfunc v fl hv hrun => ⟨rowWork s1 r w, ?_, ?_⟩, fun hop v fl hv hrun => ⟨rowWork s1 r w, ?_, ?_⟩⟩
    · refine congrArg Host.Outcome.next ((opCmd_of_walk hw hop hdone _).trans ?_)
      rw [hfunc]
      exact unitWork_of_unset rowWork hset
    · have hput : rows.foldlM (writeComputed r w) (s1, 0) = .ok (v, fl) := by
        rw [funext fun acc => funext fun x => writeComputed_of_rowop hop acc x]
        exact hv
      exact workEnded_rowWork hloft hrows hput (walkAt_of_live hrun hwalk)
    · exact congrArg Host.Outcome.next ((opCmd_of_walk hw hop hdone _).trans (unitWork_of_unset rowWork hset))
    · have hput : rows.foldlM (writeComputed r w) (s1, 0) = .ok (v, fl) := by
        rw [funext fun acc => funext fun x => writeComputed_of_rowopBwd hop acc x]
        exact hv
      exact workEnded_rowWork hloft hrows hput (walkAt_of_live hrun hwalk)
  case update =>
    intro s t i p r w hw hdone hop hfunc
    obtain ⟨hlive, hwalk, -⟩ := walkOf_eq_some_iff.mp hw
    obtain ⟨rfl, rfl⟩ := Run.mi_pos_of_walk hwalk
    obtain rfl := tag_of_live hlive
    have hchained {j : Nat} {g : Push} (hchain : chainOf r w.mi = some j) (hpush : ownPush s r.tag j = some g) :
        (chainOf r w.mi).bind (ownPush s r.tag) = some g := by
      rw [hchain, Option.bind_some, hpush]
    refine ⟨?alone, ?forms, ?updates, ?waits, fun hidle => exec_updateSlice_idle hw hop hdone hidle⟩
    case alone =>
      intro hchain hset us v s1 hus hv hthere
      refine ⟨endRows v r w 0, congrArg Host.Outcome.next ((opCmd_of_walk hw hop hdone _).trans ?_),
        workEnded_endRows rfl hthere 0⟩
      rw [hfunc, hchain]
      exact (unitWork_of_unset updateWork hset).trans (updateWork_of_updated hus hv)
    case forms =>
      intro j g hchain hpush hset us hne
      refine congrArg Host.Outcome.next ((opCmd_of_walk hw hop hdone _).trans ?_)
      rw [hfunc, hchain]
      exact formChain_forms (walkAt_of_live hlive hwalk) hset hpush rfl hne
    case updates =>
      intro j g k us v hchain hpush hset hunits hwritten rows s1 hv hqueue hpath
      exact ⟨_, exec_updateSlice_updates hw hop hdone hunits (hchained hchain hpush) hset hwritten hqueue hpath hv,
        issueFrame_iff.mpr (by simp)⟩
    case waits =>
      intro j g k us hchain hpush hunits hwaits
      exact exec_updateSlice_waits hw hop hdone hunits (hchained hchain hpush) hwaits

end Sys2Proof.Machine
end

section
/-!
SUPPORT. Pushes (R227, R290 to R294): what telling and settling a push's nodes, asking for missed slices and beginning a push leave,
the step counts of tensors, and what GRAD_PUSH, PUSH_DEADLINE and PUSH_COMPLETE do.
-/

namespace Sys2Proof.Machine

/-! What the reducer's own work leaves. -/

/-- The state without its pushes and what sending, issuing and the end of a run may change: of the memories and tensors all stays. -/
def outsidePushes (s : State) : State := { issuePart (endPart s) with pushes := [] }

theorem outsidePushes_of_issuePart {s u : State} (h : issuePart u = issuePart s) : outsidePushes u = outsidePushes s :=
  show { endPart (issuePart u) with pushes := [] } = { endPart (issuePart s) with pushes := [] } from
    congrArg (fun x : State => { endPart x with pushes := [] }) h

theorem outsidePushes_of_endPart {s u : State} (h : endPart u = endPart s) : outsidePushes u = outsidePushes s :=
  congrArg (fun x : State => { issuePart x with pushes := [] }) h

theorem mem_of_outsidePushes {s u : State} (h : outsidePushes u = outsidePushes s) : u.mem = s.mem := (congrArg State.mem h :)

theorem tensors_of_outsidePushes {s u : State} (h : outsidePushes u = outsidePushes s) : u.tensors = s.tensors :=
  (congrArg State.tensors h :)

@[simp] theorem outsidePushes_bump (s : State) (k : Nat × Nat) (u n : Nat) : outsidePushes (s.bump k u n) = outsidePushes s :=
  outsidePushes_of_issuePart (issuePart_bump ..)

@[simp] theorem outsidePushes_sendTransfer (s : State) (cls : Nat) (h : Hdr) (d : List Byte) :
    outsidePushes (sendTransfer s cls h d).1 = outsidePushes s :=
  outsidePushes_of_issuePart (issuePart_sendTransfer ..)

@[simp] theorem outsidePushes_onPush (s : State) (key node : Nat) (f : Push → Push) :
    outsidePushes (onPush s key node f) = outsidePushes s := rfl

@[simp] theorem outsidePushes_sendStatus (s : State) (dest key node n : Nat) :
    outsidePushes (sendStatus s dest key node n) = outsidePushes s :=
  outsidePushes_sendTransfer ..

@[simp] theorem outsidePushes_settleNode (f : Nat) (s : State) (key node : Nat) :
    outsidePushes (settleNode f s key node) = outsidePushes s := by
  induction f generalizing s node with
  | zero => rfl
  | succ f ih =>
    unfold settleNode
    split
    · rfl
    · split
      · simp only [apply_ite outsidePushes]
        split
        · rfl
        · split
          · rfl
          · simp [apply_ite outsidePushes, ih]
      · rfl

@[simp] theorem outsidePushes_settleAll (s : State) (key : Nat) : outsidePushes (settleAll s key) = outsidePushes s :=
  foldl_leaves (fun x _ => outsidePushes_settleNode _ x _ _) _ _

@[simp] theorem outsidePushes_ensurePush (s : State) (key : Nat) : outsidePushes (ensurePush s key) = outsidePushes s := by
  unfold ensurePush
  split
  · rfl
  · simp only [outsidePushes_settleAll, outsidePushes_bump]
    rfl

@[simp] theorem endPart_mgmtAll (s : State) (code : Nat) (body : List Byte) : endPart (mgmtAll s code body) = endPart s :=
  foldl_leaves (fun x r => endPart_sendMgmt x r code body) _ _

@[simp] theorem outsidePushes_setLate (s : State) (key d : Nat) : outsidePushes (setLate s key d) = outsidePushes s :=
  (outsidePushes_settleNode ..).trans ((outsidePushes_of_endPart (endPart_mgmtAll ..)).trans (outsidePushes_onPush ..))

@[simp] theorem outsidePushes_askReads (s : State) (p : Push) (rank k bytes : Nat) :
    outsidePushes (askReads s p rank k bytes).1 = outsidePushes s :=
  foldl_leaves (g := fun acc : State × Bool × List (Nat × Nat) => outsidePushes acc.1)
    (fun _ _ => outsidePushes_sendTransfer ..) _ _

@[simp] theorem outsidePushes_askSlice (ranks : List Nat) (s : State) (p : Push) (k : Nat) :
    outsidePushes (askSlice ranks s p k) = outsidePushes s := by
  induction ranks generalizing s with
  | nil => exact outsidePushes_of_issuePart (issuePart_stopRun ..)
  | cons a rest ih =>
    unfold askSlice
    dsimp only
    split
    · exact outsidePushes_askReads ..
    · exact (ih _).trans (outsidePushes_askReads ..)

@[simp] theorem issuePart_queueWrites (s : State) (v : View) (add : Bool) (runs : List ByteRun) :
    issuePart (queueWrites s v add runs) = issuePart s := by
  unfold queueWrites queueParts
  simp only [apply_ite issuePart, issuePart_setStream, ite_self]

@[simp] theorem outsidePushes_zeroSlice (s : State) (v : View) (k : Nat) : outsidePushes (zeroSlice s v k) = outsidePushes s :=
  outsidePushes_of_issuePart ((issuePart_issueWrites _).trans (issuePart_queueWrites ..))

/-! The step count of a store (R227). -/

/-- The step count of the tensor of a handle. -/
def stepCountAt (s : State) (h : Nat) : Option Nat := (s.tensor h).map (fun t => t.stepCount)

theorem stepCountAt_of_outsidePushes {s u : State} (e : outsidePushes u = outsidePushes s) (h : Nat) :
    stepCountAt u h = stepCountAt s h := by
  simp only [stepCountAt, State.tensor, tensors_of_outsidePushes e]

/-- A change of a tensor that leaves it its handle and step count leaves every step count. -/
theorem stepCountAt_onTensor {f : Tensor → Tensor} (hhandle : ∀ t, (f t).handle = t.handle)
    (hcount : ∀ t, (f t).stepCount = t.stepCount) (s : State) (k h : Nat) :
    stepCountAt (s.onTensor k f) h = stepCountAt s h := by
  have hsame : (fun t : Tensor => t.handle == h) ∘ (fun t => if t.handle == k then f t else t) = fun t => t.handle == h := by
    funext t
    simp only [Function.comp_apply]
    split <;> simp [hhandle]
  have hkept : (fun t : Tensor => t.stepCount) ∘ (fun t => if t.handle == k then f t else t) = fun t => t.stepCount := by
    funext t
    simp only [Function.comp_apply]
    split <;> simp [hcount]
  unfold stepCountAt State.tensor State.onTensor mapIf
  rw [List.find?_map, hsame, Option.map_map, hkept]

theorem tensor_onTensor_same {f : Tensor → Tensor} (hhandle : ∀ t, (f t).handle = t.handle) (s : State) (h : Nat) :
    (s.onTensor h f).tensor h = (s.tensor h).map f :=
  find?_mapIf (fun t ht => by simpa [hhandle] using ht) s.tensors

theorem handle_of_tensor {s : State} {h : Nat} {x : Tensor} (hx : s.tensor h = some x) : x.handle = h := by
  simpa using List.find?_some hx

@[simp] theorem stepCountAt_notePush (s : State) (key h : Nat) : stepCountAt (notePush s key) h = stepCountAt s h := by
  unfold notePush
  split
  · rfl
  · split
    · rfl
    · refine stepCountAt_onTensor (fun t => ?_) (fun t => ?_) _ _ _
      · split
        · split <;> rfl
        · rfl
      · split
        · split <;> rfl
        · rfl

theorem stepCountAt_startPush (s : State) (r : Run) (w : Walk) (key : Nat) (p : Push) (d : Nat) (late : Bool) (h : Nat) :
    stepCountAt (startPush s r w key p d late) h = stepCountAt s h := by
  have hcleared (u : State) (v : State → Nat → View) (n : Nat) :
      outsidePushes (if late then ((List.range n).foldl (fun s k => zeroSlice s (v s k) k) u).bump Ctr.gradLateSlices 0 n else u) =
        outsidePushes u := by
    split
    · exact (outsidePushes_bump ..).trans (foldl_leaves (fun x k => outsidePushes_zeroSlice x (v x k) k) _ _)
    · rfl
  have hsettled (u : State) :
      outsidePushes (if late && p.onTime.isNone then setLate u key d else settleNode 16 u key p.node) = outsidePushes u := by
    split
    · exact outsidePushes_setLate ..
    · exact outsidePushes_settleNode ..
  have hasked (u : State) (q : Push) (l : List (Nat × Nat)) :
      outsidePushes (l.foldl (fun s x => askSlice (ancestors s 16 s.group.rank) s q x.1) u) = outsidePushes u :=
    foldl_leaves (fun x (e : Nat × Nat) => outsidePushes_askSlice _ x q e.1) _ _
  exact (stepCountAt_notePush ..).trans ((stepCountAt_of_outsidePushes
    ((hasked ..).trans ((hsettled _).trans (hcleared ..))) h).trans
    (stepCountAt_onTensor (by intros; rfl) (by intros; rfl) ..))

theorem stepCountAt_beginPush (s : State) (r : Run) (w : Walk) (h : Nat) :
    stepCountAt (beginPush s r w) h = stepCountAt s h := by
  have hnext (key : Nat) : stepCountAt (nextPush s r w key) h = stepCountAt s h :=
    (stepCountAt_of_outsidePushes (outsidePushes_ensurePush ..) h).trans rfl
  unfold beginPush
  dsimp only
  split
  · exact hnext _
  · exact (stepCountAt_startPush ..).trans (hnext _)

/-! GRAD_PUSH (R227). -/

section
variable {s : State} {r : Run} {w : Walk} {x : Tensor} (hx : s.tensor (r.handle (r.mrec w.mi).opA) = some x)
include hx

theorem reachPush_counts (hshort : x.stepCount + 1 < (r.mrec w.mi).imm0) :
    reachPush s r w = s.onTensor x.handle (fun t => { t with stepCount := x.stepCount + 1 }) := by
  simp only [reachPush, hx, hshort, if_true]

/-- At the N-th step the count is 0 again, whatever the push that begins does. -/
theorem stepCountAt_reachPush (hfull : (r.mrec w.mi).imm0 ≤ x.stepCount + 1) : stepCountAt (reachPush s r w) x.handle = some 0 := by
  have hthere : s.tensor x.handle = some x := by rw [handle_of_tensor hx, hx]
  have hbegins : reachPush s r w = beginPush (s.onTensor x.handle (fun t => { t with stepCount := 0 })) r w := by
    simp only [reachPush, hx, Nat.not_lt.mpr hfull, if_false]
  rw [hbegins, stepCountAt_beginPush, stepCountAt, tensor_onTensor_same (by intros; rfl), hthere]
  rfl

end

/-- What a GRAD_PUSH does once it has counted: its position ends where no push of it goes on, or one of which every slice of C is
written. -/
def afterCount (s : State) (r : Run) (w : Walk) : State :=
  match ownPush s r.tag w.mi with
  | none => endWalk s r.tag w.mi w.pos w.core
  | some q => if pushWhole s r q then endWalk s r.tag w.mi w.pos w.core else s

theorem afterCount_of_none {s : State} {r : Run} {w : Walk} (h : ownPush s r.tag w.mi = none) :
    afterCount s r w = endWalk s r.tag w.mi w.pos w.core := by
  simp only [afterCount, h]

theorem stepCountAt_afterCount (s : State) (r : Run) (w : Walk) (h : Nat) : stepCountAt (afterCount s r w) h = stepCountAt s h := by
  unfold afterCount
  split
  · rfl
  · split <;> rfl

section
variable {s : State} {r : Run} {w : Walk}

/-- A position has reached a GRAD_PUSH: its walk is marked. -/
def markReached (s : State) (r : Run) (w : Walk) : State := s.onWalk r.tag w.mi w.pos (fun w => { w with set := true })

theorem exec_gradPush (hw : walkOf s r.tag w.mi w.pos = some (r, w)) (hop : (r.mrec w.mi).opcode = opGradPush)
    (hdone : w.done = false) (hset : w.set = false) :
    exec (.gradPush r.tag w.mi w.pos) s = .next (afterCount
      (if r.walks.any (fun x => x.mi == w.mi && x.set) then markReached s r w else reachPush (markReached s r w) r w) r w) := by
  refine congrArg Host.Outcome.next ((opCmd_of_walk hw hop hdone _).trans ?_)
  rw [hset, if_neg Bool.false_ne_true]
  cases r.walks.any (fun x => x.mi == w.mi && x.set) <;> rfl

/-- A position is the first of its record to reach it when no walk of the record is marked. -/
theorem none_reached_iff {l : List Walk} {i : Nat} :
    l.any (fun x => x.mi == i && x.set) = false ↔ ∀ y, y ∈ l → y.mi = i → y.set = false := by
  simp

theorem walkEnded_endWalk {t i p c : Nat} (hw : (walkAt s t i p).isSome = true) : Safety.WalkEnded (endWalk s t i p c) t i p := by
  obtain ⟨y, hy⟩ := Option.isSome_iff_exists.mp hw
  exact walkEnded_iff.mpr ⟨_, by rw [walkAt_endWalk, hy, Option.map_some], rfl⟩

theorem isSome_walkAt_markReached (hw : walkAt s r.tag w.mi w.pos = some w) :
    (walkAt (markReached s r w) r.tag w.mi w.pos).isSome = true := by
  rw [markReached, walkAt_onWalk (by intros; rfl) (by intros; rfl), hw]
  rfl

end

/-! PUSH_DEADLINE (R293). -/

/-- Whether the own contribution of a push's node is on time, as far as it is settled, and its deadline. -/
def dueAt (s : State) (key node : Nat) : Option (Option Bool × Nat) := (pushAt s key node).map (fun p => (p.onTime, p.deadline))

theorem dueAt_of_pushes {s u : State} (h : u.pushes = s.pushes) (key node : Nat) : dueAt u key node = dueAt s key node := by
  simp only [dueAt, pushAt, h]

theorem sendTransfer_pushes (s : State) (cls : Nat) (h : Hdr) (d : List Byte) : (sendTransfer s cls h d).1.pushes = s.pushes :=
  (congrArg State.pushes (endPart_sendTransfer s cls h d) :)

theorem pushAt_onPush_same {f : Push → Push} (hkey : ∀ p, (f p).key = p.key) (hnode : ∀ p, (f p).node = p.node) (s : State)
    (key node : Nat) : pushAt (onPush s key node f) key node = (pushAt s key node).map f :=
  find?_mapIf (fun p hp => by simpa [hkey, hnode] using hp) s.pushes

/-- A change of a node's push that leaves it its name, its contribution and its deadline leaves those of every node. -/
theorem dueAt_onPush {f : Push → Push} (hkey : ∀ p, (f p).key = p.key) (hnode : ∀ p, (f p).node = p.node)
    (htime : ∀ p, (f p).onTime = p.onTime) (hdeadline : ∀ p, (f p).deadline = p.deadline) (s : State) (key node key' node' : Nat) :
    dueAt (onPush s key node f) key' node' = dueAt s key' node' := by
  have hsame : (fun p : Push => p.key == key' && p.node == node') ∘ (fun p => if p.key == key && p.node == node then f p else p) =
      fun p => p.key == key' && p.node == node' := by
    funext p
    simp only [Function.comp_apply]
    split <;> simp [hkey, hnode]
  have hkept : (fun p : Push => (p.onTime, p.deadline)) ∘ (fun p => if p.key == key && p.node == node then f p else p) =
      fun p => (p.onTime, p.deadline) := by
    funext p
    simp only [Function.comp_apply]
    split <;> simp [htime, hdeadline]
  unfold dueAt pushAt onPush mapIf
  rw [List.find?_map, hsame, Option.map_map, hkept]

/-- Settling a node's count settles no contribution and moves no deadline (R292). -/
theorem dueAt_settleNode (f : Nat) (s : State) (key node key' node' : Nat) :
    dueAt (settleNode f s key node) key' node' = dueAt s key' node' := by
  induction f generalizing s node with
  | zero => rfl
  | succ f ih =>
    have hcount (u : State) (k n : Nat) : dueAt (onPush u key k (fun p => { p with settled := some n })) key' node' =
        dueAt u key' node' :=
      dueAt_onPush (by intros; rfl) (by intros; rfl) (by intros; rfl) (by intros; rfl) ..
    have hside (u : State) (k side n : Nat) : dueAt (onPush u key k (fun q => q.setCount side (some n))) key' node' =
        dueAt u key' node' := by
      refine dueAt_onPush (fun p => ?_) (fun p => ?_) (fun p => ?_) (fun p => ?_) .. <;> (unfold Push.setCount; split <;> rfl)
    unfold settleNode
    split
    · rfl
    · split
      · dsimp only
        split
        · exact hcount ..
        · split
          · exact hcount ..
          · split
            · exact (ih _ _).trans ((hside ..).trans (hcount ..))
            · exact (dueAt_of_pushes (sendTransfer_pushes ..) ..).trans (hcount ..)
      · rfl

/-- A contribution set late is late, by the deadline given. -/
theorem dueAt_setLate {s : State} {key : Nat} {p : Push} (hp : pushAt s key s.group.rank = some p) (d : Nat) :
    dueAt (setLate s key d) key s.group.rank = some (some false, d) := by
  have htold (u : State) : (mgmtAll u 14 (leBytes 4 key)).pushes = u.pushes := (congrArg State.pushes (endPart_mgmtAll u _ _) :)
  unfold setLate
  rw [dueAt_settleNode, dueAt_of_pushes (htold _), dueAt, pushAt_onPush_same (by intros; rfl) (by intros; rfl), hp]
  rfl

theorem ensurePush_of_known {s : State} {key : Nat} {p : Push} (hp : pushAt s key s.group.rank = some p) : ensurePush s key = s := by
  simp [ensurePush, hp]

section
variable {s : State} {key d : Nat} {p : Push} (hd : pushDeadline s key = some d)
include hd

theorem exec_pushDeadline_before (h : d = 0 ∨ s.beat.number < d) : exec (.pushDeadline key) s = .next s := by
  refine congrArg Host.Outcome.next ?_
  simp only [hd]
  exact if_pos (h.imp_right .inl)

theorem exec_pushDeadline_late (hp : pushAt s key s.group.rank = some p) (hsome : d ≠ 0) (hbegun : d ≤ s.beat.number)
    (hkey : key = nextKey s (key / 2 ^ 28) (key / 2 ^ 14 % 2 ^ 14))
    (hdue : pushDue s (key / 2 ^ 28) (key / 2 ^ 14 % 2 ^ 14) = true) (hnot : p.begun = false) (hopen : p.onTime = none) :
    exec (.pushDeadline key) s = .next (setLate s key d) := by
  refine congrArg Host.Outcome.next ?_
  simp only [hd]
  rw [if_neg (not_or.mpr ⟨hsome, not_or.mpr ⟨Nat.not_lt.mpr hbegun, not_or.mpr ⟨fun hne => hne hkey, by rw [hdue]; decide⟩⟩⟩),
    ensurePush_of_known hp]
  simp only [hp, hnot, hopen]
  rfl

end

/-! PUSH_COMPLETE (R294). -/

theorem walkAt_endWalk_other {p q : Nat} (h : p ≠ q) (s : State) (t i c : Nat) :
    walkAt (endWalk s t i q c) t i p = walkAt s t i p := by
  have hlive : (endWalk s t i q c).live t = (s.live t).map (fun r => { r with
      walks := mapIf (fun w => w.mi == i && w.pos == q) (fun w => { w with done := true, set := true }) r.walks }) :=
    (live_onRun (by intros; rfl) (by intros; assumption) _ _).trans (congrArg _ (live_of_runs rfl t))
  unfold walkAt
  rw [hlive]
  cases s.live t with
  | none => rfl
  | some r =>
    have hsame : (fun w : Walk => w.mi == i && w.pos == p) ∘
        (fun w => if w.mi == i && w.pos == q then { w with done := true, set := true } else w) =
          fun w => w.mi == i && w.pos == p := by
      funext w
      simp only [Function.comp_apply]
      split <;> rfl
    simp only [Option.map_some, Option.bind_some, Run.walk, mapIf]
    rw [List.find?_map, hsame]
    cases hfound : r.walks.find? (fun w => w.mi == i && w.pos == p) with
    | none => rfl
    | some w =>
      have hpos : w.mi = i ∧ w.pos = p := by simpa using List.find?_some hfound
      simp [hpos, h]

/-- The walks of some positions of a record ended. -/
def endWalks (s : State) (t i : Nat) (ws : List Walk) : State := ws.foldl (fun s w => endWalk s t i w.pos w.core) s

theorem endWalks_mem (s : State) (t i : Nat) (ws : List Walk) : (endWalks s t i ws).mem = s.mem :=
  foldl_leaves (by intros; rfl) _ _

/-- Each position that is among those ended, or had ended before, has ended. -/
theorem walkEnded_endWalks {s : State} {t i p : Nat} {ws : List Walk} {y : Walk} (hy : walkAt s t i p = some y)
    (h : y.done = true ∨ ∃ w, w ∈ ws ∧ w.pos = p) : Safety.WalkEnded (endWalks s t i ws) t i p := by
  induction ws generalizing s y with
  | nil => exact walkEnded_iff.mpr ⟨y, hy, h.resolve_right (by simp)⟩
  | cons w ws ih =>
    by_cases hp : w.pos = p
    · subst hp
      exact ih ((walkAt_endWalk ..).trans (congrArg _ hy)) (.inl rfl)
    · refine ih ((walkAt_endWalk_other (Ne.symm hp) ..).trans hy) (h.imp_right ?_)
      rintro ⟨x, hx, hpos⟩
      exact ⟨x, (List.mem_cons.mp hx).resolve_left (by rintro rfl; exact hp hpos), hpos⟩

section
variable {s : State} {key : Nat} {p : Push} {r : Run} (hp : pushAt s key s.group.rank = some p) (hlive : s.live p.tag = some r)
include hp hlive

theorem exec_pushComplete_waits (h : p.begun = false ∨ pushWhole s r p = false ∨ r.stopping.isSome = true) :
    exec (.pushComplete key) s = .next s := by
  refine congrArg Host.Outcome.next ?_
  simp only [hp, hlive]
  exact if_pos (by simpa [or_assoc] using h)

theorem exec_pushComplete_ends (hbegun : p.begun = true) (hwhole : pushWhole s r p = true) (hr : r.stopping = none) :
    exec (.pushComplete key) s =
      .next (endWalks s p.tag p.mi (r.walks.filter (fun w => w.mi == p.mi && w.set && !w.done))) := by
  refine congrArg Host.Outcome.next ?_
  simp only [hp, hlive, hbegun, hwhole, hr]
  rfl

end

/-- Settles O32: GRAD_PUSH by whether its position is the first and by whether its count has reached N, PUSH_DEADLINE by whether the
deadline beat has begun, PUSH_COMPLETE by the positions that wait. -/
theorem pushesBeginAndEnd : Obligations.PushesBeginAndEnd := by
  unfold Obligations.PushesBeginAndEnd
  intro s
  refine ⟨?reach, ?deadline, ?complete⟩
  case reach =>
    intro t i p r w x hw hdone hset hop hx first
    obtain ⟨hlive, hwalk, -⟩ := walkOf_eq_some_iff.mp hw
    obtain ⟨rfl, rfl⟩ := Run.mi_pos_of_walk hwalk
    obtain rfl := tag_of_live hlive
    have hmarked : (walkAt (markReached s r w) r.tag w.mi w.pos).isSome = true :=
      isSome_walkAt_markReached (walkAt_of_live hlive hwalk)
    have hexec := exec_gradPush hw hop hdone hset
    have hstore : (markReached s r w).tensor (r.handle (r.mrec w.mi).opA) = some x := hx
    have hthere : (markReached s r w).tensor x.handle = some x := by rw [handle_of_tensor hx, hstore]
    refine ⟨fun hfirst hshort hnone => ?_, fun hfirst hfull => ?_, fun hnot hnone => ?_⟩
    · rw [if_neg (Bool.eq_false_iff.mp (none_reached_iff.mpr hfirst)), reachPush_counts hstore hshort,
        afterCount_of_none (by exact hnone)] at hexec
      exact ⟨_, _, hexec, (tensor_onTensor_same (by intros; rfl) ..).trans (congrArg _ hthere), rfl, walkEnded_endWalk hmarked,
        rfl, rfl⟩
    · rw [if_neg (Bool.eq_false_iff.mp (none_reached_iff.mpr hfirst))] at hexec
      obtain ⟨y, hy, hcount⟩ := Option.map_eq_some_iff.mp ((stepCountAt_afterCount ..).trans (stepCountAt_reachPush hstore hfull))
      exact ⟨_, y, hexec, hy, hcount⟩
    · rw [if_pos (by rw [← Bool.not_eq_false, none_reached_iff]; exact hnot), afterCount_of_none (by exact hnone)] at hexec
      exact ⟨_, hexec, walkEnded_endWalk hmarked, rfl, rfl, rfl⟩
  case deadline =>
    intro key d p hd hp
    refine ⟨fun h => exec_pushDeadline_before hd h, fun hsome hbegun hkey hdue hnot hopen => ?_⟩
    obtain ⟨x, hx, hlate⟩ := Option.map_eq_some_iff.mp (dueAt_setLate hp d)
    obtain ⟨htime, hdeadline⟩ := Prod.mk.inj hlate
    exact ⟨_, x, exec_pushDeadline_late hd hp hsome hbegun hkey hdue hnot hopen, hx, htime, hdeadline,
      mem_of_outsidePushes (outsidePushes_setLate ..)⟩
  case complete =>
    intro key p r hp hlive
    refine ⟨fun h => exec_pushComplete_waits hp hlive h, fun hbegun hwhole hr =>
      ⟨_, exec_pushComplete_ends hp hlive hbegun hwhole hr, endWalks_mem .., fun w hw hmi hset hwalk => ?_⟩⟩
    refine walkEnded_endWalks (y := w) (walkAt_of_live hlive (hmi ▸ hwalk)) ?_
    cases hdone : w.done with
    | true => exact .inl rfl
    | false => exact .inr ⟨w, List.mem_filter.mpr ⟨hw, by simp [hmi, hset, hdone]⟩, rfl⟩

end Sys2Proof.Machine
end

section
/-!
SUPPORT. A group's messages (R234, R262, R274, R282): what telling other ranks leaves, what following the group's links leaves,
and what a change of the view leaves of the membership until it takes effect.
-/

namespace Sys2Proof.Machine

/-! Links by number, and counters. -/

theorem link_onLink_same (s : State) (l : Nat) (f : Link → Link) : (s.onLink l f).link l = f (s.link l) := by
  simp [State.onLink, State.link]

theorem link_onLink_other {j l : Nat} (h : j ≠ l) (s : State) (f : Link → Link) : (s.onLink l f).link j = s.link j := by
  simp [State.onLink, State.link, look_put_other h]

/-- Counting changes the counters alone. -/
theorem exists_bump_eq (s : State) (k : Nat × Nat) (u n : Nat) : ∃ c, s.bump k u n = { s with counters := c } := by
  unfold State.bump
  split
  · exact ⟨s.counters, rfl⟩
  · exact ⟨_, rfl⟩

/-! Telling other ranks (R274). -/

/-- The state without what telling other ranks something may change. -/
def tellPart (s : State) : State := { s with links := [], turns := [], counters := [], nextMgmt := 0, health := {} }

/-- The frame of telling is that all but the fields it names stays. -/
theorem tellFrame_iff {v u : State} : Safety.TellFrame v u ↔ tellPart u = tellPart v := by
  unfold Safety.TellFrame
  exact ⟨fun h => (congrArg tellPart h :), fun h => congrArg (fun x : State =>
    { x with links := u.links, turns := u.turns, counters := u.counters, nextMgmt := u.nextMgmt, health := u.health }) h⟩

@[simp] theorem tellPart_bump (s : State) (k : Nat × Nat) (u n : Nat) : tellPart (s.bump k u n) = tellPart s := by
  obtain ⟨c, hc⟩ := exists_bump_eq s k u n
  rw [hc]
  rfl

@[simp] theorem tellPart_onLink (s : State) (l : Nat) (f : Link → Link) : tellPart (s.onLink l f) = tellPart s := rfl

/-- A transfer is put into the stream of its class on one link, whose turn it then was (R281, R282). -/
theorem eq_of_sendOn {s t : State} {cls : Nat} {h : Hdr} {d : List Byte} (e : sendOn s cls h d = some t) :
    ∃ l ts, t = { s with turns := ts }.onLink l (fun k => { k with
      streams := k.streams.set cls (k.streams.getD cls [] ++ streamBytes h d) }) := by
  unfold sendOn at e
  split at e
  · cases e
  · split at e
    · cases e
    · cases e
      exact ⟨_, _, rfl⟩

@[simp] theorem tellPart_sendTransfer (s : State) (cls : Nat) (h : Hdr) (d : List Byte) :
    tellPart (sendTransfer s cls h d).1 = tellPart s := by
  unfold sendTransfer
  split
  · obtain ⟨l, ts, rfl⟩ := eq_of_sendOn ‹_›
    rfl
  · exact tellPart_bump _ _ _ _

@[simp] theorem tellPart_sendMgmt (s : State) (dest code : Nat) (body : List Byte) :
    tellPart (sendMgmt s dest code body) = tellPart s := by
  unfold sendMgmt
  split
  · rfl
  · exact foldl_leaves (fun x i => tellPart_sendTransfer _ _ _ _) _ _

/-- The link without what waits on it to be sent. -/
def linkPart (s : State) (l : Nat) : Link := { s.link l with streams := [] }

@[simp] theorem linkPart_bump (s : State) (k : Nat × Nat) (u n l : Nat) : linkPart (s.bump k u n) l = linkPart s l := by
  obtain ⟨c, hc⟩ := exists_bump_eq s k u n
  rw [hc]
  rfl

@[simp] theorem linkPart_sendTransfer (s : State) (cls : Nat) (h : Hdr) (d : List Byte) (l : Nat) :
    linkPart (sendTransfer s cls h d).1 l = linkPart s l := by
  unfold sendTransfer
  split
  · obtain ⟨j, ts, rfl⟩ := eq_of_sendOn ‹_›
    unfold linkPart
    by_cases hl : l = j
    · subst hl
      rw [link_onLink_same]
      rfl
    · rw [link_onLink_other hl]
      rfl
  · exact linkPart_bump _ _ _ _ _

@[simp] theorem linkPart_sendMgmt (s : State) (dest code : Nat) (body : List Byte) (l : Nat) :
    linkPart (sendMgmt s dest code body) l = linkPart s l := by
  unfold sendMgmt
  split
  · rfl
  · exact (foldl_leaves (g := fun u => linkPart u l) (fun x i => linkPart_sendTransfer _ _ _ _ _) _ _).trans rfl

/-! Following the group's links (R250, R281, R282). -/

/-- The state without what telling other ranks and following the group's links may change: routes, the device's place in the beat
tree, and the number of its reports. -/
def meshPart (s : State) : State :=
  { tellPart s with routes := [], beat := { s.beat with parent := none, alternates := [], depth := 0 }
                    group := { s.group with reportNo := 0 } }

theorem meshPart_of_tellPart {s u : State} (h : tellPart u = tellPart s) : meshPart u = meshPart s :=
  congrArg (fun x : State => { x with routes := [], beat := { x.beat with parent := none, alternates := [], depth := 0 }
                                      group := { x.group with reportNo := 0 } }) h

@[simp] theorem meshPart_bump (s : State) (k : Nat × Nat) (u n : Nat) : meshPart (s.bump k u n) = meshPart s :=
  meshPart_of_tellPart (tellPart_bump s k u n)

@[simp] theorem meshPart_onLink (s : State) (l : Nat) (f : Link → Link) : meshPart (s.onLink l f) = meshPart s := rfl

@[simp] theorem meshPart_sendMgmt (s : State) (dest code : Nat) (body : List Byte) :
    meshPart (sendMgmt s dest code body) = meshPart s := meshPart_of_tellPart (tellPart_sendMgmt s dest code body)

@[simp] theorem meshPart_recompute (s : State) : meshPart (recompute s) = meshPart s := rfl

/-- Choosing a beat parent changes the device's place in the tree alone (R250). -/
theorem exists_setTree_eq (s : State) :
    ∃ p a d, setTree s = { s with beat := { s.beat with parent := p, alternates := a, depth := d } } := by
  unfold setTree
  split
  · exact ⟨_, _, _, rfl⟩
  · dsimp only
    split
    · exact ⟨_, _, _, rfl⟩
    · exact ⟨_, _, _, rfl⟩

@[simp] theorem meshPart_setTree (s : State) : meshPart (setTree s) = meshPart s := by
  obtain ⟨p, a, d, h⟩ := exists_setTree_eq s
  rw [h]
  rfl

@[simp] theorem meshPart_reportLinks (s : State) : meshPart (reportLinks s) = meshPart s :=
  (foldl_leaves (fun x r => meshPart_sendMgmt x r 12 _) _ _).trans rfl

@[simp] theorem meshPart_tellKnown (s : State) (r : Nat) : meshPart (tellKnown s r) = meshPart s :=
  foldl_leaves (fun x _ => meshPart_sendMgmt x r 12 _) _ _

/-- Of the group following its links changes the number of the device's reports alone. -/
theorem group_of_meshPart {s u : State} (h : meshPart u = meshPart s) : u.group = { s.group with reportNo := u.group.reportNo } :=
  (congrArg (fun x : State => { x.group with reportNo := u.group.reportNo }) h :)

theorem work_of_meshPart {s u : State} (h : meshPart u = meshPart s) : u.mem = s.mem ∧ u.runs = s.runs :=
  ⟨(congrArg State.mem h :), (congrArg State.runs h :)⟩

theorem tellFrame_of_meshPart {s u : State} (h : meshPart u = meshPart s) :
    Safety.TellFrame { s with group := u.group, beat := u.beat, routes := u.routes } u :=
  tellFrame_iff.mpr (congrArg (fun x : State => { x with group := u.group, beat := u.beat, routes := u.routes }) h :)

theorem linkPart_setTree (s : State) (l : Nat) : linkPart (setTree s) l = linkPart s l := by
  obtain ⟨p, a, d, h⟩ := exists_setTree_eq s
  rw [h]
  rfl

theorem linkPart_reportLinks (s : State) (l : Nat) : linkPart (reportLinks s) l = linkPart s l :=
  (foldl_leaves (g := fun u => linkPart u l) (fun x r => linkPart_sendMgmt x r 12 _ l) _ _).trans rfl

theorem linkPart_tellKnown (s : State) (r l : Nat) : linkPart (tellKnown s r) l = linkPart s l :=
  foldl_leaves (g := fun u => linkPart u l) (fun x _ => linkPart_sendMgmt x r 12 _ l) _ _

/-! A view announced (R234). -/

/-- The view that the coordinator announces. -/
def announced (s : State) (ranks : List Nat) (keeper : Nat) (hold : Bool) : ViewAnn :=
  let named := below 1024 (fun r => ranks.contains r)
  { epoch := s.group.epoch + 1, ranks := named, keeper := keeper, beat := beatAfter s 4, hold := hold
    differs := if hold then holdRank s named keeper else 0 }

theorem announce_of_announced {s : State} (h : s.group.next ≠ none) (ranks : List Nat) (keeper : Nat) (hold : Bool) :
    announce s ranks keeper hold = s := by
  unfold announce
  split
  · rfl
  · exact absurd ‹_› h

/-- A view announced is kept until its beat, and told. -/
theorem tellPart_announce {s : State} (h : s.group.next = none) (ranks : List Nat) (keeper : Nat) (hold : Bool) :
    tellPart (announce s ranks keeper hold) =
      tellPart { s with group := { s.group with next := some (announced s ranks keeper hold) } } := by
  unfold announce
  rw [h]
  exact foldl_leaves (fun x r => tellPart_sendMgmt x r 5 _) _ _

theorem group_announce {s : State} (h : s.group.next = none) (ranks : List Nat) (keeper : Nat) (hold : Bool) :
    (announce s ranks keeper hold).group = { s.group with next := some (announced s ranks keeper hold) } :=
  (congrArg State.group (tellPart_announce h ranks keeper hold) :)

/-! What a change of the view leaves until its beat (R234). -/

/-- The membership as it stands: without the view announced, the changes and the leave that wait, what members reported, and the
order that waits for the end of formation. -/
def standing (g : Group) : Group :=
  { g with next := none, drops := [], adds := [], leaveAsked := false, reports := [], reportNo := 0, formOrder := none }

/-- The state without what announcing a change of the view and telling it may change: of the group the membership stands. -/
def viewPart (s : State) : State := { meshPart s with group := standing s.group }

theorem viewPart_of_meshPart {s u : State} (h : meshPart u = meshPart s) : viewPart u = viewPart s :=
  congrArg (fun x : State => { x with group := standing x.group }) h

@[simp] theorem viewPart_sendMgmt (s : State) (dest code : Nat) (body : List Byte) :
    viewPart (sendMgmt s dest code body) = viewPart s := viewPart_of_meshPart (meshPart_sendMgmt s dest code body)

@[simp] theorem viewPart_announce (s : State) (ranks : List Nat) (keeper : Nat) (hold : Bool) :
    viewPart (announce s ranks keeper hold) = viewPart s := by
  by_cases h : s.group.next = none
  · exact (viewPart_of_meshPart (meshPart_of_tellPart (tellPart_announce h ranks keeper hold))).trans rfl
  · rw [announce_of_announced h]

@[simp] theorem viewPart_changeView (s : State) (drops adds : List Nat) : viewPart (changeView s drops adds) = viewPart s := by
  unfold changeView
  dsimp only
  split
  · split <;> rfl
  · split
    · rfl
    · exact viewPart_announce _ _ _ _

@[simp] theorem viewPart_checkHold (s : State) : viewPart (checkHold s) = viewPart s := by
  unfold checkHold
  split
  · exact viewPart_announce _ _ _ _
  · rfl

@[simp] theorem viewPart_nextChange (s : State) : viewPart (nextChange s) = viewPart s :=
  (viewPart_checkHold _).trans ((viewPart_changeView _ _ _).trans rfl)

@[simp] theorem viewPart_dropMember (s : State) (r : Nat) (tell : Bool) : viewPart (dropMember s r tell) = viewPart s := by
  unfold dropMember
  simp only [apply_ite viewPart, viewPart_changeView, viewPart_sendMgmt, ite_self]

@[simp] theorem viewPart_noteDigest (s : State) (r : Nat) (d : List Byte) : viewPart (noteDigest s r d) = viewPart s := rfl

@[simp] theorem viewPart_dropStray (s : State) (d : List Byte) : viewPart (dropStray s d) = viewPart s := by
  unfold dropStray
  dsimp only
  split <;> simp

@[simp] theorem viewPart_recheck (s : State) : viewPart (recheck s) = viewPart s := by
  unfold recheck
  split
  · exact foldl_leaves (fun x k => viewPart_dropStray x _) _ _
  · rfl

@[simp] theorem viewPart_askLeave (s : State) : viewPart (askLeave s) = viewPart s := by
  have hasked : viewPart { s with group := { s.group with leaveAsked := true } } = viewPart s := rfl
  unfold askLeave
  simp only [apply_ite viewPart, leaveView, viewPart_changeView, viewPart_sendMgmt, hasked, ite_self]

@[simp] theorem viewPart_reportDigest (s : State) : viewPart (reportDigest s) = viewPart s := by
  unfold reportDigest
  simp only [apply_ite viewPart, viewPart_checkHold, viewPart_sendMgmt, viewPart_noteDigest, ite_self]

/-- A change of the view leaves the committed keys, the memories and the runs. -/
theorem kept_of_viewPart {s u : State} (h : viewPart u = viewPart s) :
    u.keys = s.keys ∧ u.mem = s.mem ∧ u.runs = s.runs :=
  ⟨(congrArg State.keys h :), (congrArg State.mem h :), (congrArg State.runs h :)⟩

theorem standing_of_viewPart {s u : State} (h : viewPart u = viewPart s) : standing u.group = standing s.group :=
  (congrArg State.group h :)

/-! What a fence leaves of the group (R258). -/

/-- The group of a device that has fenced itself: it is FENCED, in no view, and waits for nothing that its view was to bring. -/
def fencedGroup (g : Group) : Group :=
  { g with state := 4, view := [], lastView := g.view, next := none, drops := [], adds := [], fenceBeat := none, lossAt := none }

theorem fenceSelf_group {s : State} (hview : inView s = true) (hleave : s.group.leaveOrder = none) (cause : Nat) :
    (fenceSelf s cause).group = fencedGroup s.group := by
  unfold fenceSelf
  rw [if_neg (by simp [hview])]
  extract_lets ended closed group beat fenced noted
  have hclosed : closed.group = s.group := by
    refine congrArg Prod.snd (?_ : configPart closed = configPart s)
    unfold closed
    split
    · exact (configPart_rollback _ _).trans (configPart_endAllRuns _ _)
    · exact configPart_endAllRuns _ _
  have hnoted : noted.group = fencedGroup closed.group :=
    congrArg Prod.snd ((configPart_bump _ _ _ _).trans (configPart_postEvent _ _ _) : configPart noted = configPart fenced)
  have hstays : noted.group.leaveOrder.isSome = false := by
    rw [hnoted, hclosed]
    exact congrArg Option.isSome hleave
  rw [if_neg (by simp [hstays]), hnoted, hclosed]

end Sys2Proof.Machine
end

section
/-!
SUPPORT. A reply that completes the asked ranks (R262): READY_REPLY is heeded only in a view, of a rank of the view, and one clause
of the statement asks for its effect without that premise.
-/

namespace Sys2Proof.Machine

/-- A device outside every view whose group transaction still waits for one rank. -/
def soloCommit : State :=
  { State.reset with txn := { state := 2, group := true, asked := [1], commitBeat := 1 } }

theorem exec_readyReply_soloCommit : exec (.readyReply 1 eOk) soloCommit = .next soloCommit := rfl

/-- Refutes O17: a reply that reaches a device outside every view changes nothing, and decides no transaction; the clause of the last
READY, unlike its neighbours, does not ask for a view that has the rank. -/
theorem not_groupTransactionMessages : ¬ Obligations.GroupTransactionMessages := by
  unfold Obligations.GroupTransactionMessages
  intro h
  obtain ⟨-, -, -, -, -, -, -, -, hlast, -⟩ := h soloCommit
  obtain ⟨u, hu, hdecided, -⟩ := hlast 1 rfl rfl rfl (by decide) (by decide) (by decide)
  obtain rfl := Host.Outcome.next.inj (exec_readyReply_soloCommit.symm.trans hu)
  exact absurd hdecided (by decide)

end Sys2Proof.Machine
end

section
/-!
SUPPORT. Formation and leaving (R234, R236 to R239, R266): what FORM_GROUP checks and what it leaves of an accepted block, how a
formation ends, and what LEAVE_GROUP does in each state of the group.
-/

namespace Sys2Proof.Machine

/-! FORM_GROUP (R236, R237). -/

theorem exec_formGroup_of_admitted {s : State} {m n : Nat} {o : Order} (h : Safety.Admitted s m n 0x0D o)
    (d : Option (List Byte)) : exec (.formGroup m n d) s = .next (formGroupOwn d s o) :=
  congrArg Host.Outcome.next (orderCmd_of_admitted h (formGroupOwn d))

/-- A member list that keeps its rules names the device's own serial. -/
theorem own_mem_of_memberBad {n serial : Nat} {l : List (Nat × Nat)} (h : memberBad n serial l = none) :
    (((l.find? (fun e => e.2 == serial)).getD (0, 0)).1, serial) ∈ l := by
  have hany : l.any (fun e => e.2 == serial) = true := by
    unfold memberBad at h
    split at h
    · cases h
    · split at h
      · assumption
      · cases h
  obtain ⟨e, he, hserial⟩ := List.any_eq_true.mp hany
  obtain ⟨x, hx⟩ := Option.isSome_iff_exists.mp (List.find?_isSome (p := fun e : Nat × Nat => e.2 == serial) |>.mpr ⟨e, he, hserial⟩)
  have hown : x.2 = serial := by simpa using List.find?_some hx
  rw [hx, ← hown]
  exact List.mem_of_find?_eq_some hx

/-- What the work and the clock of a device hold, and its fuses. -/
def workPart (s : State) : Nat × Trust × Memory × List Run := (s.now, s.trust, s.mem, s.runs)

/-- A commit of the beat's keys has no effect on work (R265). -/
theorem workPart_applyKey {k : Nat} (hk : k = 1 ∨ k = 2) (s : State) (v : List Byte) : workPart (applyKey s k v) = workPart s := by
  rcases hk with rfl | rfl <;> rfl

@[simp] theorem meshPart_classLinks (s : State) : meshPart (classLinks s) = meshPart s := by
  refine foldl_leaves (fun x k => ?_) _ _
  split
  · rfl
  · rfl

/-- The group of a device that begins to form (R237, R238). -/
def formingGroup (s : State) (o : Order) (b : List Byte) (l : List (Nat × Nat)) : Group :=
  { state := 1, rank := ((l.find? (fun e => e.2 == s.trust.serial)).getD (0, 0)).1, keeper := field b 4 2, groupId := field b 8 8
    epoch := 0, members := l, source := field b 6 1, ptpPorts := field b 7 1, origin := field b 0x10 8
    formTimeout := field b 0x1A 2, ptpTime := field b 0x10 8, formAt := s.now, expDigest := slice b 0x20 32
    formOrder := some (o.mailbox, o.number) }

/-- The keys of the block committed, and the counters of the group at zero (R237, R269). -/
def formKeyed (s : State) (b : List Byte) : State :=
  (applyKey (applyKey s 1 (slice b 0x18 1)) 2 (slice b 0x1C 4)).zeroTables (fun t => t == 0x090A)

theorem startForming_eq (s : State) (o : Order) (b : List Byte) (l : List (Nat × Nat)) : startForming s o b l =
    reportLinks (setTree (recompute (classLinks
      { becomeSolo (beginOrder (formKeyed s b) o) with group := formingGroup (formKeyed s b) o b l }))) := rfl

/-- An accepted block makes the device FORMING, with its work as it was. -/
theorem startForming_leaves (s : State) (o : Order) (b : List Byte) (l : List (Nat × Nat)) :
    (startForming s o b l).group = { formingGroup s o b l with reportNo := (startForming s o b l).group.reportNo }
      ∧ (startForming s o b l).mem = s.mem ∧ (startForming s o b l).runs = s.runs := by
  have hwork : workPart (formKeyed s b) = workPart s :=
    (workPart_applyKey (.inr rfl) (applyKey s 1 (slice b 0x18 1)) (slice b 0x1C 4)).trans
      (workPart_applyKey (.inl rfl) s (slice b 0x18 1))
  simp only [workPart, Prod.mk.injEq] at hwork
  obtain ⟨hnow, htrust, hmem, hruns⟩ := hwork
  have hgroup : formingGroup (formKeyed s b) o b l = formingGroup s o b l := by simp only [formingGroup, hnow, htrust]
  have hpart : meshPart (startForming s o b l) =
      meshPart { becomeSolo (beginOrder (formKeyed s b) o) with group := formingGroup s o b l } := by
    rw [startForming_eq, hgroup]
    simp
  obtain ⟨hmemAfter, hrunsAfter⟩ := work_of_meshPart hpart
  exact ⟨group_of_meshPart hpart, hmemAfter.trans hmem, hrunsAfter.trans hruns⟩

section
variable {s : State} {o : Order} {d : Option (List Byte)}

theorem formGroupOwn_badBlock (hblock : blockOk (slice o.bytes 0x28 64) = false) :
    formGroupOwn d s o = refuse s o ePlan 0x47 1 0 := if_pos (by simp [hblock])

variable (hblock : blockOk (slice o.bytes 0x28 64) = true) {x : List Byte}
  (hread : hostRead (hostAsk s o) o d (16 * field (slice o.bytes 0x28 64) 2 2) = some x)
  (hreserved : memberReserved (field (slice o.bytes 0x28 64) 2 2) x = none)
include hblock hread hreserved

theorem formGroupOwn_badMember {i : Nat}
    (hbad : memberBad (field (slice o.bytes 0x28 64) 2 2) s.trust.serial (memberList (field (slice o.bytes 0x28 64) 2 2) x) = some i) :
    formGroupOwn d s o = refuse (hostAsk s o) o ePlan 0x47 2 i := by
  have htrust : (hostAsk s o).trust = s.trust := (congrArg State.trust (resultPart_hostAsk s o) :)
  unfold formGroupOwn
  simp only [hblock, hread, hreserved, htrust, hbad, Bool.not_true, Bool.false_eq_true, if_false]

theorem formGroupOwn_forms
    (hgood : memberBad (field (slice o.bytes 0x28 64) 2 2) s.trust.serial (memberList (field (slice o.bytes 0x28 64) 2 2) x) = none)
    (hptp : field (slice o.bytes 0x28 64) 6 1 = 1 → ptpEnabled s (field (slice o.bytes 0x28 64) 7 1) = true)
    (hcan : canForm s = true) :
    formGroupOwn d s o =
      startForming (hostAsk s o) o (slice o.bytes 0x28 64) (memberList (field (slice o.bytes 0x28 64) 2 2) x) := by
  have hleft := eq_of_resultPart (resultPart_hostAsk s o)
  have htrust : (hostAsk s o).trust = s.trust := (congrArg State.trust hleft :)
  have hports (p : Nat) : ptpEnabled (hostAsk s o) p = ptpEnabled s p := by
    rw [hleft]
    rfl
  have hcanAsked : canForm (hostAsk s o) = true := by
    rw [hleft]
    exact hcan
  unfold formGroupOwn
  simp only [hblock, hread, hreserved, htrust, hgood, hports, hcanAsked, Bool.not_true, Bool.false_eq_true, if_false]
  rw [if_neg (by simpa using hptp)]

end

/-! LEAVE_GROUP (R266). -/

theorem exec_leaveGroup_of_admitted {s : State} {m n : Nat} {o : Order} (h : Safety.Admitted s m n 0x0E o) :
    exec (.leaveGroup m n) s = .next (leaveGroupOwn s o) :=
  congrArg Host.Outcome.next (orderCmd_of_admitted h leaveGroupOwn)

/-- With every run ended there is none to end. -/
theorem endAllRuns_of_ended {s : State} (h : ∀ r, r ∈ s.runs → r.state = 3) (st : BitVec 8) : endAllRuns s st = s := by
  have hnone : s.runs.filter (fun r => r.state != 3) = [] := List.filter_eq_nil_iff.mpr (by simpa using h)
  simp [endAllRuns, hnone]

theorem leaveGroupOwn_solo {s : State} (h : s.group.state = 0) (o : Order) : leaveGroupOwn s o = complete s o ePlan [] := if_pos h

theorem leaveGroupOwn_outside {s : State} (hgroup : s.group.state ≠ 0) (hview : inView s = false) (o : Order) :
    leaveGroupOwn s o = complete (becomeSolo s) o eOk [] := by
  unfold leaveGroupOwn
  rw [if_neg hgroup, if_pos (by simp [hview])]

/-- A member whose runs have ended waits with its LEAVE_GROUP, as a member of its view. -/
theorem viewPart_leaveGroupOwn {s : State} (hview : inView s = true) (hruns : ∀ r, r ∈ s.runs → r.state = 3) (o : Order) :
    viewPart (leaveGroupOwn s o) =
      viewPart { beginOrder s o with group := { s.group with leaveOrder := some (o.mailbox, o.number) } } := by
  have hgroup : s.group.state ≠ 0 := by
    intro h
    simp [inView, h] at hview
  unfold leaveGroupOwn
  rw [if_neg hgroup, if_neg (by simp [hview])]
  dsimp only
  rw [endAllRuns_of_ended (by exact hruns)]
  exact (viewPart_askLeave _).trans rfl

/-! The end of formation (R238, R239). -/

theorem exec_formationEnd_waits {s : State}
    (h : s.group.state ≠ 1 ∨ isKeeper s = false ∨ (reported s).length < s.group.members.length) :
    exec .formationEnd s = .next s := by
  refine congrArg Host.Outcome.next ?_
  by_cases hkeeper : s.group.state ≠ 1 ∨ (!isKeeper s) = true
  · rw [if_pos hkeeper]
  · rw [if_neg hkeeper]
    obtain ⟨hforming, hkeeps⟩ := not_or.mp hkeeper
    exact if_pos ((h.resolve_left hforming).resolve_left (by simpa using hkeeps))

section
variable {s : State} (hforming : s.group.state = 1)
include hforming

theorem exec_formationEnd_announces (hkeeper : isKeeper s = true) (hall : (reported s).length = s.group.members.length) :
    exec .formationEnd s = .next (announce s (reported s) s.group.keeper (formHold s (reported s))) := by
  refine congrArg Host.Outcome.next ?_
  rw [if_neg (by simp [hforming, hkeeper])]
  exact if_neg (by simp [hall])

theorem exec_formTimeout_announces (hkeeper : isKeeper s = true) (hmost : s.group.members.length < 2 * (reported s).length)
    (hnext : s.group.next = none) :
    exec .formTimeout s = .next (announce s (reported s) s.group.keeper (formHold s (reported s))) := by
  refine congrArg Host.Outcome.next ?_
  rw [if_neg (by simp [hforming]), hnext]
  exact if_pos ⟨hkeeper, hmost⟩

theorem exec_formTimeout_fails (h : isKeeper s = false ∨ 2 * (reported s).length ≤ s.group.members.length)
    (hnext : s.group.next = none) : exec .formTimeout s = .next (formFails s eLate) := by
  refine congrArg Host.Outcome.next ?_
  rw [if_neg (by simp [hforming]), hnext]
  refine if_neg fun ⟨hkeeper, hmost⟩ => ?_
  rcases h with h | h
  · exact Bool.false_ne_true (h.symm.trans hkeeper)
  · omega

/-- A formation that a view announced without the device ends leaves it FENCED behind that view. -/
theorem exec_formTimeout_leftOut {x : ViewAnn} (hnext : s.group.next = some x) (hout : s.group.rank ∉ x.ranks)
    (horder : s.group.formOrder = none) : exec .formTimeout s = .next { s with group := { s.group with
      formOrder := none, state := 4, epoch := x.epoch, keeper := x.keeper, lastView := x.ranks, next := none } } := by
  refine congrArg Host.Outcome.next ?_
  rw [if_neg (by simp [hforming])]
  simp only [hnext]
  rw [if_neg (by simpa using hout)]
  simp only [endForm, horder, endWaiting]

end

/-- A formation that fails ends its order, and leaves the device SOLO with its work as it was. -/
theorem formFails_leaves {s : State} {m n : Nat} {o : Order} (hwaits : s.group.formOrder = some (m, n)) (horder : s.order m n = some o)
    (hheld : held s o = false) (st : BitVec 8) :
    (formFails s st).group.state = 0 ∧ (formFails s st).group.view = [] ∧ (formFails s st).group.formOrder = none
      ∧ (formFails s st).order m n = none ∧ (formFails s st).mem = s.mem ∧ (formFails s st).runs = s.runs := by
  obtain ⟨rfl, rfl⟩ := mailbox_number_of_order horder
  have hended (absent rank epoch : Nat) : endForm s st absent rank epoch =
      complete { s with group := { s.group with formOrder := none } } o st (formDetail absent rank epoch) := by
    have hsame : State.order { s with group := { s.group with formOrder := none } } o.mailbox o.number = some o := horder
    simp only [endForm, hwaits, endWaiting, hsame]
  unfold formFails
  rw [hended]
  have hleft := answerPart_complete { s with group := { s.group with formOrder := none } } o st
    (formDetail (s.group.members.length - (reported s).length) 0xFFFF 0)
  refine ⟨rfl, rfl, (congrArg (fun x : State => x.group.formOrder) hleft :), order_complete (by exact hheld) _ _,
    (congrArg State.mem hleft :), (congrArg State.runs hleft :)⟩

/-- Settles O34: FORM_GROUP and LEAVE_GROUP by their checks in order, and the end of formation by the state of the group, by who the
keeper is and by how many ranks have reported. -/
theorem groupsForm : Obligations.GroupsForm := by
  unfold Obligations.GroupsForm
  refine ⟨fun s m n d o => ⟨fun hadm => ?form, fun hadm => ?leave⟩, fun s => ?ends⟩
  case form =>
    dsimp only
    rw [exec_formGroup_of_admitted hadm]
    refine ⟨fun hblock => by rw [formGroupOwn_badBlock hblock], fun x i hblock hread hreserved hbad => ?_,
      fun x hblock hread hreserved hgood hptp hcan => ?_⟩
    · rw [formGroupOwn_badMember hblock hread hreserved hbad]
    · obtain ⟨hgroup, hmem, hruns⟩ := startForming_leaves (hostAsk s o) o (slice o.bytes 0x28 64)
        (memberList (field (slice o.bytes 0x28 64) 2 2) x)
      have hasked := eq_of_resultPart (resultPart_hostAsk s o)
      obtain ⟨hmailbox, hnumber⟩ := mailbox_number_of_order (order_of_admitted hadm)
      have htrust : (hostAsk s o).trust = s.trust := (congrArg State.trust hasked :)
      refine ⟨_, congrArg _ (formGroupOwn_forms hblock hread hreserved hgood hptp hcan), ?_⟩
      rw [hgroup]
      refine ⟨rfl, rfl, ?_, rfl, (congrArg State.now hasked :), ?_, rfl, rfl, hmem.trans (congrArg State.mem hasked :),
        hruns.trans (congrArg State.runs hasked :)⟩
      · rw [← htrust] at hgood ⊢
        exact own_mem_of_memberBad hgood
      · exact congrArg some (Prod.ext hmailbox hnumber)
  case leave =>
    rw [exec_leaveGroup_of_admitted hadm]
    obtain ⟨hmailbox, hnumber⟩ := mailbox_number_of_order (order_of_admitted hadm)
    refine ⟨fun hsolo => by rw [leaveGroupOwn_solo hsolo], fun hgroup hview => by rw [leaveGroupOwn_outside hgroup hview],
      fun hview hruns => ⟨_, rfl, ?_⟩⟩
    have hpart := viewPart_leaveGroupOwn hview hruns o
    have hstands := standing_of_viewPart hpart
    obtain ⟨-, hmem, hsame⟩ := kept_of_viewPart hpart
    exact ⟨(congrArg Group.leaveOrder hstands :).trans (congrArg some (Prod.ext hmailbox hnumber)),
      (congrArg Group.state hstands :), (congrArg Group.view hstands :), hmem, hsame⟩
  case ends =>
    dsimp only
    refine ⟨exec_formationEnd_waits, fun hforming hkeeper hall hnext => ?_, fun hother => congrArg Host.Outcome.next (if_pos hother),
      fun hforming hkeeper hmost hnext => ?_, fun m n o hforming hfew hnext hwaits horder hheld => ?_,
      fun x hforming hnext hout horder => ?_⟩
    · exact ⟨_, exec_formationEnd_announces hforming hkeeper hall, tellFrame_iff.mpr (tellPart_announce hnext _ _ _)⟩
    · exact ⟨_, exec_formTimeout_announces hforming hkeeper hmost hnext, tellFrame_iff.mpr (tellPart_announce hnext _ _ _)⟩
    · exact ⟨_, exec_formTimeout_fails hforming hfew hnext, formFails_leaves hwaits horder hheld eLate⟩
    · exact ⟨_, exec_formTimeout_leftOut hforming hnext hout horder, rfl, rfl, rfl, rfl, rfl⟩

end Sys2Proof.Machine
end

section
/-!
SUPPORT. Identity records (R238, R240, R255, R414): when one is sent, and what a record that arrives makes of its link and of the
member that it disagrees with.
-/

namespace Sys2Proof.Machine

/-! Sending (R240). -/

theorem exec_identitySend_waits {s : State} {l : Nat} (h : (s.link l).state ≠ 2 ∨ s.health.imionStopped = true) :
    exec (.identitySend l) s = .next s := congrArg Host.Outcome.next (if_pos h)

/-- Without a change and before its time is up no record is sent. -/
theorem exec_identitySend_unchanged {s : State} {l : Nat} (hsame : (s.link l).idSent = identityBody s l 0)
    (hsoon : s.beat.number < (s.link l).idBeat + 256) : exec (.identitySend l) s = .next s := by
  refine congrArg Host.Outcome.next ?_
  split
  · rfl
  · exact if_pos ⟨hsame, hsoon⟩

theorem exec_identitySend_sends {s : State} {l : Nat} (hup : (s.link l).state = 2) (hruns : s.health.imionStopped = false)
    (hdue : (s.link l).idSent ≠ identityBody s l 0 ∨ (s.link l).idBeat + 256 ≤ s.beat.number) :
    exec (.identitySend l) s = .next (pushCtl (s.onLink l (fun k => { k with idSent := identityBody s l 0, idBeat := s.beat.number }))
      l 1 (identityBody s l s.beat.number)) := by
  refine congrArg Host.Outcome.next ?_
  rw [if_neg (by simp [hup, hruns])]
  refine if_neg fun ⟨hsame, hsoon⟩ => ?_
  rcases hdue with h | h
  · exact h hsame
  · omega

theorem link_pushCtl_same (s : State) (l ty : Nat) (body : List Byte) : (pushCtl s l ty body).link l =
    { s.link l with ctlQ := (s.link l).ctlQ ++ [leBytes 1 ty ++ leBytes 1 0 ++ leBytes 2 body.length ++ body] } :=
  link_onLink_same _ _ _

/-! Receiving (R238, R255). -/

/-- The device once it has kept a record as the far end's, and counted it. -/
def withRecord (s : State) (l : Nat) (d : List Byte) : State := (s.onLink l (fun k => { k with peer := d })).bump Ctr.identityRecords 0 1

@[simp] theorem meshPart_withRecord (s : State) (l : Nat) (d : List Byte) : meshPart (withRecord s l d) = meshPart s :=
  (meshPart_bump _ _ _ _).trans (meshPart_onLink _ _ _)

theorem tellPart_withRecord (s : State) (l : Nat) (d : List Byte) : tellPart (withRecord s l d) = tellPart s :=
  (tellPart_bump _ _ _ _).trans (tellPart_onLink _ _ _)

theorem listed_of_tellPart {s u : State} (h : tellPart u = tellPart s) (d : List Byte) : listed u d = listed s d := by
  have hgroup : u.group = s.group := (congrArg State.group h :)
  simp [listed, hgroup]

/-- The links of a record admitted: its group link, the routes, the tree and what is told over it (R238, R250, R282). -/
def joined (s : State) (l : Nat) (d : List Byte) : State :=
  let s' := admitLink s l d
  if !(s.link l).isGroup || (s.link l).peerRank != field d 4 2 then
    reportLinks (tellKnown (setTree (recompute s')) (field d 4 2))
  else setTree s'

@[simp] theorem meshPart_joined (s : State) (l : Nat) (d : List Byte) : meshPart (joined s l d) = meshPart s := by
  have hadmit : meshPart (admitLink s l d) = meshPart s := rfl
  unfold joined
  dsimp only
  split <;> simp [hadmit]

theorem linkPart_joined (s : State) (l : Nat) (d : List Byte) : linkPart (joined s l d) l =
    { linkPart s l with isGroup := true, peerRank := field d 4 2, peerSerial := field d 8 8 } := by
  have hadmit : linkPart (admitLink s l d) l =
      { linkPart s l with isGroup := true, peerRank := field d 4 2, peerSerial := field d 8 8 } := by
    unfold linkPart admitLink
    rw [link_onLink_same]
  unfold joined
  dsimp only
  split
  · rw [linkPart_reportLinks, linkPart_tellKnown, linkPart_setTree]
    exact hadmit
  · rw [linkPart_setTree]
    exact hadmit

/-- What a record kept as the far end's makes of the device (R238, R255). -/
def takeRecord (s : State) (l : Nat) (d : List Byte) : State :=
  if s.group.state = 0 then s
  else if duplicate s l d then duplicateSerial s l d
  else if !listed s d then refuseRecord s l
  else if slice d 0x10 2 ≠ slice (fwVersion s) 0 2 then
    let s := refuseRecord s l
    if s.group.state = 1 ∧ (field d 4 2 = s.group.keeper ∨ field d 2 1 = 2 ∨ field d 2 1 = 3) then formFails s eGroupVersion else s
  else disagree (joined s l d) l d

theorem exec_identity (s : State) (l : Nat) (d : List Byte) :
    exec (.identity l d) s = .next (takeRecord (withRecord s l d) l d) := rfl

theorem takeRecord_solo {s : State} (h : s.group.state = 0) (l : Nat) (d : List Byte) : takeRecord s l d = s := if_pos h

section
variable {s : State} {l : Nat} {d : List Byte} (hgroup : s.group.state ≠ 0) (honce : duplicate s l d = false)
include hgroup honce

theorem takeRecord_foreign (hforeign : listed s d = false) : takeRecord s l d = refuseRecord s l := by
  simp [takeRecord, hgroup, honce, hforeign]

theorem takeRecord_admits (hlisted : listed s d = true) (hversion : slice d 0x10 2 = slice (fwVersion s) 0 2) :
    takeRecord s l d = disagree (joined s l d) l d := by
  simp [takeRecord, hgroup, honce, hlisted, hversion]

end

/-- A forming device has no state of a view that a record could disagree with. -/
theorem disagree_forming {s : State} (h : s.group.state = 1) (l : Nat) (d : List Byte) : disagree s l d = s := by
  simp [disagree, inView, h]

/-- A member of an older view than a neighbour's, without a view announced, fences itself (R255). -/
theorem disagree_older {s : State} {d : List Byte} (hview : inView s = true) (hkey : field d 0x16 1 = keyNum s 1)
    (hpeer : field d 2 1 = 2 ∨ field d 2 1 = 3) (hepoch : s.group.epoch < field d 0x20 4) (hnext : s.group.next = none) (l : Nat) :
    disagree s l d = fenceSelf s 2 := by
  have hmember : s.group.state ≠ 4 := by
    intro h
    simp [inView, h] at hview
  have hseen : (field d 2 1 == 2 || field d 2 1 == 3) = true := by simpa using hpeer
  simp [disagree, hmember, hview, hkey, hseen, hepoch, hnext]

/-- Settles O35: the sending of a record by the state of its link and of what was sent, and one that arrives by what the device makes
of its sender; the links of an admitted record are followed, and a member of an older view fences itself. -/
theorem identitiesAreExchanged : Obligations.IdentitiesAreExchanged := by
  unfold Obligations.IdentitiesAreExchanged
  intro s l
  refine ⟨exec_identitySend_waits, fun _ hsame hsoon => exec_identitySend_unchanged hsame hsoon, fun hup hruns hdue => ?sends,
    fun d => ?arrives⟩
  case sends =>
    refine ⟨_, exec_identitySend_sends hup hruns hdue, ?_, ?_, ?_, fun j hj => ?_, rfl⟩
    · rw [link_pushCtl_same, link_onLink_same]
    · rw [link_pushCtl_same, link_onLink_same]
    · rw [link_pushCtl_same, link_onLink_same]
      simp
    · exact (link_onLink_other hj _ _).trans (link_onLink_other hj _ _)
  case arrives =>
    have hpart := tellPart_withRecord s l d
    have hgroup : (withRecord s l d).group = s.group := (congrArg State.group hpart :)
    have hlisted := listed_of_tellPart hpart d
    have hversion : fwVersion (withRecord s l d) = fwVersion s := (congrArg fwVersion hpart :)
    have hmesh : meshPart (joined (withRecord s l d) l d) = meshPart s := (meshPart_joined _ _ _).trans (meshPart_withRecord s l d)
    simp only [exec_identity]
    refine ⟨fun hsolo => ?_, fun hstate (honce : duplicate (withRecord s l d) l d = false) hforeign => ?_,
      fun hstate (honce : duplicate (withRecord s l d) l d = false) hlist hver => ?_,
      fun hstate hleave (honce : duplicate (withRecord s l d) l d = false) hlist hver hkey hpeer hepoch hnext => ?_⟩
    · exact congrArg Host.Outcome.next (takeRecord_solo (hgroup ▸ hsolo) l d)
    · exact congrArg Host.Outcome.next (takeRecord_foreign (hgroup ▸ hstate) honce (hlisted.trans hforeign))
    · have hjoined := group_of_meshPart hmesh
      have hforming : (joined (withRecord s l d) l d).group.state = 1 := by rw [hjoined]; exact hstate
      rw [takeRecord_admits (by rw [hgroup, hstate]; decide) honce (hlisted.trans hlist) (hversion ▸ hver), disagree_forming hforming]
      have hlink := linkPart_joined (withRecord s l d) l d
      have hpeer : linkPart (withRecord s l d) l = { linkPart s l with peer := d } := by
        refine (linkPart_bump _ _ _ _ _).trans ?_
        unfold linkPart
        rw [link_onLink_same]
      rw [hpeer] at hlink
      exact ⟨_, rfl, (congrArg Link.isGroup hlink :), (congrArg Link.peerRank hlink :), (congrArg Link.peerSerial hlink :),
        (congrArg Link.peer hlink :), hjoined, tellFrame_of_meshPart hmesh⟩
    · have hjoined := group_of_meshPart hmesh
      have hview : inView (joined (withRecord s l d) l d) = true := by
        rw [inView, hjoined]
        simpa using hstate
      have hlog : keyNum (joined (withRecord s l d) l d) 1 = keyNum s 1 := (congrArg (fun x : State => keyNum x 1) hmesh :)
      have hother : s.group.state ≠ 0 := by omega
      rw [takeRecord_admits (hgroup ▸ hother) honce (hlisted.trans hlist) (hversion ▸ hver),
        disagree_older hview (hlog ▸ hkey) hpeer (by rw [hjoined]; exact hepoch) (by rw [hjoined]; exact hnext)]
      have hfenced := fenceSelf_group hview (by rw [hjoined]; exact hleave) 2
      exact ⟨_, rfl, congrArg Group.state hfenced, congrArg Group.view hfenced⟩

end Sys2Proof.Machine
end

section
/-!
SUPPORT. Views (R234, R242, R257, R258): what pushes in progress leave of the group when a view drops ranks, what a view in effect
makes of it, and which view may be announced then.
-/

namespace Sys2Proof.Machine

/-! A rank dropped during a push (R295) leaves the group and its configuration. -/

theorem configPart_of_outsidePushes {s u : State} (h : outsidePushes u = outsidePushes s) : configPart u = configPart s :=
  (congrArg configPart h :)

@[simp] theorem outsidePushes_ackNode (f : Nat) (s : State) (key node k : Nat) :
    outsidePushes (ackNode f s key node k) = outsidePushes s := by
  induction f generalizing s node with
  | zero => rfl
  | succ f ih =>
    unfold ackNode
    split
    · rfl
    · split
      · exact (foldl_leaves (fun x c => ih x _) _ _).trans (outsidePushes_onPush ..)
      · exact outsidePushes_sendTransfer ..

@[simp] theorem outsidePushes_sendSlice (s : State) (op dest key node slice count : Nat) (vals : List F32) :
    outsidePushes (sendSlice s op dest key node slice count vals) = outsidePushes s :=
  foldl_leaves (fun _ _ => outsidePushes_sendTransfer ..) _ _

@[simp] theorem outsidePushes_takePart (s : State) (key child k c : Nat) (vals : List F32) :
    outsidePushes (takePart s key child k c vals) = outsidePushes s := by
  unfold takePart
  split
  · rfl
  · simp only [apply_ite outsidePushes, outsidePushes_bump, outsidePushes_ackNode, outsidePushes_onPush, ite_self]

@[simp] theorem outsidePushes_sendPart (s : State) (p : Push) (k c : Nat) (vals : List F32) :
    outsidePushes (sendPart s p k c vals) = outsidePushes s := by
  unfold sendPart
  split
  · rfl
  · split <;> simp

@[simp] theorem configPart_notePush (s : State) (key : Nat) : configPart (notePush s key) = configPart s := by
  unfold notePush
  split
  · rfl
  · split <;> rfl

@[simp] theorem configPart_dropFrom (gone : List Nat) (s : State) (key : Nat) : configPart (dropFrom gone s key) = configPart s := by
  unfold dropFrom
  split
  · rfl
  · refine (configPart_notePush _ _).trans (configPart_of_outsidePushes ((outsidePushes_settleAll _ _).trans ?_))
    refine (foldl_leaves (fun x p => ?_) _ _).trans rfl
    split
    · refine (outsidePushes_bump _ _ _ _).trans ((foldl_leaves (fun y z => outsidePushes_sendPart ..) _ _).trans ?_)
      split
      · exact outsidePushes_onPush ..
      · exact outsidePushes_sendStatus ..
    · rfl

@[simp] theorem configPart_dropRanks (s : State) (gone : List Nat) : configPart (dropRanks s gone) = configPart s := by
  unfold dropRanks
  split
  · rfl
  · exact foldl_leaves (fun x key => configPart_dropFrom gone x key) _ _

/-! A view takes effect (R234, R242, R257). -/

/-- The committed keys and the group, but for what the end of formation and a report of links change of it. -/
def entryPart (s : State) : List (Nat × List Byte) × Group :=
  (s.keys, { s.group with viewBeat := 0, reportNo := 0, formOrder := none })

theorem entryPart_of_configPart {s u : State} (h : configPart u = configPart s) : entryPart u = entryPart s :=
  congrArg (fun x : List (Nat × List Byte) × Group => (x.1, { x.2 with viewBeat := 0, reportNo := 0, formOrder := none })) h

theorem entryPart_of_meshPart {s u : State} (h : meshPart u = meshPart s) : entryPart u = entryPart s :=
  (congrArg entryPart h :)

@[simp] theorem configPart_endWaiting (s : State) (w : Option (Nat × Nat)) (st : BitVec 8) (d : List Byte) :
    configPart (endWaiting s w st d) = configPart s := by
  unfold endWaiting
  split
  · split
    · exact configPart_complete _ _ _ _
    · rfl
  · rfl

@[simp] theorem entryPart_endForm (s : State) (st : BitVec 8) (absent rank epoch : Nat) :
    entryPart (endForm s st absent rank epoch) = entryPart s :=
  (entryPart_of_configPart (configPart_endWaiting _ _ _ _)).trans rfl

/-- The group of a view in effect. -/
def enteredGroup (g : Group) (v : ViewAnn) : Group :=
  { g with
    state := if v.hold then 2 else 3, epoch := v.epoch, view := v.ranks, lastView := v.ranks, keeper := v.keeper
    viewKeeper := v.keeper, next := none, leaveAsked := false
    reports := if v.keeper = g.viewKeeper then g.reports else g.reports.filter (fun x => x.1 != g.rank)
    viewBeat := 0, reportNo := 0, formOrder := none }

/-- A view enters into effect, and then the changes that waited for it are announced. -/
theorem exists_enterView_eq (s : State) (v : ViewAnn) :
    ∃ t, enterView s v = nextChange t ∧ entryPart t = (s.keys, enteredGroup s.group v) := by
  unfold enterView
  extract_lets old gone first beat entered group dated posted rejoined counted heldBeat kept held treed told formed
  have hentered : entryPart entered = (s.keys, enteredGroup s.group v) := rfl
  have hdated : entryPart dated = entryPart entered := rfl
  have hposted : configPart posted = configPart dated := (configPart_bump _ _ _ _).trans (configPart_postEvent _ _ _)
  have hrejoined : configPart rejoined = configPart posted := by
    unfold rejoined
    split
    · exact configPart_postEvent _ _ _
    · rfl
  have hcounted : configPart counted = configPart rejoined := by
    unfold counted
    split
    · exact configPart_bump _ _ _ _
    · rfl
  have hkept : configPart kept = configPart rejoined := by
    unfold kept
    split
    · exact (configPart_postEvent _ _ _).trans hcounted
    · rfl
  have hheld : configPart held = configPart kept := by
    unfold held
    split
    · exact configPart_postEvent _ _ _
    · split
      · exact configPart_postEvent _ _ _
      · rfl
  have htold : meshPart told = meshPart held :=
    (meshPart_reportLinks _).trans ((meshPart_setTree _).trans (meshPart_recompute _))
  have hformed : entryPart formed = entryPart told := by
    unfold formed
    split
    · exact entryPart_endForm _ _ _ _ _
    · rfl
  have hconfig : configPart held = configPart dated := hheld.trans (hkept.trans (hrejoined.trans hposted))
  refine ⟨_, rfl, ?_⟩
  calc entryPart (dropRanks formed gone)
    _ = entryPart formed := entryPart_of_configPart (configPart_dropRanks _ _)
    _ = entryPart told := hformed
    _ = entryPart held := entryPart_of_meshPart htold
    _ = entryPart dated := entryPart_of_configPart hconfig
    _ = (s.keys, enteredGroup s.group v) := hdated.trans hentered

/-- A view announced follows the one in effect. -/
def NextFollows (s : State) : Prop := ∀ x, s.group.next = some x → x.epoch = s.group.epoch + 1

theorem NextFollows.of_group {s u : State} (h : NextFollows s) (hnext : u.group.next = s.group.next)
    (hepoch : u.group.epoch = s.group.epoch) : NextFollows u := by
  unfold NextFollows
  rw [hnext, hepoch]
  exact h

theorem NextFollows.announce {s : State} (h : NextFollows s) (ranks : List Nat) (keeper : Nat) (hold : Bool) :
    NextFollows (announce s ranks keeper hold) := by
  by_cases hnext : s.group.next = none
  · intro x hx
    rw [group_announce hnext] at hx ⊢
    obtain rfl := Option.some.inj hx
    rfl
  · rwa [announce_of_announced hnext]

theorem NextFollows.changeView {s : State} (h : NextFollows s) (drops adds : List Nat) : NextFollows (changeView s drops adds) := by
  unfold Machine.changeView
  dsimp only
  split
  · split
    · exact h
    · exact h.of_group rfl rfl
  · split
    · exact h
    · exact h.announce _ _ _

theorem NextFollows.checkHold {s : State} (h : NextFollows s) : NextFollows (checkHold s) := by
  unfold Machine.checkHold
  split
  · exact h.announce _ _ _
  · exact h

theorem NextFollows.nextChange {s : State} (h : NextFollows s) : NextFollows (nextChange s) :=
  ((h.of_group (u := { s with group := { s.group with drops := [], adds := [] } }) rfl rfl).changeView _ _).checkHold

/-! The commands (R234). -/

theorem exec_viewAnnouncement_keeps {s : State} {epoch : Nat} {ranks : List Nat} (hgroup : s.group.state ≠ 0)
    (hepoch : s.group.epoch < epoch) (hnamed : s.group.state = 4 → s.group.rank ∈ ranks) (keeper beat : Nat) (hold : Option Nat) :
    exec (.viewAnnouncement epoch ranks keeper beat hold) s = .next { s with group := { s.group with
      next := some { epoch := epoch, ranks := ranks, keeper := keeper, beat := beat, hold := hold.isSome, differs := hold.getD 0 } } } := by
  have hdiffers : (if hold.isSome then hold.getD 0 else 0) = hold.getD 0 := by cases hold <;> rfl
  refine congrArg Host.Outcome.next ((if_neg ?_).trans (by rw [hdiffers]))
  rintro (h | h | ⟨hfenced, hout⟩)
  · exact hgroup h
  · omega
  · simp [hnamed hfenced] at hout

theorem exec_viewAnnouncement_ignores {s : State} {epoch : Nat} {ranks : List Nat}
    (h : s.group.state = 0 ∨ epoch ≤ s.group.epoch ∨ (s.group.state = 4 ∧ s.group.rank ∉ ranks)) (keeper beat : Nat)
    (hold : Option Nat) : exec (.viewAnnouncement epoch ranks keeper beat hold) s = .next s :=
  congrArg Host.Outcome.next (if_pos (by simpa using h))

theorem exec_viewBeat_waits {s : State} (h : s.group.next = none ∨ ∃ v, s.group.next = some v ∧ s.beat.number < v.beat) :
    exec .viewBeat s = .next s := by
  refine congrArg Host.Outcome.next ?_
  rcases h with h | ⟨v, h, hbeat⟩
  · simp only [h]
  · simp only [h]
    exact if_pos hbeat

section
variable {s : State} {v : ViewAnn} (hnext : s.group.next = some v) (hbegun : v.beat ≤ s.beat.number)
include hnext hbegun

theorem exec_viewBeat_enters (hin : s.group.rank ∈ v.ranks) : exec .viewBeat s = .next (enterView s v) := by
  refine congrArg Host.Outcome.next ?_
  simp only [hnext, Nat.not_lt.mpr hbegun, if_false]
  exact if_pos (by simpa using hin)

theorem exec_viewBeat_fences (hout : s.group.rank ∉ v.ranks) (hview : inView s = true) (hleave : s.group.leaveOrder = none) :
    exec .viewBeat s = .next (fenceSelf { s with group := { s.group with next := none } } 1) := by
  have hmember : s.group.state ≠ 1 := by
    intro h
    simp [inView, h] at hview
  refine congrArg Host.Outcome.next ?_
  simp only [hnext, Nat.not_lt.mpr hbegun, if_false]
  rw [if_neg (by simpa using hout), if_neg hmember]
  exact if_neg (by simp [hleave])

end

/-- Settles O36: an announcement by whether it is kept, a view's beat by whether it has begun and by whether the view has the device; a
view in effect leaves the membership it names, and what is announced then follows it. -/
theorem viewsTakeEffect : Obligations.ViewsTakeEffect := by
  unfold Obligations.ViewsTakeEffect
  intro s
  refine ⟨fun epoch ranks keeper beat hold => ⟨fun hgroup hepoch hnamed => ?_, fun h => ?_⟩, exec_viewBeat_waits,
    fun v hnext hbegun hin => ?enters, fun v hnext hbegun hout hview hleave => ?fences⟩
  · exact exec_viewAnnouncement_keeps hgroup hepoch hnamed keeper beat hold
  · exact exec_viewAnnouncement_ignores h keeper beat hold
  case enters =>
    obtain ⟨t, henter, hentry⟩ := exists_enterView_eq s v
    obtain ⟨hkeys, hgroup⟩ := Prod.mk.inj hentry
    have hpart := viewPart_nextChange t
    have hstands := standing_of_viewPart hpart
    obtain ⟨hkept, -, -⟩ := kept_of_viewPart hpart
    have hepoch : t.group.epoch = v.epoch := (congrArg Group.epoch hgroup :)
    have hnone : t.group.next = none := (congrArg Group.next hgroup :)
    have hepochAfter : (nextChange t).group.epoch = v.epoch := (congrArg Group.epoch hstands :).trans hepoch
    have hfollows : NextFollows t := by
      intro x hx
      rw [hnone] at hx
      cases hx
    rw [exec_viewBeat_enters hnext hbegun hin, henter]
    refine ⟨_, rfl, (congrArg Group.state hstands :).trans (congrArg Group.state hgroup :), hepochAfter,
      (congrArg Group.view hstands :).trans (congrArg Group.view hgroup :),
      (congrArg Group.keeper hstands :).trans (congrArg Group.keeper hgroup :),
      (congrArg Group.rank hstands :).trans (congrArg Group.rank hgroup :), hkept.trans hkeys, fun x hx => ?_⟩
    rw [← hepochAfter]
    exact hfollows.nextChange x hx
  case fences =>
    have hviewBefore : inView { s with group := { s.group with next := none } } = true := hview
    rw [exec_viewBeat_fences hnext hbegun hout hview hleave]
    have hfenced := fenceSelf_group hviewBefore hleave 1
    obtain ⟨-, hkeys, -⟩ := fenceSelf_fences hviewBefore hleave 1
    exact ⟨_, rfl, congrArg Group.state hfenced, congrArg Group.view hfenced, hkeys⟩

end Sys2Proof.Machine
end

section
/-!
SUPPORT. Splits, the fence, rejoining and re-forming (R256, R258, R260, R261): the side a member is on after a link loss, the view
that a rank is brought back into, and the view that fenced members form.
-/

namespace Sys2Proof.Machine

/-! The numbers below a bound that pass a test. -/

theorem mem_below {n r : Nat} {p : Nat → Bool} : r ∈ below n p ↔ r < n ∧ p r = true := by simp [below]

theorem pairwise_below (n : Nat) (p : Nat → Bool) : (below n p).Pairwise (· < ·) := List.Pairwise.filter _ List.pairwise_lt_range

/-- A list of numbers below a bound, taken anew, is the same. -/
theorem below_contains_below (n : Nat) (p : Nat → Bool) : below n (fun r => (below n p).contains r) = below n p := by
  refine List.filter_congr fun r hr => ?_
  have hbound : r < n := List.mem_range.mp hr
  rw [Bool.eq_iff_iff, List.contains_iff_mem, mem_below]
  exact and_iff_right hbound

/-- The head of an ascending list is in it and no greater than any of it. -/
theorem headD_of_pairwise_lt {l : List Nat} (hl : l.Pairwise (· < ·)) {r : Nat} (hr : r ∈ l) :
    l.headD 0 ∈ l ∧ ∀ x, x ∈ l → l.headD 0 ≤ x := by
  cases l with
  | nil => cases hr
  | cons a l =>
    refine ⟨List.mem_cons_self, fun x hx => ?_⟩
    rcases List.mem_cons.mp hx with rfl | hx
    · exact Nat.le_refl _
    · exact Nat.le_of_lt (List.rel_of_pairwise_cons hl hx)

/-! The side after a link loss (R256, R282). -/

/-- The device with the links that the members report, once the loss has been acted on. -/
def lossNoted (s : State) (e : List (Nat × Nat × Nat)) : State := { s with group := { s.group with edges := e, lossAt := none } }

/-- The ranks of the view that a device reaches over links between ranks of the view. -/
def sideOfView (s : State) : List Nat :=
  let g := (linkGraph s (ownLinks s)).filter (fun x => s.group.view.contains x.1 && s.group.view.contains x.2)
  s.group.view.filter (fun r => ((reached g (fun _ => true) s.group.rank 1024).map (fun x => x.1)).contains r)

theorem exec_splitSide_ignores {s : State} (h : s.group.lossAt = none ∨ inView s = false) (e : List (Nat × Nat × Nat)) :
    exec (.splitSide e) s = .next s := congrArg Host.Outcome.next (if_pos (by simpa using h))

@[simp] theorem setTree_group (s : State) : (setTree s).group = s.group := by
  obtain ⟨p, a, n, h⟩ := exists_setTree_eq s
  rw [h]

theorem setTree_eq (s : State) : setTree s = { s with beat := (setTree s).beat } := by
  obtain ⟨p, a, n, h⟩ := exists_setTree_eq s
  rw [h]

theorem sideOfView_setTree (s : State) : sideOfView (setTree s) = sideOfView s := by
  rw [setTree_eq]
  rfl

theorem beatAfter_setTree (s : State) (k : Nat) : beatAfter (setTree s) k = beatAfter s k := by
  obtain ⟨p, a, n, h⟩ := exists_setTree_eq s
  rw [h]
  rfl

/-- A side of half the view or less is to fence itself 4 bt later. -/
theorem exec_splitSide_fences {s : State} {e : List (Nat × Nat × Nat)} (hloss : s.group.lossAt.isSome = true)
    (hview : inView s = true) (hless : (sideOfView (recompute (lossNoted s e))).length < s.group.view.length)
    (hhalf : 2 * (sideOfView (recompute (lossNoted s e))).length ≤ s.group.view.length) :
    exec (.splitSide e) s = .next { setTree (recompute (lossNoted s e)) with
      group := { (lossNoted s e).group with fenceBeat := some (beatAfter s 4) } } := by
  have hside := sideOfView_setTree (recompute (lossNoted s e))
  have hgroup : (setTree (recompute (lossNoted s e))).group = (lossNoted s e).group := setTree_group _
  have hbeat : beatAfter (setTree (recompute (lossNoted s e))) 4 = beatAfter s 4 := beatAfter_setTree _ _
  have hexec : ¬(s.group.lossAt.isNone = true ∨ (!inView s) = true) := by
    rintro (h | h)
    · rw [Option.isNone_iff_eq_none.mp h] at hloss
      cases hloss
    · simp [hview] at h
  have hpart : (sideOfView (setTree (recompute (lossNoted s e)))).length ≠ (setTree (recompute (lossNoted s e))).group.view.length := by
    rw [hside, hgroup]
    exact Nat.ne_of_lt hless
  have hfew : ¬(setTree (recompute (lossNoted s e))).group.view.length < 2 * (sideOfView (setTree (recompute (lossNoted s e)))).length := by
    rw [hside, hgroup]
    exact Nat.not_lt.mpr hhalf
  refine congrArg Host.Outcome.next ((if_neg hexec).trans ((if_neg hpart).trans ((if_neg hfew).trans ?_)))
  rw [← hgroup, ← hbeat]
  rfl

theorem exec_fenceBeat_waits {s : State} {b : Nat} (hb : s.group.fenceBeat = some b) (hbefore : s.beat.number < b) :
    exec .fenceBeat s = .next s := by
  refine congrArg Host.Outcome.next ?_
  simp only [hb]
  exact if_neg (Nat.not_le.mpr hbefore)

theorem exec_fenceBeat_fences {s : State} {b : Nat} (hb : s.group.fenceBeat = some b) (hbegun : b ≤ s.beat.number) :
    exec .fenceBeat s = .next (fenceSelf s 1) := by
  refine congrArg Host.Outcome.next ?_
  simp only [hb]
  exact if_pos hbegun

/-! A view announced. -/

theorem mem_ranks_announced (s : State) (ranks : List Nat) (keeper : Nat) (hold : Bool) (r : Nat) :
    r ∈ (announced s ranks keeper hold).ranks ↔ r < 1024 ∧ r ∈ ranks := by
  simp only [announced, mem_below, List.contains_iff_mem]

theorem announced_hold (s : State) (ranks : List Nat) (keeper : Nat) (hold : Bool) : (announced s ranks keeper hold).hold = hold := rfl

theorem tellFrame_announce {s : State} (h : s.group.next = none) (ranks : List Nat) (keeper : Nat) (hold : Bool) :
    Safety.TellFrame { s with group := (announce s ranks keeper hold).group } (announce s ranks keeper hold) := by
  rw [group_announce h]
  exact tellFrame_iff.mpr (tellPart_announce h ranks keeper hold)

/-- The keeper of a view keeps it in every view that holds it. -/
theorem keeperOf_of_mem {s : State} {ranks : List Nat} (h : s.group.keeper ∈ ranks) : keeperOf s ranks = s.group.keeper :=
  if_pos (List.contains_iff_mem.mpr h)

/-! Rejoining (R260). -/

/-- The coordinator may bring a rank back: it is a listed rank outside the view, near enough, of the own major version and the
keeper's digest, and has been LOCKED for long enough. -/
def mayRejoin (s : State) (rank hops major lockedBt : Nat) (digest : List Byte) : Prop :=
  coordinates s = true ∧ rank ∉ s.group.view ∧ (∃ e, e ∈ s.group.members ∧ e.1 = rank) ∧ hops ≤ 8
    ∧ leBytes 2 major = slice (fwVersion s) 0 2 ∧ 16 ≤ lockedBt
    ∧ (knownDigest s s.group.keeper).getD (configDigest s) = digest

theorem mayRejoin_iff {s : State} {rank hops major lockedBt : Nat} {digest : List Byte} :
    mayRejoin s rank hops major lockedBt digest ↔
      ¬(!coordinates s ∨ s.group.view.contains rank ∨ !s.group.members.any (fun e => e.1 == rank) ∨ 8 < hops
        ∨ leBytes 2 major ≠ slice (fwVersion s) 0 2 ∨ lockedBt < 16
        ∨ (knownDigest s s.group.keeper).getD (configDigest s) ≠ digest) := by
  simp [mayRejoin, not_or]

section
variable {s : State} {rank hops major lockedBt : Nat} {digest : List Byte}

theorem exec_rejoin_refuses (h : ¬ mayRejoin s rank hops major lockedBt digest) :
    exec (.rejoin rank hops major lockedBt digest) s = .next s :=
  congrArg Host.Outcome.next (if_pos (Classical.not_not.mp ((not_congr mayRejoin_iff).mp h)))

theorem exec_rejoin_changes (h : mayRejoin s rank hops major lockedBt digest) :
    exec (.rejoin rank hops major lockedBt digest) s = .next (changeView (noteDigest s rank digest) [] [rank]) :=
  congrArg Host.Outcome.next (if_neg (mayRejoin_iff.mp h))

/-- A rank outside the view is taken into it by the next view announced. -/
theorem changeView_adds (hnext : s.group.next = none) (hout : rank ∉ s.group.view) : changeView s [] [rank] =
    announce s (s.group.view ++ [rank]) (keeperOf s (s.group.view ++ [rank])) (differ s (s.group.view ++ [rank])) := by
  have hafter : s.group.view.filter (fun r => !([] : List Nat).contains r) ++ [rank].filter (fun r => !s.group.view.contains r)
      = s.group.view ++ [rank] := by simp [hout]
  unfold changeView
  simp only [hnext, hafter]
  exact if_neg (by simp)

/-- A rank brought back is in the next view, with all of the view, and nothing else but telling it happens. -/
theorem rejoin_announces (hok : mayRejoin s rank hops major lockedBt digest) (hnext : s.group.next = none) :
    ∃ u v, exec (.rejoin rank hops major lockedBt digest) s = .next u ∧ u.group.next = some v ∧ v.epoch = s.group.epoch + 1
      ∧ v.beat = beatAfter s 4 ∧ (s.group.keeper ∈ s.group.view → v.keeper = s.group.keeper)
      ∧ (∀ r, r ∈ v.ranks ↔ r < 1024 ∧ (r = rank ∨ r ∈ s.group.view)) ∧ u.group.view = s.group.view
      ∧ Safety.TellFrame { s with group := u.group } u := by
  obtain ⟨-, hout, -⟩ := id hok
  rw [exec_rejoin_changes hok]
  rw [changeView_adds (s := noteDigest s rank digest) hnext hout]
  generalize hranks : (noteDigest s rank digest).group.view ++ [rank] = ranks
  have hmem : ∀ r, r ∈ ranks ↔ r = rank ∨ r ∈ s.group.view := fun r => by
    rw [← hranks, List.mem_append, List.mem_singleton, or_comm]
    rfl
  have hgroup := group_announce (s := noteDigest s rank digest) hnext ranks (keeperOf (noteDigest s rank digest) ranks)
    (differ (noteDigest s rank digest) ranks)
  exact ⟨_, _, rfl, congrArg Group.next hgroup, rfl, rfl,
    fun hkeeper => keeperOf_of_mem (s := noteDigest s rank digest) ((hmem _).mpr (.inr hkeeper)),
    fun r => (mem_ranks_announced _ _ _ _ r).trans (and_congr_right fun _ => hmem r), (congrArg Group.view hgroup).trans rfl,
    tellFrame_announce (s := noteDigest s rank digest) hnext _ _ _⟩

end

/-! Re-forming (R261). -/

/-- The ranks that re-form: those of the last view that are here, ascending. -/
def reformers (s : State) (ranks : List Nat) : List Nat := below 1024 (fun r => ranks.contains r && s.group.lastView.contains r)

theorem pairwise_reformers (s : State) (ranks : List Nat) : (reformers s ranks).Pairwise (· < ·) := pairwise_below _ _

/-- A view of the ranks that re-form is announced of just those. -/
theorem announced_ranks_reformers (u s : State) (ranks : List Nat) (keeper : Nat) (hold : Bool) :
    (announced u (reformers s ranks) keeper hold).ranks = reformers s ranks := by
  simp only [announced, reformers, below_contains_below]

/-- The device with the keeper of a view to be formed, once its tree follows that keeper. -/
def underKeeper (s : State) (k : Nat) : State := setTree (recompute { s with group := { s.group with keeper := k } })

theorem underKeeper_group (s : State) (k : Nat) : (underKeeper s k).group = { s.group with keeper := k } := setTree_group _

theorem exists_underKeeper_eq (s : State) (k : Nat) :
    ∃ b r, underKeeper s k = { s with group := { s.group with keeper := k }, beat := b, routes := r } := by
  obtain ⟨p, a, n, h⟩ := exists_setTree_eq (recompute { s with group := { s.group with keeper := k } })
  exact ⟨_, _, h⟩

theorem underKeeper_rank (s : State) (k : Nat) : (underKeeper s k).group.rank = s.group.rank := by rw [underKeeper_group]

theorem underKeeper_next (s : State) (k : Nat) : (underKeeper s k).group.next = s.group.next := by rw [underKeeper_group]

theorem underKeeper_epoch (s : State) (k : Nat) : (underKeeper s k).group.epoch = s.group.epoch := by rw [underKeeper_group]

theorem differ_underKeeper (s : State) (k : Nat) (ranks : List Nat) : differ (underKeeper s k) ranks = differ s ranks := by
  obtain ⟨b, r, h⟩ := exists_underKeeper_eq s k
  rw [h]
  rfl

/-- What telling leaves after the keeper is set is what setting the keeper leaves. -/
theorem tellFrame_underKeeper {s u : State} {k : Nat} {g : Group}
    (h : tellPart u = tellPart { underKeeper s k with group := g }) :
    Safety.TellFrame { s with group := u.group, beat := u.beat, routes := u.routes } u := by
  obtain ⟨b, r, hunder⟩ := exists_underKeeper_eq s k
  rw [hunder] at h
  exact tellFrame_iff.mpr (congrArg (fun x : State => { x with group := u.group, beat := u.beat, routes := u.routes }) h :)

/-- The device forms a view of the ranks here under a keeper: as the keeper it announces the view, and else tells the keeper its
configuration. -/
def formUnder (s : State) (here : List Nat) (k : Nat) : State :=
  if k = s.group.rank then announce (underKeeper s k) here k (differ s here)
  else sendMgmt (underKeeper s k) k 10 (digestBody (underKeeper s k))

theorem formUnder_eq (s : State) (here : List Nat) (k : Nat) : formUnder s here k =
    if k = (underKeeper s k).group.rank then announce (underKeeper s k) here k (differ (underKeeper s k) here)
    else sendMgmt (underKeeper s k) k 10 (digestBody (underKeeper s k)) := by
  rw [formUnder, differ_underKeeper, underKeeper_rank]

section
variable {s : State} {ranks : List Nat} {epoch : Nat}

theorem exec_reform_ignores (h : epoch ≠ s.group.epoch + 1 ∨ s.group.state ≠ 4 ∨ s.group.rank ∉ reformers s ranks
    ∨ 2 * (reformers s ranks).length ≤ s.group.lastView.length) : exec (.reform ranks epoch) s = .next s :=
  congrArg Host.Outcome.next (if_pos (by simpa [reformers] using h))

theorem exec_reform_forms (hepoch : epoch = s.group.epoch + 1) (hfenced : s.group.state = 4)
    (hhere : s.group.rank ∈ reformers s ranks) (hmost : s.group.lastView.length < 2 * (reformers s ranks).length) :
    exec (.reform ranks epoch) s = .next (formUnder s (reformers s ranks) ((reformers s ranks).headD 0)) := by
  have hgoes : ¬(epoch ≠ s.group.epoch + 1 ∨ s.group.state ≠ 4 ∨ (!(reformers s ranks).contains s.group.rank) = true
      ∨ 2 * (reformers s ranks).length ≤ s.group.lastView.length) := by
    rintro (h | h | h | h)
    · exact h hepoch
    · exact h hfenced
    · rw [List.contains_iff_mem.mpr hhere] at h
      cases h
    · omega
  rw [formUnder_eq]
  exact congrArg Host.Outcome.next (if_neg hgoes)

end

/-- The lowest rank here announces the view. -/
theorem formUnder_announces (s : State) (here : List Nat) : formUnder s here s.group.rank =
    announce (underKeeper s s.group.rank) here s.group.rank (differ s here) := if_pos rfl

theorem formUnder_keeper {s : State} (hnext : s.group.next = none) (here : List Nat) (k : Nat) :
    (formUnder s here k).group.keeper = k := by
  unfold formUnder
  split
  · rw [group_announce ((underKeeper_next s k).trans hnext), underKeeper_group]
  · exact (congrArg (fun x : State => x.group.keeper) (tellPart_sendMgmt _ _ _ _) :).trans (congrArg Group.keeper (underKeeper_group s k))

/-- Another rank announces nothing. -/
theorem formUnder_tells {s : State} {k : Nat} (hother : k ≠ s.group.rank) (here : List Nat) :
    (formUnder s here k).group.next = s.group.next := by
  rw [formUnder, if_neg hother]
  exact (congrArg (fun x : State => x.group.next) (tellPart_sendMgmt _ _ _ _) :).trans (underKeeper_next s k)

theorem tellFrame_formUnder {s : State} (hnext : s.group.next = none) (here : List Nat) (k : Nat) :
    Safety.TellFrame { s with group := (formUnder s here k).group, beat := (formUnder s here k).beat, routes := (formUnder s here k).routes }
      (formUnder s here k) := by
  unfold formUnder
  split
  · exact tellFrame_underKeeper (tellPart_announce ((underKeeper_next s k).trans hnext) _ _ _)
  · exact tellFrame_underKeeper (k := k) (tellPart_sendMgmt _ _ _ _)

/-- Settles O37: each command by whether its conditions hold; a side of half the view or less by the ranks it reaches, a rejoining rank
by the view announced with it, and re-forming by whether the device is the lowest rank here. -/
theorem splitAndRejoin : Obligations.SplitAndRejoin := by
  unfold Obligations.SplitAndRejoin
  intro s
  refine ⟨exec_splitSide_ignores, fun e hloss hview hless hhalf => ?split, fun b hb => exec_fenceBeat_waits hb,
    fun b hb hbegun hview hleave => ?fence, fun rank hops major lockedBt digest => ?rejoin, fun ranks epoch => ?reform⟩
  case split =>
    refine ⟨_, exec_splitSide_fences hloss hview hless hhalf, rfl, rfl, ?_⟩
    rw [setTree_eq]
    rfl
  case fence =>
    have hfenced := fenceSelf_group hview hleave 1
    obtain ⟨-, hkeys, hprep⟩ := fenceSelf_fences hview hleave 1
    exact ⟨_, exec_fenceBeat_fences hb hbegun, congrArg Group.state hfenced, congrArg Group.view hfenced,
      congrArg Group.lastView hfenced, hprep, hkeys⟩
  case rejoin =>
    refine ⟨exec_rejoin_refuses, fun (hok : mayRejoin s rank hops major lockedBt digest) hnext => ?_⟩
    exact rejoin_announces hok hnext
  case reform =>
    refine ⟨exec_reform_ignores, fun hepoch hfenced (hhere : s.group.rank ∈ reformers s ranks) hmost hnext => ?_⟩
    obtain ⟨hmem, hleast⟩ := headD_of_pairwise_lt (pairwise_reformers s ranks) hhere
    have hkeeper := formUnder_keeper hnext (reformers s ranks) ((reformers s ranks).headD 0)
    refine ⟨_, exec_reform_forms hepoch hfenced hhere hmost, hkeeper.symm ▸ hmem, fun x hx => Nat.le_trans (Nat.le_of_eq hkeeper) (hleast x hx), fun hself => ?_,
      fun hother => (formUnder_tells (hkeeper ▸ hother) _).trans hnext, tellFrame_formUnder hnext _ _⟩
    have hfirst : (reformers s ranks).headD 0 = s.group.rank := hkeeper.symm.trans hself
    rw [hfirst, formUnder_announces]
    have hafter := group_announce ((underKeeper_next s s.group.rank).trans hnext) (reformers s ranks) s.group.rank (differ s (reformers s ranks))
    exact ⟨_, congrArg Group.next hafter, announced_ranks_reformers _ s ranks _ _, announced_hold _ _ _ _, rfl,
      congrArg (· + 1) (underKeeper_epoch _ _)⟩

end Sys2Proof.Machine
end

section
/-!
SUPPORT. The beat (R243, R244, R248 to R252, R278): what the parts of a beat's boundary leave, and what a used mark makes of the
device.
-/

namespace Sys2Proof.Machine

/-! What a multicast's sending leaves of the device outside its runs, streams and links (R286). -/

@[simp] theorem outsidePushes_stopRun (s : State) (t : Nat) (st : BitVec 8) (mi : Nat) :
    outsidePushes (stopRun s t st mi) = outsidePushes s := outsidePushes_of_issuePart (issuePart_stopRun ..)

@[simp] theorem outsidePushes_noteRotWait (s : State) (tag mi core off n : Nat) :
    outsidePushes (noteRotWait s tag mi core off n) = outsidePushes s := by
  unfold noteRotWait
  dsimp only
  split <;> split <;> rfl

@[simp] theorem outsidePushes_noteBad (s : State) (core : Nat) (e : RdErr) : outsidePushes (noteBad s core e) = outsidePushes s := by
  unfold noteBad
  split
  · exact (outsidePushes_of_endPart rfl).trans (outsidePushes_bump _ _ _ _)
  · rfl

@[simp] theorem outsidePushes_failRead (s : State) (tag mi core : Nat) (e : RdErr) :
    outsidePushes (failRead s tag mi core e) = outsidePushes s := by
  cases e <;> simp [failRead, failMacro]

@[simp] theorem outsidePushes_countRead (s : State) (a n : Nat) : outsidePushes (countRead s a n) = outsidePushes s := by
  rw [countRead_eq]
  rfl

@[simp] theorem outsidePushes_countChunk (s : State) (m : Mc) (c off n : Nat) :
    outsidePushes (countChunk s m c off n) = outsidePushes s := by
  unfold countChunk
  split
  · refine foldl_leaves (fun x p => ?_) _ _
    split
    · exact outsidePushes_countRead _ _ _
    · rfl
  · rfl

@[simp] theorem outsidePushes_sendChunk (s : State) (m : Mc) (c : Nat) (d : List Byte) (x : Child) :
    outsidePushes (sendChunk s m c d x) = outsidePushes s := by
  unfold sendChunk
  split
  · rfl
  · exact (foldl_leaves (fun _ _ => outsidePushes_sendTransfer _ _ _ _) _ _).trans (outsidePushes_bump _ _ _ _)

@[simp] theorem outsidePushes_reach (s : State) (t i p : Nat) (ops : List Nat) (item : Nat) :
    outsidePushes (reach s t i p ops item) = outsidePushes s := outsidePushes_of_issuePart (issuePart_reach ..)

@[simp] theorem outsidePushes_setMc (s : State) (m : Mc) : outsidePushes (setMc s m) = outsidePushes s := rfl

@[simp] theorem outsidePushes_pumpFrom (key pos p f : Nat) (s : State) :
    outsidePushes (pumpFrom key pos p f s) = outsidePushes s := by
  induction f generalizing s with
  | zero => rfl
  | succ f ih =>
    have hsent (u : State) (m : Mc) (c : Nat) (d : List Byte) :
        outsidePushes ((m.children.filter Child.attached).foldl (fun s x => sendChunk s m c d x) (countChunk u m c 0 (m.len c)))
          = outsidePushes u :=
      (foldl_leaves (fun y x => outsidePushes_sendChunk y m c d x) _ _).trans (outsidePushes_countChunk ..)
    unfold pumpFrom
    split
    · rfl
    · split
      · rfl
      · split
        · rfl
        · split
          · simp [apply_ite outsidePushes, failMacro]
          · refine (ih _).trans ((outsidePushes_setMc _ _).trans ?_)
            simp [apply_ite outsidePushes, hsent]

@[simp] theorem outsidePushes_noteHold (s : State) (key pos : Nat) : outsidePushes (noteHold s key pos) = outsidePushes s := by
  unfold noteHold
  split
  · rfl
  · simp [apply_ite outsidePushes]

theorem outsidePushes_pumpAll (s : State) : outsidePushes (pumpAll s) = outsidePushes s := by
  refine foldl_leaves (fun x m => ?_) _ _
  unfold pump
  split
  · rfl
  · exact (outsidePushes_noteHold _ _ _).trans (foldl_leaves (fun y p => outsidePushes_pumpFrom _ _ p _ y) _ _)

/-! The beat that begins (R243, R247, R252). -/

/-- The state without its beat and what posting an event may change. -/
def outsideBeat (s : State) : State := { noticePart s with beat := {} }

theorem outsideBeat_of_noticePart {s u : State} (h : noticePart u = noticePart s) : outsideBeat u = outsideBeat s :=
  congrArg (fun x : State => { x with beat := {} }) h

@[simp] theorem outsideBeat_bump (s : State) (k : Nat × Nat) (u n : Nat) : outsideBeat (s.bump k u n) = outsideBeat s :=
  outsideBeat_of_noticePart (noticePart_of_answerPart (answerPart_bump s k u n))

@[simp] theorem outsideBeat_postEvent (s : State) (code : Nat) (d : List Byte) : outsideBeat (postEvent s code d) = outsideBeat s :=
  outsideBeat_of_noticePart (noticePart_postEvent s code d)

theorem beat_of_noticePart {s u : State} (h : noticePart u = noticePart s) : u.beat = s.beat := (congrArg State.beat h :)

@[simp] theorem beat_postEvent (s : State) (code : Nat) (d : List Byte) : (postEvent s code d).beat = s.beat :=
  beat_of_noticePart (noticePart_postEvent s code d)

@[simp] theorem beat_bump (s : State) (k : Nat × Nat) (u n : Nat) : (s.bump k u n).beat = s.beat :=
  beat_of_noticePart (noticePart_of_answerPart (answerPart_bump s k u n))

theorem outsideBeat_rateAdjust (s : State) : outsideBeat (rateAdjust s) = outsideBeat s := by
  unfold rateAdjust
  split <;> rfl

/-- The keeper's beat with its source back (R247). -/
def sourceBack (b : Beat) : Beat :=
  { b with sourceLocked := true, holdover := false, slewing := false, holdoverBt := 0, srcErr := 0, srcRemoved := 0, adjustNext := 0 }

theorem finishSource_eq (s : State) : finishSource s =
    setBeatOut (postEvent { s with beat := sourceBack s.beat } 0x0A (items [encInt 32 s.beat.srcRemoved])) := rfl

theorem outsideBeat_setBeatOut (s : State) : outsideBeat (setBeatOut s) = outsideBeat s := rfl

theorem outsideBeat_finishSource (s : State) : outsideBeat (finishSource s) = outsideBeat s := by
  rw [finishSource_eq, outsideBeat_setBeatOut, outsideBeat_postEvent]
  rfl

theorem beat_setBeatOut (s : State) : (setBeatOut s).beat =
    { s.beat with beatOut := drivesBeatOut s && decide (s.now < s.beat.startAt + 64) } := rfl

/-- The beat of the keeper once its source is back, but for BEAT_OUT's level. -/
theorem finishSource_beat (s : State) : ∃ o, (finishSource s).beat = { sourceBack s.beat with beatOut := o } := by
  rw [finishSource_eq, beat_setBeatOut, beat_postEvent]
  exact ⟨_, rfl⟩

/-- The number and start of the beat, and its mark and the lock of the device: the source's work leaves them. -/
def beatLock (b : Beat) : Nat × Nat × Bool × Nat × Bool := (b.number, b.startAt, b.markSeen, b.missed, b.locked)

theorem beatLock_rateAdjust (s : State) : beatLock (rateAdjust s).beat = beatLock s.beat := by
  unfold rateAdjust
  split <;> rfl

theorem holdover_rateAdjust (s : State) : (rateAdjust s).beat.holdover = s.beat.holdover := by
  unfold rateAdjust
  split <;> rfl

theorem beatLock_finishSource (s : State) : beatLock (finishSource s).beat = beatLock s.beat := by
  obtain ⟨o, h⟩ := finishSource_beat s
  rw [h]
  rfl

/-- One cc of the keeper's error against its source removed. -/
def slewStep (s : State) : State :=
  let d : Int := if 0 < s.beat.srcErr then 1 else -1
  ({ s with beat := { s.beat with
      srcErr := s.beat.srcErr - d, srcRemoved := s.beat.srcRemoved + d, adjust := s.beat.adjust + d } }).bump Ctr.slewingBt 0 1

theorem keeperSlew_eq (s : State) : keeperSlew s =
    if !(isKeeper s && s.beat.slewing) then s
    else if (slewStep s).beat.srcErr.natAbs ≤ 1 then finishSource (slewStep s) else slewStep s := rfl

theorem outsideBeat_slewStep (s : State) : outsideBeat (slewStep s) = outsideBeat s := (outsideBeat_bump _ _ _ _).trans rfl

theorem beatLock_slewStep (s : State) : beatLock (slewStep s).beat = beatLock s.beat :=
  (congrArg beatLock (beat_bump _ _ _ _)).trans rfl

theorem keeperSlew_of_member {s : State} (h : isKeeper s = false) : keeperSlew s = s := if_pos (by simp [h])

theorem beatLock_keeperSlew (s : State) : beatLock (keeperSlew s).beat = beatLock s.beat := by
  rw [keeperSlew_eq]
  split
  · rfl
  · split
    · exact (beatLock_finishSource _).trans (beatLock_slewStep s)
    · exact beatLock_slewStep s

theorem outsideBeat_keeperSlew (s : State) : outsideBeat (keeperSlew s) = outsideBeat s := by
  rw [keeperSlew_eq]
  split
  · rfl
  · split
    · exact (outsideBeat_finishSource _).trans (outsideBeat_slewStep s)
    · exact outsideBeat_slewStep s

/-- The rate correction, the keeper's slewing and BEAT_OUT of the beat that begins. -/
def paceBeat (s : State) : State := setBeatOut (keeperSlew (rateAdjust s))

theorem outsideBeat_paceBeat (s : State) : outsideBeat (paceBeat s) = outsideBeat s :=
  (outsideBeat_keeperSlew _).trans (outsideBeat_rateAdjust s)

theorem beatLock_paceBeat (s : State) : beatLock (paceBeat s).beat = beatLock s.beat :=
  (beatLock_keeperSlew _).trans (beatLock_rateAdjust s)

theorem isKeeper_rateAdjust (s : State) : isKeeper (rateAdjust s) = isKeeper s := by
  unfold rateAdjust
  split <;> rfl

theorem holdover_paceBeat {s : State} (h : isKeeper s = false) : (paceBeat s).beat.holdover = s.beat.holdover := by
  unfold paceBeat
  rw [keeperSlew_of_member ((isKeeper_rateAdjust s).trans h)]
  exact holdover_rateAdjust s

/-! The marks of the beat that ends (R250, R252). -/

theorem missedMark_of_seen {s : State} (h : s.beat.markSeen = true) : missedMark s = s := if_pos (.inr (.inr h))

theorem outsideBeat_missedMark (s : State) : outsideBeat (missedMark s) = outsideBeat s := by
  unfold missedMark
  dsimp only
  split
  · rfl
  · split
    · exact (outsideBeat_bump _ _ _ _).trans ((outsideBeat_postEvent _ _ _).trans rfl)
    · split <;> rfl

theorem number_missedMark (s : State) : (missedMark s).beat.number = s.beat.number := by
  unfold missedMark
  dsimp only
  split
  · rfl
  · split
    · rw [beat_bump, beat_postEvent]
    · split <;> rfl

/-- A member that has missed four marks is in holdover. -/
theorem missedMark_holds {s : State} (hmember : isKeeper s = false) (hgroup : s.group.state ≠ 0) (hunseen : s.beat.markSeen = false)
    (hmissed : 3 ≤ s.beat.missed) (hlock : s.beat.locked = true ∨ s.beat.slewing = true) :
    (missedMark s).beat.holdover = true ∧ (missedMark s).beat.locked = false := by
  have hexpects : ¬(isKeeper s = true ∨ s.group.state = 0 ∨ s.beat.markSeen = true) := by
    rw [hmember, hunseen]
    simp [hgroup]
  unfold missedMark
  rw [if_neg hexpects]
  dsimp only
  cases hheld : s.beat.holdover with
  | false =>
    rw [if_pos ⟨Nat.succ_le_succ hmissed, hlock, rfl⟩, beat_bump, beat_postEvent]
    exact ⟨rfl, rfl⟩
  | true =>
    rw [if_neg (by simp), if_pos rfl]
    exact ⟨rfl, rfl⟩

/-! BEAT_BOUNDARY (R243). -/

/-- The beat after one that ends. -/
def nextBeat (now : Nat) (held : Bool) (b : Beat) : Beat :=
  { b with
    number := b.number + 1, startAt := now, prevAt := b.startAt, adjust := b.adjustNext
    adjustNext := if b.slewing then b.adjustNext else 0
    markSeen := false, holdoverBt := if held then b.holdoverBt + 1 else b.holdoverBt
    lockedBt := if b.locked then b.lockedBt + 1 else 0 }

/-- What the beat that ends counts: one of holdover, one of a member's slewing. -/
def countBeat (held : Bool) (a : State) : State :=
  let t := if held then a.bump Ctr.holdoverBt 0 1 else a
  if a.beat.slewing && !isKeeper t then t.bump Ctr.slewingBt 0 1 else t

theorem noticePart_countBeat (held : Bool) (a : State) : noticePart (countBeat held a) = noticePart a := by
  have hbump (u : State) (k : Nat × Nat) : noticePart (u.bump k 0 1) = noticePart u := noticePart_of_answerPart (answerPart_bump u k 0 1)
  unfold countBeat
  dsimp only
  split <;> split <;> simp [hbump]

/-- The device with the next beat begun. -/
def beginBeat (s : State) : State :=
  let t := countBeat s.beat.holdover (missedMark s)
  { t with beat := nextBeat t.now s.beat.holdover (missedMark s).beat }

theorem outsideBeat_beginBeat (s : State) : outsideBeat (beginBeat s) = outsideBeat s :=
  (show outsideBeat (beginBeat s) = outsideBeat (countBeat s.beat.holdover (missedMark s)) from rfl).trans
    ((outsideBeat_of_noticePart (noticePart_countBeat _ _)).trans (outsideBeat_missedMark s))

theorem now_of_outsideBeat {s u : State} (h : outsideBeat u = outsideBeat s) : u.now = s.now := (congrArg State.now h :)

theorem keys_of_outsideBeat {s u : State} (h : outsideBeat u = outsideBeat s) : u.keys = s.keys := (congrArg State.keys h :)

theorem isKeeper_of_outsideBeat {s u : State} (h : outsideBeat u = outsideBeat s) : isKeeper u = isKeeper s :=
  (congrArg isKeeper h :)

theorem beat_beginBeat (s : State) : (beginBeat s).beat = nextBeat s.now s.beat.holdover (missedMark s).beat := by
  have hnow := now_of_outsideBeat ((outsideBeat_of_noticePart (noticePart_countBeat s.beat.holdover (missedMark s))).trans
    (outsideBeat_missedMark s))
  exact congrArg (fun n => nextBeat n s.beat.holdover (missedMark s).beat) hnow

/-- The device with its marks of the beat that begins due on its up group links, and its holds counted. -/
def markLinks (send : Bool) (s : State) : State :=
  let t := if send then
      { s with links := s.links.map (fun k => (k.1, { k.2 with markDue := k.2.markDue || (k.2.state == 2 && k.2.isGroup) })) }
    else s
  t.bump Ctr.mcastHoldBt 0 (t.mcs.filter (fun m => m.holdSince.isSome)).length

theorem markLinks_leaves (send : Bool) (s : State) : (markLinks send s).beat = s.beat ∧ (markLinks send s).keys = s.keys := by
  have hbump (u : State) (n : Nat) : (u.bump Ctr.mcastHoldBt 0 n).beat = u.beat ∧ (u.bump Ctr.mcastHoldBt 0 n).keys = u.keys := by
    obtain ⟨c, hc⟩ := exists_bump_eq u Ctr.mcastHoldBt 0 n
    rw [hc]
    exact ⟨rfl, rfl⟩
  cases send <;> exact hbump _ _

theorem exec_beatBoundary_stands {s : State} (h : s.pins.stage = 0 ∨ s.pins.stage = 0xB) : exec .beatBoundary s = .next s :=
  congrArg Host.Outcome.next (if_pos (by rcases h with h | h <;> simp [beatRuns, h]))

theorem exec_beatBoundary_runs {s : State} (h0 : s.pins.stage ≠ 0) (hB : s.pins.stage ≠ 0xB) : exec .beatBoundary s =
    .next (askLeave (reportDigest (recheck (pumpAll (markLinks (sendsMark s) (paceBeat (beginBeat s))))))) :=
  congrArg Host.Outcome.next (if_neg (by simp [beatRuns, h0, hB]))

/-- The course of the beat: all of it but the device's place in the beat tree. -/
def beatCourse (b : Beat) : Beat := { b with parent := none, alternates := [], depth := 0 }

theorem beatLock_of_course {a b : Beat} (h : beatCourse a = beatCourse b) : beatLock a = beatLock b := (congrArg beatLock h :)

theorem holdover_of_course {a b : Beat} (h : beatCourse a = beatCourse b) : a.holdover = b.holdover := (congrArg Beat.holdover h :)

theorem course_of_viewPart {s u : State} (h : viewPart u = viewPart s) : beatCourse u.beat = beatCourse s.beat :=
  (congrArg State.beat h :)

theorem beat_keys_of_outsidePushes {s u : State} (h : outsidePushes u = outsidePushes s) : u.beat = s.beat ∧ u.keys = s.keys :=
  ⟨(congrArg State.beat h :), (congrArg State.keys h :)⟩

/-- What follows the beginning of a beat leaves its course and the keys. -/
theorem afterBeat_leaves (send : Bool) (w : State) :
    beatCourse (askLeave (reportDigest (recheck (pumpAll (markLinks send w))))).beat = beatCourse w.beat
      ∧ (askLeave (reportDigest (recheck (pumpAll (markLinks send w))))).keys = w.keys := by
  have hview : viewPart (askLeave (reportDigest (recheck (pumpAll (markLinks send w))))) = viewPart (pumpAll (markLinks send w)) := by
    simp
  obtain ⟨hpumped, hkept⟩ := beat_keys_of_outsidePushes (outsidePushes_pumpAll (markLinks send w))
  obtain ⟨hmarked, hkeys⟩ := markLinks_leaves send w
  obtain ⟨hviewKeys, -, -⟩ := kept_of_viewPart hview
  exact ⟨(course_of_viewPart hview).trans (congrArg beatCourse (hpumped.trans hmarked)), hviewKeys.trans (hkept.trans hkeys)⟩

/-- The clock stands while a beat begins. -/
theorem now_beatBoundary {s u : State} (h : exec .beatBoundary s = .next u) : u.now = s.now :=
  ((execBeatBoundary_kept (Kept.refl s)).next u h).clock

/-- A beat that begins: its number, its start, its mark unseen, the marks missed and the lock of the device. -/
theorem beatLock_beatBoundary {s u : State} (h0 : s.pins.stage ≠ 0) (hB : s.pins.stage ≠ 0xB)
    (h : exec .beatBoundary s = .next u) : u.keys = s.keys
      ∧ beatLock u.beat = (s.beat.number + 1, s.now, false, (missedMark s).beat.missed, (missedMark s).beat.locked)
      ∧ (isKeeper s = false → u.beat.holdover = (missedMark s).beat.holdover) := by
  rw [exec_beatBoundary_runs h0 hB] at h
  injection h with hu
  subst hu
  obtain ⟨hcourse, hkeys⟩ := afterBeat_leaves (sendsMark s) (paceBeat (beginBeat s))
  refine ⟨hkeys.trans (keys_of_outsideBeat ((outsideBeat_paceBeat _).trans (outsideBeat_beginBeat s))), ?_, fun hmember => ?_⟩
  · refine (beatLock_of_course hcourse).trans ((beatLock_paceBeat _).trans ?_)
    rw [beat_beginBeat, ← number_missedMark s]
    rfl
  · refine (holdover_of_course hcourse).trans ?_
    rw [holdover_paceBeat ((isKeeper_of_outsideBeat (outsideBeat_beginBeat s)).trans hmember), beat_beginBeat]
    rfl

/-! A used mark (R248, R250, R251). -/

/-- BEAT_OUT's level follows the lock, and nothing else does. -/
theorem exists_relevel_eq (s : State) : ∃ o, relevel s = { s with beat := { s.beat with beatOut := o } } := by
  unfold relevel
  split
  · exact ⟨s.beat.beatOut, rfl⟩
  · exact ⟨_, rfl⟩

/-- Learning the source's rate changes the rate and where its learning began. -/
theorem exists_learnRate_eq (s : State) (cc time : Nat) :
    ∃ f c, learnRate s cc time = { s with beat := { s.beat with rateFrom := f, rateCorr := c } } := by
  unfold learnRate
  split
  · exact ⟨_, _, rfl⟩
  · split
    · exact ⟨_, _, rfl⟩
    · dsimp only
      split <;> exact ⟨_, _, rfl⟩

/-- The device with a used mark noted, and its error. -/
def markNoted (s : State) (e : Int) : State :=
  ({ s with beat := { s.beat with markSeen := true, missed := 0, error := e } }).bump Ctr.beatMarksUsed 0 1

theorem exists_markNoted_eq (s : State) (e : Int) : ∃ c,
    markNoted s e = { s with beat := { s.beat with markSeen := true, missed := 0, error := e }, counters := c } :=
  exists_bump_eq { s with beat := { s.beat with markSeen := true, missed := 0, error := e } } _ _ _

theorem beatLen_markNoted (s : State) (e : Int) : beatLen (markNoted s e) = beatLen s := by
  obtain ⟨c, h⟩ := exists_markNoted_eq s e
  rw [h]
  rfl

theorem inView_markNoted (s : State) (e : Int) : inView (markNoted s e) = inView s := by
  obtain ⟨c, h⟩ := exists_markNoted_eq s e
  rw [h]
  rfl

section
variable {s : State} {number n : Nat} {start at16 : Int}

theorem trackMark_locks (hown : ownBoundary s number = some (n, start)) (hsmall : (at16 - 16 * start).natAbs ≤ 128)
    (hlen : 128 ≤ 4 * beatLen s) : ∃ time, trackMark s number at16 =
      learnRate (lockBeat (markNoted s (at16 - 16 * start)) (at16 - 16 * start)) (at16 / 16).toNat time := by
  have hnear : ¬((some (n, start) : Option (Nat × Int)).isNone = true
      ∨ 4 * beatLen (markNoted s (at16 - 16 * start)) < (at16 - 16 * start).natAbs) := by
    rw [beatLen_markNoted]
    simp
    omega
  unfold trackMark
  rw [hown]
  exact ⟨_, (if_neg hnear).trans (if_pos hsmall)⟩

theorem trackMark_slews (hown : ownBoundary s number = some (n, start)) (hlarge : 128 < (at16 - 16 * start).natAbs)
    (hnear : (at16 - 16 * start).natAbs ≤ 4 * beatLen s) : trackMark s number at16 =
      { markNoted s (at16 - 16 * start) with beat := { (markNoted s (at16 - 16 * start)).beat with
        slewing := true, locked := false, adjustNext := if 0 < at16 - 16 * start then 8 else -8 } } := by
  have hwithin : ¬((some (n, start) : Option (Nat × Int)).isNone = true
      ∨ 4 * beatLen (markNoted s (at16 - 16 * start)) < (at16 - 16 * start).natAbs) := by
    rw [beatLen_markNoted]
    simp
    omega
  unfold trackMark
  rw [hown]
  exact (if_neg hwithin).trans (if_neg (Nat.not_le.mpr hlarge))

/-- A mark beyond 4 bt, or of another number, fences a member of a view and steps any other device. -/
theorem trackMark_far (hfar : ownBoundary s number = none ∨ ∃ n start, ownBoundary s number = some (n, start)
      ∧ 4 * beatLen s < (at16 - 16 * start).natAbs) : ∃ e x, trackMark s number at16 =
    if inView s then fenceSelf (markNoted s e) 3
    else stepBeat (markNoted s e) (stepNumber (markNoted s e).beat.number number) x := by
  unfold trackMark
  rcases hfar with hnone | ⟨n, start, hown, hfar⟩
  · rw [hnone]
    refine ⟨at16 - 16 * s.beat.startAt, at16 - 16 * (markNoted s (at16 - 16 * s.beat.startAt)).beat.startAt,
      (if_pos (.inl rfl)).trans ?_⟩
    rw [← inView_markNoted s (at16 - 16 * s.beat.startAt)]
    rfl
  · have hbeyond : (some (n, start) : Option (Nat × Int)).isNone = true
        ∨ 4 * beatLen (markNoted s (at16 - 16 * start)) < (at16 - 16 * start).natAbs := by
      rw [beatLen_markNoted]
      exact .inr hfar
    rw [hown]
    refine ⟨at16 - 16 * start, at16 - 16 * (markNoted s (at16 - 16 * start)).beat.startAt, (if_pos hbeyond).trans ?_⟩
    rw [← inView_markNoted s (at16 - 16 * start)]
    rfl

end

/-! BEAT_MARK and BEAT_FULL (R248, R278). -/

/-- A mark that a link brings is used: it comes from the beat parent over a group link of measured delay. -/
def usesMark (s : State) (l : Nat) : Prop :=
  fromParent s l = true ∧ (s.link l).delay.isSome = true ∧ s.group.state ≠ 0 ∧ (s.link l).isGroup = true

/-- The device with the mark of a link taken from it. -/
def markTaken (s : State) (l : Nat) : State := s.onLink l (fun k => { k with markIn := none })

theorem link_markTaken (s : State) (l : Nat) : (markTaken s l).link l = { s.link l with markIn := none } := link_onLink_same _ _ _

section
variable {s : State} {l number offset : Nat}

theorem exec_beatMark_unheard (h : ∀ arrival, (s.link l).markIn ≠ some (number, offset, arrival)) :
    exec (.beatMark l number offset) s = .next s := by
  refine congrArg Host.Outcome.next ?_
  split
  · rfl
  · next n o arrival hin =>
    refine if_pos (Classical.not_and_iff_not_or_not.mp fun ⟨hn, ho⟩ => h arrival ?_)
    rw [hin, hn, ho]

variable {arrival : Nat} (hin : (s.link l).markIn = some (number, offset, arrival))
include hin

theorem exec_beatMark_heard : exec (.beatMark l number offset) s = .next (match (s.link l).delay with
      | none => (markTaken s l).bump Ctr.beatMarksUnused 0 1
      | some d =>
        if !fromParent s l ∨ s.group.state = 0 ∨ !(s.link l).isGroup then (markTaken s l).bump Ctr.beatMarksUnused 0 1
        else relevel (trackMark (markTaken s l) number (markTime d offset arrival))) := by
  refine congrArg Host.Outcome.next ?_
  rw [hin]
  refine (if_neg (by simp)).trans ?_
  show (match ((markTaken s l).link l).delay with
    | none => (markTaken s l).bump Ctr.beatMarksUnused 0 1
    | some d =>
      if !fromParent s l ∨ s.group.state = 0 ∨ !((markTaken s l).link l).isGroup then (markTaken s l).bump Ctr.beatMarksUnused 0 1
      else relevel (trackMark (markTaken s l) number (markTime d offset arrival))) = _
  rw [link_markTaken]

theorem exec_beatMark_unused (h : ¬ usesMark s l) :
    exec (.beatMark l number offset) s = .next ((markTaken s l).bump Ctr.beatMarksUnused 0 1) := by
  rw [exec_beatMark_heard hin]
  cases hd : (s.link l).delay with
  | none => rfl
  | some d =>
    refine congrArg Host.Outcome.next (if_pos ?_)
    refine Classical.byContradiction fun hno => h ?_
    simp only [not_or, Bool.not_eq_true', Bool.not_eq_false] at hno
    obtain ⟨hfrom, hstate, hgroup⟩ := hno
    exact ⟨hfrom, by rw [hd]; rfl, hstate, hgroup⟩

theorem exec_beatMark_used (h : usesMark s l) {d : Int} (hd : (s.link l).delay = some d) :
    exec (.beatMark l number offset) s = .next (relevel (trackMark (markTaken s l) number (markTime d offset arrival))) := by
  obtain ⟨hfrom, -, hstate, hgroup⟩ := h
  rw [exec_beatMark_heard hin, hd]
  exact congrArg Host.Outcome.next (if_neg (by simp [hfrom, hstate, hgroup]))

end

/-- The beat of a device that is LOCKED by a mark of an error. -/
def lockedBeat (b : Beat) (err16 : Int) : Beat :=
  { b with locked := true, slewing := false, holdover := false, holdoverBt := 0, adjustNext := (err16 + 8) / 16 }

theorem noticePart_lockBeat (s : State) (err16 : Int) :
    noticePart (lockBeat s err16) = noticePart { s with beat := lockedBeat s.beat err16 } := by
  unfold lockBeat
  dsimp only
  split
  · exact noticePart_postEvent _ _ _
  · rfl

theorem work_of_noticePart {s u : State} (h : noticePart u = noticePart s) : u.group = s.group ∧ u.mem = s.mem :=
  ⟨(congrArg State.group h :), (congrArg State.mem h :)⟩

/-- A mark of a small error locks the member, by that error, and leaves its group and memories. -/
theorem exec_beatMark_locks {s : State} {l number offset arrival n : Nat} {start d : Int}
    (hin : (s.link l).markIn = some (number, offset, arrival)) (hused : usesMark s l) (hd : (s.link l).delay = some d)
    (hown : ownBoundary s number = some (n, start)) (hsmall : (markTime d offset arrival - 16 * start).natAbs ≤ 128)
    (hlen : 128 ≤ 4 * beatLen s) : ∃ u, exec (.beatMark l number offset) s = .next u ∧ u.beat.locked = true
      ∧ u.beat.slewing = false ∧ u.beat.holdover = false ∧ u.beat.adjustNext = (markTime d offset arrival - 16 * start + 8) / 16
      ∧ u.beat.missed = 0 ∧ u.beat.markSeen = true ∧ u.beat.number = s.beat.number ∧ u.group = s.group ∧ u.mem = s.mem := by
  obtain ⟨time, htrack⟩ := trackMark_locks (s := markTaken s l) hown hsmall hlen
  rw [exec_beatMark_used hin hused hd, htrack]
  generalize markTime d offset arrival - 16 * start = e
  obtain ⟨c, hnoted⟩ := exists_markNoted_eq (markTaken s l) e
  have hlock := noticePart_lockBeat (markNoted (markTaken s l) e) e
  have hbeat := beat_of_noticePart hlock
  obtain ⟨hgroup, hmem⟩ := work_of_noticePart hlock
  generalize lockBeat (markNoted (markTaken s l) e) e = w at hbeat hgroup hmem ⊢
  rw [hnoted] at hbeat hgroup hmem
  obtain ⟨f, r, hlearnt⟩ := exists_learnRate_eq w (markTime d offset arrival / 16).toNat time
  obtain ⟨o, hlevel⟩ := exists_relevel_eq (learnRate w (markTime d offset arrival / 16).toNat time)
  rw [hlevel, hlearnt, hbeat]
  exact ⟨_, rfl, rfl, rfl, rfl, rfl, rfl, rfl, rfl, hgroup, hmem⟩

/-- Only the beat, the counters and the links differ. -/
theorem frame_of_markNoted (s : State) (l : Nat) (e : Int) (b : Beat) : ∃ ls c,
    { markNoted (markTaken s l) e with beat := b } = { s with beat := b, counters := c, links := ls } := by
  obtain ⟨c, hnoted⟩ := exists_markNoted_eq (markTaken s l) e
  rw [hnoted]
  exact ⟨_, _, rfl⟩

theorem number_markNoted (s : State) (l : Nat) (e : Int) : (markNoted (markTaken s l) e).beat.number = s.beat.number := by
  obtain ⟨c, hnoted⟩ := exists_markNoted_eq (markTaken s l) e
  rw [hnoted]
  rfl

/-- A mark of a larger error makes the member slew. -/
theorem exec_beatMark_slews {s : State} {l number offset arrival n : Nat} {start d : Int}
    (hin : (s.link l).markIn = some (number, offset, arrival)) (hused : usesMark s l) (hd : (s.link l).delay = some d)
    (hown : ownBoundary s number = some (n, start)) (hlarge : 128 < (markTime d offset arrival - 16 * start).natAbs)
    (hnear : (markTime d offset arrival - 16 * start).natAbs ≤ 4 * beatLen s) :
    ∃ u, exec (.beatMark l number offset) s = .next u ∧ u.beat.locked = false ∧ u.beat.slewing = true
      ∧ u.beat.adjustNext = (if 0 < markTime d offset arrival - 16 * start then 8 else -8) ∧ u.beat.number = s.beat.number
      ∧ u = { s with beat := u.beat, counters := u.counters, links := u.links } := by
  rw [exec_beatMark_used hin hused hd, trackMark_slews (s := markTaken s l) hown hlarge hnear]
  generalize markTime d offset arrival - 16 * start = e
  have hnumber := number_markNoted s l e
  generalize hb : { (markNoted (markTaken s l) e).beat with
    slewing := true, locked := false, adjustNext := if 0 < e then 8 else -8 } = b
  obtain ⟨ls, c, hframe⟩ := frame_of_markNoted s l e b
  obtain ⟨o, hlevel⟩ := exists_relevel_eq { markNoted (markTaken s l) e with beat := b }
  rw [hlevel, hframe]
  subst hb
  exact ⟨_, rfl, rfl, rfl, rfl, hnumber, rfl⟩

/-- The device steps to the number of a mark beyond 4 bt, or of another beat, outside a view. -/
theorem exec_beatMark_steps {s : State} {l number offset arrival : Nat} {d : Int}
    (hin : (s.link l).markIn = some (number, offset, arrival)) (hused : usesMark s l) (hd : (s.link l).delay = some d)
    (hfar : ownBoundary s number = none ∨ ∃ n start, ownBoundary s number = some (n, start)
      ∧ 4 * beatLen s < (markTime d offset arrival - 16 * start).natAbs) (hview : inView s = false) :
    ∃ u, exec (.beatMark l number offset) s = .next u ∧ u.beat.number = stepNumber s.beat.number number
      ∧ u = { s with beat := u.beat, counters := u.counters, links := u.links } := by
  obtain ⟨e, x, htrack⟩ := trackMark_far (s := markTaken s l) hfar
  have hstays : ¬ inView (markTaken s l) = true := by
    rw [show inView (markTaken s l) = false from hview]
    exact Bool.false_ne_true
  rw [exec_beatMark_used hin hused hd, htrack, if_neg hstays, number_markNoted]
  obtain ⟨ls, c, hframe⟩ := frame_of_markNoted s l e
    (stepBeat (markNoted (markTaken s l) e) (stepNumber s.beat.number number) x).beat
  obtain ⟨o, hlevel⟩ := exists_relevel_eq (stepBeat (markNoted (markTaken s l) e) (stepNumber s.beat.number number) x)
  rw [hlevel, show stepBeat (markNoted (markTaken s l) e) (stepNumber s.beat.number number) x = _ from hframe]
  exact ⟨_, rfl, rfl, rfl⟩

/-- Such a mark fences a member of a view. -/
theorem exec_beatMark_fences {s : State} {l number offset arrival : Nat} {d : Int}
    (hin : (s.link l).markIn = some (number, offset, arrival)) (hused : usesMark s l) (hd : (s.link l).delay = some d)
    (hfar : ownBoundary s number = none ∨ ∃ n start, ownBoundary s number = some (n, start)
      ∧ 4 * beatLen s < (markTime d offset arrival - 16 * start).natAbs) (hview : inView s = true) (hleave : s.group.leaveOrder = none) :
    ∃ u, exec (.beatMark l number offset) s = .next u ∧ u.group.state = 4 ∧ u.group.view = [] := by
  obtain ⟨e, x, htrack⟩ := trackMark_far (s := markTaken s l) hfar
  have hgroup : (markNoted (markTaken s l) e).group = s.group := by
    obtain ⟨c, hnoted⟩ := exists_markNoted_eq (markTaken s l) e
    rw [hnoted]
    rfl
  have hfenced := fenceSelf_group ((inView_markNoted (markTaken s l) e).trans hview) ((congrArg Group.leaveOrder hgroup).trans hleave) 3
  obtain ⟨o, hlevel⟩ := exists_relevel_eq (fenceSelf (markNoted (markTaken s l) e) 3)
  rw [exec_beatMark_used hin hused hd, htrack, if_pos (show inView (markTaken s l) = true from hview), hlevel]
  exact ⟨_, rfl, congrArg Group.state hfenced, congrArg Group.view hfenced⟩

theorem exec_beatFull_keeps {s : State} {l : Nat} {d : List Byte}
    (h : field d 0 8 = s.beat.number ∨ (s.link l).delay = none ∨ s.group.state = 0 ∨ fromParent s l = false) :
    exec (.beatFull l d) s = .next s := by
  refine congrArg Host.Outcome.next (if_pos ?_)
  rcases h with h | h | h | h
  · exact .inr (.inr (.inr h))
  · exact .inr (.inl (by rw [h]; rfl))
  · exact .inr (.inr (.inl h))
  · exact .inl (by rw [h]; rfl)

theorem exec_beatFull_takes {s : State} {l : Nat} {d : List Byte} (hused : usesMark s l) (hother : field d 0 8 ≠ s.beat.number)
    (hview : inView s = false) : exec (.beatFull l d) s = .next (stepBeat s (field d 0 8) 0) := by
  obtain ⟨hfrom, hdelay, hstate, -⟩ := hused
  have htakes : ¬((!fromParent s l) = true ∨ (s.link l).delay.isNone = true ∨ s.group.state = 0 ∨ field d 0 8 = s.beat.number) := by
    rw [← Option.not_isSome, hfrom, hdelay]
    simp [hstate, hother]
  exact congrArg Host.Outcome.next ((if_neg htakes).trans (if_neg (by simp [hview])))

/-- Settles O38: a beat that begins through what each of its parts leaves of the beat's course, and a mark by whether it is used and
how far it is from the device's own boundary. -/
theorem beatsAndMarks : Obligations.BeatsAndMarks := by
  unfold Obligations.BeatsAndMarks
  refine ⟨fun s => ⟨exec_beatBoundary_stands, fun h0 hB => ?boundary⟩, fun s l => ?marks⟩
  case boundary =>
    have hexec := exec_beatBoundary_runs h0 hB
    obtain ⟨hkeys, hlock, hmember⟩ := beatLock_beatBoundary h0 hB hexec
    have hnow := now_beatBoundary hexec
    generalize askLeave _ = u at hexec hkeys hlock hmember hnow
    simp only [beatLock, Prod.mk.injEq] at hlock
    obtain ⟨hnumber, hstart, hmark, hmissed, hlocked⟩ := hlock
    refine ⟨u, hexec, hnumber, hstart, hmark, hnow, hkeys, fun hkeeper hgroup hunseen hthree hlock => ?_, fun hseen => ?_⟩
    · obtain ⟨hholds, hunlocked⟩ := missedMark_holds hkeeper hgroup hunseen hthree hlock
      exact ⟨(hmember hkeeper).trans hholds, hlocked.trans hunlocked⟩
    · rw [hmissed, missedMark_of_seen hseen]
  case marks =>
    exact ⟨fun number offset => exec_beatMark_unheard,
      fun number offset arrival hin => ⟨exec_beatMark_unused hin,
        fun d n start hused hd hown => ⟨exec_beatMark_locks hin hused hd hown, exec_beatMark_slews hin hused hd hown⟩,
        fun d hused hd hfar => ⟨exec_beatMark_steps hin hused hd hfar, exec_beatMark_fences hin hused hd hfar⟩⟩,
      fun d hused hother hview => ⟨_, exec_beatFull_takes hused hother hview, rfl, rfl⟩, fun d => exec_beatFull_keeps⟩

end Sys2Proof.Machine
end

section
/-!
SUPPORT. Holdover, the keeper's source and edges of BEAT_IN, and the measurement of a link's delay (R245 to R247, R249, R252, R442).
-/

namespace Sys2Proof.Machine

section
variable {s : State}

/-! Holdover (R252). -/

theorem exec_holdoverLimitFence_goes
    (h : inView s = false ∨ isKeeper s = true ∨ s.beat.holdover = false ∨ s.beat.holdoverBt < keyNum s 2) :
    exec .holdoverLimitFence s = .next s := by
  refine congrArg Host.Outcome.next (if_neg ?_)
  rintro ⟨hview, hmember, hheld, hlong⟩
  rcases h with h | h | h | h
  · exact absurd (hview.symm.trans h) Bool.noConfusion
  · rw [h] at hmember
    cases hmember
  · exact absurd (hheld.symm.trans h) Bool.noConfusion
  · omega

theorem exec_holdoverLimitFence_fences (hview : inView s = true) (hmember : isKeeper s = false) (hheld : s.beat.holdover = true)
    (hlong : keyNum s 2 ≤ s.beat.holdoverBt) : exec .holdoverLimitFence s = .next (fenceSelf s 4) :=
  congrArg Host.Outcome.next (if_pos ⟨hview, by rw [hmember]; rfl, hheld, hlong⟩)

/-! The keeper's source (R246, R247). -/

theorem exec_sourceLost_stands (h : isKeeper s = false ∨ s.group.source = 0 ∨ s.beat.sourceLocked = false) :
    exec .sourceLost s = .next s := congrArg Host.Outcome.next (if_pos (by simpa using h))

theorem exec_sourceLost_holds (hkeeper : isKeeper s = true) (hsource : s.group.source ≠ 0) (hlocked : s.beat.sourceLocked = true) :
    exec .sourceLost s = .next (relevel ((postEvent { s with beat := { s.beat with
      holdover := true, sourceLocked := false, holdoverBt := 0, good := 0, lastEdge := none, rateFrom := none } } 0x09 []).bump
      Ctr.holdoverEntries 0 1)) :=
  congrArg Host.Outcome.next (if_neg (by simp [hkeeper, hsource, hlocked]))

theorem exec_sourceRelocked_stands (err : Int)
    (h : isKeeper s = false ∨ s.group.source = 0 ∨ s.beat.holdover = false ∨ s.beat.slewing = true) :
    exec (.sourceRelocked err) s = .next s := congrArg Host.Outcome.next (if_pos (by simpa using h))

variable {err : Int} (hkeeper : isKeeper s = true) (hsource : s.group.source ≠ 0) (hheld : s.beat.holdover = true)
  (hsteady : s.beat.slewing = false)
include hkeeper hsource hheld hsteady

theorem sourceRelocked_counts : ¬((!isKeeper s) = true ∨ s.group.source = 0 ∨ (!s.beat.holdover) = true ∨ s.beat.slewing = true) := by
  simp [hkeeper, hsource, hheld, hsteady]

theorem exec_sourceRelocked_ends (hsmall : err.natAbs ≤ 1) :
    exec (.sourceRelocked err) s = .next (finishSource { s with beat := { s.beat with srcErr := err, srcRemoved := 0 } }) :=
  congrArg Host.Outcome.next ((if_neg (sourceRelocked_counts hkeeper hsource hheld hsteady)).trans (if_pos hsmall))

theorem exec_sourceRelocked_slews (hlarge : 1 < err.natAbs) :
    exec (.sourceRelocked err) s = .next { s with beat := { s.beat with srcErr := err, srcRemoved := 0, slewing := true } } :=
  congrArg Host.Outcome.next ((if_neg (sourceRelocked_counts hkeeper hsource hheld hsteady)).trans (if_neg (Nat.not_le.mpr hlarge)))

end

/-! Edges of BEAT_IN (R245, R442). -/

/-- An edge has been accepted: it is the last one, with its window, and only the beat and the counters differ. -/
def EdgeTaken (s : State) (windowEnd good : Nat) (u : State) : Prop :=
  u.beat.lastEdge = some s.now ∧ u.beat.windowEnd = windowEnd ∧ u.beat.good = good
    ∧ u = { s with beat := u.beat, counters := u.counters }

theorem edgeTaken_acceptEdge (s : State) (windowEnd : Nat) :
    EdgeTaken s windowEnd (s.beat.good + 1) (acceptEdge s windowEnd) ∧ (acceptEdge s windowEnd).beat.number = s.beat.number := by
  unfold acceptEdge
  obtain ⟨c, h⟩ := exists_bump_eq { s with beat := { s.beat with
    lastEdge := some s.now, windowEnd := windowEnd, good := s.beat.good + 1, lastUpdate := s.now
    sourceLocked := s.beat.sourceLocked
      || (decide ((if s.group.source = 2 then 16 else 4) ≤ s.beat.good + 1) && !s.beat.holdover) } } Ctr.beatInAccepted 0 1
  dsimp only at h ⊢
  rw [h]
  exact ⟨⟨rfl, rfl, rfl, rfl⟩, rfl⟩

theorem edgeTaken_learnRate {s u : State} {w g : Nat} (h : EdgeTaken s w g u) (cc time : Nat) :
    EdgeTaken s w g (learnRate u cc time) ∧ (learnRate u cc time).beat.number = u.beat.number := by
  obtain ⟨hlast, hwindow, hgood, hframe⟩ := h
  obtain ⟨f, c, hlearnt⟩ := exists_learnRate_eq u cc time
  rw [hlearnt]
  refine ⟨⟨hlast, hwindow, hgood, ?_⟩, rfl⟩
  exact congrArg (fun x : State => { x with beat := { u.beat with rateFrom := f, rateCorr := c } }) hframe

/-- What changes neither the edge nor its window leaves the edge accepted. -/
theorem edgeTaken_of_beat {s u : State} {w g : Nat} (h : EdgeTaken s w g u) {b : Beat} (hlast : b.lastEdge = u.beat.lastEdge)
    (hwindow : b.windowEnd = u.beat.windowEnd) (hgood : b.good = u.beat.good) : EdgeTaken s w g { u with beat := b } := by
  obtain ⟨hlast', hwindow', hgood', hframe⟩ := h
  exact ⟨hlast.trans hlast', hwindow.trans hwindow', hgood.trans hgood',
    congrArg (fun x : State => { x with beat := b }) hframe⟩

/-- The error of an edge against its expected time noted, but while the keeper slews. -/
def edgeHeard (s : State) (expected : Nat) : State :=
  if s.beat.slewing then s else { s with beat := { s.beat with srcErr := (s.now : Int) - expected } }

theorem edgeTaken_edgeHeard {s u : State} {expected w g : Nat} (h : EdgeTaken (edgeHeard s expected) w g u) :
    EdgeTaken s w g u := by
  unfold edgeHeard at h
  split at h <;> exact h

theorem number_edgeHeard (s : State) (expected : Nat) : (edgeHeard s expected).beat.number = s.beat.number := by
  unfold edgeHeard
  split <;> rfl

/-- The device with a later edge accepted, before BEAT_OUT's level follows. -/
def edgeLearnt (s : State) (expected : Nat) : State :=
  let v := acceptEdge (edgeHeard s expected) (expected + beatLen s / 2)
  let w := learnRate v v.now ((if s.group.source = 2 then beatLen s else 1000000000) * (v.beat.good - 1))
  if w.group.source = 2 ∧ !w.beat.holdover then edgeBeat w else w

theorem edgeTaken_edgeLearnt (s : State) (expected : Nat) :
    (∃ g, EdgeTaken s (expected + beatLen s / 2) g (edgeLearnt s expected))
      ∧ (edgeLearnt s expected).beat.number = s.beat.number := by
  obtain ⟨haccept, hnumber⟩ := edgeTaken_acceptEdge (edgeHeard s expected) (expected + beatLen s / 2)
  unfold edgeLearnt
  generalize acceptEdge (edgeHeard s expected) (expected + beatLen s / 2) = v at haccept hnumber ⊢
  dsimp only
  generalize (if s.group.source = 2 then beatLen s else 1000000000) * (v.beat.good - 1) = time
  obtain ⟨hlearnt, hsame⟩ := edgeTaken_learnRate (edgeTaken_edgeHeard haccept) v.now time
  generalize learnRate v v.now time = w at hlearnt hsame ⊢
  have hfinal : w.beat.number = s.beat.number := hsame.trans (hnumber.trans (number_edgeHeard s expected))
  split
  · exact ⟨⟨_, edgeTaken_of_beat hlearnt rfl rfl rfl⟩, hfinal⟩
  · exact ⟨⟨_, hlearnt⟩, hfinal⟩

section
variable {s : State}

theorem exec_beatInEdge_stands (h : s.pins.resetN = true ∨ isKeeper s = false ∨ (s.group.source ≠ 2 ∧ s.group.source ≠ 3)) :
    exec .beatInEdge s = .next s := congrArg Host.Outcome.next (if_pos (by simpa [not_or] using h))

variable (hreset : s.pins.resetN = false) (hkeeper : isKeeper s = true) (hsource : s.group.source = 2 ∨ s.group.source = 3)
include hreset hkeeper hsource

theorem beatInEdge_counts :
    ¬(s.pins.resetN = true ∨ (!isKeeper s) = true ∨ (!(s.group.source == 2 || s.group.source == 3)) = true) := by
  rcases hsource with h | h <;> simp [hreset, hkeeper, h]

/-- The first edge is accepted. -/
theorem exec_beatInEdge_first (hfirst : s.beat.lastEdge = none) : ∃ u, exec .beatInEdge s = .next u
    ∧ u.beat.lastEdge = some s.now ∧ u.beat.good = s.beat.good + 1 ∧ u = { s with beat := u.beat, counters := u.counters } := by
  have hexec : exec .beatInEdge s = .next (
      let w := learnRate (acceptEdge s (s.now + beatLen s / 2)) s.now 0
      if w.group.state = 1 then { w with beat := { w.beat with number := w.group.origin, startAt := w.now } } else w) := by
    refine congrArg Host.Outcome.next ((if_neg (beatInEdge_counts hreset hkeeper hsource)).trans ?_)
    rw [hfirst]
  obtain ⟨hedge, -⟩ := edgeTaken_learnRate (edgeTaken_acceptEdge s (s.now + beatLen s / 2)).1 s.now 0
  rw [hexec]
  generalize learnRate (acceptEdge s (s.now + beatLen s / 2)) s.now 0 = w at hedge ⊢
  dsimp only
  split
  · obtain ⟨hlast, -, hgood, hframe⟩ := edgeTaken_of_beat hedge
      (b := { w.beat with number := w.group.origin, startAt := w.now }) rfl rfl rfl
    exact ⟨_, rfl, hlast, hgood, hframe⟩
  · obtain ⟨hlast, -, hgood, hframe⟩ := hedge
    exact ⟨_, rfl, hlast, hgood, hframe⟩

variable {a : Nat} (hlater : s.beat.lastEdge = some a)
include hlater

/-- A later edge in the window of the last, or too far from its expected time, is discarded and counted. -/
theorem exec_beatInEdge_discards (hout : ¬(s.beat.windowEnd ≤ s.now ∧ a + edgePeriod s ≤ s.now + beatLen s / 2
    ∧ s.now ≤ a + edgePeriod s + beatLen s / 2)) : exec .beatInEdge s = .next (s.bump Ctr.beatInDiscards 0 1) := by
  refine congrArg Host.Outcome.next ((if_neg (beatInEdge_counts hreset hkeeper hsource)).trans ?_)
  rw [hlater]
  exact if_neg hout

/-- A later edge near enough to its expected time is accepted. -/
theorem exec_beatInEdge_accepts (hin : s.beat.windowEnd ≤ s.now ∧ a + edgePeriod s ≤ s.now + beatLen s / 2
    ∧ s.now ≤ a + edgePeriod s + beatLen s / 2) : ∃ u, exec .beatInEdge s = .next u ∧ u.beat.lastEdge = some s.now
      ∧ u.beat.windowEnd = a + edgePeriod s + beatLen s / 2 ∧ u.beat.number = s.beat.number
      ∧ u = { s with beat := u.beat, counters := u.counters } := by
  have hexec : exec .beatInEdge s = .next (relevel (edgeLearnt s (a + edgePeriod s))) := by
    refine congrArg Host.Outcome.next ((if_neg (beatInEdge_counts hreset hkeeper hsource)).trans ?_)
    rw [hlater]
    exact if_pos hin
  obtain ⟨⟨g, htaken⟩, hnumber⟩ := edgeTaken_edgeLearnt s (a + edgePeriod s)
  rw [hexec]
  generalize edgeLearnt s (a + edgePeriod s) = w at htaken hnumber ⊢
  obtain ⟨o, hlevel⟩ := exists_relevel_eq w
  obtain ⟨hlast, hwindow, -, hframe⟩ := edgeTaken_of_beat htaken (b := { w.beat with beatOut := o }) rfl rfl rfl
  rw [hlevel]
  exact ⟨_, rfl, hlast, hwindow, hnumber, hframe⟩

end

/-! The measurement of a link's delay (R249). -/

theorem link_setTree (s : State) (l : Nat) : (setTree s).link l = s.link l := by
  rw [setTree_eq]
  rfl

section
variable {s : State} {l : Nat} {d : List Byte}

theorem exec_stamp_down (h : (s.link l).state ≠ 2) : exec (.stamp l d) s = .next s := congrArg Host.Outcome.next (if_pos h)

theorem exec_stamp_answers (hup : (s.link l).state = 2) (h2 : field d 0x0A 8 = 0) (h3 : field d 0x12 8 = 0) : exec (.stamp l d) s =
    .next (pushCtl s l 2 (stampBody (field d 0 2) (field d 2 8) (16 * s.now) (16 * s.now) 0)) :=
  congrArg Host.Outcome.next ((if_neg (not_not_intro hup)).trans (if_pos ⟨h2, h3⟩))

/-- The delay that an exchange of four stamps measures. -/
def exchangeDelay (d : List Byte) : Int :=
  (((field d 0x1A 8 : Int) - field d 2 8) - ((field d 0x12 8 : Int) - field d 0x0A 8)) / 2

variable (hup : (s.link l).state = 2) (h2 : field d 0x0A 8 ≠ 0) (h4 : field d 0x1A 8 ≠ 0)
  (hnumber : field d 0 2 = (s.link l).exch.length) (hdelay : (s.link l).delay = none)
include hup h2 h4 hnumber hdelay

theorem exec_stamp_measures : exec (.stamp l d) s = .next (
    let e := (s.link l).exch ++ [exchangeDelay d]
    if e.length < 64 then startExchange (s.onLink l (fun k => { k with exch := e })) l (field d 0 2 + 1)
    else setTree (s.onLink l (fun k => { k with exch := [], delay := some (median64 e) }))) := by
  have hother : ¬(field d 0 2 ≠ (s.link l).exch.length ∨ (s.link l).delay.isSome = true) := by
    rw [hdelay]
    simp [hnumber]
  refine congrArg Host.Outcome.next ((if_neg (not_not_intro hup)).trans ((if_neg fun h => h2 h.1).trans ((if_neg hother).trans ?_)))
  rw [if_neg h4]
  rfl

theorem exec_stamp_continues (hfew : (s.link l).exch.length < 63) : ∃ u, exec (.stamp l d) s = .next u
    ∧ (u.link l).exch = (s.link l).exch ++ [exchangeDelay d] ∧ (u.link l).delay = none ∧ u = { s with links := u.links } := by
  rw [exec_stamp_measures hup h2 h4 hnumber hdelay]
  refine ⟨_, congrArg Host.Outcome.next (if_pos ?_), ?_, ?_, rfl⟩
  · simp
    omega
  · rw [startExchange, link_pushCtl_same, link_onLink_same]
  · rw [startExchange, link_pushCtl_same, link_onLink_same]
    exact hdelay

theorem exec_stamp_ends (hlast : (s.link l).exch.length = 63) : ∃ u, exec (.stamp l d) s = .next u
    ∧ (u.link l).delay = some (median64 ((s.link l).exch ++ [exchangeDelay d])) ∧ u = { s with links := u.links, beat := u.beat } := by
  rw [exec_stamp_measures hup h2 h4 hnumber hdelay]
  refine ⟨_, congrArg Host.Outcome.next (if_neg ?_), ?_, ?_⟩
  · simp [hlast]
  · rw [link_setTree, link_onLink_same]
  · rw [setTree_eq]
    rfl

end

/-- Settles O39: holdover and the keeper's source by the conditions of their commands, an edge by its place against the last one, and
a link's delay by the exchanges that it still needs. -/
theorem holdoverAndSources : Obligations.HoldoverAndSources := by
  unfold Obligations.HoldoverAndSources
  refine ⟨fun s => ⟨exec_holdoverLimitFence_goes, fun hview hmember hheld hlong hleave => ?fence, exec_sourceLost_stands,
      exec_sourceLost_holds, exec_sourceRelocked_stands, fun err hkeeper hsource hheld hsteady =>
        ⟨fun hsmall => ?relocked, exec_sourceRelocked_slews hkeeper hsource hheld hsteady⟩⟩,
    fun s => ⟨exec_beatInEdge_stands, fun hreset hkeeper hsource => ⟨exec_beatInEdge_first hreset hkeeper hsource,
        fun a hlater => ⟨exec_beatInEdge_accepts hreset hkeeper hsource hlater,
          exec_beatInEdge_discards hreset hkeeper hsource hlater⟩⟩,
      fun l d => exec_stamp_down, fun l d => exec_stamp_answers, fun l d hup h2 h4 hnumber hdelay =>
        ⟨exec_stamp_continues hup h2 h4 hnumber hdelay, exec_stamp_ends hup h2 h4 hnumber hdelay⟩⟩⟩
  case fence =>
    have hfenced := fenceSelf_group hview hleave 4
    obtain ⟨-, hkeys, -⟩ := fenceSelf_fences hview hleave 4
    exact ⟨_, exec_holdoverLimitFence_fences hview hmember hheld hlong, congrArg Group.state hfenced, congrArg Group.view hfenced, hkeys⟩
  case relocked =>
    obtain ⟨o, hback⟩ := finishSource_beat { s with beat := { s.beat with srcErr := err, srcRemoved := 0 } }
    exact ⟨_, exec_sourceRelocked_ends hkeeper hsource hheld hsteady hsmall, congrArg Beat.holdover hback,
      congrArg Beat.sourceLocked hback, (congrArg Beat.number hback).trans rfl⟩

end Sys2Proof.Machine
end

section
/-!
SUPPORT. Transfers between devices (R259, R280 to R283): who is served, the link that a transfer for another rank leaves on, and
what a management message in one piece means.
-/

namespace Sys2Proof.Machine

/-! Fields of a record put together from parts. -/

theorem field_append_right {a : List Byte} {off : Nat} (h : a.length ≤ off) (b : List Byte) (n : Nat) :
    field (a ++ b) off n = field b (off - a.length) n := by
  rw [field, List.drop_append, List.drop_eq_nil_of_le h, List.nil_append]
  rfl

theorem field_leBytes {n v : Nat} (h : v < 256 ^ n) (b : List Byte) : field (leBytes n v ++ b) 0 n = v := by
  rw [field, List.drop_zero, List.take_left' (length_leBytes n v), leNat_leBytes h]

theorem field_leBytes_last {n v : Nat} (h : v < 256 ^ n) : field (leBytes n v) 0 n = v := by
  simpa using field_leBytes h []

/-- The first byte of a record as a field. -/
theorem field_code (c : Byte) (b : List Byte) : field (c :: b) 0 1 = c.toNat := by simp [field, leNat]

/-! Sets of ranks as masks. -/

theorem testBit_bitsMask (l : List Nat) (i : Nat) : (bitsMask l).testBit i = true ↔ i ∈ l := by
  have hfold (a : Nat) : (l.foldl (fun a k => a ||| 2 ^ k) a).testBit i = true ↔ a.testBit i = true ∨ i ∈ l := by
    induction l generalizing a with
    | nil => simp
    | cons k l ih =>
      rw [List.foldl_cons, ih, Nat.testBit_or, Bool.or_eq_true, Nat.testBit_two_pow, decide_eq_true_iff, List.mem_cons, or_assoc,
        eq_comm (a := k)]
  simpa [bitsMask] using hfold 0

theorem bitsMask_lt {n : Nat} {l : List Nat} (h : ∀ r, r ∈ l → r < n) : bitsMask l < 2 ^ n := by
  have hfold (a : Nat) (ha : a < 2 ^ n) : l.foldl (fun a k => a ||| 2 ^ k) a < 2 ^ n := by
    induction l generalizing a with
    | nil => exact ha
    | cons k l ih =>
      exact ih (fun r hr => h r (List.mem_cons_of_mem _ hr)) _
        (Nat.or_lt_two_pow ha (Nat.pow_lt_pow_right (by decide) (h k List.mem_cons_self)))
  exact hfold 0 (Nat.two_pow_pos n)

theorem bitsMask_lt_bytes {n : Nat} {l : List Nat} (h : ∀ r, r ∈ l → r < 8 * n) : bitsMask l < 256 ^ n := by
  rw [show (256 : Nat) = 2 ^ 8 from rfl, ← Nat.pow_mul]
  exact bitsMask_lt h

/-- Two ascending lists of the same numbers are one. -/
theorem eq_of_mem_iff_of_ascending {l m : List Nat} (hl : l.Pairwise (· < ·)) (hm : m.Pairwise (· < ·))
    (h : ∀ r, r ∈ l ↔ r ∈ m) : l = m := by
  have hperm : l.Perm m := (List.perm_ext_iff_of_nodup (hl.imp Nat.ne_of_lt) (hm.imp Nat.ne_of_lt)).mpr h
  exact hperm.eq_of_pairwise (fun a b _ _ hab hba => absurd hba (Nat.lt_asymm hab)) hl hm

/-- An ascending list of ranks is read back from its mask. -/
theorem maskBits_bitsMask {n : Nat} {l : List Nat} (hl : l.Pairwise (· < ·)) (h : ∀ r, r ∈ l → r < n) :
    maskBits n (bitsMask l) = l := by
  refine eq_of_mem_iff_of_ascending (pairwise_below _ _) hl fun r => ?_
  rw [maskBits, mem_below, testBit_bitsMask]
  exact and_iff_right_of_imp (h r)

/-! Forwarding (R281 to R283). -/

section
variable {s : State} {h : Hdr} {d : List Byte}

theorem exec_transferForward_here (hdest : h.dest = s.group.rank) : exec (.transferForward h d) s = .next s :=
  congrArg Host.Outcome.next (if_pos hdest)

theorem exec_transferForward_other (hdest : h.dest ≠ s.group.rank) :
    exec (.transferForward h d) s = .next (sendTransfer s (hdrClass h) h d).1 := congrArg Host.Outcome.next (if_neg hdest)

theorem exec_transferForward_unreachable (hdest : h.dest ≠ s.group.rank) (hnone : sendOn s (hdrClass h) h d = none) :
    exec (.transferForward h d) s = .next (s.bump Ctr.routeUnreachable 0 1) := by
  rw [exec_transferForward_other hdest, sendTransfer, hnone]

/-- A transfer goes on over the link of its route whose turn it is. -/
theorem sendOn_of_route {cls l : Nat} {r : Route} (hroute : routeTo s h.dest = some r) (hlink : pickLink s r cls = some l) :
    sendOn s cls h d = some ({ s with turns := put r.next l s.turns }.onLink l (fun k => { k with
      streams := k.streams.set cls (k.streams.getD cls [] ++ streamBytes h d) })) := by
  unfold sendOn
  rw [hroute]
  dsimp only
  rw [hlink]

theorem exec_transferForward_sends {l : Nat} {r : Route} (hdest : h.dest ≠ s.group.rank) (hroute : routeTo s h.dest = some r)
    (hlink : pickLink s r (hdrClass h) = some l) : ∃ u, exec (.transferForward h d) s = .next u
      ∧ (u.link l).streams = (s.link l).streams.set (hdrClass h) ((s.link l).streams.getD (hdrClass h) [] ++ streamBytes h d)
      ∧ (∀ j, j ≠ l → u.link j = s.link j) ∧ look r.next u.turns = some l ∧ u = { s with links := u.links, turns := u.turns } := by
  rw [exec_transferForward_other hdest, sendTransfer, sendOn_of_route hroute hlink]
  refine ⟨_, rfl, ?_, fun j hj => link_onLink_other hj _ _, look_put_same _ _ _, rfl⟩
  rw [link_onLink_same]
  rfl

/-! Who is served (R259, R280). -/

theorem served_other (hdest : h.dest ≠ s.group.rank) (ok : Bool) (f : State → State) : served s h ok f = s := if_pos hdest

theorem served_old (hdest : h.dest = s.group.rank) (hold : h.epoch < s.group.epoch) (ok : Bool) (f : State → State) :
    served s h ok f = s.bump Ctr.fencedDrops 0 1 := (if_neg (not_not_intro hdest)).trans (if_pos hold)

/-! Management messages (R274). -/

theorem exec_mgmt_whole {b : List Byte} (hdest : h.dest = s.group.rank) (hepoch : s.group.epoch ≤ h.epoch)
    (hwhole : h.address / 2 ^ 24 % 2 ^ 24 ≤ h.length) (hlen : h.length = b.length) (hlo : 1 ≤ b.length) (hhi : b.length ≤ 512) :
    exec (.mgmt h b) s = .next (takeMgmt s h.src b) := by
  have hok : (decide (h.length = b.length) && decide (1 ≤ b.length) && decide (b.length ≤ 512)) = true := by simp [hlen, hlo, hhi]
  have hpiece : takeMgmtPiece s h b = (s, some b) := if_pos (hlen ▸ hwhole)
  refine congrArg Host.Outcome.next ((congrArg (fun ok => served s h ok _) hok).trans ((served_here hdest hepoch _).trans ?_))
  rw [hpiece]

theorem takeMgmt_stray {src : Nat} (hview : inView s = true) (hsrc : src ∉ s.group.view) (b : List Byte) :
    takeMgmt s src b = s.bump Ctr.fencedDrops 0 1 := by
  rw [takeMgmt, if_pos hview, fromView, if_neg (by simp [hview]), if_neg (by simpa using hsrc)]

theorem takeMgmt_member {src : Nat} (hview : inView s = true) (hsrc : src ∈ s.group.view) (b : List Byte) :
    takeMgmt s src b = mgmtMeans s src b := by
  rw [takeMgmt, if_pos hview, fromView, if_neg (by simp [hview]), if_pos (by simpa using hsrc)]

/-- A message that means something in a view alone is heeded there as its command is. -/
theorem takeMgmt_inView {src : Nat} {b : List Byte} (hcode : ¬(field b 0 1 = 5 ∨ field b 0 1 = 10 ∨ field b 0 1 = 12))
    {f : State → State} (hmeans : mgmtMeans s src b = f s) : takeMgmt s src b = fromView s src f := by
  cases hview : inView s with
  | true =>
    by_cases hsrc : src ∈ s.group.view
    · rw [takeMgmt_member hview hsrc, hmeans, fromView, if_neg (by simp [hview]), if_pos (by simpa using hsrc)]
    · rw [takeMgmt_stray hview hsrc, fromView, if_neg (by simp [hview]), if_neg (by simpa using hsrc)]
  | false => rw [takeMgmt, if_neg (by simp [hview]), if_neg hcode, fromView, if_pos (by simp [hview])]

/-- An announcement is heeded of a member of the view, and outside a view. -/
theorem takeMgmt_announcement {src : Nat} {b : List Byte} (hcode : field b 0 1 = 5) (hsrc : inView s = true → src ∈ s.group.view) :
    takeMgmt s src b = mgmtMeans s src b := by
  cases hview : inView s with
  | true => exact takeMgmt_member hview (hsrc hview) b
  | false => rw [takeMgmt, if_neg (by simp [hview]), if_pos (.inl hcode)]

theorem mgmtMeans_decision (s : State) (src beat : Nat) (hbeat : beat < 2 ^ 64) :
    mgmtMeans s src (3#8 :: leBytes 8 beat) = takeDecision src beat s := by
  have hfield : field (leBytes 8 beat) 0 8 = beat := field_leBytes_last (Nat.lt_of_lt_of_eq hbeat (by decide))
  refine (show mgmtMeans s src (3#8 :: leBytes 8 beat) = takeDecision src (field (leBytes 8 beat) 0 8) s from rfl).trans ?_
  rw [hfield]

theorem mgmtMeans_reply (s : State) (src : Nat) (st : Byte) : mgmtMeans s src [2#8, st] = takeReply src st s := rfl

theorem mgmtMeans_abort (s : State) (src : Nat) : mgmtMeans s src [4#8] = takeAbort src s := rfl

/-- The fields of an announcement's body are the view's. -/
theorem viewBody_fields {v : ViewAnn} (hepoch : v.epoch < 2 ^ 32) (hkeeper : v.keeper < 2 ^ 16) (hbeat : v.beat < 2 ^ 64)
    (hdiffers : v.differs < 2 ^ 16) (hranks : ∀ r, r ∈ v.ranks → r < 1024) :
    field (viewBody v) 0 4 = v.epoch ∧ field (viewBody v) 4 2 = v.keeper ∧ field (viewBody v) 6 8 = v.beat
      ∧ (field (viewBody v) 14 1 != 0) = v.hold ∧ field (viewBody v) 15 128 = bitsMask v.ranks
      ∧ field (viewBody v) 143 2 = v.differs := by
  have hmask : bitsMask v.ranks < 256 ^ 128 := bitsMask_lt_bytes hranks
  have hhold : b2n v.hold < 256 ^ 1 := by cases v.hold <;> decide
  have hepoch : v.epoch < 256 ^ 4 := Nat.lt_of_lt_of_eq hepoch (by decide)
  have hkeeper : v.keeper < 256 ^ 2 := Nat.lt_of_lt_of_eq hkeeper (by decide)
  have hbeat : v.beat < 256 ^ 8 := Nat.lt_of_lt_of_eq hbeat (by decide)
  have hdiffers : v.differs < 256 ^ 2 := Nat.lt_of_lt_of_eq hdiffers (by decide)
  unfold viewBody
  generalize bitsMask v.ranks = m at hmask ⊢
  simp only [List.append_assoc]
  refine ⟨field_leBytes hepoch _, ?_, ?_, ?_, ?_, ?_⟩
  · rw [field_append_right (by simp), length_leBytes, field_leBytes hkeeper]
  · rw [field_append_right (by simp), field_append_right (by simp), length_leBytes, length_leBytes, field_leBytes hbeat]
  · rw [field_append_right (by simp), field_append_right (by simp), field_append_right (by simp)]
    simp only [length_leBytes]
    rw [field_leBytes hhold]
    cases v.hold <;> rfl
  · rw [field_append_right (by simp), field_append_right (by simp), field_append_right (by simp), field_append_right (by simp)]
    simp only [length_leBytes]
    exact field_leBytes hmask _
  · rw [field_append_right (by simp), field_append_right (by simp), field_append_right (by simp), field_append_right (by simp),
      field_append_right (by simp)]
    simp only [length_leBytes]
    exact field_leBytes_last hdiffers

theorem length_viewBody (v : ViewAnn) : (viewBody v).length = 145 := by simp [viewBody]

/-- The rank that differs is of account in HOLD alone. -/
theorem takeView_differs (epoch : Nat) (ranks : List Nat) (keeper beat : Nat) (hold : Bool) (differs : Nat) (s : State) :
    takeView epoch ranks keeper beat hold differs s =
      takeView epoch ranks keeper beat (if hold then some differs else none).isSome ((if hold then some differs else none).getD 0) s := by
  cases hold <;> rfl

theorem mgmtMeans_announcement (s : State) (src : Nat) {v : ViewAnn} (hepoch : v.epoch < 2 ^ 32) (hkeeper : v.keeper < 2 ^ 16)
    (hbeat : v.beat < 2 ^ 64) (hdiffers : v.differs < 2 ^ 16) (hsorted : v.ranks.Pairwise (· < ·))
    (hranks : ∀ r, r ∈ v.ranks → r < 1024) : mgmtMeans s src (5#8 :: viewBody v) =
      takeView v.epoch v.ranks v.keeper v.beat v.hold v.differs s := by
  obtain ⟨h0, h4, h6, h14, h15, h143⟩ := viewBody_fields hepoch hkeeper hbeat hdiffers hranks
  generalize viewBody v = b at h0 h4 h6 h14 h15 h143 ⊢
  have hmeans : mgmtMeans s src (5#8 :: b) = takeView (field b 0 4) (maskBits 1024 (field b 15 128)) (field b 4 2) (field b 6 8)
      (field b 14 1 != 0) (field b 143 2) s := rfl
  rw [hmeans, h0, h4, h6, h14, h15, h143, maskBits_bitsMask hsorted hranks]

end

/-- Settles O43: a transfer for another rank by its route, one for this device by its epoch, and a management message by the meaning of
its code. -/
theorem transfersAreRouted : Obligations.TransfersAreRouted := by
  unfold Obligations.TransfersAreRouted
  intro s h d
  refine ⟨exec_transferForward_here, exec_transferForward_unreachable, fun r l => exec_transferForward_sends,
    fun hdest => ?other, fun hdest hold => ?old, fun hdest hepoch hwhole => ⟨fun b hlen hlo hhi => ?whole,
      fun beat hbeat hlen => ?decision, fun st hlen => ?reply, fun hlen => ?abort, fun v he hk hb hd hsorted hranks hlen hsrc => ?view⟩⟩
  case other =>
    have hnext (ok : Bool) (f : State → State) : Host.Outcome.next (served s h ok f) = Host.Outcome.next (φ := Fault) (ρ := Refusal) s :=
      congrArg Host.Outcome.next (served_other hdest ok f)
    exact ⟨hnext _ _, hnext _ _, hnext _ _, hnext _ _, hnext _ _, hnext _ _⟩
  case old =>
    have hnext (ok : Bool) (f : State → State) : Host.Outcome.next (served s h ok f) =
        Host.Outcome.next (φ := Fault) (ρ := Refusal) (s.bump Ctr.fencedDrops 0 1) :=
      congrArg Host.Outcome.next (served_old hdest hold ok f)
    exact ⟨hnext _ _, hnext _ _, hnext _ _, hnext _ _, hnext _ _, hnext _ _⟩
  case whole =>
    have hexec := exec_mgmt_whole hdest hepoch hwhole hlen hlo hhi
    exact ⟨hexec, fun hview hsrc => hexec.trans (congrArg Host.Outcome.next (takeMgmt_stray hview hsrc b))⟩
  case decision =>
    rw [exec_mgmt_whole hdest hepoch hwhole (by simp [hlen]) (by simp) (by simp),
      takeMgmt_inView (by rw [field_code]; decide) (mgmtMeans_decision s h.src beat hbeat)]
    rfl
  case reply =>
    rw [exec_mgmt_whole hdest hepoch (b := [2#8, st]) hwhole hlen (by simp) (by simp),
      takeMgmt_inView (by rw [field_code]; decide) (mgmtMeans_reply s h.src st)]
    rfl
  case abort =>
    rw [exec_mgmt_whole hdest hepoch (b := [4#8]) hwhole hlen (by simp) (by simp),
      takeMgmt_inView (by rw [field_code]; decide) (mgmtMeans_abort s h.src)]
    rfl
  case view =>
    rw [exec_mgmt_whole hdest hepoch hwhole (by simp [hlen, length_viewBody]) (by simp) (by simp [length_viewBody]),
      takeMgmt_announcement rfl hsrc, mgmtMeans_announcement s h.src he hk hb hd hsorted hranks, takeView_differs]
    rfl

end Sys2Proof.Machine
end

section
/-!
SUPPORT. Frames sent over a link (R273 to R277): what a frame that leaves, one kept for replay and a round of the egress arbiter
change, and the frame that FRAME_SEND chooses.
-/

namespace Sys2Proof.Machine

/-! A frame that leaves (R273, R275, R278). -/

/-- The link without what a frame takes along as it leaves: the credits that it returns, a due mark, and the record that follows
the mark. -/
def keptPart (k : Link) : Link := { k with giveBack := [], markDue := false, ctlQ := [] }

/-- The state without what sending a frame may change: links, counters and what was sent. -/
def framePart (s : State) : State := { s with links := [], out := [], counters := [] }

theorem eq_of_framePart {s u : State} (h : framePart u = framePart s) :
    u = { s with links := u.links, out := u.out, counters := u.counters } :=
  congrArg (fun x : State => { x with links := u.links, out := u.out, counters := u.counters }) h

@[simp] theorem framePart_bump (s : State) (k : Nat × Nat) (u n : Nat) : framePart (s.bump k u n) = framePart s := by
  obtain ⟨c, hc⟩ := exists_bump_eq s k u n
  rw [hc]
  rfl

@[simp] theorem framePart_setLink (s : State) (l : Nat) (k : Link) : framePart (s.setLink l k) = framePart s := rfl

@[simp] theorem link_bump (s : State) (k : Nat × Nat) (u n l : Nat) : (s.bump k u n).link l = s.link l := by
  obtain ⟨c, hc⟩ := exists_bump_eq s k u n
  rw [hc]
  rfl

@[simp] theorem out_bump (s : State) (k : Nat × Nat) (u n : Nat) : (s.bump k u n).out = s.out := by
  obtain ⟨c, hc⟩ := exists_bump_eq s k u n
  rw [hc]

@[simp] theorem link_setLink_same (s : State) (l : Nat) (k : Link) : (s.setLink l k).link l = k := by simp [State.link]

/-- A frame that leaves changes the links and what was sent. -/
theorem sendFrame_eq (s : State) (l ty cls seq : Nat) (p : List Byte) : sendFrame s l ty cls seq p =
    { s with links := (sendFrame s l ty cls seq p).links, out := (sendFrame s l ty cls seq p).out } := by
  unfold sendFrame
  dsimp only
  split <;> rfl

theorem out_sendFrame (s : State) (l ty cls seq : Nat) (p : List Byte) :
    (sendFrame s l ty cls seq p).out = { kind := 7, dest := l, data := frameBytes s l ty cls seq p } :: s.out := by
  unfold sendFrame
  dsimp only
  split <;> rfl

@[simp] theorem framePart_sendFrame (s : State) (l ty cls seq : Nat) (p : List Byte) :
    framePart (sendFrame s l ty cls seq p) = framePart s := by
  rw [sendFrame_eq]
  rfl

/-- A frame that leaves takes along no more of its link than `keptPart` leaves out. -/
@[simp] theorem keptPart_sendFrame (s : State) (l ty cls seq : Nat) (p : List Byte) :
    keptPart ((sendFrame s l ty cls seq p).link l) = keptPart (s.link l) := by
  unfold sendFrame
  dsimp only
  split
  · rw [link_pushCtl_same, link_setLink_same]
    rfl
  · rw [link_setLink_same]
    rfl

/-- What of a link stands in the frames that it sends. -/
def headPart (k : Link) : Bool × Nat × Bool × List Nat := (k.markDue, k.rxSeq, k.nak, k.giveBack)

/-- A change of the link that leaves what stands in its frames leaves a frame's bytes. -/
theorem frameBytes_setLink {s : State} {l : Nat} {k : Link} (h : headPart k = headPart (s.link l)) (ty cls seq : Nat)
    (p : List Byte) : frameBytes (s.setLink l k) l ty cls seq p = frameBytes s l ty cls seq p := by
  simp only [headPart, Prod.mk.injEq] at h
  obtain ⟨hmark, hseq, hnak, hback⟩ := h
  simp only [frameBytes, link_setLink_same, hmark, hseq, hnak, hback, State.setLink_beat, State.setLink_now]

theorem out_sendFrame_setLink {s : State} {l : Nat} {k : Link} (h : headPart k = headPart (s.link l)) (ty cls seq : Nat)
    (p : List Byte) : (sendFrame (s.setLink l k) l ty cls seq p).out =
      { kind := 7, dest := l, data := frameBytes s l ty cls seq p } :: s.out := by
  rw [out_sendFrame, frameBytes_setLink h, State.setLink_out]

/-! A frame that is kept (R276). -/

/-- A frame as it is kept. -/
def numberedFrame (k : Link) (f : Frame) : Frame := { f with seq := k.txSeq }

/-- The link that keeps a frame under the next sequence number. -/
def keepingFrame (now : Nat) (k : Link) (f : Frame) : Link :=
  { k with txSeq := (k.txSeq + 1) % 65536, kept := k.kept ++ [numberedFrame k f], sentAt := if k.kept.isEmpty then now else k.sentAt }

theorem sendKept_eq (s : State) (l : Nat) (f : Frame) : sendKept s l f =
    (sendFrame (s.setLink l (keepingFrame s.now (s.link l) f)) l (if f.ctl then 2 else 1) f.cls (s.link l).txSeq f.payload).bump
      Ctr.framesSent l 1 := rfl

theorem keptPart_sendKept (s : State) (l : Nat) (f : Frame) :
    keptPart ((sendKept s l f).link l) = keptPart (keepingFrame s.now (s.link l) f) := by
  rw [sendKept_eq, link_bump, keptPart_sendFrame, link_setLink_same]

theorem out_sendKept (s : State) (l : Nat) (f : Frame) : (sendKept s l f).out =
    { kind := 7, dest := l, data := frameBytes s l (if f.ctl then 2 else 1) f.cls (s.link l).txSeq f.payload } :: s.out :=
  (out_bump ..).trans (out_sendFrame_setLink (k := keepingFrame s.now (s.link l) f) rfl ..)

theorem out_sendKept_setLink {s : State} {l : Nat} {k : Link} (h : headPart k = headPart (s.link l)) (f : Frame) :
    (sendKept (s.setLink l k) l f).out =
      { kind := 7, dest := l, data := frameBytes s l (if f.ctl then 2 else 1) f.cls k.txSeq f.payload } :: s.out := by
  rw [out_sendKept, link_setLink_same, frameBytes_setLink h, State.setLink_out]

@[simp] theorem framePart_sendKept (s : State) (l : Nat) (f : Frame) : framePart (sendKept s l f) = framePart s := by
  rw [sendKept_eq, framePart_bump, framePart_sendFrame, framePart_setLink]

/-- The link that sends a kept frame again, with those that follow still to be sent again. -/
def replayingFrame (now : Nat) (k : Link) (f : Frame) (rest : List Frame) : Link :=
  countReplay { k with resend := rest, sentAt := if (k.kept.head?.map (fun x => x.seq)) == some f.seq then now else k.sentAt } f.seq

/-! A round of the egress arbiter (R372 to R374). -/

/-- The state without what a round of an arbiter changes. -/
def arbPart (s : State) : State := { s with counters := [], arbs := [] }

theorem arbPart_setArb (s : State) (cls inst : Nat) (a : Arb) : arbPart (s.setArb cls inst a) = arbPart s := rfl

theorem arbPart_arbWaited (s : State) (cls inst : Nat) (p : Nat × Nat) : arbPart (arbWaited s cls inst p) = arbPart s := rfl

theorem arbPart_bump (s : State) (k : Nat × Nat) (u n : Nat) : arbPart (s.bump k u n) = arbPart s := by
  obtain ⟨c, hc⟩ := exists_bump_eq s k u n
  rw [hc]
  rfl

/-- A round of an arbiter changes counters and arbiters. -/
theorem arbRound_eq (s : State) (cls inst : Nat) (raised : List Nat) :
    ∃ c a, (arbRound s cls inst raised).1 = { s with counters := c, arbs := a } := by
  have hleaves : arbPart (arbRound s cls inst raised).1 = arbPart s := by
    unfold arbRound
    dsimp only
    refine (arbPart_setArb _ _ _ _).trans
      ((foldl_leaves (fun x w => ?_) _ _).trans (foldl_leaves (fun x p => arbPart_arbWaited x cls inst p) _ _))
    rw [arbPart_bump, arbPart_bump]
  exact ⟨_, _, congrArg (fun x : State => { x with
    counters := (arbRound s cls inst raised).1.counters, arbs := (arbRound s cls inst raised).1.arbs }) hleaves⟩

/-- A frame sent after a round of an arbiter changes what a frame changes, and the arbiters. -/
theorem eq_of_framePart_of_arbRound {s u : State} {c : List (Nat × Nat)} {a : List (Nat × Arb)}
    (h : framePart u = framePart { s with counters := c, arbs := a }) :
    u = { s with links := u.links, out := u.out, counters := u.counters, arbs := u.arbs } :=
  congrArg (fun x : State => { x with links := u.links, out := u.out, counters := u.counters, arbs := u.arbs }) h

/-! A DATA frame (R274, R275, R280). -/

/-- The next DATA frame of a class. -/
def dataFrame (k : Link) (c : Nat) : Frame :=
  { cls := c, payload := (k.streams.getD c []).take 512, before := k.part.getD c [] }

/-- The link without the bytes of that frame and the credit that it takes. -/
def dataTaken (k : Link) (c : Nat) : Link :=
  takeCredit { k with
    streams := k.streams.set c ((k.streams.getD c []).drop 512)
    part := k.part.set c (partAfter 32 (k.part.getD c [] ++ (k.streams.getD c []).take 512)) } c

/-- Taking a frame's bytes and credit leaves what is kept and the next sequence number, and cuts the stream of its class. -/
theorem dataTaken_fields (k : Link) (c : Nat) : (dataTaken k c).kept = k.kept ∧ (dataTaken k c).txSeq = k.txSeq
    ∧ (dataTaken k c).streams = k.streams.set c ((k.streams.getD c []).drop 512) := by
  unfold dataTaken takeCredit
  split <;> exact ⟨rfl, rfl, rfl⟩

theorem sendData_eq (s : State) (l c : Nat) :
    sendData s l c = sendKept (s.setLink l (dataTaken (s.link l) c)) l (dataFrame (s.link l) c) := rfl

theorem framePart_sendData (s : State) (l c : Nat) : framePart (sendData s l c) = framePart s := by
  rw [sendData_eq, framePart_sendKept, framePart_setLink]

/-- The next DATA frame of a class is kept, and its bytes are taken from the stream. -/
theorem link_sendData (s : State) (l c : Nat) :
    ((sendData s l c).link l).kept = (s.link l).kept ++ [numberedFrame (s.link l) (dataFrame (s.link l) c)]
      ∧ ((sendData s l c).link l).streams = (s.link l).streams.set c (((s.link l).streams.getD c []).drop 512) := by
  have hpart := keptPart_sendKept (s.setLink l (dataTaken (s.link l) c)) l (dataFrame (s.link l) c)
  rw [link_setLink_same] at hpart
  obtain ⟨hkept, hseq, hstreams⟩ := dataTaken_fields (s.link l) c
  have hnew : (keepingFrame s.now (dataTaken (s.link l) c) (dataFrame (s.link l) c)).kept =
      (s.link l).kept ++ [numberedFrame (s.link l) (dataFrame (s.link l) c)] := by
    simp only [keepingFrame, numberedFrame, hkept, hseq]
  exact ⟨(congrArg Link.kept hpart :).trans hnew, (congrArg Link.streams hpart :).trans hstreams⟩

/-! FRAME_SEND (R273 to R277). -/

section
variable {s : State} {l : Nat}

theorem exec_frameSend_off (h : (s.link l).state ≠ 2) : exec (.frameSend l) s = .next s := congrArg Host.Outcome.next (if_pos h)

variable (hup : (s.link l).state = 2)
include hup

theorem exec_frameSend_replays {f : Frame} {rest : List Frame} (h : (s.link l).resend = f :: rest) : exec (.frameSend l) s =
    .next (((sendFrame (s.setLink l (replayingFrame s.now (s.link l) f rest)) l (if f.ctl then 2 else 1) f.cls f.seq f.payload).bump
      Ctr.framesSent l 1).bump Ctr.replayedFrames l 1) := by
  refine congrArg Host.Outcome.next ((if_neg (not_not_intro hup)).trans ?_)
  rw [h]
  rfl

variable (hresend : (s.link l).resend = [])
include hresend

theorem exec_frameSend_idle (h : 64 ≤ (s.link l).kept.length ∨ ((s.link l).ctlQ = [] ∧ readyClasses (s.link l) = [])) :
    exec (.frameSend l) s = .next (sendFrame s l 0 0 0 []) := by
  refine congrArg Host.Outcome.next ?_
  simp only [hup, hresend]
  by_cases hfull : 64 ≤ (s.link l).kept.length
  · simp [hfull]
  · obtain ⟨hctl, hready⟩ := h.resolve_left hfull
    simp [hfull, hctl, hready]

variable (hroom : (s.link l).kept.length < 64)
include hroom

theorem exec_frameSend_control {r : List Byte} {rest : List (List Byte)} (h : (s.link l).ctlQ = r :: rest) :
    exec (.frameSend l) s = .next (sendKept (s.setLink l { s.link l with ctlQ := rest }) l { ctl := true, payload := r }) := by
  refine congrArg Host.Outcome.next ?_
  simp [hup, hresend, hroom, h]

theorem exec_frameSend_data {c : Nat} {rest : List Nat} (hctl : (s.link l).ctlQ = []) (hready : readyClasses (s.link l) ≠ [])
    (hwon : (arbRound s 4 l (readyClasses (s.link l))).2 = c :: rest) :
    exec (.frameSend l) s = .next (sendData (arbRound s 4 l (readyClasses (s.link l))).1 l c) := by
  refine congrArg Host.Outcome.next ?_
  simp [hup, hresend, hroom, hctl, hready, hwon]

end

/-- Settles O40: FRAME_SEND by the frame that it chooses, and what that frame leaves of its link. -/
theorem framesAreSent : Obligations.FramesAreSent := by
  unfold Obligations.FramesAreSent
  intro s l
  refine ⟨exec_frameSend_off, fun f rest hup hresend => ⟨_, exec_frameSend_replays hup hresend, ?replay⟩,
    fun hup hresend hnothing => ⟨_, exec_frameSend_idle hup hresend hnothing, ?idle⟩,
    fun r rest hup hresend hroom hctl => ⟨_, numberedFrame (s.link l) { ctl := true, payload := r },
      exec_frameSend_control hup hresend hroom hctl, ?control⟩,
    fun c rest hup hresend hroom hctl hready hwon => ⟨_, numberedFrame (s.link l) (dataFrame (s.link l) c),
      exec_frameSend_data hup hresend hroom hctl hready hwon, ?data⟩⟩
  case replay =>
    have hkept : keptPart ((((sendFrame (s.setLink l (replayingFrame s.now (s.link l) f rest)) l (if f.ctl then 2 else 1) f.cls f.seq
        f.payload).bump Ctr.framesSent l 1).bump Ctr.replayedFrames l 1).link l) =
          keptPart (replayingFrame s.now (s.link l) f rest) := by simp
    refine ⟨(congrArg Link.resend hkept :), ?_, (congrArg Link.kept hkept :), eq_of_framePart (by simp)⟩
    rw [out_bump, out_bump]
    exact out_sendFrame_setLink (k := replayingFrame s.now (s.link l) f rest) rfl ..
  case idle =>
    have hkept := keptPart_sendFrame s l 0 0 0 []
    exact ⟨out_sendFrame .., (congrArg Link.kept hkept :), (congrArg Link.txSeq hkept :), sendFrame_eq ..⟩
  case control =>
    have hkept := keptPart_sendKept (s.setLink l { s.link l with ctlQ := rest }) l { ctl := true, payload := r }
    rw [link_setLink_same] at hkept
    exact ⟨out_sendKept_setLink (k := { s.link l with ctlQ := rest }) rfl { ctl := true, payload := r },
      (congrArg Link.kept hkept :), rfl, rfl, rfl, (congrArg Link.txSeq hkept :), eq_of_framePart (by simp)⟩
  case data =>
    obtain ⟨cs, as, harb⟩ := arbRound_eq s 4 l (readyClasses (s.link l))
    rw [harb]
    obtain ⟨hkept, hstreams⟩ := link_sendData { s with counters := cs, arbs := as } l c
    exact ⟨hkept, rfl, rfl, rfl, rfl, hstreams, eq_of_framePart_of_arbRound (framePart_sendData ..)⟩

end Sys2Proof.Machine
end

section
/-!
SUPPORT. Multicasts by their key (R285 to R288): the multicast of a key after another takes its place, and a multicast that may
not send, which being pumped leaves but for its hold.
-/

namespace Sys2Proof.Machine

/-! The multicast of a key. -/

theorem find?_filter_not {α : Type} (p : α → Bool) (l : List α) : (l.filter (fun x => !p x)).find? p = none :=
  List.find?_eq_none.mpr fun x hx => by simpa using (List.mem_filter.mp hx).2

theorem key_pos_of_mcAt {s : State} {key pos : Nat} {m : Mc} (h : mcAt s key pos = some m) : m.key = key ∧ m.pos = pos := by
  simpa using List.find?_some h

theorem mcAt_of_mcs {s u : State} (h : u.mcs = s.mcs) (key pos : Nat) : mcAt u key pos = mcAt s key pos := by simp [mcAt, h]

/-- A multicast that takes the place of the one of its key is the multicast of that key. -/
theorem mcAt_setMc {s : State} {key pos : Nat} {x m : Mc} (h : mcAt s key pos = some x) (hkey : m.key = key) (hpos : m.pos = pos) :
    mcAt (setMc s m) key pos = some m := by
  subst hkey hpos
  have hfound : mcAt (setMc s m) m.key m.pos = (mcAt s m.key m.pos).map (fun _ => m) := find?_mapIf (fun _ _ => by simp) s.mcs
  rw [hfound, h, Option.map_some]

/-! A multicast that may not send (R286). -/

theorem mcGoes_of_early {s : State} {m : Mc} (h : s.beat.number < m.startBeat) (p : Nat) : mcGoes s m p = false := by
  simp [mcGoes, Nat.not_le.mpr h]

theorem mcGoes_of_unbegun {m : Mc} (h : m.begun = false) (s : State) (p : Nat) : mcGoes s m p = false := by simp [mcGoes, h]

/-- From no position a multicast may send, or has anything to send. -/
def Still (s : State) (m : Mc) : Prop := ∀ p, mcGoes s m p = false ∨ m.next p = none

section
variable {s : State} {key pos : Nat} {m : Mc} (hm : mcAt s key pos = some m) (hstill : Still s m)
include hm hstill

theorem pumpFrom_still (p f : Nat) : pumpFrom key pos p f s = s := by
  cases f with
  | zero => rfl
  | succ f =>
    simp only [pumpFrom, hm]
    cases hnext : m.next p with
    | none => rfl
    | some c =>
      have hgoes : mcGoes s m p = false := (hstill p).resolve_right (by simp [hnext])
      simp [hgoes]

theorem noteHold_still : mcAt (noteHold s key pos) key pos = some { m with holdSince := none } := by
  obtain ⟨hkey, hpos⟩ := key_pos_of_mcAt hm
  have hany {f : Nat → Bool} (hf : ∀ p, f p = false) : m.froms.any f = false := List.any_eq_false.mpr fun p _ => by simp [hf p]
  unfold noteHold
  rw [hm]
  dsimp only
  rw [hany fun p => ?unheld, if_neg Bool.false_ne_true]
  · split
    case isTrue hsince =>
      have hsince : none = m.holdSince := hsince
      rw [hm, hsince]
    case isFalse => exact mcAt_setMc hm hkey hpos
  case unheld =>
    obtain h | h := hstill p <;> simp [h]

/-- Pumping a multicast that may not send notes that it has no hold. -/
theorem pump_still : mcAt (pump s key pos) key pos = some { m with holdSince := none } := by
  have hpump : pump s key pos = noteHold s key pos := by
    simp only [pump, hm]
    rw [List.foldl_fixed' (fun p => pumpFrom_still hm hstill p _)]
  rw [hpump]
  exact noteHold_still hm hstill

end

@[simp] theorem outsidePushes_pump (s : State) (key pos : Nat) : outsidePushes (pump s key pos) = outsidePushes s := by
  unfold pump
  split
  · rfl
  · exact (outsidePushes_noteHold _ _ _).trans (foldl_leaves (fun y p => outsidePushes_pumpFrom _ _ p _ y) _ _)

end Sys2Proof.Machine
end

section
/-!
SUPPORT. MCAST (R285, R286): the multicast that the first position of its record begins, and the share that a position adds.
-/

namespace Sys2Proof.Machine

/-- The multicast of a record that begins. -/
def freshMc (r : Run) (mi key : Nat) (parent : Option Nat) : Mc :=
  { key := key, tag := r.tag, mi := mi, parent := parent, startBeat := beatOf r (r.mrec mi), stall := (r.mrec mi).imm0, begun := true }

/-- The multicast that begins where none of its key was is the one of the key; of the device nothing else changes but what telling
the parent does. -/
theorem mcOpen_fresh {s : State} {key : Nat} (h : mcAt s key 0 = none) (r : Run) (mi : Nat) (parent : Option Nat) :
    mcAt (mcOpen s r mi key parent) key 0 = some (freshMc r mi key parent) ∧ (mcOpen s r mi key parent).beat = s.beat
      ∧ (mcOpen s r mi key parent).mem = s.mem := by
  have htell : tellPart (mcOpen s r mi key parent) = tellPart { s with
      mcs := s.mcs.filter (fun (x : Mc) => !(x.key == key && x.pos == 0)) ++ [freshMc r mi key parent]
      mcOver := s.mcOver.filter (fun x => x.1 != key) } := by
    unfold mcOpen
    rw [h]
    cases parent with
    | none => rfl
    | some p => exact tellPart_sendMgmt _ _ _ _
  have hmcs : (mcOpen s r mi key parent).mcs =
      s.mcs.filter (fun (x : Mc) => !(x.key == key && x.pos == 0)) ++ [freshMc r mi key parent] := (congrArg State.mcs htell :)
  refine ⟨?_, (congrArg State.beat htell :), (congrArg State.mem htell :)⟩
  have hold : (s.mcs.filter (fun (x : Mc) => !(x.key == key && x.pos == 0))).find? (fun m => m.key == key && m.pos == 0) = none :=
    find?_filter_not _ _
  rw [mcAt, hmcs, List.find?_append, hold]
  simp [freshMc]

/-- The key of the multicast of a run's record (R285). -/
def mcKeyOf (r : Run) (mi : Nat) : Nat := mcKey r.slot mi (beatOf r (r.mrec mi))

/-- The state whose multicast a position's share is added to: the one begun before, or a new one. -/
def mcJoined (s : State) (r : Run) (w : Walk) : State :=
  if (mcAt s (mcKeyOf r w.mi) 0).any (fun x => x.begun && x.tag == r.tag) then markReached s r w
  else mcOpen (markReached s r w) r w.mi (mcKeyOf r w.mi) (mcParent s (getView s r w.mi w.pos 0))

/-- A multicast with the share of a position. -/
def withShare (m : Mc) (a : View) (w : Walk) : Mc :=
  { m with places := m.places ++ [(w.pos, w.core)], chunks := m.chunks ++ (mcChunks a).map (fun x => chunkId w.pos x.1)
           chunkLens := m.chunkLens ++ (mcChunks a).map (fun x => x.2.2) }

section
variable {s : State} {r : Run} {w : Walk}

theorem mcStart_mismatch (h : ∃ k, k < 6 ∧ (getView s r w.mi w.pos 0).ex k ≠ (getView s r w.mi w.pos 2).ex k) :
    mcStart s r w = failMacro s r.tag w.mi ePlan := if_pos (by simpa using h)

variable (hex : ∀ k, k < 6 → (getView s r w.mi w.pos 0).ex k = (getView s r w.mi w.pos 2).ex k)
include hex

theorem mcStart_matched : mcStart s r w =
    if mcBytes (getView s r w.mi w.pos 0) = 0 then endWalk s r.tag w.mi w.pos w.core
    else
      match mcAt (mcJoined s r w) (mcKeyOf r w.mi) 0 with
      | none => mcJoined s r w
      | some m => pump (setMc (mcJoined s r w) (withShare m (getView s r w.mi w.pos 0) w)) (mcKeyOf r w.mi) 0 :=
  if_neg (by simpa using hex)

theorem mcStart_empty (h : mcBytes (getView s r w.mi w.pos 0) = 0) : mcStart s r w = endWalk s r.tag w.mi w.pos w.core :=
  (mcStart_matched hex).trans (if_pos h)

/-- Before the start beat a position adds its share, and nothing is sent. -/
theorem mcStart_shares {m : Mc} (hbytes : mcBytes (getView s r w.mi w.pos 0) ≠ 0)
    (hm : mcAt (mcJoined s r w) (mcKeyOf r w.mi) 0 = some m) (hearly : (mcJoined s r w).beat.number < m.startBeat) :
    mcAt (mcStart s r w) (mcKeyOf r w.mi) 0 = some { withShare m (getView s r w.mi w.pos 0) w with holdSince := none }
      ∧ (mcStart s r w).mem = (mcJoined s r w).mem := by
  obtain ⟨hkey, hpos⟩ := key_pos_of_mcAt hm
  rw [mcStart_matched hex, if_neg hbytes, hm]
  dsimp only
  exact ⟨pump_still (mcAt_setMc (m := withShare m (getView s r w.mi w.pos 0) w) hm hkey hpos)
    fun p => .inl (mcGoes_of_early hearly p), mem_of_outsidePushes ((outsidePushes_pump ..).trans (outsidePushes_setMc ..))⟩

end

/-- A further position's MCAST begins no multicast. -/
theorem mcJoined_again {s : State} {r : Run} {w : Walk} {m : Mc} (hm : mcAt s (mcKeyOf r w.mi) 0 = some m) (hbegun : m.begun = true)
    (htag : m.tag = r.tag) : mcJoined s r w = markReached s r w := if_pos (by simp [hm, hbegun, htag])

/-- The first position's MCAST begins the multicast of its key. -/
theorem mcJoined_fresh {s : State} {r : Run} {w : Walk} (h : ∀ m, m ∈ s.mcs → m.key ≠ mcKeyOf r w.mi) :
    mcAt (mcJoined s r w) (mcKeyOf r w.mi) 0 =
        some (freshMc r w.mi (mcKeyOf r w.mi) (mcParent s (getView s r w.mi w.pos 0)))
      ∧ (mcJoined s r w).beat = s.beat ∧ (mcJoined s r w).mem = s.mem := by
  have hnone : mcAt s (mcKeyOf r w.mi) 0 = none := List.find?_eq_none.mpr fun m hm => by simp [h m hm]
  have hopen : mcJoined s r w = mcOpen (markReached s r w) r w.mi (mcKeyOf r w.mi) (mcParent s (getView s r w.mi w.pos 0)) :=
    if_neg (by simp [hnone])
  rw [hopen]
  exact mcOpen_fresh (s := markReached s r w) hnone r w.mi _

/-- MCAST on a position that has not started starts it. -/
theorem exec_mcast_starts {s : State} {t i p : Nat} {r : Run} {w : Walk} (hw : walkOf s t i p = some (r, w)) (hdone : w.done = false)
    (hset : w.set = false) (hop : (r.mrec i).opcode = opMcast) : exec (.mcast t i p) s = .next (mcStart s r w) :=
  congrArg Host.Outcome.next ((opCmd_of_walk hw hop hdone _).trans (if_neg (by simp [hset])))

end Sys2Proof.Machine
end

section
/-!
SUPPORT. JOIN (R286, R287) and what a rank that is not of the view sends (R259).
-/

namespace Sys2Proof.Machine

/-! Who is heard (R259). -/

section
variable {s : State} {rank : Nat} (hview : inView s = true)
include hview

theorem fromView_stray (hrank : rank ∉ s.group.view) (f : State → State) : fromView s rank f = s.bump Ctr.fencedDrops 0 1 := by
  simp [fromView, hview, hrank]

theorem fromView_member (hrank : rank ∈ s.group.view) (f : State → State) : fromView s rank f = f s := by
  simp [fromView, hview, hrank]

theorem exec_join_old {epoch : Nat} (hold : epoch < s.group.epoch) (key rank : Nat) :
    exec (.join key epoch rank) s = .next (s.bump Ctr.fencedDrops 0 1) :=
  congrArg Host.Outcome.next ((if_neg (by simp [hview])).trans (if_pos hold))

theorem exec_join_new {epoch : Nat} (hepoch : s.group.epoch ≤ epoch) (key rank : Nat) :
    exec (.join key epoch rank) s = .next (fromView s rank (takeJoin key rank)) :=
  congrArg Host.Outcome.next ((if_neg (by simp [hview])).trans (if_neg (Nat.not_lt.mpr hepoch)))

theorem exec_join_stray (hrank : rank ∉ s.group.view) (key epoch : Nat) :
    exec (.join key epoch rank) s = .next (s.bump Ctr.fencedDrops 0 1) := by
  obtain hold | hepoch := Nat.lt_or_ge epoch s.group.epoch
  · exact exec_join_old hview hold key rank
  · rw [exec_join_new hview hepoch, fromView_stray hview hrank]

theorem exec_join_member {epoch : Nat} (hrank : rank ∈ s.group.view) (hepoch : s.group.epoch ≤ epoch) (key : Nat) :
    exec (.join key epoch rank) s = .next (takeJoin key rank s) := by
  rw [exec_join_new hview hepoch, fromView_member hview hrank]

theorem exec_detach_stray (hrank : rank ∉ s.group.view) (d : List Byte) :
    exec (.detach rank d) s = .next (s.bump Ctr.fencedDrops 0 1) :=
  congrArg Host.Outcome.next (fromView_stray hview hrank _)

theorem exec_detach_member (hrank : rank ∈ s.group.view) (d : List Byte) :
    exec (.detach rank d) s = .next (takeDetach (field d 0 4) (field d 4 1) (field d 5 1) rank s) :=
  congrArg Host.Outcome.next (fromView_member hview hrank _)

end

/-! A child that joins (R286, R287). -/

/-- A multicast with one more child. -/
def withChild (m : Mc) (rank now : Nat) : Mc := { m with children := m.children ++ [{ rank := rank, joinedAt := now }] }

/-- A multicast put in, not begun, where its key has none, is the one of its key. -/
theorem mcAt_append_waiting {s : State} {key : Nat} (hnone : mcAt s key 0 = none) :
    mcAt { s with mcs := s.mcs ++ [{ key := key }] } key 0 = some { key := key } := by
  have hfind : s.mcs.find? (fun m => m.key == key && m.pos == 0) = none := hnone
  simp [mcAt, List.find?_append, hfind]

theorem takeJoin_unnamed {s : State} {key : Nat} (h : mcNamed s key = false) (rank : Nat) : takeJoin key rank s = s :=
  if_pos (by simp [h])

section
variable {s : State} {key rank : Nat} (hnamed : mcNamed s key = true)
include hnamed

theorem takeJoin_known {m : Mc} (hm : mcAt s key 0 = some m) (hnew : ∀ c, c ∈ m.children → c.rank ≠ rank) : takeJoin key rank s =
    if 64 ≤ m.children.length then sendMgmt s rank 11 (leBytes 4 key)
    else if m.begun ∧ (m.startBeat < s.beat.number ∨ !m.sent.isEmpty) then
      detachChild (setMc s (withChild m rank s.beat.number)) (withChild m rank s.beat.number) rank 0
    else setMc s (withChild m rank s.beat.number) := by
  have hany : m.children.any (fun c => c.rank == rank) = false := by simpa using hnew
  simp only [takeJoin, hnamed, hm, hany, Option.isNone_some, Bool.not_true, Bool.false_and, Bool.false_eq_true, if_false]
  rfl

theorem takeJoin_full {m : Mc} (hm : mcAt s key 0 = some m) (hnew : ∀ c, c ∈ m.children → c.rank ≠ rank)
    (hfull : 64 ≤ m.children.length) : takeJoin key rank s = sendMgmt s rank 11 (leBytes 4 key) :=
  (takeJoin_known hnamed hm hnew).trans (if_pos hfull)

theorem takeJoin_in_time {m : Mc} (hm : mcAt s key 0 = some m) (hnew : ∀ c, c ∈ m.children → c.rank ≠ rank)
    (hroom : m.children.length < 64) (htime : m.begun = false ∨ (s.beat.number ≤ m.startBeat ∧ m.sent = [])) :
    takeJoin key rank s = setMc s (withChild m rank s.beat.number) := by
  have hnotLate : ¬(m.begun = true ∧ (m.startBeat < s.beat.number ∨ (!m.sent.isEmpty) = true)) := by
    rintro ⟨hbegun, hlate⟩
    obtain ⟨hbeat, hsent⟩ := htime.resolve_left (by simp [hbegun])
    exact hlate.elim (Nat.not_lt.mpr hbeat) (by simp [hsent])
  rw [takeJoin_known hnamed hm hnew, if_neg (Nat.not_le.mpr hroom), if_neg hnotLate]

/-- A JOIN that comes before the MCAST waits with the multicast of its key, not begun. -/
theorem takeJoin_first (hnone : mcAt s key 0 = none) (hover : ∀ x, x ∈ s.mcOver → x.1 ≠ key) :
    takeJoin key rank s = setMc { s with mcs := s.mcs ++ [{ key := key }] } (withChild { key := key } rank s.beat.number) := by
  have hwaits := mcAt_append_waiting hnone
  have hany : s.mcOver.any (fun x => x.1 == key) = false := by simpa using hover
  simp only [takeJoin, hnamed, hnone, hany, hwaits, Option.isNone_none, Bool.not_true, Bool.and_false, Bool.false_eq_true, if_false,
    if_true]
  rfl

theorem takeJoin_first_child (hnone : mcAt s key 0 = none) (hover : ∀ x, x ∈ s.mcOver → x.1 ≠ key) :
    mcAt (takeJoin key rank s) key 0 = some (withChild { key := key } rank s.beat.number) := by
  rw [takeJoin_first hnamed hnone hover]
  exact mcAt_setMc (mcAt_append_waiting hnone) rfl rfl

end

end Sys2Proof.Machine
end

section
/-!
SUPPORT. The flow of a multicast (R280, R286): pieces and whole chunks received, and acknowledgements.
-/

namespace Sys2Proof.Machine

/-! MC_DATA of a multicast (R280, R286). -/

section
variable {s : State} {h : Hdr} {a g : Nat} {d : List Byte} (hdest : h.dest = s.group.rank)
include hdest

theorem exec_mcData_old (hold : h.epoch < s.group.epoch) : exec (.mcData h a g d) s = .next (s.bump Ctr.fencedDrops 0 1) :=
  congrArg Host.Outcome.next (served_old (h := { h with address := a, tag := g }) hdest hold _ _)

variable (hepoch : s.group.epoch ≤ h.epoch)
include hepoch

theorem exec_mcData_outside (hview : inView s = false) : exec (.mcData h a g d) s = .next s := by
  refine congrArg Host.Outcome.next ?_
  have hserved (ok : Bool) (f : State → State) : servedIn s { h with address := a, tag := g } ok id f = s := by
    simp [servedIn, served, arrive, hdest, Nat.not_lt.mpr hepoch, hview]
  exact hserved _ _

theorem exec_mcData_of_mcAt {m : Mc} (hview : inView s = true) (hspace : h.space = 0) (hlen : h.length = d.length)
    (hlo : 32 ≤ d.length) (hhi : d.length ≤ 4096) (hm : mcAt s h.key 0 = some m) : exec (.mcData h a g d) s =
      .next (if m.detached || m.parent != some h.src then s
        else chunkBytes s m (chunkId (a / 2 ^ 56) (a % 2 ^ 56 / 65536)) (a % 2 ^ 56 % 65536) d) := by
  have hok : (decide (h.length = d.length) && decide (32 ≤ d.length) && decide (d.length ≤ 4096)) = true := by simp [hlen, hlo, hhi]
  refine congrArg Host.Outcome.next ((congrArg (fun ok => servedIn s { h with address := a, tag := g } ok _ _) hok).trans
    ((served_here (h := { h with address := a, tag := g }) hdest hepoch _).trans ?_))
  simp only [hview, hspace, hm, if_true, Nat.zero_ne_one, if_false]

end

/-! Bytes of a chunk (R280, R286). -/

/-- The pieces that a multicast keeps, with one more of chunk c. -/
def piecesWith (m : Mc) (c off : Nat) (d : List Byte) : List (Nat × Nat × List Byte) :=
  m.parts.filter (fun x => !(x.1 == c && x.2.1 == off)) ++ [(c, off, d.take (m.len c - off))]

/-- The pieces of one chunk. -/
def piecesOf (c : Nat) (l : List (Nat × Nat × List Byte)) : List (Nat × Nat × List Byte) := l.filter (fun x => x.1 == c)

/-- The bytes of a chunk from its pieces. -/
def joinPieces (l : List (Nat × Nat × List Byte)) : List Byte :=
  (List.range 16).flatMap (fun i => ((l.find? (fun x => x.2.1 == 4096 * i)).map (fun x => x.2.2)).getD [])

/-- A multicast that has received chunk c whole. -/
def withChunk (m : Mc) (c : Nat) (l : List (Nat × Nat × List Byte)) : Mc :=
  { m with parts := l.filter (fun x => x.1 != c), got := m.got ++ [c], kept := put c (joinPieces (piecesOf c l)) m.kept }

@[simp] theorem outsidePushes_ackChunks (s : State) (key : Nat) : outsidePushes (ackChunks s key) = outsidePushes s := by
  unfold ackChunks
  split
  · rfl
  · split
    · dsimp only
      split
      · rfl
      · exact (outsidePushes_setMc _ _).trans (foldl_leaves (fun _ _ => outsidePushes_sendTransfer ..) _ _)
    · rfl

section
variable {s : State} {m : Mc} {r : Run} {c : Nat} (hlive : s.live m.tag = some r) (hr : r.stopping = none) (hc : c ∈ m.chunks)
  (hgot : c ∉ m.got)
include hlive hr hc hgot

theorem chunkBytes_missing (off : Nat) (d : List Byte) : chunkBytes s m c off d =
    if ((piecesOf c (piecesWith m c off d)).map (fun x => x.2.2.length)).sum < m.len c then
      setMc s { m with parts := piecesWith m c off d }
    else
      let s1 := setMc s (withChunk m c (piecesWith m c off d))
      match writeChunk s1 (getView s1 r m.mi (chunkPos c) 2) (chunkOff c) (joinPieces (piecesOf c (piecesWith m c off d))) with
      | .error e => failWrite s1 m.tag m.mi e
      | .ok v => pump (ackChunks v m.key) m.key 0 := by
  have hwanted : ¬((r.stopping.isSome || m.got.contains c || !m.chunks.contains c) = true) := by simp [hr, hc, hgot]
  unfold chunkBytes
  rw [hlive]
  exact if_neg hwanted

theorem chunkBytes_piece {off : Nat} {d : List Byte}
    (hpart : ((piecesOf c (piecesWith m c off d)).map (fun x => x.2.2.length)).sum < m.len c) :
    chunkBytes s m c off d = setMc s { m with parts := piecesWith m c off d } :=
  (chunkBytes_missing hlive hr hc hgot off d).trans (if_pos hpart)

/-- The piece that completes a chunk is written into C with the others. -/
theorem chunkBytes_whole_mem {off : Nat} {d : List Byte} {v : State}
    (hwhole : m.len c ≤ ((piecesOf c (piecesWith m c off d)).map (fun x => x.2.2.length)).sum)
    (hv : writeChunk (setMc s (withChunk m c (piecesWith m c off d)))
      (getView (setMc s (withChunk m c (piecesWith m c off d))) r m.mi (chunkPos c) 2) (chunkOff c)
      (joinPieces (piecesOf c (piecesWith m c off d))) = .ok v) :
    (chunkBytes s m c off d).mem = v.mem := by
  rw [chunkBytes_missing hlive hr hc hgot, if_neg (Nat.not_lt.mpr hwhole)]
  dsimp only
  rw [hv]
  exact mem_of_outsidePushes ((outsidePushes_pump _ _ _).trans (outsidePushes_ackChunks _ _))

end

/-! MC_ACK (R286). -/

/-- A multicast with a chunk acknowledged by a child. -/
def withAck (m : Mc) (rank c : Nat) : Mc :=
  { m with children := mapIf (fun x => x.rank == rank) (fun x => { x with acked := insertN c x.acked }) m.children }

theorem sendSettle_of_mcast {s : State} {key pos : Nat} {m : Mc} (hm : mcAt s key pos = some m) (h : m.rotate = false) :
    sendSettle s key pos = s := by
  simp [sendSettle, hm, h]

/-- An acknowledgement of a multicast that has nothing to send is kept for its child. -/
theorem acked_still {s : State} {m : Mc} {rank c : Nat} (hm : mcAt s m.key m.pos = some m) (hmcast : m.rotate = false)
    (hstill : m.begun = false ∨ ∀ p, m.next p = none) (core : Nat) :
    mcAt (acked s m rank core c) m.key m.pos = some { withAck m rank c with holdSince := none }
      ∧ (acked s m rank core c).mem = s.mem := by
  have hhere : (fun x : Child => x.rank == rank && (!m.rotate || x.core == core)) = fun x => x.rank == rank := by simp [hmcast]
  have hset : mcAt (setMc s (withAck m rank c)) m.key m.pos = some (withAck m rank c) := mcAt_setMc hm rfl rfl
  have hmc := pump_still hset fun p => hstill.imp (fun hbegun => mcGoes_of_unbegun hbegun _ p) (fun hnext => hnext p)
  unfold acked
  dsimp only
  rw [hhere]
  change mcAt (sendSettle (pump (setMc s (withAck m rank c)) m.key m.pos) m.key m.pos) m.key m.pos = _
    ∧ (sendSettle (pump (setMc s (withAck m rank c)) m.key m.pos) m.key m.pos).mem = s.mem
  rw [sendSettle_of_mcast hmc hmcast]
  exact ⟨hmc, mem_of_outsidePushes ((outsidePushes_pump ..).trans (outsidePushes_setMc ..))⟩

theorem exec_mcAck_old {s : State} {epoch : Nat} (hold : epoch < s.group.epoch) (key rank a : Nat) :
    exec (.mcAck key epoch rank a) s = .next (s.bump Ctr.fencedDrops 0 1) := congrArg Host.Outcome.next (if_pos hold)

/-- An acknowledgement from a child of the one multicast there is. -/
theorem exec_mcAck_child {s : State} {m : Mc} {epoch rank : Nat} (hepoch : s.group.epoch ≤ epoch) (hmcs : s.mcs = [m])
    (hmcast : m.rotate = false) (hchild : ∃ c, c ∈ m.children ∧ c.rank = rank) (a : Nat) :
    exec (.mcAck m.key epoch rank a) s = .next (acked s m rank (a / 2 ^ 56) (chunkId (a / 2 ^ 56) (a % 2 ^ 56 / 65536))) := by
  have hany : m.children.any (fun c => c.rank == rank && (!m.rotate || c.core == a / 2 ^ 56)) = true := by
    simpa [hmcast] using hchild
  have hfind : s.mcs.find? (fun x => x.key == m.key && x.children.any (fun c => c.rank == rank && (!x.rotate || c.core == a / 2 ^ 56)))
      = some m := by
    rw [hmcs]
    exact List.find?_cons_of_pos (by rw [hany]; simp)
  refine congrArg Host.Outcome.next ((if_neg (Nat.not_lt.mpr hepoch)).trans ?_)
  dsimp only
  rw [hfind]
  simp [hmcast]

end Sys2Proof.Machine
end

section
/-!
SUPPORT. The end of a multicast (R287, R288): holds and detached children, catching up, and completion.
-/

namespace Sys2Proof.Machine

/-! Counters. -/

/-- The place of a unit's counter. -/
def ctrPlace (k : Nat × Nat) (u : Nat) : Nat := (k.1 * 65536 + k.2) * 65536 + u

@[simp] theorem bump_mcs (s : State) (k : Nat × Nat) (u n : Nat) : (s.bump k u n).mcs = s.mcs :=
  (congrArg (fun w => w.2.2) (waiting_bump s k u n) :)

theorem counter_bump_one (s : State) (k : Nat × Nat) (u : Nat) :
    (s.bump k u 1).counter k u = min (s.counter k u + 1) (2 ^ 64 - 1) := by
  unfold State.bump
  rw [if_neg Nat.one_ne_zero]
  simp [State.counter, State.setCounter]

theorem counter_bump_other {k k' : Nat × Nat} {u u' : Nat} (h : ctrPlace k u ≠ ctrPlace k' u') (s : State) (n : Nat) :
    (s.bump k' u' n).counter k u = s.counter k u := by
  unfold State.bump
  split
  · rfl
  · exact congrArg (fun x : Option Nat => x.getD 0) (look_put_other h _ _)

theorem counter_sendTransfer {k : Nat × Nat} {u : Nat} (h : ctrPlace k u ≠ ctrPlace Ctr.routeUnreachable 0) (s : State) (cls : Nat)
    (x : Hdr) (d : List Byte) : (sendTransfer s cls x d).1.counter k u = s.counter k u := by
  unfold sendTransfer
  split
  · obtain ⟨l, ts, rfl⟩ := eq_of_sendOn ‹_›
    rfl
  · exact counter_bump_other h _ _

/-! MCAST_DETACH and CATCHUP_LIMIT (R287, R288). -/

theorem exec_mcastDetach_of_hold {s : State} {key pos rank b : Nat} {m : Mc} {x : Child} (hm : mcAt s key pos = some m)
    (hhold : m.holdSince = some b)
    (hx : (m.froms.flatMap (fun p => ((m.next p).map m.behind).getD [])).find? (fun x => x.rank == rank) = some x) :
    exec (.mcastDetach key pos rank) s =
      .next (if s.beat.number < b + m.stall then s else pump (detachChild s m rank x.core) key pos) := by
  refine congrArg Host.Outcome.next ?_
  simp only [hm, hhold, hx]

/-- A multicast with the children of a rank that are past their limit failed. -/
def withFailed (s : State) (m : Mc) (rank : Nat) : Mc :=
  { m with children := mapIf (fun c => c.rank == rank && pastLimit s m c) (fun c => { c with failed := true }) m.children }

theorem exec_catchupLimit_of_mcAt {s : State} {key pos : Nat} {m : Mc} (hm : mcAt s key pos = some m) (rank : Nat) :
    exec (.catchupLimit key pos rank) s = .next (setMc s (withFailed s m rank)) := by
  refine congrArg Host.Outcome.next ?_
  simp only [hm]
  rfl

theorem getD_mapIf {α : Type} {p : α → Bool} {f : α → α} {l : List α} {k : Nat} (h : k < l.length) (d : α) :
    (mapIf p f l).getD k d = if p (l.getD k d) then f (l.getD k d) else l.getD k d := by
  simp [mapIf, List.getD, h]

theorem failed_withFailed {s : State} {m : Mc} {k : Nat} (hk : k < m.children.length) (rank : Nat) :
    ((withFailed s m rank).children.getD k {}).failed =
      ((m.children.getD k {}).failed || ((m.children.getD k {}).rank == rank && pastLimit s m (m.children.getD k {}))) := by
  rw [withFailed, getD_mapIf hk, Bool.or_comm]
  cases h : (m.children.getD k {}).rank == rank && pastLimit s m (m.children.getD k {}) <;> simp

/-! MCAST_COMPLETE (R288). -/

theorem over_iff {m : Mc} (hbegun : m.begun = true) (team : Nat) : m.over team = true ↔
    m.settled = true ∧ m.places.length = team ∧ (∀ c, c ∈ m.chunks → c ∈ m.sent)
      ∧ (m.parent ≠ none → ∀ c, c ∈ m.chunks → c ∈ m.written) := by
  simp [Mc.over, hbegun, and_assoc, or_iff_not_imp_left]

/-- The walks of the positions of a multicast. -/
def placeWalks (m : Mc) : List Walk := m.places.map (fun x => { pos := x.1, core := x.2 })

/-- The state without the multicast of a key, which is over. -/
def withoutMc (s : State) (key : Nat) : State :=
  closeMcast { s with mcs := s.mcs.filter (fun x => !(x.key == key && x.pos == 0)) } key

theorem mcAt_withoutMc (s : State) (key : Nat) : mcAt (withoutMc s key) key 0 = none := find?_filter_not _ _

theorem begun_of_mcOf {s : State} {t i : Nat} {m : Mc} (h : mcOf s t i = some m) : m.begun = true := by
  have hfound := List.find?_some h
  simp only [Bool.and_eq_true] at hfound
  tauto

theorem exec_mcastComplete_none {s : State} {t i : Nat} (h : mcOf s t i = none) : exec (.mcastComplete t i) s = .next s := by
  refine congrArg Host.Outcome.next ?_
  simp only [h]

section
variable {s : State} {t i : Nat} {r : Run} {m : Mc} (hlive : s.live t = some r) (hm : mcOf s t i = some m)
include hlive hm

theorem exec_mcastComplete_waits
    (h : ¬(r.stopping = none ∧ m.startBeat ≤ s.beat.number ∧ m.over r.prog.team.length = true)) :
    exec (.mcastComplete t i) s = .next s := by
  refine congrArg Host.Outcome.next ?_
  simp only [hm, hlive]
  refine if_pos ?_
  simp only [Bool.or_eq_true, Option.isSome_iff_ne_none, decide_eq_true_eq, Bool.not_eq_true']
  grind

theorem exec_mcastComplete_ends (hr : r.stopping = none) (hbeat : m.startBeat ≤ s.beat.number)
    (hover : m.over r.prog.team.length = true) :
    exec (.mcastComplete t i) s = .next (endWalks (withoutMc s m.key) t i (placeWalks m)) := by
  refine congrArg Host.Outcome.next ?_
  simp only [hm, hlive]
  refine (if_neg (by simp [hr, hbeat, hover])).trans ?_
  exact (List.foldl_map (f := fun x : Nat × Nat => ({ pos := x.1, core := x.2 } : Walk))
    (g := fun u w => endWalk u t i w.pos w.core)).symm

end

theorem mcAt_endWalks (s : State) (t i : Nat) (ws : List Walk) (key pos : Nat) :
    mcAt (endWalks s t i ws) key pos = mcAt s key pos :=
  mcAt_of_mcs (foldl_leaves (g := State.mcs) (by intros; rfl) _ _) _ _

/-! DETACH (R287). -/

/-- A multicast without its catch-up reads. -/
def readless (m : Mc) : Mc := { m with reads := [] }

/-- A multicast with one more catch-up read. -/
def withRead (x : Nat × Nat × Nat) (m : Mc) : Mc := { m with reads := m.reads ++ [x] }

/-- What a catch-up read leaves: the multicast of its key but for its reads, the count of late multicasts, and the memories. -/
def askedPart (key : Nat) (s : State) : Option Mc × Nat × Memory := ((mcAt s key 0).map readless, s.counter Ctr.mcastLate 0, s.mem)

theorem askedPart_askPiece (s : State) (m : Mc) (p c off : Nat) : askedPart m.key (askPiece s m p c off) = askedPart m.key s := by
  let x : Hdr := { ownHdr s 0x01 p with
    key := m.key, tag := 2 ^ 31 + s.nextXfer, address := chunkPos c * 2 ^ 56 + chunkOff c + off
    reqLength := max 32 (min 4096 (m.len c - off)) }
  let t : State := (sendTransfer { s with nextXfer := (s.nextXfer + 1) % 2 ^ 31 } 3 x []).1
  have hmcs : t.mcs = s.mcs := (congrArg (fun w => w.2.2) (waiting_sendTransfer { s with nextXfer := _ } 3 x []) :)
  have hat : mcAt (askPiece s m p c off) m.key 0 =
      (mcAt t m.key 0).map (withRead (2 ^ 31 + s.nextXfer, c, off)) :=
    find?_mapIf (p := fun y : Mc => y.key == m.key && y.pos == 0) (f := withRead (2 ^ 31 + s.nextXfer, c, off)) (fun _ h => h) t.mcs
  have hcount : (askPiece s m p c off).counter Ctr.mcastLate 0 = s.counter Ctr.mcastLate 0 :=
    counter_sendTransfer (by decide) _ 3 x []
  have hmem : (askPiece s m p c off).mem = s.mem := sendTransfer_mem _ 3 x []
  unfold askedPart
  rw [hat, hcount, hmem, mcAt_of_mcs hmcs, Option.map_map]
  rfl

/-- A receiver that begins to catch up counts as late. -/
theorem askedPart_catchUp (s : State) (m : Mc) (p : Nat) : askedPart m.key (catchUp s m p) =
    askedPart m.key (setMc (s.bump Ctr.mcastLate 0 1) { m with detached := true, parts := [] }) :=
  foldl_leaves (fun x c => foldl_leaves (fun y _ => askedPart_askPiece y m p c _) _ x) _ _

section
variable {s : State} {key rank : Nat} {m : Mc} (hm : mcAt s key 0 = some m) (hmcast : m.rotate = false)
include hm hmcast

theorem takeDetach_ignored (h : m.detached = true ∨ m.begun = false ∨ m.parent ≠ some rank) (core step : Nat) :
    takeDetach key core step rank s = s := by
  simp only [takeDetach, hm]
  refine if_pos ?_
  simpa [hmcast, or_assoc] using h

/-- A DETACH from its parent makes a receiver that has not begun to catch up begin. -/
theorem takeDetach_catches_up (hfirst : m.detached = false) (hbegun : m.begun = true) (hparent : m.parent = some rank)
    (core step : Nat) : takeDetach key core step rank s = catchUp s m rank := by
  simp [takeDetach, hm, hmcast, hfirst, hbegun, hparent]

end

theorem catchUp_begins {s : State} {key : Nat} {m : Mc} (hm : mcAt s key 0 = some m) (p : Nat) :
    (∃ x, mcAt (catchUp s m p) key 0 = some x ∧ x.detached = true ∧ x.got = m.got)
      ∧ (catchUp s m p).counter Ctr.mcastLate 0 = min (s.counter Ctr.mcastLate 0 + 1) (2 ^ 64 - 1)
      ∧ (catchUp s m p).mem = s.mem := by
  obtain ⟨rfl, hpos⟩ := key_pos_of_mcAt hm
  have hset : mcAt (setMc (s.bump Ctr.mcastLate 0 1) { m with detached := true, parts := [] }) m.key 0 =
      some { m with detached := true, parts := [] } :=
    mcAt_setMc ((mcAt_of_mcs (bump_mcs s ..) _ _).trans hm) rfl hpos
  have hasked := askedPart_catchUp s m p
  simp only [askedPart, hset, Option.map_some, Prod.mk.injEq] at hasked
  obtain ⟨hmc, hcount, hmem⟩ := hasked
  obtain ⟨x, hx, hreadless⟩ := Option.map_eq_some_iff.mp hmc
  exact ⟨⟨x, hx, (congrArg Mc.detached hreadless :), (congrArg Mc.got hreadless :)⟩, hcount.trans (counter_bump_one s _ _),
    hmem.trans (bump_mem ..)⟩

end Sys2Proof.Machine
end

section
/-!
SUPPORT. Multicasts, from MCAST and JOIN to completion (R285 to R289).
-/

namespace Sys2Proof.Machine

/-- Settles O31: MCAST and JOIN by the multicast of the key, the flow by what a piece or an acknowledgement makes of it, and its end by
the places it started on. -/
theorem multicast : Obligations.Multicast := by
  unfold Obligations.Multicast
  refine ⟨fun s => ⟨fun t i p r w hw hdone hset hop => ?mcast,
      fun rank hview hrank => ⟨exec_join_stray hview hrank, exec_detach_stray hview hrank⟩,
      fun key epoch rank hview hold => exec_join_old hview hold key rank,
      fun key epoch rank hview hrank hepoch => ?join⟩,
    fun s h a g d hdest => ⟨exec_mcData_old hdest, fun hview hepoch => exec_mcData_outside hdest hepoch hview,
      fun m hepoch hview hspace hlen hlo hhi hm => ?data⟩,
    fun s key epoch rank a => ⟨fun hold => exec_mcAck_old hold key rank a, ?ack⟩,
    fun s key pos m hm hmcast => ⟨fun rank b x hhold hx => ?hold, fun rank => ?limit⟩,
    fun s t i => exec_mcastComplete_none,
    fun s key m hm hmcast => ⟨fun r t i hlive hof => ?complete, fun rank d hview hrank hkey => ?detach⟩⟩
  case mcast =>
    obtain ⟨hlive, hwalk, hissues⟩ := walkOf_eq_some_iff.mp hw
    obtain rfl := tag_of_live hlive
    obtain ⟨rfl, rfl⟩ := Run.mi_pos_of_walk hwalk
    rw [exec_mcast_starts hw hdone hset hop]
    refine ⟨fun hdiffer => ?differ, fun hex hempty => ?empty,
      fun hex hbytes hearly => ⟨fun hnone => ?first, fun m hm hbegun htag hbeat => ?further⟩⟩
    case differ =>
      obtain ⟨x, hx, hstatus⟩ := live_failMacro hlive (stopping_of_runIssues hissues) w.mi ePlan
      exact ⟨_, x, congrArg Host.Outcome.next (mcStart_mismatch hdiffer), hx, hstatus⟩
    case empty =>
      refine ⟨_, congrArg Host.Outcome.next (mcStart_empty hex hempty), walkEnded_endWalk ?_, rfl⟩
      simp [walkAt, hlive, hwalk]
    case first =>
      obtain ⟨hfresh, hbeat, hmem⟩ := mcJoined_fresh (s := s) (w := w) hnone
      obtain ⟨hmc, hsame⟩ := mcStart_shares hex hbytes hfresh (by rw [hbeat]; exact hearly)
      exact ⟨_, _, rfl, hmc, rfl, rfl, rfl, rfl, rfl, rfl, hsame.trans hmem⟩
    case further =>
      have hjoined := mcJoined_again (w := w) hm hbegun htag
      obtain ⟨hmc, hsame⟩ := mcStart_shares (m := m) hex hbytes (by rw [hjoined]; exact hm) (by rw [hjoined]; exact hbeat)
      exact ⟨_, _, rfl, hmc, rfl, rfl, rfl, hsame.trans (by rw [hjoined]; rfl)⟩
  case join =>
    rw [exec_join_member hview hrank hepoch key]
    refine ⟨fun hnamed => congrArg Host.Outcome.next (takeJoin_unnamed hnamed rank), fun hnamed hnone hover => ?first,
      fun m hnamed hm hnew => ⟨fun hfull => congrArg Host.Outcome.next (takeJoin_full hnamed hm hnew hfull),
        fun hroom htime => congrArg Host.Outcome.next (takeJoin_in_time hnamed hm hnew hroom htime)⟩⟩
    exact ⟨_, _, rfl, takeJoin_first_child hnamed hnone hover, rfl, rfl, by rw [takeJoin_first hnamed hnone hover]; rfl⟩
  case data =>
    have hexec := exec_mcData_of_mcAt (h := h) (a := a) (g := g) hdest hepoch hview hspace hlen hlo hhi hm
    refine ⟨fun hother => hexec.trans (congrArg Host.Outcome.next (if_pos (by simpa using hother))),
      fun r hfirst hparent hlive hr hc hgot => ?_⟩
    have htaken := hexec.trans (congrArg Host.Outcome.next (if_neg (by simp [hfirst, hparent])))
    exact ⟨fun hpart => htaken.trans (congrArg Host.Outcome.next (chunkBytes_piece hlive hr hc hgot hpart)),
      fun hwhole v hv => ⟨_, htaken, chunkBytes_whole_mem hlive hr hc hgot hwhole hv⟩⟩
  case ack =>
    intro m hepoch hmcs hkey hpos hmcast hchild hstill
    subst hkey
    have hm : mcAt s m.key m.pos = some m := by simp [mcAt, hmcs]
    obtain ⟨hmc, hmem⟩ := acked_still (c := chunkId (a / 2 ^ 56) (a % 2 ^ 56 / 65536)) hm hmcast hstill (a / 2 ^ 56)
    exact ⟨_, _, exec_mcAck_child hepoch hmcs hmcast hchild a, hpos ▸ hmc, hmem, rfl⟩
  case hold =>
    rw [exec_mcastDetach_of_hold hm hhold hx]
    exact ⟨fun hlt => congrArg Host.Outcome.next (if_pos hlt),
      fun hge => congrArg Host.Outcome.next (if_neg (Nat.not_lt.mpr hge))⟩
  case limit =>
    obtain ⟨hkey, hpos⟩ := key_pos_of_mcAt hm
    refine ⟨_, _, exec_catchupLimit_of_mcAt hm rank, mcAt_setMc hm hkey hpos, rfl, fun k hk => ?_⟩
    rw [failed_withFailed hk]
    simp [pastLimit, hmcast, Bool.and_assoc]
  case complete =>
    have hbegun := begun_of_mcOf hof
    refine ⟨fun hwaits => exec_mcastComplete_waits hlive hof fun ⟨hr, hbeat, hover⟩ =>
      hwaits ⟨hr, hbeat, (over_iff hbegun _).mp hover⟩, fun ⟨hr, hbeat, hover⟩ => ?_⟩
    obtain ⟨rfl, -⟩ := key_pos_of_mcAt hm
    refine ⟨_, exec_mcastComplete_ends hlive hof hr hbeat ((over_iff hbegun _).mpr hover),
      (mcAt_endWalks ..).trans (mcAt_withoutMc s m.key), endWalks_mem .., fun x hx hwalk => ?_⟩
    obtain ⟨y, hy⟩ := Option.isSome_iff_exists.mp hwalk
    have hat : walkAt (withoutMc s m.key) t i x.1 = some y :=
      (congrArg (fun o : Option Run => o.bind (fun r => r.walk i x.1)) hlive).trans hy
    exact walkEnded_endWalks hat (.inr ⟨_, List.mem_map_of_mem hx, rfl⟩)
  case detach =>
    rw [exec_detach_member hview hrank, hkey]
    refine ⟨fun hignored => congrArg Host.Outcome.next (takeDetach_ignored hm hmcast hignored _ _),
      fun hfirst hbegun hparent => ?_⟩
    obtain ⟨⟨x, hx, hdetached, hgot⟩, hcount, hmem⟩ := catchUp_begins hm rank
    exact ⟨_, x, congrArg Host.Outcome.next (takeDetach_catches_up hm hmcast hfirst hbegun hparent _ _), hx, hdetached, hgot,
      hcount, hmem⟩

end Sys2Proof.Machine
end

section
/-!
SUPPORT. The whole machine: the state right after reset, what a step runs, and what every step keeps.
-/

namespace Sys2Proof.Machine

theorem counter_of_no_counters {s : State} (h : s.counters = []) (k : Nat × Nat) (u : Nat) : s.counter k u = 0 := by
  simp [State.counter, h]

/-- Settles O1: the state right after reset, written out, has no counters and empty memories. -/
theorem resetIsSound : Obligations.ResetIsSound := by
  unfold Obligations.ResetIsSound
  refine ⟨⟨rfl, rfl, rfl, rfl, rfl, rfl, rfl, rfl, rfl, rfl, rfl, ?_⟩, rfl⟩
  exact counter_of_no_counters rfl

theorem step_cons (c : Instr) (rest : List Instr) (s : State) :
    step { s with pending := c :: rest } = exec c { s with pending := rest } := rfl

/-- Settles O2: by the definition of a step. -/
theorem stepRunsFrontCommand : Obligations.StepRunsFrontCommand := by
  unfold Obligations.StepRunsFrontCommand
  exact step_cons

/-- Settles O4: every operation keeps the canonical form, so each command and the idle cycle do. -/
theorem stepKeepsMemoryCanonical : Obligations.StepKeepsMemoryCanonical := by
  unfold Obligations.StepKeepsMemoryCanonical
  intro s hs
  obtain ⟨_, _, t, ht, hk⟩ := step_next_kept s
  exact ⟨t, ht, hk.canonical hs⟩

/-- Settles O6: no operation takes anything from the fuses (R385, R389, R393). -/
theorem stepKeepsFuses : Obligations.StepKeepsFuses := by
  unfold Obligations.StepKeepsFuses
  intro s
  obtain ⟨_, _, t, ht, hk⟩ := step_next_kept s
  exact ⟨t, ht, hk.fuses⟩

/-- Settles O7: no operation that a command calls touches the queue or the clock (log 7). -/
theorem commandsLeaveQueueAndClock : Obligations.CommandsLeaveQueueAndClock := by
  unfold Obligations.CommandsLeaveQueueAndClock
  intro c s
  obtain ⟨t, ht, hk⟩ := exec_next_kept c s
  exact ⟨t, ht, hk.queue, hk.clock⟩

end Sys2Proof.Machine
end

section
/-!
SUPPORT. Counters, completions and events (R60, R333 to R335, R357): the fields that counting and posting leave, and what a
completion handed over does to the queue pairs.
-/

namespace Sys2Proof.Machine

/-! Counting changes the counters alone (R60). -/

section
variable (s : State) (k : Nat × Nat) (u n : Nat)

@[simp] theorem bump_qps : (s.bump k u n).qps = s.qps := by unfold State.bump; split <;> rfl
@[simp] theorem bump_orders : (s.bump k u n).orders = s.orders := by unfold State.bump; split <;> rfl
@[simp] theorem bump_mailboxes : (s.bump k u n).mailboxes = s.mailboxes := by unfold State.bump; split <;> rfl
@[simp] theorem bump_ports : (s.bump k u n).ports = s.ports := by unfold State.bump; split <;> rfl
@[simp] theorem bump_chans : (s.bump k u n).chans = s.chans := by unfold State.bump; split <;> rfl
@[simp] theorem bump_keys : (s.bump k u n).keys = s.keys := by unfold State.bump; split <;> rfl
@[simp] theorem bump_trust : (s.bump k u n).trust = s.trust := by unfold State.bump; split <;> rfl
@[simp] theorem bump_coffer : (s.bump k u n).coffer = s.coffer := by unfold State.bump; split <;> rfl
@[simp] theorem bump_health : (s.bump k u n).health = s.health := by unfold State.bump; split <;> rfl
@[simp] theorem bump_pins : (s.bump k u n).pins = s.pins := by unfold State.bump; split <;> rfl
@[simp] theorem bump_tensors : (s.bump k u n).tensors = s.tensors := by unfold State.bump; split <;> rfl
@[simp] theorem bump_slots : (s.bump k u n).slots = s.slots := by unfold State.bump; split <;> rfl
@[simp] theorem bump_arbs : (s.bump k u n).arbs = s.arbs := by unfold State.bump; split <;> rfl
@[simp] theorem bump_segs : (s.bump k u n).segs = s.segs := by unfold State.bump; split <;> rfl
@[simp] theorem bump_links : (s.bump k u n).links = s.links := by unfold State.bump; split <;> rfl
@[simp] theorem bump_group : (s.bump k u n).group = s.group := by unfold State.bump; split <;> rfl
@[simp] theorem bump_prepared : (s.bump k u n).prepared = s.prepared := by unfold State.bump; split <;> rfl
@[simp] theorem bump_ptp : (s.bump k u n).ptp = s.ptp := by unfold State.bump; split <;> rfl
@[simp] theorem bump_now : (s.bump k u n).now = s.now := by unfold State.bump; split <;> rfl
@[simp] theorem bump_free : (s.bump k u n).free = s.free := by unfold State.bump; split <;> rfl

@[simp] theorem bump_qp (q : Nat) : (s.bump k u n).qp q = s.qp q := congrArg (look q) (bump_qps s k u n)

theorem bump_frame : s.bump k u n = { s with counters := (s.bump k u n).counters } := by
  obtain ⟨c, hc⟩ := exists_bump_eq s k u n
  rw [hc]

end

/-- The counter named grows by what is added, up to 2^64 - 1 (R60). -/
theorem counter_bump_same {s : State} (hfit : Safety.countersFit s = true) (k : Nat × Nat) (u n : Nat) :
    (s.bump k u n).counter k u = min (s.counter k u + n) (2 ^ 64 - 1) := by
  have hlt : s.counter k u < 2 ^ 64 := counter_fits k u hfit
  unfold State.bump
  split
  · omega
  · simp [State.counter, State.setCounter]

/-- Rows and units of 16 bits give every counter a place of its own. -/
theorem ctrPlace_ne {k j : Nat × Nat} {u v : Nat} (hk : k.2 < 65536) (hu : u < 65536) (hj : j.2 < 65536) (hv : v < 65536)
    (h : j ≠ k ∨ v ≠ u) : ctrPlace j v ≠ ctrPlace k u := by
  obtain ⟨k1, k2⟩ := k
  obtain ⟨j1, j2⟩ := j
  simp only [ne_eq, Prod.mk.injEq, ctrPlace] at *
  omega

/-! Queue pairs after a change of one. -/

@[simp] theorem qp_setQp_same (s : State) (q : Nat) (v : Qp) : (s.setQp q v).qp q = some v := look_put_same _ _ _

theorem qp_setQp_other {q r : Nat} (h : r ≠ q) (s : State) (v : Qp) : (s.setQp q v).qp r = s.qp r := look_put_other h _ _

theorem qp_onQp_same (s : State) (q : Nat) (f : Qp → Qp) : (s.onQp q f).qp q = (s.qp q).map f := by
  unfold State.onQp
  cases h : s.qp q with
  | none => simpa using h
  | some v => simp

theorem qp_onQp_other {q r : Nat} (h : r ≠ q) (s : State) (f : Qp → Qp) : (s.onQp q f).qp r = s.qp r := by
  unfold State.onQp
  split
  · exact qp_setQp_other h _ _
  · rfl

/-! A completion handed to a queue pair (R333, R335). -/

/-- A queue pair with one more completion waiting, where it has not failed. -/
def Qp.withWaiting (v : Qp) (c : Completion) : Qp := if v.phase = 3 then v else { v with waiting := v.waiting ++ [c] }

theorem qp_deliver_same {s : State} {q : Nat} {v : Qp} (h : s.qp q = some v) (c : Completion) :
    (deliver s q c).qp q = some (v.withWaiting c) := by
  unfold deliver qpUp Qp.withWaiting
  by_cases hv : v.phase = 3 <;> simp [h, hv, qp_onQp_same]

theorem qp_deliver_other {q r : Nat} (h : r ≠ q) (s : State) (c : Completion) : (deliver s q c).qp r = s.qp r := by
  unfold deliver
  split
  · exact qp_onQp_other h _ _
  · exact bump_qp _ _ _ _ _

/-- What handing over completions changes: queue pairs and counters. -/
theorem deliver_frame (s : State) (q : Nat) (c : Completion) :
    deliver s q c = { s with qps := (deliver s q c).qps, counters := (deliver s q c).counters } := by
  unfold deliver State.onQp
  split
  · split <;> rfl
  · exact bump_frame _ _ _ _

/-! An event, to every queue pair that takes it (R334). -/

/-- An event handed to one queue pair, where that takes events. -/
def eventTo (c : Completion) (s : State) (p : Nat × Qp) : State :=
  if p.2.events && p.2.phase != 3 then (deliver s p.1 c).bump Ctr.eventsPosted 0 1 else s

theorem deliverEvent_eq (s : State) (c : Completion) : deliverEvent s c = s.qps.foldl (eventTo c) s := rfl

theorem qp_eventTo_other {q : Nat} {p : Nat × Qp} (h : q ≠ p.1) (c : Completion) (s : State) :
    (eventTo c s p).qp q = s.qp q := by
  unfold eventTo
  split
  · rw [bump_qp, qp_deliver_other h]
  · rfl

theorem qp_foldl_eventTo_of_notMem (c : Completion) {q : Nat} {l : List (Nat × Qp)} (h : q ∉ l.map Prod.fst) (s : State) :
    (l.foldl (eventTo c) s).qp q = s.qp q := by
  induction l generalizing s with
  | nil => rfl
  | cons p l ih =>
    simp only [List.map_cons, List.mem_cons, not_or] at h
    exact (ih h.2 _).trans (qp_eventTo_other h.1 c s)

theorem qp_eventTo_same {s : State} {q : Nat} {v : Qp} (h : s.qp q = some v) (c : Completion) :
    (eventTo c s (q, v)).qp q =
      some (if v.events && v.phase != 3 then { v with waiting := v.waiting ++ [c] } else v) := by
  unfold eventTo
  dsimp only
  split
  case isTrue htakes =>
    rw [bump_qp, qp_deliver_same h]
    simp only [Bool.and_eq_true, bne_iff_ne] at htakes
    simp [Qp.withWaiting, htakes.2]
  case isFalse => exact h

/-- Of queue pairs under numbers that differ each gets the event once, where it takes events (R334). -/
theorem qp_deliverEvent {s : State} {q : Nat} {v : Qp} (hkeys : (s.qps.map Prod.fst).Nodup) (h : s.qp q = some v)
    (c : Completion) : (deliverEvent s c).qp q =
      some (if v.events && v.phase != 3 then { v with waiting := v.waiting ++ [c] } else v) := by
  obtain ⟨l, r, hl⟩ := List.append_of_mem (look_mem h)
  rw [hl, List.map_append, List.map_cons, List.nodup_append, List.nodup_cons] at hkeys
  obtain ⟨-, ⟨hr, -⟩, hlr⟩ := hkeys
  have hbefore : q ∉ l.map Prod.fst := fun hq => hlr q hq q List.mem_cons_self rfl
  rw [deliverEvent_eq, hl, List.foldl_append, List.foldl_cons, qp_foldl_eventTo_of_notMem c hr]
  exact qp_eventTo_same ((qp_foldl_eventTo_of_notMem c hbefore s).trans h) c

theorem deliverEvent_frame (s : State) (c : Completion) :
    deliverEvent s c = { s with qps := (deliverEvent s c).qps, counters := (deliverEvent s c).counters } := by
  refine List.foldlRecOn (motive := fun t : State => t = { s with qps := t.qps, counters := t.counters }) s.qps (eventTo c) rfl ?_
  intro t ht p _
  unfold eventTo
  split
  · rw [bump_frame, deliver_frame, ht]
  · exact ht

/-- A record of the length asked for is its own slice. -/
theorem slice_zero_of_length {l : List Byte} {n : Nat} (h : l.length = n) : slice l 0 n = l := by
  subst h
  simp [slice]

/-- The record of an event (R334, Table 13.7). -/
def eventRecord (s : State) (code : Nat) (detail : List Byte) : Completion :=
  { kind := 2, code := code, mailbox := 0xFF, beat := s.beat.number, detail := leBytes 4 (eventEpoch s) ++ slice detail 0 36 }

/-- While Imion runs an event is queued for the coffer and handed to the queue pairs. -/
theorem postEvent_of_running {s : State} (h : s.health.imionStopped = false) (code : Nat) (detail : List Byte) :
    postEvent s code detail =
      deliverEvent (cofferAdd s (0x0100 + code) (eventPart code) detail) (eventRecord s code detail) :=
  if_neg (show ¬ s.health.imionStopped = true by simp [h])

/-- Settles O8: the event by the fold over the queue pairs, each reached once; the counters by their places. -/
theorem eventsAndCounters : Obligations.EventsAndCounters := by
  unfold Obligations.EventsAndCounters
  refine ⟨fun s code detail q v hrun hkeys hv => ?_, fun s k j u v n hfit hk hu hj hv => ⟨?_, fun hne => ?_, ?_⟩⟩
  · have hpost := postEvent_of_running hrun code detail
    have hframe := deliverEvent_frame (cofferAdd s (0x0100 + code) (eventPart code) detail) (eventRecord s code detail)
    rw [← hpost] at hframe
    refine ⟨?_, ⟨_, congrArg (fun t => t.coffer.queue) hframe, rfl, rfl, rfl, (slice_zero_of_length (length_slice _ _ _)).symm⟩, ?_⟩
    · rw [hpost]
      exact qp_deliverEvent (s := cofferAdd s (0x0100 + code) (eventPart code) detail) hkeys hv _
    · rw [hframe]
      rfl
  · exact counter_bump_same hfit k u n
  · exact counter_bump_other (ctrPlace_ne hk hu hj hv hne) s n
  · exact bump_frame s k u n

/-! The final completion of an order (R357). -/

/-- The record of an order's final completion (R357). -/
def finalRecord (s : State) (o : Order) (st : BitVec 8) (detail : List Byte) : Completion :=
  { tag := o.tag, number := o.number, kind := 0, code := o.code, status := st, mailbox := o.mailbox, beat := s.beat.number
    detail := slice detail 0 40 }

/-- The state without an order. -/
def withoutOrder (s : State) (o : Order) : State :=
  { s with orders := s.orders.filter (fun x => !(x.mailbox == o.mailbox && x.number == o.number)) }

theorem complete_of_not_held {s : State} {o : Order} (h : held s o = false) (st : BitVec 8) (detail : List Byte) :
    complete s o st detail =
      deliver (countEnd (withoutOrder s o) o.code st) o.qp (finalRecord s o st detail) :=
  if_neg (by simp [h])

/-- Another order stays where one is given up. -/
theorem order_withoutOrder_other {o : Order} {m n : Nat} (h : (m, n) ≠ (o.mailbox, o.number)) (s : State) :
    (withoutOrder s o).order m n = s.order m n := by
  unfold State.order withoutOrder
  rw [List.find?_filter]
  congr 1
  funext x
  simp only [ne_eq, Prod.mk.injEq] at h
  grind

@[simp] theorem countEnd_qps (s : State) (code : Nat) (st : BitVec 8) : (countEnd s code st).qps = s.qps := by
  unfold countEnd
  simp only [apply_ite State.qps, bump_qps, ite_self]

theorem countEnd_orders (s : State) (code : Nat) (st : BitVec 8) : (countEnd s code st).orders = s.orders := by
  unfold countEnd
  simp only [apply_ite State.orders, bump_orders, ite_self]

theorem deliver_orders (s : State) (q : Nat) (c : Completion) : (deliver s q c).orders = s.orders :=
  (congrArg State.orders (deliver_frame s q c) :)

section
variable {s : State} {o : Order} (hheld : held s o = false) (st : BitVec 8) (detail : List Byte)
include hheld

theorem complete_orders : (complete s o st detail).orders = (withoutOrder s o).orders := by
  rw [complete_of_not_held hheld, deliver_orders, countEnd_orders]

theorem order_complete_other {m n : Nat} (h : (m, n) ≠ (o.mailbox, o.number)) :
    (complete s o st detail).order m n = s.order m n := by
  rw [← order_withoutOrder_other h s]
  exact congrArg (List.find? _) (complete_orders hheld st detail)

theorem qp_complete_same {v : Qp} (h : s.qp o.qp = some v) :
    (complete s o st detail).qp o.qp = some (v.withWaiting (finalRecord s o st detail)) := by
  have hcounted : (countEnd (withoutOrder s o) o.code st).qp o.qp = some v :=
    (congrArg (look o.qp) (countEnd_qps _ _ _)).trans h
  rw [complete_of_not_held hheld, qp_deliver_same hcounted]

theorem qp_complete_other {q : Nat} (h : q ≠ o.qp) : (complete s o st detail).qp q = s.qp q := by
  rw [complete_of_not_held hheld, qp_deliver_other h]
  exact congrArg (look q) (countEnd_qps _ _ _)

end

/-- Settles O9: the order is taken out, its record joins its queue pair, and the rest is counting. -/
theorem finalCompletion : Obligations.FinalCompletion := by
  unfold Obligations.FinalCompletion
  intro s o st detail v hheld hv
  exact ⟨qp_complete_same hheld st detail hv, fun q hq => qp_complete_other hheld st detail hq,
    order_complete hheld st detail, fun m n hmn => order_complete_other hheld st detail hmn, complete_eq s o st detail⟩

end Sys2Proof.Machine
end

section
/-!
SUPPORT. What every order passes before its own meaning (R352, R354, R355).
-/

namespace Sys2Proof.Machine

/-- The command of an order of each code passes the order through the checks that all orders share. -/
theorem exec_orderCommand {code m n : Nat} {served : Bool} {d : Option (List Byte)} {ok0 ok1 okC : Bool} {c : Instr}
    (h : Safety.orderCommand code m n served d ok0 ok1 okC = some c) :
    ∃ f, ∀ s, exec c s = .next (orderCmd s m n code f) := by
  unfold Safety.orderCommand at h
  split at h <;> cases h <;> exact ⟨_, fun _ => rfl⟩

theorem orderCmd_of_not_ready {s : State} {m n code : Nat} (h : orderReady s m n code = none) (f : State → Order → State) :
    orderCmd s m n code f = s := by
  simp [orderCmd, h]

theorem code_of_orderReady {s : State} {m n code : Nat} {o : Order} (h : orderReady s m n code = some o) : o.code = code := by
  unfold orderReady at h
  split at h
  case h_1 x _ =>
    split at h
    · cases h
      simp_all
    · cases h
  case h_2 => cases h

/-- An order that fails a check ends with the check's status, letter O and number, and nothing of it takes effect (R355). -/
theorem orderCmd_of_failed {s : State} {m n code k : Nat} {o : Order} {st : BitVec 8} (hready : orderReady s m n code = some o)
    (hcheck : firstCheck s o = some (st, k)) (f : State → Order → State) :
    orderCmd s m n code f = complete s o st (checkDetail 0x4F k 0) := by
  simp [orderCmd, hready, hcheck, refuse]

/-! The checks, in their order. -/

section
variable {s : State} {o : Order}

theorem firstCheck_O1 (h1 : checkO1 o.bytes = false) : firstCheck s o = some (ePlan, 1) := by simp [firstCheck, h1]

theorem firstCheck_O2 (h1 : checkO1 o.bytes = true) (h2 : checkO2 s o = false) : firstCheck s o = some (eAuth, 2) := by
  simp [firstCheck, h1, h2]

theorem firstCheck_O3 (h1 : checkO1 o.bytes = true) (h2 : checkO2 s o = true) (h3 : checkO3 s o = false) :
    firstCheck s o = some (eRange, 3) := by
  simp [firstCheck, h1, h2, h3]

theorem firstCheck_O4 (h1 : checkO1 o.bytes = true) (h2 : checkO2 s o = true) (h3 : checkO3 s o = true)
    (h4 : checkO4 s o = false) : firstCheck s o = some (ePlan, 4) := by
  simp [firstCheck, h1, h2, h3, h4]

/-! Check O2 by the session column of Table 13.3 (R354). -/

/-- The codes that need a bound queue pair whatever they name. -/
def boundCodes : List Nat := [0x01, 0x02, 0x03, 0x04, 0x05, 0x07, 0x08, 0x10]

theorem checkO2_bound (h : o.code ∈ boundCodes) : checkO2 s o = qpBound s o.qp := by
  have hneeds : boundCodes.contains o.code = true := List.contains_iff_mem.mpr h
  unfold boundCodes at hneeds
  simp only [checkO2, hneeds, Bool.true_or, if_true]

theorem checkO2_slotKey (h : o.code = 0x0A) (hslot : keySlot (field o.bytes 0x28 4) = true) :
    checkO2 s o = qpBound s o.qp := by
  simp [checkO2, h, hslot]

/-- A code that needs no session passes outside of one, from a bound queue pair, or as ATTEST. -/
theorem checkO2_free (h : o.code ∉ boundCodes) (hslot : o.code = 0x0A → keySlot (field o.bytes 0x28 4) = false) :
    checkO2 s o = (!sessionOpen s || qpBound s o.qp || o.code == 0x11) := by
  have hneeds : boundCodes.contains o.code = false := by simpa using h
  unfold boundCodes at hneeds
  by_cases hset : o.code = 0x0A
  · simp [checkO2, hset, hslot hset]
  · have hnot : (o.code == 0x0A) = false := by simpa using hset
    simp only [checkO2, hneeds, hnot, Bool.false_and, Bool.or_self, Bool.false_eq_true, if_false]

/-- A code is one that needs no session, of a list that names none that does. -/
theorem checkO2_listed {l : List Nat} (hl : ∀ c ∈ l, c ∉ boundCodes ∧ c ≠ 0x0A ∧ c ≠ 0x11) (h : o.code ∈ l) :
    checkO2 s o = (!sessionOpen s || qpBound s o.qp) := by
  obtain ⟨hfree, hset, hattest⟩ := hl _ h
  rw [checkO2_free hfree (fun e => absurd e hset)]
  simp [hattest]

end

/-- Settles O10: every order's command through the shared part of orders, and the checks by their definitions. -/
theorem ordersAreChecked : Obligations.OrdersAreChecked := by
  unfold Obligations.OrdersAreChecked
  refine ⟨fun s code m n served d ok0 ok1 okC c hc hready => ?_, fun s code m n served d ok0 ok1 okC c o hc hready => ?_,
    fun s o => ⟨checkO2_bound, checkO2_slotKey, fun h => ?_, checkO2_listed (by decide), fun h hslot => ?_⟩⟩
  · obtain ⟨f, hf⟩ := exec_orderCommand hc
    rw [hf, orderCmd_of_not_ready hready]
  · obtain ⟨f, hf⟩ := exec_orderCommand hc
    simp only [hf]
    have ends {st : BitVec 8} {k : Nat} (hk : firstCheck s o = some (st, k)) :
        Host.Outcome.next (ρ := Refusal) (φ := Fault) (orderCmd s m n code f) = .next (complete s o st (checkDetail 0x4F k 0)) :=
      congrArg Host.Outcome.next (orderCmd_of_failed hready hk f)
    exact ⟨fun h1 => ends (firstCheck_O1 h1), fun h1 h2 => ends (firstCheck_O2 h1 h2),
      fun h1 h2 h3 => ends (firstCheck_O3 h1 h2 h3), fun h1 h2 h3 h4 => ends (firstCheck_O4 h1 h2 h3 h4)⟩
  · have hfree : o.code ∉ boundCodes := h ▸ (by decide)
    rw [checkO2_free hfree (fun e => absurd (h.symm.trans e) (by decide))]
    simp [h]
  · have hfree : o.code ∉ boundCodes := h ▸ (by decide)
    rw [checkO2_free hfree (fun _ => hslot)]
    simp [h]

end Sys2Proof.Machine
end

section
/-!
SUPPORT. SET and BEGIN_TXN (R363 to R366).
-/

namespace Sys2Proof.Machine

theorem exec_set_of_admitted {s : State} {m n : Nat} {o : Order} (h : Safety.Admitted s m n 0x0A o) (d : Option (List Byte)) :
    exec (.set m n d) s = .next (setOwn d s o) :=
  congrArg Host.Outcome.next (orderCmd_of_admitted h (setOwn d))

theorem exec_beginTxn_of_admitted {s : State} {m n : Nat} {o : Order} (h : Safety.Admitted s m n 0x09 o) :
    exec (.beginTxn m n) s = .next (beginTxnOwn s o) :=
  congrArg Host.Outcome.next (orderCmd_of_admitted h beginTxnOwn)

/-- Another transaction keeps the SET of an order out (R364, R262). -/
def setConflicts (s : State) (o : Order) : Prop :=
  s.txn.state = 2 ∨ (s.txn.state = 1 ∧ s.txn.owner ≠ o.qp) ∨ (s.txn.state = 0 ∧ s.prepared.isSome = true)

section
variable {s : State} {o : Order} (d : Option (List Byte))

theorem setOwn_conflict (h : setConflicts s o) : setOwn d s o = complete s o eTxnConflict [] := if_pos h

section
variable (hfree : ¬ setConflicts s o)
include hfree

theorem setOwn_wrongLength (h : keySize (field o.bytes 0x28 4) ≠ some (field o.bytes 0x2C 4)) :
    setOwn d s o = complete s o ePlan [] := (if_neg hfree).trans (if_pos h)

variable (hinline : field o.bytes 0x30 1 = 0) (hsize : keySize (field o.bytes 0x28 4) = some (field o.bytes 0x2C 4))
include hinline hsize

/-- A SET whose value stands in its order, by what the key's rule says of it and whether a transaction is open. -/
theorem setOwn_inline : setOwn d s o =
    let k := field o.bytes 0x28 4
    let v := slice o.bytes 0x40 (field o.bytes 0x2C 4)
    let st := setStatus s (s.txn.state == 1 && s.txn.group) k v
    if st ≠ eOk then complete s o st []
    else if s.txn.state = 0 then complete ((applyKey s k v).bump Ctr.txnCommits 0 1) o eOk []
    else if !stageOk (stage s.txn.staged k v) then complete s o eRange []
    else complete { s with txn := { s.txn with staged := stage s.txn.staged k v } } o eOk [] := by
  refine (if_neg hfree).trans ((if_neg (by simp [hsize])).trans ?_)
  simp [setValue, hinline]

end
end

/-- With no transaction open and none prepared nothing keeps a SET out. -/
theorem not_setConflicts_of_none {s : State} (hnone : s.txn.state = 0) (hprep : s.prepared = none) (o : Order) :
    ¬ setConflicts s o := by
  simp [setConflicts, hnone, hprep]

theorem not_setConflicts_of_owner {s : State} {o : Order} (hopen : s.txn.state = 1) (howner : s.txn.owner = o.qp) :
    ¬ setConflicts s o := by
  simp [setConflicts, hopen, howner]

/-- An admitted value committed at once: its key has it, and no other key, no memory and no run changes (R363, R364). -/
theorem commitPart_complete_applyKey (s : State) (k : Nat) (v : List Byte) (o : Order) (d : List Byte) :
    commitPart (complete ((applyKey s k v).bump Ctr.txnCommits 0 1) o eOk d) =
      (put k (keyStored k v) s.keys, s.mem, s.runs, s.prepared) :=
  (commitPart_of_answerPart (answerPart_complete _ _ _ _)).trans ((commitPart_bump _ _ _ _).trans (commitPart_applyKey s k v))

theorem not_inView {s : State} (h2 : s.group.state ≠ 2) (h3 : s.group.state ≠ 3) : inView s = false := by
  simp [inView, h2, h3]

theorem inView_of_state {s : State} (h : s.group.state = 2 ∨ s.group.state = 3) : inView s = true := by
  simpa [inView] using h

/-- Settles O15: SET by whether its transaction admits it and what the key's rule says of the value, BEGIN_TXN by its cases. -/
theorem setsAndTransactions : Obligations.SetsAndTransactions := by
  unfold Obligations.SetsAndTransactions
  refine ⟨fun s m n d o hadm => ?_, fun s m n o hadm => ?_⟩
  · rw [exec_set_of_admitted hadm]
    dsimp only
    refine ⟨fun hopen hother => ?_, fun hwaits => ?_, fun hnone hprep _ hsize => ?_, fun hnone hprep hinline hsize hst => ?_,
      fun hnone hprep hinline hsize hst => ?_, fun hopen howner hinline hsize hst => ?_⟩
    · rw [setOwn_conflict d (.inr (.inl ⟨hopen, hother⟩))]
    · rw [setOwn_conflict d (.inl hwaits)]
    · rw [setOwn_wrongLength d (not_setConflicts_of_none hnone hprep o) hsize]
    · rw [setOwn_inline d (not_setConflicts_of_none hnone hprep o) hinline hsize]
      simp [hnone, hst]
    · rw [setOwn_inline d (not_setConflicts_of_none hnone hprep o) hinline hsize]
      obtain ⟨hkeys, hmem, hruns, -⟩ := commitPart_eq_iff.mp (commitPart_complete_applyKey s (field o.bytes 0x28 4)
        (slice o.bytes 0x40 (field o.bytes 0x2C 4)) o [])
      refine ⟨_, by simp [hnone, hst], ?_, fun j hj => ?_, hmem, hruns⟩
      · exact (congrArg (look _) hkeys).trans (look_put_same _ _ _)
      · exact (congrArg (look j) hkeys).trans (look_put_other hj _ _)
    · rw [setOwn_inline d (not_setConflicts_of_owner hopen howner) hinline hsize]
      exact ⟨fun hok => by simp [hopen, hst, stage, hok], fun hfull => by simp [hopen, hst, stage, hfull]⟩
  · rw [exec_beginTxn_of_admitted hadm]
    unfold beginTxnOwn
    dsimp only
    refine ⟨fun h => ?_, fun h hbusy => ?_, fun h hnone hprep h2 h3 => ?_, fun h hnone hprep hview => ?_⟩
    · rw [if_pos h]
    · rw [if_neg (by omega), if_pos hbusy]
    · rw [if_neg (by omega), if_neg (by simp [hnone, hprep]), if_pos ⟨h, by simp [not_inView h2 h3]⟩]
    · rw [if_neg (by omega), if_neg (by simp [hnone, hprep]),
        if_neg (fun hout => by simp [inView_of_state (hview hout.1)] at hout)]

end Sys2Proof.Machine
end

section
/-!
SUPPORT. DDR: the fields that events and log entries leave, sets of bursts and frames, and what a channel's queue entry, its
answers, corrections and poison change (R305 to R311).
-/

namespace Sys2Proof.Machine

/-! Events and log entries leave the device's work alone (R334, R425). -/

section
variable (s : State) (code : Nat) (d : List Byte)

@[simp] theorem postEvent_mem : (postEvent s code d).mem = s.mem := (congrArg State.mem (noticePart_postEvent s code d) :)
@[simp] theorem postEvent_chans : (postEvent s code d).chans = s.chans := (congrArg State.chans (noticePart_postEvent s code d) :)
@[simp] theorem postEvent_ports : (postEvent s code d).ports = s.ports := (congrArg State.ports (noticePart_postEvent s code d) :)
@[simp] theorem postEvent_pins : (postEvent s code d).pins = s.pins := (congrArg State.pins (noticePart_postEvent s code d) :)
@[simp] theorem postEvent_trust : (postEvent s code d).trust = s.trust := (congrArg State.trust (noticePart_postEvent s code d) :)
@[simp] theorem postEvent_keys : (postEvent s code d).keys = s.keys := (congrArg State.keys (noticePart_postEvent s code d) :)
@[simp] theorem postEvent_runs : (postEvent s code d).runs = s.runs := (congrArg State.runs (noticePart_postEvent s code d) :)
@[simp] theorem postEvent_cores : (postEvent s code d).cores = s.cores := (congrArg State.cores (noticePart_postEvent s code d) :)
@[simp] theorem postEvent_segs : (postEvent s code d).segs = s.segs := (congrArg State.segs (noticePart_postEvent s code d) :)
@[simp] theorem postEvent_links : (postEvent s code d).links = s.links := (congrArg State.links (noticePart_postEvent s code d) :)
@[simp] theorem postEvent_ptp : (postEvent s code d).ptp = s.ptp := (congrArg State.ptp (noticePart_postEvent s code d) :)
@[simp] theorem postEvent_now : (postEvent s code d).now = s.now := (congrArg State.now (noticePart_postEvent s code d) :)
@[simp] theorem postEvent_out : (postEvent s code d).out = s.out := (congrArg State.out (noticePart_postEvent s code d) :)
@[simp] theorem postEvent_slots : (postEvent s code d).slots = s.slots := (congrArg State.slots (noticePart_postEvent s code d) :)
@[simp] theorem postEvent_tensors : (postEvent s code d).tensors = s.tensors :=
  (congrArg State.tensors (noticePart_postEvent s code d) :)
@[simp] theorem postEvent_mailboxes : (postEvent s code d).mailboxes = s.mailboxes :=
  (congrArg State.mailboxes (noticePart_postEvent s code d) :)

end

section
variable (s : State) (cls kind unit : Nat) (d : List Byte)

@[simp] theorem faultEntry_mem : (faultEntry s cls kind unit d).mem = s.mem := rfl
@[simp] theorem faultEntry_chans : (faultEntry s cls kind unit d).chans = s.chans := rfl
@[simp] theorem faultEntry_counters : (faultEntry s cls kind unit d).counters = s.counters := rfl

end

/-! Ascending sets. -/

@[simp] theorem mem_insertN {j k : Nat} {l : List Nat} : j ∈ insertN k l ↔ j = k ∨ j ∈ l := by
  induction l with
  | nil => simp [insertN]
  | cons i l ih =>
    unfold insertN
    split
    · simp
    · split
      · rename_i h
        simp [h]
      · simp only [List.mem_cons, ih]
        exact or_left_comm

/-! Channels after a change of one. -/

@[simp] theorem bump_chan (s : State) (k : Nat × Nat) (u n c : Nat) : (s.bump k u n).chan c = s.chan c :=
  congrArg (fun l : List (Nat × Chan) => (look c l).getD {}) (bump_chans s k u n)

@[simp] theorem postEvent_chan (s : State) (code : Nat) (d : List Byte) (c : Nat) : (postEvent s code d).chan c = s.chan c :=
  congrArg (fun l : List (Nat × Chan) => (look c l).getD {}) (postEvent_chans s code d)

@[simp] theorem chan_setChan_same (s : State) (c : Nat) (v : Chan) : (s.setChan c v).chan c = v := by
  simp [State.chan]

@[simp] theorem chan_onChan_same (s : State) (c : Nat) (f : Chan → Chan) : (s.onChan c f).chan c = f (s.chan c) :=
  chan_setChan_same _ _ _

theorem chan_onChan_other {b c : Nat} (h : b ≠ c) (s : State) (f : Chan → Chan) : (s.onChan c f).chan b = s.chan b := by
  simp [State.onChan, State.chan, look_put_other h]

@[simp] theorem onChan_mem (s : State) (c : Nat) (f : Chan → Chan) : (s.onChan c f).mem = s.mem := rfl

/-! Correction (R307, R308). -/

/-- With no device marked a burst is clean, corrected for one device, or lost to two. -/
theorem correct_clean : correct [] [] 0 = (0, none) := rfl

theorem correct_one (x : Nat) : correct [] [x] 0 = (1, some x) := rfl

theorem correct_two (x y : Nat) (more : List Nat) (extra : Nat) : correct [] (x :: y :: more) extra = (2, none) := by
  simp [correct]

/-- A correction noted changes no memory; at most it marks a device of the channel, and posts that (R308). -/
@[simp] theorem noteFix_mem (s : State) (ch b d : Nat) : (noteFix s ch b d).mem = s.mem := by
  unfold noteFix
  dsimp only
  rw [apply_ite State.mem]
  simp

/-- A burst poisoned joins the poisoned ones, and its channel goes on as it was (R310). -/
@[simp] theorem poisonBurst_mem (s : State) (ch b : Nat) :
    (poisonBurst s ch b).mem = { s.mem with ddrPoison := insertN b s.mem.ddrPoison } := by
  simp [poisonBurst, State.onMem]

@[simp] theorem poisonBurst_chans (s : State) (ch b : Nat) : (poisonBurst s ch b).chans = s.chans := by
  simp [poisonBurst, State.onMem]

@[simp] theorem poisonBurst_chan (s : State) (ch b c : Nat) : (poisonBurst s ch b).chan c = s.chan c :=
  congrArg (fun l : List (Nat × Chan) => (look c l).getD {}) (poisonBurst_chans s ch b)

/-! Reading a burst (R307, R310). -/

section
variable {s : State} {ch b : Nat} {errs : List Nat} {extra : Nat}

theorem readBurst_of_lost (h : (s.chan ch).lost = true) : readBurst s ch b errs extra = (s, false) := if_pos (.inl h)

theorem readBurst_of_poisoned (h : b ∈ s.mem.ddrPoison) : readBurst s ch b errs extra = (s, false) :=
  if_pos (.inr (List.contains_iff_mem.mpr h))

section
variable (hlost : (s.chan ch).lost = false) (hsound : b ∉ s.mem.ddrPoison) (hmarked : (s.chan ch).marked = [])
include hlost hsound hmarked

theorem readBurst_clean : readBurst s ch b [] 0 = (s, true) := by
  simp [readBurst, hlost, hsound, hmarked, correct_clean]

theorem readBurst_one (x : Nat) : readBurst s ch b [x] 0 = (noteFix (s.bump Ctr.corrected ch 1) ch b x, true) := by
  simp [readBurst, hlost, hsound, hmarked, correct_one]

theorem readBurst_two (x y : Nat) (more : List Nat) : readBurst s ch b (x :: y :: more) extra = (poisonBurst s ch b, false) := by
  simp [readBurst, hlost, hsound, hmarked, correct_two]

end
end

end Sys2Proof.Machine
end

section
/-!
SUPPORT. Requests to the channels of DDR: what enters a queue, and what BURST_READ answers (R305, R307, R310, R314).
-/

namespace Sys2Proof.Machine

section
variable {s : State} {ch req op addr len : Nat} {d : List Byte}

/-- The entry that a request makes in its channel's queue (R305). -/
def queueEntry (s : State) (req op addr len : Nat) (d : List Byte) : DdrEntry :=
  { id := s.nextXfer, op := op, addr := addr, len := len, data := slice d 0 len, requester := req }

theorem exec_ddrQueueEntry_enters (hopen : sessionOpen s = true) (hch : ch < 24) (hof : chanOf addr = ch) (hlen : 1 ≤ len)
    (hburst : addr % 64 + len ≤ 64) (hframe : frameOf addr < wholeFrames) (hop : op ≤ 2) :
    exec (.ddrQueueEntry ch req op addr len d) s =
      .next ({ s with nextXfer := (s.nextXfer + 1) % 2 ^ 31 }.onChan ch
        (fun c => { c with queue := c.queue ++ [queueEntry s req op addr len d] })) := by
  refine congrArg Host.Outcome.next (if_neg ?_)
  simp only [hopen, hof, Bool.not_true, Bool.false_eq_true, false_or, ne_eq, not_true_eq_false, not_or]
  omega

theorem exec_ddrQueueEntry_refuses (h : sessionOpen s = false ∨ chanOf addr ≠ ch ∨ 64 < addr % 64 + len) :
    exec (.ddrQueueEntry ch req op addr len d) s = .next s := by
  refine congrArg Host.Outcome.next (if_pos ?_)
  rcases h with h | h | h <;> simp [h]

end

/-! BURST_READ. -/

section
variable {s : State} {ch : Nat} {e : DdrEntry} (errs : List Nat) (extra : Nat)

theorem exec_burstRead_idle (h : headEntry s ch 0 = none) : exec (.burstRead ch errs extra) s = .next s := by
  refine congrArg Host.Outcome.next ?_
  rw [h]

variable (h : headEntry s ch 0 = some e)
include h

/-- A fresh frame reads as zeros without an access (R314). -/
theorem exec_burstRead_fresh (hfresh : frameOf e.addr ∉ s.mem.filled) (hlost : (s.chan ch).lost = false) :
    exec (.burstRead ch errs extra) s = .next (answer s ch e (some (List.replicate e.len 0))) := by
  refine congrArg Host.Outcome.next ?_
  rw [h]
  exact if_pos (by simp [hfresh, hlost])

/-- A burst that is read is answered with its bytes, or with none where they are not delivered. -/
theorem exec_burstRead_of_read {u : State} {ok : Bool} (hdram : frameOf e.addr ∈ s.mem.filled ∨ (s.chan ch).lost = true)
    (hread : readBurst (countBurst s ch) ch (e.addr / 64) errs extra = (u, ok)) :
    exec (.burstRead ch errs extra) s = .next (answer u ch e (if ok then some (memRead u.mem.ddr e.addr e.len) else none)) := by
  refine congrArg Host.Outcome.next ?_
  rw [h]
  refine (if_neg ?_).trans ?_
  · rcases hdram with hdram | hdram <;> simp [hdram]
  · rw [hread]

theorem exec_burstRead_lost (hlost : (s.chan ch).lost = true) :
    exec (.burstRead ch errs extra) s = .next (answer s ch e none) := by
  have hread : readBurst (countBurst s ch) ch (e.addr / 64) errs extra = (s, false) := by
    rw [show countBurst s ch = s from if_pos hlost, readBurst_of_lost hlost]
  exact exec_burstRead_of_read errs extra h (.inr hlost) hread

variable (hlost : (s.chan ch).lost = false) (hfilled : frameOf e.addr ∈ s.mem.filled)
include hlost hfilled

/-- Of a channel that is not lost a burst of a filled frame is counted and read. -/
theorem exec_burstRead_of_sound {u : State} {ok : Bool}
    (hread : readBurst (s.bump Ctr.bytesRead ch 64) ch (e.addr / 64) errs extra = (u, ok)) :
    exec (.burstRead ch errs extra) s = .next (answer u ch e (if ok then some (memRead u.mem.ddr e.addr e.len) else none)) :=
  exec_burstRead_of_read errs extra h (.inl hfilled)
    (by rwa [show countBurst s ch = s.bump Ctr.bytesRead ch 64 from if_neg (by simp [hlost])])

theorem exec_burstRead_poisoned (hpoison : e.addr / 64 ∈ s.mem.ddrPoison) :
    exec (.burstRead ch errs extra) s = .next (answer (s.bump Ctr.bytesRead ch 64) ch e none) :=
  exec_burstRead_of_sound errs extra h hlost hfilled (readBurst_of_poisoned (by simpa using hpoison))

variable (hsound : e.addr / 64 ∉ s.mem.ddrPoison) (hmarked : (s.chan ch).marked = [])
include hsound hmarked

theorem exec_burstRead_clean : exec (.burstRead ch [] 0) s =
    .next (answer (s.bump Ctr.bytesRead ch 64) ch e (some (memRead s.mem.ddr e.addr e.len))) := by
  rw [exec_burstRead_of_sound [] 0 h hlost hfilled (readBurst_clean (by simpa) (by simpa) (by simpa))]
  simp

theorem exec_burstRead_corrected (x : Nat) : exec (.burstRead ch [x] 0) s =
    .next (answer (noteFix ((s.bump Ctr.bytesRead ch 64).bump Ctr.corrected ch 1) ch (e.addr / 64) x) ch e
      (some (memRead s.mem.ddr e.addr e.len))) := by
  rw [exec_burstRead_of_sound [x] 0 h hlost hfilled (readBurst_one (by simpa) (by simpa) (by simpa) x)]
  simp

theorem exec_burstRead_spoilt (x y : Nat) (more : List Nat) : exec (.burstRead ch (x :: y :: more) extra) s =
    .next (answer (poisonBurst (s.bump Ctr.bytesRead ch 64) ch (e.addr / 64)) ch e none) :=
  exec_burstRead_of_sound _ extra h hlost hfilled (readBurst_two (by simpa) (by simpa) (by simpa) x y more)

end

/-- An answer takes the head of the queue and joins the replies (R305). -/
theorem chan_answer_same (s : State) (ch : Nat) (e : DdrEntry) (d : Option (List Byte)) : (answer s ch e d).chan ch =
    { (s.chan ch) with queue := (s.chan ch).queue.drop 1, replies := (s.chan ch).replies ++ [(e.id, d)], retries := 0 } :=
  chan_onChan_same _ _ _

@[simp] theorem answer_mem (s : State) (ch : Nat) (e : DdrEntry) (d : Option (List Byte)) : (answer s ch e d).mem = s.mem := rfl

/-- Settles O46: the queue's guard, and BURST_READ by what the read of the burst finds. -/
theorem burstsAreRead : Obligations.BurstsAreRead := by
  unfold Obligations.BurstsAreRead
  refine fun s ch => ⟨fun req op addr len d hopen hch hof hlen hburst hframe hop => ?_,
    fun req op addr len d => exec_ddrQueueEntry_refuses, fun errs extra => exec_burstRead_idle errs extra,
    fun e errs extra h => ⟨exec_burstRead_fresh errs extra h, exec_burstRead_lost errs extra h,
      exec_burstRead_poisoned errs extra h, fun hfilled hlost hsound hmarked => ⟨?_, fun x => ?_, fun x y more => ?_⟩⟩⟩
  · refine ⟨_, exec_ddrQueueEntry_enters hopen hch hof hlen hburst hframe hop, ?_, fun c hc => ?_, rfl⟩
    · exact congrArg Chan.queue (chan_onChan_same _ _ _)
    · exact chan_onChan_other hc _ _
  · exact exec_burstRead_clean h hlost hfilled hsound hmarked
  · exact ⟨_, exec_burstRead_corrected h hlost hfilled hsound hmarked x, by simp, rfl⟩
  · exact ⟨_, exec_burstRead_spoilt extra h hlost hfilled hsound hmarked x y more, by simp [chan_answer_same],
      by simp [chan_answer_same], by simp, by simp⟩

end Sys2Proof.Machine
end

section
/-!
SUPPORT. What BURST_WRITE, ATOMIC_ADD_BURST and FRESH_FILL make of the bytes and the poison of DDR (R304, R306, R310, R314).
-/

namespace Sys2Proof.Machine

/-! Cells and addends. -/

theorem cellsAt_cons (a : Nat) (b : Byte) (d : List Byte) : cellsAt a (b :: d) = (a, b) :: cellsAt (a + 1) d := by
  simp only [cellsAt, List.length_cons, List.range_succ_eq_map, List.map_cons, List.map_map, List.zip_cons_cons, Nat.add_zero,
    List.cons.injEq, true_and]
  congr 2
  funext i
  exact (Nat.succ_add_eq_add_succ a i).symm

@[simp] theorem length_cellsAt (a : Nat) (d : List Byte) : (cellsAt a d).length = d.length := by simp [cellsAt]

/-- Cells from an address put one after another are the bytes written there. -/
theorem memPuts_cellsAt (a : Nat) (d : List Byte) (m : List Host.Cell) : memPuts (cellsAt a d) m = memWrite m a d := by
  induction d generalizing a m with
  | nil => rfl
  | cons b d ih =>
    rw [cellsAt_cons]
    exact ih (a + 1) _

theorem getElem_slice_zero {l : List Byte} {n i : Nat} (h : i < (slice l 0 n).length) : (slice l 0 n)[i] = l.getD i 0 := by
  rw [length_slice] at h
  simp only [slice, List.drop_zero, List.getElem_append, List.length_take, List.getElem_take, List.getElem_replicate]
  split
  · rw [List.getD_eq_getElem?_getD, List.getElem?_eq_getElem (by omega), Option.getD_some]
  · rw [List.getD_eq_getElem?_getD, List.getElem?_eq_none (by omega), Option.getD_none]

/-- Addends numbered and added one by one are the addends added from the first one's address on. -/
theorem foldl_memAdd_range (a : Nat) (vs : List F32) (k : Nat) (m : List Host.Cell) :
    (((List.range vs.length).map (k + ·)).zip vs).foldl (fun m p => memAdd m (a + 4 * p.1) [p.2]) m = memAdd m (a + 4 * k) vs := by
  induction vs generalizing k m with
  | nil => rfl
  | cons v vs ih =>
    have hrest : (fun i => k + i) ∘ Nat.succ = (fun i => k + 1 + i) := by
      funext i
      exact (Nat.succ_add_eq_add_succ k i).symm
    simp only [List.length_cons, List.range_succ_eq_map, List.map_cons, List.map_map, List.zip_cons_cons, List.foldl_cons,
      Nat.add_zero, hrest, ih]
    rfl

@[simp] theorem length_bytesF32 (n : Nat) (l : List Byte) : (bytesF32 n l).length = n := by
  induction n generalizing l with
  | zero => rfl
  | succ n ih => simp [bytesF32, ih]

/-! Places of a burst. -/

theorem chanOf_burst (a : Nat) : chanOf (64 * (a / 64)) = chanOf a := by
  unfold chanOf
  omega

theorem frameOf_burst (a : Nat) : frameOf (64 * (a / 64)) = frameOf a := by
  unfold frameOf
  omega

theorem freshFill_of_filled {s : State} {frame : Nat} (h : frame ∈ s.mem.filled) : freshFill s frame = s :=
  if_pos (List.contains_iff_mem.mpr h)

/-! BURST_WRITE. -/

section
variable {s : State} {ch : Nat} {e : DdrEntry} (errs : List Nat) (extra : Nat)

theorem exec_burstWrite_idle (h : headEntry s ch 1 = none) : exec (.burstWrite ch errs extra) s = .next s := by
  refine congrArg Host.Outcome.next ?_
  rw [h]

theorem exec_atomicAddBurst_idle (h : headEntry s ch 2 = none) : exec (.atomicAddBurst ch errs extra) s = .next s := by
  refine congrArg Host.Outcome.next ?_
  rw [h]

/-- The state with a burst written whole: its bytes, its poison cleared, and counted (R304, R310). -/
def withBurst (s : State) (b : Nat) (cells : List Host.Cell) : State :=
  { s with mem := { s.mem with ddr := memPuts cells s.mem.ddr, ddrPoison := s.mem.ddrPoison.filter (fun p => p != b) } }.bump
    Ctr.bytesWritten (chanOf (64 * b)) 64

theorem burstWrite_whole {b : Nat} {cells : List Host.Cell} (hlost : chanLost s b = false) (hwhole : 64 ≤ cells.length) :
    burstWrite s b cells = (withBurst s b cells, true) := by
  simp [burstWrite, withBurst, show (s.chan (chanOf (64 * b))).lost = false from hlost, hwhole]

/-- The read of a part of a burst of a filled frame that is poisoned finds that (R310). -/
theorem partialBad_poisoned (hfilled : frameOf e.addr ∈ s.mem.filled) (hlost : (s.chan ch).lost = false)
    (hpoison : e.addr / 64 ∈ s.mem.ddrPoison) : partialBad s ch e errs extra = (s.bump Ctr.bytesRead ch 64, true) := by
  simp [partialBad, freshFill_of_filled hfilled, readBurst_of_poisoned hpoison, countBurst, hlost]

theorem partialBad_clean (hfilled : frameOf e.addr ∈ s.mem.filled) (hlost : (s.chan ch).lost = false)
    (hsound : e.addr / 64 ∉ s.mem.ddrPoison) (hmarked : (s.chan ch).marked = []) : partialBad s ch e [] 0 = (s, false) := by
  simp [partialBad, freshFill_of_filled hfilled, readBurst_clean hlost hsound hmarked]

section
variable (h : headEntry s ch 1 = some e) (hfilled : frameOf e.addr ∈ s.mem.filled) (hlost : (s.chan ch).lost = false)
include h hfilled hlost

theorem exec_burstWrite_whole (hch : chanOf e.addr = ch) (hlen : e.len = 64) : exec (.burstWrite ch errs extra) s =
    .next (answer (withBurst s (e.addr / 64) (cellsAt e.addr (slice e.data 0 64))) ch e (some [])) := by
  have hwrite : burstWrite s (e.addr / 64) (cellsAt e.addr (slice e.data 0 64)) =
      (withBurst s (e.addr / 64) (cellsAt e.addr (slice e.data 0 64)), true) :=
    burstWrite_whole (by rwa [chanLost, chanOf_burst, hch]) (by simp)
  refine congrArg Host.Outcome.next ?_
  simp [h, hlen, freshFill_of_filled hfilled, hwrite]

theorem exec_burstWrite_poisoned (hlen : e.len < 64) (hpoison : e.addr / 64 ∈ s.mem.ddrPoison) :
    exec (.burstWrite ch errs extra) s = .next (answer (s.bump Ctr.bytesRead ch 64) ch e none) := by
  refine congrArg Host.Outcome.next ?_
  simp [h, hlen, partialBad_poisoned errs extra hfilled hlost hpoison]

end

/-- Bytes written whole into a burst are read back from it, and every byte outside it stays (R304). -/
theorem memGet_withBurst {e : DdrEntry} (hw : memWf 0 s.mem.ddr = true) (b : Nat) :
    (∀ i, i < 64 → memGet (e.addr + i) (withBurst s b (cellsAt e.addr (slice e.data 0 64))).mem.ddr = e.data.getD i 0)
      ∧ ∀ a, (a < e.addr ∨ e.addr + 64 ≤ a) →
        memGet a (withBurst s b (cellsAt e.addr (slice e.data 0 64))).mem.ddr = memGet a s.mem.ddr := by
  have hddr : (withBurst s b (cellsAt e.addr (slice e.data 0 64))).mem.ddr = memWrite s.mem.ddr e.addr (slice e.data 0 64) := by
    simp [withBurst, memPuts_cellsAt]
  rw [hddr]
  refine ⟨fun i hi => ?_, fun a ha => memGet_memWrite_outside (by simpa using ha) _⟩
  rw [memGet_memWrite_inside (by simpa using hi) hw, getElem_slice_zero]

theorem withBurst_frame (s : State) (b : Nat) (cells : List Host.Cell) : withBurst s b cells =
    { s with mem := { s.mem with ddr := (withBurst s b cells).mem.ddr, ddrPoison := (withBurst s b cells).mem.ddrPoison }
             counters := (withBurst s b cells).counters } := by
  have h := bump_frame { s with mem := { s.mem with ddr := memPuts cells s.mem.ddr
                                                    ddrPoison := s.mem.ddrPoison.filter (fun p => p != b) } }
    Ctr.bytesWritten (chanOf (64 * b)) 64
  unfold withBurst
  rw [h]

theorem withBurst_clears (s : State) (b : Nat) (cells : List Host.Cell) : b ∉ (withBurst s b cells).mem.ddrPoison := by
  simp [withBurst]

@[simp] theorem chan_withBurst (s : State) (b : Nat) (cells : List Host.Cell) (c : Nat) : (withBurst s b cells).chan c = s.chan c := by
  unfold withBurst
  exact bump_chan _ _ _ _ _

/-! ATOMIC_ADD_BURST. -/

/-- The state with addends added within one burst, and counted (R306). -/
def withAdded (s : State) (ch a : Nat) (vs : List F32) : State :=
  (((s.onMem (fun m => { m with ddr := memAdd s.mem.ddr a vs })).bump Ctr.rmwWrites ch 1).bump Ctr.bytesRead ch 64).bump
    Ctr.bytesWritten ch 64

/-- Addends within one sound burst of a filled frame are all added (R306). -/
theorem ddrAdd_oneBurst {a : Nat} {vs : List F32} (hsome : 1 ≤ vs.length) (hfit : a % 64 + 4 * vs.length ≤ 64)
    (hfilled : frameOf a ∈ s.mem.filled) (hlost : (s.chan (chanOf a)).lost = false) (hsound : a / 64 ∉ s.mem.ddrPoison) :
    ddrAdd s a vs = (withAdded s (chanOf a) a vs, true) := by
  have hframe : unitsOf 2097152 a (4 * vs.length) = [frameOf a] := unitsOf_of_oneUnit (by omega) (by decide) (by omega)
  have hburst : unitsOf 64 a (4 * vs.length) = [a / 64] := unitsOf_of_oneUnit (by omega) (by decide) (by omega)
  have hgood : burstBad s (a / 64) = false := by
    simp [burstBad, chanOf_burst, hlost, hsound]
  have hpart : ((List.range vs.length).zip vs).filter (fun p => (a + 4 * p.1) / 64 == a / 64) = (List.range vs.length).zip vs := by
    refine List.filter_eq_self.mpr fun p hp => ?_
    have hlt : p.1 < vs.length := List.mem_range.mp (List.of_mem_zip hp).1
    simp only [beq_iff_eq]
    omega
  have hadd := foldl_memAdd_range a vs 0 s.mem.ddr
  simp only [Nat.zero_add, List.map_id', Nat.mul_zero, Nat.add_zero] at hadd
  simp [ddrAdd, hframe, hburst, freshFill_of_filled hfilled, hgood, hpart, hadd, chanOf_burst, withAdded]

theorem withAdded_frame (s : State) (ch a : Nat) (vs : List F32) : withAdded s ch a vs =
    { s with mem := { s.mem with ddr := memAdd s.mem.ddr a vs }, counters := (withAdded s ch a vs).counters } := by
  unfold withAdded
  rw [bump_frame _ Ctr.bytesWritten, bump_frame _ Ctr.bytesRead, bump_frame _ Ctr.rmwWrites]
  rfl

@[simp] theorem chan_withAdded (s : State) (ch a : Nat) (vs : List F32) (c : Nat) : (withAdded s ch a vs).chan c = s.chan c := by
  rw [withAdded_frame]
  rfl

section
variable (h : headEntry s ch 2 = some e) (hfilled : frameOf e.addr ∈ s.mem.filled) (hlost : (s.chan ch).lost = false)
include h hfilled hlost

theorem exec_atomicAddBurst_poisoned (hpoison : e.addr / 64 ∈ s.mem.ddrPoison) :
    exec (.atomicAddBurst ch errs extra) s = .next (answer (s.bump Ctr.bytesRead ch 64) ch e none) := by
  refine congrArg Host.Outcome.next ?_
  simp [h, partialBad_poisoned errs extra hfilled hlost hpoison]

theorem exec_atomicAddBurst_clean (hch : chanOf e.addr = ch) (hsound : e.addr / 64 ∉ s.mem.ddrPoison)
    (hmarked : (s.chan ch).marked = []) (hlen : 4 ≤ e.len) (hfit : e.addr % 64 + e.len ≤ 64) :
    exec (.atomicAddBurst ch [] 0) s =
      .next (answer (withAdded s ch e.addr (bytesF32 (e.len / 4) e.data)) ch e (some [])) := by
  have hadd : ddrAdd s e.addr (bytesF32 (e.len / 4) e.data) = (withAdded s ch e.addr (bytesF32 (e.len / 4) e.data), true) := by
    subst hch
    exact ddrAdd_oneBurst (by rw [length_bytesF32]; omega) (by rw [length_bytesF32]; omega) hfilled hlost hsound
  refine congrArg Host.Outcome.next ?_
  simp [h, partialBad_clean hfilled hlost hsound hmarked, hadd]

end

/-! FRESH_FILL and the zeroing of a frame. -/

/-- Counting what is written to each channel leaves all but the counters. -/
theorem zeroLines_frame (s : State) (frame lines : Nat) : zeroLines s frame lines =
    { s with mem := { s.mem with
               ddrPoison := s.mem.ddrPoison.filter (fun b => frameOf (64 * b) != frame || chanLost s b)
               ddr := memZero s.mem.ddr (frame * 2097152) 2097152 }
             counters := (zeroLines s frame lines).counters } := by
  unfold zeroLines
  refine List.foldlRecOn (List.range 24) _ (motive := fun t : State => t = { s with
    mem := { s.mem with
      ddrPoison := s.mem.ddrPoison.filter (fun b => frameOf (64 * b) != frame || chanLost s b)
      ddr := memZero s.mem.ddr (frame * 2097152) 2097152 }
    counters := t.counters }) rfl fun t ht c _ => ?_
  split
  · exact ht
  · rw [bump_frame, ht]

/-- A frame's zeroing makes its bytes 0 and leaves all others (R314, R315). -/
theorem memGet_zeroLines (s : State) (frame lines a : Nat) :
    memGet a (zeroLines s frame lines).mem.ddr = if frameOf a = frame then 0 else memGet a s.mem.ddr := by
  rw [zeroLines_frame]
  have hin : (frame * 2097152 ≤ a ∧ a < frame * 2097152 + 2097152) ↔ frameOf a = frame := by
    unfold frameOf
    omega
  simp only [memGet_memZero, hin]

theorem exec_freshFill_of_fresh {frame : Nat} (hopen : sessionOpen s = true) (htrain : anyTraining s = false)
    (hframe : frame < wholeFrames) : exec (.freshFill frame) s = .next (freshFill s frame) :=
  congrArg Host.Outcome.next (if_neg (by simp [hopen, htrain, hframe]))

theorem exec_freshFill_idle {frame : Nat} (h : sessionOpen s = false ∨ wholeFrames ≤ frame ∨ frame ∈ s.mem.filled) :
    exec (.freshFill frame) s = .next s := by
  refine congrArg Host.Outcome.next ?_
  split
  case isTrue => rfl
  case isFalse hgo =>
    simp only [not_or] at hgo
    rcases h with h | h | h
    · simp [h] at hgo
    · exact absurd h hgo.2.1
    · exact freshFill_of_filled h

theorem exec_freshFill_waits {frame : Nat} (h : anyTraining s = true) : exec (.freshFill frame) s = .next s :=
  congrArg Host.Outcome.next (if_pos (.inr (.inr h)))

/-- A fresh frame filled is the frame zeroed, filled from now on, and counted. -/
theorem freshFill_of_fresh {frame : Nat} (h : frame ∉ s.mem.filled) : freshFill s frame =
    (zeroLines (s.onMem (fun m => { m with filled := insertN frame m.filled })) frame 512).bump Ctr.freshFills 0 1 :=
  if_neg (by simp [h])

/-- The state without the memories and the counters. -/
def outsideMem (s : State) : State := { s with mem := {}, counters := [] }

theorem eq_of_outsideMem {s t : State} (h : outsideMem t = outsideMem s) : t = { s with mem := t.mem, counters := t.counters } :=
  congrArg (fun x : State => { x with mem := t.mem, counters := t.counters }) h

@[simp] theorem outsideMem_bump (s : State) (k : Nat × Nat) (u n : Nat) : outsideMem (s.bump k u n) = outsideMem s := by
  unfold State.bump
  split <;> rfl

@[simp] theorem outsideMem_zeroLines (s : State) (frame lines : Nat) : outsideMem (zeroLines s frame lines) = outsideMem s := by
  rw [zeroLines_frame]
  rfl

@[simp] theorem outsideMem_freshFill (s : State) (frame : Nat) : outsideMem (freshFill s frame) = outsideMem s := by
  by_cases h : frame ∈ s.mem.filled
  · rw [freshFill_of_filled h]
  · rw [freshFill_of_fresh h, outsideMem_bump, outsideMem_zeroLines]
    rfl

end

/-- Settles O47: the guards, and what a burst written, added to or filled makes of the bytes and of the poison. -/
theorem burstsAreWritten : Obligations.BurstsAreWritten := by
  unfold Obligations.BurstsAreWritten
  refine fun s ch => ⟨fun errs extra => ⟨exec_burstWrite_idle errs extra, exec_atomicAddBurst_idle errs extra⟩,
    fun e errs extra h hch hfilled hw => ⟨fun hlen _ hlost => ?_, fun hlen hlost hpoison => ?_⟩,
    fun e h hch hfilled => ⟨fun hlost hpoison errs extra => ?_, fun hsound hlost hmarked hlen hfit => ?_⟩,
    fun frame => ⟨exec_freshFill_idle, exec_freshFill_waits, fun hopen htrain hframe hfresh => ?_⟩⟩
  · obtain ⟨hin, hout⟩ := memGet_withBurst (e := e) hw (e.addr / 64)
    refine ⟨_, exec_burstWrite_whole errs extra h hfilled hlost hch hlen, hin, hout, withBurst_clears s _ _, ?_, ?_⟩
    · simp [chan_answer_same]
    · unfold answer State.onChan State.setChan
      rw [withBurst_frame]
  · exact exec_burstWrite_poisoned errs extra h hfilled hlost hlen hpoison
  · exact exec_atomicAddBurst_poisoned errs extra h hfilled hlost hpoison
  · refine ⟨_, exec_atomicAddBurst_clean h hfilled hlost hch hsound hmarked hlen hfit, ?_, ?_, ?_⟩
    · rw [answer_mem, withAdded_frame]
    · simp [chan_answer_same]
    · unfold answer State.onChan State.setChan
      rw [withAdded_frame]
  · have hfill := freshFill_of_fresh hfresh
    have hzero := zeroLines_frame (s.onMem (fun m => { m with filled := insertN frame m.filled })) frame 512
    refine ⟨_, exec_freshFill_of_fresh hopen htrain hframe, fun a ha => ?_, fun a ha => ?_, ?_, fun b => ?_, ?_⟩
    · rw [hfill, bump_mem, memGet_zeroLines, if_pos ha]
    · rw [hfill, bump_mem, memGet_zeroLines, if_neg ha]
      rfl
    · rw [hfill, bump_mem, hzero]
      simp [State.onMem]
    · rw [hfill, bump_mem, hzero]
      simp [State.onMem, chanLost, State.chan]
    · exact eq_of_outsideMem (outsideMem_freshFill s frame)

end Sys2Proof.Machine
end

section
/-!
SUPPORT. The channels' upkeep (R309, R311, R315): the scrub pass, retries and retraining, and the zeroing of DDR in the background.
-/

namespace Sys2Proof.Machine

/-! SCRUB (R309). -/

/-- The place of the scrub pass after one burst more. -/
def scrubAfter (k : Nat) : Nat := if k + 1 < chanBursts then k + 1 else 0

/-- The state without the channels and the counters. -/
def outsideChans (s : State) : State := { s with chans := [], counters := [] }

theorem eq_of_outsideChans {s t : State} (h : outsideChans t = outsideChans s) :
    t = { s with chans := t.chans, counters := t.counters } :=
  congrArg (fun x : State => { x with chans := t.chans, counters := t.counters }) h

@[simp] theorem outsideChans_bump (s : State) (k : Nat × Nat) (u n : Nat) : outsideChans (s.bump k u n) = outsideChans s := by
  unfold State.bump
  split <;> rfl

@[simp] theorem outsideChans_onChan (s : State) (c : Nat) (f : Chan → Chan) : outsideChans (s.onChan c f) = outsideChans s := rfl

@[simp] theorem outsideChans_setChan (s : State) (c : Nat) (v : Chan) : outsideChans (s.setChan c v) = outsideChans s := rfl

@[simp] theorem outsideChans_scrubNext (s : State) (ch : Nat) : outsideChans (scrubNext s ch) = outsideChans s := by
  unfold scrubNext
  dsimp only
  split <;> simp

@[simp] theorem scrubNext_mem (s : State) (ch : Nat) : (scrubNext s ch).mem = s.mem :=
  (congrArg State.mem (outsideChans_scrubNext s ch) :)

theorem scrubAt_scrubNext (s : State) (ch : Nat) : ((scrubNext s ch).chan ch).scrubAt = scrubAfter (s.chan ch).scrubAt := by
  unfold scrubNext scrubAfter
  dsimp only
  split <;> simp

/-- A pass completed is counted (R309). -/
theorem counter_scrubNext {s : State} {ch : Nat} (h : chanBursts ≤ (s.chan ch).scrubAt + 1) :
    (scrubNext s ch).counter Ctr.scrubPasses ch = min (s.counter Ctr.scrubPasses ch + 1) (2 ^ 64 - 1) := by
  have hnext : scrubNext s ch =
      (s.onChan ch (fun c => { c with scrubAt := 0, fixes := [] })).bump Ctr.scrubPasses ch 1 :=
    if_neg (by omega)
  rw [hnext, counter_bump_one]
  rfl

/-- No other counter of a channel stands in the place of its scrub passes. -/
theorem scrubPasses_bytesRead (ch : Nat) : ctrPlace Ctr.scrubPasses ch ≠ ctrPlace Ctr.bytesRead ch := by
  simp [ctrPlace]

theorem corrected_bytesRead (ch : Nat) : ctrPlace Ctr.corrected ch ≠ ctrPlace Ctr.bytesRead ch := by
  simp [ctrPlace]

section
variable {s : State} {ch : Nat} (errs : List Nat) (extra : Nat)

theorem exec_scrub_idle (h : 24 ≤ ch ∨ mainUp s = false ∨ (s.chan ch).queue ≠ [] ∨ (s.chan ch).training = true
    ∨ (s.chan ch).lost = true) : exec (.scrub ch errs extra) s = .next s := by
  refine congrArg Host.Outcome.next (if_pos ?_)
  simpa using h

variable (hch : ch < 24) (hup : mainUp s = true) (hqueue : (s.chan ch).queue = []) (htrain : (s.chan ch).training = false)
  (hlost : (s.chan ch).lost = false)
include hch hup hqueue htrain hlost

theorem exec_scrub_poisoned (hpoison : chanBurst ch (s.chan ch).scrubAt ∈ s.mem.ddrPoison) :
    exec (.scrub ch errs extra) s = .next (scrubNext s ch) := by
  refine congrArg Host.Outcome.next ((if_neg ?_).trans (if_pos (List.contains_iff_mem.mpr hpoison)))
  simp [hch, hup, hqueue, htrain, hlost]

variable (hsound : chanBurst ch (s.chan ch).scrubAt ∉ s.mem.ddrPoison)
include hsound

/-- A sound burst is read, written back if it was corrected, and the pass goes on. -/
theorem exec_scrub_of_read {u : State} {ok : Bool}
    (hread : readBurst (s.bump Ctr.bytesRead ch 64) ch (chanBurst ch (s.chan ch).scrubAt) errs extra = (u, ok)) :
    exec (.scrub ch errs extra) s = .next (scrubNext
      (if ok = true ∧ s.counter Ctr.corrected ch < u.counter Ctr.corrected ch then u.bump Ctr.bytesWritten ch 64 else u) ch) := by
  refine congrArg Host.Outcome.next ((if_neg ?_).trans ((if_neg (by simpa using hsound)).trans ?_))
  · simp [hch, hup, hqueue, htrain, hlost]
  · rw [hread]

variable (hmarked : (s.chan ch).marked = [])
include hmarked

theorem exec_scrub_clean : exec (.scrub ch [] 0) s = .next (scrubNext (s.bump Ctr.bytesRead ch 64) ch) := by
  rw [exec_scrub_of_read [] 0 hch hup hqueue htrain hlost hsound (readBurst_clean (by simpa) (by simpa) (by simpa)),
    counter_bump_other (corrected_bytesRead ch)]
  simp

theorem exec_scrub_spoilt (x y : Nat) (more : List Nat) : exec (.scrub ch (x :: y :: more) extra) s =
    .next (scrubNext (poisonBurst (s.bump Ctr.bytesRead ch 64) ch (chanBurst ch (s.chan ch).scrubAt)) ch) := by
  rw [exec_scrub_of_read _ extra hch hup hqueue htrain hlost hsound (readBurst_two (by simpa) (by simpa) (by simpa) x y more)]
  simp

end

/-! Link retries and retraining (R311). -/

section
variable {s : State} {ch : Nat}

theorem exec_linkRetry_idle (h : 24 ≤ ch ∨ mainUp s = false ∨ (s.chan ch).lost = true ∨ (s.chan ch).training = true) :
    exec (.linkRetry ch) s = .next s :=
  congrArg Host.Outcome.next (if_pos (by simpa using h))

theorem exec_channelRetrain_idle (h : 24 ≤ ch ∨ mainUp s = false ∨ (s.chan ch).lost = true) (ok : Bool) :
    exec (.channelRetrain ch ok) s = .next s :=
  congrArg Host.Outcome.next (if_pos (by simpa using h))

variable (hch : ch < 24) (hup : mainUp s = true) (hlost : (s.chan ch).lost = false)
include hch hup hlost

/-- A link error is retried, and after eight retries the channel retrains (R311). -/
theorem exec_linkRetry_of_sound (htrain : (s.chan ch).training = false) : exec (.linkRetry ch) s =
    .next (if 8 ≤ (s.chan ch).retries then s.setChan ch { (s.chan ch) with training := true }
      else (s.setChan ch { (s.chan ch) with retries := (s.chan ch).retries + 1 }).bump Ctr.linkRetries ch 1) :=
  congrArg Host.Outcome.next (if_neg (by simp [hch, hup, hlost, htrain]))

theorem exec_channelRetrain_passed : exec (.channelRetrain ch true) s =
    .next ((s.setChan ch { (s.chan ch) with training := false, retries := 0 }).bump Ctr.channelRetrains ch 1) :=
  congrArg Host.Outcome.next ((if_neg (by simp [hch, hup, hlost])).trans (if_pos rfl))

theorem exec_channelRetrain_failed : exec (.channelRetrain ch false) s =
    .next (faultEntry (postEvent (s.setChan ch { (s.chan ch) with training := false, retries := 0, lost := true }) 0x22
      (items [ch])) 8 2 ch (items [ch])) :=
  congrArg Host.Outcome.next ((if_neg (by simp [hch, hup, hlost])).trans (if_neg Bool.false_ne_true))

end

/-! BACKGROUND_ZEROING (R315). -/

section
variable {s : State}

theorem exec_backgroundZeroing_idle (h : s.mem.zeroing = false ∨ mainUp s = false) : exec .backgroundZeroing s = .next s :=
  congrArg Host.Outcome.next (if_pos (by rcases h with h | h <;> simp [h]))

theorem exec_backgroundZeroing_waits {x : Nat × Chan} (hx : x ∈ s.chans) (hbusy : x.2.queue ≠ [] ∨ x.2.training = true) :
    exec .backgroundZeroing s = .next s := by
  refine congrArg Host.Outcome.next (if_pos (.inr (.inr ?_)))
  exact List.any_eq_true.mpr ⟨x, hx, by simpa using hbusy⟩

/-- The zeroing of one frame and the place and state of the zeroing after it. -/
def zeroedTo (s : State) : State :=
  if s.mem.zeroAt + 32768 < ddrBursts then
    (zeroFrame s (s.mem.zeroAt / 32768)).onMem (fun m => { m with zeroAt := s.mem.zeroAt + 32768 })
  else postEvent ((zeroFrame s (s.mem.zeroAt / 32768)).onMem (fun m => { m with zeroAt := ddrBursts, zeroing := false })) 0x23 []

/-- Zeroing a frame leaves the place of the zeroing, its state and the frames filled. -/
theorem zeroFrame_keeps (s : State) (frame : Nat) : (zeroFrame s frame).mem.zeroAt = s.mem.zeroAt
    ∧ (zeroFrame s frame).mem.zeroing = s.mem.zeroing ∧ (zeroFrame s frame).mem.filled = s.mem.filled := by
  unfold zeroFrame
  split
  · exact ⟨rfl, rfl, rfl⟩
  · rw [zeroLines_frame]
    exact ⟨rfl, rfl, rfl⟩

/-- A frame that the session has filled keeps its bytes; of another every byte is 0 (R315). -/
theorem memGet_zeroFrame (s : State) (frame a : Nat) : memGet a (zeroFrame s frame).mem.ddr =
    if frameOf a = frame ∧ frame ∉ s.mem.filled then 0 else memGet a s.mem.ddr := by
  unfold zeroFrame
  split
  case isTrue h => rw [if_neg (fun hfresh => hfresh.2 (List.contains_iff_mem.mp h))]
  case isFalse h =>
    have hfresh : frame ∉ s.mem.filled := by simpa using h
    rw [memGet_zeroLines]
    simp [hfresh]

theorem exec_backgroundZeroing_goes (hzero : s.mem.zeroing = true) (hup : mainUp s = true)
    (hidle : ∀ x, x ∈ s.chans → x.2.queue = [] ∧ x.2.training = false) : exec .backgroundZeroing s = .next (zeroedTo s) := by
  have hquiet : s.chans.any (fun c => !c.2.queue.isEmpty || c.2.training) = false :=
    List.any_eq_false.mpr fun x hx => by simp [hidle x hx]
  obtain ⟨hat, -, -⟩ := zeroFrame_keeps s (s.mem.zeroAt / 32768)
  refine congrArg Host.Outcome.next ((if_neg (by simp [hzero, hup, hquiet])).trans ?_)
  unfold zeroedTo
  dsimp only
  rw [hat]

theorem zeroedTo_ddr (s : State) : (zeroedTo s).mem.ddr = (zeroFrame s (s.mem.zeroAt / 32768)).mem.ddr := by
  unfold zeroedTo
  split
  · rfl
  · rw [postEvent_mem]
    rfl

/-- The zeroing goes on by 2 MiB to the end of DDR, where it ends; the frames filled stay as they are (R315). -/
theorem zeroedTo_place (hzero : s.mem.zeroing = true) : (zeroedTo s).mem.zeroAt = min (s.mem.zeroAt + 32768) ddrBursts
    ∧ (zeroedTo s).mem.zeroing = decide (s.mem.zeroAt + 32768 < ddrBursts) ∧ (zeroedTo s).mem.filled = s.mem.filled := by
  obtain ⟨-, hzeroing, hfilled⟩ := zeroFrame_keeps s (s.mem.zeroAt / 32768)
  unfold zeroedTo
  split
  case isTrue h => exact ⟨(Nat.min_eq_left h.le).symm, by simp [State.onMem, hzeroing, hzero, h], hfilled⟩
  case isFalse h => simp [State.onMem, hfilled, h, Nat.min_eq_right (Nat.not_lt.mp h)]

end

/-- Settles O48: each command by its guard and what it leaves; of a scrub, by what the read of its burst finds. -/
theorem channelsAreKept : Obligations.ChannelsAreKept := by
  unfold Obligations.ChannelsAreKept
  dsimp only
  refine fun s ch => ⟨fun errs extra => exec_scrub_idle errs extra, fun hch hup hqueue htrain hlost =>
      ⟨fun hmarked hsound => ?clean, fun x y more extra hmarked => ?spoilt, fun errs extra hpoison => ?poisoned⟩,
    fun h => ⟨exec_linkRetry_idle (h.imp_right (Or.imp_right Or.inl)), exec_channelRetrain_idle h⟩, fun hch hup hlost =>
      ⟨fun htrain => exec_linkRetry_idle (.inr (.inr (.inr htrain))), fun htrain hfew => ?retry, fun htrain hmany => ?retrain,
        ?passed, ?failed⟩,
    exec_backgroundZeroing_idle, fun x => exec_backgroundZeroing_waits, fun hzero hup hidle => ?zeroing⟩
  case clean =>
    refine ⟨_, exec_scrub_clean hch hup hqueue htrain hlost hsound hmarked, by simp, ?_, fun hend => ?_,
      eq_of_outsideChans (by simp)⟩
    · rw [scrubAt_scrubNext, bump_chan]
      rfl
    · rw [counter_scrubNext (by simpa using hend), counter_bump_other (scrubPasses_bytesRead ch)]
  case spoilt =>
    by_cases hsound : chanBurst ch (s.chan ch).scrubAt ∈ s.mem.ddrPoison
    · exact ⟨_, exec_scrub_poisoned _ extra hch hup hqueue htrain hlost hsound, by simpa, by simp⟩
    · exact ⟨_, exec_scrub_spoilt extra hch hup hqueue htrain hlost hsound hmarked x y more, by simp, by simp⟩
  case poisoned =>
    exact ⟨_, exec_scrub_poisoned errs extra hch hup hqueue htrain hlost hpoison, by simp, scrubAt_scrubNext s ch⟩
  case retry => rw [exec_linkRetry_of_sound hch hup hlost htrain, if_neg (by omega)]
  case retrain => rw [exec_linkRetry_of_sound hch hup hlost htrain, if_pos hmany]
  case passed =>
    exact ⟨_, exec_channelRetrain_passed hch hup hlost, by simp, eq_of_outsideChans (by simp)⟩
  case failed =>
    refine ⟨_, exec_channelRetrain_failed hch hup hlost, ?_, by simp⟩
    exact congrArg Chan.lost ((postEvent_chan _ _ _ _).trans (chan_setChan_same _ _ _))
  case zeroing =>
    obtain ⟨hat, hzeroing, hfilled⟩ := zeroedTo_place hzero
    refine ⟨_, exec_backgroundZeroing_goes hzero hup hidle, fun a ha hfresh => ?_, fun a ha => ?_, hat, hzeroing, hfilled⟩
    · rw [zeroedTo_ddr, memGet_zeroFrame, if_pos ⟨ha, ha ▸ hfresh⟩]
    · rw [zeroedTo_ddr, memGet_zeroFrame, if_neg]
      rintro ⟨hin, hfresh⟩
      rcases ha with ha | ha
      · exact ha hin
      · exact hfresh (hin ▸ ha)

end Sys2Proof.Machine
end

section
/-!
SUPPORT. Resets and what lets the main domain boot (R388, R435 to R437, R440, R444 to R446, R464, R466).
-/

namespace Sys2Proof.Machine

/-! Writing the coffer's oldest entry leaves all but what notices change (R428, R430). -/

@[simp] theorem noticePart_postOnce (s : State) (code : Nat) (d : List Byte) : noticePart (postOnce s code d) = noticePart s := by
  unfold postOnce
  split
  · rfl
  · exact (noticePart_postEvent _ _ _).trans rfl

@[simp] theorem noticePart_degrade (s : State) (k : Nat) (written ok : Bool) : noticePart (degrade s k written ok) = noticePart s := by
  unfold degrade
  split
  · rfl
  · exact (noticePart_postOnce _ _ _).trans rfl

@[simp] theorem noticePart_bump (s : State) (k : Nat × Nat) (u n : Nat) : noticePart (s.bump k u n) = noticePart s :=
  noticePart_of_answerPart (answerPart_bump s k u n)

theorem noticePart_coffer (s : State) (c : Coffer) : noticePart { s with coffer := c } = noticePart s := rfl

@[simp] theorem noticePart_writeHead (s : State) (ok0 ok1 : Bool) : noticePart (writeHead s ok0 ok1) = noticePart s := by
  unfold writeHead
  split
  · rfl
  · dsimp only
    rw [apply_ite noticePart]
    simp only [noticePart_postOnce, noticePart_degrade, noticePart_bump, noticePart_coffer, ite_self]

@[simp] theorem noticePart_finishCoffer (s : State) : noticePart (finishCoffer s) = noticePart s :=
  noticePart_writeHead s true true

/-! The reset of the main domain (R402, R436, R444). -/

/-- What a reset of the main domain leaves of the pins. -/
def pinsInReset (now : Nat) (p : Pins) : Pins :=
  { p with stage := 0, haltAt := now, triedPending := false, trialFailed := false, bootEvents := [] }

/-- What a reset of the main domain leaves of the trust block: fuses, flash and the index store. -/
def trustInReset (t : Trust) : Trust :=
  { serial := t.serial, copyA := t.copyA, copyB := t.copyB, preferred := t.preferred, fusedSvn := t.fusedSvn
    revoked := t.revoked, index0 := t.index0, index1 := t.index1, identityPk := t.identityPk }

/-- What a reset of the main domain leaves of the memories. -/
def memInReset (m : Memory) : Memory :=
  { shelf := m.shelf, cellar := m.cellar, side := m.side, ddr := m.ddr, shelfPoison := m.shelfPoison, bad := m.bad
    ddrPoison := m.ddrPoison, zeroing := true }

theorem mainReset_pins (s : State) : (mainReset s).pins = pinsInReset s.now s.pins := by
  have h := noticePart_finishCoffer s
  exact congrArg₂ pinsInReset (congrArg State.now h :) (congrArg State.pins h :)

theorem mainReset_trust (s : State) : (mainReset s).trust = trustInReset s.trust :=
  congrArg trustInReset (congrArg State.trust (noticePart_finishCoffer s) :)

theorem mainReset_mem (s : State) : (mainReset s).mem = memInReset s.mem :=
  congrArg memInReset (congrArg State.mem (noticePart_finishCoffer s) :)

theorem mainReset_now (s : State) : (mainReset s).now = s.now := (congrArg State.now (noticePart_finishCoffer s) :)

/-- The main domain is in STANDBY and what it worked on is gone; fuses, flash copies and the bytes of DDR stay. -/
structure MainGone (s u : State) : Prop where
  stage : u.pins.stage = 0
  runs : u.runs = []
  orders : u.orders = []
  session : u.trust.session = none
  pages : u.mem.xlate = []
  ddr : u.mem.ddr = s.mem.ddr
  svn : u.trust.fusedSvn = s.trust.fusedSvn
  copyA : u.trust.copyA = s.trust.copyA
  copyB : u.trust.copyB = s.trust.copyB
  clock : u.now = s.now

theorem MainGone.and {s u : State} (h : MainGone s u) : u.pins.stage = 0 ∧ u.runs = [] ∧ u.orders = [] ∧ u.trust.session = none
    ∧ u.mem.xlate = [] ∧ u.mem.ddr = s.mem.ddr ∧ u.trust.fusedSvn = s.trust.fusedSvn ∧ u.trust.copyA = s.trust.copyA
    ∧ u.trust.copyB = s.trust.copyB ∧ u.now = s.now :=
  ⟨h.stage, h.runs, h.orders, h.session, h.pages, h.ddr, h.svn, h.copyA, h.copyB, h.clock⟩

/-- A change of the pins alone that leaves the stage leaves the main domain gone. -/
theorem MainGone.pins {s u : State} (h : MainGone s u) {p : Pins} (hp : p.stage = 0) : MainGone s { u with pins := p } :=
  ⟨hp, h.runs, h.orders, h.session, h.pages, h.ddr, h.svn, h.copyA, h.copyB, h.clock⟩

theorem resetFor_standby {s : State} (h : s.pins.stage = 0) (cause : Nat) : resetFor s cause = s := if_pos h

theorem resetFor_up {s : State} (h : s.pins.stage ≠ 0) (cause : Nat) : resetFor s cause = noteCause (mainReset s) cause := if_neg h

theorem mainGone_resetFor {s : State} (h : s.pins.stage ≠ 0) (cause : Nat) : MainGone s (resetFor s cause) := by
  have htrust := mainReset_trust s
  have hmem := mainReset_mem s
  rw [resetFor_up h]
  exact ⟨congrArg Pins.stage (mainReset_pins s), rfl, rfl, (congrArg Trust.session htrust :), (congrArg Memory.xlate hmem :),
    (congrArg Memory.ddr hmem :), (congrArg Trust.fusedSvn htrust :), (congrArg Trust.copyA htrust :), (congrArg Trust.copyB htrust :),
    mainReset_now s⟩

/-- A reset keeps the pins themselves: rails, clocks, RESET_N and the standby domain. -/
theorem pins_resetFor (s : State) (cause : Nat) : (resetFor s cause).pins.rails = s.pins.rails
    ∧ (resetFor s cause).pins.resetN = s.pins.resetN ∧ (resetFor s cause).pins.stby = s.pins.stby := by
  have hpins := mainReset_pins s
  unfold resetFor
  split
  · exact ⟨rfl, rfl, rfl⟩
  · exact ⟨(congrArg Pins.rails hpins :), (congrArg Pins.resetN hpins :), (congrArg Pins.stby hpins :)⟩

theorem stage_resetFor (s : State) (cause : Nat) : (resetFor s cause).pins.stage = 0 := by
  by_cases h : s.pins.stage = 0
  · rw [resetFor_standby h, h]
  · exact (mainGone_resetFor h cause).stage

/-! What lets the main domain boot (R435, R436, R438, R466). -/

theorem mayBoot_iff {s : State} : mayBoot s = true ↔ s.pins.stby = true ∧ s.pins.stage = 0 ∧ s.pins.resetN = false
    ∧ s.pins.thermtrip = false ∧ s.pins.refCore = true ∧ ∀ r, r < 6 → r ∈ s.pins.rails := by
  unfold mayBoot
  simp only [Bool.and_eq_true, beq_iff_eq, Bool.not_eq_true', List.all_eq_true, List.mem_range, List.contains_iff_mem, and_assoc]

/-- The state in which stage ROM has begun, and a boot is counted. -/
def inRom (s : State) : State :=
  { s with pins := { s.pins with stage := 1 }, coffer := { s.coffer with boot := s.coffer.boot + 1 } }

theorem tryBoot_eq (s : State) : tryBoot s = if mayBoot s then inRom s else s := rfl

theorem tryBoot_stays {s : State} (h : mayBoot s = false) : tryBoot s = s := if_neg (by simp [h])

theorem tryBoot_boots {s : State} (h : mayBoot s = true) : tryBoot s = inRom s := if_pos h

theorem mayBoot_resetN {s : State} (h : s.pins.resetN = true) : mayBoot s = false := by simp [mayBoot, h]

theorem mayBoot_stage {s : State} (h : s.pins.stage ≠ 0) : mayBoot s = false := by simp [mayBoot, h]

theorem mayBoot_rail {s : State} {r : Nat} (hr : r < 6) (h : r ∉ s.pins.rails) : mayBoot s = false := by
  rw [Bool.eq_false_iff]
  intro hboot
  obtain ⟨-, -, -, -, -, hall⟩ := mayBoot_iff.mp hboot
  exact h (hall r hr)

/-- Whether stage ROM begins or not, only the stage and the count of boots change. -/
theorem tryBoot_pins (s : State) : (tryBoot s).pins.rails = s.pins.rails ∧ (tryBoot s).pins.railOrder = s.pins.railOrder := by
  unfold tryBoot
  split <;> exact ⟨rfl, rfl⟩

/-! RESET_N (R440, R444, R435). -/

section
variable {s : State}

theorem exec_resetNAssert_idle (h : s.pins.resetN = true ∨ s.pins.stby = false) : exec .resetNAssert s = .next s :=
  congrArg Host.Outcome.next (if_pos (by simpa using h))

section
variable (hreset : s.pins.resetN = false) (hstby : s.pins.stby = true)
include hreset hstby

/-- RESET_N asserted, by the stage it finds. -/
theorem exec_resetNAssert : exec .resetNAssert s =
    let t := if s.pins.stage = 0xB then s else if s.pins.stage = 0 then noteCause s 1 else resetFor s 1
    .next { t with pins := { t.pins with resetN := true } } :=
  congrArg Host.Outcome.next (if_neg (by simp [hreset, hstby]))

theorem exec_resetNAssert_resets (hup : s.pins.stage ≠ 0) (htrip : s.pins.stage ≠ 0xB) : exec .resetNAssert s =
    .next { resetFor s 1 with pins := { (resetFor s 1).pins with resetN := true } } := by
  rw [exec_resetNAssert hreset hstby, if_neg htrip, if_neg hup]

theorem exec_resetNAssert_standby (hdown : s.pins.stage = 0) : exec .resetNAssert s =
    .next { noteCause s 1 with pins := { (noteCause s 1).pins with resetN := true } } := by
  rw [exec_resetNAssert hreset hstby, if_neg (by simp [hdown]), if_pos hdown]

theorem exec_resetNAssert_tripped (htrip : s.pins.stage = 0xB) : exec .resetNAssert s =
    .next { s with pins := { s.pins with resetN := true } } := by
  rw [exec_resetNAssert hreset hstby, if_pos htrip]

end

theorem exec_resetNRelease (hstby : s.pins.stby = true) : exec .resetNRelease s =
    .next (tryBoot { s with pins := { s.pins with resetN := false } }) :=
  congrArg Host.Outcome.next (if_neg (by simp [hstby]))

theorem exec_resetNRelease_idle (hstby : s.pins.stby = false) : exec .resetNRelease s = .next s :=
  congrArg Host.Outcome.next (if_pos (by simp [hstby]))

/-! Rails (R436, R464). -/

/-- The pins once a main rail has reached 90 %. -/
def railUp (p : Pins) (r : Nat) : Pins :=
  { p with rails := p.rails ++ [r], railOrder := p.railOrder || !(List.range r).all (fun k => p.rails.contains k) }

theorem exec_railRise_idle {r : Nat} (h : 6 ≤ r ∨ r ∈ s.pins.rails ∨ s.pins.stby = false) : exec (.railRise r) s = .next s :=
  congrArg Host.Outcome.next (if_pos (by simpa using h))

/-- A rail that rises joins the rails, VDD_CORE at its first setpoint, and may be the last that stage ROM needs. -/
theorem exec_railRise {r : Nat} (hr : r < 6) (hdown : r ∉ s.pins.rails) (hstby : s.pins.stby = true) : exec (.railRise r) s =
    let t := { s with pins := railUp s.pins r }
    .next (tryBoot (if r = 1 then { t with health := { t.health with setpoint := 750, wanted := none } } else t)) :=
  congrArg Host.Outcome.next (if_neg (by simp [hr, hdown, hstby]))

/-- The state once a main rail has fallen below 90 %. -/
def railDown (s : State) (r : Nat) : State :=
  { resetFor s 0 with pins := { (resetFor s 0).pins with rails := s.pins.rails.filter (fun x => x != r) } }

theorem exec_railLow_idle {r : Nat} (h : r ∉ s.pins.rails) : exec (.railLow r) s = .next s :=
  congrArg Host.Outcome.next (if_pos (by simp [h]))

theorem exec_railLow {r : Nat} (h : r ∈ s.pins.rails) : exec (.railLow r) s =
    .next (if r = 0 then tapReset (railDown s r) else railDown s r) := by
  obtain ⟨hrails, -, -⟩ := pins_resetFor s 0
  refine congrArg Host.Outcome.next ((if_neg (by simp [h])).trans ?_)
  unfold railDown
  simp only [hrails]

/-- A rail that falls resets the main domain, and is up no more (R436). -/
theorem mainGone_railLow {r : Nat} (hup : s.pins.stage ≠ 0) :
    MainGone s (if r = 0 then tapReset (railDown s r) else railDown s r) := by
  have hdown : MainGone s (railDown s r) := (mainGone_resetFor hup 0).pins (stage_resetFor s 0)
  split
  · exact hdown.pins hdown.stage
  · exact hdown

theorem rails_railLow (r : Nat) :
    (if r = 0 then tapReset (railDown s r) else railDown s r).pins.rails = s.pins.rails.filter (fun x => x != r) := by
  split <;> rfl

theorem exec_railHigh {r : Nat} (hmain : r ≠ 6) (h : r ∈ s.pins.rails) : exec (.railHigh r) s =
    .next (tryBoot (if s.pins.stage = 0xB then s else resetFor s 0)) :=
  congrArg Host.Outcome.next ((if_neg hmain).trans (if_neg (by simp [h])))

/-! The standby domain (R435, R437). -/

theorem exec_vddStbyApplied_idle (h : s.pins.stby = true) : exec .vddStbyApplied s = .next s :=
  congrArg Host.Outcome.next (if_pos h)

theorem exec_vddStbyApplied (h : s.pins.stby = false) : exec .vddStbyApplied s =
    .next { s with pins := { s.pins with stby := true } } :=
  congrArg Host.Outcome.next (if_neg (by simp [h]))

theorem exec_vddStbyFall_idle (h : s.pins.stby = false) : exec .vddStbyFall s = .next s :=
  congrArg Host.Outcome.next (if_neg (by simp [h]))

theorem exec_vddStbyFall (h : s.pins.stby = true) : exec .vddStbyFall s = .next (stbyFall s) :=
  congrArg Host.Outcome.next (if_pos h)

/-- A reset takes neither copy of the firmware nor a fuse (R388, R389). -/
theorem trust_resetFor (s : State) (cause : Nat) : (resetFor s cause).trust.copyA = s.trust.copyA
    ∧ (resetFor s cause).trust.copyB = s.trust.copyB ∧ (resetFor s cause).trust.fusedSvn = s.trust.fusedSvn := by
  by_cases h : s.pins.stage = 0
  · rw [resetFor_standby h]
    exact ⟨rfl, rfl, rfl⟩
  · have hgone := mainGone_resetFor h cause
    exact ⟨hgone.copyA, hgone.copyB, hgone.svn⟩

/-! THERMTRIP_N and REFCLK_CORE (R446, R466). -/

theorem exec_thermtripRelease_idle (h : s.pins.thermtrip = false ∨ 1 ∈ s.pins.rails) : exec .thermtripRelease s = .next s :=
  congrArg Host.Outcome.next (if_pos (by simpa using h))

/-- THERMTRIP_N is released with VDD_CORE down, so that nothing boots. -/
theorem exec_thermtripRelease (htrip : s.pins.thermtrip = true) (hcore : 1 ∉ s.pins.rails) : exec .thermtripRelease s =
    .next { s with pins := { s.pins with thermtrip := false } } := by
  refine congrArg Host.Outcome.next ((if_neg (by simp [htrip, hcore])).trans (tryBoot_stays ?_))
  exact mayBoot_rail (s := { s with pins := { s.pins with thermtrip := false } }) (by decide) hcore

theorem exec_refclkCoreDetect (s : State) : exec .refclkCoreDetect s =
    .next (tryBoot { s with pins := { s.pins with refCore := true } }) := rfl

theorem exec_refclkCoreLoss_resets (htrip : s.pins.stage ≠ 0xB) : exec .refclkCoreLoss s =
    .next { resetFor s 0 with pins := { (resetFor s 0).pins with refCore := false } } := by
  refine congrArg Host.Outcome.next ?_
  rw [if_neg htrip]

theorem exec_refclkCoreLoss_idle (h : s.pins.stage = 0 ∨ s.pins.stage = 0xB) : exec .refclkCoreLoss s =
    .next { s with pins := { s.pins with refCore := false } } := by
  refine congrArg Host.Outcome.next ?_
  rcases h with h | h
  · rw [if_neg (by simp [h]), resetFor_standby h]
  · rw [if_pos h]

/-! REFCLK_SER (R465, R466). -/

/-- The reference clocks of the links once one has come or gone. -/
def serClocks (old n : Nat) (ok : Bool) : Nat :=
  bitsMask (if ok then (maskBits 4 old).filter (fun k => k != n) ++ [n] else (maskBits 4 old).filter (fun k => k != n))

theorem mem_maskBits {n v k : Nat} : k ∈ maskBits n v ↔ k < n ∧ v.testBit k = true := mem_below

theorem bit_serClocks_same (old n : Nat) (ok : Bool) : bit (serClocks old n ok) n = ok := by
  refine Bool.eq_iff_iff.mpr ((testBit_bitsMask _ _).trans ?_)
  cases ok <;> simp

theorem bit_serClocks_other {k n : Nat} (hk : k < 4) (h : k ≠ n) (old : Nat) (ok : Bool) :
    bit (serClocks old n ok) k = bit old k := by
  refine Bool.eq_iff_iff.mpr ((testBit_bitsMask _ _).trans ?_)
  cases ok <;> simp [mem_maskBits, hk, h, bit]

/-- A link's own training once a clock it is served by has come or gone. -/
def clockStep (ok : Bool) (k : Link) : Link :=
  if ok ∧ k.state = 0 then { k with state := 1 } else if !ok ∧ k.state = 1 then { k with state := 0 } else k

/-- One link followed after its clock. -/
def clockFollow (ok : Bool) (s : State) (l : Nat) : State :=
  if ok ∧ (s.link l).state = 0 then s.onLink l (fun k => { k with state := 1 })
  else if !ok ∧ (s.link l).state = 1 then s.onLink l (fun k => { k with state := 0 })
  else s

theorem link_clockFollow_same (ok : Bool) (s : State) (l : Nat) : (clockFollow ok s l).link l = clockStep ok (s.link l) := by
  unfold clockFollow clockStep
  split
  · exact link_onLink_same _ _ _
  · split
    · exact link_onLink_same _ _ _
    · rfl

theorem link_clockFollow_other {j l : Nat} (h : j ≠ l) (ok : Bool) (s : State) : (clockFollow ok s l).link j = s.link j := by
  unfold clockFollow
  split
  · exact link_onLink_other h _ _
  · split
    · exact link_onLink_other h _ _
    · rfl

theorem link_foldl_clockFollow_of_notMem (ok : Bool) {j : Nat} {l : List Nat} (h : j ∉ l) (s : State) :
    (l.foldl (clockFollow ok) s).link j = s.link j := by
  induction l generalizing s with
  | nil => rfl
  | cons i l ih =>
    simp only [List.mem_cons, not_or] at h
    exact (ih h.2 _).trans (link_clockFollow_other h.1 ok s)

/-- Of links that differ each is followed once. -/
theorem link_foldl_clockFollow_of_mem (ok : Bool) {j : Nat} {l : List Nat} (hl : l.Nodup) (h : j ∈ l) (s : State) :
    (l.foldl (clockFollow ok) s).link j = clockStep ok (s.link j) := by
  induction l generalizing s with
  | nil => cases h
  | cons i l ih =>
    obtain ⟨hnot, hl⟩ := List.nodup_cons.mp hl
    rcases List.mem_cons.mp h with rfl | h
    · exact (link_foldl_clockFollow_of_notMem ok hnot _).trans (link_clockFollow_same ok s j)
    · have hne : j ≠ i := fun e => hnot (e ▸ h)
      exact (ih hl h _).trans (congrArg (clockStep ok) (link_clockFollow_other hne ok s))

theorem foldl_clockFollow_pins (ok : Bool) (l : List Nat) (s : State) : (l.foldl (clockFollow ok) s).pins = s.pins := by
  refine foldl_leaves (g := State.pins) (fun x i => ?_) l s
  unfold clockFollow
  split
  · rfl
  · split <;> rfl

theorem nodup_clockLinks (n : Nat) : (clockLinks n).Nodup := List.Nodup.filter _ List.nodup_range

/-- The state with the reference clocks of the links changed. -/
def withClocks (s : State) (n : Nat) (ok : Bool) : State := { s with pins := { s.pins with refSer := serClocks s.pins.refSer n ok } }

theorem exec_refclkSerChange_idle {n : Nat} (h : 4 ≤ n) (ok : Bool) : exec (.refclkSerChange n ok) s = .next s :=
  congrArg Host.Outcome.next (if_pos h)

theorem exec_refclkSerChange_down {n : Nat} (h : n < 4) (hdown : mainUp s = false) (ok : Bool) :
    exec (.refclkSerChange n ok) s = .next (withClocks s n ok) := by
  have hstill : mainUp (withClocks s n ok) = false := hdown
  exact congrArg Host.Outcome.next ((if_neg (by omega)).trans (if_pos (show (!mainUp (withClocks s n ok)) = true by simp [hstill])))

theorem exec_refclkSerChange_up {n : Nat} (h : n < 4) (hup : mainUp s = true) (ok : Bool) : exec (.refclkSerChange n ok) s =
    .next ((clockLinks n).foldl (clockFollow ok) (withClocks s n ok)) := by
  have hstill : mainUp (withClocks s n ok) = true := hup
  exact congrArg Host.Outcome.next ((if_neg (by omega)).trans (if_neg (show ¬ (!mainUp (withClocks s n ok)) = true by simp [hstill])))

end

/-- Settles O57: each pin and rail by its guard; a reset by what the reset of the main domain leaves, a boot by what it needs. -/
theorem resetAndPower : Obligations.ResetAndPower := by
  unfold Obligations.ResetAndPower
  dsimp only
  refine fun s => ⟨exec_resetNAssert_idle, fun hreset hstby hup htrip => ?reset, fun hreset hstby hdown => ?standby,
    exec_resetNAssert_tripped, fun hstby => ⟨_, exec_resetNRelease hstby, tryBoot_eq _⟩, fun r => exec_railRise_idle,
    fun r hr hdown hstby => ?rise, fun r => exec_railLow_idle, fun r h hup => ?low, fun r hmain h hup htrip hreset => ?high,
    fun hstby => ⟨?fall, exec_vddStbyApplied_idle hstby⟩,
    fun hstby => ⟨exec_vddStbyFall_idle hstby, exec_resetNRelease_idle hstby, exec_vddStbyApplied hstby⟩,
    exec_thermtripRelease_idle, exec_thermtripRelease, ⟨_, exec_refclkCoreDetect s, tryBoot_eq _⟩,
    fun hup htrip => ?loss, exec_refclkCoreLoss_idle, fun n ok h => exec_refclkSerChange_idle h ok, fun n hn hup => ?clock⟩
  case reset =>
    refine ⟨_, exec_resetNAssert_resets hreset hstby hup htrip, ((mainGone_resetFor hup 1).pins (stage_resetFor s 1)).and, rfl, ?_⟩
    rw [resetFor_up hup]
    simp [noteCause]
  case standby => exact ⟨_, exec_resetNAssert_standby hreset hstby hdown, rfl, by simp [noteCause], rfl⟩
  case rise =>
    refine ⟨_, exec_railRise hr hdown hstby, ?_, ?_, fun hreset => ?_⟩
    · rw [(tryBoot_pins _).1]
      split <;> rfl
    · rw [(tryBoot_pins _).2]
      have hordered : (railUp s.pins r).railOrder = true ↔ s.pins.railOrder = true ∨ ∃ k, k < r ∧ k ∉ s.pins.rails := by
        simp [railUp]
      split <;> exact hordered
    · rw [tryBoot_stays (mayBoot_resetN (by split <;> exact hreset))]
      split <;> rfl
  case low =>
    refine ⟨_, exec_railLow h, (mainGone_railLow hup).and, ?_⟩
    rw [rails_railLow]
    simp
  case high =>
    have hheld : (resetFor s 0).pins.resetN = true := (pins_resetFor s 0).2.1.trans hreset
    refine ⟨_, exec_railHigh hmain h, ?_⟩
    rw [if_neg htrip, tryBoot_stays (mayBoot_resetN hheld)]
    exact (mainGone_resetFor hup 0).and
  case fall => exact ⟨_, exec_vddStbyFall hstby, rfl, rfl, rfl, rfl, (trust_resetFor s 0).1⟩
  case loss => exact ⟨_, exec_refclkCoreLoss_resets htrip, ((mainGone_resetFor hup 0).pins (stage_resetFor s 0)).and, rfl⟩
  case clock =>
    refine ⟨_, exec_refclkSerChange_up hn hup false, ?_, fun k hk hne => ?_, fun l hl hstate => ?_⟩
    · rw [foldl_clockFollow_pins]
      exact bit_serClocks_same _ _ _
    · rw [foldl_clockFollow_pins]
      exact bit_serClocks_other hk hne _ _
    · rw [link_foldl_clockFollow_of_mem false (nodup_clockLinks n) hl]
      have hhere : ((withClocks s n false).link l).state = 1 := hstate
      simp [clockStep, hhere]

end Sys2Proof.Machine
end

section
/-!
SUPPORT. The stages of boot (R301, R387 to R391, R402, R438, R439): the index restored and the copy run in stage ROM, what stage
IMION leaves, and the rate at which stage MEMORY trains DDR.
-/

namespace Sys2Proof.Machine

/-! The index (R391). -/

theorem le_foldl_max (l : List Nat) (a : Nat) : a ≤ l.foldl max a ∧ ∀ n, n ∈ l → n ≤ l.foldl max a := by
  induction l generalizing a with
  | nil => simp
  | cons b l ih =>
    obtain ⟨hfrom, hall⟩ := ih (max a b)
    refine ⟨(Nat.le_max_left a b).trans hfrom, fun n hn => ?_⟩
    rcases List.mem_cons.mp hn with rfl | hn
    · exact (Nat.le_max_right a n).trans hfrom
    · exact hall n hn

theorem foldl_max_mem (l : List Nat) (a : Nat) : l.foldl max a = a ∨ l.foldl max a ∈ l := by
  induction l generalizing a with
  | nil => exact .inl rfl
  | cons b l ih =>
    rcases ih (max a b) with h | h
    · rcases Nat.le_total a b with hab | hab
      · exact .inr (List.mem_cons.mpr (.inl (h.trans (Nat.max_eq_right hab))))
      · exact .inl (h.trans (Nat.max_eq_left hab))
    · exact .inr (List.mem_cons_of_mem _ h)

/-- The greatest of a list that is not empty is in it. -/
theorem foldl_max_zero_mem {l : List Nat} (h : l ≠ []) : l.foldl max 0 ∈ l := by
  rcases foldl_max_mem l 0 with hzero | hin
  · obtain ⟨n, hn⟩ := List.exists_mem_of_ne_nil l h
    have hle : n ≤ l.foldl max 0 := (le_foldl_max l 0).2 n hn
    have hn0 : n = 0 := by omega
    rwa [hzero, ← hn0]
  · exact hin

/-- What restoring the index makes of the trust block. -/
theorem restoreIndex_eq (s : State) : restoreIndex s = { s with trust := (restoreIndex s).trust } := by
  unfold restoreIndex
  dsimp only
  split <;> rfl

/-- The index restored is the greatest that a record holds, and with none signing is disabled (R391). -/
theorem restoreIndex_next (s : State) : (∀ n, n ∈ indexRecords s → n ≤ (restoreIndex s).trust.next)
    ∧ (indexRecords s ≠ [] → (restoreIndex s).trust.next ∈ indexRecords s)
    ∧ (indexRecords s = [] → (restoreIndex s).trust.signDisabled = true) := by
  unfold restoreIndex
  by_cases h : indexRecords s = []
  · simp [h]
  · simp only [List.isEmpty_iff, h, if_false]
    exact ⟨(le_foldl_max _ 0).2, fun _ => foldl_max_zero_mem h, False.elim⟩

/-- The trust block but for what restoring the index may change of it. -/
def copiesOf (s : State) : FwCopy × FwCopy × Nat × Nat × Nat :=
  (s.trust.copyA, s.trust.copyB, s.trust.preferred, s.trust.fusedSvn, s.trust.revoked)

theorem copiesOf_restoreIndex (s : State) : copiesOf (restoreIndex s) = copiesOf s := by
  unfold restoreIndex
  dsimp only
  split <;> rfl

theorem copiesOf_eq_iff {s t : State} : copiesOf t = copiesOf s ↔ t.trust.copyA = s.trust.copyA ∧ t.trust.copyB = s.trust.copyB
    ∧ t.trust.preferred = s.trust.preferred ∧ t.trust.fusedSvn = s.trust.fusedSvn ∧ t.trust.revoked = s.trust.revoked := by
  simp [copiesOf]

theorem fwCopy_of_copies {s t : State} (h : copiesOf t = copiesOf s) (c : Nat) : fwCopy t c = fwCopy s c := by
  obtain ⟨hA, hB, -, -, -⟩ := copiesOf_eq_iff.mp h
  simp only [fwCopy, hA, hB]

/-- Whether an image verifies rests on the fuses alone (R387). -/
theorem imageOk_of_fuses {s t : State} (hsvn : t.trust.fusedSvn = s.trust.fusedSvn) (hrev : t.trust.revoked = s.trust.revoked)
    (b : List Byte) : imageOk t b = imageOk s b := by
  simp only [imageOk, fusesOk, hsvn, hrev]

theorem imageOk_of_copies {s t : State} (h : copiesOf t = copiesOf s) (b : List Byte) : imageOk t b = imageOk s b := by
  obtain ⟨-, -, -, hsvn, hrev⟩ := copiesOf_eq_iff.mp h
  exact imageOk_of_fuses hsvn hrev b

theorem pendingCopy_of_copies {s t : State} (h : copiesOf t = copiesOf s) : pendingCopy t = pendingCopy s := by
  simp only [pendingCopy, fwCopy_of_copies h]

/-! The copy that boot runs (R388). -/

theorem fwCopy_setCopy_same (s : State) (c : Nat) (v : FwCopy) : fwCopy (setCopy s c v) c = v := by
  unfold fwCopy setCopy
  split <;> rfl

theorem setCopy_eq (s : State) (c : Nat) (v : FwCopy) : setCopy s c v = { s with trust := (setCopy s c v).trust } := by
  unfold setCopy
  split <;> rfl

theorem setCopy_fuses (s : State) (c : Nat) (v : FwCopy) : (setCopy s c v).trust.fusedSvn = s.trust.fusedSvn
    ∧ (setCopy s c v).trust.revoked = s.trust.revoked := by
  unfold setCopy
  split <;> exact ⟨rfl, rfl⟩

theorem tryGood_good {s : State} {c : Nat} (hgood : (fwCopy s c).state = 2) (hok : imageOk s (fwCopy s c).image = true)
    (failed : Bool) : tryGood s c failed = (runCopy s c false failed, true) := by
  simp [tryGood, hgood, hok]

theorem tryGood_notGood {s : State} {c : Nat} (h : (fwCopy s c).state ≠ 2) (failed : Bool) : tryGood s c failed = (s, false) :=
  if_pos h

theorem bootGood_preferred {s : State} (hgood : (fwCopy s s.trust.preferred).state = 2)
    (hok : imageOk s (fwCopy s s.trust.preferred).image = true) (failed : Bool) :
    bootGood s failed = runCopy s s.trust.preferred false failed := by
  simp [bootGood, tryGood_good hgood hok]

/-- With no GOOD copy the image has failed (R388, R439). -/
theorem bootGood_none {s : State} (hone : (fwCopy s s.trust.preferred).state ≠ 2)
    (hother : (fwCopy s (1 - s.trust.preferred)).state ≠ 2) (failed : Bool) :
    bootGood s failed = { s with pins := { s.pins with stage := 8 } } := by
  simp [bootGood, tryGood_notGood hone, tryGood_notGood hother]

theorem chooseCopy_noPending {s : State} (h : pendingCopy s = none) : chooseCopy s = bootGood s s.pins.trialFailed := by
  simp [chooseCopy, h]

/-- A PENDING copy that verifies runs on trial, BAD before its code does (R388). -/
theorem chooseCopy_pending {s : State} {k : Nat} (h : pendingCopy s = some k)
    (hok : imageOk (markBad s k) (fwCopy (markBad s k) k).image = true) :
    chooseCopy s = runCopy (markBad s k) k true false := by
  simp [chooseCopy, h, hok]

theorem pendingCopy_none {s : State} (hA : s.trust.copyA.state ≠ 1) (hB : s.trust.copyB.state ≠ 1) : pendingCopy s = none := by
  simp [pendingCopy, fwCopy, hA, hB]

theorem fwCopy_state_ne {s : State} {n : Nat} (hA : s.trust.copyA.state ≠ n) (hB : s.trust.copyB.state ≠ n) (c : Nat) :
    (fwCopy s c).state ≠ n := by
  unfold fwCopy
  split
  · exact hA
  · exact hB

theorem exec_stageRom_idle {s : State} (h : s.pins.stage ≠ 1) : exec .stageRom s = .next s := congrArg Host.Outcome.next (if_neg h)

theorem exec_stageRom {s : State} (h : s.pins.stage = 1) : exec .stageRom s = .next (chooseCopy (restoreIndex s)) :=
  congrArg Host.Outcome.next (if_pos h)

/-- Stage ROM with the preferred copy GOOD and none PENDING. -/
theorem chooseCopy_restoreIndex_preferred {s : State} (hnone : pendingCopy s = none)
    (hgood : (fwCopy s s.trust.preferred).state = 2) (hok : imageOk s (fwCopy s s.trust.preferred).image = true) :
    chooseCopy (restoreIndex s) = runCopy (restoreIndex s) s.trust.preferred false s.pins.trialFailed := by
  have hcopies := copiesOf_restoreIndex s
  have hpref : (restoreIndex s).trust.preferred = s.trust.preferred := (copiesOf_eq_iff.mp hcopies).2.2.1
  have htrial : (restoreIndex s).pins.trialFailed = s.pins.trialFailed := by rw [restoreIndex_eq]
  rw [chooseCopy_noPending ((pendingCopy_of_copies hcopies).trans hnone),
    bootGood_preferred (by rwa [hpref, fwCopy_of_copies hcopies])
      (by rwa [hpref, fwCopy_of_copies hcopies, imageOk_of_copies hcopies]), hpref, htrial]

theorem chooseCopy_restoreIndex_none {s : State} (hA : s.trust.copyA.state ∉ [1, 2]) (hB : s.trust.copyB.state ∉ [1, 2]) :
    chooseCopy (restoreIndex s) = { restoreIndex s with pins := { (restoreIndex s).pins with stage := 8 } } := by
  simp only [List.mem_cons, List.not_mem_nil, or_false, not_or] at hA hB
  obtain ⟨hcopyA, hcopyB, -, -, -⟩ := copiesOf_eq_iff.mp (copiesOf_restoreIndex s)
  rw [chooseCopy_noPending (pendingCopy_none (hcopyA ▸ hA.1) (hcopyB ▸ hB.1))]
  exact bootGood_none (fwCopy_state_ne (hcopyA ▸ hA.2) (hcopyB ▸ hB.2) _) (fwCopy_state_ne (hcopyA ▸ hA.2) (hcopyB ▸ hB.2) _) _

theorem chooseCopy_restoreIndex_pending {s : State} {k : Nat} (h : pendingCopy s = some k)
    (hok : imageOk s (fwCopy s k).image = true) :
    chooseCopy (restoreIndex s) = runCopy (markBad (restoreIndex s) k) k true false := by
  have hcopies := copiesOf_restoreIndex s
  obtain ⟨-, -, -, hsvn, hrev⟩ := copiesOf_eq_iff.mp hcopies
  obtain ⟨hsvnBad, hrevBad⟩ := setCopy_fuses (restoreIndex s) k { fwCopy (restoreIndex s) k with state := 3 }
  refine chooseCopy_pending ((pendingCopy_of_copies hcopies).trans h) ?_
  rw [markBad, fwCopy_setCopy_same, fwCopy_of_copies hcopies,
    ← fwCopy_of_copies hcopies, imageOk_of_fuses (hsvnBad.trans hsvn) (hrevBad.trans hrev), fwCopy_of_copies hcopies]
  exact hok

/-! Stage IMION (R402, R423, R429, R445). -/

/-- What the trust block and the memories are once stage IMION has begun. -/
def trustMem (s : State) : Trust × Memory := (s.trust, s.mem)

theorem trustMem_reconcile (s : State) : trustMem (reconcile s) = trustMem s := by
  simp [trustMem, reconcile]

theorem trustMem_restoreG (s : State) : trustMem (restoreG s) = trustMem s := by
  unfold restoreG
  dsimp only
  split <;> rfl

theorem trustMem_requestSetpoint (s : State) : trustMem (requestSetpoint s) = trustMem s := by
  unfold requestSetpoint
  dsimp only
  split <;> rfl

theorem trustMem_bootEntry (s : State) : trustMem (bootEntry s) = trustMem s := rfl

theorem newPair_leaves (s : State) : (newPair s).mem = s.mem ∧ (newPair s).trust.fusedSvn = s.trust.fusedSvn
    ∧ (newPair s).trust.generating = false := ⟨rfl, rfl, rfl⟩

/-- A low headroom noted leaves all but what notices change (R422). -/
theorem noticePart_noteMargin (s : State) : noticePart (noteMargin s) = noticePart s := by
  unfold noteMargin
  dsimp only
  split
  · rfl
  · exact (noticePart_postEvent _ _ _).trans rfl

/-- The device with its on-chip memories zeroed, its coffer's copies made one, and G and the setpoint restored. -/
def imionStarted (s : State) : State := requestSetpoint (restoreG (reconcile (s.onMem wipeMem)))

theorem trustMem_imionStarted (s : State) : trustMem (imionStarted s) = (s.trust, wipeMem s.mem) :=
  (trustMem_requestSetpoint _).trans ((trustMem_restoreG _).trans (trustMem_reconcile _))

/-- A state in stage MEMORY. -/
def inMemoryStage (s : State) : State := { s with pins := { s.pins with stage := 3 } }

theorem exec_stageImion_idle {s : State} (h : s.pins.stage ≠ 2) : exec .stageImion s = .next s :=
  congrArg Host.Outcome.next (if_pos h)

/-- Stage IMION draws a key pair, writes the BOOT entry, and goes on to stage MEMORY. -/
theorem exec_stageImion {s : State} (h : s.pins.stage = 2) : exec .stageImion s =
    .next (noteMargin (inMemoryStage (bootEntry (newPair (imionStarted s))))) := by
  have hgo : ¬ s.pins.stage ≠ 2 := by simp [h]
  unfold exec execStageImion
  rw [if_neg hgo]
  unfold imionStarted inMemoryStage
  rfl

/-- What stage IMION leaves of the trust block and the memories. -/
theorem imion_leaves (s : State) : (noteMargin (inMemoryStage (bootEntry (newPair (imionStarted s))))).mem = wipeMem s.mem
    ∧ (noteMargin (inMemoryStage (bootEntry (newPair (imionStarted s))))).trust.fusedSvn = s.trust.fusedSvn
    ∧ (noteMargin (inMemoryStage (bootEntry (newPair (imionStarted s))))).trust.generating = false
    ∧ (noteMargin (inMemoryStage (bootEntry (newPair (imionStarted s))))).pins.stage = 3 := by
  obtain ⟨htrust, hmem⟩ := Prod.mk.inj (trustMem_imionStarted s)
  obtain ⟨hpairMem, hpairSvn, hpairDone⟩ := newPair_leaves (imionStarted s)
  obtain ⟨hentryTrust, hentryMem⟩ := Prod.mk.inj (trustMem_bootEntry (newPair (imionStarted s)))
  generalize bootEntry (newPair (imionStarted s)) = b at hentryTrust hentryMem ⊢
  have hnotice := noticePart_noteMargin (inMemoryStage b)
  have htrustEnd : (noteMargin (inMemoryStage b)).trust = b.trust := (congrArg State.trust hnotice :)
  have hmemEnd : (noteMargin (inMemoryStage b)).mem = b.mem := (congrArg State.mem hnotice :)
  have hstage : (noteMargin (inMemoryStage b)).pins.stage = 3 := (congrArg (fun t : State => t.pins.stage) hnotice :)
  refine ⟨?_, ?_, ?_, hstage⟩
  · rw [hmemEnd, hentryMem, hpairMem, hmem]
  · rw [htrustEnd, hentryTrust, hpairSvn, htrust]
  · rw [htrustEnd, hentryTrust, hpairDone]

/-! Stage MEMORY (R300, R301). -/

/-- A trial that takes no more than 2 s, or none. -/
theorem not_trialLate {s : State} (h : s.pins.triedPending = false) :
    ¬ (s.pins.triedPending = true ∧ s.pins.imionAt + 2000000000 < s.now) := by
  simp [h]

theorem failMemory_stage (s : State) (ch : Nat) : (failMemory s ch).pins.stage = 9 ∧ (failMemory s ch).mem = s.mem := ⟨rfl, rfl⟩

/-- The rates are tried from the highest on. -/
theorem pairwise_ratesFrom (declared : Nat) : (ratesFrom declared).Pairwise (· > ·) :=
  List.Pairwise.filter _ (by decide)

theorem find?_eq_some_of_greatest {l : List Nat} (hl : l.Pairwise (· > ·)) {p : Nat → Bool} {r : Nat} (hr : r ∈ l)
    (hp : p r = true) (hmost : ∀ x, x ∈ l → r < x → p x = false) : l.find? p = some r := by
  induction l with
  | nil => cases hr
  | cons a l ih =>
    obtain ⟨ha, hl⟩ := List.pairwise_cons.mp hl
    rcases List.mem_cons.mp hr with rfl | hr
    · exact List.find?_cons_of_pos hp
    · rw [List.find?_cons_of_neg (by simp [hmost a List.mem_cons_self (ha r hr)])]
      exact ih hl hr fun x hx => hmost x (List.mem_cons_of_mem _ hx)

/-- What READY's events leave: posting them changes what notices change. -/
theorem noticePart_foldl_postEvent (l : List (Nat × List Byte)) (s : State) :
    noticePart (l.foldl (fun s e => postEvent s e.1 e.2) s) = noticePart s :=
  foldl_leaves (g := noticePart) (f := fun (s : State) (e : Nat × List Byte) => postEvent s e.1 e.2)
    (fun _ _ => noticePart_postEvent _ _ _) l s

/-- Links set training. -/
def trainLinks (s : State) (l : List Nat) : State := l.foldl (fun s l => s.onLink l (fun k => { k with state := 1 })) s

theorem trainLinks_pins (s : State) (l : List Nat) : (trainLinks s l).pins = s.pins :=
  foldl_leaves (g := State.pins) (f := fun (x : State) i => x.onLink i _) (fun _ _ => rfl) l s

theorem trainLinks_mem (s : State) (l : List Nat) : (trainLinks s l).mem = s.mem :=
  foldl_leaves (g := State.mem) (f := fun (x : State) i => x.onLink i _) (fun _ _ => rfl) l s

theorem state_trainLinks {l : List Nat} {i : Nat} (h : i ∈ l) (s : State) : ((trainLinks s l).link i).state = 1 := by
  induction l using List.reverseRecOn generalizing s with
  | nil => cases h
  | append_singleton l j ih =>
    have hlast : trainLinks s (l ++ [j]) = (trainLinks s l).onLink j (fun k => { k with state := 1 }) := by
      simp [trainLinks, List.foldl_append]
    rw [hlast]
    by_cases hij : i = j
    · subst hij
      rw [link_onLink_same]
    · rw [link_onLink_other hij]
      exact ih ((List.mem_append.mp h).resolve_right (by simpa using hij)) s

/-- The device in stage READY, the links that have their clock training. -/
def readied (s : State) : State := trainLinks { s with pins := { s.pins with stage := 4 } } (below 96 (linkClock s))

/-- READY without a copy on trial: the clocked links train and what boot kept is posted (R388, R438). -/
theorem enterReady_eq {s : State} (h : s.pins.triedPending = false) : enterReady s =
    (readied s).pins.bootEvents.foldl (fun s e => postEvent s e.1 e.2)
      { readied s with pins := { (readied s).pins with bootEvents := [] } } := by
  have htrial : trialGood (readied s) = readied s := if_pos (by simp [readied, trainLinks_pins, h])
  have hready : enterReady s = (trialGood (readied s)).pins.bootEvents.foldl (fun s e => postEvent s e.1 e.2)
      { trialGood (readied s) with pins := { (trialGood (readied s)).pins with bootEvents := [] } } := rfl
  rw [hready, htrial]

/-- Of a device without a copy on trial READY keeps the memories, and its clocked links train. -/
theorem enterReady_ready {s : State} (h : s.pins.triedPending = false) : (enterReady s).pins.stage = 4
    ∧ (enterReady s).mem = s.mem ∧ ∀ l, l < 96 → linkClock s l = true → ((enterReady s).link l).state = 1 := by
  have hnotice := noticePart_foldl_postEvent (readied s).pins.bootEvents
    { readied s with pins := { (readied s).pins with bootEvents := [] } }
  rw [← enterReady_eq h] at hnotice
  refine ⟨(congrArg (fun t : State => t.pins.stage) hnotice :).trans ?_, (congrArg State.mem hnotice :).trans ?_,
    fun l hl hclock => (congrArg (fun t : State => (t.link l).state) hnotice :).trans ?_⟩
  · exact congrArg Pins.stage (trainLinks_pins _ _)
  · exact trainLinks_mem _ _
  · exact state_trainLinks (mem_below.mpr ⟨hl, hclock⟩) _

section
variable {s : State} {declared : Nat} {un : List Nat} {fails : List (Nat × Nat)}

theorem exec_stageMemory_idle (h : s.pins.stage ≠ 3) : exec (.stageMemory declared un fails) s = .next s :=
  congrArg Host.Outcome.next (if_pos h)

theorem exec_stageMemory_late (h : s.pins.stage = 3) (htrial : s.pins.triedPending = true)
    (hlate : s.pins.imionAt + 2000000000 < s.now) : exec (.stageMemory declared un fails) s =
      .next { s with pins := { s.pins with stage := 1, triedPending := false, trialFailed := true } } :=
  congrArg Host.Outcome.next ((if_neg (by simp [h])).trans (if_pos ⟨htrial, hlate⟩))

theorem unsupported_none (hun : ∀ k, k < 24 → k ∉ un) : (below 24 (fun c => un.contains c)).head? = none := by
  rw [List.head?_eq_none_iff]
  refine List.filter_eq_nil_iff.mpr fun k hk => ?_
  simpa using hun k (List.mem_range.mp hk)

variable (h : s.pins.stage = 3) (htrial : s.pins.triedPending = false)
include h htrial

/-- A channel without a supported module fails the memory (R300, R439). -/
theorem exec_stageMemory_unsupported {k : Nat} (hk : k < 24) (hun : k ∈ un) :
    ∃ c, exec (.stageMemory declared un fails) s = .next (failMemory s c) := by
  have hmem : k ∈ below 24 (fun c => un.contains c) := mem_below.mpr ⟨hk, List.contains_iff_mem.mpr hun⟩
  obtain ⟨c, hc⟩ := Option.isSome_iff_exists.mp (List.isSome_head?.mpr (List.ne_nil_of_mem hmem))
  refine ⟨c, congrArg Host.Outcome.next ((if_neg (by simp [h])).trans ((if_neg (by simp [htrial])).trans ?_))⟩
  rw [hc]

variable (hun : ∀ k, k < 24 → k ∉ un)
include hun

/-- DDR is trained at a rate: READY begins, with what is to be posted of a rate below the declared one (R301). -/
theorem exec_stageMemory_trained {r : Nat} (hr : (ratesFrom declared).find? (fun r => (firstFail fails r).isNone) = some r) :
    ∃ evs, exec (.stageMemory declared un fails) s = .next (enterReady { s with
      mem := { s.mem with ddrRate := r }, pins := { s.pins with bootEvents := evs } }) := by
  refine ⟨if r < declared then s.pins.bootEvents ++ [(0x24, items [r, declared, (firstFail fails declared).getD 0])]
    else s.pins.bootEvents, congrArg Host.Outcome.next ((if_neg (by simp [h])).trans ((if_neg (by simp [htrial])).trans ?_))⟩
  rw [unsupported_none hun, hr]
  dsimp only
  split <;> rfl

theorem exec_stageMemory_noRate (hr : (ratesFrom declared).find? (fun r => (firstFail fails r).isNone) = none) :
    exec (.stageMemory declared un fails) s = .next (failMemory s ((firstFail fails 6400).getD 0)) := by
  refine congrArg Host.Outcome.next ((if_neg (by simp [h])).trans ((if_neg (by simp [htrial])).trans ?_))
  rw [unsupported_none hun, hr]

end

/-- Settles O58: stage ROM by the copies it finds, stage IMION by what it leaves of memories and trust block, stage MEMORY by the
rates that pass. -/
theorem bootStages : Obligations.BootStages := by
  unfold Obligations.BootStages
  dsimp only
  refine fun s => ⟨exec_stageRom_idle, fun h hnone hgood hok => ?preferred, fun h _ hA hB => ?none, fun k h hpend hok => ?pending,
    exec_stageImion_idle, fun h => ?imion, fun declared un fails => ⟨exec_stageMemory_idle, exec_stageMemory_late,
      fun h htrial hsome => ?unsupported, fun r h htrial hun hr hpass hmost => ?trained, fun h htrial hall => ?noRate⟩⟩
  case preferred =>
    obtain ⟨hle, hin, hno⟩ := restoreIndex_next s
    rw [exec_stageRom h, chooseCopy_restoreIndex_preferred hnone hgood hok]
    refine ⟨_, rfl, rfl, rfl, ?_, ?_, hle, hin, hno, ?_⟩
    · simp [runCopy, (copiesOf_eq_iff.mp (copiesOf_restoreIndex s)).2.2.1]
    · simp [runCopy, fwCopy_of_copies (copiesOf_restoreIndex s)]
    · unfold runCopy
      rw [restoreIndex_eq]
  case none =>
    rw [exec_stageRom h, chooseCopy_restoreIndex_none hA hB]
    exact ⟨_, rfl, rfl, by rw [restoreIndex_eq]⟩
  case pending =>
    rw [exec_stageRom h, chooseCopy_restoreIndex_pending hpend hok]
    refine ⟨_, rfl, rfl, rfl, ?_, rfl⟩
    exact congrArg FwCopy.state (fwCopy_setCopy_same (restoreIndex s) k _)
  case imion =>
    obtain ⟨hmem, hsvn, hdrawn, hstage⟩ := imion_leaves s
    refine ⟨_, exec_stageImion h, hstage, ?_⟩
    rw [hmem]
    exact ⟨rfl, rfl, rfl, rfl, rfl, rfl, hdrawn, hsvn⟩
  case unsupported =>
    obtain ⟨k, hk, hun⟩ := hsome
    obtain ⟨c, hc⟩ := exec_stageMemory_unsupported (declared := declared) (fails := fails) h htrial hk hun
    exact ⟨_, hc, failMemory_stage s c⟩
  case trained =>
    have hfind : (ratesFrom declared).find? (fun r => (firstFail fails r).isNone) = some r :=
      find?_eq_some_of_greatest (pairwise_ratesFrom declared) hr (by simp [hpass])
        fun x hx hlt => by simpa [Option.isSome_iff_ne_none] using hmost x hx hlt
    obtain ⟨evs, hexec⟩ := exec_stageMemory_trained (un := un) h htrial hun hfind
    obtain ⟨hstage, hmem, hlinks⟩ := enterReady_ready (s := { s with
      mem := { s.mem with ddrRate := r }, pins := { s.pins with bootEvents := evs } }) htrial
    exact ⟨_, hexec, hstage, congrArg Memory.ddrRate hmem, hlinks⟩
  case noRate =>
    by_cases hsome : ∃ k, k < 24 ∧ k ∈ un
    · obtain ⟨k, hk, hun⟩ := hsome
      obtain ⟨c, hc⟩ := exec_stageMemory_unsupported (declared := declared) (fails := fails) h htrial hk hun
      exact ⟨_, hc, failMemory_stage s c⟩
    · have hun : ∀ k, k < 24 → k ∉ un := fun k hk hin => hsome ⟨k, hk, hin⟩
      refine ⟨_, exec_stageMemory_noRate h htrial hun ?_, failMemory_stage s _⟩
      exact List.find?_eq_none.mpr fun x hx => by simpa using hall x hx

end Sys2Proof.Machine
end

section
/-!
SUPPORT. What sending to a host leaves of its queue pair (R325, R326), what the failure of a queue pair does (R335, R369), and
completions in the ring (R332, R333).
-/

namespace Sys2Proof.Machine

/-! Sending to a host. -/

@[simp] theorem txMsg_qps (s : State) (q : Nat) (o : Out) : (txMsg s q o).qps = s.qps := by
  unfold txMsg
  dsimp only
  split
  · rfl
  · simp only [apply_ite State.qps, bump_qps, ite_self, State.onPort, State.setPort, State.emit]

@[simp] theorem qp_txMsg (s : State) (q : Nat) (o : Out) (r : Nat) : (txMsg s q o).qp r = s.qp r :=
  congrArg (look r) (txMsg_qps s q o)

/-- A queue pair without what sending changes of it. -/
def Qp.unsent (v : Qp) : Qp := { v with sendQ := [], npsn := 0, unacked := [], sentAt := 0 }

theorem qp_pumpQp_same (n : Nat) (s : State) (q : Nat) : ((pumpQp n s q).qp q).map Qp.unsent = (s.qp q).map Qp.unsent := by
  induction n generalizing s with
  | zero => rfl
  | succ n ih =>
    unfold pumpQp
    split
    case h_1 h => rfl
    case h_2 v h =>
      split
      · rfl
      · split
        · rfl
        · rw [ih, qp_txMsg, qp_setQp_same, h]
          rfl

theorem qp_pumpQp_other {q r : Nat} (h : r ≠ q) (n : Nat) (s : State) : (pumpQp n s q).qp r = s.qp r := by
  induction n generalizing s with
  | zero => rfl
  | succ n ih =>
    unfold pumpQp
    split
    · rfl
    · split
      · rfl
      · split
        · rfl
        · rw [ih, qp_txMsg, qp_setQp_other h]

theorem qp_roce_same (s : State) (q : Nat) (o : Out) : ((roce s q o).qp q).map Qp.unsent = (s.qp q).map Qp.unsent := by
  unfold roce
  split
  case h_1 => rfl
  case h_2 v h =>
    split
    · rfl
    · rw [qp_pumpQp_same, qp_setQp_same, h]
      rfl

theorem qp_roce_other {q r : Nat} (h : r ≠ q) (s : State) (o : Out) : (roce s q o).qp r = s.qp r := by
  unfold roce
  split
  · rfl
  · split
    · rfl
    · rw [qp_pumpQp_other h, qp_setQp_other h]

/-- A message to the host of a queue pair leaves the queue pair in use, and all of it but what waits to be acknowledged. -/
theorem exists_qp_roce {s : State} {q : Nat} {v : Qp} (h : s.qp q = some v) (o : Out) :
    ∃ w, (roce s q o).qp q = some w ∧ w.unsent = v.unsent := by
  have hsame := qp_roce_same s q o
  rw [h, Option.map_some, Option.map_eq_some_iff] at hsame
  exact hsame

@[simp] theorem issuePart_roce (s : State) (q : Nat) (o : Out) : issuePart (roce s q o) = issuePart s := by
  unfold roce
  split
  · rfl
  · split <;> simp

/-! Completions in the ring. -/

theorem length_completionBytes (c : Completion) : (completionBytes c).length = 64 := by
  simp [completionBytes]

theorem readIndex_leaves (s : State) (q : Nat) (v : Qp) : issuePart (readIndex s q v) = issuePart s := by
  unfold readIndex
  split <;> simp

theorem exists_qp_readIndex {s : State} {q : Nat} {v : Qp} (h : s.qp q = some v) :
    ∃ w, (readIndex s q v).qp q = some w ∧ w.producer = v.producer ∧ w.waiting = v.waiting := by
  unfold readIndex
  split
  · obtain ⟨w, hw, hsame⟩ := exists_qp_roce (qp_setQp_same s q { v with lastIndexRead := s.now })
      { kind := 1, dest := q, addr := v.cqAddr + 64 * v.cqEntries, rkey := v.cqRkey, data := leBytes 4 4 }
    exact ⟨w, hw, (congrArg Qp.producer hsame :), (congrArg Qp.waiting hsame :)⟩
  · exact ⟨v, h, rfl, rfl⟩

section
variable {s : State} {q : Nat} {v : Qp} (hv : s.qp q = some v)
include hv

theorem heard_of_sak (h : noSak s v.subport = false) (f : State → State) : heard s q f = f s := by
  simp [heard, hv, h]

theorem heard_of_noSak (h : noSak s v.subport = true) (f : State → State) :
    heard s q f = s.bump Ctr.macsecDrops v.subport 1 := by
  simp [heard, hv, h]

theorem exec_completionWrite_of_none (h : v.waiting = []) : exec (.completionWrite q) s = .next s := by
  refine congrArg Host.Outcome.next ?_
  simp only [hv, h]

variable {x : Completion} {rest : List Completion} (hphase : v.phase = 1) (hw : v.waiting = x :: rest)
  (hrun : s.health.imionStopped = false) (hstage : s.pins.stage = 4)
include hphase hw hrun hstage

theorem exec_completionWrite_of_room (hroom : ringFill v < v.cqEntries) :
    exec (.completionWrite q) s =
      .next (roce (s.setQp q { v with producer := (v.producer + 1) % 2 ^ 32, waiting := rest }) q
        { kind := if v.modeImm then 14 else 0, dest := q, addr := v.cqAddr + 64 * (v.producer % v.cqEntries)
          rkey := v.cqRkey
          data := if v.modeImm then leBytes 4 v.producer ++ completionBytes x else completionBytes x }) := by
  refine congrArg Host.Outcome.next ?_
  simp only [hv, hw, hphase, hrun, hstage, hroom]
  simp

theorem exec_completionWrite_of_full (hfull : v.cqEntries ≤ ringFill v) :
    exec (.completionWrite q) s = .next (readIndex
      ((if x.counted then s else s.bump Ctr.cqFullWaits q 1).setQp q { v with waiting := { x with counted := true } :: rest })
      q { v with waiting := { x with counted := true } :: rest }) := by
  refine congrArg Host.Outcome.next ?_
  simp only [hv, hw, hphase, hrun, hstage, Nat.not_lt.mpr hfull]
  simp

end

theorem exec_consumerIndexRead_of_live {s : State} {q : Nat} {v : Qp} (hv : s.qp q = some v) (hphase : v.phase ≠ 3)
    (h : noSak s v.subport = false) (c : Nat) :
    exec (.consumerIndexRead q c) s = .next (s.setQp q { v with consumer := c % 2 ^ 32 }) := by
  refine congrArg Host.Outcome.next ?_
  rw [heard_of_sak hv h]
  simp [State.onQp, hv, hphase]

/-- Settles O20: the ring with room, the ring full, nothing waiting, and the index read. -/
theorem completionsFillTheRing : Obligations.CompletionsFillTheRing := by
  unfold Obligations.CompletionsFillTheRing
  intro s q c v hv hphase
  refine ⟨fun x rest hw hrun hstage hroom => ⟨exec_completionWrite_of_room hv hphase hw hrun hstage hroom,
    length_completionBytes x⟩, fun x rest hw hrun hstage hfull => ?_, exec_completionWrite_of_none hv,
    fun h => exec_consumerIndexRead_of_live hv (by omega) h c⟩
  have hexec := exec_completionWrite_of_full hv hphase hw hrun hstage hfull
  generalize hcounted : (if x.counted then s else s.bump Ctr.cqFullWaits q 1) = t at hexec
  have horders : t.orders = s.orders := by rw [← hcounted, apply_ite State.orders]; simp
  have hmem : t.mem = s.mem := by rw [← hcounted, apply_ite State.mem]; simp
  have hleaves := readIndex_leaves (t.setQp q { v with waiting := { x with counted := true } :: rest }) q
    { v with waiting := { x with counted := true } :: rest }
  obtain ⟨w, hqp, hproducer, hwaiting⟩ := exists_qp_readIndex (qp_setQp_same t q { v with waiting := { x with counted := true } :: rest })
  exact ⟨_, w, hexec, hqp, hproducer, hwaiting, (congrArg State.orders hleaves :).trans horders,
    (congrArg State.mem hleaves :).trans hmem⟩

/-! The failure of a queue pair. -/

section
variable {s : State} {q : Nat} {v : Qp} (hv : s.qp q = some v) (hphase : v.phase = 3)
include hv hphase

/-- Nothing is handed to a queue pair that has failed. -/
theorem qp_deliver_of_failed (r : Nat) (c : Completion) : (deliver s r c).qp q = some v := by
  by_cases hr : q = r
  · subst hr
    rw [qp_deliver_same hv, Qp.withWaiting, if_pos hphase]
  · rw [qp_deliver_other hr, hv]

theorem qp_complete_of_failed (o : Order) (st : BitVec 8) (d : List Byte) : (complete s o st d).qp q = some v := by
  by_cases hheld : held s o = true
  · exact (congrArg (State.qp · q) (if_pos hheld)).trans hv
  · rw [complete_of_not_held (by simpa using hheld)]
    refine qp_deliver_of_failed ?_ hphase _ _
    exact (congrArg (look q) (countEnd_qps (withoutOrder s o) o.code st)).trans hv

theorem qp_endCommit_of_failed (st : BitVec 8) (rank keys beat : Nat) : (endCommit s st rank keys beat).qp q = some v := by
  unfold endCommit
  dsimp only
  split
  · exact hv
  · split
    · exact qp_complete_of_failed (s := { s with txn := { s.txn with order := none } }) hv hphase _ _ _
    · exact hv

theorem qp_rollback_of_failed (st : BitVec 8) : (rollback s st).qp q = some v :=
  qp_endCommit_of_failed hv hphase st 0xFFFF 0 0

theorem qp_deliverEvent_of_failed (c : Completion) : (deliverEvent s c).qp q = some v := by
  refine List.foldlRecOn (motive := fun t : State => t.qp q = some v) s.qps (eventTo c) hv ?_
  intro t ht p _
  unfold eventTo
  split
  · rw [bump_qp, qp_deliver_of_failed ht hphase]
  · exact ht

theorem qp_postEvent_of_failed (code : Nat) (d : List Byte) : (postEvent s code d).qp q = some v := by
  unfold postEvent
  dsimp only
  split
  · exact hv
  · exact qp_deliverEvent_of_failed (s := cofferAdd s (0x0100 + code) (eventPart code) d) hv hphase _

end

/-- A queue pair that has failed (R335). -/
def Qp.failed (v : Qp) : Qp :=
  { v with phase := 3, waiting := [], mailboxCount := 0, unacked := [], sendQ := [], disconnectAt := none, partialWrite := none }

/-- The state in which a queue pair has failed and given up its mailboxes, before its transaction is rolled back. -/
def qpFailed (s : State) (q : Nat) (v : Qp) : State :=
  { (((s.setQp q v.failed).bump Ctr.completionsDropped q v.waiting.length).bump Ctr.qpErrors v.subport 1) with
    mailboxes := s.mailboxes.filter (fun m => m.2.qp != some q) }

/-- The transaction of a queue pair that fails: rolled back, unless it is another's or decided by its group (R369). -/
def failTxn (s : State) (q : Nat) : State :=
  if s.txn.state ≠ 0 ∧ s.txn.owner = q ∧ !(s.txn.state = 2 ∧ s.txn.group) then rollback s eCancelled else s

theorem qp_qpFailed (s : State) (q : Nat) (v : Qp) : (qpFailed s q v).qp q = some v.failed := by
  have hset := qp_setQp_same s q v.failed
  unfold qpFailed
  exact (((bump_qp _ _ _ _ _).trans (bump_qp _ _ _ _ _)).trans hset :)

theorem qp_failTxn_of_failed {s : State} {q : Nat} {v : Qp} (hv : s.qp q = some v) (hphase : v.phase = 3) (r : Nat) :
    (failTxn s r).qp q = some v := by
  unfold failTxn
  split
  · exact qp_rollback_of_failed hv hphase _
  · exact hv

section
variable {s : State} {q : Nat} {v : Qp} (hv : s.qp q = some v) (hphase : v.phase ≠ 3)
include hv hphase

/-- A queue pair fails: it, its transaction, and the event QP_FAILED. -/
theorem qpError_eq (cause : Nat) : qpError s q cause = postEvent (failTxn (qpFailed s q v) q) 0x33 (items [q, cause]) := by
  simp only [qpError, hv, if_neg hphase, failTxn, qpFailed, Qp.failed, bump_mailboxes]
  rfl

theorem qp_qpError_same (cause : Nat) : (qpError s q cause).qp q = some v.failed := by
  rw [qpError_eq hv hphase]
  exact qp_postEvent_of_failed (qp_failTxn_of_failed (qp_qpFailed s q v) rfl q) rfl _ _

end

end Sys2Proof.Machine
end

section
/-!
SUPPORT. The order window and taking orders (R330, R331, R348 to R351).
-/

namespace Sys2Proof.Machine

/-! Writes into the window. -/

section
variable {s : State} {q : Nat} {v : Qp} (hv : s.qp q = some v) (hphase : v.phase = 1) (hsak : noSak s v.subport = false)
  {addr rkey : Nat} {d : List Byte}

/-- What R330 asks of a write into the window. -/
theorem windowOk_iff (hphase : v.phase = 1) : windowOk v addr rkey d.length = true ↔
    rkey = v.windowRkey ∧ v.windowVa ≤ addr ∧ (addr - v.windowVa) % 256 = 0 ∧ 1 ≤ d.length ∧ d.length % 256 = 0
      ∧ addr - v.windowVa + d.length ≤ 4096 * v.mailboxCount := by
  simp [windowOk, hphase, and_assoc]

include hv hphase hsak

theorem exec_orderWindowWrite_inside (h : windowOk v addr rkey d.length = true) :
    exec (.orderWindowWrite q addr rkey d) s = .next (windowPut s v addr d) := by
  refine congrArg Host.Outcome.next ?_
  rw [heard_of_sak hv hsak]
  simp [hv, hphase, h]

theorem exec_orderWindowWrite_outside (h : ¬ windowOk v addr rkey d.length = true) :
    exec (.orderWindowWrite q addr rkey d) s = .next (nakQp s q 2) := by
  refine congrArg Host.Outcome.next ?_
  rw [heard_of_sak hv hsak]
  simp [hv, hphase, h]

end

/-- What the failure of a queue pair leaves of the memories. -/
theorem qpError_mem (s : State) (q cause : Nat) : (qpError s q cause).mem = s.mem :=
  (congrArg (fun p => p.2.1) (commitPart_qpError s q cause) :)

theorem nakQp_mem (s : State) (q : Nat) (why : Byte) : (nakQp s q why).mem = s.mem :=
  (qpError_mem _ _ _).trans (congrArg State.mem (issuePart_txMsg s q _) :)

/-- A queue pair that is answered by a NAK has failed (R325). -/
theorem qp_nakQp {s : State} {q : Nat} {v : Qp} (hv : s.qp q = some v) (hphase : v.phase ≠ 3) (why : Byte) :
    (nakQp s q why).qp q = some v.failed :=
  qp_qpError_same ((qp_txMsg s q _ q).trans hv) hphase 1

/-! Orders in the head slot of a mailbox. -/

section
variable {s : State} {m q : Nat} {v : Qp} (hb : (s.mailbox m).qp = some q) (hv : s.qp q = some v)

/-- Imion may look at a mailbox's head slot: it takes orders, and the queue pair holds fewer than 1,024 completions. -/
def Takes (s : State) (v : Qp) : Prop := s.pins.stage = 4 ∧ s.health.imionStopped = false ∧ v.waiting.length < 1024

/-- The number in the head slot of a mailbox. -/
def headNumber (s : State) (m : Nat) : Nat := field (headRecord s m) 0 4

/-- The code in the head slot of a mailbox. -/
def headCode (s : State) (m : Nat) : Nat := field (headRecord s m) 4 1

/-- The order in the head slot of a mailbox. -/
def headOrder (s : State) (m q : Nat) : Order := { mailbox := m, number := headNumber s m, qp := q, bytes := headRecord s m }

/-- The state in which the order in the head slot has been taken (R349). -/
def withTaken (s : State) (m q : Nat) : State :=
  State.bump { s.setMailbox m { s.mailbox m with
      head := ((s.mailbox m).head + 1) % 16, expected := nextNumber (headNumber s m), faulted := false } with
    orders := s.orders ++ [headOrder s m q] } Ctr.ordersTaken 0 1

/-- The state in which a wrong number stands in a mailbox and is counted (R350). -/
def withSeqFault (s : State) (m : Nat) : State :=
  ((s.setMailbox m { s.mailbox m with faulted := true }).bump Ctr.mailboxSeqFaults 0 1).bump Ctr.ordersRefused 0 1

/-- The completion of a wrong number (R350). -/
def seqFaultRecord (s : State) (m : Nat) : Completion :=
  { tag := field (headRecord s m) 8 8, number := headNumber s m, code := headCode s m, status := ePlan, mailbox := m
    beat := s.beat.number, detail := slice (checkDetail 0x4F 1 0) 0 40 }

include hb hv

theorem takeHead_of_untaken (h : headNumber s m = 0 ∨ headNumber s m = back16 (s.mailbox m).expected) : takeHead s m = s := by
  unfold headNumber at h
  simp [takeHead, hb, hv, h]

variable (htakes : Takes s v)

theorem takeHead_of_fault_stands (hne : headNumber s m ≠ (s.mailbox m).expected) (hf : (s.mailbox m).faulted = true) :
    takeHead s m = s := by
  unfold headNumber at hne
  simp [takeHead, hb, hv, hne, hf]

theorem takeHead_of_runs_full (heq : headNumber s m = (s.mailbox m).expected) (hcode : headCode s m = 0x04)
    (hfull : 256 ≤ runsHeld s) : takeHead s m = s := by
  unfold headNumber at heq
  unfold headCode at hcode
  simp [takeHead, hb, hv, heq, hcode, hfull]

include htakes
variable (h0 : headNumber s m ≠ 0) (h16 : headNumber s m ≠ back16 (s.mailbox m).expected)
include h0 h16

theorem takeHead_of_wrong_number (hne : headNumber s m ≠ (s.mailbox m).expected) (hf : (s.mailbox m).faulted = false) :
    takeHead s m = deliver (withSeqFault s m) q (seqFaultRecord s m) := by
  obtain ⟨hstage, hrun, hroom⟩ := htakes
  unfold headNumber at h0 h16 hne
  simp [takeHead, imionTakes, hb, hv, hstage, hrun, Nat.not_le.mpr hroom, h0, h16, hne, hf, withSeqFault, seqFaultRecord,
    headNumber, headCode]

theorem takeHead_of_expected (heq : headNumber s m = (s.mailbox m).expected)
    (hruns : headCode s m = 0x04 → runsHeld s < 256) : takeHead s m =
      if headCode s m = 0 ∨ 0x14 < headCode s m then refuse (withTaken s m q) (headOrder s m q) ePlan 0x4F 1 0
      else withTaken s m q := by
  obtain ⟨hstage, hrun, hroom⟩ := htakes
  have hnotFull : ¬ (headCode s m = 0x04 ∧ 256 ≤ runsHeld s) := by omega
  unfold headNumber at h0 h16 heq
  unfold headCode at hnotFull
  simp [takeHead, imionTakes, hb, hv, hstage, hrun, Nat.not_le.mpr hroom, h0, h16, eq_true heq, hnotFull, withTaken, headOrder,
    headNumber, headCode, Order.code]

end

/-! What taking an order leaves. -/

/-- The fields that taking an order changes. -/
theorem withTaken_frame (s : State) (m q : Nat) : withTaken s m q =
    { s with orders := s.orders ++ [headOrder s m q], counters := (withTaken s m q).counters
             mailboxes := put m { s.mailbox m with
               head := ((s.mailbox m).head + 1) % 16, expected := nextNumber (headNumber s m), faulted := false } s.mailboxes } :=
  bump_frame _ _ _ _

theorem mailbox_withTaken_same (s : State) (m q : Nat) : (withTaken s m q).mailbox m = { s.mailbox m with
    head := ((s.mailbox m).head + 1) % 16, expected := nextNumber (headNumber s m), faulted := false } := by
  rw [withTaken_frame]
  simp [State.mailbox]

theorem mailbox_withTaken_other {m x : Nat} (h : x ≠ m) (s : State) (q : Nat) : (withTaken s m q).mailbox x = s.mailbox x := by
  rw [withTaken_frame]
  simp [State.mailbox, look_put_other h]

@[simp] theorem withTaken_qp (s : State) (m q r : Nat) : (withTaken s m q).qp r = s.qp r := by rw [withTaken_frame]; rfl

@[simp] theorem withTaken_trust (s : State) (m q : Nat) : (withTaken s m q).trust = s.trust := by rw [withTaken_frame]

/-- A completion changes no mailbox. -/
theorem mailbox_complete (s : State) (o : Order) (st : BitVec 8) (d : List Byte) (m : Nat) :
    (complete s o st d).mailbox m = s.mailbox m := by
  rw [complete_eq]
  rfl

theorem mailbox_deliver (s : State) (q : Nat) (c : Completion) (m : Nat) : (deliver s q c).mailbox m = s.mailbox m := by
  rw [deliver_frame]
  rfl

theorem mailbox_withSeqFault (s : State) (m : Nat) : (withSeqFault s m).mailbox m = { s.mailbox m with faulted := true } := by
  have hset : (s.setMailbox m { s.mailbox m with faulted := true }).mailbox m = { s.mailbox m with faulted := true } := by
    simp [State.mailbox, State.setMailbox]
  exact (congrArg (fun l : List (Nat × Mailbox) => (look m l).getD {}) ((bump_mailboxes _ _ _ _).trans (bump_mailboxes _ _ _ _))).trans hset

theorem withSeqFault_orders (s : State) (m : Nat) : (withSeqFault s m).orders = s.orders :=
  (bump_orders _ _ _ _).trans (bump_orders _ _ _ _)

theorem withSeqFault_qp (s : State) (m q : Nat) : (withSeqFault s m).qp q = s.qp q :=
  (bump_qp _ _ _ _ _).trans (bump_qp _ _ _ _ _)

/-- With no session closing no order's completion is held. -/
theorem held_of_none_closing {s : State} (h : s.trust.closeStatus = []) (o : Order) : held s o = false := by
  simp [held, h]

/-- A queue pair that has not failed takes what is handed to it. -/
theorem Qp.withWaiting_of_live {v : Qp} (h : v.phase = 1) (c : Completion) :
    v.withWaiting c = { v with waiting := v.waiting ++ [c] } :=
  if_neg (by omega)

/-- A check's detail fills 8 bytes of the record's 40. -/
theorem slice_checkDetail (letter check index : Nat) :
    slice (checkDetail letter check index) 0 40 = checkDetail letter check index ++ List.replicate 32 0 := by
  have hlen : (checkDetail letter check index).length = 8 := by simp [checkDetail]
  simp [slice, hlen, List.take_of_length_le]

/-- Settles O18: writes into the window, the head slot's cases, and the sweep as a chain of them. -/
theorem orderWindow : Obligations.OrderWindow := by
  unfold Obligations.OrderWindow
  dsimp only
  refine ⟨fun s q addr rkey d v hv hphase hsak hwf => ⟨fun h => ?_, fun h => ?_⟩, fun s q addr rkey d v hv hsak =>
    congrArg Host.Outcome.next (heard_of_noSak hv hsak _), fun s m q v hb hv hphase hstage hrun hroom =>
      ⟨fun h => congrArg Host.Outcome.next (takeHead_of_untaken hb hv h), fun h0 h16 heq h1 h20 hruns => ?_,
        fun h0 h16 heq hcode hclose => ?_, fun hcode heq hfull => congrArg Host.Outcome.next (takeHead_of_runs_full hb hv heq hcode hfull),
        fun h0 h16 hne hf => ?_, fun hne hf => congrArg Host.Outcome.next (takeHead_of_fault_stands hb hv hne hf)⟩, fun s => ?_⟩
  case refine_1 =>
    refine ⟨_, exec_orderWindowWrite_inside hv hphase hsak ((windowOk_iff hphase).mpr h), fun i hi => ?_, fun x hx => ?_, rfl⟩
    · exact (memGet_memWrite_inside hi hwf).trans (List.getElem_eq_getD 0)
    · exact memGet_memWrite_outside hx _
  case refine_2 =>
    exact ⟨_, v.failed, exec_orderWindowWrite_outside hv hphase hsak (fun h' => h ((windowOk_iff hphase).mp h')),
      congrArg Memory.window (nakQp_mem s q 2), qp_nakQp hv (by omega) 2, rfl⟩
  case refine_3 =>
    have htake := takeHead_of_expected hb hv ⟨hstage, hrun, hroom⟩ h0 h16 heq hruns
    rw [if_neg (show ¬ (headCode s m = 0 ∨ 0x14 < headCode s m) from fun h => by unfold headCode headRecord at h; omega)] at htake
    exact ⟨_, congrArg Host.Outcome.next htake, (congrArg State.orders (withTaken_frame s m q) :), mailbox_withTaken_same s m q,
      fun x hx => mailbox_withTaken_other hx s q, by rw [withTaken_frame]⟩
  case refine_4 =>
    have hruns : headCode s m = 0x04 → runsHeld s < 256 := fun h => by unfold headCode headRecord at h; omega
    have htake := takeHead_of_expected hb hv ⟨hstage, hrun, hroom⟩ h0 h16 heq hruns
    rw [if_pos (show headCode s m = 0 ∨ 0x14 < headCode s m from hcode)] at htake
    refine ⟨_, finalRecord (withTaken s m q) (headOrder s m q) ePlan (checkDetail 0x4F 1 0), congrArg Host.Outcome.next htake,
      ?_, ?_, rfl, rfl, ?_⟩
    · exact (congrArg Mailbox.head ((mailbox_complete _ _ _ _ m).trans (mailbox_withTaken_same s m q)) :)
    · have hheld := held_of_none_closing ((congrArg Trust.closeStatus (withTaken_trust s m q)).trans hclose) (headOrder s m q)
      exact (qp_complete_same hheld ePlan _ ((withTaken_qp s m q q).trans hv)).trans
        (congrArg some (Qp.withWaiting_of_live hphase _))
    · exact slice_checkDetail 0x4F 1 0
  case refine_5 =>
    have htake := takeHead_of_wrong_number hb hv ⟨hstage, hrun, hroom⟩ h0 h16 hne hf
    refine ⟨_, seqFaultRecord s m, congrArg Host.Outcome.next htake, ?_, ?_, ?_, rfl, rfl, rfl, rfl, rfl⟩
    · exact (mailbox_deliver _ _ _ m).trans (mailbox_withSeqFault s m)
    · exact (deliver_orders _ _ _).trans (withSeqFault_orders s m)
    · exact (qp_deliver_same ((withSeqFault_qp s m q).trans hv) _).trans (congrArg some (Qp.withWaiting_of_live hphase _))
  case refine_6 =>
    refine ⟨_, rfl, fun m => (List.range m).foldl takeHead s, rfl, rfl, fun m _ => ?_⟩
    dsimp only
    rw [List.range_succ, List.foldl_append]
    rfl

end Sys2Proof.Machine
end

section
/-!
SUPPORT. Queue pairs created, granted mailboxes and ended (R327, R329, R335, R369).
-/

namespace Sys2Proof.Machine

/-! A free number. -/

/-- A search through the numbers below n from one of them finds a free one, or has passed as many used ones as it may. -/
theorem freeFrom_or {n : Nat} {used : List Nat} (k c : Nat) (hc : c < n) :
    freeFrom 0 n used k c < n ∧ (freeFrom 0 n used k c ∉ used ∨ ∀ i < k, (c + i) % n ∈ used) := by
  induction k generalizing c with
  | zero => exact ⟨hc, .inr fun i hi => absurd hi (Nat.not_lt_zero i)⟩
  | succ k ih =>
    unfold freeFrom
    split
    case isTrue hused =>
      rw [List.contains_iff_mem] at hused
      have hnext : 0 + (c + 1 - 0) % n < n := (Nat.zero_add _).symm ▸ Nat.mod_lt _ (by omega)
      obtain ⟨hlt, hfree⟩ := ih _ hnext
      refine ⟨hlt, hfree.imp id fun hpassed i hi => ?_⟩
      cases i with
      | zero => rwa [Nat.add_zero, Nat.mod_eq_of_lt hc]
      | succ i =>
        have h := hpassed i (by omega)
        rwa [Nat.zero_add, Nat.sub_zero, Nat.mod_add_mod, Nat.add_right_comm] at h
    case isFalse hfree => exact ⟨hc, .inl (by simpa using hfree)⟩

/-- With fewer numbers used than there are, the search finds a free one. -/
theorem freeFrom_free {n : Nat} {used : List Nat} (hused : used.length < n) {c : Nat} (hc : c < n) :
    freeFrom 0 n used n c < n ∧ freeFrom 0 n used n c ∉ used := by
  obtain ⟨hlt, hfree⟩ := freeFrom_or (used := used) n c hc
  refine ⟨hlt, hfree.resolve_right fun hall => ?_⟩
  have hsub : List.range n ⊆ used := fun x hx => by
    have hx' : x < n := List.mem_range.mp hx
    have h := hall ((x + (n - c)) % n) (Nat.mod_lt _ (by omega))
    rwa [Nat.add_mod_mod, show c + (x + (n - c)) = x + n by omega, Nat.add_mod_right, Nat.mod_eq_of_lt hx'] at h
  have hlen := (List.subperm_of_subset List.nodup_range hsub).length_le
  rw [List.length_range] at hlen
  omega

/-! Connections. -/

section
variable {s : State} {u : Nat} (hup : (s.port u).up = true) (hip : portIp s u = true) (hsak : noSak s u = false)

/-- The number of a new queue pair. -/
def newQp (s : State) : Nat := freeFrom 0 4096 (qpsUsed s) 4096 (Config.qpnHint s.free % 4096)

/-- A queue pair as it is created (R327). -/
def createdQp (s : State) (u psn mtu : Nat) : Qp :=
  { subport := u, epsn := psn % 2 ^ 24, npsn := psn % 2 ^ 24, mtu := mtu, rate := lineRate s u, target := lineRate s u }

/-- The state in which a queue pair has been created and its number sent (R327). -/
def withCreated (s : State) (u psn mtu : Nat) : State :=
  ((((s.draw.setQp (newQp s) (createdQp s u psn mtu)).zeroCounter Ctr.cqFullWaits (newQp s)).zeroCounter
    Ctr.completionsDropped (newQp s)).emit { kind := 13, dest := u, addr := 0, data := leBytes 4 (newQp s) })

theorem newQp_free (h : (qpsUsed s).length < 4096) : newQp s < 4096 ∧ newQp s ∉ qpsUsed s :=
  freeFrom_free h (Nat.mod_lt _ (by decide))

/-- A counter set to zero reads 0, and stays so when another is. -/
theorem counter_zeroCounter_same (s : State) (k : Nat × Nat) (u : Nat) : (s.zeroCounter k u).counter k u = 0 := by
  simp [State.counter, State.zeroCounter, look_erase_same]

theorem counter_zeroCounter_of_zero {k : Nat × Nat} {u : Nat} (h : s.counter k u = 0) (j : Nat × Nat) (v : Nat) :
    (s.zeroCounter j v).counter k u = 0 := by
  by_cases hplace : ctrPlace k u = ctrPlace j v
  · exact (congrArg (fun p => (look p (s.zeroCounter j v).counters).getD 0) hplace).trans (counter_zeroCounter_same s j v)
  · exact (congrArg (Option.getD · 0) (look_erase_other hplace s.counters)).trans h

include hup hip hsak

theorem exec_connectionReq_of_full (h : 4096 ≤ (qpsUsed s).length) (service psn mtu : Nat) :
    exec (.connectionReq u service psn mtu) s = .next (s.emit { kind := 13, dest := u, addr := 1 }) := by
  refine congrArg Host.Outcome.next ?_
  simp [hup, hip, hsak, h]

theorem exec_connectionReq_of_other_service (h : (qpsUsed s).length < 4096) {service : Nat} (hservice : service ≠ 0x010612C1)
    (psn mtu : Nat) : exec (.connectionReq u service psn mtu) s = .next (s.emit { kind := 13, dest := u, addr := 2 }) := by
  refine congrArg Host.Outcome.next ?_
  simp [hup, hip, hsak, Nat.not_le.mpr h, hservice]

theorem exec_connectionReq_of_other_mtu (h : (qpsUsed s).length < 4096) {mtu : Nat} (hmtu : mtu ∉ [1024, 2048, 4096])
    (psn : Nat) : exec (.connectionReq u 0x010612C1 psn mtu) s = .next (s.emit { kind := 13, dest := u, addr := 3 }) := by
  refine congrArg Host.Outcome.next ?_
  simp only [List.mem_cons, List.not_mem_nil, or_false, not_or] at hmtu
  simp [hup, hip, hsak, Nat.not_le.mpr h, hmtu]

theorem exec_connectionReq_of_room (h : (qpsUsed s).length < 4096) {mtu : Nat} (hmtu : mtu ∈ [1024, 2048, 4096])
    (psn : Nat) : exec (.connectionReq u 0x010612C1 psn mtu) s = .next (withCreated s u psn mtu) := by
  refine congrArg Host.Outcome.next ?_
  have hlisted : [1024, 2048, 4096].contains mtu = true := List.contains_iff_mem.mpr hmtu
  simp only [hup, hip, hsak, Nat.not_le.mpr h, hlisted]
  simp [withCreated, newQp, createdQp]

end

/-! Mailboxes granted. -/

/-- The state in which n mailboxes from one on have been granted to a queue pair (R348). -/
def granted (s : State) (q f n : Nat) : State := (List.range n).foldl (fun s i => assignMailbox q s (f + i)) s

theorem granted_succ (s : State) (q f n : Nat) : granted s q f (n + 1) = assignMailbox q (granted s q f n) (f + n) := by
  simp [granted, List.range_succ]

theorem mailbox_granted (s : State) (q f n m : Nat) :
    (granted s q f n).mailbox m = if f ≤ m ∧ m < f + n then { qp := some q } else s.mailbox m := by
  induction n with
  | zero => exact (if_neg (by omega)).symm
  | succ n ih =>
    rw [granted_succ]
    by_cases hm : m = f + n
    · subst hm
      rw [if_pos (by omega)]
      simp [assignMailbox, State.mailbox, State.setMailbox]
    · have hother : (assignMailbox q (granted s q f n) (f + n)).mailbox m = (granted s q f n).mailbox m := by
        simp [assignMailbox, State.mailbox, State.setMailbox, State.onMem, look_put_other hm]
      rw [hother, ih]
      exact if_congr (by omega) rfl rfl

theorem memGet_window_granted (s : State) (q f n a : Nat) : memGet a (granted s q f n).mem.window =
    if 4096 * f ≤ a ∧ a < 4096 * (f + n) then 0 else memGet a s.mem.window := by
  induction n with
  | zero => exact (if_neg (by omega)).symm
  | succ n ih =>
    rw [granted_succ]
    refine (memGet_memZero a _ _ _).trans ?_
    rw [ih]
    split
    · exact (if_pos (by omega)).symm
    · exact if_congr (by omega) rfl rfl

theorem granted_qps (s : State) (q f n : Nat) : (granted s q f n).qps = s.qps := by
  induction n with
  | zero => rfl
  | succ n ih => exact (congrArg State.qps (granted_succ s q f n)).trans ih

theorem issuePart_connReply (s : State) (q : Nat) (st : BitVec 8) (v : Qp) : issuePart (connReply s q st v) = issuePart s :=
  issuePart_roce s q _

/-- A queue pair as a connection record that asks for no session grants it mailboxes from f on (R329). -/
def grantedQp (s : State) (v : Qp) (f : Nat) (b : List Byte) : Qp := { v with
  phase := 1, events := bit (field b 2 1) 0, modeImm := bit (field b 2 1) 1, firstMailbox := f, mailboxCount := field b 3 1
  cqAddr := field b 8 8, cqRkey := field b 0x10 4, cqEntries := field b 0x14 4
  regions := (List.range (field b 4 1)).map (fun i => parseRegion (slice b (0x40 + 24 * i) 24))
  bound := false, windowVa := Config.windowVa s.free, windowRkey := Config.windowRkey s.free % 2 ^ 32 }

section
variable {s : State} {q f : Nat} {d : List Byte} {v : Qp} (hv : s.qp q = some v) (hphase : v.phase = 0)
  (hsak : noSak s v.subport = false) (hrec : recordOk d = true) (hrun : freeRun s (field d 3 1) = some f)
  (hbind : ∀ x, x ∈ slice d 0x20 32 → x = 0)
include hv hphase hsak hrec hrun hbind

/-- A good connection record bound to no session: the mailboxes are granted and the reply is sent. -/
theorem exec_connectionRecord_of_good : exec (.connectionRecord q d) s =
    .next (connReply (granted (s.draw.setQp q (grantedQp s v f d)) q f (field d 3 1)) q eOk (grantedQp s v f d)) := by
  refine congrArg Host.Outcome.next ?_
  rw [heard_of_sak hv hsak]
  have hzero : (slice d 0x20 32).all (fun x => x == 0) = true := by simpa using hbind
  simp only [connMessage, hv, hphase, hrec, hrun, bindingOk, hzero, Bool.true_or, Bool.not_true, Bool.false_eq_true, if_false,
    if_neg (show ¬ 0 = 3 by decide), if_neg (show ¬ 0 ≠ 0 by decide)]
  rfl

end

/-! A queue pair ended. -/

/-- What an event changes: queue pairs, counters, the coffer's queue, and what falls due after a restart. -/
theorem postEvent_frame (s : State) (code : Nat) (d : List Byte) : postEvent s code d =
    { s with qps := (postEvent s code d).qps, counters := (postEvent s code d).counters
             coffer := (postEvent s code d).coffer, health := (postEvent s code d).health } := by
  unfold postEvent
  dsimp only
  split
  · rfl
  · rw [deliverEvent_frame]
    rfl

/-- Where no queue pair takes events an event counts nothing. -/
theorem postEvent_counters_of_no_takers {s : State} (h : ∀ p ∈ s.qps, p.2.events = false) (code : Nat) (d : List Byte) :
    (postEvent s code d).counters = s.counters := by
  have hfold (c : Completion) (t : State) : s.qps.foldl (eventTo c) t = t :=
    List.foldlRecOn (motive := fun u : State => u = t) s.qps (eventTo c) rfl fun u hu p hp => by
      rw [hu, eventTo, h p hp]
      rfl
  have hposted (c : Completion) (t : State) (ht : t.qps = s.qps) : deliverEvent t c = t := by
    rw [deliverEvent_eq, ht, hfold]
  unfold postEvent
  dsimp only
  split
  · rfl
  · rw [hposted _ (cofferAdd s (0x0100 + code) (eventPart code) d) rfl]
    rfl

section
variable {s : State} {q : Nat} {v : Qp}

theorem qpFailed_frame (s : State) (q : Nat) (v : Qp) : qpFailed s q v =
    { s with qps := put q v.failed s.qps, counters := (qpFailed s q v).counters
             mailboxes := s.mailboxes.filter (fun m => m.2.qp != some q) } := by
  unfold qpFailed
  rw [bump_frame, bump_frame]
  rfl

/-- A queue pair that fails holds no mailbox. -/
theorem mailbox_qpFailed (s : State) (q : Nat) (v : Qp) (m : Nat) : ((qpFailed s q v).mailbox m).qp ≠ some q := by
  have hmem (b : Mailbox) (h : look m (s.mailboxes.filter (fun m => m.2.qp != some q)) = some b) : b.qp ≠ some q := by
    have := (List.mem_filter.mp (look_mem h)).2
    simpa using this
  rw [qpFailed_frame]
  unfold State.mailbox
  dsimp only
  cases h : look m (s.mailboxes.filter (fun m => m.2.qp != some q)) with
  | none => exact fun h => nomatch h
  | some b => exact hmem b h

theorem failTxn_of_other (h : s.txn.owner ≠ q ∨ s.txn.state = 0) : failTxn s q = s :=
  if_neg fun ⟨hopen, howner, _⟩ => h.elim (· howner) (hopen ·)

theorem failTxn_of_owner (howner : s.txn.owner = q) (hopen : s.txn.state ≠ 0) (hgroup : s.txn.group = false) :
    failTxn s q = rollback s eCancelled :=
  if_pos ⟨hopen, howner, by simp [hgroup]⟩

theorem exec_disconnectRequest_of_sak (hv : s.qp q = some v) (hsak : noSak s v.subport = false) :
    exec (.disconnectRequest q) s = .next (qpError s q 4) :=
  congrArg Host.Outcome.next (heard_of_sak hv hsak _)

theorem qpError_keys (s : State) (q cause : Nat) : (qpError s q cause).keys = s.keys :=
  (congrArg Prod.fst (commitPart_qpError s q cause) :)

/-- The counters of a queue pair that fails: its completions waiting, and its sub-port's QP_ERRORS. -/
theorem counters_qpFailed (hfit : Safety.countersFit s = true) (hq : q < 65536) (hport : v.subport < 65536) :
    (qpFailed s q v).counter Ctr.completionsDropped q =
        min (s.counter Ctr.completionsDropped q + v.waiting.length) (2 ^ 64 - 1)
      ∧ (qpFailed s q v).counter Ctr.qpErrors v.subport = min (s.counter Ctr.qpErrors v.subport + 1) (2 ^ 64 - 1) := by
  have hplaces : ctrPlace Ctr.completionsDropped q ≠ ctrPlace Ctr.qpErrors v.subport :=
    ctrPlace_ne (by decide) hport (by decide) hq (.inl (by decide))
  have hset : Safety.countersFit (s.setQp q v.failed) = true := hfit
  have hfit' : Safety.countersFit ((s.setQp q v.failed).bump Ctr.completionsDropped q v.waiting.length) = true :=
    (bump_kept _ _ _ (Kept.refl _)).fits hset
  exact ⟨(counter_bump_other hplaces _ 1).trans (counter_bump_same hset _ _ _),
    (counter_bump_same hfit' _ _ _).trans
      (congrArg (fun n => min (n + 1) (2 ^ 64 - 1)) (counter_bump_other hplaces.symm (s.setQp q v.failed) v.waiting.length))⟩

end

/-- Settles O19: the four answers to a connection request, a good record, and the failure that a disconnect is. -/
theorem queuePairs : Obligations.QueuePairs := by
  unfold Obligations.QueuePairs
  refine ⟨fun s u psn mtu hup hip hsak => ⟨fun hroom hmtu => ?_,
      fun hfull service => exec_connectionReq_of_full hup hip hsak hfull service psn mtu,
      fun hroom service hservice => exec_connectionReq_of_other_service hup hip hsak hroom hservice psn mtu,
      fun hroom hmtu => exec_connectionReq_of_other_mtu hup hip hsak hroom hmtu psn⟩,
    fun s q f d v hv hphase hsak hrec hrun hbind => ?_,
    fun s q v hv hfit hq hport => ⟨fun hsak => congrArg Host.Outcome.next (heard_of_noSak hv hsak _),
      fun hlive hsak htxn => ?_, fun hlive hsak howner hopen hgroup => ?_, exec_disconnectRequest_of_sak hv, fun h2 => ?_,
      fun h2 => ?_⟩⟩
  case refine_1 =>
    obtain ⟨hlt, hfree⟩ := newQp_free hroom
    exact ⟨_, newQp s, createdQp s u psn mtu, exec_connectionReq_of_room hup hip hsak hroom hmtu psn, hlt, hfree,
      qp_setQp_same s.draw _ _, rfl, rfl, rfl, rfl,
      counter_zeroCounter_of_zero (counter_zeroCounter_same _ _ _) _ _, counter_zeroCounter_same _ _ _,
      fun x hx => qp_setQp_other hx s.draw _, rfl⟩
  case refine_2 =>
    obtain ⟨w, hw, hsame⟩ := exists_qp_roce (q := q)
      ((congrArg (look q) (granted_qps (s.draw.setQp q (grantedQp s v f d)) q f (field d 3 1))).trans (qp_setQp_same s.draw q _))
      _
    have hleaves := issuePart_connReply (granted (s.draw.setQp q (grantedQp s v f d)) q f (field d 3 1)) q eOk (grantedQp s v f d)
    have hboxes (m : Nat) := (congrArg (fun x : State => x.mailbox m) hleaves :).trans
      (mailbox_granted (s.draw.setQp q (grantedQp s v f d)) q f (field d 3 1) m)
    refine ⟨_, w, exec_connectionRecord_of_good hv hphase hsak hrec hrun hbind, hw, (congrArg Qp.phase hsame :),
      (congrArg Qp.bound hsame :), (congrArg Qp.firstMailbox hsame :), (congrArg Qp.mailboxCount hsame :),
      (congrArg Qp.cqAddr hsame :), (congrArg Qp.cqEntries hsame :), fun i hi => ?_, fun a ha hb => ?_, fun m hm => ?_,
      fun x hx => ?_⟩
    · exact (hboxes _).trans (if_pos (by omega))
    · refine (congrArg (fun x : State => memGet a x.mem.window) hleaves :).trans ?_
      exact (memGet_window_granted _ q f _ a).trans (if_pos ⟨ha, hb⟩)
    · exact (hboxes m).trans (if_neg (by omega))
    · refine (qp_roce_other hx _ _).trans ((congrArg (look x) (granted_qps _ q f _)).trans (qp_setQp_other hx s.draw _))
  case refine_3 =>
    have hframe := postEvent_frame (qpFailed s q v) 0x33 (items [q, 4])
    have hqp := qp_qpError_same hv hlive 4
    have hfailed := qpFailed_frame s q v
    have htxn' : (qpFailed s q v).txn = s.txn := (congrArg State.txn hfailed :)
    have hmem := qpError_mem s q 4
    rw [qpError_eq hv hlive, failTxn_of_other (by rwa [htxn'])] at hqp hmem
    have hexec := exec_disconnectRequest_of_sak hv hsak
    rw [qpError_eq hv hlive, failTxn_of_other (by rwa [htxn'])] at hexec
    refine ⟨_, _, hexec, hqp, rfl, rfl, fun htakers => ?_, fun m => ?_, ?_, ?_, hmem⟩
    · have hnone : ∀ p ∈ (qpFailed s q v).qps, p.2.events = false := fun p hp => by
        rw [hfailed] at hp
        rcases mem_put hp with rfl | hp
        · exact htakers (q, v) (look_mem hv)
        · exact htakers p hp
      have hcounters := postEvent_counters_of_no_takers hnone 0x33 (items [q, 4])
      have hsame (k : Nat × Nat) (x : Nat) := congrArg (fun l : List (Nat × Nat) => (look (ctrPlace k x) l).getD 0) hcounters
      exact ⟨(hsame _ _).trans (counters_qpFailed hfit hq hport).1, (hsame _ _).trans (counters_qpFailed hfit hq hport).2⟩
    · rw [hframe]
      exact mailbox_qpFailed s q v m
    · exact (congrArg State.orders hframe :).trans (congrArg State.orders hfailed :)
    · exact (congrArg State.txn hframe :).trans htxn'
  case refine_4 =>
    have htxn' : (qpFailed s q v).txn = s.txn := by rw [qpFailed_frame]
    refine ⟨_, _, exec_disconnectRequest_of_sak hv hsak, qp_qpError_same hv hlive 4, rfl, ?_, qpError_keys s q 4⟩
    rw [qpError_eq hv hlive, postEvent_frame, failTxn_of_owner (by rwa [htxn']) (by rwa [htxn']) (by rwa [htxn'])]
    rfl
  case refine_5 => exact congrArg Host.Outcome.next (by simp [hv, h2])
  case refine_6 => exact congrArg Host.Outcome.next (by simp [hv, h2])

end Sys2Proof.Machine
end

section
/-!
SUPPORT. RoCE packets and their time-outs (R325, R326, R331), other frames and links (R323, R324, R344).
-/

namespace Sys2Proof.Machine

/-! What counting leaves of what a frame is judged by. -/

section
variable (s : State) (k : Nat × Nat) (u n v : Nat)

@[simp] theorem port_bump : (s.bump k u n).port v = s.port v := by rw [bump_frame]; rfl
@[simp] theorem macsecOn_bump : macsecOn (s.bump k u n) v = macsecOn s v := by rw [bump_frame]; rfl
@[simp] theorem macsecOk_bump (ok : Bool) (pn : Nat) : macsecOk (s.bump k u n) v ok pn = macsecOk s v ok pn := by
  rw [bump_frame]; rfl
@[simp] theorem portIp_bump : portIp (s.bump k u n) v = portIp s v := by rw [bump_frame]; rfl
@[simp] theorem vlanOk_bump (vlan : Option Nat) : vlanOk (s.bump k u n) v vlan = vlanOk s v vlan := by rw [bump_frame]; rfl
@[simp] theorem ownIp_bump (ip : List Byte) : ownIp (s.bump k u n) v ip = ownIp s v ip := by rw [bump_frame]; rfl
@[simp] theorem portRec_bump : portRec (s.bump k u n) v = portRec s v := by rw [bump_frame]; rfl
@[simp] theorem keyNum_bump : keyNum (s.bump k u n) v = keyNum s v := by rw [bump_frame]; rfl
@[simp] theorem lineRate_bump : lineRate (s.bump k u n) v = lineRate s v := by rw [bump_frame]; rfl
@[simp] theorem paused_bump : paused (s.bump k u n) v = paused s v := by rw [bump_frame]; rfl

/-- Where the policy does not require MACsec every frame passes and uses up no number (R341). -/
theorem macsecOk_of_off {s : State} {u : Nat} (h : macsecOn s u = false) (ok : Bool) (pn : Nat) : macsecOk s u ok pn = true := by
  simp [macsecOk, h]

theorem macsecUse_of_off {s : State} {u : Nat} (h : macsecOn s u = false) (pn : Nat) : macsecUse s u pn = s := by
  simp [macsecUse, h]

end

/-! Packets of a queue pair. -/

/-- The state in which a packet received on a sub-port has been counted. -/
def counted (s : State) (u : Nat) (k : RocePacket) : State :=
  s.bump Ctr.rxBytes u (roceFrame s u k.data.length (rxExt k))

theorem leftOf_of_before {psn : Nat} {m : Nat × Nat × Out} (h : 2 ^ 23 ≤ psnDiff m.1 (psn + 1)) : leftOf psn m = some m :=
  if_pos h

theorem leftOf_of_covered {psn : Nat} {m : Nat × Nat × Out} (h : psnDiff m.1 (psn + 1) < 2 ^ 23)
    (hall : m.2.1 ≤ psnDiff m.1 (psn + 1)) : leftOf psn m = none :=
  (if_neg (by omega)).trans (if_pos hall)

theorem leftOf_of_part {psn : Nat} {m : Nat × Nat × Out} (h : psnDiff m.1 (psn + 1) < 2 ^ 23)
    (hpart : psnDiff m.1 (psn + 1) < m.2.1) :
    leftOf psn m = some (m.1, m.2.1, { m.2.2 with skip := max (psnDiff m.1 (psn + 1)) m.2.2.skip }) :=
  (if_neg (by omega)).trans (if_neg (by omega))

/-- An acknowledgement, where nothing waits to be sent, keeps the memories and of what waits for one what it does not cover. -/
theorem ackUpTo_of_nothing_waiting {s : State} {q : Nat} {v : Qp} (hv : s.qp q = some v) (hq : v.sendQ = []) (psn : Nat) :
    ∃ x, (ackUpTo s q psn).qp q = some x ∧ x.unacked = v.unacked.filterMap (leftOf psn) ∧ (ackUpTo s q psn).mem = s.mem := by
  unfold ackUpTo
  simp only [hv]
  split
  case isTrue h => exact ⟨v, hv, h.symm, rfl⟩
  case isFalse h =>
    rw [hq]
    exact ⟨_, qp_setQp_same s q _, rfl, rfl⟩

theorem qps_foldl_txMsg (q : Nat) (l : List (Nat × Nat × Out)) (s : State) :
    (l.foldl (fun s m => txMsg s q m.2.2) s).qps = s.qps :=
  foldl_leaves (g := State.qps) (f := fun (s : State) m => txMsg s q m.2.2) (fun s m => txMsg_qps s q m.2.2) l s

theorem mem_foldl_txMsg (q : Nat) (l : List (Nat × Nat × Out)) (s : State) :
    (l.foldl (fun s m => txMsg s q m.2.2) s).mem = s.mem :=
  foldl_leaves (g := State.mem) (f := fun (s : State) (m : Nat × Nat × Out) => txMsg s q m.2.2)
    (fun s m => (congrArg State.mem (issuePart_txMsg s q m.2.2) :)) l s

/-- Sending again leaves the queue pair but for the time of sending, and the memories. -/
theorem goBackN_leaves {s : State} {q : Nat} {v : Qp} (hv : s.qp q = some v) :
    (goBackN s q).qp q = some { v with sentAt := s.now } ∧ (goBackN s q).mem = s.mem := by
  unfold goBackN
  simp only [hv]
  exact ⟨(congrArg (look q) (qps_foldl_txMsg q _ _)).trans ((bump_qp _ _ _ _ _).trans (qp_setQp_same s q _)),
    (mem_foldl_txMsg q _ _).trans (bump_mem _ _ _ _)⟩

section
variable {s : State} {u : Nat} {k : RocePacket}

theorem exec_rocePacket_of_down (h : (s.port u).up = false) : exec (.rocePacket u k) s = .next s :=
  congrArg Host.Outcome.next (if_pos (by simp [h]))

theorem exec_rocePacket_of_insecure (hup : (s.port u).up = true) (h : macsecOk s u k.secOk k.pn = false) :
    exec (.rocePacket u k) s = .next ((counted s u k).bump Ctr.macsecDrops u 1) := by
  refine congrArg Host.Outcome.next ?_
  simp [hup, h, counted]

theorem exec_rocePacket_of_broken (hup : (s.port u).up = true) (hoff : macsecOn s u = false) (h : k.icrcOk = false) :
    exec (.rocePacket u k) s = .next ((counted s u k).bump Ctr.icrcErrors u 1) := by
  refine congrArg Host.Outcome.next ?_
  simp [hup, h, counted, macsecOk_of_off hoff, macsecUse_of_off, hoff]

variable {v : Qp} (hup : (s.port u).up = true) (hoff : macsecOn s u = false) (hicrc : k.icrcOk = true)
  (hv : s.qp k.qp = some v) (hphase : v.phase ≠ 3) (hport : v.subport = u) (hip : portIp s u = true) (hce : k.ce = false)

theorem counted_qp (s : State) (u : Nat) (k : RocePacket) (q : Nat) : (counted s u k).qp q = s.qp q := bump_qp _ _ _ _ _

theorem counted_mem (s : State) (u : Nat) (k : RocePacket) : (counted s u k).mem = s.mem := bump_mem _ _ _ _

theorem counted_orders (s : State) (u : Nat) (k : RocePacket) : (counted s u k).orders = s.orders := bump_orders _ _ _ _

include hup hoff hicrc hv hphase hport hip hce

theorem exec_rocePacket_ack (hop : k.op = 5) : exec (.rocePacket u k) s = .next (ackUpTo (counted s u k) k.qp k.psn) := by
  refine congrArg Host.Outcome.next ?_
  simp [hup, hoff, hicrc, hv, hphase, hport, hip, hce, counted, macsecOk_of_off, macsecUse_of_off, hop]

/-- A request is taken in sequence; one ahead of the number expected is refused. -/
theorem exec_rocePacket_request (hop : k.op ≤ 4) : exec (.rocePacket u k) s = .next (
    if k.psn % 2 ^ 24 = v.epsn then requestPacket (counted s u k) k.qp v k
    else if psnDiff k.psn v.epsn < 2 ^ 23 then
      txMsg (counted s u k) k.qp { kind := 5, dest := k.qp, data := leBytes 4 k.psn }
    else txMsg (counted s u k) k.qp { kind := 4, dest := k.qp, data := [0] }) := by
  refine congrArg Host.Outcome.next ?_
  simp only [hup, hicrc, hce, hphase, hport, hv, hip, portIp_bump, bump_qp, macsecOk_bump, macsecOk_of_off hoff,
    macsecUse_of_off ((macsecOn_bump _ _ _ _ _).trans hoff), counted]
  simp only [Bool.not_true, Bool.false_eq_true, if_false, ne_eq, not_true_eq_false, or_self]
  split
  case h_5 => rw [bump_qp, hv]
  all_goals omega

end

/-! An RDMA WRITE in one packet. -/

theorem acceptPsn_leaves (s : State) (q psn : Nat) : issuePart (acceptPsn s q psn) = issuePart s := by
  unfold acceptPsn
  rw [issuePart_txMsg, issuePart_onQp]

theorem qp_acceptPsn {s : State} {q : Nat} {v : Qp} (hv : s.qp q = some v) (psn : Nat) :
    (acceptPsn s q psn).qp q = some { v with epsn := (psn + 1) % 2 ^ 24 } := by
  unfold acceptPsn
  rw [qp_txMsg, qp_onQp_same, hv]
  rfl

/-- A write in one packet is placed and its number taken (R331). -/
theorem writePacket_of_whole {s : State} {q : Nat} {v : Qp} {k : RocePacket} (hlen : k.dmaLen = k.data.length)
    (hin : windowOk v k.va k.rkey k.dmaLen = true) : writePacket s q v k =
      (windowPut (acceptPsn s q k.psn) v k.va k.data).onQp q (fun v => { v with partialWrite := none }) := by
  have hpos : 0 < k.dmaLen := by
    unfold windowOk at hin
    simp only [Bool.and_eq_true, decide_eq_true_eq] at hin
    omega
  unfold writePacket
  rw [if_pos hpos, hin, if_neg (by simp), if_neg (by omega)]
  simp [hlen]

theorem writePacket_of_outside {s : State} {q : Nat} {v : Qp} {k : RocePacket} (hpos : 0 < k.dmaLen)
    (hout : windowOk v k.va k.rkey k.dmaLen = false) : writePacket s q v k = nakQp s q 2 := by
  unfold writePacket
  rw [if_pos hpos, hout]
  rfl

theorem onQp_leaves (s : State) (q : Nat) (f : Qp → Qp) : s.onQp q f = { s with qps := (s.onQp q f).qps } := by
  unfold State.onQp
  split <;> rfl

/-! Time-outs. -/

section
variable {s : State} {q : Nat} {v : Qp} (hv : s.qp q = some v)
include hv

theorem exec_ackTimeout_of_idle (h : v.phase = 3 ∨ v.unacked = []) : exec (.ackTimeout q) s = .next s := by
  refine congrArg Host.Outcome.next ?_
  simp [hv, h]

variable (hphase : v.phase ≠ 3) (hopen : v.unacked ≠ [])
include hphase hopen

theorem exec_ackTimeout_of_retry (h : v.retries < 7) :
    exec (.ackTimeout q) s = .next (goBackN (s.setQp q { v with retries := v.retries + 1 }) q) := by
  refine congrArg Host.Outcome.next ?_
  simp [hv, hphase, hopen, Nat.not_le.mpr h]

theorem exec_ackTimeout_of_last (h : 7 ≤ v.retries) : exec (.ackTimeout q) s = .next (qpError s q 2) := by
  refine congrArg Host.Outcome.next ?_
  simp [hv, hphase, hopen, h]

end

/-- Settles O49: a packet's cases in the order in which it is judged, what an acknowledgement leaves, and the time-out's. -/
theorem packetsInSequence : Obligations.PacketsInSequence := by
  unfold Obligations.PacketsInSequence
  dsimp only
  refine fun s u k => ⟨exec_rocePacket_of_down, exec_rocePacket_of_insecure, exec_rocePacket_of_broken,
    fun v hup hoff hicrc hv hphase hport hip hce => ⟨fun hop hpsn hlen hin => ?_, fun hop hpsn hpos hout => ?_,
      fun hop hne hahead => ?_, fun hop hq => ?_, fun hop hpsn => ?_⟩,
    fun psn m => ⟨leftOf_of_before, leftOf_of_covered, leftOf_of_part⟩,
    fun q v hv => ⟨exec_ackTimeout_of_idle hv, fun hphase hopen h => ?_, fun hphase hopen h => ?_⟩⟩
  case refine_1 =>
    have hexec := exec_rocePacket_request hup hoff hicrc hv hphase hport hip hce (by omega)
    rw [if_pos hpsn, requestPacket, hop] at hexec
    dsimp only at hexec
    rw [writePacket_of_whole hlen hin] at hexec
    have hleaves := acceptPsn_leaves (counted s u k) k.qp k.psn
    have hframe := onQp_leaves (windowPut (acceptPsn (counted s u k) k.qp k.psn) v k.va k.data) k.qp
      (fun v => { v with partialWrite := none })
    have hmem := (congrArg State.mem hleaves :).trans (counted_mem s u k)
    refine ⟨_, { v with epsn := (k.psn + 1) % 2 ^ 24, partialWrite := none }, hexec,
      (congrArg State.mem hframe :).trans ?_, ?_, rfl,
      (congrArg State.orders hframe :).trans ((congrArg State.orders hleaves :).trans (counted_orders s u k))⟩
    · exact congrArg (fun m : Memory => { m with
        window := memWrite m.window (4096 * v.firstMailbox + (k.va - v.windowVa)) k.data }) hmem
    · exact (qp_onQp_same _ _ _).trans
        (congrArg (Option.map _) (qp_acceptPsn ((counted_qp s u k k.qp).trans hv) k.psn))
  case refine_2 =>
    have hexec := exec_rocePacket_request hup hoff hicrc hv hphase hport hip hce (by omega)
    rw [if_pos hpsn, requestPacket, hop] at hexec
    dsimp only at hexec
    rw [writePacket_of_outside hpos hout] at hexec
    exact ⟨_, _, hexec, (nakQp_mem _ _ _).trans (counted_mem s u k), qp_nakQp ((counted_qp s u k k.qp).trans hv) hphase 2, rfl⟩
  case refine_3 =>
    rw [exec_rocePacket_request hup hoff hicrc hv hphase hport hip hce hop, if_neg hne, if_neg (by omega)]
    rfl
  case refine_4 =>
    obtain ⟨x, hx, hleft, hmem⟩ := ackUpTo_of_nothing_waiting ((counted_qp s u k k.qp).trans hv) hq k.psn
    exact ⟨_, x, exec_rocePacket_ack hup hoff hicrc hv hphase hport hip hce hop, hx, hleft, hmem.trans (counted_mem s u k)⟩
  case refine_5 =>
    rw [exec_rocePacket_request hup hoff hicrc hv hphase hport hip hce (by omega), if_pos hpsn, requestPacket, hop]
    rfl
  case refine_6 =>
    obtain ⟨hqp, hmem⟩ := goBackN_leaves (qp_setQp_same s q { v with retries := v.retries + 1 })
    exact ⟨_, _, exec_ackTimeout_of_retry hv hphase hopen h, hqp, rfl, hmem⟩
  case refine_7 =>
    exact ⟨_, _, exec_ackTimeout_of_last hv hphase hopen h, qp_qpError_same hv hphase 2, rfl, rfl, qpError_mem s q 2⟩

end Sys2Proof.Machine
end

section
/-!
SUPPORT. Sub-ports up and down and other frames (R323, R324, R344).
-/

namespace Sys2Proof.Machine

@[simp] theorem port_setPort_same (s : State) (u : Nat) (v : SubPort) : (s.setPort u v).port u = v := by
  simp [State.port, State.setPort]

theorem port_setPort_other {u j : Nat} (h : j ≠ u) (s : State) (v : SubPort) : (s.setPort u v).port j = s.port j := by
  simp [State.port, State.setPort, look_put_other h]

@[simp] theorem port_onPort_same (s : State) (u : Nat) (f : SubPort → SubPort) : (s.onPort u f).port u = f (s.port u) :=
  port_setPort_same s u _

theorem port_onPort_other {u j : Nat} (h : j ≠ u) (s : State) (f : SubPort → SubPort) : (s.onPort u f).port j = s.port j :=
  port_setPort_other h s _

@[simp] theorem port_postEvent (s : State) (code : Nat) (d : List Byte) (u : Nat) : (postEvent s code d).port u = s.port u :=
  congrArg (fun l : List (Nat × SubPort) => (look u l).getD {}) (postEvent_ports s code d)

section
variable {s : State} {u : Nat}

/-- What a sub-port needs to link up. -/
def MayLinkUp (s : State) (u : Nat) : Prop :=
  (s.port u).up = false ∧ u < 16 ∧ s.pins.stage = 4 ∧ portExists s u = true ∧ bit (portFlags s u) 0 = true
    ∧ bit s.pins.refSer (u / 4) = true

/-- The state in which a sub-port has linked up, before that is posted. -/
def linkedUp (s : State) (u : Nat) : State :=
  { s.setPort u { s.port u with up := true, pausedSince := none, held := [], sak := none } with
    portDownUntil := erase (u / 4) s.portDownUntil }

/-- The state in which a sub-port has gone down, before that is posted. -/
def linkedDown (s : State) (u : Nat) : State :=
  s.onPort u (fun p => { p with up := false, sak := none, pausedSince := none, held := [] })

/-- What stops a sub-port from linking up. -/
theorem not_mayLinkUp_iff : ((s.port u).up ∨ 16 ≤ u ∨ s.pins.stage ≠ 4 ∨ !portExists s u ∨ !bit (portFlags s u) 0
    ∨ !bit s.pins.refSer (u / 4)) ↔ ¬ MayLinkUp s u := by
  unfold MayLinkUp
  simp only [not_and_or, Bool.not_eq_true', Bool.not_eq_false, Bool.not_eq_true, not_lt, ne_eq]

theorem exec_portUp_of_not (h : ¬ MayLinkUp s u) : exec (.portUp u) s = .next s :=
  congrArg Host.Outcome.next (if_pos (not_mayLinkUp_iff.mpr h))

theorem exec_portUp_of_may (h : MayLinkUp s u) :
    exec (.portUp u) s = .next (postEvent (linkedUp s u) 0x31 (items [u, portMode s (u / 4)])) :=
  congrArg Host.Outcome.next (if_neg (fun hn => not_mayLinkUp_iff.mp hn h))

theorem exec_portDown_of_down (h : (s.port u).up = false) : exec (.portDown u) s = .next s :=
  congrArg Host.Outcome.next (if_pos (by simp [h]))

theorem exec_portDown_of_up (h : (s.port u).up = true) :
    exec (.portDown u) s = .next (postEvent (linkedDown s u) 0x30 (items [u])) :=
  congrArg Host.Outcome.next (if_neg (by simp [h]))

theorem exec_ethFrameReceive_of_down (h : (s.port u).up = false) (k : EthFrame) : exec (.ethFrameReceive u k) s = .next s :=
  congrArg Host.Outcome.next (if_pos (by simp [h]))

variable {k : EthFrame} (hup : (s.port u).up = true) (hoff : macsecOn s u = false)
include hup

theorem exec_ethFrameReceive_of_oversize (h : 9216 < k.len) :
    exec (.ethFrameReceive u k) s = .next ((s.bump Ctr.rxBytes u k.len).bump Ctr.rxOversize u 1) := by
  refine congrArg Host.Outcome.next ?_
  simp [hup, h]

include hoff

theorem exec_ethFrameReceive_of_fitting (h : k.len ≤ 9216) : exec (.ethFrameReceive u k) s = .next
    (if vlanOk s u k.vlan then frameMeans (s.bump Ctr.rxBytes u k.len) u k else s.bump Ctr.rxBytes u k.len) := by
  refine congrArg Host.Outcome.next ?_
  cases hvlan : vlanOk s u k.vlan <;>
    simp [hup, Nat.not_lt.mpr h, macsecOk_of_off hoff, macsecUse_of_off ((macsecOn_bump _ _ _ _ _).trans hoff), hvlan]

end

theorem frameMeans_of_unsupported {k : EthFrame} (h : k.kind = 4 ∨ 7 ≤ k.kind) (s : State) (u : Nat) :
    frameMeans s u k = s.bump Ctr.rxUnsupported u 1 := by
  unfold frameMeans
  split
  case h_7 => rfl
  all_goals omega

theorem frameMeans_of_arp {s : State} {u : Nat} {k : EthFrame} (h : k.kind = 0) (hown : ownIp s u k.ip = true) :
    frameMeans s u k = sendFrameOn s u (max 64 k.len) k.ip := by
  simp [frameMeans, h, hown]

/-- What sending one frame changes: what goes out, and counters. -/
theorem sendFrameOn_frame (s : State) (u len : Nat) (ip : List Byte) : sendFrameOn s u len ip =
    { s with out := { kind := 6, dest := u, data := slice (portRec s u) 0 6 ++ ip } :: s.out
             counters := (sendFrameOn s u len ip).counters } :=
  bump_frame _ _ _ _

/-- Settles O50: a link's two turns, and a frame's cases in the order in which it is judged. -/
theorem portsAndFrames : Obligations.PortsAndFrames := by
  unfold Obligations.PortsAndFrames
  dsimp only
  refine fun s u => ⟨exec_portUp_of_not, fun h => ?_, fun h => ⟨exec_portDown_of_down h, exec_ethFrameReceive_of_down h⟩,
    fun h => ?_, fun k hup hoff => ⟨exec_ethFrameReceive_of_oversize hup, fun hlen hvlan => ?_, fun hlen hvlan hkind => ?_,
      fun hlen hvlan hkind hown => ?_⟩⟩
  case refine_1 =>
    have hport : (linkedUp s u).port u = { s.port u with up := true, pausedSince := none, held := [], sak := none } :=
      port_setPort_same s u _
    have hframe := postEvent_frame (linkedUp s u) 0x31 (items [u, portMode s (u / 4)])
    refine ⟨_, exec_portUp_of_may h, ?_, ?_, ?_, fun j hj => (port_postEvent _ _ _ j).trans (port_setPort_other hj s _), ?_⟩
    · rw [port_postEvent, hport]
    · rw [port_postEvent, hport]
    · rw [port_postEvent, hport]
    · generalize postEvent (linkedUp s u) 0x31 (items [u, portMode s (u / 4)]) = t at hframe ⊢
      rw [hframe]
      rfl
  case refine_2 =>
    have hport : (linkedDown s u).port u = { s.port u with up := false, sak := none, pausedSince := none, held := [] } :=
      port_setPort_same s u _
    have hframe := postEvent_frame (linkedDown s u) 0x30 (items [u])
    refine ⟨_, exec_portDown_of_up h, ?_, ?_, fun j hj => (port_postEvent _ _ _ j).trans (port_onPort_other hj s _), ?_⟩
    · rw [port_postEvent, hport]
    · rw [port_postEvent, hport]
    · generalize postEvent (linkedDown s u) 0x30 (items [u]) = t at hframe ⊢
      rw [hframe]
      rfl
  case refine_3 => rw [exec_ethFrameReceive_of_fitting hup hoff hlen, if_neg (by simp [hvlan])]
  case refine_4 => rw [exec_ethFrameReceive_of_fitting hup hoff hlen, if_pos hvlan, frameMeans_of_unsupported hkind]
  case refine_5 =>
    have hexec := exec_ethFrameReceive_of_fitting hup hoff hlen
    rw [if_pos hvlan, frameMeans_of_arp hkind ((ownIp_bump _ _ _ _ _ _).trans hown), sendFrameOn_frame, portRec_bump, out_bump,
      bump_frame] at hexec
    exact ⟨_, hexec, rfl, rfl⟩

end Sys2Proof.Machine
end

section
/-!
SUPPORT. Flow control, congestion, MACsec keys and PTP (R339 to R343, R245).
-/

namespace Sys2Proof.Machine

/-! Flow control. -/

section
variable {s : State} {u : Nat}

/-- With nothing held a release changes nothing more. -/
theorem flushHeld_of_none (h : (s.port u).held = []) : flushHeld s u = s.onPort u (fun p => { p with held := [] }) := by
  unfold flushHeld
  rw [h]
  rfl

theorem exec_pauseFrame_of_other {prio : Nat} (quanta : Nat) (h : (s.port u).up = false ∨ prio ≠ keyNum s 0x0510) :
    exec (.pauseFrame u prio quanta) s = .next s :=
  congrArg Host.Outcome.next (if_pos (h.imp_left (by simp [·])))

section
variable (hup : (s.port u).up = true) (hguard : (s.port u).stormUntil = none)
include hup hguard

theorem exec_pauseFrame_of_quanta {quanta : Nat} (h : 0 < quanta) : exec (.pauseFrame u (keyNum s 0x0510) quanta) s =
    .next ((s.bump Ctr.pfcRxXoff u 1).setPort u { s.port u with
      pausedSince := if paused s u then (s.port u).pausedSince else some s.now
      pausedUntil := s.now + quanta * 512000000 / max 1 (lineRate s u) }) := by
  refine congrArg Host.Outcome.next ?_
  simp [hup, hguard, Nat.ne_of_gt h]

theorem exec_pauseFrame_of_release : exec (.pauseFrame u (keyNum s 0x0510) 0) s =
    .next (flushHeld (s.setPort u { s.port u with pausedSince := none, pausedUntil := s.now }) u) := by
  refine congrArg Host.Outcome.next ?_
  simp [hup, hguard]

end

/-- A pause that stands has a beginning. -/
theorem isSome_of_paused (h : paused s u = true) : (s.port u).pausedSince.isSome = true := by
  unfold paused at h
  exact (Bool.and_eq_true_iff.mp h).1

theorem exec_pfcStorm_of_unpaused (h : (s.port u).up = false ∨ (s.port u).pausedSince = none) :
    exec (.pfcStorm u) s = .next s :=
  congrArg Host.Outcome.next (if_pos (h.imp (by simp [·]) (by simp [·])))

theorem exec_pfcStorm_of_paused (hup : (s.port u).up = true) (h : (s.port u).pausedSince.isSome = true) :
    exec (.pfcStorm u) s = .next ((postEvent
      (flushHeld (s.setPort u { s.port u with pausedSince := none, stormUntil := some (s.now + 1000000000) }) u)
      0x32 (items [u, keyNum (flushHeld
        (s.setPort u { s.port u with pausedSince := none, stormUntil := some (s.now + 1000000000) }) u) 0x0510])).bump
      Ctr.pfcStorms u 1) :=
  congrArg Host.Outcome.next (if_neg (by simp [hup, Option.ne_none_iff_isSome.mpr h]))

theorem exec_pfcStormEnd_guarded (h : (s.port u).stormUntil.isSome = true) :
    exec (.pfcStormEnd u) s = .next (s.onPort u (fun p => { p with stormUntil := none })) :=
  congrArg Host.Outcome.next (if_pos h)

theorem exec_pfcStormEnd_unguarded (h : ¬ (s.port u).stormUntil.isSome = true) : exec (.pfcStormEnd u) s = .next s :=
  congrArg Host.Outcome.next (if_neg h)

end

/-! Congestion. -/

/-- A CNP makes a decrease where the last one is 50 us back (R340). -/
def cutDue (s : State) (v : Qp) : Bool :=
  match v.lastCut with
  | none => true
  | some t => decide (t + 50000 ≤ s.now)

/-- A queue pair after a CNP (R340). -/
def cnpQp (s : State) (v : Qp) : Qp :=
  { (if cutDue s v then
      { v with target := v.rate, rate := max 100000 (v.rate - v.rate * v.alpha / 131072), lastCut := some s.now }
    else v) with alpha := (255 * v.alpha + 65536) / 256, steps := 0, lastCnp := s.now }

/-- A queue pair after a recovery step (R340). -/
def recoveredQp (s : State) (v : Qp) : Qp :=
  let line := lineRate s v.subport
  let target := if 5 ≤ v.steps then min line (v.target + 40000) else v.target
  { v with target := target, rate := min line ((v.rate + target) / 2), steps := v.steps + 1, alpha := 255 * v.alpha / 256 }

theorem cutDue_iff {s : State} {v : Qp} :
    cutDue s v = true ↔ (v.lastCut = none ∨ ∃ a, v.lastCut = some a ∧ a + 50000 ≤ s.now) := by
  unfold cutDue
  cases v.lastCut <;> simp

section
variable {s : State} {q : Nat} {v : Qp} (hv : s.qp q = some v)
include hv

theorem exec_rateRecovery_of_failed (h : v.phase = 3) : exec (.rateRecovery q) s = .next s := by
  refine congrArg Host.Outcome.next ?_
  simp [hv, h]

theorem exec_rateRecovery_of_live (h : v.phase ≠ 3) : exec (.rateRecovery q) s = .next (s.setQp q (recoveredQp s v)) := by
  refine congrArg Host.Outcome.next ?_
  simp only [hv, if_neg h]
  rfl

theorem exec_cnp_of_noSak (h : noSak s v.subport = true) : exec (.cnp q) s = .next (s.bump Ctr.macsecDrops v.subport 1) :=
  congrArg Host.Outcome.next (heard_of_noSak hv h _)

theorem exec_cnp_of_failed (hsak : noSak s v.subport = false) (h : v.phase = 3) : exec (.cnp q) s = .next s := by
  refine congrArg Host.Outcome.next ?_
  rw [heard_of_sak hv hsak]
  simp [hv, h]

theorem exec_cnp_of_live (hsak : noSak s v.subport = false) (h : v.phase ≠ 3) :
    exec (.cnp q) s = .next ((s.bump Ctr.cnpReceived v.subport 1).setQp q (cnpQp s v)) := by
  refine congrArg Host.Outcome.next ?_
  rw [heard_of_sak hv hsak]
  simp only [hv, if_neg h, bump_now]
  rfl

end

/-! MACsec keys. -/

section
variable {s : State} {u : Nat}

theorem exec_mka_of_off (sak : Option (List Byte)) (h : (s.port u).up = false ∨ macsecOn s u = false) :
    exec (.mka u sak) s = .next s :=
  congrArg Host.Outcome.next (if_pos (h.imp (by simp [·]) (by simp [·])))

variable (hup : (s.port u).up = true) (hon : macsecOn s u = true)
include hup hon

theorem exec_mka_of_agreed {a c : List Byte} (hcak : keyVal s (0x0530 + u) = some c) :
    exec (.mka u (some a)) s = .next (s.onPort u (fun p => { p with sak := some a, nextPn := 1 })) := by
  refine congrArg Host.Outcome.next ?_
  simp [hup, hon, hcak]

theorem exec_mka_of_failed : exec (.mka u none) s = .next (postEvent s 0x34 (items [u])) := by
  refine congrArg Host.Outcome.next ?_
  simp [hup, hon]

end

/-! PTP. -/

/-- A keeper's beat may lock at an update (R245). -/
def ptpLocks (s : State) (time : Nat) (offset : Int) : Bool :=
  decide (16 ≤ (if offset.natAbs ≤ 100 then s.beat.good + 1 else 0)) && !s.beat.sourceLocked && !s.beat.holdover
    && decide (s.group.ptpTime ≤ time)

/-- The state in which a keeper has noted an update (R245). -/
def notedPtp (s : State) (time : Nat) (offset : Int) : State := { s with beat := { s.beat with
  good := if offset.natAbs ≤ 100 then s.beat.good + 1 else 0, lastUpdate := s.now
  srcErr := if s.beat.slewing then s.beat.srcErr else offset, sourceLocked := s.beat.sourceLocked || ptpLocks s time offset } }

/-- The state in which the clock's rate has been learnt from an update, outside a holdover. -/
def learntPtp (s : State) (time : Nat) : State := if s.beat.holdover then s else learnRate s s.now time

/-- The state in which the beat follows PTP time: at once where it locks and no view exists, else once it is locked (R245). -/
def followedPtp (s : State) (locks : Bool) (time : Nat) : State :=
  if locks ∧ s.group.state = 1 then
    { s with beat := { s.beat with number := (ptpBeatAt s time).1, startAt := s.now - (ptpBeatAt s time).2 } }
  else if s.beat.sourceLocked then ptpFollow s time
  else s

theorem exists_learntPtp_eq (s : State) (time : Nat) :
    ∃ b : Beat, learntPtp s time = { s with beat := b } ∧ b.sourceLocked = s.beat.sourceLocked := by
  unfold learntPtp
  split
  · exact ⟨_, rfl, rfl⟩
  · obtain ⟨f, c, hlearnt⟩ := exists_learnRate_eq s s.now time
    exact ⟨_, hlearnt, rfl⟩

theorem exists_followedPtp_eq (s : State) (locks : Bool) (time : Nat) :
    ∃ b : Beat, followedPtp s locks time = { s with beat := b } ∧ b.sourceLocked = s.beat.sourceLocked := by
  unfold followedPtp
  split
  · exact ⟨_, rfl, rfl⟩
  · split
    · exact ⟨_, rfl, rfl⟩
    · exact ⟨s.beat, rfl, rfl⟩

/-- An update that a keeper takes from PTP: it is noted, the clock's rate is learnt, and a locked beat follows PTP time. -/
theorem keeperPtp_of_source {s : State} {u : Nat} (hkeeper : isKeeper s = true) (hsource : s.group.source = 1)
    (hport : bit s.group.ptpPorts (u / 4) = true) (time : Nat) (offset : Int) : ∃ b : Beat,
      keeperPtp s u time offset = { s with beat := b } ∧ b.sourceLocked = (s.beat.sourceLocked || ptpLocks s time offset) := by
  have hsteps : keeperPtp s u time offset = followedPtp (learntPtp (notedPtp s time offset) time) (ptpLocks s time offset) time :=
    if_neg (by simp [hkeeper, hsource, hport])
  obtain ⟨b, hb, hlocked⟩ := exists_learntPtp_eq (notedPtp s time offset) time
  obtain ⟨c, hc, hkept⟩ := exists_followedPtp_eq (learntPtp (notedPtp s time offset) time) (ptpLocks s time offset) time
  rw [hb] at hc hkept hsteps
  exact ⟨c, hsteps.trans hc, hkept.trans hlocked⟩

/-- At the sixteenth offset within 100 ns running, outside a holdover and after its beat 0, a keeper's beat is locked. -/
theorem ptpLocks_or_locked {s : State} {time : Nat} {offset : Int} (hoffset : offset.natAbs ≤ 100) (hgood : 15 ≤ s.beat.good)
    (hheld : s.beat.holdover = false) (htime : s.group.ptpTime ≤ time) :
    (s.beat.sourceLocked || ptpLocks s time offset) = true := by
  have hrun : 16 ≤ s.beat.good + 1 := by omega
  cases hlocked : s.beat.sourceLocked <;> simp [ptpLocks, hoffset, hheld, htime, hlocked, hrun]

theorem keeperPtp_of_other {s : State} {u : Nat}
    (h : ¬ (isKeeper s = true ∧ s.group.source = 1 ∧ bit s.group.ptpPorts (u / 4) = true)) (time : Nat) (offset : Int) :
    keeperPtp s u time offset = s := by
  refine if_pos ?_
  cases hkeeper : isKeeper s <;> cases hport : bit s.group.ptpPorts (u / 4) <;> simp_all

/-- A PTP update changes of the state at most the beat. -/
theorem exists_keeperPtp_eq (s : State) (u time : Nat) (offset : Int) :
    ∃ b, keeperPtp s u time offset = { s with beat := b } := by
  by_cases h : isKeeper s = true ∧ s.group.source = 1 ∧ bit s.group.ptpPorts (u / 4) = true
  · obtain ⟨hkeeper, hsource, hport⟩ := h
    obtain ⟨b, hb, -⟩ := keeperPtp_of_source hkeeper hsource hport time offset
    exact ⟨b, hb⟩
  · exact ⟨s.beat, keeperPtp_of_other h time offset⟩

/-- The state in which a port has been made slave with its delay measured (R343). -/
def withSlave (s : State) (u : Nat) : State := { s with ptp := { s.ptp with
  slave := some u, delayMeasured := s.ptp.delayMeasured.filter (fun x => x != u) ++ [u] } }

section
variable {s : State} {u : Nat}

theorem exec_ptpTimeUpdate_of_closed (time : Nat) (offset predicted : Int) (slave measured : Bool)
    (h : (s.port u).up = false ∨ keyNum s (0x0540 + u / 4) ≠ 1 ∨ noSak s u = true) :
    exec (.ptpTimeUpdate u time offset predicted slave measured) s = .next s :=
  congrArg Host.Outcome.next (if_pos (h.imp_left (by simp [·])))

variable (hup : (s.port u).up = true) (hon : keyNum s (0x0540 + u / 4) = 1) (hsak : noSak s u = false)
  (time : Nat) {offset predicted : Int}
include hup hon hsak

theorem exec_ptpTimeUpdate_of_outlier (h : 1000 < (offset - predicted).natAbs) :
    exec (.ptpTimeUpdate u time offset predicted true true) s = .next ((withSlave s u).bump Ctr.ptpOutliers u 1) := by
  refine congrArg Host.Outcome.next ((if_neg (by simp [hup, hon, hsak])).trans ?_)
  exact (if_neg (by simp)).trans (if_pos h)

theorem exec_ptpTimeUpdate_of_near (h : (offset - predicted).natAbs ≤ 1000) :
    exec (.ptpTimeUpdate u time offset predicted true true) s =
      .next (keeperPtp { withSlave s u with ptp := { (withSlave s u).ptp with offset := offset } } u time offset) := by
  refine congrArg Host.Outcome.next ((if_neg (by simp [hup, hon, hsak])).trans ?_)
  exact (if_neg (by simp)).trans (if_neg (by omega))

end

/-- Settles O51: pauses and storms, a CNP and a recovery step, keys, and PTP updates, case by case. -/
theorem flowKeysAndTime : Obligations.FlowKeysAndTime := by
  unfold Obligations.FlowKeysAndTime
  dsimp only
  refine ⟨fun s => ⟨fun u prio quanta => ⟨exec_pauseFrame_of_other quanta, fun hup hprio hguard hq => ?_,
      fun hup hprio hguard hheld _ => ?_⟩,
    fun u => ⟨exec_pfcStorm_of_unpaused, fun hup hpaused hheld => ?_, ?_⟩,
    fun q v hv => ⟨exec_rateRecovery_of_failed hv, exec_cnp_of_noSak hv, exec_cnp_of_failed hv, fun hsak hlive => ?_,
      fun hlive => ?_⟩⟩,
    fun s u => ⟨exec_mka_of_off, fun a c hup hon hcak => ?_, exec_mka_of_failed,
      fun time off pred sl me => ⟨exec_ptpTimeUpdate_of_closed time off pred sl me, fun hup hon hsak hsl hme hfar => ?_,
        fun hup hon hsak hsl hme hnear => ?_⟩⟩⟩
  case refine_1 =>
    rw [hprio]
    refine ⟨_, exec_pauseFrame_of_quanta hup hguard hq, ?_, ?_, ?_, ?_⟩
    · rw [port_setPort_same]
    · rw [port_setPort_same]
      dsimp only
      split
      case isTrue h => exact isSome_of_paused h
      case isFalse => rfl
    · rw [port_setPort_same]
    · rw [bump_frame]
      rfl
  case refine_2 =>
    rw [hprio]
    have hexec := exec_pauseFrame_of_release hup hguard
    rw [flushHeld_of_none (by rw [port_setPort_same]; exact hheld)] at hexec
    refine ⟨_, hexec, ?_, rfl⟩
    rw [port_onPort_same, port_setPort_same, hheld]
  case refine_3 =>
    have hexec := exec_pfcStorm_of_paused hup hpaused
    rw [flushHeld_of_none (by rw [port_setPort_same]; exact hheld)] at hexec
    refine ⟨_, hexec, ?_, ?_⟩
    · rw [port_bump, port_postEvent, port_onPort_same, port_setPort_same, hheld]
    · rw [bump_mem, postEvent_mem]
      rfl
  case refine_4 =>
    by_cases h : (s.port u).stormUntil.isSome = true
    · exact ⟨_, exec_pfcStormEnd_guarded h, by rw [port_onPort_same], rfl⟩
    · exact ⟨_, exec_pfcStormEnd_unguarded h, Option.not_isSome_iff_eq_none.mp h, rfl⟩
  case refine_5 =>
    refine ⟨_, cnpQp s v, exec_cnp_of_live hv hsak hlive, qp_setQp_same _ q _, rfl, rfl, rfl, fun h => ?_, fun a ha h => ?_, ?_⟩
    · rw [cnpQp, if_pos (cutDue_iff.mpr h)]
      exact ⟨rfl, rfl, rfl⟩
    · have hnot : ¬ cutDue s v = true := fun hdue => by
        rcases cutDue_iff.mp hdue with hnone | ⟨b, hb, hle⟩
        · exact nomatch ha.symm.trans hnone
        · obtain rfl : a = b := Option.some.inj (ha.symm.trans hb)
          omega
      rw [cnpQp, if_neg hnot]
      exact ⟨rfl, rfl, rfl⟩
    · rw [bump_frame]
      rfl
  case refine_6 =>
    exact ⟨_, recoveredQp s v, exec_rateRecovery_of_live hv hlive, qp_setQp_same s q _, rfl, rfl, rfl,
      fun h => if_neg (by omega), rfl⟩
  case refine_7 => exact ⟨_, exec_mka_of_agreed hup hon hcak, by rw [port_onPort_same], by rw [port_onPort_same], rfl⟩
  case refine_8 =>
    subst hsl hme
    refine ⟨_, exec_ptpTimeUpdate_of_outlier hup hon hsak time hfar, ?_, counter_bump_one _ _ _, ?_⟩
    · rw [bump_ptp]
      rfl
    · rw [bump_frame]
      rfl
  case refine_9 =>
    subst hsl hme
    have hexec := exec_ptpTimeUpdate_of_near hup hon hsak time hnear
    obtain ⟨b, hb⟩ := exists_keeperPtp_eq { withSlave s u with ptp := { (withSlave s u).ptp with offset := off } } u time off
    refine ⟨_, hexec, ?_, ?_, fun hkeeper hsource hport hoff hgood hheld htime => ?_, ?_⟩
    · rw [hb]
    · rw [hb]
      rfl
    · obtain ⟨b, hb, hlocked⟩ := keeperPtp_of_source
        (s := { withSlave s u with ptp := { (withSlave s u).ptp with offset := off } }) hkeeper hsource hport time off
      rw [hb]
      exact hlocked.trans (ptpLocks_or_locked (s := s) hoff hgood hheld htime)
    · rw [hb]
      rfl

end Sys2Proof.Machine
end

section
/-!
SUPPORT. ATTEST and its signings (R390 to R395).
-/

namespace Sys2Proof.Machine

/-! The queue of signings. -/

/-- With no order queued no signing begins. -/
theorem pumpSign_of_empty {s : State} (h : s.trust.signQ = []) (k : Nat) (ok0 ok1 okC : Bool) : pumpSign k s ok0 ok1 okC = s := by
  cases k with
  | zero => rfl
  | succ k => simp [pumpSign, h]

theorem signNext_of_empty {s : State} (h : s.trust.signQ = []) (ok0 ok1 okC : Bool) : signNext s ok0 ok1 okC = s :=
  pumpSign_of_empty h _ ok0 ok1 okC

/-- The state without the order at the head of the queue of signings. -/
def unqueued (s : State) : State := { s with trust := { s.trust with signQ := s.trust.signQ.tail } }

/-- The order at the head of the queue is signed, where no signing is under way and no pair is being generated. -/
theorem pumpSign_of_queued {s : State} {m n : Nat} {rest : List (Nat × Nat)} {o : Order} (hq : s.trust.signQ = (m, n) :: rest)
    (hidle : s.trust.signing = none) (hpair : s.trust.generating = false) (horder : s.order m n = some o)
    (hheld : held s o = false) (k : Nat) (ok0 ok1 okC : Bool) :
    pumpSign (k + 1) s ok0 ok1 okC = pumpSign k (beginSign (unqueued s) o ok0 ok1 okC) ok0 ok1 okC := by
  have hpop : { s with trust := { s.trust with signQ := rest } } = unqueued s := by unfold unqueued; rw [hq]; rfl
  have horder' : (unqueued s).order m n = some o := horder
  have hheld' : ¬ held (unqueued s) o = true := fun h => Bool.false_ne_true (hheld.symm.trans h)
  conv_lhs => unfold pumpSign
  rw [if_neg (by simp [hidle, hpair])]
  split
  case h_1 h => exact nomatch h.symm.trans hq
  case h_2 m' n' rest' h =>
    obtain ⟨⟨rfl, rfl⟩, rfl⟩ := by simpa using h.symm.trans hq
    dsimp only
    rw [hpop]
    split
    case h_1 o' ho' =>
      obtain rfl : o = o' := Option.some.inj (horder'.symm.trans ho')
      rw [if_neg hheld']
    case h_2 hnone => exact nomatch horder'.symm.trans hnone

/-- The one order queued is signed. -/
theorem signNext_of_one {s : State} {m n : Nat} {o : Order} (hq : s.trust.signQ = [(m, n)]) (hidle : s.trust.signing = none)
    (hpair : s.trust.generating = false) (horder : s.order m n = some o) (hheld : held s o = false) {ok0 ok1 okC : Bool}
    (hdone : (beginSign (unqueued s) o ok0 ok1 okC).trust.signQ = []) :
    signNext s ok0 ok1 okC = beginSign (unqueued s) o ok0 ok1 okC := by
  unfold signNext
  rw [pumpSign_of_queued hq hidle hpair horder hheld, pumpSign_of_empty hdone]

/-! The writes that reserve an index. -/

/-- Noting that few indices are left changes of the trust block at most that it is noted, and keeps orders and memories. -/
theorem noteLow_leaves (s : State) : (∃ b, (noteLow s).trust = { s.trust with lowPosted := b })
    ∧ (noteLow s).orders = s.orders ∧ (noteLow s).mem = s.mem := by
  unfold noteLow
  split
  · exact ⟨⟨s.trust.lowPosted, rfl⟩, rfl, rfl⟩
  · rw [postEvent_frame]
    exact ⟨⟨true, rfl⟩, rfl, rfl⟩

/-- The state in which the first record of the next index is written, and the index is spent. -/
def withSpent (s : State) : State :=
  State.bump { s with trust := { s.trust with index0 := some (s.trust.next + 1), next := s.trust.next + 1 } } Ctr.indicesSpent 0 1

/-- With both records and the ledger written the next index is reserved. -/
theorem reserveIndex_of_written (s : State) : reserveIndex s true true true =
    (ledgerPut { noteLow (withSpent s) with
      trust := { (noteLow (withSpent s)).trust with index1 := some (s.trust.next + 1) } } (s.trust.next + 1), 0) := rfl

/-- Where the first record fails nothing is spent. -/
theorem reserveIndex_of_failed (s : State) (ok1 okC : Bool) :
    reserveIndex s false ok1 okC = ({ s with trust := { s.trust with index0 := none } }, 1) := rfl

theorem ledgerPut_leaves (s : State) (n : Nat) :
    (ledgerPut s n).trust = s.trust ∧ (ledgerPut s n).orders = s.orders ∧ (ledgerPut s n).mem = s.mem :=
  ⟨bump_trust _ _ _ _, bump_orders _ _ _ _, bump_mem _ _ _ _⟩

/-- What a reserved index leaves: the two records, the next index, orders and memories. -/
theorem reserved_leaves (s : State) : (∃ b, (reserveIndex s true true true).1.trust = { s.trust with
      index0 := some (s.trust.next + 1), index1 := some (s.trust.next + 1), next := s.trust.next + 1, lowPosted := b })
    ∧ (reserveIndex s true true true).1.orders = s.orders ∧ (reserveIndex s true true true).1.mem = s.mem := by
  obtain ⟨⟨b, htrust⟩, horders, hmem⟩ := noteLow_leaves (withSpent s)
  have hspent : (withSpent s).trust = { s.trust with index0 := some (s.trust.next + 1), next := s.trust.next + 1 } :=
    bump_trust _ _ _ _
  obtain ⟨hputTrust, hputOrders, hputMem⟩ := ledgerPut_leaves { noteLow (withSpent s) with
    trust := { (noteLow (withSpent s)).trust with index1 := some (s.trust.next + 1) } } (s.trust.next + 1)
  rw [reserveIndex_of_written]
  refine ⟨⟨b, hputTrust.trans ?_⟩, hputOrders.trans (horders.trans (bump_orders _ _ _ _)),
    hputMem.trans (hmem.trans (bump_mem _ _ _ _))⟩
  rw [htrust, hspent]

section
variable {s : State} (henabled : s.trust.signDisabled = false) (hleft : s.trust.next < indexEnd) (o : Order)
include henabled hleft

/-- What is signed for an order (R394). -/
def signFor (s : State) (o : Order) : Sign :=
  { order := (o.mailbox, o.number), quote := quoteBytes s (slice o.bytes 0x28 32) s.trust.next, index := s.trust.next }

theorem beginSign_of_written : beginSign s o true true true = { (reserveIndex s true true true).1 with
    trust := { (reserveIndex s true true true).1.trust with signing := some (signFor s o) } } := by
  unfold beginSign
  rw [if_neg (by simp [henabled]), if_neg (by omega)]
  rfl

theorem beginSign_of_failed (ok1 okC : Bool) : beginSign s o false ok1 okC =
    complete (postEvent { s with trust := { s.trust with index0 := none } } 0x45 (items [1])) o eDataLost
      (resultDetail 0 attestLen) := by
  unfold beginSign
  rw [if_neg (by simp [henabled]), if_neg (by omega)]
  rfl

end

/-- A completion leaves the trust block and the memories. -/
theorem complete_trust (s : State) (o : Order) (st : BitVec 8) (d : List Byte) : (complete s o st d).trust = s.trust := by
  rw [complete_eq]

theorem complete_mem (s : State) (o : Order) (st : BitVec 8) (d : List Byte) : (complete s o st d).mem = s.mem := by
  rw [complete_eq]

/-! The orders. -/

/-- The state in which an ATTEST order has begun and waits to be signed. -/
def attestQueued (s : State) (o : Order) : State := { beginOrder s o with
  trust := { s.trust with signQ := s.trust.signQ ++ [(o.mailbox, o.number)] } }

/-- The state in which an ATTEST order has begun, none other being queued. -/
def attestBegun (s : State) (o : Order) : State := unqueued (attestQueued s o)

section
variable {s : State} {m n : Nat} {o : Order} (hadm : Safety.Admitted s m n 0x11 o)
include hadm

theorem exec_attest_of_small (h : o.resultLen < attestLen) (ok0 ok1 okC : Bool) :
    exec (.attest m n ok0 ok1 okC) s = .next (complete s o eRange (resultDetail 0 attestLen)) :=
  congrArg Host.Outcome.next ((orderCmd_of_admitted hadm _).trans (if_pos h))

theorem exec_attest_of_idle (hlen : attestLen ≤ o.resultLen) (hheld : held s o = false) (hq : s.trust.signQ = [])
    (hidle : s.trust.signing = none) (hpair : s.trust.generating = false) {ok0 ok1 okC : Bool}
    (hdone : (beginSign (attestBegun s o) { o with begun := true } ok0 ok1 okC).trust.signQ = []) :
    exec (.attest m n ok0 ok1 okC) s = .next (beginSign (attestBegun s o) { o with begun := true } ok0 ok1 okC) := by
  refine congrArg Host.Outcome.next ((orderCmd_of_admitted hadm _).trans ((if_neg (by omega)).trans ?_))
  have horder := order_of_admitted hadm
  obtain ⟨rfl, rfl⟩ := mailbox_number_of_order horder
  have hqueued : (attestQueued s o).trust.signQ = [(o.mailbox, o.number)] := by
    show s.trust.signQ ++ [(o.mailbox, o.number)] = _
    rw [hq]
    rfl
  have horder' : (attestQueued s o).order o.mailbox o.number = some { o with begun := true } := order_beginOrder horder
  exact signNext_of_one (s := attestQueued s o) hqueued hidle hpair horder' hheld hdone

end

section
variable {s : State}

theorem exec_signatureRelease_of_none (h : s.trust.signing = none) (ok0 ok1 okC : Bool) :
    exec (.signatureRelease ok0 ok1 okC) s = .next s := by
  refine congrArg Host.Outcome.next ?_
  simp only [h]

/-- The state with no signing under way. -/
def withoutSigning (s : State) : State := { s with trust := { s.trust with signing := none } }

theorem exec_signatureRelease_of_some {g : Sign} (h : s.trust.signing = some g) (ok0 ok1 okC : Bool) :
    exec (.signatureRelease ok0 ok1 okC) s = .next (signNext (withoutSigning (releaseQuote s g)) ok0 ok1 okC) := by
  refine congrArg Host.Outcome.next ?_
  simp only [h]
  rfl

theorem exec_ephemeralKeyGeneration_of_none (h : s.trust.generating = false) (ok0 ok1 okC : Bool) :
    exec (.ephemeralKeyGeneration ok0 ok1 okC) s = .next s :=
  congrArg Host.Outcome.next (if_neg (by simp [h]))

theorem exec_ephemeralKeyGeneration_of_due (h : s.trust.generating = true) (hq : s.trust.signQ = []) (ok0 ok1 okC : Bool) :
    exec (.ephemeralKeyGeneration ok0 ok1 okC) s = .next (newPair s) :=
  congrArg Host.Outcome.next ((if_pos h).trans (signNext_of_empty (show (newPair s).trust.signQ = [] from hq) ok0 ok1 okC))

/-- A quote released ends its order, and leaves the trust block and the memories. -/
theorem releaseQuote_leaves {g : Sign} {o : Order} (horder : s.order g.order.1 g.order.2 = some o) (hheld : held s o = false) :
    (releaseQuote s g).trust = s.trust ∧ (releaseQuote s g).mem = s.mem
      ∧ (releaseQuote s g).order g.order.1 g.order.2 = none := by
  obtain ⟨hmailbox, hnumber⟩ := mailbox_number_of_order horder
  unfold releaseQuote
  simp only [horder, hheld, Bool.false_eq_true, if_false]
  generalize g.quote ++ slice (Config.xmssMtSign g.index g.quote) 0 9893 ++ leBytes 3 0 ++ deviceCert s = d
  have hsent := resultPart_sendResult s o d
  have hheld' : held (sendResult s o d) o = false :=
    (congrArg (fun t : Trust => t.closeStatus.any (fun x => x.1 == o.mailbox && x.2.1 == o.number))
      (congrArg State.trust hsent :)).trans hheld
  have hdone := order_complete hheld' eOk (resultDetail attestLen attestLen)
  rw [hmailbox, hnumber] at hdone
  refine ⟨(bump_trust _ _ _ _).trans ((complete_trust _ _ _ _).trans (congrArg State.trust hsent :)),
    (bump_mem _ _ _ _).trans ((complete_mem _ _ _ _).trans (congrArg State.mem hsent :)), ?_⟩
  exact (congrArg (List.find? _) (bump_orders _ _ _ _)).trans hdone

end

/-- Settles O54: what reserving an index leaves, the two ends of an ATTEST that begins, and a quote's release. -/
theorem attestationSigns : Obligations.AttestationSigns := by
  unfold Obligations.AttestationSigns
  refine fun s => ⟨fun m n o a b c hadm h => exec_attest_of_small hadm h a b c,
    fun m n o hadm hlen hheld hq hidle hpair henabled hleft => ?_, fun a b c h => exec_signatureRelease_of_none h a b c,
    fun g o a b c hsign hq horder hheld => ?_, fun a b c h => exec_ephemeralKeyGeneration_of_none h a b c,
    fun a b c h hq => ⟨_, exec_ephemeralKeyGeneration_of_due h hq a b c, rfl, rfl, rfl, rfl⟩⟩
  case refine_1 =>
    have horder := order_of_admitted hadm
    obtain ⟨rfl, rfl⟩ := mailbox_number_of_order horder
    have hbegunQ : (attestBegun s o).trust.signQ = [] := by
      show (s.trust.signQ ++ [(o.mailbox, o.number)]).tail = []
      rw [hq]
      rfl
    refine ⟨?_, fun b c => ?_⟩
    · obtain ⟨⟨low, htrust⟩, horders, hmem⟩ := reserved_leaves (attestBegun s o)
      have hsigned := beginSign_of_written (s := attestBegun s o) henabled hleft { o with begun := true }
      generalize (reserveIndex (attestBegun s o) true true true).1 = r at htrust horders hmem hsigned
      have hdone : (beginSign (attestBegun s o) { o with begun := true } true true true).trust.signQ = [] := by
        rw [hsigned, htrust]
        exact hbegunQ
      refine ⟨_, signFor (attestBegun s o) { o with begun := true }, exec_attest_of_idle hadm hlen hheld hq hidle hpair hdone, ?_,
        rfl, rfl, rfl, ?_, ?_, ?_, ?_, ?_⟩
      all_goals rw [hsigned]
      · dsimp only
        rw [htrust]
        rfl
      · dsimp only
        rw [htrust]
        rfl
      · dsimp only
        rw [htrust]
        rfl
      · have hfound : State.order { r with trust := { r.trust with
            signing := some (signFor (attestBegun s o) { o with begun := true }) } } o.mailbox o.number = some { o with begun := true } :=
          (congrArg (List.find? _) horders).trans (order_beginOrder horder)
        rw [hfound]
        rfl
      · exact hmem
    · have hfailed := beginSign_of_failed (s := attestBegun s o) henabled hleft { o with begun := true } b c
      have hkept := postEvent_frame { attestBegun s o with trust := { (attestBegun s o).trust with index0 := none } } 0x45 (items [1])
      generalize postEvent { attestBegun s o with trust := { (attestBegun s o).trust with index0 := none } } 0x45 (items [1]) = t
        at hfailed hkept
      have htrust : (complete t { o with begun := true } eDataLost (resultDetail 0 attestLen)).trust =
          { (attestBegun s o).trust with index0 := none } :=
        (complete_trust _ _ _ _).trans (congrArg State.trust hkept :)
      have hheld' : held t { o with begun := true } = false :=
        (congrArg (fun t : Trust => t.closeStatus.any (fun x => x.1 == o.mailbox && x.2.1 == o.number))
          (congrArg State.trust hkept :)).trans hheld
      have hended := order_complete hheld' eDataLost (resultDetail 0 attestLen)
      have hdone : (beginSign (attestBegun s o) { o with begun := true } false b c).trust.signQ = [] := by
        rw [hfailed, htrust]
        exact hbegunQ
      refine ⟨_, exec_attest_of_idle hadm hlen hheld hq hidle hpair hdone, ?_⟩
      rw [hfailed, htrust]
      exact ⟨hidle, rfl, rfl, hended, (complete_mem _ _ _ _).trans (congrArg State.mem hkept :)⟩
  case refine_2 =>
    obtain ⟨htrust, hmem, hended⟩ := releaseQuote_leaves horder hheld
    have hexec := exec_signatureRelease_of_some hsign a b c
    rw [signNext_of_empty (show (withoutSigning (releaseQuote s g)).trust.signQ = [] from (congrArg Trust.signQ htrust).trans hq)] at hexec
    exact ⟨_, hexec, rfl, hended, (congrArg Trust.next htrust :), hmem⟩

end Sys2Proof.Machine
end

section
/-!
SUPPORT. Sessions opened and closed (R396 to R402, R405).
-/

namespace Sys2Proof.Machine

/-! A queue pair but for what is sent to its host and what waits for it. -/

/-- A queue pair without what sending and completing change of it. -/
def Qp.quiet (v : Qp) : Qp := { v.unsent with waiting := [] }

/-- The queue pair of a number, without what sending and completing change of it. -/
def quietQp (s : State) (q : Nat) : Option Qp := (s.qp q).map Qp.quiet

@[simp] theorem quietQp_bump (s : State) (k : Nat × Nat) (u n q : Nat) : quietQp (s.bump k u n) q = quietQp s q :=
  congrArg (Option.map Qp.quiet) (bump_qp s k u n q)

@[simp] theorem quietQp_deliver (s : State) (r : Nat) (c : Completion) (q : Nat) : quietQp (deliver s r c) q = quietQp s q := by
  unfold quietQp
  by_cases hq : q = r
  · subst hq
    cases hv : s.qp q with
    | none => simp [deliver, qpUp, hv]
    | some v =>
      rw [qp_deliver_same hv]
      unfold Qp.withWaiting
      split <;> rfl
  · rw [qp_deliver_other hq]

theorem quietQp_foldl_eventTo (c : Completion) (l : List (Nat × Qp)) (s : State) (q : Nat) :
    quietQp (l.foldl (eventTo c) s) q = quietQp s q := by
  refine foldl_leaves (g := (quietQp · q)) (f := eventTo c) (fun t p => ?_) l s
  unfold eventTo
  split
  · rw [quietQp_bump, quietQp_deliver]
  · rfl

@[simp] theorem quietQp_postEvent (s : State) (code : Nat) (d : List Byte) (q : Nat) :
    quietQp (postEvent s code d) q = quietQp s q := by
  unfold postEvent
  dsimp only
  split
  · rfl
  · rw [deliverEvent_eq, quietQp_foldl_eventTo]
    rfl

@[simp] theorem quietQp_complete (s : State) (o : Order) (st : BitVec 8) (d : List Byte) (q : Nat) :
    quietQp (complete s o st d) q = quietQp s q := by
  by_cases hheld : held s o = true
  · exact congrArg (quietQp · q) (if_pos hheld)
  · rw [complete_of_not_held (by simpa using hheld), quietQp_deliver]
    exact congrArg (fun l => (look q l).map Qp.quiet) (countEnd_qps (withoutOrder s o) o.code st)

@[simp] theorem quietQp_roce (s : State) (r : Nat) (o : Out) (q : Nat) : quietQp (roce s r o) q = quietQp s q := by
  unfold quietQp
  by_cases hq : q = r
  · subst hq
    have hquiet (x : Option Qp) : x.map Qp.quiet = (x.map Qp.unsent).map Qp.quiet := by cases x <;> rfl
    rw [hquiet, qp_roce_same, ← hquiet]
  · rw [qp_roce_other hq]

@[simp] theorem quietQp_sendResult (s : State) (o : Order) (d : List Byte) (q : Nat) :
    quietQp (sendResult s o d) q = quietQp s q := by
  unfold sendResult
  split
  · dsimp only
    split
    · rfl
    · exact quietQp_roce _ _ _ q
  · rfl

@[simp] theorem quietQp_hostAsk (s : State) (o : Order) (q : Nat) : quietQp (hostAsk s o) q = quietQp s q := by
  unfold hostAsk
  split
  · exact quietQp_roce _ _ _ q
  · rfl

/-! Orders that ask the host. -/

theorem hostAsk_trust (s : State) (o : Order) : (hostAsk s o).trust = s.trust := (congrArg State.trust (resultPart_hostAsk s o) :)

theorem hostAsk_mem (s : State) (o : Order) : (hostAsk s o).mem = s.mem := (congrArg State.mem (resultPart_hostAsk s o) :)

@[simp] theorem issuePart_hostAsk (s : State) (o : Order) : issuePart (hostAsk s o) = issuePart s := by
  unfold hostAsk
  split
  · exact issuePart_hostReq _ _ _ _ _ _
  · rfl

@[simp] theorem issuePart_sendResult (s : State) (o : Order) (d : List Byte) : issuePart (sendResult s o d) = issuePart s := by
  unfold sendResult
  split
  · dsimp only
    split
    · rfl
    · exact issuePart_roce _ _ _
  · rfl

theorem hostAsk_orders (s : State) (o : Order) : (hostAsk s o).orders = s.orders := (congrArg State.orders (issuePart_hostAsk s o) :)

/-- Whether an order is held rests on the closing of a session alone. -/
theorem held_congr {s t : State} (h : t.trust.closeStatus = s.trust.closeStatus) (o : Order) : held t o = held s o :=
  congrArg (List.any · (fun x : Nat × Nat × BitVec 8 => x.1 == o.mailbox && x.2.1 == o.number)) h

/-- What the host returned was read on a queue pair in use. -/
theorem exists_qp_of_hostRead {s : State} {o : Order} {d : Option (List Byte)} {n : Nat} {b : List Byte}
    (h : hostRead s o d n = some b) : ∃ v, s.qp o.qp = some v := by
  cases hv : s.qp o.qp with
  | none => simp [hostRead, qpUp, hv] at h
  | some v => exact ⟨v, rfl⟩

/-! Opening a session. -/

/-- The session that a request opens (R399). -/
def openedSession (s : State) (ss req : List Byte) : Session :=
  { id := derived "ZQS6 session" ss req, binding := derived "ZQS6 binding" ss req, secret := ss
    k1 := (random s 32).1, k2 := (random s.draw 32).1 }

/-- The state with the tables of a session's counters at zero and its queue pair bound, before the rest of it is made. -/
def sessionBound (s : State) (q : Nat) : State :=
  (s.draw.draw.zeroTables sessionTable).onQp q (fun v => { v with bound := true })

/-- The state in which a session has been made, before that is posted. -/
def sessionMade (s : State) (q : Nat) (ss req : List Byte) : State :=
  { sessionBound s q with
    mem := { (sessionBound s q).mem with xlate := [], filled := [] }
    cores := (sessionBound s q).cores.map (fun (c : Nat × Core) => (c.1, { c.2 with xcache := [] }))
    trust := { (sessionBound s q).trust with session := some (openedSession s ss req), generating := true, ek := [], dk := [] } }

theorem openNow_eq (s : State) (q : Nat) (ss req : List Byte) : openNow s q ss req =
    postEvent ((sessionMade s q ss req).bump Ctr.sessionsOpened 0 1) 0x46 (openedSession s ss req).id := rfl

theorem issuePart_sessionBound (s : State) (q : Nat) : issuePart (sessionBound s q) = issuePart s :=
  (issuePart_onQp _ _ _).trans rfl

/-- What opening a session leaves and makes. -/
theorem openNow_leaves (s : State) (q : Nat) (ss req : List Byte) :
    (openNow s q ss req).trust = { s.trust with session := some (openedSession s ss req), generating := true, ek := [], dk := [] }
      ∧ (openNow s q ss req).mem = { s.mem with xlate := [], filled := [] } ∧ (openNow s q ss req).tensors = s.tensors := by
  have hbound := issuePart_sessionBound s q
  have htrust : (sessionBound s q).trust = s.trust := (congrArg State.trust hbound :)
  have hmem : (sessionBound s q).mem = s.mem := (congrArg State.mem hbound :)
  have htensors : (sessionBound s q).tensors = s.tensors := (congrArg State.tensors hbound :)
  rw [openNow_eq]
  refine ⟨?_, ?_, ?_⟩
  · rw [postEvent_trust, bump_trust, ← htrust]
    rfl
  · rw [postEvent_mem, bump_mem, ← hmem]
    rfl
  · rw [postEvent_tensors, bump_tensors, ← htensors]
    rfl

theorem quietQp_openNow {s : State} {q : Nat} {v : Qp} (hv : s.qp q = some v) (ss req : List Byte) :
    quietQp (openNow s q ss req) q = some { v.quiet with bound := true } := by
  have hbound : (sessionBound s q).qp q = some { v with bound := true } :=
    (qp_onQp_same (s.draw.draw.zeroTables sessionTable) q _).trans (congrArg (Option.map _) hv)
  rw [openNow_eq, quietQp_postEvent, quietQp_bump]
  exact congrArg (Option.map Qp.quiet) hbound

/-- The result of an OPEN_SESSION (R398). -/
def acceptRecord (s : State) (ss req : List Byte) : List Byte :=
  leBytes 2 1 ++ leBytes 6 0 ++ leBytes 8 s.beat.number ++ derived "ZQS6 accept" ss req

/-- The state in which a session is open and its order has ended. -/
def sessionOpened (s : State) (o : Order) (ss req : List Byte) : State :=
  complete (sendResult (openNow s o.qp ss req) o (acceptRecord (openNow s o.qp ss req) ss req)) o eOk (resultDetail 48 48)

section
variable {s : State} {m n : Nat} {d : Option (List Byte)} {o : Order} {b : List Byte} (hadm : Safety.Admitted s m n 0x0F o)
include hadm

theorem exec_openSession_of_small (h : o.resultLen < 48) :
    exec (.openSession m n d) s = .next (complete s o eRange (resultDetail 0 48)) :=
  congrArg Host.Outcome.next ((orderCmd_of_admitted hadm _).trans (if_pos h))

variable (hlen : 48 ≤ o.resultLen)
include hlen

theorem exec_openSession_of_other_length (h : field o.bytes 0x2C 4 ≠ 1672) :
    exec (.openSession m n d) s = .next (complete s o ePlan (resultDetail 0 48)) :=
  congrArg Host.Outcome.next ((orderCmd_of_admitted hadm _).trans ((if_neg (by omega)).trans (if_pos h)))

variable (hreq : field o.bytes 0x2C 4 = 1672) (hread : hostRead (hostAsk s o) o d 1672 = some b)
include hreq hread

/-- A request that was read is judged by its form, by the pair it names, and by its confirmation (R397). -/
theorem exec_openSession_of_read : exec (.openSession m n d) s = .next (
    if field b 0 2 ≠ 1 ∨ field b 2 6 ≠ 0 ∨ s.trust.session.isSome ∨ indexEnd ≤ s.trust.next then
      complete (hostAsk s o) o ePlan (resultDetail 0 48)
    else if s.trust.generating ∨ slice b 8 32 ≠ shake256 s.trust.ek 32 then
      complete (hostAsk s o) o eAuth (resultDetail 0 48)
    else if slice b 0x668 32 ≠ derived "ZQS6 confirm" (Config.mlkemDecaps s.trust.dk (slice b 0x48 1568)) b then
      complete (hostAsk s o) o eAuth (resultDetail 0 48)
    else sessionOpened (hostAsk s o) o (Config.mlkemDecaps s.trust.dk (slice b 0x48 1568)) b) := by
  refine congrArg Host.Outcome.next ((orderCmd_of_admitted hadm _).trans ((if_neg (by omega)).trans ((if_neg (by simpa using hreq)).trans ?_)))
  dsimp only
  rw [hreq, hread, ← hostAsk_trust s o]
  rfl

end

/-! Closing a session. -/

/-- The runs that are ended leave the trust block. -/
theorem endAllRuns_trust (s : State) (st : BitVec 8) : (endAllRuns s st).trust = s.trust := by
  refine foldl_leaves (g := State.trust) (f := fun s t => cancelRun s t st) (fun x t => ?_) _ s
  unfold cancelRun
  split
  · rfl
  case h_2 r hlive =>
    split
    · exact (congrArg State.trust (endPart_endRun hlive st) :).trans rfl
    · exact (congrArg State.trust (issuePart_stopRun x t st 0xFFFF) :)

theorem endAllRuns_keys (s : State) (st : BitVec 8) : (endAllRuns s st).keys = s.keys :=
  congrArg Prod.fst (configPart_endAllRuns s st)

theorem endPart_closeTxn (s : State) : endPart (closeTxn s) = endPart s := by
  unfold closeTxn
  split
  · rfl
  · dsimp only
    split
    · exact (show endPart (mgmtAll s 4 []) = endPart s from endPart_mgmtAll s 4 [])
    · rfl

/-- The state in which a session's keys are destroyed and its orders are to end, before the rest is wiped (R401). -/
def sessionClosing (s : State) (o : Order) : State := { s with
  orders := mapIf (fun x => qpBound s x.qp) (fun x => { x with begun := true }) s.orders
  trust := { s.trust with closing := some (o.mailbox, o.number, s.now), closeStatus := endedOrders s o
                          session := s.trust.session.map (fun e => { e with k1 := [], k2 := [] }) } }

theorem closeSessionOwn_eq (s : State) (o : Order) :
    closeSessionOwn s o = wipeSession (endAllRuns (closeTxn (sessionClosing s o)) eAuth) := rfl

theorem closeSessionOwn_trust (s : State) (o : Order) : (closeSessionOwn s o).trust = (sessionClosing s o).trust :=
  (endAllRuns_trust _ _).trans (congrArg State.trust (endPart_closeTxn (sessionClosing s o)) :)

theorem closeSessionOwn_keys (s : State) (o : Order) : (closeSessionOwn s o).keys = s.keys.filter (fun k => !keySlot k.1) :=
  congrArg (List.filter (fun k : Nat × List Byte => !keySlot k.1))
    ((endAllRuns_keys _ _).trans (congrArg State.keys (endPart_closeTxn (sessionClosing s o)) :))

/-- A key that is taken out of no list by a filter is found as before. -/
theorem look_filter_of_kept {α : Type} {k : Nat} {p : Nat × α → Bool} (hp : ∀ v, p (k, v) = true) (l : List (Nat × α)) :
    look k (l.filter p) = look k l := by
  induction l with
  | nil => rfl
  | cons e l ih =>
    obtain ⟨j, v⟩ := e
    by_cases hj : j = k
    · subst hj
      rw [List.filter_cons_of_pos (hp v)]
      simp [look]
    · by_cases hkeep : p (j, v) = true
      · rw [List.filter_cons_of_pos hkeep]
        simp only [look, if_neg hj, ih]
      · rw [List.filter_cons_of_neg hkeep, ih]
        simp only [look, if_neg hj]

/-- The trust block, the keys and the memories. -/
def sealedPart (s : State) : Trust × List (Nat × List Byte) × Memory := (s.trust, s.keys, s.mem)

theorem sealedPart_endRun (s : State) (t : Nat) (st : BitVec 8) : sealedPart (endRun s t st) = sealedPart s := by
  cases hlive : s.live t with
  | none => simp [endRun, hlive]
  | some r => exact (congrArg sealedPart (endPart_endRun hlive st) :).trans rfl

theorem sealedPart_complete (s : State) (o : Order) (st : BitVec 8) (d : List Byte) :
    sealedPart (complete s o st d) = sealedPart s := by
  rw [complete_eq]
  rfl

theorem sealedPart_endHeld (s : State) (x : Nat × Nat × BitVec 8) : sealedPart (endHeld s x) = sealedPart s := by
  unfold endHeld
  split
  · rfl
  · exact sealedPart_complete _ _ _ _

/-- The state in which the runs and the orders of a session that closes have ended (R401). -/
def sessionEnded (s : State) (m n : Nat) : State :=
  let t := s.trust.closeStatus.foldl endHeld
    (((s.runs.filter (fun r => r.state != 3)).map (fun r => r.tag)).foldl (fun s t => endRun s t eAuth)
      { s with trust := { s.trust with closing := none, closeStatus := [] } })
  match t.order m n with
  | some o => complete t o eOk []
  | none => t

theorem sealedPart_sessionEnded (s : State) (m n : Nat) : sealedPart (sessionEnded s m n) =
    ({ s.trust with closing := none, closeStatus := [] }, s.keys, s.mem) := by
  have hended : sealedPart (s.trust.closeStatus.foldl endHeld
      (((s.runs.filter (fun r => r.state != 3)).map (fun r => r.tag)).foldl (fun s t => endRun s t eAuth)
        { s with trust := { s.trust with closing := none, closeStatus := [] } })) =
      ({ s.trust with closing := none, closeStatus := [] }, s.keys, s.mem) :=
    (foldl_leaves (g := sealedPart) (f := endHeld) sealedPart_endHeld _ _).trans
      (foldl_leaves (g := sealedPart) (f := fun s t => endRun s t eAuth) (fun s t => sealedPart_endRun s t eAuth) _ _)
  unfold sessionEnded
  dsimp only
  split
  · exact (sealedPart_complete _ _ _ _).trans hended
  · exact hended

/-- The state in which a session is closed, before that is posted. -/
def sessionClosed (s : State) (m n : Nat) : State := { sessionEnded s m n with
  mem := { (sessionEnded s m n).mem with zeroing := true, zeroAt := 0 }
  runs := [], qps := (sessionEnded s m n).qps.map (fun q => (q.1, { q.2 with bound := false }))
  trust := { (sessionEnded s m n).trust with session := none } }

/-- The identifier of the session of a state. -/
def sessionId (s : State) : List Byte :=
  match s.trust.session with
  | some e => e.id
  | none => []

section
variable {s : State}

theorem exec_closeSessionComplete_of_none (h : s.trust.closing = none) : exec .closeSessionComplete s = .next s := by
  refine congrArg Host.Outcome.next ?_
  simp only [h]

theorem exec_closeSessionComplete_of_waiting (h : hostPeerInFlight s = true) : exec .closeSessionComplete s = .next s := by
  refine congrArg Host.Outcome.next ?_
  split
  · rfl
  · rw [if_pos h]

theorem exec_closeSessionComplete_of_done {m n t : Nat} (h : s.trust.closing = some (m, n, t)) (hquiet : hostPeerInFlight s = false) :
    exec .closeSessionComplete s = .next (postEvent (sessionClosed s m n) 0x47 (sessionId s)) := by
  refine congrArg Host.Outcome.next ?_
  simp only [h, hquiet, Bool.false_eq_true, if_false]
  rfl

end

/-- A queue pair of a list that is unbound is bound to no session. -/
theorem bound_of_look_map {q : Nat} {v : Qp} {l : List (Nat × Qp)}
    (h : look q (l.map (fun q => (q.1, { q.2 with bound := false }))) = some v) : v.bound = false := by
  obtain ⟨e, -, he⟩ := List.mem_map.mp (look_mem h)
  exact (congrArg (fun p : Nat × Qp => p.2.bound) he).symm

/-- Settles O55: a request by the order of its checks, what closing wipes, and the end of a close. -/
theorem sessionsOpenAndClose : Obligations.SessionsOpenAndClose := by
  unfold Obligations.SessionsOpenAndClose
  dsimp only
  refine ⟨fun s m n d o b hadm => ⟨exec_openSession_of_small hadm, exec_openSession_of_other_length hadm,
      fun hlen hreq hread => ⟨fun hformed => ?_, fun hformed hknown => ?_, fun hformed hknown hconfirm => ?_,
        fun hformed hknown hconfirm hheld hrun => ?_⟩⟩,
    fun s => ⟨fun m n o hadm => ?_, exec_closeSessionComplete_of_none, exec_closeSessionComplete_of_waiting, fun x hx hquiet => ?_⟩⟩
  case refine_1 =>
    rw [exec_openSession_of_read hadm hlen hreq hread, if_pos]
    simpa only [not_and_or, not_lt, ← Option.not_isSome_iff_eq_none, not_not] using hformed
  case refine_2 =>
    obtain ⟨h1, h2, h3, h4⟩ := hformed
    rw [exec_openSession_of_read hadm hlen hreq hread, if_neg (by simp [h1, h2, h3, Nat.not_le.mpr h4]), if_pos]
    simpa only [not_and_or, Bool.not_eq_false] using hknown
  case refine_3 =>
    obtain ⟨h1, h2, h3, h4⟩ := hformed
    obtain ⟨h5, h6⟩ := hknown
    rw [exec_openSession_of_read hadm hlen hreq hread, if_neg (by simp [h1, h2, h3, Nat.not_le.mpr h4]),
      if_neg (by simp [h5, h6]), if_pos hconfirm]
  case refine_4 =>
    obtain ⟨h1, h2, h3, h4⟩ := hformed
    obtain ⟨h5, h6⟩ := hknown
    have hexec := exec_openSession_of_read hadm hlen hreq hread
    rw [if_neg (by simp [h1, h2, h3, Nat.not_le.mpr h4]), if_neg (by simp [h5, h6]), if_neg (not_not.mpr hconfirm)] at hexec
    generalize Config.mlkemDecaps s.trust.dk (slice b 0x48 1568) = ss at hexec ⊢
    obtain ⟨v, hv⟩ := exists_qp_of_hostRead hread
    obtain ⟨htrust, hmem, htensors⟩ := openNow_leaves (hostAsk s o) o.qp ss b
    have hquiet := quietQp_openNow hv ss b
    have hsent := resultPart_sendResult (openNow (hostAsk s o) o.qp ss b) o (acceptRecord (openNow (hostAsk s o) o.qp ss b) ss b)
    have hquiet' := (quietQp_sendResult (openNow (hostAsk s o) o.qp ss b) o
      (acceptRecord (openNow (hostAsk s o) o.qp ss b) ss b) o.qp).trans hquiet
    unfold sessionOpened at hexec
    generalize sendResult (openNow (hostAsk s o) o.qp ss b) o (acceptRecord (openNow (hostAsk s o) o.qp ss b) ss b) = t
      at hexec hsent hquiet'
    have htrust' : t.trust = (openNow (hostAsk s o) o.qp ss b).trust := (congrArg State.trust hsent :)
    have hmem' : t.mem = (openNow (hostAsk s o) o.qp ss b).mem := (congrArg State.mem hsent :)
    have hclose : t.trust.closeStatus = s.trust.closeStatus := by
      rw [htrust', htrust]
      exact (congrArg Trust.closeStatus (hostAsk_trust s o) :)
    have hheld' : held t o = false := (held_congr hclose o).trans hheld
    obtain ⟨x, hx, hbound⟩ := Option.map_eq_some_iff.mp ((quietQp_complete t o eOk (resultDetail 48 48) o.qp).trans hquiet')
    obtain ⟨rfl, rfl⟩ := mailbox_number_of_order (order_of_admitted hadm)
    refine ⟨_, openedSession (hostAsk s o) ss b, x, hexec, ?_, rfl, rfl, by simp [openedSession, random],
      by simp [openedSession, random], ?_, hx, (congrArg Qp.bound hbound :), ?_, order_complete hheld' eOk _, ?_⟩
    · rw [complete_trust, htrust', htrust]
    · rw [complete_trust, htrust', htrust]
    · rw [complete_mem, hmem', hmem, hostAsk_mem]
    · rw [complete_eq]
      exact (congrArg State.tensors hsent :).trans (htensors.trans (congrArg State.tensors (resultPart_hostAsk s o) :))
  case refine_5 =>
    obtain ⟨rfl, rfl⟩ := mailbox_number_of_order (order_of_admitted hadm)
    have htrust := closeSessionOwn_trust s o
    have hkeys := closeSessionOwn_keys s o
    refine ⟨_, congrArg Host.Outcome.next (orderCmd_of_admitted hadm closeSessionOwn), ?_, ?_, fun e he => ?_, rfl, rfl, rfl, rfl,
      rfl, rfl, rfl, rfl, rfl, fun k hk => ?_, fun p hp => ?_⟩
    · rw [htrust]
      rfl
    · rw [sessionOpen, htrust]
      exact Bool.and_false _
    · rw [htrust] at he
      obtain ⟨e', -, rfl⟩ := Option.map_eq_some_iff.mp he
      exact ⟨rfl, rfl⟩
    · rw [keyVal, hkeys]
      exact look_filter_of_kept (fun v => by simp [hk]) s.keys
    · rw [hkeys] at hp
      simpa using (List.mem_filter.mp hp).2
  case refine_6 =>
    obtain ⟨m, n, t⟩ := x
    obtain ⟨htrust, hsealed⟩ := Prod.mk.inj (sealedPart_sessionEnded s m n)
    obtain ⟨hkeys, hmem⟩ := Prod.mk.inj hsealed
    refine ⟨_, exec_closeSessionComplete_of_done hx hquiet, ?_, ?_, ?_, ?_, ?_, ?_, fun q v hv => ?_, ?_⟩
    · rw [postEvent_trust]
      rfl
    · rw [postEvent_trust]
      exact congrArg Trust.closing htrust
    · rw [postEvent_runs]
      rfl
    · rw [postEvent_mem]
      rfl
    · rw [postEvent_mem]
      rfl
    · rw [postEvent_mem]
      exact (congrArg Memory.ddr hmem :)
    · have hsame := quietQp_postEvent (sessionClosed s m n) 0x47 (sessionId s) q
      rw [quietQp, hv] at hsame
      obtain ⟨w, hw, hbound⟩ := Option.map_eq_some_iff.mp hsame.symm
      exact (congrArg Qp.bound hbound :).symm.trans (bound_of_look_map (v := w) (l := (sessionEnded s m n).qps) hw :)
    · rw [postEvent_keys]
      exact hkeys

end Sys2Proof.Machine
end

section
/-!
SUPPORT. UPDATE_FIRMWARE and FIRMWARE_STAGED (R386, R387, R403, R404).
-/

namespace Sys2Proof.Machine

/-- A copy is what the trust block has it to be. -/
theorem fwCopy_congr {s t : State} (h : t.trust = s.trust) (c : Nat) : fwCopy t c = fwCopy s c := by
  simp only [fwCopy, h]

/-- The other copy stays where one is replaced. -/
theorem fwCopy_setCopy_other {c j : Nat} (h : ¬ (c = 0 ↔ j = 0)) (s : State) (v : FwCopy) : fwCopy (setCopy s c v) j = fwCopy s j := by
  unfold fwCopy setCopy
  split <;> split <;> simp_all

/-- Of the trust block a copy replaced leaves the order being staged. -/
theorem setCopy_update (s : State) (c : Nat) (v : FwCopy) : (setCopy s c v).trust.update = s.trust.update
    ∧ (setCopy s c v).trust.closeStatus = s.trust.closeStatus := by
  unfold setCopy
  split <;> exact ⟨rfl, rfl⟩

/-! The order. -/

/-- The state in which a good image's write into the copy that does not run has begun (R403). -/
def stagingBegun (s : State) (o : Order) (b : List Byte) : State :=
  let t := setCopy (beginOrder s o) (1 - s.trust.running) { state := 0, image := b }
  { t with trust := { t.trust with update := some (o.mailbox, o.number, 1 - s.trust.running) } }

section
variable {s : State} {m n : Nat} {d : Option (List Byte)} {o : Order} {b : List Byte} (hadm : Safety.Admitted s m n 0x14 o)
  (hread : hostRead (hostAsk s o) o d (field o.bytes 0x2C 4) = some b)
include hadm hread

/-- An image that was read is judged by its header and the fuses, then by its signature and body. -/
theorem exec_updateFirmware_of_read : exec (.updateFirmware m n d) s = .next (
    if !headerOk b ∨ field o.bytes 0x2C 4 ≠ 4096 + field b 0x10 4 ∨ !fusesOk s b then complete (hostAsk s o) o ePlan []
    else if !(signatureOk b && bodyOk b) then complete (hostAsk s o) o eAuth []
    else stagingBegun (hostAsk s o) o b) := by
  refine congrArg Host.Outcome.next ((orderCmd_of_admitted hadm _).trans ?_)
  have hfuses : fusesOk s b = fusesOk (hostAsk s o) b := by simp only [fusesOk, hostAsk_trust]
  unfold updateFirmwareOwn
  dsimp only
  rw [hread, hfuses]
  rfl

end

/-! The end of its write. -/

/-- The state in which the copy being staged has its outcome, and none is being staged. -/
def withStaged (s : State) (c : Nat) (ok : Bool) : State :=
  setCopy { s with trust := { s.trust with update := none } } c { fwCopy s c with state := if ok then 1 else 3 }

/-- The state in which the order of an image staged has ended, and a good one has been posted. -/
def stagedEnded (s : State) (o : Order) (c : Nat) (ok : Bool) : State :=
  let t := complete (withStaged s c ok) o (if ok then eOk else eDataLost) []
  if ok then postEvent t 0x42 (items [c, field (fwCopy s c).image 0x0C 1]) else t

theorem exec_firmwareStaged_of_none {s : State} (h : s.trust.update = none) (ok : Bool) :
    exec (.firmwareStaged ok) s = .next s := by
  refine congrArg Host.Outcome.next ?_
  simp only [h]

theorem withStaged_leaves (s : State) (c : Nat) (ok : Bool) :
    (withStaged s c ok).orders = s.orders ∧ (withStaged s c ok).mem = s.mem := by
  unfold withStaged
  rw [setCopy_eq]
  exact ⟨rfl, rfl⟩

theorem exec_firmwareStaged_of_update {s : State} {m n c : Nat} {o : Order} (h : s.trust.update = some (m, n, c))
    (horder : s.order m n = some o) (ok : Bool) : exec (.firmwareStaged ok) s = .next (stagedEnded s o c ok) := by
  refine congrArg Host.Outcome.next ?_
  have horder' : (withStaged s c ok).order m n = some o := (congrArg (List.find? _) (withStaged_leaves s c ok).1).trans horder
  unfold withStaged at horder'
  simp only [h, horder']
  rfl

/-- What the end of a staging keeps of the state in which the copy has its outcome. -/
theorem stagedEnded_leaves {s : State} {o : Order} (hheld : held s o = false) (c : Nat) (ok : Bool) :
    (stagedEnded s o c ok).trust = (withStaged s c ok).trust ∧ (stagedEnded s o c ok).mem = s.mem
      ∧ (stagedEnded s o c ok).order o.mailbox o.number = none := by
  have hheld' : held (withStaged s c ok) o = false := (held_congr (setCopy_update _ c _).2 o).trans hheld
  have hended := order_complete hheld' (if ok then eOk else eDataLost) []
  have htrust := complete_trust (withStaged s c ok) o (if ok then eOk else eDataLost) []
  have hmem := (complete_mem (withStaged s c ok) o (if ok then eOk else eDataLost) []).trans (withStaged_leaves s c ok).2
  unfold stagedEnded
  generalize complete (withStaged s c ok) o (if ok then eOk else eDataLost) [] = t at hended htrust hmem
  dsimp only
  split
  · refine ⟨(postEvent_trust _ _ _).trans htrust, (postEvent_mem _ _ _).trans hmem, ?_⟩
    rw [postEvent_frame]
    exact hended
  · exact ⟨htrust, hmem, hended⟩

/-- Settles O56: an image's two judgements, its write begun, and the end of that write. -/
theorem firmwareIsStaged : Obligations.FirmwareIsStaged := by
  unfold Obligations.FirmwareIsStaged
  refine fun s => ⟨fun m n d o b hadm => ?_, fun ok h => exec_firmwareStaged_of_none h ok,
    fun m n c o ok hupdate hc horder hheld => ?_⟩
  case refine_1 =>
    dsimp only
    intro hread
    have hexec := exec_updateFirmware_of_read hadm hread
    refine ⟨fun hbad => ?_, fun ⟨h1, h2, h3⟩ hbad => ?_, fun ⟨h1, h2, h3⟩ hsig hbody hrun => ?_⟩
    · rw [hexec, if_pos]
      simpa only [not_and_or, Bool.not_eq_true', Bool.not_eq_true, ne_eq] using hbad
    · rw [hexec, if_neg (by simp [h1, h2.symm, h3]), if_pos]
      rcases hbad with h | h <;> simp [h]
    · rw [if_neg (by simp [h1, h2.symm, h3]), if_neg (by simp [hsig, hbody])] at hexec
      have hrunning : (hostAsk s o).trust.running = s.trust.running := congrArg Trust.running (hostAsk_trust s o)
      have hsame := fwCopy_setCopy_same (beginOrder (hostAsk s o) o) (1 - s.trust.running) { state := 0, image := b }
      have hother := fwCopy_setCopy_other (show ¬ (1 - s.trust.running = 0 ↔ s.trust.running = 0) by omega)
        (beginOrder (hostAsk s o) o) { state := 0, image := b }
      have hfuses := (setCopy_fuses (beginOrder (hostAsk s o) o) (1 - s.trust.running) { state := 0, image := b }).1
      have hframe := setCopy_eq (beginOrder (hostAsk s o) o) (1 - s.trust.running) { state := 0, image := b }
      unfold stagingBegun at hexec
      rw [hrunning] at hexec
      dsimp only at hexec
      generalize setCopy (beginOrder (hostAsk s o) o) (1 - s.trust.running) { state := 0, image := b } = t
        at hexec hsame hother hfuses hframe
      obtain ⟨rfl, rfl⟩ := mailbox_number_of_order (order_of_admitted hadm)
      refine ⟨_, hexec, hsame, hother.trans (fwCopy_congr (hostAsk_trust s o) _), rfl,
        hfuses.trans (congrArg Trust.fusedSvn (hostAsk_trust s o)), ?_⟩
      exact (congrArg State.mem hframe :).trans (hostAsk_mem s o)
  case refine_2 =>
    obtain ⟨rfl, rfl⟩ := mailbox_number_of_order horder
    obtain ⟨htrust, hmem, hended⟩ := stagedEnded_leaves hheld c ok
    obtain ⟨hsvn, hrevoked⟩ := setCopy_fuses { s with trust := { s.trust with update := none } } c
      { fwCopy s c with state := if ok then 1 else 3 }
    have hsame : fwCopy (stagedEnded s o c ok) c = { fwCopy s c with state := if ok then 1 else 3 } :=
      (fwCopy_congr htrust c).trans (fwCopy_setCopy_same _ _ _)
    refine ⟨_, exec_firmwareStaged_of_update hupdate horder ok, ?_, ?_, ?_, ?_, hended, ?_, ?_, hmem⟩
    · rw [hsame]
    · rw [hsame]
    · exact (fwCopy_congr htrust (1 - c)).trans (fwCopy_setCopy_other (show ¬ (c = 0 ↔ 1 - c = 0) by omega) _ _)
    · exact (congrArg Trust.update htrust).trans (setCopy_update _ _ _).1
    · exact (congrArg Trust.fusedSvn htrust).trans hsvn
    · exact (congrArg Trust.revoked htrust).trans hrevoked

end Sys2Proof.Machine
end

section
/-!
SUPPORT. Rounds of the arbiters (R372 to R374, R384) and the watchdog (R378 to R383, R412).
-/

namespace Sys2Proof.Machine

/-! Entries put one after another. -/

/-- What is put under other keys leaves a key's entry, whatever the values. -/
theorem look_foldl_put_of_notMem {α : Type} {k : Nat} {ks : List Nat} (h : k ∉ ks) (g : List (Nat × α) → Nat → α)
    (l : List (Nat × α)) : look k (ks.foldl (fun l j => put j (g l j) l) l) = look k l := by
  induction ks generalizing l with
  | nil => rfl
  | cons j ks ih =>
    simp only [List.mem_cons, not_or] at h
    exact (ih h.2 _).trans (look_put_other h.1 _ l)

/-- An entry put under each of several keys stands under each. -/
theorem look_foldl_put_of_mem {α : Type} {k : Nat} {ks : List Nat} (h : k ∈ ks) (v : α) (l : List (Nat × α)) :
    look k (ks.foldl (fun l j => put j v l) l) = some v := by
  induction ks generalizing l with
  | nil => exact absurd h List.not_mem_nil
  | cons j ks ih =>
    by_cases hk : k ∈ ks
    · exact ih hk _
    · obtain rfl : k = j := (List.mem_cons.mp h).resolve_right hk
      exact (look_foldl_put_of_notMem hk (fun _ _ => v) _).trans (look_put_same k v l)

/-- Of keys that differ each counts one on from its own entry. -/
theorem look_foldl_count_of_mem {k : Nat} {ks : List Nat} (hks : ks.Nodup) (h : k ∈ ks) (l : List (Nat × Nat)) :
    look k (ks.foldl (fun l j => put j ((look j l).getD 0 + 1) l) l) = some ((look k l).getD 0 + 1) := by
  induction ks generalizing l with
  | nil => exact absurd h List.not_mem_nil
  | cons j ks ih =>
    obtain ⟨hj, hks⟩ := List.nodup_cons.mp hks
    by_cases hk : k = j
    · subst hk
      exact (look_foldl_put_of_notMem hj (fun l j => (look j l).getD 0 + 1) _).trans (look_put_same k _ l)
    · refine (ih hks ((List.mem_cons.mp h).resolve_left hk) _).trans ?_
      rw [look_put_other hk]

/-! A round (R374). -/

/-- The requesters of a class that are raised, in the order of the class. -/
def arbRaised (cls : Nat) (raised : List Nat) : List Nat := (arbGroups cls).flatten.filter (fun r => raised.contains r)

theorem arb_setArb_same (s : State) (cls inst : Nat) (a : Arb) : (s.setArb cls inst a).arb cls inst = a := by
  simp [State.arb, State.setArb]

/-- The arbiter of a round after it, but for who holds an output port. -/
theorem exists_arb_arbRound (s : State) (cls inst : Nat) (raised : List Nat) : ∃ now h,
    (arbRound s cls inst raised).1.arb cls inst =
      { arbAfter (s.arb cls inst) (arbGroups cls).flatten (arbRaised cls raised) (arbRound s cls inst raised).2
          (keyNum s (0x0710 + cls) == 1) now with holder := h } := by
  unfold arbRound
  dsimp only
  exact ⟨_, _, arb_setArb_same _ _ _ _⟩

/-- No class names a requester twice. -/
theorem nodup_arbGroups (cls : Nat) : (arbGroups cls).flatten.Nodup := by
  unfold arbGroups
  split <;> decide

section
variable (a : Arb) {members raised winners : List Nat} (age : Bool) (now : Nat)

theorem wait_arbAfter_of_winner {r : Nat} (h : r ∈ winners) : look r (arbAfter a members raised winners age now).wait = some 0 := by
  have hnot : r ∉ raised.filter (fun r => !winners.contains r) := fun hr => by
    simpa [h] using (List.mem_filter.mp hr).2
  exact (look_foldl_put_of_notMem hnot (fun l j => (look j l).getD 0 + 1) _).trans (look_foldl_put_of_mem h 0 a.wait)

theorem wait_arbAfter_of_loser {r : Nat} (hraised : raised.Nodup) (hr : r ∈ raised) (h : r ∉ winners) :
    look r (arbAfter a members raised winners age now).wait = some ((look r a.wait).getD 0 + 1) := by
  have hlost : r ∈ raised.filter (fun r => !winners.contains r) := List.mem_filter.mpr ⟨hr, by simpa using h⟩
  refine (look_foldl_count_of_mem (hraised.filter _) hlost _).trans ?_
  rw [look_foldl_put_of_notMem h (fun _ _ => 0)]

end

/-- What a block path that loses a bank changes: its core and counters (R148). -/
def outsideCores (s : State) : State := { s with counters := [], cores := [] }

theorem outsideCores_bump (s : State) (k : Nat × Nat) (u n : Nat) : outsideCores (s.bump k u n) = outsideCores s := by
  rw [bump_frame]
  rfl

theorem outsideCores_blockLoses (s : State) (core q : Nat) : outsideCores (blockLoses s core q) = outsideCores s := by
  unfold blockLoses
  split
  · rfl
  · dsimp only
    split
    · rw [outsideCores_bump, outsideCores_bump]
      rfl
    · rw [outsideCores_bump]
      rfl

/-- The state after a round, with what block paths that lose count. -/
def roundDone (s : State) (cls inst : Nat) (raised : List Nat) : State :=
  if cls = 0 then (below 3 (fun q => raised.contains q && !(arbRound s cls inst raised).2.contains q)).foldl
    (fun s q => blockLoses s (inst / 128) q) (arbRound s cls inst raised).1
  else (arbRound s cls inst raised).1

theorem exec_arbiterRound_of_none {s : State} {cls inst : Nat} (h : arbInstances cls ≤ inst) (raised : List Nat) :
    exec (.arbiterRound cls inst raised) s = .next s :=
  congrArg Host.Outcome.next (if_pos h)

theorem exec_arbiterRound_of_instance {s : State} {cls inst : Nat} (h : inst < arbInstances cls) (raised : List Nat) :
    exec (.arbiterRound cls inst raised) s = .next (roundDone s cls inst raised) :=
  congrArg Host.Outcome.next (if_neg (by omega))

theorem outsideCores_roundDone (s : State) (cls inst : Nat) (raised : List Nat) :
    outsideCores (roundDone s cls inst raised) = outsideCores (arbRound s cls inst raised).1 := by
  unfold roundDone
  split
  · exact foldl_leaves (g := outsideCores) (f := fun s q => blockLoses s (inst / 128) q)
      (fun s q => outsideCores_blockLoses s (inst / 128) q) _ _
  · rfl

/-- With no wait at the limit and without AGE the first raised in the order is picked. -/
theorem arbPick_of_fresh {a : Arb} {order raised : List Nat} {limit : Nat} (h : ∀ j, (look j a.wait).getD 0 < limit) :
    arbPick a order limit false raised = ((order.filter (fun r => raised.contains r)).head?).map (fun r => (r, false)) := by
  unfold arbPick
  have hnone : (order.filter (fun r => raised.contains r)).find? (fun r => decide (limit ≤ (look r a.wait).getD 0)) = none :=
    List.find?_eq_none.mpr fun r _ => by simpa using h r
  dsimp only
  rw [hnone]
  rfl

/-- The lowest of the four egress classes raised is the first raised. -/
theorem head?_filter_range4 {r : Nat} {raised : List Nat} (hr : r < 4) (hraised : r ∈ raised) (hleast : ∀ j, j ∈ raised → r ≤ j) :
    ([0, 1, 2, 3].filter (fun r => raised.contains r)).head? = some r := by
  rw [List.head?_filter]
  refine (List.find?_range_eq_some (n := 4)).mpr ⟨by simpa using hraised, List.mem_range.mpr hr, fun j hj => ?_⟩
  simpa using fun hm => absurd (hleast j hm) (by omega)

/-- An egress arbiter in its order of reset grants the lowest class raised (R374). -/
theorem arbRound_egress {s : State} {inst r : Nat} {raised : List Nat} (hr : r < 4) (hraised : r ∈ raised)
    (hleast : ∀ j, j ∈ raised → r ≤ j) (horder : (s.arb 4 inst).order = [])
    (hwait : ∀ j, (look j (s.arb 4 inst).wait).getD 0 < keyNum s 0x0704) (hage : keyNum s 0x0714 ≠ 1) :
    (arbRound s 4 inst raised).2 = [r] := by
  have hmembers : ([0, 1, 2, 3] : List Nat).filter (fun j => [0, 1, 2, 3].contains j) = [0, 1, 2, 3] := by decide
  have hup : ([0, 1, 2, 3] : List Nat).filter (fun j => (([0, 1, 2, 3] : List Nat).filter (fun j => raised.contains j)).contains j)
      = [0, 1, 2, 3].filter (fun j => raised.contains j) := by
    refine List.filter_congr fun j hj => ?_
    rw [Bool.eq_iff_iff, List.contains_iff_mem, List.mem_filter]
    exact and_iff_right hj
  have hpick : arbPick (s.arb 4 inst) (((s.arb 4 inst).rot (arbGroups 4).flatten).filter (fun j => [0, 1, 2, 3].contains j))
      (keyNum s (0x0700 + 4)) (keyNum s (0x0710 + 4) == 1) (arbRaised 4 raised) = some (r, false) := by
    rw [show (keyNum s (0x0710 + 4) == 1) = false from beq_eq_false_iff_ne.mpr hage, arbPick_of_fresh hwait]
    unfold Arb.rot arbRaised
    rw [horder]
    show Option.map _ (List.head? ((([0, 1, 2, 3] : List Nat).filter (fun j => [0, 1, 2, 3].contains j)).filter (fun j =>
      (([0, 1, 2, 3] : List Nat).filter (fun j => raised.contains j)).contains j))) = _
    rw [hmembers, hup, head?_filter_range4 hr hraised hleast]
    rfl
  show ([arbPick (s.arb 4 inst) (((s.arb 4 inst).rot (arbGroups 4).flatten).filter (fun j => [0, 1, 2, 3].contains j))
    (keyNum s (0x0700 + 4)) (keyNum s (0x0710 + 4) == 1) (arbRaised 4 raised)].filterMap id).map (fun x => x.1) = [r]
  rw [hpick]
  rfl

/-! The watchdog. -/

/-- Ending the runs of a bite leaves the memories. -/
theorem biteRun_mem (s : State) (t mi : Nat) : (biteRun s t mi).mem = s.mem := by
  unfold biteRun
  split
  · rfl
  case h_2 r hlive =>
    split
    · exact (congrArg State.mem (endPart_endRun hlive eWatchdog) :).trans rfl
    · exact (congrArg State.mem (issuePart_stopRun s t eWatchdog mi) :)

/-- The runs that a bite of a core ends, with the index given for each (R382). -/
def bitten (s : State) (c : Nat) : List (Nat × Nat) :=
  (s.runs.filter (fun r => r.state != 3 && r.prog.team.contains c)).map (fun r => (r.tag, (inFlight s r c).foldl min 0xFFFF))

/-- The state in which a bite has ended the runs of a core and its cellar reads 0. -/
def cellarLost (s : State) (c : Nat) : State :=
  (loseCellar ((bitten s c).foldl (fun s x => biteRun s x.1 x.2) s) c).onMem (fun m =>
    mendWords { m with cellar := memZero m.cellar (c * 1048576) 1048576 } 0 (c * 262144) 262144)

/-- A core as a bite leaves it (R382). -/
def bittenCore (now : Nat) (bites : List Nat) (k : Core) : Core := { k with
  tiles := [], merge := {}, mergeNext := {}, larders := [none, none], larderFreeAt := now, turn := [], xcache := [], conflictOf := none
  outOfService := true, bites := bites, lastProgress := now, loftLost := [(8388608, 4194304)], sideLost := true }

/-- The state in which a core has been bitten and that is posted and counted, before it may be retired. -/
def coreBitten (s : State) (c : Nat) : State :=
  (postBite ((cellarLost s c).onCore c (bittenCore (cellarLost s c).now (recentBites s (s.core c).bites))) 0 c
    (recentBites s (s.core c).bites).length).bump Ctr.watchdogCoreResets 0 1

theorem biteCore_eq (s : State) (c : Nat) : biteCore s c =
    if 3 ≤ (recentBites s (s.core c).bites).length then retireCore (coreBitten s c) c else coreBitten s c := rfl

theorem cellar_cellarLost (s : State) (c : Nat) : (cellarLost s c).mem.cellar = memZero s.mem.cellar (c * 1048576) 1048576 := by
  have hmem : ((bitten s c).foldl (fun s x => biteRun s x.1 x.2) s).mem = s.mem :=
    foldl_leaves (g := State.mem) (f := fun (s : State) (x : Nat × Nat) => biteRun s x.1 x.2) (fun s x => biteRun_mem s x.1 x.2) _ s
  exact congrArg (fun m : Memory => memZero m.cellar (c * 1048576) 1048576) hmem

/-- The cores, the segments and the memories. -/
def unitsPart (s : State) : List (Nat × Core) × List (Nat × Seg) × Memory := (s.cores, s.segs, s.mem)

theorem unitsPart_postBite (s : State) (kind unit n : Nat) : unitsPart (postBite s kind unit n) = unitsPart s := by
  unfold postBite
  rw [postEvent_frame]
  rfl

theorem unitsPart_bump (s : State) (k : Nat × Nat) (u n : Nat) : unitsPart (s.bump k u n) = unitsPart s := by
  rw [bump_frame]
  rfl

theorem core_of_unitsPart {s t : State} (h : unitsPart t = unitsPart s) (c : Nat) : t.core c = s.core c :=
  congrArg (fun p : List (Nat × Core) × List (Nat × Seg) × Memory => (look c p.1).getD {}) h

theorem seg_of_unitsPart {s t : State} (h : unitsPart t = unitsPart s) (g : Nat) : t.seg g = s.seg g :=
  congrArg (fun p : List (Nat × Core) × List (Nat × Seg) × Memory => (look g p.2.1).getD {}) h

theorem mem_of_unitsPart {s t : State} (h : unitsPart t = unitsPart s) : t.mem = s.mem :=
  congrArg (fun p : List (Nat × Core) × List (Nat × Seg) × Memory => p.2.2) h

/-- A core that has been bitten, and the cellars then. -/
theorem coreBitten_leaves (s : State) (c : Nat) :
    (coreBitten s c).core c =
        bittenCore (cellarLost s c).now (recentBites s (s.core c).bites) ((cellarLost s c).core c)
      ∧ (coreBitten s c).mem.cellar = memZero s.mem.cellar (c * 1048576) 1048576 := by
  have hunits : unitsPart (coreBitten s c) =
      unitsPart ((cellarLost s c).onCore c (bittenCore (cellarLost s c).now (recentBites s (s.core c).bites))) :=
    (unitsPart_bump _ _ _ _).trans (unitsPart_postBite _ _ _ _)
  exact ⟨(core_of_unitsPart hunits c).trans (core_onCore_same _ _ _),
    (congrArg Memory.cellar (mem_of_unitsPart hunits)).trans (cellar_cellarLost s c)⟩

/-- What retiring a core makes of it, and what it leaves. -/
theorem retireCore_leaves (s : State) (c : Nat) : (retireCore s c).mem = s.mem ∧ (retireCore s c).segs = s.segs
    ∧ (retireCore s c).core c =
        { s.core c with retired := true, outOfService := !(s.core c).retired || (s.core c).outOfService } := by
  unfold retireCore
  split
  case isTrue h =>
    refine ⟨rfl, rfl, ?_⟩
    cases hc : s.core c
    simp_all
  case isFalse h =>
    have hunits : unitsPart ((postEvent (s.onCore c (fun k => { k with outOfService := true, retired := true })) 0x48
        (items [c])).bump Ctr.coresRetired 0 1) =
        unitsPart (s.onCore c (fun k => { k with outOfService := true, retired := true })) := by
      rw [unitsPart_bump, postEvent_frame]
      rfl
    refine ⟨(mem_of_unitsPart hunits :), (congrArg (fun p => p.2.1) hunits :), (core_of_unitsPart hunits c).trans ?_⟩
    rw [core_onCore_same]
    simp [h]

/-- A core that has been bitten: out of service, its bite kept, its cellar 0, and retired at its third bite. -/
theorem biteCore_leaves (s : State) (c : Nat) :
    ((biteCore s c).core c).outOfService = true ∧ ((biteCore s c).core c).bites = recentBites s (s.core c).bites
      ∧ ((biteCore s c).core c).tiles = [] ∧ (biteCore s c).mem.cellar = memZero s.mem.cellar (c * 1048576) 1048576
      ∧ (3 ≤ (recentBites s (s.core c).bites).length → ((biteCore s c).core c).retired = true) := by
  obtain ⟨hcore, hcellar⟩ := coreBitten_leaves s c
  rw [biteCore_eq]
  split
  case isTrue h =>
    obtain ⟨hmem, -, hretired⟩ := retireCore_leaves (coreBitten s c) c
    rw [hretired, hcore, hmem, hcellar]
    exact ⟨Bool.or_true _, rfl, rfl, rfl, fun _ => rfl⟩
  case isFalse h =>
    rw [hcore, hcellar]
    exact ⟨rfl, rfl, rfl, rfl, fun h3 => absurd h3 h⟩

/-! A segment bitten. -/

/-- The state in which what a bite of a segment ends has ended (R383). -/
def segCleared (s : State) (g : Nat) : State :=
  resendLinks (resetArbs (dropThrough (((runsThrough s g).map (fun t => (t, match s.live t with
    | some r => (r.prog.team.flatMap (inFlight s r)).foldl min 0xFFFF
    | none => 0xFFFF))).foldl (fun s x => biteRun s x.1 x.2) s) g) g) g

/-- The state in which a segment has been bitten and that is posted and counted, before cores may be retired. -/
def segBitten (s : State) (g : Nat) : State :=
  (postBite ((segCleared s g).setSeg g { (segCleared s g).seg g with
    bites := recentBites s (s.seg g).bites, outOfService := true, lastProgress := (segCleared s g).now }) 1 g
    (recentBites s (s.seg g).bites).length).bump Ctr.watchdogSegmentResets 0 1

theorem biteSeg_eq (s : State) (g : Nat) : biteSeg s g =
    if 3 ≤ (recentBites s (s.seg g).bites).length ∧ g < 16 then ((List.range 8).map (8 * g + ·)).foldl retireCore (segBitten s g)
    else segBitten s g := rfl

/-- A segment that has been bitten: out of service, its bite kept. -/
theorem biteSeg_leaves (s : State) (g : Nat) : ((biteSeg s g).seg g).outOfService = true
    ∧ ((biteSeg s g).seg g).bites = recentBites s (s.seg g).bites := by
  have hsegs : (biteSeg s g).segs = (segBitten s g).segs := by
    rw [biteSeg_eq]
    split
    · exact foldl_leaves (g := State.segs) (f := retireCore) (fun s c => (retireCore_leaves s c).2.1) _ _
    · rfl
  have hseg : (segBitten s g).seg g = { (segCleared s g).seg g with
      bites := recentBites s (s.seg g).bites, outOfService := true, lastProgress := (segCleared s g).now } := by
    have hunits : unitsPart (segBitten s g) = unitsPart ((segCleared s g).setSeg g { (segCleared s g).seg g with
        bites := recentBites s (s.seg g).bites, outOfService := true, lastProgress := (segCleared s g).now }) :=
      (unitsPart_bump _ _ _ _).trans (unitsPart_postBite _ _ _ _)
    exact (seg_of_unitsPart hunits g).trans (by simp [State.seg, State.setSeg])
  have hsame : (biteSeg s g).seg g = (segBitten s g).seg g :=
    congrArg (fun l : List (Nat × Seg) => (look g l).getD {}) hsegs
  rw [hsame, hseg]
  exact ⟨rfl, rfl⟩

/-! What the commands do. -/

section
variable {s : State} {unit : Nat} (hrun : s.health.imionStopped = false)
include hrun

section
variable (hunit : unit < 128) (hserves : (s.core unit).outOfService = false)
include hunit hserves

theorem exec_watchdogCheck_core_of_progress (x : Bool) : exec (.watchdogCheck 0 unit true x) s =
    .next (s.setCore unit { s.core unit with lastProgress := s.now }) := by
  refine congrArg Host.Outcome.next ?_
  simp [hrun, hunit, hserves]

variable (hbusy : coreIdle s unit = false)
include hbusy

theorem exec_watchdogCheck_core_of_excused (h : coreExcused s unit = true) : exec (.watchdogCheck 0 unit false false) s =
    .next (s.setCore unit { s.core unit with lastProgress := min s.now ((s.core unit).lastProgress + watchdogCc s / 4) }) := by
  refine congrArg Host.Outcome.next ?_
  simp [hrun, hunit, hserves, hbusy, h]

theorem exec_watchdogCheck_core_of_stuck (hexcused : coreExcused s unit = false) (hhalt : s.pins.haltN = false) :
    exec (.watchdogCheck 0 unit false false) s =
      .next (if (s.core unit).lastProgress + watchdogCc s ≤ s.now then biteCore s unit else s) := by
  refine congrArg Host.Outcome.next ?_
  simp [hrun, hunit, hserves, hbusy, hexcused, hhalt]

end

theorem exec_watchdogCheck_seg_of_progress (hunit : unit < 22) (hserves : (s.seg unit).outOfService = false) (x : Bool) :
    exec (.watchdogCheck 1 unit true x) s = .next (s.setSeg unit { s.seg unit with lastProgress := s.now }) := by
  refine congrArg Host.Outcome.next ?_
  simp [hrun, hunit, hserves]

theorem exec_watchdogCheck_seg_of_stuck (hunit : unit < 22) (hserves : (s.seg unit).outOfService = false)
    (h : (s.seg unit).lastProgress + watchdogCc s ≤ s.now) :
    exec (.watchdogCheck 1 unit false false) s = .next (biteSeg s unit) := by
  refine congrArg Host.Outcome.next ?_
  simp [hrun, hunit, hserves, h]

end

section
variable {s : State} {unit : Nat}

theorem exec_backInService_core (hout : (s.core unit).outOfService = true) (hkept : (s.core unit).retired = false) :
    exec (.backInService 0 unit) s =
      .next (s.onCore unit (fun c => { c with outOfService := false, lastProgress := s.now })) := by
  refine congrArg Host.Outcome.next ?_
  simp [hout, hkept]

theorem exec_backInService_core_of_not (h : (s.core unit).outOfService = false ∨ (s.core unit).retired = true) :
    exec (.backInService 0 unit) s = .next s := by
  refine congrArg Host.Outcome.next ?_
  rcases h with h | h <;> simp [h]

theorem exec_backInService_seg (h : (s.seg unit).outOfService = true) : exec (.backInService 1 unit) s =
    .next (s.setSeg unit { s.seg unit with outOfService := false, lastProgress := s.now }) := by
  refine congrArg Host.Outcome.next ?_
  simp [h]

end

/-- Settles O45: the arbiter after a round by its definition, and each unit's check by what it finds. -/
theorem arbitersAndWatchdog : Obligations.ArbitersAndWatchdog := by
  unfold Obligations.ArbitersAndWatchdog
  refine ⟨fun s cls inst raised => ⟨fun h => exec_arbiterRound_of_none h raised, fun h => ?_,
      fun r hcls _ hr hraised hleast horder hwait hage => hcls ▸ arbRound_egress hr hraised hleast horder hwait hage⟩,
    fun s unit hrun => ⟨fun hunit hserves => ⟨exec_watchdogCheck_core_of_progress hrun hunit hserves,
        exec_watchdogCheck_core_of_excused hrun hunit hserves, fun hbusy hexcused hhalt htime => ?_,
        fun hbusy hexcused hhalt htime => ?_⟩,
      fun hunit hserves => ⟨exec_watchdogCheck_seg_of_progress hrun hunit hserves, fun htime => ?_⟩, fun hout hkept => ?_,
      exec_backInService_core_of_not, exec_backInService_seg⟩⟩
  case refine_1 =>
    obtain ⟨now, holder, harb⟩ := exists_arb_arbRound s cls inst raised
    obtain ⟨c, a, hframe⟩ := arbRound_eq s cls inst raised
    have hdone := outsideCores_roundDone s cls inst raised
    have hsame : (roundDone s cls inst raised).arb cls inst = (arbRound s cls inst raised).1.arb cls inst :=
      (congrArg (fun x : State => x.arb cls inst) hdone :)
    rw [harb] at hsame
    refine ⟨_, exec_arbiterRound_of_instance h raised, fun r hr => ?_, fun r hmem hr hlost => ?_, ?_, ?_⟩
    · rw [hsame]
      exact wait_arbAfter_of_winner (members := (arbGroups cls).flatten) _ (keyNum s (0x0710 + cls) == 1) now hr
    · rw [hsame]
      exact wait_arbAfter_of_loser (members := (arbGroups cls).flatten) _ (keyNum s (0x0710 + cls) == 1) now ((nodup_arbGroups cls).filter _)
        (List.mem_filter.mpr ⟨hmem, List.contains_iff_mem.mpr hr⟩) hlost
    · rw [hsame]
      rfl
    · rw [hframe] at hdone
      exact congrArg (fun x : State => { x with
        arbs := (roundDone s cls inst raised).arbs, counters := (roundDone s cls inst raised).counters
        cores := (roundDone s cls inst raised).cores }) hdone
  case refine_2 => rw [exec_watchdogCheck_core_of_stuck hrun hunit hserves hbusy hexcused hhalt, if_neg (by omega)]
  case refine_3 =>
    have hexec := exec_watchdogCheck_core_of_stuck hrun hunit hserves hbusy hexcused hhalt
    rw [if_pos htime] at hexec
    obtain ⟨hout, hbites, htiles, hcellar, hretired⟩ := biteCore_leaves s unit
    refine ⟨_, hexec, hout, hbites, htiles, fun a ha hb => ?_, fun a ha => ?_, hretired⟩
    · rw [hcellar, memGet_memZero, if_pos ⟨ha, hb⟩]
    · rw [hcellar, memGet_memZero, if_neg (by omega)]
  case refine_4 => exact ⟨_, exec_watchdogCheck_seg_of_stuck hrun hunit hserves htime, biteSeg_leaves s unit⟩
  case refine_5 => exact ⟨_, exec_backInService_core hout hkept, core_onCore_same _ _ _, rfl⟩

end Sys2Proof.Machine
end

section
/-!
SUPPORT. The coffer's writes (R424, R428, R430), the shelf scrub (R409 to R411), and the Imion restart (R414).
-/

namespace Sys2Proof.Machine

/-! The coffer. -/

/-- A write to a copy that checks puts the entry there. -/
theorem copyAfter_of_checked (l : List (Nat × CofferEntry)) (pos : Nat) (e : CofferEntry) : copyAfter l pos e true true = put pos e l := rfl

/-- Which copies are degraded and what they hold. -/
def copiesPart (c : Coffer) : List Nat × List (Nat × CofferEntry) × List (Nat × CofferEntry) := (c.degraded, c.copy0, c.copy1)

/-- An event posted once changes neither copy. -/
theorem copiesPart_postOnce (s : State) (code : Nat) (d : List Byte) :
    copiesPart (postOnce s code d).coffer = copiesPart s.coffer := by
  unfold postOnce
  split
  · rfl
  · unfold postEvent
    dsimp only
    split
    · rfl
    · rw [deliverEvent_frame]
      rfl

theorem degrade_of_checked {s : State} {k : Nat} {written ok : Bool} (h : written = false ∨ ok = true) :
    degrade s k written ok = s :=
  if_pos (by rcases h with h | h <;> simp [h])

theorem degrade_of_failed (s : State) (k : Nat) : degrade s k true false =
    postOnce { s with coffer := { s.coffer with degraded := s.coffer.degraded ++ [k] } } 0x53 (items [k]) := rfl

/-- The entries lost in both copies after an entry's write. -/
def lostAfter (c : Coffer) (e : CofferEntry) (gone : Bool) : List CofferEntry :=
  let lost := c.lost.filter (fun x => x.seq != e.seq)
  if gone then lost ++ [{ e with kind := 0xFFFF, payload := List.replicate 36 0 }] else lost

/-- The coffer after a write of an entry to both copies, neither degraded. -/
def cofferWritten (c : Coffer) (rest : List CofferEntry) (pos : Nat) (e : CofferEntry) (ok0 ok1 : Bool) : Coffer :=
  { c with queue := rest, copy0 := copyAfter c.copy0 pos e true ok0, copy1 := copyAfter c.copy1 pos e true ok1
           lost := lostAfter c e (!(true && ok0) && !(true && ok1)) }

section
variable {s : State} {e : CofferEntry} {rest : List CofferEntry} (hq : s.coffer.queue = e :: rest)
  (hsound : s.coffer.degraded = [])
include hq hsound

/-- The oldest entry, one of the journal that is not full, is written at the journal's next position. -/
theorem writeHead_of_journal (hpart : e.part = 1) (hroom : s.coffer.journalUsed < journalLen) (ok0 ok1 : Bool) :
    writeHead s ok0 ok1 = degrade (degrade (State.bump { s with
      coffer := cofferWritten { s.coffer with journalUsed := s.coffer.journalUsed + 1 } rest (64 + s.coffer.journalUsed) e ok0 ok1 }
      Ctr.cofferEntries 0 1) 0 true ok0) 1 true ok1 := by
  have hplace : cofferPlace s.coffer e =
      (64 + s.coffer.journalUsed, { s.coffer with journalUsed := s.coffer.journalUsed + 1 }, e) := if_pos ⟨hpart, hroom⟩
  unfold writeHead
  simp only [hq, hplace, hsound]
  exact if_neg (by omega)

/-- The oldest entry, one of the ring, is written at the ring's next position. -/
theorem writeHead_of_ring (hpart : e.part = 2) : writeHead s true true = State.bump { s with
    coffer := cofferWritten { s.coffer with ringNext := s.coffer.ringNext + 1 } rest
      (64 + journalLen + s.coffer.ringNext % ringLen) e true true } Ctr.cofferEntries 0 1 := by
  have hsame : { e with part := 2 } = e := by rw [← hpart]
  have hplace : cofferPlace s.coffer e = (64 + journalLen + s.coffer.ringNext % ringLen,
      { s.coffer with ringNext := s.coffer.ringNext + 1 }, e) :=
    (if_neg (by omega)).trans (by rw [hsame])
  unfold writeHead
  simp only [hq, hplace, hsound]
  exact if_neg (by omega)

end

section
variable {s : State}

theorem exec_cofferWrite_of_waiting (h : s.pins.stage = 0 ∨ s.pins.stage = 8 ∨ s.coffer.queue = []) (ok0 ok1 : Bool) :
    exec (.cofferWrite ok0 ok1) s = .next s := by
  refine congrArg Host.Outcome.next ?_
  split
  case isTrue => rfl
  case isFalse hstage =>
    obtain hq : s.coffer.queue = [] := by tauto
    simp [writeHead, hq]

theorem exec_cofferWrite_of_stage (h0 : s.pins.stage ≠ 0) (h8 : s.pins.stage ≠ 8) (ok0 ok1 : Bool) :
    exec (.cofferWrite ok0 ok1) s = .next (writeHead s ok0 ok1) :=
  congrArg Host.Outcome.next (if_neg (not_or.mpr ⟨h0, h8⟩))

end

/-! The scrub. -/

/-- The state without what poisoning a shelf word changes. -/
def outsidePoison (s : State) : State := { s with mem := {}, counters := [], coffer := {}, qps := [], health := {} }

theorem outsidePoison_poisonWord (s : State) (c w : Nat) : outsidePoison (poisonWord s c w) = outsidePoison s := by
  unfold poisonWord
  dsimp only
  split
  · rfl
  · rw [postEvent_frame, bump_frame, bump_frame]
    rfl

/-- A word read as uncorrectable is poisoned, and every byte outside it stays. -/
theorem poisonWord_mem (s : State) (c w : Nat) : c * shelfWords + w ∈ (poisonWord s c w).mem.shelfPoison
    ∧ ∀ a, (a < c * 12582912 + 32 * w ∨ c * 12582912 + 32 * w + 32 ≤ a) →
      memGet a (poisonWord s c w).mem.shelf = memGet a s.mem.shelf := by
  unfold poisonWord
  dsimp only
  split
  case isTrue h => exact ⟨List.contains_iff_mem.mp h, fun _ _ => rfl⟩
  case isFalse =>
    rw [faultEntry_mem, postEvent_mem, bump_mem, bump_mem]
    refine ⟨mem_insertN.mpr (.inl rfl), fun a ha => ?_⟩
    refine (memGet_memZero a _ _ _).trans (if_neg (by omega))

/-- The state in which a scrub has read its word. -/
def wordRead (s : State) (c err : Nat) : State :=
  if err = 0 ∨ s.mem.shelfPoison.contains (c * shelfWords + (s.core c).scrubAt) then s
  else if err = 1 then s.bump Ctr.shelfCorrected 0 1 else poisonWord s c (s.core c).scrubAt

/-- The state in which a scrub has gone on to the next word of its shelf. -/
def wordDone (s : State) (c w : Nat) : State :=
  if w + 1 < shelfWords then s.onCore c (fun k => { k with scrubAt := w + 1 })
  else (s.onCore c (fun k => { k with scrubAt := 0 })).bump Ctr.shelfScrubPasses 0 1

theorem exec_shelfScrub_of_none {s : State} {c : Nat} (h : 128 ≤ c ∨ mainUp s = false) (err : Nat) :
    exec (.shelfScrub c err) s = .next s :=
  congrArg Host.Outcome.next (if_pos (h.imp_right (by simp [·])))

theorem exec_shelfScrub_of_up {s : State} {c : Nat} (hc : c < 128) (hup : mainUp s = true) (err : Nat) :
    exec (.shelfScrub c err) s = .next (wordDone (wordRead s c err) c (s.core c).scrubAt) :=
  congrArg Host.Outcome.next (if_neg (by simp [hup, Nat.not_le.mpr hc]))

theorem outsidePoison_wordRead (s : State) (c err : Nat) : outsidePoison (wordRead s c err) = outsidePoison s := by
  unfold wordRead
  split
  · rfl
  · split
    · rw [bump_frame]
      rfl
    · exact outsidePoison_poisonWord _ _ _

theorem wordRead_mem_of_sound (s : State) (c : Nat) {err : Nat} (h : err ≤ 1) : (wordRead s c err).mem = s.mem := by
  unfold wordRead
  split
  · rfl
  · rw [if_pos (by omega), bump_mem]

theorem wordRead_of_uncorrectable (s : State) (c : Nat) {err : Nat} (h : 2 ≤ err) :
    wordRead s c err = poisonWord s c (s.core c).scrubAt := by
  unfold wordRead
  split
  case isTrue hor =>
    have hknown := hor.resolve_left (by omega)
    exact (if_pos hknown).symm
  case isFalse => exact if_neg (by omega)

theorem wordDone_leaves (s : State) (c w : Nat) :
    (wordDone s c w).core c = { s.core c with scrubAt := if w + 1 < shelfWords then w + 1 else 0 }
      ∧ (∀ j, j ≠ c → (wordDone s c w).core j = s.core j)
      ∧ wordDone s c w = { s with cores := (wordDone s c w).cores, counters := (wordDone s c w).counters } := by
  unfold wordDone
  split
  case isTrue => exact ⟨core_onCore_same _ _ _, fun j hj => core_onCore_other hj _ _, rfl⟩
  case isFalse =>
    have hunits := unitsPart_bump (s.onCore c (fun k => { k with scrubAt := 0 })) Ctr.shelfScrubPasses 0 1
    refine ⟨(core_of_unitsPart hunits c).trans (core_onCore_same _ _ _),
      fun j hj => (core_of_unitsPart hunits j).trans (core_onCore_other hj _ _), ?_⟩
    exact (bump_frame _ _ _ _).trans rfl

/-! The Imion restart. -/

/-- What a management message is sent by: the state without queue pairs, counters and health. -/
def mgmtSide (s : State) : State := { s with qps := [], counters := [], health := {} }

theorem sendOn_mgmtSide (s : State) (cls : Nat) (h : Hdr) (d : List Byte) :
    sendOn (mgmtSide s) cls h d = (sendOn s cls h d).map mgmtSide := by
  unfold sendOn
  rw [show routeTo (mgmtSide s) h.dest = routeTo s h.dest from rfl]
  cases routeTo s h.dest with
  | none => rfl
  | some r =>
    dsimp only
    rw [show pickLink (mgmtSide s) r cls = pickLink s r cls from rfl]
    cases pickLink s r cls <;> rfl

theorem mgmtSide_bump (s : State) (k : Nat × Nat) (u n : Nat) : mgmtSide (s.bump k u n) = mgmtSide s := by
  rw [bump_frame]
  rfl

/-- What a transfer makes of a state rests on what it is sent by. -/
theorem mgmtSide_sendTransfer (s : State) (cls : Nat) (h : Hdr) (d : List Byte) :
    mgmtSide (sendTransfer (mgmtSide s) cls h d).1 = mgmtSide (sendTransfer s cls h d).1 := by
  unfold sendTransfer
  rw [sendOn_mgmtSide]
  cases sendOn s cls h d with
  | none =>
    dsimp only [Option.map_none]
    rw [mgmtSide_bump, mgmtSide_bump]
    rfl
  | some t => rfl

/-- A fold whose steps rest on what a message is sent by does so too. -/
theorem mgmtSide_foldl {α : Type} {f : State → α → State} (hf : ∀ s x, mgmtSide (f (mgmtSide s) x) = mgmtSide (f s x))
    (l : List α) (s : State) : mgmtSide (l.foldl f s) = l.foldl (fun s x => mgmtSide (f s x)) (mgmtSide s) :=
  (List.foldl_hom mgmtSide (g₁ := f) (g₂ := fun s x => mgmtSide (f s x)) (H := fun s x => hf s x)).symm

theorem mgmtSide_sendMgmtNow (s : State) (dest code : Nat) (body : List Byte) :
    mgmtSide (sendMgmtNow (mgmtSide s) dest code body) = mgmtSide (sendMgmtNow s dest code body) := by
  unfold sendMgmtNow
  dsimp only
  rw [mgmtSide_foldl (fun s _ => mgmtSide_sendTransfer s 0 _ _), mgmtSide_foldl (fun s _ => mgmtSide_sendTransfer s 0 _ _)]
  rfl

/-- The messages due sent one after another. -/
def sendDue (s : State) (msgs : List Out) : State := msgs.foldl (fun s o => sendMgmtNow s o.dest o.addr o.data) s

theorem mgmtSide_sendDue {s t : State} (h : mgmtSide t = mgmtSide s) (msgs : List Out) :
    mgmtSide (sendDue t msgs) = mgmtSide (sendDue s msgs) := by
  unfold sendDue
  rw [mgmtSide_foldl (fun s o => mgmtSide_sendMgmtNow s _ _ _), mgmtSide_foldl (fun s o => mgmtSide_sendMgmtNow s _ _ _), h]

/-- The state without what a restart of Imion changes beside its health. -/
def outsideRestart (s : State) : State := { s with qps := [], counters := [], coffer := {}, links := [], turns := [], nextMgmt := 0 }

theorem outsideRestart_bump (s : State) (k : Nat × Nat) (u n : Nat) : outsideRestart (s.bump k u n) = outsideRestart s := by
  rw [bump_frame]
  rfl

theorem outsideRestart_sendTransfer (s : State) (cls : Nat) (h : Hdr) (d : List Byte) :
    outsideRestart (sendTransfer s cls h d).1 = outsideRestart s := by
  unfold sendTransfer sendOn
  split
  case h_1 t ht =>
    split at ht
    · exact nomatch ht
    · split at ht
      · exact nomatch ht
      · cases ht
        rfl
  case h_2 => exact outsideRestart_bump _ _ _ _

theorem outsideRestart_sendMgmtNow (s : State) (dest code : Nat) (body : List Byte) :
    outsideRestart (sendMgmtNow s dest code body) = outsideRestart s :=
  foldl_leaves (g := outsideRestart) (f := fun (s : State) (i : Nat) => (sendTransfer s 0 { ownHdr s 0x0B dest with
      tag := s.nextMgmt, address := 512 * i + (leBytes 1 code ++ body).length * 2 ^ 24
      length := (slice (leBytes 1 code ++ body) (512 * i) (min 512 ((leBytes 1 code ++ body).length - 512 * i))).length }
      (slice (leBytes 1 code ++ body) (512 * i) (min 512 ((leBytes 1 code ++ body).length - 512 * i)))).1)
    (fun s _ => outsideRestart_sendTransfer s 0 _ _) _ _

theorem outsideRestart_sendDue (s : State) (msgs : List Out) : outsideRestart (sendDue s msgs) = outsideRestart s :=
  foldl_leaves (g := outsideRestart) (f := fun (s : State) (o : Out) => sendMgmtNow s o.dest o.addr o.data)
    (fun s o => outsideRestart_sendMgmtNow s o.dest o.addr o.data) msgs s

theorem outsideRestart_deliverEvent (s : State) (c : Completion) : outsideRestart (deliverEvent s c) = outsideRestart s := by
  rw [deliverEvent_frame]
  rfl

theorem outsideRestart_faultEntry (s : State) (cls kind unit : Nat) (d : List Byte) :
    outsideRestart (faultEntry s cls kind unit d) = outsideRestart s := rfl

/-- The state in which Imion runs again, before what fell due goes out. -/
def imionRunning (s : State) : State := { s with health := { s.health with imionStopped := false, fellDue := [], dueOut := [] } }

/-- The state in which what fell due has gone out and the restart is counted. -/
def dueSent (s : State) : State :=
  (sendDue (s.health.fellDue.foldl deliverEvent (imionRunning s)) s.health.dueOut).bump Ctr.imionRestarts 0 1

/-- How many us Imion was stopped. -/
def stoppedFor (s : State) : Nat :=
  match s.health.lastMismatch with
  | some t => (s.now - t) / 1000
  | none => 0

theorem exec_imionRestarted_of_not {s : State} (h : s.health.imionStopped = false ∨ s.pins.stage = 0xA) :
    exec .imionRestarted s = .next s :=
  congrArg Host.Outcome.next (if_pos (h.imp_left (by simp [·])))

theorem exec_imionRestarted_of_stopped {s : State} (h : s.health.imionStopped = true) (hstage : s.pins.stage ≠ 0xA) :
    exec .imionRestarted s =
      .next (faultEntry (postEvent (dueSent s) 0x4C (items [stoppedFor s])) 14 4 0 (items [stoppedFor s])) :=
  congrArg Host.Outcome.next (if_neg (by simp [h, hstage]))

theorem outsideRestart_dueSent (s : State) : outsideRestart (dueSent s) = outsideRestart (imionRunning s) :=
  (outsideRestart_bump _ _ _ _).trans ((outsideRestart_sendDue _ _).trans
    (foldl_leaves (g := outsideRestart) (f := deliverEvent) outsideRestart_deliverEvent _ _))

/-- The links after what fell due has gone out are those after the messages alone. -/
theorem dueSent_links (s : State) : (dueSent s).links = (sendDue s s.health.dueOut).links := by
  have hside : mgmtSide (s.health.fellDue.foldl deliverEvent (imionRunning s)) = mgmtSide s :=
    (foldl_leaves (g := mgmtSide) (f := deliverEvent) (fun s c => by rw [deliverEvent_frame]; rfl) _ _).trans rfl
  have hsent := (mgmtSide_bump (sendDue (s.health.fellDue.foldl deliverEvent (imionRunning s)) s.health.dueOut)
    Ctr.imionRestarts 0 1).trans (mgmtSide_sendDue hside s.health.dueOut)
  exact (congrArg State.links hsent :)

/-- The restart's end: what it changes, Imion's health, and the links. -/
theorem restarted_leaves (s : State) (us : Nat) :
    outsideRestart (faultEntry (postEvent (dueSent s) 0x4C (items [us])) 14 4 0 (items [us])) = outsideRestart (imionRunning s)
      ∧ (faultEntry (postEvent (dueSent s) 0x4C (items [us])) 14 4 0 (items [us])).links = (sendDue s s.health.dueOut).links := by
  have hsent := outsideRestart_dueSent s
  have hrun : (dueSent s).health.imionStopped = false := (congrArg (fun t : State => t.health.imionStopped) hsent :)
  have hposted := postEvent_of_running hrun 0x4C (items [us])
  refine ⟨(outsideRestart_faultEntry _ _ _ _ _).trans ?_,
    (postEvent_links _ _ _).trans (dueSent_links s)⟩
  rw [hposted, outsideRestart_deliverEvent]
  exact hsent

/-! A lockstep mismatch. -/

/-- The state in which both Imion cores have stopped. -/
def imionHeld (s : State) : State := { s with health := { s.health with imionStopped := true, lastMismatch := some s.now } }

section
variable {s : State}

theorem exec_lockstepMismatch_of_down (h : imionUp s = false) : exec .lockstepMismatch s = .next s :=
  congrArg Host.Outcome.next (if_pos (by simp [h]))

theorem exec_lockstepMismatch_of_first (hup : imionUp s = true)
    (h : s.health.lastMismatch = none ∨ ∃ t, s.health.lastMismatch = some t ∧ t + 10000000000 ≤ s.now) :
    exec .lockstepMismatch s = .next (imionHeld s) := by
  refine congrArg Host.Outcome.next ((if_neg (by simp [hup])).trans ?_)
  rcases h with h | ⟨t, h, htime⟩
  · simp [h, imionHeld]
  · simp [h, imionHeld, Nat.not_lt.mpr htime]

theorem exec_lockstepMismatch_of_again {t : Nat} (hup : imionUp s = true) (h : s.health.lastMismatch = some t)
    (htime : s.now < t + 10000000000) : exec .lockstepMismatch s = .next (faultEntry { imionHeld s with
      pins := { s.pins with stage := 0xA, causes := s.pins.causes ++ [2] } } 14 4 0 []) := by
  refine congrArg Host.Outcome.next ((if_neg (by simp [hup])).trans ?_)
  simp [h, imionHeld, htime]

/-- While Imion is stopped no order is handled. -/
theorem orderReady_of_stopped (h : s.health.imionStopped = true) (m n code : Nat) : orderReady s m n code = none := by
  unfold orderReady
  split
  · simp [h]
  · rfl

end

/-- Settles O52: the coffer's writes by the part of their entry, the scrub by what it reads, and the restart by what went out. -/
theorem cofferScrubAndRestart : Obligations.CofferScrubAndRestart := by
  unfold Obligations.CofferScrubAndRestart
  dsimp only
  refine ⟨fun s ok0 ok1 => ⟨fun h => exec_cofferWrite_of_waiting h ok0 ok1,
      fun e rest h0 h8 hq hsound hpart hroom => ⟨?_, ?_⟩, fun e rest h0 h8 hq hsound hpart => ?_, ?_⟩,
    fun s c err => ⟨fun h => exec_shelfScrub_of_none h err, fun hc hup => ?_⟩,
    fun s => ⟨exec_lockstepMismatch_of_down, exec_lockstepMismatch_of_first, fun t hup h htime => ?_,
      orderReady_of_stopped, exec_imionRestarted_of_not, fun h hstage => ?_⟩⟩
  case refine_1 =>
    have hexec := exec_cofferWrite_of_stage h0 h8 true true
    rw [writeHead_of_journal hq hsound hpart hroom, degrade_of_checked (.inr rfl), degrade_of_checked (.inr rfl), bump_frame] at hexec
    exact ⟨_, hexec, rfl, look_put_same _ _ _, look_put_same _ _ _, rfl, hsound, rfl⟩
  case refine_2 =>
    have hexec := exec_cofferWrite_of_stage h0 h8 false true
    have hleaves := noticePart_writeHead s false true
    rw [writeHead_of_journal hq hsound hpart hroom, degrade_of_checked (.inr rfl), degrade_of_failed] at hexec hleaves
    have hcopies := copiesPart_postOnce { State.bump { s with
      coffer := cofferWritten { s.coffer with journalUsed := s.coffer.journalUsed + 1 } rest (64 + s.coffer.journalUsed) e false true }
      Ctr.cofferEntries 0 1 with coffer := { cofferWritten { s.coffer with journalUsed := s.coffer.journalUsed + 1 } rest
        (64 + s.coffer.journalUsed) e false true with degraded := s.coffer.degraded ++ [0] } } 0x53 (items [0])
    rw [bump_coffer] at hexec hleaves
    obtain ⟨hdegraded, hboth⟩ := Prod.mk.inj hcopies
    obtain ⟨-, hcopy1⟩ := Prod.mk.inj hboth
    refine ⟨_, hexec, hdegraded.trans (by rw [hsound]; rfl), ?_, (congrArg State.mem hleaves :), (congrArg State.trust hleaves :)⟩
    exact (congrArg (look (64 + s.coffer.journalUsed)) hcopy1).trans (look_put_same _ _ _)
  case refine_3 =>
    have hexec := exec_cofferWrite_of_stage h0 h8 true true
    rw [writeHead_of_ring hq hsound hpart, bump_frame] at hexec
    exact ⟨_, hexec, rfl, look_put_same _ _ _, rfl, rfl⟩
  case refine_4 =>
    have hleaves := noticePart_finishCoffer s
    exact ⟨finishCoffer s, rfl, rfl, (congrArg State.mem hleaves :), (congrArg State.trust hleaves :), (congrArg State.pins hleaves :)⟩
  case refine_5 =>
    have hread := outsidePoison_wordRead s c err
    obtain ⟨hsame, hother, hframe⟩ := wordDone_leaves (wordRead s c err) c (s.core c).scrubAt
    have hcore (j : Nat) : (wordRead s c err).core j = s.core j := (congrArg (fun x : State => x.core j) hread :)
    have hmem : (wordDone (wordRead s c err) c (s.core c).scrubAt).mem = (wordRead s c err).mem := (congrArg State.mem hframe :)
    refine ⟨_, exec_shelfScrub_of_up hc hup err, ?_, fun j hj => (hother j hj).trans (hcore j),
      fun h => hmem.trans (wordRead_mem_of_sound s c h), fun h => ?_, ?_⟩
    · rw [hsame]
    · rw [hmem, wordRead_of_uncorrectable s c h]
      exact poisonWord_mem s c (s.core c).scrubAt
    · refine hframe.trans ?_
      have hmore := congrArg (fun x : State => { x with
        cores := (wordDone (wordRead s c err) c (s.core c).scrubAt).cores
        counters := (wordDone (wordRead s c err) c (s.core c).scrubAt).counters
        mem := (wordRead s c err).mem, coffer := (wordRead s c err).coffer, qps := (wordRead s c err).qps
        health := (wordRead s c err).health }) hread
      rw [hframe]
      exact hmore
  case refine_6 => exact ⟨_, exec_lockstepMismatch_of_again hup h htime, rfl, rfl, rfl⟩
  case refine_7 =>
    obtain ⟨houtside, hlinks⟩ := restarted_leaves s (stoppedFor s)
    have hexec := exec_imionRestarted_of_stopped h hstage
    generalize faultEntry (postEvent (dueSent s) 0x4C (items [stoppedFor s])) 14 4 0 (items [stoppedFor s]) = u
      at houtside hlinks hexec
    have hhealth : u.health = { s.health with imionStopped := false, fellDue := [], dueOut := [] } :=
      (congrArg State.health houtside :)
    refine ⟨u, hexec, by rw [hhealth], by rw [hhealth], by rw [hhealth], (congrArg State.orders houtside :), hlinks, ?_⟩
    rw [hhealth]
    exact congrArg (fun x : State => { x with
      qps := u.qps, counters := u.counters, coffer := u.coffer, links := u.links, turns := u.turns, nextMgmt := u.nextMgmt }) houtside

end Sys2Proof.Machine
end

section
/-!
SUPPORT. Pins and HALT_N (R440, R443, R451), the ladder and the I3C target (R447 to R450), and boundary scan (R461).
-/

namespace Sys2Proof.Machine

/-! Pin events. -/

/-- The state without what a pin's event changes. -/
def outsidePin (s : State) : State := { s with pins := {}, counters := [], coffer := {}, qps := [], health := {} }

theorem outsidePin_bump (s : State) (k : Nat × Nat) (u n : Nat) : outsidePin (s.bump k u n) = outsidePin s := by
  rw [bump_frame]
  rfl

/-- The state in which the time of a pin's event is noted. -/
def pinNoted (s : State) (code : Nat) : State := { s with pins := { s.pins with pinPosts := put code s.now s.pins.pinPosts } }

/-- A pin's event is posted, or there is none within 1 s of the last (R451). -/
theorem postPin_eq_or (s : State) (code : Nat) (d : List Byte) :
    postPin s code d = s ∨ postPin s code d = postEvent (pinNoted s code) code d :=
  ite_eq_or_eq _ _ _

theorem outsidePin_postPin (s : State) (code : Nat) (d : List Byte) : outsidePin (postPin s code d) = outsidePin s := by
  rcases postPin_eq_or s code d with h | h
  · rw [h]
  · rw [h, postEvent_frame]
    rfl

/-- Of the pins a pin's event changes at most when it was last posted. -/
theorem exists_pins_postPin (s : State) (code : Nat) (d : List Byte) : ∃ l, (postPin s code d).pins = { s.pins with pinPosts := l } := by
  rcases postPin_eq_or s code d with h | h
  · exact ⟨s.pins.pinPosts, by rw [h]⟩
  · exact ⟨_, by rw [h, postEvent_pins]; rfl⟩

section
variable {s : State}

theorem exec_filteredPulse_of_absent (h : s.pins.stby = false) (p : Nat) : exec (.filteredPulse p) s = .next s :=
  congrArg Host.Outcome.next (if_pos (by simp [h]))

theorem exec_haltNAssert_of_not (h : s.pins.haltN = true ∨ s.pins.stby = false) : exec .haltNAssert s = .next s :=
  congrArg Host.Outcome.next (if_pos (h.imp_right (by simp [·])))

theorem exec_haltNRelease_of_not (h : s.pins.haltN = false ∨ s.pins.stby = false) : exec .haltNRelease s = .next s :=
  congrArg Host.Outcome.next (if_pos (h.imp (by simp [·]) (by simp [·])))

/-- The state in which HALT_N is held and that is counted (R443). -/
def haltHeld (s : State) : State :=
  State.bump { s with pins := { s.pins with haltN := true, haltAt := s.now } } Ctr.haltAssertions 0 1

/-- The state in which HALT_N is released and writes that waited have gone on (R443). -/
def haltEnded (s : State) : State := issueWrites { s with pins := { s.pins with haltN := false } }

theorem exec_haltNAssert_of_released (hstby : s.pins.stby = true) (h : s.pins.haltN = false) :
    exec .haltNAssert s = .next (postPin (haltHeld s) 0x54 []) :=
  congrArg Host.Outcome.next (if_neg (by simp [hstby, h]))

theorem exec_haltNRelease_of_held (hstby : s.pins.stby = true) (h : s.pins.haltN = true) : exec .haltNRelease s =
    .next (postPin (haltEnded s) 0x55 (leBytes 8 ((s.now - s.pins.haltAt) / 1000))) :=
  congrArg Host.Outcome.next (if_neg (by simp [hstby, h]))

/-! The ladder. -/

theorem exec_ladderInChange_of_absent (h : s.pins.stby = false) (x : Bool) : exec (.ladderInChange x) s = .next s :=
  congrArg Host.Outcome.next (if_pos (by simp [h]))

theorem exec_ladderInChange_of_claiming (hstby : s.pins.stby = true) (h : s.pins.claiming = true) (x : Bool) :
    exec (.ladderInChange x) s = .next (s.bump Ctr.ladderInIgnored 0 1) :=
  congrArg Host.Outcome.next ((if_neg (by simp [hstby])).trans (if_pos h))

theorem exec_ladderInChange_of_idle (hstby : s.pins.stby = true) (h : s.pins.claiming = false) (x : Bool) :
    exec (.ladderInChange x) s = .next { s with pins := { s.pins with ladderIn := x } } :=
  congrArg Host.Outcome.next ((if_neg (by simp [hstby])).trans (if_neg (by simp [h])))

theorem exec_ladderClaim_of_silent (h : answersStatic s = false) (a : Bool) (d : List Byte) :
    exec (.ladderClaim a d) s = .next s :=
  congrArg Host.Outcome.next (if_pos (by simp [h]))

theorem exec_ladderClaim_of_answering (h : answersStatic s = true) (a : Bool) (d : List Byte) :
    exec (.ladderClaim a d) s = .next (if a then { s with pins := { s.pins with claiming := true } }
      else if claimOk d then { s with pins := { s.pins with
        claiming := false, claimed := true, ladderOut := true, ladderAddr := field d 0 1, dynAddr := field d 1 1 } }
      else { s with pins := { s.pins with claiming := false } }) :=
  congrArg Host.Outcome.next (if_neg (by simp [h]))

/-! The I3C target. -/

section
variable (h : answersDynamic s = false)
include h

/-- A device that is not claimed answers nothing and takes nothing (R448). -/
theorem exec_i3c_of_unclaimed : exec .getpid s = .next s ∧ exec .getbcr s = .next s ∧ exec .getdcr s = .next s
    ∧ exec .getstatus s = .next s ∧ (∀ d, exec (.i3cPrivateWrite d) s = .next s)
    ∧ (∀ n, exec (.i3cPrivateRead n) s = .next s) ∧ (∀ x, exec (.statusWordClear x) s = .next s)
    ∧ ∀ j f, exec (.subportCommit j f) s = .next s := by
  have hnot : ¬ answersDynamic s = true := by simp [h]
  have hquiet : (!answersDynamic s) = true := by simp [h]
  exact ⟨congrArg Host.Outcome.next (if_neg hnot), congrArg Host.Outcome.next (if_neg hnot), congrArg Host.Outcome.next (if_neg hnot),
    congrArg Host.Outcome.next (if_neg hnot), fun d => congrArg Host.Outcome.next (if_pos (.inl hquiet)),
    fun n => congrArg Host.Outcome.next (if_pos hquiet), fun x => congrArg Host.Outcome.next (if_neg hnot),
    fun j f => congrArg Host.Outcome.next (if_neg hnot)⟩

end

/-- The state in which a record of sub-port j has been committed with flags (R450). -/
def recordCommitted (s : State) (j flags : Nat) : State := { s with pins := { s.pins with
  subports := s.pins.subports.set j (slice (s.pins.staged.getD j []) 0 28 ++ leBytes 1 flags ++ leBytes 3 0) } }

theorem commitPort_of_refused {j flags : Nat} (hj : j < 16) (h : recordAdmitted s j (s.pins.staged.getD j []) flags = false) :
    commitPort s j flags = { s with pins := { s.pins with applyRefused := true } } := by
  unfold commitPort
  rw [if_neg (by omega)]
  exact if_pos (by rw [h]; rfl)

theorem commitPort_of_admitted {j flags : Nat} (hj : j < 16) (h : recordAdmitted s j (s.pins.staged.getD j []) flags = true) :
    commitPort s j flags = if ((recordCommitted s j flags).port j).up ∧ !bit flags 0 then
        postEvent (linkedDown (recordCommitted s j flags) j) 0x30 (items [j])
      else recordCommitted s j flags := by
  unfold commitPort
  rw [if_neg (by omega)]
  exact if_neg (by rw [h]; decide)

/-- A record committed stands, no staged one changes, and one without MAC_VALID is not linked up. -/
theorem commitPort_leaves {j flags : Nat} (hj : j < 16) (h : recordAdmitted s j (s.pins.staged.getD j []) flags = true) :
    (commitPort s j flags).pins = (recordCommitted s j flags).pins
      ∧ (bit flags 0 = false → ((commitPort s j flags).port j).up = false) := by
  rw [commitPort_of_admitted hj h]
  split
  case isTrue hdown =>
    refine ⟨postEvent_pins _ _ _, fun _ => ?_⟩
    rw [port_postEvent]
    exact congrArg SubPort.up (port_onPort_same _ _ _)
  case isFalse hstays =>
    refine ⟨rfl, fun hbit => ?_⟩
    simpa [hbit] using hstays

/-- The memories, the trust block, and the offset of the I3C target. -/
def i3cPart (s : State) : Memory × Trust × Nat := (s.mem, s.trust, s.pins.i3cOffset)

theorem i3cPart_commitPort (s : State) (j flags : Nat) : i3cPart (commitPort s j flags) = i3cPart s := by
  unfold commitPort
  dsimp only
  split
  · rfl
  · split
    · rfl
    · split
      · rw [i3cPart, postEvent_mem, postEvent_trust, postEvent_pins]
        rfl
      · rfl

theorem i3cPart_i3cWriteByte (s : State) (o : Nat) (b : Byte) : i3cPart (i3cWriteByte s o b) = i3cPart s := by
  unfold i3cWriteByte
  dsimp only
  simp only [apply_ite i3cPart, i3cPart_commitPort]
  simp only [i3cPart, clearStatus, ite_self]

/-- The offset moves on by a byte for each written, modulo 65,536 (R449). -/
theorem i3cWriteBytes_leaves (d : List Byte) (s : State) (h : s.pins.i3cOffset < 65536) :
    i3cPart (i3cWriteBytes s d) = (s.mem, s.trust, (s.pins.i3cOffset + d.length) % 65536) := by
  induction d generalizing s with
  | nil => exact congrArg (fun n => (s.mem, s.trust, n)) (Nat.mod_eq_of_lt h).symm
  | cons b d ih =>
    obtain ⟨hmem, hrest⟩ := Prod.mk.inj (i3cPart_i3cWriteByte s s.pins.i3cOffset b)
    obtain ⟨htrust, hoffset⟩ := Prod.mk.inj hrest
    unfold i3cWriteBytes
    dsimp only
    rw [ih _ (Nat.mod_lt _ (by decide))]
    dsimp only
    rw [hmem, htrust, hoffset, Nat.mod_add_mod, List.length_cons, Nat.add_assoc, Nat.add_comm 1]

/-- A byte of a staged record is written in place. -/
theorem i3cWriteByte_staged (s : State) {j k : Nat} (hj : j < 16) (hk : k < 28) (b : Byte) :
    i3cWriteByte s (0x100 + 32 * j + k) b = { s with pins := { s.pins with
      staged := s.pins.staged.set j ((s.pins.staged.getD j []).set k b) } } := by
  have hport : (0x100 + 32 * j + k - 0x100) / 32 = j := by omega
  have hplace : (0x100 + 32 * j + k) % 32 = k := by omega
  unfold i3cWriteByte
  rw [if_neg (by omega), if_neg (by omega), if_pos (by omega)]
  dsimp only
  rw [hport, hplace, if_pos hk]

/-- A field of two bytes is below 2^16. -/
theorem field_two_lt (d : List Byte) (off : Nat) : field d off 2 < 65536 := by
  unfold field
  generalize hl : (d.drop off).take 2 = l
  have hlen : l.length ≤ 2 := hl ▸ List.length_take_le _ _
  match l, hlen with
  | [], _ => simp [leNat]
  | [a], _ => simp only [leNat]; omega
  | [a, b], _ => simp only [leNat]; omega

section
variable (h : answersDynamic s = true)
include h

theorem exec_i3cPrivateWrite_of_claimed {d : List Byte} (hd : 2 ≤ d.length) : exec (.i3cPrivateWrite d) s =
    .next (i3cWriteBytes { s with pins := { s.pins with i3cOffset := field d 0 2 } } (d.drop 2)) :=
  congrArg Host.Outcome.next (if_neg (by simp [h, Nat.not_lt.mpr hd]))

theorem exec_subportCommit_of_claimed (j : Nat) (f : Byte) : exec (.subportCommit j f) s = .next (commitPort s j f.toNat) :=
  congrArg Host.Outcome.next (if_pos h)

end

end

/-! Boundary scan. -/

/-- The state after one clock of the TAP (R461). -/
def tapClocked (s : State) (tms tdi : Bool) : State :=
  let t := tapAct s tdi
  let e := tapNext.getD t.pins.tap (0, 0)
  let n := if tms then e.2 else e.1
  let v := if n = 0 then tapReset t else { t with pins := { t.pins with tap := n } }
  { v with pins := { v.pins with tdo := tapOut v.pins } }

section
variable {s : State}

theorem exec_boundaryScan_of_unpowered (h : 0 ∉ s.pins.rails) (a b c : Bool) : exec (.boundaryScan a b c) s = .next s :=
  congrArg Host.Outcome.next (if_pos (by simpa using h))

theorem exec_boundaryScan_of_reset (h : 0 ∈ s.pins.rails) (a b : Bool) :
    exec (.boundaryScan a b false) s = .next (tapReset s) :=
  congrArg Host.Outcome.next ((if_neg (by simpa using h)).trans (if_pos rfl))

theorem exec_boundaryScan_of_clock (h : 0 ∈ s.pins.rails) (a b : Bool) :
    exec (.boundaryScan a b true) s = .next (tapClocked s a b) :=
  congrArg Host.Outcome.next ((if_neg (by simpa using h)).trans (if_neg (by simp)))

end

/-- The action of a state leaves where the controller stands, and the rails. -/
theorem tapAct_leaves (s : State) (tdi : Bool) : (tapAct s tdi).pins.tap = s.pins.tap ∧ (tapAct s tdi).pins.rails = s.pins.rails := by
  unfold tapAct
  split
  case h_1 => unfold tapCapture; split <;> exact ⟨rfl, rfl⟩
  all_goals exact ⟨rfl, rfl⟩

/-- A clock takes the controller to its next state, and one that arrives at the first selects IDCODE. -/
theorem tapClocked_leaves (s : State) (tms tdi : Bool) :
    (tapClocked s tms tdi).pins.tap =
        (if tms then (tapNext.getD s.pins.tap (0, 0)).2 else (tapNext.getD s.pins.tap (0, 0)).1)
      ∧ (tapClocked s tms tdi).pins.rails = s.pins.rails
      ∧ ((tapClocked s tms tdi).pins.tap = 0 → (tapClocked s tms tdi).pins.tapIr = 2) := by
  obtain ⟨htap, hrails⟩ := tapAct_leaves s tdi
  unfold tapClocked
  dsimp only
  rw [htap]
  generalize (if tms then (tapNext.getD s.pins.tap (0, 0)).2 else (tapNext.getD s.pins.tap (0, 0)).1) = n
  split
  case isTrue h => exact ⟨h.symm, hrails, fun _ => rfl⟩
  case isFalse h => exact ⟨rfl, hrails, fun h0 => absurd h0 h⟩

/-- Where the controller goes with TMS high. -/
def tapUp (n : Nat) : Nat := (tapNext.getD n (0, 0)).2

/-- From each of its 16 states five clocks with TMS high bring the controller to the first. -/
theorem tapUp_five {n : Nat} (h : n < 16) : tapUp (tapUp (tapUp (tapUp (tapUp n)))) = 0 := by
  have hall : ∀ n : Fin 16, tapUp (tapUp (tapUp (tapUp (tapUp n.val)))) = 0 := by decide
  exact hall ⟨n, h⟩

/-- A clock with TMS low in a state from which it goes on to Shift-DR, the data register then holding x. -/
theorem tapClocked_shift {s t : State} {tdi : Bool} (hact : tapAct s tdi = t) (htap : t.pins.tap = 3 ∨ t.pins.tap = 4) :
    tapClocked s false tdi = { t with pins := { t.pins with tap := 4, tdo := tapOut { t.pins with tap := 4 } } } := by
  unfold tapClocked
  rw [hact]
  rcases htap with h | h <;> simp [h, tapNext]

/-- Settles O59: each pin, the ladder's claim, what a claimed device answers, and the controller's states. -/
theorem pinsLadderAndScan : Obligations.PinsLadderAndScan := by
  unfold Obligations.PinsLadderAndScan
  dsimp only
  refine ⟨fun s => ⟨fun h => ⟨exec_filteredPulse_of_absent h, exec_haltNAssert_of_not (.inr h), exec_haltNRelease_of_not (.inr h),
        exec_ladderInChange_of_absent h⟩, fun h => ?_, fun h => exec_haltNAssert_of_not (.inl h),
      fun h => exec_haltNRelease_of_not (.inl h), fun hstby h => ?_, fun hstby h => ?_⟩,
    fun s => ⟨fun x hstby h => exec_ladderInChange_of_idle hstby h x, fun x hstby h => exec_ladderInChange_of_claiming hstby h x,
      fun a d h => exec_ladderClaim_of_silent h a d, fun d h => ⟨exec_ladderClaim_of_answering h true d, fun hok => ?_, fun hok => ?_⟩,
      exec_i3c_of_unclaimed, fun h => ⟨?_, ?_, ?_, ?_, fun n => ?_, fun d hd => ?_, fun j k b hj hk => ?_, fun x => ?_,
        fun j f hj => ⟨fun hr => ?_, fun hr => ?_⟩⟩⟩,
    fun s => ⟨fun a b c h => exec_boundaryScan_of_unpowered h a b c, fun h => ⟨fun a b => ?_, fun b1 b2 b3 b4 b5 htap => ?_,
      fun b htap hir => ?_, fun b htap hir => ?_, fun b htap hir => ?_⟩⟩⟩
  case refine_1 =>
    have hup : ¬ (!s.pins.stby) = true := by simp [h]
    exact ⟨congrArg Host.Outcome.next (if_neg hup), congrArg Host.Outcome.next (if_neg hup), congrArg Host.Outcome.next (if_neg hup)⟩
  case refine_2 =>
    obtain ⟨l, hpins⟩ := exists_pins_postPin (haltHeld s) 0x54 []
    have houtside := (outsidePin_postPin (haltHeld s) 0x54 []).trans (outsidePin_bump _ _ _ _)
    have hheld : (haltHeld s).pins = { s.pins with haltN := true, haltAt := s.now } := bump_pins _ _ _ _
    rw [hheld] at hpins
    refine ⟨_, exec_haltNAssert_of_released hstby h, by rw [hpins], by rw [hpins], ?_⟩
    generalize postPin (haltHeld s) 0x54 [] = u at houtside
    exact congrArg (fun x : State => { x with
      pins := u.pins, counters := u.counters, coffer := u.coffer, qps := u.qps, health := u.health }) houtside
  case refine_3 =>
    have hissued := issuePart_issueWrites { s with pins := { s.pins with haltN := false } }
    obtain ⟨l, hpins⟩ := exists_pins_postPin (haltEnded s) 0x55 (leBytes 8 ((s.now - s.pins.haltAt) / 1000))
    have houtside := outsidePin_postPin (haltEnded s) 0x55 (leBytes 8 ((s.now - s.pins.haltAt) / 1000))
    have hended : (haltEnded s).pins = { s.pins with haltN := false } := (congrArg State.pins hissued :)
    refine ⟨_, exec_haltNRelease_of_held hstby h, by rw [hpins, hended], ?_, ?_⟩
    · exact (congrArg State.keys houtside :).trans (congrArg State.keys hissued :)
    · exact (congrArg State.trust houtside :).trans (congrArg State.trust hissued :)
  case refine_4 => rw [exec_ladderClaim_of_answering h, if_neg (by decide), if_pos hok]
  case refine_5 => rw [exec_ladderClaim_of_answering h, if_neg (by decide), if_neg (by simp [hok])]
  case refine_6 => exact ⟨_, congrArg Host.Outcome.next (if_pos h), rfl, rfl⟩
  case refine_7 => exact ⟨_, congrArg Host.Outcome.next (if_pos h), rfl, rfl⟩
  case refine_8 => exact ⟨_, congrArg Host.Outcome.next (if_pos h), rfl, rfl⟩
  case refine_9 => exact ⟨_, congrArg Host.Outcome.next (if_pos h), rfl, rfl⟩
  case refine_10 => exact ⟨_, congrArg Host.Outcome.next (if_neg (by simp [h])), rfl, rfl⟩
  case refine_11 =>
    have hwritten := i3cWriteBytes_leaves (d.drop 2) { s with pins := { s.pins with i3cOffset := field d 0 2 } } (field_two_lt d 0)
    obtain ⟨hmem, hrest⟩ := Prod.mk.inj hwritten
    obtain ⟨htrust, hoffset⟩ := Prod.mk.inj hrest
    exact ⟨_, exec_i3cPrivateWrite_of_claimed h hd, hoffset.trans (by rw [List.length_drop]), hmem, htrust⟩
  case refine_12 =>
    have hfield : field (leBytes 2 (0x100 + 32 * j + k) ++ [b]) 0 2 = 0x100 + 32 * j + k := field_leBytes (by omega) [b]
    have hdrop : (leBytes 2 (0x100 + 32 * j + k) ++ [b]).drop 2 = [b] := List.drop_left' (length_leBytes _ _)
    rw [exec_i3cPrivateWrite_of_claimed h (by simp), hfield, hdrop]
    unfold i3cWriteBytes
    dsimp only
    rw [i3cWriteByte_staged _ hj hk]
    unfold i3cWriteBytes
    dsimp only
    rw [Nat.mod_eq_of_lt (by omega)]
  case refine_13 => exact congrArg Host.Outcome.next (if_pos h)
  case refine_14 => rw [exec_subportCommit_of_claimed h, commitPort_of_refused hj hr]
  case refine_15 =>
    obtain ⟨hpins, hdown⟩ := commitPort_leaves hj hr
    exact ⟨_, exec_subportCommit_of_claimed h j f, by rw [hpins]; rfl, hdown, by rw [hpins]; rfl⟩
  case refine_16 => exact ⟨_, exec_boundaryScan_of_reset h a b, rfl, rfl, rfl, rfl⟩
  case refine_17 =>
    obtain ⟨htap1, hrails1, -⟩ := tapClocked_leaves s true b1
    obtain ⟨htap2, hrails2, -⟩ := tapClocked_leaves (tapClocked s true b1) true b2
    obtain ⟨htap3, hrails3, -⟩ := tapClocked_leaves (tapClocked (tapClocked s true b1) true b2) true b3
    obtain ⟨htap4, hrails4, -⟩ := tapClocked_leaves (tapClocked (tapClocked (tapClocked s true b1) true b2) true b3) true b4
    obtain ⟨htap5, -, hir5⟩ :=
      tapClocked_leaves (tapClocked (tapClocked (tapClocked (tapClocked s true b1) true b2) true b3) true b4) true b5
    rw [htap4, htap3, htap2, htap1] at htap5
    have hfirst := htap5.trans (tapUp_five htap)
    exact ⟨_, _, _, _, _, exec_boundaryScan_of_clock h true b1, exec_boundaryScan_of_clock (by rwa [hrails1]) true b2,
      exec_boundaryScan_of_clock (by rwa [hrails2, hrails1]) true b3,
      exec_boundaryScan_of_clock (by rwa [hrails3, hrails2, hrails1]) true b4,
      exec_boundaryScan_of_clock (by rwa [hrails4, hrails3, hrails2, hrails1]) true b5, hfirst, hir5 hfirst⟩
  case refine_18 =>
    have hact : tapAct s b = { s with pins := { s.pins with tapShift := idcode } } := by
      simp [tapAct, htap, tapCapture, tapReg, hir]
    refine ⟨_, exec_boundaryScan_of_clock h false b, ?_⟩
    rw [tapClocked_shift hact (.inl htap)]
    have hlow : bit idcode 0 = true := by decide
    refine ⟨rfl, rfl, ?_, rfl⟩
    simp [tapOut, tapReg, hir, hlow]
  case refine_19 =>
    have hact : tapAct s b = { s with pins := { s.pins with tapShift := s.pins.tapShift / 2 + 2147483648 * b2n b } } := by
      simp [tapAct, htap, tapShiftDr, tapReg, hir]
    refine ⟨_, exec_boundaryScan_of_clock h false b, ?_⟩
    rw [tapClocked_shift hact (.inr htap)]
    refine ⟨rfl, ?_, ?_, rfl⟩
    · cases b <;> rfl
    · simp [tapOut, tapReg, hir, bit]
  case refine_20 =>
    have hact : tapAct s b = { s with pins := { s.pins with tapShift := b2n b } } := by
      simp [tapAct, htap, tapShiftDr, tapReg, show ¬ s.pins.tapIr < 2 by omega, show ¬ s.pins.tapIr = 2 by omega]
    refine ⟨_, exec_boundaryScan_of_clock h false b, ?_⟩
    rw [tapClocked_shift hact (.inr htap)]
    refine ⟨rfl, ?_, rfl⟩
    cases b <;> simp [tapOut, tapReg, show ¬ s.pins.tapIr < 2 by omega, show ¬ s.pins.tapIr = 2 by omega, bit, b2n]

end Sys2Proof.Machine
end

section
/-!
SUPPORT. A view announced by a management message, as it is kept (R234, R242, R267).
-/

namespace Sys2Proof.Machine

/-- The announcement as a member keeps it: with the rank that differs in HOLD alone (R267). -/
def ViewAnn.kept (v : ViewAnn) : ViewAnn := { v with differs := if v.hold then v.differs else 0 }

/-- Outside HOLD an announcement that names a rank that differs is not kept as it was sent. -/
theorem ViewAnn.kept_ne {v : ViewAnn} (hhold : v.hold = false) (hdiffers : v.differs ≠ 0) : v.kept ≠ v := fun h =>
  hdiffers ((congrArg ViewAnn.differs h).symm.trans (by simp [ViewAnn.kept, hhold]))

theorem takeView_newer {s : State} {v : ViewAnn} (hview : inView s = true) (hnewer : s.group.epoch < v.epoch) :
    takeView v.epoch v.ranks v.keeper v.beat v.hold v.differs s = { s with group := { s.group with next := some v.kept } } := by
  have hstate : s.group.state = 2 ∨ s.group.state = 3 := by simpa [inView] using hview
  exact if_neg (by omega)

/-- A member that a rank of its view tells of a newer view keeps it as its next one. -/
theorem exec_mgmt_announcement {s : State} {h : Hdr} {v : ViewAnn} (hview : inView s = true) (hdest : h.dest = s.group.rank)
    (hsrc : h.src ∈ s.group.view) (hepoch : s.group.epoch ≤ h.epoch) (hwhole : h.address / 2 ^ 24 % 2 ^ 24 ≤ h.length)
    (hlen : h.length = 146) (he : v.epoch < 2 ^ 32) (hk : v.keeper < 2 ^ 16) (hb : v.beat < 2 ^ 64) (hd : v.differs < 2 ^ 16)
    (hsorted : v.ranks.Pairwise (· < ·)) (hranks : ∀ r, r ∈ v.ranks → r < 1024) (hnewer : s.group.epoch < v.epoch) :
    exec (.mgmt h (5#8 :: viewBody v)) s = .next { s with group := { s.group with next := some v.kept } } := by
  rw [exec_mgmt_whole hdest hepoch hwhole (by simp [hlen, length_viewBody]) (by simp) (by simp [length_viewBody]),
    takeMgmt_member hview hsrc, mgmtMeans_announcement s h.src he hk hb hd hsorted hranks, takeView_newer hview hnewer]

/-- A device alone in an active view of epoch 0. -/
def aloneInView : State := { State.reset with group := { State.reset.group with state := 3, rank := 0, view := [0] } }

/-- A view of epoch 1 that is not in HOLD and yet names rank 1 as one that differs. -/
def strayAnnouncement : ViewAnn := { epoch := 1, differs := 1 }

/-- Refutes O60: the clause of the announcement asks that the view be kept as it was sent, for every `differs`. Outside HOLD a member
keeps 0 in its place: a device alone in its view that is told of `strayAnnouncement` keeps a view with no rank that differs. -/
theorem not_commandsCompleteOutright : ¬ Obligations.CommandsCompleteOutright := by
  unfold Obligations.CommandsCompleteOutright
  rintro ⟨-, -, hmgmt, -⟩
  obtain ⟨-, -, hannounce⟩ := hmgmt aloneInView { length := 146 } rfl rfl (by decide) (by decide) (by decide)
  have hsent := hannounce strayAnnouncement (by decide) (by decide) (by decide) (by decide) .nil nofun rfl (by decide)
  have hkept := exec_mgmt_announcement (s := aloneInView) (h := { length := 146 }) (v := strayAnnouncement) rfl rfl (by decide)
    (by decide) (by decide) rfl (by decide) (by decide) (by decide) (by decide) .nil nofun (by decide)
  have hsame := Host.Outcome.next.inj (hkept.symm.trans hsent)
  exact ViewAnn.kept_ne (v := strayAnnouncement) rfl (by decide) (Option.some.inj (congrArg (fun s => s.group.next) hsame :))

end Sys2Proof.Machine
end

section
/-!
SUPPORT. Tensors created and destroyed (R14, R17, R18): a handle that is free, a footprint zeroed on every shelf, and what
CREATE_TENSOR and DESTROY_TENSOR do with the descriptor or the handle that they name.
-/

namespace Sys2Proof.Machine

/-! A free handle (R14). -/

/-- The numbers of a list from a least one on, counted from it. -/
def fromLeast (lo : Nat) (used : List Nat) : List Nat := (used.filter (fun u => decide (lo ≤ u))).map (· - lo)

theorem mem_fromLeast {lo c : Nat} {used : List Nat} : c ∈ fromLeast lo used ↔ lo + c ∈ used := by
  unfold fromLeast
  simp only [List.mem_map, List.mem_filter, decide_eq_true_eq]
  constructor
  · rintro ⟨u, ⟨hu, hlo⟩, rfl⟩
    rwa [Nat.add_sub_cancel' hlo]
  · exact fun h => ⟨lo + c, ⟨h, Nat.le_add_right _ _⟩, Nat.add_sub_cancel_left _ _⟩

theorem length_fromLeast_le (lo : Nat) (used : List Nat) : (fromLeast lo used).length ≤ used.length := by
  unfold fromLeast
  rw [List.length_map]
  exact List.length_filter_le _ _

/-- A search from a least number on is the search from 0 on, moved by that number. -/
theorem freeFrom_eq_add (lo n : Nat) (used : List Nat) (k c : Nat) :
    freeFrom lo n used k (lo + c) = lo + freeFrom 0 n (fromLeast lo used) k c := by
  induction k generalizing c with
  | zero => rfl
  | succ k ih =>
    have hnext : lo + (lo + c + 1 - lo) % n = lo + (0 + (c + 1 - 0) % n) := by
      rw [Nat.zero_add, Nat.sub_zero, Nat.add_assoc, Nat.add_sub_cancel_left]
    unfold freeFrom
    simp only [List.contains_iff_mem, mem_fromLeast]
    split
    case isTrue => rw [hnext, ih]
    case isFalse => rfl

/-- A search that may try one number more than are used finds a free one, if there are as many. -/
theorem freeFrom_free_of_tries {n k : Nat} {used : List Nat} (hused : used.length < k) (hk : k ≤ n) {c : Nat} (hc : c < n) :
    freeFrom 0 n used k c < n ∧ freeFrom 0 n used k c ∉ used := by
  obtain ⟨hlt, hfree⟩ := freeFrom_or (used := used) k c hc
  refine ⟨hlt, hfree.resolve_right fun hall => ?_⟩
  have hinj : ∀ i ∈ List.range k, ∀ j ∈ List.range k, (c + i) % n = (c + j) % n → i = j := by
    intro i hi j hj h
    rw [List.mem_range] at hi hj
    have hij : i % n = j % n := Nat.ModEq.add_left_cancel' c h
    rwa [Nat.mod_eq_of_lt (hi.trans_le hk), Nat.mod_eq_of_lt (hj.trans_le hk)] at hij
  have hnodup : ((List.range k).map (fun i => (c + i) % n)).Nodup := List.Nodup.map_on hinj List.nodup_range
  have hsub : (List.range k).map (fun i => (c + i) % n) ⊆ used := by
    intro x hx
    obtain ⟨i, hi, rfl⟩ := List.mem_map.mp hx
    exact hall i (List.mem_range.mp hi)
  have hlen := (List.subperm_of_subset hnodup hsub).length_le
  rw [List.length_map, List.length_range] at hlen
  omega

theorem tensor_eq_none_iff {s : State} {h : Nat} : s.tensor h = none ↔ h ∉ s.tensors.map (fun t => t.handle) := by
  simp [State.tensor]

/-- The handle that a new tensor takes is from 1 to 65,535, and no live tensor has it. -/
theorem newHandle_free {s : State} (h : s.tensors.length < 65535) :
    1 ≤ newHandle s ∧ newHandle s ≤ 65535 ∧ s.tensor (newHandle s) = none := by
  have hfew : (fromLeast 1 (s.tensors.map (fun t => t.handle))).length < s.tensors.length + 1 :=
    Nat.lt_succ_of_le ((length_fromLeast_le _ _).trans_eq (List.length_map _))
  obtain ⟨hlt, hfree⟩ := freeFrom_free_of_tries hfew (Nat.succ_le_of_lt h) (Nat.mod_lt (Config.handleHint s.free) (by decide))
  rw [tensor_eq_none_iff, newHandle, freeFrom_eq_add]
  exact ⟨by omega, by omega, fun hmem => hfree (mem_fromLeast.mpr hmem)⟩

/-! A footprint zeroed on every shelf (R17). -/

/-- The footprint of a range set to zero on the shelves of some cores. -/
@[irreducible] def zeroShelves (s : State) (off n : Nat) (cores : List Nat) : State := cores.foldl (fun s c => shelfZero s c off n) s

/-- ZERO_ON_CREATE of a SHELF tensor zeroes its footprint on every core's shelf. -/
theorem zeroOnCreate_shelf {d : Desc} (hshelf : d.placement = 0) (s : State) (served : Bool) :
    zeroOnCreate s d served = (zeroShelves s d.base (d.footprint 128) (List.range 128), true) := by
  simp only [zeroOnCreate, hshelf, zeroShelves]

/-- The state without the shelves. -/
def offShelf (s : State) : State := { s with mem := { s.mem with shelf := [], shelfPoison := [] } }

/-- Zeroing shelves changes nothing but them. -/
theorem zeroShelves_eq (s : State) (off n : Nat) (cores : List Nat) : zeroShelves s off n cores =
    { s with mem := { s.mem with
      shelf := (zeroShelves s off n cores).mem.shelf, shelfPoison := (zeroShelves s off n cores).mem.shelfPoison } } := by
  have hoff : offShelf (zeroShelves s off n cores) = offShelf s := by
    unfold zeroShelves
    exact foldl_leaves (by intros; rfl) _ _
  exact congrArg (fun x : State => { x with mem := { x.mem with
    shelf := (zeroShelves s off n cores).mem.shelf, shelfPoison := (zeroShelves s off n cores).mem.shelfPoison } }) hoff

theorem newHandle_zeroShelves (s : State) (off n : Nat) (cores : List Nat) : newHandle (zeroShelves s off n cores) = newHandle s :=
  (congrArg newHandle (zeroShelves_eq s off n cores) :)

/-- A byte of a shelf is 0 where it lies in the range on one of the shelves zeroed, and else as it was. -/
theorem memGet_zeroShelves (s : State) (off n : Nat) (cores : List Nat) (k : Nat) :
    memGet k (zeroShelves s off n cores).mem.shelf =
      if ∃ c ∈ cores, c * shelfBytes + off ≤ k ∧ k < c * shelfBytes + off + n then 0 else memGet k s.mem.shelf := by
  induction cores generalizing s with
  | nil => simp [zeroShelves]
  | cons c cores ih =>
    have hhead : memGet k (shelfZero s c off n).mem.shelf =
        if c * shelfBytes + off ≤ k ∧ k < c * shelfBytes + off + n then 0 else memGet k s.mem.shelf := memGet_memZero _ _ _ _
    have hcons : zeroShelves s off n (c :: cores) = zeroShelves (shelfZero s c off n) off n cores := by
      unfold zeroShelves
      rfl
    rw [hcons, ih, hhead]
    simp only [List.mem_cons, exists_eq_or_imp]
    split
    case isTrue h => rw [if_pos (.inr h)]
    case isFalse h => simp only [h, or_false]

/-- With a range that lies within a shelf, a byte of a core's shelf is zeroed exactly where its place is in the range. -/
theorem memGet_zeroShelves_all (s : State) {off n c a : Nat} (hrange : off + n ≤ shelfBytes) (hc : c < 128) (ha : a < shelfBytes) :
    memGet (c * shelfBytes + a) (zeroShelves s off n (List.range 128)).mem.shelf =
      if off ≤ a ∧ a < off + n then 0 else memGet (c * shelfBytes + a) s.mem.shelf := by
  have hplace : (∃ d ∈ List.range 128, d * shelfBytes + off ≤ c * shelfBytes + a ∧ c * shelfBytes + a < d * shelfBytes + off + n)
      ↔ off ≤ a ∧ a < off + n := by
    constructor
    · rintro ⟨d, -, hlo, hhi⟩
      simp only [shelfBytes] at hrange ha hlo hhi
      have hd : d = c := by omega
      subst hd
      omega
    · exact fun h => ⟨c, List.mem_range.mpr hc, by omega⟩
  rw [memGet_zeroShelves]
  exact if_congr hplace rfl rfl

/-! Descriptors (R17). -/

theorem eq_none_of_ite_eq_none {p : Prop} [Decidable p] {k : Nat} {x : Option Nat} (h : (if p then some k else x) = none) :
    x = none := by
  split at h
  · cases h
  · exact h

/-- A descriptor that passes the checks passes C8 and C9. -/
theorem rangeOk_of_descCheck {b : List Byte} {d : Desc} (h : descCheck b d = none) : rangeOk d 128 shelfBytes = none := by
  iterate 11 replace h := eq_none_of_ite_eq_none h
  exact h

/-- The footprint of a SHELF tensor that passes the checks lies within a shelf. -/
theorem footprint_in_shelf {b : List Byte} {d : Desc} (h : descCheck b d = none) (hshelf : d.placement = 0) :
    d.base + d.footprint 128 ≤ shelfBytes := by
  have hrange := rangeOk_of_descCheck h
  unfold rangeOk at hrange
  split at hrange
  case isTrue => cases hrange
  case isFalse hlen =>
    simp only [hshelf, decide_eq_true_eq] at hrange
    split at hrange
    case isTrue hfits => omega
    case isFalse => cases hrange

/-! CREATE_TENSOR (R14, R17). -/

/-- The state with a tensor of a descriptor created, under a handle newly drawn. -/
def withTensor (s : State) (d : Desc) : State :=
  { s with free := s.free + 1, tensors := s.tensors ++ [{ handle := newHandle s, desc := d }] }

theorem tensor_withTensor {s : State} (h : s.tensor (newHandle s) = none) (d : Desc) :
    (withTensor s d).tensor (newHandle s) = some { handle := newHandle s, desc := d } := by
  have happend : (withTensor s d).tensor (newHandle s) =
      (s.tensor (newHandle s)).or ([{ handle := newHandle s, desc := d }].find? (fun t => t.handle == newHandle s)) :=
    List.find?_append
  rw [happend, h]
  simp

theorem complete_tensors (s : State) (o : Order) (st : BitVec 8) (d : List Byte) : (complete s o st d).tensors = s.tensors :=
  (congrArg State.tensors (complete_eq s o st d) :)

theorem tensor_of_tensors {s u : State} (h : u.tensors = s.tensors) (k : Nat) : u.tensor k = s.tensor k := by
  simp [State.tensor, h]

/-- The state without what creating a tensor on the shelf may change. -/
def createdPart (s : State) : State := { offShelf s with free := 0, tensors := [], orders := [], qps := [], counters := [] }

theorem eq_of_createdPart {s t : State} (h : createdPart t = createdPart s) :
    t = { s with mem := { s.mem with shelf := t.mem.shelf, shelfPoison := t.mem.shelfPoison }, tensors := t.tensors
                 free := t.free, orders := t.orders, qps := t.qps, counters := t.counters } :=
  congrArg (fun x : State => { x with
    mem := { x.mem with shelf := t.mem.shelf, shelfPoison := t.mem.shelfPoison }, tensors := t.tensors
    free := t.free, orders := t.orders, qps := t.qps, counters := t.counters }) h

theorem createdPart_complete (s : State) (o : Order) (st : BitVec 8) (d : List Byte) :
    createdPart (complete s o st d) = createdPart s := (congrArg createdPart (complete_eq s o st d) :)

theorem createdPart_withTensor (s : State) (d : Desc) : createdPart (withTensor s d) = createdPart s := rfl

theorem createdPart_zeroShelves (s : State) (off n : Nat) (cores : List Nat) :
    createdPart (zeroShelves s off n cores) = createdPart s := (congrArg createdPart (zeroShelves_eq s off n cores) :)

theorem tensor_withTensor_zeroShelves {s : State} (h : s.tensor (newHandle s) = none) (d : Desc) (off n : Nat) (cores : List Nat) :
    (withTensor (zeroShelves s off n cores) d).tensor (newHandle s) = some { handle := newHandle s, desc := d } := by
  have htensors : (zeroShelves s off n cores).tensors = s.tensors := (congrArg State.tensors (zeroShelves_eq s off n cores) :)
  have hfree : (zeroShelves s off n cores).tensor (newHandle (zeroShelves s off n cores)) = none := by
    rw [newHandle_zeroShelves, tensor_of_tensors htensors, h]
  have hnew := tensor_withTensor hfree d
  rwa [newHandle_zeroShelves] at hnew

theorem withTensor_mem (s : State) (d : Desc) : (withTensor s d).mem = s.mem := rfl

section
variable {s : State} {m n : Nat} {served : Bool} {o : Order} {d : Desc} (hadm : Safety.Admitted s m n 0x01 o)
include hadm

theorem exec_createTensor_of_admitted : exec (.createTensor m n served) s = .next (createTensor served s o) :=
  congrArg Host.Outcome.next (orderCmd_of_admitted hadm _)

theorem exec_createTensor_bad {k : Nat}
    (hbad : descCheck (slice o.bytes 0x28 128) (parseDesc (slice o.bytes 0x28 128)) = some k) :
    exec (.createTensor m n served) s = .next (refuse s o (if k = 8 ∨ k = 9 then eRange else ePlan) 0x43 k 0) := by
  rw [exec_createTensor_of_admitted hadm]
  simp only [createTensor, hbad]

variable (hd : parseDesc (slice o.bytes 0x28 128) = d) (hsound : descCheck (slice o.bytes 0x28 128) d = none)
include hd hsound

theorem exec_createTensor_full (hfull : 65535 ≤ s.tensors.length) :
    exec (.createTensor m n served) s = .next (refuse s o ePlan 0x43 10 0) := by
  rw [exec_createTensor_of_admitted hadm]
  simp only [createTensor, hd, hsound, hfull, if_true]

variable (hroom : s.tensors.length < 65535)
include hroom

theorem exec_createTensor_unzeroed (hzero : bit d.flags 2 = false) :
    exec (.createTensor m n served) s = .next (complete (withTensor s d) o eOk (leBytes 4 (newHandle s))) := by
  rw [exec_createTensor_of_admitted hadm]
  simp [createTensor, hd, hsound, Nat.not_le.mpr hroom, hzero, withTensor, State.draw]

theorem exec_createTensor_zeroedShelf (hzero : bit d.flags 2 = true) (hshelf : d.placement = 0) :
    exec (.createTensor m n served) s = .next
      (complete (withTensor (zeroShelves s d.base (d.footprint 128) (List.range 128)) d) o eOk (leBytes 4 (newHandle s))) := by
  rw [exec_createTensor_of_admitted hadm]
  simp only [createTensor, hd, hsound, Nat.not_le.mpr hroom, hzero, hshelf, zeroOnCreate_shelf hshelf, if_false, if_true,
    Nat.zero_ne_one, false_and, and_false, Bool.not_true, Bool.false_eq_true, withTensor, State.draw, newHandle_zeroShelves]

end

/-! DESTROY_TENSOR (R18). -/

/-- The state with a handle released. -/
def withoutTensor (s : State) (h : Nat) : State := { s with tensors := s.tensors.filter (fun t => t.handle != h) }

theorem tensor_withoutTensor_same (s : State) (h : Nat) : (withoutTensor s h).tensor h = none := by
  simp [withoutTensor, State.tensor]

theorem tensor_withoutTensor_other {k h : Nat} (hne : k ≠ h) (s : State) : (withoutTensor s h).tensor k = s.tensor k := by
  have hsame : (fun t : Tensor => decide ((t.handle != h) = true ∧ (t.handle == k) = true)) = fun t => t.handle == k := by
    funext t
    by_cases hk : t.handle = k <;> simp [hk, hne]
  unfold State.tensor withoutTensor
  rw [List.find?_filter, hsame]

section
variable {s : State} {m n : Nat} {o : Order} {t : Tensor} (hadm : Safety.Admitted s m n 0x02 o)
  (ht : s.tensor (field o.bytes 0x28 4) = some t)
include hadm ht

theorem exec_destroyTensor_named (hnamed : handleNamed s (field o.bytes 0x28 4) = true) :
    exec (.destroyTensor m n) s = .next (complete s o ePlan []) := by
  refine congrArg Host.Outcome.next ((orderCmd_of_admitted hadm _).trans ?_)
  simp [destroyTensor, ht, hnamed]

theorem exec_destroyTensor_unnamed (hnamed : handleNamed s (field o.bytes 0x28 4) = false) :
    exec (.destroyTensor m n) s = .next (complete (withoutTensor s (field o.bytes 0x28 4)) o eOk []) := by
  refine congrArg Host.Outcome.next ((orderCmd_of_admitted hadm _).trans ?_)
  simp [destroyTensor, ht, hnamed, withoutTensor]

end

/-- Settles O11: DESTROY_TENSOR by whether a program names the handle, CREATE_TENSOR by its checks, by the free handle that the
search finds, and by what zeroing a range on every shelf makes of each byte. -/
theorem tensorsAreCreatedAndDestroyed : Obligations.TensorsAreCreatedAndDestroyed := by
  unfold Obligations.TensorsAreCreatedAndDestroyed
  refine ⟨fun s m n o hadm => ?destroy, fun s m n served o hadm => ?create, fun s m n served o hadm => ?zeroed⟩
  case destroy =>
    intro h t ht
    have htensor := tensor_of_tensors (complete_tensors (withoutTensor s h) o eOk [])
    exact ⟨fun hnamed =>
        ⟨exec_destroyTensor_named hadm ht hnamed, (tensor_of_tensors (complete_tensors s o ePlan []) h).trans ht⟩,
      fun hnamed => ⟨_, exec_destroyTensor_unnamed hadm ht hnamed, rfl, (htensor h).trans (tensor_withoutTensor_same s h),
        fun k hk => (htensor k).trans (tensor_withoutTensor_other hk s), complete_mem _ _ _ _⟩⟩
  case create =>
    intro b d
    refine ⟨fun k hbad => exec_createTensor_bad hadm hbad, fun hsound hfull => exec_createTensor_full hadm rfl hsound hfull,
      fun hsound hroom hzero => ?_⟩
    obtain ⟨hlo, hhi, hfree⟩ := newHandle_free hroom
    exact ⟨newHandle s, hlo, hhi, hfree, exec_createTensor_unzeroed hadm rfl hsound hroom hzero⟩
  case zeroed =>
    intro b d hsound hroom hzero hshelf
    obtain ⟨-, -, hfree⟩ := newHandle_free hroom
    refine ⟨_, newHandle s, exec_createTensor_zeroedShelf hadm rfl hsound hroom hzero hshelf, ?_, hfree, fun c a hc ha => ?_, ?_⟩
    · rw [tensor_of_tensors (complete_tensors _ _ _ _)]
      exact tensor_withTensor_zeroShelves hfree d _ _ _
    · rw [complete_mem, withTensor_mem]
      exact memGet_zeroShelves_all s (footprint_in_shelf hsound hshelf) hc ha
    · exact eq_of_createdPart ((createdPart_complete _ _ _ _).trans
        ((createdPart_withTensor _ _).trans (createdPart_zeroShelves _ _ _ _)))

end Sys2Proof.Machine
end

section
/-!
SUPPORT. Programs loaded and runs accepted (R24, R26 to R28, R233): what LOAD_PROGRAM does with an image by the loader's checks and
by what its answer needs, and whether RUN refuses or accepts a run of the program in a slot.
-/

namespace Sys2Proof.Machine

/-! LOAD_PROGRAM (R24, R26, R356). -/

/-- The state with a program in a slot; a record of pushes belongs to the program that made them. -/
def withProgram (s : State) (slot : Nat) (p : Program) : State :=
  { s with slots := put slot p s.slots, pushes := s.pushes.filter (fun x => x.key / 2 ^ 28 != slot) }

/-- The state with a slot empty. -/
def withoutProgram (s : State) (slot : Nat) : State := { s with slots := erase slot s.slots }

/-- The state without what a program loaded may change. -/
def loadPart (s : State) : State := { resultPart s with slots := [], pushes := [] }

theorem loadPart_of_resultPart {s t : State} (h : resultPart t = resultPart s) : loadPart t = loadPart s :=
  congrArg (fun x : State => { x with slots := [], pushes := [] }) h

theorem eq_of_loadPart {s t : State} (h : loadPart t = loadPart s) :
    t = { s with slots := t.slots, pushes := t.pushes, orders := t.orders, qps := t.qps, ports := t.ports
                 counters := t.counters, out := t.out } :=
  congrArg (fun x : State => { x with slots := t.slots, pushes := t.pushes, orders := t.orders, qps := t.qps, ports := t.ports
                                      counters := t.counters, out := t.out }) h

theorem complete_slots (s : State) (o : Order) (st : BitVec 8) (d : List Byte) : (complete s o st d).slots = s.slots :=
  (congrArg State.slots (complete_eq s o st d) :)

theorem sendResult_slots (s : State) (o : Order) (d : List Byte) : (sendResult s o d).slots = s.slots :=
  (congrArg State.slots (resultPart_sendResult s o d) :)

theorem hostAsk_slots (s : State) (o : Order) : (hostAsk s o).slots = s.slots :=
  (congrArg State.slots (resultPart_hostAsk s o) :)

section
variable {s : State} {m n : Nat} {o : Order} {b : List Byte} (hadm : Safety.Admitted s m n 0x03 o)
  (hslot : field o.bytes 0x28 1 < 16)
include hadm hslot

theorem exec_loadProgram_emptied (hempty : field o.bytes 0x2C 4 = 0)
    (hfree : s.runs.any (fun r => r.slot == field o.bytes 0x28 1 && r.state != 3) = false) :
    exec (.loadProgram m n (some b)) s =
      .next (complete (withoutProgram s (field o.bytes 0x28 1)) o eOk (loadDetail [])) := by
  refine congrArg Host.Outcome.next ((orderCmd_of_admitted hadm _).trans ?_)
  simp only [loadOwn, Nat.not_le.mpr hslot, hempty, hfree, if_false, if_true, Bool.false_eq_true, withoutProgram]

theorem exec_loadProgram_inUse (hempty : field o.bytes 0x2C 4 = 0)
    (hbusy : s.runs.any (fun r => r.slot == field o.bytes 0x28 1 && r.state != 3) = true) :
    exec (.loadProgram m n (some b)) s = .next (refuse s o ePlan 0x4C 3 0) := by
  refine congrArg Host.Outcome.next ((orderCmd_of_admitted hadm _).trans ?_)
  simp only [loadOwn, Nat.not_le.mpr hslot, hempty, hbusy, if_false, if_true]

variable (hlo : 1 ≤ field o.bytes 0x2C 4) (hhi : field o.bytes 0x2C 4 ≤ 1048576) (hup : qpUp (hostAsk s o) o.qp = true)
  {image : List Byte} (himage : slice b 0 (field o.bytes 0x2C 4) = image)
  {p : Program} (hp : parseProgram image (maskBits 128 (field o.bytes 0x38 16)) = p)
include hlo hhi hup himage hp

/-- An image of a length that is allowed, read from the host, fails a check of the loader, or its program takes the slot where the
answer fits the order's result range. -/
theorem exec_loadProgram_read : exec (.loadProgram m n (some b)) s = .next
    (match loaderCheck (hostAsk s o) (field o.bytes 0x28 1) p image with
     | some (st, k, i) => refuse (hostAsk s o) o st 0x4C k i
     | none =>
       let more := packBits ((s24Bits (hostAsk s o) p).drop 256)
       if o.resultLen < more.length then complete (hostAsk s o) o eRange (resultDetail 0 more.length)
       else complete (sendResult (withProgram (hostAsk s o) (field o.bytes 0x28 1) p) o more) o eOk
         (loadDetail (s24Bits (hostAsk s o) p))) := by
  have hread : hostRead (hostAsk s o) o (some b) (field o.bytes 0x2C 4) = some image := by simp [hostRead, hup, himage]
  refine congrArg Host.Outcome.next ((orderCmd_of_admitted hadm _).trans ?_)
  unfold loadOwn
  dsimp only
  rw [if_neg (Nat.not_le.mpr hslot), if_neg (by omega), if_neg (by omega), hread]
  dsimp only
  rw [hp]
  rfl

theorem exec_loadProgram_bad {st : BitVec 8} {k i : Nat}
    (hbad : loaderCheck (hostAsk s o) (field o.bytes 0x28 1) p image = some (st, k, i)) :
    exec (.loadProgram m n (some b)) s = .next (refuse (hostAsk s o) o st 0x4C k i) := by
  rw [exec_loadProgram_read hadm hslot hlo hhi hup himage hp, hbad]

variable (hgood : loaderCheck (hostAsk s o) (field o.bytes 0x28 1) p image = none)
include hgood

theorem exec_loadProgram_long (hlong : o.resultLen < (packBits ((s24Bits (hostAsk s o) p).drop 256)).length) :
    exec (.loadProgram m n (some b)) s =
      .next (complete (hostAsk s o) o eRange (resultDetail 0 (packBits ((s24Bits (hostAsk s o) p).drop 256)).length)) := by
  rw [exec_loadProgram_read hadm hslot hlo hhi hup himage hp, hgood]
  exact congrArg Host.Outcome.next (if_pos hlong)

theorem exec_loadProgram_loaded (hfits : (packBits ((s24Bits (hostAsk s o) p).drop 256)).length ≤ o.resultLen) :
    exec (.loadProgram m n (some b)) s =
      .next (complete (sendResult (withProgram (hostAsk s o) (field o.bytes 0x28 1) p) o
        (packBits ((s24Bits (hostAsk s o) p).drop 256))) o eOk (loadDetail (s24Bits (hostAsk s o) p))) := by
  rw [exec_loadProgram_read hadm hslot hlo hhi hup himage hp, hgood]
  exact congrArg Host.Outcome.next (if_neg (Nat.not_lt.mpr hfits))

end

/-- A program loaded, its order answered and completed, leaves all but its slot, its pushes and what sending and completing change. -/
theorem loadPart_loaded (s : State) (o : Order) (slot : Nat) (p : Program) (more : List Byte) (st : BitVec 8) (d : List Byte) :
    loadPart (complete (sendResult (withProgram (hostAsk s o) slot p) o more) o st d) = loadPart s :=
  calc loadPart (complete (sendResult (withProgram (hostAsk s o) slot p) o more) o st d)
    _ = loadPart (withProgram (hostAsk s o) slot p) :=
      loadPart_of_resultPart ((resultPart_complete _ _ _ _).trans (resultPart_sendResult _ _ _))
    _ = loadPart (hostAsk s o) := rfl
    _ = loadPart s := loadPart_of_resultPart (resultPart_hostAsk s o)

/-! RUN (R27, R28, R233). -/

/-- The run that a RUN order asks for, of the program in its slot, with the configuration as it stands (R27, R28). -/
def askedRun (s : State) (o : Order) (p : Program) : Run :=
  { tag := o.tag, qp := o.qp, mailbox := o.mailbox, number := o.number, slot := field o.bytes 0x28 1, prog := p
    extents := runExtents o.bytes, launch := o.beat, keys := slotKeys s, optC := optConsts s
    adapt := (s.layers.filter (fun l => l.2.live)).map (fun l => (l.1, l.2.theta, l.2.g)) }

/-- The state with a run accepted, behind those accepted before it; its slot's ended runs are forgotten, and its order waits. -/
def withRun (s : State) (o : Order) (r : Run) : State :=
  beginOrder { s with runs := s.runs.filter (fun x => !(x.state == 3 && x.slot == r.slot)) ++ [r] } o

theorem withRun_eq (s : State) (o : Order) (r : Run) :
    withRun s o r = { s with runs := (withRun s o r).runs, orders := (withRun s o r).orders } := rfl

/-- A run accepted under a tag that no run has is the one live under it. -/
theorem live_withRun {s : State} {o : Order} {r : Run} (hnone : s.live r.tag = none) (hr : r.state ≠ 3) :
    (withRun s o r).live r.tag = some r := by
  have hkept : (s.runs.filter (fun x => !(x.state == 3 && x.slot == r.slot))).find? (fun x => x.tag == r.tag && x.state != 3) =
      none := List.find?_eq_none.mpr fun x hx => List.find?_eq_none.mp hnone x (List.mem_filter.mp hx).1
  have happend : (withRun s o r).live r.tag =
      ((s.runs.filter (fun x => !(x.state == 3 && x.slot == r.slot))).find? (fun x => x.tag == r.tag && x.state != 3)).or
        ([r].find? (fun x => x.tag == r.tag && x.state != 3)) := List.find?_append
  rw [happend, hkept]
  simp [hr]

theorem mem_withRun {s : State} {x : Run} (hx : x ∈ s.runs) (hstate : x.state ≠ 3) (o : Order) (r : Run) :
    x ∈ (withRun s o r).runs :=
  List.mem_append_left _ (List.mem_filter.mpr ⟨hx, by simp [hstate]⟩)

theorem getLast?_withRun (s : State) (o : Order) (r : Run) : (withRun s o r).runs.getLast? = some r :=
  List.getLast?_concat

theorem checkO4_of_firstCheck {s : State} {o : Order} (h : firstCheck s o = none) : checkO4 s o = true := by
  unfold firstCheck at h
  split_ifs at h with h1 h2 h3 h4
  simpa using h4

/-- No run is live under the tag of a RUN that passes check O4. -/
theorem live_of_admitted_run {s : State} {m n : Nat} {o : Order} (h : Safety.Admitted s m n 0x04 o) : s.live o.tag = none := by
  obtain ⟨hready, hcheck⟩ := h
  have hpassed := checkO4_of_firstCheck hcheck
  unfold checkO4 at hpassed
  simpa [code_of_orderReady hready] using hpassed

/-- Table 9.1 refuses no program with group opcodes in ACTIVE, and no other program at all. -/
theorem groupRefusal_of_active {s : State} {p : Program} (h : p.needsGroup = true → s.group.state = 3) :
    (if p.needsGroup = true then groupRefusal s else none) = none := by
  split
  case isTrue hneeds => simp [groupRefusal, h hneeds]
  case isFalse => rfl

section
variable {s : State} {m n : Nat} {o : Order} (hadm : Safety.Admitted s m n 0x04 o)
include hadm

theorem exec_run_empty (hslot : look (field o.bytes 0x28 1) s.slots = none) :
    exec (.run m n) s = .next (complete s o ePlan []) := by
  refine congrArg Host.Outcome.next ((orderCmd_of_admitted hadm _).trans ?_)
  simp only [runOwn, hslot]

variable {p : Program} (hslot : look (field o.bytes 0x28 1) s.slots = some p)
include hslot

theorem exec_run_refused {st : BitVec 8} (hneeds : p.needsGroup = true) (hgroup : groupRefusal s = some st) :
    exec (.run m n) s = .next (complete s o st []) := by
  refine congrArg Host.Outcome.next ((orderCmd_of_admitted hadm _).trans ?_)
  simp only [runOwn, hslot, hneeds, hgroup, if_true]

variable (hgroup : p.needsGroup = true → s.group.state = 3)
  (hextents : (runExtents o.bytes).any (fun x => decide (p.refs.length ≤ x.1) || decide (6 ≤ x.2.1)) = false)
include hgroup hextents

/-- A RUN that the group's state admits, with extents of references and dimensions that there are, is refused for an extent
over its bound, or else accepted, and ended at once where a core of its team is retired. -/
theorem exec_run_admitted : exec (.run m n) s = .next
    (match shapeOver s (askedRun s o p) with
     | some (k, i) => complete s o eShapeOver (leBytes 2 k ++ leBytes 1 i)
     | none => if p.team.any (fun c => ((withRun s o (askedRun s o p)).core c).retired)
         then endRun (withRun s o (askedRun s o p)) (askedRun s o p).tag eWatchdog else withRun s o (askedRun s o p)) := by
  refine congrArg Host.Outcome.next ((orderCmd_of_admitted hadm _).trans ?_)
  unfold runOwn
  dsimp only
  rw [hslot]
  dsimp only
  rw [groupRefusal_of_active hgroup]
  exact if_neg (by simpa using hextents)

theorem exec_run_shapeOver {k i : Nat} (hover : shapeOver s (askedRun s o p) = some (k, i)) :
    exec (.run m n) s = .next (complete s o eShapeOver (leBytes 2 k ++ leBytes 1 i)) := by
  rw [exec_run_admitted hadm hslot hgroup hextents, hover]

theorem exec_run_accepted (hfits : shapeOver s (askedRun s o p) = none)
    (hteam : p.team.any (fun c => (s.core c).retired) = false) :
    exec (.run m n) s = .next (withRun s o (askedRun s o p)) := by
  rw [exec_run_admitted hadm hslot hgroup hextents, hfits]
  exact congrArg Host.Outcome.next (if_neg (by rw [Bool.not_eq_true]; exact hteam))

end

/-- Settles O12: LOAD_PROGRAM by the length of its image, the loader's checks and the length of its answer, RUN by the slot, the
group's state and the extents. -/
theorem programsAndRuns : Obligations.ProgramsAndRuns := by
  unfold Obligations.ProgramsAndRuns
  refine ⟨fun s m n b o hadm => ?load, fun s m n o hadm => ?run⟩
  case load =>
    intro slot len image p more hslot
    refine ⟨fun hlo hhi hup => ⟨fun st k i hbad => ?bad, fun hgood hlong => ?long, fun hgood hfits => ?loaded⟩,
      fun hempty hfree => ?emptied, fun hempty hbusy => exec_loadProgram_inUse hadm hslot hempty hbusy⟩
    case bad =>
      exact ⟨exec_loadProgram_bad hadm hslot hlo hhi hup rfl rfl hbad, (complete_slots _ _ _ _).trans (hostAsk_slots s o)⟩
    case long =>
      exact ⟨_, exec_loadProgram_long hadm hslot hlo hhi hup rfl rfl hgood hlong, rfl,
        (complete_slots _ _ _ _).trans (hostAsk_slots s o)⟩
    case loaded =>
      have hslots : (complete (sendResult (withProgram (hostAsk s o) slot p) o more) o eOk
          (loadDetail (s24Bits (hostAsk s o) p))).slots = put slot p s.slots := by
        rw [complete_slots, sendResult_slots, ← hostAsk_slots s o]
        rfl
      refine ⟨_, exec_loadProgram_loaded hadm hslot hlo hhi hup rfl rfl hgood hfits, ?_, fun k hk => ?_,
        eq_of_loadPart (loadPart_loaded _ _ _ _ _ _ _)⟩
      · exact (congrArg (look slot) hslots).trans (look_put_same _ _ _)
      · exact (congrArg (look k) hslots).trans (look_put_other hk _ _)
    case emptied =>
      have hslots := complete_slots (withoutProgram s slot) o eOk (loadDetail [])
      refine ⟨_, exec_loadProgram_emptied hadm hslot hempty hfree, ?_, fun k hk => ?_, ?_⟩
      · exact (congrArg (look slot) hslots).trans (look_erase_same _ _)
      · exact (congrArg (look k) hslots).trans (look_erase_other hk _)
      · rw [hslots]
        exact complete_eq _ _ _ _
  case run =>
    intro slot
    refine ⟨exec_run_empty hadm, fun p st hslot hneeds hgroup => exec_run_refused hadm hslot hneeds hgroup,
      fun p hslot hgroup hextents => ?_⟩
    intro r
    refine ⟨fun k i hover => exec_run_shapeOver hadm hslot hgroup hextents hover, fun hfits hteam => ?_⟩
    exact ⟨_, exec_run_accepted hadm hslot hgroup hextents hfits hteam,
      live_withRun (live_of_admitted_run hadm) (Nat.zero_ne_add_one 2), fun x hx hstate => mem_withRun hx hstate o r, getLast?_withRun s o r, rfl⟩

end Sys2Proof.Machine
end

section
/-!
SUPPORT. The life of a run (R28, R29, R192): when RUN_START starts it, what its end leaves of streams and records, and that setting
the stores of a stopped run to zero touches no run. The start of a record (R22, R176, R177), and the passing of WAIT_BEAT
and FENCE (R21, R22).
-/

namespace Sys2Proof.Machine

/-! RUN_START (R28, R233, R414). -/

/-- A change of the runs of one tag that ends none leaves what is live under another. -/
theorem live_onRun_other {k t : Nat} (hk : k ≠ t) {f : Run → Run} (htag : ∀ r, (f r).tag = r.tag) (s : State) :
    (s.onRun t f).live k = s.live k := by
  have hsame : (fun r : Run => r.tag == k && r.state != 3) ∘ (fun r => if r.tag == t && r.state != 3 then f r else r)
      = fun r => r.tag == k && r.state != 3 := by
    funext r
    simp only [Function.comp_apply]
    split
    case isTrue hr =>
      obtain ⟨htr, -⟩ := Bool.and_eq_true_iff.mp hr
      have hne : r.tag ≠ k := fun h => hk (h.symm.trans (beq_iff_eq.mp htr))
      rw [htag, beq_false_of_ne hne, Bool.false_and, Bool.false_and]
    case isFalse => rfl
  unfold State.live State.onRun mapIf
  rw [List.find?_map, hsame]
  cases hfound : s.runs.find? (fun r => r.tag == k && r.state != 3) with
  | none => rfl
  | some r =>
    have hr := List.find?_some hfound
    simp only [Bool.and_eq_true, beq_iff_eq] at hr
    have hne : r.tag ≠ t := fun h => hk (hr.1.symm.trans h)
    simp [hne]

/-- The state with a run of a tag started, late or not: a late start is counted (R28). -/
def startedRun (s : State) (t : Nat) (late : Bool) : State :=
  (if late then s.bump Ctr.lateLaunches 0 1 else s).onRun t (fun r => { r with state := 1, lateLaunch := late })

theorem startedRun_eq (s : State) (t : Nat) (late : Bool) :
    startedRun s t late = { s with runs := (startedRun s t late).runs, counters := (startedRun s t late).counters } := by
  cases late with
  | false => rfl
  | true =>
    unfold startedRun
    rw [if_pos rfl, bump_frame]
    rfl

theorem live_startedRun {s : State} {t : Nat} {r : Run} (hlive : s.live t = some r) (late : Bool) :
    (startedRun s t late).live t = some { r with state := 1, lateLaunch := late } := by
  have hruns : (if late then s.bump Ctr.lateLaunches 0 1 else s).live t = some r :=
    (live_of_runs (by cases late <;> simp) t).trans hlive
  rw [startedRun, live_onRun (by intros; rfl) (by simp), hruns]
  rfl

theorem live_startedRun_other {k t : Nat} (hk : k ≠ t) (s : State) (late : Bool) : (startedRun s t late).live k = s.live k :=
  (live_onRun_other hk (by intros; rfl) _).trans (live_of_runs (by cases late <;> simp) k)

theorem counter_startedRun (s : State) (t : Nat) (late : Bool) : (startedRun s t late).counter Ctr.lateLaunches 0 =
    if late = true then min (s.counter Ctr.lateLaunches 0 + 1) (2 ^ 64 - 1) else s.counter Ctr.lateLaunches 0 := by
  cases late with
  | false => rfl
  | true => exact counter_bump_one s Ctr.lateLaunches 0

section
variable {s : State} {t : Nat} {r : Run} (hlive : s.live t = some r)
include hlive

theorem exec_runStart_idle
    (h : r.state ≠ 0 ∨ teamBusy s r = true ∨ s.beat.number < r.launch ∨ (s.health.imionStopped = true ∧ r.launch = 0)) :
    exec (.runStart t) s = .next s := by
  refine congrArg Host.Outcome.next ?_
  simp only [hlive]
  exact if_pos h

theorem exec_runStart_starts (hqueued : r.state = 0) (hteam : teamBusy s r = false) (hbeat : r.launch ≤ s.beat.number)
    (hrunning : r.launch = 0 → s.health.imionStopped = false) (hretired : ∀ c, c ∈ r.prog.team → (s.core c).retired = false)
    (hservice : ∀ c, c ∈ r.prog.team → (s.core c).outOfService = false) (hgroup : r.prog.needsGroup = true → s.group.state = 3) :
    exec (.runStart t) s = .next (startedRun s t (decide (r.launch ≠ 0 ∧ r.launch < s.beat.number))) := by
  have hwaits : ¬ (r.state ≠ 0 ∨ teamBusy s r = true ∨ s.beat.number < r.launch
      ∨ (s.health.imionStopped = true ∧ r.launch = 0)) := by
    rintro (h | h | h | ⟨hstopped, hnone⟩)
    · exact h hqueued
    · simp [hteam] at h
    · omega
    · simp [hrunning hnone] at hstopped
  refine congrArg Host.Outcome.next ?_
  simp only [hlive]
  rw [if_neg hwaits, if_neg (by simpa using hretired), if_neg (by simpa using hservice), groupRefusal_of_active hgroup]
  rfl

end

/-! The end of a run (R29, R192). -/

@[simp] theorem endMcasts_streams (s : State) (tag : Nat) : (endMcasts s tag).streams = s.streams := by
  have hsent (u : State) (dest code : Nat) (body : List Byte) : (sendMgmt u dest code body).streams = u.streams :=
    (congrArg State.streams (tellPart_sendMgmt u dest code body) :)
  have hbump (u : State) : (u.bump Ctr.mcastDetached 0 1).streams = u.streams :=
    (congrArg Prod.fst (readsPart_bump u Ctr.mcastDetached 0 1) :)
  refine (foldl_leaves (g := State.streams) (fun u m => ?_) _ _).trans rfl
  unfold leaveChildren
  split
  · rfl
  · exact (foldl_leaves (g := State.streams) (fun x c => (hsent _ _ _ _).trans (hbump x)) _ _).trans rfl

@[simp] theorem adaptSlot_streams (s : State) (slot audited missed : Nat) : (adaptSlot s slot audited missed).streams = s.streams := by
  have hmoved (u : State) (kind part : Nat) (d : List Byte) : (cofferAdd u kind part d).streams = u.streams := rfl
  unfold adaptSlot
  dsimp only
  simp only [apply_ite State.streams, hmoved, ite_self]

@[simp] theorem complete_streams (s : State) (o : Order) (st : BitVec 8) (d : List Byte) : (complete s o st d).streams = s.streams :=
  (congrArg State.streams (complete_eq s o st d) :)

@[simp] theorem completeRun_streams (s : State) (r : Run) (st : BitVec 8) : (completeRun s r st).streams = s.streams := by
  unfold completeRun
  split <;> simp

@[simp] theorem completeWaiter_streams (s : State) (m n : Nat) : (completeWaiter s m n).streams = s.streams := by
  unfold completeWaiter
  split
  · split <;> simp
  · rfl

/-- Of a run that ends no stream is left. -/
theorem endRun_streams {s : State} {t : Nat} {r : Run} (hlive : s.live t = some r) (st : BitVec 8) :
    (endRun s t st).streams = s.streams.filter (fun x => x.tag != t) := by
  have hadapt (u : State) (x : Run) : (adaptRun u x).streams = u.streams :=
    foldl_leaves (g := State.streams) (fun u k => adaptSlot_streams u k _ _) _ _
  have hrelease (u : State) (x : Run) : (releaseCores u x).streams = u.streams :=
    (congrArg Prod.fst (readsPart_releaseCores u x) :)
  unfold endRun
  simp only [hlive]
  rw [foldl_leaves (g := State.streams) (fun x o => completeWaiter_streams x _ _), completeRun_streams, hrelease, hadapt]
  split
  · exact (foldl_leaves (g := State.streams) (by intros; rfl) _ _).trans ((endMcasts_streams _ _).trans rfl)
  · exact (endMcasts_streams _ _).trans rfl

theorem endedRun_tag (s : State) (r : Run) (st : BitVec 8) : (endedRun s r st).tag = r.tag := rfl

/-- What is left of a run that has ended: it is live no more, no stream of it is left, and its record has its status and the beat
of its end; no byte of memory has changed. -/
theorem endRun_leaves {s : State} {t : Nat} {r : Run} (hlive : s.live t = some r) (st : BitVec 8) :
    (endRun s t st).live t = none ∧ endedRun s r st ∈ (endRun s t st).runs
      ∧ (∀ y, y ∈ (endRun s t st).streams → y.tag ≠ t) ∧ (endRun s t st).mem = s.mem := by
  obtain ⟨hruns, hmem⟩ := runs_mem_of_endPart (endPart_endRun hlive st)
  have hmine : (r.tag == t && r.state != 3) = true :=
    List.find?_some (p := fun r : Run => r.tag == t && r.state != 3) hlive
  refine ⟨(live_of_runs hruns t).trans (live_onRun_ended (by intros; rfl) _ _), ?_, fun y hy => ?_, hmem⟩
  · rw [hruns]
    exact List.mem_map.mpr ⟨r, List.mem_of_find?_eq_some hlive, if_pos hmine⟩
  · rw [endRun_streams hlive] at hy
    exact bne_iff_ne.mp (List.mem_filter.mp hy).2

section
variable {s : State} {t : Nat} {r : Run} (hlive : s.live t = some r)
include hlive

theorem exec_runEnd_done (hdone : runDone s r = true) : exec (.runEnd t) s = .next (endRun s t eOk) := by
  refine congrArg Host.Outcome.next ?_
  simp only [hlive, hdone, if_true]

theorem exec_runEnd_idle (hdone : runDone s r = false) : exec (.runEnd t) s = .next s := by
  refine congrArg Host.Outcome.next ?_
  simp only [hlive, hdone, Bool.false_eq_true, if_false]

theorem exec_runStopComplete_settled {st : BitVec 8} (hstop : r.stopping = some st) (hsettled : stopSettled s r = true) :
    exec (.runStopComplete t) s = .next (endRun (discardSlices s r) t st) := by
  refine congrArg Host.Outcome.next ?_
  simp only [hlive, hstop, hsettled, if_true]

theorem exec_runStopComplete_idle (h : r.stopping = none ∨ stopSettled s r = false) :
    exec (.runStopComplete t) s = .next s := by
  refine congrArg Host.Outcome.next ?_
  cases hstop : r.stopping with
  | none => simp only [hlive, hstop]
  | some st =>
    have hsettled := h.resolve_left (by simp [hstop])
    simp only [hlive, hstop, hsettled, Bool.false_eq_true, if_false]

end

/-! Stores set to zero (R187, R227). -/

/-- The runs and the beat. -/
def coursePart (s : State) : List Run × Beat := (s.runs, s.beat)

@[simp] theorem coursePart_bump (s : State) (k : Nat × Nat) (u n : Nat) : coursePart (s.bump k u n) = coursePart s := by
  unfold State.bump
  split <;> rfl

@[simp] theorem coursePart_burstWrite (s : State) (b : Nat) (cells : List Host.Cell) :
    coursePart (burstWrite s b cells).1 = coursePart s := by
  have hmem (m : Memory) : coursePart { s with mem := m } = coursePart s := rfl
  unfold burstWrite
  dsimp only
  split
  · rfl
  · split
    · exact coursePart_bump _ _ _ _
    · split <;> simp [hmem]

@[simp] theorem coursePart_ddrZero (s : State) (a n : Nat) : coursePart (ddrZero s a n).1 = coursePart s := by
  have hfilled (u : State) (f : Nat) : coursePart (freshFill u f) = coursePart u :=
    (congrArg coursePart (outsideMem_freshFill u f) :)
  refine (foldl_leaves (g := fun x : State × Bool => coursePart x.1) (fun x b => ?_) _ _).trans (foldl_leaves hfilled _ _)
  exact coursePart_burstWrite x.1 b _

@[simp] theorem coursePart_sendTransfer (s : State) (cls : Nat) (h : Hdr) (d : List Byte) :
    coursePart (sendTransfer s cls h d).1 = coursePart s := (congrArg coursePart (tellPart_sendTransfer s cls h d) :)

@[simp] theorem coursePart_hostReq (s : State) (kind q addr rkey : Nat) (d : List Byte) :
    coursePart (hostReq s kind q addr rkey d) = coursePart s :=
  Prod.ext (hostReq_runs s kind q addr rkey d) (congrArg State.beat (issuePart_hostReq s kind q addr rkey d) :)

@[simp] theorem coursePart_zeroPage (s : State) (served : Bool) (a n : Nat) : coursePart (zeroPage s served a n).1 = coursePart s := by
  unfold zeroPage
  dsimp only
  split
  · rfl
  · split
    · exact coursePart_ddrZero _ _ _
    · split
      · rfl
      · refine foldl_leaves (g := fun x : State × Bool => coursePart x.1) (fun x r => ?_) _ _
        exact coursePart_sendTransfer x.1 3 _ _
    · split
      · rfl
      · exact coursePart_hostReq _ _ _ _ _ _
    · rfl

@[simp] theorem coursePart_zeroPages (s : State) (served : Bool) (a n : Nat) :
    coursePart (zeroPages s served a n).1 = coursePart s := by
  refine foldl_leaves (g := fun x : State × Bool => coursePart x.1) (fun x pg => ?_) _ _
  dsimp only
  split
  · exact coursePart_zeroPage _ _ _ _
  · rfl

/-- Setting to zero what a stopped run's pushes have not taken touches no run, and no beat begins. -/
theorem coursePart_discardSlices (s : State) (r : Run) : coursePart (discardSlices s r) = coursePart s := by
  refine foldl_leaves (fun u p => ?_) _ _
  dsimp only
  rw [coursePart_bump]
  exact foldl_leaves (fun v k => foldl_leaves (fun x y => coursePart_zeroPages x true _ _) _ _) _ _

/-- A stopped run without a push begun has no store to set to zero. -/
theorem discardSlices_of_noPush {s : State} {r : Run} (h : ∀ p, p ∈ s.pushes → p.tag = r.tag → p.begun = false) :
    discardSlices s r = s := by
  have hnone : s.pushes.filter (fun p => p.tag == r.tag && p.begun) = [] := by
    refine List.filter_eq_nil_iff.mpr fun p hp hmine => ?_
    simp only [Bool.and_eq_true, beq_iff_eq] at hmine
    simp [h p hp hmine.1] at hmine
  unfold discardSlices
  rw [hnone]
  rfl

/-! MACRO_START (R22, R176, R177). -/

section
variable {s : State} {t i p : Nat} {r : Run}

/-- The walk with which a record starts on a position. -/
def newWalk (s : State) (r : Run) (i p : Nat) : Walk :=
  { mi := i, pos := p, core := r.coreAt p, startAt := s.now, beatAt := beatAfter s 0 }

/-- A run once a record of it has started on a position: its first start sets its start beat. -/
def startedOn (s : State) (r x : Run) (i p : Nat) : Run :=
  { x with startBeat := if x.started.isEmpty then s.beat.number else x.startBeat, started := insertN i x.started
           walks := x.walks ++ [newWalk s r i p] }

/-- A core once the read streams of a start have taken larders of it. -/
def takeLarders (r : Run) (i : Nat) (ls : List (Nat × Nat)) (c : Core) : Core :=
  { c with
    larders := (List.range 2).map (fun l => if ls.any (fun x => x.1 == l) then some (r.tag, i) else c.larders.getD l none)
    conflictOf := none }

theorem startMacro_cores (s : State) (r : Run) (i p : Nat) (ls : List (Nat × Nat)) :
    (startMacro s r i p ls).cores = (s.onCore (r.coreAt p) (takeLarders r i ls)).cores := rfl

theorem core_of_cores {s u : State} (h : u.cores = s.cores) (c : Nat) : u.core c = s.core c := by simp [State.core, h]

theorem startMacro_runs (s : State) (r : Run) (i p : Nat) (ls : List (Nat × Nat)) :
    (startMacro s r i p ls).runs = (s.onRun r.tag (fun x => startedOn s r x i p)).runs := rfl

/-- The walk of a record begins with its start. -/
theorem findWalk_startMacro (hlive : s.live t = some r) (hnew : r.walk i p = none) (ls : List (Nat × Nat)) :
    findWalk (startMacro s r i p ls) t i p = some (startedOn s r r i p, newWalk s r i p) := by
  have hstarted : (startMacro s r i p ls).live t = some (startedOn s r r i p) := by
    rw [live_of_runs (startMacro_runs s r i p ls), tag_of_live hlive, live_onRun (by intros; rfl) (by intros; assumption), hlive]
    rfl
  have hwalk : (startedOn s r r i p).walk i p =
      (r.walk i p).or ([newWalk s r i p].find? (fun w => w.mi == i && w.pos == p)) := List.find?_append
  refine findWalk_eq_some_iff.mpr ⟨hstarted, hwalk.trans ?_⟩
  rw [hnew]
  simp [newWalk]

/-- The larders that a start takes are held for it. -/
theorem larders_startMacro {ls : List (Nat × Nat)} {l h : Nat} (hl : l < 2) (hmem : (l, h) ∈ ls) :
    ((startMacro s r i p ls).core (r.coreAt p)).larders.getD l none = some (r.tag, i) := by
  have htaken : ls.any (fun x => x.1 == l) = true := List.any_eq_true.mpr ⟨(l, h), hmem, beq_self_eq_true l⟩
  rw [core_of_cores (startMacro_cores s r i p ls), core_onCore_same]
  simp [takeLarders, hl, htaken]

theorem core_startMacro_other {c : Nat} (hc : c ≠ r.coreAt p) (ls : List (Nat × Nat)) :
    (startMacro s r i p ls).core c = s.core c :=
  (core_of_cores (startMacro_cores s r i p ls) c).trans (core_onCore_other hc s _)

variable (hlive : s.live t = some r)
include hlive

theorem exec_macroStart_starts {ls : List (Nat × Nat)} (hready : startable s r i p = true) (hfree : startBlocks s r i p = [])
    (hplan : larderPlan (s.core (r.coreAt p)) (memReads s r i p).length = some ls) :
    exec (.macroStart t i p) s = .next (startMacro s r i p ls) := by
  refine congrArg Host.Outcome.next ?_
  simp [hlive, hready, hfree, hplan]

theorem exec_macroStart_idle (h : startable s r i p = false ∨ startBlocks s r i p ≠ []) :
    exec (.macroStart t i p) s = .next s := by
  refine congrArg Host.Outcome.next ?_
  simp only [hlive]
  exact if_pos (by simpa [List.isEmpty_eq_false_iff] using h)

end

theorem walk_of_startable {s : State} {r : Run} {i p : Nat} (h : startable s r i p = true) : r.walk i p = none := by
  unfold startable at h
  simp only [Bool.and_eq_true, Option.isNone_iff_eq_none] at h
  exact h.2

/-! WAIT_BEAT and FENCE (R21, R22). -/

section
variable {s : State} {t i p : Nat} {r : Run} {w : Walk} (hw : walkOf s t i p = some (r, w))
include hw

/-- A walk that has ended is the one that it was, marked as done. -/
theorem walkAt_endWalk_of_walk : walkAt (endWalk s t i p w.core) t i p = some { w with done := true, set := true } := by
  obtain ⟨hlive, hwalk, -⟩ := walkOf_eq_some_iff.mp hw
  rw [walkAt_endWalk, walkAt_of_live hlive hwalk]
  rfl

variable (hdone : w.done = false)
include hdone

theorem exec_waitBeat_waits (hop : (r.mrec i).opcode = opWaitBeat) (hbeat : s.beat.number < beatOf r (r.mrec i)) :
    exec (.waitBeat t i p) s = .next s := by
  refine congrArg Host.Outcome.next ((opCmd_of_walk hw hop hdone _).trans ?_)
  exact if_pos hbeat

/-- Once the beat that it names has begun WAIT_BEAT ends its walk; what else it changes is its run's notes and a counter. -/
theorem exec_waitBeat_passes (hop : (r.mrec i).opcode = opWaitBeat) (hbeat : beatOf r (r.mrec i) ≤ s.beat.number) :
    ∃ u, exec (.waitBeat t i p) s = .next u ∧ walkAt u t i p = some { w with done := true, set := true } ∧ u.mem = s.mem := by
  have hend := walkAt_endWalk_of_walk hw
  have hbeatNoted (u : State) (b : Nat) :
      walkAt (u.onRun t (fun r => { r with waitBeat := some b })) t i p = walkAt u t i p :=
    walkAt_onRun (by intros; rfl) (by simp) (by intros; rfl) u t t i p
  have hlateNoted (u : State) : walkAt (u.onRun t (fun r => { r with lateWaits := r.lateWaits + 1 })) t i p = walkAt u t i p :=
    walkAt_onRun (by intros; rfl) (by simp) (by intros; rfl) u t t i p
  refine ⟨_, congrArg Host.Outcome.next ((opCmd_of_walk hw hop hdone _).trans (if_neg (Nat.not_lt.mpr hbeat))), ?_, ?_⟩
  · simp only [apply_ite (fun u => walkAt u t i p), walkAt_bump, hlateNoted, hbeatNoted, ite_self]
    exact hend
  · simp only [apply_ite State.mem, bump_mem, State.onRun_mem, ite_self]
    rfl

theorem exec_fence_passes (hop : (r.mrec i).opcode = opFence)
    (hall : (List.range i).all (fun j => scopeOf s r j &&& (if (r.mrec i).imm0 = 0 then 15 else (r.mrec i).imm0) == 0
      || macroDone s r j) = true) :
    exec (.fence t i p) s = .next (endWalk s t i p w.core) := by
  refine congrArg Host.Outcome.next ((opCmd_of_walk hw hop hdone _).trans ?_)
  exact if_pos hall

theorem exec_fence_waits (hop : (r.mrec i).opcode = opFence)
    (hall : (List.range i).all (fun j => scopeOf s r j &&& (if (r.mrec i).imm0 = 0 then 15 else (r.mrec i).imm0) == 0
      || macroDone s r j) = false) :
    exec (.fence t i p) s = .next s := by
  refine congrArg Host.Outcome.next ((opCmd_of_walk hw hop hdone _).trans ?_)
  exact if_neg (by rw [Bool.not_eq_true]; exact hall)

end

/-- Settles O22: a run's start by what keeps it back, its end by what endRun leaves, a stop's end by what setting its stores to zero
leaves; MACRO_START, WAIT_BEAT and FENCE by whether they are kept back. -/
theorem runsAndBarriers : Obligations.RunsAndBarriers := by
  unfold Obligations.RunsAndBarriers
  refine ⟨fun s t r hlive => ⟨?start, exec_runStart_idle hlive, fun hdone => ?ended, exec_runEnd_idle hlive,
      fun st hstop hsettled => ?stopped, exec_runStopComplete_idle hlive⟩,
    fun s t i p r hlive => ⟨fun ls hready hfree hplan => ?begun, exec_macroStart_idle hlive⟩,
    fun s t i p r w hw hdone => ⟨fun hop => ⟨fun hbeat => ?passes, exec_waitBeat_waits hw hdone hop⟩, fun hop => ?fence⟩⟩
  case start =>
    intro hqueued hteam hbeat hrunning hretired hservice hgroup late
    refine ⟨_, exec_runStart_starts hlive hqueued hteam hbeat hrunning hretired hservice hgroup, live_startedRun hlive _,
      fun k hk => live_startedRun_other hk s _, ?_, startedRun_eq _ _ _⟩
    rw [counter_startedRun]
    simp only [decide_eq_true_eq]
    rfl
  case ended =>
    obtain ⟨hnone, hrecord, hstreams, hmem⟩ := endRun_leaves hlive eOk
    exact ⟨_, _, exec_runEnd_done hlive hdone, hnone, hrecord, (endedRun_tag _ _ _).trans (tag_of_live hlive),
      rfl, rfl, rfl, hstreams, hmem⟩
  case stopped =>
    obtain ⟨hruns, hbeat⟩ := Prod.mk.inj (coursePart_discardSlices s r)
    obtain ⟨hnone, hrecord, hstreams, hmem⟩ := endRun_leaves ((live_of_runs hruns t).trans hlive) st
    refine ⟨_, _, exec_runStopComplete_settled hlive hstop hsettled, hnone, hrecord,
      (endedRun_tag _ _ _).trans (tag_of_live hlive), rfl, rfl, congrArg Beat.number hbeat, hstreams, fun hnoPush => hmem.trans ?_⟩
    rw [discardSlices_of_noPush (tag_of_live hlive ▸ hnoPush)]
  case begun =>
    refine ⟨_, _, _, exec_macroStart_starts hlive hready hfree hplan,
      findWalk_startMacro hlive (walk_of_startable hready) ls, rfl, rfl, rfl, rfl, rfl, rfl, mem_insertN.mpr (.inl rfl), rfl, ?_, fun c hc => core_startMacro_other hc ls, rfl⟩
    rintro l hl ⟨h, hmem⟩
    exact (larders_startMacro hl hmem).trans (by rw [tag_of_live hlive])
  case passes =>
    obtain ⟨u, hu, hwalk, hmem⟩ := exec_waitBeat_passes hw hdone hop hbeat
    obtain ⟨x, hx⟩ := walkAt_eq_some_iff.mp hwalk
    exact ⟨u, x, _, hu, hx, rfl, hmem⟩
  case fence =>
    intro want all
    obtain ⟨x, hx⟩ := walkAt_eq_some_iff.mp (walkAt_endWalk_of_walk hw)
    exact ⟨fun hall => ⟨_, x, _, exec_fence_passes hw hdone hop hall, hx, rfl, rfl⟩, exec_fence_waits hw hdone hop⟩

end Sys2Proof.Machine
end

section
/-!
SUPPORT. The engines' walks and their cellar tiles (R31, R32, R66 to R69, R75, R76): what forming a walk leaves, how a cellar tile
shows through the changes that other work makes, and what PRELOAD_START, TILE_FIRST_READ and TILE_DRAIN do with the tile of a walk.
-/

namespace Sys2Proof.Machine

/-! A walk formed (R31, R32). -/

theorem exec_of_mem_engineCommands {t i p o : Nat} {c : Instr} (h : (o, c) ∈ Safety.engineCommands t i p) (s : State) :
    exec c s = .next (opCmd s t i p o formWalk) := by
  simp only [Safety.engineCommands, List.mem_cons, Prod.mk.injEq, List.not_mem_nil, or_false] at h
  obtain ⟨rfl, rfl⟩ | ⟨rfl, rfl⟩ | ⟨rfl, rfl⟩ | ⟨rfl, rfl⟩ | ⟨rfl, rfl⟩ | ⟨rfl, rfl⟩ := h <;> rfl

/-- A walk replaced by one of the same record and position is that one. -/
theorem walkAt_onWalk_const {s : State} {t i p : Nat} {w v : Walk} (hw : walkAt s t i p = some w) (hmi : v.mi = i) (hpos : v.pos = p) :
    walkAt (s.onWalk t i p (fun _ => v)) t i p = some v := by
  obtain ⟨x, hx⟩ := walkAt_eq_some_iff.mp hw
  obtain ⟨hlive, hwalk⟩ := findWalk_eq_some_iff.mp hx
  have hreplaced : (mapIf (fun w => w.mi == i && w.pos == p) (fun _ => v) x.walks).find? (fun w => w.mi == i && w.pos == p) =
      some v := by
    rw [find?_mapIf (fun _ _ => by simp [hmi, hpos])]
    exact congrArg (Option.map fun _ => v) hwalk
  unfold walkAt State.onWalk
  rw [live_onRun (by intros; rfl) (by intros; assumption), hlive]
  exact hreplaced

/-- A walk that is spent and not done ends. -/
theorem settle_of_spent {s : State} {t i p : Nat} {w : Walk} (hw : walkAt s t i p = some w) (hspent : w.spent = true)
    (hdone : w.done = false) : settle s t i p = endWalk s t i p w.core := by
  obtain ⟨x, hx⟩ := walkAt_eq_some_iff.mp hw
  simp [settle, hx, hspent, hdone]

theorem doLoft_of_done {w : Walk} (h : w.loftDone = true) (s : State) (r : Run) : doLoft s r w = s := if_pos h

/-- A walk once its work items are known, of a record without loft copies. -/
def Walk.formed (w : Walk) (us : List Nat) : Walk := { w with set := true, units := us, loftDone := true }

section
variable {s : State} {r : Run} {w : Walk}

/-- The walk of a record without a row mask and without a loft copy takes its work items, and ends at once where it has none. -/
theorem formWalk_of_plain {us : List Nat} (hset : w.set = false) (hmask : (r.mrec w.mi).granule = 0) (hloft : loftCopies r w.mi = [])
    (hwindow : emptyWindow (r.mrec w.mi) (getView s r w.mi w.pos 0) = false) (hus : walkUnits s r w.mi w.pos = .ok us) :
    formWalk s r w = settle (s.onWalk r.tag w.mi w.pos (fun _ => w.formed us)) r.tag w.mi w.pos := by
  unfold formWalk
  simp only [hset, hus, hwindow, hmask, hloft, Bool.false_eq_true, Bool.false_and, if_false, ne_eq, not_true_eq_false, false_and,
    List.isEmpty_nil]
  rw [doLoft_of_done rfl]
  rfl

section
variable {us : List Nat} (hw : walkAt s r.tag w.mi w.pos = some w) (hset : w.set = false) (hmask : (r.mrec w.mi).granule = 0)
  (hloft : loftCopies r w.mi = []) (hwindow : emptyWindow (r.mrec w.mi) (getView s r w.mi w.pos 0) = false)
  (hus : walkUnits s r w.mi w.pos = .ok us)
include hw hset hmask hloft hwindow hus

/-- A walk with work items is formed of them, and nothing else changes. -/
theorem formWalk_of_items (hne : us ≠ []) : formWalk s r w = s.onWalk r.tag w.mi w.pos (fun _ => w.formed us) := by
  rw [formWalk_of_plain hset hmask hloft hwindow hus]
  exact settle_of_units (walkAt_onWalk_const hw rfl rfl) hne

/-- A walk without a work item has done its part. -/
theorem formWalk_of_noItem (hnone : us = []) (hfilling : w.filling = []) (hdraining : w.draining = []) (hbufs : w.bufs = [])
    (hpred : w.pred = {}) (hdone : w.done = false) :
    walkAt (formWalk s r w) r.tag w.mi w.pos = some { w.formed us with done := true, set := true }
      ∧ (formWalk s r w).mem = s.mem := by
  have hformed := walkAt_onWalk_const (v := w.formed us) hw rfl rfl
  have hspent : (w.formed us).spent = true := by simp [Walk.formed, Walk.spent, hnone, hfilling, hdraining, hbufs, hpred]
  rw [formWalk_of_plain hset hmask hloft hwindow hus, settle_of_spent hformed hspent hdone, walkAt_endWalk, hformed, Option.map_some]
  exact ⟨rfl, rfl⟩

end

/-- A walk that is formed and has work items left stays as it is. -/
theorem formWalk_of_formed (hset : w.set = true) (hne : w.units ≠ []) (hloft : w.loftDone = true)
    (hw : walkAt s r.tag w.mi w.pos = some w) : formWalk s r w = s := by
  unfold formWalk
  rw [if_pos hset, doLoft_of_done hloft, settle_of_units hw hne]

end

/-! A cellar tile through changes of the state. -/

/-- Cellar tile k of a core. -/
def tileAt (s : State) (core k : Nat) : CTile := (s.core core).tile k

section
variable (s : State) (core k : Nat)

theorem tileAt_of_cores {u : State} (h : u.cores = s.cores) : tileAt u core k = tileAt s core k :=
  congrArg (fun c : Core => c.tile k) (core_of_cores h core)

@[simp] theorem tileAt_bump (key : Nat × Nat) (c n : Nat) : tileAt (s.bump key c n) core k = tileAt s core k :=
  tileAt_of_cores s core k (bump_cores _ _ _ _)

@[simp] theorem tileAt_onWalk (t i p : Nat) (f : Walk → Walk) : tileAt (s.onWalk t i p f) core k = tileAt s core k := rfl

/-- A change of a core that leaves it its tiles. -/
theorem tileAt_onCore {f : Core → Core} {c : Nat} (hf : (f (s.core c)).tiles = (s.core c).tiles) :
    tileAt (s.onCore c f) core k = tileAt s core k := by
  by_cases hc : core = c
  · subst hc
    simp [tileAt, core_onCore_same, Core.tile, hf]
  · exact congrArg (fun c : Core => c.tile k) (core_onCore_other hc s f)

theorem tileAt_onTile (f : CTile → CTile) : tileAt (s.onTile core k f) core k = f (tileAt s core k) := by
  simp [tileAt, State.onTile, core_onCore_same, Core.tile]

@[simp] theorem tileAt_endReads (t i p c : Nat) : tileAt (endReads s t i p c) core k = tileAt s core k := by
  refine (tileAt_onCore _ core k ?_).trans (tileAt_of_cores s core k rfl)
  split <;> rfl

@[simp] theorem tileAt_endWalk (t i p c : Nat) : tileAt (endWalk s t i p c) core k = tileAt s core k :=
  (tileAt_onWalk _ _ _ _ _ _ _).trans (tileAt_endReads s core k t i p c)

@[simp] theorem tileAt_settle (t i p : Nat) : tileAt (settle s t i p) core k = tileAt s core k := by
  unfold settle
  split
  · split
    · exact tileAt_endWalk _ _ _ _ _ _ _
    · rfl
  · rfl

theorem noteReaders_eq (r : Run) (i p : Nat) : noteReaders s r i p = { s with rots := (noteReaders s r i p).rots } := by
  have hbegun (u : State) (tag mi core off n : Nat) : { beginReads u tag mi core off n with rots := [] } = { u with rots := [] } := by
    unfold beginReads
    dsimp only
    split <;> rfl
  have hrest : { noteReaders s r i p with rots := [] } = { s with rots := [] } := by
    unfold noteReaders
    split
    · rfl
    · refine foldl_leaves (g := fun u : State => { u with rots := [] }) (fun u op => ?_) _ _
      dsimp only
      split
      · exact hbegun _ _ _ _ _ _
      · rfl
  exact congrArg (fun u : State => { u with rots := (noteReaders s r i p).rots }) hrest

@[simp] theorem tileAt_noteReaders (r : Run) (i p : Nat) : tileAt (noteReaders s r i p) core k = tileAt s core k :=
  tileAt_of_cores s core k (congrArg State.cores (noteReaders_eq s r i p) :)

@[simp] theorem walkAt_noteReaders (r : Run) (i p t i' p' : Nat) :
    walkAt (noteReaders s r i p) t i' p' = walkAt s t i' p' :=
  walkAt_of_runs (congrArg State.runs (noteReaders_eq s r i p) :) _ _ _

/-! Issuing writes leaves the tiles. -/

@[simp] theorem tileAt_lookupPage (c page : Nat) : tileAt (lookupPage s c page) core k = tileAt s core k := by
  have hcached (u : State) (hu : u.cores = s.cores) (l : List (Nat × Nat)) :
      tileAt (u.setCore c { s.core c with xcache := l }) core k = tileAt s core k :=
    (tileAt_onCore (f := fun _ => { s.core c with xcache := l }) u core k (by rw [core_of_cores hu])).trans
      (tileAt_of_cores s core k hu)
  unfold lookupPage
  dsimp only
  split
  · rfl
  · split
    · exact (tileAt_bump _ _ _ _ _ _).trans (hcached s rfl _)
    · exact (tileAt_bump _ _ _ _ _ _).trans (hcached s.draw rfl _)

@[simp] theorem tileAt_issueWrite (x : Stream) (f : Xfer) : tileAt (issueWrite s x f).1 core k = tileAt s core k := by
  have hput (u : State) (n : Nat) (f : Xfer) (k1 k2 : Nat × Nat) (c1 c2 n1 n2 : Nat) :
      tileAt (((({ u with nextXfer := n }).onCore x.core (fun c => { c with writes := c.writes ++ [f] })).bump k1 c1 n1).bump k2 c2 n2)
        core k = tileAt u core k := by
    rw [tileAt_bump, tileAt_bump, tileAt_onCore _ _ _ rfl]
    rfl
  have hsent (u : State) (cls : Nat) (h : Hdr) (d : List Byte) : tileAt (sendTransfer u cls h d).1 core k = tileAt u core k :=
    tileAt_of_cores u core k (congrArg State.cores (tellPart_sendTransfer u cls h d) :)
  have hasked (u : State) (kind q addr rkey : Nat) (d : List Byte) : tileAt (hostReq u kind q addr rkey d) core k = tileAt u core k :=
    tileAt_of_cores u core k (congrArg State.cores (resultPart_roce u q _) :)
  unfold issueWrite
  dsimp only
  split
  · exact tileAt_lookupPage ..
  · split
    · exact (hput ..).trans (tileAt_lookupPage ..)
    · simp only [apply_ite Prod.fst, apply_ite (fun u => tileAt u core k), hput, hsent, tileAt_lookupPage, ite_self]
    · exact (hput ..).trans ((foldl_leaves (g := fun u => tileAt u core k) (fun y r => hasked y _ _ _ _ _) _ _).trans
        (tileAt_lookupPage ..))

@[simp] theorem tileAt_haltStream (x : Stream) (page reason : Nat) : tileAt (haltStream s x page reason) core k = tileAt s core k := by
  have hcores (u : State) (q : Nat) (c : Completion) : (deliver u q c).cores = u.cores :=
    (congrArg State.cores (answerPart_deliver u q c) :)
  refine tileAt_of_cores s core k ?_
  unfold haltStream
  split
  · rfl
  · split
    · rfl
    · dsimp only
      split
      · exact bump_cores _ _ _ _
      · exact (hcores _ _ _).trans (bump_cores _ _ _ _)

@[simp] theorem tileAt_issueStream (n : Nat) (x : Stream) : tileAt (issueStream n s x) core k = tileAt s core k := by
  induction n generalizing s x with
  | zero => rfl
  | succ n ih =>
    unfold issueStream
    split
    · rfl
    · split
      · rfl
      · dsimp only
        split
        · exact (tileAt_haltStream ..).trans (tileAt_issueWrite ..)
        · exact (ih _ _).trans (tileAt_issueWrite ..)

@[simp] theorem tileAt_issueWrites : tileAt (issueWrites s) core k = tileAt s core k :=
  foldl_leaves (g := fun u => tileAt u core k) (fun u x => tileAt_issueStream u core k _ x) _ _

end

/-! Rows of accumulations in the cellar (R40). -/

/-- What writing accumulations makes of the memories depends on the memories alone. -/
theorem putAccs_mem_congr {s u : State} (h : u.mem = s.mem) (core k : Nat) (isInt : Bool) (rows : List Nat) (accs : List (List Acc)) :
    (putAccs u core k isInt rows accs).mem = (putAccs s core k isInt rows accs).mem := by
  unfold putAccs
  induction rows.zip accs generalizing s u with
  | nil => exact h
  | cons x l ih => exact ih (by simp only [putRow, cellarWrite, State.onMem, h])

@[simp] theorem walkAt_putAccs (s : State) (core k : Nat) (isInt : Bool) (rows : List Nat) (accs : List (List Acc)) (t i p : Nat) :
    walkAt (putAccs s core k isInt rows accs) t i p = walkAt s t i p :=
  foldl_leaves (g := fun u => walkAt u t i p) (by intros; rfl) _ _

@[simp] theorem walkAt_onTile (s : State) (core k : Nat) (f : CTile → CTile) (t i p : Nat) :
    walkAt (s.onTile core k f) t i p = walkAt s t i p := rfl

@[simp] theorem onWalk_mem (s : State) (t i p : Nat) (f : Walk → Walk) : (s.onWalk t i p f).mem = s.mem := rfl

@[simp] theorem onTile_mem (s : State) (core k : Nat) (f : CTile → CTile) : (s.onTile core k f).mem = s.mem := rfl

/-! PRELOAD_START (R66, R69). -/

/-- A walk's item begun: its tile is being filled, with the accumulations that its preload gives. -/
def beginFill (a : State) (t i p core k u : Nat) (us : List Nat) (isInt : Bool) (rows : List Nat) (accs : List (List Acc)) : State :=
  ((putAccs a core k isInt rows accs).onTile core k (fun c => { c with
    state := 1, isInt := isInt, rows := rows.length, preloadAt := some (putAccs a core k isInt rows accs).now, retry := 0
    filled := false, sat := [] })).onWalk t i p (fun w => { w with
      units := us, count := w.count + 1, filling := w.filling ++ [(u, k)] })

section
variable {a : State} {t i p core k u : Nat} {us : List Nat} {isInt : Bool} {rows : List Nat} {accs : List (List Acc)}

theorem walkAt_beginFill : walkAt (beginFill a t i p core k u us isInt rows accs) t i p =
    (walkAt a t i p).map (fun w => { w with units := us, count := w.count + 1, filling := w.filling ++ [(u, k)] }) := by
  unfold beginFill
  rw [walkAt_onWalk (by intros; rfl) (by intros; rfl), walkAt_onTile, walkAt_putAccs]

theorem tileAt_beginFill_state : (tileAt (beginFill a t i p core k u us isInt rows accs) core k).state = 1 := by
  unfold beginFill
  rw [tileAt_onWalk, tileAt_onTile]

theorem beginFill_mem : (beginFill a t i p core k u us isInt rows accs).mem = (putAccs a core k isInt rows accs).mem := rfl

end

section
variable {s : State} {t i p u k : Nat} {r : Run} {w : Walk}

/-- The state in which a preload begins: D's headers are read up to the item, and the waits for the tile and the engine counted. -/
def preloadCounted (s : State) (t i p k u : Nat) (w : Walk) : State :=
  let a := reach s t i p [3] u
  let free := ((a.core w.core).tile k).releasedAt
  (a.bump Ctr.cellarWaitCc w.core (if w.count = 0 then 0 else free - w.lastRead)).bump Ctr.preloadWaitCc w.core
    (a.now - max w.startAt (max w.lastRead free + 1))

theorem preloadCounted_mem : (preloadCounted s t i p k u w).mem = s.mem := by simp [preloadCounted]

theorem walkAt_preloadCounted : walkAt (preloadCounted s t i p k u w) t i p = walkAt s t i p := by
  unfold preloadCounted
  dsimp only
  rw [walkAt_bump, walkAt_bump, walkAt_reach]

variable (hw : walkOf s t i p = some (r, w)) (hset : w.set = true) (hplain : plainEngine r i = true)
include hw hset hplain

/-- The preload of a walk's next item into the free tile that it takes. -/
theorem execPreloadStart_loads {us : List Nat} (hunits : w.units = u :: us) (hfilling : w.filling = [])
    (hflag : (r.mrec i).flag 1 = true) (hfirst : u % (r.mrec i).split = 0) (hk : nextTile (r.mrec i) w = k)
    (hfree : tileFree s w.core k = true) {o : Nat × Nat × Nat} (ho : outTile s r i p (u / (r.mrec i).split) = o)
    {c : View} (hc : getView s r i p 2 = c) {vs : List (List Val)}
    (hvals : preloadVals (reach s t i p [3] u) c (preView (reach s t i p [3] u) r i p u) (hiOf c o.1) o.2.1 o.2.2
      (List.range (c.rowsIn o.2.1)) (c.colsIn o.2.2) = .ok vs)
    {isInt : Bool} (hint : r.intClass (getView s r i p 0).d.format = isInt) :
    execPreloadStart t i p s = .next (beginFill (preloadCounted s t i p k u w) t i p w.core k u us isInt
      (List.range (c.rowsIn o.2.1)) (vs.map (fun r => r.map (fun v => if isInt then (preInt v).1 else preFloat 0 v)))) := by
  obtain ⟨pl, tr, tc⟩ := o
  have hpreloaded : preloaded s t w = [] := by simp [preloaded, hfilling]
  unfold execPreloadStart
  simp only [hw, hunits, hk, hset, hplain, hflag, hfirst, hfree, hpreloaded, ho, hc, hvals, hint, Bool.not_true, Bool.true_or,
    bne_self_eq_false, List.isEmpty_nil, Bool.or_self, Bool.false_eq_true, if_false]
  rfl

end

/-! TILE_FIRST_READ (R69, R71). -/

/-- The state without its counters. -/
def uncounted (s : State) : State := { s with counters := [] }

@[simp] theorem uncounted_bump (s : State) (k : Nat × Nat) (u n : Nat) : uncounted (s.bump k u n) = uncounted s := by
  unfold State.bump
  split <;> rfl

/-- What the read of a tile counts changes the counters alone. -/
@[simp] theorem uncounted_countTile (s : State) (r : Run) (w : Walk) (j : EngineJob) (res : TileRes) (pace : Pace) (sl : List Bool)
    (cs : List Crate) : uncounted (countTile s r w j res pace sl cs) = uncounted s := by
  unfold countTile
  simp only [apply_ite uncounted, uncounted_bump, ite_self]

/-- A tile read: its rows hold what was accumulated, the tile and the walk are changed, and the turning buffer is empty. -/
def tileRead (a : State) (t i p core k : Nat) (j : EngineJob) (accs : List (List Acc)) (f : CTile → CTile) (g : Walk → Walk) : State :=
  (((putAccs a core k j.isInt j.rows accs).onTile core k f).onCore core (fun c => { c with turn := [] })).onWalk t i p g

section
variable {a : State} {t i p core k : Nat} {j : EngineJob} {accs : List (List Acc)} {f : CTile → CTile} {g : Walk → Walk}

theorem walkAt_tileRead (hmi : ∀ w, (g w).mi = w.mi) (hpos : ∀ w, (g w).pos = w.pos) :
    walkAt (tileRead a t i p core k j accs f g) t i p = (walkAt a t i p).map g := by
  have hcore (u : State) : walkAt (u.onCore core (fun c => { c with turn := [] })) t i p = walkAt u t i p := rfl
  unfold tileRead
  rw [walkAt_onWalk hmi hpos, hcore, walkAt_onTile, walkAt_putAccs]

theorem tileAt_tileRead : tileAt (tileRead a t i p core k j accs f g) core k =
    f (tileAt (putAccs a core k j.isInt j.rows accs) core k) := by
  unfold tileRead
  rw [tileAt_onWalk, tileAt_onCore _ _ _ rfl, tileAt_onTile]

theorem tileRead_mem : (tileRead a t i p core k j accs f g).mem = (putAccs a core k j.isInt j.rows accs).mem := rfl

end

@[simp] theorem walkAt_endReads (s : State) (t i p core t' i' p' : Nat) :
    walkAt (endReads s t i p core) t' i' p' = walkAt s t' i' p' := rfl

@[simp] theorem endReads_mem (s : State) (t i p core : Nat) : (endReads s t i p core).mem = s.mem := rfl

/-- A walk after the read of a tile: with its last read its larders are given up (R177), and else it goes on reading. -/
def readOn (s : State) (r : Run) (t i p core : Nat) (last : Bool) : State :=
  if last = true then endReads s t i p core else noteReaders s r i p

section
variable (s : State) (r : Run) (t i p core : Nat) (last : Bool)

theorem walkAt_readOn (t' i' p' : Nat) : walkAt (readOn s r t i p core last) t' i' p' = walkAt s t' i' p' := by
  cases last with
  | false => exact walkAt_noteReaders s r i p t' i' p'
  | true => rfl

theorem tileAt_readOn (c k : Nat) : tileAt (readOn s r t i p core last) c k = tileAt s c k := by
  cases last with
  | false => exact tileAt_noteReaders s c k r i p
  | true => exact tileAt_endReads s c k t i p core

theorem readOn_mem : (readOn s r t i p core last).mem = s.mem := by
  cases last with
  | false => exact noteReaders_mem s r i p
  | true => rfl

end

section
variable {s : State} {t i p u k : Nat} {r : Run} {w : Walk} (hw : walkOf s t i p = some (r, w)) (hset : w.set = true)
  (hplain : plainEngine r i = true)
include hw hset hplain

/-- The read of a walk's next item, retries and all, in its cellar tile: what it counts aside, the tile holds what the job
accumulated and awaits its drain, and its larders are given up with the last read, or it goes on reading. -/
theorem execTileFirstRead_reads (hnext : upNext s t (r.mrec i) w = some (u, k))
    (hready : w.filling = [] → tileFree s w.core k = true ∧ ((r.mrec i).flag 1 = true → u % (r.mrec i).split ≠ 0))
    {j : EngineJob} {sl : List Bool} (hj : engineJob (reach s t i p [0, 1] u) r w u = .ok (j, sl))
    {pace : Pace} (hpace : itemPace (reach s t i p [0, 1] u) r w j u = .ok pace)
    {cs : List Crate} (hcs : itemCrates (reach s t i p [0, 1] u) r i p 1 u = .ok cs)
    {res : TileRes} (hres : j.run ((r.mrec i).flag 0) 2 0 [] = res) :
    ∃ (a : State) (f : CTile → CTile) (g : Walk → Walk) (last : Bool),
      execTileFirstRead t i p s = .next (readOn (tileRead a t i p w.core k j res.accs f g) r t i p w.core last)
      ∧ uncounted a = uncounted (reach s t i p [0, 1] u)
      ∧ (∀ c, (f c).state = 2 ∧ (f c).retry = res.n ∧ (f c).isInt = j.isInt)
      ∧ (∀ y, (g y).mi = y.mi) ∧ (∀ y, (g y).pos = y.pos)
      ∧ (∀ y, (g y).filling = [] ∧ (g y).draining = y.draining ++ [(u, k)]) := by
  have hgo : (w.filling.isEmpty && (!tileFree s w.core k || (r.mrec i).flag 1 && u % (r.mrec i).split == 0)) = false := by
    rw [Bool.eq_false_iff]
    intro h
    simp only [Bool.and_eq_true, List.isEmpty_iff, Bool.or_eq_true, Bool.not_eq_true', beq_iff_eq] at h
    obtain ⟨hempty, hbusy | ⟨hflag, hfirst⟩⟩ := h
    all_goals obtain ⟨hfree, hlater⟩ := hready hempty
    · simp [hfree] at hbusy
    · exact hlater hflag hfirst
  unfold execTileFirstRead
  simp only [hw, hnext, hset, hplain, hgo, hj, hpace, hcs, hres, bind, Except.bind, Bool.not_true, Bool.or_self,
    Bool.false_eq_true, if_false]
  refine ⟨_, _, _, _, rfl, ?_, fun c => ⟨rfl, rfl, rfl⟩, fun y => rfl, fun y => rfl, fun y => ⟨rfl, rfl⟩⟩
  simp only [apply_ite uncounted, uncounted_bump, uncounted_countTile, ite_self]

end

/-! TILE_DRAIN (R68, R75, R76, R179, R201). -/

/-- A tile released is FREE. -/
theorem tileAt_releaseTile_state (s : State) (w : Walk) (k : Nat) (crated : Bool) :
    (tileAt (releaseTile s w k crated) w.core k).state = 0 := by
  unfold releaseTile
  dsimp only
  rw [tileAt_onCore _ _ _ rfl, tileAt_onTile]

theorem releaseTile_mem (s : State) (w : Walk) (k : Nat) (crated : Bool) : (releaseTile s w k crated).mem = s.mem :=
  (bump_mem _ _ _ _).trans (bump_mem _ _ _ _)

theorem settle_mem (s : State) (t i p : Nat) : (settle s t i p).mem = s.mem := (congrArg State.mem (issuePart_settle s t i p) :)

/-- Whatever the end of a drain issues or ends, its tile is as it was released. -/
theorem tileAt_afterDrain (s : State) (r : Run) (w : Walk) (core k x : Nat) : tileAt (afterDrain s r w k) core x =
    tileAt (releaseTile s w k ((getView s r w.mi w.pos 2).d.form != 0)) core x := by
  have hkept (u : State) (l : List Stream) : tileAt { u with streams := l } core x = tileAt u core x := rfl
  unfold afterDrain
  simp only [apply_ite (fun u => tileAt u core x), hkept, tileAt_settle, tileAt_issueWrites, tileAt_endReads, tileAt_onWalk, ite_self]

theorem afterDrain_mem (s : State) (r : Run) (w : Walk) (k : Nat) : (afterDrain s r w k).mem = s.mem := by
  unfold afterDrain
  simp only [apply_ite State.mem, settle_mem, issueWrites_mem, endReads_mem, onWalk_mem, releaseTile_mem, ite_self]

section
variable {s : State} {t i p item k : Nat} {rest : List (Nat × Nat)} {r : Run} {w : Walk}

/-- Work whose path holds what came before waits, once it has noted that it does (R179). -/
theorem produce_of_waiting (hqueue : unissued s t w.mi w.pos = true) (hheld : w.held = true) (u : State) : produce s u t w = s := by
  simp [produce, hqueue, hheld]

/-- Work is done where the write path has taken what came before, and has room for its writes or holds none (R179). -/
theorem produce_of_room {u : State} (hqueue : unissued s t w.mi w.pos = false)
    (hroom : pathFull u t w.mi w.pos = false ∨ (s.core w.core).writes = []) :
    produce s u t w = u.onWalk t w.mi w.pos (fun w => { w with held := false }) := by
  obtain hroom | hempty := hroom
  · simp [produce, hqueue, hroom]
  · exact produce_of_pathEmpty hqueue hempty u

variable (hw : findWalk s t i p = some (r, w)) (hdraining : w.draining = (item, k) :: rest)
include hw hdraining

theorem execTileDrain_idle (h : ((s.core w.core).tile k).filled = false ∨ drainsNext s w.core t i k = false) :
    execTileDrain t i p s = .next s := by
  unfold execTileDrain
  simp only [hw, hdraining]
  refine congrArg Host.Outcome.next (if_pos ?_)
  obtain h | h := h <;> simp [h]

variable (hfilled : ((s.core w.core).tile k).filled = true) (hturn : drainsNext s w.core t i k = true)
  (hraw : (getView s r i p 2).d.form = 0) {xs : List (List Nat)}
  (hxs : drainCoords (reach s t i p [2, 3] item) r w item = .ok xs)
include hfilled hturn hraw hxs

/-- A tile with an uncorrectable cell fails its record, with the word noted (R75, R409). -/
theorem execTileDrain_bad {x : List Nat} (hx : x ∈ xs) (hbad : cellarBad s w.core (cellAddr k x) 4 = true) (hr : r.stopping = none) :
    execTileDrain t i p s =
      .next (failMacro (noteBad (reach s t i p [2, 3] item) w.core (.bad 3)) t i eDataLost) := by
  have hbadReached : cellarBad (reach s t i p [2, 3] item) w.core (cellAddr k x) 4 = true := by rwa [reach_eq]
  have hvs : cellVals (reach s t i p [2, 3] item) w.core k xs = .error (.bad 3) :=
    if_pos (List.any_eq_true.mpr ⟨x, hx, hbadReached⟩)
  unfold execTileDrain
  simp only [hw, hdraining, hfilled, hturn, hraw, hxs, hvs, hr, bind, Except.bind, bne_self_eq_false, Bool.not_true, Bool.false_and,
    Bool.or_self, Bool.false_eq_true, Option.isSome_none, if_false, failRead]

/-- A tile whose elements pass the epilogue and are written is drained, at once where its run is being stopped, and else as the
write path lets it (R179). -/
theorem execTileDrain_drains (hop : (r.mrec i).opcode ≠ opBwdData) {vs : List (List Nat × Val × Bool)}
    (hvs : cellVals (reach s t i p [2, 3] item) w.core k xs = .ok vs) {l : List (List Nat × Epi)}
    (hl : epilogue (reach s t i p [2, 3] item) r i p ((s.core w.core).tile k).retry vs = .ok l) {d : State}
    (hd : drainTile (reach s t i p [2, 3] item) r w item ((s.core w.core).tile k) l = .ok (.ok d)) :
    execTileDrain t i p s = .next (if r.stopping.isSome = true then afterDrain d r w k
      else produce (reach s t i p [2, 3] item) (afterDrain d r w k) t w) := by
  have hnothing (u : State) (key : Nat × Nat) (c : Nat) : u.bump key c 0 = u := rfl
  unfold execTileDrain
  simp only [hw, hdraining, hfilled, hturn, hraw, hxs, hvs, hl, hop, hnothing, hd, bind, Except.bind, bne_self_eq_false, Bool.not_true,
    Bool.false_and, Bool.or_self, Bool.false_eq_true, and_false, if_false]

end

/-- Settles O23: the engine opcodes by whether their walk is formed, the preload and the read of a tile by what beginning to fill it
and accumulating in it leave, and the drain by the tile's turn, its cells and the write path. -/
theorem enginesAndTiles : Obligations.EnginesAndTiles := by
  unfold Obligations.EnginesAndTiles
  refine ⟨fun s t i p o c r w us hc hw hop hdone => ?walks, fun s t i p r w hw hset => ⟨?preload, ?read⟩,
    fun s t i p item k rest r w hw hdraining => ?drain⟩
  case walks =>
    obtain ⟨hlive, hwalk, -⟩ := walkOf_eq_some_iff.mp hw
    have hat : walkAt s t i p = some w := walkAt_of_live hlive hwalk
    obtain rfl := tag_of_live hlive
    obtain ⟨rfl, rfl⟩ := Run.mi_pos_of_walk hwalk
    rw [exec_of_mem_engineCommands hc, opCmd_of_walk hw hop hdone]
    refine ⟨fun hset hmask hloft hwindow hus => ⟨fun hne => ?_, fun hnone hfilling hdraining hbufs hpred => ?_⟩,
      fun hset hne hloft => congrArg Host.Outcome.next (formWalk_of_formed hset hne hloft hat)⟩
    · exact congrArg Host.Outcome.next (formWalk_of_items hat hset hmask hloft hwindow hus hne)
    · obtain ⟨hended, hmem⟩ := formWalk_of_noItem hat hset hmask hloft hwindow hus hnone hfilling hdraining hbufs hpred hdone
      obtain ⟨x, hx⟩ := walkAt_eq_some_iff.mp hended
      exact ⟨_, x, _, rfl, hx, rfl, hmem⟩
  case preload =>
    intro u us vs hunits hfilling hplain hflag hfirst k hfree c o rows s1 hvals isInt
    obtain ⟨hlive, hwalk, -⟩ := walkOf_eq_some_iff.mp hw
    have hfilled : walkAt (beginFill (preloadCounted s t i p k u w) t i p w.core k u us isInt rows
        (vs.map (fun r => r.map (fun v => if isInt then (preInt v).1 else preFloat 0 v)))) t i p =
          some { w with units := us, count := w.count + 1, filling := w.filling ++ [(u, k)] } := by
      rw [walkAt_beginFill, walkAt_preloadCounted, walkAt_of_live hlive hwalk, Option.map_some]
    obtain ⟨x, hx⟩ := walkAt_eq_some_iff.mp hfilled
    exact ⟨_, x, _, execPreloadStart_loads hw hset hplain hunits hfilling hflag hfirst rfl hfree rfl rfl hvals rfl, hx, rfl,
      by rw [hfilling]; rfl, tileAt_beginFill_state, beginFill_mem.trans (putAccs_mem_congr preloadCounted_mem _ _ _ _ _)⟩
  case read =>
    intro u k j sl pace cs hnext hplain hready s1 hj hpace hcs res
    obtain ⟨hlive, hwalk, -⟩ := walkOf_eq_some_iff.mp hw
    obtain ⟨a, f, g, last, hexec, ha, hf, hmi, hpos, hg⟩ := execTileFirstRead_reads hw hset hplain hnext hready hj hpace hcs rfl
    have hmem : a.mem = s.mem := (congrArg State.mem ha :).trans (reach_mem _ _ _ _ _ _)
    have hat : walkAt a t i p = some w :=
      (walkAt_of_runs (congrArg State.runs ha :) t i p).trans ((walkAt_reach ..).trans (walkAt_of_live hlive hwalk))
    have hread : walkAt (readOn (tileRead a t i p w.core k j res.accs f g) r t i p w.core last) t i p = some (g w) := by
      rw [walkAt_readOn, walkAt_tileRead hmi hpos, hat, Option.map_some]
    have htile : tileAt (readOn (tileRead a t i p w.core k j res.accs f g) r t i p w.core last) w.core k =
        f (tileAt (putAccs a w.core k j.isInt j.rows res.accs) w.core k) := by
      rw [tileAt_readOn, tileAt_tileRead]
    obtain ⟨x, hx⟩ := walkAt_eq_some_iff.mp hread
    obtain ⟨hfilling, hdraining⟩ := hg w
    obtain ⟨hstate, hretry, hint⟩ := hf (tileAt (putAccs a w.core k j.isInt j.rows res.accs) w.core k)
    exact ⟨_, x, _, hexec, hx, hfilling, hdraining ▸ List.mem_append_right _ (List.mem_singleton_self _),
      (congrArg CTile.state htile).trans hstate, (congrArg CTile.retry htile).trans hretry,
      (congrArg CTile.isInt htile).trans hint, (readOn_mem ..).trans (tileRead_mem.trans (putAccs_mem_congr hmem _ _ _ _ _))⟩
  case drain =>
    obtain ⟨hlive, hwalk⟩ := findWalk_eq_some_iff.mp hw
    obtain ⟨rfl, rfl⟩ := Run.mi_pos_of_walk hwalk
    refine ⟨execTileDrain_idle hw hdraining, fun xs x hfilled hturn hraw hxs hx hbad hr => ?bad,
      fun xs vs l d hfilled hturn hraw hop => ?drained⟩
    case bad =>
      have hruns : (noteBad (reach s t w.mi w.pos [2, 3] item) w.core (.bad 3)).runs = s.runs :=
        (bump_runs _ _ _ _).trans (congrArg State.runs (reach_eq s t w.mi w.pos [2, 3] item) :)
      obtain ⟨y, hy, hstop, hmi⟩ := live_failMacro ((live_of_runs hruns t).trans hlive) hr w.mi eDataLost
      exact ⟨_, y, execTileDrain_bad hw hdraining hfilled hturn hraw hxs hx hbad hr, hy, hstop, hmi⟩
    case drained =>
      intro s1 hxs hvs hl hd
      have hexec := execTileDrain_drains hw hdraining hfilled hturn hraw hxs hop hvs hl hd
      refine ⟨fun hstop => ?_, fun hr hqueue hroom => ?_, fun hr hqueue hheld => ?_, ?_, afterDrain_mem d r w k⟩
      · exact hexec.trans (congrArg Host.Outcome.next (if_pos hstop))
      · have hgoes : ¬ r.stopping.isSome = true := by simp [hr]
        rw [if_neg hgoes, produce_of_room hqueue hroom] at hexec
        exact hexec
      · have hgoes : ¬ r.stopping.isSome = true := by simp [hr]
        rw [if_neg hgoes, produce_of_waiting hqueue hheld] at hexec
        exact hexec
      · exact (congrArg CTile.state (tileAt_afterDrain d r w w.core k k) :).trans (tileAt_releaseTile_state _ _ _ _)

end Sys2Proof.Machine
end
